-- ==== Sys2Proof/Word.lean ====
section
/-! DEFINITION. The word types of the Barlys 9 and their plainest arithmetic: 64-bit registers, 32-bit instruction words, lane masks, bytes. -/

namespace Sys2Proof

/-- A scalar register, one lane of a vector register, an address: 64 bits (R51, R59). -/
abbrev Word := BitVec 64

/-- An instruction word (R31), a cell register (R279), a CB element. -/
abbrev Word32 := BitVec 32

/-- A set of lanes, lane L at bit L. -/
abbrev Lanes := BitVec 32

abbrev Byte := BitVec 8

end Sys2Proof
end

