-- ==== Sys2Proof/Config.lean ====
section
/-! DEFINITION. What the spec leaves to an implementation or to chance: free values, each an opaque constant (DESIGN CHOICE, log entries 2, 4, 11, 14). -/

namespace Sys2Proof.Config

/-- Which of the enabled activities the package carries out at step n (R5, R253: agents are independent). -/
opaque pick : Nat → Nat

/-- How many cycles pass at step n (R243, R300, R204 give floors only). -/
opaque cycles : Nat → Nat

/-- The value in which a read of a register under an incomplete load is resolved is chosen by the lanes an access event performs; this is the
choice of those lanes at step n (R129). -/
opaque lanes : Nat → BitVec 32

/-- Whether the nth access of an engine's row, of a copy's row or transfer, or of a binning job performs at step t, where it is still to perform:
they have no order among them (R253). -/
opaque units : Nat → Nat → Bool

/-- LAUNCHID (19), BLKLIN (29) and the block coordinates (32 to 34) of a handler group, by the number given and the block: R208 states none
(DESIGN CHOICE, log entry 28). -/
opaque handlerReg : Nat → Nat → Nat

/-- The bin store in which the header at an address stands, where no PLBIN of the block has built it: R202 gives the header's address alone
(DESIGN CHOICE, log entry 29). -/
opaque binStore : Nat → Nat

/-- Which free entry of the armed table an ARM takes, at step n (R206 names none). -/
opaque armEntry : Nat → Nat

/-- The cluster Zenith takes among those that fit, at step n (R341: the device promises no order). -/
opaque cluster : Nat → Nat

/-- How many cycles beyond one a refill of a slot takes that begins at step n (R224, R318 give none). -/
opaque refill : Nat → Nat

/-- What the boot ROM finds at the reset numbered n: the number of the key that is said to sign the image, that public key, the image, and its
signature (R425). -/
opaque bootImage : Nat → Nat × List (BitVec 8) × List (BitVec 8) × List (BitVec 8)

/-- The security version of an image, and its boot stages: R425 gives an image no layout. -/
opaque imageVersion : List (BitVec 8) → Nat
opaque imageStages : List (BitVec 8) → List (List (BitVec 8))

/-- Repairs that the driver asks for and that fuses take at the reset numbered n, kind by kind: a spare cluster and the failed one; an array,
its group of 128 rows and a row; a stack and a row (R3, R415, R422). -/
opaque clusterRepairs : Nat → List (Nat × Nat)
opaque rowRepairs : Nat → List (Nat × Nat × Nat)
opaque hbmRepairs : Nat → List (Nat × Nat)

/-- The port and the syndrome of an error found on a link at step n (R414). -/
opaque linkError : Nat → BitVec 8 × BitVec 64

/-- Whether an error of UNIT 9 found at step n lies in Zenith's state or in a scoreboard: R413 rolls every live context back for these, and
R414 gives them no UNIT of their own. -/
opaque zenithError : Nat → Bool

/-- The EtherType that the firmware sets as it trains a port at step n, none where it sets none (R368). -/
opaque etherType : Nat → Option (BitVec 16)

/-- Lines that the undo-log area of a context holds; the driver allots it (R417). -/
opaque undoLines : Nat

/-- Entries that a context's invocation overflow area holds; the driver places it (R359). -/
opaque invEntries : Nat

/-- Entries that the package's pending-store overflow area holds; the driver allots it (R340). -/
opaque overflowEntries : Nat

/-- Records that the error ring holds, and where in the host window it begins; the driver places it (R414). -/
opaque errorRing : Nat
opaque errorBase : Nat

/-- The CODE of the state record of an ATTN command whose block was aborted and whose partials are not merged, at step n: R399 states none. -/
opaque abortCode : Nat → Nat

/-- What the word of a gang-register operand is that an operation did not capture at its issue, by the operation's agent number and the word's place:
only a handler's edit of OPA can name one (R305). -/
opaque uncaptured : Nat → Nat → BitVec 64

/-- The region offset that a Virga part names when an error of its engine's own SRAM stops it, at step n: R385 states none. -/
opaque sramOffset : Nat → BitVec 64

end Sys2Proof.Config
end

