-- ==== Sys2Proof/Syntax.lean ====
section
/-! DEFINITION. The Claid instruction set as data: operand forms (R33-R43) and one constructor of Instr per row of
spec/opcode_table.json, the machine's events included. Meanings are in Sys2Proof/Machine. -/

namespace Sys2Proof

/-- Element types, codes 0 to 15 in this order (R59). -/
inductive ElemType where
  | i64 | n64 | f64 | i32 | n32 | f32 | i16 | n16 | f16 | bf16 | i8 | n8 | e4m3 | e5m2 | dya8 | d
deriving DecidableEq, Repr

/-- Special operands, codes 0 to 15 in this order (R39). -/
inductive Special where
  | zero | one | lane | nlane | subix | gidx | bx | byy | bz | tx | ty | tz | drn | negone | half | cyclo
deriving DecidableEq, Repr

/-- A seven-bit source field (R36). -/
inductive Src where
  | reg (r : BitVec 6)
  | latch (n : BitVec 2)
  | imm (v : BitVec 4)
  | spec (c : Special)
deriving DecidableEq, Repr

/-- A destination field that admits N = 1 (R43): a register, or L0 with nothing written. -/
inductive Dst where
  | reg (r : BitVec 6)
  | none
deriving DecidableEq, Repr

/-- The B operand of a row that permits the X[2] broadcast (R42). -/
inductive SrcB where
  | src (a : Src)
  | bcast (r : BitVec 6)
deriving DecidableEq, Repr

/-- A plane cell operand of fields A and B (R191): a cell register or a constant. -/
inductive CellSrc where
  | cell (r : BitVec 5)
  | imm (v : BitVec 4)
  | zero | one | negone | half
deriving DecidableEq, Repr

/-- The B operand of a plane row that permits the X[2] broadcast (R191). -/
inductive CellSrcB where
  | src (a : CellSrc)
  | bcast (r : BitVec 6)
deriving DecidableEq, Repr

/-- The five memory spaces of field X (R33, R126). -/
inductive Space where
  | gl | sp | wb | ab | cb
deriving DecidableEq, Repr

/-- Conditions of VCMP and PLCMP, X 0 to 7 (R101). -/
inductive VCond where
  | eq | ne | lt | le | gt | ge | un | ord
deriving DecidableEq, Repr

/-- Conditions of SCMP, X 0 to 7 (R118). -/
inductive SCond where
  | eq | ne | lt | le | gt | ge | ltu | geu
deriving DecidableEq, Repr

/-- Operations of VRED, X 0 to 5 (R115). -/
inductive RedOp where
  | add | min | max | and | or | xor
deriving DecidableEq, Repr

/-- Operations of VSCAN, ATOMF and PLRED: 0 .add, 1 .min, 2 .max (R116, R137, R199). -/
inductive AmmOp where
  | add | min | max
deriving DecidableEq, Repr

/-- Forms of SEXT (R118). -/
inductive ExtKind where
  | i8 | i16 | i32 | n8 | n16 | n32
deriving DecidableEq, Repr

/-- Operations of ATOM and ATOMS, X 0 to 7 (R136). -/
inductive AtomOp where
  | add | min | max | and | or | xor | xchg | cas
deriving DecidableEq, Repr

/-- Scopes of FENCE and TFENCE, X 0 to 4 (R141), in widening order (R257). -/
inductive Scope where
  | block | span | die | device | sys
deriving DecidableEq, Repr

/-- Selectors of TLGET (R168). -/
inductive TlSel where
  | done | mine | iss
deriving DecidableEq, Repr

/-- Selectors of MQRY (R189). -/
inductive MqSel where
  | cap | drn | res
deriving DecidableEq, Repr

/-- Selectors of VGQRY (R210). -/
inductive VgSel where
  | mis | thr | cap | err
deriving DecidableEq, Repr

/-- Counters of TIMER (R172). -/
inductive TimerSel where
  | cyc | ns
deriving DecidableEq, Repr

/-- Neighbours of PLSHF (R196). -/
inductive Dir where
  | w | e | n | s
deriving DecidableEq, Repr

/-- Functions of PLSFN and of the vector function rows (R107, R192). -/
inductive Fn where
  | rcp | rsq | sqrt | ex2 | lg2 | sinp | cosp | tanh
deriving DecidableEq, Repr

/-- The sub-codes of ILLOP (R56), each with its name. -/
inductive Illop where
  | ill | undef | rsvop | xval | rsvbits | src | dst | modeval | creg | type | immrep | modexpair
deriving DecidableEq, Repr

/-- A group named by its block's identifier and its index in the block (R9, R213). -/
structure GRef where
  blk : Nat
  grp : Nat
deriving DecidableEq, Repr

/-- Where an error was detected, with the rest of its record (R413, R414). -/
structure ErrorInfo where
  addr : Word
  synd : Word
  unit : BitVec 8
  inst : BitVec 8
  ctx : BitVec 6
  sev : BitVec 2
deriving DecidableEq, Repr

/-- What the thermal manager and the firmware read: the hottest junction or HBM sensor in degrees Celsius, and the coolant's flow in tenths of a litre
per minute (R424). -/
structure Reading where
  temp : Nat
  flow : Nat
deriving DecidableEq, Repr

/-- What asks for a freeze (R421), the test port apart. -/
inductive FreezeCause where
  | driver | sev3 | thermal
deriving DecidableEq, Repr

/-- A transport frame that arrives from another package (R369): its header and its payload bytes. -/
structure Frame where
  vr : BitVec 8
  ty : BitVec 8
  srcPkg : BitVec 16
  dstPkg : BitVec 16
  cls : BitVec 8
  seq : Word
  ack : Word
  len : BitVec 32
  ctx : BitVec 32
  payload : List (BitVec 8)
  fcsOk : Bool
  etherType : BitVec 16
  /-- The tag control fields of its IEEE 802.1Q tags (R368). -/
  tags : List (BitVec 16)
deriving DecidableEq, Repr

/-- Every row of spec/opcode_table.json. The first 198 have a 32-bit word; `undef` and `rsvop` stand for the words of
R56 that are no instruction; the rest are events of the machine, whose operands say which agent or record they concern. -/
inductive Instr where
  -- ILL, with opcode 0x00 or, where `ones` holds, as the all-ones word (R56); NOP
  | ill (ones : Bool) (i : BitVec 24)
  -- vector family (R95-R117)
  | vadd (d : Dst) (a : Src) (b : SrcB)
  | vsub (d : Dst) (a : Src) (b : SrcB)
  | vmul (d : Dst) (a : Src) (b : SrcB)
  | vmad (d : Dst) (a : Src) (b : SrcB)
  | vmadn (d : Dst) (a : Src) (b : SrcB)
  | vmin (d : Dst) (a : Src) (b : SrcB)
  | vmax (d : Dst) (a : Src) (b : SrcB)
  | vabs (d : Dst) (a : Src)
  | vneg (d : Dst) (a : Src)
  | vclmp (d : Dst) (a : Src) (b : SrcB)
  | vand (d : Dst) (a : Src) (b : SrcB)
  | vor (d : Dst) (a : Src) (b : SrcB)
  | vxor (d : Dst) (a : Src) (b : SrcB)
  | vnot (d : Dst) (a : Src)
  | vshl (d : Dst) (a : Src) (b : SrcB)
  | vshr (d : Dst) (a : Src) (b : SrcB) (r : Bool)
  | vrot (d : Dst) (a : Src) (b : SrcB)
  | vpopc (d : Dst) (a : Src)
  | vclz (d : Dst) (a : Src)
  | vmulh (d : Dst) (a : Src) (b : SrcB)
  | vabd (d : Dst) (a : Src) (b : SrcB)
  | vcmp (d : BitVec 5) (a : Src) (b : Src) (c : VCond)
  | vsel (d : Dst) (a : Src) (b : SrcB)
  | vmov (d : Dst) (a : Src)
  | vaddi (d : Dst) (a : Src) (i : BitVec 10)
  | vmovi (d : Dst) (i : BitVec 10)
  | vdot (d : Dst) (a : Src) (b : SrcB)
  | vhsum (d : Dst) (a : Src)
  | vpack (d : Dst) (a : Src) (b : SrcB) (h : Bool)
  | vunpk (d : Dst) (a : Src) (b : SrcB) (h : Bool)
  | vcvt (d : Dst) (a : Src) (st : ElemType) (p : BitVec 3)
  | vrint (d : Dst) (a : Src) (nx : Bool)
  | vcpys (d : Dst) (a : Src) (b : Src)
  | vfcls (d : Dst) (a : Src)
  | vrcp (d : Dst) (a : Src)
  | vrsq (d : Dst) (a : Src)
  | vsqrt (d : Dst) (a : Src)
  | vdiv (d : Dst) (a : Src) (b : SrcB)
  | vex2 (d : Dst) (a : Src)
  | vlg2 (d : Dst) (a : Src)
  | vsinp (d : Dst) (a : Src)
  | vcosp (d : Dst) (a : Src)
  | vtanh (d : Dst) (a : Src)
  | vperm (d : Dst) (a : Src) (b : SrcB)
  | vbcst (d : Dst) (a : Src) (b : Src)
  | vslid (d : Dst) (a : Src) (b : Src) (r : Bool)
  | vred (d : Dst) (a : Src) (b : Src) (p : RedOp)
  | vscan (d : Dst) (a : Src) (b : Src) (p : AmmOp) (ex : Bool)
  | vbal (d : Dst) (a : Src) (c : Bool)
  -- scalar family (R118-R120)
  | sadd (d : Dst) (a : Src) (b : Src)
  | ssub (d : Dst) (a : Src) (b : Src)
  | smul (d : Dst) (a : Src) (b : Src)
  | smulh (d : Dst) (a : Src) (b : Src) (u : Bool)
  | smad (d : Dst) (a : Src) (b : Src)
  | sdiv (d : Dst) (a : Src) (b : Src) (u : Bool)
  | srem (d : Dst) (a : Src) (b : Src) (u : Bool)
  | sand (d : Dst) (a : Src) (b : Src)
  | sor (d : Dst) (a : Src) (b : Src)
  | sxor (d : Dst) (a : Src) (b : Src)
  | snot (d : Dst) (a : Src)
  | sshl (d : Dst) (a : Src) (b : Src)
  | sshr (d : Dst) (a : Src) (b : Src) (u : Bool)
  | srot (d : Dst) (a : Src) (b : Src)
  | smin (d : Dst) (a : Src) (b : Src) (u : Bool)
  | smax (d : Dst) (a : Src) (b : Src) (u : Bool)
  | spopc (d : Dst) (a : Src)
  | sclz (d : Dst) (a : Src)
  | scmp (d : Dst) (a : Src) (b : Src) (c : SCond)
  | ssel (d : Dst) (a : Src) (b : Src)
  | smov (d : Dst) (a : Src)
  | saddi (d : Dst) (a : Src) (i : BitVec 10)
  | smovi (d : Dst) (i : BitVec 10)
  | sshi (d : Dst) (i : BitVec 10)
  | slea (d : Dst) (a : Src) (b : Src) (n : BitVec 3)
  | sext (d : Dst) (a : Src) (t : ExtKind)
  | sbfx (d : Dst) (a : Src) (b : Src) (s : Bool)
  | sbfi (d : Dst) (a : Src) (b : Src)
  -- control family (R155-R164)
  | bra (o : BitVec 24)
  | brs (c : BitVec 6) (n : Bool) (o : BitVec 12)
  | brp (c : BitVec 5) (n : Bool) (t : BitVec 4) (o : BitVec 12)
  | brk (c : BitVec 5) (n : Bool) (t : BitVec 4) (o : BitVec 12)
  | join (t : BitVec 4)
  | call (k : BitVec 4) (o : BitVec 20)
  | calli (a : Src) (k : BitVec 4)
  | ret (k : BitVec 4)
  | jmpi (a : Src)
  | trap (i : BitVec 24)
  | dbnz (c : BitVec 6) (n : Bool) (o : BitVec 12)
  -- predicate family (R121-R122)
  | pand (d : BitVec 5) (a : BitVec 5) (b : BitVec 5) (n : Bool)
  | por (d : BitVec 5) (a : BitVec 5) (b : BitVec 5) (n : Bool)
  | pxor (d : BitVec 5) (a : BitVec 5) (b : BitVec 5) (n : Bool)
  | pnot (d : BitVec 5) (a : BitVec 5)
  | pmov (d : BitVec 5) (a : BitVec 5)
  | psetm (d : BitVec 5) (a : Src)
  | pgetm (d : BitVec 6) (a : BitVec 5) (m : Bool)
  | pany (d : BitVec 6) (a : BitVec 5)
  | pall (d : BitVec 6) (a : BitVec 5)
  | pcnt (d : BitVec 6) (a : BitVec 5)
  -- memory family (R124-R154)
  | vld (d : Dst) (a : Src) (b : Src) (x : Space)
  | vst (d : BitVec 6) (a : Src) (b : Src) (x : Space)
  | vlde (d : Dst) (a : Src) (b : Src) (x : Space)
  | vste (d : BitVec 6) (a : Src) (b : Src) (x : Space)
  | vldd (d : BitVec 5) (a : Src) (b : Src)
  | sld (d : Dst) (a : Src) (b : Src) (spm : Bool)
  | sst (d : BitVec 6) (a : Src) (b : Src) (spm : Bool)
  | vldb (d : Dst) (a : Src) (b : Src) (x : Space)
  | vstb (d : BitVec 6) (a : Src) (b : Src) (x : Space)
  | ldds (d : Dst) (a : Src) (b : Src)
  | stds (d : BitVec 6) (a : Src) (b : Src)
  | vgath (d : Dst) (a : BitVec 6) (b : Src) (x : Space)
  | atom (d : Dst) (a : Src) (b : Src) (p : AtomOp)
  | atoms (d : Dst) (a : Src) (b : Src) (p : AtomOp)
  | atomf (d : Dst) (a : Src) (b : Src) (p : AmmOp)
  | atomo (a : Src) (b : Src)
  | waitc (k : BitVec 10)
  | waitv (d : BitVec 6) (a : Src)
  | fence (sc : Scope)
  | tfence (sc : Scope)
  | pref (a : Src) (b : Src)
  | samp (d : Dst) (a : Src) (b : Src) (hi : Bool)
  | sampg (d : Dst) (a : Src) (b : Src) (hi : Bool)
  | cpa (d : BitVec 6) (a : Src) (b : Src) (t : BitVec 3)
  | cpwt (k : BitVec 7) (t : BitVec 3)
  | cpb (a : Src)
  | cpt (a : Src) (b : Src)
  | syncw (a : Src) (b : Src)
  -- synchronisation family (R165-R170)
  | bar (a : Src) (n : BitVec 4)
  | bara (a : Src) (n : BitVec 4)
  | barw (a : Src) (n : BitVec 4)
  | tlwait (a : Src) (n : BitVec 4)
  | tladv (a : Src) (n : BitVec 4)
  | tlget (d : Dst) (sel : TlSel) (n : BitVec 4)
  | gangset (a : Src)
  -- matrix family (R179-R189)
  | mma (d : BitVec 6) (a : BitVec 6) (b : BitVec 6)
  | mmal (d : BitVec 6) (a : BitVec 6) (b : BitVec 6)
  | mconv (d : BitVec 6) (a : BitVec 6) (b : BitVec 6)
  | mconvl (d : BitVec 6) (a : BitVec 6) (b : BitVec 6)
  | mdrn (a : Src) (b : Src)
  | mdst (d : BitVec 6) (a : Src) (b : Src) (x : BitVec 2)
  | mlda (d : BitVec 6) (a : Src) (b : Src) (x : BitVec 2)
  | mqry (d : BitVec 6) (sel : MqSel)
  -- plane family (R190-R203)
  | plwin (a : Src)
  | pleval (d : BitVec 5) (a : BitVec 6)
  | plexp (d : BitVec 5) (a : BitVec 6)
  | pllin (d : BitVec 5) (a : BitVec 6)
  | plfma (d : BitVec 5) (a : CellSrc) (b : CellSrcB)
  | pladd (d : BitVec 5) (a : CellSrc) (b : CellSrcB)
  | plmul (d : BitVec 5) (a : CellSrc) (b : CellSrcB)
  | plmin (d : BitVec 5) (a : CellSrc) (b : CellSrcB)
  | plmax (d : BitVec 5) (a : CellSrc) (b : CellSrcB)
  | plmov (d : BitVec 5) (a : CellSrc)
  | plcmp (a : CellSrc) (b : CellSrc) (c : VCond)
  | plsel (d : BitVec 5) (a : CellSrc) (b : CellSrcB)
  | plshf (d : BitVec 5) (a : CellSrc) (cl : Bool) (dir : Dir)
  | plld (d : BitVec 5) (a : Src) (b : Src) (spm : Bool)
  | plst (d : BitVec 5) (a : Src) (b : Src) (spm : Bool)
  | plred (d : BitVec 6) (a : CellSrc) (b : Src) (p : AmmOp)
  | plexc (d : BitVec 6) (a : Src) (clr : Bool)
  | plvis (a : CellSrc) (b : BitVec 6) (le : Bool)
  | plbld (d : BitVec 5) (a : CellSrc) (b : BitVec 6)
  | pltile (a : Src) (b : Src)
  | plflg (d : BitVec 6) (clr : Bool)
  | plsfn (d : BitVec 5) (a : CellSrc) (f : Fn)
  | plclr (i : BitVec 5)
  | plbin (a : Src)
  -- launch, handle and Virga family (R205-R210)
  | launch (d : BitVec 6) (a : Src)
  | arm (d : BitVec 6) (a : Src)
  | disarm (d : BitVec 6) (a : Src)
  | invoke (d : BitVec 6) (a : Src) (b : Src)
  | invh (d : BitVec 6) (a : Src) (b : Src)
  | hwait (d : BitVec 6) (a : Src)
  | hres (a : Src) (fwd : Bool)
  | hbrk (a : Src)
  | hqry (d : BitVec 6) (a : Src)
  | hfree (a : Src)
  | vgcmd (d : BitVec 6) (a : Src) (b : Src)
  | vgqry (d : BitVec 6) (a : Src) (sel : VgSel)
  -- system family (R171-R174, R47-R53)
  | mode (i : BitVec 14)
  | modex (i : BitVec 14)
  | getc (d : Dst) (i : BitVec 10)
  | setc (a : Src) (i : BitVec 10)
  | timer (d : Dst) (sel : TimerSel)
  | ckpt (d : Dst) (a : Src) (q : Bool)
  | bkpt (i : BitVec 24)
  -- words that are no instruction (R56)
  | undef (i : BitVec 27)
  | rsvop (w : BitVec 32)
  -- events: the core and its groups
  | quantumSwitch (core : Nat)
  | loadComplete (g : GRef)
  | accessPerform (g : GRef) (k : Nat) (lanes : BitVec 32)
  | pageTableWalk (ctx : Nat) (agent : Nat) (va : BitVec 64)
  | trapEntry (g : GRef)
  | groupRetire (g : GRef)
  -- events: Zenith and pre-emption
  | completionWrite (gid : Nat)
  | atomoApplication (gid : Nat)
  | blockStart (cluster : Nat)
  | preemption (blk : Nat)
  | forcedPreemption (blk : Nat)
  | restoration (blk : Nat) (cluster : Nat)
  | eviction (blk : Nat)
  | suspension (ctx : Nat)
  | driverKill (gid : Nat)
  | contextDestroy (ctx : Nat)
  -- events: engines
  | matrixOpStart (blk : Nat) (op : Nat)
  | matrixStep (blk : Nat)
  | engineOpComplete (blk : Nat) (op : Nat)
  | planeOp (blk : Nat)
  | binningJob (blk : Nat)
  | cpaTransferComplete (g : GRef) (k : Nat)
  | copyRow (blk : Nat) (op : Nat) (slice : Nat)
  | vgcmdStart (blk : Nat) (op : Nat)
  | virgaWave (blk : Nat) (op : Nat) (chan : Nat)
  | virgaWindowEnd (chan : Nat)
  | bankServiceEnd (chan : Nat)
  | virgaMerge (blk : Nat) (op : Nat)
  -- events: handles and invocations
  | handlerStart (k : Nat)
  | invocationArrival (k : Nat)
  | hwaitRegistration (k : Nat)
  | hwaitAnswer (k : Nat)
  | resolutionArrival (k : Nat)
  | forwardArrival (k : Nat)
  | forwardProbe (k : Nat)
  | breakArrival (k : Nat)
  | homeAnswer (k : Nat)
  -- events: queues, host, fabrics
  | hostQueueRecord (q : Nat)
  | queueResume (ring : Bool) (q : Nat)
  | taggedMessage (pkg : Nat) (ctx : Nat) (tag : BitVec 32) (payload : List (BitVec 8))
  | frameReceive (f : Frame)
  | retransmit (pkg : Nat)
  | connectionFailure (pkg : Nat)
  | sendRingDescriptor (r : Nat)
  | bridgeFailure (a : Nat) (b : Nat)
  | hostAccess (write : Bool) (pa : Nat) (bytes : List (BitVec 8))
  | contextDescriptorWrite (ctx : Nat) (desc : List (BitVec 8))
  | capabilityTableWrite (stack : Nat) (index : Nat) (entry : BitVec 128)
  | shootdown (ctx : Nat)
  | errorDetected (e : ErrorInfo)
  | freeze (c : FreezeCause)
  | thermalStep (r : Reading) (sensor : Nat)
  | attestationRequest (nonce : List (BitVec 8))
  | hfreeArrival (k : Nat)
  | linkTraining (port : Nat)
  | connectionReestablished (pkg : Nat)
  | queueBinding (ring : Bool) (q : Nat) (ctx : Nat) (cb : Nat)
  | contextCreation (ctx : Nat) (desc : List (BitVec 8))
  -- rows without operands
  | nop
  | exit
  | rft
  | ordcl
  | sbar
  | yield
  | mzero
  | plbind
  | plfree
  | plif
  | plelse
  | plend
  | flagchk
  | candidateHold
  | pri0Displacement
  | checkpointCommit
  | tapFreeze
  | testPortReadout
  | coldReset
  | warmReset
  | powerOff
deriving DecidableEq, Repr

end Sys2Proof
end

