-- ==== Sys2Proof/WellFormed.lean ====
section
/-! DEFINITION. Which terms of Instr a word of the machine can stand for: the static conditions of R36, R41-R43, R46, R48, R53, R121,
R178, R191 and the entries that add their own. The events have no word, and every event is well-formed. -/

namespace Sys2Proof

/-- The lane-varying specials: codes 2, 4 and 9 to 12 (R39, R41). -/
def Special.laneVarying : Special → Bool
  | .lane | .subix | .tx | .ty | .tz | .drn => true
  | .zero | .one | .nlane | .gidx | .bx | .byy | .bz | .negone | .half | .cyclo => false

def Src.isDrn : Src → Bool
  | .spec .drn => true
  | _ => false

def Src.isLatch : Src → Bool
  | .latch _ => true
  | _ => false

/-- A scalar source (R118) or a uniform operand of the vector family (R111): no lane-varying special. -/
def scalarOk : Src → Bool
  | .spec c => !c.laneVarying
  | _ => true

/-- A uniform operand outside the vector and scalar families (R125): as `scalarOk`, and no latch (R46), for CALLI and JMPI too.
DEDUCED: log entry 62. -/
def uniformOk (a : Src) : Bool := scalarOk a && !a.isLatch

/-- A per-lane operand outside the vector family: no latch (R46), no %drn (R41). Immediates and specials give every lane their value.
DEDUCED: log entry 66. -/
def laneOk (a : Src) : Bool := !a.isLatch && !a.isDrn

/-- A predicate number is 0 to 23 (R43, R121). -/
def predOk (p : BitVec 5) : Bool := decide (p.toNat < 24)

/-- %drn stands at most once in a word (R41). -/
def drnOk (a : Src) : SrcB → Bool
  | .src b => !(a.isDrn && b.isDrn)
  | .bcast _ => true

/-- A run of n registers from r ends at or below 63 (R178). -/
def runOk (r : BitVec 6) (n : Nat) : Bool := decide (r.toNat + n ≤ 64)

/-- The values MODE may hold (R48): GP 0-23 or 31, no negated always, RND 0-4; the 14 bits are SAT, RND, TYPE, GN, GP (R47). -/
def modeLegal (m : BitVec 14) : Bool :=
  let gp := m.toNat % 32
  let gn := m.getLsbD 5
  let rnd := m.toNat / 1024 % 8
  (decide (gp < 24) || (gp == 31 && !gn)) && decide (rnd < 5)

/-- The reserved opcodes inside the families (R56, sub-code 3). -/
def reservedOp (op : BitVec 8) : Bool :=
  let n := op.toNat
  (decide (0x33 ≤ n) && decide (n ≤ 0x3F)) || (decide (0x5C ≤ n) && decide (n ≤ 0x5F)) ||
  (decide (0x6D ≤ n) && decide (n ≤ 0x6F)) || (decide (0x7A ≤ n) && decide (n ≤ 0x7F)) ||
  (decide (0x9D ≤ n) && decide (n ≤ 0x9F)) || (decide (0xA9 ≤ n) && decide (n ≤ 0xAF)) ||
  (decide (0xB9 ≤ n) && decide (n ≤ 0xBF)) || (decide (0xDD ≤ n) && decide (n ≤ 0xDF)) ||
  (decide (0xEC ≤ n) && decide (n ≤ 0xEF))

/-- A term that some word decodes to, or an event. -/
def WellFormed : Instr → Bool
  | .ill ones i => !ones || i == 0xFFFFFF
  | .nop => true
  | .vadd _ a b => drnOk a b
  | .vsub _ a b => drnOk a b
  | .vmul _ a b => drnOk a b
  | .vmad _ a b => drnOk a b
  | .vmadn _ a b => drnOk a b
  | .vmin _ a b => drnOk a b
  | .vmax _ a b => drnOk a b
  | .vabs _ _ => true
  | .vneg _ _ => true
  | .vclmp _ a b => drnOk a b
  | .vand _ a b => drnOk a b
  | .vor _ a b => drnOk a b
  | .vxor _ a b => drnOk a b
  | .vnot _ _ => true
  | .vshl _ a b => drnOk a b
  | .vshr _ a b _ => drnOk a b
  | .vrot _ a b => drnOk a b
  | .vpopc _ _ => true
  | .vclz _ _ => true
  | .vmulh _ a b => drnOk a b
  | .vabd _ a b => drnOk a b
  | .vcmp d a b _ => predOk d && drnOk a (.src b)
  | .vsel _ a b => drnOk a b
  | .vmov _ _ => true
  | .vaddi _ _ _ => true
  | .vmovi _ _ => true
  | .vdot _ a b => drnOk a b
  | .vhsum _ _ => true
  | .vpack _ a b _ => drnOk a b
  | .vunpk _ a b _ => drnOk a b
  | .vcvt _ _ st _ => st != .d
  | .vrint _ _ _ => true
  | .vcpys _ a b => drnOk a (.src b)
  | .vfcls _ _ => true
  | .vrcp _ _ => true
  | .vrsq _ _ => true
  | .vsqrt _ _ => true
  | .vdiv _ a b => drnOk a b
  | .vex2 _ _ => true
  | .vlg2 _ _ => true
  | .vsinp _ _ => true
  | .vcosp _ _ => true
  | .vtanh _ _ => true
  | .vperm _ a b => drnOk a b
  | .vbcst _ _ b => scalarOk b
  | .vslid _ _ b _ => scalarOk b
  | .vred _ _ b _ => scalarOk b
  | .vscan _ _ b _ _ => scalarOk b
  | .vbal _ _ _ => true
  | .sadd _ a b => scalarOk a && scalarOk b
  | .ssub _ a b => scalarOk a && scalarOk b
  | .smul _ a b => scalarOk a && scalarOk b
  | .smulh _ a b _ => scalarOk a && scalarOk b
  | .smad _ a b => scalarOk a && scalarOk b
  | .sdiv _ a b _ => scalarOk a && scalarOk b
  | .srem _ a b _ => scalarOk a && scalarOk b
  | .sand _ a b => scalarOk a && scalarOk b
  | .sor _ a b => scalarOk a && scalarOk b
  | .sxor _ a b => scalarOk a && scalarOk b
  | .snot _ a => scalarOk a
  | .sshl _ a b => scalarOk a && scalarOk b
  | .sshr _ a b _ => scalarOk a && scalarOk b
  | .srot _ a b => scalarOk a && scalarOk b
  | .smin _ a b _ => scalarOk a && scalarOk b
  | .smax _ a b _ => scalarOk a && scalarOk b
  | .spopc _ a => scalarOk a
  | .sclz _ a => scalarOk a
  | .scmp _ a b _ => scalarOk a && scalarOk b
  | .ssel _ a b => scalarOk a && scalarOk b
  | .smov _ a => scalarOk a
  | .saddi _ a _ => scalarOk a
  | .smovi _ _ => true
  | .sshi _ _ => true
  | .slea _ a b _ => scalarOk a && scalarOk b
  | .sext _ a _ => scalarOk a
  | .sbfx _ a b _ => scalarOk a && scalarOk b
  | .sbfi _ a b => scalarOk a && scalarOk b
  | .bra _ => true
  | .brs _ _ _ => true
  | .brp c _ _ _ => predOk c
  | .brk c _ _ _ => predOk c
  | .join _ => true
  | .call _ _ => true
  | .calli a _ => uniformOk a
  | .ret _ => true
  | .jmpi a => uniformOk a
  | .exit => true
  | .trap _ => true
  | .rft => true
  | .dbnz _ _ _ => true
  | .pand d a b _ => predOk d && predOk a && predOk b
  | .por d a b _ => predOk d && predOk a && predOk b
  | .pxor d a b _ => predOk d && predOk a && predOk b
  | .pnot d a => predOk d && predOk a
  | .pmov d a => predOk d && predOk a
  | .psetm d a => predOk d && uniformOk a
  | .pgetm _ a _ => predOk a
  | .pany _ a => predOk a
  | .pall _ a => predOk a
  | .pcnt _ a => predOk a
  | .vld _ a b _ => laneOk a && uniformOk b
  | .vst _ a b _ => laneOk a && uniformOk b
  | .vlde _ a b _ => laneOk a && uniformOk b
  | .vste _ a b _ => laneOk a && uniformOk b
  | .vldd _ a b => laneOk a && uniformOk b
  | .sld _ a b _ => uniformOk a && uniformOk b
  | .sst _ a b _ => uniformOk a && uniformOk b
  | .vldb _ a b _ => uniformOk a && uniformOk b
  | .vstb _ a b _ => uniformOk a && uniformOk b
  | .ldds _ a b => laneOk a && uniformOk b
  | .stds _ a b => laneOk a && uniformOk b
  | .vgath _ _ b _ => uniformOk b
  | .atom _ a b _ => laneOk a && laneOk b
  | .atoms _ a b _ => laneOk a && laneOk b
  | .atomf _ a b _ => laneOk a && laneOk b
  | .atomo a b => laneOk a && laneOk b
  | .ordcl => true
  | .waitc _ => true
  | .waitv _ a => uniformOk a
  | .fence _ => true
  | .tfence _ => true
  | .pref a b => laneOk a && uniformOk b
  | .samp _ a b _ => laneOk a && uniformOk b
  | .sampg _ a b _ => laneOk a && uniformOk b
  | .cpa _ a b _ => laneOk a && laneOk b
  | .cpwt _ _ => true
  | .cpb a => uniformOk a
  | .cpt a b => uniformOk a && uniformOk b
  | .syncw a b => uniformOk a && uniformOk b
  | .bar a _ => uniformOk a
  | .bara a _ => uniformOk a
  | .barw a _ => uniformOk a
  | .sbar => true
  | .tlwait a _ => uniformOk a
  | .tladv a n => uniformOk a && decide (4 ≤ n.toNat)
  | .tlget _ _ _ => true
  | .yield => true
  | .gangset a => uniformOk a
  | .mma _ a b => runOk a 2 && runOk b 2
  | .mmal d a b => runOk d 2 && runOk a 2 && runOk b 2
  | .mconv d a b => runOk d 2 && runOk a 2 && runOk b 2
  | .mconvl d a b => runOk d 3 && runOk a 2 && runOk b 2
  | .mzero => true
  | .mdrn a b => uniformOk a && uniformOk b
  | .mdst _ a b _ => uniformOk a && uniformOk b
  | .mlda _ a b _ => uniformOk a && uniformOk b
  | .mqry _ _ => true
  | .plbind => true
  | .plfree => true
  | .plwin a => uniformOk a
  | .pleval _ a => runOk a 6
  | .plexp _ a => runOk a 6
  | .pllin _ a => runOk a 3
  | .plfma _ _ _ => true
  | .pladd _ _ _ => true
  | .plmul _ _ _ => true
  | .plmin _ _ _ => true
  | .plmax _ _ _ => true
  | .plmov _ _ => true
  | .plcmp _ _ _ => true
  | .plif => true
  | .plelse => true
  | .plend => true
  | .plsel _ _ _ => true
  | .plshf _ _ _ _ => true
  | .plld _ a b _ => uniformOk a && uniformOk b
  | .plst _ a b _ => uniformOk a && uniformOk b
  | .plred _ _ b _ => uniformOk b
  | .plexc _ a _ => uniformOk a
  | .plvis _ _ _ => true
  | .plbld d _ b => decide (d.toNat ≤ 28) && runOk b 2
  | .pltile a b => uniformOk a && uniformOk b
  | .plflg _ _ => true
  | .plsfn _ _ _ => true
  | .plclr _ => true
  | .plbin a => uniformOk a
  | .launch _ a => uniformOk a
  | .arm _ a => uniformOk a
  | .disarm _ a => uniformOk a
  | .invoke _ a b => uniformOk a && uniformOk b
  | .invh _ a b => uniformOk a && uniformOk b
  | .hwait d a => runOk d 2 && uniformOk a
  | .hres a _ => uniformOk a
  | .hbrk a => uniformOk a
  | .hqry _ a => uniformOk a
  | .hfree a => uniformOk a
  | .vgcmd _ a b => uniformOk a && uniformOk b
  | .vgqry _ a _ => uniformOk a
  | .mode i => modeLegal i
  | .modex i => modeLegal i
  | .getc _ i => decide (i.toNat < 30)
  | .setc a i => uniformOk a && decide (i.toNat < 30)
  | .timer _ _ => true
  | .ckpt _ a q => uniformOk a && (!q || a == .reg 0)
  | .flagchk => true
  | .bkpt _ => true
  | .undef i => i != 0x7FFFFFF
  | .rsvop w => reservedOp (w.extractLsb' 24 8)
  | .quantumSwitch _ => true
  | .loadComplete _ => true
  | .accessPerform _ _ _ => true
  | .pageTableWalk _ _ _ => true
  | .trapEntry _ => true
  | .groupRetire _ => true
  | .completionWrite _ => true
  | .atomoApplication _ => true
  | .blockStart _ => true
  | .candidateHold => true
  | .pri0Displacement => true
  | .preemption _ => true
  | .forcedPreemption _ => true
  | .restoration _ _ => true
  | .eviction _ => true
  | .suspension _ => true
  | .driverKill _ => true
  | .contextDestroy _ => true
  | .matrixOpStart _ _ => true
  | .matrixStep _ => true
  | .engineOpComplete _ _ => true
  | .planeOp _ => true
  | .binningJob _ => true
  | .cpaTransferComplete _ _ => true
  | .copyRow _ _ _ => true
  | .vgcmdStart _ _ => true
  | .virgaWave _ _ _ => true
  | .virgaWindowEnd _ => true
  | .bankServiceEnd _ => true
  | .virgaMerge _ _ => true
  | .handlerStart _ => true
  | .invocationArrival _ => true
  | .hwaitRegistration _ => true
  | .hwaitAnswer _ => true
  | .resolutionArrival _ => true
  | .forwardArrival _ => true
  | .forwardProbe _ => true
  | .breakArrival _ => true
  | .homeAnswer _ => true
  | .hostQueueRecord _ => true
  | .queueResume _ _ => true
  | .taggedMessage _ _ _ _ => true
  | .frameReceive _ => true
  | .retransmit _ => true
  | .connectionFailure _ => true
  | .sendRingDescriptor _ => true
  | .bridgeFailure _ _ => true
  | .hostAccess _ _ _ => true
  | .contextDescriptorWrite _ _ => true
  | .capabilityTableWrite _ _ _ => true
  | .shootdown _ => true
  | .errorDetected _ => true
  | .checkpointCommit => true
  | .freeze _ => true
  | .tapFreeze => true
  | .testPortReadout => true
  | .thermalStep _ _ => true
  | .attestationRequest _ => true
  | .coldReset => true
  | .warmReset => true
  | .hfreeArrival _ => true
  | .linkTraining _ => true
  | .connectionReestablished _ => true
  | .queueBinding _ _ _ _ => true
  | .contextCreation _ _ => true
  | .powerOff => true

/-- The rows of the opcode table that are events: things the machine or its surroundings do, which no word encodes. -/
def Instr.isEvent : Instr → Bool
  | .quantumSwitch .. | .loadComplete .. | .accessPerform .. | .pageTableWalk .. | .trapEntry .. | .groupRetire .. | .completionWrite ..
  | .atomoApplication .. | .blockStart .. | .candidateHold | .pri0Displacement | .preemption .. | .forcedPreemption .. | .restoration ..
  | .eviction .. | .suspension .. | .driverKill .. | .contextDestroy .. | .matrixOpStart .. | .matrixStep .. | .engineOpComplete ..
  | .planeOp .. | .binningJob .. | .cpaTransferComplete .. | .copyRow .. | .vgcmdStart .. | .virgaWave .. | .virgaWindowEnd ..
  | .bankServiceEnd .. | .virgaMerge .. | .handlerStart .. | .invocationArrival .. | .hwaitRegistration .. | .hwaitAnswer ..
  | .resolutionArrival .. | .forwardArrival .. | .forwardProbe .. | .breakArrival .. | .homeAnswer .. | .hostQueueRecord ..
  | .queueResume .. | .taggedMessage .. | .frameReceive .. | .retransmit .. | .connectionFailure .. | .sendRingDescriptor ..
  | .bridgeFailure .. | .hostAccess .. | .contextDescriptorWrite .. | .capabilityTableWrite .. | .shootdown .. | .errorDetected ..
  | .checkpointCommit | .freeze .. | .tapFreeze | .testPortReadout | .thermalStep .. | .attestationRequest .. | .coldReset | .warmReset
  | .hfreeArrival .. | .linkTraining .. | .connectionReestablished .. | .queueBinding .. | .contextCreation .. | .powerOff => true
  | _ => false

end Sys2Proof
end

