-- ==== Sys2Proof/Decode.lean ====
section
/-! DEFINITION. From a 32-bit word to an instruction (R31-R46, R54, R56), total, rejecting with the lowest applicable static sub-code of
ILLOP; then the encoder, and the row query of the opcode table. The sub-codes that depend on MODE or on a register's value (4 of VCVT's part,
5 and 8 of SETC, 6 of VGATH's run, 10, 11, 12) are found by the meanings. -/

namespace Sys2Proof

/-- The number of a sub-code (R56). -/
def Illop.code : Illop → Nat
  | .ill => 1 | .undef => 2 | .rsvop => 3 | .xval => 4 | .rsvbits => 5 | .src => 6
  | .dst => 7 | .modeval => 8 | .creg => 9 | .type => 10 | .immrep => 11 | .modexpair => 12

/-- Of two conditions that hold at once, the lower sub-code is reported (R57). -/
def Illop.lower (a b : Illop) : Illop := if a.code ≤ b.code then a else b

abbrev Dec (α : Type) := Except Illop α

/-- Apply a decoded function to a decoded field; the lower sub-code wins. -/
def ap {α β : Type} (f : Dec (α → β)) (x : Dec α) : Dec β :=
  match f, x with
  | .ok f, .ok x => .ok (f x)
  | .error e, .ok _ => .error e
  | .ok _, .error e => .error e
  | .error e, .error e' => .error (e.lower e')

/-- A further condition on the word; the lower sub-code wins. -/
def req {α : Type} (b : Bool) (e : Illop) (x : Dec α) : Dec α :=
  match b, x with
  | true, x => x
  | false, .ok _ => .error e
  | false, .error e' => .error (e.lower e')

-- The fields of a word (R33).
def fOp (w : Word32) : BitVec 8 := w.extractLsb' 24 8
def fD (w : Word32) : BitVec 7 := w.extractLsb' 17 7
def fA (w : Word32) : BitVec 7 := w.extractLsb' 10 7
def fB (w : Word32) : BitVec 7 := w.extractLsb' 3 7
def fX (w : Word32) : BitVec 3 := w.extractLsb' 0 3
def fI (w : Word32) : BitVec 10 := w.extractLsb' 0 10
def fL (w : Word32) : BitVec 24 := w.extractLsb' 0 24
def fN (w : Word32) : Bool := w.getLsbD 16
def fT (w : Word32) : BitVec 4 := w.extractLsb' 12 4
def fO (w : Word32) : BitVec 12 := w.extractLsb' 0 12

def specialOf (c : BitVec 4) : Special :=
  match c.toNat with
  | 0 => .zero | 1 => .one | 2 => .lane | 3 => .nlane | 4 => .subix | 5 => .gidx | 6 => .bx | 7 => .byy
  | 8 => .bz | 9 => .tx | 10 => .ty | 11 => .tz | 12 => .drn | 13 => .negone | 14 => .half | _ => .cyclo

/-- A source field by the table of R36. -/
def anySrc (f : BitVec 7) : Dec Src :=
  let n := f.toNat
  if n < 0x40 then .ok (.reg (f.setWidth 6))
  else if n < 0x44 then .ok (.latch (f.setWidth 2))
  else if n < 0x50 then .error .src
  else if n < 0x60 then .ok (.imm (f.setWidth 4))
  else if n < 0x70 then .ok (.spec (specialOf (f.setWidth 4)))
  else .error .src

/-- A source field that must also pass a check of R41, R46, R111 or R125. -/
def srcIf (p : Src → Bool) (f : BitVec 7) : Dec Src :=
  match anySrc f with
  | .ok a => if p a then .ok a else .error .src
  | .error e => .error e

def scalarSrc (f : BitVec 7) : Dec Src := srcIf scalarOk f
def uniformSrc (f : BitVec 7) : Dec Src := srcIf uniformOk f
def laneSrc (f : BitVec 7) : Dec Src := srcIf laneOk f

/-- Field B under X[2] (R42). -/
def srcBOf (w : Word32) : Dec SrcB :=
  if (fX w).getLsbD 2 then
    if (fB w).toNat < 0x40 then .ok (.bcast ((fB w).setWidth 6)) else .error .src
  else
    match anySrc (fB w) with
    | .ok a => .ok (.src a)
    | .error e => .error e

/-- A field that names a predicate as a source (R121). -/
def predSrc (f : BitVec 7) : Dec (BitVec 5) :=
  if f.toNat < 24 then .ok (f.setWidth 5) else .error .src

/-- A cell operand of field A or B (R191). -/
def cellSrc (f : BitVec 7) : Dec CellSrc :=
  let n := f.toNat
  if n < 0x20 then .ok (.cell (f.setWidth 5))
  else if n < 0x50 then .error .src
  else if n < 0x60 then .ok (.imm (f.setWidth 4))
  else if n = 0x60 then .ok .zero
  else if n = 0x61 then .ok .one
  else if n = 0x6D then .ok .negone
  else if n = 0x6E then .ok .half
  else .error .src

def cellBOf (w : Word32) : Dec CellSrcB :=
  if (fX w).getLsbD 2 then
    if (fB w).toNat < 0x40 then .ok (.bcast ((fB w).setWidth 6)) else .error .src
  else
    match cellSrc (fB w) with
    | .ok a => .ok (.src a)
    | .error e => .error e

/-- The first of a run of n S registers (R178). -/
def regRun (f : BitVec 7) (n : Nat) : Dec (BitVec 6) :=
  if f.toNat + n ≤ 64 then .ok (f.setWidth 6) else .error .src

def elemTypeOf (c : BitVec 4) : ElemType :=
  match c.toNat with
  | 0 => .i64 | 1 => .n64 | 2 => .f64 | 3 => .i32 | 4 => .n32 | 5 => .f32 | 6 => .i16 | 7 => .n16
  | 8 => .f16 | 9 => .bf16 | 10 => .i8 | 11 => .n8 | 12 => .e4m3 | 13 => .e5m2 | 14 => .dya8 | _ => .d

/-- The source type of VCVT (R104): 0x5F is sub-code 10, outside 0x50-0x5F sub-code 6. -/
def cvtSrc (f : BitVec 7) : Dec ElemType :=
  if f.toNat < 0x50 then .error .src
  else if f.toNat < 0x5F then .ok (elemTypeOf (f.setWidth 4))
  else if f.toNat = 0x5F then .error .type
  else .error .src

/-- A destination that admits N = 1, whose low six bits must then be zero (R43). -/
def dDst (w : Word32) : Dec Dst :=
  let n := (fD w).toNat
  if n < 64 then .ok (.reg ((fD w).setWidth 6)) else if n = 64 then .ok .none else .error .rsvbits

/-- A D field that must name a register: N = 1 is the given sub-code. -/
def dReg (w : Word32) (e : Illop) : Dec (BitVec 6) :=
  if (fD w).toNat < 64 then .ok ((fD w).setWidth 6) else .error e

def dPred (w : Word32) : Dec (BitVec 5) :=
  if (fD w).toNat < 24 then .ok ((fD w).setWidth 5) else .error .dst

def dCell (w : Word32) (n : Nat) : Dec (BitVec 5) :=
  if (fD w).toNat < n then .ok ((fD w).setWidth 5) else .error .src

/-- VLDD: D[0] and D[6] must be 0 (R134). -/
def dEven (w : Word32) : Dec (BitVec 5) :=
  if (fD w).toNat < 64 && (fD w).toNat % 2 == 0 then .ok ((fD w).extractLsb' 1 5) else .error .rsvbits

def dRun (w : Word32) (n : Nat) : Dec (BitVec 6) := regRun (fD w) n

/-- Field C of a B-format word as an S register or a predicate (R34, R157, R175). -/
def bReg (w : Word32) : Dec (BitVec 6) :=
  if (fD w).toNat < 64 then .ok ((fD w).setWidth 6) else .error .src

def bPred (w : Word32) : Dec (BitVec 5) :=
  if (fD w).toNat < 24 then .ok ((fD w).setWidth 5) else .error .src

/-- The X values a row defines (R56, sub-code 4). -/
def xIn (w : Word32) (l : List (BitVec 3)) : Bool := l.contains (fX w)

def x0 (w : Word32) : Dec Bool := .ok ((fX w).getLsbD 0)
def x2 (w : Word32) : Dec Bool := .ok ((fX w).getLsbD 2)

/-- %drn at most once in the word (R41); under X[2], field B is no special. -/
def drnOnce (w : Word32) : Bool := !(fA w == 0x6C && fB w == 0x6C)

def vcondOf (x : BitVec 3) : VCond :=
  match x.toNat with | 0 => .eq | 1 => .ne | 2 => .lt | 3 => .le | 4 => .gt | 5 => .ge | 6 => .un | _ => .ord
def scondOf (x : BitVec 3) : SCond :=
  match x.toNat with | 0 => .eq | 1 => .ne | 2 => .lt | 3 => .le | 4 => .gt | 5 => .ge | 6 => .ltu | _ => .geu
def redOf (x : BitVec 3) : RedOp :=
  match x.toNat with | 0 => .add | 1 => .min | 2 => .max | 3 => .and | 4 => .or | _ => .xor
def ammOf (x : BitVec 3) : AmmOp :=
  match x.toNat with | 0 => .add | 1 => .min | _ => .max
def extOf (x : BitVec 3) : ExtKind :=
  match x.toNat with | 0 => .i8 | 1 => .i16 | 2 => .i32 | 4 => .n8 | 5 => .n16 | _ => .n32
def atomOf (x : BitVec 3) : AtomOp :=
  match x.toNat with | 0 => .add | 1 => .min | 2 => .max | 3 => .and | 4 => .or | 5 => .xor | 6 => .xchg | _ => .cas
def scopeOf (x : BitVec 3) : Scope :=
  match x.toNat with | 0 => .block | 1 => .span | 2 => .die | 3 => .device | _ => .sys
def spaceOf (x : BitVec 3) : Space :=
  match x.toNat with | 0 => .gl | 1 => .sp | 2 => .wb | 3 => .ab | _ => .cb
def mqOf (x : BitVec 3) : MqSel :=
  match x.toNat with | 0 => .cap | 1 => .drn | _ => .res
def vgOf (x : BitVec 3) : VgSel :=
  match x.toNat with | 0 => .mis | 1 => .thr | 2 => .cap | _ => .err
def timerOf (x : BitVec 3) : TimerSel :=
  match x.toNat with | 0 => .cyc | _ => .ns
def fnOf (x : BitVec 3) : Fn :=
  match x.toNat with | 0 => .rcp | 1 => .rsq | 2 => .sqrt | 3 => .ex2 | 4 => .lg2 | 5 => .sinp | 6 => .cosp | _ => .tanh
def dirOf (x : BitVec 3) : Dir :=
  match x.toNat with | 0 => .w | 1 => .e | 2 => .n | _ => .s
def tlSelOf (x : BitVec 2) : TlSel :=
  match x.toNat with | 0 => .done | 1 => .mine | _ => .iss

/-- The opcode map (R54), each row with its static conditions. -/
def decodeOp (op : Nat) (w : Word32) : Dec Instr :=
  match op with
  | 0x00 => ap (.ok (.ill false)) (.ok (fL w))
  | 0x01 => req (fL w == 0) .rsvbits (.ok .nop)
  | 0x02 => req (xIn w [0, 4]) .xval (req (drnOnce w) .src (ap (ap (ap (.ok .vadd) (dDst w)) (anySrc (fA w))) (srcBOf w)))
  | 0x03 => req (xIn w [0, 4]) .xval (req (drnOnce w) .src (ap (ap (ap (.ok .vsub) (dDst w)) (anySrc (fA w))) (srcBOf w)))
  | 0x04 => req (xIn w [0, 4]) .xval (req (drnOnce w) .src (ap (ap (ap (.ok .vmul) (dDst w)) (anySrc (fA w))) (srcBOf w)))
  | 0x05 => req (xIn w [0, 4]) .xval (req (drnOnce w) .src (ap (ap (ap (.ok .vmad) (dDst w)) (anySrc (fA w))) (srcBOf w)))
  | 0x06 => req (xIn w [0, 4]) .xval (req (drnOnce w) .src (ap (ap (ap (.ok .vmadn) (dDst w)) (anySrc (fA w))) (srcBOf w)))
  | 0x07 => req (xIn w [0, 4]) .xval (req (drnOnce w) .src (ap (ap (ap (.ok .vmin) (dDst w)) (anySrc (fA w))) (srcBOf w)))
  | 0x08 => req (xIn w [0, 4]) .xval (req (drnOnce w) .src (ap (ap (ap (.ok .vmax) (dDst w)) (anySrc (fA w))) (srcBOf w)))
  | 0x09 => req (fB w == 0) .rsvbits (req (xIn w [0]) .xval (ap (ap (.ok .vabs) (dDst w)) (anySrc (fA w))))
  | 0x0a => req (fB w == 0) .rsvbits (req (xIn w [0]) .xval (ap (ap (.ok .vneg) (dDst w)) (anySrc (fA w))))
  | 0x0b => req (xIn w [0, 4]) .xval (req (drnOnce w) .src (ap (ap (ap (.ok .vclmp) (dDst w)) (anySrc (fA w))) (srcBOf w)))
  | 0x0c => req (xIn w [0, 4]) .xval (req (drnOnce w) .src (ap (ap (ap (.ok .vand) (dDst w)) (anySrc (fA w))) (srcBOf w)))
  | 0x0d => req (xIn w [0, 4]) .xval (req (drnOnce w) .src (ap (ap (ap (.ok .vor) (dDst w)) (anySrc (fA w))) (srcBOf w)))
  | 0x0e => req (xIn w [0, 4]) .xval (req (drnOnce w) .src (ap (ap (ap (.ok .vxor) (dDst w)) (anySrc (fA w))) (srcBOf w)))
  | 0x0f => req (fB w == 0) .rsvbits (req (xIn w [0]) .xval (ap (ap (.ok .vnot) (dDst w)) (anySrc (fA w))))
  | 0x10 => req (xIn w [0, 4]) .xval (req (drnOnce w) .src (ap (ap (ap (.ok .vshl) (dDst w)) (anySrc (fA w))) (srcBOf w)))
  | 0x11 => req (xIn w [0, 1, 4, 5]) .xval (req (drnOnce w) .src (ap (ap (ap (ap (.ok .vshr) (dDst w)) (anySrc (fA w))) (srcBOf w)) (x0 w)))
  | 0x12 => req (xIn w [0, 4]) .xval (req (drnOnce w) .src (ap (ap (ap (.ok .vrot) (dDst w)) (anySrc (fA w))) (srcBOf w)))
  | 0x13 => req (fB w == 0) .rsvbits (req (xIn w [0]) .xval (ap (ap (.ok .vpopc) (dDst w)) (anySrc (fA w))))
  | 0x14 => req (fB w == 0) .rsvbits (req (xIn w [0]) .xval (ap (ap (.ok .vclz) (dDst w)) (anySrc (fA w))))
  | 0x15 => req (xIn w [0, 4]) .xval (req (drnOnce w) .src (ap (ap (ap (.ok .vmulh) (dDst w)) (anySrc (fA w))) (srcBOf w)))
  | 0x16 => req (xIn w [0, 4]) .xval (req (drnOnce w) .src (ap (ap (ap (.ok .vabd) (dDst w)) (anySrc (fA w))) (srcBOf w)))
  | 0x17 => req (drnOnce w) .src (ap (ap (ap (ap (.ok .vcmp) (dPred w)) (anySrc (fA w))) (anySrc (fB w))) (.ok (vcondOf (fX w))))
  | 0x18 => req (xIn w [0, 4]) .xval (req (drnOnce w) .src (ap (ap (ap (.ok .vsel) (dDst w)) (anySrc (fA w))) (srcBOf w)))
  | 0x19 => req (fB w == 0) .rsvbits (req (xIn w [0]) .xval (ap (ap (.ok .vmov) (dDst w)) (anySrc (fA w))))
  | 0x1a => ap (ap (ap (.ok .vaddi) (dDst w)) (anySrc (fA w))) (.ok (fI w))
  | 0x1b => req (fA w == 0) .rsvbits (ap (ap (.ok .vmovi) (dDst w)) (.ok (fI w)))
  | 0x1c => req (xIn w [0, 4]) .xval (req (drnOnce w) .src (ap (ap (ap (.ok .vdot) (dDst w)) (anySrc (fA w))) (srcBOf w)))
  | 0x1d => req (fB w == 0) .rsvbits (req (xIn w [0]) .xval (ap (ap (.ok .vhsum) (dDst w)) (anySrc (fA w))))
  | 0x1e => req (xIn w [0, 1, 4, 5]) .xval (req (drnOnce w) .src (ap (ap (ap (ap (.ok .vpack) (dDst w)) (anySrc (fA w))) (srcBOf w)) (x0 w)))
  | 0x1f => req (xIn w [0, 1, 4, 5]) .xval (req (drnOnce w) .src (ap (ap (ap (ap (.ok .vunpk) (dDst w)) (anySrc (fA w))) (srcBOf w)) (x0 w)))
  | 0x20 => ap (ap (ap (ap (.ok .vcvt) (dDst w)) (anySrc (fA w))) (cvtSrc (fB w))) (.ok (fX w))
  | 0x21 => req (fB w == 0) .rsvbits (req (xIn w [0, 1]) .xval (ap (ap (ap (.ok .vrint) (dDst w)) (anySrc (fA w))) (x0 w)))
  | 0x22 => req (xIn w [0]) .xval (req (drnOnce w) .src (ap (ap (ap (.ok .vcpys) (dDst w)) (anySrc (fA w))) (anySrc (fB w))))
  | 0x23 => req (fB w == 0) .rsvbits (req (xIn w [0]) .xval (ap (ap (.ok .vfcls) (dDst w)) (anySrc (fA w))))
  | 0x24 => req (fB w == 0) .rsvbits (req (xIn w [0]) .xval (ap (ap (.ok .vrcp) (dDst w)) (anySrc (fA w))))
  | 0x25 => req (fB w == 0) .rsvbits (req (xIn w [0]) .xval (ap (ap (.ok .vrsq) (dDst w)) (anySrc (fA w))))
  | 0x26 => req (fB w == 0) .rsvbits (req (xIn w [0]) .xval (ap (ap (.ok .vsqrt) (dDst w)) (anySrc (fA w))))
  | 0x27 => req (xIn w [0, 4]) .xval (req (drnOnce w) .src (ap (ap (ap (.ok .vdiv) (dDst w)) (anySrc (fA w))) (srcBOf w)))
  | 0x28 => req (fB w == 0) .rsvbits (req (xIn w [0]) .xval (ap (ap (.ok .vex2) (dDst w)) (anySrc (fA w))))
  | 0x29 => req (fB w == 0) .rsvbits (req (xIn w [0]) .xval (ap (ap (.ok .vlg2) (dDst w)) (anySrc (fA w))))
  | 0x2a => req (fB w == 0) .rsvbits (req (xIn w [0]) .xval (ap (ap (.ok .vsinp) (dDst w)) (anySrc (fA w))))
  | 0x2b => req (fB w == 0) .rsvbits (req (xIn w [0]) .xval (ap (ap (.ok .vcosp) (dDst w)) (anySrc (fA w))))
  | 0x2c => req (fB w == 0) .rsvbits (req (xIn w [0]) .xval (ap (ap (.ok .vtanh) (dDst w)) (anySrc (fA w))))
  | 0x2d => req (xIn w [0, 4]) .xval (req (drnOnce w) .src (ap (ap (ap (.ok .vperm) (dDst w)) (anySrc (fA w))) (srcBOf w)))
  | 0x2e => req (xIn w [0]) .xval (ap (ap (ap (.ok .vbcst) (dDst w)) (anySrc (fA w))) (scalarSrc (fB w)))
  | 0x2f => req (xIn w [0, 1]) .xval (ap (ap (ap (ap (.ok .vslid) (dDst w)) (anySrc (fA w))) (scalarSrc (fB w))) (x0 w))
  | 0x30 => req (xIn w [0, 1, 2, 3, 4, 5]) .xval (ap (ap (ap (ap (.ok .vred) (dDst w)) (anySrc (fA w))) (scalarSrc (fB w))) (.ok (redOf (fX w))))
  | 0x31 => req (xIn w [0, 1, 2, 4, 5, 6]) .xval (ap (ap (ap (ap (ap (.ok .vscan) (dDst w)) (anySrc (fA w))) (scalarSrc (fB w))) (.ok (ammOf (fX w &&& 3)))) (x2 w))
  | 0x32 => req (fB w == 0) .rsvbits (req (xIn w [0, 1]) .xval (ap (ap (ap (.ok .vbal) (dDst w)) (anySrc (fA w))) (x0 w)))
  | 0x40 => req (xIn w [0]) .xval (ap (ap (ap (.ok .sadd) (dDst w)) (scalarSrc (fA w))) (scalarSrc (fB w)))
  | 0x41 => req (xIn w [0]) .xval (ap (ap (ap (.ok .ssub) (dDst w)) (scalarSrc (fA w))) (scalarSrc (fB w)))
  | 0x42 => req (xIn w [0]) .xval (ap (ap (ap (.ok .smul) (dDst w)) (scalarSrc (fA w))) (scalarSrc (fB w)))
  | 0x43 => req (xIn w [0, 1]) .xval (ap (ap (ap (ap (.ok .smulh) (dDst w)) (scalarSrc (fA w))) (scalarSrc (fB w))) (x0 w))
  | 0x44 => req (xIn w [0]) .xval (ap (ap (ap (.ok .smad) (dDst w)) (scalarSrc (fA w))) (scalarSrc (fB w)))
  | 0x45 => req (xIn w [0, 1]) .xval (ap (ap (ap (ap (.ok .sdiv) (dDst w)) (scalarSrc (fA w))) (scalarSrc (fB w))) (x0 w))
  | 0x46 => req (xIn w [0, 1]) .xval (ap (ap (ap (ap (.ok .srem) (dDst w)) (scalarSrc (fA w))) (scalarSrc (fB w))) (x0 w))
  | 0x47 => req (xIn w [0]) .xval (ap (ap (ap (.ok .sand) (dDst w)) (scalarSrc (fA w))) (scalarSrc (fB w)))
  | 0x48 => req (xIn w [0]) .xval (ap (ap (ap (.ok .sor) (dDst w)) (scalarSrc (fA w))) (scalarSrc (fB w)))
  | 0x49 => req (xIn w [0]) .xval (ap (ap (ap (.ok .sxor) (dDst w)) (scalarSrc (fA w))) (scalarSrc (fB w)))
  | 0x4a => req (fB w == 0) .rsvbits (req (xIn w [0]) .xval (ap (ap (.ok .snot) (dDst w)) (scalarSrc (fA w))))
  | 0x4b => req (xIn w [0]) .xval (ap (ap (ap (.ok .sshl) (dDst w)) (scalarSrc (fA w))) (scalarSrc (fB w)))
  | 0x4c => req (xIn w [0, 1]) .xval (ap (ap (ap (ap (.ok .sshr) (dDst w)) (scalarSrc (fA w))) (scalarSrc (fB w))) (x0 w))
  | 0x4d => req (xIn w [0]) .xval (ap (ap (ap (.ok .srot) (dDst w)) (scalarSrc (fA w))) (scalarSrc (fB w)))
  | 0x4e => req (xIn w [0, 1]) .xval (ap (ap (ap (ap (.ok .smin) (dDst w)) (scalarSrc (fA w))) (scalarSrc (fB w))) (x0 w))
  | 0x4f => req (xIn w [0, 1]) .xval (ap (ap (ap (ap (.ok .smax) (dDst w)) (scalarSrc (fA w))) (scalarSrc (fB w))) (x0 w))
  | 0x50 => req (fB w == 0) .rsvbits (req (xIn w [0]) .xval (ap (ap (.ok .spopc) (dDst w)) (scalarSrc (fA w))))
  | 0x51 => req (fB w == 0) .rsvbits (req (xIn w [0]) .xval (ap (ap (.ok .sclz) (dDst w)) (scalarSrc (fA w))))
  | 0x52 => ap (ap (ap (ap (.ok .scmp) (dDst w)) (scalarSrc (fA w))) (scalarSrc (fB w))) (.ok (scondOf (fX w)))
  | 0x53 => req (xIn w [0]) .xval (ap (ap (ap (.ok .ssel) (dDst w)) (scalarSrc (fA w))) (scalarSrc (fB w)))
  | 0x54 => req (fB w == 0) .rsvbits (req (xIn w [0]) .xval (ap (ap (.ok .smov) (dDst w)) (scalarSrc (fA w))))
  | 0x55 => ap (ap (ap (.ok .saddi) (dDst w)) (scalarSrc (fA w))) (.ok (fI w))
  | 0x56 => req (fA w == 0) .rsvbits (ap (ap (.ok .smovi) (dDst w)) (.ok (fI w)))
  | 0x57 => req (fA w == 0) .rsvbits (ap (ap (.ok .sshi) (dDst w)) (.ok (fI w)))
  | 0x58 => ap (ap (ap (ap (.ok .slea) (dDst w)) (scalarSrc (fA w))) (scalarSrc (fB w))) (.ok (fX w))
  | 0x59 => req (fB w == 0) .rsvbits (req (xIn w [0, 1, 2, 4, 5, 6]) .xval (ap (ap (ap (.ok .sext) (dDst w)) (scalarSrc (fA w))) (.ok (extOf (fX w)))))
  | 0x5a => req (xIn w [0, 1]) .xval (ap (ap (ap (ap (.ok .sbfx) (dDst w)) (scalarSrc (fA w))) (scalarSrc (fB w))) (x0 w))
  | 0x5b => req (xIn w [0]) .xval (ap (ap (ap (.ok .sbfi) (dDst w)) (scalarSrc (fA w))) (scalarSrc (fB w)))
  | 0x60 => ap (.ok .bra) (.ok (fL w))
  | 0x61 => req (fT w == 0) .rsvbits (ap (ap (ap (.ok .brs) (bReg w)) (.ok (fN w))) (.ok (fO w)))
  | 0x62 => ap (ap (ap (ap (.ok .brp) (bPred w)) (.ok (fN w))) (.ok (fT w))) (.ok (fO w))
  | 0x63 => ap (ap (ap (ap (.ok .brk) (bPred w)) (.ok (fN w))) (.ok (fT w))) (.ok (fO w))
  | 0x64 => req (fD w == 0 && !(fN w) && fO w == 0) .rsvbits (ap (.ok .join) (.ok (fT w)))
  | 0x65 => ap (ap (.ok .call) (.ok ((fL w).extractLsb' 20 4))) (.ok ((fL w).extractLsb' 0 20))
  | 0x66 => req (fD w == 0) .rsvbits (req ((fI w).toNat < 16) .rsvbits (ap (ap (.ok .calli) (uniformSrc (fA w))) (.ok ((fI w).setWidth 4))))
  | 0x67 => req ((fL w).toNat < 16) .rsvbits (ap (.ok .ret) (.ok ((fL w).setWidth 4)))
  | 0x68 => req (fD w == 0) .rsvbits (req (fB w == 0) .rsvbits (req (xIn w [0]) .xval (ap (.ok .jmpi) (uniformSrc (fA w)))))
  | 0x69 => req (fL w == 0) .rsvbits (.ok .exit)
  | 0x6a => ap (.ok .trap) (.ok (fL w))
  | 0x6b => req (fL w == 0) .rsvbits (.ok .rft)
  | 0x6c => req (fT w == 0) .rsvbits (ap (ap (ap (.ok .dbnz) (bReg w)) (.ok (fN w))) (.ok (fO w)))
  | 0x70 => req (xIn w [0, 1]) .xval (ap (ap (ap (ap (.ok .pand) (dPred w)) (predSrc (fA w))) (predSrc (fB w))) (x0 w))
  | 0x71 => req (xIn w [0, 1]) .xval (ap (ap (ap (ap (.ok .por) (dPred w)) (predSrc (fA w))) (predSrc (fB w))) (x0 w))
  | 0x72 => req (xIn w [0, 1]) .xval (ap (ap (ap (ap (.ok .pxor) (dPred w)) (predSrc (fA w))) (predSrc (fB w))) (x0 w))
  | 0x73 => req (fB w == 0) .rsvbits (req (xIn w [0]) .xval (ap (ap (.ok .pnot) (dPred w)) (predSrc (fA w))))
  | 0x74 => req (fB w == 0) .rsvbits (req (xIn w [0]) .xval (ap (ap (.ok .pmov) (dPred w)) (predSrc (fA w))))
  | 0x75 => req (fB w == 0) .rsvbits (req (xIn w [0]) .xval (ap (ap (.ok .psetm) (dPred w)) (uniformSrc (fA w))))
  | 0x76 => req (fB w == 0) .rsvbits (req (xIn w [0, 1]) .xval (ap (ap (ap (.ok .pgetm) (dReg w .rsvbits)) (predSrc (fA w))) (x0 w)))
  | 0x77 => req (fB w == 0) .rsvbits (req (xIn w [0]) .xval (ap (ap (.ok .pany) (dReg w .rsvbits)) (predSrc (fA w))))
  | 0x78 => req (fB w == 0) .rsvbits (req (xIn w [0]) .xval (ap (ap (.ok .pall) (dReg w .rsvbits)) (predSrc (fA w))))
  | 0x79 => req (fB w == 0) .rsvbits (req (xIn w [0]) .xval (ap (ap (.ok .pcnt) (dReg w .rsvbits)) (predSrc (fA w))))
  | 0x80 => req (xIn w [0, 1, 2, 3, 4]) .xval (ap (ap (ap (ap (.ok .vld) (dDst w)) (laneSrc (fA w))) (uniformSrc (fB w))) (.ok (spaceOf (fX w))))
  | 0x81 => req (xIn w [0, 1, 2, 3, 4]) .xval (ap (ap (ap (ap (.ok .vst) (dReg w .src)) (laneSrc (fA w))) (uniformSrc (fB w))) (.ok (spaceOf (fX w))))
  | 0x82 => req (xIn w [0, 1, 2, 3, 4]) .xval (ap (ap (ap (ap (.ok .vlde) (dDst w)) (laneSrc (fA w))) (uniformSrc (fB w))) (.ok (spaceOf (fX w))))
  | 0x83 => req (xIn w [0, 1, 2, 3, 4]) .xval (ap (ap (ap (ap (.ok .vste) (dReg w .src)) (laneSrc (fA w))) (uniformSrc (fB w))) (.ok (spaceOf (fX w))))
  | 0x84 => req (xIn w [0]) .xval (ap (ap (ap (.ok .vldd) (dEven w)) (laneSrc (fA w))) (uniformSrc (fB w)))
  | 0x85 => req (xIn w [0, 1]) .xval (ap (ap (ap (ap (.ok .sld) (dDst w)) (uniformSrc (fA w))) (uniformSrc (fB w))) (x0 w))
  | 0x86 => req (xIn w [0, 1]) .xval (ap (ap (ap (ap (.ok .sst) (dReg w .src)) (uniformSrc (fA w))) (uniformSrc (fB w))) (x0 w))
  | 0x87 => req (xIn w [0, 1, 2, 3, 4]) .xval (ap (ap (ap (ap (.ok .vldb) (dDst w)) (uniformSrc (fA w))) (uniformSrc (fB w))) (.ok (spaceOf (fX w))))
  | 0x88 => req (xIn w [0, 1, 2, 3, 4]) .xval (ap (ap (ap (ap (.ok .vstb) (dReg w .src)) (uniformSrc (fA w))) (uniformSrc (fB w))) (.ok (spaceOf (fX w))))
  | 0x89 => req (xIn w [0]) .xval (ap (ap (ap (.ok .ldds) (dDst w)) (laneSrc (fA w))) (uniformSrc (fB w)))
  | 0x8a => req (xIn w [0]) .xval (ap (ap (ap (.ok .stds) (dReg w .src)) (laneSrc (fA w))) (uniformSrc (fB w)))
  | 0x8b => req (xIn w [0, 1, 2, 3, 4]) .xval (ap (ap (ap (ap (.ok .vgath) (dDst w)) (regRun (fA w) 1)) (uniformSrc (fB w))) (.ok (spaceOf (fX w))))
  | 0x8c => ap (ap (ap (ap (.ok .atom) (dDst w)) (laneSrc (fA w))) (laneSrc (fB w))) (.ok (atomOf (fX w)))
  | 0x8d => ap (ap (ap (ap (.ok .atoms) (dDst w)) (laneSrc (fA w))) (laneSrc (fB w))) (.ok (atomOf (fX w)))
  | 0x8e => req (xIn w [0, 1, 2]) .xval (ap (ap (ap (ap (.ok .atomf) (dDst w)) (laneSrc (fA w))) (laneSrc (fB w))) (.ok (ammOf (fX w))))
  | 0x8f => req (fD w == 0) .rsvbits (req (xIn w [0]) .xval (ap (ap (.ok .atomo) (laneSrc (fA w))) (laneSrc (fB w))))
  | 0x90 => req (fL w == 0) .rsvbits (.ok .ordcl)
  | 0x91 => req (fD w == 0) .rsvbits (req (fA w == 0) .rsvbits (ap (.ok .waitc) (.ok (fI w))))
  | 0x92 => req (fI w == 0) .rsvbits (ap (ap (.ok .waitv) (dReg w .src)) (uniformSrc (fA w)))
  | 0x93 => req (fD w == 0) .rsvbits (req (fA w == 0) .rsvbits (req (fB w == 0) .rsvbits (req (xIn w [0, 1, 2, 3, 4]) .xval (ap (.ok .fence) (.ok (scopeOf (fX w)))))))
  | 0x94 => req (fD w == 0) .rsvbits (req (fA w == 0) .rsvbits (req (fB w == 0) .rsvbits (req (xIn w [0, 1, 2, 3, 4]) .xval (ap (.ok .tfence) (.ok (scopeOf (fX w)))))))
  | 0x95 => req (fD w == 0) .rsvbits (req (xIn w [0]) .xval (ap (ap (.ok .pref) (laneSrc (fA w))) (uniformSrc (fB w))))
  | 0x96 => req (xIn w [0, 1]) .xval (ap (ap (ap (ap (.ok .samp) (dDst w)) (laneSrc (fA w))) (uniformSrc (fB w))) (x0 w))
  | 0x97 => req (xIn w [0, 1]) .xval (ap (ap (ap (ap (.ok .sampg) (dDst w)) (laneSrc (fA w))) (uniformSrc (fB w))) (x0 w))
  | 0x98 => ap (ap (ap (ap (.ok .cpa) (dReg w .src)) (laneSrc (fA w))) (laneSrc (fB w))) (.ok (fX w))
  | 0x99 => req (fD w == 0) .rsvbits (req (fA w == 0) .rsvbits (ap (ap (.ok .cpwt) (.ok ((fI w).extractLsb' 3 7))) (.ok ((fI w).extractLsb' 0 3))))
  | 0x9a => req (fD w == 0) .rsvbits (req (fB w == 0) .rsvbits (req (xIn w [0]) .xval (ap (.ok .cpb) (uniformSrc (fA w)))))
  | 0x9b => req (fD w == 0) .rsvbits (req (xIn w [0]) .xval (ap (ap (.ok .cpt) (uniformSrc (fA w))) (uniformSrc (fB w))))
  | 0x9c => req (fD w == 0) .rsvbits (req (xIn w [0]) .xval (ap (ap (.ok .syncw) (uniformSrc (fA w))) (uniformSrc (fB w))))
  | 0xa0 => req (fD w == 0) .rsvbits (req ((fI w).toNat < 16) .rsvbits (ap (ap (.ok .bar) (uniformSrc (fA w))) (.ok ((fI w).setWidth 4))))
  | 0xa1 => req (fD w == 0) .rsvbits (req ((fI w).toNat < 16) .rsvbits (ap (ap (.ok .bara) (uniformSrc (fA w))) (.ok ((fI w).setWidth 4))))
  | 0xa2 => req (fD w == 0) .rsvbits (req ((fI w).toNat < 16) .rsvbits (ap (ap (.ok .barw) (uniformSrc (fA w))) (.ok ((fI w).setWidth 4))))
  | 0xa3 => req (fL w == 0) .rsvbits (.ok .sbar)
  | 0xa4 => req (fD w == 0) .rsvbits (req ((fI w).toNat < 16) .rsvbits (ap (ap (.ok .tlwait) (uniformSrc (fA w))) (.ok ((fI w).setWidth 4))))
  | 0xa5 => req (fD w == 0) .rsvbits (req (4 ≤ (fI w).toNat % 16) .xval (req ((fI w).toNat < 16) .rsvbits (ap (ap (.ok .tladv) (uniformSrc (fA w))) (.ok ((fI w).setWidth 4)))))
  | 0xa6 => req (fA w == 0) .rsvbits (req ((fI w).extractLsb' 4 2 != 3) .xval (req ((fI w).toNat < 64) .rsvbits (ap (ap (ap (.ok .tlget) (dDst w)) (.ok (tlSelOf ((fI w).extractLsb' 4 2)))) (.ok ((fI w).setWidth 4)))))
  | 0xa7 => req (fL w == 0) .rsvbits (.ok .yield)
  | 0xa8 => req (fD w == 0) .rsvbits (req (fB w == 0) .rsvbits (req (xIn w [0]) .xval (ap (.ok .gangset) (uniformSrc (fA w)))))
  | 0xb0 => req (xIn w [0]) .xval (ap (ap (ap (.ok .mma) (dReg w .src)) (regRun (fA w) 2)) (regRun (fB w) 2))
  | 0xb1 => req (xIn w [0]) .xval (ap (ap (ap (.ok .mmal) (dRun w 2)) (regRun (fA w) 2)) (regRun (fB w) 2))
  | 0xb2 => req (xIn w [0]) .xval (ap (ap (ap (.ok .mconv) (dRun w 2)) (regRun (fA w) 2)) (regRun (fB w) 2))
  | 0xb3 => req (xIn w [0]) .xval (ap (ap (ap (.ok .mconvl) (dRun w 3)) (regRun (fA w) 2)) (regRun (fB w) 2))
  | 0xb4 => req (fL w == 0) .rsvbits (.ok .mzero)
  | 0xb5 => req (fD w == 0) .rsvbits (req (xIn w [0]) .xval (ap (ap (.ok .mdrn) (uniformSrc (fA w))) (uniformSrc (fB w))))
  | 0xb6 => req (xIn w [0, 1, 2, 3]) .xval (ap (ap (ap (ap (.ok .mdst) (dReg w .src)) (uniformSrc (fA w))) (uniformSrc (fB w))) (.ok ((fX w).setWidth 2)))
  | 0xb7 => req (xIn w [0, 1, 2, 3]) .xval (ap (ap (ap (ap (.ok .mlda) (dReg w .src)) (uniformSrc (fA w))) (uniformSrc (fB w))) (.ok ((fX w).setWidth 2)))
  | 0xb8 => req (fA w == 0) .rsvbits (req (fB w == 0) .rsvbits (req (xIn w [0, 1, 2]) .xval (ap (ap (.ok .mqry) (dReg w .src)) (.ok (mqOf (fX w))))))
  | 0xc0 => req (fD w == 0) .rsvbits (req (fA w == 0) .rsvbits (req (fB w == 0) .rsvbits (req (xIn w [0]) .xval (.ok .plbind))))
  | 0xc1 => req (fD w == 0) .rsvbits (req (fA w == 0) .rsvbits (req (fB w == 0) .rsvbits (req (xIn w [0]) .xval (.ok .plfree))))
  | 0xc2 => req (fD w == 0) .rsvbits (req (fB w == 0) .rsvbits (req (xIn w [0]) .xval (ap (.ok .plwin) (uniformSrc (fA w)))))
  | 0xc3 => req (fB w == 0) .rsvbits (req (xIn w [0]) .xval (ap (ap (.ok .pleval) (dCell w 32)) (regRun (fA w) 6)))
  | 0xc4 => req (fB w == 0) .rsvbits (req (xIn w [0]) .xval (ap (ap (.ok .plexp) (dCell w 32)) (regRun (fA w) 6)))
  | 0xc5 => req (fB w == 0) .rsvbits (req (xIn w [0]) .xval (ap (ap (.ok .pllin) (dCell w 32)) (regRun (fA w) 3)))
  | 0xc6 => req (xIn w [0, 4]) .xval (ap (ap (ap (.ok .plfma) (dCell w 32)) (cellSrc (fA w))) (cellBOf w))
  | 0xc7 => req (xIn w [0, 4]) .xval (ap (ap (ap (.ok .pladd) (dCell w 32)) (cellSrc (fA w))) (cellBOf w))
  | 0xc8 => req (xIn w [0, 4]) .xval (ap (ap (ap (.ok .plmul) (dCell w 32)) (cellSrc (fA w))) (cellBOf w))
  | 0xc9 => req (xIn w [0, 4]) .xval (ap (ap (ap (.ok .plmin) (dCell w 32)) (cellSrc (fA w))) (cellBOf w))
  | 0xca => req (xIn w [0, 4]) .xval (ap (ap (ap (.ok .plmax) (dCell w 32)) (cellSrc (fA w))) (cellBOf w))
  | 0xcb => req (fB w == 0) .rsvbits (req (xIn w [0]) .xval (ap (ap (.ok .plmov) (dCell w 32)) (cellSrc (fA w))))
  | 0xcc => req (fD w == 0) .rsvbits (ap (ap (ap (.ok .plcmp) (cellSrc (fA w))) (cellSrc (fB w))) (.ok (vcondOf (fX w))))
  | 0xcd => req (fL w == 0) .rsvbits (.ok .plif)
  | 0xce => req (fL w == 0) .rsvbits (.ok .plelse)
  | 0xcf => req (fL w == 0) .rsvbits (.ok .plend)
  | 0xd0 => req (xIn w [0, 4]) .xval (ap (ap (ap (.ok .plsel) (dCell w 32)) (cellSrc (fA w))) (cellBOf w))
  | 0xd1 => req (fB w == 0) .rsvbits (ap (ap (ap (ap (.ok .plshf) (dCell w 32)) (cellSrc (fA w))) (x2 w)) (.ok (dirOf (fX w &&& 3))))
  | 0xd2 => req (xIn w [0, 1]) .xval (ap (ap (ap (ap (.ok .plld) (dCell w 32)) (uniformSrc (fA w))) (uniformSrc (fB w))) (x0 w))
  | 0xd3 => req (xIn w [0, 1]) .xval (ap (ap (ap (ap (.ok .plst) (dCell w 32)) (uniformSrc (fA w))) (uniformSrc (fB w))) (x0 w))
  | 0xd4 => req (xIn w [0, 1, 2]) .xval (ap (ap (ap (ap (.ok .plred) (dReg w .src)) (cellSrc (fA w))) (uniformSrc (fB w))) (.ok (ammOf (fX w))))
  | 0xd5 => req (fB w == 0) .rsvbits (req (xIn w [0, 1]) .xval (ap (ap (ap (.ok .plexc) (dReg w .src)) (uniformSrc (fA w))) (x0 w)))
  | 0xd6 => req (fD w == 0) .rsvbits (req (xIn w [0, 1]) .xval (ap (ap (ap (.ok .plvis) (cellSrc (fA w))) (regRun (fB w) 1)) (x0 w)))
  | 0xd7 => req (xIn w [0]) .xval (ap (ap (ap (.ok .plbld) (dCell w 29)) (cellSrc (fA w))) (regRun (fB w) 2))
  | 0xd8 => req (fD w == 0) .rsvbits (req (xIn w [0]) .xval (ap (ap (.ok .pltile) (uniformSrc (fA w))) (uniformSrc (fB w))))
  | 0xd9 => req (fA w == 0) .rsvbits (req (fB w == 0) .rsvbits (req (xIn w [0, 1]) .xval (ap (ap (.ok .plflg) (dReg w .src)) (x0 w))))
  | 0xda => req (fB w == 0) .rsvbits (ap (ap (ap (.ok .plsfn) (dCell w 32)) (cellSrc (fA w))) (.ok (fnOf (fX w))))
  | 0xdb => req ((fL w).toNat < 32) .rsvbits (ap (.ok .plclr) (.ok ((fL w).setWidth 5)))
  | 0xdc => req (fD w == 0) .rsvbits (req (fB w == 0) .rsvbits (req (xIn w [0]) .xval (ap (.ok .plbin) (uniformSrc (fA w)))))
  | 0xe0 => req (fB w == 0) .rsvbits (req (xIn w [0]) .xval (ap (ap (.ok .launch) (dReg w .src)) (uniformSrc (fA w))))
  | 0xe1 => req (fB w == 0) .rsvbits (req (xIn w [0]) .xval (ap (ap (.ok .arm) (dReg w .src)) (uniformSrc (fA w))))
  | 0xe2 => req (fB w == 0) .rsvbits (req (xIn w [0]) .xval (ap (ap (.ok .disarm) (dReg w .src)) (uniformSrc (fA w))))
  | 0xe3 => req (xIn w [0]) .xval (ap (ap (ap (.ok .invoke) (dReg w .src)) (uniformSrc (fA w))) (uniformSrc (fB w)))
  | 0xe4 => req (xIn w [0]) .xval (ap (ap (ap (.ok .invh) (dReg w .src)) (uniformSrc (fA w))) (uniformSrc (fB w)))
  | 0xe5 => req (fB w == 0) .rsvbits (req (xIn w [0]) .xval (ap (ap (.ok .hwait) (dRun w 2)) (uniformSrc (fA w))))
  | 0xe6 => req (fD w == 0) .rsvbits (req (fB w == 0) .rsvbits (req (xIn w [0, 1]) .xval (ap (ap (.ok .hres) (uniformSrc (fA w))) (x0 w))))
  | 0xe7 => req (fD w == 0) .rsvbits (req (fB w == 0) .rsvbits (req (xIn w [0]) .xval (ap (.ok .hbrk) (uniformSrc (fA w)))))
  | 0xe8 => req (fB w == 0) .rsvbits (req (xIn w [0]) .xval (ap (ap (.ok .hqry) (dReg w .src)) (uniformSrc (fA w))))
  | 0xe9 => req (fD w == 0) .rsvbits (req (fB w == 0) .rsvbits (req (xIn w [0]) .xval (ap (.ok .hfree) (uniformSrc (fA w)))))
  | 0xea => req (xIn w [0]) .xval (ap (ap (ap (.ok .vgcmd) (dReg w .src)) (uniformSrc (fA w))) (uniformSrc (fB w)))
  | 0xeb => req (fB w == 0) .rsvbits (req (xIn w [0, 1, 2, 3]) .xval (ap (ap (ap (.ok .vgqry) (dReg w .src)) (uniformSrc (fA w))) (.ok (vgOf (fX w)))))
  | 0xf0 => req ((fL w).toNat < 16384 && modeLegal ((fL w).setWidth 14)) .modeval (ap (.ok .mode) (.ok ((fL w).setWidth 14)))
  | 0xf1 => req ((fL w).toNat < 16384 && modeLegal ((fL w).setWidth 14)) .modeval (ap (.ok .modex) (.ok ((fL w).setWidth 14)))
  | 0xf2 => req (fA w == 0) .rsvbits (req ((fI w).toNat < 30) .creg (ap (ap (.ok .getc) (dDst w)) (.ok (fI w))))
  | 0xf3 => req (fD w == 0) .rsvbits (req ((fI w).toNat < 30) .creg (ap (ap (.ok .setc) (uniformSrc (fA w))) (.ok (fI w))))
  | 0xf4 => req (fA w == 0) .rsvbits (req (fB w == 0) .rsvbits (req (xIn w [0, 1]) .xval (ap (ap (.ok .timer) (dDst w)) (.ok (timerOf (fX w))))))
  | 0xf5 => req (fB w == 0) .rsvbits (req (xIn w [0, 1]) .xval (req (fX w != 1 || fA w == 0) .rsvbits (ap (ap (ap (.ok .ckpt) (dDst w)) (uniformSrc (fA w))) (x0 w))))
  | 0xf6 => req (fL w == 0) .rsvbits (.ok .flagchk)
  | 0xf7 => ap (.ok .bkpt) (.ok (fL w))
  | _ =>
    if 0xF8 ≤ op then (if w = 0xFFFFFFFF then .ok (.ill true 0xFFFFFF) else .ok (.undef (w.extractLsb' 0 27)))
    else .ok (.rsvop w)

/-- The instruction a word stands for, or the static sub-code of ILLOP it raises. -/
def decode (w : Word32) : Dec Instr := decodeOp (fOp w).toNat w

-- The encoder: the same fields, assembled (R33).
def mkR (op : BitVec 8) (d a b : BitVec 7) (x : BitVec 3) : Word32 := op ++ (d ++ (a ++ (b ++ x)))
def mkI (op : BitVec 8) (d a : BitVec 7) (i : BitVec 10) : Word32 := op ++ (d ++ (a ++ i))
def mkL (op : BitVec 8) (i : BitVec 24) : Word32 := op ++ i
def mkB (op : BitVec 8) (c : BitVec 7) (n : Bool) (t : BitVec 4) (o : BitVec 12) : Word32 :=
  op ++ (c ++ (BitVec.ofBool n ++ (t ++ o)))

def eReg (r : BitVec 6) : BitVec 7 := r.setWidth 7
def ePred (p : BitVec 5) : BitVec 7 := p.setWidth 7
def eCell (c : BitVec 5) : BitVec 7 := c.setWidth 7
def eEven (d : BitVec 5) : BitVec 7 := (0#1 ++ (d ++ 0#1))
def eDst : Dst → BitVec 7
  | .reg r => r.setWidth 7
  | .none => 0x40
def eSpecial : Special → BitVec 4
  | .zero => 0 | .one => 1 | .lane => 2 | .nlane => 3 | .subix => 4 | .gidx => 5 | .bx => 6 | .byy => 7
  | .bz => 8 | .tx => 9 | .ty => 10 | .tz => 11 | .drn => 12 | .negone => 13 | .half => 14 | .cyclo => 15
def eSrc : Src → BitVec 7
  | .reg r => r.setWidth 7
  | .latch n => 0x40 ||| n.setWidth 7
  | .imm v => 0x50 ||| v.setWidth 7
  | .spec c => 0x60 ||| (eSpecial c).setWidth 7
def eSrcB : SrcB → BitVec 7
  | .src a => eSrc a
  | .bcast r => r.setWidth 7
def eBc : SrcB → BitVec 3
  | .src _ => 0
  | .bcast _ => 4
def eCellSrc : CellSrc → BitVec 7
  | .cell r => r.setWidth 7
  | .imm v => 0x50 ||| v.setWidth 7
  | .zero => 0x60 | .one => 0x61 | .negone => 0x6D | .half => 0x6E
def eCellB : CellSrcB → BitVec 7
  | .src a => eCellSrc a
  | .bcast r => r.setWidth 7
def eBcCell : CellSrcB → BitVec 3
  | .src _ => 0
  | .bcast _ => 4
/-- The code of an element type (R59). -/
def ElemType.code : ElemType → BitVec 4
  | .i64 => 0 | .n64 => 1 | .f64 => 2 | .i32 => 3 | .n32 => 4 | .f32 => 5 | .i16 => 6 | .n16 => 7
  | .f16 => 8 | .bf16 => 9 | .i8 => 10 | .n8 => 11 | .e4m3 => 12 | .e5m2 => 13 | .dya8 => 14 | .d => 15
def eCvt (t : ElemType) : BitVec 7 := 0x50 ||| t.code.setWidth 7
def eBit (b : Bool) : BitVec 3 := if b then 1 else 0
def eBit2 (b : Bool) : BitVec 3 := if b then 4 else 0
def eVCond : VCond → BitVec 3
  | .eq => 0 | .ne => 1 | .lt => 2 | .le => 3 | .gt => 4 | .ge => 5 | .un => 6 | .ord => 7
def eSCond : SCond → BitVec 3
  | .eq => 0 | .ne => 1 | .lt => 2 | .le => 3 | .gt => 4 | .ge => 5 | .ltu => 6 | .geu => 7
def eRed : RedOp → BitVec 3
  | .add => 0 | .min => 1 | .max => 2 | .and => 3 | .or => 4 | .xor => 5
def eAmm : AmmOp → BitVec 3
  | .add => 0 | .min => 1 | .max => 2
def eExt : ExtKind → BitVec 3
  | .i8 => 0 | .i16 => 1 | .i32 => 2 | .n8 => 4 | .n16 => 5 | .n32 => 6
def eAtom : AtomOp → BitVec 3
  | .add => 0 | .min => 1 | .max => 2 | .and => 3 | .or => 4 | .xor => 5 | .xchg => 6 | .cas => 7
def eScope : Scope → BitVec 3
  | .block => 0 | .span => 1 | .die => 2 | .device => 3 | .sys => 4
def eSpace : Space → BitVec 3
  | .gl => 0 | .sp => 1 | .wb => 2 | .ab => 3 | .cb => 4
def eMq : MqSel → BitVec 3
  | .cap => 0 | .drn => 1 | .res => 2
def eVg : VgSel → BitVec 3
  | .mis => 0 | .thr => 1 | .cap => 2 | .err => 3
def eTimer : TimerSel → BitVec 3
  | .cyc => 0 | .ns => 1
def eFn : Fn → BitVec 3
  | .rcp => 0 | .rsq => 1 | .sqrt => 2 | .ex2 => 3 | .lg2 => 4 | .sinp => 5 | .cosp => 6 | .tanh => 7
def eDir : Dir → BitVec 3
  | .w => 0 | .e => 1 | .n => 2 | .s => 3
def eTlSel : TlSel → BitVec 2
  | .done => 0 | .mine => 1 | .iss => 2

/-- The word of an instruction; an event has none. -/
def encode : Instr → Option Word32
  | .ill ones i => some (if ones then 0xFFFFFFFF else mkL 0x00 i)
  | .nop => some (mkL 0x01 0)
  | .vadd d a b => some (mkR 0x02 (eDst d) (eSrc a) (eSrcB b) (eBc b))
  | .vsub d a b => some (mkR 0x03 (eDst d) (eSrc a) (eSrcB b) (eBc b))
  | .vmul d a b => some (mkR 0x04 (eDst d) (eSrc a) (eSrcB b) (eBc b))
  | .vmad d a b => some (mkR 0x05 (eDst d) (eSrc a) (eSrcB b) (eBc b))
  | .vmadn d a b => some (mkR 0x06 (eDst d) (eSrc a) (eSrcB b) (eBc b))
  | .vmin d a b => some (mkR 0x07 (eDst d) (eSrc a) (eSrcB b) (eBc b))
  | .vmax d a b => some (mkR 0x08 (eDst d) (eSrc a) (eSrcB b) (eBc b))
  | .vabs d a => some (mkR 0x09 (eDst d) (eSrc a) 0 0)
  | .vneg d a => some (mkR 0x0a (eDst d) (eSrc a) 0 0)
  | .vclmp d a b => some (mkR 0x0b (eDst d) (eSrc a) (eSrcB b) (eBc b))
  | .vand d a b => some (mkR 0x0c (eDst d) (eSrc a) (eSrcB b) (eBc b))
  | .vor d a b => some (mkR 0x0d (eDst d) (eSrc a) (eSrcB b) (eBc b))
  | .vxor d a b => some (mkR 0x0e (eDst d) (eSrc a) (eSrcB b) (eBc b))
  | .vnot d a => some (mkR 0x0f (eDst d) (eSrc a) 0 0)
  | .vshl d a b => some (mkR 0x10 (eDst d) (eSrc a) (eSrcB b) (eBc b))
  | .vshr d a b r => some (mkR 0x11 (eDst d) (eSrc a) (eSrcB b) ((eBc b ||| eBit r)))
  | .vrot d a b => some (mkR 0x12 (eDst d) (eSrc a) (eSrcB b) (eBc b))
  | .vpopc d a => some (mkR 0x13 (eDst d) (eSrc a) 0 0)
  | .vclz d a => some (mkR 0x14 (eDst d) (eSrc a) 0 0)
  | .vmulh d a b => some (mkR 0x15 (eDst d) (eSrc a) (eSrcB b) (eBc b))
  | .vabd d a b => some (mkR 0x16 (eDst d) (eSrc a) (eSrcB b) (eBc b))
  | .vcmp d a b c => some (mkR 0x17 (ePred d) (eSrc a) (eSrc b) (eVCond c))
  | .vsel d a b => some (mkR 0x18 (eDst d) (eSrc a) (eSrcB b) (eBc b))
  | .vmov d a => some (mkR 0x19 (eDst d) (eSrc a) 0 0)
  | .vaddi d a i => some (mkI 0x1a (eDst d) (eSrc a) i)
  | .vmovi d i => some (mkI 0x1b (eDst d) 0 i)
  | .vdot d a b => some (mkR 0x1c (eDst d) (eSrc a) (eSrcB b) (eBc b))
  | .vhsum d a => some (mkR 0x1d (eDst d) (eSrc a) 0 0)
  | .vpack d a b h => some (mkR 0x1e (eDst d) (eSrc a) (eSrcB b) ((eBc b ||| eBit h)))
  | .vunpk d a b h => some (mkR 0x1f (eDst d) (eSrc a) (eSrcB b) ((eBc b ||| eBit h)))
  | .vcvt d a st p => some (mkR 0x20 (eDst d) (eSrc a) (eCvt st) (p))
  | .vrint d a nx => some (mkR 0x21 (eDst d) (eSrc a) 0 (eBit nx))
  | .vcpys d a b => some (mkR 0x22 (eDst d) (eSrc a) (eSrc b) 0)
  | .vfcls d a => some (mkR 0x23 (eDst d) (eSrc a) 0 0)
  | .vrcp d a => some (mkR 0x24 (eDst d) (eSrc a) 0 0)
  | .vrsq d a => some (mkR 0x25 (eDst d) (eSrc a) 0 0)
  | .vsqrt d a => some (mkR 0x26 (eDst d) (eSrc a) 0 0)
  | .vdiv d a b => some (mkR 0x27 (eDst d) (eSrc a) (eSrcB b) (eBc b))
  | .vex2 d a => some (mkR 0x28 (eDst d) (eSrc a) 0 0)
  | .vlg2 d a => some (mkR 0x29 (eDst d) (eSrc a) 0 0)
  | .vsinp d a => some (mkR 0x2a (eDst d) (eSrc a) 0 0)
  | .vcosp d a => some (mkR 0x2b (eDst d) (eSrc a) 0 0)
  | .vtanh d a => some (mkR 0x2c (eDst d) (eSrc a) 0 0)
  | .vperm d a b => some (mkR 0x2d (eDst d) (eSrc a) (eSrcB b) (eBc b))
  | .vbcst d a b => some (mkR 0x2e (eDst d) (eSrc a) (eSrc b) 0)
  | .vslid d a b r => some (mkR 0x2f (eDst d) (eSrc a) (eSrc b) (eBit r))
  | .vred d a b p => some (mkR 0x30 (eDst d) (eSrc a) (eSrc b) (eRed p))
  | .vscan d a b p ex => some (mkR 0x31 (eDst d) (eSrc a) (eSrc b) (eAmm p ||| eBit2 ex))
  | .vbal d a c => some (mkR 0x32 (eDst d) (eSrc a) 0 (eBit c))
  | .sadd d a b => some (mkR 0x40 (eDst d) (eSrc a) (eSrc b) 0)
  | .ssub d a b => some (mkR 0x41 (eDst d) (eSrc a) (eSrc b) 0)
  | .smul d a b => some (mkR 0x42 (eDst d) (eSrc a) (eSrc b) 0)
  | .smulh d a b u => some (mkR 0x43 (eDst d) (eSrc a) (eSrc b) (eBit u))
  | .smad d a b => some (mkR 0x44 (eDst d) (eSrc a) (eSrc b) 0)
  | .sdiv d a b u => some (mkR 0x45 (eDst d) (eSrc a) (eSrc b) (eBit u))
  | .srem d a b u => some (mkR 0x46 (eDst d) (eSrc a) (eSrc b) (eBit u))
  | .sand d a b => some (mkR 0x47 (eDst d) (eSrc a) (eSrc b) 0)
  | .sor d a b => some (mkR 0x48 (eDst d) (eSrc a) (eSrc b) 0)
  | .sxor d a b => some (mkR 0x49 (eDst d) (eSrc a) (eSrc b) 0)
  | .snot d a => some (mkR 0x4a (eDst d) (eSrc a) 0 0)
  | .sshl d a b => some (mkR 0x4b (eDst d) (eSrc a) (eSrc b) 0)
  | .sshr d a b u => some (mkR 0x4c (eDst d) (eSrc a) (eSrc b) (eBit u))
  | .srot d a b => some (mkR 0x4d (eDst d) (eSrc a) (eSrc b) 0)
  | .smin d a b u => some (mkR 0x4e (eDst d) (eSrc a) (eSrc b) (eBit u))
  | .smax d a b u => some (mkR 0x4f (eDst d) (eSrc a) (eSrc b) (eBit u))
  | .spopc d a => some (mkR 0x50 (eDst d) (eSrc a) 0 0)
  | .sclz d a => some (mkR 0x51 (eDst d) (eSrc a) 0 0)
  | .scmp d a b c => some (mkR 0x52 (eDst d) (eSrc a) (eSrc b) (eSCond c))
  | .ssel d a b => some (mkR 0x53 (eDst d) (eSrc a) (eSrc b) 0)
  | .smov d a => some (mkR 0x54 (eDst d) (eSrc a) 0 0)
  | .saddi d a i => some (mkI 0x55 (eDst d) (eSrc a) i)
  | .smovi d i => some (mkI 0x56 (eDst d) 0 i)
  | .sshi d i => some (mkI 0x57 (eDst d) 0 i)
  | .slea d a b n => some (mkR 0x58 (eDst d) (eSrc a) (eSrc b) (n))
  | .sext d a t => some (mkR 0x59 (eDst d) (eSrc a) 0 (eExt t))
  | .sbfx d a b s => some (mkR 0x5a (eDst d) (eSrc a) (eSrc b) (eBit s))
  | .sbfi d a b => some (mkR 0x5b (eDst d) (eSrc a) (eSrc b) 0)
  | .bra o => some (mkL 0x60 o)
  | .brs c n o => some (mkB 0x61 (eReg c) n 0 o)
  | .brp c n t o => some (mkB 0x62 (ePred c) n t o)
  | .brk c n t o => some (mkB 0x63 (ePred c) n t o)
  | .join t => some (mkB 0x64 0 false t 0)
  | .call k o => some (mkL 0x65 (k ++ o))
  | .calli a k => some (mkI 0x66 0 (eSrc a) (k.setWidth 10))
  | .ret k => some (mkL 0x67 (k.setWidth 24))
  | .jmpi a => some (mkR 0x68 0 (eSrc a) 0 0)
  | .exit => some (mkL 0x69 0)
  | .trap i => some (mkL 0x6a i)
  | .rft => some (mkL 0x6b 0)
  | .dbnz c n o => some (mkB 0x6c (eReg c) n 0 o)
  | .pand d a b n => some (mkR 0x70 (ePred d) (ePred a) (ePred b) (eBit n))
  | .por d a b n => some (mkR 0x71 (ePred d) (ePred a) (ePred b) (eBit n))
  | .pxor d a b n => some (mkR 0x72 (ePred d) (ePred a) (ePred b) (eBit n))
  | .pnot d a => some (mkR 0x73 (ePred d) (ePred a) 0 0)
  | .pmov d a => some (mkR 0x74 (ePred d) (ePred a) 0 0)
  | .psetm d a => some (mkR 0x75 (ePred d) (eSrc a) 0 0)
  | .pgetm d a m => some (mkR 0x76 (eReg d) (ePred a) 0 (eBit m))
  | .pany d a => some (mkR 0x77 (eReg d) (ePred a) 0 0)
  | .pall d a => some (mkR 0x78 (eReg d) (ePred a) 0 0)
  | .pcnt d a => some (mkR 0x79 (eReg d) (ePred a) 0 0)
  | .vld d a b x => some (mkR 0x80 (eDst d) (eSrc a) (eSrc b) (eSpace x))
  | .vst d a b x => some (mkR 0x81 (eReg d) (eSrc a) (eSrc b) (eSpace x))
  | .vlde d a b x => some (mkR 0x82 (eDst d) (eSrc a) (eSrc b) (eSpace x))
  | .vste d a b x => some (mkR 0x83 (eReg d) (eSrc a) (eSrc b) (eSpace x))
  | .vldd d a b => some (mkR 0x84 (eEven d) (eSrc a) (eSrc b) 0)
  | .sld d a b spm => some (mkR 0x85 (eDst d) (eSrc a) (eSrc b) (eBit spm))
  | .sst d a b spm => some (mkR 0x86 (eReg d) (eSrc a) (eSrc b) (eBit spm))
  | .vldb d a b x => some (mkR 0x87 (eDst d) (eSrc a) (eSrc b) (eSpace x))
  | .vstb d a b x => some (mkR 0x88 (eReg d) (eSrc a) (eSrc b) (eSpace x))
  | .ldds d a b => some (mkR 0x89 (eDst d) (eSrc a) (eSrc b) 0)
  | .stds d a b => some (mkR 0x8a (eReg d) (eSrc a) (eSrc b) 0)
  | .vgath d a b x => some (mkR 0x8b (eDst d) (eReg a) (eSrc b) (eSpace x))
  | .atom d a b p => some (mkR 0x8c (eDst d) (eSrc a) (eSrc b) (eAtom p))
  | .atoms d a b p => some (mkR 0x8d (eDst d) (eSrc a) (eSrc b) (eAtom p))
  | .atomf d a b p => some (mkR 0x8e (eDst d) (eSrc a) (eSrc b) (eAmm p))
  | .atomo a b => some (mkR 0x8f 0 (eSrc a) (eSrc b) 0)
  | .ordcl => some (mkL 0x90 0)
  | .waitc k => some (mkI 0x91 0 0 k)
  | .waitv d a => some (mkI 0x92 (eReg d) (eSrc a) 0)
  | .fence sc => some (mkR 0x93 0 0 0 (eScope sc))
  | .tfence sc => some (mkR 0x94 0 0 0 (eScope sc))
  | .pref a b => some (mkR 0x95 0 (eSrc a) (eSrc b) 0)
  | .samp d a b hi => some (mkR 0x96 (eDst d) (eSrc a) (eSrc b) (eBit hi))
  | .sampg d a b hi => some (mkR 0x97 (eDst d) (eSrc a) (eSrc b) (eBit hi))
  | .cpa d a b t => some (mkR 0x98 (eReg d) (eSrc a) (eSrc b) (t))
  | .cpwt k t => some (mkI 0x99 0 0 (k ++ t))
  | .cpb a => some (mkR 0x9a 0 (eSrc a) 0 0)
  | .cpt a b => some (mkR 0x9b 0 (eSrc a) (eSrc b) 0)
  | .syncw a b => some (mkR 0x9c 0 (eSrc a) (eSrc b) 0)
  | .bar a n => some (mkI 0xa0 0 (eSrc a) (n.setWidth 10))
  | .bara a n => some (mkI 0xa1 0 (eSrc a) (n.setWidth 10))
  | .barw a n => some (mkI 0xa2 0 (eSrc a) (n.setWidth 10))
  | .sbar => some (mkL 0xa3 0)
  | .tlwait a n => some (mkI 0xa4 0 (eSrc a) (n.setWidth 10))
  | .tladv a n => some (mkI 0xa5 0 (eSrc a) (n.setWidth 10))
  | .tlget d sel n => some (mkI 0xa6 (eDst d) 0 ((0 : BitVec 4) ++ (eTlSel sel ++ n)))
  | .yield => some (mkL 0xa7 0)
  | .gangset a => some (mkR 0xa8 0 (eSrc a) 0 0)
  | .mma d a b => some (mkR 0xb0 (eReg d) (eReg a) (eReg b) 0)
  | .mmal d a b => some (mkR 0xb1 (eReg d) (eReg a) (eReg b) 0)
  | .mconv d a b => some (mkR 0xb2 (eReg d) (eReg a) (eReg b) 0)
  | .mconvl d a b => some (mkR 0xb3 (eReg d) (eReg a) (eReg b) 0)
  | .mzero => some (mkL 0xb4 0)
  | .mdrn a b => some (mkR 0xb5 0 (eSrc a) (eSrc b) 0)
  | .mdst d a b x => some (mkR 0xb6 (eReg d) (eSrc a) (eSrc b) ((x.setWidth 3)))
  | .mlda d a b x => some (mkR 0xb7 (eReg d) (eSrc a) (eSrc b) ((x.setWidth 3)))
  | .mqry d sel => some (mkR 0xb8 (eReg d) 0 0 (eMq sel))
  | .plbind => some (mkR 0xc0 0 0 0 0)
  | .plfree => some (mkR 0xc1 0 0 0 0)
  | .plwin a => some (mkR 0xc2 0 (eSrc a) 0 0)
  | .pleval d a => some (mkR 0xc3 (eCell d) (eReg a) 0 0)
  | .plexp d a => some (mkR 0xc4 (eCell d) (eReg a) 0 0)
  | .pllin d a => some (mkR 0xc5 (eCell d) (eReg a) 0 0)
  | .plfma d a b => some (mkR 0xc6 (eCell d) (eCellSrc a) (eCellB b) (eBcCell b))
  | .pladd d a b => some (mkR 0xc7 (eCell d) (eCellSrc a) (eCellB b) (eBcCell b))
  | .plmul d a b => some (mkR 0xc8 (eCell d) (eCellSrc a) (eCellB b) (eBcCell b))
  | .plmin d a b => some (mkR 0xc9 (eCell d) (eCellSrc a) (eCellB b) (eBcCell b))
  | .plmax d a b => some (mkR 0xca (eCell d) (eCellSrc a) (eCellB b) (eBcCell b))
  | .plmov d a => some (mkR 0xcb (eCell d) (eCellSrc a) 0 0)
  | .plcmp a b c => some (mkR 0xcc 0 (eCellSrc a) (eCellSrc b) (eVCond c))
  | .plif => some (mkL 0xcd 0)
  | .plelse => some (mkL 0xce 0)
  | .plend => some (mkL 0xcf 0)
  | .plsel d a b => some (mkR 0xd0 (eCell d) (eCellSrc a) (eCellB b) (eBcCell b))
  | .plshf d a cl dir => some (mkR 0xd1 (eCell d) (eCellSrc a) 0 (eDir dir ||| eBit2 cl))
  | .plld d a b spm => some (mkR 0xd2 (eCell d) (eSrc a) (eSrc b) (eBit spm))
  | .plst d a b spm => some (mkR 0xd3 (eCell d) (eSrc a) (eSrc b) (eBit spm))
  | .plred d a b p => some (mkR 0xd4 (eReg d) (eCellSrc a) (eSrc b) (eAmm p))
  | .plexc d a clr => some (mkR 0xd5 (eReg d) (eSrc a) 0 (eBit clr))
  | .plvis a b le => some (mkR 0xd6 0 (eCellSrc a) (eReg b) (eBit le))
  | .plbld d a b => some (mkR 0xd7 (eCell d) (eCellSrc a) (eReg b) 0)
  | .pltile a b => some (mkR 0xd8 0 (eSrc a) (eSrc b) 0)
  | .plflg d clr => some (mkR 0xd9 (eReg d) 0 0 (eBit clr))
  | .plsfn d a f => some (mkR 0xda (eCell d) (eCellSrc a) 0 (eFn f))
  | .plclr i => some (mkL 0xdb (i.setWidth 24))
  | .plbin a => some (mkR 0xdc 0 (eSrc a) 0 0)
  | .launch d a => some (mkR 0xe0 (eReg d) (eSrc a) 0 0)
  | .arm d a => some (mkR 0xe1 (eReg d) (eSrc a) 0 0)
  | .disarm d a => some (mkR 0xe2 (eReg d) (eSrc a) 0 0)
  | .invoke d a b => some (mkR 0xe3 (eReg d) (eSrc a) (eSrc b) 0)
  | .invh d a b => some (mkR 0xe4 (eReg d) (eSrc a) (eSrc b) 0)
  | .hwait d a => some (mkR 0xe5 (eReg d) (eSrc a) 0 0)
  | .hres a fwd => some (mkR 0xe6 0 (eSrc a) 0 (eBit fwd))
  | .hbrk a => some (mkR 0xe7 0 (eSrc a) 0 0)
  | .hqry d a => some (mkR 0xe8 (eReg d) (eSrc a) 0 0)
  | .hfree a => some (mkR 0xe9 0 (eSrc a) 0 0)
  | .vgcmd d a b => some (mkR 0xea (eReg d) (eSrc a) (eSrc b) 0)
  | .vgqry d a sel => some (mkR 0xeb (eReg d) (eSrc a) 0 (eVg sel))
  | .mode i => some (mkL 0xf0 (i.setWidth 24))
  | .modex i => some (mkL 0xf1 (i.setWidth 24))
  | .getc d i => some (mkI 0xf2 (eDst d) 0 i)
  | .setc a i => some (mkI 0xf3 0 (eSrc a) i)
  | .timer d sel => some (mkR 0xf4 (eDst d) 0 0 (eTimer sel))
  | .ckpt d a q => some (mkR 0xf5 (eDst d) (eSrc a) 0 (eBit q))
  | .flagchk => some (mkL 0xf6 0)
  | .bkpt i => some (mkL 0xf7 i)
  | .undef i => some ((0x1F : BitVec 5) ++ i)
  | .rsvop w => some w
  | .quantumSwitch _ => none
  | .loadComplete _ => none
  | .accessPerform _ _ _ => none
  | .pageTableWalk _ _ _ => none
  | .trapEntry _ => none
  | .groupRetire _ => none
  | .completionWrite _ => none
  | .atomoApplication _ => none
  | .blockStart _ => none
  | .candidateHold => none
  | .pri0Displacement => none
  | .preemption _ => none
  | .forcedPreemption _ => none
  | .restoration _ _ => none
  | .eviction _ => none
  | .suspension _ => none
  | .driverKill _ => none
  | .contextDestroy _ => none
  | .matrixOpStart _ _ => none
  | .matrixStep _ => none
  | .engineOpComplete _ _ => none
  | .planeOp _ => none
  | .binningJob _ => none
  | .cpaTransferComplete _ _ => none
  | .copyRow _ _ _ => none
  | .vgcmdStart _ _ => none
  | .virgaWave _ _ _ => none
  | .virgaWindowEnd _ => none
  | .bankServiceEnd _ => none
  | .virgaMerge _ _ => none
  | .handlerStart _ => none
  | .invocationArrival _ => none
  | .hwaitRegistration _ => none
  | .hwaitAnswer _ => none
  | .resolutionArrival _ => none
  | .forwardArrival _ => none
  | .forwardProbe _ => none
  | .breakArrival _ => none
  | .homeAnswer _ => none
  | .hostQueueRecord _ => none
  | .queueResume _ _ => none
  | .taggedMessage _ _ _ _ => none
  | .frameReceive _ => none
  | .retransmit _ => none
  | .connectionFailure _ => none
  | .sendRingDescriptor _ => none
  | .bridgeFailure _ _ => none
  | .hostAccess _ _ _ => none
  | .contextDescriptorWrite _ _ => none
  | .capabilityTableWrite _ _ _ => none
  | .shootdown _ => none
  | .errorDetected _ => none
  | .checkpointCommit => none
  | .freeze _ => none
  | .tapFreeze => none
  | .testPortReadout => none
  | .thermalStep _ _ => none
  | .attestationRequest _ => none
  | .coldReset => none
  | .warmReset => none
  | .hfreeArrival _ => none
  | .linkTraining _ => none
  | .connectionReestablished _ => none
  | .queueBinding _ _ _ _ => none
  | .contextCreation _ _ => none
  | .powerOff => none

/-- The instruction the decoder reads from a word whose bits are numbered as spec/opcode_table.json numbers them (bit 0 the least
significant of the first word). Every row has one 32-bit word, stored little-endian (R31), so the word is w itself. -/
def decodeTableWord (nbits w : Nat) : Option Instr :=
  match decode (BitVec.ofNat 32 (w % 2 ^ nbits)) with
  | .ok i => some i
  | .error _ => none

end Sys2Proof
end

