-- ==== Sys2Proof/Machine/Num.lean ====
section
/-! DEFINITION. Element types, their values, and rounding (R59-R77): exact values as signed magnitudes times powers of two. -/

namespace Sys2Proof.Machine

open Sys2Proof

/-- Bits of an element (R59); a described element takes 8. -/
def width : ElemType → Nat
  | .i64 | .n64 | .f64 => 64
  | .i32 | .n32 | .f32 => 32
  | .i16 | .n16 | .f16 | .bf16 => 16
  | .i8 | .n8 | .e4m3 | .e5m2 | .dya8 | .d => 8

/-- Sub-elements of a lane (R59). -/
def nsub (t : ElemType) : Nat := 64 / width t

def isSigned : ElemType → Bool
  | .i64 | .i32 | .i16 | .i8 => true
  | _ => false

def isUnsigned : ElemType → Bool
  | .n64 | .n32 | .n16 | .n8 => true
  | _ => false

def isInt (t : ElemType) : Bool := isSigned t || isUnsigned t

/-- The ratio of two element widths, below which the part of a VCVT must lie (R104). -/
def widthRatio (s t : ElemType) : Nat := max (width s) (width t) / min (width s) (width t)

def isFloat : ElemType → Bool
  | .f64 | .f32 | .f16 | .bf16 | .e4m3 | .e5m2 => true
  | _ => false

/-- Fraction bits of a floating format (R61). -/
def fracBits : ElemType → Nat
  | .f64 => 52 | .f32 => 23 | .f16 => 10 | .bf16 => 7 | .e4m3 => 3 | .e5m2 => 2
  | _ => 0

/-- Exponent bits of a floating format (R61). -/
def expBits : ElemType → Nat
  | .f64 => 11 | .f32 => 8 | .f16 => 5 | .bf16 => 8 | .e4m3 => 4 | .e5m2 => 5
  | _ => 0

/-- Exponent bias of a floating format (R61). -/
def bias : ElemType → Nat
  | .f64 => 1023 | .f32 => 127 | .f16 => 15 | .bf16 => 127 | .e4m3 => 7 | .e5m2 => 15
  | _ => 0

/-- The flags of FLAGS [6:0]: INV, DZ, OVF, UNF, INX, ISAT, PLX (R52). -/
abbrev Flags := BitVec 7

def flINV : Flags := 1
def flDZ : Flags := 2
def flOVF : Flags := 4
def flUNF : Flags := 8
def flINX : Flags := 16
def flISAT : Flags := 32
def flPLX : Flags := 64

/-- An exact value: a NaN (signalling or quiet), an infinity, or a signed magnitude m * 2^e. `st` says that the true magnitude lies strictly
between m * 2^e and (m + 1) * 2^e: a quotient, root or function value cut off far below the precision of any format. -/
inductive Val where
  | nan (sig : Bool)
  | inf (neg : Bool)
  | fin (neg : Bool) (m : Nat) (e : Int) (st : Bool)
deriving DecidableEq, Repr

def Val.ofInt (x : Int) : Val := .fin (decide (x < 0)) x.natAbs 0 false

def Val.isNaN : Val → Bool
  | .nan _ => true
  | _ => false

def Val.isSig : Val → Bool
  | .nan s => s
  | _ => false

def Val.isZero : Val → Bool
  | .fin _ 0 _ false => true
  | _ => false

def Val.neg? : Val → Bool
  | .nan _ => false
  | .inf n => n
  | .fin n _ _ _ => n

def Val.negate : Val → Val
  | .nan s => .nan s
  | .inf n => .inf (!n)
  | .fin n m e s => .fin (!n) m e s

/-- term(s, c) of a dya8 half in units of 2^-6 (R64). -/
def dyaTerm (s : Bool) (c : Nat) : Int :=
  if c = 7 then 0 else if s then -((64 >>> c : Nat) : Int) else ((64 >>> c : Nat) : Int)

/-- The value of a dya8 byte in units of 2^-6 (R64). -/
def dyaUnits (x : Nat) : Int :=
  dyaTerm (decide (x / 128 % 2 = 1)) (x / 16 % 8) + dyaTerm (decide (x / 8 % 2 = 1)) (x % 8)

/-- The value of a w-bit pattern as an integer of its type (R60). -/
def intOf (t : ElemType) (x : Nat) : Int :=
  if isSigned t && decide (2 ^ (width t - 1) ≤ x) then (x : Int) - 2 ^ width t else x

/-- The value of a bit pattern of type t (R60, R61, R64). -/
def decodeElem (t : ElemType) (x : Nat) : Val :=
  if isFloat t then
    let f := fracBits t
    let eb := expBits t
    let neg := decide (x / 2 ^ (width t - 1) % 2 = 1)
    let ef := x / 2 ^ f % 2 ^ eb
    let fr := x % 2 ^ f
    let lsb : Int := 1 - (bias t : Int) - f
    if t = .e4m3 then
      if ef = 15 ∧ fr = 7 then .nan false
      else if ef = 0 then .fin neg fr lsb false
      else .fin neg (2 ^ f + fr) (lsb + ef - 1) false
    else if ef = 2 ^ eb - 1 then
      if fr = 0 then .inf neg else .nan (decide (fr / 2 ^ (f - 1) % 2 = 0))
    else if ef = 0 then .fin neg fr lsb false
    else .fin neg (2 ^ f + fr) (lsb + ef - 1) false
  else if t = .dya8 then
    let u := dyaUnits x
    .fin (decide (u < 0)) u.natAbs (-6) false
  else Val.ofInt (intOf t x)

/-- The canonical NaN of a floating format (R61). -/
def canonNaN : ElemType → Nat
  | .f64 => 0x7FF8000000000000 | .f32 => 0x7FC00000 | .f16 => 0x7E00 | .bf16 => 0x7FC0 | .e4m3 => 0x7F | .e5m2 => 0x7E
  | .dya8 => 0x77
  | _ => 0

/-- Rounding modes of MODE.RND (R70). -/
inductive Rnd where
  | rne | rtz | rdn | rup | rna
deriving DecidableEq, Repr

def rndOf (c : Nat) : Rnd :=
  match c with | 0 => .rne | 1 => .rtz | 2 => .rdn | 3 => .rup | _ => .rna

/-- Whether the magnitude k + rem/2^sh (plus the sticky part) rounds up to k + 1 (R70). -/
def roundsUp (rnd : Rnd) (neg : Bool) (k rem half : Nat) (st : Bool) : Bool :=
  let inexact := decide (rem ≠ 0) || st
  match rnd with
  | .rne => decide (half < rem) || (decide (rem = half) && decide (half ≠ 0) && (st || decide (k % 2 = 1)))
  | .rna => decide (half ≤ rem) && decide (half ≠ 0)
  | .rtz => false
  | .rdn => neg && inexact
  | .rup => !neg && inexact

/-- The multiple of 2^q that m * 2^e rounds to, and whether it differs. -/
def roundAt (rnd : Rnd) (neg : Bool) (m : Nat) (e : Int) (st : Bool) (q : Int) : Nat × Bool :=
  if q ≤ e then
    let k := m <<< (e - q).toNat
    (if roundsUp rnd neg k 0 0 st then k + 1 else k, st)
  else
    let sh := (q - e).toNat
    let k := m >>> sh
    let rem := m - (k <<< sh)
    (if roundsUp rnd neg k rem (1 <<< (sh - 1)) st then k + 1 else k, decide (rem ≠ 0) || st)

/-- The integer a finite value rounds to (R70). -/
def roundInt (rnd : Rnd) (neg : Bool) (m : Nat) (e : Int) (st : Bool) : Int × Bool :=
  let r := roundAt rnd neg m e st 0
  (if neg then -(r.1 : Int) else r.1, r.2)

def signBit (t : ElemType) (neg : Bool) : Nat := if neg then 2 ^ (width t - 1) else 0

/-- The pattern of the largest finite value (R62). -/
def maxFin : ElemType → Nat
  | .f64 => 0x7FEFFFFFFFFFFFFF | .f32 => 0x7F7FFFFF | .f16 => 0x7BFF | .bf16 => 0x7F7F | .e4m3 => 0x7E | .e5m2 => 0x7B
  | _ => 0

/-- The pattern of +infinity (R61). -/
def infBits (t : ElemType) : Nat := (2 ^ expBits t - 1) <<< fracBits t

/-- The result of an overflow (R73), with its flags. -/
def overflowTo (t : ElemType) (rnd : Rnd) (sat neg : Bool) : Nat × Flags :=
  let big := signBit t neg ||| maxFin t
  let toInf : Bool := match rnd with
    | .rne | .rna => true
    | .rtz => false
    | .rdn => neg
    | .rup => !neg
  let r :=
    if sat then big
    else if toInf then (if t = .e4m3 then 0x7F else signBit t neg ||| infBits t)
    else big
  (r, flOVF ||| flINX)

/-- Round of a finite value to a floating format (R70, R71, R73). -/
def roundFloat (t : ElemType) (rnd : Rnd) (sat neg : Bool) (m : Nat) (e : Int) (st : Bool) : Nat × Flags :=
  if m = 0 && !st then (signBit t neg, 0)
  else
    let f := fracBits t
    let top : Int := (Nat.log2 m : Int) + e
    let emin : Int := 1 - (bias t : Int)
    let q : Int := max (top - f) (emin - f)
    let r := roundAt rnd neg m e st q
    let k := if 2 ^ (f + 1) ≤ r.1 then r.1 / 2 else r.1
    let q' := if 2 ^ (f + 1) ≤ r.1 then q + 1 else q
    let kmax := if t = .e4m3 then 14 else 2 ^ (f + 1) - 1
    let qmax : Int := if t = .e4m3 then 5 else (bias t : Int) - f
    if qmax < q' ∨ (qmax = q' ∧ kmax < k) then overflowTo t rnd sat neg
    else
      let fl : Flags := (if r.2 then flINX else 0) ||| (if r.2 && decide (top < emin) then flUNF else 0)
      let ef : Nat := if k < 2 ^ f then 0 else (q' + f + bias t).toNat
      let bits := if k < 2 ^ f then k else (ef <<< f) + (k - 2 ^ f)
      (signBit t neg ||| bits, fl)

/-- The magnitudes a dya8 byte can have, in units of 2^-6. -/
def dyaRepresentable (u : Nat) : Bool :=
  u == 0 ||
  (List.range 7).any fun i => u == 2 ^ i ||
    (List.range 7).any fun j => u == 2 ^ i + 2 ^ j || (decide (j < i) && u == 2 ^ i - 2 ^ j)

/-- Nonzero terms of the canonical encoding of a magnitude (R65). -/
def dyaTerms (u : Nat) : Nat :=
  if u = 0 then 0 else if (List.range 7).any fun i => u == 2 ^ i then 1 else 2

/-- The canonical dya8 byte of a representable value (R65): one term, then two of one sign, then a difference, a at most b. -/
def dyaEncode (neg : Bool) (u : Nat) : Nat :=
  let s := if neg then 1 else 0
  if u = 0 then 0x77
  else
    match (List.range 7).find? fun a => u == 64 >>> a with
    | some a => s * 128 + a * 16 + 7
    | none =>
      let pairs := (List.range 7).flatMap fun a => (List.range 7).map fun b => (a, b)
      match pairs.find? fun p => decide (p.1 ≤ p.2) && u == (64 >>> p.1) + (64 >>> p.2) with
      | some p => s * 128 + p.1 * 16 + s * 8 + p.2
      | none =>
        match pairs.find? fun p => decide (p.1 < p.2) && u == (64 >>> p.1) - (64 >>> p.2) with
        | some p => s * 128 + p.1 * 16 + (1 - s) * 8 + p.2
        | none => 0x77

/-- Round of a finite value to dya8 (R70, R71, R73). -/
def roundDya (rnd : Rnd) (neg : Bool) (m : Nat) (e : Int) (st : Bool) : Nat × Flags :=
  -- the magnitude in units of 2^-6 is num / den, plus the sticky part
  let num := if 0 ≤ e + 6 then m <<< (min (e + 6).toNat 16) else m
  let den := if 0 ≤ e + 6 then 1 else 1 <<< (-(e + 6)).toNat
  let big := decide (16 < e + 6) && decide (m ≠ 0)
  if big || decide (128 * den < num) || (decide (128 * den = num) && st) then
    (if neg then 0x88 else 0x00, flOVF ||| flINX)
  else
    let fl := num / den
    let lo := ((List.range 129).filter fun u => dyaRepresentable u && decide (u ≤ fl)).getLastD 0
    let exact := decide (lo * den = num) && !st
    if exact then (dyaEncode (neg && decide (lo ≠ 0)) lo, 0)
    else
      let hi := ((List.range 129).find? fun u => dyaRepresentable u && decide (lo < u)).getD 128
      let twice := 2 * num
      let mid := (lo + hi) * den
      let up : Bool := match rnd with
        | .rtz => false
        | .rdn => neg
        | .rup => !neg
        | .rna => decide (mid ≤ twice)
        | .rne => decide (mid < twice) || (decide (mid = twice) && (st || decide (dyaTerms hi < dyaTerms lo)))
      let u := if up then hi else lo
      let tiny := decide (num < den)
      (dyaEncode (neg && decide (u ≠ 0)) u, flINX ||| (if tiny then flUNF else 0))

/-- The bounds of an integer type (R60). -/
def intMin (t : ElemType) : Int := if isSigned t then -(2 ^ (width t - 1) : Int) else 0
def intMax (t : ElemType) : Int := if isSigned t then 2 ^ (width t - 1) - 1 else 2 ^ width t - 1

/-- The pattern of an integer modulo 2^w. -/
def wrapInt (t : ElemType) (x : Int) : Nat := (x % (2 ^ width t : Int)).toNat

/-- An integer result of an integer operation (R75). -/
def narrowInt (t : ElemType) (sat : Bool) (x : Int) : Nat × Flags :=
  if sat then
    if intMax t < x then (wrapInt t (intMax t), flISAT)
    else if x < intMin t then (wrapInt t (intMin t), flISAT)
    else (wrapInt t x, 0)
  else (wrapInt t x, 0)

/-- Conversion of a floating or dya8 value to an integer type (R76). -/
def toInt (t : ElemType) (rnd : Rnd) (sat : Bool) (v : Val) : Nat × Flags :=
  let out : Flags := if sat then flISAT else flINV
  match v with
  | .nan _ => (0, flINV)
  | .inf neg => (wrapInt t (if neg then intMin t else intMax t), out)
  | .fin neg m e st =>
    if 128 < e && m ≠ 0 then (wrapInt t (if neg then intMin t else intMax t), out)
    else
      let r := roundInt rnd neg m e st
      if intMax t < r.1 then (wrapInt t (intMax t), out)
      else if r.1 < intMin t then (wrapInt t (intMin t), out)
      else (wrapInt t r.1, if r.2 then flINX else 0)

/-- Sat(Round(v, T), T) for the result of an operation in T (R70-R77): integer types take an exact integer by R75. A NaN gives the
canonical NaN and no flag here; into dya8 it gives zero and INV. -/
def roundTo (t : ElemType) (rnd : Rnd) (sat : Bool) (v : Val) : Nat × Flags :=
  if isFloat t then
    match v with
    | .nan _ => (canonNaN t, 0)
    | .inf neg =>
      if t = .e4m3 then
        if sat then (signBit t neg ||| 0x7E, flOVF ||| flINX) else (0x7F, flOVF)
      else (signBit t neg ||| infBits t, 0)
    | .fin neg m e st => roundFloat t rnd sat neg m e st
  else if t = .dya8 then
    match v with
    | .nan _ => (0x77, flINV)
    | .inf neg => (if neg then 0x88 else 0x00, flOVF ||| flINX)
    | .fin neg m e st => roundDya rnd neg m e st
  else
    match v with
    | .fin neg m e _ => narrowInt t sat (if neg then -((m <<< e.toNat : Nat) : Int) else ((m <<< e.toNat : Nat) : Int))
    | _ => (0, flINV)

end Sys2Proof.Machine
end

