-- ==== Sys2Proof/Machine/Arith.lean ====
section
/-! DEFINITION. Exact arithmetic on values with the flags of R72 and R78, comparisons, conversions (R76, R77) and described elements
(R66-R69). -/

namespace Sys2Proof.Machine

open Sys2Proof

/-- INV for a signalling NaN operand (R78). -/
def sigFlag (v : Val) : Flags := if v.isSig then flINV else 0

/-- The signed multiple of 2^e that a finite value is, for e at most its exponent. -/
def scaled (neg : Bool) (m : Nat) (e q : Int) : Int :=
  let k : Int := ((m <<< (e - q).toNat : Nat) : Int)
  if neg then -k else k

/-- The order of two values that are not NaN, -0 equal to +0. -/
def cmpVal (x y : Val) : Ordering :=
  match x, y with
  | .inf n, .inf n' => if n = n' then .eq else if n then .lt else .gt
  | .inf n, _ => if n then .lt else .gt
  | _, .inf n => if n then .gt else .lt
  | .fin n m e _, .fin n' m' e' _ =>
    let q := min e e'
    compare (scaled n m e q) (scaled n' m' e' q)
  | _, _ => .eq

/-- The exact sum, before rounding under rnd, which decides the sign of an exact zero (R72, R78). -/
def addVal (rnd : Rnd) (x y : Val) : Val × Flags :=
  let fl := sigFlag x ||| sigFlag y
  match x, y with
  | .nan _, _ => (.nan false, fl)
  | _, .nan _ => (.nan false, fl)
  | .inf n, .inf n' => if n = n' then (.inf n, fl) else (.nan false, flINV)
  | .inf n, _ => (.inf n, fl)
  | _, .inf n => (.inf n, fl)
  | .fin n m e _, .fin n' m' e' _ =>
    if m = 0 ∧ m' = 0 then
      (.fin (if n = n' then n else decide (rnd = .rdn)) 0 (min e e') false, fl)
    else
      let q := min e e'
      let k := scaled n m e q + scaled n' m' e' q
      if k = 0 then (.fin (decide (rnd = .rdn)) 0 q false, fl)
      else (.fin (decide (k < 0)) k.natAbs q false, fl)

/-- The exact product (R78). -/
def mulVal (x y : Val) : Val × Flags :=
  let fl := sigFlag x ||| sigFlag y
  match x, y with
  | .nan _, _ => (.nan false, fl)
  | _, .nan _ => (.nan false, fl)
  | .inf n, .inf n' => (.inf (n != n'), fl)
  | .inf n, .fin n' m _ _ => if m = 0 then (.nan false, flINV) else (.inf (n != n'), fl)
  | .fin n m _ _, .inf n' => if m = 0 then (.nan false, flINV) else (.inf (n != n'), fl)
  | .fin n m e _, .fin n' m' e' _ => (.fin (n != n') (m * m') (e + e') false, fl)

/-- a * b + c, exact (R78: 0 * infinity sets INV even beside a quiet NaN c). -/
def fmaVal (rnd : Rnd) (a b c : Val) : Val × Flags :=
  let p := mulVal a b
  let s := addVal rnd p.1 c
  (s.1, p.2 ||| s.2)

def subVal (rnd : Rnd) (x y : Val) : Val × Flags := addVal rnd x y.negate

/-- The magnitude, as an operation (R99): a signalling NaN sets INV. -/
def absVal (x : Val) : Val × Flags :=
  match x with
  | .nan _ => (.nan false, sigFlag x)
  | .inf _ => (.inf false, 0)
  | .fin _ m e s => (.fin false m e s, 0)

def negVal (x : Val) : Val × Flags :=
  match x with
  | .nan _ => (.nan false, sigFlag x)
  | v => (v.negate, 0)

/-- The smaller or the larger of two values, -0 below +0 (R78). -/
def extremeVal (max : Bool) (x y : Val) : Val × Flags :=
  let fl := sigFlag x ||| sigFlag y
  if x.isNaN || y.isNaN then (.nan false, fl)
  else
    match cmpVal x y with
    | .lt => (if max then y else x, fl)
    | .gt => (if max then x else y, fl)
    | .eq => (if x.neg? = max then y else x, fl)

/-- min(max(c, a), b) (R99). -/
def clampVal (c a b : Val) : Val × Flags :=
  let h := extremeVal true c a
  let r := extremeVal false h.1 b
  (r.1, h.2 ||| r.2)

/-- A condition of VCMP and PLCMP (R78, R101). -/
def condVal (c : VCond) (x y : Val) : Bool :=
  if x.isNaN || y.isNaN then
    match c with
    | .ne | .un => true
    | _ => false
  else
    let o := cmpVal x y
    match c with
    | .eq => o == .eq
    | .ne => o != .eq
    | .lt => o == .lt
    | .le => o != .gt
    | .gt => o == .gt
    | .ge => o != .lt
    | .un => false
    | .ord => true

/-- Sat(Round(v, T), T) of an operation's exact value, the operation's flags joined. -/
def finish (t : ElemType) (rnd : Rnd) (sat : Bool) (v : Val × Flags) : Nat × Flags :=
  let r := roundTo t rnd sat v.1
  (r.1, v.2 ||| r.2)

/-- Conversion of an exact value into T, integers by R76, floating types and dya8 by R77. -/
def convertVal (t : ElemType) (rnd : Rnd) (sat : Bool) (v : Val) : Nat × Flags :=
  if isInt t then toInt t rnd sat v
  else
    let r := roundTo t rnd sat v
    (r.1, sigFlag v ||| r.2)

/-- Convert of R104. -/
def convertElem (src t : ElemType) (rnd : Rnd) (sat : Bool) (x : Nat) : Nat × Flags :=
  if isInt src && isInt t then narrowInt t sat (intOf src x)
  else convertVal t rnd sat (decodeElem src x)

/-! ## Described elements -/

/-- The FMT of a descriptor, none when it lies outside 10 to 14 (R66, R68). -/
def descFmt (d : Nat) : Option ElemType :=
  match d / 4096 % 16 with
  | 10 => some .i8
  | 11 => some .n8
  | 12 => some .e4m3
  | 13 => some .e5m2
  | 14 => some .dya8
  | _ => none

def descScale (d : Nat) : Nat := d / 16 % 256

/-- A descriptor whose elements are values: not malformed and SCALE below 255 (R67, R68). -/
def descUsable (d : Nat) : Bool := (descFmt d).isSome && d % 16 == 0 && descScale d != 255

/-- A value times 2^k. -/
def scaleVal (k : Int) (v : Val) : Val :=
  match v with
  | .fin n m e s => .fin n m (e + k) s
  | w => w

/-- The exact value of a described element and the flag its decoding sets (R67, R68). -/
def describedVal (d x : Nat) : Val × Flags :=
  if descUsable d then
    match descFmt d with
    | some f => (scaleVal ((descScale d : Int) - 127) (decodeElem f x), 0)
    | none => (.nan false, flINV)
  else (.nan false, flINV)

/-- A described element as an element of T (R67, R68, R133). -/
def describedTo (t : ElemType) (rnd : Rnd) (sat : Bool) (d x : Nat) : Nat × Flags :=
  let v := describedVal d x
  let r := convertVal t rnd sat v.1
  (r.1, v.2 ||| r.2)

/-- The byte that a store of a value into a described block writes (R69). -/
def describedStore (rnd : Rnd) (sat : Bool) (d : Nat) (v : Val) : Nat × Flags :=
  match descFmt d with
  | none => (0, flINV)
  | some f =>
    if descUsable d then convertVal f rnd sat (scaleVal (127 - (descScale d : Int)) v)
    else (canonNaN f, flINV)

/-! ## Classification -/

/-- The class code of R106. -/
def classOf (t : ElemType) (x : Nat) : Nat :=
  match decodeElem t x with
  | .nan sig => if sig then 0 else 1
  | .inf neg => if neg then 2 else 9
  | .fin neg m _ _ =>
    if m = 0 then (if neg then 5 else 6)
    else
      let normal := decide (2 ^ fracBits t ≤ m)
      match neg, normal with
      | true, true => 3
      | true, false => 4
      | false, false => 7
      | false, true => 8

/-- VRINT (R105): the integral value in T, -0 and +0 kept, INX unless nx. -/
def rintElem (t : ElemType) (rnd : Rnd) (sat nx : Bool) (x : Nat) : Nat × Flags :=
  let v := decodeElem t x
  match v with
  | .fin neg m e st =>
    let r := roundAt rnd neg m e st 0
    if 0 ≤ e then (x, 0)
    else
      let o := roundTo t rnd sat (.fin neg r.1 0 false)
      (o.1, o.2 ||| (if r.2 && !nx then flINX else 0))
  | .inf _ => (x, 0)
  | .nan _ => (canonNaN t, sigFlag v)

end Sys2Proof.Machine
end

