-- ==== Sys2Proof/Machine/Canon.lean ====
section
/-! DEFINITION. Canonical summation (R83-R86). -/

namespace Sys2Proof.Machine

open Sys2Proof

/-- A present term: its global index and the two operands of its product. -/
structure Term where
  k : Nat
  a : Val
  b : Val
deriving DecidableEq, Repr

/-- The elements of a list of terms whose index lies in chunk c. -/
def chunkOf (c : Nat) (ts : List Term) : List Term := ts.filter fun x => x.k / 32 == c

/-- A rounded node of the tree with the flags of its rounding. -/
def roundNode (t : ElemType) (v : Val × Flags) : Val × Flags :=
  let r := finish t .rne false v
  (decodeElem t r.1, r.2)

/-- Comb of R83. -/
def comb (t : ElemType) (x y : Option Val) : Option Val × Flags :=
  match x, y with
  | none, y => (y, 0)
  | x, none => (x, 0)
  | some x, some y =>
    let r := roundNode t (addVal .rne x y)
    (some r.1, r.2)

/-- One level of the tree: neighbours combined. -/
def combLevel (t : ElemType) : List (Option Val) → List (Option Val) × Flags
  | x :: y :: rest =>
    let h := comb t x y
    let r := combLevel t rest
    (h.1 :: r.1, h.2 ||| r.2)
  | l => (l, 0)

/-- The levels of width 16, 8, 4, 2 and 1. -/
def combTree (t : ElemType) : Nat → List (Option Val) → List (Option Val) × Flags
  | 0, l => (l, 0)
  | n + 1, l =>
    let h := combLevel t l
    let r := combTree t n h.1
    (r.1, h.2 ||| r.2)

/-- The leaf j of a wide chunk. -/
def leaf (t : ElemType) (ts : List Term) (k : Nat) : Option Val × Flags :=
  match ts.find? fun x => x.k == k with
  | none => (none, 0)
  | some x =>
    let r := roundNode t (mulVal x.a x.b)
    (some r.1, r.2)

/-- The value of a wide chunk (R83). -/
def wideChunk (t : ElemType) (c : Nat) (ts : List Term) : Val × Flags :=
  let leaves := (List.range 32).map fun j => leaf t ts (32 * c + j)
  let fl := leaves.foldl (fun f x => f ||| x.2) 0
  let r := combTree t 5 (leaves.map (·.1))
  ((r.1.head?.getD none).getD (.fin false 0 0 false), fl ||| r.2)

/-- The exact sum of the products of a narrow chunk, and its flags (R83, R85). -/
def narrowSum (ts : List Term) : Val × Flags :=
  let ps := ts.map fun x => mulVal x.a x.b
  let fl := ps.foldl (fun f x => f ||| x.2) 0
  let vs := ps.map (·.1)
  let pos := vs.any (· == .inf false)
  let neg := vs.any (· == .inf true)
  if pos && neg then (.nan false, fl ||| flINV)
  else if vs.any Val.isNaN then (.nan false, fl)
  else
    match vs with
    | [] => (.fin false 0 0 false, fl)
    | v :: rest => (rest.foldl (fun x y => (addVal .rne x y).1) v, fl)

/-- The chunks that have a present term, ascending. -/
def chunksOf (ts : List Term) : List Nat :=
  (List.range (ts.foldl (fun n x => max n (x.k / 32 + 1)) 0)).filter fun c => ts.any fun x => x.k / 32 == c

/-- One chunk of a floating canonical sum. -/
def canonStep (t : ElemType) (narrow : Bool) (ts : List Term) (acc : Nat × Flags) (c : Nat) : Nat × Flags :=
  let own := chunkOf c ts
  let s := if narrow then roundNode t (narrowSum own) else wideChunk t c own
  let r := finish t .rne false (addVal .rne (decodeElem t acc.1) s.1)
  (r.1, acc.2 ||| s.2 ||| r.2)

/-- Canon into f32 or f64: the accumulator's pattern. -/
def canonFloat (t : ElemType) (narrow : Bool) (i0 : Nat) (ts : List Term) : Nat × Flags :=
  (chunksOf ts).foldl (canonStep t narrow ts) (i0, 0)

/-- The integer a finite value is. -/
def valInt (v : Val) : Int :=
  match v with
  | .fin neg m e _ => scaled neg m e 0
  | _ => 0

/-- One chunk of an integer canonical sum (R84). -/
def canonIntStep (t : ElemType) (sat : Bool) (ts : List Term) (acc : Nat × Flags) (c : Nat) : Nat × Flags :=
  let s := (chunkOf c ts).foldl (fun x y => x + valInt y.a * valInt y.b) (0 : Int)
  let r := narrowInt t sat (intOf t acc.1 + s)
  (r.1, acc.2 ||| r.2)

/-- Canon into i32, i64 or n64. -/
def canonInt (t : ElemType) (sat : Bool) (i0 : Nat) (ts : List Term) : Nat × Flags :=
  (chunksOf ts).foldl (canonIntStep t sat ts) (i0, 0)

/-- The element types whose products form narrow chunks (R83); a described operand is one of them. -/
def isNarrow : ElemType → Bool
  | .e4m3 | .e5m2 | .i8 | .n8 | .dya8 | .d => true
  | _ => false

/-- Canon(T, i0, terms), with the operand types that decide whether its chunks are narrow. DEDUCED: log entry 9. -/
def canon (t : ElemType) (narrow sat : Bool) (i0 : Nat) (ts : List Term) : Nat × Flags :=
  if isInt t then canonInt t sat i0 ts else canonFloat t narrow i0 ts

end Sys2Proof.Machine
end

