-- ==== Sys2Proof/Machine/Funcs.lean ====
section
/-! DEFINITION. Division, roots and the correctly rounded functions (R87, R88). A result that is not exact is found by
fixed-point bounds that are narrowed until both bounds round to one value. -/

namespace Sys2Proof.Machine

open Sys2Proof

/-! ## Quotients and roots: a truncated magnitude and a sticky part -/

/-- The integer square root, one result bit at a time. -/
def isqrtGo : Nat → Nat → Nat → Nat
  | 0, _, r => r
  | k + 1, n, r =>
    let r' := r + 2 ^ k
    isqrtGo k n (if r' * r' ≤ n then r' else r)

def isqrt (n : Nat) : Nat := isqrtGo (Nat.log2 n / 2 + 1) n 0

/-- a / b of two finite values, b nonzero. -/
def quotVal (neg : Bool) (m : Nat) (e : Int) (m' : Nat) (e' : Int) : Val :=
  let n := m <<< 128
  .fin neg (n / m') (e - e' - 128) (decide (n % m' ≠ 0))

/-- The root of m * 2^e. -/
def rootVal (neg : Bool) (m : Nat) (e : Int) : Val :=
  let s : Nat := if e % 2 = 0 then 128 else 129
  let n := m <<< s
  let r := isqrt n
  .fin neg r ((e - s) / 2) (decide (r * r ≠ n))

/-- One over the root of m * 2^e, m nonzero. -/
def rootRecipVal (m : Nat) (e : Int) : Val :=
  let m' := if e % 2 = 0 then m else 2 * m
  let e' := if e % 2 = 0 then e else e - 1
  let n := 1 <<< 256
  let r := isqrt (n / m')
  .fin false r (-(e' / 2) - 128) (decide (r * r * m' ≠ n))

/-! ## Fixed point: a value x stands as x * 2^p -/

/-- z + z^3/3 + z^5/5 + ... -/
def atanhGo (p z2 : Nat) : Nat → Nat → Nat → Nat → Nat
  | 0, _, _, acc => acc
  | k + 1, i, term, acc => atanhGo p z2 k (i + 2) (term * z2 / 2 ^ p) (acc + term / i)

def atanhFix (p z : Nat) : Nat := atanhGo p (z * z / 2 ^ p) p 1 z 0

/-- z - z^3/3 + z^5/5 - ... -/
def atanGo (p z2 : Nat) : Nat → Nat → Nat → Int → Int
  | 0, _, _, acc => acc
  | k + 1, i, term, acc =>
    atanGo p z2 k (i + 2) (term * z2 / 2 ^ p) (if i % 4 = 1 then acc + (term / i : Nat) else acc - (term / i : Nat))

def atanFix (p z : Nat) : Int := atanGo p (z * z / 2 ^ p) p 1 z 0

/-- pi = 16 atan(1/5) - 4 atan(1/239). -/
def piFix (p : Nat) : Nat := (16 * atanFix p (2 ^ p / 5) - 4 * atanFix p (2 ^ p / 239)).toNat

/-- ln 2 = 2 atanh(1/3). -/
def ln2Fix (p : Nat) : Nat := 2 * atanhFix p (2 ^ p / 3)

/-- e^y for y in [0, 1). -/
def expGo (p y : Nat) : Nat → Nat → Nat → Nat → Nat
  | 0, _, _, acc => acc
  | k + 1, i, term, acc => expGo p y k (i + 1) (term * y / 2 ^ p / i) (acc + term)

def expFix (p y : Nat) : Nat := expGo p y p 1 (2 ^ p) 0

/-- sin y for y in [0, 2). -/
def sinGo (p y2 : Nat) : Nat → Nat → Nat → Int → Int
  | 0, _, _, acc => acc
  | k + 1, i, term, acc =>
    sinGo p y2 k (i + 2) (term * y2 / 2 ^ p / ((i + 1) * (i + 2))) (if i % 4 = 1 then acc + (term : Int) else acc - (term : Int))

def sinFix (p y : Nat) : Nat := (sinGo p (y * y / 2 ^ p) p 1 y 0).toNat

/-- num / 2^s in fixed point. -/
def fracFix (p num s : Nat) : Nat := if s ≤ p then num <<< (p - s) else num >>> (s - p)

/-- 2^f for f = num / 2^s in [0, 1). -/
def exp2Fix (p num s : Nat) : Nat := expFix p (fracFix p num s * ln2Fix p / 2 ^ p)

/-- sin(pi * num / 2^s) for an argument in (0, 1/2). -/
def sinPiFix (p num s : Nat) : Nat := sinFix p (fracFix p num s * piFix p / 2 ^ p)

/-- log2 of m / 2^t in [1, 2). -/
def log2Fix (p m t : Nat) : Nat :=
  let z := ((m - 2 ^ t) <<< p) / (m + 2 ^ t)
  (2 * atanhFix p z) <<< p / ln2Fix p

/-- tanh of a = num / 2^s in (0, 64): (1 - g) / (1 + g) with g = e^(-2a). -/
def tanhFix (p num s : Nat) : Nat :=
  let y := (2 * fracFix p num s) <<< p / ln2Fix p       -- 2a / ln 2
  let k := y / 2 ^ p
  let f := y % 2 ^ p
  let g := expFix p ((2 ^ p - f) * ln2Fix p / 2 ^ p - (if f = 0 then 1 else 0)) / 2 ^ (k + 1)
  ((2 ^ p - g) <<< p) / (2 ^ p + g)

/-! ## Rounding an irrational value -/

/-- The largest error of a fixed-point approximation above, in units of 2^-p. -/
def fixSlack : Nat := 2 ^ 20

/-- Rounds the value approx p * 2^(k - p) that no format holds exactly: at the first precision whose bounds agree. -/
def zivGo (t : ElemType) (rnd : Rnd) (sat neg : Bool) (approx : Nat → Nat) (k : Int) : List Nat → Nat × Flags
  | [] => roundTo t rnd sat (.fin neg (approx 1024) (k - 1024) true)
  | p :: ps =>
    let a := approx p
    let lo := roundTo t rnd sat (.fin neg (a - fixSlack) (k - p) true)
    let hi := roundTo t rnd sat (.fin neg (a + fixSlack) (k - p) true)
    if lo = hi then lo else zivGo t rnd sat neg approx k ps

def ziv (t : ElemType) (rnd : Rnd) (sat neg : Bool) (approx : Nat → Nat) (k : Int) : Nat × Flags :=
  zivGo t rnd sat neg approx k [128, 256, 512, 1024]

/-! ## The functions -/

/-- VRCP (R88). -/
def rcpVal (v : Val) : Val × Flags :=
  match v with
  | .nan _ => (.nan false, sigFlag v)
  | .inf n => (.fin n 0 0 false, 0)
  | .fin n m e _ => if m = 0 then (.inf n, flDZ) else (quotVal n 1 0 m e, 0)

/-- VDIV (R78, R88). -/
def divVal (x y : Val) : Val × Flags :=
  let fl := sigFlag x ||| sigFlag y
  match x, y with
  | .nan _, _ => (.nan false, fl)
  | _, .nan _ => (.nan false, fl)
  | .inf _, .inf _ => (.nan false, flINV)
  | .inf n, .fin n' _ _ _ => (.inf (n != n'), 0)
  | .fin n _ _ _, .inf n' => (.fin (n != n') 0 0 false, 0)
  | .fin n m e _, .fin n' m' e' _ =>
    if m' = 0 then (if m = 0 then (.nan false, flINV) else (.inf (n != n'), flDZ))
    else (quotVal (n != n') m e m' e', 0)

def sqrtVal (v : Val) : Val × Flags :=
  match v with
  | .nan _ => (.nan false, sigFlag v)
  | .inf n => if n then (.nan false, flINV) else (.inf false, 0)
  | .fin n m e _ =>
    if m = 0 then (.fin n 0 0 false, 0) else if n then (.nan false, flINV) else (rootVal false m e, 0)

def rsqVal (v : Val) : Val × Flags :=
  match v with
  | .nan _ => (.nan false, sigFlag v)
  | .inf n => if n then (.nan false, flINV) else (.fin false 0 0 false, 0)
  | .fin n m e _ =>
    if m = 0 then (.inf n, flDZ) else if n then (.nan false, flINV) else (rootRecipVal m e, 0)

/-- A finite magnitude as num / 2^s. -/
def asFrac (m : Nat) (e : Int) : Nat × Nat := if 0 ≤ e then (m <<< e.toNat, 0) else (m, (-e).toNat)

def ex2Elem (t : ElemType) (rnd : Rnd) (sat : Bool) (v : Val) : Nat × Flags :=
  match v with
  | .nan _ => finish t rnd sat (.nan false, sigFlag v)
  | .inf n => finish t rnd sat (if n then .fin false 0 0 false else .inf false, 0)
  | .fin n m e _ =>
    if m = 0 then finish t rnd sat (.fin false 1 0 false, 0)
    else if 12 < (Nat.log2 m : Int) + e then
      -- the magnitude is beyond every exponent range
      finish t rnd sat (.fin false 1 (if n then -20000 else 20000) true, 0)
    else
      let q := asFrac m e
      let one := 2 ^ q.2
      let ip := q.1 / one
      let fp := q.1 % one
      if fp = 0 then finish t rnd sat (.fin false 1 (if n then -(ip : Int) else ip) false, 0)
      else if n then ziv t rnd sat false (fun p => exp2Fix p (one - fp) q.2) (-(ip : Int) - 1)
      else ziv t rnd sat false (fun p => exp2Fix p fp q.2) ip

def lg2Elem (t : ElemType) (rnd : Rnd) (sat : Bool) (v : Val) : Nat × Flags :=
  match v with
  | .nan _ => finish t rnd sat (.nan false, sigFlag v)
  | .inf n => finish t rnd sat (if n then (.nan false, flINV) else (.inf false, 0))
  | .fin n m e _ =>
    if m = 0 then finish t rnd sat (.inf true, flDZ)
    else if n then finish t rnd sat (.nan false, flINV)
    else
      let top := Nat.log2 m
      let k : Int := (top : Int) + e
      if m = 2 ^ top then finish t rnd sat (Val.ofInt k, 0)
      else if 0 ≤ k then ziv t rnd sat false (fun p => (k.toNat <<< p) + log2Fix p m top) 0
      else ziv t rnd sat true (fun p => ((-k).toNat <<< p) - log2Fix p m top) 0

/-- sin(pi x) for x = num / 2^s in [0, 1], of sign neg. -/
def sinPiArc (t : ElemType) (rnd : Rnd) (sat neg : Bool) (num s : Nat) : Nat × Flags :=
  let r := if 2 ^ s < 2 * num then 2 ^ s - num else num
  if 2 * r = 2 ^ s then finish t rnd sat (.fin neg 1 0 false, 0)
  else ziv t rnd sat neg (fun p => sinPiFix p r s) 0

def sinpElem (t : ElemType) (rnd : Rnd) (sat : Bool) (v : Val) : Nat × Flags :=
  match v with
  | .nan _ => finish t rnd sat (.nan false, sigFlag v)
  | .inf _ => finish t rnd sat (.nan false, flINV)
  | .fin n m e _ =>
    if m = 0 ∨ 0 ≤ e then finish t rnd sat (.fin n 0 0 false, 0)
    else
      let s := (-e).toNat
      let r := m % 2 ^ (s + 1)
      let half := decide (2 ^ s ≤ r)
      let r' := r % 2 ^ s
      if r' = 0 then finish t rnd sat (.fin n 0 0 false, 0)
      else sinPiArc t rnd sat (n != half) r' s

def cospElem (t : ElemType) (rnd : Rnd) (sat : Bool) (v : Val) : Nat × Flags :=
  match v with
  | .nan _ => finish t rnd sat (.nan false, sigFlag v)
  | .inf _ => finish t rnd sat (.nan false, flINV)
  | .fin _ m e _ =>
    -- one bit more, so that one half is a whole number of units
    let s := if 0 ≤ e then 1 else (-e).toNat + 1
    let num := if 0 ≤ e then (if e = 0 then 2 * (m % 2) else 0) else (2 * m) % 2 ^ (s + 1)
    let one := 2 ^ s
    let half := 2 ^ (s - 1)
    let c := if one < num then 2 * one - num else num       -- cos(pi (2 - r)) = cos(pi r)
    if c = 0 then finish t rnd sat (.fin false 1 0 false, 0)
    else if c = one then finish t rnd sat (.fin true 1 0 false, 0)
    else if c = half then finish t rnd sat (.fin false 0 0 false, 0)
    else if c < half then ziv t rnd sat false (fun p => sinPiFix p (half - c) s) 0
    else ziv t rnd sat true (fun p => sinPiFix p (c - half) s) 0

def tanhElem (t : ElemType) (rnd : Rnd) (sat : Bool) (v : Val) : Nat × Flags :=
  match v with
  | .nan _ => finish t rnd sat (.nan false, sigFlag v)
  | .inf n => finish t rnd sat (.fin n 1 0 false, 0)
  | .fin n m e _ =>
    if m = 0 then finish t rnd sat (.fin n 0 0 false, 0)
    else if 6 ≤ (Nat.log2 m : Int) + e then finish t rnd sat (.fin n (2 ^ 64 - 1) (-64) true, 0)
    else
      let q := asFrac m e
      ziv t rnd sat n (fun p => tanhFix p q.1 q.2) 0

/-- A function of R87 on an element of T. -/
def fnElem (f : Fn) (t : ElemType) (rnd : Rnd) (sat : Bool) (v : Val) : Nat × Flags :=
  match f with
  | .rcp => finish t rnd sat (rcpVal v)
  | .rsq => finish t rnd sat (rsqVal v)
  | .sqrt => finish t rnd sat (sqrtVal v)
  | .ex2 => ex2Elem t rnd sat v
  | .lg2 => lg2Elem t rnd sat v
  | .sinp => sinpElem t rnd sat v
  | .cosp => cospElem t rnd sat v
  | .tanh => tanhElem t rnd sat v

end Sys2Proof.Machine
end

