-- ==== Sys2Proof/Machine/State.lean ====
section
/-! DEFINITION. The state of the machine as plain data: groups, blocks, grids, contexts, memory, fabrics and the device around them, with
the state after reset (R426). Each field's docstring names the rule that gives the machine that state. -/

namespace Sys2Proof.Machine

open Sys2Proof

/-- A sparse map: keys strictly rising, no entry equal to the default. -/
abbrev SMap (α : Type) := List (Nat × α)

/-! ## Traps -/

/-- The causes of R390. -/
inductive Cause where
  | illop | priv | page | prot | align | mmx | peerx | stkovf | latch | gang | flag | plx | lqfull | handle | qovr | ecc | trap | bkpt
deriving DecidableEq, Repr

def Cause.code : Cause → Nat
  | .illop => 1 | .priv => 2 | .page => 3 | .prot => 4 | .align => 5 | .mmx => 6 | .peerx => 7 | .stkovf => 8 | .latch => 9 | .gang => 10
  | .flag => 11 | .plx => 12 | .lqfull => 13 | .handle => 14 | .qovr => 15 | .ecc => 16 | .trap => 17 | .bkpt => 18

/-- A trap to be taken: cause, sub-code, TRAPADDR, reported lane, and the fault-detail word of an MMX (R269, R392). -/
structure Trap where
  cause : Cause
  sub : Nat
  addr : Word
  lane : Nat
  detail : Word
deriving DecidableEq, Repr

/-! ## Places in memory -/

/-- The stores that bytes live in (R234, R244, R252). -/
inductive Store where
  | pkg                 -- HBM and the host window, by physical address
  | far (p : Nat)       -- memory of package p
  | sp (blk : Nat)      -- the scratchpad slices of a block: slice * 2^18 + OFS
  | wb (blk : Nat)      -- typed buffers of a block: core * 2^19 + offset
  | ab (blk : Nat)
  | cb (blk : Nat)
deriving DecidableEq, Repr

/-- One byte's place. -/
structure Loc where
  store : Store
  ofs : Nat
deriving DecidableEq, Repr

def Loc.add (l : Loc) (n : Nat) : Loc := { l with ofs := l.ofs + n }

/-! ## Order between agents -/

/-- Where an agent lies, for the scope instances of R257. `out` holds for the host and far packages. -/
structure Pos where
  blk : Nat
  span : Nat
  die : Nat
  out : Bool
deriving DecidableEq, Repr

/-- What an agent knows of every agent's releases: one count per agent number (R259). -/
abbrev Clock := SMap Nat

/-- A release that an acquire may meet: what it publishes, at which scope, and by whom (R258). -/
structure Rel where
  clock : Clock
  scope : Scope
  pos : Pos
deriving DecidableEq, Repr

/-- The co-latest write of a watched granule (R268, R269). -/
structure Writer where
  agent : Nat
  time : Nat
  atomic : Option Scope
  oadd : Bool
  pos : Pos
  detail : Word
deriving DecidableEq, Repr

/-! ## Groups -/

/-- A bypass latch (R44). -/
inductive Latch where
  | empty
  | vec (v : List Word)
  | sca (x : Word)
deriving DecidableEq, Repr

/-- The switch-point instruction a slot waits in (R140, R149, R152, R165-R167, R199, R209). -/
inductive Wait where
  | loads (k : Nat)
  | copies (tag : Nat) (k : Nat)
  | gen (l : Loc) (g : Nat)
  | bar (n : Nat) (phase : Nat)
  | barw (n : Nat) (phase : Nat)
  | span (phase : Nat)
  | tl (n : Nat) (v : Nat)
  | plane (n : Nat)
  /-- A plane-synchronising read of a group that is not bound: it waits for the t2 operations below n, and traps; R199, R289. -/
  | unbound (n : Nat)
  | handle (k : Nat) (h : Word)
  | exit
  /-- An instruction that is held until the answer of a remote home: the request, the handle that it has allocated, and the
  home's package; R356. -/
  | answer (k : Nat) (own : Word) (pkg : Nat)
deriving DecidableEq, Repr

/-- A PC slot (R155). -/
structure Slot where
  /-- Byte PC; R31, R155. -/
  pc : Word
  /-- Lanes of the path; empty means free. -/
  mask : Lanes
  /-- Window base, in registers; R155, R219. -/
  wb : Nat
  /-- Latch count; R45. -/
  k : Nat
  /-- The cycle before which the slot is not ready: a refill of its path or of its window is under way; R224, R318. -/
  notBefore : Nat
  /-- The slot stands in a stall that is not a switch point; R224, R227. -/
  stalled : Bool
  /-- The latches were lost to a forced pre-emption; R402. -/
  lost : Bool
  /-- The slot resumes at a BAR or SBAR it has arrived at; R428. -/
  resume : Bool
  /-- What the slot waits for. -/
  wait : Option Wait
  /-- The MODEX value in force for the next instruction, and the PC of the MODEX word; R26, R49. -/
  modex : Option (BitVec 14 × Word)
  /-- The answer to a handle request, once it has come, with what it releases: the sub-code of a refusal as one word, else two words or
  none; R209, R356. -/
  answer : Option (List Word × Clock)
deriving DecidableEq, Repr

/-- A divergence token (R155). -/
structure Token where
  exp : Lanes
  arr : Lanes
  jpc : Word
  jwb : Nat
deriving DecidableEq, Repr

def Token.idle : Token := ⟨0, 0, 0, 0⟩

/-- A memory instruction that has issued and is not complete (R129, R276), with what R395 keeps of it. -/
structure MemOp where
  /-- The number it was given at issue, rising in issue order. -/
  id : Nat
  /-- The number of its first issue, which a re-issue keeps; R395, R416. -/
  first : Nat
  instr : Instr
  word : Word32
  epc : Word
  slotB : Bool
  pre : Option Word32
  mode : BitVec 14
  /-- Guarded-in lanes that are not helper lanes. -/
  lanes : Lanes
  /-- Guarded-in helper lanes (R217). -/
  help : Lanes
  /-- Guarded-in lanes at issue, as LANES of a queue entry names them (R395). -/
  guard : Lanes
  /-- Progress index (R135). -/
  pix : Nat
  /-- OPA and OPB of R395. -/
  opa : List Word
  opb : List Word
  /-- Window base at issue, through which the destination is written. -/
  wb : Nat
  accepted : Bool
  /-- The places of its accesses by lane, once accepted; helper lanes whose access would fail have none. -/
  accs : List (Nat × Loc × Bool × Bool)
  /-- By lane, what a load held at its acceptance: its result, and the releases it could meet. It stands for the value before a write that
  has raced with the load since (R268, R270). -/
  got : List (Nat × (Word × Word × Flags) × List Rel)
  /-- Releases that its reads at acceptance have met: those of a texture descriptor (R131, R147). -/
  met : List Rel
  /-- Undo-log segment of its writes: that of its group at issue; R417. -/
  seg : Nat
  /-- Lanes that have not performed. -/
  todo : Lanes
  /-- What the group knew at issue, and its releases before it (R268, R269). -/
  clock : Clock
  epoch : Nat
deriving DecidableEq, Repr

/-- A CPA transfer accepted and not yet acquired by a CPWT; `done` once it has completed (R148, R149). -/
structure CpaOp where
  /-- The number of its memory instruction's first issue. -/
  first : Nat
  tag : Nat
  agent : Nat
  /-- By lane: the source bytes, read at acceptance (R309), and the destination. -/
  lanes : List (Nat × List Byte × Loc)
  todo : Lanes
  clock : Clock
  done : Bool
  /-- The 8-byte writes that have performed, four to a lane of `lanes`; R253. -/
  units : List Nat
deriving DecidableEq, Repr

/-- What the device keeps of a frame's queue beside the frame: the engine operation that it names, by timeline and number (R177), and of each
memory instruction the number of its first issue and its undo-log segment (R416, R417). -/
structure Kept where
  op : Option (Nat × Nat)
  mems : List (Nat × Nat)
deriving DecidableEq, Repr

/-- What a trap depth holds until its RFT: the slot that took the trap and the token sets (R393). -/
structure TrapHold where
  slotB : Bool
  tokens : List Token
  /-- Address of the frame. -/
  frame : Word
  /-- ATOMO instructions in the frame's queue, whose contributions are still to come; R138, R396. -/
  atomos : Nat
  kept : Kept
deriving DecidableEq, Repr

/-- An engine operation that stopped and is not yet reported: its timeline and number, and the trap depth at which the group takes the
trap (R177, R396). -/
structure Stop where
  tl : Nat
  num : Nat
  depth : Nat
deriving DecidableEq, Repr

/-- A group (R214). -/
structure Group where
  /-- V registers: physical number * 32 + lane; R214, R219. -/
  v : SMap Word
  /-- S registers, 256; R214, R219. -/
  s : SMap Word
  /-- A_V; R212. -/
  av : Nat
  /-- P0-P23; R214. -/
  p : SMap Lanes
  /-- MODE; R47. -/
  mode : BitVec 14
  /-- FLAGS and FLAGEN; R52. -/
  flags : Flags
  flagen : Flags
  /-- GANG; R170. -/
  gang : Lanes
  /-- Joint instructions issued since the last GANGSET; R182. -/
  gangCount : Nat
  /-- PIX and IVEC0-IVEC4; R51. -/
  pix : Word
  ivec : List Word
  slotA : Slot
  slotB : Slot
  /-- L0-L3; R44. -/
  latches : List Latch
  /-- tk0-tk15; R155. -/
  tokens : List Token
  /-- What each trap depth holds, newest first; its length is the trap depth; R393. -/
  traps : List TrapHold
  /-- DSTKP; R51, R221. -/
  dstkp : Word
  /-- The core's copy of the youngest divergence-stack entries, newest first, at most two; R318. -/
  stackCopy : List (List Byte)
  /-- Divergence stack area: start and size; R221. -/
  stkBase : Word
  stkSize : Nat
  /-- Spill area: start and size; R221. -/
  spillBase : Word
  spillSize : Nat
  /-- Resident range [LO, HI) of logical indices; R219. -/
  lo : Nat
  hi : Nat
  /-- LDCNT; R129. -/
  ldcnt : Nat
  /-- TAGC, 8 counts; R148. -/
  tagc : List Nat
  memq : List MemOp
  cpas : List CpaOp
  /-- PLSEQ; R191. -/
  plseq : Word
  /-- TRAPCAUSE, TRAPADDR, TRAPPC; R392. -/
  trapcause : Word
  trapaddr : Word
  trappc : Word
  /-- HANDLE; R208. -/
  handle : Word
  /-- Launched lanes, helper lanes among them, exited lanes; R215-R217, R163. -/
  launched : Lanes
  helper : Lanes
  exited : Lanes
  /-- The latest operation number issued by this group on t0-t3; R168. -/
  mine : List Nat
  /-- The phase of each barrier 0-15 this group last arrived in, plus one; 0 for none; R165. -/
  barAt : List Nat
  /-- The same for the span barrier; R166. -/
  spanAt : Nat
  /-- ORDCL executed; R139. -/
  ordcl : Bool
  /-- ATOMO instructions issued; R138. -/
  atomoSeq : Nat
  /-- Collectives (CPB) this group has executed; R153. -/
  collSeq : Nat
  /-- The epoch this group has recorded by CKPT .arrive, plus one; R173, R416. -/
  ckpt : Nat
  /-- Arrivals not yet committed: the epoch, and the bounds below which memory instructions and agents of this group were issued before
  it; R416. -/
  arrivals : List (Nat × Nat × Nat)
  /-- This group as an agent: its number, its releases, what it knows; R228, R258, R259. -/
  agent : Nat
  epoch : Nat
  clock : Clock
  /-- Clocks published by FENCE, by scope; clocks read and not yet acquired; R258. -/
  fences : List (Scope × Clock)
  reads : List Rel
  /-- The slot that issued last, the cycle at which the group last stopped issuing; R225, R226. -/
  lastB : Bool
  since : Nat
  /-- Cycle of each slot's last latch reset; R402. -/
  resetA : Nat
  resetB : Nat
  /-- Next number for memq. -/
  nextMem : Nat
  /-- Engine operations that stopped and are not yet reported; R177. -/
  stopped : List Stop
  /-- Whether the group was ready at the end of the last step; R225. -/
  ready : Bool
  /-- Retired; R163, R232. -/
  retired : Bool
  /-- Stopped at the boundary at which its block is to be saved; R400. -/
  parked : Bool
deriving DecidableEq, Repr

/-! ## Blocks -/

/-- A barrier: the groups arrived in its phase, the count the phase has taken, what those arrivals release, and what each completed phase
released; the phase's number is the count of completed phases (R165). -/
structure Bar where
  arrived : List Nat
  count : Option Nat
  rel : Clock
  outs : List Clock
deriving DecidableEq, Repr

/-- A timeline: for t0-t3 the highest number issued, for t4-t15 the counter and, advance by advance, the counter reached with what it
released (R167, R168). -/
structure Tline where
  issued : Nat
  count : Nat
  rels : List (Nat × Clock)
deriving DecidableEq, Repr

/-- The state of an engine operation (R176, R177). -/
inductive OpState where
  | queued
  | running
  | stopped (t : Trap)
  /-- All its work is done, and its completion is to come. -/
  | worked
  | done
deriving DecidableEq, Repr

/-- One group's part of an engine operation: its instruction, and what the operation took from the group (R176, R182, R183, R302). -/
structure Part where
  grp : Nat
  word : Word32
  epc : Word
  slotB : Bool
  pre : Option Word32
  lanes : Lanes
  /-- GANG at the issue. -/
  mask : Lanes
  /-- Scalar operands read at issue, in field order. -/
  opa : List Word
  /-- Gang-register operand: the window's V registers, register by register, 32 lanes each; the lanes whose elements are absent. -/
  regs : List Word
  gone : Lanes
  /-- Where it stands: the progress index and the iteration vector; R304. -/
  pix : Nat
  ivec : List Nat
  /-- Issued or re-issued; false while it stands in a replay queue or waits to be reported; R305. -/
  back : Bool
  /-- The accesses of the row at `pix`, or of the binning job, that have performed; R253. -/
  units : List Nat
deriving DecidableEq, Repr

/-- An engine operation of a block, from its issue to the block's retirement (R176). -/
structure EngOp where
  tl : Nat
  num : Nat
  instr : Instr
  mode : BitVec 14
  /-- The group that issued it first, every member, and the joint-instruction count of R182. -/
  grp : Nat
  members : List Nat
  index : Nat
  parts : List Part
  /-- It has begun: later t1 operations of its block may begin (R299). -/
  begun : Bool
  /-- Members that have acquired it; R81. -/
  acquired : List Nat
  state : OpState
  pix : Nat
  ivec : List Nat
  flags : Flags
  /-- Scalar operands in force, and the words of the records that the engine has read or the device has noted for the operation. -/
  opa : List Word
  data : List Word
  /-- The operation as an agent; what was known at its issue; what it releases. -/
  agent : Nat
  clock : Clock
  rel : Clock
  /-- Undo-log segment of its writes: that of its group at issue; R417. -/
  seg : Nat
deriving DecidableEq, Repr

/-- One bit for each cell: row j, column i; a row that is missing is 0. -/
abbrev CellBits := List (BitVec 128)

/-- The plane of a block that has bound it (R279). -/
structure Plane where
  /-- The bound group, and the depth of the enable stack as the issue side keeps it; R190, R194. -/
  bound : Option Nat
  depth : Nat
  /-- C0-C31: by register, row, column. -/
  regs : List (List (List Word32))
  t : CellBits
  e : CellBits
  wn : CellBits
  /-- OUT and ELS of each level, newest first. -/
  stack : List (CellBits × CellBits)
  /-- Cell flags by row and column; R280. -/
  flags : List (List Flags)
  /-- The exception bitmap; R198. -/
  exc : CellBits
  /-- Pending PLX: its owner group and the number of the operation that recorded first; R198, R290. -/
  plx : Option (Nat × Nat)
  /-- The last t2 operation completed. -/
  last : Nat
deriving DecidableEq, Repr

/-- An ATOMO contribution not yet applied: address and its page's attributes, ordinal, value (R138). -/
structure Contrib where
  lin : Nat
  addr : Loc
  watch : Bool
  ckpt : Bool
  ord : List Nat
  ty : ElemType
  val : Nat
deriving DecidableEq, Repr

/-- A block, placed or saved (R212-R214, R400). -/
structure Block where
  id : Nat
  ctx : Nat
  /-- The grid it belongs to; none for a handler block. -/
  grid : Nat
  /-- BLKLIN and the coordinates; R330. -/
  lin : Nat
  bx : Nat
  byy : Nat
  bz : Nat
  /-- The span's key, SPANIDX, the span's members; R330. -/
  span : Nat
  spanIdx : Nat
  spanSize : Nat
  /-- Thread extents; R215. -/
  tx : Nat
  ty : Nat
  tz : Nat
  pri : Nat
  /-- Acceptance order, by which it is a candidate again; R344. -/
  age : Nat
  /-- The cluster it is placed on; none while saved. -/
  place : Option Nat
  /-- The cluster it started on: a handler's target cluster, whose die holds its entry; R340. -/
  home : Nat
  groups : List Group
  /-- Storage: SP, WB, AB, CB; R234. -/
  sp : List Host.Cell
  wb : List Host.Cell
  ab : List Host.Cell
  cb : List Host.Cell
  /-- SP bytes reserved in each slice; R238. -/
  spr : Nat
  matrix : Bool
  plane : Bool
  /-- Handler block: its handle; R208. -/
  handler : Option Word
  /-- The handler has resolved, forwarded or broken its handle; R358. -/
  settled : Bool
  bars : List Bar
  /-- The span barrier's part of this block: see Span. -/
  tls : List Tline
  ops : List EngOp
  planeSt : Option Plane
  /-- Collectives begun in the block; R153. -/
  colls : Nat
  /-- Aborted: its groups have stopped, and copies and Virga commands run to their end; R399. -/
  aborted : Bool
  idem : Bool
  stats : List Nat
  /-- Save record reserved; R403. -/
  save : Nat
  /-- What the block's retired groups have released; R258 retire. -/
  rel : Clock
  /-- Why and since when the block is saved: eviction waits, pre-emption order; R344, R351. -/
  savedAt : Nat
  saveWhy : Nat
  /-- Cycle at which Zenith asked for pre-emption; R402. -/
  preempt : Option Nat
  /-- The cycle since which the block has had no t0-t2 operation in flight, no outstanding load or CPA and no drain row unread; none while it
  has one; R351. -/
  quiet : Option Nat
deriving DecidableEq, Repr

/-- What a synchronisation word releases: the copy writes counted into the generation under way, and into those before it (R151, R272). -/
structure SyncWord where
  loc : Loc
  counting : Clock
  passed : Clock
deriving DecidableEq, Repr

/-- A span's barrier (R166): its blocks, the arrivals of the phase, what they release, what each completed phase released. -/
structure Span where
  key : Nat
  members : List Nat
  arrived : List (Nat × Nat)
  rel : Clock
  outs : List Clock
deriving DecidableEq, Repr

/-! ## Translation -/

/-- A translation held or just walked (R404-R407). -/
structure Trans where
  base : Nat
  size : Nat
  pa : Nat
  r : Bool
  w : Bool
  x : Bool
  watch : Bool
  descr : Bool
  ckpt : Bool
  remote : Option Nat
deriving DecidableEq, Repr

/-- A TLB entry of an agent (R407). -/
structure Tlb where
  agent : Nat
  ctx : Nat
  tr : Trans
deriving DecidableEq, Repr

/-! ## Contexts and the device -/

/-- An undo-log entry: line address, segment, and the 128 bytes of the line before the write (R417). -/
structure Undo where
  line : Nat
  seg : Nat
  old : List Byte
deriving DecidableEq, Repr

/-- A rollback under way (R418, R421): the lines still to be restored, the completion words still to be written, each with the LAUNCHID and what
it releases, whether the checkpoint is restored (step 3), and the errors that began it. -/
structure Rollback where
  ctx : Nat
  lines : List Undo
  comps : List (Word × Nat × Clock)
  restores : Bool
  errs : List ErrorInfo
deriving DecidableEq, Repr

/-- A launch record, its fields decoded (R329). -/
structure LRec where
  entry : Word
  args : Word
  comp : Word
  stats : Word
  spillBase : Word
  dstkBase : Word
  spillSz : Nat
  dstkSz : Nat
  gx : Nat
  gy : Nat
  gz : Nat
  tx : Nat
  ty : Nat
  tz : Nat
  spr : Nat
  narg : Nat
  regs : Nat
  help : Bool
  plane : Bool
  matrix : Bool
  idem : Bool
  pri : Nat
  spn : Nat
  nvec : Nat
  after : Nat
  vecs : List (Int × Int × Int)
deriving DecidableEq, Repr

/-- Where a launch comes from (R334). -/
inductive LSource where
  | queue (q : Nat)
  | group (agent : Nat)
  | armed (ctx tag minLen : Nat)
deriving DecidableEq, Repr

/-- An accepted grid, from acceptance to its completion write (R329-R348). -/
structure Grid where
  gid : Nat
  ctx : Nat
  lid : Nat
  lrec : LRec
  source : LSource
  /-- The die of its pending entry; R340. -/
  die : Nat
  /-- Acceptance order over the package; R341. -/
  age : Nat
  /-- The LAUNCHID whose completion it waits for, 0 for none; R334. -/
  after : Nat
  /-- The scoreboard: LOW, and the retired indices at or above it; R348. -/
  low : Nat
  retired : List Nat
  /-- Started and not retired. -/
  active : List Nat
  /-- Retirement clocks of blocks; R347. -/
  rels : List (Nat × Clock)
  /-- S0 and S1 of an armed launch; R353. -/
  s0s1 : Option (Word × Word)
  /-- What its launch released, and what its completion write will; R258, R275. -/
  clock : Clock
  rel : Clock
  /-- ATOMO contributions not yet applied, the ordered-add agent's number; R138, R274. -/
  contribs : List Contrib
  oagent : Nat
  /-- Statistics totals; R296. -/
  stats : List Nat
  /-- Aborted; R399. -/
  aborted : Bool
deriving DecidableEq, Repr

/-! ## Handles -/

/-- An invocation under way: its own handle, what its record gives, its payload, its sender (R207, R208, R359). -/
structure Inv where
  own : Word
  entry : Word
  spr : Nat
  regs : Nat
  payload : List Byte
  ctx : Nat
  pri : Nat
  sender : Word
  clock : Clock
  /-- The handle whose slot has started its handler, none for INVOKE; R360. -/
  through : Option Word
deriving DecidableEq, Repr

/-- The state of a handle slot (R358). -/
inductive HState where
  | free
  | pending
  | forwarded (target : Word)
  | resolved (v : Word) (place : Nat)
  | broken (origin : Word) (root : Nat)
deriving DecidableEq, Repr

/-- A registered HWAIT: the request number and the leaf that waits (R364). -/
structure Waiter where
  req : Nat
  leaf : Nat
  ctx : Nat
deriving DecidableEq, Repr

/-- A handle slot that is not FREE with generation 1; key = cluster * 4096 + slot (R357). -/
structure HSlot where
  key : Nat
  owner : Nat
  gen : Nat
  state : HState
  waiters : List Waiter
  queue : List Inv
  /-- What its resolution or break released; R258. -/
  rel : Clock
  /-- The other package that its invocation was sent to, and the handle addressed there; R370. -/
  toward : Option (Nat × Word)
  /-- Handles that probes have named as forwarded through it; R361. -/
  sources : List Word
deriving DecidableEq, Repr

/-- What a message of class INV carries (R361-R365). Handles travel as 64-bit names. -/
inductive MsgBody where
  | place (i : Inv) (s3 : Word)
  | toHandle (h : Word) (i : Inv) (via : List Word) (w : Option Waiter)
  | wait (h : Word) (w : Waiter) (via : List Word)
  | answer (req : Nat) (vals : List Word) (clock : Clock)
  | refuse (req : Nat) (sub : Nat)
  | resolve (h : Word) (v : Word) (place : Nat) (clock : Clock)
  | forward (h : Word) (target : Word) (clock : Clock)
  | brk (h : Word) (origin : Word) (root : Nat) (clock : Clock)
  | probe (origin : Word) (cur : Word) (path : List Word)
  | query (h : Word) (w : Waiter)
  | free (h : Word) (w : Waiter)
deriving DecidableEq, Repr

/-- A message between leaves, FIFO per pair (R365); a leaf is package * 128 + cluster. -/
structure Msg where
  src : Nat
  dst : Nat
  body : MsgBody
deriving DecidableEq, Repr

/-- A handler that waits to start: its invocation, the cluster it starts on, S3 (R208, R340). -/
structure PendH where
  inv : Inv
  cluster : Nat
  s3 : Word
  /-- Order of its arrival over the package, that of its entry; R340, R341, R360. -/
  age : Nat
deriving DecidableEq, Repr

/-! ## Launch sources and the network -/

/-- An armed entry (R206, R353); `held` is a message that has come while the pending store was full: its length and what its payload's
writes release. -/
structure ArmEnt where
  idx : Nat
  ctx : Nat
  tag : Nat
  minLen : Nat
  recAddr : Word
  buf : Word
  agent : Nat
  die : Nat
  held : Option (Nat × Clock)
deriving DecidableEq, Repr

/-- A bound host queue or send ring: its number, context and control block (R335, R372). -/
structure Ring where
  q : Nat
  ctx : Nat
  cb : Nat
deriving DecidableEq, Repr

/-- A tagged message sent and not yet answered (R372). -/
structure Sent where
  pkg : Nat
  seq : Nat
  comp : Nat
  rptr : Nat
deriving DecidableEq, Repr

/-- What a frame of class REQ asks the home slice for (R252, R365, R369). -/
inductive FarReq where
  | read (pa n : Nat)
  | write (pa : Nat) (bs : List Byte)
  /-- An integer atomic, with its operands. -/
  | atom (pa : Nat) (ty : ElemType) (op : AtomOp) (b c : Word)
  | atomf (pa : Nat) (ty : ElemType) (op : AmmOp) (b : Word)
deriving DecidableEq, Repr

/-- The connection to a package (R369, R370). -/
structure Conn where
  pkg : Nat
  /-- The next sequence number to send, the highest received in order. -/
  sseq : Nat
  rseq : Nat
  /-- Frames not acknowledged, with their retransmissions and the time of the last sending. -/
  unacked : List (Frame × Nat × Nat)
  /-- Time of the last acknowledgement, in ns. -/
  ackAt : Nat
  /-- Frames received ahead of their turn. -/
  ahead : List Frame
  /-- The parts of a tagged message received so far. -/
  part : List Byte
  /-- The match result of each tagged message received, by the sequence number of its last frame. -/
  results : List (Nat × Nat)
  failed : Bool
  /-- What has been sent on towards the package for a third one; R370. -/
  passed : List Msg
  /-- Requests of this package that the far package has not answered, by the sequence numbers of their frames; R369. -/
  asked : List (Nat × FarReq)
  /-- The package as an agent: its accesses so far, and what it knows; R253, R259. -/
  epoch : Nat
  clock : Clock
deriving DecidableEq, Repr

/-! ## Virga -/

/-- One channel's part of a command: the next token, the running state of each query row, the code that stopped it with the channel and region
offset that it names (R378-R380). -/
structure VgPart where
  chan : Nat
  next : Nat
  rows : List (List Word32)
  code : Nat
  codeChan : Nat
  codeOfs : Word
  done : Bool
  /-- The K/V records that it has read: address, bytes, and region offset; R386. -/
  reads : List (Nat × Nat × Nat)
deriving DecidableEq, Repr

/-- A Virga command that has started (R377-R386). -/
structure VgCmd where
  blk : Nat
  num : Nat
  ctx : Nat
  cmd : List Byte
  addr : Word
  query : List (List Nat)
  parts : List VgPart
  flags : Flags
  agent : Nat
  clock : Clock
  pos : Pos
  /-- A code found at the start: 2 or 7, with the failing address. -/
  code : Nat
  codeAddr : Word
deriving DecidableEq, Repr

/-- A binning job that waits for its die's engine: the block and the number of its t2 operation (R291). -/
structure BinJob where
  die : Nat
  blk : Nat
  num : Nat
deriving DecidableEq, Repr

/-- A repair that fuses record: a spare cluster in place of a failed one of its die, by physical numbers; a spare row of a group of 128 rows
of an SRAM array; a row of HBM replaced (R3, R415, R422). -/
inductive Repair where
  | cluster (spare failed : Nat)
  | row (array group row : Nat)
  | hbm (stack row : Nat)
deriving DecidableEq, Repr

/-- What the thermal manager and the firmware have read last: the hottest junction or HBM sensor in degrees Celsius, the coolant's flow in tenths of
a litre per minute, and the sensor's number (R424). -/
structure Heat where
  temp : Nat
  flow : Nat
  sensor : Nat
deriving DecidableEq, Repr

/-- The fuses (R3, R9, R422, R425). -/
structure Fuses where
  repairs : List Repair
  /-- The digests of the four public keys, and the keys revoked. -/
  keys : List (List Byte)
  revoked : BitVec 4
  /-- The least security version that an image may have. -/
  version : Nat
  /-- The secret from which the device key pair is derived. -/
  secret : List Byte
deriving DecidableEq, Repr

/-- What a candidate stands for: a grid, a saved block with its span, a handler that waits, by its arrival (R341, R342). -/
inductive Entry where
  | grid (gid : Nat)
  | saved (blk : Nat)
  | handler (age : Nat)
deriving DecidableEq, Repr

/-- A Contrail event (R420). -/
structure CEvent where
  time : Nat
  code : Nat
  ctx : Nat
  detail : List Nat
deriving DecidableEq, Repr

/-- An error record (R414). -/
structure ErrRec where
  info : ErrorInfo
  time : Nat
  cnt : Nat
deriving DecidableEq, Repr

/-- A context: descriptor fields (R389) and what the device keeps of it. -/
structure Context where
  num : Nat
  ptroot : Nat
  hvec : Word
  csa : Nat
  csasz : Nat
  ptw : Bool
  pres : Bool
  prio : Nat
  weight : Nat
  nextLaunch : Nat
  credit : Nat
  committed : Nat
  ckptValid : Bool
  /-- The highest epoch at which a group has arrived; R416. -/
  arrived : Nat
  undo : List Undo
  /-- Entries of committed segments that are still to be discarded; R416, R421. -/
  stale : List Undo
  /-- Launch totals as saved at the last commit, by grid; R297. -/
  totals : List (Nat × List Nat)
  suspended : Bool
deriving DecidableEq, Repr

/-- What executes on a core: the group and slot, none when the core must choose (R225). -/
structure Core where
  id : Nat
  cur : Option (GRef × Bool)
  /-- The group that issued last; R318. -/
  last : Option GRef
  /-- The slot of the executing group is to be chosen by R226: its slot has been left empty; R317. -/
  turn : Bool
  /-- A quantum switch has chosen the group, and it has not issued since; R227. -/
  fresh : Bool
  /-- The cycle of the core's last issue; R227, R233. -/
  issued : Nat
deriving DecidableEq, Repr

/-- The group and slot whose instruction is being executed, with its word (R224). -/
structure Issuer where
  g : GRef
  slotB : Bool
  word : Word32
deriving DecidableEq, Repr

structure State where
  blocks : List Block
  spans : List Span
  ctxs : List Context
  cores : List Core
  /-- HBM and the host window, by physical address; R244. -/
  mem : List Host.Cell
  /-- Memory of other packages: package * 2^52 + address; R252. -/
  farMem : List Host.Cell
  /-- Block descriptors that are not 0xC7F0, by PA / 64; R66, R250. -/
  descs : SMap Nat
  /-- Poisoned 64-byte blocks, by PA / 64; R415. -/
  poison : SMap Bool
  /-- The co-latest write of each watched granule; R268. -/
  writers : List (Loc × Writer)
  /-- What a read of each byte may acquire; R258. -/
  rels : List (Loc × List Rel)
  words : List SyncWord
  tlbs : List Tlb
  /-- Pinned lines of watched pages: line address and the group agent that pins it; R249. -/
  pins : List (Nat × Nat)
  /-- Cycle counter of the cores, and package time in ns; R172. -/
  cycle : Nat
  ns : Nat
  grids : List Grid
  /-- The latest completed grid of each LAUNCHID, by context, with what its completion write released; R334. -/
  completed : List (Nat × Nat × Clock)
  /-- The candidate that was the first at the end of the last step and fitted nowhere, and since when it has been so; R342. -/
  first : Option (Entry × Nat)
  /-- Candidates that have been passed over for a quantum, and keep work of their priority and lower from their entries' dies; R342. -/
  holding : List Entry
  /-- Clusters whose blocks have been displaced for a PRI 0 candidate, kept for it; R344, R411. -/
  reserved : List (Entry × List Nat)
  /-- Candidates whose having been held back by a full save area has been logged; R403. -/
  saveHeld : List Entry
  /-- The LAUNCHID last accepted from each source; R334. -/
  prevs : List (LSource × Nat)
  handles : List HSlot
  msgs : List Msg
  pendH : List PendH
  armed : List ArmEnt
  queues : List Ring
  rings : List Ring
  /-- Route table: packages that can be reached; R356. -/
  routes : List Nat
  conns : List Conn
  sent : List Sent
  /-- Frames handed to the ports; R369. -/
  outbox : List Frame
  /-- Trained ports; R368. -/
  ports : List Nat
  etherType : BitVec 16
  /-- Frames dropped by EtherType; R368. -/
  dropped : Nat
  /-- Region capability tables, by stack * 4096 + index; R375. -/
  caps : SMap (BitVec 128)
  /-- Violation registers by channel * 64 + context: offset and handle; R376. -/
  viol : SMap (Nat × Nat)
  /-- VG_MISALIGN and VG_THROTTLE by channel; R384, R388. -/
  misalign : SMap Nat
  throttle : SMap Nat
  vgcmds : List VgCmd
  /-- Channels whose engine holds the banks (1) or is suspended (2); R387. -/
  banks : SMap Nat
  binJobs : List BinJob
  /-- Residue repeats by cluster; R189, R301. -/
  residues : SMap Nat
  /-- Parity errors of plane cell registers that no read has met yet; R285. -/
  parity : List ErrorInfo
  /-- Rollbacks under way; R418, R421. -/
  rollbacks : List Rollback
  /-- Thermal step, and the last readings; R424. -/
  thermal : Nat
  heat : Heat
  /-- The error ring, newest last, and MSI-X interrupts raised; R339, R414. -/
  errors : List ErrRec
  /-- Entries written to the ring in host memory so far; R414. -/
  errNext : Nat
  msix : Nat
  contrail : List CEvent
  /-- The attestation mailbox's answer; R425. -/
  mailbox : List Byte
  fuses : Fuses
  /-- The physical cluster behind each logical one; R3. -/
  clusterMap : List Nat
  /-- What the host knows of other agents' releases; R253, R259. -/
  hostClock : Clock
  /-- Accesses of this package to memory of others that have performed and whose frames are to go out; R252, R369. -/
  reqs : List (Nat × FarReq)
  /-- Resets so far, and whether the firmware has announced readiness; R426. -/
  resets : Nat
  announced : Bool
  /-- Frozen; R421. -/
  frozen : Bool
  /-- Failed packages; R252, R370. -/
  failed : List Nat
  /-- This package's number; R355. -/
  pkg : Nat
  /-- Model's own: the issuer of the instruction in hand, the events to come from outside, the step counter, fresh numbers. -/
  cur : Option Issuer
  inputs : List Instr
  tick : Nat
  nextAgent : Nat
  nextId : Nat
deriving DecidableEq, Repr

/-- The reasons a step can stop the model. -/
inductive Fault where
  /-- exec was asked to run an instruction while no group's slot is marked as its issuer. Raised by every instruction's meaning; no step of
  the machine does so (safe: the hardware has no such state). -/
  | noIssuer
deriving DecidableEq, Repr

inductive Refusal where
  /-- An instruction without a meaning yet, by its mnemonic. Raised by an arm of Dispatch.lean (safe). -/
  | notModelled (mnemonic : String)
deriving DecidableEq, Repr

/-- The physical cluster behind a logical one: clusters are numbered 34 to a die, the two spares of a die last (R3). -/
def Fuses.physical (f : Fuses) (n : Nat) : Nat :=
  let own := 34 * (n / 32) + n % 32
  (f.repairs.findSome? fun r => match r with | .cluster spare failed => if failed = own then some spare else none | _ => none).getD own

def Fuses.map (f : Fuses) : List Nat := (List.range 128).map f.physical

/-- Fuses as manufactured: no repair is in use. DESIGN CHOICE: log entry 65. -/
def Fuses.new : Fuses := ⟨[], List.replicate 4 [], 0, 0, []⟩

/-- The first number of an agent that is none of the host and the 4,095 packages. -/
def firstAgent : Nat := 4096

/-- The machine right after reset: no context, grid, block or group exists (R426). DESIGN CHOICE and DEDUCED: log entries 1, 11, 57, 58, 61. -/
def State.reset : State where
  blocks := []
  spans := []
  ctxs := []
  cores := []
  mem := []
  farMem := []
  descs := []
  poison := []
  writers := []
  rels := []
  words := []
  tlbs := []
  pins := []
  cycle := 0
  ns := 0
  grids := []
  completed := []
  first := none
  holding := []
  reserved := []
  saveHeld := []
  prevs := []
  handles := []
  msgs := []
  pendH := []
  armed := []
  queues := []
  rings := []
  routes := []
  conns := []
  sent := []
  outbox := []
  ports := []
  etherType := 0x88B5
  dropped := 0
  caps := []
  viol := []
  misalign := []
  throttle := []
  vgcmds := []
  banks := []
  binJobs := []
  residues := []
  parity := []
  rollbacks := []
  thermal := 0
  heat := ⟨0, 20, 0⟩
  errors := []
  errNext := 0
  msix := 0
  contrail := []
  mailbox := []
  fuses := Fuses.new
  clusterMap := Fuses.new.map
  hostClock := []
  reqs := []
  resets := 1
  announced := true
  frozen := false
  failed := []
  pkg := 0
  cur := none
  inputs := []
  tick := 0
  nextAgent := firstAgent
  nextId := 1

end Sys2Proof.Machine
end

