-- ==== Sys2Proof/Machine/Map.lean ====
section
/-! DEFINITION. Sparse maps, bytes, and the lookups and updates of blocks, groups and contexts that everything else uses. -/

namespace Sys2Proof.Machine

open Sys2Proof

/-- The value at k, the default d where nothing is listed. -/
def SMap.get {α : Type} (d : α) : SMap α → Nat → α
  | [], _ => d
  | (a, v) :: r, k => if a = k then v else SMap.get d r k

/-- An entry put at its place among rising keys. -/
def SMap.insert {α : Type} (k : Nat) (v : α) : SMap α → SMap α
  | [] => [(k, v)]
  | (a, w) :: r => if k < a then (k, v) :: (a, w) :: r else (a, w) :: SMap.insert k v r

/-- The map with v at k; the default d is not listed. -/
def SMap.set {α : Type} [DecidableEq α] (d : α) (m : SMap α) (k : Nat) (v : α) : SMap α :=
  let rest := m.filter fun x => x.1 != k
  if v = d then rest else SMap.insert k v rest

/-- The canonical form: keys rise strictly from lo, and no entry equals the default. -/
def SMap.wfFrom {α : Type} [DecidableEq α] (d : α) : Nat → SMap α → Bool
  | _, [] => true
  | lo, (a, v) :: r => decide (lo ≤ a) && decide (v ≠ d) && SMap.wfFrom d (a + 1) r

/-- Memory is canonical: addresses strictly rising, no entry equal to the 0 that an unlisted address reads as. -/
def Memory.wf (m : List Host.Cell) : Bool := SMap.wfFrom (0 : Byte) 0 m

/-- What an address of memory reads as: 0 where nothing is listed (DESIGN CHOICE, log entry 1). -/
def Memory.get (m : List Host.Cell) (a : Nat) : Byte := SMap.get 0 m a

def Memory.set (m : List Host.Cell) (a : Nat) (v : Byte) : List Host.Cell := SMap.set 0 m a v

/-- The entries of consecutive bytes from a on. -/
def Memory.fresh : Nat → List Byte → List Host.Cell
  | _, [] => []
  | a, v :: vs => if v = 0 then Memory.fresh (a + 1) vs else (a, v) :: Memory.fresh (a + 1) vs

/-- Stores consecutive bytes from a on. -/
def Memory.setMany (m : List Host.Cell) (a : Nat) (vs : List Byte) : List Host.Cell :=
  m.filter (fun x => decide (x.1 < a)) ++ Memory.fresh a vs ++ m.filter fun x => decide (a + vs.length ≤ x.1)

/-! ## Byte order (R27, R31: little-endian) -/

def leNat : List Byte → Nat
  | [] => 0
  | b :: r => b.toNat + 256 * leNat r

def leBytes : Nat → Nat → List Byte
  | 0, _ => []
  | n + 1, v => BitVec.ofNat 8 v :: leBytes n (v / 256)

/-- Bits [hi:lo] of a number. -/
def bits (v lo len : Nat) : Nat := v / 2 ^ lo % 2 ^ len

def bit (v i : Nat) : Bool := v / 2 ^ i % 2 == 1

/-- Lane l of a mask. -/
def laneIn (m : Lanes) (l : Nat) : Bool := m.getLsbD l

/-- The lanes of a mask, ascending. -/
def lanesOf (m : Lanes) : List Nat := (List.range 32).filter (laneIn m)

def laneBit (l : Nat) : Lanes := BitVec.ofNat 32 (2 ^ l)

def maskOf (f : Nat → Bool) : Lanes :=
  (List.range 32).foldl (fun m l => if f l then m ||| laneBit l else m) 0

def popcount (m : Lanes) : Nat := (lanesOf m).length

/-- The list with f applied at index i. -/
def modAt {α : Type} : List α → Nat → (α → α) → List α
  | [], _, _ => []
  | x :: r, 0, f => f x :: r
  | x :: r, i + 1, f => x :: modAt r i f

def setAt {α : Type} (l : List α) (i : Nat) (v : α) : List α := modAt l i fun _ => v

/-! ## Clocks -/

def clockGet (c : Clock) (a : Nat) : Nat := SMap.get 0 c a
def clockSet (c : Clock) (a n : Nat) : Clock := SMap.set 0 c a n

/-- The join of two clocks. -/
def clockJoin (c d : Clock) : Clock := d.foldl (fun c x => clockSet c x.1 (max (clockGet c x.1) x.2)) c

/-! ## Blocks, groups, contexts -/

def State.block? (s : State) (id : Nat) : Option Block := s.blocks.find? fun b => b.id == id

def State.modBlock (s : State) (id : Nat) (f : Block → Block) : State :=
  { s with blocks := s.blocks.map fun b => if b.id = id then f b else b }

def State.group? (s : State) (g : GRef) : Option Group := (s.block? g.blk).bind fun b => b.groups[g.grp]?

def Block.modGroup (b : Block) (i : Nat) (f : Group → Group) : Block := { b with groups := modAt b.groups i f }

def State.modGroup (s : State) (g : GRef) (f : Group → Group) : State := s.modBlock g.blk fun b => b.modGroup g.grp f

def State.setGroup (s : State) (g : GRef) (v : Group) : State := s.modGroup g fun _ => v

def State.ctx? (s : State) (n : Nat) : Option Context := s.ctxs.find? fun c => c.num == n

def State.modCtx (s : State) (n : Nat) (f : Context → Context) : State :=
  { s with ctxs := s.ctxs.map fun c => if c.num = n then f c else c }

def State.grid? (s : State) (gid : Nat) : Option Grid := s.grids.find? fun g => g.gid == gid

/-- The LAUNCHID of a block's grid; a handler block has none. -/
def State.lidOf (s : State) (b : Block) : Nat := ((s.grid? b.grid).map (·.lid)).getD 0

def State.modGrid (s : State) (gid : Nat) (f : Grid → Grid) : State :=
  { s with grids := s.grids.map fun g => if g.gid = gid then f g else g }

def Group.slot (g : Group) (b : Bool) : Slot := if b then g.slotB else g.slotA

def Group.setSlot (g : Group) (b : Bool) (x : Slot) : Group := if b then { g with slotB := x } else { g with slotA := x }

def Group.modSlot (g : Group) (b : Bool) (f : Slot → Slot) : Group := g.setSlot b (f (g.slot b))

def Slot.free : Slot := ⟨0, 0, 0, 0, 0, false, false, false, none, none, none⟩

def Slot.isFree (x : Slot) : Bool := x.mask == 0

/-- Lanes launched and not exited. -/
def Group.live (g : Group) : Lanes := g.launched &&& ~~~ g.exited

/-- The die of a cluster (R2: 32 clusters a die, 128 in all). -/
def dieOf (cluster : Nat) : Nat := cluster / 32 % 4

/-- The core of group i on a cluster (R213). -/
def coreOf (cluster grp : Nat) : Nat := cluster * 6 + grp % 6

/-! ## Bytes by place -/

def State.cells (s : State) : Store → List Host.Cell
  | .pkg => s.mem
  | .far _ => s.farMem
  | .sp b => match s.block? b with | some x => x.sp | none => []
  | .wb b => match s.block? b with | some x => x.wb | none => []
  | .ab b => match s.block? b with | some x => x.ab | none => []
  | .cb b => match s.block? b with | some x => x.cb | none => []

/-- The address of a place inside its store's cells. -/
def Loc.key (l : Loc) : Nat :=
  match l.store with
  | .far p => p * 2 ^ 52 + l.ofs
  | _ => l.ofs

/-- One byte. DESIGN CHOICE: log entry 1. -/
def State.byte (s : State) (l : Loc) : Byte := Memory.get (s.cells l.store) l.key

def State.bytes (s : State) (l : Loc) (n : Nat) : List Byte :=
  (List.range n).map fun i => s.byte (l.add i)

def State.setCells (s : State) (st : Store) (m : List Host.Cell) : State :=
  match st with
  | .pkg => { s with mem := m }
  | .far _ => { s with farMem := m }
  | .sp b => s.modBlock b fun x => { x with sp := m }
  | .wb b => s.modBlock b fun x => { x with wb := m }
  | .ab b => s.modBlock b fun x => { x with ab := m }
  | .cb b => s.modBlock b fun x => { x with cb := m }

/-- Stores bytes from a place on. -/
def State.setBytes (s : State) (l : Loc) (vs : List Byte) : State :=
  s.setCells l.store (Memory.setMany (s.cells l.store) l.key vs)

/-- An n-byte number. -/
def State.num (s : State) (l : Loc) (n : Nat) : Nat := leNat (s.bytes l n)

/-- A place in package memory. -/
def paLoc (pa : Nat) : Loc := ⟨.pkg, pa⟩

/-- HBM holds the physical addresses below 2^39 (R244). -/
def inHbm (pa : Nat) : Bool := decide (pa < 2 ^ 39)

/-- The hole between HBM and the host window (R244). -/
def inHole (pa : Nat) : Bool := decide (2 ^ 39 ≤ pa) && decide (pa < 2 ^ 51)

/-- The descriptor of the 64-byte block that holds a place of package memory; 0xC7F0 from reset (R66, R250). -/
def State.desc (s : State) (pa : Nat) : Nat := SMap.get 0xC7F0 s.descs (pa / 64)

def State.setDesc (s : State) (pa v : Nat) : State := { s with descs := SMap.set 0xC7F0 s.descs (pa / 64) v }

def State.isPoisoned (s : State) (pa : Nat) : Bool := SMap.get false s.poison (pa / 64)

/-! ## Registers through the window (R219) -/

def Group.vkey (g : Group) (wb n lane : Nat) : Nat := (wb + n) % g.av * 32 + lane

/-- V[n], lane, through the window at wb. -/
def Group.rdV (g : Group) (wb n lane : Nat) : Word := SMap.get 0 g.v (g.vkey wb n lane)

def Group.wrV (g : Group) (wb n lane : Nat) (x : Word) : Group := { g with v := SMap.set 0 g.v (g.vkey wb n lane) x }

/-- S[n] through the window at wb. -/
def Group.rdS (g : Group) (wb n : Nat) : Word := SMap.get 0 g.s ((wb + n) % 256)

def Group.wrS (g : Group) (wb n : Nat) (x : Word) : Group := { g with s := SMap.set 0 g.s ((wb + n) % 256) x }

/-- P[n]. -/
def Group.rdP (g : Group) (n : Nat) : Lanes := SMap.get 0 g.p n

def Group.wrP (g : Group) (n : Nat) (m : Lanes) : Group := { g with p := SMap.set 0 g.p n m }

/-- Writes V[n] in the lanes of a mask. -/
def Group.wrVec (g : Group) (wb n : Nat) (m : Lanes) (f : Nat → Word) : Group :=
  (lanesOf m).foldl (fun g l => g.wrV wb n l (f l)) g

/-! ## The fields of MODE (R47) -/

def modeGp (m : BitVec 14) : Nat := bits m.toNat 0 5
def modeGn (m : BitVec 14) : Bool := m.getLsbD 5
def modeType (m : BitVec 14) : ElemType := elemTypeOf (BitVec.ofNat 4 (bits m.toNat 6 4))
def modeRnd (m : BitVec 14) : Rnd := rndOf (bits m.toNat 10 3)
def modeSat (m : BitVec 14) : Bool := m.getLsbD 13

/-- Sub-element k of a lane register (R59). -/
def sub (x : Word) (k : Nat) (t : ElemType) : Nat := bits x.toNat (k * width t) (width t)

/-- A lane register from its sub-elements, ascending. -/
def packSubs (t : ElemType) (xs : List Nat) : Word :=
  BitVec.ofNat 64 (xs.foldr (fun x acc => x % 2 ^ width t + 2 ^ width t * acc) 0)

/-- The lanes that pass the guard among the active ones (R19, R47). -/
def guardLanes (m : BitVec 14) (preds : SMap Lanes) (active : Lanes) : Lanes :=
  if modeGp m = 31 then active
  else
    let p := SMap.get 0 preds (modeGp m)
    active &&& (if modeGn m then ~~~ p else p)

end Sys2Proof.Machine
end

