-- ==== Sys2Proof/Machine/Mem.lean ====
section
/-! DEFINITION. Translation (R404-R409), the checks of one access (R126-R128, R234-R252, R391), race detection (R265-R271) and the
performing of reads and writes (R254, R258, R417). -/

namespace Sys2Proof.Machine

open Sys2Proof

/-! ## Page tables -/

def pteValid (e : Nat) : Bool := e != 0 && (!bit e 3 || bits e 0 3 != 0)

/-- The rules every entry keeps: bit 11 zero, CACHE 0 or 1 (R406). -/
def pteFormed (e : Nat) : Bool := !bit e 11 && !bit e 10

/-- A non-leaf entry has no attribute and no package (R406). -/
def pteTable (e : Nat) : Bool :=
  pteFormed e && !bit e 3 && bits e 0 3 == 0 && bits e 4 6 == 0 && bits e 52 12 == 0

/-- A leaf for a page of 2^k bytes (R406). -/
def pteLeaf (e k : Nat) : Bool :=
  pteFormed e && bit e 3 && bits e 12 40 * 4096 % 2 ^ k == 0 && (bit e 8 || bits e 52 12 == 0)

def ptePa (e : Nat) : Nat := bits e 12 40 * 4096

def pteTrans (e va k : Nat) : Trans where
  base := va / 2 ^ k * 2 ^ k
  size := 2 ^ k
  pa := ptePa e
  r := bit e 0
  w := bit e 1
  x := bit e 2
  watch := bit e 5
  descr := bit e 6
  ckpt := bit e 7
  remote := if bit e 8 then some (bits e 52 12) else none

/-- A leaf met at a level above 0, or its refusal with PAGE 3. -/
def leafAt (e va k : Nat) : Except Nat Trans :=
  if pteLeaf e k && !bit e 4 then .ok (pteTrans e va k) else .error 3

/-- The walk from a table at a level down (R404, R406); the error is the sub-code of PAGE. -/
def State.walkFrom (s : State) (va : Nat) : Nat → Nat → Except Nat Trans
  | 0, base =>
    if !inHbm (base + 4095) then .error 3
    else
      let i := bits va 12 9
      let e0 := s.num (paLoc (base + 8 * (i / 16 * 16))) 8
      if pteValid e0 && bit e0 3 && bit e0 4 then
        if pteLeaf e0 16 then .ok (pteTrans e0 va 16) else .error 3
      else
        let e := s.num (paLoc (base + 8 * i)) 8
        if !pteValid e then .error 2
        else if bit e 3 then leafAt e va 12 else .error 3
  | n + 1, base =>
    let len := if n + 1 = 3 then 18 else 9
    let i := bits va (12 + 9 * (n + 1)) len
    if !inHbm (base + 8 * 2 ^ len - 1) then .error 3
    else
      let e := s.num (paLoc (base + 8 * i)) 8
      if !pteValid e then .error 2
      else if bit e 3 then (if n + 1 = 3 then .error 3 else leafAt e va (12 + 9 * (n + 1)))
      else if pteTable e then s.walkFrom va n (ptePa e)
      else .error 3

/-- A walk for a context (R404). -/
def State.walk (s : State) (ctx va : Nat) : Except Nat Trans :=
  match s.ctx? ctx with
  | none => .error 2
  | some c => s.walkFrom va 3 c.ptroot

/-- The translation an agent uses: the one its TLB holds, or a fresh walk (R407, R408). DEDUCED: log entry 21. -/
def State.translate (s : State) (ctx agent va : Nat) : Except Nat Trans :=
  match s.tlbs.find? fun t => t.agent == agent && t.ctx == ctx && decide (t.tr.base ≤ va) && decide (va < t.tr.base + t.tr.size) with
  | some t => .ok t.tr
  | none => s.walk ctx va

/-- A legal global address: bits [63:57] equal to bit 56 (R126). -/
def canonicalVa (a : Nat) : Bool :=
  let h := a / 2 ^ 56
  h == 0 || h == 255

/-- The 57-bit virtual address. -/
def va57 (a : Nat) : Nat := a % 2 ^ 57

/-! ## Who accesses -/

/-- The agent behind an access: where it lies, what it knows, what its writes publish (R253, R258, R269). -/
structure Who where
  ctx : Nat
  /-- The TLB it uses (R407): cores by number, engines of a cluster at 768 + cluster, others above. -/
  tlb : Nat
  agent : Nat
  time : Nat
  clock : Clock
  pos : Pos
  detail : Word
  atomic : Option Scope
  oadd : Bool
  /-- Releases that its writes publish. -/
  pub : List (Scope × Clock)
  /-- Segment of the undo log for its writes (R417). -/
  seg : Nat
deriving DecidableEq, Repr

/-- Whether q lies in the scope instance of p (R257). -/
def inScope (sc : Scope) (p q : Pos) : Bool :=
  match sc with
  | .sys => true
  | .device => (!p.out && !q.out) || p == q
  | .die => (!p.out && !q.out && p.die == q.die) || p == q
  | .span => (!p.out && !q.out && p.span == q.span && p.blk != 0 && q.blk != 0) || p == q
  | .block => (!p.out && !q.out && p.blk == q.blk && p.blk != 0) || p == q

/-- Each lies in the other's scope. -/
def bothScopes (sc : Scope) (p q : Pos) : Bool := inScope sc p q && inScope sc q p

def Scope.rank : Scope → Nat
  | .block => 0 | .span => 1 | .die => 2 | .device => 3 | .sys => 4

def minScope (a b : Scope) : Scope := if Scope.rank a ≤ Scope.rank b then a else b

/-! ## Races on watched granules -/

def granule (l : Loc) : Loc := { l with ofs := l.ofs / 32 * 32 }

/-- The granules that n bytes from a place touch. -/
def granules (l : Loc) (n : Nat) : List Loc :=
  let first := l.ofs / 32
  let last := (l.ofs + n - 1) / 32
  (List.range (last + 1 - first)).map fun i => { l with ofs := (first + i) * 32 }

def State.writer? (s : State) (g : Loc) : Option Writer := (s.writers.find? fun x => x.1 == g).map (·.2)

def State.setWriter (s : State) (g : Loc) (w : Writer) : State :=
  { s with writers := (g, w) :: s.writers.filter fun x => x.1 != g }

/-- Whether an access conflicts with the co-latest write of a granule (R265, R268, R274). -/
def raceWith (w : Writer) (who : Who) (write : Bool) : Bool :=
  w.agent != who.agent && decide (clockGet who.clock w.agent < w.time) &&
  !(match w.atomic, who.atomic with
    | some a, some b => inScope a w.pos who.pos && inScope b who.pos w.pos
    | _, _ => false) &&
  !(w.oadd && !write && who.atomic.isNone)

/-- Whether a granule is one of those that n bytes from a place touch. -/
def touchesGranule (l : Loc) (n : Nat) (g : Loc) : Bool :=
  g.store == l.store && decide (l.ofs / 32 * 32 ≤ g.ofs) && decide (g.ofs ≤ (l.ofs + n - 1) / 32 * 32)

/-- The granules of a range whose co-latest write an access races with, and that write. -/
def State.races (s : State) (who : Who) (l : Loc) (n : Nat) (write : Bool) : List (Loc × Writer) :=
  s.writers.filter fun x => touchesGranule l n x.1 && raceWith x.2 who write

/-- The lowest granule that an access of n bytes races at, and the write it races with. -/
def State.raceAt? (s : State) (who : Who) (l : Loc) (n : Nat) (write : Bool) : Option (Loc × Writer) :=
  (s.races who l n write).foldl (fun m x =>
    match m with
    | none => some x
    | some y => if x.1.ofs < y.1.ofs then some x else m) none

/-- The writer that an access of n bytes races with, the lowest granule first. -/
def State.race? (s : State) (who : Who) (l : Loc) (n : Nat) (write : Bool) : Option Writer := (s.raceAt? who l n write).map (·.2)

/-! ## The checks of one access -/

/-- What an access asks for. -/
structure Req where
  space : Space
  addr : Word
  /-- Bytes, and whether the address has the alignment it must have (R127). -/
  n : Nat
  aligned : Bool
  r : Bool
  w : Bool
  /-- A described access (R133, R250). -/
  descr : Bool
  /-- Permitted on a REMOTE page (R252). -/
  far : Bool
  /-- The space's port is granted to the instruction (R234). -/
  port : Bool
deriving DecidableEq, Repr

/-- A place an access may use, with the page's attributes. -/
structure Acc where
  loc : Loc
  watch : Bool
  ckpt : Bool
  descr : Bool
deriving DecidableEq, Repr

/-- A trap of a memory check. -/
def memTrap (c : Cause) (sub : Nat) (a : Word) : Trap := ⟨c, sub, a, 0, 0⟩

/-- The races, errors and dead links that come last (R391). -/
def State.lateChecks (s : State) (who : Who) (q : Req) (a : Acc) (race : Bool) : Except Trap Acc :=
  let hit := if race && a.watch then s.race? who a.loc q.n q.w else none
  match hit with
  | some w => .error ⟨.mmx, if q.w then 1 else 2, q.addr, 0, w.detail⟩
  | none =>
    if q.r && a.loc.store == .pkg && ((List.range ((a.loc.ofs + q.n - 1) / 64 + 1 - a.loc.ofs / 64)).any fun i => s.isPoisoned (a.loc.ofs + 64 * i)) then
      .error (memTrap .ecc 1 q.addr)
    else
      match a.loc.store with
      | .far p => if s.failed.contains p then .error (memTrap .page 4 q.addr) else .ok a
      | _ => .ok a

/-- Global memory (R126, R244, R250, R252, R391). DEDUCED: log entry 7. -/
def State.checkGlobal (s : State) (who : Who) (q : Req) (race : Bool) : Except Trap Acc :=
  let a := q.addr.toNat
  if !canonicalVa a then .error (memTrap .page 1 q.addr)
  else if !q.aligned then .error (memTrap .align 1 q.addr)
  else
    match s.translate who.ctx who.tlb (va57 a) with
    | .error sub => .error (memTrap .page sub q.addr)
    | .ok t =>
      let pa := t.pa + (va57 a - t.base)
      if inHole pa then .error (memTrap .prot 3 q.addr)
      else if (q.r && !t.r) || (q.w && !t.w) then .error (memTrap .prot 1 q.addr)
      else if q.descr && (!t.descr || (t.remote.isNone && !inHbm pa)) then .error (memTrap .prot 4 q.addr)
      else
        match t.remote with
        | some p =>
          if !q.far || q.descr then .error (memTrap .prot 6 q.addr)
          else s.lateChecks who q ⟨⟨.far p, pa⟩, false, false, t.descr⟩ race
        | none => s.lateChecks who q ⟨paLoc pa, t.watch, t.ckpt && inHbm pa, t.descr⟩ race

/-- Whether core c of a placed block hosts a group of it that has not retired (R239). -/
def coreLive (b : Block) (c : Nat) : Bool :=
  (List.range b.groups.length).any fun i => i % 6 == c && match b.groups[i]? with | some g => !g.retired | none => false

/-- Whether n bytes at an offset of a slice lie in one admitted range (R238). -/
def spAdmits (b : Block) (slice ofs n : Nat) : Bool :=
  decide (ofs + n ≤ b.spr) ||
  (b.handler.isSome && slice == 0 && decide (0x3FC00 ≤ ofs) && decide (ofs + n ≤ 0x40000))

/-- The scratchpad (R126, R237-R239): b is the accessing block; core is the accessing core, none for an engine (R241). -/
def State.checkSp (s : State) (who : Who) (b : Block) (core : Option Nat) (q : Req) (race : Bool) : Except Trap Acc :=
  let a := q.addr.toNat
  let slice := bits a 18 3
  let memb := bits a 21 3
  let spanBit := bit a 24
  if 2 ^ 25 ≤ a ∨ 5 < slice ∨ (!spanBit && memb != 0) ∨ (spanBit && core.isSome && decide (b.spanSize ≤ memb)) then
    .error (memTrap .prot 2 q.addr)
  -- a span peer's address is malformed in an engine's record or operand (R241)
  else if spanBit && core.isNone then .error (memTrap .prot 7 q.addr)
  else if !q.aligned then .error (memTrap .align 1 q.addr)
  else if q.descr then .error (memTrap .prot 4 q.addr)
  else
    let ofs := bits a 0 18
    let peer := spanBit && memb != b.spanIdx
    let tgt := if peer then s.blocks.find? fun x => x.span == b.span && x.spanIdx == memb && !x.aborted else some b
    match tgt with
    | none => if spAdmits b slice ofs q.n then .error (memTrap .peerx 2 q.addr) else .error (memTrap .prot 5 q.addr)
    | some t =>
      if !spAdmits t slice ofs q.n then .error (memTrap .prot 5 q.addr)
      else if !q.port then .error (memTrap .prot 9 q.addr)
      else if peer && !coreLive t slice then .error (memTrap .peerx 2 q.addr)
      else if !peer && (match core with | some c => c != slice && !coreLive t slice | none => false) then
        .error (memTrap .peerx 1 q.addr)
      else s.lateChecks who q ⟨⟨.sp t.id, slice * 2 ^ 18 + ofs⟩, true, false, false⟩ race

/-- A typed buffer of a core (R126, R234, R235). DEDUCED: log entry 7. -/
def State.checkBuf (s : State) (who : Who) (b : Block) (core : Nat) (q : Req) (race : Bool) : Except Trap Acc :=
  let a := q.addr.toNat
  let lim := if q.space = .cb then 2 ^ 18 else 2 ^ 19
  let size := if q.space = .cb then 262144 else 393216
  let st : Store := match q.space with | .wb => .wb b.id | .ab => .ab b.id | _ => .cb b.id
  if lim ≤ a then .error (memTrap .prot 2 q.addr)
  else if !q.aligned then .error (memTrap .align 1 q.addr)
  else if q.descr then .error (memTrap .prot 4 q.addr)
  else if !b.matrix || decide (size < a + q.n) then .error (memTrap .prot 5 q.addr)
  else if !q.port then .error (memTrap .prot 9 q.addr)
  else s.lateChecks who q ⟨⟨st, core * 2 ^ 19 + a⟩, true, false, false⟩ race

/-- The checks of one access of a group on a core of its block, or of an engine when core is none. -/
def State.check (s : State) (who : Who) (b : Block) (core : Option Nat) (q : Req) (race : Bool) : Except Trap Acc :=
  match q.space with
  | .gl => s.checkGlobal who q race
  | .sp => s.checkSp who b core q race
  | _ => s.checkBuf who b (core.getD 0) q race

/-! ## Performing -/

/-- The releases that reads of n bytes from a place meet. -/
def State.relsAt (s : State) (l : Loc) (n : Nat) : List Rel :=
  (s.rels.filter fun x => x.1.store == l.store && decide (l.ofs ≤ x.1.ofs) && decide (x.1.ofs < l.ofs + n)).flatMap (·.2)

/-- Replaces what the bytes publish; an atomic write keeps the chain it reads from (R258). -/
def State.publish (s : State) (who : Who) (l : Loc) (n : Nat) : State :=
  let mine : List Rel := who.pub.map fun x => ⟨x.2, x.1, who.pos⟩
  let own (x : Loc) : Bool := x.store == l.store && decide (l.ofs ≤ x.ofs) && decide (x.ofs < l.ofs + n)
  let kept := if who.atomic.isSome then s.rels.filter fun x => own x.1 else []
  let rest := s.rels.filter fun x => !own x.1
  let fresh := (List.range n).filterMap fun i =>
    let at_ := l.add i
    let old := ((kept.find? fun x => x.1 == at_).map (·.2)).getD []
    let all := mine ++ old.filter fun r => !mine.contains r
    if all.isEmpty then none else some (at_, all)
  { s with rels := fresh ++ rest }

/-- Records a Contrail event; the ring keeps the last 4,096 (R420). DEDUCED: log entry 23. -/
def State.log (s : State) (code ctx : Nat) (detail : List Nat) : State :=
  let l := s.contrail ++ [⟨s.ns, code, ctx, detail⟩]
  { s with contrail := l.drop (l.length - 4096) }

/-- The event of code 3: the cause, the LAUNCHID, BLKLIN and GRPIDX, and TRAPPC or the address not written; 0 for what the fate does not have (R420).
DEDUCED: log entry 23. -/
def State.logFate (s : State) (ctx cause lid lin grp at_ : Nat) : State := s.log 3 ctx [cause, lid, lin, grp, at_]

/-- Raises an MSI-X interrupt (R339, R414). -/
def State.interrupt (s : State) : State := { s with msix := s.msix + 1 }

/-- The undo log takes a line before its first write within a segment (R417). -/
def State.undoLog (s : State) (who : Who) (pa n : Nat) : State :=
  (List.range ((pa + n - 1) / 128 + 1 - pa / 128)).foldl (fun s i =>
    let line := (pa / 128 + i) * 128
    match s.ctx? who.ctx with
    | none => s
    | some c =>
      if c.undo.any fun u => u.line == line && u.seg == who.seg then s
      else if c.undo.length < Config.undoLines then
        s.modCtx who.ctx fun c => { c with undo := c.undo ++ [⟨line, who.seg, s.bytes (paLoc line) 128⟩] }
      else
        ((s.modCtx who.ctx fun c => { c with ckptValid := false }).interrupt).log 4 who.ctx [c.committed]) s

/-- Indices and values of the entries other than 0 of a page table. -/
def State.tableEntries (s : State) (base len : Nat) : List (Nat × Nat) :=
  let is := (s.mem.filter fun x => decide (base ≤ x.1) && decide (x.1 < base + 8 * len)).map fun x => (x.1 - base) / 8
  is.eraseDups.map fun i => (i, s.num (paLoc (base + 8 * i)) 8)

/-- A leaf that maps a physical address in this package with an attribute bit set. -/
def attrLeaf (at_ e k pa : Nat) : Bool :=
  pteLeaf e k && bit e at_ && !bit e 8 && decide (ptePa e ≤ pa) && decide (pa < ptePa e + 2 ^ k)

/-- Whether tables from a level down map a physical address with an attribute bit set. -/
def State.attrFrom (s : State) (at_ pa : Nat) : Nat → Nat → Bool
  | 0, base => (s.tableEntries base 512).any fun x =>
      attrLeaf at_ x.2 12 pa && !bit x.2 4 || (bit x.2 4 && decide (x.1 % 16 = 0) && attrLeaf at_ x.2 16 pa)
  | n + 1, base => (s.tableEntries base (if n + 1 = 3 then 2 ^ 18 else 512)).any fun x =>
      if bit x.2 3 then decide (n + 1 ≠ 3) && !bit x.2 4 && attrLeaf at_ x.2 (12 + 9 * (n + 1)) pa
      else pteTable x.2 && s.attrFrom at_ pa n (ptePa x.2)

/-- Whether a context maps a physical address with CKPT set, for writers that use no translation (R417). -/
def State.ckptPage (s : State) (ctx pa : Nat) : Bool :=
  inHbm pa && match s.ctx? ctx with | some c => s.attrFrom 7 pa 3 c.ptroot | none => false

/-- Whether a physical address is watched, for agents that use no translation: some context maps it with WATCH set (R248). DEDUCED: log entry 63. -/
def State.watchedPa (s : State) (pa : Nat) : Bool := s.ctxs.any fun c => s.attrFrom 5 pa 3 c.ptroot

/-- The pieces of n bytes from a physical address that lie in one 4 KiB run each. -/
def runsOf (pa n : Nat) : List (Nat × Nat) :=
  (List.range ((pa + n - 1) / 4096 + 1 - pa / 4096)).map fun i =>
    let lo := max pa ((pa / 4096 + i) * 4096)
    (lo, min (pa + n) ((pa / 4096 + i + 1) * 4096) - lo)

/-- Whether some byte of a range is watched. -/
def State.watchedRange (s : State) (pa n : Nat) : Bool := (runsOf pa n).any fun x => s.watchedPa x.1

/-- The undo log of a context takes the lines of a write by physical address that lie on its CKPT pages. DEDUCED: log entry 51. -/
def State.logLines (s : State) (who : Who) (pa n : Nat) : State :=
  (List.range ((pa + n - 1) / 128 + 1 - pa / 128)).foldl (fun s i =>
    let line := (pa / 128 + i) * 128
    if s.ckptPage who.ctx line then s.undoLog who line 1 else s) s

/-- A write that covers whole 64-byte blocks clears their poison (R415). -/
def State.clearPoison (s : State) (pa n : Nat) : State :=
  let first := (pa + 63) / 64
  let last := (pa + n) / 64
  { s with poison := (List.range (last - first)).foldl (fun m i => SMap.set false m (first + i) false) s.poison }

/-- A write in several pieces, none across a 64-byte block, clears the poison of the blocks of package memory that it covers whole (R415). -/
def State.clearCovered (s : State) (ps : List (Loc × Nat)) : State :=
  let ps := ps.filter fun x => x.1.store == .pkg
  ((ps.map fun x => x.1.ofs / 64).dedup).foldl (fun s k =>
    if (List.range 64).all fun i => ps.any fun x => decide (x.1.ofs ≤ 64 * k + i) && decide (64 * k + i < x.1.ofs + x.2) then s.clearPoison (64 * k) 64
    else s) s

/-- An access to another package's memory performs at its home slice: its request goes out (R252, R369). DEDUCED: log entry 46. -/
def State.request (s : State) (l : Loc) (r : FarReq) : State :=
  match l.store with
  | .far p => { s with reqs := s.reqs ++ [(p, r)] }
  | _ => s

/-- The writer record that a write of this agent leaves. -/
def Who.writer (who : Who) : Writer := ⟨who.agent, who.time, who.atomic, who.oadd, who.pos, who.detail⟩

/-- Marks the granules of a range as last written by an agent (R268), or as claimed (R271). -/
def State.claim (s : State) (who : Who) (l : Loc) (n : Nat) : State :=
  { s with writers := (granules l n).map (fun g => (g, who.writer)) ++ s.writers.filter fun x => !touchesGranule l n x.1 }

/-- Claims n bytes at a place for an agent, but for granules that another agent has written and not released to it: those keep their writer,
so that the operation's own write meets it (R268, R316). DEDUCED: log entry 33. -/
def State.claimFree (s : State) (who : Who) (a : Acc) (n : Nat) : State :=
  if !a.watch then s
  else
    let held := (s.races who a.loc n true).map (·.1)
    { s with writers := ((granules a.loc n).filter fun g => !held.contains g).map (fun g => (g, who.writer)) ++
        s.writers.filter fun x => !touchesGranule a.loc n x.1 || held.contains x.1 }

/-- The home slice of an address of package memory (R245). -/
def sliceOf (pa : Nat) : Nat := (bits pa 11 6).xor (bits pa 17 6)

/-- Whether each slice has room for the lines: it pins at most 8,192 (R249); a line that several agents have written is one. -/
def State.pinRoom (s : State) (ls : List Nat) : Bool :=
  ls.all fun l =>
    decide ((((s.pins.map (·.1)) ++ ls).filter fun x => sliceOf x == sliceOf l).dedup.length ≤ 8192)

/-- A line of a watched page that an agent has written is pinned until its next release that covers it (R249). The stores and atomics of groups,
which use the TLBs of cores, wait for room (`overPinned`); the line of another agent's write in a full slice is not pinned (DESIGN CHOICE, log entry 21). -/
def State.pin (s : State) (who : Who) (pa : Nat) : State :=
  let x := (pa / 128 * 128, who.agent)
  if s.pins.contains x || (decide (768 ≤ who.tlb) && !s.pinRoom [x.1]) then s else { s with pins := x :: s.pins }

/-- A slice would pin more lines than it can: what has led here is to wait (R249). -/
def State.overPinned (s : State) : Bool := decide (8192 < s.pins.length) && !s.pinRoom (s.pins.map (·.1))

/-- The lines of a range of watched package memory are pinned. -/
def State.pinRange (s : State) (who : Who) (pa n : Nat) : State :=
  (List.range ((pa + n - 1) / 128 + 1 - pa / 128)).foldl (fun s i => s.pin who (pa + 128 * i)) s

/-- A write performs (R254). DEDUCED: log entry 21. -/
def State.perform (s : State) (who : Who) (a : Acc) (vs : List Byte) : State :=
  let n := vs.length
  let s := if a.ckpt then s.undoLog who a.loc.ofs n else s
  let s := s.setBytes a.loc vs
  let s := if a.loc.store = .pkg then s.clearPoison a.loc.ofs n else s
  let s := if a.watch then s.claim who a.loc n else s
  let s := if a.watch && a.loc.store == .pkg then s.pinRange who a.loc.ofs n else s
  s.publish who a.loc n

end Sys2Proof.Machine
end

