-- ==== Sys2Proof/Machine/Device.lean ====
section
/-! DEFINITION. The device around a group: Contrail and interrupts, the agents' identities and releases, handle slots and the messages
between them, and the abort of a block (R206-R209, R258, R269, R355-R364, R399, R420). -/

namespace Sys2Proof.Machine

open Sys2Proof

/-! ## Agents -/

/-- Where a block's agents lie (R257). -/
def Block.pos (b : Block) : Pos := ⟨b.id, b.span, dieOf (b.place.getD 0), false⟩

def hostPos : Pos := ⟨0, 0, 0, true⟩

/-- A device agent that belongs to no block and no die. -/
def devicePos : Pos := ⟨0, 0, 4, false⟩

/-- The host is agent 0 (R253). -/
def hostAgent : Nat := 0

/-- The fault-detail word of R269. -/
def detailWord (epoch kind clust core grp ctx chan : Nat) : Word :=
  BitVec.ofNat 64 (epoch % 2 ^ 32 * 2 ^ 32 + kind % 16 * 2 ^ 28 + clust % 128 * 2 ^ 21 + core % 8 * 2 ^ 18 + grp % 32 * 2 ^ 13 + ctx % 64 * 2 ^ 7 + chan % 128)

/-- The undo-log segment of a group's writes: one past its last recorded epoch (R417); a group that has recorded none writes into the
segment after COMMITTED (DEDUCED, log entry 24). -/
def State.segment (s : State) (g : Group) (ctx : Nat) : Nat :=
  match s.ctx? ctx with
  | some c => max g.ckpt (c.committed + 1)
  | none => g.ckpt

/-- A group as the agent of an access made now. -/
def State.groupWho (s : State) (b : Block) (g : Group) (i : Nat) : Who where
  ctx := b.ctx
  tlb := coreOf (b.place.getD 0) i
  agent := g.agent
  time := g.epoch + 1
  clock := g.clock
  pos := b.pos
  detail := detailWord g.epoch 0 (b.place.getD 0) (i % 6) i b.ctx 0
  atomic := none
  oadd := false
  pub := g.fences
  seg := s.segment g b.ctx

/-- What an agent publishes at a release: everything it knows and all it has done. -/
def Group.known (g : Group) : Clock := clockSet g.clock g.agent (g.epoch + 1)

/-- A release: the group's own count moves on (R258, R269). DEDUCED: log entries 18, 19. -/
def Group.release (g : Group) : Group := { g with epoch := g.epoch + 1, clock := g.known }

/-- An acquire. -/
def Group.acquire (g : Group) (c : Clock) : Group := { g with clock := clockJoin g.clock c }

/-- A release at device scope or wider unpins the group's lines (R249). DEDUCED: log entry 21. -/
def State.unpin (s : State) (agent : Nat) : State := { s with pins := s.pins.filter fun x => x.2 != agent }

/-- Joins what the releases met have published, as far as the edge counts (R258). -/
def Group.acquireRels (g : Group) (p : Pos) (sc : Scope) (rs : List Rel) : Group :=
  rs.foldl (fun g r => if bothScopes (minScope sc r.scope) r.pos p then g.acquire r.clock else g) g

/-- The block loses its idempotent status (R349). -/
def State.touchOutside (s : State) (blk : Nat) : State := s.modBlock blk fun b => { b with idem := false }

/-! ## Handles (R355-R364) -/

/-- The 64-bit name of a handle (R355). -/
def handleWord (pkg cluster slot gen : Nat) : Word :=
  BitVec.ofNat 64 (pkg % 4096 * 2 ^ 52 + cluster % 128 * 2 ^ 45 + slot % 65536 * 2 ^ 24 + gen % 2 ^ 24)

def handlePkg (h : Word) : Nat := bits h.toNat 52 12
def handleCluster (h : Word) : Nat := bits h.toNat 45 7
def handleSlot (h : Word) : Nat := bits h.toNat 24 16
def handleGen (h : Word) : Nat := bits h.toNat 0 24

/-- The leaf where a handle lives: package * 128 + cluster (R365). -/
def handleLeaf (h : Word) : Nat := handlePkg h * 128 + handleCluster h

def handleKey (h : Word) : Nat := handleCluster h * 4096 + handleSlot h

def HSlot.fresh (key : Nat) : HSlot := ⟨key, 0, 1, .free, [], [], [], none, []⟩

def State.hslot (s : State) (key : Nat) : HSlot := (s.handles.find? fun x => x.key == key).getD (HSlot.fresh key)

def State.setHSlot (s : State) (x : HSlot) : State := { s with handles := x :: s.handles.filter fun y => y.key != x.key }

/-- A package that the route table names, this one included (R356). -/
def State.routed (s : State) (p : Nat) : Bool := p == s.pkg || s.routes.contains p

/-- Check 1 of R356: a malformed handle. -/
def State.handleMalformed (s : State) (h : Word) : Bool :=
  bits h.toNat 40 5 != 0 || handlePkg h == 4095 || !s.routed (handlePkg h) || decide (4096 ≤ handleSlot h) || handleGen h == 0

/-- Checks 2 and 3 of R356, made at the home; the sub-code of the first that fails. -/
def State.handleFault (s : State) (ctx : Nat) (h : Word) : Option Nat :=
  let x := s.hslot (handleKey h)
  if x.gen ≠ handleGen h ∨ (x.state ≠ .free ∧ x.owner ≠ ctx) then some 2
  else if x.state = .free then some 3
  else none

/-- Sends a message of class INV (R365). -/
def State.send (s : State) (src dst : Nat) (m : MsgBody) : State := { s with msgs := s.msgs ++ [⟨src, dst, m⟩] }

def myLeaf (s : State) (cluster : Nat) : Nat := s.pkg * 128 + cluster

/-- Answers the HWAITs that wait at a slot. -/
def State.answerAll (s : State) (leaf : Nat) (ws : List Waiter) (vals : List Word) (c : Clock) : State :=
  ws.foldl (fun s w => s.send leaf w.leaf (.answer w.req vals c)) s

/-- The handle that names a slot now. -/
def State.ownWord (s : State) (x : HSlot) : Word := handleWord s.pkg (x.key / 4096) (x.key % 4096) x.gen

/-- A slot becomes BROKEN: its waiters are answered, then the own handle of each queued invocation breaks in the same way (R362). One whose own
forward has failed the check breaks the handles forwarded through it (R361). -/
def State.breakSlot (s : State) (key : Nat) (origin : Word) (root : Nat) (c : Clock) : State :=
  let x := s.hslot key
  let leaf := myLeaf s (key / 4096)
  let through := if root = 0xFFFD ∧ origin = s.ownWord x then x.sources else []
  let s := s.setHSlot { x with state := .broken origin root, waiters := [], queue := [], rel := clockJoin x.rel c }
  let s := s.answerAll leaf x.waiters [origin, BitVec.ofNat 64 root] (clockJoin x.rel c)
  (x.queue.map (·.own) ++ through).foldl (fun s h => s.send leaf (handleLeaf h) (.brk h origin root (clockJoin x.rel c))) s

/-- A slot becomes RESOLVED: its waiters are answered, then a handler starts at the place for each queued entry, in order (R361). -/
def State.resolveSlot (s : State) (key : Nat) (v : Word) (place : Nat) (c : Clock) : State :=
  let x := s.hslot key
  let leaf := myLeaf s (key / 4096)
  let s := s.setHSlot { x with state := .resolved v place, waiters := [], queue := [], rel := clockJoin x.rel c }
  let s := s.answerAll leaf x.waiters [v, 0] (clockJoin x.rel c)
  x.queue.foldl (fun s i => s.send leaf place (.place { i with clock := clockJoin i.clock c, through := some (s.ownWord x) } v)) s

/-- A slot becomes FORWARDED: its queue goes to the target's home in order, and so do its waiters; a probe follows the chain (R361). A
malformed target has no home: the first message to be forwarded fails the check at once. DEDUCED: log entry 41. -/
def State.forwardSlot (s : State) (key : Nat) (own target : Word) (c : Clock) : State :=
  let x := s.hslot key
  let leaf := myLeaf s (key / 4096)
  let dst := handleLeaf target
  if s.handleMalformed target then
    if x.queue.isEmpty && x.waiters.isEmpty then s.setHSlot { x with state := .forwarded target, rel := clockJoin x.rel c }
    else s.breakSlot key own 0xFFFD c
  else
  let s := s.setHSlot { x with state := .forwarded target, waiters := [], queue := [], rel := clockJoin x.rel c }
  let s := x.queue.foldl (fun s i => s.send leaf dst (.toHandle target { i with clock := clockJoin i.clock c } [own] none)) s
  let s := x.waiters.foldl (fun s w => s.send leaf dst (.wait target w [own])) s
  s.send leaf dst (.probe own target [own])

/-! ## Engine operations -/

/-- An operation of the copy engine (R153, R154). -/
def EngOp.isCopy (o : EngOp) : Bool := o.tl == 0

def EngOp.is (o : EngOp) (tl num : Nat) : Bool := o.tl == tl && o.num == num

def Block.op? (b : Block) (tl num : Nat) : Option EngOp := b.ops.find? fun o => o.is tl num

def Block.modOp (b : Block) (tl num : Nat) (f : EngOp → EngOp) : Block :=
  { b with ops := b.ops.map fun o => if o.is tl num then f o else o }

def State.modOp (s : State) (blk tl num : Nat) (f : EngOp → EngOp) : State := s.modBlock blk fun b => b.modOp tl num f

def EngOp.isDone (o : EngOp) : Bool := match o.state with | .done => true | _ => false

def EngOp.isStopped (o : EngOp) : Bool := match o.state with | .stopped _ => true | _ => false

/-- The members that have issued their part. -/
def EngOp.arrived (o : EngOp) : List Nat := o.parts.map (·.grp)

/-- Every member stands in the operation: none is missing, none has its part in a replay queue (R182, R305). -/
def EngOp.complete (o : EngOp) : Bool := o.members.all fun m => o.parts.any fun p => p.grp == m && p.back

/-- Stops an operation at its progress point: every group that has issued a part is to take the trap (R177). -/
def Block.stopOp (b : Block) (o : EngOp) (t : Trap) : Block :=
  let o' := { o with state := .stopped t, parts := o.parts.map fun p => { p with back := false, pix := o.pix, ivec := o.ivec, units := [] } }
  let b := b.modOp o.tl o.num fun _ => o'
  o.arrived.foldl (fun b g => b.modGroup g fun x => { x with stopped := x.stopped ++ [⟨o.tl, o.num, x.traps.length⟩] }) b

/-- The accesses of the operation's row or job that have performed (R253). -/
def EngOp.units (o : EngOp) : List Nat := (o.parts.head?.map (·.units)).getD []

def EngOp.setUnits (o : EngOp) (us : List Nat) : EngOp := { o with parts := o.parts.map fun p => { p with units := us } }

/-- Of n accesses without order among them, those that perform at this step; `us` have performed before (R253). -/
def State.unitsNow (s : State) (us : List Nat) (n : Nat) : List Nat := (List.range n).filter fun k => !us.contains k && Config.units s.tick k

/-- Whether all of n accesses have performed. -/
def unitsAll (us : List Nat) (n : Nat) : Bool := (List.range n).all us.contains

/-- The counter of a timeline: for t0-t3 the highest n for which operations 1 to n have completed (R167). The engine timeline counters that R9
lists under the context are these, one set for each block. DEDUCED: log entry 67. -/
def Block.counter (b : Block) (n : Nat) : Nat :=
  let x := b.tls.getD n ⟨0, 0, []⟩
  if 4 ≤ n then x.count
  else
    match (b.ops.filter fun o => o.tl == n && !o.isDone).map (·.num) with
    | [] => x.issued
    | m :: ms => ms.foldl min m - 1

/-- What an abort leaves of a group: accepted accesses and accepted CPA transfers still perform. -/
def Group.stop (g : Group) : Group :=
  { g with slotA := Slot.free, slotB := Slot.free, memq := g.memq.filter (·.accepted), retired := true, stopped := [] }

/-- What an abort leaves of the operations: copies that have started, and Virga commands, which finish without merging (R399). -/
def EngOp.outlives (o : EngOp) : Bool := (o.isCopy && (o.state == .running || o.state == .worked)) || (o.tl == 3 && !o.isDone)

/-- Stops a block: its matrix and plane operations end (R399). -/
def Block.stop (b : Block) : Block :=
  { b with groups := b.groups.map Group.stop, ops := b.ops.filter EngOp.outlives, planeSt := none, aborted := true, settled := true }

/-- Aborts a block by its number, with its grid, and breaks a handler's handle. `grp` and `pc` are what Contrail records. DEDUCED: log entry 60. -/
def State.abortBlock (s : State) (id : Nat) (cause grp : Nat) (pc : Word) : State :=
  match s.block? id with
  | none => s
  | some b =>
    match b.handler with
    | some h =>
      let s := s.modBlock id Block.stop
      let s := s.logFate b.ctx cause 0 b.lin grp pc.toNat
      let c := (b.groups.map Group.known).foldl clockJoin b.rel
      if b.settled then s else s.send (myLeaf s (b.place.getD 0)) (handleLeaf h) (.brk h h (0x8000 + cause) c)
    | none =>
      let lid := s.lidOf b
      let live := (s.blocks.filter fun x => x.grid == b.grid && !x.aborted).map (·.lin)
      let s := { s with blocks := s.blocks.map fun (x : Block) => if x.grid = b.grid then x.stop else x }
      let s := s.modGrid b.grid fun g => { g with aborted := true, active := [], contribs := g.contribs.filter fun c => !live.contains c.lin }
      s.logFate b.ctx cause lid b.lin grp pc.toNat

end Sys2Proof.Machine
end

