-- ==== Sys2Proof/Machine/Texture.lean ====
section
/-! DEFINITION. Texture descriptors, tap selection and filter arithmetic (R89-R91, R144-R147). -/

namespace Sys2Proof.Machine

open Sys2Proof

/-- A texture descriptor's fields (R144). -/
structure Tex where
  base : Nat
  w0 : Nat
  h0 : Nat
  fmt : Nat
  levels : Nat
  filt : Nat
  addr : Nat
  border : List Nat
deriving DecidableEq, Repr

/-- The descriptor in 64 bytes, none when it is bad (R144). -/
def parseTex (bs : List Byte) : Option Tex :=
  let f (lo n : Nat) : Nat := leNat ((bs.drop lo).take n)
  let t : Tex := ⟨f 0 8, f 8 4, f 12 4, f 16 1, f 17 1, f 18 1, f 19 1, (List.range 4).map fun c => f (20 + 4 * c) 4⟩
  let ok := t.base % 256 == 0 && decide (1 ≤ t.w0) && decide (t.w0 ≤ 65536) && decide (1 ≤ t.h0) && decide (t.h0 ≤ 65536) &&
    decide (t.fmt ≤ 5) && decide (1 ≤ t.levels) && decide (t.levels ≤ 17) && decide (t.filt % 4 ≠ 3) && decide (t.filt < 8) &&
    decide (t.addr < 16) && f 36 28 == 0
  if ok then some t else none

/-- Bytes of a texel (R145). -/
def Tex.size (t : Tex) : Nat := [4, 8, 16, 8, 8, 4].getD t.fmt 4

def Tex.width (t : Tex) (l : Nat) : Nat := max 1 (t.w0 / 2 ^ l)
def Tex.height (t : Tex) (l : Nat) : Nat := max 1 (t.h0 / 2 ^ l)
def Tex.pitch (t : Tex) (l : Nat) : Nat := (t.width l * t.size + 255) / 256 * 256

/-- Where level l starts (R145). -/
def Tex.start (t : Tex) (l : Nat) : Nat := (List.range l).foldl (fun a i => a + t.pitch i * t.height i) t.base

/-- A tap: a texel's address, or the border (R146). -/
inductive Tap where
  | mem (addr : Nat)
  | border
deriving DecidableEq, Repr

/-- The index a tap resolves to on an axis, none for the border (R146). -/
def resolveTap (mode : Nat) (i : Int) (e : Nat) : Option Nat :=
  match mode with
  | 0 => some (i % (e : Int)).toNat
  | 1 => some (min (max i 0) ((e : Int) - 1)).toNat
  | 2 =>
    let m := (i % (2 * e : Int)).toNat
    some (if m < e then m else 2 * e - 1 - m)
  | _ => if 0 ≤ i ∧ i < e then some i.toNat else none

/-- Round to f32 by RNE, with the operation's INV alone kept (R147). -/
def f32Of (v : Val × Flags) : Nat × Flags :=
  let r := finish .f32 .rne false v
  (r.1, r.2 &&& flINV)

/-- The fixed-point coordinate U of an axis of extent w, none for a NaN (R89). -/
def fixCoord (u w : Nat) (nearest : Bool) : Option Int :=
  let v := decodeElem .f32 u
  if v.isNaN then none
  else
    let x := (f32Of (mulVal v (Val.ofInt w))).1
    let x' := if nearest then x else (f32Of (subVal .rne (decodeElem .f32 x) (.fin false 1 (-1) false))).1
    match decodeElem .f32 x' with
    | .inf neg => some (if neg then -(2 ^ 31) else 2 ^ 31 - 1)
    | .fin neg m e st =>
      let r := (roundInt .rne neg m (e + 8) st).1
      some (max (-(2 ^ 31)) (min r (2 ^ 31 - 1)))
    | .nan _ => none

/-- num / 2^25 rounded to f32. -/
def cubicWeight (num : Int) : Nat :=
  (f32Of (.fin (decide (num < 0)) num.natAbs (-25) false, 0)).1

/-- The taps of an axis, ascending, with their weights as f32 (R89, R90); those of zero weight are left out (R91). -/
def axisTaps (filt : Nat) (u : Int) : List (Int × Nat) :=
  let i0 := u / 256
  let frac := (u % 256).toNat
  let f : Int := frac
  let ws : List (Int × Nat) :=
    match filt % 4 with
    | 0 => [(i0, 0x3F800000)]
    | 1 => [(i0, (f32Of (.fin false (256 - frac) (-8) false, 0)).1), (i0 + 1, (f32Of (.fin false frac (-8) false, 0)).1)]
    | _ =>
      let f1 := f * 65536
      let f2 := f * f * 256
      let f3 := f * f * f
      [(i0 - 1, cubicWeight (-f3 + 2 * f2 - f1)), (i0, cubicWeight (3 * f3 - 5 * f2 + 2 * 16777216)),
       (i0 + 1, cubicWeight (-3 * f3 + 4 * f2 + f1)), (i0 + 2, cubicWeight (f3 - f2))]
  ws.filter fun x => x.2 % 2 ^ 31 != 0

/-- The rows of taps of one level: each row's vertical weight and its taps; none for a NaN coordinate. -/
def Tex.taps (t : Tex) (l u v : Nat) : Option (List (Nat × List (Nat × Tap))) :=
  let nearest := t.filt % 4 == 0
  match fixCoord u (t.width l) nearest, fixCoord v (t.height l) nearest with
  | some fu, some fv =>
    some ((axisTaps t.filt fv).map fun row =>
      (row.2, (axisTaps t.filt fu).map fun col =>
        (col.2, match resolveTap (t.addr % 4) col.1 (t.width l), resolveTap (t.addr / 4 % 4) row.1 (t.height l) with
          | some i, some j => Tap.mem ((t.start l + j * t.pitch l + i * t.size) % 2 ^ 64)
          | _, _ => Tap.border)))
  | _, _ => none

/-- Component c of a texel's bytes as an exact value (R144, R145). -/
def Tex.comp (t : Tex) (bs : List Byte) (c : Nat) : Val :=
  let f (lo n : Nat) : Nat := leNat ((bs.drop lo).take n)
  let missing : Val := if c = 3 then Val.ofInt 1 else Val.ofInt 0
  match t.fmt with
  | 0 => if c = 0 then decodeElem .f32 (f 0 4) else missing
  | 1 => if c < 2 then decodeElem .f32 (f (4 * c) 4) else missing
  | 2 => decodeElem .f32 (f (4 * c) 4)
  | 3 => decodeElem .f16 (f (2 * c) 2)
  | 4 => decodeElem .bf16 (f (2 * c) 2)
  | _ => decodeElem .n8 (f c 1)

/-- The weighted sum of R91 in ascending order. -/
def weighted : List (Nat × Val) → Option Nat → Nat × Flags
  | [], acc => (acc.getD 0, 0)
  | (w, v) :: r, acc =>
    let p := f32Of (mulVal v (decodeElem .f32 w))
    match acc with
    | none =>
      let z := weighted r (some p.1)
      (z.1, z.2 ||| p.2)
    | some a =>
      let q := f32Of (addVal .rne (decodeElem .f32 a) (decodeElem .f32 p.1))
      let z := weighted r (some q.1)
      (z.1, z.2 ||| p.2 ||| q.2)

/-- One component of a level's sample: rows, then the vertical combination (R91). -/
def Tex.filter (t : Tex) (rows : List (Nat × List (Nat × Tap))) (rd : Nat → List Byte) (c : Nat) : Nat × Flags :=
  let hs := rows.map fun row =>
    (row.1, weighted (row.2.map fun x =>
      (x.1, match x.2 with
        | .mem a => t.comp (rd a) c
        | .border => decodeElem .f32 (t.border.getD c 0))) none)
  let fl := hs.foldl (fun f h => f ||| h.2.2) 0
  let r := weighted (hs.map fun h => (h.1, decodeElem .f32 h.2.1)) none
  (r.1, fl ||| r.2)

/-- The levels a sample reads with their weights out of 256 (R147): SAMP reads level 0; lam is the λ of SAMPG. -/
def Tex.levelsOf (t : Tex) (lam : Option Nat) : List (Nat × Nat) :=
  match lam with
  | none => [(0, 256)]
  | some x =>
    let v := decodeElem .f32 x
    let top := t.levels - 1
    let fixed : Nat :=
      match v with
      | .nan _ => 0
      | .inf neg => if neg then 0 else top * 256
      | .fin neg m e _ =>
        if neg then 0
        else if decide (cmpVal v (Val.ofInt top) = .gt) then top * 256
        else (roundInt .rne false m (e + 8) false).1.toNat
    -- the integer part and the fraction in 256ths: rounding to even carries into the level
    let l0 := fixed / 256
    let lf := if l0 = top then 0 else fixed % 256
    if t.filt / 4 % 2 = 0 then [(min top (l0 + if 128 ≤ lf then 1 else 0), 256)]
    else if lf = 0 then [(l0, 256)]
    else [(l0, 256 - lf), (l0 + 1, lf)]

/-- The addresses of the texels a lane reads (R147: only taps of nonzero weight). -/
def Tex.addrs (t : Tex) (lam : Option Nat) (u v : Nat) : List Nat :=
  (t.levelsOf lam).flatMap fun l =>
    match t.taps l.1 u v with
    | none => []
    | some rows => rows.flatMap fun r => r.2.filterMap fun x => match x.2 with | .mem a => some a | .border => none

/-- Component c of a lane's sample (R89-R91, R147). -/
def Tex.sample (t : Tex) (lam : Option Nat) (u v : Nat) (rd : Nat → List Byte) (c : Nat) : Nat × Flags :=
  let parts := (t.levelsOf lam).map fun l =>
    match t.taps l.1 u v with
    | none => (l.2, (canonNaN .f32, flINV))
    | some rows => (l.2, t.filter rows rd c)
  let fl := parts.foldl (fun f p => f ||| p.2.2) 0
  match parts with
  | [p] => (p.2.1, fl)
  | _ =>
    let r := weighted (parts.map fun p => ((f32Of (.fin false p.1 (-8) false, 0)).1, decodeElem .f32 p.2.1)) none
    (r.1, fl ||| r.2)

end Sys2Proof.Machine
end

