-- ==== Sys2Proof/Machine/Access.lean ====
section
/-! DEFINITION. A group's queued memory instructions: the accesses each makes, their acceptance (R128, R254, R391) and their
performing, lane by lane (R129-R135, R147, R217). Captured operands lie in OPA and OPB as R395 gives; for SAMP and SAMPG, OPA holds
the descriptor's address and OPB the coordinates and the λ of each lane (DEDUCED, log entry 17). -/

namespace Sys2Proof.Machine

open Sys2Proof

/-! ## What an instruction of the queue is -/

/-- Loads: they count in LDCNT (R129). -/
def isLoad : Instr → Bool
  | .vld .. | .vlde .. | .vldd .. | .sld .. | .vldb .. | .ldds .. | .vgath .. | .samp .. | .sampg .. => true
  | _ => false

/-- Stores and ordered adds. -/
def isStore : Instr → Bool
  | .vst .. | .vste .. | .sst .. | .vstb .. | .stds .. | .atomo .. => true
  | _ => false

/-- The V registers a load writes, window-relative. -/
def loadDest : Instr → List Nat
  | .vld (.reg d) .. | .vlde (.reg d) .. | .vldb (.reg d) .. | .ldds (.reg d) .. | .vgath (.reg d) .. | .samp (.reg d) .. | .sampg (.reg d) .. =>
    [d.toNat]
  | .vldd d .. => [2 * d.toNat, 2 * d.toNat + 1]
  | _ => []

/-- The S register a load writes. -/
def loadDestS : Instr → Option Nat
  | .sld (.reg d) .. => some d.toNat
  | _ => none

/-- The descriptor a sampling instruction has captured at its acceptance, in OPB from word 64 on. -/
def MemOp.tex (m : MemOp) : Option Tex := parseTex ((m.opb.drop 64).flatMap fun w => leBytes 8 w.toNat)

/-- The bytes of one access of a lane: for a sample, those of a texel. -/
def MemOp.size (m : MemOp) : Nat :=
  match m.instr with
  | .vlde .. | .vste .. | .vgath .. => width (modeType m.mode) / 8
  | .ldds .. | .stds .. => 256
  | .samp .. | .sampg .. => match m.tex with | some t => t.size | none => 8
  | _ => 8

def spaceOf : Instr → Space
  | .vld _ _ _ x | .vst _ _ _ x | .vlde _ _ _ x | .vste _ _ _ x | .vldb _ _ _ x | .vstb _ _ _ x | .vgath _ _ _ x => x
  | .sld _ _ _ sp | .sst _ _ _ sp => if sp then .sp else .gl
  | _ => .gl

/-- A described access (R133, R134, R250). -/
def isDescribed (i : Instr) (t : ElemType) : Bool :=
  match i with
  | .vlde .. | .vste .. => t == .d
  | .vldd .. | .ldds .. | .stds .. => true
  | _ => false

/-- The address of lane l (R126). -/
def MemOp.addr (m : MemOp) (l : Nat) : Word :=
  match m.instr with
  | .sld .. => m.opa.getD 0 0 + m.opa.getD 1 0
  | .sst .. => m.opa.getD 1 0 + m.opa.getD 2 0
  | _ => m.opa.getD l 0

/-- What lane l asks for. -/
def MemOp.req (m : MemOp) (l : Nat) : Req :=
  let a := m.addr l
  let n := m.size
  let aligned : Bool := match m.instr with
    | .vldb .. | .vstb .. => decide ((a - BitVec.ofNat 64 (8 * l)).toNat % 256 = 0)
    | _ => decide (a.toNat % n = 0)
  let st := isStore m.instr
  let far : Bool := match m.instr with
    | .atomo .. | .ldds .. | .stds .. | .vldd .. => false
    | _ => true
  ⟨spaceOf m.instr, a, n, aligned, !st, st, isDescribed m.instr (modeType m.mode), far, true⟩

/-- The agent of a queued instruction, as it stood at issue. -/
def State.memWho (s : State) (b : Block) (g : Group) (i : Nat) (m : MemOp) : Who :=
  let w := s.groupWho b g i
  { w with clock := m.clock, time := m.epoch + 1,
           detail := detailWord m.epoch 0 (b.place.getD 0) (i % 6) i b.ctx 0
           seg := m.seg }

/-- The core of group i within its cluster. -/
def coreIdx (i : Nat) : Option Nat := some (i % 6)

/-! ## Acceptance -/

/-- The place of a memory trap in the order of R391. -/
def Trap.memRank (t : Trap) : Nat :=
  match t.cause, t.sub with
  | .page, 1 | .prot, 2 => 0
  | .align, _ => 1
  | .page, 2 | .page, 3 | .prot, 3 => 2
  | .prot, _ => 3
  | .peerx, _ => 4
  | .mmx, _ => 5
  | .ecc, _ => 6
  | _, _ => 7

/-- Of two traps of one lane, the one that ranks first. -/
def Trap.first (t u : Trap) : Trap := if u.memRank < t.memRank then u else t

/-- Checks every access of an instruction; the places, or the trap of the lowest lane that fails (R128), which is the one that ranks first of its
accesses (R391). The accesses stand lane by lane, those of a CPA's destination under 100 + the lane; `rep` is the address that a trap reports. -/
def State.checkLanes (s : State) (who : Who) (b : Block) (core : Option Nat) (reqs : List (Nat × Req)) (rep : Nat → Word → Word := fun _ a => a) :
    Except Trap (List (Nat × Loc × Bool × Bool)) :=
  let rs := reqs.map fun x => (x.1, s.check who b core x.2 true)
  let bad := rs.filterMap fun x => match x.2 with | .error t => some { t with lane := x.1 % 100, addr := rep x.1 t.addr } | .ok _ => none
  match bad with
  | [] => .ok (rs.filterMap fun x => match x.2 with | .ok a => some (x.1, a.loc, a.watch, a.ckpt) | .error _ => none)
  | t :: ts => .error ((ts.filter fun u => u.lane == t.lane).foldl Trap.first t)

/-- The places of helper lanes' reads; a lane that would fail has none (R217). -/
def State.helperLanes (s : State) (who : Who) (b : Block) (core : Option Nat) (reqs : List (Nat × Req)) : List (Nat × Loc × Bool × Bool) :=
  reqs.filterMap fun x =>
    match s.check who b core x.2 false with
    | .ok a => some (x.1, a.loc, a.watch, a.ckpt)
    | .error _ => none

/-- The pieces of 8 bytes or fewer that c bytes from an address fall into (R148). -/
def pieces (a : Word) (c : Nat) : List (Word × Nat) :=
  (List.range ((c + 7) / 8)).map fun i => (a + BitVec.ofNat 64 (8 * i), min 8 (c - 8 * i))

/-- The requests of a CPA lane: the source's pieces, then the destination at lane 100 + l. DEDUCED: log entry 7. -/
def MemOp.cpaReqs (m : MemOp) (l : Nat) : List (Nat × Req) :=
  let src := m.opa.getD l 0
  let c := min 32 (m.opb.getD l 0).toNat
  let dst := m.opb.getD (32 + l) 0
  ((pieces src c).map fun p => (l, (⟨.gl, p.1, p.2, decide (src.toNat % 8 = 0), true, false, false, false, true⟩ : Req))) ++
    [(100 + l, (⟨.sp, dst, 32, decide (dst.toNat % 32 = 0), false, true, false, true, true⟩ : Req))]

/-- A trap of a source piece reports the lane's source address (R128). -/
def MemOp.cpaRep (m : MemOp) (k : Nat) (a : Word) : Word := if k < 100 then m.opa.getD k 0 else a

/-- The texture descriptor's request. -/
def texReq (a : Word) : Req := ⟨.gl, a, 64, decide (a.toNat % 64 = 0), true, false, false, false, true⟩

/-- u, v and λ of a lane of SAMP or SAMPG. DEDUCED: log entry 17. -/
def MemOp.coords (m : MemOp) (l : Nat) : Nat × Nat × Option Nat :=
  let x := m.opb.getD l 0
  let lam := match m.instr with
    | .sampg .. => some (sub (m.opb.getD (32 + l) 0) 0 .f32)
    | _ => none
  (sub x 0 .f32, sub x 1 .f32, lam)

/-- The texels lane l reads, under a descriptor. -/
def MemOp.texReqs (m : MemOp) (t : Option Tex) (l : Nat) : List (Nat × Req) :=
  match t with
  | none => []
  | some t =>
    let c := m.coords l
    (t.addrs c.2.2 c.1 c.2.1).map fun a => (l, (⟨.gl, BitVec.ofNat 64 a, t.size, true, true, false, false, false, true⟩ : Req))

/-- Two ranges of bytes share none. -/
def apart (l : Loc) (n : Nat) (k : Loc) (m : Nat) : Bool :=
  l.store != k.store || decide (l.ofs + n ≤ k.ofs) || decide (k.ofs + m ≤ l.ofs)

/-- Every access that the group's instructions before number id make to n bytes at a place has performed (R130). -/
def Group.clearFor (g : Group) (id : Nat) (l : Loc) (n : Nat) : Bool :=
  g.memq.all fun o => decide (id ≤ o.id) || o.accs.all fun y => !laneIn o.todo y.1 || apart l n y.2.1 o.size

/-- Acceptance of a queued instruction: every check that can fault it (R128, R254). The lane of the trap is the lowest that fails.
A sample whose descriptor the group's own earlier accesses still touch is not accepted yet (R130). DEDUCED: log entry 17. -/
def State.accept (s : State) (b : Block) (g : Group) (i : Nat) (m : MemOp) : Except Trap MemOp := do
  let who := s.memWho b g i m
  let core := coreIdx i
  match m.instr with
  | .cpa .. =>
    let accs ← s.checkLanes { who with agent := s.nextAgent } b core ((lanesOf m.lanes).flatMap m.cpaReqs) m.cpaRep
    .ok { m with accs := accs, accepted := true }
  | .samp .. | .sampg .. =>
    match lanesOf (m.lanes ||| m.help) with
    | [] => .ok { m with accepted := true }
    | l0 :: _ =>
      let q := texReq (m.opa.getD 0 0)
      let only := m.lanes == 0
      match s.check who b core q (!only) with
      | .error t =>
        if only then .ok { m with accepted := true, opb := m.opb ++ List.replicate 8 0 } else .error { t with lane := ((lanesOf m.lanes).head?).getD l0 }
      | .ok a =>
        if !g.clearFor m.id a.loc 64 then .ok m
        else
        let words := (List.range 8).map fun j => BitVec.ofNat 64 (s.num (a.loc.add (8 * j)) 8)
        let m := { m with opb := m.opb ++ words }
        let accs ← s.checkLanes who b core ((lanesOf m.lanes).flatMap (m.texReqs m.tex))
        let help := (lanesOf m.help).flatMap fun l =>
          let rs := m.texReqs m.tex l
          let hs := s.helperLanes who b core rs
          if hs.length = rs.length then hs ++ [(200 + l, a.loc, false, false)] else []
        .ok { m with accs := accs ++ help, accepted := true, met := if only then [] else s.relsAt a.loc 64 }
  | _ =>
    let accs ← s.checkLanes who b core ((lanesOf m.lanes).map fun l => (l, m.req l))
    let help := if isLoad m.instr then s.helperLanes who b core ((lanesOf m.help).map fun l => (l, m.req l)) else []
    .ok { m with accs := accs ++ help, accepted := true }

/-! ## Performing a lane -/

/-- A little-endian element of n bytes as VLDE writes a lane (R133). -/
def extendElem (t : ElemType) (x : Nat) : Word :=
  if isSigned t then BitVec.ofInt 64 (intOf t x) else BitVec.ofNat 64 x

/-- The value a load's lane receives from its place, and the flags (R132-R134). The second register is VLDD's. -/
def State.loadValue (s : State) (m : MemOp) (l : Loc) : Word × Word × Flags :=
  let rnd := modeRnd m.mode
  let sat := modeSat m.mode
  match m.instr with
  | .vlde .. =>
    let t := modeType m.mode
    if t = .d then
      let r := describedTo .f32 rnd sat (s.desc l.ofs) (s.num l 1)
      (BitVec.ofNat 64 r.1, 0, r.2)
    else (extendElem t (s.num l (width t / 8)), 0, 0)
  | .vldd .. =>
    let es := (List.range 8).map fun e => describedTo .bf16 rnd sat (s.desc l.ofs) (s.num (l.add e) 1)
    (packSubs .bf16 ((es.take 4).map (·.1)), packSubs .bf16 ((es.drop 4).map (·.1)), es.foldl (fun f x => f ||| x.2) 0)
  | .ldds .. => (packSubs .n16 ((List.range 4).map fun j => s.desc (l.ofs + 64 * j)), 0, 0)
  | _ => (BitVec.ofNat 64 (s.num l 8), 0, 0)

/-- The sample of a lane from the places it was granted (R147). -/
def State.sampleValue (s : State) (m : MemOp) (l : Nat) (hi : Bool) : Word × Flags :=
  match m.tex with
  | none => (packSubs .f32 [canonNaN .f32, canonNaN .f32], flINV)
  | some t =>
    let c := m.coords l
    let at_ := (t.addrs c.2.2 c.1 c.2.1).zip ((m.accs.filter fun x => x.1 == l).map (·.2.1))
    let rd (a : Nat) : List Byte := match at_.find? fun x => x.1 == a with
      | some x => s.bytes x.2 t.size
      | none => []
    let c0 := if hi then 2 else 0
    let r0 := t.sample c.2.2 c.1 c.2.1 rd c0
    let r1 := t.sample c.2.2 c.1 c.2.1 rd (c0 + 1)
    (packSubs .f32 [r0.1, r1.1], r0.2 ||| r1.2)

/-- The bytes a store's lane writes, and the flags (R133). -/
def State.storeBytes (s : State) (m : MemOp) (l : Nat) (at_ : Loc) : List Byte × Flags :=
  let x := match m.instr with | .sst .. => m.opa.getD 0 0 | _ => m.opb.getD l 0
  match m.instr with
  | .vste .. =>
    let t := modeType m.mode
    if t = .d then
      let r := describedStore (modeRnd m.mode) (modeSat m.mode) (s.desc at_.ofs) (decodeElem .f32 (sub x 0 .f32))
      (leBytes 1 r.1, r.2)
    else (leBytes (width t / 8) x.toNat, 0)
  | _ => (leBytes 8 x.toNat, 0)

/-- Writes the destination of a load's lane. -/
def Group.writeLoad (g : Group) (m : MemOp) (l : Nat) (x y : Word) : Group :=
  match loadDestS m.instr with
  | some d => g.wrS m.wb d x
  | none =>
    match loadDest m.instr with
    | [d] => g.wrV m.wb d l x
    | [d, e] => (g.wrV m.wb d l x).wrV m.wb e l y
    | _ => g

/-- STDS writes four descriptors, and every byte of their granules, with the value that it has (R132, R253). -/
def State.performStds (s : State) (who : Who) (a : Loc) (watch ckpt : Bool) (x : Word) : State :=
  let s := if ckpt then s.undoLog who a.ofs 256 else s
  let s := (List.range 4).foldl (fun s j => s.setDesc (a.ofs + 64 * j) (sub x j .n16)) s
  let s := if watch then (s.claim who a 256).pinRange who a.ofs 256 else s
  let s := if a.store = .pkg then s.clearPoison a.ofs 256 else s
  s.publish who a 256

/-- The ordered contributions of an ATOMO lane join those of its grid (R138). -/
def contribsOf (b : Block) (i : Nat) (m : MemOp) (l : Nat) (a : Loc × Bool × Bool) : List Contrib :=
  let t := modeType m.mode
  (List.range (nsub t)).map fun k =>
    ⟨b.lin, a.1.add (k * (width t / 8)), a.2.1, a.2.2, [b.lin, i, l, k, m.pix], t, sub (m.opb.getD l 0) k t⟩

/-- What a lane of a load receives from its place, and the releases it meets there. -/
def State.laneNow (s : State) (m : MemOp) (l : Nat) (a : Loc) : (Word × Word × Flags) × List Rel :=
  match m.instr with
  | .samp _ _ _ hi | .sampg _ _ _ hi =>
    let r := s.sampleValue m l hi
    ((r.1, 0, r.2), m.met ++ (m.accs.filter fun x => x.1 == l).flatMap fun x => s.relsAt x.2.1 m.size)
  | _ => (s.loadValue m a, s.relsAt a m.size)

/-- A write of a watched granule that has been accepted since has raced with a lane of a load: the lane returns what it held at its
acceptance (R268, R270). DEDUCED: log entry 34. -/
def State.overtaken (s : State) (who : Who) (m : MemOp) (l : Nat) : Bool :=
  m.accs.any fun x => x.1 == l && x.2.2.1 && (s.race? who x.2.1 m.size false).isSome

/-- What lane l of a load receives as it performs. DEDUCED: log entry 34. -/
def State.laneRead (s : State) (who : Who) (m : MemOp) (l : Nat) (a : Loc) : (Word × Word × Flags) × List Rel :=
  match m.got.find? fun x => x.1 == l with
  | some x => if s.overtaken who m l then x.2 else s.laneNow m l a
  | none => s.laneNow m l a

/-- The watched lanes of a load as it is accepted, with what they hold. DEDUCED: log entry 34. -/
def State.holdings (s : State) (m : MemOp) : List (Nat × (Word × Word × Flags) × List Rel) :=
  if isLoad m.instr then
    (lanesOf (m.todo &&& ~~~ m.help)).filterMap fun l =>
      match m.accs.find? fun x => x.1 == l with
      | some a => if m.accs.any (fun x => x.1 == l && x.2.2.1) then some (l, s.laneNow m l a.2.1) else none
      | none => none
  else []

/-- A store's watched places count as its agent's from its acceptance on: no access that conflicts with them is accepted before it has
performed (R268). DEDUCED: log entry 34. -/
def State.claimStore (s : State) (who : Who) (m : MemOp) : State :=
  match m.instr with
  | .atomo .. => s
  | _ =>
    if isStore m.instr then
      m.accs.foldl (fun s x =>
        if x.2.2.1 then
          let s := s.claim who x.2.1 m.size
          if x.2.1.store == .pkg then s.pinRange who x.2.1.ofs m.size else s
        else s) s
    else s

/-- Performs lane l of an accepted instruction: one access, at its place. -/
def State.performLane (s : State) (gr : GRef) (b : Block) (g : Group) (m : MemOp) (l : Nat) : State :=
  let who := s.memWho b g gr.grp m
  let helper := laneIn m.help l
  let place := (m.accs.find? fun x => x.1 == l).map (·.2)
  match m.instr with
  | .samp .. | .sampg .. =>
    let dead := helper && !(m.accs.any fun x => x.1 == 200 + l)
    let q := if dead then ((0, 0, 0), []) else s.laneRead who m l ⟨.pkg, 0⟩
    let r := q.1
    let met := if helper then [] else q.2
    s.modGroup gr fun g =>
      let g := g.writeLoad m l r.1 0
      let g := { g with reads := g.reads ++ met.filter fun x => !g.reads.contains x }
      if helper then g else { g with flags := g.flags ||| r.2.2 }
  | .atomo .. =>
    match place with
    | none => s
    | some a => s.modGrid b.grid fun x => { x with contribs := x.contribs ++ contribsOf b gr.grp m l a }
  | .stds .. =>
    match place with
    | none => s
    | some a => s.performStds who a.1 a.2.1 a.2.2 (m.opb.getD l 0)
  | _ =>
    if isLoad m.instr then
      match place with
      | none => s.modGroup gr fun g => g.writeLoad m l 0 0
      | some a =>
        let r := s.laneRead who m l a.1
        let met := if helper then [] else r.2
        s.modGroup gr fun g =>
          let g := g.writeLoad m l r.1.1 r.1.2.1
          let g := { g with reads := g.reads ++ met.filter fun x => !g.reads.contains x }
          if helper then g else { g with flags := g.flags ||| r.1.2.2 }
    else
      match place with
      | none => s
      | some a =>
        let w := s.storeBytes m l a.1
        let s := s.perform who ⟨a.1, a.2.1, a.2.2, false⟩ w.1
        s.modGroup gr fun g => { g with flags := g.flags ||| w.2 }

/-- Lanes whose access may perform now: every older access of the group to the same bytes has performed, and for a store every older
load has bound (R130, R262). -/
def Group.mayPerform (g : Group) (m : MemOp) (l : Nat) : Bool :=
  (!isStore m.instr || g.memq.all fun o => decide (m.id ≤ o.id) || !isLoad o.instr || o.todo == 0) &&
    m.accs.all fun x => x.1 != l || g.clearFor m.id x.2.1 m.size

/-- A row store that has written whole 64-byte blocks clears their poison (R415). -/
def State.rowPoison (s : State) (m : MemOp) : State :=
  match m.instr with
  | .vstb .. => s.clearCovered ((m.accs.filter fun x => !laneIn m.todo x.1).map fun x => (x.2.1, 8))
  | _ => s

/-- Performs the lanes of a mask that may perform, ascending; within one instruction a later lane's store to the same bytes follows. DEDUCED: log entry 5. -/
def State.performEach (s : State) (gr : GRef) (id : Nat) (mask : Lanes) : State :=
  (lanesOf mask).foldl (fun s l =>
    match s.block? gr.blk, s.group? gr with
    | some b, some g =>
      match g.memq.find? fun m => m.id == id with
      | none => s
      | some m =>
        if m.accepted && laneIn m.todo l && g.mayPerform m l then
          let s := s.performLane gr b g m l
          s.modGroup gr fun g => { g with memq := g.memq.map fun x => if x.id = id then { x with todo := x.todo &&& ~~~ laneBit l } else x }
        else s
    | _, _ => s) s

/-- Performs lanes of an accepted instruction, and clears the poison of the blocks that a row has covered. -/
def State.performLanes (s : State) (gr : GRef) (id : Nat) (mask : Lanes) : State :=
  let t := s.performEach gr id mask
  match (t.group? gr).bind fun g => g.memq.find? fun m => m.id == id with
  | some m => t.rowPoison m
  | none => t

/-! ## VGATH (R135) -/

/-- The element address of element e. -/
def MemOp.gathAddr (m : MemOp) (e : Nat) : Word :=
  let t := modeType m.mode
  let lane := e / nsub t
  let k := e % nsub t
  m.opa.getD 0 0 + BitVec.ofNat 64 (sub (m.opb.getD (32 * (k / 2) + lane) 0) (k % 2) .n32 * (width t / 8))

/-- Reads element e of a VGATH: the state with it written, none while an earlier access of the group to its bytes has not performed (R130),
or the trap that stops it there. -/
def State.gathElem (s : State) (gr : GRef) (b : Block) (grp : Group) (m : MemOp) (e : Nat) : Except Trap (Option State) :=
  let t := modeType m.mode
  let n := width t / 8
  let lane := e / nsub t
  let a := m.gathAddr e
  let x := spaceOf m.instr
  let q : Req := ⟨x, a, n, decide (a.toNat % n = 0), true, false, false, true, x == .gl || x == .sp⟩
  let put (s : State) (v : Nat) : State :=
    match loadDest m.instr with
    | [d] => s.modGroup gr fun g =>
      let old := g.rdV m.wb d lane
      g.wrV m.wb d lane (packSubs t ((List.range (nsub t)).map fun k => if k = e % nsub t then v else sub old k t))
    | _ => s
  if laneIn m.lanes lane then
    match s.check (s.memWho b grp gr.grp m) b (coreIdx gr.grp) q true with
    | .error tr => .error { tr with lane := lane }
    | .ok acc =>
      let met := s.relsAt acc.loc n
      if !grp.clearFor m.id acc.loc n then .ok none
      else .ok (some <| (put (s.request acc.loc (.read acc.loc.ofs n)) (s.num acc.loc n)).modGroup gr fun g => { g with reads := g.reads ++ met.filter fun r => !g.reads.contains r })
  else if laneIn m.help lane then
    match s.check (s.memWho b grp gr.grp m) b (coreIdx gr.grp) q false with
    | .error _ => .ok (some (put s 0))
    | .ok acc => if !grp.clearFor m.id acc.loc n then .ok none else .ok (some (put s (s.num acc.loc n)))
  else .ok (some s)

/-- Runs a VGATH from its progress index over at most n elements; the index it stands at, and a trap if one stopped it. DEDUCED: log entry 22. -/
def State.gathRun (s : State) (gr : GRef) (id : Nat) : Nat → State × Option Trap
  | 0 => (s, none)
  | n + 1 =>
    match s.block? gr.blk, s.group? gr with
    | some b, some g =>
      match g.memq.find? fun m => m.id == id with
      | none => (s, none)
      | some m =>
        let total := 32 * nsub (modeType m.mode)
        if total ≤ m.pix then
          (s.modGroup gr fun g =>
            { g with pix := 0, memq := g.memq.map fun x => if x.id = id then { x with accepted := true, todo := 0 } else x }, none)
        else
          match s.gathElem gr b g m m.pix with
          | .error t => (s.modGroup gr fun g => { g with pix := BitVec.ofNat 64 m.pix }, some t)
          | .ok none => (s, none)
          | .ok (some s) =>
            (s.modGroup gr fun g => { g with memq := g.memq.map fun x => if x.id = id then { x with pix := m.pix + 1 } else x }).gathRun gr id n
    | _, _ => (s, none)

/-! ## Acceptance in order -/

def isFarStore : Store → Bool
  | .far _ => true
  | _ => false

/-- The requests of an accepted instruction's accesses to other packages. -/
def State.requestAll (s : State) (m : MemOp) : State :=
  m.accs.foldl (fun s x => s.request x.2.1 (if isStore m.instr then .write x.2.1.ofs (s.storeBytes m x.1 x.2.1).1 else .read x.2.1.ofs m.size)) s

/-- Performs every accepted access of the group, in order. -/
def State.performAccepted (s : State) (gr : GRef) : State :=
  match s.group? gr with
  | none => s
  | some g => (g.memq.filter (·.accepted)).foldl (fun s m => s.performLanes gr m.id (-1)) s

/-- The implicit release of R249: at device scope, of the group's earlier accesses; its lines are unpinned in every slice. -/
def State.pinRelease (s : State) (gr : GRef) : State :=
  match s.group? gr with
  | none => s
  | some g => ((s.performAccepted gr).unpin g.agent).modGroup gr Group.release

/-- A CPA that has been accepted becomes a transfer of the copy engine, an agent of its own (R148, R307). -/
def State.startCpa (s : State) (gr : GRef) (b : Block) (g : Group) (m : MemOp) (tag : Nat) : State :=
  let agent := s.nextAgent
  let lanes := (lanesOf m.lanes).filterMap fun l =>
    match m.accs.find? fun x => x.1 == 100 + l with
    | none => none
    | some d =>
      let c := min 32 (m.opb.getD l 0).toNat
      let src := ((m.accs.filter fun x => x.1 == l).map (·.2.1)).zip ((pieces 0 c).map (·.2))
      some (l, src, d.2.1)
  let who := { s.memWho b g gr.grp m with agent := agent, time := 1, detail := detailWord 0 1 (b.place.getD 0) tag gr.grp b.ctx 0 }
  let met := lanes.flatMap fun x => x.2.1.flatMap fun y => s.relsAt y.1 y.2
  let s := { s with nextAgent := agent + 1 }
  let s := lanes.foldl (fun s x => s.claim who x.2.2 32) s
  s.modGroup gr fun g =>
    { g with memq := g.memq.filter (fun x => x.id != m.id), cpas := g.cpas ++ [⟨m.first, tag, agent, lanes.map fun x => (x.1, x.2.1.flatMap fun y => s.bytes y.1 y.2, x.2.2), m.lanes,
               m.clock, false, []⟩]
             reads := g.reads ++ met.filter fun x => !g.reads.contains x }

/-- Lines of watched pages that an accepted store would newly pin (R249). -/
def State.newPins (s : State) (agent : Nat) (m : MemOp) : List Nat :=
  if !isStore m.instr then []
  else
    ((m.accs.filter fun x => x.2.2.1 && x.2.1.store == .pkg).flatMap fun x =>
      (List.range ((x.2.1.ofs + m.size - 1) / 128 + 1 - x.2.1.ofs / 128)).map fun i => (x.2.1.ofs / 128 + i) * 128).dedup.filter
      fun l => !s.pins.contains (l, agent)

/-- Accepts the oldest instruction not yet accepted; of a VGATH, at most n elements are read. The trap, if it fails, with the instruction's
number. DEDUCED: log entries 34, 46. -/
def State.acceptNext (s : State) (gr : GRef) (n : Nat) : State × Option (Nat × Trap) :=
  match s.block? gr.blk, s.group? gr with
  | some b, some g =>
    match g.memq.find? fun m => !m.accepted with
    | none => (s, none)
    | some m =>
      match m.instr with
      | .vgath .. =>
        let r := s.gathRun gr m.id n
        (r.1, r.2.map fun t => (m.id, t))
      | .cpa _ _ _ tag =>
        -- its source reads follow the group's own earlier accesses (R130)
        let s := s.performAccepted gr
        let g := (s.group? gr).getD g
        match s.accept b g gr.grp m with
        | .error t => (s, some (m.id, t))
        | .ok m' => (s.startCpa gr b g m' tag.toNat, none)
      | _ =>
        match s.accept b g gr.grp m with
        | .error t => (s, some (m.id, t))
        | .ok m' =>
          if !m'.accepted then (s, none)
          else
          -- a store that would pin a line in a full slice first releases the group's own lines; it is not accepted while no pin is free
          let s := if s.pinRoom (s.newPins g.agent m') then s else s.pinRelease gr
          if s.pinRoom (s.newPins g.agent m') then
            let m' := { m' with got := s.holdings m' }
            let s := (s.claimStore (s.memWho b g gr.grp m) m').modGroup gr fun g => { g with memq := g.memq.map fun x => if x.id = m.id then m' else x }
            -- an access to another package performs as it is accepted, so that a failed link is found before it (R252)
            (if m'.accs.any fun x => isFarStore x.2.1.store then (s.requestAll m').performAccepted gr else s, none)
          else (s, none)
  | _, _ => (s, none)

/-- Accepts every instruction of the group, in order, until one fails (R393 step 1). A group holds at most eight (R276). -/
def State.acceptAll (s : State) (gr : GRef) : Nat → State × Option (Nat × Trap)
  | 0 => (s, none)
  | n + 1 =>
    match s.acceptNext gr 257 with
    | (s, some x) => (s, some x)
    | (s, none) =>
      match s.group? gr with
      | some g => if g.memq.all (·.accepted) then (s, none) else s.acceptAll gr n
      | none => (s, none)

end Sys2Proof.Machine
end

