-- ==== Sys2Proof/Machine/Operands.lean ====
section
/-! DEFINITION. Source and destination operands: registers, latches, immediates, specials, uniform operands and other lanes' elements
(R36-R46, R95-R98, R110, R111, R125), with the ILLOP and LATCH conditions that depend on the mode and on the latches. -/

namespace Sys2Proof.Machine

open Sys2Proof

/-- An instruction at issue: the group and slot that issue it, with what the group and its block held before it. -/
structure Iss where
  s : State
  gr : GRef
  slotB : Bool
  word : Word32
  b : Block
  g : Group
deriving DecidableEq, Repr

def Iss.sl (i : Iss) : Slot := i.g.slot i.slotB

/-- The MODE in force: that of a preceding MODEX, or the register (R49). -/
def Iss.mode (i : Iss) : BitVec 14 :=
  match i.sl.modex with
  | some m => m.1
  | none => i.g.mode

def Iss.ty (i : Iss) : ElemType := modeType i.mode
def Iss.rnd (i : Iss) : Rnd := modeRnd i.mode
def Iss.sat (i : Iss) : Bool := modeSat i.mode

/-- The active lanes: the slot's mask. -/
def Iss.active (i : Iss) : Lanes := i.sl.mask

/-- The lanes that satisfy Guard, helper lanes among them. -/
def Iss.guard (i : Iss) : Lanes := guardLanes i.mode i.g.p i.active

/-- Guarded-in lanes whose flags and terms count (R80, R217). DEDUCED: log entry 9. -/
def Iss.counted (i : Iss) : Lanes := i.guard &&& ~~~ i.g.helper

def Iss.helpers (i : Iss) : Lanes := i.guard &&& i.g.helper

def Iss.pc (i : Iss) : Word := i.sl.pc

/-- The PC a trap of this instruction reports: that of a MODEX before it (R26, R57). -/
def Iss.reported (i : Iss) : Word :=
  match i.sl.modex with
  | some m => m.2
  | none => i.sl.pc

/-- The word of the MODEX before the instruction, if there is one. -/
def Iss.modexWord (i : Iss) : Option Word32 := i.sl.modex.map fun m => BitVec.ofNat 32 (0xF1000000 + m.1.toNat)

/-- The cluster the block is placed on. -/
def Iss.cluster (i : Iss) : Nat := i.b.place.getD 0

def Iss.who (i : Iss) : Who := i.s.groupWho i.b i.g i.gr.grp

/-- Every active lane is a helper lane (R218). -/
def Iss.onlyHelpers (i : Iss) : Bool := i.active &&& ~~~ i.g.helper == 0

/-- A trap with no address and no lane. DEDUCED: log entry 8. -/
def plainTrap (c : Cause) (n : Nat) : Trap := ⟨c, n, 0, 0, 0⟩

def illopTrap (n : Nat) : Trap := plainTrap .illop n
def latchTrap (n : Nat) : Trap := plainTrap .latch n

/-! ## Constants and counts -/

/-- An exact constant in T, none when T cannot hold it (R38). DEDUCED: log entry 6. -/
def constElem (t : ElemType) (v : Val) : Option Nat :=
  match v with
  | .fin neg m e _ =>
    if isInt t then
      if e < 0 then none
      else
        let x := scaled neg m e 0
        let y := if isUnsigned t && decide (x < 0) then x + 2 ^ width t else x
        if intMin t ≤ y ∧ y ≤ intMax t then some (wrapInt t y) else none
    else
      let r := roundTo t .rne false v
      if r.2 = 0 then some r.1 else none
  | _ => none

def halfVal : Val := .fin false 1 (-1) false

/-- The exact value of an immediate or a constant special. -/
def constOf : Src → Option Val
  | .imm v => some (Val.ofInt v.toInt)
  | .spec .zero => some (Val.ofInt 0)
  | .spec .one => some (Val.ofInt 1)
  | .spec .negone => some (Val.ofInt (-1))
  | .spec .half => some halfVal
  | _ => none

/-- A count-valued special (R40). -/
def isCount : Src → Bool
  | .spec c => match c with
    | .lane | .nlane | .subix | .gidx | .bx | .byy | .bz | .tx | .ty | .tz | .cyclo => true
    | _ => false
  | _ => false

/-- A count in T with its flags (R40). -/
def countElem (t : ElemType) (rnd : Rnd) (sat : Bool) (n : Nat) : Nat × Flags :=
  if isInt t then (n % 2 ^ width t, 0) else roundTo t rnd sat (Val.ofInt n)

/-- Thread number of a lane and its coordinates (R215). -/
def threadOf (grp lane : Nat) : Nat := 32 * grp + lane

/-- The count that a special has in a lane and sub-element (R39). -/
def Iss.count (i : Iss) (c : Special) (lane k : Nat) : Nat :=
  match c with
  | .lane => lane
  | .nlane => popcount i.g.launched
  | .subix => k
  | .gidx => i.gr.grp
  | .bx => i.b.bx
  | .byy => i.b.byy
  | .bz => i.b.bz
  | .tx => threadOf i.gr.grp lane % i.b.tx
  | .ty => threadOf i.gr.grp lane / i.b.tx % i.b.ty
  | .tz => threadOf i.gr.grp lane / (i.b.tx * i.b.ty)
  | .cyclo => i.s.cycle % 2 ^ 32
  | _ => 0

/-- A special whose value differs between lanes or sub-elements (R39). -/
def isLaneVarying : Special → Bool
  | .lane | .subix | .tx | .ty | .tz | .drn => true
  | _ => false

/-! ## Checks that come before any effect -/

/-- ILLOP 11: a constant that T does not hold, or a count in dya8 (R38, R40). DEDUCED: log entry 6. -/
def constBad (t : ElemType) (a : Src) : Bool :=
  match constOf a with
  | some v => (constElem t v).isNone
  | none => isCount a && t == .dya8

/-- The LATCH trap of reading a source, if any (R45, R46, R402). `scalar`: the source must be of S kind. DEDUCED: log entry 10. -/
def Iss.latchBad (i : Iss) (scalar : Bool) (a : Src) : Option Trap :=
  match a with
  | .latch n =>
    if i.sl.lost then some (latchTrap 3)
    else if i.sl.k ≤ n.toNat then some (latchTrap 1)
    else if scalar && (match i.g.latches.getD n.toNat .empty with | .vec _ => true | _ => false) then some (latchTrap 2)
    else none
  | _ => none

/-- The first trap of a list: of two latch operands that fail, A's. DEDUCED: log entry 66. -/
def firstTrap (ts : List (Option Trap)) : Except Trap Unit :=
  match ts.findSome? id with
  | some t => .error t
  | none => .ok ()

/-- A vector-family instruction's checks: TYPE (R50), constants (R38), then latches (R45). -/
def Iss.checkVec (i : Iss) (ok : ElemType → Bool) (srcs : List Src) : Except Trap Unit :=
  if !ok i.ty then .error (illopTrap 10)
  else if srcs.any (constBad i.ty) then .error (illopTrap 11)
  else firstTrap (srcs.map (i.latchBad false))

/-- A scalar or uniform operand's checks, read as T. -/
def Iss.checkSca (i : Iss) (t : ElemType) (srcs : List Src) : Except Trap Unit :=
  if srcs.any (constBad t) then .error (illopTrap 11)
  else firstTrap (srcs.map (i.latchBad true))

/-! ## Reading -/

/-- The same element in every sub-element of a lane. -/
def splat (t : ElemType) (x : Nat) : Word := packSubs t (List.replicate (nsub t) x)

/-- A vector source in a lane (R36-R40, R46); a drain row stands in `row`. -/
def Iss.vec (i : Iss) (t : ElemType) (row : Nat → Word) (a : Src) (lane : Nat) : Word :=
  match a with
  | .reg r => i.g.rdV i.sl.wb r.toNat lane
  | .latch n =>
    match i.g.latches.getD n.toNat .empty with
    | .vec v => v.getD lane 0
    | .sca x => x
    | .empty => 0
  | .imm v => splat t ((constElem t (Val.ofInt v.toInt)).getD 0)
  | .spec .drn => row lane
  | .spec c =>
    match constOf (.spec c) with
    | some v => splat t ((constElem t v).getD 0)
    | none => packSubs t ((List.range (nsub t)).map fun k => (countElem t i.rnd i.sat (i.count c lane k)).1)

/-- The B operand of a row that permits the broadcast (R42, R98). -/
def Iss.vecB (i : Iss) (t : ElemType) (row : Nat → Word) (b : SrcB) (lane : Nat) : Word :=
  match b with
  | .src a => i.vec t row a lane
  | .bcast r => i.g.rdS i.sl.wb r.toNat

def srcsB : SrcB → List Src
  | .src a => [a]
  | .bcast _ => []

/-- The flags that converting a count-valued special sets (R40): per counted lane where it varies, once where it does not. -/
def Iss.countFlags (i : Iss) (t : ElemType) (a : Src) : Flags :=
  match a with
  | .spec c =>
    if !isCount a then 0
    else if isLaneVarying c then
      (lanesOf i.counted).foldl (fun f l =>
        (List.range (nsub t)).foldl (fun f k => f ||| (countElem t i.rnd i.sat (i.count c l k)).2) f) 0
    else if i.counted = 0 then 0
    else (countElem t i.rnd i.sat (i.count c 0 0)).2
  | _ => 0

/-- A scalar source or uniform operand read as T (R37, R111, R118, R125). -/
def Iss.sca (i : Iss) (t : ElemType) (a : Src) : Word :=
  match a with
  | .reg r => i.g.rdS i.sl.wb r.toNat
  | .latch n =>
    match i.g.latches.getD n.toNat .empty with
    | .sca x => x
    | _ => 0
  | .imm v => extendElem t ((constElem t (Val.ofInt v.toInt)).getD 0)
  | .spec c =>
    match constOf (.spec c) with
    | some v => extendElem t ((constElem t v).getD 0)
    | none => extendElem t (countElem t i.rnd i.sat (i.count c 0 0)).1

/-- A uniform operand read as i64. -/
def Iss.uni (i : Iss) (a : Src) : Word := i.sca .i64 a

/-- Element (lane, k) of a vector source as a cross-lane instruction reads it (R110): 0 for lanes that have exited or never launched,
also where the source is no register. DEDUCED: log entry 66. -/
def Iss.cross (i : Iss) (t : ElemType) (f : Nat → Word) (lane k : Nat) : Nat :=
  if laneIn i.g.live lane && decide (k < nsub t) then sub (f lane) k t else 0

/-! ## Latches and destinations -/

/-- The register a destination field names. -/
def dstRegs : Dst → List Nat
  | .reg r => [r.toNat]
  | .none => []

/-- A result enters L0 (R44). -/
def Group.enterLatch (g : Group) (slotB : Bool) (l : Latch) : Group :=
  let g := { g with latches := (l :: g.latches).take 4 }
  g.modSlot slotB fun x => { x with k := min 4 (x.k + 1) }

/-- What D held in a lane before the instruction; zero-like where N = 1 (R97): -0 for a floating T, 0x77 for dya8, else 0. -/
def zeroD (t : ElemType) : Word :=
  if isFloat t then splat t (2 ^ (width t - 1)) else if t = .dya8 then splat .dya8 0x77 else 0

def Iss.old (i : Iss) (d : Dst) (lane : Nat) : Word :=
  match d with
  | .reg r => i.g.rdV i.sl.wb r.toNat lane
  | .none => zeroD i.ty

/-- The group with V[D] written in the lanes of w. -/
def Iss.wroteV (i : Iss) (d : Dst) (w : Lanes) (f : Nat → Word) : Group :=
  match d with
  | .reg r => i.g.wrVec i.sl.wb r.toNat w f
  | .none => i.g

/-- A vector result: the destination takes f in the lanes of w, and L0 takes the destination as it then stands (R44, R96). -/
def Iss.putV (i : Iss) (d : Dst) (w : Lanes) (f : Nat → Word) (fl : Flags) : Group :=
  let g := i.wroteV d w f
  let l := (List.range 32).map fun lane =>
    match d with
    | .reg r => g.rdV i.sl.wb r.toNat lane
    | .none => if laneIn w lane then f lane else 0
  { g.enterLatch i.slotB (.vec l) with flags := g.flags ||| fl }

/-- A scalar result of arithmetic class. -/
def Iss.putS (i : Iss) (d : Dst) (x : Word) (fl : Flags) : Group :=
  let g := match d with
    | .reg r => i.g.wrS i.sl.wb r.toNat x
    | .none => i.g
  { g.enterLatch i.slotB (.sca x) with flags := g.flags ||| fl }

/-- A scalar destination outside the arithmetic class. -/
def Group.putReg (g : Group) (wb : Nat) (d : Dst) (x : Word) : Group :=
  match d with
  | .reg r => g.wrS wb r.toNat x
  | .none => g

/-- What an S destination held, 0 where N = 1 (R118). -/
def Iss.oldS (i : Iss) (d : Dst) : Word :=
  match d with
  | .reg r => i.g.rdS i.sl.wb r.toNat
  | .none => 0

end Sys2Proof.Machine
end

