-- ==== Sys2Proof/Machine/Atomic.lean ====
section
/-! DEFINITION. Atomics (R136, R137) and the arming of a synchronisation word (R150, R151): every lane checked, then every lane performed
in ascending order, as the group's own access. -/

namespace Sys2Proof.Machine

open Sys2Proof

/-- The new value of an integer atomic (R136). -/
def atomNew (op : AtomOp) (t : ElemType) (old b cmp : Nat) : Nat :=
  match op with
  | .add => (old + b) % 2 ^ width t
  | .min => if intOf t b < intOf t old then b else old
  | .max => if intOf t old < intOf t b then b else old
  | .and => old &&& b
  | .or => old ||| b
  | .xor => old ^^^ b
  | .xchg => b
  | .cas => if old = cmp then b else old

/-- The new value of a floating atomic with its flags (R137). -/
def atomfNew (op : AmmOp) (t : ElemType) (rnd : Rnd) (old b : Nat) : Nat × Flags :=
  let x := decodeElem t old
  let y := decodeElem t b
  match op with
  | .add => finish t rnd false (addVal rnd x y)
  | .min => finish t rnd false (extremeVal false x y)
  | .max => finish t rnd false (extremeVal true x y)

/-- The scope of an atomic: device for ATOM and ATOMF; for ATOMS block, or span for a span-peer address (R131, R136). SYNCW has block scope everywhere
(DESIGN CHOICE, log entry 69). -/
def atomScope (i : Instr) (b : Block) (a : Word) : Scope :=
  match i with
  | .atoms .. => if bit a.toNat 24 && bits a.toNat 21 3 != b.spanIdx then .span else .block
  | .syncw .. => .block
  | _ => .device

def atomDest : Instr → Dst
  | .atom d .. | .atoms d .. | .atomf d .. => d
  | _ => .none

/-- What lane l of an atomic asks for. -/
def MemOp.atomReq (m : MemOp) (l : Nat) : Req :=
  match m.instr with
  | .syncw .. => ⟨.sp, m.opa.getD 0 0, 16, decide ((m.opa.getD 0 0).toNat % 16 = 0), true, true, false, false, true⟩
  | .atoms .. =>
    let n := width (modeType m.mode) / 8
    ⟨.sp, m.opa.getD l 0, n, decide ((m.opa.getD l 0).toNat % n = 0), true, true, false, false, true⟩
  | _ =>
    let n := width (modeType m.mode) / 8
    ⟨.gl, m.opa.getD l 0, n, decide ((m.opa.getD l 0).toNat % n = 0), true, true, false, true, true⟩

/-- One lane's read-modify-write at its place: the state, and the old value. -/
def State.atomLane (s : State) (gr : GRef) (b : Block) (grp : Group) (m : MemOp) (l : Nat) (a : Acc) : State :=
  let sc := atomScope m.instr b (m.opa.getD l 0)
  let who := { s.memWho b grp gr.grp m with atomic := some sc, pub := (sc, grp.known) :: grp.fences }
  let met := s.relsAt a.loc (m.atomReq l).n
  let t := modeType m.mode
  let old := s.num a.loc (width t / 8)
  match m.instr with
  | .syncw .. =>
    -- neither acquire nor release (R131)
    s.perform { who with pub := grp.fences } a (leBytes 8 (bits (m.opa.getD 1 0).toNat 0 32))
  | i =>
    let r : Nat × Flags := match i with
      | .atomf _ _ _ op => atomfNew op t (modeRnd m.mode) old (sub (m.opb.getD l 0) 0 t)
      | .atom _ _ _ op | .atoms _ _ _ op => (atomNew op t old (sub (m.opb.getD l 0) 0 t) (sub (m.opb.getD (32 + l) 0) 0 t), 0)
      | _ => (old, 0)
    let s := s.request a.loc (match i with
      | .atomf _ _ _ op => .atomf a.loc.ofs t op (m.opb.getD l 0)
      | .atom _ _ _ op | .atoms _ _ _ op => .atom a.loc.ofs t op (m.opb.getD l 0) (m.opb.getD (32 + l) 0)
      | _ => .read a.loc.ofs (width t / 8))
    let s := s.perform who a (leBytes (width t / 8) r.1)
    s.modGroup gr fun g =>
      let g := { g.acquireRels b.pos sc met with
        reads := g.reads ++ met.filter fun x => !g.reads.contains x
        flags := g.flags ||| r.2 }
      match atomDest i with
      | .reg d => g.wrV m.wb d.toNat l (extendElem t old)
      | .none => g

/-- A whole atomic instruction: checked in every lane (R128), then performed lane by lane; helper lanes make no access and read 0 (R217).
It is one release of the group, SYNCW apart (R131; DEDUCED, log entry 18). -/
def State.atomAll (s : State) (gr : GRef) (b : Block) (grp : Group) (m : MemOp) : Except Trap State := do
  let accs ← (lanesOf m.lanes).foldlM (fun acc l =>
    let q := m.atomReq l
    let who := { s.memWho b grp gr.grp m with atomic := some (atomScope m.instr b q.addr) }
    match s.check who b (coreIdx gr.grp) q true with
    | .ok a => Except.ok (acc ++ [(l, a)])
    | .error t => .error { t with lane := l }) []
  let s := accs.foldl (fun s x => s.atomLane gr b grp m x.1 x.2) s
  let s := (lanesOf m.help).foldl (fun s l =>
    s.modGroup gr fun g => match atomDest m.instr with
      | .reg d => g.wrV m.wb d.toNat l 0
      | .none => g) s
  let classed := match m.instr with | .syncw .. => false | _ => true
  .ok (if accs.isEmpty || !classed then s else s.modGroup gr Group.release)

end Sys2Proof.Machine
end

