-- ==== Sys2Proof/Machine/Flags.lean ====
section
/-! DEFINITION. FLAGS and FLAGEN as the group's sticky state, and the flag check that BAR, SBAR, FLAGCHK and EXIT make first (R52, R80-R82). -/

namespace Sys2Proof.Machine

open Sys2Proof

/-- Flags enter FLAGS by OR (R80). -/
def Group.orFlags (g : Group) (f : Flags) : Group := { g with flags := g.flags ||| f }

/-- The FLAG trap of R82, if an enabled flag is set; its sub-code is FLAGS and FLAGEN. -/
def Group.flagTrap (g : Group) : Option Trap :=
  let f := g.flags &&& g.flagen
  if f = 0 then none else some (plainTrap .flag f.toNat)

/-- FLAGS that a per-lane computation sets: those of guarded-in lanes that are not helper lanes (R80, R217). -/
def Iss.laneFlags (i : Iss) (f : Nat → Flags) : Flags :=
  (lanesOf i.counted).foldl (fun a l => a ||| f l) 0

end Sys2Proof.Machine
end

