-- ==== Sys2Proof/Machine/Ops.lean ====
section
/-! DEFINITION. The shared operations of the machine: ranges of the group's own memory, register windows (R219-R223), the divergence stack
and tokens (R155-R161), taking a trap (R393-R397, R428), returning from one (R398), and how an instruction ends. -/

namespace Sys2Proof.Machine

open Sys2Proof

/-! ## The group's own loads and stores of many bytes: pushes, spills, frames -/

/-- Cuts n bytes from an address into pieces that do not cross a 4 KiB page. -/
def pageCuts (a : Word) : Nat → Nat → List (Word × Nat × Nat)
  | 0, _ => []
  | _, 0 => []
  | fuel + 1, n =>
    let room := 4096 - a.toNat % 4096
    let k := min room n
    (a, 0, k) :: (pageCuts (a + BitVec.ofNat 64 k) fuel (n - k)).map fun x => (x.1, x.2.1 + k, x.2.2)

def rangeReq (a : Word) (n : Nat) (w : Bool) : Req := ⟨.gl, a, n, true, !w, w, false, true, true⟩

/-- Stores bytes at a global address as stores of the group; the trap reports `rep`. -/
def State.storeRange (s : State) (gr : GRef) (a : Word) (vs : List Byte) (rep : Word) : Except Trap State :=
  match s.block? gr.blk, s.group? gr with
  | some b, some g => do
    let who := s.groupWho b g gr.grp
    let accs ← (pageCuts a (vs.length / 4096 + 2) vs.length).foldlM (fun acc c =>
      match s.check who b (coreIdx gr.grp) (rangeReq c.1 c.2.2 true) true with
      | .ok x => Except.ok (acc ++ [(x, c.2.1, c.2.2)])
      | .error t => .error { t with addr := rep }) []
    .ok (accs.foldl (fun s x =>
      let bs := (vs.drop x.2.1).take x.2.2
      (s.request x.1.loc (.write x.1.loc.ofs bs)).perform who x.1 bs) s)
  | _, _ => .ok s

/-- Loads bytes at a global address as loads of the group. -/
def State.loadRange (s : State) (gr : GRef) (a : Word) (n : Nat) (rep : Word) : Except Trap (List Byte) :=
  match s.block? gr.blk, s.group? gr with
  | some b, some g =>
    let who := s.groupWho b g gr.grp
    (pageCuts a (n / 4096 + 2) n).foldlM (fun acc c =>
      match s.check who b (coreIdx gr.grp) (rangeReq c.1 c.2.2 false) true with
      | .ok x => Except.ok (acc ++ s.bytes x.loc c.2.2)
      | .error t => .error { t with addr := rep }) []
  | _, _ => .ok (List.replicate n 0)

/-- The requests of such loads to other packages (R252, R369). -/
def State.askRange (s : State) (gr : GRef) (a : Word) (n : Nat) : State :=
  match s.block? gr.blk, s.group? gr with
  | some b, some g =>
    (pageCuts a (n / 4096 + 2) n).foldl (fun t c =>
      match s.check (s.groupWho b g gr.grp) b (coreIdx gr.grp) (rangeReq c.1 c.2.2 false) true with
      | .ok x => t.request x.loc (.read x.loc.ofs c.2.2)
      | .error _ => t) s
  | _, _ => s

/-! ## Register windows -/

/-- The indices that may be resident (R219). -/
def Group.span (g : Group) : Nat := min g.av 256

/-- Window bases of the slots that are not free. -/
def Group.bases (g : Group) : List Nat :=
  (if g.slotA.isFree then [] else [g.slotA.wb]) ++ (if g.slotB.isFree then [] else [g.slotB.wb])

def listMax (l : List Nat) : Nat := l.foldl max 0
def listMin (l : List Nat) (d : Nat) : Nat := l.foldl min (l.headD d)

/-- The 2,112 bytes of logical unit u (R221). -/
def Group.unitBytes (g : Group) (u : Nat) : List Byte :=
  ((List.range 8).flatMap fun r => (List.range 32).flatMap fun l => leBytes 8 (g.rdV 0 (8 * u + r) l).toNat) ++
    (List.range 8).flatMap fun r => leBytes 8 (g.rdS 0 (8 * u + r)).toNat

/-- Loads a unit's registers from its bytes. -/
def Group.setUnit (g : Group) (u : Nat) (bs : List Byte) : Group :=
  let w (o : Nat) : Word := BitVec.ofNat 64 (leNat ((bs.drop o).take 8))
  let g := (List.range 8).foldl (fun g r => (List.range 32).foldl (fun g l => g.wrV 0 (8 * u + r) l (w (256 * r + 8 * l))) g) g
  (List.range 8).foldl (fun g r => g.wrS 0 (8 * u + r) (w (2048 + 8 * r))) g

def Group.unitAddr (g : Group) (u : Nat) : Word := g.spillBase + BitVec.ofNat 64 (2112 * u)

/-- Spills one unit; STKOVF 1 beyond the spill area (R221, R223). -/
def State.spillUnit (s : State) (gr : GRef) (u : Nat) : Except Trap State :=
  match s.group? gr with
  | none => .ok s
  | some g =>
    if g.spillSize < 2112 * (u + 1) then .error (plainTrap .stkovf 1)
    else s.storeRange gr (g.unitAddr u) (g.unitBytes u) (g.unitAddr u)

/-- Refills one unit. -/
def State.refillUnit (s : State) (gr : GRef) (u : Nat) : Except Trap State :=
  match s.group? gr with
  | none => .ok s
  | some g =>
    match s.loadRange gr (g.unitAddr u) 2112 (g.unitAddr u) with
    | .error t => .error t
    | .ok bs => .ok ((s.askRange gr (g.unitAddr u) 2112).modGroup gr fun g => g.setUnit u bs)

/-- Slides the window of a slot up by n registers, spilling the oldest units (R220). DEDUCED: log entry 25. -/
def State.slide (s : State) (gr : GRef) (slotB : Bool) (n : Nat) : Except Trap State :=
  match s.group? gr with
  | none => .ok s
  | some g =>
    let g' := g.modSlot slotB fun x => { x with wb := x.wb + n }
    let other := g.slot (!slotB)
    let top := listMax g'.bases + 64
    let lo' := max g.lo (top - g.span)
    if !other.isFree && decide (other.wb < lo') then .error (plainTrap .stkovf 2)
    else do
      let s ← (List.range (lo' / 8 - g.lo / 8)).foldlM (fun s i => s.spillUnit gr (g.lo / 8 + i)) s
      .ok (s.modGroup gr fun g => { g.modSlot slotB (fun x => { x with wb := x.wb + n }) with lo := lo', hi := top })

/-- The cycle at which a refill that begins now is over (R224, R318). -/
def State.refillEnd (s : State) : Nat := s.cycle + 1 + Config.refill s.tick

/-- Makes every busy slot's window resident after a return, a pop or a join; indices above the windows are dropped (R222). DEDUCED: log entry 25.
One window placed further above LO than A reaches takes STKOVF 2, as two windows do (R223; DEDUCED, log entry 69). -/
def State.fitWindows (s : State) (gr : GRef) : Except Trap State :=
  match s.group? gr with
  | none => .ok s
  | some g =>
    if g.bases.isEmpty then .ok s
    else
      let need := listMin g.bases 0
      let top := listMax g.bases + 64
      let lo' := min g.lo need
      if g.span < top - lo' then .error (plainTrap .stkovf 2)
      else do
        let n := g.lo / 8 - lo' / 8
        let s ← (List.range n).foldlM (fun s i => s.refillUnit gr (g.lo / 8 - 1 - i)) s
        let late (x : Slot) : Slot := if !x.isFree && decide (x.wb < g.lo) then { x with notBefore := s.refillEnd } else x
        .ok (s.modGroup gr fun g => { g with lo := lo', hi := top, slotA := late g.slotA, slotB := late g.slotB })

/-! ## The divergence stack -/

/-- A path as a slot that has just started it: no latch, no MODEX (R45). -/
def pathSlot (mask : Lanes) (pc : Word) (wb : Nat) : Slot := ⟨pc, mask, wb, 0, 0, false, false, false, none, none, none⟩

def stackEntry (mask : Lanes) (pc : Word) (tok wb : Nat) : List Byte :=
  leBytes 8 pc.toNat ++ leBytes 4 mask.toNat ++ leBytes 4 (tok % 16 * 16 + wb / 8 * 256)

/-- Push (R156): STKOVF 3 below the stack area. The core's copy keeps the two youngest entries (R318). DEDUCED: log entries 15, 64. -/
def State.push (s : State) (gr : GRef) (mask : Lanes) (pc : Word) (tok wb : Nat) : Except Trap State :=
  match s.group? gr with
  | none => .ok s
  | some g =>
    let a := g.dstkp - 16
    if g.dstkp.toNat < g.stkBase.toNat + 16 then .error { plainTrap .stkovf 3 with addr := a }
    else do
      let s ← s.storeRange gr a (stackEntry mask pc tok wb) a
      .ok (s.modGroup gr fun g => { g with dstkp := a, stackCopy := (stackEntry mask pc tok wb :: g.stackCopy).take 2 })

/-- The top of the stack: that of the stack area, or the frame of the running handler (DEDUCED, log entry 15). -/
def Group.stackTop (g : Group) : Word :=
  match g.traps with
  | h :: _ => h.frame
  | [] => g.stkBase + BitVec.ofNat 64 g.stkSize

def Group.stackEmpty (g : Group) : Bool := decide (g.stackTop.toNat ≤ g.dstkp.toNat)

/-- Pop into a slot (R156): from the core's copy if it holds the entry, else by a load that the slot waits for (R318). The two low bits of
the entry's PC, to which the spec gives no fate, are cleared (DESIGN CHOICE, log entry 64). DEDUCED: log entry 15. -/
def State.pop (s : State) (gr : GRef) (slotB : Bool) : Except Trap State :=
  match s.group? gr with
  | none => .ok s
  | some g => do
    let bs ← match g.stackCopy with
      | e :: _ => .ok e
      | [] => s.loadRange gr g.dstkp 16 g.dstkp
    let pc := BitVec.ofNat 64 (leNat (bs.take 8))
    let mask := BitVec.ofNat 32 (leNat ((bs.drop 8).take 4))
    let hi := leNat (bs.drop 12)
    .ok ((if g.stackCopy.isEmpty then s.askRange gr g.dstkp 16 else s).modGroup gr fun g =>
      let x := pathSlot (mask &&& g.live) (pc &&& ~~~ 3) (hi / 256 * 8)
      let x := if g.stackCopy.isEmpty then { x with notBefore := s.refillEnd } else x
      { g.setSlot slotB x with dstkp := g.dstkp + 16, stackCopy := g.stackCopy.tail })

/-- Place (R155). -/
def State.place (s : State) (gr : GRef) (mask : Lanes) (pc : Word) (wb tok : Nat) : Except Trap State :=
  match s.group? gr with
  | none => .ok s
  | some g =>
    if g.slotA.isFree then (s.modGroup gr fun g => { g with slotA := pathSlot mask pc wb }).fitWindows gr
    else if g.slotB.isFree then (s.modGroup gr fun g => { g with slotB := pathSlot mask pc wb }).fitWindows gr
    else s.push gr mask pc tok wb

def Group.token (g : Group) (t : Nat) : Token := g.tokens.getD t Token.idle

def Group.setToken (g : Group) (t : Nat) (x : Token) : Group := { g with tokens := setAt g.tokens t x }

/-- Complete (R155). -/
def State.complete (s : State) (gr : GRef) (t : Nat) : Except Trap State :=
  match s.group? gr with
  | none => .ok s
  | some g =>
    let k := g.token t
    let live := k.exp &&& ~~~ g.exited
    let s := s.modGroup gr fun g => g.setToken t { k with exp := 0, arr := 0 }
    if live = 0 then .ok s else s.place gr live (k.jpc + 4) k.jwb t

/-- Whether the arrived set of a token covers its expected set (R159, R160). -/
def Group.covered (g : Group) (t : Nat) : Bool :=
  let k := g.token t
  k.exp &&& ~~~ g.exited &&& ~~~ k.arr == 0

/-- Refill: pops into free slots while the stack has entries (R155). -/
def State.refill (s : State) (gr : GRef) : Nat → Except Trap State
  | 0 => .ok s
  | n + 1 =>
    match s.group? gr with
    | none => .ok s
    | some g =>
      if g.stackEmpty then .ok s
      else if g.slotA.isFree then do
        let s ← s.pop gr false
        let s ← s.fitWindows gr
        s.refill gr n
      else if g.slotB.isFree then do
        let s ← s.pop gr true
        let s ← s.fitWindows gr
        s.refill gr n
      else .ok s

/-- Enough pops to empty any stack. -/
def Group.popFuel (g : Group) : Nat := (g.stackTop.toNat - g.dstkp.toNat) / 16 + 2

/-- Refill, then the rule for unmatched joins: with both slots free and the stack empty the lowest token that holds lanes completes
(R161). -/
def State.settle (s : State) (gr : GRef) : Nat → Except Trap State
  | 0 => .ok s
  | n + 1 => do
    let s ← s.refill gr ((s.group? gr).map Group.popFuel |>.getD 0)
    match s.group? gr with
    | none => .ok s
    | some g =>
      if g.slotA.isFree && g.slotB.isFree then
        match (List.range 16).find? fun t => (g.token t).arr != 0 with
        | none => .ok s
        | some t =>
          let s := s.modGroup gr fun g => g.setToken t { g.token t with exp := (g.token t).arr }
          let s ← s.complete gr t
          s.settle gr n
      else .ok s

/-! ## Cores -/

def State.core (s : State) (id : Nat) : Core := (s.cores.find? fun c => c.id == id).getD ⟨id, none, none, false, false, 0⟩

def State.modCore (s : State) (id : Nat) (f : Core → Core) : State :=
  { s with cores := f (s.core id) :: s.cores.filter fun c => c.id != id }

def State.setCore (s : State) (id : Nat) (cur : Option (GRef × Bool)) : State :=
  s.modCore id fun c => { c with cur := cur, turn := false }

/-- A core issues from a slot of a group; the copy of the stack that it kept for another group is discarded (R318). -/
def State.issueCore (s : State) (id : Nat) (gr : GRef) (slotB : Bool) : State :=
  let s := match (s.core id).last with
    | some o => if o = gr then s else s.modGroup o fun g => { g with stackCopy := [] }
    | none => s
  s.modCore id fun c => { c with cur := some (gr, slotB), last := some gr, turn := false, fresh := false, issued := s.cycle }

/-- The core of a group. -/
def State.coreIdOf (s : State) (gr : GRef) : Nat :=
  match s.block? gr.blk with
  | some b => coreOf (b.place.getD 0) gr.grp
  | none => 0

/-- A switch point: the core chooses afresh, and the group's wait starts now (R225). -/
def State.switchPoint (s : State) (gr : GRef) : State :=
  (s.setCore (s.coreIdOf gr) none).modGroup gr fun g => { g with since := s.cycle }

/-! ## Taking a trap -/

/-- A queue entry of a trap frame (R395). -/
structure QEnt where
  word : Word32
  efl : Nat
  pre : Word32
  epc : Word
  lanes : Lanes
  pix : Nat
  opa : List Word
  opb : List Word
deriving DecidableEq, Repr

def MemOp.entry (m : MemOp) : QEnt where
  word := m.word
  efl := (if m.pre.isSome then 2 else 0) + (if m.slotB then 8 else 0)
  pre := m.pre.getD 0
  epc := m.epc
  lanes := m.guard
  pix := match m.instr with | .vgath .. => m.pix | _ => 0
  opa := m.opa
  opb := m.opb

/-- The queue entry of one group's part of an engine operation (R177, R396). -/
def Part.entry (p : Part) : QEnt where
  word := p.word
  efl := 4 + (if p.pre.isSome then 2 else 0) + (if p.slotB then 8 else 0)
  pre := p.pre.getD 0
  epc := p.epc
  lanes := p.lanes
  pix := p.pix
  opa := p.opa
  opb := []

def wordBytes (n : Nat) (l : List Word) : List Byte := (List.range n).flatMap fun i => leBytes 8 (l.getD i 0).toNat

def QEnt.bytes (e : QEnt) : List Byte :=
  leBytes 4 e.word.toNat ++ leBytes 4 e.efl ++ leBytes 4 e.pre.toNat ++ leBytes 4 0 ++ leBytes 8 e.epc.toNat ++
    leBytes 4 e.lanes.toNat ++ leBytes 4 0 ++ leBytes 8 e.pix ++ leBytes 24 0 ++ wordBytes 32 e.opa ++ wordBytes 128 e.opb

/-- An ATOMO among the entries (R138, R396). -/
def QEnt.isAtomo (e : QEnt) : Bool := fOp e.word == 0x8F && !bit e.efl 2

def QEnt.empty : QEnt := ⟨0, 0, 0, 0, 0, 0, [], []⟩

/-- A slot that waits in a BAR or SBAR at which the group has arrived (R428). -/
def Slot.resumes (x : Slot) : Bool :=
  x.resume || match x.wait with
    | some (.bar ..) | some (.span ..) => true
    | _ => false

/-- A slot as a trap or a save finds it: the PC of a MODEX pair goes back to the MODEX word, and a wait is left (R26, R428). -/
def Slot.halt (x : Slot) : Slot :=
  { x with pc := (match x.modex with | some m => m.2 | none => x.pc), modex := none, wait := none, resume := x.resumes, answer := none,
           stalled := false }

def frameSize : Nat := 11008

def causeWord (t : Trap) (eng slotB : Bool) : Word :=
  BitVec.ofNat 64 ((if eng then 2 ^ 38 else 0) + (if slotB then 2 ^ 37 else 0) + t.lane % 32 * 2 ^ 32 + t.sub % 2 ^ 24 * 2 ^ 8 + t.cause.code)

/-- The frame's 256-byte header and its eight entries (R395), of a group whose slots are halted. -/
def frameBytes (g : Group) (cause addr tpc detail : Word) (q : List QEnt) : List Byte :=
  leBytes 8 g.slotA.pc.toNat ++ leBytes 8 g.slotB.pc.toNat ++ leBytes 4 g.slotA.mask.toNat ++ leBytes 4 g.slotB.mask.toNat ++
    leBytes 4 g.slotA.wb ++ leBytes 4 g.slotB.wb ++ leBytes 8 g.mode.toNat ++ leBytes 8 g.flags.toNat ++ leBytes 8 g.flagen.toNat ++
    leBytes 8 cause.toNat ++ leBytes 8 addr.toNat ++ leBytes 8 tpc.toNat ++ leBytes 8 detail.toNat ++
    leBytes 1 (min 8 q.length) ++ leBytes 1 (g.traps.length + 1) ++
    leBytes 1 ((if g.slotA.resume then 1 else 0) + (if g.slotB.resume then 2 else 0)) ++ leBytes 5 0 ++
    leBytes 8 g.pix.toNat ++ wordBytes 5 g.ivec ++ leBytes 112 0 ++
    (List.range 8).flatMap fun e => (q.getD e QEnt.empty).bytes

/-- The slot that takes a trap: the issuer's, or the other if that one is empty (R393 step 3). -/
def Group.trapSlot (g : Group) (slotB : Bool) : Option Bool :=
  if !(g.slot slotB).isFree then some slotB else if !(g.slot (!slotB)).isFree then some (!slotB) else none

def isPlaneSync : Instr → Bool
  | .plred .. | .plexc .. | .plflg .. => true
  | _ => false

/-- Takes back a plane-synchronising read that waits, since the trap in its place has no effect (R198, R327): the latest number of t2 is free
again, and its group's latest is the one before it. While a read waits no later t2 operation issues. DEDUCED: log entry 36. -/
def Block.dropSync (b : Block) (o : EngOp) : Block :=
  if (b.tls.getD 2 ⟨0, 0, []⟩).issued = o.num then
    { b with ops := b.ops.filter fun x => !(x.tl == 2 && x.num == o.num), tls := modAt b.tls 2 fun t => { t with issued := o.num - 1 } }.modGroup o.grp fun g =>
      { g with mine := setAt g.mine 2 (o.data.headD 0).toNat, plseq := o.data.headD 0 }
  else b.modOp 2 o.num fun _ => { o with state := .done }

/-- The plane-synchronising reads of a group that still wait are taken back, the latest first. -/
def Block.dropSyncs (b : Block) (grp : Nat) : Block :=
  (b.ops.filter fun o => isPlaneSync o.instr && o.grp == grp && o.state == .running).foldr (fun o b => b.dropSync o) b

/-- The delivery of a pending PLX clears it (R198). -/
def Block.deliver (b : Block) (t : Trap) : Block :=
  if t.cause = .plx ∧ t.sub = 1 then { b with planeSt := b.planeSt.map fun p => { p with plx := none } } else b

/-- What is kept of the memory instructions that a frame holds. -/
def keptOf (q : List MemOp) : Kept := ⟨none, q.map fun m => (m.first, m.seg)⟩

/-- What is kept of the entries after the first. -/
def Kept.next (k : Kept) : Kept := { k with mems := k.mems.tail }

/-- Trap entry (R393): the frame is stored, the window slides by 16, the mode becomes 0x1F, and the slot continues at HVEC; or the block is
aborted (R399). The two low bits of HVEC, to which the spec gives no fate, are cleared (DESIGN CHOICE, log entry 64). `slotB` issued the reported
instruction, `tpc` is its PC, `q` are the queue entries (R396), and `kept` is what the device keeps of them. -/
def State.takeTrap (s : State) (gr : GRef) (slotB : Bool) (tpc : Word) (t : Trap) (kept : Kept) (q : List QEnt) : State :=
  match s.block? gr.blk, s.group? gr with
  | some b, some g =>
    let hvec := match s.ctx? b.ctx with | some c => c.hvec | none => 0
    match g.trapSlot slotB with
    | none => s.abortBlock b.id t.cause.code gr.grp tpc
    | some sb =>
      if b.handler.isSome || decide (4 ≤ g.traps.length) || hvec == 0 || decide (g.dstkp.toNat < g.stkBase.toNat + frameSize) then
        s.abortBlock b.id t.cause.code gr.grp tpc
      else
        -- the slide finds no load under way (DEDUCED, log entry 25)
        let s := (s.performAccepted gr).modBlock gr.blk fun b => (b.dropSyncs gr.grp).deliver t
        let g := (s.group? gr).getD g
        let g := { g with slotA := g.slotA.halt, slotB := g.slotB.halt }
        let cause := causeWord t kept.op.isSome sb
        let frame := g.dstkp - BitVec.ofNat 64 frameSize
        let s1 := (s.setGroup gr g).storeRange gr frame (frameBytes g cause t.addr tpc t.detail q) frame
        match s1 with
        | .error _ => s.abortBlock b.id t.cause.code gr.grp tpc
        | .ok s1 =>
          match (s1.modGroup gr fun g => { g with dstkp := frame }).slide gr sb 16 with
          | .error _ => s.abortBlock b.id t.cause.code gr.grp tpc
          | .ok s2 =>
            let s3 := s2.modGroup gr fun g =>
              let g := (g.modSlot false fun x => { x with k := 0, lost := false, resume := false }).modSlot true fun x =>
                { x with k := 0, lost := false, resume := false }
              { (g.modSlot sb fun x => { x with pc := hvec &&& ~~~ 3 }) with
                mode := 0x1F, flags := 0, flagen := 0, stackCopy := []
                traps := ⟨sb, g.tokens, frame, (q.filter QEnt.isAtomo).length, kept⟩ :: g.traps, tokens := List.replicate 16 Token.idle
                trapcause := cause, trapaddr := t.addr, trappc := tpc
                stopped := g.stopped.map fun x => { x with depth := min x.depth g.traps.length }
                resetA := s.cycle, resetB := s.cycle }
            let c := s3.coreIdOf gr
            match (s3.core c).cur with
            | some (x, _) => if x = gr then s3.setCore c (some (gr, sb)) else s3
            | none => s3
  | _, _ => s

/-- A trap entry whose stores would pin a line in a full slice waits: t is the state after it, and the group releases instead (R249). -/
def State.ifPinned (s : State) (gr : GRef) (t : State) : State := if t.overPinned then s.pinRelease gr else t

/-- A memory trap: the oldest failing instruction and every younger one become the queue; their counts go back (R396). -/
def State.memoryTrap (s : State) (gr : GRef) (id : Nat) (t : Trap) : State :=
  match s.group? gr with
  | none => s
  | some g =>
    match g.memq.find? fun m => m.id == id with
    | none => s
    | some m =>
      let q := g.memq.filter fun x => decide (id ≤ x.id)
      let loads := (q.filter fun x => isLoad x.instr).length
      let tagc := q.foldl (fun c x => match x.instr with | .cpa _ _ _ tag => modAt c tag.toNat (· - 1) | _ => c) g.tagc
      let tpc := if m.pre.isSome then m.epc - 4 else m.epc
      (s.modGroup gr fun g =>
        { g with memq := g.memq.filter fun x => decide (x.id < id), ldcnt := g.ldcnt - loads, tagc := tagc }).takeTrap gr m.slotB tpc t (keptOf q)
          (q.map MemOp.entry)

/-- A trap that an instruction raises at its issue. The memory instructions before it are accepted first; one that fails is reported in
its place (R391, R393 step 1, R397). `past`: the resume point is the next word (R164, R396); `q`: the memory instructions of the queue. DEDUCED: log
entry 60. -/
def State.raise (s : State) (gr : GRef) (slotB past : Bool) (tpc : Word) (t : Trap) (q : List MemOp) : State :=
  match s.acceptAll gr 9 with
  | (s, some x) => s.ifPinned gr (s.memoryTrap gr x.1 x.2)
  | (s, none) =>
    -- an instruction that still waits for a pin (R249) holds the trap back: the instruction issues again
    if !(((s.group? gr).map fun g => g.memq.all (·.accepted)).getD true) then s
    else
    let s1 := if past then s.modGroup gr fun g => g.modSlot slotB fun x => { x with pc := x.pc + 4, modex := none } else s
    s.ifPinned gr (s1.takeTrap gr slotB tpc t (keptOf q) (q.map MemOp.entry))

/-! ## Returning from a trap (R398) -/

/-- A memory instruction enters the group's queue; loads count in LDCNT, CPAs in TAGC (R129, R148). -/
def State.enqueue (s : State) (gr : GRef) (m : MemOp) : State :=
  s.modGroup gr fun g =>
    { g with
      memq := g.memq ++ [{ m with id := g.nextMem }], nextMem := g.nextMem + 1
      ldcnt := if isLoad m.instr then g.ldcnt + 1 else g.ldcnt
      tagc := match m.instr with | .cpa _ _ _ tag => modAt g.tagc tag.toNat (· + 1) | _ => g.tagc }

/-- What a frame holds, as numbers. -/
structure FrameData where
  bs : List Byte
deriving DecidableEq, Repr

def FrameData.num (f : FrameData) (o n : Nat) : Nat := leNat ((f.bs.drop o).take n)

/-- Entry e of a frame. -/
def FrameData.entry (f : FrameData) (e : Nat) : QEnt :=
  let o := 256 + 1344 * e
  let words (o n : Nat) : List Word := (List.range n).map fun i => BitVec.ofNat 64 (f.num (o + 8 * i) 8)
  ⟨BitVec.ofNat 32 (f.num o 4), f.num (o + 4) 4, BitVec.ofNat 32 (f.num (o + 8) 4), BitVec.ofNat 64 (f.num (o + 16) 8),
    BitVec.ofNat 32 (f.num (o + 24) 4), f.num (o + 32) 8, words (o + 64) 32, words (o + 320) 128⟩

/-- The legality of a whole MODE value (R48). -/
def modeValueOk (m : Nat) : Bool := decide (m < 2 ^ 14) && modeLegal (BitVec.ofNat 14 m)

/-- The reserved fields of a frame are zero (R395, R398). -/
def FrameData.reservedOk (f : FrameData) : Bool :=
  f.num 91 5 == 0 && f.num 144 112 == 0 && decide (f.num 90 1 < 4) && decide (f.num 88 1 ≤ 8) && decide (f.num 40 8 < 128) && decide (f.num 48 8 < 128) &&
    decide (f.num 56 8 < 2 ^ 39) && (List.range 8).all fun e =>
      let o := 256 + 1344 * e
      decide (f.num (o + 4) 4 < 16) && f.num (o + 12) 4 == 0 && f.num (o + 28) 4 == 0 && f.num (o + 40) 24 == 0

/-- The checks of R398 step 2. -/
def FrameData.check (f : FrameData) (live : Lanes) : Except Trap Unit :=
  let pa := BitVec.ofNat 64 (f.num 0 8)
  let pb := BitVec.ofNat 64 (f.num 8 8)
  if !f.reservedOk then .error (illopTrap 5)
  else if !modeValueOk (f.num 32 8) then .error (illopTrap 8)
  else if pa.toNat % 4 ≠ 0 ∧ BitVec.ofNat 32 (f.num 16 4) &&& live ≠ 0 then .error { plainTrap .align 2 with addr := pa }
  else if pb.toNat % 4 ≠ 0 ∧ BitVec.ofNat 32 (f.num 20 4) &&& live ≠ 0 then .error { plainTrap .align 2 with addr := pb }
  else .ok ()

/-- The group as the frame restores it (R398 steps 3 and 4). -/
def Group.restoreFrame (g : Group) (f : FrameData) (h : TrapHold) (rest : List TrapHold) (cycle : Nat) : Group :=
  let slot (o om ow rb : Nat) : Slot :=
    { pathSlot (BitVec.ofNat 32 (f.num om 4) &&& g.live) (BitVec.ofNat 64 (f.num o 8) &&& ~~~ 3) (f.num ow 4) with resume := bit (f.num 90 1) rb }
  { g with
    stackCopy := []
    slotA := slot 0 16 24 0, slotB := slot 8 20 28 1
    mode := BitVec.ofNat 14 (f.num 32 8), flags := BitVec.ofNat 7 (f.num 40 8), flagen := BitVec.ofNat 7 (f.num 48 8)
    pix := BitVec.ofNat 64 (f.num 96 8), ivec := (List.range 5).map fun i => BitVec.ofNat 64 (f.num (104 + 8 * i) 8)
    tokens := h.tokens, traps := rest, dstkp := g.dstkp + BitVec.ofNat 64 frameSize
    lastB := !bit (f.num 56 8) 37, resetA := cycle, resetB := cycle }

/-- A queue entry as a memory instruction again: its operands are those of the entry (R398 step 5). An ATOMO takes its place in the group's
sequence at its re-issue (DEDUCED, log entry 69). -/
def QEnt.memOp (e : QEnt) (g : Group) (instr : Instr) (first seg : Nat) : MemOp :=
  let slotB := bit e.efl 3
  let lanes := match instr with
    | .sld .. | .sst .. | .syncw .. => 1
    | _ => e.lanes &&& ~~~ g.helper
  let help := match instr with
    | .sld .. | .sst .. | .syncw .. => 0
    | _ => e.lanes &&& g.helper
  { id := 0, first := first, instr := instr, word := e.word, epc := e.epc, slotB := slotB
    pre := if bit e.efl 1 then some e.pre else none
    mode := if bit e.efl 1 then BitVec.ofNat 14 e.pre.toNat else g.mode
    lanes := lanes, help := help, guard := e.lanes
    pix := (match instr with | .vgath .. => e.pix | _ => g.atomoSeq)
    opa := e.opa, opb := (match instr with | .samp .. | .sampg .. => e.opb.take 64 | _ => e.opb)
    wb := (g.slot slotB).wb, accepted := false, accs := [], got := [], met := [], seg := seg, todo := lanes ||| help
    clock := (match instr with | .cpa .. => g.known | _ => g.clock), epoch := g.epoch }

/-- Two parts of one operation that may work together: the same word, operand values and progress point (R182, R305). -/
def Part.agrees (p q : Part) : Bool := q.word == p.word && q.opa == p.opa && q.pix == p.pix && q.ivec == p.ivec

/-- The timeline of an engine instruction whose parts stand in replay queues: the matrix engine's and the plane's (R176, R177). -/
def engineTl (w : Word32) : Nat :=
  let op := (fOp w).toNat
  if 0xB0 ≤ op ∧ op < 0xB8 then 1
  else if 0xC0 ≤ op ∧ op < 0xDD ∧ op ≠ 0xD4 ∧ op ≠ 0xD5 ∧ op ≠ 0xD9 then 2 else 4

/-- The instruction of a part: that of its word, which a handler may have edited (R305, R398); an edited word that names no operation of
the timeline changes nothing. DEDUCED: log entry 32. -/
def Part.instr (p : Part) (o : EngOp) : Instr :=
  match decode p.word with
  | .ok i => if engineTl p.word = o.tl then i else o.instr
  | .error _ => o.instr

/-- The parts meet once every member has issued (R182) or has been re-injected (R305): they work together from there, or all stop with
GANG 6. -/
def Block.meet (b : Block) (o : EngOp) : Block :=
  match o.parts with
  | [] => b
  | p :: ps =>
    if ps.all p.agrees then
      b.modOp o.tl o.num fun _ => { o with state := .queued, opa := p.opa, pix := p.pix, ivec := p.ivec }
    else (b.modOp o.tl o.num fun _ => o).stopOp o (plainTrap .gang 6)

/-- A member that has not issued its part never will: its lanes have all exited (R182, R231). DEDUCED: log entry 35. -/
def Block.memberGone (b : Block) (o : EngOp) : Bool :=
  o.members.any fun m => !o.arrived.contains m && (match b.groups[m]? with | some g => g.live == 0 | none => true)

/-- A stopped operation takes a part back from a replay queue, at the PIX and the iteration vector that stand at the RFT (R304); once
every part is back the operation meets again, or waits for a member that has not yet issued (R305). DEDUCED: log entry 32. -/
def Block.takeBack (b : Block) (o : EngOp) (grp : Nat) (e : QEnt) (pix : Nat) (ivec : List Nat) : Block :=
  let o1 := { o with parts := o.parts.map fun (p : Part) =>
    if p.grp = grp then
      { p with back := true, word := e.word, opa := if fOp e.word = fOp p.word then e.opa.take p.opa.length else e.opa, pix := pix, ivec := ivec }
    else p }
  if !o1.parts.all (·.back) then b.modOp o.tl o.num fun _ => o1
  else if o1.complete then b.meet { o1 with instr := ((o1.parts.head?).map (·.instr o)).getD o.instr }
  else if b.memberGone o1 then (b.modOp o.tl o.num fun _ => o1).stopOp o1 (plainTrap .gang 8)
  else b.modOp o.tl o.num fun _ => { o1 with state := .queued }

/-- An entry that software has marked SKIP: the group's part is gone, and the operation performs nothing for it; with no part left it has
completed (R398; DEDUCED, log entry 27). -/
def Block.dropPart (b : Block) (o : EngOp) (grp : Nat) : Block :=
  let ps := o.parts.filter fun p => p.grp != grp
  b.modOp o.tl o.num fun x => { x with parts := ps, state := if ps.isEmpty then .done else x.state }

def isAtomic : Instr → Bool
  | .atom .. | .atoms .. | .atomf .. | .syncw .. => true
  | _ => false

/-- Whether an instruction goes through the queue of R276. -/
def isQueued (i : Instr) : Bool := isLoad i || isStore i || match i with | .cpa .. => true | _ => false

/-- Re-issues one entry (R398 step 5), and the trap it raises. An engine operation is the one that the frame was formed for (R177). A word that
software has edited into another than a memory instruction's performs nothing (DEDUCED, log entry 27). -/
def State.reissue (s : State) (gr : GRef) (k : Kept) (e : QEnt) : State × Option Trap :=
  match s.block? gr.blk, s.group? gr with
  | some b, some g =>
    if bit e.efl 2 then
      match (k.op.bind fun x => b.op? x.1 x.2).filter fun o => o.isStopped && o.parts.any fun p => p.grp == gr.grp && !p.back with
      | none => (s, none)
      | some o =>
        if bit e.efl 0 then (s.modBlock gr.blk fun b => b.dropPart o gr.grp, none)
        else (s.modBlock gr.blk fun b => b.takeBack o gr.grp e g.pix.toNat (g.ivec.map (·.toNat)), none)
    else if bit e.efl 0 then (s, none)
    else
      match decode e.word with
      | .error x => (s, some (illopTrap x.code))
      | .ok instr =>
        let h := k.mems.headD (g.nextMem, s.segment g b.ctx)
        let m := e.memOp g instr h.1 h.2
        if isQueued instr then
          ((s.enqueue gr m).modGroup gr fun g => match instr with | .atomo .. => { g with atomoSeq := g.atomoSeq + 1 } | _ => g, none)
        else if isAtomic instr then
          match s.atomAll gr b g m with
          | .ok s => (s, none)
          | .error t => (s, some t)
        else (s, none)
  | _, _ => (s, none)

/-- Re-issues the entries in order; one that fails traps afresh, with the entries after it still in the queue. -/
def State.reissueAll (s : State) (gr : GRef) : Kept → List QEnt → State
  | _, [] => s
  | k, e :: es =>
    match s.reissue gr k e with
    | (s, none) => s.reissueAll gr k.next es
    | (s, some t) => s.takeTrap gr (bit e.efl 3) (if bit e.efl 1 then e.epc - 4 else e.epc) t { k with op := none } (e :: es)

/-- Whether entries of a frame can be issued again now: at most eight instructions not accepted, 64 loads, 255 CPAs of a tag (R129, R148,
R276). -/
def Group.hasRoom (g : Group) (es : List QEnt) : Bool :=
  let is := es.filterMap fun e => if bit e.efl 0 || bit e.efl 2 then none else (decode e.word).toOption
  let tags := is.filterMap fun i => match i with | .cpa _ _ _ tag => some tag.toNat | _ => none
  decide ((g.memq.filter fun x => !x.accepted).length + (is.filter isQueued).length ≤ 8) && decide (g.ldcnt + (is.filter isLoad).length ≤ 64) &&
    tags.all fun t => decide (g.tagc.getD t 0 + (tags.filter (· == t)).length ≤ 255)

/-- The entries of a frame that NREP counts. -/
def FrameData.entries (f : FrameData) : List QEnt := (List.range (f.num 88 1)).map f.entry

/-- RFT in a handler (R398): the whole return, or the trap it raises; none while its entries find no room. -/
def State.returnFromTrap (s : State) (gr : GRef) (g : Group) (h : TrapHold) (rest : List TrapHold) : Except Trap (Option State) := do
  let bs ← s.loadRange gr g.dstkp frameSize g.dstkp
  let f : FrameData := ⟨bs⟩
  f.check g.live
  if !g.hasRoom f.entries then return none
  let s := s.modGroup gr fun g => g.restoreFrame f h rest s.cycle
  let s ← s.fitWindows gr
  let t := (s.reissueAll gr h.kept f.entries).askRange gr g.dstkp frameSize
  return if t.overPinned then none else some t

/-! ## How an instruction ends -/

/-- What a meaning answers: done (the PC moves on), jumped (the PC is set), not done yet (a wait or a stall), or a trap. `sw`: the
instruction is of the switch-point class (R45). -/
inductive Res where
  | done (s : State) (sw : Bool)
  | jump (s : State) (sw : Bool)
  /-- The last lanes have left the slot: the group's next slot is chosen afresh (R317). -/
  | left (s : State)
  | stay (s : State) (sw : Bool)
  | trap (t : Trap)
  /-- A trap that leaves what the instruction has done before it: EXIT's acquisition, a delivered PLX (R163, R198). -/
  | trapIn (s : State) (t : Trap)
  /-- The state as it stands, the group included: RFT. -/
  | whole (s : State)
  /-- A trap that resumes at the next word; R164. -/
  | trapPast (t : Trap)
  /-- A precise trap of an instruction that is its own queue entry: an atomic or SYNCW (R396). -/
  | trapOwn (t : Trap) (m : MemOp)

/-- The slot after an instruction that ends at the next word. -/
def Slot.advance (x : Slot) (sw : Bool) : Slot :=
  { x with pc := x.pc + 4, modex := none, wait := none, resume := false, answer := none, stalled := false,
           k := if sw then 0 else x.k, lost := x.lost && !sw }

/-- The slot after a transfer of control. -/
def Slot.goto (x : Slot) (pc : Word) (sw : Bool) : Slot := { x.advance sw with pc := pc }

/-- The latch reset of a switch point in a slot (R45). -/
def Slot.resetLatch (x : Slot) : Slot := { x with k := 0, lost := false, stalled := false }

def Group.noteReset (g : Group) (slotB : Bool) (cycle : Nat) : Group :=
  if slotB then { g with resetB := cycle } else { g with resetA := cycle }

/-- A stall that is no switch point begins or goes on. -/
def Group.stand (g : Group) (slotB : Bool) : Group := { g.modSlot slotB fun x => { x with stalled := true } with lastB := slotB }

/-- The instruction's end, applied to the group that issued it. -/
def Group.ended (g : Group) (slotB sw : Bool) (cycle : Nat) : Group :=
  let g := g.modSlot slotB fun x => x.advance sw
  let g := if sw then g.noteReset slotB cycle else g
  { g with lastB := slotB }

def Iss.conclude (i : Iss) (r : Res) : State :=
  match r with
  | .done s sw =>
    let s := s.modGroup i.gr fun g => g.ended i.slotB sw i.s.cycle
    if sw then s.switchPoint i.gr else s
  | .jump s sw =>
    let s := s.modGroup i.gr fun g => { g with lastB := i.slotB }
    if sw then s.switchPoint i.gr else s
  | .left s => (s.modGroup i.gr fun g => { g with lastB := i.slotB }).modCore (i.s.coreIdOf i.gr) fun c => { c with turn := true }
  | .stay s sw =>
    if sw then
      (s.modGroup i.gr fun g => { (g.modSlot i.slotB Slot.resetLatch).noteReset i.slotB i.s.cycle with lastB := i.slotB }).switchPoint i.gr
    else s.modGroup i.gr fun g => g.stand i.slotB
  | .trap t => i.s.raise i.gr i.slotB false i.reported t []
  | .trapIn s t => s.raise i.gr i.slotB false i.reported t []
  | .whole s => s
  -- after a MODEX the pair is taken again (R26)
  | .trapPast t => i.s.raise i.gr i.slotB i.sl.modex.isNone i.reported t []
  | .trapOwn t m => (i.s.modGroup i.gr fun g => { g with nextMem := g.nextMem + 1 }).raise i.gr i.slotB true i.reported t [m]

/-- The instruction at issue, when a group's slot is marked as its issuer. DESIGN CHOICE: log entry 4. -/
def State.issue? (s : State) : Option Iss :=
  match s.cur with
  | none => none
  | some c =>
    match s.block? c.g.blk, s.group? c.g with
    | some b, some g => some ⟨s, c.g, c.slotB, c.word, b, g⟩
    | _, _ => none

/-- Runs a meaning for the issuer in hand. -/
def State.run (s : State) (f : Iss → Res) : Host.Outcome State Fault Refusal :=
  match s.issue? with
  | none => .fault .noIssuer
  | some i => .next (i.conclude (f i))

/-- A result that changes only the issuing group. -/
def Iss.group (i : Iss) (g : Group) : Res := .done (i.s.setGroup i.gr g) false

/-- A check, then a result. -/
def orTrap (e : Except Trap Unit) (r : Unit → Res) : Res :=
  match e with
  | .error t => .trap t
  | .ok _ => r ()

def resOf (e : Except Trap Res) : Res :=
  match e with
  | .error t => .trap t
  | .ok r => r

/-- A stall that is not a switch point: nothing happens, and the instruction issues again (R224, R227). DEDUCED: log entry 19. -/
def Iss.stall (i : Iss) : Res := .stay i.s false

/-- A wait in a switch-point instruction (R224). -/
def Iss.wait (i : Iss) (w : Wait) (s : State) : Res :=
  .stay (s.modGroup i.gr fun g => g.modSlot i.slotB fun x => { x with wait := some w }) true

/-- Whether an instruction that has led to s moved entries of the divergence stack or units of the spill area by loads and stores. -/
def Iss.touched (i : Iss) (s : State) : Bool :=
  match s.group? i.gr with
  | some g => g.lo != i.g.lo || decide (g.dstkp.toNat < i.g.dstkp.toNat) || decide (i.g.dstkp.toNat + 16 * i.g.stackCopy.length < g.dstkp.toNat)
  | none => false

/-- A register under an incomplete load holds back an instruction that would write it (R129). -/
def Group.destBusy (g : Group) (wb : Nat) (vs ss : List Nat) : Bool :=
  g.memq.any fun m =>
    isLoad m.instr &&
    (((loadDest m.instr).any fun d => vs.any fun v => (m.wb + d) % g.av == (wb + v) % g.av) ||
     (match loadDestS m.instr with
      | some d => ss.any fun v => (m.wb + d) % 256 == (wb + v) % 256
      | none => false))

/-- No load of the group is still to write a register: a slide of the window waits for it (DEDUCED, log entry 25). -/
def Group.bound (g : Group) : Bool := g.memq.all fun m => !isLoad m.instr || m.todo == 0

/-- Every earlier access of the group has performed: what a release waits for (DEDUCED, log entry 19). -/
def Group.quiet (g : Group) : Bool := g.memq.all fun m => m.accepted && m.todo == 0

/-- A store of the instruction's own would pin a line in a full slice: the group releases, and the instruction issues again (R249). -/
def Iss.pinStall (i : Iss) : Res := .stay (i.s.pinRelease i.gr) false

/-- The loads and stores of an instruction's own pushes, pops and refills follow the group's earlier accesses (R130, R156, R262): while one
has not performed, the instruction stalls (DEDUCED: log entry 19); and its pushes and spills find room for their pins. -/
def Iss.ordered (i : Iss) (s : State) (r : Res) : Res :=
  if !i.touched s then r else if !i.g.quiet then i.stall else if s.overPinned then i.pinStall else r

end Sys2Proof.Machine
end

