-- ==== Sys2Proof/Machine/Drain.lean ====
section
/-! DEFINITION. Drain rows: what %drn reads (R41, R188). An MDRN operation counts the rows it has given in its progress index. -/

namespace Sys2Proof.Machine

open Sys2Proof

def isMdrn : Instr → Bool
  | .mdrn .. => true
  | _ => false

/-- Rows an MDRN exposes: two for each CB row (R188). -/
def EngOp.drainRows (o : EngOp) : Nat := 2 * (o.opa.getD 1 0).toNat

/-- The MDRN operations of a core that have rows left, in issue order. -/
def Block.drainsOf (b : Block) (core : Nat) : List EngOp :=
  b.ops.filter fun o => isMdrn o.instr && o.grp % 6 == core && decide (o.pix < o.drainRows) && !o.isDone

/-- The place of CB(r, c) of a core: 512 rows of 128 columns of 4 bytes (R183, R188). -/
def cbLoc (blk core r c : Nat) : Loc := ⟨.cb blk, core * 2 ^ 19 + 512 * r + 4 * c⟩

/-- Lane l of drain row n of an operation. -/
def State.drainLane (s : State) (blk core : Nat) (o : EngOp) (n l : Nat) : Word :=
  let row := (o.opa.getD 0 0).toNat + n / 2
  let col := 64 * (n % 2) + 2 * l
  BitVec.ofNat 64 (s.num (cbLoc blk core row col) 4 + 2 ^ 32 * s.num (cbLoc blk core row (col + 1)) 4)

/-- What a read of %drn finds: no row left, a row not ready, or a row with the block after it. -/
inductive RowRead where
  | none
  | notReady
  | row (f : List Word) (b : Block)

def Iss.readRow (i : Iss) : RowRead :=
  match i.b.drainsOf (i.gr.grp % 6) with
  | [] => .none
  | o :: _ =>
    if o.state = .running then
      let f := (List.range 32).map fun l => i.s.drainLane i.b.id (i.gr.grp % 6) o o.pix l
      let o' := { o with pix := o.pix + 1, state := if o.pix + 1 = o.drainRows then .done else .running, rel := clockSet o.clock o.agent 1 }
      .row f { i.b with ops := i.b.ops.map fun x => if x.tl = o.tl ∧ x.num = o.num then o' else x }
    else .notReady

end Sys2Proof.Machine
end

