-- ==== Sys2Proof/Machine/Engine.lean ====
section
/-! DEFINITION. Engine operations of a block: their issue, their agents, their acquisition and their completion (R81, R167, R176, R177,
R258, R271). -/

namespace Sys2Proof.Machine

open Sys2Proof

/-! ## The operation as an agent -/

/-- KIND of an operation's agent (R269): copies, matrix, plane, Virga by timeline. -/
def engKind (tl : Nat) : Nat := match tl with | 0 => 1 | 1 => 2 | 2 => 3 | _ => 4

/-- Two Virga commands name a range in common: the ranges that each has noted at its issue (R273, R386). -/
def EngOp.touches (o : EngOp) (q : EngOp) : Bool :=
  let rs (x : EngOp) : List (Nat × Nat) := (List.range (x.data.length / 2)).map fun j => ((x.data.getD (2 * j) 0).toNat, (x.data.getD (2 * j + 1) 0).toNat)
  (rs o).any fun x => (rs q).any fun y => decide (x.1 < y.1 + y.2) && decide (y.1 < x.1 + x.2)

/-- Two operations of one timeline of a block that work on the same CB, the same plane or the same Virga ranges: they perform in number order
and never race with one another (R176, R273). DEDUCED: log entry 33. -/
def EngOp.kin (o q : EngOp) : Bool :=
  q.tl == o.tl && q.num != o.num &&
  match o.tl with
  | 1 => o.members.any fun m => q.members.any fun n => m % 6 == n % 6
  | 2 => true
  | 3 => o.touches q
  | _ => false

/-- An operation's knowledge for its race checks: what it has acquired, and its kin. DEDUCED: log entry 33. -/
def Block.kinClock (b : Block) (o : EngOp) (c : Clock) : Clock := (b.ops.filter o.kin).foldl (fun c q => clockSet c q.agent 1) c

/-- An operation as the agent of an access (R253). Its TLB is that of its cluster's engines. -/
def EngOp.who (o : EngOp) (b : Block) : Who where
  ctx := b.ctx
  tlb := 768 + b.place.getD 0
  agent := o.agent
  time := 1
  clock := b.kinClock o o.clock
  pos := b.pos
  detail := detailWord o.num (engKind o.tl) (if o.tl = 3 then 0 else b.place.getD 0) 0 0 b.ctx 0
  atomic := none
  oadd := false
  pub := []
  seg := o.seg

/-- A write of an operation. A granule that a later operation of its kin has claimed keeps that claim, the co-latest write (R271). DEDUCED: log entry 33. -/
def State.performOp (s : State) (b : Block) (o : EngOp) (who : Who) (a : Acc) (vs : List Byte) : State :=
  let later := (b.ops.filter fun q => o.kin q && decide (o.num < q.num)).map (·.agent)
  let kept := if a.watch && !later.isEmpty then s.writers.filter fun x => touchesGranule a.loc vs.length x.1 && later.contains x.2.agent else []
  kept.foldl (fun s x => s.setWriter x.1 x.2) (s.perform who a vs)

/-- An engine's access to CB that races with a write of another agent: MMX with the granule's address in the core's CB (R177, R234, R268). DEDUCED: log entry 33. -/
def State.cbRace (s : State) (who : Who) (l : Loc) (n : Nat) (write : Bool) : Option Trap :=
  (s.raceAt? who l n write).map fun x => ⟨.mmx, if write then 1 else 2, BitVec.ofNat 64 (x.1.ofs % 2 ^ 19), 0, x.2.detail⟩

/-- What the operation releases when it completes. -/
def EngOp.release (o : EngOp) : Clock := clockSet o.clock o.agent 1

/-! ## Issue -/

/-- The part of the issuing group. -/
def Iss.part (i : Iss) (opa regs : List Word) (gone : Lanes) : Part where
  grp := i.gr.grp
  word := i.word
  epc := i.pc
  slotB := i.slotB
  pre := i.modexWord
  lanes := i.guard
  mask := i.g.gang
  opa := opa
  regs := regs
  gone := gone
  pix := 0
  ivec := [0, 0, 0, 0, 0]
  back := true
  units := []

/-- A fresh operation of one group or of a gang, as the first part issues; it takes the next number of its timeline. -/
def Iss.newOp (i : Iss) (instr : Instr) (tl : Nat) (members : List Nat) (index : Nat) (opa data regs : List Word) (gone : Lanes) : EngOp where
  tl := tl
  num := (i.b.tls.getD tl ⟨0, 0, []⟩).issued + 1
  instr := instr
  mode := i.mode
  grp := i.gr.grp
  members := members
  index := index
  parts := [i.part opa regs gone]
  begun := false
  acquired := []
  state := .queued
  pix := 0
  ivec := [0, 0, 0, 0, 0]
  flags := 0
  opa := opa
  data := data
  agent := i.s.nextAgent
  clock := i.g.known
  rel := []
  seg := i.s.segment i.g i.b.ctx

/-- The block with an operation added to its timeline. -/
def Block.addOp (b : Block) (o : EngOp) : Block :=
  { b with ops := b.ops ++ [o], tls := modAt b.tls o.tl fun t => { t with issued := o.num } }

/-- The issuing group after it has issued operation n of a timeline: its issue is a release (R176). -/
def Group.issuedOp (g : Group) (tl num : Nat) : Group := { g.release with mine := setAt g.mine tl num }

/-- Issues an operation of the executing group alone. -/
def Iss.issueOp (i : Iss) (instr : Instr) (tl : Nat) (opa data : List Word) : EngOp × State :=
  let o := i.newOp instr tl [i.gr.grp] 0 opa data [] 0
  let s := { i.s with nextAgent := i.s.nextAgent + 1 }
  (o, s.modBlock i.gr.blk fun b => (b.addOp o).modGroup i.gr.grp fun g => g.issuedOp tl o.num)

/-! ## Acquisition (R81) -/

/-- The operations that a group acquires and has not acquired before; its own bring their flags. -/
def EngOp.owes (o : EngOp) (grp : Nat) : Bool := o.arrived.contains grp && !o.acquired.contains grp

/-- A group acquires the completed operations that `sel` picks. -/
def Block.acquire (b : Block) (grp : Nat) (sel : EngOp → Bool) : Block :=
  let os := b.ops.filter fun o => o.isDone && sel o
  let c := os.foldl (fun c o => clockJoin c o.rel) []
  let f := os.foldl (fun f o => if o.owes grp then f ||| o.flags else f) (0 : Flags)
  let b := { b with ops := b.ops.map fun (o : EngOp) => if o.isDone && sel o && !o.acquired.contains grp then { o with acquired := grp :: o.acquired } else o }
  b.modGroup grp fun g => { g.acquire c with flags := g.flags ||| f }

/-! ## Completion -/

/-- The operation's work is done. -/
def State.workedOp (s : State) (blk : Nat) (o : EngOp) : State := s.modOp blk o.tl o.num fun x => { x with state := .worked }

/-- Members that have issued a part and find another member gone: the operation can never be complete (R182). DEDUCED: log entry 35. -/
def Block.gangLost (b : Block) (grp : Nat) : Block :=
  (b.ops.filter fun o => o.tl == 1 && o.members.contains grp && !o.arrived.contains grp && o.state == .queued).foldl (fun b o => b.stopOp o (plainTrap .gang 8)) b

/-! ## A loop over records of an engine: reading them as its own accesses -/

/-- A read of n bytes by an engine at a global or SP address. -/
def State.engRead (s : State) (who : Who) (b : Block) (sp : Bool) (a : Word) (n align : Nat) : Except Trap (List Byte) :=
  match s.check who b none ⟨if sp then .sp else .gl, a, n, decide (a.toNat % align = 0), true, false, false, true, true⟩ true with
  | .error t => .error t
  | .ok x => .ok (s.bytes x.loc n)

end Sys2Proof.Machine
end

