-- ==== Sys2Proof/Machine/Control.lean ====
section
/-! DEFINITION. The control family (R155-R164): branches, the divergence constructs, calls, EXIT, TRAP and RFT. -/

namespace Sys2Proof.Machine

open Sys2Proof

/-! ## Transfers of control -/

/-- The slot goes on at a PC. -/
def Iss.jump (i : Iss) (s : State) (pc : Word) (sw : Bool) : Res :=
  .jump (s.modGroup i.gr fun g =>
    let g := g.modSlot i.slotB fun x => x.goto pc sw
    if sw then g.noteReset i.slotB i.s.cycle else g) sw

/-- The target of a branch: a displacement in words from the branch word (R34). -/
def Iss.target {n : Nat} (i : Iss) (o : BitVec n) : Word := i.pc + BitVec.ofInt 64 (4 * o.toInt)

def execBra (o : BitVec 24) (s : State) : Host.Outcome State Fault Refusal :=
  s.run fun i => i.jump i.s (i.target o) false

/-- A branch of the whole slot. -/
def Iss.branch (i : Iss) (s : State) (c : Bool) (o : BitVec 12) : Res :=
  if c then i.jump s (i.target o) false else .done s false

def execBrs (c : BitVec 6) (n : Bool) (o : BitVec 12) (s : State) : Host.Outcome State Fault Refusal :=
  s.run fun i => i.branch i.s (xor (i.g.rdS i.sl.wb c.toNat != 0) n) o

def execDbnz (c : BitVec 6) (n : Bool) (o : BitVec 12) (s : State) : Host.Outcome State Fault Refusal :=
  s.run fun i =>
    if i.g.destBusy i.sl.wb [] [c.toNat] then i.stall
    else
      let x := i.g.rdS i.sl.wb c.toNat - 1
      i.branch (i.s.modGroup i.gr fun g => g.wrS i.sl.wb c.toNat x) (xor (x != 0) n) o

/-! ## Divergence (R158-R160) -/

/-- Active lanes whose predicate meets the branch's condition. -/
def Iss.takers (i : Iss) (c : BitVec 5) (n : Bool) : Lanes :=
  i.active &&& (if n then ~~~ i.g.rdP c.toNat else i.g.rdP c.toNat)

def Iss.setTok (i : Iss) (s : State) (t : Nat) (f : Token → Token) : State :=
  s.modGroup i.gr fun g => g.setToken t (f (g.token t))

/-- The mask of the executing slot. -/
def Iss.setMask (i : Iss) (s : State) (m : Lanes) : State :=
  s.modGroup i.gr fun g => g.modSlot i.slotB fun x => { x with mask := m }

def execBrp (c : BitVec 5) (n : Bool) (t : BitVec 4) (o : BitVec 12) (s : State) : Host.Outcome State Fault Refusal :=
  s.run fun i =>
    let tk := i.takers c n
    let fl := i.active &&& ~~~ tk
    let s := i.setTok i.s t.toNat fun k => { k with exp := k.exp ||| i.active }
    if tk = 0 then .done s false
    else if fl = 0 then i.jump s (i.target o) false
    else resOf (((i.setMask s fl).place i.gr tk (i.target o) i.sl.wb t.toNat).map fun s => i.ordered s (.done s false))

/-- A slot that no lane is left in has no latch. -/
def Iss.vacate (i : Iss) (s : State) : State :=
  s.modGroup i.gr fun g => g.modSlot i.slotB fun x => { x.advance true with pc := x.pc, mask := 0 }

/-- Lanes arrive at a token (R159, R160). -/
def Token.arrive (k : Token) (m : Lanes) (pc : Word) (wb : Nat) : Token :=
  let k := if k.arr = 0 then { k with jpc := pc, jwb := wb } else k
  { k with arr := k.arr ||| m }

/-- Fuel for the completions and pops that one instruction can cause: each completion idles a token. -/
def settleFuel : Nat := 40

/-- After the last lane has left a slot: the token completes if it is covered, and free slots are refilled. -/
def Iss.leave (i : Iss) (s : State) (t : Nat) : Except Trap State := do
  let s := i.vacate s
  let s ← match s.group? i.gr with
    | some g => if g.covered t then s.complete i.gr t else .ok s
    | none => .ok s
  s.settle i.gr settleFuel

def execBrk (c : BitVec 5) (n : Bool) (t : BitVec 4) (o : BitVec 12) (s : State) : Host.Outcome State Fault Refusal :=
  s.run fun i =>
    let tk := i.takers c n
    let rest := i.active &&& ~~~ tk
    let s := i.setTok i.s t.toNat fun k =>
      let k := { k with exp := k.exp ||| i.active }
      if tk = 0 then k else k.arrive tk (i.target o) i.sl.wb
    if rest ≠ 0 then .done (i.setMask s rest) false
    else resOf ((i.leave s t.toNat).map fun s => i.ordered s (.left s))

def execJoin (t : BitVec 4) (s : State) : Host.Outcome State Fault Refusal :=
  s.run fun i =>
    let reset := i.s.modGroup i.gr fun g => (g.modSlot i.slotB Slot.resetLatch).noteReset i.slotB i.s.cycle
    if (i.g.token t.toNat).exp = 0 then .done reset false
    else
      let s := i.setTok reset t.toNat fun k =>
        let k := k.arrive i.active i.pc i.sl.wb
        { k with exp := k.exp ||| i.active }
      resOf ((i.leave s t.toNat).map fun s => i.ordered s (.left s))

/-! ## Calls (R162) -/

/-- A target taken from a register that is not a multiple of 4 (R32; DEDUCED, log entry 26). -/
def badTarget (pc : Word) : Option Trap :=
  if pc.toNat % 4 = 0 then none else some { plainTrap .align 2 with addr := pc }

/-- Of a fault in moving the window and the target's alignment, the one that ranks first (R391). -/
def rankedTarget (t : Trap) (pc : Word) : Trap :=
  if t.cause = .stkovf ∨ (t.cause = .page ∧ t.sub = 1) then t else (badTarget pc).getD t

/-- The slide of a call, S[63] through the new window, and the transfer. DEDUCED: log entry 25. -/
def Iss.callTo (i : Iss) (k : BitVec 4) (pc : Word) : Res :=
  if !i.g.bound then i.stall
  else
    let n := 8 * k.toNat
    match i.s.slide i.gr i.slotB n with
    | .error t => .trap (rankedTarget t pc)
    | .ok s =>
      match badTarget pc with
      | some t => .trap t
      | none => i.ordered s (i.jump (s.modGroup i.gr fun g => g.wrS (i.sl.wb + n) 63 (i.pc + 4)) pc true)

def execCall (k : BitVec 4) (o : BitVec 20) (s : State) : Host.Outcome State Fault Refusal :=
  s.run fun i => i.callTo k (i.target o)

def execCalli (a : Src) (k : BitVec 4) (s : State) : Host.Outcome State Fault Refusal :=
  s.run fun i => orTrap (i.checkSca .i64 [a]) fun _ => i.callTo k (i.uni a)

def execRet (k : BitVec 4) (s : State) : Host.Outcome State Fault Refusal :=
  s.run fun i =>
    let n := 8 * k.toNat
    let pc := i.g.rdS i.sl.wb 63
    if !i.g.bound then i.stall
    else if i.sl.wb < n then .trap (plainTrap .stkovf 4)
    else
      let s := i.s.modGroup i.gr fun g => g.modSlot i.slotB fun x => { x with wb := x.wb - n }
      match s.fitWindows i.gr with
      | .error t => .trap (rankedTarget t pc)
      | .ok s =>
        match badTarget pc with
        | some t => .trap t
        | none => i.ordered s (i.jump s pc true)

def execJmpi (a : Src) (s : State) : Host.Outcome State Fault Refusal :=
  s.run fun i => orTrap (i.checkSca .i64 [a]) fun _ =>
    match badTarget (i.uni a) with
    | some t => .trap t
    | none => i.jump i.s (i.uni a) false

/-! ## EXIT (R163) -/

/-- The EXIT leaves no live lane in the group. -/
def Iss.lastExit (i : Iss) : Bool := i.g.live &&& ~~~ i.active == 0

/-- At the EXIT of the last live lanes, unread drain rows are discarded, which completes their operations (R163, R188). -/
def Block.discardDrains (b : Block) (grp : Nat) : Block :=
  { b with ops := b.ops.map fun (o : EngOp) =>
      if isMdrn o.instr && o.grp == grp && !o.isDone then { o with state := .done, pix := o.drainRows, rel := o.release } else o }

/-- Operations that an EXIT acquires: the group's own, but for an MDRN with unread rows when lanes stay (R163). DEDUCED: log entry 38. -/
def exitOwes (grp : Nat) (last : Bool) (o : EngOp) : Bool :=
  o.owes grp && (last || !(isMdrn o.instr && decide (o.pix < o.drainRows)))

/-- Lanes become exited: they leave every token's sets (R163 step 3). -/
def Group.exitLanes (g : Group) (m : Lanes) : Group :=
  { g with exited := g.exited ||| m, tokens := g.tokens.map fun k => { k with exp := k.exp &&& ~~~ m, arr := k.arr &&& ~~~ m } }

/-- Tokens that the arrived sets now cover complete, in ascending order (R163 step 4). -/
def State.completeCovered (s : State) (gr : GRef) : Except Trap State :=
  (List.range 16).foldlM (fun s t =>
    match s.group? gr with
    | some g => if (g.token t).exp != 0 && g.covered t then s.complete gr t else .ok s
    | none => .ok s) s

def execExit (s : State) : Host.Outcome State Fault Refusal :=
  s.run fun i =>
    let s0 := if i.lastExit then i.s.modBlock i.gr.blk fun b => b.discardDrains i.gr.grp else i.s
    match s0.block? i.gr.blk with
    | none => i.stall
    | some b =>
      if b.ops.any fun o => exitOwes i.gr.grp i.lastExit o && !o.isDone then i.wait .exit s0
      else
        let s1 := s0.modBlock i.gr.blk fun b => b.acquire i.gr.grp (exitOwes i.gr.grp i.lastExit)
        match (s1.group? i.gr).bind Group.flagTrap with
        | some t => .trapIn s1 t
        | none =>
          let s2 := i.vacate (s1.modGroup i.gr fun g => g.exitLanes i.active)
          match (s2.completeCovered i.gr).bind fun s => s.settle i.gr settleFuel with
          | .error t => .trap t
          | .ok s3 => i.ordered s3 (.jump (if i.lastExit then s3.modBlock i.gr.blk fun b => b.gangLost i.gr.grp else s3) true)

/-! ## Traps by instruction (R164) -/

def execTrap (c : BitVec 24) (s : State) : Host.Outcome State Fault Refusal :=
  s.run fun _ => .trapPast (plainTrap .trap c.toNat)

def execBkpt (c : BitVec 24) (s : State) : Host.Outcome State Fault Refusal :=
  s.run fun _ => .trapPast (plainTrap .bkpt c.toNat)

/-- RFT (R398): a switch point; PRIV 2 outside a handler. The frame is read once the group's own stores have performed, and its entries
issue when the group's queue has room for them (R129, R148). -/
def execRft (s : State) : Host.Outcome State Fault Refusal :=
  s.run fun i =>
    match i.g.traps with
    | [] => .trap (plainTrap .priv 2)
    | h :: rest =>
      if !i.g.quiet then i.stall
      else
        match i.s.returnFromTrap i.gr i.g h rest with
        | .error t => .trap t
        | .ok none => i.pinStall
        | .ok (some s) => .whole (s.switchPoint i.gr)

end Sys2Proof.Machine
end

