-- ==== Sys2Proof/Machine/Sync.lean ====
section
/-! DEFINITION. The synchronisation family (R165-R170): barriers, timelines, YIELD and GANGSET. -/

namespace Sys2Proof.Machine

open Sys2Proof

/-! ## Block barriers (R165) -/

def Bar.idle : Bar := ⟨[], none, [], []⟩

def Block.bar (b : Block) (n : Nat) : Bar := b.bars.getD n Bar.idle

/-- Groups that have not retired. -/
def Block.standing (b : Block) : List Nat :=
  (List.range b.groups.length).filter fun i => match b.groups[i]? with | some g => !g.retired | none => false

/-- What the block's retired groups have released. -/
def Block.retiredKnown (b : Block) : Clock :=
  b.groups.foldl (fun c g => if g.retired then clockJoin c g.known else c) []

/-- The phase of a barrier is complete: under count 0 every standing group has arrived, else the arrivals reach the count. -/
def Bar.full (x : Bar) (b : Block) : Bool :=
  match x.count with
  | none => false
  | some 0 => b.standing.all fun g => x.arrived.contains g
  | some c => decide (c ≤ x.arrived.length)

/-- Ends the phase if it is complete: what was released is what its waiters acquire. -/
def Block.checkBar (b : Block) (n : Nat) : Block :=
  let x := b.bar n
  if x.full b then
    let c := if x.count = some 0 then clockJoin x.rel b.retiredKnown else x.rel
    { b with bars := setAt b.bars n ⟨[], none, [], x.outs ++ [c]⟩ }
  else b

/-- An arrival, once per phase; the first one's count governs, and a count above the number of groups is that number. -/
def Block.arrive (b : Block) (n grp c : Nat) : Block :=
  let x := b.bar n
  if x.arrived.contains grp then b
  else
    match b.groups[grp]? with
    | none => b
    | some g =>
      let x := { x with arrived := grp :: x.arrived, count := some (x.count.getD (min c b.groups.length)), rel := clockJoin x.rel g.known }
      let b := { b with bars := setAt b.bars n x }
      (b.modGroup grp fun g => { g.release with barAt := setAt g.barAt n (x.outs.length + 1) }).checkBar n

/-- The count operand: 0 is every group (R165; a value above 32 acts as the group count). A negative one is taken as unsigned (DEDUCED, log entry 69). -/
def Iss.barCount (i : Iss) (a : Src) : Nat := (i.uni a).toNat

/-- The phase a group waits for is complete: it acquires what that phase released. -/
def Block.leaveBar (b : Block) (n grp ph : Nat) : Block :=
  b.modGroup grp fun g => g.acquire ((b.bar n).outs.getD (ph - 1) [])

/-- Waits for phase ph of barrier n, counted from 1; 0 is no phase. -/
def Iss.awaitBar (i : Iss) (s : State) (n ph : Nat) (w : Wait) : Res :=
  match s.block? i.gr.blk with
  | none => i.stall
  | some b =>
    if ph ≤ (b.bar n).outs.length then .done (s.modBlock i.gr.blk fun b => if ph = 0 then b else b.leaveBar n i.gr.grp ph) true
    else i.wait w s

def execBar (a : Src) (n : BitVec 4) (s : State) : Host.Outcome State Fault Refusal :=
  s.run fun i => orTrap (i.checkSca .i64 [a]) fun _ =>
    let k := n.toNat
    match i.sl.wait with
    | some (.bar _ ph) => i.awaitBar i.s k ph (.bar k ph)
    | _ =>
      let ph := i.g.barAt.getD k 0
      if i.sl.resume then i.awaitBar i.s k ph (.bar k ph)
      else if !i.g.quiet then i.stall
      else
        match i.g.flagTrap with
        | some t => .trap t
        | none =>
          let ph := (i.b.bar k).outs.length + 1
          i.awaitBar (i.s.modBlock i.gr.blk fun b => b.arrive k i.gr.grp (i.barCount a)) k ph (.bar k ph)

def execBara (a : Src) (n : BitVec 4) (s : State) : Host.Outcome State Fault Refusal :=
  s.run fun i => orTrap (i.checkSca .i64 [a]) fun _ =>
    if !i.g.quiet then i.stall
    else .done (i.s.modBlock i.gr.blk fun b => b.arrive n.toNat i.gr.grp (i.barCount a)) false

def execBarw (a : Src) (n : BitVec 4) (s : State) : Host.Outcome State Fault Refusal :=
  s.run fun i => orTrap (i.checkSca .i64 [a]) fun _ =>
    let k := n.toNat
    let ph := match i.sl.wait with
      | some (.barw _ ph) => ph
      | _ => i.g.barAt.getD k 0
    i.awaitBar i.s k ph (.barw k ph)

/-! ## The span barrier (R166) -/

def State.span? (s : State) (key : Nat) : Option Span := s.spans.find? fun x => x.key == key

def State.modSpan (s : State) (key : Nat) (f : Span → Span) : State :=
  { s with spans := s.spans.map fun x => if x.key = key then f x else x }

/-- Every standing group of every block of the span has arrived. -/
def State.spanFull (s : State) (x : Span) : Bool :=
  s.blocks.all fun b => !x.members.contains b.id || b.aborted || b.standing.all fun g => x.arrived.contains (b.id, g)

def State.checkSpan (s : State) (key : Nat) : State :=
  match s.span? key with
  | none => s
  | some x =>
    if !x.arrived.isEmpty && s.spanFull x then s.modSpan key fun x => { x with arrived := [], rel := [], outs := x.outs ++ [x.rel] } else s

/-- An arrival of a group at its span's barrier. -/
def State.arriveSpan (s : State) (gr : GRef) (b : Block) (g : Group) : State :=
  match s.span? b.span with
  | none => s
  | some x =>
    if x.arrived.contains (b.id, gr.grp) then s
    else
      let s := s.modSpan b.span fun x => { x with arrived := (b.id, gr.grp) :: x.arrived, rel := clockJoin x.rel g.known }
      (s.modGroup gr fun g => { g.release with spanAt := x.outs.length + 1 }).checkSpan b.span

def Iss.awaitSpan (i : Iss) (s : State) (ph : Nat) : Res :=
  match s.span? i.b.span with
  | none => .done s true
  | some x =>
    if ph ≤ x.outs.length then .done (s.modGroup i.gr fun g => g.acquire (x.outs.getD (ph - 1) [])) true
    else i.wait (.span ph) s

def execSbar (s : State) : Host.Outcome State Fault Refusal :=
  s.run fun i =>
    match i.sl.wait with
    | some (.span ph) => i.awaitSpan i.s ph
    | _ =>
      if i.sl.resume then i.awaitSpan i.s i.g.spanAt
      else if !i.g.quiet then i.stall
      else
        match i.g.flagTrap with
        | some t => .trap t
        | none =>
          let ph := match i.s.span? i.b.span with | some x => x.outs.length + 1 | none => 0
          i.awaitSpan (i.s.arriveSpan i.gr i.b i.g) ph

/-! ## Timelines (R167, R168) -/

def Block.tline (b : Block) (n : Nat) : Tline := b.tls.getD n ⟨0, 0, []⟩

/-- What the advances counted in reaching v have released. -/
def Tline.upTo (x : Tline) (v : Nat) : Clock :=
  if v = 0 then []
  else
    let before := x.rels.takeWhile fun r => decide (r.1 < v)
    let reach := (x.rels.drop before.length).take 1
    (before ++ reach).foldl (fun c r => clockJoin c r.2) []

/-- TLWAIT (R167); once it waits, with the v that it issued with. v compares as unsigned (DEDUCED, log entry 69). -/
def execTlwait (a : Src) (n : BitVec 4) (s : State) : Host.Outcome State Fault Refusal :=
  s.run fun i => orTrap (i.checkSca .i64 [a]) fun _ =>
    let k := n.toNat
    let v := match i.sl.wait with | some (.tl _ v) => v | _ => (i.uni a).toNat
    if v ≤ i.b.counter k then
      .done (i.s.modBlock i.gr.blk fun b =>
        if k < 4 then b.acquire i.gr.grp fun o => o.tl == k && decide (o.num ≤ v)
        else b.modGroup i.gr.grp fun g => g.acquire ((b.tline k).upTo v)) true
    else i.wait (.tl k v) i.s

def execTladv (a : Src) (n : BitVec 4) (s : State) : Host.Outcome State Fault Refusal :=
  s.run fun i => orTrap (i.checkSca .i64 [a]) fun _ =>
    if !i.g.quiet then i.stall
    else
      let x := i.b.tline n.toNat
      let c := min (2 ^ 64 - 1) (x.count + (i.uni a).toNat)
      .done (i.s.modBlock i.gr.blk fun b =>
        { b with tls := setAt b.tls n.toNat { x with count := c, rels := x.rels ++ [(c, i.g.known)] } }.modGroup i.gr.grp Group.release) false

/-- A value into a plain S destination (D with N = 1 writes nothing); a load under way to it holds the instruction back. -/
def Iss.putD (i : Iss) (d : Dst) (x : Word) : Res :=
  if i.g.destBusy i.sl.wb [] (dstRegs d) then i.stall else i.group (i.g.putReg i.sl.wb d x)

def execTlget (d : Dst) (sel : TlSel) (n : BitVec 4) (s : State) : Host.Outcome State Fault Refusal :=
  s.run fun i =>
    let k := n.toNat
    let x := match sel with
      | .done => i.b.counter k
      | .mine => if k < 4 then i.g.mine.getD k 0 else 0
      | .iss => if k < 4 then (i.b.tline k).issued else 0
    i.putD d (BitVec.ofNat 64 x)

def execYield (s : State) : Host.Outcome State Fault Refusal :=
  s.run fun i => .done i.s true

/-! ## Gangs (R170) -/

/-- The GANG sub-code of a mask, the lowest that applies. -/
def gangFault (m : Lanes) (grp groups : Nat) : Option Nat :=
  let ms := lanesOf m
  if ms.length < 2 ∨ 6 < ms.length then some 1
  else if ms.any fun g => ms.any fun h => g != h && g % 6 == h % 6 then some 2
  else if !ms.contains grp then some 3
  else if ms.any fun g => decide (groups ≤ g) then some 4
  else none

def execGangset (a : Src) (s : State) : Host.Outcome State Fault Refusal :=
  s.run fun i => orTrap (i.checkSca .i64 [a]) fun _ =>
    let m : Lanes := (i.uni a).setWidth 32
    match (if m = 0 then none else gangFault m i.gr.grp i.b.groups.length) with
    | some n => .trap (plainTrap .gang n)
    | none =>
      .done (i.s.modBlock i.gr.blk fun b =>
        (b.gangLost i.gr.grp).modGroup i.gr.grp fun g => { g with gang := m, gangCount := 0 }) false

end Sys2Proof.Machine
end

