-- ==== Sys2Proof/Machine/System.lean ====
section
/-! DEFINITION. NOP, the words that are no instruction, and the system family (R47-R57, R164, R171-R174). -/

namespace Sys2Proof.Machine

open Sys2Proof

/-! ## NOP and ILLOP (R55, R56) -/

def execNop (s : State) : Host.Outcome State Fault Refusal :=
  s.run fun i => .done i.s false

def execIll (_ones : Bool) (_v : BitVec 24) (s : State) : Host.Outcome State Fault Refusal :=
  s.run fun _ => .trap (illopTrap 1)

def execUndef (_v : BitVec 27) (s : State) : Host.Outcome State Fault Refusal :=
  s.run fun _ => .trap (illopTrap 2)

def execRsvop (_w : BitVec 32) (s : State) : Host.Outcome State Fault Refusal :=
  s.run fun _ => .trap (illopTrap 3)

/-! ## MODE and MODEX (R48, R49) -/

/-- MODE or MODEX after a MODEX (ILLOP 12). -/
def Iss.afterModex (i : Iss) (r : Res) : Res :=
  if i.sl.modex.isSome then .trap (illopTrap 12) else r

def execMode (m : BitVec 14) (s : State) : Host.Outcome State Fault Refusal :=
  s.run fun i => i.afterModex (i.group { i.g with mode := m })

def execModex (m : BitVec 14) (s : State) : Host.Outcome State Fault Refusal :=
  s.run fun i => i.afterModex
    (.jump (i.s.modGroup i.gr fun g => g.modSlot i.slotB fun x => { x with pc := x.pc + 4, modex := some (m, x.pc) }) false)

/-! ## Control registers (R51-R53, R171, R308) -/

def tagWord (c : List Nat) : Nat := (List.range 8).foldl (fun w k => w + c.getD k 0 % 256 * 2 ^ (8 * k)) 0

/-- What GETC reads of register n. DESIGN CHOICE: log entry 28. -/
def Iss.creg (i : Iss) (n : Nat) : Word :=
  let num (x : Nat) : Word := BitVec.ofNat 64 x
  match n with
  | 0 => i.mode.setWidth 64
  | 1 => i.g.flags.setWidth 64
  | 2 => i.g.flagen.setWidth 64
  | 3 => i.g.gang.setWidth 64
  | 4 => num i.sl.wb
  | 5 => i.g.pix
  | 6 | 7 | 8 | 9 | 10 => i.g.ivec.getD (n - 6) 0
  | 11 => num (tagWord i.g.tagc)
  | 12 => i.g.slotA.mask.setWidth 64
  | 13 => i.g.slotB.mask.setWidth 64
  | 14 => i.g.slotA.pc
  | 15 => i.g.slotB.pc
  | 16 => i.g.dstkp
  | 17 => num i.g.ldcnt
  | 18 => num i.b.ctx
  | 19 => num (if i.b.handler.isSome then Config.handlerReg 19 i.b.id else ((i.s.grid? i.b.grid).map (·.lid)).getD 0)
  | 20 => num i.gr.grp
  | 21 => num i.b.spanIdx
  | 22 => num i.cluster
  | 23 => num (i.gr.grp % 6)
  | 24 => i.g.plseq
  | 25 => i.g.trapcause
  | 26 => i.g.trapaddr
  | 27 => i.g.trappc
  | 28 => i.g.handle
  | 29 => num (if i.b.handler.isSome then Config.handlerReg 29 i.b.id else i.b.lin)
  | _ => 0

def execGetc (d : Dst) (n : BitVec 10) (s : State) : Host.Outcome State Fault Refusal :=
  s.run fun i => i.putD d (i.creg n.toNat)

/-- The registers software may write (R51). -/
def cregWritable (n : Nat) : Bool := n ≤ 2 || (5 ≤ n && n ≤ 10) || n == 16 || (25 ≤ n && n ≤ 27)

/-- The bits of a writable register that must be written as zero (R52, R171, R392). -/
def cregReserved (n : Nat) (x : Word) : Bool :=
  match n with
  | 1 | 2 => x.toNat / 2 ^ 7 != 0
  | 16 => x.toNat % 16 != 0
  | 25 => x.toNat / 2 ^ 39 != 0
  | _ => false

def Group.setCreg (g : Group) (n : Nat) (x : Word) : Group :=
  match n with
  | 0 => { g with mode := x.setWidth 14 }
  | 1 => { g with flags := x.setWidth 7 }
  | 2 => { g with flagen := x.setWidth 7 }
  | 5 => { g with pix := x }
  | 6 | 7 | 8 | 9 | 10 => { g with ivec := setAt g.ivec (n - 6) x }
  | 16 => { g with dstkp := x, stackCopy := [] }
  | 25 => { g with trapcause := x }
  | 26 => { g with trapaddr := x }
  | 27 => { g with trappc := x }
  | _ => g

def execSetc (a : Src) (n : BitVec 10) (s : State) : Host.Outcome State Fault Refusal :=
  s.run fun i =>
    let n := n.toNat
    let x := i.uni a
    if n = 0 ∧ !modeValueOk x.toNat ∧ !constBad .i64 a then .trap (illopTrap 8)
    else if cregReserved n x ∧ !constBad .i64 a then .trap (illopTrap 5)
    else orTrap (i.checkSca .i64 [a]) fun _ =>
      if !cregWritable n then .trap (plainTrap .priv 1) else i.group (i.g.setCreg n x)

/-! ## TIMER, CKPT, FLAGCHK (R172-R174) -/

def execTimer (d : Dst) (sel : TimerSel) (s : State) : Host.Outcome State Fault Refusal :=
  s.run fun i => i.putD d (BitVec.ofNat 64 (match sel with | .cyc => i.s.cycle | .ns => i.s.ns))

/-- An arrival at epoch e (R416): recorded when it exceeds both the last recorded epoch and COMMITTED; a release in any case. -/
def Group.arriveEpoch (g : Group) (e committed agents : Nat) : Group :=
  let g := g.release
  if e ≤ committed ∨ e < g.ckpt then g
  else { g with ckpt := e + 1, arrivals := g.arrivals ++ [(e, g.nextMem, agents)] }

def execCkpt (d : Dst) (a : Src) (q : Bool) (s : State) : Host.Outcome State Fault Refusal :=
  s.run fun i => orTrap (i.checkSca .i64 [a]) fun _ =>
    if i.g.destBusy i.sl.wb [] (dstRegs d) then i.stall
    else
      let c := ((i.s.ctx? i.b.ctx).map (·.committed)).getD 0
      let g := if q then i.g else i.g.arriveEpoch (i.uni a).toNat c i.s.nextAgent
      let s := if q then i.s else ((i.s.unpin i.g.agent).touchOutside i.gr.blk).modCtx i.b.ctx fun c => { c with arrived := max c.arrived (i.uni a).toNat }
      .done (s.setGroup i.gr (g.putReg i.sl.wb d (BitVec.ofNat 64 c))) false

def execFlagchk (s : State) : Host.Outcome State Fault Refusal :=
  s.run fun i =>
    match i.g.flagTrap with
    | some t => .trap t
    | none => .done i.s false

end Sys2Proof.Machine
end

