-- ==== Sys2Proof/Machine/Vector.lean ====
section
/-! DEFINITION. The vector family (R95-R117). -/

namespace Sys2Proof.Machine

open Sys2Proof

/-! ## Type sets (R95) -/

def tsAll : ElemType → Bool := fun t => t != .d
def tsInt : ElemType → Bool := isInt
def tsFlt : ElemType → Bool := isFloat
def tsNar : ElemType → Bool := fun t => t != .d && decide (width t ≤ 32)
def tsSf : ElemType → Bool := fun t => t == .f32 || t == .f16 || t == .bf16
def tsSf64 : ElemType → Bool := fun t => t == .f64 || tsSf t

/-! ## The shape every vector instruction has -/

/-- Checks, the stall of R129, the drain row of R41, then the instruction's own group. `vd` and `sd` are the registers it writes. -/
def Iss.vector (i : Iss) (ok : ElemType → Bool) (srcs : List Src) (vd sd : List Nat) (f : Iss → (Nat → Word) → Group) : Res :=
  orTrap (i.checkVec ok srcs) fun _ =>
    if i.g.destBusy i.sl.wb vd sd then i.stall
    else if srcs.contains (.spec .drn) then
      match i.readRow with
      | .none => .trap (plainTrap .prot 7)
      | .notReady => i.stall
      | .row r b =>
        let s := i.s.modBlock i.gr.blk fun _ => b
        let i := { i with s := s, b := b }
        i.group (f i fun l => r.getD l 0)
    else i.group (f i fun _ => 0)

/-- An operation on the sub-elements of one lane: the lane's result, and its flags. -/
def laneOp (t : ElemType) (f : Nat → Nat → Nat → Nat × Flags) (a b c : Word) : Word × Flags :=
  let rs := (List.range (nsub t)).map fun k => f (sub a k t) (sub b k t) (sub c k t)
  (packSubs t (rs.map (·.1)), rs.foldl (fun x r => x ||| r.2) 0)

/-- The shape of R96: F on every sub-element of every guarded-in lane; c is what D held. -/
def Iss.elementwise (i : Iss) (ok : ElemType → Bool) (d : Dst) (a : Src) (b : SrcB) (f : Nat → Nat → Nat → Nat × Flags) : Res :=
  i.vector ok (a :: srcsB b) (dstRegs d) [] fun i row =>
    let t := i.ty
    let r (l : Nat) : Word × Flags := laneOp t f (i.vec t row a l) (i.vecB t row b l) (i.old d l)
    let fl := i.laneFlags (fun l => (r l).2) ||| i.countFlags t a ||| (srcsB b).foldl (fun f x => f ||| i.countFlags t x) 0
    i.putV d i.guard (fun l => (r l).1) fl

/-- A row with one source. -/
def Iss.unary (i : Iss) (ok : ElemType → Bool) (d : Dst) (a : Src) (f : Nat → Nat → Nat × Flags) : Res :=
  i.elementwise ok d a (.src (.spec .zero)) fun x _ c => f x c

/-- A lane moved or combined bit for bit, with no flag, that of a count's conversion included (R63, R99; DEDUCED, log entry 69). -/
def Iss.bitwise (i : Iss) (ok : ElemType → Bool) (d : Dst) (a : Src) (b : SrcB) (f : Word → Word → Word) : Res :=
  i.vector ok (a :: srcsB b) (dstRegs d) [] fun i row =>
    i.putV d i.guard (fun l => f (i.vec i.ty row a l) (i.vecB i.ty row b l)) 0

/-! ## Arithmetic (R99) -/

/-- An exact operation on two values, then Sat and Round. -/
def op2 (i : Iss) (f : Rnd → Val → Val → Val × Flags) (a b : Nat) : Nat × Flags :=
  finish i.ty i.rnd i.sat (f i.rnd (decodeElem i.ty a) (decodeElem i.ty b))

def execVadd (d : Dst) (a : Src) (b : SrcB) (s : State) : Host.Outcome State Fault Refusal :=
  s.run fun i => i.elementwise tsAll d a b fun x y _ => op2 i addVal x y

def execVsub (d : Dst) (a : Src) (b : SrcB) (s : State) : Host.Outcome State Fault Refusal :=
  s.run fun i => i.elementwise tsAll d a b fun x y _ => op2 i subVal x y

def execVmul (d : Dst) (a : Src) (b : SrcB) (s : State) : Host.Outcome State Fault Refusal :=
  s.run fun i => i.elementwise tsAll d a b fun x y _ => op2 i (fun _ => mulVal) x y

/-- VMAD (R97). With N = 1 the result is the product, rounded once, with its sign. -/
def execVmad (d : Dst) (a : Src) (b : SrcB) (s : State) : Host.Outcome State Fault Refusal :=
  s.run fun i => i.elementwise tsAll d a b fun x y z =>
    let u := decodeElem i.ty x
    let v := decodeElem i.ty y
    finish i.ty i.rnd i.sat (match d with | .none => mulVal u v | .reg _ => fmaVal i.rnd u v (decodeElem i.ty z))

def execVmadn (d : Dst) (a : Src) (b : SrcB) (s : State) : Host.Outcome State Fault Refusal :=
  s.run fun i => i.elementwise tsAll d a b fun x y z =>
    finish i.ty i.rnd i.sat (fmaVal i.rnd (decodeElem i.ty x).negate (decodeElem i.ty y) (decodeElem i.ty z))

def execVmin (d : Dst) (a : Src) (b : SrcB) (s : State) : Host.Outcome State Fault Refusal :=
  s.run fun i => i.elementwise tsAll d a b fun x y _ => op2 i (fun _ => extremeVal false) x y

def execVmax (d : Dst) (a : Src) (b : SrcB) (s : State) : Host.Outcome State Fault Refusal :=
  s.run fun i => i.elementwise tsAll d a b fun x y _ => op2 i (fun _ => extremeVal true) x y

def execVabs (d : Dst) (a : Src) (s : State) : Host.Outcome State Fault Refusal :=
  s.run fun i => i.unary tsAll d a fun x _ => finish i.ty i.rnd i.sat (absVal (decodeElem i.ty x))

def execVneg (d : Dst) (a : Src) (s : State) : Host.Outcome State Fault Refusal :=
  s.run fun i => i.unary tsAll d a fun x _ => finish i.ty i.rnd i.sat (negVal (decodeElem i.ty x))

def execVclmp (d : Dst) (a : Src) (b : SrcB) (s : State) : Host.Outcome State Fault Refusal :=
  s.run fun i => i.elementwise tsAll d a b fun x y z =>
    finish i.ty i.rnd i.sat (clampVal (decodeElem i.ty z) (decodeElem i.ty x) (decodeElem i.ty y))

def execVand (d : Dst) (a : Src) (b : SrcB) (s : State) : Host.Outcome State Fault Refusal :=
  s.run fun i => i.bitwise tsAll d a b (· &&& ·)

def execVor (d : Dst) (a : Src) (b : SrcB) (s : State) : Host.Outcome State Fault Refusal :=
  s.run fun i => i.bitwise tsAll d a b (· ||| ·)

def execVxor (d : Dst) (a : Src) (b : SrcB) (s : State) : Host.Outcome State Fault Refusal :=
  s.run fun i => i.bitwise tsAll d a b (· ^^^ ·)

def execVnot (d : Dst) (a : Src) (s : State) : Host.Outcome State Fault Refusal :=
  s.run fun i => i.bitwise tsAll d a (.src (.spec .zero)) fun x _ => ~~~ x

/-! ## Shifts, counts and products (R99, R100) -/

def execVshl (d : Dst) (a : Src) (b : SrcB) (s : State) : Host.Outcome State Fault Refusal :=
  s.run fun i => i.elementwise tsInt d a b fun x c _ =>
    -- a count beyond 2 * 64 changes neither the low bits nor the sign of the exact product
    narrowInt i.ty i.sat (intOf i.ty x * 2 ^ min c 128)

def execVshr (d : Dst) (a : Src) (b : SrcB) (r : Bool) (s : State) : Host.Outcome State Fault Refusal :=
  s.run fun i => i.elementwise tsInt d a b fun x c _ =>
    let v := intOf i.ty x
    if r then
      let q := roundInt i.rnd (decide (v < 0)) v.natAbs (-(min c 130 : Nat)) false
      (wrapInt i.ty q.1, if q.2 then flINX else 0)
    else (wrapInt i.ty (v / 2 ^ min c 128), 0)

def execVrot (d : Dst) (a : Src) (b : SrcB) (s : State) : Host.Outcome State Fault Refusal :=
  s.run fun i => i.elementwise tsInt d a b fun x c _ =>
    let w := width i.ty
    let n := c % w
    ((x * 2 ^ n % 2 ^ w) + x / 2 ^ (w - n), 0)

/-- One bits of a w-bit pattern. -/
def countOnes (w x : Nat) : Nat := ((List.range w).filter fun k => bit x k).length

def leadingZeros (w x : Nat) : Nat := if x = 0 then w else w - 1 - Nat.log2 x

def execVpopc (d : Dst) (a : Src) (s : State) : Host.Outcome State Fault Refusal :=
  s.run fun i => i.unary tsInt d a fun x _ => (countOnes (width i.ty) x, 0)

def execVclz (d : Dst) (a : Src) (s : State) : Host.Outcome State Fault Refusal :=
  s.run fun i => i.unary tsInt d a fun x _ => (leadingZeros (width i.ty) x, 0)

def execVmulh (d : Dst) (a : Src) (b : SrcB) (s : State) : Host.Outcome State Fault Refusal :=
  s.run fun i => i.elementwise tsInt d a b fun x y _ =>
    (wrapInt i.ty (intOf i.ty x * intOf i.ty y / 2 ^ width i.ty), 0)

def execVabd (d : Dst) (a : Src) (b : SrcB) (s : State) : Host.Outcome State Fault Refusal :=
  s.run fun i => i.elementwise tsAll d a b fun x y _ =>
    op2 i (fun r x y => let e := subVal r x y; ((absVal e.1).1, e.2)) x y

/-! ## Compare, select, move (R101-R103) -/

/-- A condition over every sub-element of a lane (R101). -/
def laneCond (t : ElemType) (c : VCond) (a b : Word) : Bool :=
  (List.range (nsub t)).all fun k => condVal c (decodeElem t (sub a k t)) (decodeElem t (sub b k t))

def laneCondFlags (t : ElemType) (a b : Word) : Flags :=
  (List.range (nsub t)).foldl (fun f k => f ||| sigFlag (decodeElem t (sub a k t)) ||| sigFlag (decodeElem t (sub b k t))) 0

def execVcmp (d : BitVec 5) (a b : Src) (c : VCond) (s : State) : Host.Outcome State Fault Refusal :=
  s.run fun i => i.vector tsAll [a, b] [] [] fun i row =>
    let t := i.ty
    let m := maskOf fun l => laneCond t c (i.vec t row a l) (i.vec t row b l)
    let old := i.g.rdP d.toNat
    let g := i.g.wrP d.toNat ((old &&& ~~~ i.guard) ||| (m &&& i.guard))
    g.orFlags (i.laneFlags (fun l => laneCondFlags t (i.vec t row a l) (i.vec t row b l)) ||| i.countFlags t a ||| i.countFlags t b)

/-- The lanes whose value VSEL enters in its destination: the active ones; with N = 1, in L0, the guarded-in ones (R102, R44). -/
def Iss.selLanes (i : Iss) (d : Dst) : Lanes :=
  match d with
  | .reg _ => i.active
  | .none => i.guard

/-- VSEL (R102). -/
def execVsel (d : Dst) (a : Src) (b : SrcB) (s : State) : Host.Outcome State Fault Refusal :=
  s.run fun i => i.vector tsAll (a :: srcsB b) (dstRegs d) [] fun i row =>
    i.putV d (i.selLanes d) (fun l => if laneIn i.guard l then i.vec i.ty row a l else i.vecB i.ty row b l) 0

def execVmov (d : Dst) (a : Src) (s : State) : Host.Outcome State Fault Refusal :=
  s.run fun i => i.bitwise tsAll d a (.src (.spec .zero)) fun x _ => x

/-- The ten-bit immediate in T, or ILLOP 11 (R38, R103). -/
def Iss.imm10 (i : Iss) (v : BitVec 10) (r : Nat → Res) : Res :=
  if !tsAll i.ty then .trap (illopTrap 10)
  else match constElem i.ty (Val.ofInt v.toInt) with
    | none => .trap (illopTrap 11)
    | some x => r x

def execVaddi (d : Dst) (a : Src) (v : BitVec 10) (s : State) : Host.Outcome State Fault Refusal :=
  s.run fun i => i.imm10 v fun y => i.unary tsAll d a fun x _ => op2 i addVal x y

def execVmovi (d : Dst) (v : BitVec 10) (s : State) : Host.Outcome State Fault Refusal :=
  s.run fun i => i.imm10 v fun y => i.vector tsAll [] (dstRegs d) [] fun i _ => i.putV d i.guard (fun _ => splat i.ty y) 0

/-! ## Conversions (R104-R106) -/

def execVcvt (d : Dst) (a : Src) (st : ElemType) (p : BitVec 3) (s : State) : Host.Outcome State Fault Refusal :=
  s.run fun i =>
    let t := i.ty
    let m := min (nsub st) (nsub t)
    let p := p.toNat
    if widthRatio st t ≤ p then .trap (illopTrap 4)
    else if !tsAll t || st == .d then .trap (illopTrap 10)
    -- the source is read in S; constants must be exact there
    else if constBad st a then .trap (illopTrap 11)
    else i.vector tsAll (match a with | .reg _ | .latch _ | .spec .drn => [a] | _ => []) (dstRegs d) [] fun i row =>
      let r (l : Nat) : Word × Flags :=
        let x := i.vec st row a l
        let o := i.old d l
        let cs := (List.range m).map fun j =>
          if nsub st > nsub t then (j, convertElem st t i.rnd i.sat (sub x (p * m + j) st))
          else (p * m + j, convertElem st t i.rnd i.sat (sub x j st))
        (packSubs t ((List.range (nsub t)).map fun k =>
          match cs.find? fun c => c.1 == k with
          | some c => c.2.1
          | none => sub o k t), cs.foldl (fun f c => f ||| c.2.2) 0)
      i.putV d i.guard (fun l => (r l).1) (i.laneFlags (fun l => (r l).2) ||| i.countFlags st a)

def execVrint (d : Dst) (a : Src) (nx : Bool) (s : State) : Host.Outcome State Fault Refusal :=
  s.run fun i => i.unary tsFlt d a fun x _ => rintElem i.ty i.rnd i.sat nx x

def execVcpys (d : Dst) (a b : Src) (s : State) : Host.Outcome State Fault Refusal :=
  s.run fun i => i.elementwise tsFlt d a (.src b) fun x y _ =>
    let v := decodeElem i.ty x
    if v.isNaN then (canonNaN i.ty, sigFlag v)
    else
      let h := 2 ^ (width i.ty - 1)
      (y / h % 2 * h + x % h, 0)

def execVfcls (d : Dst) (a : Src) (s : State) : Host.Outcome State Fault Refusal :=
  s.run fun i => i.bitwise tsFlt d a (.src (.spec .zero)) fun x _ =>
    packSubs i.ty ((List.range (nsub i.ty)).map fun k => classOf i.ty (sub x k i.ty))

/-! ## Functions (R107) -/

/-- A function of R87 on every sub-element. -/
def Iss.function (i : Iss) (f : Fn) (ok : ElemType → Bool) (d : Dst) (a : Src) : Res :=
  i.unary ok d a fun x _ => fnElem f i.ty i.rnd i.sat (decodeElem i.ty x)

def execVrcp (d : Dst) (a : Src) (s : State) : Host.Outcome State Fault Refusal := s.run fun i => i.function .rcp tsSf d a
def execVrsq (d : Dst) (a : Src) (s : State) : Host.Outcome State Fault Refusal := s.run fun i => i.function .rsq tsSf d a
def execVsqrt (d : Dst) (a : Src) (s : State) : Host.Outcome State Fault Refusal := s.run fun i => i.function .sqrt tsSf64 d a
def execVex2 (d : Dst) (a : Src) (s : State) : Host.Outcome State Fault Refusal := s.run fun i => i.function .ex2 tsSf d a
def execVlg2 (d : Dst) (a : Src) (s : State) : Host.Outcome State Fault Refusal := s.run fun i => i.function .lg2 tsSf d a
def execVsinp (d : Dst) (a : Src) (s : State) : Host.Outcome State Fault Refusal := s.run fun i => i.function .sinp tsSf d a
def execVcosp (d : Dst) (a : Src) (s : State) : Host.Outcome State Fault Refusal := s.run fun i => i.function .cosp tsSf d a
def execVtanh (d : Dst) (a : Src) (s : State) : Host.Outcome State Fault Refusal := s.run fun i => i.function .tanh tsSf d a

def execVdiv (d : Dst) (a : Src) (b : SrcB) (s : State) : Host.Outcome State Fault Refusal :=
  s.run fun i => i.elementwise tsSf64 d a b fun x y _ => op2 i (fun _ => divVal) x y

/-! ## Sums within a lane (R108) -/

/-- The accumulator type A(T) of VDOT and VHSUM (R108). -/
def accType : ElemType → ElemType
  | .f64 => .f64
  | .f32 | .f16 | .bf16 | .e4m3 | .e5m2 | .dya8 => .f32
  | .i8 | .n8 => .i32
  | _ => .i64

/-- One lane's canonical sum into what D held (R108). -/
def dotLane (t : ElemType) (sat : Bool) (a : Word) (b : Option Word) (old : Word) : Word × Flags :=
  let at_ := accType t
  let terms := (List.range (nsub t)).map fun k =>
    (⟨k, decodeElem t (sub a k t), match b with | some b => decodeElem t (sub b k t) | none => Val.ofInt 1⟩ : Term)
  let r := canon at_ (isNarrow t) sat (sub old 0 at_) terms
  (BitVec.ofNat 64 r.1, r.2)

def execVdot (d : Dst) (a : Src) (b : SrcB) (s : State) : Host.Outcome State Fault Refusal :=
  s.run fun i => i.vector tsAll (a :: srcsB b) (dstRegs d) [] fun i row =>
    let t := i.ty
    let old (l : Nat) : Word := match d with | .reg r => i.g.rdV i.sl.wb r.toNat l | .none => 0
    let r (l : Nat) : Word × Flags := dotLane t i.sat (i.vec t row a l) (some (i.vecB t row b l)) (old l)
    let fl := i.laneFlags (fun l => (r l).2) ||| i.countFlags t a ||| (srcsB b).foldl (fun f x => f ||| i.countFlags t x) 0
    i.putV d i.guard (fun l => (r l).1) fl

def execVhsum (d : Dst) (a : Src) (s : State) : Host.Outcome State Fault Refusal :=
  s.run fun i => i.vector tsAll [a] (dstRegs d) [] fun i row =>
    let t := i.ty
    let old (l : Nat) : Word := match d with | .reg r => i.g.rdV i.sl.wb r.toNat l | .none => 0
    let r (l : Nat) : Word × Flags := dotLane t i.sat (i.vec t row a l) none (old l)
    i.putV d i.guard (fun l => (r l).1) (i.laneFlags (fun l => (r l).2) ||| i.countFlags t a)

/-! ## Packing (R109) -/

def packLane (t : ElemType) (odd : Bool) (a b : Word) : Word :=
  let h := nsub t / 2
  let x := if odd then 1 else 0
  packSubs t ((List.range (nsub t)).map fun k => if k < h then sub a (2 * k + x) t else sub b (2 * (k - h) + x) t)

def unpackLane (t : ElemType) (hi : Bool) (a b : Word) : Word :=
  let h := nsub t / 2
  let o := if hi then h else 0
  packSubs t ((List.range (nsub t)).map fun k => if k % 2 = 0 then sub a (k / 2 + o) t else sub b (k / 2 + o) t)

def execVpack (d : Dst) (a : Src) (b : SrcB) (h : Bool) (s : State) : Host.Outcome State Fault Refusal :=
  s.run fun i => i.bitwise tsNar d a b (packLane i.ty h)

def execVunpk (d : Dst) (a : Src) (b : SrcB) (h : Bool) (s : State) : Host.Outcome State Fault Refusal :=
  s.run fun i => i.bitwise tsNar d a b (unpackLane i.ty h)

/-! ## Other lanes (R110-R114) -/

def execVperm (d : Dst) (a : Src) (b : SrcB) (s : State) : Host.Outcome State Fault Refusal :=
  s.run fun i => i.vector tsAll (a :: srcsB b) (dstRegs d) [] fun i row =>
    let t := i.ty
    i.putV d i.guard (fun l =>
      let ix := (i.vecB t row b l).toNat
      packSubs t ((List.range (nsub t)).map fun k => i.cross t (i.vec t row a) (bits ix (8 * k) 5) (bits ix (8 * k + 5) 3))) 0

/-- The shape of VBCST, VSLID, VRED and VSCAN: a vector source, and a uniform operand read as U (R111). -/
def Iss.withUniform (i : Iss) (u : ElemType) (a b : Src) (vd sd : List Nat) (f : Iss → (Nat → Word) → Group) : Res :=
  if !tsAll i.ty then .trap (illopTrap 10)
  else if constBad i.ty a || constBad u b then .trap (illopTrap 11)
  else orTrap (firstTrap [i.latchBad false a, i.latchBad true b]) fun _ => i.vector tsAll [a] vd sd f

def execVbcst (d : Dst) (a b : Src) (s : State) : Host.Outcome State Fault Refusal :=
  s.run fun i => i.withUniform .i64 a b (dstRegs d) [] fun i row =>
    let t := i.ty
    let x := (i.uni b).toNat
    let e := i.cross t (i.vec t row a) (bits x 0 5) (bits x 5 3)
    i.putV d i.guard (fun _ => splat t e) 0

def execVslid (d : Dst) (a b : Src) (rot : Bool) (s : State) : Host.Outcome State Fault Refusal :=
  s.run fun i => i.withUniform .i64 a b (dstRegs d) [] fun i row =>
    let t := i.ty
    let n := nsub t
    let total : Int := 32 * n
    let x := (i.uni b).toInt
    i.putV d i.guard (fun l =>
      packSubs t ((List.range n).map fun k =>
        let j : Int := ((l * n + k : Nat) : Int) + x
        let j := if rot then j % total else j
        if 0 ≤ j ∧ j < total then i.cross t (i.vec t row a) (j.toNat / n) (j.toNat % n) else 0)) 0

/-! ## Reductions and scans (R115, R116) -/

/-- The type C of an .add reduction (R115). -/
def redType (t : ElemType) : ElemType :=
  match t with
  | .f64 => .f64
  | .i64 | .i32 | .i16 | .i8 => .i64
  | .n64 | .n32 | .n16 | .n8 => .n64
  | _ => .f32

/-- The terms of a reduction: elements of counted lanes by global index (R115). -/
def redTerms (t : ElemType) (m : Lanes) (f : Nat → Word) : List (Nat × Nat) :=
  (lanesOf m).flatMap fun l => (List.range (nsub t)).map fun k => (l * nsub t + k, sub (f l) k t)

/-- A NaN of a floating type made canonical (R63). -/
def canonical (t : ElemType) (x : Nat) : Nat := if (decodeElem t x).isNaN then canonNaN t else x

/-- The value of an .add reduction in C (R83, R115); b itself where there is no term. -/
def redAdd (t : ElemType) (sat : Bool) (b : Nat) (ts : List (Nat × Nat)) : Nat × Flags :=
  canon (redType t) (isNarrow t) sat b (ts.map fun x => ⟨x.1, decodeElem t x.2, Val.ofInt 1⟩)

/-- The value of a .min or .max reduction in T; with no term, b, and no flag (R123). -/
def redExtreme (t : ElemType) (max : Bool) (b : Nat) (ts : List (Nat × Nat)) : Nat × Flags :=
  let r := ts.foldl (fun acc x => let e := extremeVal max acc.1 (decodeElem t x.2); (e.1, acc.2 ||| e.2))
    (decodeElem t b, 0)
  finish t .rne false r

/-- A bitwise reduction of w-bit patterns. -/
def redBits (op : RedOp) (b : Nat) (ts : List (Nat × Nat)) : Nat :=
  ts.foldl (fun acc x => match op with | .and => acc &&& x.2 | .or => acc ||| x.2 | _ => acc ^^^ x.2) b

/-- The type in which a reduction reads B and gives its result. R115 names one for sums and extremes alone; a bitwise reduction reads B in TYPE too
(DEDUCED, log entry 69). -/
def redOut (op : RedOp) (t : ElemType) : ElemType := match op with | .add => redType t | _ => t

def redValue (op : RedOp) (t : ElemType) (sat : Bool) (b : Nat) (ts : List (Nat × Nat)) : Nat × Flags :=
  match op with
  | .add => redAdd t sat b ts
  | .min => redExtreme t false b ts
  | .max => redExtreme t true b ts
  | _ => (redBits op b ts, 0)

/-- The pattern of a reduction's result: a sum or an extreme that is NaN is canonical, a bitwise reduction keeps its bits (R63, R115). -/
def redPattern (op : RedOp) (u : ElemType) (x : Nat) : Nat :=
  match op with
  | .and | .or | .xor => x
  | _ => canonical u x

/-- VRED (R115). A reduction in which no lane is guarded in is B, and is written (DEDUCED, log entry 66). -/
def execVred (d : Dst) (a b : Src) (p : RedOp) (s : State) : Host.Outcome State Fault Refusal :=
  s.run fun i =>
    let u := redOut p i.ty
    i.withUniform u a b [] (dstRegs d) fun i row =>
      let t := i.ty
      let b0 := sub (i.sca u b) 0 u
      let r := redValue p t i.sat b0 (redTerms t i.counted (i.vec t row a))
      i.putS d (extendElem u (redPattern p u r.1)) (r.2 ||| i.countFlags t a ||| i.countFlags u b)

def ammRed : AmmOp → RedOp
  | .add => .add
  | .min => .min
  | .max => .max

def execVscan (d : Dst) (a b : Src) (p : AmmOp) (ex : Bool) (s : State) : Host.Outcome State Fault Refusal :=
  s.run fun i =>
    let u := redOut (ammRed p) i.ty
    i.withUniform u a b (dstRegs d) [] fun i row =>
      let t := i.ty
      let b0 := sub (i.sca u b) 0 u
      let ts := redTerms t i.counted (i.vec t row a)
      let elem (e : Nat) : Nat × Flags :=
        let r := redValue (ammRed p) t i.sat b0 (ts.filter fun x => if ex then decide (x.1 < e) else decide (x.1 ≤ e))
        match p with
        | .add => let q := convertElem u t i.rnd i.sat r.1; (q.1, r.2 ||| q.2)
        | _ => r
      let lane (l : Nat) : Word × Flags :=
        let rs := (List.range (nsub t)).map fun k => elem (l * nsub t + k)
        (packSubs t (rs.map (·.1)), rs.foldl (fun f x => f ||| x.2) 0)
      i.putV d i.guard (fun l => (lane l).1) (i.laneFlags (fun l => (lane l).2) ||| i.countFlags t a ||| i.countFlags u b)

/-- VBAL (R117). A ballot in which no lane is guarded in is 0, and is written (DEDUCED, log entry 66). A count-valued A sets the flags of its
conversion (R40). -/
def execVbal (d : Dst) (a : Src) (c : Bool) (s : State) : Host.Outcome State Fault Refusal :=
  s.run fun i => i.vector tsAll [a] [] (dstRegs d) fun i row =>
    let m := i.counted &&& maskOf fun l => i.vec i.ty row a l != 0
    i.putS d (if c then BitVec.ofNat 64 (popcount m) else m.setWidth 64) (i.countFlags i.ty a)

end Sys2Proof.Machine
end

