-- ==== Sys2Proof/Machine/Memory.lean ====
section
/-! DEFINITION. The memory family (R124-R154): what each instruction captures at its issue, and the waits, fences and copies. The accesses
themselves are in Access.lean, Atomic.lean and the events of the core. -/

namespace Sys2Proof.Machine

open Sys2Proof

/-! ## Issue into the queue (R276) -/

def isGath : Instr → Bool
  | .vgath .. => true
  | _ => false

/-- Where a VGATH starts: at PIX, which an earlier VGATH that has not ended will leave 0 (R135). -/
def Iss.gathStart (i : Iss) : Nat := if i.g.memq.any fun m => isGath m.instr && !m.accepted then 0 else i.g.pix.toNat

/-- The operation as issued, with what it has read. DEDUCED: log entry 22. -/
def Iss.mem (i : Iss) (instr : Instr) (lanes help : Lanes) (opa opb : List Word) : MemOp where
  id := 0
  first := i.g.nextMem
  instr := instr
  word := i.word
  epc := i.pc
  slotB := i.slotB
  pre := i.modexWord
  mode := i.mode
  lanes := lanes
  help := help
  guard := i.guard
  pix := match instr with | .vgath .. => i.gathStart | _ => i.g.atomoSeq
  opa := opa
  opb := opb
  wb := i.sl.wb
  accepted := false
  accs := []
  got := []
  met := []
  seg := i.s.segment i.g i.b.ctx
  todo := lanes ||| help
  clock := match instr with | .cpa .. => i.g.known | _ => i.g.clock
  epoch := i.g.epoch

/-- Whether an instruction of the queue, or an atomic, changes state outside the block (R349). -/
def isOutside (instr : Instr) : Bool :=
  match instr with
  | .atomo .. | .stds .. | .atom .. | .atomf .. => true
  | _ => isStore instr && spaceOf instr == .gl

/-- Enters the queue, or stalls: a ninth unaccepted instruction, a sixty-fifth load, a destination under a load. -/
def Iss.queue (i : Iss) (m : MemOp) : Res :=
  let waiting := (i.g.memq.filter fun x => !x.accepted).length
  if 8 ≤ waiting then i.stall
  else if isLoad m.instr && decide (64 ≤ i.g.ldcnt) then i.stall
  else if i.g.destBusy i.sl.wb (loadDest m.instr) (match loadDestS m.instr with | some d => [d] | none => []) then i.stall
  else
    let s := i.s.enqueue i.gr m
    .done (if isOutside m.instr then s.touchOutside i.gr.blk else s) false

/-- Checks of the constants of lane operands, read as i64. -/
def Iss.checkLaneOps (i : Iss) (uniform lane : List Src) : Except Trap Unit :=
  if lane.any (constBad .i64) then .error (illopTrap 11) else i.checkSca .i64 uniform

/-- 32 words, one for each lane. -/
def perLane (f : Nat → Word) : List Word := (List.range 32).map f

def Iss.laneWord (i : Iss) (a : Src) (l : Nat) : Word := i.vec .i64 (fun _ => 0) a l

/-- A load or store with a per-lane address (R132). -/
def Iss.laneAccess (i : Iss) (instr : Instr) (a b : Src) (data : List Word) : Res :=
  orTrap (i.checkLaneOps [b] [a]) fun _ =>
    i.queue (i.mem instr i.counted i.helpers (perLane fun l => i.laneWord a l + i.uni b) data)

/-- The data register of a store. -/
def Iss.storeData (i : Iss) (d : BitVec 6) : List Word := perLane fun l => i.g.rdV i.sl.wb d.toNat l

/-- The type set of VLDE and VSTE is every type: nothing to check. -/
def execVld (d : Dst) (a b : Src) (x : Space) (s : State) : Host.Outcome State Fault Refusal :=
  s.run fun i => i.laneAccess (.vld d a b x) a b []

def execVst (d : BitVec 6) (a b : Src) (x : Space) (s : State) : Host.Outcome State Fault Refusal :=
  s.run fun i => i.laneAccess (.vst d a b x) a b (i.storeData d)

def execVlde (d : Dst) (a b : Src) (x : Space) (s : State) : Host.Outcome State Fault Refusal :=
  s.run fun i => i.laneAccess (.vlde d a b x) a b []

def execVste (d : BitVec 6) (a b : Src) (x : Space) (s : State) : Host.Outcome State Fault Refusal :=
  s.run fun i => i.laneAccess (.vste d a b x) a b (i.storeData d)

def execVldd (d : BitVec 5) (a b : Src) (s : State) : Host.Outcome State Fault Refusal :=
  s.run fun i => i.laneAccess (.vldd d a b) a b []

def execLdds (d : Dst) (a b : Src) (s : State) : Host.Outcome State Fault Refusal :=
  s.run fun i => i.laneAccess (.ldds d a b) a b []

def execStds (d : BitVec 6) (a b : Src) (s : State) : Host.Outcome State Fault Refusal :=
  s.run fun i => i.laneAccess (.stds d a b) a b (i.storeData d)

/-- A load or store that executes once per issue; its scalar operands in field order, a store's data first (R395). DEDUCED: log entry 22. -/
def Iss.scalarAccess (i : Iss) (instr : Instr) (a b : Src) (data : List Word) : Res :=
  orTrap (i.checkSca .i64 [a, b]) fun _ => i.queue (i.mem instr 1 0 (data ++ [i.uni a, i.uni b]) [])

def execSld (d : Dst) (a b : Src) (sp : Bool) (s : State) : Host.Outcome State Fault Refusal :=
  s.run fun i => i.scalarAccess (.sld d a b sp) a b []

/-- A once-per-issue instruction in a slot of helper lanes only has no effect (R218). -/
def Iss.unlessHelpers (i : Iss) (r : Unit → Res) : Res := if i.onlyHelpers then .done i.s false else r ()

def execSst (d : BitVec 6) (a b : Src) (sp : Bool) (s : State) : Host.Outcome State Fault Refusal :=
  s.run fun i => orTrap (i.checkSca .i64 [a, b]) fun _ => i.unlessHelpers fun _ =>
    i.scalarAccess (.sst d a b sp) a b [i.g.rdS i.sl.wb d.toNat]

/-- A row access: lane l at 8 l of the row (R132), which is the address that a trap of the lane reports. DEDUCED: log entry 7. -/
def Iss.rowAccess (i : Iss) (instr : Instr) (a b : Src) (data : List Word) : Res :=
  orTrap (i.checkSca .i64 [a, b]) fun _ =>
    i.queue (i.mem instr i.counted i.helpers (perLane fun l => i.uni a + i.uni b + BitVec.ofNat 64 (8 * l)) data)

def execVldb (d : Dst) (a b : Src) (x : Space) (s : State) : Host.Outcome State Fault Refusal :=
  s.run fun i => i.rowAccess (.vldb d a b x) a b []

def execVstb (d : BitVec 6) (a b : Src) (x : Space) (s : State) : Host.Outcome State Fault Refusal :=
  s.run fun i => i.rowAccess (.vstb d a b x) a b (i.storeData d)

/-- VGATH (R135): the index run and the base are captured. -/
def execVgath (d : Dst) (a : BitVec 6) (b : Src) (x : Space) (s : State) : Host.Outcome State Fault Refusal :=
  s.run fun i =>
    let h := (nsub i.ty + 1) / 2
    if tsAll i.ty && decide (63 < a.toNat + h - 1) then .trap (illopTrap 6)
    else if !tsAll i.ty then .trap (illopTrap 10)
    else orTrap (i.checkSca .i64 [b]) fun _ =>
      let run := (List.range h).flatMap fun j => perLane fun l => i.g.rdV i.sl.wb (a.toNat + j) l
      i.queue (i.mem (.vgath d a b x) i.counted i.helpers [i.uni b] run)

/-! ## Atomics (R136-R139) -/

def tsAtom : ElemType → Bool := fun t => t == .i32 || t == .n32 || t == .i64 || t == .n64
def tsAtomf : ElemType → Bool := fun t => t == .f32 || t == .f64

/-- An atomic, once every earlier access has performed: it acquires and releases (DEDUCED, log entry 19). DEDUCED: log entry 18. -/
def Iss.atomic (i : Iss) (m : MemOp) : Res :=
  if !i.g.quiet then i.stall
  else
    match i.s.atomAll i.gr i.b i.g m with
    | .error t => .trapOwn t m
    | .ok s =>
      if s.overPinned then i.pinStall
      else
      let s := if isOutside m.instr then s.touchOutside i.gr.blk else s
      .done (match m.instr with | .atom .. | .atomf .. => s.unpin i.g.agent | _ => s) false

/-- The comparand of an atomic: the old D under .cas (R136); the others have none (R395). -/
def Iss.comparand (i : Iss) (p : AtomOp) (d : Dst) : List Word :=
  match p, d with
  | .cas, .reg r => perLane fun l => i.g.rdV i.sl.wb r.toNat l
  | _, _ => []

/-- ATOM, ATOMS and ATOMF: addresses, operands, and the comparand. The conversion of a count-valued operand sets its flags (R40). DEDUCED: log entry 18. -/
def Iss.atomicOp (i : Iss) (instr : Instr) (ok : ElemType → Bool) (cmp : List Word) (a b : Src) : Res :=
  if !ok i.ty then .trap (illopTrap 10)
  else if constBad .i64 a || constBad i.ty b then .trap (illopTrap 11)
  else
    match i.atomic (i.mem instr i.counted i.helpers (perLane (i.laneWord a)) (perLane (i.vec i.ty (fun _ => 0) b) ++ cmp)) with
    | .done s sw => .done (s.modGroup i.gr fun g => g.orFlags (i.countFlags i.ty b)) sw
    | r => r

def execAtom (d : Dst) (a b : Src) (p : AtomOp) (s : State) : Host.Outcome State Fault Refusal :=
  s.run fun i => i.atomicOp (.atom d a b p) tsAtom (i.comparand p d) a b

def execAtoms (d : Dst) (a b : Src) (p : AtomOp) (s : State) : Host.Outcome State Fault Refusal :=
  s.run fun i => i.atomicOp (.atoms d a b p) tsAtom (i.comparand p d) a b

def execAtomf (d : Dst) (a b : Src) (p : AmmOp) (s : State) : Host.Outcome State Fault Refusal :=
  s.run fun i => i.atomicOp (.atomf d a b p) tsAtomf [] a b

/-- ATOMO after the group's ORDCL: PROT 8 at the lowest guarded-in lane, after the checks that rank before it: range, alignment, translation and
the rights of PROT 1 and 6 (R139, R391). -/
def Iss.closedTrap (i : Iss) (m : MemOp) : Option Trap :=
  match lanesOf m.lanes with
  | [] => none
  | l :: _ =>
    let late : Trap := { plainTrap .prot 8 with addr := m.addr l, lane := l }
    match i.s.check i.who i.b (coreIdx i.gr.grp) (m.req l) false with
    | .error t => some { t with lane := l }
    | .ok _ => some late

def execAtomo (a b : Src) (s : State) : Host.Outcome State Fault Refusal :=
  s.run fun i =>
    if !tsAtomf i.ty then .trap (illopTrap 10)
    else if constBad .i64 a || constBad i.ty b then .trap (illopTrap 11)
    else
      let m := i.mem (.atomo a b) i.counted i.helpers (perLane (i.laneWord a)) (perLane (i.vec i.ty (fun _ => 0) b))
      match (if i.g.ordcl then i.closedTrap m else none) with
      | some t => .trap t
      | none =>
        match i.queue m with
        | .done s sw => .done (s.modGroup i.gr fun g => { g with atomoSeq := g.atomoSeq + 1 }) sw
        | r => r

def execOrdcl (s : State) : Host.Outcome State Fault Refusal :=
  s.run fun i => i.group { i.g with ordcl := true }

/-! ## Waits and fences (R140-R143, R149, R152) -/

def execWaitc (k : BitVec 10) (s : State) : Host.Outcome State Fault Refusal :=
  s.run fun i => if i.g.ldcnt ≤ k.toNat then .done i.s true else i.wait (.loads k.toNat) i.s

/-- Whether GEN has passed g: (GEN - g) mod 2^32 lies in 1 to 2^31 (R152). -/
def genPassed (gen g : Nat) : Bool :=
  let d := (gen + 2 ^ 32 - g % 2 ^ 32) % 2 ^ 32
  decide (1 ≤ d) && decide (d ≤ 2 ^ 31)

def State.genOf (s : State) (l : Loc) : Nat := s.num (l.add 8) 4

def syncReq (a : Word) : Req := ⟨.sp, a, 16, decide (a.toNat % 16 = 0), true, false, false, false, true⟩

/-- What the completed generations of a word release. DEDUCED: log entry 40. -/
def State.wordPassed (s : State) (l : Loc) : Clock := ((s.words.find? fun w => w.loc == l).map (·.passed)).getD []

/-- Waits until GEN of a word has passed g. It is read after the group's own earlier accesses to it have performed (R130, R255). -/
def Iss.awaitGen (i : Iss) (l : Loc) (g : Nat) : Res :=
  if i.g.clearFor i.g.nextMem (l.add 8) 4 && genPassed (i.s.genOf l) g then .done (i.s.modGroup i.gr fun x => x.acquire (i.s.wordPassed l)) true else i.wait (.gen l g) i.s

/-- WAITV (R152); once it waits, with the word and g that it issued with. -/
def execWaitv (d : BitVec 6) (a : Src) (s : State) : Host.Outcome State Fault Refusal :=
  s.run fun i => orTrap (i.checkSca .i64 [a]) fun _ =>
    match i.sl.wait with
    | some (.gen l g) => i.awaitGen l g
    | _ =>
    let who := { i.who with atomic := some .block }
    match i.s.check who i.b (coreIdx i.gr.grp) (syncReq (i.uni a)) true with
    | .error t => .trap t
    | .ok acc => i.awaitGen acc.loc (bits (i.g.rdS i.sl.wb d.toNat).toNat 0 32)

/-- A FENCE: every read before it acquires, and every write after it releases, at its scope (R141, R258). -/
def Group.fence (g : Group) (p : Pos) (sc : Scope) : Group :=
  let g := g.acquireRels p sc g.reads
  { g.release with fences := (sc, g.known) :: g.fences.filter fun x => x.1 != sc }

def wideScope : Scope → Bool
  | .device | .sys => true
  | _ => false

def execFence (sc : Scope) (s : State) : Host.Outcome State Fault Refusal :=
  s.run fun i =>
    if !i.g.quiet || i.g.ldcnt != 0 then i.stall
    else
      let s := if wideScope sc then i.s.unpin i.g.agent else i.s
      .done (s.setGroup i.gr (i.g.fence i.b.pos sc)) false

/-- The cluster a TLB belongs to: cores by number, the engines of a cluster from 768 on; none for the others (R407). -/
def tlbCluster (agent : Nat) : Option Nat :=
  if agent < 768 then some (agent / 6) else if agent < 896 then some (agent - 768) else none

/-- The binning engine of a die has TLB 896 + die. -/
def tlbDie (agent : Nat) : Option Nat :=
  match tlbCluster agent with
  | some c => some (dieOf c)
  | none => if agent < 900 then some (agent - 896) else none

/-- Whether a TLB lies within a scope of a block (R142, R257). -/
def State.tlbInScope (s : State) (b : Block) (sc : Scope) (agent : Nat) : Bool :=
  match sc with
  | .block => tlbCluster agent == b.place
  | .span => s.blocks.any fun x => x.span == b.span && (tlbCluster agent).isSome && tlbCluster agent == x.place
  | .die => tlbDie agent == some (dieOf (b.place.getD 0))
  | .device | .sys => true

/-- Accesses that the groups of a scope have had accepted, with the places of an older translation, perform (R408). -/
def State.performScope (s : State) (b : Block) (sc : Scope) : State :=
  (s.blocks.filter fun x => x.ctx == b.ctx).foldl (fun s x =>
    (List.range x.groups.length).foldl (fun s i =>
      if s.tlbInScope b sc (coreOf (x.place.getD 0) i) then s.performAccepted ⟨x.id, i⟩ else s) s) s

/-- TFENCE (R142, R408): PRIV 3 without the page-table grant. -/
def execTfence (sc : Scope) (s : State) : Host.Outcome State Fault Refusal :=
  s.run fun i =>
    if !(((i.s.ctx? i.b.ctx).map (·.ptw)).getD false) then .trap (plainTrap .priv 3)
    else if !i.g.quiet then i.stall
    else
      let s := i.s.performScope i.b sc
      .done { s with tlbs := s.tlbs.filter fun t => !(t.ctx == i.b.ctx && s.tlbInScope i.b sc t.agent) } false

/-- PREF only hints (R143). -/
def execPref (a b : Src) (s : State) : Host.Outcome State Fault Refusal :=
  s.run fun i => orTrap (i.checkLaneOps [b] [a]) fun _ => .done i.s false

/-! ## Sampling (R147) -/

/-- The descriptor's address, each lane's coordinates and old D. The conversion of count-valued coordinates sets no flag: R147 names the only
one that sampling sets. -/
def Iss.sample (i : Iss) (instr : Instr) (d : Dst) (a b : Src) : Res :=
  if constBad .f32 a then .trap (illopTrap 11)
  else orTrap (i.checkSca .i64 [b]) fun _ =>
    let old (l : Nat) : Word := match d with | .reg r => i.g.rdV i.sl.wb r.toNat l | .none => 0
    i.queue (i.mem instr i.counted i.helpers [i.uni b] (perLane (i.vec .f32 (fun _ => 0) a) ++ perLane old))

def execSamp (d : Dst) (a b : Src) (hi : Bool) (s : State) : Host.Outcome State Fault Refusal :=
  s.run fun i => i.sample (.samp d a b hi) d a b

def execSampg (d : Dst) (a b : Src) (hi : Bool) (s : State) : Host.Outcome State Fault Refusal :=
  s.run fun i => i.sample (.sampg d a b hi) d a b

/-! ## Copies (R148-R154) -/

def execCpa (d : BitVec 6) (a b : Src) (t : BitVec 3) (s : State) : Host.Outcome State Fault Refusal :=
  s.run fun i => orTrap (i.checkLaneOps [] [a, b]) fun _ =>
    if 255 ≤ i.g.tagc.getD t.toNat 0 then i.stall
    else
      i.queue (i.mem (.cpa d a b t) i.counted i.helpers (perLane (i.laneWord a))
        (i.storeData d ++ perLane (i.laneWord b)))

/-- The CPA instructions of a tag that stand, oldest first: transfers not acquired, then those not yet accepted. -/
def Group.cpasOf (g : Group) (tag : Nat) : Nat :=
  (g.cpas.filter fun c => c.tag == tag).length +
    (g.memq.filter fun m => match m.instr with | .cpa _ _ _ t => t.toNat == tag | _ => false).length

/-- Acquires every CPA of a tag but the youngest k (R149). -/
def Group.acquireCpas (g : Group) (tag k : Nat) : Group :=
  let n := g.cpasOf tag - k
  let got := ((g.cpas.filter fun c => c.tag == tag).take n).map (·.agent)
  let c := got.foldl (fun c a => clockSet c a 1) []
  let known := (g.cpas.filter fun c => got.contains c.agent).foldl (fun c x => clockJoin c x.clock) c
  { g.acquire known with cpas := g.cpas.filter fun c => !got.contains c.agent }

def execCpwt (k : BitVec 7) (t : BitVec 3) (s : State) : Host.Outcome State Fault Refusal :=
  s.run fun i =>
    if i.g.tagc.getD t.toNat 0 ≤ k.toNat then .done (i.s.modGroup i.gr fun g => g.acquireCpas t.toNat k.toNat) true
    else i.wait (.copies t.toNat k.toNat) i.s

/-- A SYNCW arms a word and empties its count: what was counted is released to nobody (R151). DEDUCED: log entry 40. -/
def State.rearm (s : State) (l : Loc) : State :=
  { s with words := s.words.map fun w => if w.loc = l then { w with counting := [] } else w }

def execSyncw (a b : Src) (s : State) : Host.Outcome State Fault Refusal :=
  s.run fun i => orTrap (i.checkSca .i64 [a, b]) fun _ => i.unlessHelpers fun _ =>
    if 2 ^ 32 ≤ (i.uni b).toNat then .trap { plainTrap .prot 7 with addr := i.uni b }
    else
      match i.atomic (i.mem (.syncw a b) 1 0 [i.uni a, i.uni b] []) with
      | .done s sw =>
        match i.s.check { i.who with atomic := some .block } i.b (coreIdx i.gr.grp) (syncReq (i.uni a)) false with
        | .ok acc => .done (s.rearm acc.loc) sw
        | .error _ => .done s sw
      | r => r

end Sys2Proof.Machine
end

