-- ==== Sys2Proof/Machine/Copy.lean ====
section
/-! DEFINITION. The copy engine (R148, R150-R154, R307-R316): the issue of CPB and CPT, the rows of a copy, and the completion of a CPA. An
operation's parts hold the slice descriptors or the tile record; a part's progress index counts the rows done, and one more says it has ended. -/

namespace Sys2Proof.Machine

open Sys2Proof

/-! ## Claims (R271, R315) -/

/-- The time of an operation's claims and of all it has done: above the time of any single row. -/
def claimTime : Nat := 2 ^ 40

/-! ## A slice descriptor (R310) -/

structure Slice where
  src : Word
  dst : Word
  spitch : Nat
  dpitch : Nat
  rowlen : Nat
  rows : Nat
  sspc : Nat
  dspc : Nat
  sync : Nat
deriving DecidableEq, Repr

def sliceOfWords (w : List Word) : Slice :=
  let c := (w.getD 2 0).toNat
  let d := (w.getD 3 0).toNat
  ⟨w.getD 0 0, w.getD 1 0, bits c 0 24, bits c 24 24, bits c 48 16, bits d 0 16, bits d 16 4, bits d 20 4, bits d 32 32⟩

/-- The synchronisation word that a SYNC field names. -/
def syncAddr (sync : Nat) : Nat := bits sync 0 21

/-- The word's address lies outside the block's own reservation, in SLICE 6 or 7 or at an OFS of SPR and above, or is misaligned (R310). -/
def syncOutside (b : Block) (sync : Nat) : Bool :=
  bit sync 31 && (decide (5 < bits (syncAddr sync) 18 3) || decide (syncAddr sync % 16 ≠ 0) || decide (b.spr ≤ bits (syncAddr sync) 0 18))

def syncReserved (sync : Nat) : Bool := bits sync 21 10 != 0

def Slice.empty (d : Slice) : Bool := d.rowlen == 0 || d.rows == 0

/-- A malformed descriptor (R310). A ROWLEN that is not a multiple of 8 is malformed too (DEDUCED, log entry 69). -/
def Slice.malformed (d : Slice) (b : Block) : Bool :=
  decide (4 ≤ d.sspc) || decide (4 ≤ d.dspc) || decide (d.src.toNat % 8 ≠ 0) || decide (d.dst.toNat % 8 ≠ 0) || decide (d.spitch % 8 ≠ 0) ||
    decide (d.dpitch % 8 ≠ 0) || decide (d.rowlen % 8 ≠ 0) || syncReserved d.sync || syncOutside b d.sync ||
    (d.sspc == 1 && bits d.src.toNat 21 4 != 0) || (d.dspc == 1 && bits d.dst.toNat 21 4 != 0)

/-- One access of the copy engine; space codes are those of R310. Buffers are those of the group's own core. -/
def State.copyCheck (s : State) (who : Who) (b : Block) (grp spc : Nat) (a : Word) (n : Nat) (w race : Bool) : Except Trap Acc :=
  let q (x : Space) : Req := ⟨x, a, n, decide (a.toNat % n = 0), !w, w, false, false, true⟩
  match spc with
  | 0 => s.checkGlobal who (q .gl) race
  | 1 => s.checkSp who b none (q .sp) race
  | 2 => s.checkBuf who b (grp % 6) (q .wb) race
  | _ => s.checkBuf who b (grp % 6) (q .ab) race

/-- The addresses of a row of n bytes, in units of 8. -/
def rowUnits (a : Word) (n : Nat) : List Word := (List.range (n / 8)).map fun i => a + BitVec.ofNat 64 (8 * i)

/-! ## Operations as agents -/

/-- One agent for each slice: they settle overlaps by R311 and never race with one another. -/
def EngOp.sliceAgent (o : EngOp) (grp : Nat) : Nat := o.agent + 1 + grp

def EngOp.family (o : EngOp) (c : Clock) : Clock :=
  (List.range 33).foldl (fun c i => clockSet c (o.agent + i) claimTime) c

/-- What a copy operation releases when it completes: all its agents. -/
def EngOp.copyRelease (o : EngOp) : Clock := o.family o.clock

/-! ## The tile record (R312) -/

structure Tile where
  src : Word
  w : Nat
  h : Nat
  spitch : Nat
  x0 : Int
  y0 : Int
  tw : Nat
  th : Nat
  hx : Nat
  hy : Nat
  es : Nat
  fill : Nat
  fillv : Nat
  dpitch : Nat
  sync : Nat
  rest : Nat
deriving DecidableEq, Repr

def tileOfBytes (bs : List Byte) : Tile :=
  let n (o k : Nat) : Nat := leNat ((bs.drop o).take k)
  ⟨BitVec.ofNat 64 (n 0 8), n 8 4, n 12 4, n 16 4, (BitVec.ofNat 32 (n 20 4)).toInt, (BitVec.ofNat 32 (n 24 4)).toInt, n 28 2, n 30 2, n 32 1, n 33 1,
    n 34 1, n 35 1, n 36 8, n 44 4, n 48 4, n 53 11⟩

def Tile.e (t : Tile) : Nat := 2 ^ t.es
def Tile.dw (t : Tile) : Nat := t.tw + 2 * t.hx
def Tile.dh (t : Tile) : Nat := t.th + 2 * t.hy

def Tile.malformed (t : Tile) (b : Block) : Bool :=
  decide (3 < t.es) || decide (t.src.toNat % t.e ≠ 0) || t.w == 0 || decide (16777216 < t.w) || t.h == 0 || decide (16777216 < t.h) ||
    decide (t.spitch % t.e ≠ 0) || decide (t.spitch < t.w * t.e) || t.tw == 0 || decide (4096 < t.tw) || t.th == 0 || decide (4096 < t.th) ||
    decide (3 < t.fill) || decide (t.dpitch % 8 ≠ 0) || decide (t.dpitch < t.dw * t.e) || syncReserved t.sync || syncOutside b t.sync || t.rest != 0

/-- The source element that destination position (c, r) takes, none for a fill (R313). -/
def Tile.source (t : Tile) (c r : Nat) : Option (Nat × Nat) :=
  let sx : Int := t.x0 - t.hx + c
  let sy : Int := t.y0 - t.hy + r
  if 0 ≤ sx ∧ sx < t.w ∧ 0 ≤ sy ∧ sy < t.h then some (sx.toNat, sy.toNat)
  else if t.fill = 0 ∨ t.fill = 3 then none
  else
    let mode := if t.fill = 1 then 1 else 2
    match resolveTap mode sx t.w, resolveTap mode sy t.h with
    | some x, some y => some (x, y)
    | _, _ => none

def Tile.fillBytes (t : Tile) : List Byte := if t.fill = 3 then leBytes t.e t.fillv else leBytes t.e 0

/-- The tile record of a CPT. -/
def Part.tile (p : Part) : Tile := tileOfBytes (p.regs.flatMap fun w => leBytes 8 w.toNat)

def EngOp.tile (o : EngOp) : Tile := match o.parts with | p :: _ => p.tile | [] => tileOfBytes []

/-! ## Issue of CPB -/

def isCpb : Instr → Bool
  | .cpb .. => true
  | _ => false

/-- Where a copy's destination lies: a key of the space and core, and an interval. -/
abbrev Reach := Nat × Nat × Nat

/-- Whether two intervals of one space share a granule. -/
def Reach.meets (x y : Reach) : Bool := x.1 == y.1 && decide (x.2.1 / 32 * 32 < y.2.2) && decide (y.2.1 / 32 * 32 < x.2.2)

/-- The interval of a slice's destination. -/
def Slice.reach (d : Slice) (grp : Nat) : List Reach :=
  if d.empty then []
  else
    let key := if d.dspc ≤ 1 then d.dspc else 16 * (grp % 6) + d.dspc
    [(key, d.dst.toNat, d.dst.toNat + (d.rows - 1) * d.dpitch + d.rowlen)]

def reachesMeet (x y : List Reach) : Bool := x.any fun a => y.any fun b => Reach.meets a b

/-- The block's collective number k, if it has begun. -/
def Block.collective? (b : Block) (k : Nat) : Option EngOp := b.ops.find? fun o => isCpb o.instr && o.index == k

/-- The destination range of a part of a collective: its rows, and its descriptor in SP (R315). -/
def Part.reach (p : Part) : List Reach :=
  let a := (p.opa.getD 0 0).toNat
  if p.regs.isEmpty then [] else (1, a, a + 32) :: (sliceOfWords p.regs).reach p.grp

/-- The destination range of a copy operation (R315). -/
def EngOp.reaches (o : EngOp) : List Reach :=
  if isCpb o.instr then o.parts.flatMap Part.reach
  else
    let t := o.tile
    let r := (o.opa.getD 0 0).toNat
    let x := (o.opa.getD 1 0).toNat
    [(0, r, r + 64), (1, x, x + (t.dh - 1) * t.dpitch + t.dw * t.e)]

/-- A copy follows the block's earlier copies whose destinations share a granule with its own (R307). -/
def Block.after0 (b : Block) (num : Nat) (r : List Reach) (c : Clock) : Clock :=
  (b.ops.filter fun o => o.tl == 0 && decide (o.num < num) && reachesMeet o.reaches r).foldl (fun c o => clockJoin c o.copyRelease) c

/-- The later copies of the block whose destinations share a granule with this one's: they follow it, and their claims stand after its writes
in coherence (R271, R307). -/
def Block.laterCopies (b : Block) (o : EngOp) : List EngOp := b.ops.filter fun q => q.tl == 0 && decide (o.num < q.num) && reachesMeet q.reaches o.reaches

/-- A slice of a copy as the agent of its accesses. It does not race with the claims of later copies. -/
def EngOp.sliceWho (o : EngOp) (b : Block) (grp time : Nat) : Who :=
  { o.who b with agent := o.sliceAgent grp, time := time, clock := (b.laterCopies o).foldl (fun c (q : EngOp) => q.family c) (o.family o.clock), pub := [] }

/-- A write of a copy. A granule that a later copy has claimed keeps that claim, the co-latest write (R271). -/
def State.performCopy (s : State) (b : Block) (o : EngOp) (who : Who) (a : Acc) (vs : List Byte) : State :=
  let later := (b.laterCopies o).flatMap fun q => (List.range 34).map (q.agent + ·)
  let kept := if a.watch && !later.isEmpty then s.writers.filter fun x => touchesGranule a.loc vs.length x.1 && later.contains x.2.agent else []
  kept.foldl (fun s x => s.setWriter x.1 x.2) (s.perform who a vs)

/-- The units of 8 bytes that n bytes from an address touch. -/
def unitsOver (a : Word) (n : Nat) : List Word :=
  let first := a - BitVec.ofNat 64 (a.toNat % 8)
  (List.range ((a.toNat % 8 + n + 7) / 8)).map fun i => first + BitVec.ofNat 64 (8 * i)

/-- Claims a destination row: every granule that its units touch. -/
def State.claimRow (s : State) (who : Who) (b : Block) (grp spc : Nat) (a : Word) (n : Nat) : State :=
  (unitsOver a n).foldl (fun s a =>
    match s.copyCheck who b grp spc a 8 true false with
    | .ok x => s.claimFree who x 8
    | .error _ => s) s

/-- Claims of a slice: its descriptor, and the destination rows if it is not empty, a malformed one's too (R315). A space code that names no
space has no rows. DEDUCED: log entry 39. -/
def State.claimSlice (s : State) (b : Block) (o : EngOp) (grp : Nat) (desc : Option Acc) (d : Slice) : State :=
  let who := o.sliceWho b grp claimTime
  let s := match desc with | some a => s.claimFree who a 32 | none => s
  if d.empty || decide (4 ≤ d.dspc) then s
  else (List.range d.rows).foldl (fun s r => s.claimRow who b grp d.dspc (d.dst + BitVec.ofNat 64 (r * d.dpitch)) d.rowlen) s

/-- The group supplies a slice, described or empty (R153). -/
def Iss.supply (i : Iss) (instr : Instr) (desc : Option Acc) (a : Word) (words : List Word) : State :=
  let k := i.g.collSeq
  let o0 := match i.b.collective? k with
    | some o => { o with parts := o.parts ++ [i.part [a] words 0], clock := clockJoin o.clock i.g.known }
    | none =>
      let o := i.newOp instr 0 (List.range i.b.groups.length) k [a] [] words 0
      o
    let o0 := { o0 with clock := i.b.after0 o0.num (i.part [a] words 0).reach o0.clock }
  let fresh := (i.b.collective? k).isNone
  let s := if fresh then { i.s with nextAgent := i.s.nextAgent + 34 } else i.s
  let s := s.modBlock i.gr.blk fun b =>
    let b := if fresh then b.addOp o0 else b.modOp 0 o0.num fun _ => o0
    b.modGroup i.gr.grp fun g => { g.issuedOp 0 o0.num with collSeq := k + 1 }
  if words.isEmpty then s else s.claimSlice i.b o0 i.gr.grp desc (sliceOfWords words)

def execCpb (a : Src) (s : State) : Host.Outcome State Fault Refusal :=
  s.run fun i => orTrap (i.checkSca .i64 [a]) fun _ =>
    if !i.g.quiet then i.stall
    else if i.onlyHelpers then .done (i.supply (.cpb a) none 0 []) false
    else
      let x := i.uni a
      -- the operand of an engine: it needs no live group, and never names a span peer (R241)
      match i.s.check i.who i.b none ⟨.sp, x, 32, decide (x.toNat % 32 = 0), true, false, false, false, true⟩ true with
      | .error t => .trap t
      | .ok acc =>
        let words := (List.range 4).map fun j => BitVec.ofNat 64 (i.s.num (acc.loc.add (8 * j)) 8)
        let s := i.supply (.cpb a) (some acc) x words
        .done (if (sliceOfWords words).dspc = 0 then s.touchOutside i.gr.blk else s) false

/-! ## Issue of CPT -/

/-- Claims of a tile: both granules of its record, and its destination rows, a malformed one's too (R315); an element size that is none has no
rows. -/
def State.claimTile (s : State) (b : Block) (o : EngOp) (record : Acc) (dst : Word) (t : Tile) : State :=
  let who := o.sliceWho b 0 claimTime
  let s := s.claimFree who record 64
  if 3 < t.es then s
  else (List.range t.dh).foldl (fun s r => s.claimRow who b o.grp 1 (dst + BitVec.ofNat 64 (r * t.dpitch)) (t.dw * t.e)) s

/-- The destination of a CPT: an SP address aligned to 256, of the block's own cluster; a span peer's is malformed (R154, R241). -/
def tileDest (b : Block) (x : Word) : Except Trap Unit :=
  let a := x.toNat
  if 2 ^ 25 ≤ a ∨ 5 < bits a 18 3 ∨ (!bit a 24 && bits a 21 3 != 0) then .error { plainTrap .prot 2 with addr := x }
  else if bit a 24 then .error { plainTrap .prot 7 with addr := x }
  else if a % 256 ≠ 0 then .error { plainTrap .align 1 with addr := x }
  else if !spAdmits b (bits a 18 3) (bits a 0 18) 1 then .error { plainTrap .prot 5 with addr := x }
  else .ok ()

/-- The record's read (R154): checked as a read, and for the right W of its page, which the engine's write of STAT needs. Of the two, the check
that ranks first is reported (R391). -/
def State.checkRecord (s : State) (who : Who) (b : Block) (core : Option Nat) (x : Word) : Except Trap Acc :=
  let q : Req := ⟨.gl, x, 64, decide (x.toNat % 64 = 0), true, false, false, false, true⟩
  match s.check who b core q true, s.check who b core { q with r := false, w := true } false with
  | .error t, .error u => .error (t.first u)
  | .error t, .ok _ => .error t
  | .ok _, .error u => .error u
  | .ok a, .ok _ => .ok a

def execCpt (a b : Src) (s : State) : Host.Outcome State Fault Refusal :=
  s.run fun i => orTrap (i.checkSca .i64 [a, b]) fun _ => i.unlessHelpers fun _ =>
    if !i.g.quiet then i.stall
    else
      let x := i.uni a
      match i.s.checkRecord i.who i.b (coreIdx i.gr.grp) x with
      | .error t => .trap t
      | .ok acc =>
        orTrap (tileDest i.b (i.uni b)) fun _ =>
          let words := (List.range 8).map fun j => BitVec.ofNat 64 (i.s.num (acc.loc.add (8 * j)) 8)
          let o0 := i.newOp (.cpt a b) 0 [i.gr.grp] 0 [x, i.uni b] [] words 0
          let o := { o0 with clock := i.b.after0 o0.num o0.reaches o0.clock }
          let s := { i.s with nextAgent := i.s.nextAgent + 34 }
          let s := s.modBlock i.gr.blk fun b => (b.addOp o).modGroup i.gr.grp fun g => g.issuedOp 0 o.num
          .done (s.claimTile i.b o acc (i.uni b) (tileOfBytes (words.flatMap fun w => leBytes 8 w.toNat))) false

/-! ## Counting (R151) -/

/-- The word's record, open from its first count on. -/
def State.wordOf (s : State) (l : Loc) : SyncWord := (s.words.find? fun w => w.loc == l).getD ⟨l, [], []⟩

/-- Adds n bytes to a synchronisation word, as one atomic write with the advances of GEN that follow (R151, R265); c is what the write releases.
The trap of an update that races (R268) comes with the state as it was. DEDUCED: log entry 40. -/
def State.count (s : State) (who : Who) (b : Block) (sync n : Nat) (c : Clock) : State × Option Trap :=
  if !bit sync 31 then (s, none)
  else
    let l : Loc := ⟨.sp b.id, syncAddr sync⟩
    let who := { who with atomic := some .block }
    match s.race? who l 16 true with
    | some x => (s, some ⟨.mmx, 1, BitVec.ofNat 64 (syncAddr sync), 0, x.detail⟩)
    | none =>
      let target := s.num l 4
      let total := s.num (l.add 4) 4 + n
      let steps := if target = 0 then 0 else total / target
      let w := s.wordOf l
      let w := { w with counting := clockJoin w.counting c }
      let w := if steps = 0 then w else { w with passed := clockJoin w.passed w.counting, counting := [] }
      let s := s.perform who ⟨l.add 4, true, false, false⟩ (leBytes 4 (total - steps * target) ++ leBytes 4 (s.num (l.add 8) 4 + steps))
      ({ s with words := w :: s.words.filter fun x => x.loc != l }, none)

/-! ## Rows -/

/-- STAT's cause code (R310). -/
def statCause (t : Trap) : Nat :=
  match t.cause with
  | .page => 1 | .prot => 2 | .align => 3 | .mmx => 4 | .ecc => 5 | _ => 2

/-- Writes STAT, and the failing address over SRC, through the record's mapping; a write that faults is dropped and logged (R314). -/
def State.writeStat (s : State) (who : Who) (b : Block) (o : EngOp) (grp spc : Nat) (record : Word) (statOfs stat : Nat) (fail : Option Word) : State :=
  let put (s : State) (a : Word) (bs : List Byte) : State :=
    match s.copyCheck who b grp spc a bs.length true false with
    | .ok x => s.performCopy b o who x bs
    | .error t => s.logFate b.ctx t.cause.code (s.lidOf b) b.lin grp a.toNat
  let s := match fail with | some x => put s record (leBytes 8 x.toNat) | none => s
  put s (record + BitVec.ofNat 64 statOfs) (leBytes 1 stat)

/-- Copies units of 8 bytes, or meets a fault. -/
def State.copyUnits (s : State) (who : Who) (b : Block) (o : EngOp) (grp sspc dspc : Nat) (src dst : List Word) : Except Trap State := do
  let from_ ← src.foldlM (fun acc a => match s.copyCheck who b grp sspc a 8 false true with
    | .ok x => Except.ok (acc ++ [s.bytes x.loc 8])
    | .error t => .error { t with addr := a }) []
  let to_ ← dst.foldlM (fun acc a => match s.copyCheck who b grp dspc a 8 true true with
    | .ok x => Except.ok (acc ++ [x])
    | .error t => .error { t with addr := a }) []
  .ok ((to_.zip from_).foldl (fun s x => s.performCopy b o who x.1 x.2) s)

/-- The destination units of a finished row: the blocks that it covers whole lose their poison (R415). -/
def State.rowCleared (s : State) (who : Who) (b : Block) (grp spc n : Nat) (dst : List Word) : State :=
  s.clearCovered (dst.filterMap fun a => match s.copyCheck who b grp spc a n true false with | .ok x => some (x.loc, n) | .error _ => none)

/-- The units of a row of a slice that perform now, or the part's end: the part's new progress, with the units of its row that have performed.
Before the last row is counted, STAT is written, so that who waits for the word finds it (R314). DEDUCED: log entry 39. -/
def State.sliceRow (s : State) (b : Block) (o : EngOp) (p : Part) : State × Nat × List Nat :=
  let d := sliceOfWords p.regs
  let at_ := p.opa.getD 0 0
  let who := o.sliceWho b p.grp (p.pix + 1)
  let last := o.sliceWho b p.grp claimTime
  let fin := d.rows + 1
  let stat (s : State) (code : Nat) (fail : Option Word) : State := s.writeStat last b o p.grp 1 at_ 27 code fail
  if p.regs.isEmpty then (s, fin, [])
  else if d.empty then (stat s 0 none, fin, [])
  else if d.malformed b then
    let s := stat s 2 none
    (if syncOutside b d.sync then s else (s.count last b d.sync (d.rows * d.rowlen) last.clock).1, fin, [])
  else
    let stop (s : State) (left : Nat) (t : Trap) : State × Nat × List Nat :=
      ((stat s (1 + 16 * statCause t) (some t.addr)).count last b d.sync (left * d.rowlen) last.clock |>.1, fin, [])
    let n := d.rowlen / 8
    let now := s.unitsNow p.units n
    let unit (a : Word) (pitch k : Nat) : Word := a + BitVec.ofNat 64 (p.pix * pitch + 8 * k)
    match s.copyUnits who b o p.grp d.sspc d.dspc (now.map (unit d.src d.spitch)) (now.map (unit d.dst d.dpitch)) with
    | .error t => stop s (d.rows - p.pix) t
    | .ok s =>
      if !unitsAll (p.units ++ now) n then (s, p.pix, p.units ++ now)
      else
        let s := s.rowCleared who b p.grp d.dspc 8 ((List.range n).map (unit d.dst d.dpitch))
        let final := p.pix + 1 == d.rows
        let s := if final then stat s 0 none else s
        match s.count who b d.sync d.rowlen (if final then last.clock else clockSet o.clock who.agent (p.pix + 1)) with
        | (s, none) => (s, if final then fin else p.pix + 1, [])
        | (s, some t) => stop s (d.rows - p.pix - 1) t

/-- Source elements that a CPT has read: pairs of an element's number and its value (R313). -/
def elementRead (seen : List Word) (k : Nat) : Option Word :=
  ((List.range (seen.length / 2)).find? fun j => (seen.getD (2 * j) 0).toNat == k).map fun j => seen.getD (2 * j + 1) 0

/-- The bytes of elements `cs` of destination row r of a tile with the source elements read so far, each once, or the fault of one. Only clamping
and mirroring name an element twice, so only they keep what was read. -/
def State.tileBytes (s : State) (who : Who) (b : Block) (t : Tile) (seen : List Word) (r : Nat) (cs : List Nat) : Except Trap (List Byte × List Word) :=
  cs.foldlM (fun (acc : List Byte × List Word) c =>
    match t.source c r with
    | none => Except.ok (acc.1 ++ t.fillBytes, acc.2)
    | some (x, y) =>
      let k := y * t.w + x
      match elementRead acc.2 k with
      | some v => .ok (acc.1 ++ leBytes t.e v.toNat, acc.2)
      | none =>
        let a := t.src + BitVec.ofNat 64 (y * t.spitch + x * t.e)
        match s.copyCheck who b 0 0 a t.e false true with
        | .ok l =>
          let bs := s.bytes l.loc t.e
          .ok (acc.1 ++ bs, if t.fill = 0 ∨ t.fill = 3 then acc.2 else acc.2 ++ [BitVec.ofNat 64 k, BitVec.ofNat 64 (leNat bs)])
        | .error f => .error { f with addr := a }) ([], seen)

/-- Stores elements `cs` of a row. -/
def State.tileStore (s : State) (who : Who) (b : Block) (o : EngOp) (t : Tile) (dst : Word) (cs : List Nat) (bs : List Byte) : Except Trap State := do
  let accs ← cs.zipIdx.foldlM (fun acc c =>
    let a := dst + BitVec.ofNat 64 (c.1 * t.e)
    match s.copyCheck who b 0 1 a t.e true true with
    | .ok x => Except.ok (acc ++ [(x, (bs.drop (c.2 * t.e)).take t.e)])
    | .error f => .error { f with addr := a }) []
  .ok (accs.foldl (fun s x => s.performCopy b o who x.1 x.2) s)

/-- The elements of a row of a tile that perform now, or the tile's end, as for a slice. -/
def State.tileRow (s : State) (b : Block) (o : EngOp) (p : Part) : State × Nat × List Nat :=
  let t := p.tile
  let at_ := o.opa.getD 0 0
  let dst := o.opa.getD 1 0
  let who := o.sliceWho b 0 (p.pix + 1)
  let last := o.sliceWho b 0 claimTime
  let fin := t.dh + 1
  let stat (s : State) (code : Nat) (fail : Option Word) : State := s.writeStat last b o o.grp 0 at_ 52 code fail
  if t.malformed b then
    let s := stat s 2 none
    (if syncOutside b t.sync then s else (s.count last b t.sync (t.dh * (t.dw * t.e)) last.clock).1, fin, [])
  else
    let stop (s : State) (left : Nat) (f : Trap) : State × Nat × List Nat :=
      ((stat s (1 + 16 * statCause f) (some f.addr)).count last b t.sync (left * (t.dw * t.e)) last.clock |>.1, fin, [])
    let at_ := dst + BitVec.ofNat 64 (p.pix * t.dpitch)
    let now := s.unitsNow p.units t.dw
    let row : Except Trap State := do
      let r ← s.tileBytes who b t o.data p.pix now
      let s ← s.tileStore who b o t at_ now r.1
      return s.modOp b.id 0 o.num fun x => { x with data := r.2 }
    match row with
    | .error f => stop s (t.dh - p.pix) f
    | .ok s =>
      if !unitsAll (p.units ++ now) t.dw then (s, p.pix, p.units ++ now)
      else
        let s := s.rowCleared who b 0 1 t.e ((List.range t.dw).map fun c => at_ + BitVec.ofNat 64 (c * t.e))
        let final := p.pix + 1 == t.dh
        let s := if final then stat s 0 none else s
        match s.count who b t.sync (t.dw * t.e) (if final then last.clock else clockSet o.clock who.agent (p.pix + 1)) with
        | (s, none) => (s, if final then fin else p.pix + 1, [])
        | (s, some f) => stop s (t.dh - p.pix - 1) f

/-- Rows of a part after which it has ended. -/
def Part.finish (p : Part) (i : Instr) : Nat :=
  if isCpb i then (sliceOfWords p.regs).rows + 1 else p.tile.dh + 1

def Part.ended (p : Part) (i : Instr) : Bool := decide (p.finish i ≤ p.pix)

/-- Lower slices whose destination meets this one's have ended: the higher GRPIDX's bytes stand last (R311). DEDUCED: log entry 39. -/
def EngOp.turn (o : EngOp) (p : Part) : Bool :=
  o.parts.all fun q => decide (p.grp ≤ q.grp) || q.ended o.instr || !reachesMeet ((sliceOfWords q.regs).reach q.grp) ((sliceOfWords p.regs).reach p.grp)

/-- Groups of the block that have not supplied their slice of a collective and may still (R153). -/
def Block.missing (b : Block) (o : EngOp) : List Group :=
  if isCpb o.instr then
    (b.groups.zipIdx.filter fun x => !o.arrived.contains x.2 && x.1.live != 0).map (·.1)
  else []

/-- A number of four bytes in a block's own scratchpad. -/
def Block.spWord (b : Block) (ofs : Nat) : Nat := leNat ((List.range 4).map fun i => Memory.get b.sp (ofs + i))

/-- A slot stands in a wait whose end has not come, as far as its block shows. -/
def Block.stillWaits (b : Block) (x : Slot) : Bool :=
  match x.wait with
  | none => false
  | some (.bar n ph) | some (.barw n ph) => decide ((b.bar n).outs.length < ph)
  | some (.tl n v) => decide (b.counter n < v)
  | some (.gen l g) => l.store != .sp b.id || !genPassed (b.spWord (l.ofs + 8)) g
  | some (.handle ..) | some (.answer ..) => x.answer.isNone
  | some _ => true

/-- Nothing of the block goes on by itself: every group waits in every slot with its accesses performed, and no engine operation runs. -/
def Block.stands (b : Block) : Bool :=
  (b.groups.all fun g => g.live == 0 || (g.quiet && (g.slotA.isFree || b.stillWaits g.slotA) && (g.slotB.isFree || b.stillWaits g.slotB))) &&
    b.ops.all fun q => q.isDone || (q.tl == 0 && q.state == .queued)

/-- A copy may start: every group that has not exited has supplied its slice (R153), and every earlier copy of the block has completed where
destinations may meet (R307). Where an earlier collective still lacks a slice, its destinations are not known: the copy waits for it, unless
nothing else of the block can go on. DEDUCED: log entry 39. -/
def Block.copyReady (b : Block) (o : EngOp) : Bool :=
  (b.missing o).isEmpty &&
  b.ops.all fun q => q.tl != 0 || decide (o.num ≤ q.num) || q.isDone || (!reachesMeet q.reaches o.reaches && ((b.missing q).isEmpty || b.stands))

/-- A copy has done all its rows. -/
def EngOp.copied (o : EngOp) : Bool := o.parts.all fun p => p.ended o.instr

/-- COPY_ROW: the operation starts if it may, and accesses of one row of slice `slice` (for a CPT, of its tile) perform. DEDUCED: log entry 39. -/
def execCopyRow (blk op slice : Nat) (s : State) : Host.Outcome State Fault Refusal :=
  match s.block? blk with
  | none => .next s
  | some b =>
    match b.op? 0 op with
    | none => .next s
    | some o =>
      if !(o.state == .running || (o.state == .queued && b.copyReady o)) then .next s
      else
        let end_ (s : State) : State := s.modOp blk 0 op fun o => { o with state := if o.copied then .worked else .running }
        match o.parts.find? fun p => !isCpb o.instr || p.grp == slice with
        | none => .next (end_ s)
        | some p =>
          if p.ended o.instr || (isCpb o.instr && !o.turn p) then .next (end_ s)
          else
            let r := if isCpb o.instr then s.sliceRow b o p else s.tileRow b o p
            .next (end_ (r.1.modOp blk 0 op fun o =>
              { o with parts := o.parts.map fun (q : Part) => if q.grp = p.grp then { q with pix := r.2.1, units := r.2.2 } else q }))

/-! ## CPA (R148) -/

/-- The bytes of a lane's transfer: the source as it was read, then zeros. -/
def cpaBytes (src : List Byte) : List Byte := src ++ List.replicate (32 - src.length) 0

/-- Write `u` of a transfer comes after the writes of lower lanes to its place, so that the bytes of the highest lane stand (R322). -/
def CpaOp.turn (c : CpaOp) (now : Nat → Bool) (u : Nat) : Bool :=
  (List.range (u / 4)).all fun j =>
    (c.lanes[j]?).map (·.2.2) != (c.lanes[u / 4]?).map (·.2.2) || c.units.contains (4 * j + u % 4) || now (4 * j + u % 4)

/-- 8-byte writes of a transfer perform, those that `now` picks of the ones still to perform; once all have, its tag's count goes down, after
the older ones of its tag. -/
def State.moveCpa (s : State) (g : GRef) (k : Nat) (now : Nat → Bool) : State :=
  match s.block? g.blk, s.group? g with
  | some b, some x =>
    match x.cpas[k]? with
    | none => s
    | some c =>
      if c.done || (x.cpas.take k).any fun y => y.tag == c.tag && !y.done then s
      else
        let who : Who := { s.groupWho b x g.grp with
          tlb := 768 + b.place.getD 0, agent := c.agent, time := 1, clock := c.clock
          detail := detailWord 0 1 (b.place.getD 0) c.tag g.grp b.ctx 0, pub := [] }
        let us := (List.range (4 * c.lanes.length)).filter fun u => !c.units.contains u && now u && c.turn now u
        let s := us.foldl (fun s u =>
          match c.lanes[u / 4]? with
          | some l => s.perform who ⟨l.2.2.add (8 * (u % 4)), true, false, false⟩ (((cpaBytes l.2.1).drop (8 * (u % 4))).take 8)
          | none => s) s
        if unitsAll (c.units ++ us) (4 * c.lanes.length) then
          s.modGroup g fun x =>
            { x with cpas := modAt x.cpas k fun c => { c with done := true, todo := 0 }, tagc := modAt x.tagc c.tag (· - 1) }
        else s.modGroup g fun x => { x with cpas := modAt x.cpas k fun c => { c with units := c.units ++ us } }
  | _, _ => s

/-- A whole transfer. -/
def State.finishCpa (s : State) (g : GRef) (k : Nat) : State := s.moveCpa g k fun _ => true

/-- CPA_TRANSFER_COMPLETE: writes of a transfer perform, and it completes with the last. -/
def execCpaTransferComplete (g : GRef) (k : Nat) (s : State) : Host.Outcome State Fault Refusal := .next (s.moveCpa g k (Config.units s.tick))

end Sys2Proof.Machine
end

