-- ==== Sys2Proof/Machine/Crypto.lean ====
section
/-! DEFINITION. SHAKE256 and Ed448, by which the boot ROM verifies firmware and the device signs (R425). R425 names RFC 8032; the functions follow
it and FIPS 202 (PRESUMED, log entry 58). -/

namespace Sys2Proof.Machine

open Sys2Proof

/-! ## SHAKE256 -/

/-- The lanes of Keccak-f[1600], lane (x, y) at x + 5y. -/
abbrev Keccak := List (BitVec 64)

def keccakRot : List Nat := [0, 1, 62, 28, 27, 36, 44, 6, 55, 20, 3, 10, 43, 25, 39, 41, 45, 15, 21, 8, 18, 2, 61, 56, 14]

def keccakRound : List (BitVec 64) :=
  [0x1, 0x8082, 0x800000000000808A, 0x8000000080008000, 0x808B, 0x80000001, 0x8000000080008081, 0x8000000000008009, 0x8A, 0x88, 0x80008009,
   0x8000000A, 0x8000808B, 0x800000000000008B, 0x8000000000008089, 0x8000000000008003, 0x8000000000008002, 0x8000000000000080, 0x800A,
   0x800000008000000A, 0x8000000080008081, 0x8000000000008080, 0x80000001, 0x8000000080008008]

/-- The 25 lanes that a function of x and y gives. -/
def lanes25 (f : Nat → Nat → BitVec 64) : Keccak := (List.range 25).map fun i => f (i % 5) (i / 5)

/-- One round. -/
def keccakStep (a : Keccak) (rc : BitVec 64) : Keccak :=
  let at_ (l : Keccak) (x y : Nat) : BitVec 64 := l.getD (x % 5 + 5 * (y % 5)) 0
  let c := (List.range 5).map fun x => (List.range 5).foldl (fun r y => r ^^^ at_ a x y) 0
  let th := lanes25 fun x y => at_ a x y ^^^ c.getD ((x + 4) % 5) 0 ^^^ (c.getD ((x + 1) % 5) 0).rotateLeft 1
  let b := lanes25 fun x y => (at_ th (x + 3 * y) x).rotateLeft (keccakRot.getD ((x + 3 * y) % 5 + 5 * x) 0)
  lanes25 fun x y => at_ b x y ^^^ (~~~ at_ b (x + 1) y &&& at_ b (x + 2) y) ^^^ (if x = 0 ∧ y = 0 then rc else 0)

def keccak (a : Keccak) : Keccak := keccakRound.foldl keccakStep a

/-- A block of 136 bytes enters the state. -/
def keccakTake (a : Keccak) (bs : List Byte) : Keccak :=
  keccak (a.zipIdx.map fun x => if x.2 < 17 then x.1 ^^^ BitVec.ofNat 64 (leNat ((bs.drop (8 * x.2)).take 8)) else x.1)

/-- The first 136 bytes of the state. -/
def keccakGive (a : Keccak) : List Byte := (a.take 17).flatMap fun x => leBytes 8 x.toNat

/-- n bytes of SHAKE256 of a message. -/
def shake256 (m : List Byte) (n : Nat) : List Byte :=
  let gap := 136 - (m.length + 1) % 136
  let padded := m ++ (if gap = 136 then [0x9F] else 0x1F :: List.replicate (gap - 1) 0 ++ [0x80])
  let a := (List.range (padded.length / 136)).foldl (fun a i => keccakTake a ((padded.drop (136 * i)).take 136)) (List.replicate 25 0)
  (((List.range ((n + 135) / 136)).foldl (fun (r : Keccak × List Byte) _ => (keccak r.1, r.2 ++ keccakGive r.1)) (a, [])).2).take n

/-! ## Ed448 -/

def edP : Nat := 2 ^ 448 - 2 ^ 224 - 1

/-- The order of the base point. -/
def edL : Nat := 2 ^ 446 - 0x8335dc163bb124b65129c96fde933d8d723a70aadc873d6d54a7bb0d

def edMul (x y : Nat) : Nat := x * y % edP
def edSub (x y : Nat) : Nat := (x + edP - y % edP) % edP

/-- d = -39081. -/
def edD : Nat := edP - 39081

/-- Bits of an exponent or of a scalar below 2^n, the highest first. -/
def bitsDown (n e : Nat) : List Bool := (List.range n).reverse.map (bit e)

def edPow (x e : Nat) : Nat := (bitsDown 448 e).foldl (fun r b => if b then edMul (edMul r r) x else edMul r r) 1

/-- A point, projective. -/
structure EdPoint where
  x : Nat
  y : Nat
  z : Nat
deriving DecidableEq, Repr

def EdPoint.add (p q : EdPoint) : EdPoint :=
  let a := edMul p.z q.z
  let b := edMul a a
  let c := edMul p.x q.x
  let d := edMul p.y q.y
  let e := edMul edD (edMul c d)
  let f := edSub b e
  let g := (b + e) % edP
  let h := edMul (p.x + p.y) (q.x + q.y)
  ⟨edMul (edMul a f) (edSub (edSub h c) d), edMul (edMul a g) (edSub d c), edMul f g⟩

def EdPoint.mul (p : EdPoint) (n : Nat) : EdPoint :=
  (bitsDown 448 n).foldl (fun r b => if b then (r.add r).add p else r.add r) ⟨0, 1, 1⟩

def EdPoint.same (p q : EdPoint) : Bool := edMul p.x q.z == edMul q.x p.z && edMul p.y q.z == edMul q.y p.z

def edBase : EdPoint :=
  ⟨224580040295924300187604334099896036246789641632564134246125461686950415467406032909029192869357953282578032075146446173674602635247710,
   298819210078481492676017930443930673437544040154080242095928241372331506189835876003536878655418784733982303233503462500531545062832660, 1⟩

/-- A point as 57 bytes. -/
def EdPoint.bytes (p : EdPoint) : List Byte :=
  let i := edPow p.z (edP - 2)
  leBytes 57 (edMul p.y i + (edMul p.x i % 2) * 2 ^ 455)

/-- The point that 57 bytes stand for. -/
def edPoint (bs : List Byte) : Option EdPoint :=
  let v := leNat bs
  let y := v % 2 ^ 455
  let u := edSub (edMul y y) 1
  let w := edSub (edMul edD (edMul y y)) 1
  let u3 := edMul u (edMul u u)
  let x := edMul (edMul u3 w) (edPow (edMul (edMul u3 (edMul u u)) (edMul w (edMul w w))) ((edP - 3) / 4))
  if bs.length ≠ 57 ∨ edP ≤ y ∨ edMul w (edMul x x) ≠ u ∨ (x = 0 ∧ bit v 455) then none
  else some ⟨if bit v 455 = (x % 2 == 1) then x else edP - x, y, 1⟩

/-- The hash of Ed448, a number: SHAKE256 with 114 bytes of output over the prefix of pure Ed448 and the parts. -/
def edHash (m : List Byte) : Nat := leNat (shake256 ([0x53, 0x69, 0x67, 0x45, 0x64, 0x34, 0x34, 0x38, 0, 0] ++ m) 114) % edL

/-- The secret scalar and the prefix of a private key. -/
def edSecret (key : List Byte) : Nat × List Byte :=
  let h := shake256 key 114
  (leNat (h.take 56) % 2 ^ 447 / 4 * 4 + 2 ^ 447, h.drop 57)

/-- The public key of a private key. -/
def edPublic (key : List Byte) : List Byte := (edBase.mul (edSecret key).1).bytes

/-- The signature of a message by a private key. -/
def edSign (key m : List Byte) : List Byte :=
  let s := edSecret key
  let r := edHash (s.2 ++ m)
  let rb := (edBase.mul r).bytes
  rb ++ leBytes 57 ((r + edHash (rb ++ edPublic key ++ m) * s.1) % edL)

/-- Whether a signature of a message is good by a public key. -/
def edVerify (pub m sig : List Byte) : Bool :=
  let n := leNat (sig.drop 57)
  match edPoint pub, edPoint (sig.take 57) with
  | some a, some r =>
    sig.length == 114 && decide (n < edL) &&
      ((edBase.mul n).mul 4).same (((r.add (a.mul (edHash (sig.take 57 ++ pub ++ m)))).mul 4))
  | _, _ => false

end Sys2Proof.Machine
end

