-- ==== Sys2Proof/Machine/Matrix.lean ====
section
/-! DEFINITION. The matrix engine (R179-R189, R299-R306): the issue of its operations, their start, and the steps of the array operations. -/

namespace Sys2Proof.Machine

open Sys2Proof

/-! ## Scalar operands (R180, R181, R183) -/

/-- The accumulator type, whether chunks are narrow, of a type pair; none for an illegal pair (R181). -/
def pairKind (a b : ElemType) : Option (ElemType × Bool) :=
  let e8 (t : ElemType) : Bool := t == .e4m3 || t == .e5m2
  let i8 (t : ElemType) : Bool := t == .i8 || t == .n8
  if (a == .bf16 && b == .bf16) || (a == .f16 && b == .f16) then some (.f32, false)
  else if e8 a && e8 b then some (.f32, true)
  else if i8 a && i8 b then some (.i32, true)
  else if (e8 a && b == .dya8) || (a == .dya8 && e8 b) then some (.f32, true)
  else none

/-- A configuration word (R180). -/
structure MatCfg where
  m : Nat
  n : Nat
  k : Nat
  ta : ElemType
  tb : ElemType
  acc : Bool
  bt : Bool
  sati : Bool
  zsk : Bool
deriving DecidableEq, Repr

def cfgOf (w : Word) : MatCfg :=
  let v := w.toNat
  ⟨64 * (bits v 0 3 + 1), 64 * (bits v 4 4 + 1), 32 * bits v 8 12, elemTypeOf (BitVec.ofNat 4 (bits v 20 4)), elemTypeOf (BitVec.ofNat 4 (bits v 24 4)),
    bit v 28, bit v 29, bit v 30, bit v 31⟩

def cfgMalformed (w : Word) : Bool :=
  let v := w.toNat
  bits v 32 32 != 0 || bit v 3 || bits v 8 12 == 0 || decide (11 < bits v 4 4) || (pairKind (cfgOf w).ta (cfgOf w).tb).isNone

/-- Blocks of 192 columns, blocks in all, steps of one iteration (R299). -/
def MatCfg.colBlocks (c : MatCfg) : Nat := (c.n + 191) / 192
def MatCfg.blocks (c : MatCfg) : Nat := c.m / 64 * c.colBlocks
def MatCfg.steps (c : MatCfg) : Nat := c.k / 32 * c.blocks

/-- An operand pair (R183). -/
structure Opnd where
  spc : Nat
  pitch : Nat
  base : Nat
  rot : Nat
  tpitch : Nat
deriving DecidableEq, Repr

def opndOf (p q : Word) : Opnd := ⟨bits p.toNat 48 4, bits p.toNat 32 16, bits p.toNat 0 32, bits q.toNat 32 4, bits q.toNat 0 32⟩

/-- The malformed one of a pair, P before Q. An SP base of a span peer is malformed (R241). Either operand may stand in WB or AB (R183).
DEDUCED: log entry 31. -/
def pairMalformed (p q : Word) : Option Word :=
  let o := opndOf p q
  if bits p.toNat 52 12 != 0 || decide (3 < o.spc) || decide (o.pitch % 8 ≠ 0) || decide (o.base % 8 ≠ 0) ||
      (o.rot != 0 && (decide (o.base % 256 ≠ 0) || decide (o.pitch % 256 ≠ 0))) || (o.spc == 1 && bits o.base 21 4 != 0) then some p
  else if bits q.toNat 36 28 != 0 then some q
  else none

/-- The input pair of a convolution has no pitch, rotation or tiles (R186). -/
def inputMalformed (p q : Word) : Option Word :=
  let o := opndOf p q
  match pairMalformed p q with
  | some x => some x
  | none => if o.pitch ≠ 0 then some p else if o.rot ≠ 0 ∨ o.tpitch ≠ 0 then some q else none

/-- The address of element (r, q) of w bits over a base (R183). -/
def Opnd.addr (o : Opnd) (base : Int) (r q w : Nat) : Int :=
  let b := (if o.tpitch = 0 then q else q % 32) * w / 8
  let t := if o.tpitch = 0 then 0 else q / 32 * o.tpitch
  let c := b / 8
  base + t + (r * o.pitch : Nat) + (256 * (c / 32) + 8 * ((c + o.rot * r) % 32) + b % 8 : Nat)

/-- Stored row and column of B(k, n): n is local to the member outside SP (R183). -/
def MatCfg.placeB (c : MatCfg) (o : Opnd) (k n : Nat) : Nat × Nat :=
  let n := if o.spc = 1 then n else n % 128
  if c.bt then (n, k) else (k, n)

/-! ## Which instructions -/

def isArray : Instr → Bool
  | .mma .. | .mmal .. | .mconv .. | .mconvl .. => true
  | _ => false

def isConv : Instr → Bool
  | .mconv .. | .mconvl .. => true
  | _ => false

def isLooped : Instr → Bool
  | .mmal .. | .mconvl .. => true
  | _ => false

/-- Records of an array operation: how many of its scalar operands after the configuration are record addresses. -/
def recordCount (i : Instr) : Nat := (if isConv i then 1 else 0) + if isLooped i then 1 else 0

/-- The parts of an array operation's scalar operands: configuration, record addresses, pairs. -/
def cfgWord (v : List Word) : Word := v.getD 0 0
def pairWords (i : Instr) (v : List Word) : Word × Word × Word × Word :=
  let n := 1 + recordCount i
  (v.getD n 0, v.getD (n + 1) 0, v.getD (n + 2) 0, v.getD (n + 3) 0)

/-- The first malformed scalar operand of an array operation (R178). -/
def arrayMalformed (i : Instr) (v : List Word) : Option Word :=
  let p := pairWords i v
  if cfgMalformed (cfgWord v) then some (cfgWord v)
  else
    match (if isConv i then inputMalformed p.1 p.2.1 else pairMalformed p.1 p.2.1) with
    | some x => some x
    | none => pairMalformed p.2.2.1 p.2.2.2

/-! ## Records (R185, R186) -/

structure Level where
  bnd : Nat
  sa : Int
  sb : Int
deriving DecidableEq, Repr

/-- A field of a record. -/
def recNum (bs : List Byte) (o n : Nat) : Nat := leNat ((bs.drop o).take n)

/-- The levels of a loop record; none when it is malformed. -/
def loopOf (bs : List Byte) : Option (List Level) :=
  let nl := recNum bs 60 1
  let ls := (List.range nl).map fun l =>
    (⟨recNum bs (12 * l) 4, (BitVec.ofNat 32 (recNum bs (12 * l + 4) 4)).toInt, (BitVec.ofNat 32 (recNum bs (12 * l + 8) 4)).toInt⟩ : Level)
  if nl = 0 ∨ 5 < nl ∨ recNum bs 61 3 ≠ 0 then none
  else if ls.all fun (l : Level) => decide (1 ≤ l.bnd) && decide (l.bnd ≤ 65536) then some ls else none

structure Shape where
  nb : Nat
  h : Nat
  w : Nat
  c : Nat
  kh : Nat
  kw : Nat
  sh : Nat
  sw : Nat
  dh : Nat
  dw : Nat
  ph : Nat
  pw : Nat
  padv : Nat
  nchw : Bool
  m0 : Nat
  k0 : Nat
deriving DecidableEq, Repr

def shapeOfBytes (bs : List Byte) : Shape :=
  let n := recNum bs
  ⟨n 0 4, n 4 4, n 8 4, n 12 4, n 16 2, n 18 2, n 20 2, n 22 2, n 24 2, n 26 2, n 28 2, n 30 2, n 32 4, n 36 1 == 1, n 40 4, n 44 4⟩

/-- The output extents (R186), as integers: 0 or less when the window does not fit. -/
def Shape.oh (s : Shape) : Int := ((s.h : Int) + 2 * s.ph - s.dh * (s.kh - 1) - 1) / s.sh + 1
def Shape.ow (s : Shape) : Int := ((s.w : Int) + 2 * s.pw - s.dw * (s.kw - 1) - 1) / s.sw + 1

def shapeMalformed (bs : List Byte) : Bool :=
  let s := shapeOfBytes bs
  let big (x : Nat) : Bool := x == 0 || decide (65536 < x)
  let small (x : Nat) : Bool := x == 0 || decide (256 < x)
  big s.nb || big s.h || big s.w || big s.c || small s.kh || small s.kw || small s.sh || small s.sw || small s.dh || small s.dw ||
    decide (255 < s.ph) || decide (255 < s.pw) || decide (1 < recNum bs 36 1) || recNum bs 37 3 != 0 || decide (s.k0 % 32 ≠ 0) || recNum bs 48 16 != 0 ||
    decide (s.oh < 1) || decide (s.ow < 1)

/-- What A(i, k) of an implicit convolution is: absent, padding, or the input element of a number (R186). -/
inductive ConvElem where
  | absent
  | pad
  | elem (n : Nat)
deriving DecidableEq, Repr

def Shape.elem (s : Shape) (i k : Nat) : ConvElem :=
  let oh := s.oh.toNat
  let ow := s.ow.toNat
  let p := s.m0 + i
  if s.nb * oh * ow ≤ p ∨ s.kh * s.kw * s.c ≤ k then .absent
  else
    let nb := p / ow / oh
    let ch := k % s.c
    let h : Int := (p / ow % oh * s.sh : Nat) - (s.ph : Int) + (k / s.c / s.kw * s.dh : Nat)
    let x : Int := (p % ow * s.sw : Nat) - (s.pw : Int) + (k / s.c % s.kw * s.dw : Nat)
    if 0 ≤ h ∧ h < s.h ∧ 0 ≤ x ∧ x < s.w then
      if s.nchw then .elem (((nb * s.c + ch) * s.h + h.toNat) * s.w + x.toNat)
      else .elem (((nb * s.h + h.toNat) * s.w + x.toNat) * s.c + ch)
    else .pad

/-- The address of a record: SP when bit 63 is 0, else global; the remaining bits are the address (R179). DEDUCED: log entry 31. -/
def recordAddr (x : Word) : Word := x &&& 0x7FFFFFFFFFFFFFFF

/-- The records of an operation as the engine reads them, one after the other; a malformed one stops it with its address (R178). -/
def State.readRecords (s : State) (b : Block) (o : EngOp) : Except Trap (List Byte) :=
  (List.range (recordCount o.instr)).foldlM (fun acc j =>
    let x := o.opa.getD (1 + j) 0
    let a := recordAddr x
    match s.engRead (o.who b) b (!bit x.toNat 63) a 64 64 with
    | .error t => .error t
    | .ok bs =>
      let bad := if isConv o.instr && j == 0 then shapeMalformed bs else (loopOf bs).isNone
      if bad then .error { plainTrap .prot 7 with addr := a } else .ok (acc ++ bs)) []

def EngOp.recordBytes (o : EngOp) : List Byte := o.data.flatMap fun w => leBytes 8 w.toNat

def EngOp.shape (o : EngOp) : Option Shape := if isConv o.instr then some (shapeOfBytes (o.recordBytes.take 64)) else none

/-- The levels of the iteration space, none for a form without a loop. -/
def EngOp.levels (o : EngOp) : List Level :=
  if isLooped o.instr then (loopOf (o.recordBytes.drop (64 * (recordCount o.instr - 1)))).getD [] else []

/-- Iterations in all. -/
def levelsTotal (ls : List Level) : Nat := ls.foldl (fun n l => n * l.bnd) 1

/-- The number of the iteration with a vector. -/
def iterNumber : List Level → List Nat → Nat
  | [], _ => 0
  | l :: ls, iv => iv.headD 0 + l.bnd * iterNumber ls (iv.drop 1)

/-- The vector of an iteration, five levels long. -/
def iterVector (ls : List Level) (t : Nat) : List Nat :=
  ((ls.foldl (fun (acc : List Nat × Nat) (l : Level) => (acc.1 ++ [acc.2 % l.bnd], acc.2 / l.bnd)) ([], t)).1 ++ [0, 0, 0, 0, 0]).take 5

/-- A progress point inside the iteration space (R304). -/
def insideSpace (ls : List Level) (steps pix : Nat) (iv : List Nat) : Bool :=
  decide (pix < steps) && (List.range 5).all fun l =>
    match ls[l]? with
    | some x => decide (iv.getD l 0 < x.bnd)
    | none => iv.getD l 0 == 0

/-- What one step of an operation works on. -/
structure StepCtx where
  c : MatCfg
  pa : Opnd
  pb : Opnd
  baseA : Int
  baseB : Int
  shape : Option Shape
  /-- The iteration, the chunk, the first row and column of the block. -/
  t : Nat
  chunk : Nat
  row : Nat
  col : Nat
  /-- Index of the first k of the chunk, as operand addresses count it. -/
  k : Nat
deriving DecidableEq, Repr

def EngOp.stepCtx (o : EngOp) : StepCtx :=
  let c := cfgOf (cfgWord o.opa)
  let p := pairWords o.instr o.opa
  let pa := opndOf p.1 p.2.1
  let pb := opndOf p.2.2.1 p.2.2.2
  let ls := o.levels
  let t := iterNumber ls o.ivec
  let sum (f : Level → Int) : Int := (ls.zip o.ivec).foldl (fun n x => n + (x.2 : Int) * f x.1) 0
  let chunk := o.pix / c.blocks
  let blk := o.pix % c.blocks
  let k := match o.shape with
    | some sh => sh.k0 + t * c.k + 32 * chunk
    | none => 32 * chunk
  ⟨c, pa, pb, pa.base + sum Level.sa, pb.base + sum Level.sb, o.shape, t, chunk, 64 * (blk / c.colBlocks), 192 * (blk % c.colBlocks), k⟩

/-! ## Issue -/

/-- The S registers of a run. -/
def Iss.sRun (i : Iss) (r : BitVec 6) (n : Nat) : List Word := (List.range n).map fun j => i.g.rdS i.sl.wb (r.toNat + j)

/-- The members of the executing group's gang, ascending: member m is the m-th (R182). -/
def Iss.gangMembers (i : Iss) : List Nat := if i.g.gang = 0 then [i.gr.grp] else lanesOf i.g.gang

def Word.spc (p : Word) : Nat := bits p.toNat 48 4

/-- The lower of an address that lies out of range, as the 64-bit number it is, and the lowest so far. -/
def lowerOut (best : Option Nat) (a : Int) : Option Nat :=
  let n := (BitVec.ofInt 64 a).toNat
  if n < 16384 then best else some (match best with | some x => min x n | none => n)

/-- The register addresses of A and B that one iteration reads from member m's registers (R183, R186). -/
def StepCtx.registers (x : StepCtx) (m : Nat) : List Int :=
  let cols := min 128 (x.c.n - 128 * m)
  (if x.pa.spc = 0 ∧ m = 0 then
    (List.range x.c.m).flatMap fun i => (List.range x.c.k).filterMap fun k =>
      match x.shape with
      | none => some (x.pa.addr x.baseA i k (width x.c.ta))
      | some sh => match sh.elem i (x.k + k) with
        | .elem n => some (x.baseA + ((width x.c.ta / 8 * n : Nat) : Int))
        | _ => none
  else []) ++
  (if x.pb.spc = 0 then
    (List.range x.c.k).flatMap fun k => (List.range cols).map fun n =>
      let p := x.c.placeB x.pb (x.k + k) n
      x.pb.addr x.baseB p.1 p.2 (width x.c.tb)
  else [])

/-- The lowest gang-register address out of range of member m, over all iterations of an operation whose records have been read (R183). A
negative address is a high one. -/
def EngOp.registersOut (o : EngOp) (m : Nat) : Option Nat :=
  (List.range (levelsTotal o.levels)).foldl (fun best t =>
    (({ o with pix := 0, ivec := iterVector o.levels t } : EngOp).stepCtx.registers m).foldl lowerOut best) none

/-- The operation with the words of its records. -/
def EngOp.withRecords (o : EngOp) (bs : List Byte) : EngOp :=
  { o with data := (List.range (bs.length / 8)).map fun j => BitVec.ofNat 64 (recNum bs (8 * j) 8) }

/-- The check of gang-register addresses at a member's issue. The records give the addresses of a looped form and of a convolution, and
software may not change them from here on (R176): a record that cannot be read, or is malformed, is found by the engine (R178). DEDUCED: log entry 31. -/
def Iss.registersOut (i : Iss) (instr : Instr) (v : List Word) (m : Nat) : Option Nat :=
  let o := i.newOp instr 1 i.gangMembers 0 v [] [] 0
  let p := pairWords instr v
  if Word.spc p.1 ≠ 0 ∧ Word.spc p.2.2.1 ≠ 0 then none
  else
    match i.s.readRecords i.b o with
    | .ok bs => (o.withRecords bs).registersOut m
    | .error _ => none

/-- The members that a group's mask named at its joint instruction of a count, once it has issued that since its last GANGSET: a mask stands
from one GANGSET to the next (R182). DEDUCED: log entry 35. -/
def Block.maskAt (b : Block) (grp index : Nat) : Option (List Nat) :=
  match b.groups[grp]? with
  | some g => if index < g.gangCount then some (if g.gang = 0 then [grp] else lanesOf g.gang) else none
  | none => none

/-- A group's joint instruction of a count was met by one of another mask: their masks differ, and one of them names the other. -/
def Block.clashedAt (b : Block) (grp : Nat) (members : List Nat) (index : Nat) : Bool :=
  (List.range b.groups.length).any fun h =>
    h != grp && match b.maskAt h index with
      | some m => (members.contains h || m.contains grp) && m != members
      | none => false

/-- Groups whose masks are to be compared with that of a group's joint instruction, and differ, or whose own comparison has failed (R182). DEDUCED: log entry 35. -/
def Block.clashes (b : Block) (grp : Nat) (members : List Nat) (index : Nat) : List Nat :=
  (List.range b.groups.length).filter fun h =>
    h != grp && match b.maskAt h index with
      | some m => (members.contains h || m.contains grp) && (m != members || b.clashedAt h m index)
      | none => false

/-- A joint operation that waits for arrivals. -/
def EngOp.waits (o : EngOp) : Bool := isArray o.instr && o.state == .queued && !o.complete

/-- Claims n bytes of a core's CB from a row on. -/
def State.claimCb (s : State) (b : Block) (o : EngOp) (core row n : Nat) : State :=
  s.claimFree (o.who b) ⟨cbLoc b.id core row 0, true, false, false⟩ n

/-- Claims of an array operation: every member's rows at the local columns it writes (R271). -/
def State.claimArray (s : State) (b : Block) (o : EngOp) : State :=
  let c := cfgOf (cfgWord o.opa)
  (List.range o.members.length).foldl (fun s m =>
    let n := min 128 (c.n - 128 * m)
    if n = 0 then s
    else if n = 128 then s.claimCb b o (o.members.getD m 0 % 6) 0 (512 * c.m)
    else (List.range c.m).foldl (fun s r => s.claimCb b o (o.members.getD m 0 % 6) r (4 * n)) s) s

/-- The V registers of the window, and the lanes whose elements are absent (R183, R302). -/
def Iss.snapshot (i : Iss) : List Word := (List.range 64).flatMap fun r => (List.range 32).map fun l => i.g.rdV i.sl.wb r l

def Iss.goneLanes (i : Iss) : Lanes := ~~~ (i.g.live &&& ~~~ i.g.helper)

/-- The group joins an operation that waits for it, or begins one; then masks and parts are compared (R182). DEDUCED: log entry 35. -/
def Iss.join (i : Iss) (instr : Instr) (v : List Word) (members : List Nat) : State :=
  let index := i.g.gangCount
  let p := pairWords instr v
  let regs := if Word.spc p.1 = 0 ∨ Word.spc p.2.2.1 = 0 then i.snapshot else []
  let old := i.b.ops.find? fun o => o.waits && o.index == index && o.members == members && !o.arrived.contains i.gr.grp
  let o := match old with
    | some o => { o with instr := instr, parts := o.parts ++ [i.part v regs i.goneLanes], clock := clockJoin o.clock i.g.known }
    | none => i.newOp instr 1 members index v [] regs i.goneLanes
  let s := if old.isNone then ({ i.s with nextAgent := i.s.nextAgent + 1 }).claimArray i.b o else i.s
  s.modBlock i.gr.blk fun b =>
    let b := if old.isNone then b.addOp o else b.modOp 1 o.num fun _ => o
    let b := b.modGroup i.gr.grp fun g => { g.issuedOp 1 o.num with gangCount := index + 1 }
    let bad := i.b.clashes i.gr.grp members index
    if !bad.isEmpty then
      (b.ops.filter fun x => isArray x.instr && (x.state == .queued || x.state == .running) && x.index == index &&
        (x.num == o.num || (i.gr.grp :: bad).any x.members.contains)).foldl (fun b x => b.stopOp x (plainTrap .gang 7)) b
    else if o.complete then b.meet o
    else if b.memberGone o then b.stopOp o (plainTrap .gang 8)
    else b

/-- A joint instruction's issue: its checks in the order of R391, then its part in the operation. -/
def Iss.array (i : Iss) (instr : Instr) (v : List Word) : Res :=
  let members := i.gangMembers
  if !i.b.matrix then .trap (plainTrap .prot 5)
  else
    match arrayMalformed instr v with
    | some x => .trap { plainTrap .prot 7 with addr := x }
    | none =>
      if 128 * members.length < (cfgOf (cfgWord v)).n then .trap (plainTrap .gang 5)
      else
        match i.registersOut instr v (members.idxOf i.gr.grp) with
        | some a => .trap { plainTrap .prot 2 with addr := BitVec.ofNat 64 a }
        | none =>
          if !i.g.quiet then i.stall
          else if 4 ≤ (i.b.ops.filter fun o => o.waits && o.members == members).length &&
              !(i.b.ops.any fun o => o.waits && o.index == i.g.gangCount && o.members == members && !o.arrived.contains i.gr.grp) then i.stall
          else .done (i.join instr v members) false

def execMma (d a b : BitVec 6) (s : State) : Host.Outcome State Fault Refusal :=
  s.run fun i => i.array (.mma d a b) (i.sRun d 1 ++ i.sRun a 2 ++ i.sRun b 2)

def execMmal (d a b : BitVec 6) (s : State) : Host.Outcome State Fault Refusal :=
  s.run fun i => i.array (.mmal d a b) (i.sRun d 2 ++ i.sRun a 2 ++ i.sRun b 2)

def execMconv (d a b : BitVec 6) (s : State) : Host.Outcome State Fault Refusal :=
  s.run fun i => i.array (.mconv d a b) (i.sRun d 2 ++ i.sRun a 2 ++ i.sRun b 2)

def execMconvl (d a b : BitVec 6) (s : State) : Host.Outcome State Fault Refusal :=
  s.run fun i => i.array (.mconvl d a b) (i.sRun d 3 ++ i.sRun a 2 ++ i.sRun b 2)

/-! ## Operations of one CB (R187, R188) -/

/-- The drain specification of MDST and MLDA. -/
structure DrainSpec where
  ty : ElemType
  pitch : Nat
  cnt : Nat
  row : Nat
deriving DecidableEq, Repr

def drainSpecOf (w : Word) : DrainSpec := ⟨elemTypeOf (BitVec.ofNat 4 (bits w.toNat 48 4)), bits w.toNat 32 16, bits w.toNat 16 16, bits w.toNat 0 16⟩

def drainTypes (store : Bool) : List ElemType := if store then [.f32, .bf16, .f16, .e4m3, .e5m2, .i32] else [.f32, .i32]

def drainMalformed (store : Bool) (w : Word) : Bool :=
  let d := drainSpecOf w
  bits w.toNat 52 12 != 0 || !(drainTypes store).contains d.ty || decide (d.pitch % 256 ≠ 0) || d.cnt == 0 || decide (512 < d.cnt) || decide (512 < d.row + d.cnt)

/-- Bytes of a memory row. -/
def DrainSpec.bytes (d : DrainSpec) : Nat := 128 * (width d.ty / 8)

/-- The pieces of one granule that n bytes from a global, SP or buffer address fall into. -/
def rowPieces (a : Word) (n : Nat) : List Word := (List.range (n / 32)).map fun j => a + BitVec.ofNat 64 (32 * j)

/-- The places of an engine's row. DEDUCED: log entry 8. -/
def State.engRow (s : State) (who : Who) (b : Block) (grp spc : Nat) (a : Word) (n : Nat) (w race : Bool) : Except Trap (List Acc) :=
  (rowPieces a n).foldlM (fun acc x =>
    match s.copyCheck who b grp spc x 32 w race with
    | .ok p => Except.ok (acc ++ [p])
    | .error t => .error t) []

/-- Stores 8-byte units of a row at its places. -/
def State.putUnits (s : State) (b : Block) (o : EngOp) (ps : List Acc) (us : List Nat) (bs : List Byte) : State :=
  us.foldl (fun s u =>
    match ps[u / 4]? with
    | some p => s.performOp b o (o.who b) { p with loc := p.loc.add (8 * (u % 4)) } ((bs.drop (8 * u)).take 8)
    | none => s) s

/-- Claims the rows an MDST will write. -/
def State.claimRows (s : State) (b : Block) (o : EngOp) (spc : Nat) (d : DrainSpec) (a : Word) : State :=
  (List.range d.cnt).foldl (fun s r =>
    (rowPieces (a + BitVec.ofNat 64 (r * d.pitch)) d.bytes).foldl (fun s x =>
      match s.copyCheck (o.who b) b o.grp spc x 32 true false with
      | .ok p => s.claimFree (o.who b) p 32
      | .error _ => s) s) s

/-- The range of an address operand of MDST and MLDA (R126), a span peer's SP address, which is malformed (R241), then its alignment to 256. DEDUCED: log entry 31. -/
def engRange (spc : Nat) (x : Word) : Except Trap Unit :=
  let a := x.toNat
  let out := match spc with
    | 0 => !canonicalVa a
    | 1 => decide (2 ^ 25 ≤ a) || decide (5 < bits a 18 3) || (!bit a 24 && bits a 21 3 != 0)
    | _ => decide (2 ^ 19 ≤ a)
  if out then .error { plainTrap (if spc = 0 then .page else .prot) (if spc = 0 then 1 else 2) with addr := x }
  else if spc = 1 ∧ bit a 24 then .error { plainTrap .prot 7 with addr := x }
  else if a % 256 ≠ 0 then .error { plainTrap .align 1 with addr := x }
  else .ok ()

def cbOrStall (i : Iss) (r : Unit → Res) : Res :=
  if !i.b.matrix then .trap (plainTrap .prot 5) else r ()

def execMzero (s : State) : Host.Outcome State Fault Refusal :=
  s.run fun i => cbOrStall i fun _ =>
    if !i.g.quiet then i.stall
    else
      let r := i.issueOp .mzero 1 [] []
      .done (r.2.claimCb i.b r.1 (i.gr.grp % 6) 0 262144) false

def execMdrn (a b : Src) (s : State) : Host.Outcome State Fault Refusal :=
  s.run fun i => orTrap (i.checkSca .i64 [a, b]) fun _ => cbOrStall i fun _ =>
    let row := i.uni a
    let cnt := i.uni b
    if 511 < row.toNat then .trap { plainTrap .prot 7 with addr := row }
    else if cnt.toNat = 0 ∨ 512 < cnt.toNat then .trap { plainTrap .prot 7 with addr := cnt }
    else if 512 < row.toNat + cnt.toNat then .trap { plainTrap .prot 7 with addr := row }
    else if !i.g.quiet then i.stall
    else .done (i.issueOp (.mdrn a b) 1 [row, cnt] []).2 false

/-- MDST and MLDA: their checks, then the operation with its claim. -/
def Iss.drainOp (i : Iss) (instr : Instr) (store : Bool) (d : BitVec 6) (a b : Src) (x : BitVec 2) : Res :=
  orTrap (i.checkSca .i64 [a, b]) fun _ => cbOrStall i fun _ =>
    let w := i.g.rdS i.sl.wb d.toNat
    let at_ := i.uni a + i.uni b
    if drainMalformed store w then .trap { plainTrap .prot 7 with addr := w }
    else
      orTrap (engRange x.toNat at_) fun _ =>
        if !i.g.quiet then i.stall
        else
          let r := i.issueOp instr 1 [w, i.uni a, i.uni b] []
          let sp := drainSpecOf w
          let s := if store then r.2.claimRows i.b r.1 x.toNat sp at_
            else r.2.claimCb i.b r.1 (i.gr.grp % 6) sp.row (512 * sp.cnt)
          .done (if store && x == 0 then s.touchOutside i.gr.blk else s) false

def execMdst (d : BitVec 6) (a b : Src) (x : BitVec 2) (s : State) : Host.Outcome State Fault Refusal :=
  s.run fun i => i.drainOp (.mdst d a b x) true d a b x

def execMlda (d : BitVec 6) (a b : Src) (x : BitVec 2) (s : State) : Host.Outcome State Fault Refusal :=
  s.run fun i => i.drainOp (.mlda d a b x) false d a b x

/-- MQRY .cap (R189). -/
def matCap : Word := 0x421C040B7

def execMqry (d : BitVec 6) (sel : MqSel) (s : State) : Host.Outcome State Fault Refusal :=
  s.run fun i => cbOrStall i fun _ =>
    let core := i.gr.grp % 6
    i.putD (.reg d) (match sel with
      | .cap => matCap
      | .drn => BitVec.ofNat 64 ((i.b.drainsOf core).foldl (fun n o => n + (o.drainRows - o.pix)) 0)
      | .res => BitVec.ofNat 64 (SMap.get 0 i.s.residues i.cluster))

/-! ## Start (R299) -/

/-- The cores whose CB an operation touches. -/
def EngOp.cbCores (o : EngOp) : List Nat :=
  if isArray o.instr then
    ((List.range o.members.length).filter fun m => decide (128 * m < (cfgOf (cfgWord o.opa)).n)).map fun m => o.members.getD m 0 % 6
  else [o.grp % 6]

/-- The t1 operations of a block that come before an operation on one of its CBs. -/
def Block.before1 (b : Block) (o : EngOp) : List EngOp :=
  b.ops.filter fun q => q.tl == 1 && decide (q.num < o.num) && q.cbCores.any o.cbCores.contains

/-- A t1 operation of a placed block may begin (R299): every earlier one has begun, those on its CBs have completed, and of the array operations
one runs at a time. -/
def Block.mayStart1 (b : Block) (o : EngOp) : Bool :=
  b.place.isSome && o.tl == 1 && o.state == .queued && o.complete && (b.before1 o).all EngOp.isDone &&
    (b.ops.all fun q => q.tl != 1 || decide (o.num ≤ q.num) || q.begun || q.state != .queued) &&
    (!isArray o.instr || b.ops.all fun q => q.tl != 1 || decide (o.num ≤ q.num) || !isArray q.instr || q.isDone)

/-- The members' PIX, which a resumption left standing, goes to 0 once the operation is past the resumed iteration (R299). DEDUCED: log entry 32. -/
def Block.clearPix (b : Block) (o : EngOp) : Block :=
  let b := o.parts.foldl (fun b p => if p.pix = 0 then b else b.modGroup p.grp fun g => { g with pix := 0 }) b
  b.modOp o.tl o.num fun x => { x with parts := x.parts.map fun (p : Part) => { p with pix := 0 } }

/-- The operation has done its work. -/
def State.endOp (s : State) (blk : Nat) (o : EngOp) : State := (s.modBlock blk fun b => b.clearPix o).workedOp blk o

/-- One row of an MDST: its bytes and flags. -/
def State.mdstRow (s : State) (b : Block) (o : EngOp) (d : DrainSpec) (r : Nat) : List Byte × Flags :=
  let es := (List.range 128).map fun c => s.num (cbLoc b.id (o.grp % 6) (d.row + r) c) 4
  if d.ty = .i32 ∨ d.ty = .f32 then (es.flatMap fun x => leBytes 4 x, 0)
  else
    let rs := es.map fun x => convertVal d.ty (modeRnd o.mode) (modeSat o.mode) (decodeElem .f32 x)
    (rs.flatMap fun x => leBytes (width d.ty / 8) x.1, rs.foldl (fun f x => f ||| x.2) 0)

/-- Accesses of the row of an MDST or MLDA at its progress index perform, and with the last of them the row; a fault stops it there (R187, R177,
R253). -/
def State.drainRow (s : State) (b : Block) (o : EngOp) (spc : Nat) (store : Bool) : State :=
  let d := drainSpecOf (o.opa.getD 0 0)
  let a := o.opa.getD 1 0 + o.opa.getD 2 0 + BitVec.ofNat 64 (o.pix * d.pitch)
  let who := o.who b
  let row := cbLoc b.id (o.grp % 6) (d.row + o.pix) 0
  match s.engRow who b o.grp spc a d.bytes store true with
  | .error t => s.modBlock b.id fun b => b.stopOp o t
  | .ok ps =>
    match s.cbRace who row 512 (!store) with
    | some t => s.modBlock b.id fun b => b.stopOp o t
    | none =>
      let n := d.bytes / 8
      let now := s.unitsNow o.units n
      let r := if store then s.mdstRow b o d o.pix else (ps.flatMap fun p => s.bytes p.loc 32, 0)
      let s := if store then s.putUnits b o ps now r.1 else s.putUnits b o ((List.range 16).map fun j => ⟨row.add (32 * j), true, false, false⟩) now r.1
      if !unitsAll (o.units ++ now) n then s.modOp b.id 1 o.num fun o => o.setUnits (o.units ++ now)
      else
        let s := if store then s.clearCovered (ps.map fun p => (p.loc, 32)) else s
        let s := s.modOp b.id 1 o.num fun o => { o.setUnits [] with flags := o.flags ||| r.2 }
        if o.pix + 1 < d.cnt then s.modOp b.id 1 o.num fun o => { o with pix := o.pix + 1 } else s.endOp b.id { o with pix := o.pix + 1 }

/-- An array operation begins: its operands are in force, its records are read, its progress point is checked (R304). -/
def State.startArray (s : State) (b : Block) (o : EngOp) : Except Trap EngOp :=
  match arrayMalformed o.instr o.opa with
  | some x => .error { plainTrap .prot 7 with addr := x }
  | none =>
    if 128 * o.members.length < (cfgOf (cfgWord o.opa)).n then .error (plainTrap .gang 5)
    else
      match s.readRecords b o with
      | .error t => .error t
      | .ok bs =>
        let o := { o.withRecords bs with state := .running }
        if insideSpace o.levels (cfgOf (cfgWord o.opa)).steps o.pix o.ivec then .ok o
        else .error { plainTrap .prot 7 with addr := if recordCount o.instr = 0 || !isLooped o.instr then 0 else recordAddr (o.opa.getD (recordCount o.instr) 0) }

/-- What stops an MDST or MLDA as it begins: only software that has edited its queue entry or its PIX leaves it malformed, or its progress point
outside its rows (R304, R306). DEDUCED: log entry 32. -/
def EngOp.drainBad (o : EngOp) (store : Bool) (spc : Nat) : Option Trap :=
  let w := o.opa.getD 0 0
  if drainMalformed store w then some { plainTrap .prot 7 with addr := w }
  else
    match engRange spc (o.opa.getD 1 0 + o.opa.getD 2 0) with
    | .error t => some t
    | .ok _ => if (drainSpecOf w).cnt ≤ o.pix then some (plainTrap .prot 7) else none

/-- An operation as it begins: it knows what the operations before it on its CBs have released (R176, R273). -/
def Block.starting (b : Block) (o : EngOp) : EngOp := { o with clock := (b.before1 o).foldl (fun c (q : EngOp) => clockJoin c q.rel) o.clock }

/-- MATRIX_OP_START: a t1 operation begins; MZERO is carried out. -/
def execMatrixOpStart (blk op : Nat) (s : State) : Host.Outcome State Fault Refusal :=
  match s.block? blk with
  | none => .next s
  | some b =>
    match b.op? 1 op with
    | none => .next s
    | some o =>
      if !b.mayStart1 o then .next s
      else
        let o := b.starting o
        let o := { o with begun := true }
        let s := s.modOp blk 1 op fun _ => { o with state := .running }
        match o.instr with
        | .mzero =>
          let all := cbLoc blk (o.grp % 6) 0 0
          match s.cbRace (o.who b) all 262144 true with
          | some t => .next (s.modBlock blk fun b => b.stopOp o t)
          | none => .next ((s.performOp b o (o.who b) ⟨all, true, false, false⟩ (List.replicate 262144 0)).endOp blk o)
        | .mdrn .. => .next s
        | .mdst _ _ _ x => .next (match o.drainBad true x.toNat with | some t => s.modBlock blk fun b => b.stopOp o t | none => s)
        | .mlda _ _ _ x => .next (match o.drainBad false x.toNat with | some t => s.modBlock blk fun b => b.stopOp o t | none => s)
        | _ =>
          match s.startArray b o with
          | .ok o => .next (s.modOp blk 1 op fun _ => o)
          | .error t => .next (s.modBlock blk fun b => b.stopOp o t)

/-! ## One step (R184, R299) -/

/-- An element at an address of an operand's space, for member m; none when it is absent (R183). A register that was not captured at the issue, which
only a handler's edit of OPA can name, reads as a free value (DESIGN CHOICE, log entry 69). -/
def State.matElem (s : State) (b : Block) (o : EngOp) (p : Opnd) (w m : Nat) (a : Int) : Except Trap (Option Nat) :=
  let grp := o.members.getD m 0
  if p.spc = 0 then
    if a < 0 ∨ 16384 ≤ a then .error { plainTrap .prot 2 with addr := BitVec.ofInt 64 a }
    else
      let n := a.toNat
      let lane := n % 256 / 8
      match o.parts.find? fun x => x.grp == grp with
      | none => .ok none
      | some x => .ok (if laneIn x.gone lane then none else some (bits (x.regs.getD (n / 256 * 32 + lane) (Config.uncaptured o.agent (n / 256 * 32 + lane))).toNat (8 * (n % 8)) w))
  else
    match s.copyCheck (o.who b) b grp p.spc (BitVec.ofInt 64 a) (w / 8) false true with
    | .ok x => .ok (some (s.num x.loc (w / 8)))
    | .error t => .error t

/-- A(i, k). DEDUCED: log entry 31. -/
def State.elemA (s : State) (b : Block) (o : EngOp) (x : StepCtx) (i k : Nat) : Except Trap (Option Nat) :=
  let w := width x.c.ta
  match x.shape with
  | none => s.matElem b o x.pa w 0 (x.pa.addr x.baseA i k w)
  | some sh =>
    match sh.elem i k with
    | .absent => .ok none
    | .pad =>
      let v := sh.padv % 2 ^ w
      .ok (match decodeElem x.c.ta v with
        | .fin false 0 _ _ => none
        | _ => some v)
    | .elem n => s.matElem b o x.pa w 0 (x.baseA + ((w / 8 * n : Nat) : Int))

/-- B(k, n). -/
def State.elemB (s : State) (b : Block) (o : EngOp) (x : StepCtx) (k n : Nat) : Except Trap (Option Nat) :=
  let p := x.c.placeB x.pb k n
  s.matElem b o x.pb (width x.c.tb) (n / 128) (x.pb.addr x.baseB p.1 p.2 (width x.c.tb))

def isZeroVal : Val → Bool
  | .fin _ 0 _ _ => true
  | _ => false

/-- The chunk of row `a` and column `v` applied to an accumulator. Under ZSK an absent element of A counts as zero (DEDUCED, log entry 69). -/
def StepCtx.apply (x : StepCtx) (i0 : Nat) (a v : List (Option Nat)) : Nat × Flags :=
  match pairKind x.c.ta x.c.tb with
  | none => (i0, 0)
  | some kd =>
    let va := a.map fun e => e.map (decodeElem x.c.ta)
    let vb := v.map fun e => e.map (decodeElem x.c.tb)
    let skip := x.c.zsk && va.all fun e => match e with | some y => isZeroVal y | none => true
    let ts := if skip then [] else ((va.zip vb).zipIdx).filterMap fun y =>
      match y.1 with
      | (some p, some q) => some (⟨y.2, p, q⟩ : Term)
      | _ => none
    canon kd.1 kd.2 x.c.sati i0 ts

/-- One row of the block: its outputs written to each member's CB. -/
def State.stepRow (s : State) (b : Block) (o : EngOp) (x : StepCtx) (i : Nat) (a : List (Option Nat)) (cols : List (Nat × List (Option Nat))) : State × Flags :=
  let fresh := x.t == 0 && x.chunk == 0 && !x.c.acc
  cols.foldl (fun (acc : State × Flags) y =>
    let l := cbLoc b.id (o.members.getD (y.1 / 128) 0 % 6) i (y.1 % 128)
    let r := x.apply (if fresh then 0 else s.num l 4) a y.2
    (acc.1.performOp b o (o.who b) ⟨l, true, false, false⟩ (leBytes 4 r.1), acc.2 ||| r.2)) (s, 0)

/-- The first place of a step's outputs at which it races, by row. DEDUCED: log entry 33. -/
def State.stepRace (s : State) (b : Block) (o : EngOp) (x : StepCtx) (n : Nat) : Option Trap :=
  (List.range 64).findSome? fun i => (List.range ((x.col + n - 1) / 128 + 1 - x.col / 128)).findSome? fun j =>
    let m := x.col / 128 + j
    let c0 := max x.col (128 * m)
    let c1 := min (x.col + n) (128 * m + 128)
    s.cbRace (o.who b) (cbLoc b.id (o.members.getD m 0 % 6) (x.row + i) (c0 % 128)) (4 * (c1 - c0)) true

/-- The step at the progress point: one chunk for 64 rows by at most 192 columns. DEDUCED: log entry 32. -/
def State.matStep (s : State) (b : Block) (o : EngOp) : Except Trap (State × Flags) := do
  let x := o.stepCtx
  let ks := (List.range 32).map (x.k + ·)
  let as ← (List.range 64).mapM fun r => ks.mapM fun k => s.elemA b o x (x.row + r) k
  let bs ← (List.range (min 192 (x.c.n - x.col))).mapM fun n => do
    let v ← ks.mapM fun k => s.elemB b o x k (x.col + n)
    .ok (x.col + n, v)
  match s.stepRace b o x (min 192 (x.c.n - x.col)) with
  | some t => .error t
  | none => .ok (as.zipIdx.foldl (fun (acc : State × Flags) y =>
    let r := acc.1.stepRow b o x (x.row + y.2) y.1 bs
    (r.1, acc.2 ||| r.2)) (s, 0))

/-- The operation after a step: the next step, the next iteration, or the end of its work. DEDUCED: log entry 32. -/
def State.stepDone (s : State) (blk : Nat) (o : EngOp) : State :=
  let steps := (cfgOf (cfgWord o.opa)).steps
  let t := iterNumber o.levels o.ivec
  if o.pix + 1 < steps then s.modOp blk 1 o.num fun x => { x with pix := o.pix + 1 }
  else
    let s := s.modBlock blk fun b => b.clearPix o
    if t + 1 < levelsTotal o.levels then s.modOp blk 1 o.num fun x => { x with pix := 0, ivec := iterVector o.levels (t + 1) }
    else s.workedOp blk o

/-- Operations that work step by step or row by row, and run. -/
def Block.stepping (b : Block) : List EngOp :=
  b.ops.filter fun o => o.state == .running && match o.instr with | .mdst .. | .mlda .. => true | i => isArray i

/-- MATRIX_STEP: one step of the block's running array operation, or one row of an MDST or MLDA. Which of those that run goes first is open. -/
def execMatrixStep (blk : Nat) (s : State) : Host.Outcome State Fault Refusal :=
  match s.block? blk with
  | none => .next s
  | some b =>
    match b.place, b.stepping[Config.pick s.tick % b.stepping.length]? with
    | some _, some o =>
      match o.instr with
      | .mdst _ _ _ x => .next (s.drainRow b o x.toNat true)
      | .mlda _ _ _ x => .next (s.drainRow b o x.toNat false)
      | _ =>
        match s.matStep b o with
        | .error t => .next (s.modBlock blk fun b => b.stopOp o t)
        | .ok r => .next ((r.1.modOp blk 1 o.num fun x => { x with flags := x.flags ||| r.2 }).stepDone blk o)
    | _, _ => .next s

end Sys2Proof.Machine
end

