-- ==== Sys2Proof/Machine/Plane.lean ====
section
/-! DEFINITION. The plane (R190-R204, R279-R298): the issue of its operations, the cells, the plane-synchronising reads, tiles, and the
binning engine. An operation's first datum is FLAGEN as read at its issue (R198). -/

namespace Sys2Proof.Machine

open Sys2Proof

/-! ## Cells (R279, R281) -/

def allCells : CellBits := List.replicate 128 (BitVec.allOnes 128)

/-- The plane as the block's first PLBIND leaves it (R190). -/
def Plane.fresh : Plane := ⟨none, 0, [], [], allCells, allCells, [], [], [], none, 0⟩

def cbit (x : CellBits) (i j : Nat) : Bool := (x.getD j 0).getLsbD i

/-- One row of bits. -/
def rowBits (f : Nat → Bool) : BitVec 128 :=
  (List.range 128).foldl (fun m i => if f i then m ||| BitVec.ofNat 128 (2 ^ i) else m) 0

def cellBits (f : Nat → Nat → Bool) : CellBits := (List.range 128).map fun j => rowBits fun i => f i j

/-- How many cells a set holds. -/
def cellCount (x : CellBits) : Nat := x.foldl (fun n r => n + ((List.range 128).filter fun i => r.getLsbD i).length) 0

/-- A value for every cell, row by row. -/
def grid {α : Type} (f : Nat → Nat → α) : List (List α) := (List.range 128).map fun j => (List.range 128).map fun i => f i j

/-- What a cell register holds before anything is written to it. -/
def cellInit (r : Nat) : Word32 := if r = 30 then 0xFFFFFFFF else if r = 31 then 0x7F800000 else 0

def Plane.cell (p : Plane) (r i j : Nat) : Word32 := ((p.regs.getD r []).getD j []).getD i (cellInit r)

/-- Writes register r of every cell. -/
def Plane.setReg (p : Plane) (r : Nat) (f : Nat → Nat → Word32) : Plane :=
  { p with regs := setAt (p.regs ++ List.replicate (32 - p.regs.length) []) r (grid f) }

def Plane.cellFlags (p : Plane) (i j : Nat) : Flags := (p.flags.getD j []).getD i 0

/-- A cell is enabled when WN = 1 and E = 1. -/
def Plane.en (p : Plane) (i j : Nat) : Bool := cbit p.wn i j && cbit p.e i j

/-! ## Operands (R191) -/

/-- Whether the operation's TYPE is bf16: its values stand in bits [31:16]. -/
def EngOp.bf (o : EngOp) : Bool := modeType o.mode == .bf16

def cellVal (bf : Bool) (x : Word32) : Val := if bf then decodeElem .bf16 (x.toNat / 2 ^ 16) else decodeElem .f32 x.toNat

/-- A result rounded to TYPE by RNE, as its cell holds it. -/
def cellRound (bf : Bool) (v : Val × Flags) : Word32 × Flags :=
  if bf then
    let r := finish .bf16 .rne false v
    (BitVec.ofNat 32 (r.1 * 2 ^ 16), r.2)
  else
    let r := finish .f32 .rne false v
    (BitVec.ofNat 32 r.1, r.2)

def cellConst : CellSrc → Val
  | .imm v => Val.ofInt v.toInt
  | .one => Val.ofInt 1
  | .negone => Val.ofInt (-1)
  | .half => halfVal
  | _ => Val.ofInt 0

def Plane.src (p : Plane) (bf : Bool) (a : CellSrc) (i j : Nat) : Word32 :=
  match a with
  | .cell r => p.cell r.toNat i j
  | a => (cellRound bf (cellConst a, 0)).1

/-- The B operand; a broadcast takes the S register read at issue. -/
def Plane.srcB (p : Plane) (o : EngOp) (b : CellSrcB) (i j : Nat) : Word32 :=
  match b with
  | .src a => p.src o.bf a i j
  | .bcast _ =>
    let x := (o.opa.getD 0 0).setWidth 32
    if o.bf then x &&& 0xFFFF0000 else x

/-! ## What a cell does -/

structure CellOut where
  vals : List (Nat × Word32)
  t : Option Bool
  fl : Flags
deriving DecidableEq, Repr

/-- A step rounded to f32 by RNE (R193, R200). -/
def r32 (v : Val × Flags) : Val × Flags := roundNode .f32 v

/-- A coordinate's centre: n + 0.5. -/
def centre (n : Nat) : Val := .fin false (2 * n + 1) (-1) false

/-- The PLEVAL sequence of R193. -/
def polyVal (c : List Val) (xc yc : Val) : Val × Flags :=
  let k (n : Nat) : Val := c.getD n (Val.ofInt 0)
  let t1 := r32 (fmaVal .rne (k 0) xc (k 3))
  let r := r32 (mulVal t1.1 xc)
  let t2 := r32 (fmaVal .rne (k 2) yc (k 4))
  let cc := r32 (mulVal t2.1 yc)
  let xy := r32 (mulVal xc yc)
  let q := r32 (fmaVal .rne (k 1) xy.1 r.1)
  let s := r32 (addVal .rne q.1 cc.1)
  let f := r32 (addVal .rne s.1 (k 5))
  (f.1, t1.2 ||| r.2 ||| t2.2 ||| cc.2 ||| xy.2 ||| q.2 ||| s.2 ||| f.2)

/-- The PLLIN sequence: c holds cD, cE, cF. -/
def linVal (c : List Val) (xc yc : Val) : Val × Flags :=
  let k (n : Nat) : Val := c.getD n (Val.ofInt 0)
  let a := r32 (fmaVal .rne (k 0) xc (k 2))
  let f := r32 (fmaVal .rne (k 1) yc a.1)
  (f.1, a.2 ||| f.2)

/-- The low 32 bits of a scalar, read as f32. -/
def scalarF32 (x : Word) : Val := decodeElem .f32 (x.toNat % 2 ^ 32)

def one32 : Val := Val.ofInt 1

/-- The blend of R200 in one cell. -/
def blend (p : Plane) (d : Nat) (al : Val) (opa : List Word) (i j : Nat) : CellOut :=
  let tau := cellVal false (p.cell (d + 3) i j)
  let col (c : Nat) : Val := match c with
    | 0 => scalarF32 (opa.getD 0 0)
    | 1 => decodeElem .f32 ((opa.getD 0 0).toNat / 2 ^ 32)
    | _ => scalarF32 (opa.getD 1 0)
  let wt := r32 (mulVal al tau)
  let ch (c : Nat) : Word32 × Flags :=
    let m := r32 (mulVal wt.1 (col c))
    let s := cellRound false (addVal .rne (cellVal false (p.cell (d + c) i j)) m.1)
    (s.1, m.2 ||| s.2)
  let om := r32 (subVal .rne one32 al)
  let t := cellRound false (mulVal tau om.1)
  ⟨[(d, (ch 0).1), (d + 1, (ch 1).1), (d + 2, (ch 2).1), (d + 3, t.1)], none, wt.2 ||| (ch 0).2 ||| (ch 1).2 ||| (ch 2).2 ||| om.2 ||| t.2⟩

/-- The neighbour's register of PLSHF (R196); beyond the edge 0, or the cell's own. -/
def Plane.neighbour (p : Plane) (bf : Bool) (a : CellSrc) (cl : Bool) (dir : Dir) (i j : Nat) : Word32 :=
  let edge := if cl then p.src bf a i j else 0
  match dir with
  | .w => if i = 0 then edge else p.src bf a (i - 1) j
  | .e => if i = 127 then edge else p.src bf a (i + 1) j
  | .n => if j = 0 then edge else p.src bf a i (j - 1)
  | .s => if j = 127 then edge else p.src bf a i (j + 1)

def one1 (d : BitVec 5) (r : Word32 × Flags) : CellOut := ⟨[(d.toNat, r.1)], none, r.2⟩

/-- The effect of an element-wise operation in an enabled cell (R192, R193, R196, R200). PLSFN rounds by RNE. DEDUCED: log entry 66. -/
def cellEffect (o : EngOp) (p : Plane) (i j : Nat) : CellOut :=
  let v (a : CellSrc) : Val := cellVal o.bf (p.src o.bf a i j)
  let vb (b : CellSrcB) : Val := cellVal o.bf (p.srcB o b i j)
  let co := o.opa.map scalarF32
  match o.instr with
  | .plfma d a b => one1 d (cellRound o.bf (fmaVal .rne (v a) (vb b) (cellVal o.bf (p.cell d.toNat i j))))
  | .pladd d a b => one1 d (cellRound o.bf (addVal .rne (v a) (vb b)))
  | .plmul d a b => one1 d (cellRound o.bf (mulVal (v a) (vb b)))
  | .plmin d a b => one1 d (cellRound o.bf (extremeVal false (v a) (vb b)))
  | .plmax d a b => one1 d (cellRound o.bf (extremeVal true (v a) (vb b)))
  | .plmov d a => one1 d (p.src o.bf a i j, 0)
  | .plsel d a b => one1 d (if cbit p.t i j then p.src o.bf a i j else p.srcB o b i j, 0)
  | .plcmp a b c => ⟨[], some (condVal c (v a) (v b)), sigFlag (v a) ||| sigFlag (v b)⟩
  | .plsfn d a f =>
    let t : ElemType := if o.bf then .bf16 else .f32
    let r := fnElem f t .rne false (v a)
    one1 d (BitVec.ofNat 32 (if o.bf then r.1 * 2 ^ 16 else r.1), r.2)
  | .pleval d _ => one1 d (cellRound o.bf (polyVal co (centre i) (centre j)))
  | .plexp d _ =>
    let f := polyVal co (centre i) (centre j)
    let e := ex2Elem .f32 .rne false f.1
    one1 d (cellRound o.bf (decodeElem .f32 e.1, f.2 ||| e.2))
  | .pllin d _ => one1 d (cellRound o.bf (linVal co (centre i) (centre j)))
  | .plshf d a cl dir => one1 d (p.neighbour o.bf a cl dir i j, 0)
  | .plvis a _ le =>
    let x := p.src false a i j
    let z := p.cell 31 i j
    let pass := condVal (if le then .le else .lt) (cellVal false x) (cellVal false z)
    ⟨if pass then [(31, x), (30, (o.opa.getD 0 0).setWidth 32)] else [], none, sigFlag (cellVal false x) ||| sigFlag (cellVal false z)⟩
  | .plbld d a _ => blend p d.toNat (cellVal false (p.src false a i j)) o.opa i j
  | _ => ⟨[], none, 0⟩

/-- The registers an element-wise operation may write. -/
def cellDests : Instr → List Nat
  | .plfma d _ _ | .pladd d _ _ | .plmul d _ _ | .plmin d _ _ | .plmax d _ _ | .plmov d _ | .plsel d _ _ | .plsfn d _ _ | .pleval d _ | .plexp d _
  | .pllin d _ | .plshf d _ _ _ => [d.toNat]
  | .plvis .. => [30, 31]
  | .plbld d _ _ => [d.toNat, d.toNat + 1, d.toNat + 2, d.toNat + 3]
  | _ => []

/-- Bits of a set that are new. -/
def newCells (old x : CellBits) : Nat := cellCount (cellBits fun i j => cbit x i j && !cbit old i j)

/-- An element-wise operation on the whole plane: every read comes before any write. The flags it holds, and the cells it records (R198). -/
def Plane.elementwise (p : Plane) (o : EngOp) : Plane × Flags × CellBits :=
  let out := grid fun i j => if p.en i j then some (cellEffect o p i j) else none
  let at_ (i j : Nat) : Option CellOut := (out.getD j []).getD i none
  let fen : Flags := ((o.data.getD 0 0).setWidth 7 : BitVec 7) &&& 0x3F
  let fl (i j : Nat) : Flags := match at_ i j with | some c => c.fl | none => 0
  let p1 := (cellDests o.instr).foldl (fun (q : Plane) r => q.setReg r fun i j =>
    match (at_ i j).bind fun c => (c.vals.find? fun x => x.1 == r) with
    | some x => x.2
    | none => p.cell r i j) p
  let total := out.foldl (fun f row => row.foldl (fun f c => match c with | some c => f ||| c.fl | none => f) f) (0 : Flags)
  ({ p1 with
     t := cellBits fun i j => match (at_ i j).bind (·.t) with | some t => t | none => cbit p.t i j
     flags := if total = 0 then p.flags else grid fun i j => p.cellFlags i j ||| fl i j },
   total, if total &&& fen = 0 then [] else cellBits fun i j => fl i j &&& fen != 0)

/-! ## Operations on the plane's own state (R190, R194, R195, R203) -/

/-- PLWIN. -/
def windowOf (x : Word) : CellBits :=
  let v := x.toNat
  cellBits fun i j => decide (bits v 0 7 ≤ i) && decide (i ≤ bits v 16 7) && decide (bits v 8 7 ≤ j) && decide (j ≤ bits v 24 7)

def Plane.pushIf (p : Plane) : Plane :=
  { p with stack := (p.e, cellBits fun i j => cbit p.wn i j && cbit p.e i j && !cbit p.t i j) :: p.stack
           e := cellBits fun i j => cbit p.wn i j && cbit p.e i j && cbit p.t i j }

def Plane.takeElse (p : Plane) : Plane :=
  match p.stack with
  | (out, els) :: r => { p with e := els, stack := (out, []) :: r }
  | [] => p

def Plane.popEnd (p : Plane) : Plane :=
  match p.stack with
  | (out, _) :: r => { p with e := out, stack := r }
  | [] => p

/-- PLCLR (R203). -/
def Plane.clear (p : Plane) (b : BitVec 5) : Plane :=
  let p := if b.getLsbD 0 then { p with flags := [] } else p
  let p := if b.getLsbD 1 then { p with exc := [], plx := none } else p
  let p := if b.getLsbD 2 then { p with stack := [], e := allCells, t := [] } else p
  let p := if b.getLsbD 3 then (p.setReg 30 fun _ _ => cellInit 30).setReg 31 fun _ _ => cellInit 31 else p
  if b.getLsbD 4 then { p with regs := List.replicate 30 [] ++ p.regs.drop 30 } else p

/-- Operations that only change the plane. -/
def Plane.simple (p : Plane) (o : EngOp) : Plane × Flags × CellBits :=
  match o.instr with
  | .plbind | .plfree => (p, 0, [])
  | .plwin _ => ({ p with wn := windowOf (o.opa.getD 0 0) }, 0, [])
  | .plif => (p.pushIf, 0, [])
  | .plelse => (p.takeElse, 0, [])
  | .plend => (p.popEnd, 0, [])
  | .plclr b => (p.clear b, 0, [])
  | _ => p.elementwise o

/-! ## Issue -/

def setPlane (b : Block) (f : Plane → Plane) : Block := { b with planeSt := b.planeSt.map f }

/-- The executing group is the bound group. -/
def Iss.isBound (i : Iss) : Bool := match i.b.planeSt with | some p => p.bound == some i.gr.grp | none => false

def Iss.planeDepth (i : Iss) : Nat := match i.b.planeSt with | some p => p.depth | none => 0

/-- The group's other slot waits in a plane-synchronising read: the t2 sequence goes on once that has read or trapped (R199, R283, R327). DEDUCED:
log entry 36. -/
def Iss.planeHeld (i : Iss) : Bool := match (i.g.slot (!i.slotB)).wait with | some (.plane _) | some (.unbound _) => true | _ => false

/-- A plane instruction has to wait for its issue. -/
def Iss.planeBusy (i : Iss) : Bool := !i.g.quiet || i.planeHeld

/-- A t2 operation issues: it is numbered, and PLSEQ receives the number. -/
def Iss.planeIssue (i : Iss) (instr : Instr) (v : List Word) (f : Block → Block) : EngOp × State :=
  let r := i.issueOp instr 2 v [i.g.flagen.setWidth 64]
  (r.1, r.2.modBlock i.gr.blk fun b => f (b.modGroup i.gr.grp fun g => { g with plseq := BitVec.ofNat 64 r.1.num }))

/-- A plane instruction of the bound group: PLX 4, then what `bad` finds, then its issue. -/
def Iss.planeOp (i : Iss) (instr : Instr) (v : List Word) (bad : Option Trap) (f : Plane → Plane) : Res :=
  if !i.isBound then .trap (plainTrap .plx 4)
  else
    match bad with
    | some t => .trap t
    | none => if i.planeBusy then i.stall else .done (i.planeIssue instr v fun b => setPlane b f).2 false

/-- An arithmetic plane row: its TYPE is f32 or bf16 (R191). -/
def Iss.planeArith (i : Iss) (instr : Instr) (v : List Word) : Res :=
  if i.ty = .f32 ∨ i.ty = .bf16 then i.planeOp instr v none id else .trap (illopTrap 10)

/-- The S register that a broadcast names. -/
def Iss.bcast (i : Iss) (b : CellSrcB) : List Word :=
  match b with
  | .bcast r => [i.g.rdS i.sl.wb r.toNat]
  | .src _ => []

def execPlbind (s : State) : Host.Outcome State Fault Refusal :=
  s.run fun i =>
    let held := match i.b.planeSt with | some p => p.bound | none => none
    if !i.b.plane then .trap (plainTrap .plx 5)
    else if held.isSome && held != some i.gr.grp then .trap (plainTrap .plx 6)
    else if i.planeBusy then i.stall
    else
      let s := (i.planeIssue .plbind [] fun b => { b with planeSt := some { b.planeSt.getD Plane.fresh with bound := some i.gr.grp } }).2
      -- the first PLBIND writes every register, its parity with it (R190, R285)
      .done (if i.b.planeSt.isNone then { s with parity := s.parity.filter fun e => i.b.place != some e.inst.toNat } else s) false

def execPlfree (s : State) : Host.Outcome State Fault Refusal :=
  s.run fun i => i.planeOp .plfree [] none fun p => { p with bound := none }

def execPlwin (a : Src) (s : State) : Host.Outcome State Fault Refusal :=
  s.run fun i => orTrap (i.checkSca .i64 [a]) fun _ => i.planeOp (.plwin a) [i.uni a] none id

def execPleval (d : BitVec 5) (a : BitVec 6) (s : State) : Host.Outcome State Fault Refusal :=
  s.run fun i => i.planeArith (.pleval d a) (i.sRun a 6)

def execPlexp (d : BitVec 5) (a : BitVec 6) (s : State) : Host.Outcome State Fault Refusal :=
  s.run fun i => i.planeArith (.plexp d a) (i.sRun a 6)

def execPllin (d : BitVec 5) (a : BitVec 6) (s : State) : Host.Outcome State Fault Refusal :=
  s.run fun i => i.planeArith (.pllin d a) (i.sRun a 3)

def execPlfma (d : BitVec 5) (a : CellSrc) (b : CellSrcB) (s : State) : Host.Outcome State Fault Refusal :=
  s.run fun i => i.planeArith (.plfma d a b) (i.bcast b)

def execPladd (d : BitVec 5) (a : CellSrc) (b : CellSrcB) (s : State) : Host.Outcome State Fault Refusal :=
  s.run fun i => i.planeArith (.pladd d a b) (i.bcast b)

def execPlmul (d : BitVec 5) (a : CellSrc) (b : CellSrcB) (s : State) : Host.Outcome State Fault Refusal :=
  s.run fun i => i.planeArith (.plmul d a b) (i.bcast b)

def execPlmin (d : BitVec 5) (a : CellSrc) (b : CellSrcB) (s : State) : Host.Outcome State Fault Refusal :=
  s.run fun i => i.planeArith (.plmin d a b) (i.bcast b)

def execPlmax (d : BitVec 5) (a : CellSrc) (b : CellSrcB) (s : State) : Host.Outcome State Fault Refusal :=
  s.run fun i => i.planeArith (.plmax d a b) (i.bcast b)

def execPlmov (d : BitVec 5) (a : CellSrc) (s : State) : Host.Outcome State Fault Refusal :=
  s.run fun i => i.planeOp (.plmov d a) [] none id

def execPlcmp (a b : CellSrc) (c : VCond) (s : State) : Host.Outcome State Fault Refusal :=
  s.run fun i => i.planeArith (.plcmp a b c) []

def execPlif (s : State) : Host.Outcome State Fault Refusal :=
  s.run fun i => i.planeOp .plif [] (if i.planeDepth = 8 then some (plainTrap .plx 2) else none) fun p => { p with depth := p.depth + 1 }

def execPlelse (s : State) : Host.Outcome State Fault Refusal :=
  s.run fun i => i.planeOp .plelse [] (if i.planeDepth = 0 then some (plainTrap .plx 3) else none) id

def execPlend (s : State) : Host.Outcome State Fault Refusal :=
  s.run fun i => i.planeOp .plend [] (if i.planeDepth = 0 then some (plainTrap .plx 3) else none) fun p => { p with depth := p.depth - 1 }

def execPlsel (d : BitVec 5) (a : CellSrc) (b : CellSrcB) (s : State) : Host.Outcome State Fault Refusal :=
  s.run fun i => i.planeOp (.plsel d a b) (i.bcast b) none id

def execPlshf (d : BitVec 5) (a : CellSrc) (cl : Bool) (dir : Dir) (s : State) : Host.Outcome State Fault Refusal :=
  s.run fun i => i.planeOp (.plshf d a cl dir) [] none id

def execPlsfn (d : BitVec 5) (a : CellSrc) (f : Fn) (s : State) : Host.Outcome State Fault Refusal :=
  s.run fun i => i.planeArith (.plsfn d a f) []

def execPlvis (a : CellSrc) (b : BitVec 6) (le : Bool) (s : State) : Host.Outcome State Fault Refusal :=
  s.run fun i => if i.ty = .f32 then i.planeOp (.plvis a b le) (i.sRun b 1) none id else .trap (illopTrap 10)

def execPlbld (d : BitVec 5) (a : CellSrc) (b : BitVec 6) (s : State) : Host.Outcome State Fault Refusal :=
  s.run fun i => if i.ty = .f32 then i.planeOp (.plbld d a b) (i.sRun b 2) none id else .trap (illopTrap 10)

def execPlclr (b : BitVec 5) (s : State) : Host.Outcome State Fault Refusal :=
  s.run fun i => i.planeOp (.plclr b) [] none fun p => if b.getLsbD 2 then { p with depth := 0 } else p

/-! ## PLLD and PLST (R197) -/

/-- Range, alignment and SP footprint of the address, found at issue; a span peer's address is malformed (R241). DEDUCED: log entries 31, 36. -/
def planeRange (b : Block) (sp : Bool) (x : Word) : Except Trap Unit :=
  let a := x.toNat
  if sp then
    if 2 ^ 25 ≤ a ∨ 5 < bits a 18 3 ∨ (!bit a 24 && bits a 21 3 != 0) then .error { plainTrap .prot 2 with addr := x }
    else if bit a 24 then .error { plainTrap .prot 7 with addr := x }
    else if a % 256 ≠ 0 then .error { plainTrap .align 1 with addr := x }
    else if b.spr < bits a 0 18 + 65536 then .error { plainTrap .prot 5 with addr := x }
    else .ok ()
  else if !canonicalVa a then .error { plainTrap .page 1 with addr := x }
  else if a % 256 ≠ 0 then .error { plainTrap .align 1 with addr := x }
  else .ok ()

/-- The address of cell (i, j)'s word. -/
def cellAddr (a : Word) (i j : Nat) : Word := a + BitVec.ofNat 64 (4 * (128 * j + i))

/-- Claims the footprint of a PLST (R271). -/
def State.claimFoot (s : State) (b : Block) (o : EngOp) (sp : Bool) (a : Word) : State :=
  (rowPieces a 65536).foldl (fun s x =>
    match s.copyCheck (o.who b) b o.grp (if sp then 1 else 0) x 32 true false with
    | .ok p => s.claimFree (o.who b) p 32
    | .error _ => s) s

def Iss.planeMem (i : Iss) (instr : Instr) (st : Bool) (a b : Src) (sp : Bool) : Res :=
  orTrap (i.checkSca .i64 [a, b]) fun _ =>
    let x := i.uni a + i.uni b
    orTrap (planeRange i.b sp x) fun _ =>
      if !i.isBound then .trap (plainTrap .plx 4)
      else if i.planeBusy then i.stall
      else
        let r := i.planeIssue instr [i.uni a, i.uni b] id
        let s := if st then r.2.claimFoot i.b r.1 sp x else r.2
        .done (if st && !sp then s.touchOutside i.gr.blk else s) false

def execPlld (d : BitVec 5) (a b : Src) (sp : Bool) (s : State) : Host.Outcome State Fault Refusal :=
  s.run fun i => i.planeMem (.plld d a b sp) false a b sp

def execPlst (d : BitVec 5) (a b : Src) (sp : Bool) (s : State) : Host.Outcome State Fault Refusal :=
  s.run fun i => i.planeMem (.plst d a b sp) true a b sp

/-- The places of the enabled cells of row j. -/
def State.cellRow (s : State) (b : Block) (o : EngOp) (p : Plane) (sp w : Bool) (a : Word) (j : Nat) : Except Trap (List (Nat × Acc)) :=
  ((List.range 128).filter fun i => p.en i j).foldlM (fun acc i =>
    match s.copyCheck (o.who b) b o.grp (if sp then 1 else 0) (cellAddr a i j) 4 w true with
    | .ok x => Except.ok (acc ++ [(i, x)])
    | .error t => .error t) []

/-- Row j of register d replaced where a value is given. -/
def Plane.setRow (p : Plane) (d j : Nat) (vs : List (Nat × Word32)) : Plane :=
  let regs := p.regs ++ List.replicate (32 - p.regs.length) []
  let rows := regs.getD d []
  let rows := rows ++ List.replicate (128 - rows.length) []
  let row := (List.range 128).map fun i => match vs.find? fun x => x.1 == i with | some x => x.2 | none => p.cell d i j
  { p with regs := setAt regs d (setAt rows j row) }

/-- Of the row at the operation's progress index, cells are loaded or stored, each as one access (R253); with the list of those that have been. -/
def State.moveRow (s : State) (b : Block) (o : EngOp) (p : Plane) (d : Nat) (sp st : Bool) : Except Trap (State × Plane × List Nat × Bool) :=
  match s.cellRow b o p sp st (o.opa.getD 0 0 + o.opa.getD 1 0) o.pix with
  | .error t => .error t
  | .ok xs =>
    let ys := xs.filter fun x => !o.units.contains x.1 && Config.units s.tick x.1
    let us := o.units ++ ys.map (·.1)
    let all := xs.all fun x => us.contains x.1
    if st then
      let s := ys.foldl (fun s x => s.performOp b o (o.who b) x.2 (leBytes 4 (p.cell d x.1 o.pix).toNat)) s
      .ok (if all then s.clearCovered (xs.map fun x => (x.2.loc, 4)) else s, p, us, all)
    else .ok (s, p.setRow d o.pix (ys.map fun x => (x.1, BitVec.ofNat 32 (s.num x.2.loc 4))), us, all)

/-! ## PLTILE (R202, R293) -/

def execPltile (a b : Src) (s : State) : Host.Outcome State Fault Refusal :=
  s.run fun i => orTrap (i.checkSca .i64 [a, b]) fun _ => i.planeOp (.pltile a b) [i.uni a, i.uni b] none id

/-- The bin store in which a header stands. R202 gives the header's address alone and R201 the list's offset from the store: it is the store of
the block's latest PLBIN whose headers cover the address, else a free value (DESIGN CHOICE, log entry 29). -/
def binStoreOf (b : Block) (hdr : Word) : Word :=
  let cover (o : EngOp) : Bool :=
    (match o.instr with | .plbin _ => true | _ => false) && o.data.length == 3 &&
      decide ((o.data.getD 1 0).toNat ≤ hdr.toNat) && decide (hdr.toNat < (o.data.getD 1 0).toNat + (o.data.getD 2 0).toNat)
  match (b.ops.filter cover).getLast? with
  | some o => o.data.getD 1 0
  | none => BitVec.ofNat 64 (Config.binStore hdr.toNat)

/-- A 64-byte primitive record. -/
def primF32 (bs : List Byte) (o : Nat) : Val := decodeElem .f32 (recNum bs o 4)

/-- Whether a primitive takes an enabled cell, and with which depth: the bin's coordinates are x and y. -/
def Plane.takes (p : Plane) (bs : List Byte) (x y i j : Nat) : Option Word32 :=
  if !p.en i j then none
  else
    let xc := centre (128 * x + i)
    let yc := centre (128 * y + j)
    let f := (polyVal ((List.range 6).map fun n => primF32 bs (4 * n)) xc yc).1
    let z := (linVal ((List.range 3).map fun n => primF32 bs (40 + 4 * n)) xc yc).1
    if condVal .ge f (Val.ofInt 0) && condVal .lt z (cellVal false (p.cell 31 i j)) then some (cellRound false (z, 0)).1 else none

/-- One primitive on the whole plane, and the cells that have taken any. -/
def Plane.primitive (p : Plane) (bs : List Byte) (x y : Nat) (taken : CellBits) : Plane × CellBits :=
  let z := grid fun i j => p.takes bs x y i j
  let at_ (i j : Nat) : Option Word32 := (z.getD j []).getD i none
  let id := BitVec.ofNat 32 (recNum bs 52 4)
  ((p.setReg 31 fun i j => (at_ i j).getD (p.cell 31 i j)).setReg 30 fun i j => if (at_ i j).isSome then id else p.cell 30 i j,
   cellBits fun i j => (at_ i j).isSome || cbit taken i j)

/-- Sets of cells as words, two for each row. -/
def cellWords (x : CellBits) : List Word :=
  (List.range 128).flatMap fun j => [(x.getD j 0).setWidth 64, ((x.getD j 0) >>> 64).setWidth 64]

def wordCells (w : List Word) : CellBits :=
  (List.range 128).map fun j => ((w.getD (2 * j + 1) 0).setWidth 128 <<< 64) ||| (w.getD (2 * j) 0).setWidth 128

/-- What a PLTILE has read of its header (R202): the operation's data after FLAGEN are the header's two words, then the cells taken. -/
def EngOp.header (o : EngOp) : List Byte := ((o.data.drop 1).take 2).flatMap fun w => leBytes 8 w.toNat
def EngOp.taken (o : EngOp) : CellBits := wordCells (o.data.drop 3)

/-- The operation as it begins or begins again: its header is read. -/
def State.startTile (s : State) (b : Block) (o : EngOp) : Except Trap EngOp :=
  (s.engRead (o.who b) b false (o.opa.getD 0 0) 16 16).map fun h =>
    { o with data := o.data.take 1 ++ [BitVec.ofNat 64 (recNum h 0 8), BitVec.ofNat 64 (recNum h 8 8)] ++ o.data.drop 3 }

/-- The primitive at the operation's progress index: the plane, and the cells taken so far. DEDUCED: log entry 36. -/
def State.tilePrim (s : State) (b : Block) (o : EngOp) (p : Plane) : Except Trap (Plane × CellBits) := do
  let h := o.header
  let list := binStoreOf b (o.opa.getD 0 0) + BitVec.ofNat 64 (recNum h 8 8)
  let idx ← s.engRead (o.who b) b false (list + BitVec.ofNat 64 (4 * o.pix)) 4 4
  let bs ← s.engRead (o.who b) b false (o.opa.getD 1 0 + BitVec.ofNat 64 (64 * leNat idx)) 64 64
  return p.primitive bs (recNum h 4 2) (recNum h 6 2) o.taken

/-! ## PLBIN (R201, R291, R292) -/

def execPlbin (a : Src) (s : State) : Host.Outcome State Fault Refusal :=
  s.run fun i => orTrap (i.checkSca .i64 [a]) fun _ =>
    let x := i.uni a
    if !canonicalVa x.toNat then .trap { plainTrap .page 1 with addr := x }
    else if x.toNat % 32 ≠ 0 then .trap { plainTrap .align 1 with addr := x }
    else i.planeOp (.plbin a) [x] none id

/-- The binning engine as an agent (R291): of KIND 5, with its die's TLB. -/
def EngOp.binWho (o : EngOp) (b : Block) : Who :=
  let die := dieOf (b.place.getD 0)
  { o.who b with tlb := 896 + die, detail := detailWord 0 5 die 0 0 b.ctx 0 }

structure Job where
  prim : Word
  cnt : Nat
  bx : Nat
  byy : Nat
  store : Word
  cap : Nat
deriving DecidableEq, Repr

def jobOf (bs : List Byte) : Job :=
  ⟨BitVec.ofNat 64 (recNum bs 0 8), recNum bs 8 4, recNum bs 12 2, recNum bs 14 2, BitVec.ofNat 64 (recNum bs 16 8), recNum bs 24 4⟩

def Job.malformed (j : Job) : Bool :=
  decide (16777216 < j.cnt) || j.bx == 0 || decide (128 < j.bx) || j.byy == 0 || decide (128 < j.byy) || decide (j.prim.toNat % 64 ≠ 0) ||
    decide (j.store.toNat % 256 ≠ 0)

def Job.headers (j : Job) : Nat := 16 * j.bx * j.byy

/-- A record's rectangle: x0, y0, x1, y1. -/
def rectOf (bs : List Byte) : Int × Int × Int × Int :=
  let n (o : Nat) : Int := (BitVec.ofNat 32 (recNum bs o 4)).toInt
  (n 24, n 28, n 32, n 36)

/-- Whether a rectangle meets bin (x, y). -/
def meetsBin (r : Int × Int × Int × Int) (x y : Nat) : Bool :=
  decide (r.1 ≤ r.2.2.1) && decide (r.2.1 ≤ r.2.2.2) && decide (r.1 ≤ 128 * x + 127) && decide ((128 * x : Nat) ≤ r.2.2.1) &&
    decide (r.2.1 ≤ 128 * y + 127) && decide ((128 * y : Nat) ≤ r.2.2.2)

/-- Every bin's full list, in the order of the bins. -/
def Job.lists (j : Job) (rs : List (Int × Int × Int × Int)) : List (List Nat) :=
  (List.range (j.bx * j.byy)).map fun n => ((rs.zipIdx).filter fun r => meetsBin r.1 (n % j.bx) (n / j.bx)).map (·.2)

/-- What the engine writes: offsets from STORE with bytes; whether every index is stored. -/
def Job.writes (j : Job) (ls : List (List Nat)) : List (Nat × List Byte) × Bool :=
  let r := (ls.zipIdx).foldl (fun (acc : List (Nat × List Byte) × List (Nat × List Byte) × Nat × Bool) x =>
    let (hs, is, ofs, full) := acc
    let kept := ((x.1.zipIdx).filter fun y => decide (ofs + 4 * y.2 + 4 ≤ j.cap))
    (hs ++ [(16 * x.2, leBytes 4 kept.length ++ leBytes 2 (x.2 % j.bx) ++ leBytes 2 (x.2 / j.bx) ++ leBytes 8 ofs)],
     is ++ kept.map (fun y => (ofs + 4 * y.2, leBytes 4 y.1)), ofs + 4 * x.1.length, full && kept.length == x.1.length)) ([], [], j.headers, true)
  (r.1 ++ r.2.1, r.2.2.2)

/-- A write of an engine at a global address. -/
def State.engWrite (s : State) (who : Who) (b : Block) (o : EngOp) (a : Word) (bs : List Byte) : Except Trap State :=
  match s.check who b none ⟨.gl, a, bs.length, decide (a.toNat % bs.length = 0), false, true, false, true, true⟩ true with
  | .ok x => .ok (s.performOp b o who x bs)
  | .error t => .error t

def Block.addStat (b : Block) (k n : Nat) : Block := { b with stats := modAt b.stats k (· + n) }

/-- What a binning job is to do, once it has read its records: STAT, what the block's counts gain (R296), the store with the size of its
headers, none where no store is built, and the writes of at most 8 bytes, by offset from the store. -/
structure BinPlan where
  stat : Nat
  counts : List Nat
  store : Word
  headers : Nat
  writes : List (Nat × List Byte)
deriving DecidableEq, Repr

/-- A write of more than 8 bytes as writes of 8 (R253). -/
def eights (x : Nat × List Byte) : List (Nat × List Byte) := (pieces 0 x.2.length).map fun p => (x.1 + p.1.toNat, (x.2.drop p.1.toNat).take p.2)

/-- The job's records read, and what follows from them. DEDUCED: log entry 36. -/
def State.binPlan (s : State) (b : Block) (o : EngOp) : Except Trap BinPlan := do
  let who := o.binWho b
  let bs ← s.engRead who b false (o.opa.getD 0 0) 32 32
  let j := jobOf bs
  if j.malformed then return ⟨2, [0, 0, 0], 0, 0, []⟩
  else
    let rs ← (List.range j.cnt).mapM fun n => (s.engRead who b false (j.prim + BitVec.ofNat 64 (64 * n)) 64 64).map rectOf
    let ls := j.lists rs
    let counts := [j.cnt, ((List.range j.cnt).filter fun n => !ls.any fun l => l.contains n).length, ls.foldl (fun n l => n + l.length) 0]
    if j.cap < j.headers then return ⟨2, counts, 0, 0, []⟩
    else
      let w := j.writes ls
      return ⟨if w.2 then 0 else 1, counts, j.store, j.headers, w.1.flatMap eights⟩

/-- The plan as words, kept in the operation's part while the job runs: five words, then three for each write. -/
def BinPlan.words (p : BinPlan) : List Word :=
  ([p.stat] ++ p.counts).map (BitVec.ofNat 64) ++ [p.store, BitVec.ofNat 64 p.headers] ++
    p.writes.flatMap fun x => [BitVec.ofNat 64 x.1, BitVec.ofNat 64 x.2.length, BitVec.ofNat 64 (leNat x.2)]

def binPlanOf (w : List Word) : BinPlan :=
  let n (i : Nat) : Nat := (w.getD i 0).toNat
  ⟨n 0, [n 1, n 2, n 3], w.getD 4 0, n 5, (List.range ((w.length - 6) / 3)).map fun i => (n (6 + 3 * i), leBytes (n (7 + 3 * i)) (n (8 + 3 * i)))⟩

def EngOp.plan (o : EngOp) : List Word := (o.parts.head?.map (·.regs)).getD []

/-- A step of a binning job: it reads its records; writes perform, in no order; and after all of them STAT (R201, R253). The state, and whether the
job has ended. -/
def State.binJob (s : State) (b : Block) (o : EngOp) : Except Trap (State × Bool) := do
  let who := o.binWho b
  if o.plan.isEmpty then
    let p ← s.binPlan b o
    return (s.modOp b.id 2 o.num fun o => { o with parts := o.parts.map fun q => { q with regs := p.words, units := [] } }, false)
  else
    let p := binPlanOf o.plan
    if !unitsAll o.units p.writes.length then
      let now := s.unitsNow o.units p.writes.length
      let s ← now.foldlM (fun s k => match p.writes[k]? with
        | some x => s.engWrite who b o (p.store + BitVec.ofNat 64 x.1) x.2
        | none => .ok s) s
      return (s.modOp b.id 2 o.num fun o => o.setUnits (o.units ++ now), false)
    else
      let s ← s.engWrite who b o (o.opa.getD 0 0 + 28) (leBytes 4 p.stat)
      let s := s.modBlock b.id fun b => ((b.addStat 0 (p.counts.getD 0 0)).addStat 1 (p.counts.getD 1 0)).addStat 2 (p.counts.getD 2 0)
      let built := if p.headers = 0 then [] else [p.store, BitVec.ofNat 64 p.headers]
      return (s.modOp b.id 2 o.num fun o => { o with data := o.data.take 1 ++ built, parts := o.parts.map fun q => { q with regs := [], units := [] } }, true)

/-- The operation without its plan: it begins again from its job record. -/
def EngOp.unplanned (o : EngOp) : EngOp := { o with parts := o.parts.map fun q => { q with regs := [], units := [] } }

/-- BINNING_JOB: the job at the head of its die's queue goes on by a step. -/
def execBinningJob (blk : Nat) (s : State) : Host.Outcome State Fault Refusal :=
  match s.block? blk with
  | none => .next s
  | some b =>
    match s.binJobs.find? fun x => x.die == dieOf (b.place.getD 0) with
    | none => .next s
    | some x =>
      if x.blk ≠ blk then .next s
      else
        let left := s.binJobs.filter fun y => y != x
        match b.op? 2 x.num with
        | none => .next { s with binJobs := left }
        | some o =>
          match s.binJob b o with
          | .ok (s, true) => .next ({ s with binJobs := left }.endOp blk o)
          | .ok (s, false) => .next s
          | .error t => .next ({ s with binJobs := left }.modBlock blk fun b => b.stopOp o.unplanned t)

/-! ## Parity (R285) -/

/-- An A operand that is a cell register. -/
def isCell : CellSrc → Bool
  | .cell _ => true
  | _ => false

/-- A B operand that is a cell register. -/
def isCellB : CellSrcB → Bool
  | .src a => isCell a
  | .bcast _ => false

/-- Whether an operation reads cell registers. -/
def readsCells : Instr → Bool
  | .plfma .. | .plvis .. | .plbld .. | .plst .. | .pltile .. => true
  | .pladd _ a b | .plmul _ a b | .plmin _ a b | .plmax _ a b | .plsel _ a b => isCell a || isCellB b
  | .plcmp a b _ => isCell a || isCell b
  | .plmov _ a | .plsfn _ a _ | .plshf _ a _ _ | .plred _ a _ _ => isCell a
  | _ => false

/-- An operation of a block would read a register whose parity fails: one that no read has met yet is held for the block's cluster, and some
cell is enabled. The event does not say which register and cell it lies in: the next operation that reads any register meets it (DEDUCED, log entry 56). -/
def State.parityMet (s : State) (b : Block) (instr : Instr) : Bool :=
  readsCells instr && (s.parity.any fun e => b.place == some e.inst.toNat) &&
    match b.planeSt with
    | some p => (List.range 128).any fun j => (List.range 128).any fun i => p.en i j
    | none => false

/-! ## Running (R282) -/

/-- Operations that go on row by row, or primitive by primitive (R284). -/
def isGradual : Instr → Bool
  | .plld .. | .plst .. | .pltile .. => true
  | _ => false

/-- The t2 operation of a block that can start or go on: the earliest that has not completed. -/
def Block.nextPlane (b : Block) : Option EngOp :=
  match b.ops.find? fun o => o.tl == 2 && !o.isDone with
  | some o => if o.state == .queued || (o.state == .running && isGradual o.instr) then some o else none
  | none => none

/-- The t2 operation of a block that is about to read cell registers: the next to run, or a plane-synchronising read that waits for no other. -/
def State.cellReader (s : State) (b : Block) : Option EngOp :=
  match b.ops.find? fun o => o.tl == 2 && !o.isDone with
  | some o => if (o.state == .queued || o.state == .running) && s.parityMet b o.instr then some o else none
  | none => none

/-- Recorded cells enter the bitmap; the first recording sets the pending PLX (R198, R290). -/
def Block.recordCells (b : Block) (o : EngOp) (cells : CellBits) : Block :=
  if cellCount cells = 0 then b
  else
    let old := match b.planeSt with | some p => p.exc | none => []
    let b := b.addStat 5 (newCells old cells)
    setPlane b fun p => { p with exc := cellBits fun i j => cbit p.exc i j || cbit cells i j, plx := p.plx.orElse fun _ => some (o.grp, o.num) }

/-- The operation's flags: those of its cells, and PLX when it has recorded any (R198). -/
def EngOp.addFlags (o : EngOp) (fl : Flags) (cells : CellBits) : EngOp :=
  { o with flags := o.flags ||| fl ||| (if cellCount cells = 0 then 0 else flPLX) }

/-- Accesses of one row of a PLLD or PLST at its progress index; after row 127 the operation has done its work (R197, R284). -/
def State.stepRow2 (s : State) (b : Block) (o : EngOp) (p : Plane) (d : BitVec 5) (sp st : Bool) : State :=
  if 128 ≤ o.pix then s.endOp b.id o
  else
    match s.moveRow b o p d.toNat sp st with
    | .error t => s.modBlock b.id fun b => b.stopOp o t
    | .ok r =>
      let s := r.1.modBlock b.id fun b => { b with planeSt := some r.2.1 }
      if !r.2.2.2 then s.modOp b.id 2 o.num fun x => x.setUnits r.2.2.1
      else
      let s := s.modOp b.id 2 o.num fun x => x.setUnits []
      if o.pix = 127 then s.endOp b.id o else s.modOp b.id 2 o.num fun x => { x with pix := o.pix + 1 }

/-- One primitive of a PLTILE at its progress index; after the last the operation has done its work (R202, R284). -/
def State.stepTile (s : State) (b : Block) (o : EngOp) (p : Plane) (fresh : Bool) : State :=
  match (if fresh then s.startTile b o else .ok o) with
  | .error t => s.modBlock b.id fun b => b.stopOp o t
  | .ok o =>
    let s := s.modOp b.id 2 o.num fun _ => o
    let fin (s : State) (x : CellBits) : State := (s.modBlock b.id fun b => b.addStat 3 (cellCount x)).endOp b.id o
    let count := recNum o.header 0 4
    if count ≤ o.pix then fin s o.taken
    else
      match s.tilePrim b o p with
      | .error t => s.modBlock b.id fun b => b.stopOp o t
      | .ok r =>
        let s := s.modBlock b.id fun b => { b with planeSt := some r.1 }
        let s := s.modOp b.id 2 o.num fun x => { x with data := o.data.take 3 ++ cellWords r.2, pix := o.pix + 1 }
        if o.pix + 1 = count then fin s r.2 else s

/-- PLANE_OP: the t2 operation that is next runs; a PLLD or PLST by one row, a PLTILE by one primitive. A PLBIN goes to its die's binning
engine. Nothing runs for a block that is not placed (R284, R400). -/
def execPlaneOp (blk : Nat) (s : State) : Host.Outcome State Fault Refusal :=
  match s.block? blk with
  | none => .next s
  | some b =>
    match b.place, b.nextPlane, b.planeSt with
    | some _, some o0, some p =>
      -- the error is met first (R285)
      if s.parityMet b o0.instr then .next s
      else
      let o := { o0 with clock := (b.ops.filter fun q => q.tl == 2 && decide (q.num < o0.num)).foldl (fun c (q : EngOp) => clockJoin c q.rel) o0.clock, state := .running }
      let s := s.modOp blk 2 o.num fun _ => o
      let put (s : State) (p : Plane) : State := s.modBlock blk fun b => { b with planeSt := some p }
      match o.instr with
      | .plld d _ _ sp => .next (s.stepRow2 b o p d sp false)
      | .plst d _ _ sp => .next (s.stepRow2 b o p d sp true)
      | .pltile .. => .next (s.stepTile b o p (o0.state == .queued))
      | .plbin _ => .next { s with binJobs := s.binJobs ++ [⟨dieOf (b.place.getD 0), blk, o.num⟩] }
      | _ =>
        let r := p.simple o
        let s := put s r.1
        let s := s.modOp blk 2 o.num fun o => o.addFlags r.2.1 r.2.2
        .next ((s.modBlock blk fun b => b.recordCells o r.2.2).endOp blk o)
    | _, _, _ => .next s

/-! ## The plane-synchronising reads (R199, R289) -/

/-- A uniform operand read as f32, and the flags of a count's conversion, set where a lane is guarded in (R40): every rounding is RNE (R191).
DEDUCED: log entry 9. -/
def Iss.uniF32 (i : Iss) (b : Src) : Nat × Flags :=
  match b with
  | .spec c =>
    let r := countElem .f32 .rne false (i.count c 0 0)
    if isCount b then (r.1, if i.counted = 0 then 0 else r.2) else ((i.sca .f32 b).toNat % 2 ^ 32, 0)
  | _ => ((i.sca .f32 b).toNat % 2 ^ 32, 0)

/-- The pending PLX of the group, which its next read delivers (R198, R289). -/
def Iss.pendingPlx (i : Iss) : Option Trap :=
  ((i.b.planeSt.bind (·.plx)).filter fun y => y.1 == i.gr.grp).map fun y => { plainTrap .plx 1 with addr := BitVec.ofNat 64 y.2 }

/-- The end of a plane-synchronising read, numbered n, once every earlier t2 operation has completed: it acquires them all; then comes what `mem`
finds, then what the plane holds pending; then it reads. A trap finds the machine as `trap` (R327). -/
def Iss.planeRead {α : Type} (i : Iss) (s trap : State) (n : Nat) (mem : State → EngOp → Except Trap α) (read : α → EngOp → State → State) : Res :=
  let s := s.modBlock i.gr.blk fun b => b.acquire i.gr.grp fun o => o.tl == 2 && decide (o.num < n)
  match (s.block? i.gr.blk).bind (·.op? 2 n), s.group? i.gr with
  | some o, some g =>
    let o := { o with clock := g.known }
    match mem s o with
    | .error t => .trapIn trap t
    | .ok x =>
      match i.pendingPlx with
      | some t => .trapIn trap t
      | none =>
        let s := s.modBlock i.gr.blk fun b =>
          setPlane ((b.modOp 2 n fun _ => { o with state := .done, acquired := [i.gr.grp], rel := o.release }).addStat 4 1) fun p => { p with last := n }
        .done ((read x o s).modGroup i.gr fun g => g.acquire o.release) true
  | _, _ => i.stall

/-- A plane-synchronising read (R199, R289): it is itself a t2 operation, numbered at its issue in the one sequence of both slots (R283), and
waits for the earlier ones. A trap takes it back (State.takeTrap). A group that is not bound waits too, and then takes what is pending, else PLX 4.
DEDUCED: log entry 36. -/
def Iss.planeSync {α : Type} (i : Iss) (instr : Instr) (v : List Word) (mem : State → EngOp → Except Trap α) (read : α → EngOp → State → State) :
    Res :=
  let early (n : Nat) : Bool := i.b.ops.any fun o => o.tl == 2 && decide (o.num < n) && !o.isDone
  let unbound (n : Nat) : Res :=
    if early n then i.wait (.unbound n) i.s
    else .trap (match i.pendingPlx with | some t => t | none => plainTrap .plx 4)
  match i.sl.wait with
  | some (.plane n) => if early n || i.s.parityMet i.b instr then i.wait (.plane n) i.s else i.planeRead i.s i.s n mem read
  | some (.unbound n) => unbound n
  | _ =>
    if i.planeBusy then i.stall
    else if !i.isBound then unbound ((i.b.tls.getD 2 ⟨0, 0, []⟩).issued + 1)
    else
      let r := i.planeIssue instr v fun b => b
      let s := r.2.modOp i.gr.blk 2 r.1.num fun o => { o with state := .running, data := [BitVec.ofNat 64 (i.g.mine.getD 2 0)] }
      if early r.1.num || i.s.parityMet i.b instr then i.wait (.plane r.1.num) s else i.planeRead s i.s r.1.num mem read

/-- The issuing group's register after a read. -/
def Iss.readTo (i : Iss) (s : State) (d : BitVec 6) (x : Nat) (fl : Flags) : State :=
  s.modGroup i.gr fun g => (g.wrS i.sl.wb d.toNat (BitVec.ofNat 64 x)).orFlags fl

/-- The enabled cells' values of an operand, with their indices. -/
def Plane.terms (p : Plane) (a : CellSrc) : List (Nat × Nat) :=
  (List.range 128).flatMap fun j => ((List.range 128).filter fun i => p.en i j).map fun i => (128 * j + i, (p.src false a i j).toNat)

def redOfAmm : AmmOp → RedOp
  | .add => .add
  | .min => .min
  | .max => .max

def execPlred (d : BitVec 6) (a : CellSrc) (b : Src) (p : AmmOp) (s : State) : Host.Outcome State Fault Refusal :=
  s.run fun i => orTrap (i.checkSca .f32 [b]) fun _ =>
    let x := i.uniF32 b
    i.planeSync (.plred d a b p) [BitVec.ofNat 64 x.1] (fun _ _ => .ok ()) fun _ _ s =>
      let r := redValue (redOfAmm p) .f32 false x.1 ((i.b.planeSt.getD Plane.fresh).terms a)
      i.readTo s d (canonical .f32 r.1) (r.2 ||| x.2)

/-- The bitmap as bytes: bit k at byte k / 8, bit k % 8. -/
def excBytes (x : CellBits) : List Byte := (List.range 128).flatMap fun j => leBytes 16 (x.getD j 0).toNat

def execPlexc (d : BitVec 6) (a : Src) (clr : Bool) (s : State) : Host.Outcome State Fault Refusal :=
  s.run fun i => orTrap (i.checkSca .i64 [a]) fun _ =>
    let x := i.uni a
    let q : Req := ⟨.sp, x, 2048, decide (x.toNat % 256 = 0), false, true, false, false, true⟩
    i.planeSync (.plexc d a clr) [x] (fun s o => s.check (o.who i.b) i.b none q true) fun acc o s =>
      let e := (i.b.planeSt.getD Plane.fresh).exc
      let s := s.perform (o.who i.b) acc (excBytes e)
      let s := if clr then s.modBlock i.gr.blk fun b => setPlane b fun p => { p with exc := [] } else s
      i.readTo s d (cellCount e) 0

def execPlflg (d : BitVec 6) (clr : Bool) (s : State) : Host.Outcome State Fault Refusal :=
  s.run fun i => i.planeSync (.plflg d clr) [] (fun _ _ => .ok ()) fun _ _ s =>
    let p := i.b.planeSt.getD Plane.fresh
    let f := p.flags.foldl (fun f r => r.foldl (fun f x => f ||| x) f) (0 : Flags)
    let s := if clr then s.modBlock i.gr.blk fun b => setPlane b fun p => { p with flags := [] } else s
    i.readTo s d ((f &&& 0x3F).toNat + if cellCount p.exc = 0 then 0 else 64) 0

end Sys2Proof.Machine
end

