-- ==== Sys2Proof/Machine/Launch.lean ====
section
/-! DEFINITION. Launch records and their acceptance, LAUNCH, ARM and DISARM, and the writes of completion words (R205, R206, R329-R340,
R353). -/

namespace Sys2Proof.Machine

open Sys2Proof

/-! ## The launch record (R329) -/

/-- A dependence vector. -/
def vecOf (w : Nat) : Int × Int × Int :=
  let s (lo : Nat) : Int := (BitVec.ofNat 9 (bits w lo 9)).toInt
  (s 0, s 9, s 18)

def lrecOf (bs : List Byte) : LRec :=
  let n := recNum bs
  let w (o : Nat) : Word := BitVec.ofNat 64 (n o 8)
  let f := n 72 2
  { entry := w 0, args := w 8, comp := w 16, stats := w 24, spillBase := w 32, dstkBase := w 40, spillSz := n 48 4, dstkSz := n 52 4
    gx := n 56 2, gy := n 58 2, gz := n 60 2, tx := n 62 2, ty := n 64 2, tz := n 66 2, spr := n 68 2, narg := n 70 1, regs := n 71 1
    help := bit f 0, plane := bit f 1, matrix := bit f 2, idem := bit f 3, pri := bits f 4 3, spn := bits f 8 3 + 1, nvec := bits f 11 3
    after := n 76 4, vecs := (List.range 4).map fun i => vecOf (n (80 + 4 * i) 4) }

/-- Check 1 of R332. -/
def lrecMalformed (bs : List Byte) : Bool :=
  let n := recNum bs
  let r := lrecOf bs
  let off (x : Word) (k : Nat) : Bool := decide (x.toNat % k ≠ 0)
  let ext (x : Nat) : Bool := x == 0 || decide (1024 < x)
  off r.entry 4 || (r.narg != 0 && off r.args 8) || off r.comp 8 || off r.stats 64 || off r.spillBase 64 || off r.dstkBase 16 ||
    decide (r.spillSz % 64 ≠ 0) || decide (r.dstkSz % 16 ≠ 0) || r.gx == 0 || r.gy == 0 || r.gz == 0 || ext r.tx || ext r.ty || ext r.tz ||
    decide (1024 < r.tx * r.ty * r.tz) || decide (1024 < r.spr) || decide (64 < r.narg) || r.regs == 0 || decide (8 < r.regs) ||
    bit (n 72 2) 7 || bits (n 72 2) 14 2 != 0 || decide (4 < r.nvec) || n 74 2 != 0 || n 96 32 != 0 ||
    ((List.range 4).any fun i => bits (n (80 + 4 * i) 4) 27 5 != 0 || (decide (r.nvec ≤ i) && n (80 + 4 * i) 4 != 0)) ||
    decide (r.gx * r.gy * r.gz % r.spn ≠ 0)

/-- Groups of a block, registers of a group. -/
def LRec.groups (r : LRec) : Nat := (r.tx * r.ty * r.tz + 31) / 32
def LRec.av (r : LRec) : Nat := 64 * r.regs
def LRec.blocks (r : LRec) : Nat := r.gx * r.gy * r.gz

/-- The linear offset of a vector. -/
def LRec.delta (r : LRec) (v : Int × Int × Int) : Int := v.1 + r.gx * (v.2.1 + r.gy * v.2.2)

/-- A vector of check 4 that holds. -/
def LRec.vecOk (r : LRec) (v : Int × Int × Int) : Bool :=
  let c (x : Int) : Bool := decide (-255 ≤ x) && decide (x ≤ 255)
  c v.1 && c v.2.1 && c v.2.2 && decide (1 ≤ r.delta v) && decide (r.delta v ≤ 65536) && decide ((r.spn : Int) ≤ r.delta v)

/-- The context priority as the device reads it, and the weight (R389). -/
def Context.priority (c : Context) : Nat := if c.prio = 0 ∧ !c.pres then 1 else c.prio
def Context.share (c : Context) : Nat := if c.weight = 0 then 1 else c.weight

/-- The magnitude of the code with which a record is rejected, none when it is accepted (R332). -/
def rejects (bs : List Byte) (c : Context) : Option Nat :=
  let r := lrecOf bs
  if lrecMalformed bs then some 2
  else if r.pri < c.priority ∨ (r.pri = 0 ∧ !c.pres) then some 4
  else if 2048 < (r.groups + 5) / 6 * r.av then some 3
  else if (r.vecs.take r.nvec).any fun v => !r.vecOk v then some 1
  else none

/-! ## The pending store (R340) -/

/-- Entries that a die holds: grids from acceptance to completion, and handlers that wait. -/
def State.entries (s : State) (die : Nat) : Nat :=
  (s.grids.filter fun g => g.die == die).length + (s.pendH.filter fun h => dieOf h.cluster == die).length

def State.spilled (s : State) : Nat := (List.range 4).foldl (fun n d => n + (s.entries d - 4096)) 0

/-- The die's store and the overflow area are both full. -/
def State.storeFull (s : State) (die : Nat) : Bool := decide (4096 ≤ s.entries die) && decide (Config.overflowEntries ≤ s.spilled)

/-! ## Acceptance (R333, R334) -/

def nextLid (n : Nat) : Nat := if 0xFFFFFFFE ≤ n then 1 else n + 1

/-- The LAUNCHID that AFTER names, 0 for none (R334). -/
def State.named (s : State) (src : LSource) (after : Nat) : Nat :=
  if after = 0xFFFFFFFF then ((s.prevs.find? fun x => x.1 == src).map (·.2)).getD 0 else after

/-- The LAUNCHID that a record's AFTER waits for, 0 for none: only a grid that is pending or running (R334). -/
def State.afterOf (s : State) (ctx : Nat) (src : LSource) (after : Nat) : Nat :=
  let n := s.named src after
  if s.grids.any fun g => g.ctx == ctx && g.lid == n then n else 0

/-- What the completion write of a grid released that AFTER names and that has completed (R258, R334). -/
def State.afterClock (s : State) (ctx : Nat) (src : LSource) (after : Nat) : Clock :=
  ((s.completed.find? fun x => x.1 == ctx && x.2.1 == s.named src after).map (·.2.2)).getD []

/-- Accepts a record for a context: the grid, and its LAUNCHID. -/
def State.acceptGrid (s : State) (c : Context) (r : LRec) (src : LSource) (die : Nat) (clock : Clock) (s0s1 : Option (Word × Word)) : State × Nat :=
  let lid := c.nextLaunch
  let clock := clockJoin clock (s.afterClock c.num src r.after)
  let g : Grid :=
    { gid := s.nextId, ctx := c.num, lid := lid, lrec := r, source := src, die := die, age := s.nextId, after := s.afterOf c.num src r.after
      low := 0, retired := [], active := [], rels := [], s0s1 := s0s1, clock := clock, rel := [], contribs := [], oagent := s.nextAgent
      stats := List.replicate 6 0, aborted := false }
  let s := s.modCtx c.num fun c => { c with nextLaunch := nextLid lid }
  ({ s with grids := s.grids ++ [g], nextId := s.nextId + 1, nextAgent := s.nextAgent + 1
            prevs := (src, lid) :: s.prevs.filter fun x => x.1 != src }, lid)

/-! ## LAUNCH (R205) -/

/-- An S destination of a suppressed instruction receives 0 (R218). -/
def Iss.suppressed (i : Iss) (d : BitVec 6) (r : Unit → Res) : Res := if i.onlyHelpers then i.putD (.reg d) 0 else r ()

/-- A record at a uniform global address, read at issue as an access of the group: its own earlier accesses have performed, and its
destination is under no load. -/
def Iss.record (i : Iss) (d : List Nat) (a : Word) (n : Nat) (r : List Byte → Res) : Res :=
  if !i.g.quiet || i.g.destBusy i.sl.wb [] d then i.stall
  else
    match i.s.check i.who i.b (coreIdx i.gr.grp) ⟨.gl, a, n, decide (a.toNat % n = 0), true, false, false, true, true⟩ true with
    | .error t => .trap t
    | .ok x => r (i.s.bytes x.loc n)

/-- An instruction that changes state outside the block and releases at device scope ends: its destination is written. -/
def Iss.outside (i : Iss) (s : State) (d : BitVec 6) (x : Word) (rel : Bool) : Res :=
  let s := (s.touchOutside i.gr.blk)
  let s := if rel then s.unpin i.g.agent else s
  .done (s.modGroup i.gr fun g => (if rel then g.release else g).wrS i.sl.wb d.toNat x) false

def execLaunch (d : BitVec 6) (a : Src) (s : State) : Host.Outcome State Fault Refusal :=
  s.run fun i => orTrap (i.checkSca .i64 [a]) fun _ => i.suppressed d fun _ =>
    i.record [d.toNat] (i.uni a) 128 fun bs =>
      match i.s.ctx? i.b.ctx with
      | none => i.outside i.s d 0 true
      | some c =>
        match rejects bs c with
        | some n => i.outside i.s d (BitVec.ofInt 64 (-(n : Int))) true
        | none =>
          let die := dieOf i.cluster
          if i.s.storeFull die then .trap (plainTrap .lqfull 0)
          else
            let r := i.s.acceptGrid c (lrecOf bs) (.group i.g.agent) die i.g.known none
            i.outside r.1 d (BitVec.ofNat 64 r.2) true

/-! ## ARM and DISARM (R206) -/

/-- The free indices of the table. DEDUCED: log entry 37. -/
def State.freeArms (s : State) : List Nat := (List.range 4096).filter fun n => !s.armed.any fun e => e.idx == n

def execArm (d : BitVec 6) (a : Src) (s : State) : Host.Outcome State Fault Refusal :=
  s.run fun i => orTrap (i.checkSca .i64 [a]) fun _ => i.suppressed d fun _ =>
    i.record [d.toNat] (i.uni a) 32 fun bs =>
      let tag := recNum bs 0 4
      let len := recNum bs 4 4
      if 4096 ≤ i.s.armed.length then i.outside i.s d (-1) false
      else if i.s.armed.any fun e => e.ctx == i.b.ctx && e.tag == tag && e.minLen == len then i.outside i.s d (-2) false
      else
        let free := i.s.freeArms
        -- which free entry it takes is open
        let idx := match free with
          | [n] => n
          | _ => free.getD (Config.armEntry i.s.tick % free.length) 0
        let e : ArmEnt := ⟨idx, i.b.ctx, tag, len, BitVec.ofNat 64 (recNum bs 8 8), BitVec.ofNat 64 (recNum bs 16 8), i.g.agent, dieOf i.cluster, none⟩
        i.outside { i.s with armed := i.s.armed ++ [e] } d (BitVec.ofNat 64 idx) false

def execDisarm (d : BitVec 6) (a : Src) (s : State) : Host.Outcome State Fault Refusal :=
  s.run fun i => orTrap (i.checkSca .i64 [a]) fun _ => i.suppressed d fun _ =>
    if i.g.destBusy i.sl.wb [] [d.toNat] then i.stall
    else
      let x := (i.uni a).toNat
      let is_ (e : ArmEnt) : Bool := e.ctx == i.b.ctx && e.tag == bits x 0 32 && e.minLen == bits x 32 32
      i.outside { i.s with armed := i.s.armed.filter fun e => !is_ e } d (if i.s.armed.any is_ then 1 else 0) false

/-! ## The device's own accesses through a context -/

/-- A device agent that acts for a context: with the TLB of the fabric interfaces. No KIND of R269 names it; 6 stands for it. DEDUCED: log entry 34. -/
def deviceWho (ctx agent : Nat) (clock : Clock) (pub : List (Scope × Clock)) (at_ : Option Scope) (seg : Nat) : Who :=
  ⟨ctx, 1024, agent, 1, clock, devicePos, detailWord 0 6 0 0 0 0 0, at_, false, pub, seg⟩

/-- The segment of the device's writes: COMMITTED + 1 (R417). -/
def State.devSegment (s : State) (ctx : Nat) : Nat := match s.ctx? ctx with | some c => c.committed + 1 | none => 0

/-- A global write of a device agent, which pins nothing; a write that cannot be performed is none. -/
def State.devWrite (s : State) (who : Who) (a : Word) (bs : List Byte) : Except Trap State :=
  match s.checkGlobal who ⟨.gl, a, bs.length, true, false, true, false, true, true⟩ false with
  | .ok x => .ok (((s.request x.loc (.write x.loc.ofs bs)).perform who x bs).unpin who.agent)
  | .error t => .error t

/-- A completion word: LID and STATUS (R337). -/
def compWord (status lid : Nat) : List Byte := leBytes 8 (status * 2 ^ 32 + lid)

/-- Writes a completion word by one atomic write at device scope, publishing c; a write that cannot be performed is dropped and logged. -/
def State.writeComp (s : State) (ctx : Nat) (comp : Word) (status lid : Nat) (c : Clock) : State :=
  if comp = 0 then s
  else
    let agent := s.nextAgent
    let who := deviceWho ctx agent c [(.device, clockSet c agent 1)] (some .device) (s.devSegment ctx)
    let s := { s with nextAgent := agent + 1 }
    match s.devWrite who comp (compWord status lid) with
    | .ok s => s
    | .error t => s.logFate ctx t.cause.code lid 0 0 comp.toNat

/-- A record rejected that came from a queue or an armed entry: its COMP word, when there is one, and a Contrail event (R336, R353). -/
def State.rejectRecord (s : State) (ctx : Nat) (bs : List Byte) (n : Nat) : State :=
  let comp := BitVec.ofNat 64 (recNum bs 16 8)
  let s := if comp.toNat % 8 = 0 then s.writeComp ctx comp n 0 [] else s
  s.logFate ctx n 0 0 0 (if comp.toNat % 8 = 0 then 0 else comp.toNat)

/-- The host's count of releases now: a queue pointer or control field that it writes is ordered after all its earlier writes, as R336 and
R372 ask of it. -/
def State.hostTime (s : State) : Nat := s.tick + 1

/-! ## Armed entries fire (R340, R353) -/

/-- Fires an armed entry for a message of a length: its record is read, validated and launched. c is what the payload's writes release.
The entry is free afterwards. An entry whose record cannot be read launches nothing. -/
def State.fire (s : State) (e : ArmEnt) (len : Nat) (c : Clock) : State :=
  let s := { s with armed := s.armed.filter fun x => x.idx != e.idx }
  match s.ctx? e.ctx with
  | none => s
  | some ctx =>
    let who := deviceWho e.ctx 0 c [] none 0
    match s.checkGlobal who ⟨.gl, e.recAddr, 128, decide (e.recAddr.toNat % 128 = 0), true, false, false, true, true⟩ false with
    | .error t => s.logFate e.ctx t.cause.code 0 0 0 e.recAddr.toNat
    | .ok x =>
      let bs := s.bytes x.loc 128
      match rejects bs ctx with
      | some n => s.rejectRecord e.ctx bs n
      | none => (s.acceptGrid ctx (lrecOf bs) (.armed e.ctx e.tag e.minLen) e.die c (some (e.buf, BitVec.ofNat 64 len))).1

/-- The first entries that hold a message fire, at most n of them, as long as their dies' stores have room. -/
def State.fireSome (s : State) : Nat → State
  | 0 => s
  | n + 1 =>
    match s.armed.find? fun e => e.held.isSome && !s.storeFull e.die with
    | none => s
    | some e => match e.held with
      | some h => (s.fire e h.1 h.2).fireSome n
      | none => s

/-- Entries that hold messages fire once their dies' stores have room (R340). -/
def State.fireHeld (s : State) : State := s.fireSome s.armed.length

end Sys2Proof.Machine
end

