-- ==== Sys2Proof/Machine/Handles.lean ====
section
/-! DEFINITION. Handles and invocations (R207-R209, R355-R364): the seven instructions, and the arrival of every message between leaves. -/

namespace Sys2Proof.Machine

open Sys2Proof

/-! ## Allocation (R357) -/

/-- The lowest number from `n` on, among `fuel` numbers, that satisfies p. -/
def lowestFrom (p : Nat → Bool) : Nat → Nat → Option Nat
  | _, 0 => none
  | n, fuel + 1 => if p n then some n else lowestFrom p (n + 1) fuel

def HSlot.isFree (x : HSlot) : Bool := match x.state with | .free => true | _ => false

def HSlot.isPending (x : HSlot) : Bool := match x.state with | .pending => true | _ => false

/-- The lowest-numbered FREE slot of a cluster. -/
def State.freeSlot (s : State) (cluster : Nat) : Option Nat := lowestFrom (fun n => (s.hslot (cluster * 4096 + n)).isFree) 0 4096

/-- Allocates a slot: PENDING, with an empty queue, at its current generation. -/
def State.allocate (s : State) (cluster slot ctx : Nat) (toward : Option (Nat × Word)) : State × Word :=
  let x := s.hslot (cluster * 4096 + slot)
  (s.setHSlot { x with owner := ctx, state := .pending, waiters := [], queue := [], rel := [], toward := toward }, handleWord s.pkg cluster slot x.gen)

/-- A slot as its freeing leaves it: the generation goes up, and 0 becomes 1. -/
def HSlot.freed (x : HSlot) : HSlot := { HSlot.fresh x.key with gen := if (x.gen + 1) % 2 ^ 24 = 0 then 1 else (x.gen + 1) % 2 ^ 24 }

/-! ## What a message does at its home -/

/-- Breaks handles at their homes. -/
def State.breakAll (s : State) (leaf : Nat) (hs : List Word) (origin : Word) (root : Nat) (c : Clock) : State :=
  hs.foldl (fun s h => s.send leaf (handleLeaf h) (.brk h origin root c)) s

/-- The forwarder whose target has failed the check is the origin; everything forwarded through it breaks too (R361). -/
def lastForward (via : List Word) (own : Word) : Word := via.getLast?.getD own

/-- Entries beyond the eight that a slot holds inline (R359). -/
def HSlot.overflow (x : HSlot) : Nat := x.queue.length - 8

/-- Entries of a context in its invocation overflow area. -/
def State.overflowed (s : State) (ctx : Nat) : Nat := (s.handles.filter fun x => x.owner == ctx).foldl (fun n x => n + x.overflow) 0

/-- An invocation of handle h reaches its home (R358, R359, R361, R362). -/
def State.reach (s : State) (leaf : Nat) (h : Word) (i : Inv) (via : List Word) (w : Option Waiter) : State :=
  match s.handleFault i.ctx h with
  | some n =>
    match w with
    | some w => s.send leaf w.leaf (.refuse w.req n)
    | none =>
      let o := lastForward via h
      s.breakAll leaf (via ++ [i.own]) o 0xFFFD i.clock
  | none =>
    let s := match w with | some w => s.send leaf w.leaf (.answer w.req [] []) | none => s
    let x := s.hslot (handleKey h)
    match x.state with
    | .free => s
    | .pending =>
      if x.queue.length < 8 ∨ s.overflowed i.ctx < Config.invEntries then s.setHSlot { x with queue := x.queue ++ [i] }
      else s.breakAll leaf [i.own] i.own 0xFFFE i.clock
    | .forwarded t =>
      if s.handleMalformed t then s.breakAll leaf (via ++ [h, i.own]) h 0xFFFD i.clock
      else s.send leaf (handleLeaf t) (.toHandle t i (via ++ [h]) none)
    | .resolved v place => s.send leaf place (.place { i with clock := clockJoin i.clock x.rel, through := some h } v)
    | .broken o n => s.breakAll leaf [i.own] o n x.rel

/-- An HWAIT registers (R364). -/
def State.register (s : State) (leaf : Nat) (h : Word) (w : Waiter) (via : List Word) : State :=
  match s.handleFault w.ctx h with
  | some n =>
    if via.isEmpty then s.send leaf w.leaf (.refuse w.req n)
    else
      let o := lastForward via h
      (s.breakAll leaf via o 0xFFFD []).send leaf w.leaf (.answer w.req [o, 0xFFFD] [])
  | none =>
    let x := s.hslot (handleKey h)
    match x.state with
    | .free => s
    | .pending => s.setHSlot { x with waiters := x.waiters ++ [w] }
    | .forwarded t =>
      if s.handleMalformed t then (s.breakAll leaf (via ++ [h]) h 0xFFFD []).send leaf w.leaf (.answer w.req [h, 0xFFFD] [])
      else s.send leaf (handleLeaf t) (.wait t w (via ++ [h]))
    | .resolved v _ => s.send leaf w.leaf (.answer w.req [v, 0] x.rel)
    | .broken o n => s.send leaf w.leaf (.answer w.req [o, BitVec.ofNat 64 n] x.rel)

/-- A handle that still names its slot. -/
def State.current (s : State) (h : Word) : Bool := (s.hslot (handleKey h)).gen == handleGen h

/-- What HQRY reads of a slot (R209). -/
def HSlot.word (x : HSlot) : Word :=
  let code := match x.state with | .free => 0 | .pending => 1 | .forwarded _ => 2 | .resolved .. => 3 | .broken .. => 4
  BitVec.ofNat 64 (code + min 8 x.queue.length * 2 ^ 8 + x.queue.length % 2 ^ 32 * 2 ^ 32)

/-- HFREE at the home: the slot freed, or the sub-code (R209, R358). -/
def State.freeHandle (s : State) (ctx : Nat) (h : Word) : Except Nat State :=
  match s.handleFault ctx h with
  | some n => .error n
  | none =>
    let x := s.hslot (handleKey h)
    if x.isPending || !x.queue.isEmpty then .error 5 else .ok (s.setHSlot x.freed)

/-! ## The answer of a remote home (R356) -/

def Slot.awaits (x : Slot) (k : Nat) : Bool :=
  match x.wait with
  | some (.handle j _) | some (.answer j _ _) => j == k
  | _ => false

/-- The slot holds an instruction that waits for a home's check. -/
def Slot.awaitsHome (x : Slot) : Bool := match x.wait with | some (.answer ..) => true | _ => false

/-- While an instruction of the group stands with a remote home, no trap is taken and the block is not saved: the answer comes first. DEDUCED: log entry 41. -/
def Group.awaitsHome (g : Group) : Bool := g.slotA.awaitsHome || g.slotB.awaitsHome

/-- An answer reaches the slot that waits for it, placed or saved (R364). One that nobody waits for any more is dropped. -/
def State.deliver (s : State) (k : Nat) (v : List Word) (c : Clock) : State :=
  let put (x : Slot) : Slot := if x.awaits k then { x with answer := some (v, c) } else x
  { s with blocks := s.blocks.map fun (b : Block) =>
      { b with groups := b.groups.map fun (g : Group) => { g with slotA := put g.slotA, slotB := put g.slotB } } }

/-- A slot of some group waits for the check that request k asks of a home. -/
def State.asked (s : State) (k : Nat) : Bool :=
  s.blocks.any fun b => b.groups.any fun g => (g.slotA.awaits k && g.slotA.awaitsHome) || (g.slotB.awaits k && g.slotB.awaitsHome)

/-- The leaf of the issuing group's cluster. -/
def Iss.leaf (i : Iss) : Nat := myLeaf i.s i.cluster

def Iss.waiter (i : Iss) : Waiter := ⟨i.s.nextId, i.leaf, i.b.ctx⟩

/-- Asks a home, and holds the instruction until it answers. DEDUCED: log entry 41. -/
def Iss.ask (i : Iss) (s : State) (h own : Word) (m : MsgBody) : Res :=
  .stay (({ s with nextId := i.s.nextId + 1 }.send i.leaf (handleLeaf h) m).modGroup i.gr fun g =>
    g.modSlot i.slotB fun x => { x with wait := some (.answer i.s.nextId own (handlePkg h)), answer := none }) false

/-- A home in the issuing cluster: the instruction acts there at once, after the cluster's own earlier messages to it. -/
def Iss.homeHere (i : Iss) (h : Word) : Bool := handleLeaf h == i.leaf

def Iss.homeBusy (i : Iss) : Bool := i.s.msgs.any fun m => m.src == i.leaf && m.dst == i.leaf

/-! ## INVOKE and INVH (R207) -/

/-- A record with a field out of range. DEDUCED: log entry 42. -/
def invMalformed (bs : List Byte) : Bool :=
  let n := recNum bs
  decide (n 0 8 % 4 ≠ 0) || decide (1024 < n 8 4) || decide (n 8 4 % 8 ≠ 0) || decide (1020 < n 12 2) || n 14 1 == 0 || decide (8 < n 14 1) ||
    n 15 1 != 0 || decide (n 16 8 % 8 ≠ 0) || n 24 8 != 0

/-- The payload, read at issue as accesses of the group. -/
def Iss.payload (i : Iss) (a : Word) (n : Nat) : Except Trap (List Byte) :=
  (pieces a n).foldlM (fun acc p =>
    match i.s.check i.who i.b (coreIdx i.gr.grp) ⟨.gl, p.1, p.2, true, true, false, false, true, true⟩ true with
    | .ok x => Except.ok (acc ++ i.s.bytes x.loc p.2)
    | .error t => .error t) []

/-- The sender as S2 of a handler names it (R208). -/
def Iss.sender (i : Iss) : Word :=
  match i.b.handler with
  | some h => h
  | none => BitVec.ofNat 64 (i.s.pkg % 4096 * 2 ^ 52 + i.cluster % 128 * 2 ^ 45 + i.gr.grp % 6 * 2 ^ 42 + i.gr.grp % 32 * 2 ^ 37)

/-- Reads the record and the payload, checks the target, allocates the handle, and goes on with the invocation. -/
def Iss.newInv (i : Iss) (d : BitVec 6) (a : Word) (malformed : Bool) (toward : Option (Nat × Word)) (go : State → Inv → Res) : Res :=
  i.record [d.toNat] a 32 fun bs =>
    if invMalformed bs then .trap (memTrap .prot 7 a)
    else
      match i.payload (BitVec.ofNat 64 (recNum bs 16 8)) (recNum bs 8 4) with
      | .error t => .trap t
      | .ok p =>
        if malformed then .trap (plainTrap .handle 1)
        else
          match i.s.freeSlot i.cluster with
          | none => i.stall
          | some n =>
            let r := i.s.allocate i.cluster n i.b.ctx toward
            go r.1
              { own := r.2, entry := BitVec.ofNat 64 (recNum bs 0 8), spr := 256 * recNum bs 12 2, regs := recNum bs 14 1, payload := p
                ctx := i.b.ctx, pri := i.b.pri, sender := i.sender, clock := i.g.known, through := none }

/-- Another package that a handle or place lies in. -/
def Iss.elsewhere (i : Iss) (h : Word) : Option (Nat × Word) := if handlePkg h = i.s.pkg then none else some (handlePkg h, h)

/-- A place: bits [44:0] zero, a package that the route table names. -/
def State.placeMalformed (s : State) (x : Word) : Bool := bits x.toNat 0 45 != 0 || handlePkg x == 4095 || !s.routed (handlePkg x)

def execInvoke (d : BitVec 6) (a b : Src) (s : State) : Host.Outcome State Fault Refusal :=
  s.run fun i => orTrap (i.checkSca .i64 [a, b]) fun _ => i.suppressed d fun _ =>
    let x := i.uni a
    let far := if handlePkg x = i.s.pkg then none else some (handlePkg x, (0 : Word))
    i.newInv d (i.uni b) (i.s.placeMalformed x) far fun s v =>
      i.outside (s.send i.leaf (handleLeaf x) (.place v 0)) d v.own true

def execInvh (d : BitVec 6) (a b : Src) (s : State) : Host.Outcome State Fault Refusal :=
  s.run fun i => orTrap (i.checkSca .i64 [a, b]) fun _ => i.suppressed d fun _ =>
    let h := i.uni a
    match i.sl.wait, i.sl.answer with
    | some (.answer _ own _), some (v, _) =>
      match v with
      | [n] =>
        -- the home has refused: the instruction has no effect, and its slot is free as before
        let x := i.s.hslot (handleKey own)
        .trapIn (i.s.setHSlot { HSlot.fresh x.key with gen := x.gen }) (plainTrap .handle n.toNat)
      | _ => if i.g.destBusy i.sl.wb [] [d.toNat] then i.stall else i.outside i.s d own true
    | some (.answer ..), none => i.stall
    | _, _ =>
      i.newInv d (i.uni b) (i.s.handleMalformed h) (i.elsewhere h) fun s v =>
        if i.homeHere h then
          if i.homeBusy then i.stall
          else
            match i.s.handleFault i.b.ctx h with
            | some n => .trap (plainTrap .handle n)
            | none => i.outside (s.reach i.leaf h v [] none) d v.own true
        else i.ask s h v.own (.toHandle h v [] (some i.waiter))

/-! ## HWAIT (R209, R364) -/

def execHwait (d : BitVec 6) (a : Src) (s : State) : Host.Outcome State Fault Refusal :=
  s.run fun i => orTrap (i.checkSca .i64 [a]) fun _ =>
    match i.sl.wait, i.sl.answer with
    | some (.handle ..), some (v, c) =>
      match v with
      | [n] => .trap (plainTrap .handle n.toNat)
      | _ =>
        if i.g.destBusy i.sl.wb [] [d.toNat, d.toNat + 1] then i.stall
        else
          let g := (i.g.acquire c).wrS i.sl.wb d.toNat (v.getD 0 0)
          .done (i.s.setGroup i.gr (g.wrS i.sl.wb (d.toNat + 1) (v.getD 1 0))) true
    | some (.handle k h), none => i.wait (.handle k h) i.s
    | _, _ =>
      let h := i.uni a
      if i.s.handleMalformed h then .trap (plainTrap .handle 1)
      else
        let s := { i.s with nextId := i.s.nextId + 1 }.send i.leaf (handleLeaf h) (.wait h i.waiter [])
        i.wait (.handle i.s.nextId h) (s.modGroup i.gr fun g => g.modSlot i.slotB fun x => { x with answer := none })

/-! ## HRES, HBRK (R209, R358) -/

/-- The handle that the executing handler may still settle. -/
def Block.settles (b : Block) : Option Word := if b.settled then none else b.handler

/-- The handler settles its handle by a message to its home; its own cluster records at issue that it has done so. -/
def Iss.settle (i : Iss) (h : Word) (m : MsgBody) : Res :=
  if !i.g.quiet then i.stall
  else
    let s := (i.s.touchOutside i.gr.blk).unpin i.g.agent
    let s := s.modBlock i.gr.blk fun b => { b with settled := true }
    .done ((s.modGroup i.gr Group.release).send i.leaf (handleLeaf h) m) false

def execHres (a : Src) (fwd : Bool) (s : State) : Host.Outcome State Fault Refusal :=
  s.run fun i => orTrap (i.checkSca .i64 [a]) fun _ => i.unlessHelpers fun _ =>
    let x := i.uni a
    match i.b.settles with
    | none => .trap (plainTrap .handle 4)
    | some h =>
      if fwd then (if x = h then .trap (plainTrap .handle 6) else i.settle h (.forward h x i.g.known))
      else i.settle h (.resolve h x i.leaf i.g.known)

def execHbrk (a : Src) (s : State) : Host.Outcome State Fault Refusal :=
  s.run fun i => orTrap (i.checkSca .i64 [a]) fun _ => i.unlessHelpers fun _ =>
    match i.b.settles with
    | none => .trap (plainTrap .handle 4)
    | some h =>
      let n := bits (i.uni a).toNat 0 15
      i.settle h (.brk h h (if n = 0 then 1 else n) i.g.known)

/-! ## HQRY, HFREE (R209) -/

def execHqry (d : BitVec 6) (a : Src) (s : State) : Host.Outcome State Fault Refusal :=
  s.run fun i => orTrap (i.checkSca .i64 [a]) fun _ =>
    let h := i.uni a
    match i.sl.wait, i.sl.answer with
    | some (.answer ..), some (v, _) =>
      match v with
      | [n] => .trap (plainTrap .handle n.toNat)
      | _ => i.putD (.reg d) (v.getD 0 0)
    | some (.answer ..), none => i.stall
    | _, _ =>
      if i.s.handleMalformed h then .trap (plainTrap .handle 1)
      else if !i.homeHere h then i.ask i.s h 0 (.query h i.waiter)
      else if i.homeBusy then i.stall
      else
        match i.s.handleFault i.b.ctx h with
        | some n => .trap (plainTrap .handle n)
        | none => i.putD (.reg d) (i.s.hslot (handleKey h)).word

def execHfree (a : Src) (s : State) : Host.Outcome State Fault Refusal :=
  s.run fun i => orTrap (i.checkSca .i64 [a]) fun _ => i.unlessHelpers fun _ =>
    let h := i.uni a
    match i.sl.wait, i.sl.answer with
    | some (.answer ..), some (v, _) =>
      match v with
      | [n] => .trap (plainTrap .handle n.toNat)
      | _ => .done (i.s.touchOutside i.gr.blk) false
    | some (.answer ..), none => i.stall
    | _, _ =>
      if i.s.handleMalformed h then .trap (plainTrap .handle 1)
      else if !i.homeHere h then i.ask i.s h 0 (.free h i.waiter)
      else if i.homeBusy then i.stall
      else
        match i.s.freeHandle i.b.ctx h with
        | .error n => .trap (plainTrap .handle n)
        | .ok s => .done (s.touchOutside i.gr.blk) false

/-! ## Messages arrive (R365) -/

/-- Message k and the state without it, when its destination lies in this package and no earlier message goes from its source to its
destination. -/
def State.arrival (s : State) (k : Nat) : Option (Msg × State) :=
  match s.msgs[k]? with
  | none => none
  | some m =>
    if m.dst / 128 = s.pkg ∧ (s.msgs.take k).all fun x => x.src != m.src || x.dst != m.dst then some (m, { s with msgs := s.msgs.eraseIdx k })
    else none

/-- The step that takes message k from its way and acts by its body; other bodies are another event's. -/
def State.onArrival (s : State) (k : Nat) (f : State → Msg → Option State) : Host.Outcome State Fault Refusal :=
  match s.arrival k with
  | none => .next s
  | some (m, t) => .next ((f t m).getD s)

/-- INVOCATION_ARRIVAL: at a target place a handler waits to start; at a handle's home the slot's state decides. -/
def execInvocationArrival (k : Nat) (s : State) : Host.Outcome State Fault Refusal :=
  s.onArrival k fun s m =>
    match m.body with
    | .place i v => some { s with pendH := s.pendH ++ [⟨i, m.dst % 128, v, s.nextId⟩], nextId := s.nextId + 1 }
    | .toHandle h i [] w => some (s.reach m.dst h i [] w)
    | _ => none

/-- HWAIT_REGISTRATION. -/
def execHwaitRegistration (k : Nat) (s : State) : Host.Outcome State Fault Refusal :=
  s.onArrival k fun s m =>
    match m.body with
    | .wait h w via => some (s.register m.dst h w via)
    | _ => none

/-- HWAIT_ANSWER: the value or the break reaches the waiting group. -/
def execHwaitAnswer (k : Nat) (s : State) : Host.Outcome State Fault Refusal :=
  s.onArrival k fun s m =>
    match m.body with
    | .answer r v c => if s.asked r then none else some (s.deliver r v c)
    | _ => none

/-- RESOLUTION_ARRIVAL. -/
def execResolutionArrival (k : Nat) (s : State) : Host.Outcome State Fault Refusal :=
  s.onArrival k fun s m =>
    match m.body with
    | .resolve h v place c =>
      some (if s.current h && (s.hslot (handleKey h)).isPending then s.resolveSlot (handleKey h) v place c else s)
    | _ => none

/-- FORWARD_ARRIVAL: a forward reaches the slot it forwards, or a forwarded entry its target's home. -/
def execForwardArrival (k : Nat) (s : State) : Host.Outcome State Fault Refusal :=
  s.onArrival k fun s m =>
    match m.body with
    | .forward h t c => some (if s.current h && (s.hslot (handleKey h)).isPending then s.forwardSlot (handleKey h) h t c else s)
    | .toHandle h i (v :: via) w => some (s.reach m.dst h i (v :: via) w)
    | _ => none

/-- FORWARD_PROBE: back at its origin, or past 255 FORWARDED slots, every slot on the chain breaks (R361). -/
def execForwardProbe (k : Nat) (s : State) : Host.Outcome State Fault Refusal :=
  s.onArrival k fun s m =>
    match m.body with
    | .probe o h path =>
      if h = o then some (s.breakAll m.dst path o 0xFFFF [])
      else
        match (s.hslot (handleKey h)).state with
        | .forwarded t =>
          if !s.current h then some s
          else
          let x := s.hslot (handleKey h)
          let s := s.setHSlot { x with sources := x.sources ++ path.filter fun p => !x.sources.contains p }
          if s.handleMalformed t then some s
          else if 255 < path.length + 1 then some (s.breakAll m.dst (path ++ [h]) o 0xFFFF [])
          else some (s.send m.dst (handleLeaf t) (.probe o t (path ++ [h])))
        | .broken b 0xFFFD => some (if s.current h && b == h then s.breakAll m.dst path h 0xFFFD [] else s)
        | .pending =>
          let x := s.hslot (handleKey h)
          some (if s.current h then s.setHSlot { x with sources := x.sources ++ path.filter fun p => !x.sources.contains p } else s)
        | _ => some s
    | _ => none

/-- BREAK_ARRIVAL: a PENDING slot breaks; a FORWARDED one only by a check or probe that has failed (R358, R361, R362). -/
def execBreakArrival (k : Nat) (s : State) : Host.Outcome State Fault Refusal :=
  s.onArrival k fun s m =>
    match m.body with
    | .brk h o n c =>
      let open_ := match (s.hslot (handleKey h)).state with
        | .pending => true
        | .forwarded _ => n == 0xFFFD || n == 0xFFFF || n == 0xFFFC
        | _ => false
      some (if s.current h && open_ then s.breakSlot (handleKey h) o n c else s)
    | _ => none

/-- HOME_ANSWER: a home checks a handle for HQRY and answers, or a home's answer reaches the instruction that it holds. -/
def execHomeAnswer (k : Nat) (s : State) : Host.Outcome State Fault Refusal :=
  s.onArrival k fun s m =>
    match m.body with
    | .query h w =>
      match s.handleFault w.ctx h with
      | some n => some (s.send m.dst w.leaf (.refuse w.req n))
      | none => some (s.send m.dst w.leaf (.answer w.req [(s.hslot (handleKey h)).word, 0] []))
    | .refuse r n => some (s.deliver r [BitVec.ofNat 64 n] [])
    | .answer r v c => if s.asked r then some (s.deliver r v c) else none
    | _ => none

/-- HFREE_ARRIVAL: the slot is freed in arrival order with the HWAITs of the same handle (R364). -/
def execHfreeArrival (k : Nat) (s : State) : Host.Outcome State Fault Refusal :=
  s.onArrival k fun s m =>
    match m.body with
    | .free h w =>
      match s.freeHandle w.ctx h with
      | .error n => some (s.send m.dst w.leaf (.refuse w.req n))
      | .ok s => some (s.send m.dst w.leaf (.answer w.req [] []))
    | _ => none

end Sys2Proof.Machine
end

