-- ==== Sys2Proof/Machine/Groups.lean ====
section
/-! DEFINITION. The groups' own events: the core's choice (R224-R227), the acceptance and performing of accesses (R129, R254), walks that fill
a TLB (R407), traps of engine operations (R177, R393, R396), the retirement of groups and blocks (R163, R232), and the completion of engine
operations (R167). -/

namespace Sys2Proof.Machine

open Sys2Proof

/-! ## Readiness (R224) -/

/-- The condition that a waiting slot waits for. An instruction that a remote home holds stalls, and a stall holds the core. -/
def State.waitOver (s : State) (b : Block) (g : Group) (grp : Nat) (x : Slot) : Bool :=
  match x.wait with
  | none | some (.answer ..) => true
  | some (.loads k) => decide (g.ldcnt ≤ k)
  | some (.copies t k) => decide (g.tagc.getD t 0 ≤ k)
  | some (.gen l n) => genPassed (s.genOf l) n && g.clearFor g.nextMem (l.add 8) 4
  | some (.bar n ph) | some (.barw n ph) => decide (ph ≤ (b.bar n).outs.length)
  | some (.span ph) => match s.span? b.span with | some y => decide (ph ≤ y.outs.length) | none => true
  | some (.tl n v) => decide (v ≤ b.counter n)
  | some (.plane n) | some (.unbound n) => b.ops.all fun o => o.tl != 2 || decide (n ≤ o.num) || o.isDone
  | some (.handle ..) => x.answer.isSome
  | some .exit => !b.ops.any fun o => exitOwes grp (g.live &&& ~~~ x.mask == 0) o && !o.isDone

/-- The slot that a trap holds back does not issue before the matching RFT (R393 step 8). -/
def Group.mayIssue (g : Group) (slotB : Bool) : Bool :=
  match g.traps with
  | h :: _ => h.slotB == slotB
  | [] => true

/-- An engine operation whose trap the group takes at its next instruction boundary (R177, R396). -/
def Group.due (g : Group) : Option Stop := g.stopped.find? fun x => decide (g.traps.length ≤ x.depth)

/-- A slot is ready (R224): not held back by a refill. A group that Zenith has stopped for a save does not issue, nor does one that is to take
the trap of an engine operation. -/
def State.slotReady (s : State) (b : Block) (g : Group) (grp : Nat) (slotB : Bool) : Bool :=
  !(g.slot slotB).isFree && g.mayIssue slotB && !g.parked && !g.retired && decide ((g.slot slotB).notBefore ≤ s.cycle) &&
    (g.due.isNone || g.awaitsHome) && s.waitOver b g grp (g.slot slotB)

def State.groupReady (s : State) (b : Block) (g : Group) (grp : Nat) : Bool := s.slotReady b g grp false || s.slotReady b g grp true

/-! ## The core's choice (R225, R226) -/

/-- A ready group of a core. -/
structure Rival where
  gr : GRef
  pri : Nat
  wait : Nat
  lid : Nat
deriving DecidableEq, Repr

def quantum : Nat := 76000

/-- The ready groups of a core. -/
def State.rivals (s : State) (core : Nat) : List Rival :=
  s.blocks.flatMap fun b =>
    match b.place with
    | none => []
    | some c =>
      if c ≠ core / 6 ∨ b.aborted then []
      else (b.groups.zipIdx.filter fun x => x.2 % 6 == core % 6 && s.groupReady b x.1 x.2).map fun x =>
        ⟨⟨b.id, x.2⟩, b.pri, s.cycle - x.1.since, ((s.grid? b.grid).map (·.lid)).getD 0⟩

/-- x is chosen before y when both have waited a quantum. -/
def Rival.longer (x y : Rival) : Bool :=
  decide (y.wait < x.wait) || (x.wait == y.wait && (decide (x.gr.grp < y.gr.grp) || (x.gr.grp == y.gr.grp && decide (x.lid < y.lid))))

/-- x is chosen before y otherwise. -/
def Rival.higher (x y : Rival) : Bool := decide (x.pri < y.pri) || (x.pri == y.pri && x.longer y)

/-- The first of a list in an order. -/
def firstBy {α : Type} (lt : α → α → Bool) : List α → Option α
  | [] => none
  | x :: xs => some (xs.foldl (fun m y => if lt y m then y else m) x)

/-- The group that a core chooses. -/
def choose (rs : List Rival) : Option Rival :=
  let starved := rs.filter fun r => decide (quantum ≤ r.wait)
  if starved.isEmpty then firstBy Rival.higher rs else firstBy Rival.longer starved

/-- The slot that issues in a chosen group: the one other than the last to issue, if it is ready (R226). -/
def State.chooseSlot (s : State) (gr : GRef) : Bool :=
  match s.block? gr.blk, s.group? gr with
  | some b, some g => if s.slotReady b g gr.grp (!g.lastB) then !g.lastB else g.lastB
  | _, _ => false

/-- The slot that a core issues from: the one it executes; where that one has been left, or cannot issue, a slot of the same group (R317);
else a fresh choice. A group that is to take a trap keeps its core. -/
def State.issueSlot (s : State) (core : Nat) : Option (GRef × Bool) :=
  let fresh := (choose (s.rivals core)).map fun r => (r.gr, s.chooseSlot r.gr)
  match (s.core core).cur with
  | some (gr, sb) =>
    match s.block? gr.blk, s.group? gr with
    | some b, some g =>
      if b.place.map (coreOf · gr.grp) != some core || b.aborted then fresh
      else if g.due.isSome && !g.awaitsHome then none
      else if s.groupReady b g gr.grp then
        some (gr, if !(s.core core).turn && s.slotReady b g gr.grp sb then sb else s.chooseSlot gr)
      else fresh
    | _, _ => fresh
  | none => fresh

/-- The slot stands between a MODEX and the instruction that it governs, with no stall there (R26, R227, R402). -/
def Slot.inPair (x : Slot) : Bool := x.modex.isSome && !x.stalled && x.wait.isNone

/-- A slot that a quantum switch takes off the core: an instruction of a MODEX pair starts again at the MODEX (R227). DEDUCED: log entry 46. -/
def Slot.abandon (x : Slot) : Slot :=
  match x.modex with
  | some m => { x with pc := m.2, modex := none, stalled := false }
  | none => { x with stalled := false }

/-- The longest-waiting ready group that has waited a quantum while another group executes, outside a MODEX pair of the executing slot; a
group that a switch has chosen issues first (R227). -/
def State.switchTo (s : State) (core : Nat) : Option Rival :=
  match (s.core core).cur with
  | none => none
  | some (gr, sb) =>
    if (s.core core).fresh || ((s.group? gr).map fun g => (g.slot sb).inPair).getD false then none
    else firstBy Rival.longer ((s.rivals core).filter fun r => r.gr != gr && decide (quantum ≤ r.wait))

/-- The slot in which a group that leaves its core resumes: the one it executes; at a boundary where R226 chooses afresh, the slot chosen there (R227,
R317). None where neither is ready there. -/
def State.resumeSlot (s : State) (core : Nat) (gr : GRef) (sb : Bool) : Option Bool :=
  if !(s.core core).turn then some sb
  else
    match s.block? gr.blk, s.group? gr with
    | some b, some g => if s.groupReady b g gr.grp then some (s.chooseSlot gr) else none
    | _, _ => none

/-- The group left so that slot `x` is the next to issue. -/
def Group.resumeIn (g : Group) (x : Option Bool) : Group := match x with | some b => { g with lastB := !b } | none => g

/-- QUANTUM_SWITCH: another ready group has waited a quantum, and the core goes over to it. The group switched out resumes in its slot. -/
def execQuantumSwitch (core : Nat) (s : State) : Host.Outcome State Fault Refusal :=
  match (s.core core).cur, s.switchTo core with
  | some (gr, sb), some r =>
    let s1 := s.modGroup gr fun g => { (g.modSlot sb Slot.abandon).resumeIn (s.resumeSlot core gr sb) with since := s.cycle }
    .next ((s1.setCore core (some (r.gr, s1.chooseSlot r.gr))).modCore core fun c => { c with fresh := true })
  | _, _ => .next s

/-! ## Memory -/

/-- LOAD_COMPLETE: the oldest load has written every lane (R129). -/
def execLoadComplete (g : GRef) (s : State) : Host.Outcome State Fault Refusal :=
  match s.group? g with
  | none => .next s
  | some x =>
    match x.memq.find? fun m => isLoad m.instr with
    | none => .next s
    | some m =>
      if m.accepted && m.todo == 0 then
        .next (s.modGroup g fun x => { x with memq := x.memq.filter (fun y => y.id != m.id), ldcnt := x.ldcnt - 1 })
      else .next s

/-- Stores that have performed in every lane leave the queue. -/
def Group.dropStores (g : Group) : Group := { g with memq := g.memq.filter fun m => isLoad m.instr || !m.accepted || m.todo != 0 }

/-- ACCESS_PERFORM: the oldest instruction not yet accepted meets its checks, and is accepted or traps; lanes of an accepted one perform, as
far as the group's order lets them (R254, R262). -/
def execAccessPerform (g : GRef) (k : Nat) (lanes : BitVec 32) (s : State) : Host.Outcome State Fault Refusal :=
  match s.block? g.blk, s.group? g with
  | some b, some x =>
    match x.memq[k]? with
    | none => .next s
    | some m =>
      if m.accepted then
        .next ((s.performLanes g m.id lanes).modGroup g Group.dropStores)
      else if b.place.isNone || b.aborted || x.awaitsHome || !(x.memq.take k).all (·.accepted) then .next s
      else
        match s.acceptNext g 1 with
        | (s, some t) => .next (s.ifPinned g (s.memoryTrap g t.1 t.2))
        | (s, none) => .next s
  | _, _ => .next s

/-- PAGE_TABLE_WALK: a translation that a walk has yielded may be held from now on; that of a faulting walk never is (R407). DEDUCED: log entry 21. -/
def execPageTableWalk (ctx agent : Nat) (va : Word) (s : State) : Host.Outcome State Fault Refusal :=
  let a := va57 va.toNat
  if !canonicalVa va.toNat then .next s
  else
    match s.walk ctx a with
    | .error _ => .next s
    | .ok t =>
      if s.tlbs.any fun e => e.agent == agent && e.ctx == ctx && decide (e.tr.base ≤ a) && decide (a < e.tr.base + e.tr.size) then .next s
      else .next { s with tlbs := s.tlbs ++ [⟨agent, ctx, t⟩] }

/-! ## Traps of engine operations (R177, R396) -/

/-- TRAP_ENTRY: a group takes the trap of an engine operation that has stopped, once its memory instructions are accepted; one that fails is
reported instead, and the operation stays stopped. -/
def execTrapEntry (gr : GRef) (s : State) : Host.Outcome State Fault Refusal :=
  match s.block? gr.blk, s.group? gr with
  | some b, some g =>
    if b.place.isNone || b.aborted || g.retired || g.parked || g.awaitsHome then .next s
    else
      match g.due with
      | none => .next s
      | some st =>
        match s.acceptAll gr 9 with
        | (s, some x) => .next (s.ifPinned gr (s.memoryTrap gr x.1 x.2))
        | (s, none) =>
          if !(((s.group? gr).map fun g => g.memq.all (·.accepted)).getD true) then .next s
          else
            let s1 := s.modGroup gr fun g => { g with stopped := g.stopped.erase st }
            match (s1.block? gr.blk).bind fun b => b.op? st.tl st.num with
            | none => .next s1
            | some o =>
              match o.state, o.parts.find? fun p => p.grp == gr.grp with
              | .stopped t, some p =>
                let s2 := s1.modGroup gr fun g => { g with pix := BitVec.ofNat 64 p.pix, ivec := p.ivec.map (BitVec.ofNat 64 ·) }
                .next (s.ifPinned gr <| s2.takeTrap gr p.slotB (if p.pre.isSome then p.epc - 4 else p.epc) t ⟨some (st.tl, st.num), []⟩ [p.entry])
              | _, _ => .next s1
  | _, _ => .next s

/-! ## Retirement (R163, R232) -/

/-- What a group has done, its CPA transfers among it. -/
def Group.doneClock (g : Group) : Clock := g.cpas.foldl (fun c x => clockJoin c (clockSet x.clock x.agent 1)) g.known

/-- A place in the storage of a block. -/
def Loc.ofBlock (l : Loc) (id : Nat) : Bool :=
  match l.store with
  | .sp b | .wb b | .ab b | .cb b => b == id
  | _ => false

/-- Agents of a block: its groups and its engine operations. -/
def Block.agents (b : Block) : List Nat :=
  b.groups.map (·.agent) ++ b.ops.flatMap fun o => (List.range (if o.tl = 0 then 34 else 1)).map (o.agent + ·)

/-- An access to the storage of a block that is accepted and has not performed. -/
def MemOp.owes (m : MemOp) (id : Nat) : Bool := m.accepted && m.todo != 0 && m.accs.any fun a => a.2.1.ofBlock id

/-- Accesses of other blocks to the storage of a block, accepted and outstanding, perform, with what comes before them in their groups' order (R240). -/
def State.performOwed (s : State) (id : Nat) : State :=
  let gs : List (GRef × Group) := (s.blocks.filter fun b => b.id != id).flatMap fun b => b.groups.zipIdx.map fun x => (⟨b.id, x.2⟩, x.1)
  let s := (gs.filter fun x => x.2.memq.any fun m => m.owes id).foldl (fun s x =>
    (x.2.memq.filter (·.accepted)).foldl (fun s m =>
      if ((s.group? x.1).map fun g => g.memq.any fun n => n.owes id).getD false then s.performLanes x.1 m.id (-1) else s) s) s
  (gs.filter fun x => x.2.cpas.any fun c => !c.done && c.lanes.any fun l => l.2.2.ofBlock id).foldl (fun s x =>
    (List.range x.2.cpas.length).foldl (fun s k => s.finishCpa x.1 k) s) s

/-- A block and its storage go: accesses that other blocks owe it perform first (R240), nothing of it is seen again, and it pins nothing (R236). DEDUCED: log entry 16. -/
def State.dropBlock (s : State) (id : Nat) : State :=
  let s := s.performOwed id
  let key := ((s.block? id).map (·.span)).getD 0
  let gone := match s.block? id with | some b => b.agents | none => []
  let s := { s with
    blocks := s.blocks.filter fun b => b.id != id
    writers := s.writers.filter fun x => !x.1.ofBlock id
    rels := s.rels.filter fun x => !x.1.ofBlock id
    words := s.words.filter fun x => !x.loc.ofBlock id
    pins := s.pins.filter fun x => !gone.contains x.2
    binJobs := s.binJobs.filter fun j => j.blk != id
    cores := s.cores.map fun (c : Core) => match c.cur with | some (g, _) => if g.blk = id then { c with cur := none } else c | none => c }
  { s with spans := s.spans.filter fun x => x.key != key || s.blocks.any fun b => b.span == key }

/-- The scoreboard after block `lin` has retired: LOW moves over the retired indices (R348). -/
def lowest (rs : List Nat) : Nat → Nat → Nat
  | 0, n => n
  | fuel + 1, n => if rs.contains n then lowest rs fuel (n + 1) else n

def Grid.retire (g : Grid) (lin : Nat) (c : Clock) (stats : List Nat) : Grid :=
  let rs := lin :: g.retired
  let low := lowest rs rs.length g.low
  { g with low := low, retired := rs.filter fun n => decide (low ≤ n), active := g.active.filter fun n => n != lin
           rels := (lin, c) :: g.rels, rel := clockJoin g.rel c, stats := (g.stats.zip stats).map fun x => x.1 + x.2 }

/-- A block whose groups have all retired retires. -/
def State.retireBlock (s : State) (id : Nat) : State :=
  match s.block? id with
  | none => s
  | some b =>
    if b.groups.all (·.retired) && !b.aborted then
      let s := s.modGrid b.grid fun g => g.retire b.lin b.rel b.stats
      let key := b.span
      (s.dropBlock id).checkSpan key
    else s

/-- GROUP_RETIRE: its lanes have exited, its accesses have performed and its CPA tags have drained. -/
def execGroupRetire (gr : GRef) (s : State) : Host.Outcome State Fault Refusal :=
  match s.block? gr.blk, s.group? gr with
  | some b, some g =>
    if b.place.isNone || b.aborted || g.retired || g.live != 0 || !g.quiet || g.cpas.any fun c => !c.done then .next s
    else
      let c := g.doneClock
      let s := s.unpin g.agent
      let s := s.modGroup gr fun g => { g.release with retired := true, memq := [], cpas := [], ldcnt := 0 }
      let s := s.modBlock gr.blk fun b => { b with rel := clockJoin b.rel c }
      let s := s.modBlock gr.blk fun b => (List.range 16).foldl Block.checkBar b
      let s := s.modSpan b.span fun x => { x with rel := clockJoin x.rel c }
      let s := s.checkSpan b.span
      let s := match b.handler with
        | some h => if b.settled then s else
          (s.modBlock gr.blk fun b => { b with settled := true }).send (myLeaf s (b.place.getD 0)) (handleLeaf h) (.resolve h 0 (myLeaf s (b.place.getD 0)) c)
        | none => s
      .next (s.retireBlock gr.blk)
  | _, _ => .next s

/-! ## Completion of engine operations (R167) -/

/-- ENGINE_OP_COMPLETE: an operation whose work is done completes; `op` is 4 times its number plus its timeline. Its lines are unpinned (DEDUCED,
log entry 21). -/
def execEngineOpComplete (blk op : Nat) (s : State) : Host.Outcome State Fault Refusal :=
  match (s.block? blk).bind fun b => b.op? (op % 4) (op / 4) with
  | none => .next s
  | some o =>
    match o.state with
    | .worked =>
      let s := s.modOp blk o.tl o.num fun o => { o with state := .done, rel := if o.tl = 0 then o.copyRelease else o.release }
      let s := (List.range (if o.tl = 0 then 34 else 1)).foldl (fun s i => s.unpin (o.agent + i)) s
      .next (if o.tl = 2 then s.modBlock blk fun b => setPlane (b.addStat 4 1) fun p => { p with last := o.num } else s)
    | _ => .next s

end Sys2Proof.Machine
end

