-- ==== Sys2Proof/Machine/Virga.lean ====
section
/-! DEFINITION. The Virga engines (R210, R375-R388): capabilities, VGCMD and VGQRY, the start of a command, its waves, the windows in which an
engine holds its banks, and the merge. An operation's data are the ranges that its command touches, address and length by turns. -/

namespace Sys2Proof.Machine

open Sys2Proof

/-! ## Region capabilities (R375, R376) -/

def State.cap (s : State) (stack idx : Nat) : BitVec 128 := SMap.get 0 s.caps (stack * 4096 + idx)

def capV (e : BitVec 128) : Bool := bit e.toNat 117
def capGen (e : BitVec 128) : Nat := bits e.toNat 113 4
def capOwner (e : BitVec 128) : Nat := bits e.toNat 104 6
def capLen (e : BitVec 128) : Nat := bits e.toNat 64 40
def capBase (e : BitVec 128) : Nat := bits e.toNat 0 52

/-- The rights of an entry, by the bits that hold them. -/
def capAttn : Nat := 112
def capW : Nat := 111
def capR : Nat := 110

/-- The channel of an HBM address, and its stack (R246). -/
def chanOf (pa : Nat) : Nat := bits pa 12 7

/-- Where region offset o under handle h lies, and the entry it is checked against: that of the stack which holds the address. Among the
stacks whose own entry leads back to them, one with a valid entry of the handle's generation and of the context goes first, then one with a
valid entry; with none, the entry of the first channel's stack forms the address. DEDUCED: log entry 44. -/
def State.capPlace (s : State) (first ctx h o : Nat) : Nat × BitVec 128 :=
  let e (st : Nat) : BitVec 128 := s.cap st (h % 4096)
  let home (st : Nat) : Bool := chanOf (capBase (e st) + o) / 16 == st
  let own (st : Nat) : Bool := capV (e st) && capGen (e st) == h / 4096 % 16 && capOwner (e st) == ctx
  let pick (f : Nat → Bool) : Option Nat := (List.range 8).find? fun st => home st && f st
  let st := ((pick own).orElse fun _ => (pick fun st => capV (e st)).orElse fun _ => pick fun _ => true).getD (first / 16)
  let pa := capBase (e st) + o
  (pa, e (chanOf pa / 16))

/-- The check of R376. DEDUCED: log entry 44. -/
def capOk (e : BitVec 128) (h ctx o n : Nat) (rights : List Nat) : Bool :=
  capV e && capGen e == h / 4096 % 16 && capOwner e == ctx && (rights.all fun r => bit e.toNat r) && decide (o + n ≤ capLen e)

/-- What stops a part: the code, the channel that reports it and the region offset it logs (R378). -/
structure VgStop where
  code : Nat
  chan : Nat
  ofs : Nat
deriving DecidableEq, Repr

/-- A failing check is stored in the channel's violation register of the command's context, and logged. -/
def State.violate (s : State) (ctx chan h o : Nat) : State :=
  { s with viol := SMap.set (0, 0) s.viol (chan * 64 + ctx) (o, h) }.log 5 ctx [chan, h, o]

/-! ## The command block (R377) -/

structure VgBlk where
  op : Nat
  fmt : Nat
  hd : Nat
  tpp : Nat
  nq : Nat
  scale : Nat
  ntok : Nat
  npg : Nat
  btcap : Nat
  kvcap : Nat
  outcap : Nat
  stcap : Nat
  btofs : Nat
  outofs : Nat
  stofs : Nat
  qaddr : Nat
deriving DecidableEq, Repr

def vgBlkOf (bs : List Byte) : VgBlk :=
  let n := recNum bs
  ⟨n 0 1, n 1 1, n 2 1, n 3 1, n 4 1, n 8 4, n 12 4, n 16 4, n 20 2, n 22 2, n 24 2, n 26 2, n 32 8, n 40 8, n 48 8, n 56 8⟩

def VgBlk.attn (c : VgBlk) : Bool := c.op == 0
def VgBlk.kv (c : VgBlk) : Nat := c.fmt % 4
def VgBlk.res (c : VgBlk) : Nat := c.fmt / 4 % 4
def VgBlk.sin (c : VgBlk) : Bool := bit c.fmt 4
def VgBlk.sout (c : VgBlk) : Bool := bit c.fmt 5
/-- Dh, the tokens of a page, RL. -/
def VgBlk.dh (c : VgBlk) : Nat := 64 * 2 ^ c.hd
def VgBlk.page (c : VgBlk) : Nat := 16 * 2 ^ c.tpp
def VgBlk.rl (c : VgBlk) : Nat := c.dh * (if c.kv = 0 then 2 else 1)
/-- Bytes of a result element. -/
def VgBlk.w (c : VgBlk) : Nat := if c.res = 0 then 4 else 2
def VgBlk.resType (c : VgBlk) : ElemType := if c.res = 0 then .f32 else .bf16

def vgMalformed (bs : List Byte) : Bool :=
  let n := recNum bs
  let c := vgBlkOf bs
  let off (x : Nat) : Bool := decide (x % 8 ≠ 0)
  decide (1 < c.op) || decide (64 ≤ c.fmt) || c.kv == 3 || decide (1 < c.res) || decide (2 < c.hd) || decide (2 < c.tpp) || n 5 3 != 0 || n 28 4 != 0 ||
    n 64 48 != 0 || off c.btofs || off c.outofs || off c.stofs || c.ntok == 0 ||
    (if c.attn then c.nq == 0 || decide (16 < c.nq) || c.npg == 0 || decide (65536 < c.npg) || decide (c.npg * c.page < c.ntok) || off c.qaddr
     else c.sin || c.sout || c.npg != 0 || c.qaddr != 0 || c.nq != 0 || c.hd != 0)

/-- The bytes of the result, and of one row's running state. -/
def VgBlk.outLen (c : VgBlk) : Nat := if c.attn then c.nq * c.dh * c.w else c.ntok * c.w
def VgBlk.rowLen (c : VgBlk) : Nat := 8 + 4 * c.dh
def VgBlk.stLen (c : VgBlk) : Nat := c.nq * c.rowLen

/-! ## VGCMD and VGQRY (R210) -/

/-- An operand B out of range. -/
def vgRunBad (b : Word) : Bool :=
  let first := bits b.toNat 0 7
  let count := bits b.toNat 8 8
  count == 0 || decide (128 < count) || decide (128 < first + count) || bit b.toNat 7 || b.toNat / 2 ^ 16 != 0

/-- The ranges that a command touches, as far as its capabilities admit them: the result, the running state, its state record; the flag says
that it writes them (R376, R385). -/
def State.vgTouches (s : State) (first ctx : Nat) (bs : List Byte) (record : Option Nat) : List (Nat × Nat × Bool) :=
  let c := vgBlkOf bs
  let own := match record with | some pa => [(pa + 112, 16, true)] | none => []
  let range (h o n : Nat) (rights : List Nat) (w : Bool) : List (Nat × Nat × Bool) :=
    let p := s.capPlace first ctx h o
    if capOk p.2 h ctx o n rights then [(p.1, n, w)] else []
  if vgMalformed bs then own
  else
    range c.outcap c.outofs c.outLen [capW] true ++
      (if c.sin || c.sout then range c.stcap c.stofs c.stLen (if c.sout then [capW] else [capR]) c.sout else []) ++ own

/-- A command claims a range, on watched pages (R248, R271), each granule for the channel that holds it (R269). -/
def State.vgClaim (s : State) (b : Block) (o : EngOp) (pa n : Nat) : State :=
  (runsOf pa n).foldl (fun s x =>
    s.claimFree { o.who b with detail := detailWord o.num 4 0 0 0 b.ctx (chanOf x.1) } ⟨paLoc x.1, s.watchedPa x.1, false, false⟩ x.2) s

def execVgcmd (d : BitVec 6) (a b : Src) (s : State) : Host.Outcome State Fault Refusal :=
  s.run fun i => orTrap (i.checkSca .i64 [a, b]) fun _ => i.suppressed d fun _ =>
    let x := i.uni a
    let r := i.uni b
    if vgRunBad r then .trap { plainTrap .prot 7 with addr := r }
    else if !i.g.quiet || i.g.destBusy i.sl.wb [] [d.toNat] then i.stall
    else
      match i.s.check i.who i.b (coreIdx i.gr.grp) ⟨.gl, x, 128, decide (x.toNat % 128 = 0), true, true, false, false, true⟩ false with
      | .error t => .trap t
      | .ok acc =>
        let ts := i.s.vgTouches (bits r.toNat 0 7) i.b.ctx (i.s.bytes acc.loc 128) (some acc.loc.ofs)
        let q := i.issueOp (.vgcmd d a b) 3 [x, r] (ts.flatMap fun y => [BitVec.ofNat 64 y.1, BitVec.ofNat 64 y.2.1])
        let s := (ts.filter (·.2.2)).foldl (fun s y => s.vgClaim i.b q.1 y.1 y.2.1) q.2
        .done ((s.touchOutside i.gr.blk).modGroup i.gr fun g => g.wrS i.sl.wb d.toNat (BitVec.ofNat 64 q.1.num)) false

/-- Entries of a stack's table that are not valid. -/
def State.freeCaps (s : State) (stack : Nat) : Nat := 4096 - (s.caps.filter fun x => x.1 / 4096 == stack && capV x.2).length

def execVgqry (d : BitVec 6) (a : Src) (sel : VgSel) (s : State) : Host.Outcome State Fault Refusal :=
  s.run fun i => orTrap (i.checkSca .i64 [a]) fun _ =>
    let ch := bits (i.uni a).toNat 0 7
    i.putD (.reg d) (BitVec.ofNat 64 (match sel with
      | .mis => SMap.get 0 i.s.misalign ch
      | .thr => SMap.get 0 i.s.throttle ch
      | .cap => i.s.freeCaps (ch / 16)
      | .err => (SMap.get (0, 0) i.s.viol (ch * 64 + i.b.ctx)).1))

/-! ## A command that runs -/

def VgCmd.blkOf (c : VgCmd) : VgBlk := vgBlkOf c.cmd

def VgCmd.first (c : VgCmd) : Nat := match c.parts with | p :: _ => p.chan | [] => 0

def State.vgcmd? (s : State) (blk num : Nat) : Option VgCmd := s.vgcmds.find? fun c => c.blk == blk && c.num == num

def State.modVg (s : State) (blk num : Nat) (f : VgCmd → VgCmd) : State :=
  { s with vgcmds := s.vgcmds.map fun c => if c.blk = blk ∧ c.num = num then f c else c }

def VgCmd.modPart (c : VgCmd) (chan : Nat) (f : VgPart → VgPart) : VgCmd :=
  { c with parts := c.parts.map fun p => if p.chan = chan then f p else p }

/-- The operation of a command whose block still stands, with that block. -/
def State.vgOp (s : State) (c : VgCmd) : Option (Block × EngOp) :=
  match s.block? c.blk with
  | some b => (b.op? 3 c.num).map fun o => (b, o)
  | none => none

/-- The command as the agent of an access made for a channel (R253, R269, R417). -/
def State.vgWho (s : State) (c : VgCmd) (chan : Nat) : Who :=
  ⟨c.ctx, 1024, c.agent, 1, match s.vgOp c with | some x => x.1.kinClock x.2 c.clock | none => c.clock, c.pos, detailWord c.num 4 0 0 0 c.ctx chan, none, false, [], s.devSegment c.ctx⟩

/-- One access under a capability: its place, or what stops the part, with the violation logged. DEDUCED: log entry 44. -/
def State.vgAccess (s : State) (c : VgCmd) (h o n : Nat) (rights : List Nat) (write : Bool) : Except (State × VgStop) Loc :=
  let r := s.capPlace c.first c.ctx h o
  let ch := chanOf r.1
  if !capOk r.2 h c.ctx o n rights || !inHbm (r.1 + n - 1) then .error (s.violate c.ctx ch h o, ⟨3, ch, o⟩)
  else if (s.race? (s.vgWho c ch) (paLoc r.1) n write).isSome && s.watchedRange r.1 n then .error (s, ⟨5, ch, o⟩)
  else if !rights.contains capW && ((List.range ((r.1 + n - 1) / 64 + 1 - r.1 / 64)).any fun i => s.isPoisoned (r.1 + 64 * i)) then .error (s, ⟨6, ch, o⟩)
  else .ok (paLoc r.1)

def State.vgWrite (s : State) (c : VgCmd) (l : Loc) (bs : List Byte) : State :=
  let who := s.vgWho c (chanOf l.ofs)
  let s1 := s.logLines who l.ofs bs.length
  let a : Acc := ⟨l, s.watchedRange l.ofs bs.length, false, false⟩
  match s.vgOp c with
  | some x => s1.performOp x.1 x.2 who a bs
  | none => s1.perform who a bs

/-! ## Start (R377, R380) -/

/-- The t3 operations of a block that come before one and touch a range that it touches (R273, R386). DEDUCED: log entry 45. -/
def Block.before3 (b : Block) (o : EngOp) : List EngOp := b.ops.filter fun q => q.tl == 3 && decide (q.num < o.num) && o.touches q

/-- The query rows as bf16 elements, or the code and the address of the read that failed: 7, or 6 for a poisoned block (R378, R415). -/
def State.queryRows (s : State) (who : Who) (c : VgBlk) : Except (Nat × Word) (List (List Nat)) := do
  let bs ← (pieces (BitVec.ofNat 64 c.qaddr) (c.nq * c.dh * 2)).foldlM (fun acc p =>
    match s.checkGlobal who ⟨.gl, p.1, p.2, true, true, false, false, true, true⟩ true with
    | .ok x => Except.ok (acc ++ s.bytes x.loc p.2)
    | .error t => .error (if t.cause = .ecc then (6, 0) else (7, p.1))) []
  .ok ((List.range c.nq).map fun r => (List.range c.dh).map fun k => recNum bs (2 * (r * c.dh + k)) 2)

/-- The running state of a row before any token: m, l, o (R380). -/
def vgEmpty (dh : Nat) : List Word32 := 0xFF800000 :: List.replicate (dh + 1) 0

/-- VGCMD_START: the command block and the query rows are read, and the engines of the run start. -/
def execVgcmdStart (blk op : Nat) (s : State) : Host.Outcome State Fault Refusal :=
  match s.block? blk with
  | none => .next s
  | some b =>
    match b.op? 3 op with
    | none => .next s
    | some o =>
      if o.state != .queued || !(b.before3 o).all EngOp.isDone then .next s
      else
        let a := o.opa.getD 0 0
        let r := (o.opa.getD 1 0).toNat
        let clock := (b.before3 o).foldl (fun c (q : EngOp) => clockJoin c q.rel) o.clock
        let c0 : VgCmd := { blk := blk, num := op, ctx := b.ctx, cmd := [], addr := a, query := [], parts := [], flags := 0, agent := o.agent, clock := clock
                            pos := b.pos, code := 0, codeAddr := 0 }
        let who := s.vgWho c0 0
        let s := s.modOp blk 3 op fun x => { x with state := .running, clock := clock }
        match s.checkGlobal who ⟨.gl, a, 112, true, true, false, false, true, true⟩ true with
        | .error t => .next { s with vgcmds := s.vgcmds ++ [{ c0 with code := if t.cause = .ecc then 6 else 2 }] }
        | .ok x =>
          let bs := s.bytes x.loc 112
          let c := vgBlkOf bs
          let part (ch : Nat) : VgPart := ⟨ch, 0, List.replicate c.nq (vgEmpty c.dh), 0, 0, 0, false, []⟩
          let c1 := { c0 with cmd := bs, parts := (List.range (bits r 8 8)).map fun j => part (bits r 0 7 + j) }
          if vgMalformed bs then .next { s with vgcmds := s.vgcmds ++ [{ c1 with code := 2 }] }
          else if !c.attn then .next { s with vgcmds := s.vgcmds ++ [c1] }
          else
            match s.queryRows who c with
            | .error v => .next { s with vgcmds := s.vgcmds ++ [{ c1 with code := v.1, codeAddr := v.2 }] }
            | .ok q => .next { s with vgcmds := s.vgcmds ++ [{ c1 with query := q }] }

/-! ## ATTN: one token in one row (R380) -/

def f32Val (x : Word32) : Val := decodeElem .f32 x.toNat

/-- A value of f32 as its word. -/
def f32Word (v : Val) : Word32 := BitVec.ofNat 32 (finish .f32 .rne false (v, 0)).1

/-- exp2 of a difference, each rounded to f32. -/
def vgExp (x y : Val) : Val × Flags :=
  let d := r32 (subVal .rne x y)
  let e := ex2Elem .f32 .rne false d.1
  (decodeElem .f32 e.1, d.2 ||| e.2)

def isNegInf (v : Val) : Bool := match v with | .inf true => true | _ => false

/-- The value of the larger operand (R78), as f32. -/
def vgMax (x y : Val) : Val × Flags := r32 (extremeVal true x y)

/-- A token with key k and value v enters a row's state; vf are the flags of decoding v, which is used only where the token contributes. -/
def vgToken (scale : Val) (q : List Nat) (k v : List Val) (vf : Flags) (st : List Word32) : List Word32 × Flags :=
  let ts := ((q.zip k).zipIdx).map fun x => (⟨x.2, decodeElem .bf16 x.1.1, x.1.2⟩ : Term)
  let dot := canon .f32 false false 0 ts
  let s := r32 (mulVal scale (decodeElem .f32 dot.1))
  let fl := dot.2 ||| s.2
  if isNegInf s.1 then (st, fl)
  else
    let m := f32Val (st.getD 0 0)
    let mn := vgMax m s.1
    let a := vgExp m mn.1
    let b := vgExp s.1 mn.1
    let l1 := r32 (mulVal (f32Val (st.getD 1 0)) a.1)
    let l := r32 (addVal .rne l1.1 b.1)
    let os := ((st.drop 2).zip v).map fun x =>
      let p := r32 (mulVal (f32Val x.1) a.1)
      let r := r32 (mulVal b.1 x.2)
      let y := r32 (addVal .rne p.1 r.1)
      (f32Word y.1, p.2 ||| r.2 ||| y.2)
    (f32Word mn.1 :: f32Word l.1 :: os.map (·.1), os.foldl (fun f x => f ||| x.2) (fl ||| vf ||| mn.2 ||| a.2 ||| b.2 ||| l1.2 ||| l.2))

/-- The n elements of a K/V row at a place, exact, with the flags of their decoding (R379). -/
def State.kvRow (s : State) (kv : Nat) (l : Loc) (n : Nat) : List Val × Flags :=
  let xs := (List.range n).map fun j =>
    match kv with
    | 0 => (decodeElem .bf16 (s.num (l.add (2 * j)) 2), (0 : Flags))
    | 1 => (decodeElem .e4m3 (s.num (l.add j) 1), 0)
    | _ => describedVal (s.desc (l.ofs + j)) (s.num (l.add j) 1)
  (xs.map (·.1), xs.foldl (fun f x => f ||| x.2) 0)

/-- Whether n bytes at a place leave its channel: into another of the same stack, or into another stack (R384). -/
def crosses (pa n : Nat) : Bool := chanOf pa != chanOf (pa + n - 1)
def leavesStack (pa n : Nat) : Bool := chanOf pa / 16 != chanOf (pa + n - 1) / 16

/-- A record or element that its channel does not hold whole adds 1 to the channel's count. -/
def State.countMis (s : State) (ch : Nat) : State := { s with misalign := SMap.set 0 s.misalign ch (SMap.get 0 s.misalign ch + 1) }

/-- What a token or element comes to for the engine of a channel: another engine's, done, or a stop. -/
inductive VgDone where
  | other
  | did (s : State)
  | stop (s : State) (e : VgStop)

def VgCmd.inRun (c : VgCmd) (ch : Nat) : Bool := c.parts.any fun p => p.chan == ch

/-- Token g of an ATTN command, for the engine of channel `chan` (R379, R380). -/
def State.vgAttn (s : State) (c : VgCmd) (p : VgPart) (g : Nat) : VgDone :=
  let k := c.blkOf
  match s.vgAccess c k.btcap (k.btofs + 8 * (g / k.page)) 8 [capR] false with
  | .error e => .stop e.1 e.2
  | .ok t =>
    let page := s.num t 8
    let o := page + 2 * k.rl * (g % k.page)
    let pa := (s.capPlace c.first c.ctx k.kvcap o).1
    let ch := chanOf pa
    if page % 64 ≠ 0 then .stop (s.violate c.ctx ch k.kvcap o) ⟨3, ch, o⟩
    else if !c.inRun ch then .stop s ⟨4, ch, o⟩
    else if ch ≠ p.chan then .other
    else
      match s.vgAccess c k.kvcap o (2 * k.rl) [capAttn] false with
      | .error e => .stop e.1 e.2
      | .ok l =>
        if leavesStack pa (2 * k.rl) then .stop s ⟨4, ch, o⟩
        else
          let s := if crosses pa (2 * k.rl) then s.countMis ch else s
          let key := s.kvRow k.kv l k.dh
          let val := s.kvRow k.kv (l.add k.rl) k.dh
          let rs := (p.rows.zip c.query).map fun x => vgToken (decodeElem .f32 k.scale) x.2 key.1 val.1 val.2 x.1
          let fl := rs.foldl (fun f x => f ||| x.2) key.2
          -- a later write races with the K/V record alone (R270, R386)
          .did (s.modVg c.blk c.num fun c =>
            { c.modPart p.chan fun p => { p with rows := rs.map (·.1), reads := p.reads ++ [(pa, 2 * k.rl, o)] } with flags := c.flags ||| fl })

/-- Element i of an AXPY command (R383). -/
def State.vgAxpy (s : State) (c : VgCmd) (p : VgPart) (i : Nat) : VgDone :=
  let k := c.blkOf
  let o := k.outofs + i * k.w
  let ch := chanOf (s.capPlace c.first c.ctx k.outcap o).1
  if !c.inRun ch then .stop s ⟨4, ch, o⟩
  else if ch ≠ p.chan then .other
  else
    match s.vgAccess c k.outcap o k.w [capR, capW] true, s.vgAccess c k.btcap (k.btofs + i * k.w) k.w [capR] false with
    | .error e, _ => .stop e.1 e.2
    | .ok _, .error e => .stop e.1 e.2
    | .ok y, .ok x =>
      if s.isPoisoned y.ofs then .stop s ⟨6, ch, o⟩
      else if chanOf x.ofs / 16 ≠ ch / 16 then .stop s ⟨4, ch, k.btofs + i * k.w⟩
      else
        let s := if chanOf x.ofs ≠ ch then s.countMis ch else s
        let r := finish k.resType .rne false (fmaVal .rne (decodeElem .f32 k.scale) (decodeElem k.resType (s.num x k.w)) (decodeElem k.resType (s.num y k.w)))
        .did ((s.vgWrite c y (leBytes k.w r.1)).modVg c.blk c.num fun c => { c with flags := c.flags ||| r.2 })

/-- A part from its next token on: at most `budget` of its own tokens, over at most `fuel` of the command's. -/
def State.vgRun (s : State) (blk num chan : Nat) : Nat → Nat → State
  | 0, _ => s
  | fuel + 1, budget =>
    match s.vgcmd? blk num with
    | none => s
    | some c =>
      match c.parts.find? fun p => p.chan == chan with
      | none => s
      | some p =>
        if c.blkOf.ntok ≤ p.next then s.modVg blk num fun c => c.modPart chan fun p => { p with done := true }
        else if budget = 0 then s
        else
          let step (s : State) : State := s.modVg blk num fun c => c.modPart chan fun p => { p with next := p.next + 1 }
          match (if c.blkOf.attn then s.vgAttn c p p.next else s.vgAxpy c p p.next) with
          | .other => (step s).vgRun blk num chan fuel budget
          | .did s => (step s).vgRun blk num chan fuel (budget - 1)
          | .stop s e =>
            s.modVg blk num fun c => c.modPart chan fun p => { p with code := e.code, codeChan := e.chan, codeOfs := BitVec.ofNat 64 e.ofs, done := true }

/-- The active bank count of a thermal step (R388, R424). -/
def bankCount (step : Nat) : Nat := 32 - 8 * min step 3

/-- VIRGA_WAVE: an engine that may hold its banks fetches a wave and works through its tokens or elements in order. DEDUCED: log entry 45. -/
def execVirgaWave (blk op chan : Nat) (s : State) : Host.Outcome State Fault Refusal :=
  match s.vgcmd? blk op with
  | none => .next s
  | some c =>
    if c.code != 0 || SMap.get 0 s.banks chan == 2 || !c.parts.any fun p => p.chan == chan && !p.done then .next s
    else
      let s := { s with banks := SMap.set 0 s.banks chan 1 }
      .next (s.vgRun blk op chan (c.blkOf.ntok + 1) (bankCount s.thermal))

/-- VIRGA_WINDOW_END: the engine suspends (R387). DEDUCED: log entry 45. -/
def execVirgaWindowEnd (chan : Nat) (s : State) : Host.Outcome State Fault Refusal :=
  .next (if SMap.get 0 s.banks chan = 1 then { s with banks := SMap.set 0 s.banks chan 2 } else s)

/-- BANK_SERVICE_END: the controller has served its queue, and the engine may resume. DEDUCED: log entry 45. -/
def execBankServiceEnd (chan : Nat) (s : State) : Host.Outcome State Fault Refusal :=
  .next (if SMap.get 0 s.banks chan = 2 then { s with banks := SMap.set 0 s.banks chan 0 } else s)

/-! ## The merge (R378, R381) -/

def rowIsEmpty (st : List Word32) : Bool := st.getD 0 0 == 0xFF800000

/-- The combination of a state with a partial. -/
def vgCombine (x y : List Word32) : List Word32 × Flags :=
  if rowIsEmpty y then (x, 0)
  else if rowIsEmpty x then (y, 0)
  else
    let m1 := f32Val (x.getD 0 0)
    let m2 := f32Val (y.getD 0 0)
    let m := vgMax m1 m2
    let a1 := vgExp m1 m.1
    let a2 := vgExp m2 m.1
    let rs := ((x.drop 1).zip (y.drop 1)).map fun e =>
      let p := r32 (mulVal (f32Val e.1) a1.1)
      let q := r32 (mulVal (f32Val e.2) a2.1)
      let r := r32 (addVal .rne p.1 q.1)
      (f32Word r.1, p.2 ||| q.2 ||| r.2)
    (f32Word m.1 :: rs.map (·.1), rs.foldl (fun f z => f ||| z.2) (m.2 ||| a1.2 ||| a2.2))

/-- Reads under a capability, element by element of 4 bytes. -/
def State.vgReadWords (s : State) (c : VgCmd) (h o n : Nat) : Except (State × VgStop) (List Word32) :=
  (List.range n).foldlM (fun acc j =>
    match s.vgAccess c h (o + 4 * j) 4 [capR] false with
    | .ok l => Except.ok (acc ++ [BitVec.ofNat 32 (s.num l 4)])
    | .error e => .error e) []

/-- Checks the writes of elements of w bytes, then performs them. -/
def State.vgPlaces (s : State) (c : VgCmd) (h o w n : Nat) : Except (State × VgStop) (List Loc) :=
  (List.range n).foldlM (fun acc j =>
    match s.vgAccess c h (o + w * j) w [capW] true with
    | .ok l => Except.ok (acc ++ [l])
    | .error e => .error e) []

/-- The initial state of each row. -/
def State.vgInitial (s : State) (c : VgCmd) : Except (State × VgStop) (List (List Word32)) :=
  let k := c.blkOf
  if k.sin then
    (List.range k.nq).foldlM (fun acc r =>
      match s.vgReadWords c k.stcap (k.stofs + r * k.rowLen) (k.dh + 2) with
      | .ok ws => Except.ok (acc ++ [ws])
      | .error e => .error e) []
  else .ok (List.replicate k.nq (vgEmpty k.dh))

/-- The result of a row. -/
def vgResult (t : ElemType) (st : List Word32) : List (Nat × Flags) :=
  (st.drop 2).map fun o => finish t .rne false (divVal (f32Val o) (f32Val (st.getD 1 0)))

/-- Merges an ATTN command whose engines have all ended well: the result and the running state are written. The CODE, or what stops it. -/
def State.vgMerge (s : State) (c : VgCmd) : Except (State × VgStop) (State × Nat × Flags) := do
  let k := c.blkOf
  let init ← s.vgInitial c
  let rows := (List.range k.nq).map fun r =>
    c.parts.foldl (fun (a : List Word32 × Flags) p =>
      let x := vgCombine a.1 (p.rows.getD r [])
      (x.1, a.2 ||| x.2)) (init.getD r [], 0)
  let empty := rows.all fun x => rowIsEmpty x.1
  let res := if empty then List.replicate (k.nq * k.dh) (0, (0 : Flags)) else rows.flatMap fun x => vgResult k.resType x.1
  let out ← s.vgPlaces c k.outcap k.outofs k.w (k.nq * k.dh)
  let st ← if k.sout then s.vgPlaces c k.stcap k.stofs 4 (k.nq * (k.dh + 2)) else .ok []
  let s1 := (out.zip res).foldl (fun s x => s.vgWrite c x.1 (leBytes k.w x.2.1)) s
  let s2 := (st.zip (rows.flatMap (·.1))).foldl (fun s x => s.vgWrite c x.1 (leBytes 4 x.2.toNat)) s1
  .ok (s2.clearCovered (out.map (·, k.w) ++ st.map (·, 4)), if empty then 1 else 0, rows.foldl (fun f x => f ||| x.2) (res.foldl (fun f x => f ||| x.2) 0))

/-- The stop that the record reports: that of the lowest-numbered channel. DEDUCED: log entry 44. -/
def VgCmd.stop? (c : VgCmd) : Option VgStop :=
  (c.parts.filter fun p => p.code != 0).foldl (fun (a : Option VgStop) p =>
    match a with
    | some e => if p.codeChan < e.chan then some ⟨p.code, p.codeChan, p.codeOfs.toNat⟩ else a
    | none => some ⟨p.code, p.codeChan, p.codeOfs.toNat⟩) none

/-- The state record, written last; a write that cannot be performed is dropped and logged. -/
def State.vgRecord (s : State) (c : VgCmd) (code chan : Nat) (addr : Word) : State :=
  let a := c.addr + 112
  match s.devWrite (s.vgWho c 0) a (leBytes 1 code ++ leBytes 1 chan ++ leBytes 6 0 ++ leBytes 8 addr.toNat) with
  | .ok s => s
  | .error t =>
    match s.block? c.blk with
    | some b => s.logFate c.ctx t.cause.code (s.lidOf b) b.lin (((b.ops.find? fun o => o.tl == 3 && o.num == c.num).map (·.grp)).getD 0) a.toNat
    | none => s.logFate c.ctx t.cause.code 0 0 0 a.toNat

/-- The command ends: its operation has done its work. -/
def State.vgEnd (s : State) (c : VgCmd) (fl : Flags) : State :=
  let s := { s with vgcmds := s.vgcmds.filter fun x => !(x.blk == c.blk && x.num == c.num) }.unpin c.agent
  s.modOp c.blk 3 c.num fun o => { o with state := .worked, flags := fl }

/-- A read of a K/V record that a write not ordered with the command has overtaken on watched memory (R386). -/
def State.vgOvertaken (s : State) (c : VgCmd) (p : VgPart) : VgPart :=
  if p.code ≠ 0 then p
  else
    match p.reads.find? fun x => (s.race? (s.vgWho c (chanOf x.1)) (paLoc x.1) x.2.1 false).isSome && s.watchedRange x.1 x.2.1 with
    | some x => { p with code := 5, codeChan := chanOf x.1, codeOfs := BitVec.ofNat 64 x.2.2 }
    | none => p

/-- VIRGA_MERGE: once every engine of the command has ended, the partials are merged in channel order and the state record is written. A
command whose block was aborted ends without a merge (R399); one whose block has gone with its context, without a record (R386). -/
def execVirgaMerge (blk op : Nat) (s : State) : Host.Outcome State Fault Refusal :=
  match s.vgcmd? blk op with
  | none => .next s
  | some c =>
    if c.code == 0 && c.parts.any fun p => !p.done then .next s
    else if (s.block? blk).isNone then .next (s.vgEnd c 0)
    else if c.code ≠ 0 then .next ((s.vgRecord c c.code 255 c.codeAddr).vgEnd c 0)
    else
      match { c with parts := c.parts.map (s.vgOvertaken c) }.stop? with
      | some e => .next ((s.vgRecord c e.code e.chan (BitVec.ofNat 64 e.ofs)).vgEnd c c.flags)
      | none =>
        if !c.blkOf.attn then .next ((s.vgRecord c 0 255 0).vgEnd c c.flags)
        else if ((s.block? blk).map (·.aborted)).getD false then .next ((s.vgRecord c (Config.abortCode s.tick % 256) 255 0).vgEnd c c.flags)
        else
          match s.vgMerge c with
          | .error e => .next ((e.1.vgRecord c e.2.code e.2.chan (BitVec.ofNat 64 e.2.ofs)).vgEnd c c.flags)
          | .ok r => .next ((r.1.vgRecord c r.2.1 255 0).vgEnd c (c.flags ||| r.2.2))

end Sys2Proof.Machine
end

