-- ==== Sys2Proof/Machine/Zenith.lean ====
section
/-! DEFINITION. Zenith: what fits where (R212, R342), the order of the candidates (R341), the start of blocks, spans and handlers (R208,
R214, R331), displacement, pre-emption, eviction and restoration (R344, R350-R352, R400-R403), ordered adds (R138), and the end of a grid
(R275, R296, R337, R399). -/

namespace Sys2Proof.Machine

open Sys2Proof

/-! ## What fits (R212, R403) -/

/-- A block's share of a cluster; `spr` in bytes. -/
structure Need where
  groups : Nat
  av : Nat
  spr : Nat
  plane : Bool
  matrix : Bool
  handler : Bool
deriving DecidableEq, Repr

def Block.need (b : Block) : Need :=
  ⟨b.groups.length, (match b.groups with | g :: _ => g.av | [] => 0), b.spr, b.plane, b.matrix, b.handler.isSome⟩

def LRec.need (r : LRec) : Need := ⟨r.groups, r.av, 256 * r.spr, r.plane, r.matrix, false⟩

def Inv.need (i : Inv) : Need := ⟨1, 64 * i.regs, i.spr, false, false, true⟩

/-- Groups of a block of n groups on core c (R213). -/
def coreShare (n c : Nat) : Nat := (n + 5 - c) / 6

def Need.window (n : Need) : Nat := n.spr + (if n.handler then 1024 else 0)

/-- The cluster has room beside its residents, aborted ones among them. -/
def State.fitsOn (s : State) (cluster : Nat) (n : Need) : Bool :=
  let rs := n :: (s.blocks.filter fun b => b.place == some cluster).map Block.need
  let sum (f : Need → Nat) : Nat := rs.foldl (fun k x => k + f x) 0
  ((List.range 6).all fun c => decide (sum (fun x => coreShare x.groups c) ≤ 16) && decide (sum (fun x => coreShare x.groups c * x.av) ≤ 2048)) &&
    decide (sum Need.window ≤ 262144) && decide ((rs.filter (·.plane)).length ≤ 1 ∨ !n.plane) && decide ((rs.filter (·.matrix)).length ≤ 1 ∨ !n.matrix)

/-- SAVESZ (R403). -/
def Need.saveSize (n : Need) : Nat :=
  4096 + n.groups * (256 * n.av + 8192) + 6 * n.spr + (if n.matrix then 1048576 * 6 else 0) + (if n.plane then 2166784 else 0) + (if n.handler then 1024 else 0)

/-- The context's save area can take k more reservations. DEDUCED: log entry 48. -/
def State.saveRoom (s : State) (ctx : Nat) (n : Need) (k : Nat) : Bool :=
  match s.ctx? ctx with
  | none => false
  | some c => decide ((s.blocks.filter fun b => b.ctx == ctx).foldl (fun m b => m + b.save) 0 + k * n.saveSize ≤ c.csasz)

/-! ## Readiness of a grid's blocks (R346, R348) -/

def Grid.done (g : Grid) (lin : Nat) : Bool := decide (lin < g.low) || g.retired.contains lin

/-- The predecessors of a block that lie within the grid. -/
def Grid.preds (g : Grid) (lin : Nat) : List Nat :=
  let r := g.lrec
  let x : Int := (lin % r.gx : Nat)
  let y : Int := (lin / r.gx % r.gy : Nat)
  let z : Int := (lin / (r.gx * r.gy) : Nat)
  (r.vecs.take r.nvec).filterMap fun v =>
    let px := x - v.1
    let py := y - v.2.1
    let pz := z - v.2.2
    if 0 ≤ px ∧ px < r.gx ∧ 0 ≤ py ∧ py < r.gy ∧ 0 ≤ pz ∧ pz < r.gz then some (px + r.gx * (py + r.gy * pz)).toNat else none

/-- A block that has not started and may start. -/
def Grid.readyBlock (g : Grid) (lin : Nat) : Bool :=
  !g.done lin && !g.active.contains lin && decide (lin < g.lrec.blocks) && (g.lrec.nvec == 0 || decide (lin < g.low + 131072)) && (g.preds lin).all g.done

/-- The members of the span from index lin that have not retired: a member flushed alone starts again without the others. -/
def Grid.spanLeft (g : Grid) (lin : Nat) : List Nat := ((List.range g.lrec.spn).map (lin + ·)).filter fun n => !g.done n

def Grid.readySpan (g : Grid) (lin : Nat) : Bool := !(g.spanLeft lin).isEmpty && (g.spanLeft lin).all g.readyBlock

/-- The first ready block or span from index lin on. -/
def Grid.readyFrom (g : Grid) : Nat → Nat → Option Nat
  | 0, _ => none
  | fuel + 1, lin => if g.readySpan lin then some lin else g.readyFrom fuel (lin + g.lrec.spn)

/-- With vectors the search ends at the scoreboard's window; without, every block that has neither retired nor started is ready. -/
def Grid.firstReady (g : Grid) : Option Nat :=
  let lo := g.low / g.lrec.spn * g.lrec.spn
  if g.lrec.nvec = 0 then g.readyFrom (min ((g.lrec.blocks - lo) / g.lrec.spn) (g.retired.length + g.active.length) + 1) lo
  else g.readyFrom (min (g.lrec.blocks - lo) 131072 / g.lrec.spn + 1) lo

/-! ## Candidates (R341) -/

inductive Work where
  | block (gid lin : Nat)
  | saved (blk : Nat)
  | handler (k : Nat)
deriving DecidableEq, Repr

structure Cand where
  work : Work
  entry : Entry
  ctx : Nat
  pri : Nat
  age : Nat
  lin : Nat
  need : Need
  /-- Clusters that it takes, reservations that it still needs, the one cluster it is bound to, and the die of its entry. -/
  n : Nat
  saves : Nat
  bound : Option Nat
  die : Nat
deriving DecidableEq, Repr

def State.suspended (s : State) (ctx : Nat) : Bool := match s.ctx? ctx with | some c => c.suspended | none => true

def Grid.cand (g : Grid) : Option Cand :=
  if g.aborted || g.after != 0 then none
  else g.firstReady.map fun lin =>
    let n := (g.spanLeft lin).length
    ⟨.block g.gid lin, .grid g.gid, g.ctx, g.lrec.pri, g.age, lin, g.lrec.need, n, n, none, g.die⟩

/-- A wait for which an evicted block comes back: on a handle, or on t3 (R352). -/
def Slot.wakes (x : Slot) : Bool :=
  match x.wait with
  | some (.handle ..) | some (.tl 3 _) => true
  | _ => false

/-- A saved block that may run again: at once after pre-emption, after eviction when a wait is over. -/
def State.mayReturn (s : State) (b : Block) : Bool :=
  b.saveWhy == 0 || b.groups.zipIdx.any fun x =>
    !x.1.retired && [false, true].any fun sb =>
      let sl := x.1.slot sb
      !sl.isFree && sl.wakes && s.waitOver b x.1 x.2 sl

/-- The blocks of a span that have not retired. -/
def State.members (s : State) (key : Nat) : List Block := s.blocks.filter fun b => b.span == key

/-- A saved span is one candidate, through its lowest block; it returns together. -/
def State.savedCand (s : State) (b : Block) : Option Cand :=
  let ms := s.members b.span
  if b.place.isSome || b.aborted || (ms.any fun x => x.place.isSome || decide (x.lin < b.lin)) || !ms.any (s.mayReturn ·) then none
  else some ⟨.saved b.id, .saved b.id, b.ctx, b.pri, b.age, b.lin, b.need, ms.length, 0, none, match s.grid? b.grid with | some g => g.die | none => dieOf b.home⟩

/-- The entries of a die that came before an age. -/
def State.entriesBefore (s : State) (die age : Nat) : Nat :=
  (s.grids.filter fun g => g.die == die && decide (g.age < age)).length + (s.pendH.filter fun h => dieOf h.cluster == die && decide (h.age < age)).length

/-- A handler that waits holds an entry of its die's store, or of the overflow area, which fills in acceptance order (R340). -/
def State.handlerEntry (s : State) (h : PendH) : Bool :=
  decide (s.entriesBefore (dieOf h.cluster) h.age < 4096) ||
    decide ((List.range 4).foldl (fun n d => n + (s.entriesBefore d h.age - 4096)) 0 < Config.overflowEntries)

/-- Handlers that one slot starts begin in the order in which their invocations reached it (R360). -/
def State.handlerNext (s : State) (h : PendH) : Bool :=
  h.inv.through.isNone || s.pendH.all fun x => x.inv.through != h.inv.through || decide (h.age ≤ x.age)

def State.handlerCand (s : State) (h : PendH) (k : Nat) : Option Cand :=
  if s.handlerEntry h && s.handlerNext h then
    some ⟨.handler k, .handler h.age, h.inv.ctx, h.inv.pri, h.age, 0, h.inv.need, 1, 1, some h.cluster, dieOf h.cluster⟩
  else none

def State.cands (s : State) : List Cand :=
  (s.grids.filterMap Grid.cand ++ s.blocks.filterMap s.savedCand ++ s.pendH.zipIdx.filterMap fun x => s.handlerCand x.1 x.2).filter fun c => !s.suspended c.ctx

/-! ### Credit -/

def State.credit (s : State) (ctx : Nat) : Nat := match s.ctx? ctx with | some c => c.credit | none => 0

/-- Where no candidate context at a PRI holds credit, every context at that PRI is refilled to its weight. -/
def State.refilled (s : State) : State :=
  let cs := s.cands
  (List.range 8).foldl (fun s p =>
    let at_ := cs.filter fun c => c.pri == p
    if at_.any fun c => decide (0 < s.credit c.ctx) then s
    else { s with ctxs := s.ctxs.map fun (c : Context) => if at_.any fun x => x.ctx == c.num then { c with credit := c.share } else c }) s

def State.spend (s : State) (ctx n : Nat) : State := s.modCtx ctx fun c => { c with credit := c.credit - n }

/-- The order of R341. -/
def State.earlier (s : State) (x y : Cand) : Bool :=
  let k (c : Cand) : Nat := if 0 < s.credit c.ctx then 0 else 1
  decide (x.pri < y.pri) || (x.pri == y.pri && (decide (k x < k y) || (k x == k y && (decide (x.age < y.age) || (x.age == y.age && decide (x.lin < y.lin))))))

/-! ### Fitting -/

/-- The clusters of a die from one on, in cyclic order. -/
def dieFrom (cluster : Nat) : List Nat := (List.range 32).map fun i => cluster / 32 * 32 + (cluster + i) % 32

/-- Clusters that displaced blocks leave to a PRI 0 candidate are kept from every candidate that does not come before it (R344, R411). -/
def State.keptFrom (s : State) (c : Cand) (cluster : Nat) : Bool :=
  s.reserved.any fun r => r.1 != c.entry && r.2.contains cluster && s.cands.any fun x => x.entry == r.1 && !s.earlier c x

/-- A candidate may take a cluster: it has room, and is kept for no other. -/
def State.takes (s : State) (c : Cand) (cluster : Nat) : Bool := s.fitsOn cluster c.need && !s.keptFrom c cluster

/-- The clusters that a candidate takes when it is placed from a cluster on. -/
def State.placing (s : State) (c : Cand) (cluster : Nat) : Option (List Nat) :=
  if 128 ≤ cluster ∨ (c.bound.getD cluster != cluster) ∨ !s.takes c cluster then none
  else
    let cl := ((dieFrom cluster).filter (s.takes c)).take c.n
    if cl.length = c.n then some cl else none

/-- It fits on some cluster of a die, save area apart. -/
def State.fitsDie (s : State) (c : Cand) (die : Nat) : Bool := (List.range 32).any fun i => (s.placing c (32 * die + i)).isSome

def State.fitsNowhere (s : State) (c : Cand) : Bool := !(List.range 4).any (s.fitsDie c)

/-- A candidate passed over for a quantum keeps other work of its priority and lower from its entry's die until it fits (R342). -/
def State.heldDie (s : State) (c : Cand) (die : Nat) : Bool :=
  !s.holding.isEmpty && s.cands.any fun x => s.holding.contains x.entry && x.entry != c.entry && x.die == die && decide (x.pri ≤ c.pri) && s.fitsNowhere x

/-- It may start from a cluster on: there is room, a save reservation, and no hold. -/
def State.startable (s : State) (c : Cand) (cluster : Nat) : Option (List Nat) :=
  if s.saveRoom c.ctx c.need c.saves && !s.heldDie c (dieOf cluster) then s.placing c cluster else none

def State.startsSomewhere (s : State) (c : Cand) : Bool := (List.range 128).any fun cl => (s.startable c cl).isSome

/-- The candidate that Zenith starts next. -/
def State.nextCand (s : State) : Option Cand := firstBy s.earlier (s.cands.filter s.startsSomewhere)

/-! ## Group and block start (R208, R214, R215, R221, R331) -/

/-- A group at its start. DESIGN CHOICE: log entries 3, 61. -/
def freshGroup (av grp : Nat) (launched helper : Lanes) (entry : Word) (dstk : Word) (dstkSz : Nat) (spill : Word) (spillSz : Nat) (agent cycle : Nat)
    (clock : Clock) : Group where
  v := []
  s := []
  av := av
  p := []
  mode := 0x1F
  flags := 0
  flagen := 0
  gang := 0
  gangCount := 0
  pix := 0
  ivec := List.replicate 5 0
  slotA := pathSlot launched entry 0
  slotB := Slot.free
  latches := List.replicate 4 .empty
  tokens := List.replicate 16 Token.idle
  traps := []
  dstkp := dstk + BitVec.ofNat 64 (grp * dstkSz + dstkSz)
  stackCopy := []
  stkBase := dstk + BitVec.ofNat 64 (grp * dstkSz)
  stkSize := dstkSz
  spillBase := spill + BitVec.ofNat 64 (grp * spillSz)
  spillSize := spillSz
  lo := 0
  hi := 64
  ldcnt := 0
  tagc := List.replicate 8 0
  memq := []
  cpas := []
  plseq := 0
  trapcause := 0
  trapaddr := 0
  trappc := 0
  handle := 0
  launched := launched
  helper := helper
  exited := 0
  mine := List.replicate 4 0
  barAt := List.replicate 16 0
  spanAt := 0
  ordcl := false
  atomoSeq := 0
  collSeq := 0
  ckpt := 0
  arrivals := []
  agent := agent
  epoch := 0
  clock := clock
  fences := []
  reads := []
  lastB := true
  since := cycle
  resetA := cycle
  resetB := cycle
  nextMem := 0
  stopped := []
  ready := false
  retired := false
  parked := false

/-- Launched lanes of a group of a block with t threads, and the helper lanes among them (R215). -/
def launchedLanes (t grp : Nat) (help : Bool) : Lanes := maskOf fun l => help || decide (32 * grp + l < t)
def helpLanes (t grp : Nat) (help : Bool) : Lanes := maskOf fun l => help && decide (t ≤ 32 * grp + l)

/-- A block at its start, without its groups. -/
def freshBlock (id ctx grid lin : Nat) (n : Need) (pri age cluster span idx size : Nat) : Block where
  id := id
  ctx := ctx
  grid := grid
  lin := lin
  bx := 0
  byy := 0
  bz := 0
  span := span
  spanIdx := idx
  spanSize := size
  tx := 32
  ty := 1
  tz := 1
  pri := pri
  age := age
  place := some cluster
  home := cluster
  groups := []
  sp := []
  wb := []
  ab := []
  cb := []
  spr := n.spr
  matrix := n.matrix
  plane := n.plane
  handler := none
  settled := false
  bars := List.replicate 16 Bar.idle
  tls := List.replicate 16 ⟨0, 0, []⟩
  ops := []
  planeSt := none
  colls := 0
  aborted := false
  idem := false
  stats := List.replicate 6 0
  save := n.saveSize
  rel := []
  savedAt := 0
  saveWhy := 0
  preempt := none
  quiet := none

/-- What a block of a grid acquires at its start: its launch and its predecessors' retirements (R258). -/
def Grid.startClock (g : Grid) (lin : Nat) : Clock :=
  (g.preds lin).foldl (fun c p => match g.rels.find? fun r => r.1 == p with | some r => clockJoin c r.2 | none => c) g.clock

/-- Loads argument doublewords n.. of a group; the failing address and cause otherwise (R331). -/
def State.argWords (s : State) (who : Who) (base : Word) (n : Nat) : Except Trap (List Word) :=
  (List.range n).foldlM (fun acc k =>
    let a := base + BitVec.ofNat 64 (8 * k)
    match s.checkGlobal who ⟨.gl, a, 8, true, true, false, false, true, true⟩ false with
    | .ok x => Except.ok (acc ++ [BitVec.ofNat 64 (s.num x.loc 8)])
    | .error t => .error t) []

/-- The groups of a fresh block take their arguments; a read that fails aborts the block. -/
def State.takeArgs (s : State) (id : Nat) (r : LRec) (s01 : Option (Word × Word)) : State :=
  match s.block? id with
  | none => s
  | some b =>
    (List.range b.groups.length).foldl (fun s i =>
      match s.block? id, s.group? ⟨id, i⟩ with
      | some b, some g =>
        if b.aborted then s
        else
          match s.argWords (s.groupWho b g i) r.args r.narg with
          | .ok ws =>
            s.modGroup ⟨id, i⟩ fun g =>
              let g := ws.zipIdx.foldl (fun (g : Group) x => g.wrS 0 x.2 x.1) g
              match s01 with
              | some x => (g.wrS 0 0 x.1).wrS 0 1 x.2
              | none => g
          | .error t =>
            (s.modGroup ⟨id, i⟩ fun g => { g with trapcause := causeWord t false false, trapaddr := t.addr, trappc := r.entry }).abortBlock id t.cause.code i r.entry
      | _, _ => s) s

/-- Starts one block of a grid on a cluster. -/
def State.startBlock (s : State) (g : Grid) (lin cluster span idx : Nat) : State :=
  let r := g.lrec
  let id := s.nextId
  let t := r.tx * r.ty * r.tz
  let clock := g.startClock lin
  let b := freshBlock id g.ctx g.gid lin r.need r.pri g.age cluster span idx r.spn
  let gs := (List.range r.groups).map fun i =>
    freshGroup r.av i (launchedLanes t i r.help) (helpLanes t i r.help) r.entry r.dstkBase r.dstkSz r.spillBase r.spillSz (s.nextAgent + i) s.cycle clock
  let b := { b with groups := gs, bx := lin % r.gx, byy := lin / r.gx % r.gy, bz := lin / (r.gx * r.gy), tx := r.tx, ty := r.ty, tz := r.tz, idem := r.idem }
  { s with blocks := s.blocks ++ [b], nextId := id + 1, nextAgent := s.nextAgent + r.groups }

/-- Starts a grid's block, or the members of a span that have not retired, on clusters: their groups start together, then take their arguments. -/
def State.startSpan (s : State) (g : Grid) (lin : Nat) (clusters : List Nat) : State :=
  let key := s.nextId
  let first := key + 1
  let n := clusters.length
  let lins := g.spanLeft lin
  let s := { s with nextId := key + 1, spans := s.spans ++ [(⟨key, (List.range n).map (first + ·), [], [], []⟩ : Span)] }
  let s := (clusters.zip lins).foldl (fun s x => s.startBlock g x.2 x.1 key (x.2 - lin)) s
  let s := s.modGrid g.gid fun g => { g with active := lins ++ g.active }
  let s := s.spend g.ctx n
  (List.range n).foldl (fun s i => s.takeArgs (first + i) g.lrec g.s0s1) s

/-- BLOCK_START: Zenith starts the first candidate that fits, here a grid's block or span, on a cluster that fits it. -/
def execBlockStart (cluster : Nat) (s : State) : Host.Outcome State Fault Refusal :=
  let s' := s.refilled
  match s'.nextCand with
  | none => .next s
  | some c =>
    match c.work, s'.startable c cluster with
    | .block gid lin, some cl =>
      match s'.grid? gid with
      | some g => .next (s'.startSpan g lin cl)
      | none => .next s
    | _, _ => .next s

/-- The handler block of an invocation (R208): one group of 32 lanes, without stack or spill area (DESIGN CHOICE, log entry 28). -/
def State.startHandler (s : State) (h : PendH) : State :=
  let i := h.inv
  let id := s.nextId
  let g := freshGroup (64 * i.regs) 0 (-1) 0 i.entry 0 0 0 0 s.nextAgent s.cycle i.clock
  let g := { (((g.wrS 0 0 0x3FC00).wrS 0 1 i.own).wrS 0 2 i.sender).wrS 0 3 h.s3 with handle := i.own }
  let b := freshBlock id i.ctx 0 0 i.need i.pri h.age h.cluster (id + 1) 0 1
  let at_ (axis : Nat) : Nat := Config.handlerReg axis id
  let b := { b with groups := [g], handler := some i.own, sp := Memory.setMany [] 0x3FC00 i.payload, bx := at_ 32, byy := at_ 33, bz := at_ 34 }
  { s with blocks := s.blocks ++ [b], spans := s.spans ++ [(⟨id + 1, [id], [], [], []⟩ : Span)], nextId := id + 2, nextAgent := s.nextAgent + 1 }

/-- HANDLER_START: the handler numbered k among those that wait is the first candidate that fits, and starts on its target cluster. -/
def execHandlerStart (k : Nat) (s : State) : Host.Outcome State Fault Refusal :=
  let s' := s.refilled
  match s'.nextCand, s'.pendH[k]? with
  | some c, some h =>
    if c.work = .handler k then .next ((({ s' with pendH := s'.pendH.eraseIdx k }.startHandler h).spend c.ctx 1).fireHeld) else .next s
  | _, _ => .next s

/-! ### Candidates that are passed over (R342, R403) -/

/-- The first candidate, those apart that fit and that only their context's full save area holds back (R342). -/
def State.firstCand (s : State) : Option Cand :=
  let s := s.refilled
  firstBy s.earlier (s.cands.filter fun c => s.saveRoom c.ctx c.need c.saves || s.fitsNowhere c)

/-- At the end of a step: since when the first candidate has fitted nowhere; holds, reservations and log marks end with what they stand for. -/
def State.noteFirst (s : State) : State :=
  if s.cands.isEmpty && s.first.isNone && s.holding.isEmpty && s.reserved.isEmpty && s.saveHeld.isEmpty then s
  else
    let is (e : Entry) : Bool := s.cands.any fun c => c.entry == e
    let first := match s.firstCand with
      | some c =>
        if !s.fitsNowhere c then none
        else match s.first with
          | some x => if x.1 = c.entry then some x else some (c.entry, s.cycle)
          | none => some (c.entry, s.cycle)
      | none => none
    { s with
      first := first
      holding := s.holding.filter fun e => s.cands.any fun c => c.entry == e && s.fitsNowhere c
      reserved := s.reserved.filter fun r => is r.1
      saveHeld := s.saveHeld.filter fun e => is e || match e with | .grid g => (s.grid? g).isSome | _ => false }

/-- The first candidate has been passed over for a quantum, and holds nothing yet. -/
def State.holdDue (s : State) : Option Entry :=
  match s.first with
  | some (e, t) => if t + quantum ≤ s.cycle ∧ !s.holding.contains e then some e else none
  | none => none

/-- Candidates that a full save area alone holds back, and that have not been logged. -/
def State.saveDue (s : State) : List Cand :=
  s.cands.filter fun c => !s.saveHeld.contains c.entry && !s.saveRoom c.ctx c.need c.saves && !s.fitsNowhere c

/-- The LAUNCHID that the log names of a candidate. -/
def State.candLid (s : State) (c : Cand) : Nat :=
  match c.entry with
  | .grid g => ((s.grid? g).map (·.lid)).getD 0
  | .saved b => ((s.block? b).map s.lidOf).getD 0
  | .handler _ => 0

/-- CANDIDATE_HOLD: a first candidate that has been passed over for a quantum keeps the die of its entry (R342); candidates that only a full save
area holds back are logged, once each (R403). DEDUCED: log entry 48. -/
def execCandidateHold (s : State) : Host.Outcome State Fault Refusal :=
  let t := s.saveDue.foldl (fun (t : State) c => { t.logFate c.ctx 0 (s.candLid c) c.lin 0 0 with saveHeld := c.entry :: t.saveHeld }) s
  .next { t with holding := s.holdDue.toList ++ t.holding }

/-! ## Flush, save, restoration (R344, R350-R352, R400-R403) -/

/-- Discards an idempotent block, which becomes a candidate again (R350). DEDUCED: log entry 47. -/
def State.flush (s : State) (b : Block) : State :=
  (s.dropBlock b.id).modGrid b.grid fun g => { g with active := g.active.filter (· != b.lin), contribs := g.contribs.filter fun c => c.lin != b.lin }

/-- The block has made no effect that is seen outside it, and none is under way (R349). -/
def Block.flushable (b : Block) : Bool := b.idem && !b.aborted && b.groups.all fun g => !g.awaitsHome

/-- Takes a block's place, with its span: flushed when every member is idempotent, else to be saved. -/
def State.displace (s : State) (b : Block) : State :=
  let ms := s.members b.span
  if ms.all Block.flushable then ms.foldl State.flush s
  else ms.foldl (fun s x => s.modBlock x.id fun y => { y with preempt := some (y.preempt.getD s.cycle) }) s

/-- The order in which victims are taken: highest PRI number, latest grid, highest BLKLIN. DEDUCED: log entry 47. -/
def victimFirst (x y : Block) : Bool :=
  decide (y.pri < x.pri) || (x.pri == y.pri && (decide (y.age < x.age) || (x.age == y.age && decide (y.lin < x.lin))))

/-- The state with some blocks gone. -/
def State.without (s : State) (p : Block → Bool) : State := { s with blocks := s.blocks.filter fun b => !p b }

/-- Blocks of a die that may be displaced: those of lower priority that run there. -/
def State.victims (s : State) (die : Nat) : List Block :=
  s.blocks.filter fun b => b.pri != 0 && !b.aborted && b.place.any fun x => dieOf x == die

/-- The victims that a candidate needs on a die, each with its span, beside the blocks that leave it already; none when no number of them is enough.
They are chosen at one moment, in the order of R344 (R411). -/
def State.chooseVictims (s : State) (c : Cand) : Nat → List Nat → Option (List Nat)
  | 0, _ => none
  | fuel + 1, taken =>
    if (s.without fun b => taken.contains b.id).fitsDie c c.die then some taken
    else
      match firstBy victimFirst ((s.victims c.die).filter fun b => !taken.contains b.id) with
      | none => none
      | some b => s.chooseVictims c fuel ((s.members b.span).map (·.id) ++ taken)

/-- The state in which a grid's block or span has started on its die, in the room that some blocks leave. -/
def State.startedOn (s : State) (c : Cand) (taken : List Nat) : Option State :=
  match c.work with
  | .block gid lin => (s.grid? gid).bind fun g =>
    ((List.range 32).findSome? fun i => (s.without fun b => taken.contains b.id).placing c (32 * c.die + i)).map (s.startSpan g lin)
  | _ => none

/-- The victims that all the ready blocks of a candidate's grid need which the die can take, chosen at the same moment: a grid is one candidate
(R341, R411). `taken` are those of the blocks before. -/
def State.chooseAll (s : State) (c : Cand) : Nat → List Nat → List Nat
  | 0, taken => taken
  | fuel + 1, taken =>
    match if s.saveRoom c.ctx c.need c.saves then s.chooseVictims c (s.blocks.length + 1) taken else none with
    | none => taken
    | some vs =>
      match s.startedOn c vs with
      | none => vs
      | some t =>
        match t.cands.find? fun x => x.entry == c.entry with
        | none => vs
        | some x => t.chooseAll x fuel vs

/-- Victims that a candidate has taken are still to leave. -/
def State.awaitsRoom (s : State) (c : Cand) : Bool :=
  s.reserved.any fun r => r.1 == c.entry && s.blocks.any fun b => b.preempt.isSome && b.place.any r.2.contains

/-- The first PRI 0 candidate that fits nowhere, awaits no victims, and finds victims enough on the die of its entry, with those that it takes; a
die holds at most 3,072 groups. -/
def State.displacement (s : State) : Option (Cand × List Nat) :=
  let found := (s.cands.filter fun c => c.pri == 0 && !s.awaitsRoom c && s.saveRoom c.ctx c.need c.saves && s.fitsNowhere c).filterMap fun c =>
    (s.chooseVictims c (s.blocks.length + 1) (((s.victims c.die).filter fun b => b.preempt.isSome).map (·.id))).map fun vs => (c, vs)
  (firstBy (fun x y => s.earlier x.1 y.1) found).map fun x => (x.1, s.chooseAll x.1 3072 x.2)

/-- PRI0_DISPLACEMENT: the first PRI 0 candidate that fits nowhere takes its victims, and their clusters are kept for it (R344, R411). DEDUCED: log entry 47. -/
def execPri0Displacement (s : State) : Host.Outcome State Fault Refusal :=
  match s.displacement with
  | none => .next s
  | some (c, vs) =>
    let bs := s.blocks.filter fun b => vs.contains b.id
    let t := { s with reserved := (c.entry, bs.filterMap (·.place)) :: s.reserved }
    .next (bs.foldl (fun t b => if b.preempt.isNone ∧ (t.block? b.id).isSome then t.displace b else t) t)

/-- The group's last lanes stand in an EXIT, which waits for engine operations: it has reached its end, and retires (R163, R411). -/
def Group.leaving (g : Group) : Bool :=
  let at_ (x y : Slot) : Bool := x.wait == some .exit && y.isFree && g.live &&& ~~~ x.mask == 0
  at_ g.slotA g.slotB || at_ g.slotB g.slotA

/-- A boundary at which a group may be stopped for a save: both latch counts 0, outside a MODEX pair and a stall (R400), no instruction with a
remote home. A group whose lanes have exited or stand in their EXIT retires instead (R411). -/
def Group.atBoundary (g : Group) : Bool :=
  g.live != 0 && !g.leaving && g.slotA.k == 0 && g.slotB.k == 0 && g.slotA.modex.isNone && g.slotB.modex.isNone && !g.slotA.stalled && !g.slotB.stalled &&
    !g.awaitsHome

def isPlbin : Instr → Bool
  | .plbin .. => true
  | _ => false

/-- The block can be written to its save record: every group has stopped, accepted accesses and CPA transfers have performed and loads have
completed, no copy is under way, and no binning job (R284, R400). -/
def Block.savable (b : Block) : Bool :=
  (b.groups.all fun g => (g.retired || g.parked) && (g.memq.all fun m => !m.accepted) && g.cpas.all (·.done)) &&
    b.ops.all fun o => if o.isCopy then o.isDone || (o.state == .queued && !b.copyReady o) else o.isDone || !isPlbin o.instr || o.plan.isEmpty

/-- A matrix operation that runs stops at its progress point, which its members' PIX and IVEC take (R304); the unread rows of an MDRN stay as they
are (R401). A binning job that has begun no record
starts again from its job record, on the die where the block then stands (R284). -/
def Block.stopAtPoints (b : Block) : Block :=
  let arrays := b.ops.filter fun o => o.tl == 1 && o.state == .running && !isMdrn o.instr
  let b := arrays.foldl (fun b o =>
    let b := b.modOp 1 o.num fun o => { o with parts := o.parts.map fun p => { p with pix := o.pix, ivec := o.ivec } }
    o.arrived.foldl (fun b g => b.modGroup g fun x => { x with pix := BitVec.ofNat 64 o.pix, ivec := o.ivec.map (BitVec.ofNat 64 ·) }) b) b
  { b with ops := b.ops.map fun o => match o.instr with
      | .plbin .. => if o.state = .running then { o with state := .queued } else o
      | _ => o }

/-- Writes the block to its save record and frees its cluster. A group that was executing resumes in its slot (R317); a core's copies of stack
entries are not saved (R318). DEDUCED: log entry 47. -/
def State.saveBlock (s : State) (id why : Nat) : State :=
  let running (i : Nat) : Option Bool := s.cores.findSome? fun c => match c.cur with
    | some (g, sb) => if g.blk = id ∧ g.grp = i then s.resumeSlot c.id g sb else none
    | none => none
  let s1 := State.modBlock { s with binJobs := s.binJobs.filter fun j => j.blk != id } id fun b =>
    let b := b.stopAtPoints
    { b with
      place := none, preempt := none, savedAt := s.cycle, saveWhy := why
      groups := b.groups.zipIdx.map fun x =>
        { x.1.resumeIn (running x.2) with slotA := x.1.slotA.abandon, slotB := x.1.slotB.abandon, parked := false, ready := false, stackCopy := [] } }
  { s1 with cores := s1.cores.map fun (c : Core) => match c.cur with | some (g, _) => if g.blk = id then { c with cur := none } else c | none => c }

def State.saveIf (s : State) (id : Nat) : State :=
  match s.block? id with
  | some b => if b.savable then s.saveBlock id 0 else s
  | none => s

/-- PREEMPTION: the groups of a block that is to be saved stop at their boundaries; once all have, and what was under way has performed, the
block is saved (R400). -/
def execPreemption (blk : Nat) (s : State) : Host.Outcome State Fault Refusal :=
  match s.block? blk with
  | none => .next s
  | some b =>
    if b.preempt.isNone || b.place.isNone || b.aborted then .next s
    else .next ((s.modBlock blk fun b => { b with groups := b.groups.map fun (g : Group) => { g with parked := g.parked || g.atBoundary } }).saveIf blk)

/-- 19,000 cycles. -/
def patience : Nat := 19000

/-- A slot whose latches may be lost: its last reset point lies far enough back (R402). -/
def latchesOld (x : Slot) (reset cycle : Nat) : Bool := x.k == 0 || decide (reset + patience ≤ cycle)

/-- A group that a forced pre-emption stops now. -/
def Group.mayForce (g : Group) (cycle : Nat) : Bool :=
  !g.parked && !g.retired && g.live != 0 && !g.leaving && !g.awaitsHome && !g.slotA.inPair && !g.slotB.inPair && latchesOld g.slotA g.resetA cycle &&
    latchesOld g.slotB g.resetB cycle

def Slot.loseLatches (x : Slot) : Slot := if x.k = 0 then x else { x with k := 0, lost := true }

def Group.force (cycle : Nat) (g : Group) : Group :=
  if g.mayForce cycle then { g with parked := true, slotA := g.slotA.loseLatches, slotB := g.slotB.loseLatches } else g

/-- FORCED_PREEMPTION: no boundary has come in time, and the groups stop where they stand, outside a MODEX pair; their latches are lost (R402). -/
def execForcedPreemption (blk : Nat) (s : State) : Host.Outcome State Fault Refusal :=
  match s.block? blk with
  | none => .next s
  | some b =>
    match b.preempt with
    | none => .next s
    | some t =>
      if b.place.isNone || b.aborted || decide (s.cycle < t + patience) then .next s
      else
        .next ((s.modBlock blk fun b => { b with groups := b.groups.map (Group.force s.cycle) }).saveIf blk)

/-- RESTORATION: a saved block, with its span, is the first candidate that fits, and returns on clusters of one die (R342, R352, R401). DEDUCED: log entry 47. -/
def execRestoration (blk cluster : Nat) (s : State) : Host.Outcome State Fault Refusal :=
  let s' := s.refilled
  match s'.nextCand with
  | none => .next s
  | some c =>
    match c.work, s'.startable c cluster with
    | .saved id, some cl =>
      if id ≠ blk then .next s
      else
        match s'.block? id with
        | none => .next s
        | some b =>
          let ms := (s'.members b.span).zip cl
          .next ((ms.foldl (fun s x => s.modBlock x.1.id fun b =>
            { b with place := some x.2, groups := b.groups.map fun (g : Group) => { g with since := s.cycle } }) s').spend c.ctx ms.length)
    | _, _ => .next s

/-- A slot waits in HWAIT, in TLWAIT on t3 or in TLWAIT on t4-t15. -/
def Slot.waitsLong (x : Slot) : Bool :=
  match x.wait with
  | some (.handle ..) => x.answer.isNone
  | some (.tl n _) => decide (3 ≤ n)
  | _ => false

/-- A block that Zenith may evict (R351). -/
def State.evictable (s : State) (b : Block) : Bool :=
  b.place.isSome && !b.aborted && b.preempt.isNone && b.groups.any (fun g => !g.retired) &&
    (b.groups.zipIdx.all fun x =>
      let g := x.1
      g.retired || (g.live != 0 && (g.slotA.isFree || !g.mayIssue false || g.slotA.waitsLong) && (g.slotB.isFree || !g.mayIssue true || g.slotB.waitsLong) &&
        !s.groupReady b g x.2 && decide (g.since + patience ≤ s.cycle) && g.memq.isEmpty && g.cpas.all (·.done) && g.stopped.isEmpty)) &&
    (b.quiet.any fun t => decide (t + patience ≤ s.cycle)) && b.ops.all fun o => o.isDone || o.tl == 3

/-- EVICTION: a block whose groups have long waited, or a whole span of such blocks, is saved and its clusters freed. -/
def execEviction (blk : Nat) (s : State) : Host.Outcome State Fault Refusal :=
  match s.block? blk with
  | none => .next s
  | some b =>
    let ms := s.members b.span
    if ms.all s.evictable then .next (ms.foldl (fun s x => s.saveBlock x.id 1) s) else .next s

/-- SUSPENSION: the driver suspends a context; every block of it is flushed or to be saved (R350, R403). DEDUCED: log entry 49. -/
def execSuspension (ctx : Nat) (s : State) : Host.Outcome State Fault Refusal :=
  let s := s.modCtx ctx fun c => { c with suspended := true }
  .next ((s.blocks.filter fun b => b.ctx == ctx && b.place.isSome && !b.aborted).foldl (fun s b => if (s.block? b.id).isSome then s.displace b else s) s)

/-! ## Ends (R386, R399) -/

/-- DRIVER_KILL: a grid is aborted with its running blocks. DEDUCED: log entry 49. -/
def execDriverKill (gid : Nat) (s : State) : Host.Outcome State Fault Refusal :=
  match s.grid? gid with
  | none => .next s
  | some g =>
    if g.aborted then .next s
    else
      match s.blocks.find? fun b => b.grid == gid && !b.aborted with
      | some b => .next (s.abortBlock b.id 0 0 0)
      | none => .next ((s.modGrid gid fun g => { g with aborted := true, active := [] }).logFate g.ctx 0 g.lid 0 0 0)

/-- A block that is to leave without trace. -/
def State.dropBlocks (s : State) (p : Block → Bool) : State := (s.blocks.filter p).foldl (fun s b => s.dropBlock b.id) s

/-- Every handle slot of a context becomes free, its generation raised (R418). -/
def State.freeHandles (s : State) (ctx : Nat) : State :=
  { s with handles := s.handles.map fun x => if x.owner = ctx ∧ !x.isFree then x.freed else x, pendH := s.pendH.filter fun h => h.inv.ctx != ctx }

/-- CONTEXT_DESTROY: what belongs to the context ends (R9); its Virga engines stop without a state record (R386). DEDUCED: log entry 49. -/
def execContextDestroy (ctx : Nat) (s : State) : Host.Outcome State Fault Refusal :=
  let s := (s.dropBlocks fun b => b.ctx == ctx).freeHandles ctx
  .next ({ s with
    ctxs := s.ctxs.filter fun c => c.num != ctx
    grids := s.grids.filter fun g => g.ctx != ctx
    queues := s.queues.filter fun q => q.ctx != ctx
    rings := s.rings.filter fun q => q.ctx != ctx
    armed := s.armed.filter fun e => e.ctx != ctx
    vgcmds := s.vgcmds.filter fun c => c.ctx != ctx
    tlbs := s.tlbs.filter fun t => t.ctx != ctx
    completed := s.completed.filter fun x => x.1 != ctx
    prevs := s.prevs.filter fun x => match x.1 with
      | .queue q => !s.queues.any fun r => r.q == q && r.ctx == ctx
      | .armed c .. => c != ctx
      | .group _ => true
    caps := s.caps.filter fun x => capOwner x.2 != ctx || !capV x.2 }.fireHeld)

/-! ## Ordered adds (R138, R139, R274) -/

/-- A block's contributions are closed: it has retired, or every group of it has executed ORDCL or exited, and its ATOMOs have performed. DEDUCED: log entry 16. -/
def State.closed (s : State) (g : Grid) (lin : Nat) : Bool :=
  g.aborted || g.done lin ||
    s.blocks.any fun b => b.grid == g.gid && b.lin == lin && b.groups.all fun x =>
      x.retired || ((x.ordcl || x.live == 0) && (x.live == 0 || x.traps.all fun h => h.atomos == 0) &&
        x.memq.all fun m => match m.instr with | .atomo .. => m.accepted && m.todo == 0 | _ => true)

/-- Ordinals compare part by part. DEDUCED: log entry 16. -/
def ordBefore : List Nat → List Nat → Bool
  | x :: xs, y :: ys => decide (x < y) || (x == y && ordBefore xs ys)
  | [], _ :: _ => true
  | _, [] => false

/-- ATOMO_APPLICATION: the agent applies the contribution of lowest ordinal, once its block and every lower one have closed. DEDUCED: log entry 16. -/
def execAtomoApplication (gid : Nat) (s : State) : Host.Outcome State Fault Refusal :=
  match s.grid? gid with
  | none => .next s
  | some g =>
    match firstBy (fun (x y : Contrib) => ordBefore x.ord y.ord) g.contribs with
    | none => .next s
    | some c =>
      if !(List.range (c.lin + 1 - g.low)).all fun i => s.closed g (g.low + i) then .next s
      else
        let n := width c.ty / 8
        let v := finish c.ty .rne false (addVal .rne (decodeElem c.ty (s.num c.addr n)) (decodeElem c.ty c.val))
        let who : Who := ⟨g.ctx, 1024, g.oagent, 1, g.clock, devicePos, detailWord c.lin 7 0 0 0 g.ctx 0, some .device, true, [], s.devSegment g.ctx⟩
        let s := s.modGrid gid fun g => { g with contribs := g.contribs.erase c, rel := clockSet g.rel g.oagent 1 }
        .next ((s.perform who ⟨c.addr, c.watch, c.ckpt, false⟩ (leBytes n v.1)).unpin g.oagent)

/-! ## The end of a grid (R275, R296, R334, R337) -/

/-- The statistics record; a write that cannot be performed is dropped and logged. -/
def State.writeStats (s : State) (g : Grid) : State :=
  let bs := ((List.range 6).flatMap fun i => leBytes 8 (g.stats.getD i 0)) ++ leBytes 16 0
  let agent := s.nextAgent
  let s := { s with nextAgent := agent + 1 }
  match s.devWrite (deviceWho g.ctx agent g.rel [] none (s.devSegment g.ctx)) g.lrec.stats bs with
  | .ok s => s
  | .error t => s.logFate g.ctx t.cause.code g.lid 0 0 g.lrec.stats.toNat

/-- The grid has no more to do. DEDUCED: log entry 50. -/
def State.gridOver (s : State) (g : Grid) : Bool :=
  g.contribs.isEmpty && (if g.aborted then s.blocks.all fun b => b.grid != g.gid else g.active.isEmpty && decide (g.lrec.blocks ≤ g.low))

/-- COMPLETION_WRITE: the statistics record, then the completion word; the grid's entry ends, and grids that waited for it may start. DEDUCED: log entry 50. -/
def execCompletionWrite (gid : Nat) (s : State) : Host.Outcome State Fault Refusal :=
  match s.grid? gid with
  | none => .next s
  | some g =>
    if !s.gridOver g then .next s
    else
      let counts := !g.aborted && g.lrec.stats != 0
      let known := clockJoin g.clock g.rel
      let c := if counts then clockSet known s.nextAgent 1 else known
      let s := if counts then s.writeStats g else s
      let agent := s.nextAgent
      let s := s.writeComp g.ctx g.lrec.comp (if g.aborted then 5 else 0) g.lid c
      -- a launch without a COMP word has no completion write of its own to acquire
      let c := if g.lrec.comp = 0 then c else clockSet c agent 1
      .next ({ s with grids := (s.grids.filter fun (x : Grid) => x.gid != gid).map fun (x : Grid) =>
        if x.ctx = g.ctx ∧ x.after = g.lid then { x with after := 0, clock := clockJoin x.clock c } else x
                      completed := (g.ctx, g.lid, c) :: s.completed.filter fun x => x.1 != g.ctx || x.2.1 != g.lid }.fireHeld)

end Sys2Proof.Machine
end

