-- ==== Sys2Proof/Machine/Fabric.lean ====
section
/-! DEFINITION. Host queues and send rings (R335-R340, R372), tagged messages (R353, R371), frames and connections between packages
(R368-R370), the host's accesses (R374), and the driver's writes (R9, R375, R389, R407). -/

namespace Sys2Proof.Config

open Sys2Proof.Machine

/-- The payload of a frame of class INV that carries a message, and the message that a payload carries: R369 gives the header alone. -/
opaque invPayload : Msg → List (BitVec 8)
opaque invOfPayload : List (BitVec 8) → Option Msg

/-- What the payload of a frame of class REQ asks for, the payload that asks for it, and the payload of the RSP frame that answers the request
with a sequence number by data: R369 gives the header alone. -/
opaque farRequest : List (BitVec 8) → Option FarReq
opaque requestPayload : FarReq → List (BitVec 8)
opaque answerPayload : Nat → List (BitVec 8) → List (BitVec 8)
/-- The request that the payload of an RSP frame answers, by the sequence number of its frame, and the data. -/
opaque answerOf : List (BitVec 8) → Option (Nat × List (BitVec 8))

end Sys2Proof.Config

namespace Sys2Proof.Machine

open Sys2Proof

/-! ## Control blocks (R335, R372) -/

/-- A field of a control block: k bytes from offset o. -/
def State.cbField (s : State) (r : Ring) (o k : Nat) : Nat := s.num (paLoc (r.cb + o)) k

/-- Every context that maps a written line with CKPT logs it, for a writer that belongs to none (R417). DEDUCED: log entry 51. -/
def State.logAll (s : State) (pa n : Nat) : State :=
  s.ctxs.foldl (fun s c => s.logLines (deviceWho c.num 0 [] [] none (s.devSegment c.num)) pa n) s

def State.setCbField (s : State) (r : Ring) (o k v : Nat) : State := (s.logAll (r.cb + o) k).setBytes (paLoc (r.cb + o)) (leBytes k v)

def State.cbBase (s : State) (r : Ring) : Nat := s.cbField r 0 8
def State.cbSize (s : State) (r : Ring) : Nat := s.cbField r 8 4
def State.cbWptr (s : State) (r : Ring) : Nat := s.cbField r 12 4
def State.cbRptr (s : State) (r : Ring) : Nat := s.cbField r 16 4
def State.cbState (s : State) (r : Ring) : Nat := s.cbField r 31 1

def State.setRptr (s : State) (r : Ring) (v : Nat) : State := s.setCbField r 16 4 v
def State.setCbState (s : State) (r : Ring) (v : Nat) : State := s.setCbField r 31 1 v

/-- The ring runs and holds a record not yet taken. -/
def State.ringRuns (s : State) (r : Ring) : Bool := s.cbState r == 0 && s.cbRptr r != s.cbWptr r

/-- The host has lapped the ring (R339). -/
def State.lapped (s : State) (r : Ring) : Bool := decide (s.cbSize r < (s.cbWptr r + 2 ^ 32 - s.cbRptr r) % 2 ^ 32)

/-- A lap halts the ring: both pointers recorded, STATE 1, a Contrail event, an interrupt (R339). `n` is the size of an entry. -/
def State.lap (s : State) (r : Ring) (n : Nat) : State :=
  let w := s.cbWptr r
  let p := s.cbRptr r
  let at_ := s.cbBase r + n * (w % s.cbSize r)
  ((((s.setCbField r 24 4 w).setCbField r 20 4 p).setCbState r 1).log 2 r.ctx [at_, w, p]).interrupt

/-- What the host's writes of a control block's write pointer and control fields released, and Zenith's reads of them acquire (R258, R336, R374). -/
def State.wptrClock (s : State) (r : Ring) : Clock := (s.relsAt (paLoc r.cb) 32).foldl (fun c x => clockJoin c x.clock) []

/-- HOST_QUEUE_RECORD: Zenith takes the record at RPTR of a running queue (R336), or finds it lapped (R339), or its die's store full (R340). DEDUCED: log entry 55. -/
def execHostQueueRecord (q : Nat) (s : State) : Host.Outcome State Fault Refusal :=
  match s.queues.find? fun r => r.q == q with
  | none => .next s
  | some r =>
    match s.ctx? r.ctx with
    | none => .next s
    | some c =>
      if !s.ringRuns r then .next s
      else if s.lapped r then .next (s.lap r 128)
      else
        let p := s.cbRptr r
        let bs := s.bytes (paLoc (s.cbBase r + 128 * (p % s.cbSize r))) 128
        match rejects bs c with
        | some n => .next ((s.setRptr r (p + 1)).rejectRecord r.ctx bs n)
        | none =>
          if s.storeFull (q % 4) then .next (s.setCbState r 2).interrupt
          else .next (((s.setRptr r (p + 1)).acceptGrid c (lrecOf bs) (.queue q) (q % 4) (s.wptrClock r) none).1)

/-- The host writes bytes: what it has written and read before it releases at system scope with each write. -/
def State.hostWrite (s : State) (pa : Nat) (bs : List Byte) : State :=
  let k := clockSet s.hostClock hostAgent s.hostTime
  let who : Who := ⟨0, 1024, hostAgent, s.hostTime, s.hostClock, hostPos, detailWord 0 6 0 0 0 0 0, none, false, [(.sys, k)], s.devSegment 0⟩
  ((s.logAll pa bs.length).perform who ⟨paLoc pa, s.watchedRange pa bs.length, false, false⟩ bs).unpin hostAgent

/-- QUEUE_RESUME: the host writes STATE := 0. -/
def execQueueResume (ring : Bool) (q : Nat) (s : State) : Host.Outcome State Fault Refusal :=
  match (if ring then s.rings else s.queues).find? fun r => r.q == q with
  | none => .next s
  | some r => .next (s.hostWrite (r.cb + 31) [0])

/-- QUEUE_BINDING: the driver binds a host queue or a send ring to a context and gives its control block (R335, R372). -/
def execQueueBinding (ring : Bool) (q ctx cb : Nat) (s : State) : Host.Outcome State Fault Refusal :=
  if cb % 32 ≠ 0 ∨ !inHbm (cb + 31) ∨ (s.ctx? ctx).isNone then .next s
  else
    let others (rs : List Ring) : List Ring := rs.filter fun r => r.q != q
    if ring then (if q < 64 then .next { s with rings := ⟨q, ctx, cb⟩ :: others s.rings } else .next s)
    else if q < 256 then
      .next { s with queues := ⟨q, ctx, cb⟩ :: others s.queues, prevs := s.prevs.filter fun x => x.1 != .queue q }
    else .next s

/-! ## Tagged messages (R353, R354, R371) -/

/-- The entry that a message matches. -/
def State.matchArm (s : State) (ctx tag len : Nat) : Option ArmEnt :=
  firstBy (fun x y => decide (y.minLen < x.minLen)) (s.armed.filter fun e => e.ctx == ctx && e.tag == tag && decide (e.minLen ≤ len) && e.held.isNone)

/-- A message's last flit arrives: the payload is written, and the entry that it matches fires, or holds the message while its die's store is
full. The result is the STATUS of R372. Pieces of the payload that cannot be written are dropped, and logged once. -/
def State.taggedArrives (s : State) (pkg ctx tag : Nat) (payload : List Byte) : State × Nat :=
  let len := payload.length
  match s.matchArm ctx tag len with
  | none => (s.log 6 ctx [pkg, tag, len], 1)
  | some e =>
    let agent := s.nextAgent
    let s := { s with nextAgent := agent + 1 }
    let who := deviceWho ctx agent [] [] none (s.devSegment ctx)
    let r := (pieces e.buf len).zipIdx.foldl (fun (r : State × Bool) x =>
      match r.1.devWrite who x.1.1 ((payload.drop (8 * x.2)).take x.1.2) with
      | .ok s => (s, r.2)
      | .error t => (if r.2 then r.1 else r.1.logFate ctx t.cause.code 0 0 0 x.1.1.toNat, true)) (s, false)
    let c := clockSet [] agent 1
    if r.1.storeFull e.die then
      ({ r.1 with armed := r.1.armed.map fun (x : ArmEnt) => if x.idx = e.idx then { x with held := some (len, c) } else x }, 0)
    else (r.1.fire e len c, 0)

/-- TAGGED_MESSAGE: a whole message arrives from a package. -/
def execTaggedMessage (pkg ctx : Nat) (tag : BitVec 32) (payload : List (BitVec 8)) (s : State) : Host.Outcome State Fault Refusal :=
  if 2 ^ 20 < payload.length then .next s else .next (s.taggedArrives pkg ctx tag.toNat payload).1

/-! ## Connections (R369, R370) -/

def Conn.fresh (p ns : Nat) : Conn := ⟨p, 1, 0, [], ns, [], [], [], false, [], [], 0, []⟩

def State.conn (s : State) (p : Nat) : Conn := (s.conns.find? fun c => c.pkg == p).getD (Conn.fresh p s.ns)

def State.setConn (s : State) (c : Conn) : State := { s with conns := c :: s.conns.filter fun x => x.pkg != c.pkg }

/-- Another package that can be reached. -/
def State.linked (s : State) (p : Nat) : Bool := p != s.pkg && s.routes.contains p && !s.failed.contains p

/-- Hands a frame to the ports; with no port trained it is lost. -/
def State.emit (s : State) (f : Frame) : State := if s.ports.isEmpty then s else { s with outbox := s.outbox ++ [f] }

/-- The classes of a frame, numbered in the order of R369. DEDUCED: log entry 53. -/
def reqClass : BitVec 8 := 0
def rspClass : BitVec 8 := 1
def invClass : BitVec 8 := 2

/-- The transport header behind the Ethernet header (R369). -/
def frameHeader (f : Frame) : List Byte :=
  [f.vr, f.ty] ++ leBytes 2 f.srcPkg.toNat ++ leBytes 2 f.dstPkg.toNat ++ [f.cls, 0] ++ leBytes 8 f.seq.toNat ++ leBytes 8 f.ack.toNat ++
    leBytes 4 f.len.toNat ++ leBytes 4 f.ctx.toNat

/-- Bytes of a whole frame: Ethernet header with its tags, transport header, payload and FCS (R368). -/
def wholeFrame (f : Frame) : Nat := 14 + 4 * f.tags.length + (frameHeader f).length + f.payload.length + 4

/-- Sends a frame over the connection to a package; its sequence number is the second result. DEDUCED: log entry 53. -/
def State.sendFrame (s : State) (p : Nat) (ty cls : BitVec 8) (ctx : Nat) (payload : List Byte) : State × Nat :=
  let c := s.conn p
  let f : Frame :=
    { vr := 1, ty := ty, srcPkg := BitVec.ofNat 16 s.pkg, dstPkg := BitVec.ofNat 16 p, cls := cls, seq := BitVec.ofNat 64 c.sseq
      ack := BitVec.ofNat 64 c.rseq, len := BitVec.ofNat 32 payload.length, ctx := BitVec.ofNat 32 ctx, payload := payload, fcsOk := true
      etherType := s.etherType, tags := [] }
  ((s.setConn { c with sseq := c.sseq + 1, unacked := c.unacked ++ [(f, 0, s.ns)], ackAt := if c.unacked.isEmpty then s.ns else c.ackAt }).emit f, c.sseq)

/-- Acknowledges a frame; the acknowledgement of a tagged message's last frame carries the result. Its SEQ names the frame. DEDUCED: log entry 53. -/
def State.sendAck (s : State) (p seq : Nat) : State :=
  let c := s.conn p
  let payload := match c.results.find? fun x => x.1 == seq with | some x => [BitVec.ofNat 8 x.2] | none => []
  s.emit
    { vr := 1, ty := 1, srcPkg := BitVec.ofNat 16 s.pkg, dstPkg := BitVec.ofNat 16 p, cls := 0, seq := BitVec.ofNat 64 seq
      ack := BitVec.ofNat 64 c.rseq, len := BitVec.ofNat 32 payload.length, ctx := 0, payload := payload, fcsOk := true, etherType := s.etherType, tags := [] }

/-! ### Completion words of sends (R372) -/

/-- The completion word of a descriptor, by one atomic write at system scope; a word that has no place is not written. -/
def State.sendDone (s : State) (comp rptr status : Nat) : State :=
  if comp = 0 ∨ comp % 8 ≠ 0 ∨ inHole comp ∨ 2 ^ 52 ≤ comp then s
  else
    let agent := s.nextAgent
    let who : Who := ⟨0, 1024, agent, 1, [], devicePos, detailWord 0 6 0 0 0 0 0, some .sys, false, [(.sys, clockSet [] agent 1)], 0⟩
    (({ s with nextAgent := agent + 1 }.logAll comp 8).perform who ⟨paLoc comp, s.watchedPa comp, false, false⟩ (leBytes 8 (status + 2 ^ 32 * rptr))).unpin agent

/-! ### Packages that cannot be reached (R370) -/

/-- What becomes of a message that cannot be sent: the handles it concerns break with root cause 0xFFFC and origin the handle addressed. -/
def State.unreachable (s : State) (m : Msg) : State :=
  match m.body with
  | .place i _ => s.breakAll m.src [i.own] i.own 0xFFFC i.clock
  | .toHandle h i _ w =>
    let s := s.breakAll m.src [i.own] h 0xFFFC i.clock
    match w with
    | some w => s.send m.src w.leaf (.answer w.req [] [])
    | none => s
  | .wait h w _ => s.send m.src w.leaf (.answer w.req [h, 0xFFFC] [])
  | .probe o h path => s.breakAll m.src [lastForward path o] h 0xFFFC []
  | .query _ w => s.send m.src w.leaf (.answer w.req [4, 0] [])
  | .free _ w => s.send m.src w.leaf (.answer w.req [] [])
  | .answer .. | .refuse .. | .resolve .. | .forward .. | .brk .. => s

/-- A PENDING handle of this package whose invocation leaves for another notes where it went. -/
def State.noteToward (s : State) (p : Nat) (own h : Word) : State :=
  let x := s.hslot (handleKey own)
  if handlePkg own = s.pkg && x.isPending && s.current own then s.setHSlot { x with toward := some (p, h) } else s

/-- The package to which the handle that a message breaks belongs, or the group that it answers. -/
def Msg.party (m : Msg) : Option Nat :=
  match m.body with
  | .place i _ | .toHandle _ i _ _ => some (handlePkg i.own)
  | .wait _ w _ => some (w.leaf / 128)
  | _ => none

/-- Sends on a message for another package; what goes there for a third one is remembered, so that it learns of a failure (R370). -/
def State.sendFar (s : State) (m : Msg) : State :=
  let p := m.dst / 128
  if s.linked p then
    let s := match m.body with
      | .place i _ => s.noteToward p i.own 0
      | .toHandle h i _ _ => s.noteToward p i.own h
      | _ => s
    let s := match m.party with
      | some q => if q = s.pkg ∨ q = p then s else let c := s.conn p; s.setConn { c with passed := c.passed ++ [m] }
      | none => s
    (s.sendFrame p 0 invClass 0 (Config.invPayload m)).1
  else s.unreachable m

/-- A request for another package leaves in a frame of class REQ, and its answer is awaited (R369). -/
def State.ask (s : State) (p : Nat) (r : FarReq) : State :=
  if s.linked p then
    let x := s.sendFrame p 0 reqClass 0 (Config.requestPayload r)
    let c := x.1.conn p
    x.1.setConn { c with asked := c.asked ++ [(x.2, r)] }
  else s

/-- Messages and requests for other packages leave, in order. -/
def State.flushFar (s : State) : State :=
  let far (m : Msg) : Bool := m.dst / 128 != s.pkg
  let s := (s.msgs.filter far).foldl State.sendFar { s with msgs := s.msgs.filter fun m => !far m }
  s.reqs.foldl (fun s x => s.ask x.1 x.2) { s with reqs := [] }

/-- The handle that a slot has sent its invocation or its forward to in a package, its own name where a place was addressed. DEDUCED: log entry 43. -/
def HSlot.brokenBy (x : HSlot) (own : Word) (p : Nat) : Option Word :=
  match x.state, x.toward with
  | .forwarded t, _ => if handlePkg t = p then some t else none
  | .pending, some (q, h) => if q = p then some (if h = 0 then own else h) else none
  | _, _ => none

/-- Whether a handle lies in a package, or is forwarded into it through slots of this one. -/
def State.leadsTo (s : State) (p : Nat) : Nat → Word → Bool
  | 0, _ => false
  | fuel + 1, h =>
    handlePkg h == p || (handlePkg h == s.pkg && match (s.hslot (handleKey h)).state with | .forwarded t => s.leadsTo p fuel t | _ => false)

/-- What a slot that waits for a package is to receive. DEDUCED: log entry 43. -/
def State.lostWait (s : State) (p : Nat) (x : Slot) : Option (Nat × List Word) :=
  match x.wait with
  | some (.handle k h) => if x.answer.isNone && s.leadsTo p 256 h then some (k, [h, 0xFFFC]) else none
  | some (.answer k _ q) => if x.answer.isNone && q == p then some (k, [4, 0]) else none
  | _ => none

def State.lostWaits (s : State) (p : Nat) : List (Nat × List Word) :=
  s.blocks.flatMap fun b => b.groups.flatMap fun g => [g.slotA, g.slotB].filterMap (s.lostWait p)

/-- The connection to a package fails. DEDUCED: log entry 43. -/
def State.failConn (s : State) (p : Nat) : State :=
  let waits := s.lostWaits p
  let broken := s.handles.filterMap fun x => (x.brokenBy (s.ownWord x) p).map fun o => (x.key, o)
  let sent := s.sent.filter fun x => x.pkg == p
  let passed := (s.conn p).passed
  let s := (s.setConn { s.conn p with failed := true, unacked := [], ahead := [], part := [], passed := [], asked := [] }).log 6 0 [p, 0, 0]
  let s := { s with failed := p :: s.failed.filter (· != p), sent := s.sent.filter fun x => x.pkg != p }
  let s := sent.foldl (fun s x => s.sendDone x.comp x.rptr 2) s
  let s := waits.foldl (fun s x => s.deliver x.1 x.2 []) s
  let s := broken.foldl (fun s x => s.breakSlot x.1 x.2 0xFFFC []) s
  passed.foldl State.unreachable s

/-! ## Errors recorded (R413, R414) -/

/-- Bytes [23:0] of an error record's 32 (R414). -/
def ErrRec.head (r : ErrRec) : List Byte :=
  leBytes 4 0 ++ leBytes 1 r.cnt ++ leBytes 1 (r.info.ctx.toNat * 4 + r.info.sev.toNat) ++ leBytes 1 r.info.inst.toNat ++ leBytes 1 r.info.unit.toNat ++
    leBytes 8 r.info.synd.toNat ++ leBytes 8 r.time

/-- The 21 bytes of it that a Contrail event keeps (R420). -/
def ErrRec.detail (r : ErrRec) : List Nat := (r.head.take 21).map (·.toNat)

/-- The record's entry. -/
def ErrRec.bytes (r : ErrRec) : List Byte := r.head ++ leBytes 8 r.info.addr.toNat

/-- A corrected error that merges into the newest record. -/
def ErrRec.merges (r : ErrRec) (e : ErrorInfo) : Bool :=
  r.info.sev == 0 && e.sev == 0 && r.info.unit == e.unit && r.info.inst == e.inst && r.info.addr == e.addr

/-- Writes entry n of the ring in host memory. DESIGN CHOICE: log entry 56. -/
def State.putError (s : State) (n : Nat) (r : ErrRec) : State :=
  s.setBytes (paLoc (2 ^ 51 + (Config.errorBase + 32 * (n % Config.errorRing)) % 2 ^ 51)) r.bytes

/-- A new record in the ring and in Contrail; any but a corrected error raises an interrupt. -/
def State.newError (s : State) (e : ErrorInfo) : State :=
  let r : ErrRec := ⟨e, s.ns, 1⟩
  let l := s.errors ++ [r]
  let s := ({ s with errors := l.drop (l.length - Config.errorRing), errNext := s.errNext + 1 }.putError s.errNext r).log 1 e.ctx.toNat r.detail
  if e.sev = 0 then s else s.interrupt

/-- The error is merged into the newest record, or recorded. -/
def State.recordError (s : State) (e : ErrorInfo) : State :=
  match s.errors.getLast? with
  | some r =>
    if r.merges e then
      let r := { r with cnt := min 255 (r.cnt + 1) }
      { s with errors := s.errors.dropLast ++ [r] }.putError (s.errNext - 1) r
    else s.newError e
  | none => s.newError e

/-- An error of Jetstream: a damaged frame, which its retransmission corrects, or a connection that fails (R413). -/
def State.linkError (s : State) (sev : BitVec 2) : State :=
  let e := Config.linkError s.tick
  s.recordError ⟨0, e.2, 7, e.1, 0, sev⟩

/-- CONNECTION_FAILURE: the oldest unacknowledged frame has gone out again 64 times, or no acknowledgement has come for 10 ms. DEDUCED: log entry 54. -/
def execConnectionFailure (pkg : Nat) (s : State) : Host.Outcome State Fault Refusal :=
  let c := s.conn pkg
  match c.unacked with
  | [] => .next s
  | f :: _ => if c.failed then .next s else if f.2.1 = 64 ∨ c.ackAt + 10000000 ≤ s.ns then .next ((s.failConn pkg).linkError 1) else .next s

/-- RETRANSMIT: the oldest frame that has waited 20 µs for its acknowledgement goes out again. -/
def execRetransmit (pkg : Nat) (s : State) : Host.Outcome State Fault Refusal :=
  let c := s.conn pkg
  let late (f : Frame × Nat × Nat) : Bool := decide (f.2.2 + 20000 ≤ s.ns) && decide (f.2.1 < 64)
  match c.unacked.find? late with
  | none => .next s
  | some f =>
    if c.failed then .next s
    else
      .next ((s.setConn { c with unacked := c.unacked.map fun (x : Frame × Nat × Nat) =>
        if x.1.seq = f.1.seq then (x.1, x.2.1 + 1, s.ns) else x }).emit f.1)

/-- CONNECTION_REESTABLISHED: the driver opens the connection to a package afresh, and its route. DEDUCED: log entry 54. -/
def execConnectionReestablished (pkg : Nat) (s : State) : Host.Outcome State Fault Refusal :=
  if pkg = s.pkg ∨ 4095 ≤ pkg then .next s
  else
    .next { s.setConn (Conn.fresh pkg s.ns) with
      failed := s.failed.filter (· != pkg), routes := if s.routes.contains pkg then s.routes else s.routes ++ [pkg] }

/-! ### Frames arrive -/

/-- A package as an agent: one number for all that it does here (R253). -/
def farAgent (p : Nat) : Nat := p + 1

/-- A far package makes an access: its count goes up, and what it releases is all it has done and knows. DEDUCED: log entry 54. -/
def State.farWho (s : State) (p : Nat) : State × Who :=
  let c := s.conn p
  let n := c.epoch + 1
  let k := clockSet c.clock (farAgent p) n
  (s.setConn { c with epoch := n, clock := k },
   ⟨0, 1024, farAgent p, n, c.clock, ⟨0, 0, 0, true⟩, BitVec.ofNat 64 (8 * 2 ^ 28 + p * 2 ^ 16), none, false, [(.sys, k)], 0⟩)

/-- A range of this package's memory. -/
def inMemory (pa n : Nat) : Bool := decide (0 < n) && !inHole pa && !inHole (pa + n - 1) && decide (pa + n ≤ 2 ^ 52)

/-- A write that a far package asks for (R252, R253). DEDUCED: log entry 54. -/
def State.farWrite (s : State) (p pa : Nat) (bs : List Byte) (atomic : Bool) : State :=
  let w := s.farWho p
  let who := { w.2 with atomic := if atomic then some .sys else none }
  ((w.1.logAll pa bs.length).perform who ⟨paLoc pa, s.watchedRange pa bs.length, false, false⟩ bs).unpin (farAgent p)

/-- What a far package reads: it learns what the bytes publish at system scope (R258). -/
def State.farRead (s : State) (p pa n : Nat) : State :=
  let c := s.conn p
  let rs := (s.relsAt (paLoc pa) n).filter fun r => r.scope == .sys
  s.setConn { c with clock := rs.foldl (fun k r => clockJoin k r.clock) c.clock }

/-- A request of a far package is served at the home slice; what it reads is answered by a frame of class RSP. DEDUCED: log entry 54. -/
def State.serve (s : State) (p seq : Nat) (r : FarReq) : State :=
  let answer (s : State) (bs : List Byte) : State := (s.sendFrame p 0 rspClass 0 (Config.answerPayload seq bs)).1
  match r with
  | .read pa n => if inMemory pa n then answer (s.farRead p pa n) (s.bytes (paLoc pa) n) else s
  | .write pa bs => if inMemory pa bs.length then answer (s.farWrite p pa bs false) [] else s
  | .atom pa ty op b c =>
    let n := width ty / 8
    let old := s.num (paLoc pa) n
    if inMemory pa n then answer ((s.farRead p pa n).farWrite p pa (leBytes n (atomNew op ty old (sub b 0 ty) (sub c 0 ty))) true) (leBytes n old) else s
  | .atomf pa ty op b =>
    let n := width ty / 8
    let old := s.num (paLoc pa) n
    if inMemory pa n then answer ((s.farRead p pa n).farWrite p pa (leBytes n (atomfNew op ty .rne old (sub b 0 ty)).1) true) (leBytes n old) else s

/-- The answer to a request of this package: it is no longer awaited, and what a read of the home slice has found there is what the far memory
holds (R252, R369). DEDUCED: log entry 46. -/
def State.answered (s : State) (p seq : Nat) (bs : List Byte) : State :=
  let c := s.conn p
  let t := s.setConn { c with asked := c.asked.filter fun x => x.1 != seq }
  match c.asked.find? fun x => x.1 == seq with
  | some (_, .read pa n) => if bs.length = n then t.setBytes ⟨.far p, pa⟩ bs else t
  | _ => t

/-- A frame whose turn has come is delivered and acknowledged. DEDUCED: log entry 53. -/
def State.takeFrame (s : State) (p : Nat) (f : Frame) : State :=
  let seq := f.seq.toNat
  let c := { s.conn p with rseq := seq }
  if f.ty = 2 then
    let part := c.part ++ f.payload
    let len := recNum part 4 4
    if part.length < 8 ∨ part.length < 8 + len then (s.setConn { c with part := part }).sendAck p seq
    else
      let r := (s.setConn { c with part := [] }).taggedArrives p f.ctx.toNat (recNum part 0 4) ((part.drop 8).take len)
      let c := r.1.conn p
      (r.1.setConn { c with results := (seq, r.2) :: c.results }).sendAck p seq
  else
    let s := s.setConn c
    let s :=
      if f.cls = invClass then
        match Config.invOfPayload f.payload with
        | some m => if m.dst / 128 = s.pkg then { s with msgs := s.msgs ++ [m] } else s
        | none => s
      else if f.cls = reqClass then
        match Config.farRequest f.payload with
        | some x => s.serve p seq x
        | none => s
      else if f.cls = rspClass then
        match Config.answerOf f.payload with
        | some x => s.answered p x.1 x.2
        | none => s
      else s
    s.sendAck p seq

/-- Frames that came ahead of their turn and whose turn has come. -/
def State.takeAhead (s : State) (p : Nat) : Nat → State
  | 0 => s
  | fuel + 1 =>
    let c := s.conn p
    match c.ahead.find? fun f => f.seq.toNat == c.rseq + 1 with
    | none => s
    | some f => ((s.setConn { c with ahead := c.ahead.filter fun x => x.seq != f.seq }).takeFrame p f).takeAhead p fuel

/-- What a frame acknowledges: frames up to ACK, but for the last frame of a tagged message whose result has not come. DEDUCED: log entry 53. -/
def State.takeAck (s : State) (p : Nat) (f : Frame) : State :=
  let isAck := f.ty == 1
  let answered := s.sent.filter fun x => x.pkg == p && isAck && !f.payload.isEmpty && x.seq == f.seq.toNat
  let s := { s with sent := s.sent.filter fun x => !answered.contains x }
  let s := answered.foldl (fun s x => s.sendDone x.comp x.rptr (f.payload.getD 0 0).toNat) s
  let c := s.conn p
  let keep (x : Frame × Nat × Nat) : Bool :=
    decide (f.ack.toNat < x.1.seq.toNat) || s.sent.any fun y => y.pkg == p && y.seq == x.1.seq.toNat
  let left := c.unacked.filter keep
  s.setConn { c with unacked := left, ackAt := if isAck || left.length != c.unacked.length then s.ns else c.ackAt }

/-- FRAME_RECEIVE: a frame of another EtherType is dropped and counted; a frame damaged, misdirected or from a failed connection is ignored;
any other acknowledges, and is delivered in order of sequence numbers. -/
def execFrameReceive (f : Frame) (s : State) : Host.Outcome State Fault Refusal :=
  let p := f.srcPkg.toNat
  if f.etherType ≠ s.etherType then .next { s with dropped := s.dropped + 1 }
  else if !f.fcsOk && !s.ports.isEmpty then .next (s.linkError 0)
  else if s.ports.isEmpty || !f.fcsOk || decide (1 < f.tags.length) || decide (9216 < wholeFrame f) || f.vr != 1 || f.dstPkg.toNat != s.pkg || f.payload.length != f.len.toNat || !s.linked p then .next s
  else
    let s := s.takeAck p f
    let c := s.conn p
    let seq := f.seq.toNat
    if f.ty ≠ 0 ∧ f.ty ≠ 2 then .next s
    else if seq ≤ c.rseq then .next (s.sendAck p seq)
    else if seq = c.rseq + 1 then .next ((s.takeFrame p f).takeAhead p c.ahead.length)
    else if c.ahead.any fun x => x.seq == f.seq then .next s
    else .next (s.setConn { c with ahead := c.ahead ++ [f] })

/-! ## Send rings (R371, R372) -/

/-- Payload bytes of a frame of a tagged message. DEDUCED: log entry 53. -/
def chunk : Nat := 8192

/-- Sends the frames of a message, header first; the last one's sequence number is the second result. -/
def State.sendChunks (s : State) (p ctx : Nat) : Nat → List Byte → State × Nat
  | 0, bs => s.sendFrame p 2 3 ctx bs
  | fuel + 1, bs =>
    if bs.length ≤ chunk then s.sendFrame p 2 3 ctx bs
    else (s.sendFrame p 2 3 ctx (bs.take chunk)).1.sendChunks p ctx fuel (bs.drop chunk)

def sendMalformed (bs : List Byte) : Bool :=
  let n := recNum bs
  decide (n 0 8 % 8 ≠ 0) || decide (2 ^ 20 < n 8 4) || inHole (n 0 8) || (decide (n 8 4 ≠ 0) && inHole (n 0 8 + n 8 4 - 1)) || decide (2 ^ 52 < n 0 8 + n 8 4) || decide (4094 < n 16 2) ||
    decide (63 < n 18 1) || n 19 5 != 0 || decide (n 24 8 % 8 ≠ 0) || n 32 32 != 0

/-- SEND_RING_DESCRIPTOR: the package takes the descriptor at RPTR of a running ring, reads its payload and sends the message. One to this
package itself is matched here. -/
def execSendRingDescriptor (r : Nat) (s : State) : Host.Outcome State Fault Refusal :=
  match s.rings.find? fun x => x.q == r with
  | none => .next s
  | some r =>
    if !s.ringRuns r then .next s
    else if s.lapped r then .next (s.lap r 64)
    else
      let p := s.cbRptr r
      let bs := s.bytes (paLoc (s.cbBase r + 64 * (p % s.cbSize r))) 64
      let n := recNum bs
      let s := s.setRptr r (p + 1)
      let comp := n 24 8
      let to_ := n 16 2
      if sendMalformed bs then .next ((s.sendDone comp p 3).logFate r.ctx 3 0 0 0 0)
      else
        let payload := s.bytes (paLoc (n 0 8)) (n 8 4)
        if to_ = s.pkg then
          let t := s.taggedArrives s.pkg (n 18 1) (n 12 4) payload
          .next (t.1.sendDone comp p t.2)
        else if !s.linked to_ then .next (s.sendDone comp p 2)
        else
          let t := s.sendChunks to_ (n 18 1) 129 (leBytes 4 (n 12 4) ++ leBytes 4 (n 8 4) ++ payload)
          .next { t.1 with sent := t.1.sent ++ [⟨to_, t.2, comp, p⟩] }

/-- LINK_TRAINING: a port is up; with it the firmware may set the EtherType (R368). DESIGN CHOICE: log entry 53. -/
def execLinkTraining (port : Nat) (s : State) : Host.Outcome State Fault Refusal :=
  if port < 24 ∧ !s.ports.contains port then
    .next { s with ports := s.ports ++ [port], etherType := (Config.etherType s.tick).getD s.etherType }
  else .next s

/-! ## The host (R374) -/

/-- A byte of a control block that only the package writes: RPTR, LAPR, LAPW. DEDUCED: log entry 52. -/
def State.roByte (s : State) (pa : Nat) : Bool :=
  (s.queues ++ s.rings).any fun r => decide (r.cb + 16 ≤ pa) && decide (pa < r.cb + 28)

/-- HOST_ACCESS: a write of the host performs, and a read acquires what the bytes publish at system scope. What the host has written and read it
releases at system scope with each write. `bytes` gives a read its length. DEDUCED: log entry 52. -/
def execHostAccess (write : Bool) (pa : Nat) (bytes : List (BitVec 8)) (s : State) : Host.Outcome State Fault Refusal :=
  if !inMemory pa bytes.length then .next s
  else if !write then
    let rs := (s.relsAt (paLoc pa) bytes.length).filter fun r => r.scope == .sys
    .next { s with hostClock := rs.foldl (fun k r => clockJoin k r.clock) s.hostClock }
  else
    .next (s.hostWrite pa (bytes.zipIdx.map fun x => if s.roByte (pa + x.2) then s.byte (paLoc (pa + x.2)) else x.1))

/-! ## The driver (R9, R375, R389, R407) -/

/-- A context as its descriptor gives it. DESIGN CHOICE: log entry 12. -/
def Context.read (c : Context) (bs : List Byte) : Context :=
  let n := recNum bs
  { c with
    ptroot := n 0 8, hvec := BitVec.ofNat 64 (n 8 8), csa := n 16 8, csasz := n 24 8, ptw := bit (n 32 1) 0, pres := bit (n 32 1) 1
    prio := bits (n 33 1) 0 3, weight := n 34 1 }

def Context.fresh (ctx : Nat) : Context where
  num := ctx
  ptroot := 0
  hvec := 0
  csa := 0
  csasz := 0
  ptw := false
  pres := false
  prio := 0
  weight := 0
  nextLaunch := 1
  credit := 0
  committed := 0
  ckptValid := true
  arrived := 0
  undo := []
  stale := []
  totals := []
  suspended := false

/-- CONTEXT_CREATION: the driver creates a context with its descriptor, once the firmware is ready. DESIGN CHOICE: log entry 12. -/
def execContextCreation (ctx : Nat) (desc : List (BitVec 8)) (s : State) : Host.Outcome State Fault Refusal :=
  if !s.announced || decide (64 ≤ ctx) || (s.ctx? ctx).isSome then .next s
  else
    let c := (Context.fresh ctx).read desc
    .next { s with ctxs := s.ctxs ++ [{ c with credit := c.share }] }

/-- CONTEXT_DESCRIPTOR_WRITE: the next use of the descriptor reads the new fields; a suspended context may run again. -/
def execContextDescriptorWrite (ctx : Nat) (desc : List (BitVec 8)) (s : State) : Host.Outcome State Fault Refusal :=
  .next (s.modCtx ctx fun c => { c.read desc with suspended := false })

/-- CAPABILITY_TABLE_WRITE: the driver writes an entry of a stack's table. -/
def execCapabilityTableWrite (stack index : Nat) (entry : BitVec 128) (s : State) : Host.Outcome State Fault Refusal :=
  if stack < 8 ∧ index < 4096 then .next { s with caps := SMap.set 0 s.caps (stack * 4096 + index) entry } else .next s

/-- SHOOTDOWN: every translation held for a context is discarded. -/
def execShootdown (ctx : Nat) (s : State) : Host.Outcome State Fault Refusal :=
  .next { s with tlbs := s.tlbs.filter fun t => t.ctx != ctx }

end Sys2Proof.Machine
end

