-- ==== Sys2Proof/Machine/Depend.lean ====
section
/-! DEFINITION. Errors and their fates (R413-R415), checkpoints and rollback (R416-R418), freeze (R421), the thermal step (R424), attestation
(R425) and resets (R9, R426). -/

namespace Sys2Proof.Machine

open Sys2Proof

/-! ## Checkpoints (R416) -/

/-- What a group issued before an arrival with these bounds has performed and completed; what stands in a trap frame has not. -/
def Block.arrivalDone (b : Block) (grp : Nat) (g : Group) (mem agent : Nat) : Bool :=
  (g.retired || g.traps.all fun h => h.kept.mems.all fun x => decide (mem ≤ x.1)) &&
    (g.memq.all fun m => decide (mem ≤ m.first) || (m.accepted && m.todo == 0)) &&
    (g.cpas.all fun c => decide (mem ≤ c.first) || c.done) &&
    b.ops.all fun o => o.isDone || decide (agent ≤ o.agent) || !o.arrived.contains grp

/-- Group i of a block stands behind no epoch up to e. -/
def Block.pastEpoch (b : Block) (i : Nat) (g : Group) (e : Nat) : Bool :=
  (g.retired || decide (e + 1 ≤ g.ckpt)) &&
    match g.arrivals.find? fun a => decide (e ≤ a.1) with
    | some a => b.arrivalDone i g a.2.1 a.2.2
    | none => true

/-- Epochs up to e of a context may commit: an arrival has come, and every group that runs stands behind none of them. DEDUCED: log entry 51. -/
def State.commits (s : State) (c : Context) (e : Nat) : Bool :=
  decide (c.committed < e) && decide (e ≤ c.arrived) && s.blocks.all fun b => b.ctx != c.num || b.groups.zipIdx.all fun x => b.pastEpoch x.2 x.1 e

/-- The epochs among which the last one that may commit is: the highest arrived at, and those that groups have recorded. -/
def State.epochs (s : State) (c : Context) : List Nat :=
  c.arrived :: s.blocks.flatMap fun b => if b.ctx = c.num then b.groups.flatMap fun g => (g.ckpt - 1) :: g.arrivals.map (·.1) else []

/-- Commits the epochs up to e; the launch totals are saved (R297), and the log's entries of the committed segments are to be discarded. DEDUCED: log entry 51. -/
def State.commitTo (s : State) (ctx e : Nat) : State :=
  let totals := (s.grids.filter fun g => g.ctx == ctx).map fun g => (g.gid, g.stats)
  let s := s.modCtx ctx fun c =>
    let split := c.undo.partition fun u => decide (e < u.seg)
    { c with committed := e, ckptValid := true, totals := totals, undo := split.1, stale := c.stale ++ split.2 }
  { s with blocks := s.blocks.map fun (b : Block) =>
      if b.ctx = ctx then { b with groups := b.groups.map fun (g : Group) => { g with arrivals := g.arrivals.filter fun a => decide (e < a.1) } } else b }

/-- The last epoch of a context that may commit. -/
def State.lastEpoch (s : State) (c : Context) : Option Nat :=
  match (s.epochs c).filter (s.commits c) with
  | [] => none
  | e :: es => some (es.foldl max e)

/-- CHECKPOINT_COMMIT: in one of the contexts in which it may, the next epoch commits, and those after it that may commit with it. Which
context comes first is open. -/
def execCheckpointCommit (s : State) : Host.Outcome State Fault Refusal :=
  match s.ctxs.filterMap fun c => (s.lastEpoch c).map fun e => (c.num, e) with
  | [] => .next s
  | [x] => .next (s.commitTo x.1 x.2)
  | xs => let x := xs.getD (Config.pick s.tick % xs.length) (0, 0)
    .next (s.commitTo x.1 x.2)

/-! ## Rollback (R418) -/

/-- A message that acts for a context. -/
def Msg.actsFor (m : Msg) (ctx : Nat) : Bool :=
  match m.body with
  | .place i _ | .toHandle _ i _ _ => i.ctx == ctx
  | .wait _ w _ | .query _ w | .free _ w => w.ctx == ctx
  | _ => false

/-- A line gets back its oldest value. -/
def State.restoreLine (s : State) (u : Undo) : State :=
  let inLine (x : Loc) : Bool := x.store == .pkg && x.ofs / 128 * 128 == u.line
  let s := (s.setBytes (paLoc u.line) u.old).clearPoison u.line 128
  { s with writers := s.writers.filter fun x => !inLine x.1, rels := s.rels.filter fun x => !inLine x.1 }

/-- The oldest entry of each line above an epoch. -/
def oldest (us : List Undo) (e : Nat) : List Undo :=
  us.foldl (fun acc u => if u.seg ≤ e ∨ acc.any fun x => x.line == u.line then acc else acc ++ [u]) []

/-- The running grids of a context have the launch totals that the last commit saved (R297). -/
def State.restoreTotals (s : State) (c : Context) : State :=
  { s with grids := s.grids.map fun (g : Grid) =>
      if g.ctx = c.num then { g with stats := ((c.totals.find? fun t => t.1 == g.gid).map (·.2)).getD (g.stats.map fun _ => 0) } else g }

/-- No access of the context performs any more (step 1). -/
def State.quench (s : State) (ctx : Nat) : State :=
  { s with blocks := s.blocks.map fun (b : Block) =>
      if b.ctx = ctx then { b with groups := b.groups.map fun (g : Group) => { g with memq := [], cpas := [] } } else b }

/-- Steps 1 and 2: everything of the context stops and is discarded. -/
def State.discard (s : State) (ctx : Nat) : State :=
  let s := ((s.quench ctx).dropBlocks fun b => b.ctx == ctx).freeHandles ctx
  let s := (s.queues.filter fun r => r.ctx == ctx).foldl (fun s r => s.setCbState r 3) s
  { s with
    grids := s.grids.filter fun g => g.ctx != ctx
    vgcmds := s.vgcmds.filter fun c => c.ctx != ctx
    armed := s.armed.filter fun e => e.ctx != ctx
    msgs := s.msgs.filter fun m => !m.actsFor ctx }

/-- A rollback of a context begins for an error: steps 1 and 2 at once, and what steps 3 to 5 have to do. One that is under way starts again, with
the completion words that it has not written. DEDUCED: log entry 51. -/
def State.rollback (s : State) (e : ErrorInfo) (c : Context) : State :=
  let old := s.rollbacks.find? fun r => r.ctx == c.num
  let gone := (s.grids.filter fun g => g.ctx == c.num).map fun g => (g.lrec.comp, g.lid, clockJoin g.clock g.rel)
  let restores := c.ckptValid && decide (1 ≤ c.committed)
  let s := ((s.restoreTotals c).discard c.num).modCtx c.num fun c => { c with arrived := 0 }
  { s with rollbacks := s.rollbacks.filter (fun r => r.ctx != c.num) ++
      [⟨c.num, if restores then oldest c.undo c.committed else [], if restores then [] else ((old.map (·.comps)).getD []) ++ gone, restores,
        ((old.map (·.errs)).getD []) ++ [e]⟩] }

/-! ## Errors (R413-R415) -/

/-- Stops the clocks (R421). DEDUCED: log entry 56. -/
def State.freeze (s : State) (trigger : Nat) : State := { s.log 8 0 [trigger] with frozen := true }

/-- An uncorrectable error that is contained: poison, or a Virga part that stops. DEDUCED: log entry 56. -/
def State.contain (s : State) (e : ErrorInfo) : State :=
  if e.unit = 2 ∨ e.unit = 4 then
    if inHbm e.addr.toNat then { s with poison := SMap.set false s.poison (e.addr.toNat / 64) true } else s
  else if e.unit = 7 then
    match s.conns.filter fun c => !c.failed with
    | [] => s
    | cs => s.failConn ((cs.map (·.pkg)).getD (Config.pick s.tick % cs.length) 0)
  else if e.unit = 3 then
    { s with vgcmds := s.vgcmds.map fun (c : VgCmd) => c.modPart e.inst.toNat fun p =>
        if p.done then p else { p with code := 6, codeChan := e.inst.toNat, codeOfs := Config.sramOffset s.tick, done := true } }
  else s

/-- The operation has stopped with ECC 2 or 3. -/
def EngOp.hasEcc (o : EngOp) : Bool := match o.state with | .stopped t => t.cause == .ecc && (t.sub == 2 || t.sub == 3) | _ => false

/-- The contexts that an error rolls back: every live one for L2 tags, bridges and Cirrus, Zenith's state and scoreboards, else the one charged,
and that of the operation which has met it (R393). -/
def State.charged (s : State) (e : ErrorInfo) : List Context :=
  let owner := (s.blocks.filter fun b => (e.unit == 1 || e.unit == 5) && b.place == some e.inst.toNat && b.ops.any EngOp.hasEcc).map (·.ctx)
  if e.unit = 2 ∨ e.unit = 6 ∨ (e.unit = 9 ∧ Config.zenithError s.tick) then s.ctxs
  else s.ctxs.filter fun c => c.num == e.ctx.toNat || owner.contains c.num

/-- The engine operation in which a cluster has met a second residue mismatch or a parity error of the plane stops at its progress point, with ECC 2 or 3
(R177, R285, R301). -/
def State.stopEngine (s : State) (e : ErrorInfo) : State :=
  if e.unit = 1 ∨ e.unit = 5 then
    { s with blocks := s.blocks.map fun (b : Block) =>
        if b.place = some e.inst.toNat then
          match (if e.unit = 5 then b.ops.find? fun o => isArray o.instr && o.state == .running else s.cellReader b) with
          | some o => b.stopOp o (memTrap .ecc (if e.unit = 5 then 2 else 3) 0)
          | none => b
        else b }
  else s

/-- A residue mismatch has been met by a repeat, which MQRY counts (R189, R301). -/
def State.countResidue (s : State) (e : ErrorInfo) : State :=
  if e.unit = 5 then { s with residues := SMap.set 0 s.residues e.inst.toNat (SMap.get 0 s.residues e.inst.toNat + 1) } else s

/-- A parity error of a plane's cell register stays unmet, since no operation that reads a register is at hand (R285). -/
def State.latent (s : State) (e : ErrorInfo) : Bool :=
  e.unit == 1 && e.sev == 2 && s.blocks.any fun b => b.place == some e.inst.toNat && b.planeSt.isSome

/-- What an error does, by its severity. DEDUCED: log entry 56. -/
def State.error (s : State) (e : ErrorInfo) : State :=
  match e.sev.toNat with
  | 0 => (s.recordError e).countResidue e
  | 1 => (s.recordError e).contain e
  | 2 =>
    let s := (s.countResidue e).stopEngine e
    if (s.charged e).isEmpty then s.recordError e else (s.charged e).foldl (State.rollback · e) s
  | _ => (s.recordError e).freeze 0

/-! ### What a rollback and a commit have left to do (R418, R421) -/

/-- The end of the first rollback: the log is emptied, and the errors that no other rollback still stands for are recorded. -/
def State.endRollback (s : State) (r : Rollback) (rest : List Rollback) : State :=
  let s := { s with rollbacks := rest }
  let s := if r.restores then s.modCtx r.ctx fun c => { c with undo := [] } else s
  let s := (r.errs.filter fun e => !rest.any fun x => x.errs.contains e).foldl State.recordError s
  (s.log 4 r.ctx [((s.ctx? r.ctx).map (·.committed)).getD 0]).fireHeld

/-- One piece of the work that a commit or a rollback has begun: an entry of a committed segment is discarded, a line gets its value back, a
completion word is written, or a rollback ends. DEDUCED: log entry 51. -/
def State.recover (s : State) : State :=
  match s.ctxs.find? fun c => !c.stale.isEmpty with
  | some c => s.modCtx c.num fun c => { c with stale := c.stale.tail }
  | none =>
    match s.rollbacks with
    | [] => s
    | r :: rest =>
      match r.lines, r.comps with
      | u :: us, _ => { s.restoreLine u with rollbacks := { r with lines := us } :: rest }
      | [], x :: xs => { s.writeComp r.ctx x.1 5 x.2.1 x.2.2 with rollbacks := { r with comps := xs } :: rest }
      | [], [] => s.endRollback r rest

/-- Log entries of committed segments are to be discarded. -/
def State.discarding (s : State) : Bool := s.ctxs.any fun c => !c.stale.isEmpty

/-- Work of a commit or of a rollback is left. -/
def State.recovering (s : State) : Bool := s.discarding || !s.rollbacks.isEmpty

/-- ERROR_DETECTED; UNIT 10-255 is not used. A parity error of a plane's register is held until an operation reads a register, which stops
there (R285). -/
def execErrorDetected (e : ErrorInfo) (s : State) : Host.Outcome State Fault Refusal :=
  if 10 ≤ e.unit.toNat then .next s
  else if s.latent e then
    let s := if s.parity.contains e then s else { s with parity := s.parity ++ [e] }
    if s.blocks.any fun b => b.place == some e.inst.toNat && (s.cellReader b).isSome then .next ({ s.error e with parity := s.parity.erase e }) else .next s
  else .next (s.error e)

/-- The bridge between dies a < b. DEDUCED: log entry 56. -/
def bridgeNo (a b : Nat) : Nat := if a = 0 then b - 1 else a + b

/-- BRIDGE_FAILURE: a bridge between two dies reports a detected fault, which rolls back every live context. -/
def execBridgeFailure (a b : Nat) (s : State) : Host.Outcome State Fault Refusal :=
  if a < b ∧ b < 4 then .next (s.error ⟨0, 0, 6, BitVec.ofNat 8 (bridgeNo a b), 0, 2⟩) else .next s

/-! ## Freeze (R421) -/

/-- FREEZE: by an error of SEV 3, by the thermal trip, or by the driver. -/
def execFreeze (c : FreezeCause) (s : State) : Host.Outcome State Fault Refusal :=
  .next (s.freeze (match c with | .sev3 => 0 | .thermal => 1 | .driver => 2))

/-- TAP_FREEZE. -/
def execTapFreeze (s : State) : Host.Outcome State Fault Refusal := .next (s.freeze 3)

/-- TEST_PORT_READOUT alters nothing. -/
def execTestPortReadout (s : State) : Host.Outcome State Fault Refusal := .next s

/-! ## The thermal step (R388, R424) -/

/-- The temperature at which a step is entered from the one below. -/
def stepEnter : Nat → Nat
  | 0 => 0
  | 1 => 95
  | 2 => 102
  | _ => 108

/-- The step that follows a step under a temperature and a coolant flow, one step at a time: towards 3 with a flow below 1.2 L/min, else up from the
next one's entry temperature on, or down from 5 degrees below the entry temperature of the step held. DEDUCED: log entry 57. -/
def nextStep (step temp flow : Nat) : Nat :=
  if flow < 12 then min 3 (step + 1)
  else if step < 3 ∧ stepEnter (step + 1) ≤ temp then step + 1
  else if 0 < step ∧ temp + 5 < stepEnter step then step - 1
  else step

/-- The manager's move at the readings that it holds: the trip at 115 degrees, or a change of step, which Contrail records. A step up lowers BA in
every channel. DEDUCED: log entry 57. -/
def State.thermalMove (s : State) : State :=
  if 115 ≤ s.heat.temp then s.freeze 1
  else
    let step := nextStep s.thermal s.heat.temp s.heat.flow
    if step = s.thermal then s
    else
      let t := { s with thermal := step }.log 7 0 [s.thermal, step, s.heat.sensor]
      if s.thermal < step then { t with throttle := (List.range 128).foldl (fun m c => SMap.set 0 m c (SMap.get 0 m c + 1)) t.throttle } else t

/-- THERMAL_STEP: the sensors are read, and the manager moves by one step. DEDUCED: log entry 57. -/
def execThermalStep (r : Reading) (sensor : Nat) (s : State) : Host.Outcome State Fault Refusal :=
  .next (State.thermalMove { s with heat := ⟨r.temp, r.flow, sensor⟩ })

/-- The readings held ask for a further step. -/
def State.thermalDue (s : State) : Bool := nextStep s.thermal s.heat.temp s.heat.flow != s.thermal

/-! ## Attestation (R425) -/

/-- Repairs of each kind in use: clusters, SRAM rows, HBM rows (R422). -/
def Fuses.counts (f : Fuses) : List Nat :=
  [(f.repairs.filter fun r => match r with | .cluster .. => true | _ => false).length,
   (f.repairs.filter fun r => match r with | .row .. => true | _ => false).length,
   (f.repairs.filter fun r => match r with | .hbm .. => true | _ => false).length]

/-- Whether the boot ROM accepts the image that it finds (R425): signed by a key whose digest the fuses hold and do not revoke, and of no
version below the fuses'. -/
def Fuses.accepts (f : Fuses) (found : Nat × List Byte × List Byte × List Byte) : Bool :=
  decide (found.1 < 4) && f.keys.getD found.1 [] == shake256 found.2.1 64 && !bit f.revoked.toNat found.1 &&
    decide (f.version ≤ Config.imageVersion found.2.2.1) && edVerify found.2.1 found.2.2.1 found.2.2.2

/-- The measurements of the boot stages, each made by the stage before it; none where verification failed. DEDUCED: log entry 58. -/
def State.measurements (s : State) : List Byte :=
  if s.announced then (Config.imageStages (Config.bootImage s.resets).2.2.1).flatMap fun x => shake256 x 64 else []

/-- The report: the nonce, the measurements, the security version, the repair counts. DESIGN CHOICE and DEDUCED: log entry 58. -/
def State.report (s : State) (nonce : List Byte) : List Byte :=
  nonce ++ s.measurements ++ leBytes 8 (Config.imageVersion (Config.bootImage s.resets).2.2.1) ++ s.fuses.counts.flatMap (leBytes 4)

/-- The private device key that the fused secret yields. PRESUMED: log entry 58. -/
def Fuses.deviceKey (f : Fuses) : List Byte := shake256 f.secret 57

/-- ATTESTATION_REQUEST: the mailbox answers with the report and its signature. -/
def execAttestationRequest (nonce : List (BitVec 8)) (s : State) : Host.Outcome State Fault Refusal :=
  if nonce.length = 64 then .next { s with mailbox := s.report nonce ++ edSign s.fuses.deviceKey (s.report nonce) } else .next s

/-! ## Resets (R9, R422, R426) -/

/-- The package without power or before bring-up: what lies outside it is kept. DEDUCED: log entry 57. -/
def State.cleared (s : State) : State :=
  { State.reset with
    mem := s.mem.filter fun x => decide (2 ^ 51 ≤ x.1)
    farMem := s.farMem
    fuses := s.fuses
    hostClock := s.hostClock
    errors := s.errors
    errNext := s.errNext
    resets := s.resets
    announced := false
    frozen := s.frozen
    pkg := s.pkg
    heat := s.heat
    inputs := s.inputs
    tick := s.tick
    nextAgent := s.nextAgent
    nextId := s.nextId }

/-- A spare of a die may take the place of a failed cluster of that die that has none, if it has taken no other's. -/
def Fuses.mayRepair (f : Fuses) (spare failed : Nat) : Bool :=
  decide (spare < 136) && decide (failed < 136) && spare / 34 == failed / 34 && decide (32 ≤ spare % 34) && decide (failed % 34 < 32) &&
    f.repairs.all fun r => match r with | .cluster x y => x != spare && y != failed | _ => true

/-- A repair may enter the fuses: a cluster's as said; one spare row per 128 rows of an array; a row of HBM once (R415, R422). -/
def Fuses.mayEnter (f : Fuses) : Repair → Bool
  | .cluster spare failed => f.mayRepair spare failed
  | .row array group row => decide (row < 128) && f.repairs.all fun r => match r with | .row a g _ => a != array || g != group | _ => true
  | .hbm stack row => f.repairs.all fun r => match r with | .hbm a b => a != stack || b != row | _ => true

/-- The repairs that the driver asks for at a reset enter the fuses (R3, R415, R422). DESIGN CHOICE: log entry 65. -/
def Fuses.repair (f : Fuses) (n : Nat) : Fuses :=
  (((Config.clusterRepairs n).map fun x => Repair.cluster x.1 x.2) ++ ((Config.rowRepairs n).map fun x => Repair.row x.1 x.2.1 x.2.2) ++
    (Config.hbmRepairs n).map fun x => Repair.hbm x.1 x.2).foldl
    (fun (f : Fuses) r => if f.mayEnter r then { f with repairs := f.repairs ++ [r] } else f) f

/-- Bring-up: fuses are read and repairs applied; the boot ROM verifies the firmware, which announces readiness. DEDUCED: log entry 58. -/
def State.bringUp (s : State) : State :=
  let n := s.resets + 1
  let f := s.fuses.repair n
  { s.cleared with resets := n, fuses := f, clusterMap := f.map, announced := f.accepts (Config.bootImage n), frozen := false }

/-- COLD_RESET: the one way out of a freeze. -/
def execColdReset (s : State) : Host.Outcome State Fault Refusal := .next s.bringUp

/-- WARM_RESET: Contrail is kept. A frozen package does not take it. -/
def execWarmReset (s : State) : Host.Outcome State Fault Refusal :=
  if s.frozen then .next s else .next { s.bringUp with contrail := s.contrail }

/-- POWER_OFF: what the package held ends. DEDUCED: log entry 57. -/
def execPowerOff (s : State) : Host.Outcome State Fault Refusal := .next s.cleared

end Sys2Proof.Machine
end

