-- ==== Sys2Proof/Machine/Fetch.lean ====
section
/-! DEFINITION. Fetching and decoding the word at a slot's PC (R31, R32, R56-R58). -/

namespace Sys2Proof.Machine

open Sys2Proof

/-- The word at a PC, or the fetch fault (R32). Instructions are not fetched from REMOTE pages (DEDUCED, log entry 20). -/
def State.fetchWord (s : State) (ctx tlb : Nat) (pc : Word) : Except Trap Word32 :=
  let a := pc.toNat
  if !canonicalVa a then .error (memTrap .page 1 pc)
  else
    match s.translate ctx tlb (va57 a) with
    | .error n => .error (memTrap .page n pc)
    | .ok t =>
      let pa := t.pa + (va57 a - t.base)
      if inHole pa then .error (memTrap .prot 3 pc)
      else if !t.x then .error (memTrap .prot 1 pc)
      else if t.remote.isSome then .error (memTrap .prot 6 pc)
      else if s.isPoisoned pa then .error (memTrap .ecc 1 pc)
      else .ok (BitVec.ofNat 32 (s.num (paLoc pa) 4))

/-- What issuing from a slot comes to: an instruction to run, with its issuer marked, or a state in which the trap has been taken. -/
inductive Fetched where
  | run (i : Instr) (s : State)
  | trapped (s : State)

/-- The sub-code of a word that is no instruction. The part of a VCVT, which depends on MODE.TYPE, is sub-code 4 and ranks before what
another field of the word raises (R57, R104). -/
def wordIllop (mode : BitVec 14) (w : Word32) (e : Illop) : Nat :=
  let b := (fB w).toNat
  if fOp w == 0x20 && decide (0x50 ≤ b) && decide (b < 0x60)
    && decide (widthRatio (elemTypeOf ((fB w).setWidth 4)) (modeType mode) ≤ (fX w).toNat) then Illop.xval.code
  else e.code

/-- Fetches and decodes at a slot (R58: a fetch fault ranks before ILLOP). DEDUCED: log entry 20. -/
def State.fetch (s : State) (gr : GRef) (slotB : Bool) : Fetched :=
  match s.block? gr.blk, s.group? gr with
  | some b, some g =>
    let core := coreOf (b.place.getD 0) gr.grp
    let s := s.issueCore core gr slotB
    let sl := g.slot slotB
    let rep := match sl.modex with | some m => m.2 | none => sl.pc
    match s.fetchWord b.ctx core sl.pc with
    | .error t => .trapped (s.raise gr slotB false rep t [])
    | .ok w =>
      match decode w with
      | .error e =>
        let mode := match sl.modex with | some m => m.1 | none => g.mode
        .trapped (s.raise gr slotB false rep (illopTrap (wordIllop mode w e)) [])
      | .ok i => .run i { s with cur := some ⟨gr, slotB, w⟩ }
  | _, _ => .trapped s

end Sys2Proof.Machine
end

