-- ==== Sys2Proof/Machine/Sched.lean ====
section
/-! DEFINITION. What the package may do next: the events from outside, the events of its own units, the instruction that each core issues; the
choice among them; and what every step does at its end (R5, R224-R227, R253). -/

namespace Sys2Proof.Machine

open Sys2Proof

/-- What a step carries out: an event from outside, an event of the package's own, the issue of an instruction on a core, or
a piece of a commit or rollback. -/
inductive Action where
  | input (i : Instr)
  | event (i : Instr)
  | issue (core : Nat)
  /-- A piece of what a commit or a rollback has left to do. -/
  | recover
deriving DecidableEq, Repr

/-! ## Events from outside -/

/-- The events that the host, the driver, other packages and the package's surroundings bring about. -/
def isExternal : Instr → Bool
  | .pageTableWalk .. | .suspension _ | .driverKill _ | .contextDestroy _ | .queueResume .. | .taggedMessage .. | .frameReceive _ | .bridgeFailure ..
  | .hostAccess .. | .contextDescriptorWrite .. | .capabilityTableWrite .. | .shootdown _ | .errorDetected _ | .freeze _ | .tapFreeze | .testPortReadout
  | .thermalStep .. | .attestationRequest _ | .coldReset | .warmReset | .linkTraining _ | .connectionReestablished _ | .queueBinding ..
  | .contextCreation .. | .powerOff => true
  | _ => false

/-- What a frozen package still takes (R421). DEDUCED: log entry 59. -/
def whileFrozen : Instr → Bool
  | .coldReset | .testPortReadout | .powerOff => true
  | _ => false

/-- What a package takes whose firmware has not announced readiness (R425, R426). DEDUCED: log entry 59. -/
def beforeReady : Instr → Bool
  | .hostAccess _ pa _ => decide (2 ^ 51 ≤ pa)
  | .coldReset | .warmReset | .powerOff | .attestationRequest _ | .freeze _ | .tapFreeze => true
  | _ => false

/-- Whether an event from outside may occur now; one that may not is lost. DESIGN CHOICE and DEDUCED: log entries 4, 59. -/
def State.admits (s : State) (i : Instr) : Bool :=
  isExternal i && (if s.frozen then whileFrozen i else s.announced || beforeReady i)

/-- What a package takes while a commit or a rollback is under way: what stops it where it stands, and a second error (R418, R421). -/
def whileRecovering : Instr → Bool
  | .freeze _ | .tapFreeze | .errorDetected _ | .bridgeFailure .. | .thermalStep .. | .coldReset | .warmReset | .powerOff => true
  | _ => false

/-- The next event from outside, where it is one that may come now. -/
def State.nextInput (s : State) : List Action :=
  (s.inputs.head?.toList.filter fun i => !s.recovering || whileRecovering i).map .input

/-! ## Events of the package's own -/

def grefs (b : Block) : List (GRef × Group) := b.groups.zipIdx.map fun x => (⟨b.id, x.2⟩, x.1)

/-- Accesses to accept or to perform, loads and CPA transfers to complete, traps of engine operations, retirements. -/
def State.groupEvents (s : State) (b : Block) : List Instr :=
  (grefs b).flatMap fun x =>
    let g := x.2
    let runs := b.place.isSome && !b.aborted && !g.retired
    let access := g.memq.zipIdx.flatMap fun m =>
      if m.1.accepted then (if m.1.todo = 0 then [] else [.accessPerform x.1 m.2 (Config.lanes s.tick)])
      else if runs && !g.awaitsHome && (g.memq.take m.2).all (·.accepted) then [.accessPerform x.1 m.2 0] else []
    let load := match g.memq.find? fun m => isLoad m.instr with
      | some m => if m.accepted && m.todo == 0 then [.loadComplete x.1] else []
      | none => []
    let cpa := g.cpas.zipIdx.flatMap fun c => if c.1.done then [] else [.cpaTransferComplete x.1 c.2]
    let trap := if runs && !g.parked && !g.stopped.isEmpty then [.trapEntry x.1] else []
    let retire := if runs && g.live == 0 && g.quiet && g.cpas.all (·.done) then [.groupRetire x.1] else []
    access ++ load ++ cpa ++ trap ++ retire

/-- Engine operations to start, to carry on and to complete. -/
def State.engineEvents (s : State) (b : Block) : List Instr :=
  (b.ops.flatMap fun o =>
    match o.state with
    | .queued =>
      if o.tl = 1 then (if b.mayStart1 o then [.matrixOpStart b.id o.num] else [])
      else if o.tl = 0 then (if b.copyReady o then o.parts.map fun p => .copyRow b.id o.num p.grp else [])
      else if o.tl = 3 then (if (b.before3 o).all EngOp.isDone then [.vgcmdStart b.id o.num] else [])
      else []
    | .running => if o.tl = 0 then o.parts.map fun p => .copyRow b.id o.num p.grp else []
    | .worked => [.engineOpComplete b.id (4 * o.num + o.tl)]
    | _ => []) ++
  (if b.place.isSome && !b.stepping.isEmpty then [.matrixStep b.id] else []) ++
  (if b.place.isSome && b.nextPlane.isSome && b.planeSt.isSome then [.planeOp b.id] else []) ++
  (if s.binJobs.any fun x => x.blk == b.id then [.binningJob b.id] else [])

/-- Virga engines, their windows, and merges. -/
def State.virgaEvents (s : State) : List Instr :=
  (s.vgcmds.flatMap fun c =>
    if c.code != 0 || c.parts.all (·.done) then [.virgaMerge c.blk c.num]
    else (c.parts.filter fun p => !p.done && SMap.get 0 s.banks p.chan != 2).map fun p => .virgaWave c.blk c.num p.chan) ++
  s.banks.flatMap fun x => if x.2 = 1 then [.virgaWindowEnd x.1] else [.bankServiceEnd x.1]

/-- One of the clusters on which a candidate may start; which one is open. -/
def State.pickCluster (s : State) (c : Cand) : Option Nat :=
  let cl := (List.range 128).filter fun n => (s.startable c n).isSome
  match cl with
  | [] => none
  | [n] => some n
  | _ => cl[Config.cluster s.tick % cl.length]?

/-- What Zenith starts next. -/
def State.startEvents (s : State) : List Instr :=
  let s := s.refilled
  match s.nextCand with
  | none => []
  | some c =>
    match c.work with
    | .block .. => (s.pickCluster c).toList.map .blockStart
    | .saved blk => (s.pickCluster c).toList.map (.restoration blk)
    | .handler k => [.handlerStart k]

/-- Zenith's other work: holds, displacement, saves, evictions, ordered adds, completions. -/
def State.zenithEvents (s : State) : List Instr :=
  s.startEvents ++
  (if s.holdDue.isSome || !s.saveDue.isEmpty then [.candidateHold] else []) ++
  (if s.displacement.isSome then [.pri0Displacement] else []) ++
  (s.blocks.flatMap fun b =>
    (match b.preempt with
     | some t => if b.place.isNone || b.aborted then [] else .preemption b.id :: (if t + patience ≤ s.cycle then [.forcedPreemption b.id] else [])
     | none => []) ++
    (if (s.members b.span).all s.evictable then [.eviction b.id] else [])) ++
  s.grids.flatMap fun g => (if g.contribs.isEmpty then [] else [.atomoApplication g.gid]) ++ (if s.gridOver g then [.completionWrite g.gid] else [])

/-- The event by which a message arrives. -/
def State.messageEvent (s : State) (k : Nat) (m : Msg) : Instr :=
  match m.body with
  | .place .. => .invocationArrival k
  | .toHandle _ _ via _ => if via.isEmpty then .invocationArrival k else .forwardArrival k
  | .wait .. => .hwaitRegistration k
  | .answer r _ _ => if s.asked r then .homeAnswer k else .hwaitAnswer k
  | .refuse .. | .query .. => .homeAnswer k
  | .resolve .. => .resolutionArrival k
  | .forward .. => .forwardArrival k
  | .brk .. => .breakArrival k
  | .probe .. => .forwardProbe k
  | .free .. => .hfreeArrival k

/-- Messages, queues, rings and connections. -/
def State.fabricEvents (s : State) : List Instr :=
  (s.msgs.zipIdx.filterMap fun x => if (s.arrival x.2).isSome then some (s.messageEvent x.2 x.1) else none) ++
  ((s.queues.filter s.ringRuns).map fun r => .hostQueueRecord r.q) ++
  ((s.rings.filter s.ringRuns).map fun r => .sendRingDescriptor r.q) ++
  (s.conns.filter fun c => !c.failed && !c.unacked.isEmpty).flatMap fun c =>
    (if c.unacked.any fun f => decide (f.2.2 + 20000 ≤ s.ns) && decide (f.2.1 < 64) then [.retransmit c.pkg] else []) ++
    (if c.ackAt + 10000000 ≤ s.ns ∨ (c.unacked.head?.any fun f => f.2.1 == 64) then [.connectionFailure c.pkg] else [])

/-- Cores that hold placed groups. -/
def State.activeCores (s : State) : List Nat :=
  (s.blocks.flatMap fun b =>
    match b.place with
    | some c => if b.aborted then [] else (List.range b.groups.length).map (coreOf c)
    | none => []).eraseDups

/-- A ready group has waited a quantum on the core, or it executes and the core has not issued for one: its issue is due within a second quantum
(R227, R233). -/
def State.overdue (s : State) (core : Nat) : Bool :=
  (s.rivals core).any fun r => decide (quantum ≤ r.wait) &&
    ((s.core core).fresh || (s.core core).cur.map (·.1) != some r.gr || decide ((s.core core).issued + quantum ≤ s.cycle))

/-- The events that the package's own units may carry out now. DESIGN CHOICE: log entry 2. -/
def State.derived (s : State) : List Instr :=
  (s.blocks.flatMap fun b => s.groupEvents b ++ s.engineEvents b) ++ s.virgaEvents ++ s.zenithEvents ++ s.fabricEvents ++
    ((s.activeCores.filter fun c => (s.switchTo c).isSome).map .quantumSwitch) ++
    (if s.thermalDue then [.thermalStep ⟨s.heat.temp, s.heat.flow⟩ s.heat.sensor] else [])

/-! ## The choice -/

/-- What Zenith does at once: holds that are due (R342), displacement and the start of a PRI 0 candidate that fits (R344). -/
def State.urgentStarts (s : State) : List Instr :=
  if s.cands.isEmpty then []
  else if s.holdDue.isSome || !s.saveDue.isEmpty then [.candidateHold]
  else if s.displacement.isSome then [.pri0Displacement]
  else if s.refilled.nextCand.any fun c => c.pri == 0 then s.startEvents
  else []

/-- Stops for a save that are due: a group at its boundary (R400), one that has waited too long for it (R402), a block that may be written. -/
def State.urgentStops (s : State) : List Instr :=
  s.blocks.flatMap fun b =>
    match b.preempt with
    | some t =>
      if b.place.isNone || b.aborted then []
      else if b.savable || b.groups.any fun g => !g.parked && !g.retired && g.atBoundary then [.preemption b.id]
      else if decide (t + patience ≤ s.cycle) && b.groups.any fun g => g.mayForce s.cycle then [.forcedPreemption b.id]
      else []
    | none => []

/-- A commit that may come comes before anything else (R416, R419); so does a parity error that an operation's read is about to meet (R285). -/
def State.urgentChecks (s : State) : List Instr :=
  (if s.ctxs.any fun c => (s.lastEpoch c).isSome then [.checkpointCommit] else []) ++
    (s.parity.filter fun e => s.blocks.any fun b => b.place == some e.inst.toNat && (s.cellReader b).isSome).map .errorDetected

/-- What cores do at once on which a group has waited a quantum: the quantum switch, or the executing slot's next instruction up to it (R227); and
what Zenith does at once. DESIGN CHOICE: log entry 2. -/
def State.urgent (s : State) : List Action :=
  (s.urgentChecks ++ s.urgentStops ++ s.urgentStarts).map .event ++
    (s.activeCores.filter s.overdue).flatMap fun c =>
      if (s.switchTo c).isSome then [.event (.quantumSwitch c)] else if (s.issueSlot c).isSome then [.issue c] else []

/-- Everything that may be carried out now: what a commit has left to discard before anything else; what a rollback has left to do, the first event
from outside, the package's own events, the cores' instructions. A core makes a quantum switch before it issues again (R227). -/
def State.plan (s : State) : List Action :=
  if s.frozen || !s.announced then s.inputs.head?.toList.map .input
  else if s.discarding then .recover :: s.nextInput
  else if !s.urgent.isEmpty then s.urgent
  else
    (if s.recovering then [.recover] else []) ++ s.nextInput ++ s.derived.map .event ++
      (s.activeCores.filter fun c => (s.issueSlot c).isSome && (s.switchTo c).isNone).map .issue

/-- What the step carries out: agents are independent, and which goes first is open (R253). DESIGN CHOICE: log entry 2. -/
def State.choice (s : State) : Option Action :=
  match s.plan with
  | [] => none
  | [a] => some a
  | as => as[Config.pick s.tick % as.length]?

/-! ## The end of a step -/

/-- The block has a t0-t2 operation in flight, an outstanding load or CPA, or a drain row unread (R351). -/
def Block.busy (b : Block) : Bool :=
  (b.groups.any fun g => !g.memq.isEmpty || g.cpas.any fun c => !c.done) || b.ops.any fun o => o.tl != 3 && !o.isDone

/-- Notes which groups are ready, the wait of one that has become so starting now (R225), and since when blocks have nothing under way (R351). -/
def State.noteReady (s : State) : State :=
  { s with blocks := s.blocks.map fun (b : Block) =>
      { b with quiet := if b.busy then none else some (b.quiet.getD s.cycle), groups := b.groups.zipIdx.map fun x =>
          let r := b.place.isSome && s.groupReady b x.1 x.2
          { x.1 with ready := r, since := if r && !x.1.ready then s.cycle else x.1.since } } }

/-- An aborted block has ended: what it had under way has run out (R399). -/
def State.ended (s : State) (b : Block) : Bool :=
  b.aborted && (b.groups.all fun g => (g.memq.all fun m => m.todo == 0) && g.cpas.all (·.done)) && b.ops.all EngOp.isDone &&
    !s.vgcmds.any fun c => c.blk == b.id

/-- The cycles that a step takes beyond one: none while a core owes a group its issue, less than half a quantum while a group is ready (R227). -/
def State.stepCycles (s : State) : Nat :=
  if s.activeCores.any s.overdue then 0
  else if s.blocks.any fun b => b.groups.any (·.ready) then min (quantum / 2 - 1) (Config.cycles s.tick)
  else Config.cycles s.tick

/-- Time passes. A frozen package's clocks stand (R421). DESIGN CHOICE: log entry 2. -/
def State.passTime (s : State) : State :=
  if s.frozen then { s with tick := s.tick + 1 }
  else
    let c := s.cycle + 1 + s.stepCycles
    { s with tick := s.tick + 1, cycle := c, ns := c * 10 / 19 }

/-- What every step does at its end: messages for other packages leave, aborted blocks go, and time passes. -/
def State.after (s : State) : State :=
  let s := { s with cur := none }
  if s.frozen then s.passTime else (s.flushFar.dropBlocks s.ended).passTime.noteReady.noteFirst

def afterwards (o : Host.Outcome State Fault Refusal) : Host.Outcome State Fault Refusal :=
  match o with
  | .next s => .next s.after
  | .fault f => .fault f
  | .refused r => .refused r

end Sys2Proof.Machine
end

