-- ==== Sys2Proof/Machine/Boot.lean ====
section
/-! DEFINITION. A program placed from outside: the context, the page tables and the one group that run an instruction stored at the place
where the next step fetches (DESIGN CHOICE, log entry 30). -/

namespace Sys2Proof.Machine

open Sys2Proof

/-- Where the placed program's tables and code stand: level 3, level 2, and the PC. The level-2 table maps 1 GiB from address 0 on to itself, readable,
writable and executable. -/
def bootTop : Nat := 0x200000
def bootMid : Nat := 0x400000
def bootPc : Nat := 0x10000

def State.bootTables (s : State) : State :=
  (s.setBytes (paLoc bootTop) (leBytes 8 bootMid)).setBytes (paLoc bootMid) (leBytes 8 0xF)

/-- The context that runs the placed program. -/
def bootCtx : Context := { Context.fresh 0 with ptroot := bootTop, prio := 1, weight := 1, credit := 1 }

/-- The block that runs it: one group of 32 lanes on cluster 0, with plane and typed buffers, and one KiB of SP in each slice. -/
def State.bootBlock (s : State) : State :=
  let id := s.nextId
  let n : Need := ⟨1, 64, 1024, true, true, false⟩
  let g := freshGroup 64 0 (-1) 0 (BitVec.ofNat 64 bootPc) 0 0 0 0 s.nextAgent s.cycle []
  let b := { freshBlock id 0 0 0 n 1 id 0 (id + 1) 0 1 with groups := [{ g with ready := true }] }
  { s with
    ctxs := bootCtx :: s.ctxs.filter fun c => c.num != 0
    blocks := [b]
    spans := [⟨id + 1, [id], [], [], []⟩]
    nextId := id + 2
    nextAgent := s.nextAgent + 1 }

/-- The place from which a core fetches next. -/
def State.fetchPlace (s : State) (core : Nat) : Option Loc :=
  match s.issueSlot core with
  | none => none
  | some (gr, sb) =>
    match s.block? gr.blk, s.group? gr with
    | some b, some g =>
      let a := va57 (g.slot sb).pc.toNat
      match s.translate b.ctx core a with
      | .ok t => some (paLoc (t.pa + (a - t.base)))
      | .error _ => none
    | _, _ => none

/-- Stores a word where the first core that can issue fetches it. -/
def State.storeFetched (s : State) (w : Nat) : State :=
  match s.activeCores.findSome? s.fetchPlace with
  | some l => s.setBytes l (leBytes 4 w)
  | none => s

end Sys2Proof.Machine
end

