-- ==== Sys2Proof/Machine/Scalar.lean ====
section
/-! DEFINITION. The scalar family (R118-R120) and the predicate family (R121, R122). -/

namespace Sys2Proof.Machine

open Sys2Proof

/-! ## The shape of a scalar instruction (R118) -/

/-- Checks, the stall of R129, then the result into D and L0. No flag is set. -/
def Iss.scalar (i : Iss) (d : Dst) (srcs : List Src) (x : Word) : Res :=
  orTrap (i.checkSca .i64 srcs) fun _ =>
    if i.g.destBusy i.sl.wb [] (dstRegs d) then i.stall else i.group (i.putS d x 0)

def Iss.sca1 (i : Iss) (d : Dst) (a : Src) (f : Word → Word) : Res := i.scalar d [a] (f (i.uni a))

def Iss.sca2 (i : Iss) (d : Dst) (a b : Src) (f : Word → Word → Word) : Res := i.scalar d [a, b] (f (i.uni a) (i.uni b))

/-! ## Arithmetic -/

def execSadd (d : Dst) (a b : Src) (s : State) : Host.Outcome State Fault Refusal :=
  s.run fun i => i.sca2 d a b (· + ·)

def execSsub (d : Dst) (a b : Src) (s : State) : Host.Outcome State Fault Refusal :=
  s.run fun i => i.sca2 d a b (· - ·)

def execSmul (d : Dst) (a b : Src) (s : State) : Host.Outcome State Fault Refusal :=
  s.run fun i => i.sca2 d a b (· * ·)

/-- The high half of the 128-bit product. -/
def mulHigh (u : Bool) (a b : Word) : Word :=
  if u then BitVec.ofNat 64 (a.toNat * b.toNat / 2 ^ 64) else BitVec.ofInt 64 (a.toInt * b.toInt / 2 ^ 64)

def execSmulh (d : Dst) (a b : Src) (u : Bool) (s : State) : Host.Outcome State Fault Refusal :=
  s.run fun i => i.sca2 d a b (mulHigh u)

def execSmad (d : Dst) (a b : Src) (s : State) : Host.Outcome State Fault Refusal :=
  s.run fun i => i.sca2 d a b fun x y => x * y + i.oldS d

/-- R119: truncated quotient; by 0, all ones. -/
def divWord (u : Bool) (a b : Word) : Word :=
  if b = 0 then BitVec.ofInt 64 (-1)
  else if u then BitVec.ofNat 64 (a.toNat / b.toNat)
  else BitVec.ofInt 64 (a.toInt.tdiv b.toInt)

/-- R119: remainder with the sign of a; by 0, a. -/
def remWord (u : Bool) (a b : Word) : Word :=
  if b = 0 then a
  else if u then BitVec.ofNat 64 (a.toNat % b.toNat)
  else BitVec.ofInt 64 (a.toInt.tmod b.toInt)

def execSdiv (d : Dst) (a b : Src) (u : Bool) (s : State) : Host.Outcome State Fault Refusal :=
  s.run fun i => i.sca2 d a b (divWord u)

def execSrem (d : Dst) (a b : Src) (u : Bool) (s : State) : Host.Outcome State Fault Refusal :=
  s.run fun i => i.sca2 d a b (remWord u)

def execSand (d : Dst) (a b : Src) (s : State) : Host.Outcome State Fault Refusal :=
  s.run fun i => i.sca2 d a b (· &&& ·)

def execSor (d : Dst) (a b : Src) (s : State) : Host.Outcome State Fault Refusal :=
  s.run fun i => i.sca2 d a b (· ||| ·)

def execSxor (d : Dst) (a b : Src) (s : State) : Host.Outcome State Fault Refusal :=
  s.run fun i => i.sca2 d a b (· ^^^ ·)

def execSnot (d : Dst) (a : Src) (s : State) : Host.Outcome State Fault Refusal :=
  s.run fun i => i.sca1 d a (~~~ ·)

/-! ## Shifts and bits -/

/-- A count of 64 or more shifts everything out. -/
def shiftLeft (a b : Word) : Word := if 64 ≤ b.toNat then 0 else a <<< b.toNat

def shiftRight (logical : Bool) (a b : Word) : Word :=
  let n := min b.toNat 64
  if logical then a >>> n else BitVec.sshiftRight a n

def execSshl (d : Dst) (a b : Src) (s : State) : Host.Outcome State Fault Refusal :=
  s.run fun i => i.sca2 d a b shiftLeft

def execSshr (d : Dst) (a b : Src) (u : Bool) (s : State) : Host.Outcome State Fault Refusal :=
  s.run fun i => i.sca2 d a b (shiftRight u)

def execSrot (d : Dst) (a b : Src) (s : State) : Host.Outcome State Fault Refusal :=
  s.run fun i => i.sca2 d a b fun x y => x.rotateLeft (y.toNat % 64)

def execSmin (d : Dst) (a b : Src) (u : Bool) (s : State) : Host.Outcome State Fault Refusal :=
  s.run fun i => i.sca2 d a b fun x y => if (if u then y.ult x else y.slt x) then y else x

def execSmax (d : Dst) (a b : Src) (u : Bool) (s : State) : Host.Outcome State Fault Refusal :=
  s.run fun i => i.sca2 d a b fun x y => if (if u then x.ult y else x.slt y) then y else x

def execSpopc (d : Dst) (a : Src) (s : State) : Host.Outcome State Fault Refusal :=
  s.run fun i => i.sca1 d a fun x => BitVec.ofNat 64 (countOnes 64 x.toNat)

def execSclz (d : Dst) (a : Src) (s : State) : Host.Outcome State Fault Refusal :=
  s.run fun i => i.sca1 d a fun x => BitVec.ofNat 64 (leadingZeros 64 x.toNat)

/-- The conditions of SCMP. -/
def scalarCond (c : SCond) (a b : Word) : Bool :=
  match c with
  | .eq => a == b
  | .ne => a != b
  | .lt => a.slt b
  | .le => a.sle b
  | .gt => b.slt a
  | .ge => b.sle a
  | .ltu => a.ult b
  | .geu => b.ule a

def boolWord (b : Bool) : Word := if b then 1 else 0

def execScmp (d : Dst) (a b : Src) (c : SCond) (s : State) : Host.Outcome State Fault Refusal :=
  s.run fun i => i.sca2 d a b fun x y => boolWord (scalarCond c x y)

def execSsel (d : Dst) (a b : Src) (s : State) : Host.Outcome State Fault Refusal :=
  s.run fun i => i.sca2 d a b fun x y => if i.oldS d ≠ 0 then x else y

def execSmov (d : Dst) (a : Src) (s : State) : Host.Outcome State Fault Refusal :=
  s.run fun i => i.sca1 d a id

def execSaddi (d : Dst) (a : Src) (v : BitVec 10) (s : State) : Host.Outcome State Fault Refusal :=
  s.run fun i => i.sca1 d a (· + v.signExtend 64)

def execSmovi (d : Dst) (v : BitVec 10) (s : State) : Host.Outcome State Fault Refusal :=
  s.run fun i => i.scalar d [] (v.signExtend 64)

def execSshi (d : Dst) (v : BitVec 10) (s : State) : Host.Outcome State Fault Refusal :=
  s.run fun i => i.scalar d [] ((i.oldS d <<< 10) ||| v.setWidth 64)

def execSlea (d : Dst) (a b : Src) (n : BitVec 3) (s : State) : Host.Outcome State Fault Refusal :=
  s.run fun i => i.sca2 d a b fun x y => x + (y <<< n.toNat)

/-- The extensions of SEXT. -/
def extend (t : ExtKind) (a : Word) : Word :=
  match t with
  | .i8 => (a.setWidth 8).signExtend 64
  | .i16 => (a.setWidth 16).signExtend 64
  | .i32 => (a.setWidth 32).signExtend 64
  | .n8 => (a.setWidth 8).setWidth 64
  | .n16 => (a.setWidth 16).setWidth 64
  | .n32 => (a.setWidth 32).setWidth 64

def execSext (d : Dst) (a : Src) (t : ExtKind) (s : State) : Host.Outcome State Fault Refusal :=
  s.run fun i => i.sca1 d a (extend t)

/-! ## Bit fields (R120) -/

def fieldPos (b : Word) : Nat := bits b.toNat 0 6
def fieldLen (b : Word) : Nat := bits b.toNat 8 6 + 1

/-- SBFX. -/
def fieldGet (sgn : Bool) (a b : Word) : Word :=
  let n := fieldLen b
  let x := bits a.toNat (fieldPos b) n
  if sgn && bit x (n - 1) then BitVec.ofInt 64 ((x : Int) - 2 ^ n) else BitVec.ofNat 64 x

/-- SBFI. -/
def fieldPut (d a b : Word) : Word :=
  let m : Word := BitVec.ofNat 64 ((2 ^ fieldLen b - 1) * 2 ^ fieldPos b)
  (d &&& ~~~ m) ||| ((a <<< fieldPos b) &&& m)

def execSbfx (d : Dst) (a b : Src) (sg : Bool) (s : State) : Host.Outcome State Fault Refusal :=
  s.run fun i => i.sca2 d a b (fieldGet sg)

def execSbfi (d : Dst) (a b : Src) (s : State) : Host.Outcome State Fault Refusal :=
  s.run fun i => i.sca2 d a b (fieldPut (i.oldS d))

/-! ## Predicates (R121, R122) -/

/-- Active lanes of P[d] take x; the others keep their bits. -/
def Iss.putP (i : Iss) (d : BitVec 5) (x : Lanes) : Res :=
  i.group (i.g.wrP d.toNat ((i.g.rdP d.toNat &&& ~~~ i.active) ||| (x &&& i.active)))

def Iss.pr (i : Iss) (a : BitVec 5) : Lanes := i.g.rdP a.toNat

/-- P[b], inverted under `.n`. -/
def Iss.prN (i : Iss) (b : BitVec 5) (n : Bool) : Lanes := if n then ~~~ i.pr b else i.pr b

def execPand (d a b : BitVec 5) (n : Bool) (s : State) : Host.Outcome State Fault Refusal :=
  s.run fun i => i.putP d (i.pr a &&& i.prN b n)

def execPor (d a b : BitVec 5) (n : Bool) (s : State) : Host.Outcome State Fault Refusal :=
  s.run fun i => i.putP d (i.pr a ||| i.prN b n)

def execPxor (d a b : BitVec 5) (n : Bool) (s : State) : Host.Outcome State Fault Refusal :=
  s.run fun i => i.putP d (i.pr a ^^^ i.prN b n)

def execPnot (d a : BitVec 5) (s : State) : Host.Outcome State Fault Refusal :=
  s.run fun i => i.putP d (~~~ i.pr a)

def execPmov (d a : BitVec 5) (s : State) : Host.Outcome State Fault Refusal :=
  s.run fun i => i.putP d (i.pr a)

def execPsetm (d : BitVec 5) (a : Src) (s : State) : Host.Outcome State Fault Refusal :=
  s.run fun i => orTrap (i.checkSca .i64 [a]) fun _ => i.group (i.g.wrP d.toNat ((i.uni a).setWidth 32))

/-- An S register outside the arithmetic class; a load under way to it holds the instruction back (R129). -/
def Iss.putPlain (i : Iss) (d : BitVec 6) (x : Word) : Res :=
  if i.g.destBusy i.sl.wb [] [d.toNat] then i.stall else i.group (i.g.wrS i.sl.wb d.toNat x)

def execPgetm (d : BitVec 6) (a : BitVec 5) (m : Bool) (s : State) : Host.Outcome State Fault Refusal :=
  s.run fun i => i.putPlain d ((if m then i.pr a &&& i.active else i.pr a).setWidth 64)

/-- The lanes of the slot's mask whose terms PANY, PALL and PCNT take: helper lanes are absent (R122, R217). -/
def Iss.terms (i : Iss) : Lanes := i.active &&& ~~~ i.g.helper

def execPany (d : BitVec 6) (a : BitVec 5) (s : State) : Host.Outcome State Fault Refusal :=
  s.run fun i => i.putPlain d (boolWord (i.pr a &&& i.terms != 0))

def execPall (d : BitVec 6) (a : BitVec 5) (s : State) : Host.Outcome State Fault Refusal :=
  s.run fun i => i.putPlain d (boolWord (~~~ i.pr a &&& i.terms == 0))

def execPcnt (d : BitVec 6) (a : BitVec 5) (s : State) : Host.Outcome State Fault Refusal :=
  s.run fun i => i.putPlain d (BitVec.ofNat 64 (popcount (i.pr a &&& i.terms)))

end Sys2Proof.Machine
end

