-- ==== Sys2Proof/Machine/Dispatch.lean ====
section
/-! DEFINITION. What the machine does with each instruction and each event: one call of its meaning. -/

namespace Sys2Proof.Machine

open Sys2Proof

def exec (i : Instr) (s : State) : Host.Outcome State Fault Refusal :=
  match i with
  | .ill ones iv => Sys2Proof.Machine.execIll ones iv s
  | .vadd d a b => Sys2Proof.Machine.execVadd d a b s
  | .vsub d a b => Sys2Proof.Machine.execVsub d a b s
  | .vmul d a b => Sys2Proof.Machine.execVmul d a b s
  | .vmad d a b => Sys2Proof.Machine.execVmad d a b s
  | .vmadn d a b => Sys2Proof.Machine.execVmadn d a b s
  | .vmin d a b => Sys2Proof.Machine.execVmin d a b s
  | .vmax d a b => Sys2Proof.Machine.execVmax d a b s
  | .vabs d a => Sys2Proof.Machine.execVabs d a s
  | .vneg d a => Sys2Proof.Machine.execVneg d a s
  | .vclmp d a b => Sys2Proof.Machine.execVclmp d a b s
  | .vand d a b => Sys2Proof.Machine.execVand d a b s
  | .vor d a b => Sys2Proof.Machine.execVor d a b s
  | .vxor d a b => Sys2Proof.Machine.execVxor d a b s
  | .vnot d a => Sys2Proof.Machine.execVnot d a s
  | .vshl d a b => Sys2Proof.Machine.execVshl d a b s
  | .vshr d a b r => Sys2Proof.Machine.execVshr d a b r s
  | .vrot d a b => Sys2Proof.Machine.execVrot d a b s
  | .vpopc d a => Sys2Proof.Machine.execVpopc d a s
  | .vclz d a => Sys2Proof.Machine.execVclz d a s
  | .vmulh d a b => Sys2Proof.Machine.execVmulh d a b s
  | .vabd d a b => Sys2Proof.Machine.execVabd d a b s
  | .vcmp d a b c => Sys2Proof.Machine.execVcmp d a b c s
  | .vsel d a b => Sys2Proof.Machine.execVsel d a b s
  | .vmov d a => Sys2Proof.Machine.execVmov d a s
  | .vaddi d a iv => Sys2Proof.Machine.execVaddi d a iv s
  | .vmovi d iv => Sys2Proof.Machine.execVmovi d iv s
  | .vdot d a b => Sys2Proof.Machine.execVdot d a b s
  | .vhsum d a => Sys2Proof.Machine.execVhsum d a s
  | .vpack d a b h => Sys2Proof.Machine.execVpack d a b h s
  | .vunpk d a b h => Sys2Proof.Machine.execVunpk d a b h s
  | .vcvt d a st p => Sys2Proof.Machine.execVcvt d a st p s
  | .vrint d a nx => Sys2Proof.Machine.execVrint d a nx s
  | .vcpys d a b => Sys2Proof.Machine.execVcpys d a b s
  | .vfcls d a => Sys2Proof.Machine.execVfcls d a s
  | .vrcp d a => Sys2Proof.Machine.execVrcp d a s
  | .vrsq d a => Sys2Proof.Machine.execVrsq d a s
  | .vsqrt d a => Sys2Proof.Machine.execVsqrt d a s
  | .vdiv d a b => Sys2Proof.Machine.execVdiv d a b s
  | .vex2 d a => Sys2Proof.Machine.execVex2 d a s
  | .vlg2 d a => Sys2Proof.Machine.execVlg2 d a s
  | .vsinp d a => Sys2Proof.Machine.execVsinp d a s
  | .vcosp d a => Sys2Proof.Machine.execVcosp d a s
  | .vtanh d a => Sys2Proof.Machine.execVtanh d a s
  | .vperm d a b => Sys2Proof.Machine.execVperm d a b s
  | .vbcst d a b => Sys2Proof.Machine.execVbcst d a b s
  | .vslid d a b r => Sys2Proof.Machine.execVslid d a b r s
  | .vred d a b p => Sys2Proof.Machine.execVred d a b p s
  | .vscan d a b p ex => Sys2Proof.Machine.execVscan d a b p ex s
  | .vbal d a c => Sys2Proof.Machine.execVbal d a c s
  | .sadd d a b => Sys2Proof.Machine.execSadd d a b s
  | .ssub d a b => Sys2Proof.Machine.execSsub d a b s
  | .smul d a b => Sys2Proof.Machine.execSmul d a b s
  | .smulh d a b u => Sys2Proof.Machine.execSmulh d a b u s
  | .smad d a b => Sys2Proof.Machine.execSmad d a b s
  | .sdiv d a b u => Sys2Proof.Machine.execSdiv d a b u s
  | .srem d a b u => Sys2Proof.Machine.execSrem d a b u s
  | .sand d a b => Sys2Proof.Machine.execSand d a b s
  | .sor d a b => Sys2Proof.Machine.execSor d a b s
  | .sxor d a b => Sys2Proof.Machine.execSxor d a b s
  | .snot d a => Sys2Proof.Machine.execSnot d a s
  | .sshl d a b => Sys2Proof.Machine.execSshl d a b s
  | .sshr d a b u => Sys2Proof.Machine.execSshr d a b u s
  | .srot d a b => Sys2Proof.Machine.execSrot d a b s
  | .smin d a b u => Sys2Proof.Machine.execSmin d a b u s
  | .smax d a b u => Sys2Proof.Machine.execSmax d a b u s
  | .spopc d a => Sys2Proof.Machine.execSpopc d a s
  | .sclz d a => Sys2Proof.Machine.execSclz d a s
  | .scmp d a b c => Sys2Proof.Machine.execScmp d a b c s
  | .ssel d a b => Sys2Proof.Machine.execSsel d a b s
  | .smov d a => Sys2Proof.Machine.execSmov d a s
  | .saddi d a iv => Sys2Proof.Machine.execSaddi d a iv s
  | .smovi d iv => Sys2Proof.Machine.execSmovi d iv s
  | .sshi d iv => Sys2Proof.Machine.execSshi d iv s
  | .slea d a b n => Sys2Proof.Machine.execSlea d a b n s
  | .sext d a t => Sys2Proof.Machine.execSext d a t s
  | .sbfx d a b sx => Sys2Proof.Machine.execSbfx d a b sx s
  | .sbfi d a b => Sys2Proof.Machine.execSbfi d a b s
  | .bra o => Sys2Proof.Machine.execBra o s
  | .brs c n o => Sys2Proof.Machine.execBrs c n o s
  | .brp c n t o => Sys2Proof.Machine.execBrp c n t o s
  | .brk c n t o => Sys2Proof.Machine.execBrk c n t o s
  | .join t => Sys2Proof.Machine.execJoin t s
  | .call k o => Sys2Proof.Machine.execCall k o s
  | .calli a k => Sys2Proof.Machine.execCalli a k s
  | .ret k => Sys2Proof.Machine.execRet k s
  | .jmpi a => Sys2Proof.Machine.execJmpi a s
  | .trap iv => Sys2Proof.Machine.execTrap iv s
  | .dbnz c n o => Sys2Proof.Machine.execDbnz c n o s
  | .pand d a b n => Sys2Proof.Machine.execPand d a b n s
  | .por d a b n => Sys2Proof.Machine.execPor d a b n s
  | .pxor d a b n => Sys2Proof.Machine.execPxor d a b n s
  | .pnot d a => Sys2Proof.Machine.execPnot d a s
  | .pmov d a => Sys2Proof.Machine.execPmov d a s
  | .psetm d a => Sys2Proof.Machine.execPsetm d a s
  | .pgetm d a m => Sys2Proof.Machine.execPgetm d a m s
  | .pany d a => Sys2Proof.Machine.execPany d a s
  | .pall d a => Sys2Proof.Machine.execPall d a s
  | .pcnt d a => Sys2Proof.Machine.execPcnt d a s
  | .vld d a b x => Sys2Proof.Machine.execVld d a b x s
  | .vst d a b x => Sys2Proof.Machine.execVst d a b x s
  | .vlde d a b x => Sys2Proof.Machine.execVlde d a b x s
  | .vste d a b x => Sys2Proof.Machine.execVste d a b x s
  | .vldd d a b => Sys2Proof.Machine.execVldd d a b s
  | .sld d a b spm => Sys2Proof.Machine.execSld d a b spm s
  | .sst d a b spm => Sys2Proof.Machine.execSst d a b spm s
  | .vldb d a b x => Sys2Proof.Machine.execVldb d a b x s
  | .vstb d a b x => Sys2Proof.Machine.execVstb d a b x s
  | .ldds d a b => Sys2Proof.Machine.execLdds d a b s
  | .stds d a b => Sys2Proof.Machine.execStds d a b s
  | .vgath d a b x => Sys2Proof.Machine.execVgath d a b x s
  | .atom d a b p => Sys2Proof.Machine.execAtom d a b p s
  | .atoms d a b p => Sys2Proof.Machine.execAtoms d a b p s
  | .atomf d a b p => Sys2Proof.Machine.execAtomf d a b p s
  | .atomo a b => Sys2Proof.Machine.execAtomo a b s
  | .waitc k => Sys2Proof.Machine.execWaitc k s
  | .waitv d a => Sys2Proof.Machine.execWaitv d a s
  | .fence sc => Sys2Proof.Machine.execFence sc s
  | .tfence sc => Sys2Proof.Machine.execTfence sc s
  | .pref a b => Sys2Proof.Machine.execPref a b s
  | .samp d a b hi => Sys2Proof.Machine.execSamp d a b hi s
  | .sampg d a b hi => Sys2Proof.Machine.execSampg d a b hi s
  | .cpa d a b t => Sys2Proof.Machine.execCpa d a b t s
  | .cpwt k t => Sys2Proof.Machine.execCpwt k t s
  | .cpb a => Sys2Proof.Machine.execCpb a s
  | .cpt a b => Sys2Proof.Machine.execCpt a b s
  | .syncw a b => Sys2Proof.Machine.execSyncw a b s
  | .bar a n => Sys2Proof.Machine.execBar a n s
  | .bara a n => Sys2Proof.Machine.execBara a n s
  | .barw a n => Sys2Proof.Machine.execBarw a n s
  | .tlwait a n => Sys2Proof.Machine.execTlwait a n s
  | .tladv a n => Sys2Proof.Machine.execTladv a n s
  | .tlget d sel n => Sys2Proof.Machine.execTlget d sel n s
  | .gangset a => Sys2Proof.Machine.execGangset a s
  | .mma d a b => Sys2Proof.Machine.execMma d a b s
  | .mmal d a b => Sys2Proof.Machine.execMmal d a b s
  | .mconv d a b => Sys2Proof.Machine.execMconv d a b s
  | .mconvl d a b => Sys2Proof.Machine.execMconvl d a b s
  | .mdrn a b => Sys2Proof.Machine.execMdrn a b s
  | .mdst d a b x => Sys2Proof.Machine.execMdst d a b x s
  | .mlda d a b x => Sys2Proof.Machine.execMlda d a b x s
  | .mqry d sel => Sys2Proof.Machine.execMqry d sel s
  | .plwin a => Sys2Proof.Machine.execPlwin a s
  | .pleval d a => Sys2Proof.Machine.execPleval d a s
  | .plexp d a => Sys2Proof.Machine.execPlexp d a s
  | .pllin d a => Sys2Proof.Machine.execPllin d a s
  | .plfma d a b => Sys2Proof.Machine.execPlfma d a b s
  | .pladd d a b => Sys2Proof.Machine.execPladd d a b s
  | .plmul d a b => Sys2Proof.Machine.execPlmul d a b s
  | .plmin d a b => Sys2Proof.Machine.execPlmin d a b s
  | .plmax d a b => Sys2Proof.Machine.execPlmax d a b s
  | .plmov d a => Sys2Proof.Machine.execPlmov d a s
  | .plcmp a b c => Sys2Proof.Machine.execPlcmp a b c s
  | .plsel d a b => Sys2Proof.Machine.execPlsel d a b s
  | .plshf d a cl dir => Sys2Proof.Machine.execPlshf d a cl dir s
  | .plld d a b spm => Sys2Proof.Machine.execPlld d a b spm s
  | .plst d a b spm => Sys2Proof.Machine.execPlst d a b spm s
  | .plred d a b p => Sys2Proof.Machine.execPlred d a b p s
  | .plexc d a clr => Sys2Proof.Machine.execPlexc d a clr s
  | .plvis a b le => Sys2Proof.Machine.execPlvis a b le s
  | .plbld d a b => Sys2Proof.Machine.execPlbld d a b s
  | .pltile a b => Sys2Proof.Machine.execPltile a b s
  | .plflg d clr => Sys2Proof.Machine.execPlflg d clr s
  | .plsfn d a f => Sys2Proof.Machine.execPlsfn d a f s
  | .plclr iv => Sys2Proof.Machine.execPlclr iv s
  | .plbin a => Sys2Proof.Machine.execPlbin a s
  | .launch d a => Sys2Proof.Machine.execLaunch d a s
  | .arm d a => Sys2Proof.Machine.execArm d a s
  | .disarm d a => Sys2Proof.Machine.execDisarm d a s
  | .invoke d a b => Sys2Proof.Machine.execInvoke d a b s
  | .invh d a b => Sys2Proof.Machine.execInvh d a b s
  | .hwait d a => Sys2Proof.Machine.execHwait d a s
  | .hres a fwd => Sys2Proof.Machine.execHres a fwd s
  | .hbrk a => Sys2Proof.Machine.execHbrk a s
  | .hqry d a => Sys2Proof.Machine.execHqry d a s
  | .hfree a => Sys2Proof.Machine.execHfree a s
  | .vgcmd d a b => Sys2Proof.Machine.execVgcmd d a b s
  | .vgqry d a sel => Sys2Proof.Machine.execVgqry d a sel s
  | .mode iv => Sys2Proof.Machine.execMode iv s
  | .modex iv => Sys2Proof.Machine.execModex iv s
  | .getc d iv => Sys2Proof.Machine.execGetc d iv s
  | .setc a iv => Sys2Proof.Machine.execSetc a iv s
  | .timer d sel => Sys2Proof.Machine.execTimer d sel s
  | .ckpt d a q => Sys2Proof.Machine.execCkpt d a q s
  | .bkpt iv => Sys2Proof.Machine.execBkpt iv s
  | .undef iv => Sys2Proof.Machine.execUndef iv s
  | .rsvop w => Sys2Proof.Machine.execRsvop w s
  | .quantumSwitch core => Sys2Proof.Machine.execQuantumSwitch core s
  | .loadComplete g => Sys2Proof.Machine.execLoadComplete g s
  | .accessPerform g k lanes => Sys2Proof.Machine.execAccessPerform g k lanes s
  | .pageTableWalk ctx agent va => Sys2Proof.Machine.execPageTableWalk ctx agent va s
  | .trapEntry g => Sys2Proof.Machine.execTrapEntry g s
  | .groupRetire g => Sys2Proof.Machine.execGroupRetire g s
  | .completionWrite gid => Sys2Proof.Machine.execCompletionWrite gid s
  | .atomoApplication gid => Sys2Proof.Machine.execAtomoApplication gid s
  | .blockStart cluster => Sys2Proof.Machine.execBlockStart cluster s
  | .preemption blk => Sys2Proof.Machine.execPreemption blk s
  | .forcedPreemption blk => Sys2Proof.Machine.execForcedPreemption blk s
  | .restoration blk cluster => Sys2Proof.Machine.execRestoration blk cluster s
  | .eviction blk => Sys2Proof.Machine.execEviction blk s
  | .suspension ctx => Sys2Proof.Machine.execSuspension ctx s
  | .driverKill gid => Sys2Proof.Machine.execDriverKill gid s
  | .contextDestroy ctx => Sys2Proof.Machine.execContextDestroy ctx s
  | .matrixOpStart blk op => Sys2Proof.Machine.execMatrixOpStart blk op s
  | .matrixStep blk => Sys2Proof.Machine.execMatrixStep blk s
  | .engineOpComplete blk op => Sys2Proof.Machine.execEngineOpComplete blk op s
  | .planeOp blk => Sys2Proof.Machine.execPlaneOp blk s
  | .binningJob blk => Sys2Proof.Machine.execBinningJob blk s
  | .cpaTransferComplete g k => Sys2Proof.Machine.execCpaTransferComplete g k s
  | .copyRow blk op slice => Sys2Proof.Machine.execCopyRow blk op slice s
  | .vgcmdStart blk op => Sys2Proof.Machine.execVgcmdStart blk op s
  | .virgaWave blk op chan => Sys2Proof.Machine.execVirgaWave blk op chan s
  | .virgaWindowEnd chan => Sys2Proof.Machine.execVirgaWindowEnd chan s
  | .bankServiceEnd chan => Sys2Proof.Machine.execBankServiceEnd chan s
  | .virgaMerge blk op => Sys2Proof.Machine.execVirgaMerge blk op s
  | .handlerStart k => Sys2Proof.Machine.execHandlerStart k s
  | .invocationArrival k => Sys2Proof.Machine.execInvocationArrival k s
  | .hwaitRegistration k => Sys2Proof.Machine.execHwaitRegistration k s
  | .hwaitAnswer k => Sys2Proof.Machine.execHwaitAnswer k s
  | .resolutionArrival k => Sys2Proof.Machine.execResolutionArrival k s
  | .forwardArrival k => Sys2Proof.Machine.execForwardArrival k s
  | .forwardProbe k => Sys2Proof.Machine.execForwardProbe k s
  | .breakArrival k => Sys2Proof.Machine.execBreakArrival k s
  | .homeAnswer k => Sys2Proof.Machine.execHomeAnswer k s
  | .hostQueueRecord q => Sys2Proof.Machine.execHostQueueRecord q s
  | .queueResume ring q => Sys2Proof.Machine.execQueueResume ring q s
  | .taggedMessage pkg ctx tag payload => Sys2Proof.Machine.execTaggedMessage pkg ctx tag payload s
  | .frameReceive f => Sys2Proof.Machine.execFrameReceive f s
  | .retransmit pkg => Sys2Proof.Machine.execRetransmit pkg s
  | .connectionFailure pkg => Sys2Proof.Machine.execConnectionFailure pkg s
  | .sendRingDescriptor r => Sys2Proof.Machine.execSendRingDescriptor r s
  | .bridgeFailure a b => Sys2Proof.Machine.execBridgeFailure a b s
  | .hostAccess write pa bytes => Sys2Proof.Machine.execHostAccess write pa bytes s
  | .contextDescriptorWrite ctx desc => Sys2Proof.Machine.execContextDescriptorWrite ctx desc s
  | .capabilityTableWrite stack index entry => Sys2Proof.Machine.execCapabilityTableWrite stack index entry s
  | .shootdown ctx => Sys2Proof.Machine.execShootdown ctx s
  | .errorDetected e => Sys2Proof.Machine.execErrorDetected e s
  | .freeze c => Sys2Proof.Machine.execFreeze c s
  | .thermalStep r sensor => Sys2Proof.Machine.execThermalStep r sensor s
  | .attestationRequest nonce => Sys2Proof.Machine.execAttestationRequest nonce s
  | .hfreeArrival k => Sys2Proof.Machine.execHfreeArrival k s
  | .linkTraining port => Sys2Proof.Machine.execLinkTraining port s
  | .connectionReestablished pkg => Sys2Proof.Machine.execConnectionReestablished pkg s
  | .queueBinding ring q ctx cb => Sys2Proof.Machine.execQueueBinding ring q ctx cb s
  | .contextCreation ctx desc => Sys2Proof.Machine.execContextCreation ctx desc s
  | .nop => Sys2Proof.Machine.execNop s
  | .exit => Sys2Proof.Machine.execExit s
  | .rft => Sys2Proof.Machine.execRft s
  | .ordcl => Sys2Proof.Machine.execOrdcl s
  | .sbar => Sys2Proof.Machine.execSbar s
  | .yield => Sys2Proof.Machine.execYield s
  | .mzero => Sys2Proof.Machine.execMzero s
  | .plbind => Sys2Proof.Machine.execPlbind s
  | .plfree => Sys2Proof.Machine.execPlfree s
  | .plif => Sys2Proof.Machine.execPlif s
  | .plelse => Sys2Proof.Machine.execPlelse s
  | .plend => Sys2Proof.Machine.execPlend s
  | .flagchk => Sys2Proof.Machine.execFlagchk s
  | .candidateHold => Sys2Proof.Machine.execCandidateHold s
  | .pri0Displacement => Sys2Proof.Machine.execPri0Displacement s
  | .checkpointCommit => Sys2Proof.Machine.execCheckpointCommit s
  | .tapFreeze => Sys2Proof.Machine.execTapFreeze s
  | .testPortReadout => Sys2Proof.Machine.execTestPortReadout s
  | .coldReset => Sys2Proof.Machine.execColdReset s
  | .warmReset => Sys2Proof.Machine.execWarmReset s
  | .powerOff => Sys2Proof.Machine.execPowerOff s

end Sys2Proof.Machine
end

