-- ==== Sys2Proof/Machine/Step.lean ====
section
/-! DEFINITION. One step of the machine, and the state in which the next step fetches a given word. -/

namespace Sys2Proof.Machine

open Sys2Proof

/-- An instruction issues from a core: fetched, decoded and carried out, or the trap of its fetch taken (R31, R58). DESIGN CHOICE: log entry 4. -/
def State.stepIssue (s : State) (core : Nat) : Host.Outcome State Fault Refusal :=
  match s.issueSlot core with
  | none => .next s
  | some (gr, sb) =>
    match s.fetch gr sb with
    | .trapped t => .next t
    | .run i t => exec i t

/-- One step: the package carries out one of the things that it may do now. -/
def step (s : State) : Host.Outcome State Fault Refusal :=
  match s.choice with
  | none => afterwards (.next s)
  | some (.input i) => afterwards (if s.admits i then exec i { s with inputs := s.inputs.tail } else .next { s with inputs := s.inputs.tail })
  | some (.event i) => afterwards (exec i s)
  | some (.issue core) => afterwards (s.stepIssue core)
  | some .recover => afterwards (.next s.recover)

/-- The state with a word stored where the next step fetches; a package without a block gets the placed program's context and block. DESIGN CHOICE: log entry 30. -/
def State.withFetchWord (s : State) (_nbits w : Nat) : State :=
  let s := { s with inputs := [], frozen := false, announced := true }
  let s := if s.blocks.isEmpty then s.bootTables.bootBlock else s
  s.storeFetched w

end Sys2Proof.Machine
end

