-- ==== Sys2Proof/Safety.lean ====
section
/-! DEFINITION. The terms claims are made in: what an instruction at issue leaves alone, how its slot goes on, and what a result of each
family looks like in the issuing group. Nothing of the machine rests on this file. -/

namespace Sys2Proof.Machine

open Sys2Proof

/-! ## What changes and what does not -/

/-- Of the whole machine only the issuing group has changed, and it now is g': every other group and every byte of memory stand. -/
structure Iss.Alone (i : Iss) (t : State) (g' : Group) : Prop where
  group : t.group? i.gr = some g'
  others : ∀ gr, gr ≠ i.gr → t.group? gr = i.s.group? gr
  bytes : ∀ l, t.byte l = i.s.byte l
  rest : ∃ f, t = i.s.modGroup i.gr f

/-- As `Alone`, at a switch point: the core has to choose afresh (R224, R225). -/
structure Iss.Switched (i : Iss) (t : State) (g' : Group) : Prop where
  group : t.group? i.gr = some g'
  others : ∀ gr, gr ≠ i.gr → t.group? gr = i.s.group? gr
  bytes : ∀ l, t.byte l = i.s.byte l
  rest : ∃ f, t = (i.s.modGroup i.gr f).setCore (i.s.coreIdOf i.gr) none

/-- As `Alone`, where the last lanes have left the slot: the group's next slot is chosen afresh (R226, R317). -/
structure Iss.Left (i : Iss) (t : State) (g' : Group) : Prop where
  group : t.group? i.gr = some g'
  others : ∀ gr, gr ≠ i.gr → t.group? gr = i.s.group? gr
  bytes : ∀ l, t.byte l = i.s.byte l
  rest : ∃ f, t = (i.s.modGroup i.gr f).modCore (i.s.coreIdOf i.gr) fun c => { c with turn := true }

/-- The slot of the group goes on at the next word, with its mask and window; the other slot stands (R31, R155). -/
structure Iss.Onward (i : Iss) (g' : Group) : Prop where
  pc : (g'.slot i.slotB).pc = i.pc + 4
  mask : (g'.slot i.slotB).mask = i.active
  window : (g'.slot i.slotB).wb = i.sl.wb
  modex : (g'.slot i.slotB).modex = none
  other : g'.slot (!i.slotB) = i.g.slot (!i.slotB)

/-- The group but for its slots and the mark of the slot that issued last. -/
def Group.core (g : Group) : Group := { g with slotA := Slot.free, slotB := Slot.free, lastB := false }

/-! ## Results in registers -/

/-- A scalar result of arithmetic class: S[D] takes x (nothing where N = 1), L0 takes x, FLAGS takes fl by OR; every other S register and
everything else stands (R44, R80, R118). -/
structure Iss.ScalarResult (i : Iss) (d : Dst) (x : Word) (fl : Flags) (g' : Group) : Prop where
  dest : ∀ r, d = .reg r → g'.rdS i.sl.wb r.toNat = x
  keep : ∀ wb n, (∀ r, d = .reg r → (wb + n) % 256 ≠ (i.sl.wb + r.toNat) % 256) → g'.rdS wb n = i.g.rdS wb n
  latches : g'.latches = (.sca x :: i.g.latches).take 4
  count : (g'.slot i.slotB).k = min 4 (i.sl.k + 1)
  flags : g'.flags = i.g.flags ||| fl
  onward : i.Onward g'
  rest : { g'.core with s := i.g.s, latches := i.g.latches, flags := i.g.flags } = i.g.core

/-- A value x in S[D] from outside the arithmetic class: the latches and everything but S[D] stand. -/
structure Iss.PlainResult (i : Iss) (d : Dst) (x : Word) (g' : Group) : Prop where
  dest : ∀ r, d = .reg r → g'.rdS i.sl.wb r.toNat = x
  keep : ∀ wb n, (∀ r, d = .reg r → (wb + n) % 256 ≠ (i.sl.wb + r.toNat) % 256) → g'.rdS wb n = i.g.rdS wb n
  count : (g'.slot i.slotB).k = i.sl.k
  onward : i.Onward g'
  rest : { g'.core with s := i.g.s } = i.g.core

/-- P[d] takes x in the lanes of m; its other lanes, every other predicate and everything else stand, FLAGS takes fl by OR (R101, R121). -/
structure Iss.PredResult (i : Iss) (d : BitVec 5) (m x : Lanes) (fl : Flags) (g' : Group) : Prop where
  dest : ∀ l, l < 32 → laneIn (g'.rdP d.toNat) l = if laneIn m l then laneIn x l else laneIn (i.g.rdP d.toNat) l
  keep : ∀ n, n ≠ d.toNat → g'.rdP n = i.g.rdP n
  flags : g'.flags = i.g.flags ||| fl
  count : (g'.slot i.slotB).k = i.sl.k
  onward : i.Onward g'
  rest : { g'.core with p := i.g.p, flags := i.g.flags } = i.g.core

/-- A vector result: V[D] takes f in the lanes of w (nothing where N = 1), and L0 the destination as it then stands; other lanes and
registers keep their values, FLAGS takes fl by OR, and everything else stands (R44, R80, R96, R97). -/
structure Iss.VectorResult (i : Iss) (d : Dst) (w : Lanes) (f : Nat → Word) (fl : Flags) (g' : Group) : Prop where
  dest : ∀ r, d = .reg r → ∀ l, l < 32 → laneIn w l = true → g'.rdV i.sl.wb r.toNat l = f l
  keep : ∀ wb n l, l < 32 → (∀ r, d = .reg r → laneIn w l = true → (wb + n) % i.g.av ≠ (i.sl.wb + r.toNat) % i.g.av) →
    g'.rdV wb n l = i.g.rdV wb n l
  latches : g'.latches = (.vec ((List.range 32).map fun l =>
    match d with | .reg r => g'.rdV i.sl.wb r.toNat l | .none => if laneIn w l then f l else 0) :: i.g.latches).take 4
  count : (g'.slot i.slotB).k = min 4 (i.sl.k + 1)
  flags : g'.flags = i.g.flags ||| fl
  onward : i.Onward g'
  rest : { g'.core with v := i.g.v, latches := i.g.latches, flags := i.g.flags } = i.g.core

/-- What the sources of a vector instruction find of %drn (R41): where none is %drn, nothing; where one is, the next drain row, which the
read takes from its operation. None where no row is ready. -/
def Iss.rows (i : Iss) (srcs : List Src) : Option (Iss × (Nat → Word)) :=
  if srcs.contains (.spec .drn) then
    match i.readRow with
    | .row r b => some ({ i with s := i.s.modBlock i.gr.blk fun _ => b, b := b }, fun l => r.getD l 0)
    | _ => none
  else some (i, fun _ => 0)

/-! ## Instructions of the queue -/

/-- The block of the issuing group has lost its idempotent status where the instruction changes state outside it (R349); nothing else of the
machine has changed but the issuing group, which now is g'. -/
structure Iss.Within (i : Iss) (outside : Bool) (t : State) (g' : Group) : Prop where
  group : t.group? i.gr = some g'
  others : ∀ gr, gr ≠ i.gr → t.group? gr = i.s.group? gr
  bytes : ∀ l, t.byte l = i.s.byte l
  rest : ∃ f, t = (i.s.modGroup i.gr f).modBlock i.gr.blk fun b => { b with idem := b.idem && !outside }

/-- There is room for m: fewer than eight instructions not yet accepted and 64 loads, and no load under way to its destination (R129, R276). -/
structure Iss.Room (i : Iss) (m : MemOp) : Prop where
  waiting : (i.g.memq.filter fun x => !x.accepted).length < 8
  loads : isLoad m.instr = true → i.g.ldcnt < 64
  dest : i.g.destBusy i.sl.wb (loadDest m.instr) (loadDestS m.instr).toList = false

/-- The group after it has issued m into its queue: the queue and its counts grow, and every register, flag and predicate stands. -/
structure Iss.Queued (i : Iss) (m : MemOp) (g' : Group) : Prop where
  queue : g'.memq = i.g.memq ++ [{ m with id := i.g.nextMem }]
  loads : g'.ldcnt = i.g.ldcnt + if isLoad m.instr then 1 else 0
  tags : g'.tagc = match m.instr with | .cpa _ _ _ t => modAt i.g.tagc t.toNat (· + 1) | _ => i.g.tagc
  count : (g'.slot i.slotB).k = i.sl.k
  onward : i.Onward g'
  rest : { g'.core with memq := i.g.memq, nextMem := i.g.nextMem, ldcnt := i.g.ldcnt, tagc := i.g.tagc, atomoSeq := i.g.atomoSeq } = i.g.core
  ordinal : g'.atomoSeq = i.g.atomoSeq + match m.instr with | .atomo .. => 1 | _ => 0

/-- Loads and stores with an address for each lane, with the data they take: lane l accesses A + B (R132-R134). -/
def Iss.laneAccesses (i : Iss) (d : Dst) (ds : BitVec 6) (dd : BitVec 5) (a b : Src) (x : Space) : List MemOp :=
  let at_ : List Word := perLane fun l => i.laneWord a l + i.uni b
  let data : List Word := perLane fun l => i.g.rdV i.sl.wb ds.toNat l
  let op (instr : Instr) (v : List Word) : MemOp := i.mem instr i.counted i.helpers at_ v
  [op (.vld d a b x) [], op (.vst ds a b x) data, op (.vlde d a b x) [], op (.vste ds a b x) data, op (.vldd dd a b) [], op (.ldds d a b) [],
    op (.stds ds a b) data]

/-- Row accesses: lane l accesses A + B + 8 l (R132). -/
def Iss.rowAccesses (i : Iss) (d : Dst) (ds : BitVec 6) (a b : Src) (x : Space) : List MemOp :=
  let at_ : List Word := perLane fun l => i.uni a + i.uni b + BitVec.ofNat 64 (8 * l)
  [i.mem (.vldb d a b x) i.counted i.helpers at_ [], i.mem (.vstb ds a b x) i.counted i.helpers at_ (perLane fun l => i.g.rdV i.sl.wb ds.toNat l)]

/-! ## Bytes in memory -/

/-- Every store's cells are in canonical form: places rising, no byte 0 listed. -/
def State.Canonical (s : State) : Prop :=
  Memory.wf s.mem = true ∧ Memory.wf s.farMem = true ∧
    ∀ b ∈ s.blocks, Memory.wf b.sp = true ∧ Memory.wf b.wb = true ∧ Memory.wf b.ab = true ∧ Memory.wf b.cb = true

/-- Two stores whose bytes stand in one list of cells. -/
def Store.same (x y : Store) : Bool :=
  match x, y with
  | .far _, .far _ => true
  | _, _ => x == y

/-- Place x is one of the n bytes from l on. -/
def Loc.within (x l : Loc) (n : Nat) : Bool := x.store.same l.store && decide (l.key ≤ x.key) && decide (x.key < l.key + n)

/-- The bytes vs have been stored from l on, and every other byte of every store reads as before. -/
structure State.Stored (s t : State) (l : Loc) (vs : List Byte) : Prop where
  written : ∀ k, k < vs.length → t.byte (l.add k) = vs.getD k 0
  kept : ∀ x, x.within l vs.length = false → t.byte x = s.byte x

/-- The store exists: that of a block, only while the block does. -/
def State.holds (s : State) (st : Store) : Bool :=
  match st with
  | .pkg | .far _ => true
  | .sp b | .wb b | .ab b | .cb b => (s.block? b).isSome

/-- Group gr and its operation m, accepted, of which lane l may perform now at place p (R254, R262). -/
structure State.MayAccess (s : State) (gr : GRef) (k l : Nat) (b : Block) (g : Group) (m : MemOp) : Prop where
  block : s.block? gr.blk = some b
  group : s.group? gr = some g
  place : g.memq[k]? = some m
  first : g.memq.find? (fun n => n.id == m.id) = some m
  accepted : m.accepted = true
  lane : l < 32
  todo : laneIn m.todo l = true
  order : g.mayPerform m l = true

/-- Of group g nothing has changed but its registers V and S, its flags, its reads and what is left of its operations. -/
def Group.Kept (g g' : Group) : Prop :=
  { g' with v := g.v, s := g.s, flags := g.flags, reads := g.reads, memq := g.memq } = g

/-- Lane l of operation id has performed. -/
def Group.Performed (g g' : Group) (id l : Nat) : Prop :=
  ∀ m ∈ g'.memq, m.id = id → ∃ n ∈ g.memq, n.id = id ∧ m = { n with todo := n.todo &&& ~~~ laneBit l }

/-- Slices have room for n more pinned lines: fewer are pinned in all than one slice can pin (R249). -/
def State.PinRoom (s : State) (n : Nat) : Prop := s.pins.length + n ≤ 8192

/-- An atomic has run: the group has gone on; only V[d] in the guarded lanes, its flags and what it knows have changed (R136, R258). -/
structure Iss.AtomicResult (i : Iss) (d : Dst) (t : State) (g' : Group) : Prop where
  group : t.group? i.gr = some g'
  others : ∀ gr, gr ≠ i.gr → t.group? gr = i.s.group? gr
  keep : ∀ wb n l, l < 32 → (∀ r, d = .reg r → laneIn i.guard l = true → (wb + n) % i.g.av ≠ (i.sl.wb + r.toNat) % i.g.av) →
    g'.rdV wb n l = i.g.rdV wb n l
  helpers : ∀ r, d = .reg r → ∀ l, l < 32 → laneIn i.helpers l = true → g'.rdV i.sl.wb r.toNat l = 0
  onward : i.Onward g'
  rest : { g'.core with v := i.g.v, flags := i.g.flags, reads := i.g.reads, clock := i.g.clock, epoch := i.g.epoch } = i.g.core

/-! ## Control, windows and traps -/

/-- The slot of the group stands at a PC, with a mask, a window base and a latch count; the other slot stands (R155). -/
structure Iss.At (i : Iss) (pc : Word) (m : Lanes) (wb k : Nat) (g' : Group) : Prop where
  pc : (g'.slot i.slotB).pc = pc
  mask : (g'.slot i.slotB).mask = m
  window : (g'.slot i.slotB).wb = wb
  latch : (g'.slot i.slotB).k = k
  modex : (g'.slot i.slotB).modex = none
  other : g'.slot (!i.slotB) = i.g.slot (!i.slotB)

/-- The group but for what every transfer of control may move: slots, token sets, the resident range's top, and the cycles noted. -/
def Group.still (g : Group) : Group := { g.core with tokens := [], hi := 0, since := 0, resetA := 0, resetB := 0 }

/-- A window at base wb in the issuing slot needs no spill and no refill: the windows of the busy slots lie in [LO, LO + span) (R219, R220). -/
def Iss.Fits (i : Iss) (wb : Nat) : Prop :=
  i.active ≠ 0 ∧ i.g.lo ≤ wb ∧ wb + 64 ≤ i.g.lo + i.g.span ∧
    ((i.g.slot (!i.slotB)).isFree = false → i.g.lo ≤ (i.g.slot (!i.slotB)).wb ∧ (i.g.slot (!i.slotB)).wb + 64 ≤ i.g.lo + i.g.span)

/-- The top of the resident range with the issuing slot's window at wb (R219). -/
def Iss.top (i : Iss) (wb : Nat) : Nat := max wb (if (i.g.slot (!i.slotB)).isFree then 0 else (i.g.slot (!i.slotB)).wb) + 64

/-- The token after lanes m arrive at it with target pc: the first arrival since it was idle gives JPC and JWB (R159, R160). -/
def Iss.arrival (i : Iss) (t : Nat) (m : Lanes) (pc : Word) : Token :=
  let k := i.g.token t
  if m = 0 then { k with exp := k.exp ||| i.active }
  else if k.arr = 0 then ⟨k.exp ||| i.active, m, pc, i.sl.wb⟩
  else { k with exp := k.exp ||| i.active, arr := k.arr ||| m }

/-- The 2,112 bytes of unit u of a group's logical registers: lane l of V register 8 u + r at 256 r + 8 l, S register 8 u + r at 2,048 + 8 r (R221). -/
structure Group.UnitIn (g : Group) (u : Nat) (bs : List Byte) : Prop where
  length : bs.length = 2112
  vector : ∀ r, r < 8 → ∀ l, l < 32 → leNat ((bs.drop (256 * r + 8 * l)).take 8) = (g.rdV 0 (8 * u + r) l).toNat
  scalar : ∀ r, r < 8 → leNat ((bs.drop (2048 + 8 * r)).take 8) = (g.rdS 0 (8 * u + r)).toNat

/-- Where unit u of a group stands in its spill area (R221). -/
def Group.unitPlace (g : Group) (u : Nat) : Word := g.spillBase + BitVec.ofNat 64 (2112 * u)

/-- n units from u on are spilled, one after the other, from state c 0 to state c n (R220, R221). -/
def Iss.Spills (i : Iss) (u n : Nat) (c : Nat → State) : Prop :=
  c 0 = i.s ∧ ∀ j, j < n → 2112 * (u + j + 1) ≤ i.g.spillSize ∧
    ∃ bs, i.g.UnitIn (u + j) bs ∧ (c j).storeRange i.gr (i.g.unitPlace (u + j)) bs (i.g.unitPlace (u + j)) = .ok (c (j + 1))

/-- The youngest stack entry: the core's copy holds it, or else it comes by a load, for which the group's accesses have performed (R156, R318). -/
def Iss.TopEntry (i : Iss) (bs : List Byte) (loaded : Bool) : Prop :=
  i.g.dstkp.toNat + 16 < 2 ^ 64 ∧ match i.g.stackCopy with
  | e :: _ => bs = e ∧ loaded = false
  | [] => loaded = true ∧ i.g.quiet = true ∧ i.s.overPinned = false ∧ i.s.loadRange i.gr i.g.dstkp 16 i.g.dstkp = .ok bs

/-- The slot that a stack entry gives: its PC, those of its lanes that are live, its window base; after a load it may issue once that is over
(R156, R224, R318). -/
def Iss.entrySlot (i : Iss) (live : Lanes) (bs : List Byte) (loaded : Bool) : Slot :=
  { pathSlot (BitVec.ofNat 32 (leNat ((bs.drop 8).take 4)) &&& live) (BitVec.ofNat 64 (leNat (bs.take 8)) &&& ~~~ 3) (leNat (bs.drop 12) / 256 * 8) with
    notBefore := if loaded then i.s.refillEnd else 0 }

/-- After its slot's lanes have left, the group has taken the youngest stack entry into slot sb, which is now x (R155, R156, R318). -/
structure Iss.Popped (i : Iss) (sb : Bool) (x : Slot) (t : State) (g' : Group) : Prop where
  group : t.group? i.gr = some g'
  others : ∀ gr, gr ≠ i.gr → t.group? gr = i.s.group? gr
  bytes : ∀ l, t.byte l = i.s.byte l
  slot : g'.slot sb = x
  stack : g'.dstkp = i.g.dstkp + 16 ∧ g'.stackCopy = i.g.stackCopy.tail
  rest : { g'.still with dstkp := i.g.dstkp, stackCopy := i.g.stackCopy, exited := i.g.exited } = i.g.still

/-- A window at base wb fits beside that of the group's other slot, if this is busy (R219, R222). -/
def Iss.FitsBeside (i : Iss) (wb : Nat) : Prop :=
  i.g.lo ≤ wb ∧ wb + 64 ≤ i.g.lo + i.g.span ∧
    ((i.g.slot (!i.slotB)).isFree = false → i.g.lo ≤ (i.g.slot (!i.slotB)).wb ∧ (i.g.slot (!i.slotB)).wb + 64 ≤ i.g.lo + i.g.span)

/-- The group as a trap frame records it: both slots halted, past the instruction for TRAP and BKPT (R26, R164, R395, R428). -/
def Iss.halted (i : Iss) (past : Bool) : Group :=
  let g := if past then i.g.modSlot i.slotB fun x => { x with pc := x.pc + 4, modex := none } else i.g
  { g with slotA := g.slotA.halt, slotB := g.slotB.halt }

/-- TRAPCAUSE of a trap at issue (R392). -/
def Iss.causeOf (i : Iss) (c : Cause) (sub : Nat) : Word :=
  BitVec.ofNat 64 ((if i.slotB then 2 ^ 37 else 0) + sub % 2 ^ 24 * 2 ^ 8 + c.code)

/-- Where the trap frame goes (R393). -/
def Iss.frame (i : Iss) : Word := i.g.dstkp - 11008

/-- The issuing group can take a trap at once, and the frame's stores lead to s1 (R393). -/
structure Iss.CanTrap (i : Iss) (past : Bool) (c : Cause) (sub : Nat) (addr hvec : Word) (s1 : State) : Prop where
  memory : i.g.memq = []
  handler : i.b.handler = none
  depth : i.g.traps.length < 4
  vector : (i.s.ctx? i.b.ctx).map (·.hvec) = some hvec
  given : hvec ≠ 0
  room : i.g.stkBase.toNat + 11008 ≤ i.g.dstkp.toNat
  slides : i.Fits (i.sl.wb + 16)
  stored : (i.s.setGroup i.gr (i.halted past)).storeRange i.gr i.frame
    (frameBytes (i.halted past) (i.causeOf c sub) addr i.reported 0 []) i.frame = .ok s1
  pinned : s1.overPinned = false

/-- The issuing group has entered its handler (R393, R394). -/
structure Iss.Entered (i : Iss) (past : Bool) (c : Cause) (sub : Nat) (addr hvec : Word) (s1 t : State) (g' : Group) : Prop where
  group : t.group? i.gr = some g'
  others : ∀ gr, gr ≠ i.gr → t.group? gr = i.s.group? gr
  bytes : ∀ l, t.byte l = s1.byte l
  slot : g'.slot i.slotB = { (i.halted past).slot i.slotB with pc := hvec &&& ~~~3, wb := i.sl.wb + 16, k := 0, lost := false, resume := false }
  other : g'.slot (!i.slotB) = { (i.halted past).slot (!i.slotB) with k := 0, lost := false, resume := false }
  holds : g'.mayIssue i.slotB = true ∧ g'.mayIssue (!i.slotB) = false
  mode : g'.mode = 0x1F
  flags : g'.flags = 0 ∧ g'.flagen = 0
  copy : g'.stackCopy = []
  tokens : g'.tokens = List.replicate 16 Token.idle
  depth : g'.traps = ⟨i.slotB, i.g.tokens, i.frame, 0, ⟨none, []⟩⟩ :: i.g.traps
  frame : g'.dstkp = i.frame
  reports : g'.trapcause = i.causeOf c sub ∧ g'.trapaddr = addr ∧ g'.trappc = i.reported
  registers : g'.v = i.g.v ∧ g'.s = i.g.s ∧ g'.p = i.g.p ∧ g'.latches = i.g.latches

/-- The machine has changed only in the issuing block, which now is b', and there only in what b' says and in the issuing group, now g'. -/
structure Iss.InBlock (i : Iss) (t : State) (b' : Block) (g' : Group) : Prop where
  block : t.block? i.gr.blk = some b'
  group : b'.groups[i.gr.grp]? = some g'
  others : ∀ n, n ≠ i.gr.blk → t.block? n = i.s.block? n
  siblings : ∀ k, k ≠ i.gr.grp → b'.groups[k]? = i.b.groups[k]?
  bytes : ∀ l, t.byte l = i.s.byte l

/-- A group without the numbers of its latest t2 operation. -/
def Group.unnumbered (g : Group) : Group := { g with mine := setAt g.mine 2 0, plseq := 0 }

/-- Registers and flags of the group stand. -/
structure Iss.Unread (i : Iss) (g' : Group) : Prop where
  v : g'.v = i.g.v
  s : g'.s = i.g.s
  p : g'.p = i.g.p
  flags : g'.flags = i.g.flags
  mode : g'.mode = i.g.mode
  latches : g'.latches = i.g.latches

/-- The slot waits at the instruction (R224). -/
structure Iss.Waiting (i : Iss) (w : Wait) (g' : Group) : Prop where
  pc : (g'.slot i.slotB).pc = i.pc
  mask : (g'.slot i.slotB).mask = i.active
  wait : (g'.slot i.slotB).wait = some w
  other : g'.slot (!i.slotB) = i.g.slot (!i.slotB)

/-- Control registers and what GETC reads of them (R51). -/
def Iss.controls (i : Iss) : List (Nat × Word) :=
  let n (x : Nat) : Word := BitVec.ofNat 64 x
  [(0, i.mode.setWidth 64), (1, i.g.flags.setWidth 64), (2, i.g.flagen.setWidth 64), (3, i.g.gang.setWidth 64), (4, n i.sl.wb), (5, i.g.pix),
    (6, i.g.ivec.getD 0 0), (7, i.g.ivec.getD 1 0), (8, i.g.ivec.getD 2 0), (9, i.g.ivec.getD 3 0), (10, i.g.ivec.getD 4 0),
    (12, i.g.slotA.mask.setWidth 64), (13, i.g.slotB.mask.setWidth 64), (14, i.g.slotA.pc), (15, i.g.slotB.pc), (16, i.g.dstkp), (17, n i.g.ldcnt),
    (18, n i.b.ctx), (20, n i.gr.grp), (21, n i.b.spanIdx), (22, n (i.b.place.getD 0)), (23, n (i.gr.grp % 6)), (24, i.g.plseq),
    (25, i.g.trapcause), (26, i.g.trapaddr), (27, i.g.trappc), (28, i.g.handle)]

/-- Control registers that software may write, with the group after it has (R51, R52). -/
def Iss.writables (i : Iss) (x : Word) : List (Nat × Nat × Group) :=
  let g := i.g
  [(1, 7, { g with flags := x.setWidth 7 }), (2, 7, { g with flagen := x.setWidth 7 }), (5, 64, { g with pix := x }),
    (6, 64, { g with ivec := setAt g.ivec 0 x }), (7, 64, { g with ivec := setAt g.ivec 1 x }), (8, 64, { g with ivec := setAt g.ivec 2 x }),
    (9, 64, { g with ivec := setAt g.ivec 3 x }), (10, 64, { g with ivec := setAt g.ivec 4 x }), (25, 39, { g with trapcause := x }),
    (26, 64, { g with trapaddr := x }), (27, 64, { g with trappc := x })]

/-! ## Engine operations -/

/-- The group has issued operation o of timeline tl: its number is the next one, its operands are those read, its mode is the group's, and its
issue is a release (R167, R176). Nothing else of the machine but agents' numbers, claims and undo segments has changed. -/
structure Iss.Issued (i : Iss) (instr : Instr) (tl : Nat) (opa : List Word) (t : State) (b' : Block) (g' : Group) (o : EngOp) : Prop where
  block : t.block? i.gr.blk = some b'
  group : b'.groups[i.gr.grp]? = some g'
  others : ∀ n, n ≠ i.gr.blk → t.block? n = i.s.block? n
  siblings : ∀ k, k ≠ i.gr.grp → b'.groups[k]? = i.b.groups[k]?
  bytes : ∀ l, t.byte l = i.s.byte l
  op : o ∈ b'.ops
  older : ∀ x ∈ i.b.ops, x.tl ≠ tl ∨ x.num ≠ o.num → x ∈ b'.ops
  place : o.tl = tl ∧ o.num = (i.b.tline tl).issued + 1
  what : o.instr = instr ∧ o.opa = opa ∧ o.mode = i.mode ∧ o.grp = i.gr.grp
  waiting : o.state = .queued ∧ o.pix = 0 ∧ o.flags = 0
  mine : g'.mine = setAt i.g.mine tl o.num
  onward : i.Onward g'
  release : g'.epoch = i.g.epoch + 1 ∧ i.g.epoch + 1 ≤ clockGet o.clock i.g.agent
  registers : i.Unread g'

/-- Plane instructions of every TYPE, with their operands at issue (R190-R204). -/
def Iss.planeAny (i : Iss) (d : BitVec 5) (a : CellSrc) (b : CellSrcB) (cl : Bool) (dir : Dir) : List (Instr × List Word) :=
  let from_ : List Word := match b with | .bcast r => [i.g.rdS i.sl.wb r.toNat] | .src _ => []
  [(.plmov d a, []), (.plsel d a b, from_), (.plshf d a cl dir, [])]

/-- Plane instructions whose TYPE is f32 or bf16 (R191, R192). -/
def Iss.planeFloat (i : Iss) (d : BitVec 5) (a : CellSrc) (b : CellSrcB) (r : BitVec 6) (f : Fn) (c : VCond) (a2 : CellSrc) : List (Instr × List Word) :=
  let from_ : List Word := match b with | .bcast r => [i.g.rdS i.sl.wb r.toNat] | .src _ => []
  let run (n : Nat) : List Word := (List.range n).map fun j => i.g.rdS i.sl.wb (r.toNat + j)
  [(.plfma d a b, from_), (.pladd d a b, from_), (.plmul d a b, from_), (.plmin d a b, from_), (.plmax d a b, from_), (.plcmp a a2 c, []),
    (.plsfn d a f, []), (.pleval d r, run 6), (.plexp d r, run 6), (.pllin d r, run 3)]

/-- The group may issue to the plane: it is the bound group, its earlier accesses have performed, and its other slot does not wait in a
plane-synchronising read (R190, R283). -/
def Iss.Binds (i : Iss) (p : Plane) : Prop := i.b.planeSt = some p ∧ p.bound = some i.gr.grp ∧ i.planeBusy = false

/-! ## Launches and handles -/

/-- The group has gone on with x in S[D] and nothing else of its registers and flags changed; it has released where `rel` says so (R205, R258).
Its block is no longer idempotent where `out` says so (R349). -/
structure Iss.Gave (i : Iss) (d : BitVec 6) (x : Word) (rel out : Bool) (t : State) (g' : Group) : Prop where
  group : t.group? i.gr = some g'
  others : ∀ gr, gr ≠ i.gr → t.group? gr = i.s.group? gr
  bytes : ∀ l, t.byte l = i.s.byte l
  dest : g'.rdS i.sl.wb d.toNat = x
  keep : ∀ wb n, (wb + n) % 256 ≠ (i.sl.wb + d.toNat) % 256 → g'.rdS wb n = i.g.rdS wb n
  rest : g'.v = i.g.v ∧ g'.p = i.g.p ∧ g'.flags = i.g.flags ∧ g'.latches = i.g.latches
  release : g'.epoch = if rel then i.g.epoch + 1 else i.g.epoch
  idem : (t.block? i.gr.blk).map (·.idem) = some (i.b.idem && !out)
  onward : i.Onward g'

/-- The group may read a record of n bytes at a and write D: what the record holds (R128, R205). -/
def Iss.Reads (i : Iss) (d : BitVec 6) (a : Word) (n : Nat) (bs : List Byte) : Prop :=
  i.onlyHelpers = false ∧ i.g.quiet = true ∧ i.g.destBusy i.sl.wb [] [d.toNat] = false ∧
    ∃ x, i.s.check i.who i.b (coreIdx i.gr.grp) ⟨.gl, a, n, decide (a.toNat % n = 0), true, false, false, true, true⟩ true = .ok x ∧ bs = i.s.bytes x.loc n

/-! ## What each instruction computes -/

/-- Two-source scalar instructions and their results (R118-R120). -/
def Iss.scalarTwo (i : Iss) (d : Dst) (a b : Src) : List (Instr × Word) :=
  let x := i.uni a
  let y := i.uni b
  let old := i.oldS d
  let minus1 : Word := BitVec.ofInt 64 (-1)
  let n := y.toNat
  let pos := n % 64
  let len := n / 256 % 64 + 1
  let field := x.toNat / 2 ^ pos % 2 ^ len
  let mask : Word := BitVec.ofNat 64 ((2 ^ len - 1) * 2 ^ pos)
  [(.sadd d a b, x + y), (.ssub d a b, x - y), (.smul d a b, x * y),
    (.smulh d a b false, BitVec.ofInt 64 (x.toInt * y.toInt / 2 ^ 64)), (.smulh d a b true, BitVec.ofNat 64 (x.toNat * y.toNat / 2 ^ 64)),
    (.smad d a b, x * y + old),
    (.sdiv d a b false, if y = 0 then minus1 else BitVec.ofInt 64 (x.toInt.tdiv y.toInt)),
    (.sdiv d a b true, if y = 0 then minus1 else BitVec.ofNat 64 (x.toNat / y.toNat)),
    (.srem d a b false, if y = 0 then x else BitVec.ofInt 64 (x.toInt.tmod y.toInt)),
    (.srem d a b true, if y = 0 then x else BitVec.ofNat 64 (x.toNat % y.toNat)),
    (.sand d a b, x &&& y), (.sor d a b, x ||| y), (.sxor d a b, x ^^^ y),
    (.sshl d a b, if 64 ≤ n then 0 else x <<< n),
    (.sshr d a b false, if 64 ≤ n then (if x.msb then minus1 else 0) else BitVec.sshiftRight x n),
    (.sshr d a b true, if 64 ≤ n then 0 else x >>> n),
    (.srot d a b, x.rotateLeft (n % 64)),
    (.smin d a b false, if x.toInt ≤ y.toInt then x else y), (.smin d a b true, if x.toNat ≤ y.toNat then x else y),
    (.smax d a b false, if y.toInt ≤ x.toInt then x else y), (.smax d a b true, if y.toNat ≤ x.toNat then x else y),
    (.scmp d a b .eq, if x = y then 1 else 0), (.scmp d a b .ne, if x ≠ y then 1 else 0),
    (.scmp d a b .lt, if x.toInt < y.toInt then 1 else 0), (.scmp d a b .le, if x.toInt ≤ y.toInt then 1 else 0),
    (.scmp d a b .gt, if y.toInt < x.toInt then 1 else 0), (.scmp d a b .ge, if y.toInt ≤ x.toInt then 1 else 0),
    (.scmp d a b .ltu, if x.toNat < y.toNat then 1 else 0), (.scmp d a b .geu, if y.toNat ≤ x.toNat then 1 else 0),
    (.ssel d a b, if old ≠ 0 then x else y),
    (.slea d a b 0, x + y), (.slea d a b 1, x + (y <<< 1)), (.slea d a b 2, x + (y <<< 2)), (.slea d a b 3, x + (y <<< 3)),
    (.slea d a b 4, x + (y <<< 4)), (.slea d a b 5, x + (y <<< 5)), (.slea d a b 6, x + (y <<< 6)), (.slea d a b 7, x + (y <<< 7)),
    (.sbfx d a b false, BitVec.ofNat 64 field),
    (.sbfx d a b true, if 2 ^ (len - 1) ≤ field then BitVec.ofInt 64 ((field : Int) - 2 ^ len) else BitVec.ofNat 64 field),
    (.sbfi d a b, (old &&& ~~~ mask) ||| ((x <<< pos) &&& mask))]

/-- One-source scalar instructions and their results (R118). -/
def Iss.scalarOne (i : Iss) (d : Dst) (a : Src) : List (Instr × Word) :=
  let x := i.uni a
  [(.snot d a, ~~~ x), (.smov d a, x),
    (.spopc d a, BitVec.ofNat 64 ((List.range 64).filter fun k => x.getLsbD k).length),
    (.sclz d a, BitVec.ofNat 64 (if x = 0 then 64 else 63 - Nat.log2 x.toNat)),
    (.sext d a .i8, (x.setWidth 8).signExtend 64), (.sext d a .i16, (x.setWidth 16).signExtend 64),
    (.sext d a .i32, (x.setWidth 32).signExtend 64), (.sext d a .n8, x &&& 0xFF), (.sext d a .n16, x &&& 0xFFFF),
    (.sext d a .n32, x &&& 0xFFFFFFFF)]

/-- Predicate instructions and the lanes they give (R122). -/
def Iss.predicates (i : Iss) (d a b : BitVec 5) : List (Instr × Lanes) :=
  let p := i.g.rdP a.toNat
  let q := i.g.rdP b.toNat
  [(.pand d a b false, p &&& q), (.pand d a b true, p &&& ~~~ q), (.por d a b false, p ||| q), (.por d a b true, p ||| ~~~ q),
    (.pxor d a b false, p ^^^ q), (.pxor d a b true, p ^^^ ~~~ q), (.pnot d a, ~~~ p), (.pmov d a, p)]

/-- Predicate instructions with an S destination and their results (R122). -/
def Iss.fromPredicate (i : Iss) (d : BitVec 6) (a : BitVec 5) : List (Instr × Word) :=
  let p := i.g.rdP a.toNat
  let ls := (List.range 32).filter fun l => laneIn i.active l && !laneIn i.g.helper l
  [(.pgetm d a false, p.setWidth 64), (.pgetm d a true, (p &&& i.active).setWidth 64),
    (.pany d a, if ls.any (laneIn p) then 1 else 0), (.pall d a, if ls.all (laneIn p) then 1 else 0),
    (.pcnt d a, BitVec.ofNat 64 (ls.filter (laneIn p)).length)]

/-- Element-wise instructions with a B operand: type set, and the value and flags of one element from A's, B's and D's (R99, R100, R106). With N = 1
a VMAD is the product alone (R97). -/
def Iss.elementTwo (i : Iss) (d : Dst) : List ((Dst → Src → SrcB → Instr) × (ElemType → Bool) × (Nat → Nat → Nat → Nat × Flags)) :=
  let t := i.ty
  let v := decodeElem t
  let done := finish t i.rnd i.sat
  let n := intOf t
  [(.vadd, tsAll, fun x y _ => done (addVal i.rnd (v x) (v y))),
    (.vsub, tsAll, fun x y _ => done (subVal i.rnd (v x) (v y))),
    (.vmul, tsAll, fun x y _ => done (mulVal (v x) (v y))),
    (.vmad, tsAll, fun x y z => done (match d with | .none => mulVal (v x) (v y) | .reg _ => fmaVal i.rnd (v x) (v y) (v z))),
    (.vmadn, tsAll, fun x y z => done (fmaVal i.rnd (v x).negate (v y) (v z))),
    (.vmin, tsAll, fun x y _ => done (extremeVal false (v x) (v y))),
    (.vmax, tsAll, fun x y _ => done (extremeVal true (v x) (v y))),
    (.vclmp, tsAll, fun x y z => done (clampVal (v z) (v x) (v y))),
    (.vshl, tsInt, fun x c _ => narrowInt t i.sat (n x * 2 ^ min c 128)),
    (fun d a b => .vshr d a b false, tsInt, fun x c _ => (wrapInt t (n x / 2 ^ min c 128), 0)),
    (fun d a b => .vshr d a b true, tsInt, fun x c _ =>
      let q := roundInt i.rnd (decide (n x < 0)) (n x).natAbs (-(min c 130 : Nat)) false
      (wrapInt t q.1, if q.2 then flINX else 0)),
    (.vrot, tsInt, fun x c _ => ((x * 2 ^ (c % width t) % 2 ^ width t) + x / 2 ^ (width t - c % width t), 0)),
    (.vmulh, tsInt, fun x y _ => (wrapInt t (n x * n y / 2 ^ width t), 0)),
    (.vabd, tsAll, fun x y _ => done (let e := subVal i.rnd (v x) (v y); ((absVal e.1).1, e.2))),
    (.vdiv, tsSf64, fun x y _ => done (divVal (v x) (v y)))]

/-- Element-wise instructions with one source, but for VFCLS (R99, R100, R105, R107). -/
def Iss.elementOne (i : Iss) : List ((Dst → Src → Instr) × (ElemType → Bool) × (Nat → Nat × Flags)) :=
  let t := i.ty
  let v := decodeElem t
  let done := finish t i.rnd i.sat
  let fn (f : Fn) (x : Nat) : Nat × Flags := fnElem f t i.rnd i.sat (v x)
  [(.vabs, tsAll, fun x => done (absVal (v x))), (.vneg, tsAll, fun x => done (negVal (v x))),
    (.vpopc, tsInt, fun x => (countOnes (width t) x, 0)), (.vclz, tsInt, fun x => (leadingZeros (width t) x, 0)),
    (fun d a => .vrint d a false, tsFlt, fun x => rintElem t i.rnd i.sat false x),
    (fun d a => .vrint d a true, tsFlt, fun x => rintElem t i.rnd i.sat true x),
    (.vrcp, tsSf, fn .rcp), (.vrsq, tsSf, fn .rsq), (.vsqrt, tsSf64, fn .sqrt), (.vex2, tsSf, fn .ex2), (.vlg2, tsSf, fn .lg2),
    (.vsinp, tsSf, fn .sinp), (.vcosp, tsSf, fn .cosp), (.vtanh, tsSf, fn .tanh)]

/-- Instructions that combine or move whole lanes bit for bit (R99, R109). -/
def Iss.laneTwo (i : Iss) : List ((Dst → Src → SrcB → Instr) × (ElemType → Bool) × (Word → Word → Word)) :=
  [(.vand, tsAll, fun x y => x &&& y), (.vor, tsAll, fun x y => x ||| y), (.vxor, tsAll, fun x y => x ^^^ y),
    (fun d a b => .vpack d a b false, tsNar, packLane i.ty false), (fun d a b => .vpack d a b true, tsNar, packLane i.ty true),
    (fun d a b => .vunpk d a b false, tsNar, unpackLane i.ty false), (fun d a b => .vunpk d a b true, tsNar, unpackLane i.ty true)]

end Sys2Proof.Machine
end

