-- ==== Sys2Proof/Certificates/Slice0/Obligations.lean ====
section
/-! DEFINITION. The statements that the provers are asked for. -/

open Sys2Proof Sys2Proof.Machine

/-! ## Scalar and predicate families -/

/-- R118, R119, R120: every scalar instruction of two sources, of one, and with an immediate completes with its result in S[D] and in L0, sets no
flag, and changes nothing else of the group; no other group and no byte of memory changes. -/
def Obligations.ScalarInstructions : Prop :=
  (∀ (s : State) (i : Iss) (d : Dst) (a b : Src), s.issue? = some i → i.checkSca .i64 [a, b] = .ok () →
    i.g.destBusy i.sl.wb [] (dstRegs d) = false →
    ∀ p ∈ i.scalarTwo d a b, ∃ t g', exec p.1 s = .next t ∧ i.Alone t g' ∧ i.ScalarResult d p.2 0 g') ∧
  (∀ (s : State) (i : Iss) (d : Dst) (a : Src) (v : BitVec 10), s.issue? = some i → i.checkSca .i64 [a] = .ok () →
    i.g.destBusy i.sl.wb [] (dstRegs d) = false →
    ∀ p ∈ i.scalarOne d a ++ [(.saddi d a v, i.uni a + v.signExtend 64), (.smovi d v, v.signExtend 64),
        (.sshi d v, (i.oldS d <<< 10) ||| v.setWidth 64)],
      ∃ t g', exec p.1 s = .next t ∧ i.Alone t g' ∧ i.ScalarResult d p.2 0 g')

/-- R122: of P[d] the active lanes, or all 32 for PSETM, take the result, and no flag and no latch changes (0x70-0x75); S[d] takes what 0x76-0x79 read
of P[a] under the slot's mask. -/
def Obligations.PredicateInstructions : Prop :=
  (∀ (s : State) (i : Iss) (d a b : BitVec 5) (x : Src), s.issue? = some i →
    (∀ p ∈ i.predicates d a b, ∃ t g', exec p.1 s = .next t ∧ i.Alone t g' ∧ i.PredResult d i.active p.2 0 g') ∧
    (i.checkSca .i64 [x] = .ok () → ∃ t g', exec (.psetm d x) s = .next t ∧ i.Alone t g' ∧ i.PredResult d (-1) ((i.uni x).setWidth 32) 0 g')) ∧
  (∀ (s : State) (i : Iss) (d : BitVec 6) (a : BitVec 5), s.issue? = some i → i.g.destBusy i.sl.wb [] [d.toNat] = false →
    ∀ p ∈ i.fromPredicate d a, ∃ t g', exec p.1 s = .next t ∧ i.Alone t g' ∧ i.PlainResult (.reg d) p.2 g')

/-! ## Vector family -/

/-- R59, R96, R97, R99, R100, R106, R107: the element-wise instructions with a B operand. A lane's result holds, in sub-element k, the function of the
operands' sub-elements k, and its flags are theirs together. Where a source is %drn, the lanes come from the next drain row, and the machine stands
otherwise as the read of that row has left it.
Rests on log entry 9. -/
def Obligations.ElementsTwoSources : Prop :=
  (∀ (t : ElemType) (f : Nat → Nat → Nat → Nat × Flags) (a b c : Word),
    (∀ k, k < nsub t → sub (laneOp t f a b c).1 k t = (f (sub a k t) (sub b k t) (sub c k t)).1 % 2 ^ width t) ∧
    (∀ n, (laneOp t f a b c).2.getLsbD n = (List.range (nsub t)).any fun k => (f (sub a k t) (sub b k t) (sub c k t)).2.getLsbD n)) ∧
  ∀ (s : State) (i j : Iss) (row : Nat → Word) (d : Dst) (a : Src) (b : SrcB), s.issue? = some i → ∀ p ∈ i.elementTwo d,
    i.checkVec p.2.1 (a :: srcsB b) = .ok () → i.g.destBusy i.sl.wb (dstRegs d) [] = false → i.rows (a :: srcsB b) = some (j, row) →
    ∃ t g', exec (p.1 d a b) s = .next t ∧ j.Alone t g' ∧
      let r (l : Nat) : Word × Flags := laneOp j.ty p.2.2 (j.vec j.ty row a l) (j.vecB j.ty row b l) (j.old d l)
      j.VectorResult d j.guard (fun l => (r l).1)
        (j.laneFlags (fun l => (r l).2) ||| j.countFlags j.ty a ||| (srcsB b).foldl (fun f x => f ||| j.countFlags j.ty x) 0) g'

/-- R96, R99, R100, R105-R107: the element-wise instructions with one source; VFCLS gives each element its class and sets no flag. -/
def Obligations.ElementsOneSource : Prop :=
  (∀ (s : State) (i j : Iss) (row : Nat → Word) (d : Dst) (a : Src), s.issue? = some i → ∀ p ∈ i.elementOne,
    i.checkVec p.2.1 [a] = .ok () → i.g.destBusy i.sl.wb (dstRegs d) [] = false → i.rows [a] = some (j, row) →
    ∃ t g', exec (p.1 d a) s = .next t ∧ j.Alone t g' ∧
      let r (l : Nat) : Word × Flags := laneOp j.ty (fun x _ _ => p.2.2 x) (j.vec j.ty row a l) 0 0
      j.VectorResult d j.guard (fun l => (r l).1) (j.laneFlags (fun l => (r l).2) ||| j.countFlags j.ty a) g') ∧
  ∀ (s : State) (i j : Iss) (row : Nat → Word) (d : Dst) (a : Src), s.issue? = some i → i.checkVec tsFlt [a] = .ok () →
    i.g.destBusy i.sl.wb (dstRegs d) [] = false → i.rows [a] = some (j, row) →
    ∃ t g' f, exec (.vfcls d a) s = .next t ∧ j.Alone t g' ∧ j.VectorResult d j.guard f 0 g' ∧
      ∀ l, l < 32 → ∀ k, k < nsub j.ty → sub (f l) k j.ty = classOf j.ty (sub (j.vec j.ty row a l) k j.ty) % 2 ^ width j.ty

/-- R99, R102, R103, R109: the instructions that move or combine whole lanes set no flag. VSEL writes every active lane, with A where the guard holds
and B elsewhere; with N = 1 the lanes that fail the guard are zero in L0 [R44]. [R99, R103] VNOT, VMOV, VMOVI and VADDI; an immediate that T does not hold
stops the last two with ILLOP 11.
Rests on log entry 6. -/
def Obligations.WholeLanes : Prop :=
  (∀ (s : State) (i j : Iss) (row : Nat → Word) (d : Dst) (a : Src) (b : SrcB), s.issue? = some i →
    i.g.destBusy i.sl.wb (dstRegs d) [] = false → i.rows (a :: srcsB b) = some (j, row) →
    (∀ p ∈ i.laneTwo, i.checkVec p.2.1 (a :: srcsB b) = .ok () →
      ∃ t g', exec (p.1 d a b) s = .next t ∧ j.Alone t g' ∧
        j.VectorResult d j.guard (fun l => p.2.2 (j.vec j.ty row a l) (j.vecB j.ty row b l)) 0 g') ∧
    (i.checkVec tsAll (a :: srcsB b) = .ok () →
      ∃ t g', exec (.vsel d a b) s = .next t ∧ j.Alone t g' ∧
        j.VectorResult d (match d with | .reg _ => j.active | .none => j.guard) (fun l => if laneIn j.guard l then j.vec j.ty row a l else j.vecB j.ty row b l) 0 g')) ∧
  (∀ (s : State) (i j : Iss) (row : Nat → Word) (d : Dst) (a : Src) (v : BitVec 10), s.issue? = some i → tsAll i.ty = true →
    i.g.destBusy i.sl.wb (dstRegs d) [] = false → i.checkVec tsAll [a] = .ok () → i.rows [a] = some (j, row) →
    (∃ t g', exec (.vnot d a) s = .next t ∧ j.Alone t g' ∧ j.VectorResult d j.guard (fun l => ~~~ j.vec j.ty row a l) 0 g') ∧
    (∃ t g', exec (.vmov d a) s = .next t ∧ j.Alone t g' ∧ j.VectorResult d j.guard (fun l => j.vec j.ty row a l) 0 g') ∧
    (match constElem i.ty (Val.ofInt v.toInt) with
     | none => exec (.vmovi d v) s = .next (i.conclude (.trap (illopTrap 11))) ∧ exec (.vaddi d a v) s = .next (i.conclude (.trap (illopTrap 11)))
     | some y =>
       (∃ t g', exec (.vmovi d v) s = .next t ∧ i.Alone t g' ∧ i.VectorResult d i.guard (fun _ => splat i.ty y) 0 g') ∧
       ∃ t g', exec (.vaddi d a v) s = .next t ∧ j.Alone t g' ∧
        let f (x _ _ : Nat) : Nat × Flags := finish i.ty i.rnd i.sat (addVal i.rnd (decodeElem i.ty x) (decodeElem i.ty y))
        let r (l : Nat) : Word × Flags := laneOp j.ty f (j.vec j.ty row a l) 0 0
        j.VectorResult d j.guard (fun l => (r l).1) (j.laneFlags (fun l => (r l).2) ||| j.countFlags j.ty a) g'))

/-- R101, R106: VCMP writes its condition, which holds in every sub-element or not, into P[d] under the guard; VCPYS gives each element of A
the sign of B's, and a NaN of A canonical. -/
def Obligations.CompareAndSign : Prop :=
  ∀ (s : State) (i j : Iss) (row : Nat → Word) (p : BitVec 5) (d : Dst) (a b : Src) (c : VCond), s.issue? = some i →
    i.rows [a, b] = some (j, row) → i.g.destBusy i.sl.wb (dstRegs d) [] = false → i.g.destBusy i.sl.wb [] [] = false →
    (i.checkVec tsAll [a, b] = .ok () → ∃ t g' m, exec (.vcmp p a b c) s = .next t ∧ j.Alone t g' ∧
      j.PredResult p j.guard m (j.laneFlags (fun l => laneCondFlags j.ty (j.vec j.ty row a l) (j.vec j.ty row b l)) |||
        j.countFlags j.ty a ||| j.countFlags j.ty b) g' ∧
      ∀ l, l < 32 → (laneIn m l = true ↔ ∀ k, k < nsub j.ty →
        condVal c (decodeElem j.ty (sub (j.vec j.ty row a l) k j.ty)) (decodeElem j.ty (sub (j.vec j.ty row b l) k j.ty)) = true)) ∧
    (i.checkVec tsFlt [a, b] = .ok () → ∃ t g', exec (.vcpys d a b) s = .next t ∧ j.Alone t g' ∧
      let f (x y _ : Nat) : Nat × Flags :=
        if (decodeElem i.ty x).isNaN then (canonNaN i.ty, sigFlag (decodeElem i.ty x))
        else (y / 2 ^ (width i.ty - 1) % 2 * 2 ^ (width i.ty - 1) + x % 2 ^ (width i.ty - 1), 0)
      let r (l : Nat) : Word × Flags := laneOp j.ty f (j.vec j.ty row a l) (j.vec j.ty row b l) (j.old d l)
      j.VectorResult d j.guard (fun l => (r l).1) (j.laneFlags (fun l => (r l).2) ||| j.countFlags j.ty a ||| j.countFlags j.ty b) g')

/-- R76, R77, R104, R105: VCVT reads M elements of S, M the smaller element count, from the part p of A where S's are the narrower, and writes the part
p of D where T's are; the rest of D stands. FLAGS takes what the conversions of the counted lanes and of a count-valued A set. A conversion to an integer
type rounds; a NaN gives 0 and INV, and what lies outside the type its nearer bound, with ISAT or INV by SAT. Between integer types the exact value
is narrowed [R75]; into another type it is rounded, a NaN is the canonical one, with INV if it signals, and into dya8 it is zero with INV. -/
def Obligations.Convert : Prop :=
  (∀ (s : State) (i j : Iss) (row : Nat → Word) (d : Dst) (a : Src) (st : ElemType) (p : BitVec 3), s.issue? = some i →
    tsAll i.ty = true → st ≠ .d → p.toNat < max (width st) (width i.ty) / min (width st) (width i.ty) → constBad st a = false →
    i.latchBad false a = none → i.g.destBusy i.sl.wb (dstRegs d) [] = false → i.rows [a] = some (j, row) →
    ∃ t g' f fl, exec (.vcvt d a st p) s = .next t ∧ j.Alone t g' ∧ j.VectorResult d j.guard f fl g' ∧
      (∀ n, fl.getLsbD n = (((lanesOf j.counted).any fun l => (List.range (min (nsub st) (nsub i.ty))).any fun e =>
        (convertElem st i.ty i.rnd i.sat (sub (j.vec st row a l) (if nsub st > nsub i.ty then p.toNat * nsub i.ty + e else e) st)).2.getLsbD n) ||
          (j.countFlags st a).getLsbD n)) ∧
      ∀ l, l < 32 → ∀ k, k < nsub i.ty →
        let c (n : Nat) : Nat := (convertElem st i.ty i.rnd i.sat (sub (j.vec st row a l) n st)).1 % 2 ^ width i.ty
        sub (f l) k i.ty =
          if nsub st > nsub i.ty then c (p.toNat * nsub i.ty + k)
          else if p.toNat * nsub st ≤ k ∧ k < p.toNat * nsub st + nsub st then c (k - p.toNat * nsub st)
          else sub (j.old d l) k i.ty) ∧
  ∀ (st t : ElemType) (r : Rnd) (sat : Bool) (x : Nat), st ≠ .d → t ≠ .d →
    let v := decodeElem st x
    let c := convertElem st t r sat x
    let out : Flags := if sat then flISAT else flINV
    (isInt t = true → isInt st = true → c = narrowInt t sat (intOf st x)) ∧
    (isInt t = true → isInt st = false →
      (v.isNaN = true → c = (0, flINV)) ∧ (∀ neg, v = .inf neg → c = (wrapInt t (if neg then intMin t else intMax t), out)) ∧
      ∀ neg m e f, v = .fin neg m e f → let q := roundInt r neg m e false
        c = if intMax t < q.1 then (wrapInt t (intMax t), out) else if q.1 < intMin t then (wrapInt t (intMin t), out)
          else (wrapInt t q.1, if q.2 then flINX else 0)) ∧
    (isFloat t = true → v.isNaN = true → c = (canonNaN t, if v.isSig then flINV else 0)) ∧ (t = .dya8 → v.isNaN = true → c = (0x77, flINV)) ∧
    (isInt t = false → v.isNaN = false → c = roundTo t r sat v)

/-- R108: VDOT and VHSUM add each lane's canonical sum into what D held in the accumulator type. -/
def Obligations.LaneSums : Prop :=
  ∀ (s : State) (i j : Iss) (row : Nat → Word) (d : Dst) (a : Src) (b : SrcB), s.issue? = some i → i.g.destBusy i.sl.wb (dstRegs d) [] = false →
    let old (l : Nat) : Word := match d with | .reg r => i.g.rdV i.sl.wb r.toNat l | .none => 0
    (i.checkVec tsAll (a :: srcsB b) = .ok () → i.rows (a :: srcsB b) = some (j, row) →
      ∃ t g', exec (.vdot d a b) s = .next t ∧ j.Alone t g' ∧
        let r (l : Nat) : Word × Flags := dotLane j.ty j.sat (j.vec j.ty row a l) (some (j.vecB j.ty row b l)) (old l)
        j.VectorResult d j.guard (fun l => (r l).1)
          (j.laneFlags (fun l => (r l).2) ||| j.countFlags j.ty a ||| (srcsB b).foldl (fun f x => f ||| j.countFlags j.ty x) 0) g') ∧
    (i.checkVec tsAll [a] = .ok () → i.rows [a] = some (j, row) →
      ∃ t g', exec (.vhsum d a) s = .next t ∧ j.Alone t g' ∧
        let r (l : Nat) : Word × Flags := dotLane j.ty j.sat (j.vec j.ty row a l) none (old l)
        j.VectorResult d j.guard (fun l => (r l).1) (j.laneFlags (fun l => (r l).2) ||| j.countFlags j.ty a) g')

/-- R110-R114: the instructions that read elements of other lanes; an element of a lane that has exited or never launched, or that T does not
have, reads 0, also where A is no register, and no flag is set.
Rests on log entries 66, 69. -/
def Obligations.CrossLane : Prop :=
  ∀ (s : State) (i j : Iss) (row : Nat → Word) (d : Dst) (a b : Src) (bb : SrcB), s.issue? = some i →
    i.g.destBusy i.sl.wb (dstRegs d) [] = false →
    (i.checkVec tsAll (a :: srcsB bb) = .ok () → i.rows (a :: srcsB bb) = some (j, row) →
      ∃ t g' f, exec (.vperm d a bb) s = .next t ∧ j.Alone t g' ∧ j.VectorResult d j.guard f 0 g' ∧
        ∀ l, l < 32 → ∀ k, k < nsub j.ty → sub (f l) k j.ty =
          let x := (j.vecB j.ty row bb l).toNat / 2 ^ (8 * k)
          j.cross j.ty (j.vec j.ty row a) (x % 32) (x / 32 % 8) % 2 ^ width j.ty) ∧
    (tsAll i.ty = true → constBad i.ty a = false → constBad .i64 b = false → i.latchBad false a = none → i.latchBad true b = none →
      i.rows [a] = some (j, row) →
      (∃ t g', exec (.vbcst d a b) s = .next t ∧ j.Alone t g' ∧
        j.VectorResult d j.guard (fun _ => splat j.ty (j.cross j.ty (j.vec j.ty row a) ((j.uni b).toNat % 32) ((j.uni b).toNat / 32 % 8))) 0 g') ∧
      ∀ rot, ∃ t g' f, exec (.vslid d a b rot) s = .next t ∧ j.Alone t g' ∧ j.VectorResult d j.guard f 0 g' ∧
        ∀ l, l < 32 → ∀ k, k < nsub j.ty → sub (f l) k j.ty =
          let n := nsub j.ty
          let e : Int := ((l * n + k : Nat) : Int) + (j.uni b).toInt
          let e := if rot then e % (32 * n : Int) else e
          if 0 ≤ e ∧ e < (32 * n : Int) then j.cross j.ty (j.vec j.ty row a) (e.toNat / n) (e.toNat % n) % 2 ^ width j.ty else 0)

/-- R114-R117: VRED folds the guarded lanes that are no helper lanes into S[D], from the initial value B; VSCAN gives each element the fold of
those up to it, or before it; VBAL gives the lanes whose register is not 0, or their count. VRED and VBAL write S[D] where no lane is guarded in too.
Rests on log entries 9, 66, 69. -/
def Obligations.Reductions : Prop :=
  ∀ (s : State) (i j : Iss) (row : Nat → Word) (d : Dst) (a b : Src), s.issue? = some i → tsAll i.ty = true → constBad i.ty a = false →
    i.latchBad false a = none → i.rows [a] = some (j, row) →
    (∀ p, constBad (redOut p i.ty) b = false → i.latchBad true b = none → i.g.destBusy i.sl.wb [] (dstRegs d) = false →
      let u := redOut p i.ty
      let r := redValue p j.ty j.sat (sub (j.sca u b) 0 u) (redTerms j.ty j.counted (j.vec j.ty row a))
      ∃ t g', exec (.vred d a b p) s = .next t ∧ j.Alone t g' ∧
        j.ScalarResult d (extendElem u (redPattern p u r.1)) (r.2 ||| j.countFlags j.ty a ||| j.countFlags u b) g') ∧
    (∀ p ex, constBad (redOut (ammRed p) i.ty) b = false → i.latchBad true b = none → i.g.destBusy i.sl.wb (dstRegs d) [] = false →
      let u := redOut (ammRed p) i.ty
      let upTo (e : Nat) : Nat × Flags := redValue (ammRed p) j.ty j.sat (sub (j.sca u b) 0 u)
        ((redTerms j.ty j.counted (j.vec j.ty row a)).filter fun x => if ex then decide (x.1 < e) else decide (x.1 ≤ e))
      let elem (e : Nat) : Nat := match p with
        | .add => (convertElem u j.ty j.rnd j.sat (upTo e).1).1
        | _ => (upTo e).1
      ∃ t g' f fl, exec (.vscan d a b p ex) s = .next t ∧ j.Alone t g' ∧ j.VectorResult d j.guard f fl g' ∧
        ∀ l, l < 32 → ∀ k, k < nsub j.ty → sub (f l) k j.ty = elem (l * nsub j.ty + k) % 2 ^ width j.ty) ∧
    (∀ c, i.g.destBusy i.sl.wb [] (dstRegs d) = false →
      let m := j.counted &&& maskOf fun l => j.vec j.ty row a l != 0
      ∃ t g', exec (.vbal d a c) s = .next t ∧ j.Alone t g' ∧
        j.ScalarResult d (if c then BitVec.ofNat 64 (popcount m) else m.setWidth 64) (j.countFlags j.ty a) g')

/-- R41, R50, R45: a vector instruction under a TYPE outside its set is ILLOP 10, and one that reads %drn where no MDRN row is left is PROT 7.
Rests on log entries 6, 8. -/
def Obligations.VectorTraps : Prop :=
  ∀ (s : State) (i : Iss) (d : Dst) (a : Src) (b : SrcB), s.issue? = some i → ∀ p ∈ i.elementTwo d,
    (p.2.1 i.ty = false → exec (p.1 d a b) s = .next (i.conclude (.trap (illopTrap 10)))) ∧
    (i.checkVec p.2.1 (a :: srcsB b) = .ok () → i.g.destBusy i.sl.wb (dstRegs d) [] = false →
      a = .spec .drn ∨ b = .src (.spec .drn) → i.b.drainsOf (i.gr.grp % 6) = [] →
      exec (p.1 d a b) s = .next (i.conclude (.trap (plainTrap .prot 7))))

/-! ## Memory family -/

/-- R126, R129, R132-R134, R276: where its operands pass their checks and there is room, a load or store issues into the group's queue with the lanes,
addresses and data it has read, and the slot goes on; nothing is accessed yet. [R218] In a slot of helper lanes only, SST, SYNCW, CPT, HRES, HBRK and HFREE
have no effect, and LAUNCH, ARM, DISARM, INVOKE, INVH and VGCMD give 0 and have no other; a CPB there supplies an empty slice. [R135, R138, R147,
R148, R276] VGATH captures its index run and resumes at PIX, SAMP and SAMPG their descriptor's address and coordinates, CPA its addresses and byte
counts, ATOMO its address, value and ordinal; each issues into the queue as loads and stores do.
Rests on log entry 22. -/
def Obligations.AccessesIssue : Prop :=
  (∀ (s : State) (i : Iss) (d : Dst) (ds : BitVec 6) (dd : BitVec 5) (a b : Src) (x : Space) (sp : Bool), s.issue? = some i →
    (i.checkLaneOps [b] [a] = .ok () → ∀ m ∈ i.laneAccesses d ds dd a b x, i.Room m →
      ∃ t g', exec m.instr s = .next t ∧ i.Within (isOutside m.instr) t g' ∧ i.Queued m g') ∧
    (i.checkSca .i64 [a, b] = .ok () → ∀ m ∈ i.rowAccesses d ds a b x, i.Room m →
      ∃ t g', exec m.instr s = .next t ∧ i.Within (isOutside m.instr) t g' ∧ i.Queued m g') ∧
    (i.checkSca .i64 [a, b] = .ok () →
      (let m := i.mem (.sld d a b sp) 1 0 [i.uni a, i.uni b] []
       i.Room m → ∃ t g', exec m.instr s = .next t ∧ i.Within false t g' ∧ i.Queued m g') ∧
      let m := i.mem (.sst ds a b sp) 1 0 [i.g.rdS i.sl.wb ds.toNat, i.uni a, i.uni b] []
      if i.onlyHelpers then ∃ t g', exec m.instr s = .next t ∧ i.Alone t g' ∧ i.Onward g' ∧ g'.core = i.g.core
      else i.Room m → ∃ t g', exec m.instr s = .next t ∧ i.Within (!sp) t g' ∧ i.Queued m g')) ∧
  (∀ (s : State) (i : Iss) (d : Dst) (r : BitVec 6) (a b : Src) (x : Space), s.issue? = some i →
    (let h := (nsub i.ty + 1) / 2
     let m := i.mem (.vgath d r b x) i.counted i.helpers [i.uni b] ((List.range h).flatMap fun j => perLane fun l => i.g.rdV i.sl.wb (r.toNat + j) l)
     tsAll i.ty = true → r.toNat + h ≤ 64 → i.checkSca .i64 [b] = .ok () → i.Room m →
      ∃ t g', exec m.instr s = .next t ∧ i.Within false t g' ∧ i.Queued m g') ∧
    (∀ instr ∈ [Instr.samp d a b false, .samp d a b true, .sampg d a b false, .sampg d a b true],
      let old (l : Nat) : Word := match d with | .reg r => i.g.rdV i.sl.wb r.toNat l | .none => 0
      let m := i.mem instr i.counted i.helpers [i.uni b] (perLane (i.vec .f32 (fun _ => 0) a) ++ perLane old)
      constBad .f32 a = false → i.checkSca .i64 [b] = .ok () → i.Room m →
      ∃ t g', exec instr s = .next t ∧ i.Within false t g' ∧ i.Queued m g') ∧
    (∀ tag : BitVec 3, let data : List Word := perLane fun l => i.g.rdV i.sl.wb r.toNat l
      let m := i.mem (.cpa r a b tag) i.counted i.helpers (perLane (i.laneWord a)) (data ++ perLane (i.laneWord b))
      i.checkLaneOps [] [a, b] = .ok () → i.g.tagc.getD tag.toNat 0 < 255 → i.Room m →
      ∃ t g', exec m.instr s = .next t ∧ i.Within false t g' ∧ i.Queued m g') ∧
    let m := i.mem (.atomo a b) i.counted i.helpers (perLane (i.laneWord a)) (perLane (i.vec i.ty (fun _ => 0) b))
    i.ty = .f32 ∨ i.ty = .f64 → constBad .i64 a = false → constBad i.ty b = false → i.g.ordcl = false → i.Room m →
      ∃ t g', exec m.instr s = .next t ∧ i.Within true t g' ∧ i.Queued m g') ∧
  ∀ (s : State) (i : Iss) (d ds : BitVec 6) (a b : Src) (sp fwd : Bool), s.issue? = some i → i.onlyHelpers = true → i.checkSca .i64 [a, b] = .ok () →
    (∀ instr ∈ [Instr.sst ds a b sp, .syncw a b, .cpt a b, .hres a fwd, .hbrk a, .hfree a],
      ∃ t g', exec instr s = .next t ∧ i.Alone t g' ∧ i.Onward g' ∧ g'.core = i.g.core) ∧
    (i.g.destBusy i.sl.wb [] [d.toNat] = false → ∀ instr ∈ [Instr.launch d a, .arm d a, .disarm d a, .invoke d a b, .invh d a b, .vgcmd d a b],
      ∃ t g', exec instr s = .next t ∧ i.Alone t g' ∧ i.PlainResult (.reg d) 0 g') ∧
    (i.g.quiet = true → i.b.collective? i.g.collSeq = none →
      ∃ t b' g' o, exec (.cpb a) s = .next t ∧ i.Issued (.cpb a) 0 [0] t b' g' o ∧ o.parts = [i.part [0] [] 0])

/-- R128, R254, R391: ACCESS_PERFORM accepts the group's oldest load or store not yet accepted when every lane passes its checks, noting the
place of each; otherwise the trap of the lowest failing lane is taken, which is that of its accesses that ranks first. An access that passes its
checks but for a conflict with a write of a watched granule that its agent does not know of is an MMX (R265, R268). From its acceptance on, a store
holds its watched granules against other agents, and a load keeps what its watched places held (log entry 34). A store that finds a slice with no pin
left releases first, and waits while none is free [R249]. A sample's descriptor is checked and captured, then its texels; a CPA, once the group's
earlier accesses have performed, becomes a transfer with the bytes of its sources [R147, R148].
Rests on log entries 7, 17, 21, 34. -/
def Obligations.AccessesAreChecked : Prop :=
  (∀ (s : State) (gr : GRef) (b : Block) (g : Group) (m : MemOp) (k : Nat) (lanes : BitVec 32), s.block? gr.blk = some b → s.group? gr = some g →
    b.place.isSome → b.aborted = false → g.awaitsHome = false → g.memq[k]? = some m → m.accepted = false → (∀ n ∈ g.memq.take k, n.accepted = true) →
    let who := s.memWho b g gr.grp m
    let core := coreIdx gr.grp
    let trapped (u : State) (e : Trap) : State := if (u.memoryTrap gr m.id e).overPinned then u.pinRelease gr else u.memoryTrap gr m.id e
    let entered (u : State) (x : MemOp) : State :=
      (u.claimStore (u.memWho b g gr.grp m) x).modGroup gr fun g => { g with memq := g.memq.map fun n => if n.id = m.id then { x with got := u.holdings x } else n }
    ((isLoad m.instr || isStore m.instr) = true → (∀ d r c x, m.instr ≠ .vgath d r c x) → (∀ d a c hi, m.instr ≠ .samp d a c hi ∧ m.instr ≠ .sampg d a c hi) →
      let check (l : Nat) : Except Trap Acc := s.check who b core (m.req l) true
      (∀ f : Nat → Acc, (∀ l ∈ lanesOf m.lanes, check l = .ok (f l)) →
        let help := if isLoad m.instr then s.helperLanes who b core ((lanesOf m.help).map fun l => (l, m.req l)) else []
        let x := { m with accs := ((lanesOf m.lanes).map fun l => (l, (f l).loc, (f l).watch, (f l).ckpt)) ++ help, accepted := true }
        let u := if s.pinRoom (s.newPins g.agent x) then s else s.pinRelease gr
        exec (.accessPerform gr k lanes) s = .next (
          if u.pinRoom (u.newPins g.agent x) = false then u
          else if x.accs.any (fun y => isFarStore y.2.1.store) then ((entered u x).requestAll x).performAccepted gr else entered u x)) ∧
      (∀ l ∈ lanesOf m.lanes, ∀ e, check l = .error e → (∀ n ∈ lanesOf m.lanes, n < l → ∃ a, check n = .ok a) →
        exec (.accessPerform gr k lanes) s = .next (trapped s { e with lane := l })) ∧
      ∀ l a w, s.check who b core (m.req l) false = .ok a → a.watch = true → s.race? who a.loc (m.req l).n (m.req l).w = some w →
        check l = .error ⟨.mmx, if isStore m.instr then 1 else 2, m.addr l, 0, w.detail⟩) ∧
    (∀ l0 a, (∃ d x c hi, m.instr = .samp d x c hi ∨ m.instr = .sampg d x c hi) → (lanesOf m.lanes).head? = some l0 →
      (∀ e, s.check who b core (texReq (m.opa.getD 0 0)) true = .error e → exec (.accessPerform gr k lanes) s = .next (trapped s { e with lane := l0 })) ∧
      (s.check who b core (texReq (m.opa.getD 0 0)) true = .ok a →
        (g.clearFor m.id a.loc 64 = false → exec (.accessPerform gr k lanes) s = .next s) ∧
        (g.clearFor m.id a.loc 64 = true →
          let x := { m with opb := m.opb ++ (List.range 8).map fun j => BitVec.ofNat 64 (s.num (a.loc.add (8 * j)) 8) }
          (∀ e, s.checkLanes who b core ((lanesOf m.lanes).flatMap (x.texReqs x.tex)) = .error e → exec (.accessPerform gr k lanes) s = .next (trapped s e)) ∧
          ∀ accs, s.checkLanes who b core ((lanesOf m.lanes).flatMap (x.texReqs x.tex)) = .ok accs → m.help = 0 → (∀ y ∈ accs, isFarStore y.2.1.store = false) →
            exec (.accessPerform gr k lanes) s = .next (entered s { x with accs := accs, accepted := true, met := s.relsAt a.loc 64 })))) ∧
    (∀ d x c (tag : BitVec 3) (g1 : Group), m.instr = .cpa d x c tag → (s.performAccepted gr).group? gr = some g1 →
      let u := s.performAccepted gr
      let engine := { u.memWho b g1 gr.grp m with agent := u.nextAgent }
      let src (l : Nat) : Word := m.opa.getD l 0
      let count (l : Nat) : Nat := min 32 (m.opb.getD l 0).toNat
      let dst (l : Nat) : Word := m.opb.getD (32 + l) 0
      let reads (l j : Nat) : Except Trap Acc :=
        u.check engine b core ⟨.gl, src l + BitVec.ofNat 64 (8 * j), min 8 (count l - 8 * j), decide ((src l).toNat % 8 = 0), true, false, false, false, true⟩ true
      let writes (l : Nat) : Except Trap Acc := u.check engine b core ⟨.sp, dst l, 32, decide ((dst l).toNat % 32 = 0), false, true, false, true, true⟩ true
      let passes (l : Nat) : Prop := (∀ j, j < (count l + 7) / 8 → ∃ a, reads l j = .ok a) ∧ ∃ a, writes l = .ok a
      (∀ (fa : Nat → Nat → Acc) (fd : Nat → Acc), (∀ l ∈ lanesOf m.lanes, (∀ j, j < (count l + 7) / 8 → reads l j = .ok (fa l j)) ∧ writes l = .ok (fd l)) →
        ∃ t g' y, exec (.accessPerform gr k lanes) s = .next t ∧ t.group? gr = some g' ∧ (∀ l, t.byte l = u.byte l) ∧ g'.memq = g1.memq.filter (fun n => n.id != m.id) ∧
          g'.cpas = g1.cpas ++ [y] ∧ y.tag = tag.toNat ∧ y.done = false ∧ y.units = [] ∧ y.agent = u.nextAgent ∧ t.nextAgent = u.nextAgent + 1 ∧
          y.lanes = (lanesOf m.lanes).map fun l =>
            (l, (List.range ((count l + 7) / 8)).flatMap (fun j => u.bytes (fa l j).loc (min 8 (count l - 8 * j))), (fd l).loc)) ∧
      (∀ l ∈ lanesOf m.lanes, ¬ passes l → (∀ n ∈ lanesOf m.lanes, n < l → passes n) →
        ∃ e, exec (.accessPerform gr k lanes) s = .next (trapped u e) ∧ e.lane = l ∧
          ((∃ j f, j < (count l + 7) / 8 ∧ reads l j = .error f ∧ e = { f with addr := src l, lane := l }) ∨ ∃ f, writes l = .error f ∧ e = { f with lane := l }) ∧
          (∀ j f, j < (count l + 7) / 8 → reads l j = .error f → e.memRank ≤ f.memRank) ∧ ∀ f, writes l = .error f → e.memRank ≤ f.memRank))) ∧
  (∀ (s : State) (who : Who) (b : Block) (core : Option Nat) (reqs : List (Nat × Req)), (∀ x ∈ reqs, x.1 < 32) → reqs.Pairwise (fun x y => x.1 ≤ y.1) →
    (∀ accs, s.checkLanes who b core reqs = .ok accs ↔ ∃ f : Nat × Req → Acc, (∀ x ∈ reqs, s.check who b core x.2 true = .ok (f x)) ∧
      accs = reqs.map fun x => (x.1, (f x).loc, (f x).watch, (f x).ckpt)) ∧
    ∀ e, s.checkLanes who b core reqs = .error e → (∃ x ∈ reqs, ∃ f, s.check who b core x.2 true = .error f ∧ e = { f with lane := x.1 }) ∧
      ∀ x ∈ reqs, ∀ f, s.check who b core x.2 true = .error f → e.lane ≤ x.1 ∧ (e.lane = x.1 → e.memRank ≤ f.memRank))

/-- R126-R128, R234-R252, R265, R268, R391, R415: the checks of one access in their order, and the place that it may use. Global memory: range,
alignment, translation, the hole, the rights of the page, a described access to a page without descriptors, what another package does not serve, a race on
a watched granule, poison, a failed link. The scratchpad: the slice and the span member, alignment, the footprint, the port, the target core, a race. A
typed buffer: its range, alignment, its size, the port, a race.
Rests on log entry 7. -/
def Obligations.Checks : Prop :=
  ∀ (s : State) (who : Who) (b : Block) (core : Option Nat) (q : Req) (race : Bool), 0 < q.n →
    let a := q.addr.toNat
    let stop (c : Cause) (n : Nat) : Except Trap Acc := .error ⟨c, n, q.addr, 0, 0⟩
    let met (l : Loc) : Option Writer := if race then s.race? who l q.n q.w else none
    let raced (w : Writer) : Except Trap Acc := .error ⟨.mmx, if q.w then 1 else 2, q.addr, 0, w.detail⟩
    (q.space = .gl → s.check who b core q race =
      if ¬ (a / 2 ^ 56 = 0 ∨ a / 2 ^ 56 = 255) then stop .page 1
      else if q.aligned = false then stop .align 1
      else match s.translate who.ctx who.tlb (a % 2 ^ 57) with
        | .error n => stop .page n
        | .ok t =>
          let pa := t.pa + (a % 2 ^ 57 - t.base)
          if 2 ^ 39 ≤ pa ∧ pa < 2 ^ 51 then stop .prot 3
          else if (q.r = true ∧ t.r = false) ∨ (q.w = true ∧ t.w = false) then stop .prot 1
          else if q.descr = true ∧ (t.descr = false ∨ (t.remote = none ∧ 2 ^ 39 ≤ pa)) then stop .prot 4
          else match t.remote with
            | some p =>
              if q.far = false ∨ q.descr = true then stop .prot 6
              else if p ∈ s.failed then stop .page 4
              else .ok ⟨⟨.far p, pa⟩, false, false, t.descr⟩
            | none =>
              match (if t.watch then met ⟨.pkg, pa⟩ else none) with
              | some w => raced w
              | none =>
                if q.r = true ∧ (List.range q.n).any (fun k => s.isPoisoned (pa + k)) = true then stop .ecc 1
                else .ok ⟨⟨.pkg, pa⟩, t.watch, t.ckpt && decide (pa < 2 ^ 39), t.descr⟩) ∧
    (q.space = .sp → s.check who b core q race =
      let slice := a / 2 ^ 18 % 8
      let memb := a / 2 ^ 21 % 8
      let ofs := a % 2 ^ 18
      let span : Bool := a / 2 ^ 24 % 2 = 1
      let admits (x : Block) : Prop := ofs + q.n ≤ x.spr ∨ (x.handler.isSome = true ∧ slice = 0 ∧ 0x3FC00 ≤ ofs ∧ ofs + q.n ≤ 0x40000)
      let live (x : Block) : Prop := ∃ i, i < x.groups.length ∧ i % 6 = slice ∧ (x.groups[i]?).map (·.retired) = some false
      let there (x : Block) : Except Trap Acc := match met ⟨.sp x.id, slice * 2 ^ 18 + ofs⟩ with
        | some w => raced w
        | none => .ok ⟨⟨.sp x.id, slice * 2 ^ 18 + ofs⟩, true, false, false⟩
      open Classical in
      if 2 ^ 25 ≤ a ∨ 5 < slice ∨ (span = false ∧ memb ≠ 0) ∨ (span = true ∧ core.isSome = true ∧ b.spanSize ≤ memb) then stop .prot 2
      else if span = true ∧ core = none then stop .prot 7
      else if q.aligned = false then stop .align 1
      else if q.descr = true then stop .prot 4
      else if span = true ∧ memb ≠ b.spanIdx then
        match s.blocks.find? fun x => x.span == b.span && x.spanIdx == memb && !x.aborted with
        | none => if admits b then stop .peerx 2 else stop .prot 5
        | some x => if ¬ admits x then stop .prot 5 else if q.port = false then stop .prot 9 else if ¬ live x then stop .peerx 2 else there x
      else if ¬ admits b then stop .prot 5
      else if q.port = false then stop .prot 9
      else if (∃ c, core = some c ∧ c ≠ slice) ∧ ¬ live b then stop .peerx 1
      else there b) ∧
    (∀ lim size st, (q.space, lim, size, st) ∈ [(Space.wb, 2 ^ 19, 393216, Store.wb b.id), (.ab, 2 ^ 19, 393216, .ab b.id), (.cb, 2 ^ 18, 262144, .cb b.id)] →
      s.check who b core q race =
        let l : Loc := ⟨st, core.getD 0 * 2 ^ 19 + a⟩
        if lim ≤ a then stop .prot 2
        else if q.aligned = false then stop .align 1
        else if q.descr = true then stop .prot 4
        else if b.matrix = false ∨ size < a + q.n then stop .prot 5
        else if q.port = false then stop .prot 9
        else match met l with
          | some w => raced w
          | none => .ok ⟨l, true, false, false⟩) ∧
    ∀ l, s.race? who l q.n q.w = none ↔ ∀ x ∈ s.writers, x.1.store = l.store → l.ofs / 32 * 32 ≤ x.1.ofs → x.1.ofs ≤ (l.ofs + q.n - 1) / 32 * 32 →
      x.2.agent = who.agent ∨ x.2.time ≤ clockGet who.clock x.2.agent ∨
        (∃ y z, x.2.atomic = some y ∧ who.atomic = some z ∧ inScope y x.2.pos who.pos = true ∧ inScope z who.pos x.2.pos = true) ∨
        (x.2.oadd = true ∧ q.w = false ∧ who.atomic = none)

/-- R130, R132-R134, R254: an accepted access performs lane by lane, at the place its checks gave. A load writes its register's lane with what
the place holds, or has held at its acceptance where a racing write has come between (R268, R270), and changes no memory; a store changes the bytes at its
place, and no other and no register; STDS writes descriptors. [R68, R69, R132-R134] What a load's lane gets and a store's lane writes, by instruction and
TYPE. [R135] A VGATH reads one element at a time from PIX on: a guarded element's check traps there, with PIX at it, and an element's read waits for the
group's older accesses to its bytes; an element of a helper lane that fails its check is 0. [R147] A sample writes the lane. [R156, R221, R393] The group's
own stores and loads of many bytes go page by page, all checked before any performs.
Rests on log entries 5, 17, 34. -/
def Obligations.AccessesPerform : Prop :=
  (∀ (s : State) (gr : GRef) (k l : Nat) (b : Block) (g : Group) (m : MemOp) (p : Loc) (w c : Bool), s.MayAccess gr k l b g m →
    (m.accs.find? (fun x => x.1 == l) = some (l, p, w, c) → s.holds p.store = true →
    (isLoad m.instr = true → (∀ d r c x, m.instr ≠ .vgath d r c x) → (∀ d a c hi, m.instr ≠ .samp d a c hi ∧ m.instr ≠ .sampg d a c hi) →
      let r : Word × Word × Flags := match m.got.find? (fun x => x.1 == l) with
        | some x => if s.overtaken (s.memWho b g gr.grp m) m l then x.2.1 else s.loadValue m p
        | none => s.loadValue m p
      ∃ t g', exec (.accessPerform gr k (laneBit l)) s = .next t ∧ t.group? gr = some g' ∧ g.Kept g' ∧ g.Performed g' m.id l ∧
        (∀ x, t.byte x = s.byte x) ∧ (∀ o, o ≠ gr → t.group? o = s.group? o) ∧
        (∀ d, loadDestS m.instr = some d → g'.v = g.v ∧ ∀ n, g'.rdS m.wb n = if (m.wb + n) % 256 = (m.wb + d) % 256 then r.1 else g.rdS m.wb n) ∧
        (∀ d, loadDestS m.instr = none → loadDest m.instr = [d] → g'.s = g.s ∧ ∀ n x, x < 32 →
          g'.rdV m.wb n x = if x = l ∧ (m.wb + n) % g.av = (m.wb + d) % g.av then r.1 else g.rdV m.wb n x) ∧
        (∀ d e, loadDestS m.instr = none → loadDest m.instr = [d, e] → g'.s = g.s ∧ ∀ n x, x < 32 →
          g'.rdV m.wb n x = if x = l ∧ (m.wb + n) % g.av = (m.wb + e) % g.av then r.2.1
            else if x = l ∧ (m.wb + n) % g.av = (m.wb + d) % g.av then r.1 else g.rdV m.wb n x) ∧
        g'.flags = g.flags ||| if laneIn m.help l then 0 else r.2.2) ∧
    ((∃ d a c x, m.instr = .vst d a c x ∨ m.instr = .vste d a c x ∨ m.instr = .vstb d a c x) ∨ (∃ d a c sp, m.instr = .sst d a c sp) →
      ∃ t g', exec (.accessPerform gr k (laneBit l)) s = .next t ∧ t.group? gr = some g' ∧ g.Kept g' ∧ g.Performed g' m.id l ∧
        g'.v = g.v ∧ g'.s = g.s ∧ g'.flags = g.flags ||| (s.storeBytes m l p).2 ∧ s.Stored t p (s.storeBytes m l p).1 ∧
        ∀ o, o ≠ gr → t.group? o = s.group? o) ∧
    (∀ d a c, m.instr = .stds d a c →
      ∃ t g', exec (.accessPerform gr k (laneBit l)) s = .next t ∧ t.group? gr = some g' ∧ g.Kept g' ∧ g.Performed g' m.id l ∧
        g'.v = g.v ∧ g'.s = g.s ∧ (∀ x, t.byte x = s.byte x) ∧
        ∀ j, t.desc (64 * j) = if p.ofs / 64 ≤ j ∧ j < p.ofs / 64 + 4 then sub (m.opb.getD l 0) (j - p.ofs / 64) .n16 else s.desc (64 * j))) ∧
    (∀ d a c hi, m.instr = .samp (.reg d) a c hi ∨ m.instr = .sampg (.reg d) a c hi → laneIn m.help l = false →
      let r : Word × Flags := match m.got.find? (fun x => x.1 == l) with
        | some x => if s.overtaken (s.memWho b g gr.grp m) m l then (x.2.1.1, x.2.1.2.2) else s.sampleValue m l hi
        | none => s.sampleValue m l hi
      (m.tex = none → s.sampleValue m l hi = (0x7FC000007FC00000, flINV)) ∧
      ∃ t g', exec (.accessPerform gr k (laneBit l)) s = .next t ∧ t.group? gr = some g' ∧ g.Kept g' ∧ g.Performed g' m.id l ∧ (∀ x, t.byte x = s.byte x) ∧
        g'.s = g.s ∧ (∀ n x, x < 32 → g'.rdV m.wb n x = if x = l ∧ (m.wb + n) % g.av = (m.wb + d.toNat) % g.av then r.1 else g.rdV m.wb n x) ∧
        g'.flags = g.flags ||| r.2)) ∧
  (∀ (s : State) (m : MemOp) (l : Nat) (p : Loc),
    let t := modeType m.mode
    let desc := s.desc p.ofs
    let scale : Int := (desc / 16 % 256 : Nat) - 127
    let usable (f : ElemType) : Prop := (desc / 4096 % 16, f) ∈ [(10, ElemType.i8), (11, .n8), (12, .e4m3), (13, .e5m2), (14, .dya8)] ∧ desc % 16 = 0 ∧ desc / 16 % 256 ≠ 255
    let element (u : ElemType) (x : Nat) (r : Nat × Flags) : Prop := (∀ f, usable f → r = convertVal u (modeRnd m.mode) (modeSat m.mode) (scaleVal scale (decodeElem f x))) ∧
      ((∀ f, ¬ usable f) → r = (canonNaN u, flINV))
    ((∃ d a c x, m.instr = .vld d a c x ∨ m.instr = .vldb d a c x) ∨ (∃ d a c sp, m.instr = .sld d a c sp) →
      s.loadValue m p = (BitVec.ofNat 64 (s.num p 8), 0, 0)) ∧
    (∀ d a c x, m.instr = .vlde d a c x →
      (t ≠ .d → s.loadValue m p = (if isSigned t then BitVec.ofInt 64 (intOf t (s.num p (width t / 8))) else BitVec.ofNat 64 (s.num p (width t / 8)), 0, 0)) ∧
      (t = .d → ∃ r, element .f32 (s.num p 1) r ∧ s.loadValue m p = (BitVec.ofNat 64 r.1, 0, r.2))) ∧
    (∀ d a c, m.instr = .vldd d a c → ∃ r : Nat → Nat × Flags, (∀ e, e < 8 → element .bf16 (s.num (p.add e) 1) (r e)) ∧
      (∀ e, e < 4 → sub (s.loadValue m p).1 e .bf16 = (r e).1 % 2 ^ 16 ∧ sub (s.loadValue m p).2.1 e .bf16 = (r (4 + e)).1 % 2 ^ 16) ∧
      ∀ n, (s.loadValue m p).2.2.getLsbD n = (List.range 8).any fun e => (r e).2.getLsbD n) ∧
    (∀ d a c, m.instr = .ldds d a c → (∀ j, j < 4 → sub (s.loadValue m p).1 j .n16 = s.desc (p.ofs + 64 * j) % 2 ^ 16) ∧ (s.loadValue m p).2.2 = 0) ∧
    ((∃ d a c x, m.instr = .vst d a c x ∨ m.instr = .vstb d a c x) → s.storeBytes m l p = (leBytes 8 (m.opb.getD l 0).toNat, 0)) ∧
    (∀ d a c sp, m.instr = .sst d a c sp → s.storeBytes m l p = (leBytes 8 (m.opa.getD 0 0).toNat, 0)) ∧
    (∀ d a c x, m.instr = .vste d a c x →
      (t ≠ .d → s.storeBytes m l p = (leBytes (width t / 8) (m.opb.getD l 0).toNat, 0)) ∧
      (t = .d →
        (∀ f, usable f → let r := convertVal f (modeRnd m.mode) (modeSat m.mode) (scaleVal (-scale) (decodeElem .f32 (sub (m.opb.getD l 0) 0 .f32)))
          s.storeBytes m l p = (leBytes 1 r.1, r.2)) ∧
        ((∀ f, ¬ usable f) → (s.storeBytes m l p).2 = flINV)))) ∧
  (∀ (s : State) (gr : GRef) (k : Nat) (lanes : BitVec 32) (b : Block) (g : Group) (m : MemOp) (d : BitVec 6) (r : BitVec 6) (c : Src) (x : Space),
    s.block? gr.blk = some b → s.group? gr = some g → b.place.isSome → b.aborted = false → g.awaitsHome = false → g.memq[k]? = some m → m.accepted = false →
    (∀ n ∈ g.memq.take k, n.accepted = true) → g.memq.find? (fun n => n.id == m.id) = some m → (∀ n ∈ g.memq, n.id = m.id → n = m) →
    m.instr = .vgath (.reg d) r c x → modeType m.mode ≠ .d →
    let t := modeType m.mode
    let n := width t / 8
    let e := m.pix
    let lane := e / nsub t
    let j := e % nsub t
    let a := m.opa.getD 0 0 + BitVec.ofNat 64 (sub (m.opb.getD (32 * (j / 2) + lane) 0) (j % 2) .n32 * n)
    let q : Req := ⟨x, a, n, decide (a.toNat % n = 0), true, false, false, true, x == .gl || x == .sp⟩
    let check := s.check (s.memWho b g gr.grp m) b (coreIdx gr.grp) q
    let runs (u : State → Group → Prop) : Prop := ∃ t g', exec (.accessPerform gr k lanes) s = .next t ∧ t.group? gr = some g' ∧ (∀ y, t.byte y = s.byte y) ∧ u t g'
    let goes (v : Option Nat) : Prop := runs fun _ g' => g'.pix = g.pix ∧ g'.s = g.s ∧ g'.flags = g.flags ∧
      g'.memq = g.memq.map (fun y => if y.id = m.id then { y with pix := e + 1 } else y) ∧
      ∀ w l, l < 32 → (∀ i, i < nsub t → ¬ ((m.wb + w) % g.av = (m.wb + d.toNat) % g.av ∧ l = lane ∧ i = j) → sub (g'.rdV m.wb w l) i t = sub (g.rdV m.wb w l) i t) ∧
        ∀ z, v = some z → (m.wb + w) % g.av = (m.wb + d.toNat) % g.av → l = lane → sub (g'.rdV m.wb w l) j t = z % 2 ^ width t
    (32 * nsub t ≤ e → runs fun _ g' => g'.pix = 0 ∧ g'.v = g.v ∧
      g'.memq = g.memq.map fun y => if y.id = m.id then { y with accepted := true, todo := 0 } else y) ∧
    (e < 32 * nsub t →
      (laneIn m.lanes lane = true →
        (∀ f, check true = .error f → let u := s.modGroup gr fun g => { g with pix := BitVec.ofNat 64 e }
          exec (.accessPerform gr k lanes) s = .next (let v := u.memoryTrap gr m.id { f with lane := lane }; if v.overPinned then u.pinRelease gr else v)) ∧
        ∀ acc, check true = .ok acc →
          (g.clearFor m.id acc.loc n = false → exec (.accessPerform gr k lanes) s = .next s) ∧ (g.clearFor m.id acc.loc n = true → goes (some (s.num acc.loc n)))) ∧
      (laneIn m.lanes lane = false → laneIn m.help lane = true →
        (∀ f, check false = .error f → goes (some 0)) ∧ ∀ acc, check false = .ok acc → g.clearFor m.id acc.loc n = true → goes (some (s.num acc.loc n))) ∧
      (laneIn m.lanes lane = false → laneIn m.help lane = false → goes none))) ∧
  ∀ (s : State) (gr : GRef) (b : Block) (g : Group) (a rep : Word) (vs : List Byte) (n : Nat) (f : Nat → Acc), s.block? gr.blk = some b → s.group? gr = some g →
    let from_ (j : Nat) : Nat := if j = 0 then 0 else 4096 * j - a.toNat % 4096
    let len (m j : Nat) : Nat := min (from_ (j + 1)) m - from_ j
    let check (w : Bool) (m j : Nat) : Except Trap Acc := s.check (s.groupWho b g gr.grp) b (coreIdx gr.grp) ⟨.gl, a + BitVec.ofNat 64 (from_ j), len m j, true, !w, w, false, true, true⟩ true
    (∀ w m j e, from_ j < m → check w m j = .error e → (∀ i, i < j → ∃ x, check w m i = .ok x) →
      (w = true → vs.length = m → s.storeRange gr a vs rep = .error { e with addr := rep }) ∧ (w = false → s.loadRange gr a m rep = .error { e with addr := rep })) ∧
    ((∀ j, from_ j < n → check false n j = .ok (f j)) → ∃ bs, s.loadRange gr a n rep = .ok bs ∧ bs.length = n ∧
      ∀ j x, from_ j < n → x < len n j → bs.getD (from_ j + x) 0 = s.byte ((f j).loc.add x)) ∧
    ((∀ j, from_ j < vs.length → check true vs.length j = .ok (f j)) →
      (∀ i j, i ≠ j → from_ i < vs.length → from_ j < vs.length → ∀ x, x < len vs.length i → ((f i).loc.add x).within (f j).loc (len vs.length j) = false) →
      ∃ t, s.storeRange gr a vs rep = .ok t ∧ t.blocks = s.blocks ∧
        (∀ j x, from_ j < vs.length → x < len vs.length j → t.byte ((f j).loc.add x) = vs.getD (from_ j + x) 0) ∧
        ∀ y, (∀ j, from_ j < vs.length → y.within (f j).loc (len vs.length j) = false) → t.byte y = s.byte y)

/-- R40, R136, R137: an atomic whose lanes all pass their checks runs once the group's earlier accesses have performed. It changes no byte outside the
places its guarded lanes name. The lanes go in ascending order: each reads what the lower ones of its place have left there, its element becomes the
operation's result, and V[D] receives what it read; FLAGS takes the flags of every lane's operation. A lane that fails its checks traps before any lane has performed.
Rests on log entries 18, 21. -/
def Obligations.Atomics : Prop :=
  ∀ (s : State) (i : Iss) (d : Dst) (a b : Src), s.issue? = some i → i.g.quiet = true → constBad .i64 a = false → constBad i.ty b = false →
    let n := width i.ty / 8
    let old (l : Nat) : Word := match d with | .reg r => i.g.rdV i.sl.wb r.toNat l | .none => 0
    let runs (instr : Instr) (cmp : List Word) (new : Nat → Nat → Nat → Nat × Flags) : Prop :=
      let m := i.mem instr i.counted i.helpers (perLane (i.laneWord a)) (perLane (i.vec i.ty (fun _ => 0) b) ++ cmp)
      let check (l : Nat) : Except Trap Acc := i.s.check { i.who with atomic := some (atomScope instr i.b (i.laneWord a l)) } i.b (coreIdx i.gr.grp) (m.atomReq l) true
      let lanes := lanesOf i.counted
      (∀ f : Nat → Acc, s.PinRoom lanes.length → (∀ l ∈ lanes, check l = .ok (f l) ∧ s.holds (f l).loc.store = true) →
        (∀ l ∈ lanes, ∀ k ∈ lanes, (f l).loc = (f k).loc ∨ ∀ j, j < n → ((f l).loc.add j).within (f k).loc n = false) →
        let step (l was : Nat) : Nat × Flags := new was (sub (i.vec i.ty (fun _ => 0) b l) 0 i.ty) (sub (old l) 0 i.ty)
        let after (l : Nat) (ls : List Nat) : Nat := (ls.filter fun k => (f k).loc == (f l).loc).foldl (fun x k => (step k x).1 % 2 ^ width i.ty) (s.num (f l).loc n)
        let was (l : Nat) : Nat := after l (lanes.filter fun k => decide (k < l))
        ∃ t g', exec instr s = .next t ∧ i.AtomicResult d t g' ∧
          (∀ x, (∀ l ∈ lanes, x.within (f l).loc n = false) → t.byte x = s.byte x) ∧
          (∀ l ∈ lanes, t.num (f l).loc n = after l lanes ∧ ∀ r, d = .reg r → g'.rdV i.sl.wb r.toNat l = extendElem i.ty (was l)) ∧
          ∀ e, g'.flags.getLsbD e = (i.g.flags.getLsbD e || lanes.any (fun l => (step l (was l)).2.getLsbD e) || (i.countFlags i.ty b).getLsbD e)) ∧
      ∀ l ∈ lanesOf i.counted, ∀ e, check l = .error e → (∀ k ∈ lanesOf i.counted, k < l → ∃ x, check k = .ok x) →
        exec instr s = .next (i.conclude (.trapOwn { e with lane := l } m))
    (∀ op, i.ty ∈ [.i32, .n32, .i64, .n64] →
      let cmp : List Word := if op = .cas ∧ d ≠ .none then perLane old else []
      runs (.atom d a b op) cmp (fun x y z => (atomNew op i.ty x y z, 0)) ∧ runs (.atoms d a b op) cmp fun x y z => (atomNew op i.ty x y z, 0)) ∧
    ∀ op, i.ty ∈ [.f32, .f64] → runs (.atomf d a b op) [] fun x y _ => atomfNew op i.ty i.rnd x y

/-- R150, R151: SYNCW arms the word at A, its TARGET the low 32 bits of B and its COUNT 0, and leaves GEN; B of 2^32 or more is PROT 7.
Rests on log entries 8, 21, 40, 69. -/
def Obligations.SyncWordArmed : Prop :=
  ∀ (s : State) (i : Iss) (a b : Src) (x : Acc), s.issue? = some i → i.checkSca .i64 [a, b] = .ok () → i.onlyHelpers = false →
    (2 ^ 32 ≤ (i.uni b).toNat → exec (.syncw a b) s = .next (i.conclude (.trap { plainTrap .prot 7 with addr := i.uni b }))) ∧
    ((i.uni b).toNat < 2 ^ 32 → i.g.quiet = true → s.PinRoom 0 →
      i.s.check { i.who with atomic := some .block } i.b (coreIdx i.gr.grp)
        ⟨.sp, i.uni a, 16, decide ((i.uni a).toNat % 16 = 0), true, true, false, false, true⟩ true = .ok x → s.holds x.loc.store = true →
      ∃ t g', exec (.syncw a b) s = .next t ∧ t.group? i.gr = some g' ∧ i.Onward g' ∧ g'.v = i.g.v ∧ g'.s = i.g.s ∧ g'.flags = i.g.flags ∧
        s.Stored t x.loc (leBytes 4 (i.uni b).toNat ++ leBytes 4 0) ∧ t.num x.loc 4 = (i.uni b).toNat ∧ t.num (x.loc.add 4) 4 = 0 ∧
        t.genOf x.loc = s.genOf x.loc)

/-- R140, R149, R152: WAITC, CPWT and WAITV end, as switch points, when the count is low enough or the generation has passed; otherwise the slot waits
at the instruction and the core chooses another group. WAITV reads the generation once the group's own accesses to it have performed [R130, R255], and
acquires what the completed generations released. [R139, R141-R143, R258, R408] FENCE,
once the group's accesses have performed, is a release, and acquires what its reads met as far as both scopes reach; TFENCE performs what the groups in
its scope have had accepted, discards the context's translations there, and is PRIV 3 without the page-table grant; PREF does nothing; ORDCL closes the group's ordered contributions.
Rests on log entries 8, 19, 21, 40. -/
def Obligations.WaitsAndFences : Prop :=
  (∀ (s : State) (i : Iss) (k : BitVec 10) (n : BitVec 7) (tag : BitVec 3) (d : BitVec 6) (a : Src) (x : Acc), s.issue? = some i →
    let waits (instr : Instr) (w : Wait) : Prop := ∃ t g', exec instr s = .next t ∧ i.Switched t g' ∧ (g'.slot i.slotB).pc = i.pc ∧
      (g'.slot i.slotB).wait = some w ∧ g'.slot (!i.slotB) = i.g.slot (!i.slotB) ∧ g'.v = i.g.v ∧ g'.s = i.g.s ∧ g'.flags = i.g.flags
    (if i.g.ldcnt ≤ k.toNat then ∃ t g', exec (.waitc k) s = .next t ∧ i.Switched t g' ∧ i.Onward g' ∧ (g'.slot i.slotB).k = 0 ∧
        g'.v = i.g.v ∧ g'.s = i.g.s ∧ g'.flags = i.g.flags
     else waits (.waitc k) (.loads k.toNat)) ∧
    (if i.g.tagc.getD tag.toNat 0 ≤ n.toNat then ∃ t g', exec (.cpwt n tag) s = .next t ∧ i.Switched t g' ∧ i.Onward g' ∧
        (g'.slot i.slotB).k = 0 ∧ g'.v = i.g.v ∧ g'.s = i.g.s ∧ g'.flags = i.g.flags
     else waits (.cpwt n tag) (.copies tag.toNat n.toNat)) ∧
    (i.checkSca .i64 [a] = .ok () → i.sl.wait = none →
      i.s.check { i.who with atomic := some .block } i.b (coreIdx i.gr.grp) (syncReq (i.uni a)) true = .ok x →
      let want := (i.g.rdS i.sl.wb d.toNat).toNat % 2 ^ 32
      if i.g.clearFor i.g.nextMem (x.loc.add 8) 4 = true ∧ genPassed (i.s.genOf x.loc) want = true then ∃ t g', exec (.waitv d a) s = .next t ∧ i.Switched t g' ∧ i.Onward g' ∧
        (g'.slot i.slotB).k = 0 ∧ g'.clock = clockJoin i.g.clock (s.wordPassed x.loc) ∧ g'.v = i.g.v ∧ g'.s = i.g.s ∧ g'.flags = i.g.flags
      else waits (.waitv d a) (.gen x.loc want))) ∧
  (∀ (s : State) (i : Iss) (sc : Scope) (a b : Src), s.issue? = some i →
    (i.g.quiet = true → i.g.ldcnt = 0 → ∃ t g', exec (.fence sc) s = .next t ∧ t.group? i.gr = some g' ∧
      (∀ gr, gr ≠ i.gr → t.group? gr = s.group? gr) ∧ (∀ l, t.byte l = s.byte l) ∧ i.At (i.pc + 4) i.active i.sl.wb i.sl.k g' ∧ i.Unread g' ∧
      g'.epoch = i.g.epoch + 1 ∧ (∃ c, (sc, c) ∈ g'.fences ∧ clockGet c i.g.agent = i.g.epoch + 1) ∧
      (sc = .device ∨ sc = .sys → ∀ x ∈ t.pins, x.2 ≠ i.g.agent)) ∧
    (∀ c, s.ctx? i.b.ctx = some c →
      (c.ptw = false → exec (.tfence sc) s = .next (i.conclude (.trap (plainTrap .priv 3)))) ∧
      (c.ptw = true → i.g.quiet = true → ∃ t g', exec (.tfence sc) s = .next t ∧ t.group? i.gr = some g' ∧ i.Onward g' ∧ g'.core = i.g.core ∧
        (∀ gr, gr ≠ i.gr → t.group? gr = (s.performScope i.b sc).group? gr) ∧ (∀ l, t.byte l = (s.performScope i.b sc).byte l) ∧
        ∀ x, x ∈ t.tlbs ↔ x ∈ s.tlbs ∧ (x.ctx = i.b.ctx → s.tlbInScope i.b sc x.agent = false))) ∧
    (i.checkLaneOps [b] [a] = .ok () → ∃ t g', exec (.pref a b) s = .next t ∧ i.Alone t g' ∧ i.Onward g' ∧ g'.core = i.g.core) ∧
    ∃ t g', exec .ordcl s = .next t ∧ i.Alone t g' ∧ i.Onward g' ∧ g'.ordcl = true ∧ { g'.core with ordcl := i.g.ordcl } = i.g.core)

/-- R139, R140-R143, R149, R152, R377, R381, R387: waits whose condition holds, fences, hints and the Virga engines' own events complete: WAITC with few
enough loads, CPWT with few enough copies, WAITV of a generation that has passed, FENCE and TFENCE once the group's accesses have performed, PREF and
ORDCL always; a VGCMD that may start starts, an engine that may hold its banks works a wave, its window and the controller's service end, and a command
whose engines have ended is merged.
Rests on log entries 19, 21, 45. -/
def Obligations.WaitsAndEnginesComplete : Prop :=
  (∀ (s : State) (i : Iss) (k : BitVec 10) (n : BitVec 7) (tag : BitVec 3) (d : BitVec 6) (a b : Src) (sc : Scope) (x : Acc) (c : Context),
    s.issue? = some i →
    let completes (instr : Instr) : Prop := ∃ t g', exec instr s = .next t ∧ t.group? i.gr = some g' ∧ i.Onward g' ∧ i.Unread g' ∧
      ∀ l, t.byte l = s.byte l
    (i.g.ldcnt ≤ k.toNat → completes (.waitc k)) ∧
    (i.g.tagc.getD tag.toNat 0 ≤ n.toNat → completes (.cpwt n tag)) ∧
    (i.checkSca .i64 [a] = .ok () → i.sl.wait = none →
      i.s.check { i.who with atomic := some .block } i.b (coreIdx i.gr.grp) (syncReq (i.uni a)) true = .ok x →
      i.g.clearFor i.g.nextMem (x.loc.add 8) 4 = true → genPassed (i.s.genOf x.loc) ((i.g.rdS i.sl.wb d.toNat).toNat % 2 ^ 32) = true → completes (.waitv d a)) ∧
    (i.g.quiet = true → i.g.ldcnt = 0 → completes (.fence sc)) ∧
    (i.checkLaneOps [b] [a] = .ok () → completes (.pref a b)) ∧
    completes .ordcl ∧
    (s.ctx? i.b.ctx = some c → c.ptw = true → i.g.quiet = true → ∃ t g', exec (.tfence sc) s = .next t ∧ t.group? i.gr = some g' ∧ i.Onward g' ∧
      i.Unread g')) ∧
  ∀ (s : State) (blk num chan : Nat) (b : Block) (o : EngOp) (c : VgCmd),
    (s.block? blk = some b → b.op? 3 num = some o → o.state = .queued → (b.before3 o).all EngOp.isDone = true →
      ∃ t y, exec (.vgcmdStart blk num) s = .next t ∧ t.vgcmds = s.vgcmds ++ [y] ∧ y.blk = blk ∧ y.num = num) ∧
    (s.vgcmd? blk num = some c → c.code = 0 → SMap.get 0 s.banks chan ≠ 2 → (∃ p ∈ c.parts, p.chan = chan ∧ p.done = false) →
      ∃ t, exec (.virgaWave blk num chan) s = .next t ∧ SMap.get 0 t.banks chan = 1) ∧
    (SMap.get 0 s.banks chan = 1 → ∃ t, exec (.virgaWindowEnd chan) s = .next t ∧ SMap.get 0 t.banks chan = 2) ∧
    (SMap.get 0 s.banks chan = 2 → ∃ t, exec (.bankServiceEnd chan) s = .next t ∧ SMap.get 0 t.banks chan = 0) ∧
    (s.vgcmd? blk num = some c → s.block? blk = some b → b.op? 3 num = some o → c.code ≠ 0 ∨ (∀ p ∈ c.parts, p.done = true) →
      ∃ t y, exec (.virgaMerge blk num) s = .next t ∧ t.vgcmd? blk num = none ∧ (t.block? blk).bind (·.op? 3 num) = some y ∧ y.state = .worked)

/-! ## Control family -/

/-- R34, R157, R162: BRA, BRS and DBNZ go to their own word plus the displacement in words when the condition holds, and on otherwise; DBNZ first
counts S[C] down. JMPI goes to a multiple of 4, and traps on any other target. [R162, R219, R220] CALL and CALLI slide the window up by 8 k, put the
return address into S[63] of the new window and go on at their target, as switch points; RET goes to S[63] and slides down. A RET below base 0 is
STKOVF 4, a target that is no multiple of 4 ALIGN 2. [R391] A slide's STKOVF comes before a target's alignment. [R220, R221, R223] A call whose window does
not fit spills the oldest units, 2,112 bytes each, and is STKOVF 1 beyond the spill area and STKOVF 2 where the other slot's window would go. [R222] A return
below the resident range refills the units down to its window, which the slot waits for, and is STKOVF 2 where both windows do not fit.
Rests on log entries 8, 15, 19, 21, 25, 26. -/
def Obligations.BranchesAndCalls : Prop :=
  (∀ (s : State) (i : Iss) (far : BitVec 24) (c : BitVec 6) (n : Bool) (o : BitVec 12) (a : Src), s.issue? = some i →
    let dest (d : Int) : Word := i.pc + BitVec.ofInt 64 (4 * d)
    let at_ (pc : Word) (g' : Group) : Prop := i.At pc i.active i.sl.wb i.sl.k g'
    (∃ t g', exec (.bra far) s = .next t ∧ i.Alone t g' ∧ g'.core = i.g.core ∧ at_ (dest far.toInt) g') ∧
    (∃ t g', exec (.brs c n o) s = .next t ∧ i.Alone t g' ∧ g'.core = i.g.core ∧
      at_ (if (i.g.rdS i.sl.wb c.toNat = 0) ↔ n = true then dest o.toInt else i.pc + 4) g') ∧
    (i.g.destBusy i.sl.wb [] [c.toNat] = false →
      let x := i.g.rdS i.sl.wb c.toNat - 1
      ∃ t g', exec (.dbnz c n o) s = .next t ∧ i.Alone t g' ∧ g'.rdS i.sl.wb c.toNat = x ∧
        (∀ wb m, (wb + m) % 256 ≠ (i.sl.wb + c.toNat) % 256 → g'.rdS wb m = i.g.rdS wb m) ∧ { g'.core with s := i.g.s } = i.g.core ∧
        at_ (if (x = 0) ↔ n = true then dest o.toInt else i.pc + 4) g') ∧
    (i.checkSca .i64 [a] = .ok () →
      if (i.uni a).toNat % 4 = 0 then ∃ t g', exec (.jmpi a) s = .next t ∧ i.Alone t g' ∧ g'.core = i.g.core ∧ at_ (i.uni a) g'
      else exec (.jmpi a) s = .next (i.conclude (.trap { plainTrap .align 2 with addr := i.uni a })))) ∧
  (∀ (s : State) (i : Iss) (k : BitVec 4) (o : BitVec 20) (a : Src), s.issue? = some i → i.g.bound = true →
    let n := 8 * k.toNat
    let called (instr : Instr) (pc : Word) : Prop := i.Fits (i.sl.wb + n) →
      ∃ t g', exec instr s = .next t ∧ i.Switched t g' ∧ i.At pc i.active (i.sl.wb + n) 0 g' ∧ g'.rdS (i.sl.wb + n) 63 = i.pc + 4 ∧
        (∀ wb m, (wb + m) % 256 ≠ (i.sl.wb + n + 63) % 256 → g'.rdS wb m = i.g.rdS wb m) ∧
        { g'.still with s := i.g.s } = i.g.still ∧ g'.hi = i.top (i.sl.wb + n) ∧ g'.tokens = i.g.tokens
    called (.call k o) (i.pc + BitVec.ofInt 64 (4 * o.toInt)) ∧
    (i.checkSca .i64 [a] = .ok () →
      (∀ t, i.s.slide i.gr i.slotB n = .error t → t.cause = .stkovf → exec (.calli a k) s = .next (i.conclude (.trap t))) ∧
      if (i.uni a).toNat % 4 = 0 then called (.calli a k) (i.uni a)
      else i.Fits (i.sl.wb + n) → exec (.calli a k) s = .next (i.conclude (.trap { plainTrap .align 2 with addr := i.uni a }))) ∧
    (let pc := i.g.rdS i.sl.wb 63
     if i.sl.wb < n then exec (.ret k) s = .next (i.conclude (.trap (plainTrap .stkovf 4)))
     else i.Fits (i.sl.wb - n) →
      if pc.toNat % 4 = 0 then ∃ t g', exec (.ret k) s = .next t ∧ i.Switched t g' ∧ i.At pc i.active (i.sl.wb - n) 0 g' ∧
        g'.still = i.g.still ∧ g'.hi = i.top (i.sl.wb - n) ∧ g'.tokens = i.g.tokens
      else exec (.ret k) s = .next (i.conclude (.trap { plainTrap .align 2 with addr := pc })))) ∧
  (∀ (s : State) (i : Iss) (k : BitVec 4) (o : BitVec 20) (a : Src) (c : Nat → State), s.issue? = some i → i.g.bound = true → i.active ≠ 0 →
    let n := 8 * k.toNat
    let other := i.g.slot (!i.slotB)
    let lo := i.top (i.sl.wb + n) - i.g.span
    let u := i.g.lo / 8
    let spills (instr : Instr) (pc : Word) : Prop := pc.toNat % 4 = 0 → i.g.lo < lo →
      (other.isFree = false → other.wb < lo → exec instr s = .next (i.conclude (.trap (plainTrap .stkovf 2)))) ∧
      (other.isFree = true ∨ lo ≤ other.wb →
        (∀ m, u + m < lo / 8 → i.Spills u m c → i.g.spillSize < 2112 * (u + m + 1) → exec instr s = .next (i.conclude (.trap (plainTrap .stkovf 1)))) ∧
        (i.Spills u (lo / 8 - u) c → i.g.quiet = true → (c (lo / 8 - u)).overPinned = false →
          ∃ t g', exec instr s = .next t ∧ t.group? i.gr = some g' ∧ (∀ gr, gr ≠ i.gr → t.group? gr = s.group? gr) ∧
            (∀ l, t.byte l = (c (lo / 8 - u)).byte l) ∧ i.At pc i.active (i.sl.wb + n) 0 g' ∧ g'.lo = lo ∧ g'.hi = i.top (i.sl.wb + n) ∧
            g'.rdS (i.sl.wb + n) 63 = i.pc + 4 ∧ (∀ wb m, (wb + m) % 256 ≠ (i.sl.wb + n + 63) % 256 → g'.rdS wb m = i.g.rdS wb m) ∧ g'.v = i.g.v ∧
            g'.tokens = i.g.tokens ∧ { g'.still with s := i.g.s, lo := i.g.lo } = i.g.still))
    spills (.call k o) (i.pc + BitVec.ofInt 64 (4 * o.toInt)) ∧ (i.checkSca .i64 [a] = .ok () → spills (.calli a k) (i.uni a))) ∧
  ∀ (s : State) (i : Iss) (k : BitVec 4) (bs : Nat → List Byte), s.issue? = some i → i.g.bound = true → i.active ≠ 0 → 8 * k.toNat ≤ i.sl.wb →
    let wb := i.sl.wb - 8 * k.toNat
    let other := i.g.slot (!i.slotB)
    let lo := if other.isFree then wb else min wb other.wb
    let u := lo / 8
    let pc := i.g.rdS i.sl.wb 63
    let unit (x : Nat) : Prop := u ≤ x ∧ x < i.g.lo / 8
    lo < i.g.lo → pc.toNat % 4 = 0 →
      (i.g.span < i.top wb - lo → exec (.ret k) s = .next (i.conclude (.trap (plainTrap .stkovf 2)))) ∧
      (i.top wb - lo ≤ i.g.span → 8 * (i.g.lo / 8 - u) ≤ i.g.span → i.g.quiet = true → s.overPinned = false →
        (∀ x, unit x → s.loadRange i.gr (i.g.unitPlace x) 2112 (i.g.unitPlace x) = .ok (bs x)) →
        ∃ t g', exec (.ret k) s = .next t ∧ t.group? i.gr = some g' ∧ (∀ gr, gr ≠ i.gr → t.group? gr = s.group? gr) ∧ (∀ l, t.byte l = s.byte l) ∧
          (g'.slot i.slotB).pc = pc ∧ (g'.slot i.slotB).mask = i.active ∧ (g'.slot i.slotB).wb = wb ∧ (g'.slot i.slotB).k = 0 ∧
          { g'.slot (!i.slotB) with notBefore := other.notBefore } = other ∧ g'.lo = lo ∧ g'.hi = i.top wb ∧ (wb < i.g.lo → s.cycle < (g'.slot i.slotB).notBefore) ∧ g'.tokens = i.g.tokens ∧
          (∀ x, unit x → g'.UnitIn x (bs x)) ∧
          (∀ m l, l < 32 → (∀ x r, unit x → r < 8 → m % i.g.av ≠ (8 * x + r) % i.g.av) → g'.rdV 0 m l = i.g.rdV 0 m l) ∧
          (∀ m, (∀ x r, unit x → r < 8 → m % 256 ≠ (8 * x + r) % 256) → g'.rdS 0 m = i.g.rdS 0 m) ∧
          { g'.still with v := i.g.v, s := i.g.s, lo := i.g.lo } = i.g.still)

/-- R155, R156, R158: BRP adds the active lanes to EXP. Where some lanes take it and some do not, the slot goes on with those that do not, and the
others are placed: in the other slot if it is free, or pushed as a stack entry below DSTKP, which is STKOVF 3 below the stack area. [R318] The core
keeps a copy of the two youngest entries.
Rests on log entries 8, 21. -/
def Obligations.DivergentBranch : Prop :=
  ∀ (s : State) (i : Iss) (c : BitVec 5) (n : Bool) (tk : BitVec 4) (o : BitVec 12) (x : Acc), s.issue? = some i → i.g.tokens.length = 16 →
    let p := i.g.rdP c.toNat
    let take := i.active &&& (if n then ~~~ p else p)
    let stay := i.active &&& ~~~ take
    let dest := i.pc + BitVec.ofInt 64 (4 * o.toInt)
    let other := i.g.slot (!i.slotB)
    let old := i.g.token tk.toNat
    let tokens := setAt i.g.tokens tk.toNat { old with exp := old.exp ||| i.active }
    (take = 0 ∨ stay = 0 → ∃ t g', exec (.brp c n tk o) s = .next t ∧ i.Alone t g' ∧
      i.At (if take = 0 then i.pc + 4 else dest) i.active i.sl.wb i.sl.k g' ∧ g'.tokens = tokens ∧ g'.still = i.g.still) ∧
    (take ≠ 0 → stay ≠ 0 → other.isFree = true → i.Fits i.sl.wb →
      ∃ t g', exec (.brp c n tk o) s = .next t ∧ i.Alone t g' ∧ (g'.slot i.slotB).pc = i.pc + 4 ∧ (g'.slot i.slotB).mask = stay ∧
        (g'.slot i.slotB).wb = i.sl.wb ∧ g'.slot (!i.slotB) = pathSlot take dest i.sl.wb ∧ g'.tokens = tokens ∧ g'.still = i.g.still) ∧
    (take ≠ 0 → stay ≠ 0 → other.isFree = false →
      let at_ := i.g.dstkp - 16
      if i.g.dstkp.toNat < i.g.stkBase.toNat + 16 then exec (.brp c n tk o) s = .next (i.conclude (.trap { plainTrap .stkovf 3 with addr := at_ }))
      else i.g.dstkp.toNat % 16 = 0 → i.g.quiet = true → s.PinRoom 1 → i.s.check i.who i.b (coreIdx i.gr.grp) (rangeReq at_ 16 true) true = .ok x →
        ∃ t g', exec (.brp c n tk o) s = .next t ∧ t.group? i.gr = some g' ∧ i.At (i.pc + 4) stay i.sl.wb i.sl.k g' ∧ g'.tokens = tokens ∧
          let entry := leBytes 8 dest.toNat ++ leBytes 4 take.toNat ++ leBytes 4 (16 * tk.toNat + 256 * (i.sl.wb / 8))
          g'.dstkp = at_ ∧ g'.stackCopy = (entry :: i.g.stackCopy).take 2 ∧
          { g'.still with dstkp := i.g.dstkp, stackCopy := i.g.stackCopy } = i.g.still ∧ s.Stored t x.loc entry ∧
          ∀ gr, gr ≠ i.gr → t.group? gr = s.group? gr)

/-- R155, R159, R160: BRK takes the lanes that meet its condition to the token, where they arrive, and goes on with the others; JOIN takes all its
lanes there, and has no effect on an idle token. A token whose arrived lanes cover the expected ones becomes idle, and its live lanes go on
after JPC in a free slot. [R156, R226, R318] A slot that its lanes have left takes the youngest stack entry: its PC, those of its lanes that are live,
and its window, from the core's copy or by a load.
Rests on log entries 15, 64. -/
def Obligations.BreaksAndJoins : Prop :=
  ∀ (s : State) (i : Iss) (c : BitVec 5) (n : Bool) (tk : BitVec 4) (o : BitVec 12), s.issue? = some i → i.g.tokens.length = 16 →
    let p := i.g.rdP c.toNat
    let take := i.active &&& (if n then ~~~ p else p)
    let dest := i.pc + BitVec.ofInt 64 (4 * o.toInt)
    let leaves (instr : Instr) (pc : Word) : Prop :=
      let k := i.arrival tk.toNat i.active pc
      let due := k.exp &&& ~~~ i.g.exited
      let other := i.g.slot (!i.slotB)
      i.active ≠ 0 →
      (due &&& ~~~ k.arr ≠ 0 → i.g.stackEmpty = true → other.isFree = false →
        ∃ t g', exec instr s = .next t ∧ i.Left t g' ∧ (g'.slot i.slotB).isFree = true ∧ g'.slot (!i.slotB) = i.g.slot (!i.slotB) ∧
          g'.tokens = setAt i.g.tokens tk.toNat k ∧ g'.still = i.g.still) ∧
      (∀ bs loaded, due &&& ~~~ k.arr ≠ 0 → i.g.stackEmpty = false → i.TopEntry bs loaded →
        let x := i.entrySlot i.g.live bs loaded
        let sb := i.slotB && !other.isFree
        x.mask ≠ 0 → i.FitsBeside x.wb → (other.isFree = true → i.g.stackTop.toNat ≤ i.g.dstkp.toNat + 16) →
        ∃ t g', exec instr s = .next t ∧ i.Popped sb x t g' ∧ (t.core (i.s.coreIdOf i.gr)).turn = true ∧ g'.exited = i.g.exited ∧
          (if other.isFree then (g'.slot (!sb)).isFree = true else g'.slot (!sb) = other) ∧ g'.tokens = setAt i.g.tokens tk.toNat k) ∧
      (due &&& ~~~ k.arr = 0 → due ≠ 0 → i.g.stackEmpty = true ∨ other.isFree = false → i.g.lo ≤ k.jwb → k.jwb + 64 ≤ i.g.lo + i.g.span → i.Fits i.sl.wb →
        let sb := i.slotB && !i.g.slotA.isFree
        ∃ t g', exec instr s = .next t ∧ i.Left t g' ∧ g'.slot sb = pathSlot due (k.jpc + 4) k.jwb ∧
          (if sb = i.slotB then g'.slot (!sb) = i.g.slot (!sb) else (g'.slot (!sb)).isFree = true) ∧
          g'.tokens = setAt i.g.tokens tk.toNat { k with exp := 0, arr := 0 } ∧ g'.still = i.g.still)
    (i.active &&& ~~~ take ≠ 0 → ∃ t g', exec (.brk c n tk o) s = .next t ∧ i.Alone t g' ∧
      i.At (i.pc + 4) (i.active &&& ~~~ take) i.sl.wb i.sl.k g' ∧ g'.tokens = setAt i.g.tokens tk.toNat (i.arrival tk.toNat take dest) ∧
      g'.still = i.g.still) ∧
    (i.active &&& ~~~ take = 0 → leaves (.brk c n tk o) dest) ∧
    if (i.g.token tk.toNat).exp = 0 then ∃ t g', exec (.join tk) s = .next t ∧ i.Alone t g' ∧ i.At (i.pc + 4) i.active i.sl.wb 0 g' ∧
      g'.tokens = i.g.tokens ∧ g'.still = i.g.still
    else leaves (.join tk) i.pc

/-- R82, R163: EXIT waits while the group owes an operation that has not completed. With none left it takes the FLAG trap where a flag is armed,
and otherwise ends the slot's lanes: they are exited, and leave every token. [R155, R156] The slot takes the youngest stack entry, where there is one.
Rests on log entries 8, 15, 38, 64. -/
def Obligations.Exits : Prop :=
  ∀ (s : State) (i : Iss), s.issue? = some i →
    (∀ o ∈ i.b.ops, o.arrived.contains i.gr.grp = true → o.acquired.contains i.gr.grp = false → o.isDone = false → isMdrn o.instr = false →
      ∃ t g', exec .exit s = .next t ∧ t.group? i.gr = some g' ∧ (g'.slot i.slotB).wait = some .exit ∧ (g'.slot i.slotB).pc = i.pc ∧
        (g'.slot i.slotB).mask = i.active ∧ g'.exited = i.g.exited ∧ g'.tokens = i.g.tokens ∧ g'.v = i.g.v ∧ g'.s = i.g.s ∧ g'.flags = i.g.flags) ∧
    (i.b.ops = [] → i.g.flags &&& i.g.flagen ≠ 0 →
      ∃ s1 : State, exec .exit s = .next (s1.raise i.gr i.slotB false i.reported (plainTrap .flag (i.g.flags &&& i.g.flagen).toNat) []) ∧
        (∀ gr, s1.group? gr = s.group? gr) ∧ ∀ l, s1.byte l = s.byte l) ∧
    (i.b.ops = [] → i.g.flags &&& i.g.flagen = 0 → i.active ≠ 0 → i.g.stackEmpty = true → i.g.tokens.length = 16 →
      ((i.g.slot (!i.slotB)).isFree = true → i.g.live &&& ~~~ i.active = 0 ∧ i.g.tokens = List.replicate 16 Token.idle) →
      (∀ k ∈ i.g.tokens, k.exp &&& ~~~ i.active = 0 ∨ k.exp &&& ~~~ i.active &&& ~~~ i.g.exited &&& ~~~ k.arr ≠ 0) →
      ∃ t g', exec .exit s = .next t ∧ t.group? i.gr = some g' ∧ (∀ gr, gr ≠ i.gr → t.group? gr = s.group? gr) ∧ (∀ l, t.byte l = s.byte l) ∧
        (g'.slot i.slotB).isFree = true ∧ g'.slot (!i.slotB) = i.g.slot (!i.slotB) ∧ g'.exited = i.g.exited ||| i.active ∧
        g'.live = i.g.live &&& ~~~ i.active ∧
        g'.tokens = i.g.tokens.map (fun k => { k with exp := k.exp &&& ~~~ i.active, arr := k.arr &&& ~~~ i.active }) ∧
        { g'.still with exited := i.g.exited } = i.g.still) ∧
    (∀ bs loaded, i.b.ops = [] → i.g.flags &&& i.g.flagen = 0 → i.active ≠ 0 → i.g.tokens.length = 16 → (i.g.slot (!i.slotB)).isFree = false →
      (∀ k ∈ i.g.tokens, k.exp &&& ~~~ i.active = 0 ∨ k.exp &&& ~~~ i.active &&& ~~~ i.g.exited &&& ~~~ k.arr ≠ 0) →
      i.g.stackEmpty = false → i.TopEntry bs loaded →
      let x := i.entrySlot (i.g.live &&& ~~~ i.active) bs loaded
      x.mask ≠ 0 → i.FitsBeside x.wb →
      ∃ t g', exec .exit s = .next t ∧ i.Popped i.slotB x t g' ∧ g'.slot (!i.slotB) = i.g.slot (!i.slotB) ∧ g'.exited = i.g.exited ||| i.active ∧
        g'.tokens = i.g.tokens.map fun k => { k with exp := k.exp &&& ~~~ i.active, arr := k.arr &&& ~~~ i.active })

/-! ## Traps -/

/-- R56, R164, R393, R394: TRAP and BKPT enter the handler with their sub-code, their own PC reported and the next word as the point where the slot
resumes; after a MODEX the pair is what is reported and what resumes [R26]. The words that are no instruction enter it with ILLOP 1, 2 and 3, and resume at themselves. [R393, R399] where HVEC is 0, the trap depth is
4, the group is a handler's, or the frame does not fit above the stack area, a trap aborts the block in place of an entry: its grid is aborted with
it, or its handle broken, and Contrail records where.
Rests on log entries 8, 23, 60, 64, 68. -/
def Obligations.TrapsTaken : Prop :=
  (∀ (s s1 : State) (i : Iss) (hvec : Word), s.issue? = some i → i.active ≠ 0 → ∀ (v : BitVec 24) (ones : Bool) (u : BitVec 27) (w : BitVec 32),
    ∀ p ∈ [(Instr.trap v, true, Cause.trap, v.toNat), (.bkpt v, true, .bkpt, v.toNat), (.ill ones v, false, .illop, 1), (.undef u, false, .illop, 2),
        (.rsvop w, false, .illop, 3)],
      let past := p.2.1 && i.sl.modex.isNone
      i.CanTrap past p.2.2.1 p.2.2.2 0 hvec s1 → ∃ t g', exec p.1 s = .next t ∧ i.Entered past p.2.2.1 p.2.2.2 0 hvec s1 t g') ∧
  (∀ (s : State) (i : Iss) (ones : Bool) (v : BitVec 24), s.issue? = some i → i.g.memq = [] → s.block? i.gr.blk = some i.b →
    i.b.handler.isSome = true ∨ 4 ≤ i.g.traps.length ∨ ((i.s.ctx? i.b.ctx).map (·.hvec)).getD 0 = 0 ∨ i.g.dstkp.toNat < i.g.stkBase.toNat + 11008 →
    ∃ t b, exec (.ill ones v) s = .next t ∧ t.block? i.gr.blk = some b ∧ b.aborted = true ∧ (∀ g ∈ b.groups, g.retired = true ∧ g.slotA.isFree = true ∧ g.slotB.isFree = true) ∧
      (∀ l, t.byte l = s.byte l) ∧
      let lid := ((s.grid? i.b.grid).map (·.lid)).getD 0
      match i.b.handler with
      | none =>
        (∀ g, t.grid? i.b.grid = some g → g.aborted = true ∧ g.active = []) ∧
        (∀ n x, t.block? n = some x → x.grid = i.b.grid → x.aborted = true) ∧
        (⟨s.ns, 3, i.b.ctx, [1, lid, i.b.lin, i.gr.grp, i.reported.toNat]⟩ : CEvent) ∈ t.contrail
      | some h =>
        (⟨s.ns, 3, i.b.ctx, [1, 0, i.b.lin, i.gr.grp, i.reported.toNat]⟩ : CEvent) ∈ t.contrail ∧
        (i.b.settled = true → t.msgs = s.msgs) ∧ (i.b.settled = false → ∃ c, (⟨myLeaf s (i.b.place.getD 0), handleLeaf h, .brk h h 0x8001 c⟩ : Msg) ∈ t.msgs))

/-- R395: the 11,008 bytes of a trap frame hold the group's fields at the offsets of the table.
Rests on log entry 17. -/
def Obligations.TrapFrame : Prop :=
  ∀ (g : Group) (cause addr tpc detail : Word) (q : List QEnt), g.traps.length < 4 → q.length ≤ 8 → g.slotA.wb < 2 ^ 32 → g.slotB.wb < 2 ^ 32 →
    g.ivec.length = 5 →
    let f := frameBytes g cause addr tpc detail q
    let at_ (o n : Nat) : Nat := leNat ((f.drop o).take n)
    f.length = 11008 ∧ at_ 0 8 = g.slotA.pc.toNat ∧ at_ 8 8 = g.slotB.pc.toNat ∧ at_ 16 4 = g.slotA.mask.toNat ∧ at_ 20 4 = g.slotB.mask.toNat ∧
      at_ 24 4 = g.slotA.wb ∧ at_ 28 4 = g.slotB.wb ∧ at_ 32 8 = g.mode.toNat ∧ at_ 40 8 = g.flags.toNat ∧ at_ 48 8 = g.flagen.toNat ∧
      at_ 56 8 = cause.toNat ∧ at_ 64 8 = addr.toNat ∧ at_ 72 8 = tpc.toNat ∧ at_ 80 8 = detail.toNat ∧ at_ 88 1 = q.length ∧
      at_ 89 1 = g.traps.length + 1 ∧ at_ 90 1 = (if g.slotA.resume then 1 else 0) + (if g.slotB.resume then 2 else 0) ∧ at_ 91 5 = 0 ∧
      at_ 96 8 = g.pix.toNat ∧ (∀ k, k < 5 → at_ (104 + 8 * k) 8 = (g.ivec.getD k 0).toNat) ∧ at_ 144 112 = 0 ∧
      ∀ e, e < q.length →
        let o := 256 + 1344 * e
        let x := q.getD e QEnt.empty
        at_ o 4 = x.word.toNat ∧ at_ (o + 8) 4 = x.pre.toNat ∧ at_ (o + 12) 4 = 0 ∧ at_ (o + 16) 8 = x.epc.toNat ∧ at_ (o + 24) 4 = x.lanes.toNat ∧
          at_ (o + 28) 4 = 0 ∧ at_ (o + 40) 24 = 0 ∧ (∀ l, l < 32 → at_ (o + 64 + 8 * l) 8 = (x.opa.getD l 0).toNat) ∧
          ∀ l, l < 128 → at_ (o + 320 + 8 * l) 8 = (x.opb.getD l 0).toNat

/-- R164, R398: RFT is PRIV 2 outside a handler. In one, with a frame that passes its checks and has no queue entry, it restores what the frame
holds and the token sets, frees the frame and lowers the trap depth; the TRAP registers stand.
Rests on log entries 8, 27, 32. -/
def Obligations.TrapReturn : Prop :=
  ∀ (s : State) (i : Iss) (h : TrapHold) (rest : List TrapHold) (bs : List Byte), s.issue? = some i →
    (i.g.traps = [] → exec .rft s = .next (i.conclude (.trap (plainTrap .priv 2)))) ∧
    (i.g.traps = h :: rest → i.g.quiet = true → i.g.ldcnt ≤ 64 → s.overPinned = false → s.loadRange i.gr i.g.dstkp 11008 i.g.dstkp = .ok bs →
      let f : FrameData := ⟨bs⟩
      (∀ e, f.check i.g.live = .error e → exec .rft s = .next (i.conclude (.trap e))) ∧
      (f.check i.g.live = .ok () → f.num 88 1 = 0 → i.g.lo ≤ min (f.num 24 4) (f.num 28 4) →
        max (f.num 24 4) (f.num 28 4) + 64 ≤ i.g.lo + i.g.span →
        ∃ t g', exec .rft s = .next t ∧ t.group? i.gr = some g' ∧ (∀ gr, gr ≠ i.gr → t.group? gr = s.group? gr) ∧ (∀ l, t.byte l = s.byte l) ∧
          g'.slotA.pc = BitVec.ofNat 64 (f.num 0 8) &&& ~~~ 3 ∧ g'.slotB.pc = BitVec.ofNat 64 (f.num 8 8) &&& ~~~ 3 ∧
          g'.slotA.mask = BitVec.ofNat 32 (f.num 16 4) &&& i.g.live ∧ g'.slotB.mask = BitVec.ofNat 32 (f.num 20 4) &&& i.g.live ∧
          g'.slotA.wb = f.num 24 4 ∧ g'.slotB.wb = f.num 28 4 ∧ g'.slotA.k = 0 ∧ g'.slotB.k = 0 ∧
          g'.slotA.resume = bit (f.num 90 1) 0 ∧ g'.slotB.resume = bit (f.num 90 1) 1 ∧
          g'.mode.toNat = f.num 32 8 ∧ g'.flags.toNat = f.num 40 8 ∧ g'.flagen.toNat = f.num 48 8 ∧ g'.pix = BitVec.ofNat 64 (f.num 96 8) ∧
          g'.ivec = (List.range 5).map (fun k => BitVec.ofNat 64 (f.num (104 + 8 * k) 8)) ∧ g'.tokens = h.tokens ∧ g'.traps = rest ∧
          g'.dstkp = i.g.dstkp + 11008 ∧ g'.trapcause = i.g.trapcause ∧ g'.trapaddr = i.g.trapaddr ∧ g'.trappc = i.g.trappc ∧
          g'.v = i.g.v ∧ g'.s = i.g.s ∧ g'.p = i.g.p))

/-! ## Synchronisation family -/

/-- R82, R165: at a BAR or BARA the group arrives once in the phase, whose count is that of its first arrival, and 0 stands for every group not
retired. BARA goes on; BAR goes on when the phase is complete and waits otherwise, and takes the FLAG trap first where a flag is armed. BARW waits for
the phase that the group last arrived in. [R82, R166] SBAR arrives at its span's barrier, and goes on when every standing group of the span's blocks
has arrived; else it waits.
Rests on log entries 8, 69. -/
def Obligations.Barriers : Prop :=
  (∀ (s : State) (i : Iss) (a : Src) (n : BitVec 4), s.issue? = some i → i.checkSca .i64 [a] = .ok () → i.b.bars.length = 16 →
    let k := n.toNat
    let x := i.b.bar k
    let count := x.count.getD (min (i.uni a).toNat i.b.groups.length)
    let ends : Prop := if count = 0 then ∀ g ∈ i.b.standing, g ∈ i.gr.grp :: x.arrived else count ≤ x.arrived.length + 1
    let arrives (b' : Block) (g' : Group) : Prop := g'.barAt = setAt i.g.barAt k (x.outs.length + 1) ∧ (∀ m, m ≠ k → b'.bar m = i.b.bar m) ∧
      (ends → (b'.bar k).arrived = [] ∧ (b'.bar k).count = none ∧ (b'.bar k).outs.length = x.outs.length + 1) ∧
      (¬ ends → (b'.bar k).arrived = i.gr.grp :: x.arrived ∧ (b'.bar k).count = some count ∧ (b'.bar k).outs = x.outs)
    (i.g.quiet = true → x.arrived.contains i.gr.grp = false →
      (∃ t b' g', exec (.bara a n) s = .next t ∧ i.InBlock t b' g' ∧ i.At (i.pc + 4) i.active i.sl.wb i.sl.k g' ∧ i.Unread g' ∧ arrives b' g') ∧
      (i.sl.wait = none → i.sl.resume = false →
        (i.g.flags &&& i.g.flagen ≠ 0 →
          exec (.bar a n) s = .next (i.conclude (.trap (plainTrap .flag (i.g.flags &&& i.g.flagen).toNat)))) ∧
        (i.g.flags &&& i.g.flagen = 0 → ∃ t b' g', exec (.bar a n) s = .next t ∧ i.InBlock t b' g' ∧ i.Unread g' ∧ arrives b' g' ∧
          (ends → i.At (i.pc + 4) i.active i.sl.wb 0 g') ∧ (¬ ends → i.Waiting (.bar k (x.outs.length + 1)) g')))) ∧
    (i.sl.wait = none →
      if i.g.barAt.getD k 0 ≤ x.outs.length then
        ∃ t b' g', exec (.barw a n) s = .next t ∧ i.InBlock t b' g' ∧ i.At (i.pc + 4) i.active i.sl.wb 0 g' ∧ i.Unread g' ∧ b'.bars = i.b.bars
      else ∃ t b' g', exec (.barw a n) s = .next t ∧ i.InBlock t b' g' ∧ i.Waiting (.barw k (i.g.barAt.getD k 0)) g' ∧ i.Unread g' ∧ b'.bars = i.b.bars)) ∧
  (∀ (s : State) (i : Iss) (x : Span), s.issue? = some i → i.b.id = i.gr.blk → s.span? i.b.span = some x → i.sl.wait = none → i.sl.resume = false →
    i.g.quiet = true → x.arrived.contains (i.b.id, i.gr.grp) = false →
    (i.g.flags &&& i.g.flagen ≠ 0 → exec .sbar s = .next (i.conclude (.trap (plainTrap .flag (i.g.flags &&& i.g.flagen).toNat)))) ∧
    (i.g.flags &&& i.g.flagen = 0 →
      let ends : Prop := ∀ b ∈ s.blocks, x.members.contains b.id = true → b.aborted = false → ∀ g ∈ b.standing, (b.id, g) ∈ (i.b.id, i.gr.grp) :: x.arrived
      ∃ t b' g' y, exec .sbar s = .next t ∧ i.InBlock t b' g' ∧ i.Unread g' ∧ t.span? i.b.span = some y ∧ y.members = x.members ∧
        (ends → i.At (i.pc + 4) i.active i.sl.wb 0 g' ∧ y.arrived = [] ∧ y.outs.length = x.outs.length + 1) ∧
        (¬ ends → i.Waiting (.span (x.outs.length + 1)) g' ∧ y.arrived = (i.b.id, i.gr.grp) :: x.arrived ∧ y.outs = x.outs)))

/-- R81, R167, R168: TLWAIT goes on when the counter has reached the A that it issued with, and on t0-t3 acquires the completed operations up to A with the flags of its own;
else it waits. TLADV adds A to a software timeline, up to 2^64 - 1. TLGET reads the counter, the group's last number, or the last issued. [R169, R170]
YIELD is a switch point and nothing else. GANGSET takes A[31:0] as the gang, 0 for none; a mask that meets one of the four conditions is GANG with the
lowest of their sub-codes.
Rests on log entries 8, 69. -/
def Obligations.Timelines : Prop :=
  (∀ (s : State) (i : Iss) (d : Dst) (a : Src) (n : BitVec 4), s.issue? = some i → i.b.tls.length = 16 →
    let k := n.toNat
    let v := match i.sl.wait with | some (.tl _ u) => u | _ => (i.uni a).toNat
    let got (o : EngOp) : Bool := o.isDone && o.tl == k && decide (o.num ≤ v)
    (i.checkSca .i64 [a] = .ok () →
      (i.b.counter k < v → ∃ t b' g', exec (.tlwait a n) s = .next t ∧ i.InBlock t b' g' ∧ i.Waiting (.tl k v) g' ∧ i.Unread g') ∧
      (v ≤ i.b.counter k → ∃ t b' g', exec (.tlwait a n) s = .next t ∧ i.InBlock t b' g' ∧ i.At (i.pc + 4) i.active i.sl.wb 0 g' ∧
        g'.v = i.g.v ∧ g'.s = i.g.s ∧
        (∀ f, g'.flags.getLsbD f = (i.g.flags.getLsbD f || decide (k < 4) && i.b.ops.any fun o => got o && o.owes i.gr.grp && o.flags.getLsbD f)) ∧
        (k < 4 → ∀ o ∈ b'.ops, got o = true → o.acquired.contains i.gr.grp = true) ∧ (4 ≤ k → b'.ops = i.b.ops) ∧ b'.tls = i.b.tls) ∧
      (4 ≤ k → i.g.quiet = true → ∃ t b' g', exec (.tladv a n) s = .next t ∧ i.InBlock t b' g' ∧ i.At (i.pc + 4) i.active i.sl.wb i.sl.k g' ∧
        i.Unread g' ∧ b'.counter k = min (2 ^ 64 - 1) (i.b.counter k + (i.uni a).toNat) ∧ (∀ m, m ≠ k → b'.counter m = i.b.counter m) ∧ b'.ops = i.b.ops)) ∧
    (i.g.destBusy i.sl.wb [] (dstRegs d) = false →
      let gets (sel : TlSel) (x : Nat) : Prop := ∃ t g', exec (.tlget d sel n) s = .next t ∧ i.Alone t g' ∧ i.PlainResult d (BitVec.ofNat 64 x) g'
      gets .done (i.b.counter k) ∧ gets .mine (if k < 4 then i.g.mine.getD k 0 else 0) ∧ gets .iss (if k < 4 then (i.b.tline k).issued else 0))) ∧
  (∀ (s : State) (i : Iss) (a : Src), s.issue? = some i →
    (∃ t g', exec .yield s = .next t ∧ i.Switched t g' ∧ i.At (i.pc + 4) i.active i.sl.wb 0 g' ∧ g'.still = i.g.still ∧ g'.tokens = i.g.tokens) ∧ decode 0xA7000000 = .ok .yield ∧
    (i.checkSca .i64 [a] = .ok () →
      let m : Lanes := (i.uni a).setWidth 32
      let bad (c : Nat) : Prop := match c with
        | 1 => (lanesOf m).length < 2 ∨ 6 < (lanesOf m).length
        | 2 => ∃ g h, laneIn m g = true ∧ laneIn m h = true ∧ g ≠ h ∧ g % 6 = h % 6
        | 3 => laneIn m i.gr.grp = false ∨ 32 ≤ i.gr.grp
        | _ => ∃ g, laneIn m g = true ∧ i.b.groups.length ≤ g
      (∀ c, 1 ≤ c → c ≤ 4 → m ≠ 0 → bad c → (∀ e, 1 ≤ e → e < c → ¬ bad e) →
        exec (.gangset a) s = .next (i.conclude (.trap (plainTrap .gang c)))) ∧
      let waits (o : EngOp) : Prop := o.tl = 1 ∧ o.members.contains i.gr.grp = true ∧ o.arrived.contains i.gr.grp = false ∧ o.state = .queued
      (m = 0 ∨ (∀ c, 1 ≤ c → c ≤ 4 → ¬ bad c) →
        ∃ t b' g', exec (.gangset a) s = .next t ∧ t.block? i.gr.blk = some b' ∧ b'.groups[i.gr.grp]? = some g' ∧ (∀ l, t.byte l = s.byte l) ∧
          i.At (i.pc + 4) i.active i.sl.wb i.sl.k g' ∧ g'.gang = m ∧ g'.gangCount = 0 ∧
          { g'.core with gang := i.g.gang, gangCount := i.g.gangCount } = i.g.core ∧ ((∀ o ∈ i.b.ops, ¬ waits o) → i.InBlock t b' g') ∧
          ∀ o ∈ i.b.ops, waits o → ∃ o' ∈ b'.ops, o'.tl = 1 ∧ o'.num = o.num ∧ o'.isStopped = true)))

/-! ## System family -/

/-- R26, R48, R49, R55: NOP only goes on. MODE sets MODE; MODEX holds its value for the next instruction of the slot alone; either after a MODEX is
ILLOP 12. [R82, R172-R174, R416] TIMER reads the cycle counter or the package's time. CKPT gives the last committed epoch, and with .arrive records an
arrival that lies past it. FLAGCHK takes the FLAG trap where a flag is armed, and does nothing else.
Rests on log entries 8, 38. -/
def Obligations.ModesTimersCheckpoints : Prop :=
  (∀ (s : State) (i : Iss) (m : BitVec 14), s.issue? = some i →
    (∃ t g', exec .nop s = .next t ∧ i.Alone t g' ∧ i.Onward g' ∧ (g'.slot i.slotB).k = i.sl.k ∧ g'.core = i.g.core) ∧
    (i.sl.modex = none →
      (∃ t g', exec (.mode m) s = .next t ∧ i.Alone t g' ∧ i.Onward g' ∧ g'.mode = m ∧ { g'.core with mode := i.g.mode } = i.g.core) ∧
      ∃ t g', exec (.modex m) s = .next t ∧ i.Alone t g' ∧ g'.core = i.g.core ∧ g'.slot i.slotB = { i.sl with pc := i.pc + 4, modex := some (m, i.pc) } ∧
        g'.slot (!i.slotB) = i.g.slot (!i.slotB) ∧ ∀ s' w b, (⟨s', i.gr, i.slotB, w, b, g'⟩ : Iss).mode = m ∧ (⟨s', i.gr, i.slotB, w, b, g'⟩ : Iss).reported = i.pc) ∧
    (i.sl.modex.isSome = true → exec (.mode m) s = .next (i.conclude (.trap (illopTrap 12))) ∧ exec (.modex m) s = .next (i.conclude (.trap (illopTrap 12))))) ∧
  (∀ (s : State) (i : Iss) (d : Dst) (a : Src), s.issue? = some i →
    (i.g.destBusy i.sl.wb [] (dstRegs d) = false →
      (∃ t g', exec (.timer d .cyc) s = .next t ∧ i.Alone t g' ∧ i.PlainResult d (BitVec.ofNat 64 s.cycle) g') ∧
      (∃ t g', exec (.timer d .ns) s = .next t ∧ i.Alone t g' ∧ i.PlainResult d (BitVec.ofNat 64 s.ns) g') ∧
      (i.checkSca .i64 [a] = .ok () → ∀ c, s.ctx? i.b.ctx = some c →
        let e := (i.uni a).toNat
        (∃ t g', exec (.ckpt d a true) s = .next t ∧ i.Alone t g' ∧ i.PlainResult d (BitVec.ofNat 64 c.committed) g') ∧
        ∃ t g', exec (.ckpt d a false) s = .next t ∧ t.group? i.gr = some g' ∧ (∀ gr, gr ≠ i.gr → t.group? gr = s.group? gr) ∧
          (∀ l, t.byte l = s.byte l) ∧ i.Onward g' ∧ (∀ r, d = .reg r → g'.rdS i.sl.wb r.toNat = BitVec.ofNat 64 c.committed) ∧
          g'.ckpt = (if c.committed < e ∧ i.g.ckpt ≤ e then e + 1 else i.g.ckpt) ∧ g'.v = i.g.v ∧ g'.flags = i.g.flags)) ∧
    (if i.g.flags &&& i.g.flagen = 0 then ∃ t g', exec .flagchk s = .next t ∧ i.Alone t g' ∧ i.Onward g' ∧ g'.core = i.g.core
     else exec .flagchk s = .next (i.conclude (.trap (plainTrap .flag (i.g.flags &&& i.g.flagen).toNat)))))

/-- R48, R51-R53, R171: GETC reads the control registers; SETC writes those that are RW, and is PRIV 1 on one that is RO, ILLOP 8 for a value that
MODE may not have, ILLOP 5 for a reserved bit of another.
Rests on log entries 7, 8, 28, 64. -/
def Obligations.ControlRegisters : Prop :=
  ∀ (s : State) (i : Iss) (d : Dst) (a : Src) (n : BitVec 10), s.issue? = some i →
    (i.g.destBusy i.sl.wb [] (dstRegs d) = false →
      (∀ p ∈ i.controls, n.toNat = p.1 → ∃ t g', exec (.getc d n) s = .next t ∧ i.Alone t g' ∧ i.PlainResult d p.2 g') ∧
      (n.toNat = 11 → ∃ t g' x, exec (.getc d n) s = .next t ∧ i.Alone t g' ∧ i.PlainResult d x g' ∧
        ((∀ c ∈ i.g.tagc, c < 256) → ∀ k, k < 8 → bits x.toNat (8 * k) 8 = i.g.tagc.getD k 0)) ∧
      (i.b.handler = none → n.toNat = 29 → ∃ t g', exec (.getc d n) s = .next t ∧ i.Alone t g' ∧ i.PlainResult d (BitVec.ofNat 64 i.b.lin) g') ∧
      (i.b.handler = none → n.toNat = 19 → ∀ g, s.grid? i.b.grid = some g →
        ∃ t g', exec (.getc d n) s = .next t ∧ i.Alone t g' ∧ i.PlainResult d (BitVec.ofNat 64 g.lid) g')) ∧
    (i.checkSca .i64 [a] = .ok () →
      let x := i.uni a
      (∀ p ∈ i.writables x, n.toNat = p.1 →
        if x.toNat < 2 ^ p.2.1 then ∃ t g', exec (.setc a n) s = .next t ∧ i.Alone t g' ∧ i.Onward g' ∧ g'.core = p.2.2.core
        else exec (.setc a n) s = .next (i.conclude (.trap (illopTrap 5)))) ∧
      (n.toNat = 0 →
        if modeValueOk x.toNat = true then ∃ t g', exec (.setc a n) s = .next t ∧ i.Alone t g' ∧ i.Onward g' ∧ g'.mode.toNat = x.toNat ∧
          { g'.core with mode := i.g.mode } = i.g.core
        else exec (.setc a n) s = .next (i.conclude (.trap (illopTrap 8)))) ∧
      (n.toNat = 16 →
        if x.toNat % 16 = 0 then ∃ t g', exec (.setc a n) s = .next t ∧ i.Alone t g' ∧ i.Onward g' ∧ g'.dstkp = x ∧
          g'.stackCopy = [] ∧ { g'.core with dstkp := i.g.dstkp, stackCopy := i.g.stackCopy } = i.g.core
        else exec (.setc a n) s = .next (i.conclude (.trap (illopTrap 5)))) ∧
      (n.toNat ∈ [3, 4, 11, 12, 13, 14, 15, 17, 18, 19, 20, 21, 22, 23, 24, 28, 29] → exec (.setc a n) s = .next (i.conclude (.trap (plainTrap .priv 1)))))

/-! ## Matrix family -/

/-- R179-R183, R299: MMA, MMAL, MCONV and MCONVL check, in order, the block's matrix storage, the configuration word and pairs, the gang's width for
N, and the range of register operands; then the group issues its part. Alone, it issues the whole operation; in a gang, an operation that wanted only
this part becomes ready, or stops with GANG 6 where the members' operands differ. [R187-R189] MZERO, MDRN, MDST and MLDA issue one operation of t1 on
the CB of the group's core, MDST and MLDA after their checks of the drain specification and the address. MQRY reads the capability word, the drain
rows left, or the residue count.
Rests on log entries 8, 31, 35. -/
def Obligations.MatrixIssues : Prop :=
  (∀ (s : State) (i : Iss) (d a b : BitVec 6), s.issue? = some i →
    let run (r : BitVec 6) (n : Nat) : List Word := (List.range n).map fun j => i.g.rdS i.sl.wb (r.toNat + j)
    ∀ p ∈ [(Instr.mma d a b, 1), (.mmal d a b, 2), (.mconv d a b, 2), (.mconvl d a b, 3)],
      let v := run d p.2 ++ run a 2 ++ run b 2
      let members := if i.g.gang = 0 then [i.gr.grp] else lanesOf i.g.gang
      let ok : Prop := i.b.matrix = true ∧ arrayMalformed p.1 v = none ∧ (cfgOf (v.getD 0 0)).n ≤ 128 * members.length ∧
        i.registersOut p.1 v (members.idxOf i.gr.grp) = none
      (i.b.matrix = false → exec p.1 s = .next (i.conclude (.trap (plainTrap .prot 5)))) ∧
      (i.b.matrix = true → ∀ x, arrayMalformed p.1 v = some x → exec p.1 s = .next (i.conclude (.trap { plainTrap .prot 7 with addr := x }))) ∧
      (i.b.matrix = true → arrayMalformed p.1 v = none → 128 * members.length < (cfgOf (v.getD 0 0)).n →
        exec p.1 s = .next (i.conclude (.trap (plainTrap .gang 5)))) ∧
      (ok → i.g.quiet = true → i.g.gang = 0 → (∀ o ∈ i.b.ops, o.waits = false) → i.b.clashes i.gr.grp members i.g.gangCount = [] →
        ∃ t b' g' o, exec p.1 s = .next t ∧ i.Issued p.1 1 v t b' g' o ∧ o.members = [i.gr.grp] ∧ o.complete = true) ∧
      (ok → i.g.quiet = true → i.b.clashes i.gr.grp members i.g.gangCount = [] → ∀ q r ps,
        i.b.ops.find? (fun o => o.waits && o.index == i.g.gangCount && o.members == members && !o.arrived.contains i.gr.grp) = some q →
        q.parts = r :: ps → q.tl = 1 → (∀ m ∈ members, m ≠ i.gr.grp → q.parts.any (fun x => x.grp == m && x.back) = true) →
        ∃ t b' g' o, exec p.1 s = .next t ∧ t.block? i.gr.blk = some b' ∧ b'.groups[i.gr.grp]? = some g' ∧ (∀ l, t.byte l = s.byte l) ∧
          (∀ n, n ≠ i.gr.blk → t.block? n = s.block? n) ∧ i.Onward g' ∧ i.Unread g' ∧ g'.mine = setAt i.g.mine 1 q.num ∧ o ∈ b'.ops ∧ o.tl = 1 ∧ o.num = q.num ∧
          let mine := i.part v (if Word.spc (pairWords p.1 v).1 = 0 ∨ Word.spc (pairWords p.1 v).2.2.1 = 0 then i.snapshot else []) i.goneLanes
          if (ps ++ [mine]).all r.agrees = true then o.state = .queued ∧ o.parts = q.parts ++ [mine] ∧ o.opa = r.opa
          else o.state = .stopped (plainTrap .gang 6))) ∧
  (∀ (s : State) (i : Iss) (d : BitVec 6) (a b : Src) (x : BitVec 2), s.issue? = some i →
    (i.b.matrix = false → ∀ sel, exec .mzero s = .next (i.conclude (.trap (plainTrap .prot 5))) ∧ exec (.mqry d sel) s = .next (i.conclude (.trap (plainTrap .prot 5)))) ∧
    (i.b.matrix = true → i.g.destBusy i.sl.wb [] [d.toNat] = false →
      (∃ t g', exec (.mqry d .cap) s = .next t ∧ i.Alone t g' ∧ i.PlainResult (.reg d) 0x421C040B7 g') ∧
      (∃ t g', exec (.mqry d .drn) s = .next t ∧ i.Alone t g' ∧ i.PlainResult (.reg d)
        (BitVec.ofNat 64 ((i.b.drainsOf (i.gr.grp % 6)).foldl (fun n o => n + (o.drainRows - o.pix)) 0)) g') ∧
      ∃ t g', exec (.mqry d .res) s = .next t ∧ i.Alone t g' ∧ i.PlainResult (.reg d) (BitVec.ofNat 64 (SMap.get 0 s.residues i.cluster)) g') ∧
    (i.b.matrix = true → i.g.quiet = true →
      (∃ t b' g' o, exec .mzero s = .next t ∧ i.Issued .mzero 1 [] t b' g' o ∧ o.complete = true) ∧
      (i.checkSca .i64 [a, b] = .ok () →
        (if 511 < (i.uni a).toNat then exec (.mdrn a b) s = .next (i.conclude (.trap { plainTrap .prot 7 with addr := i.uni a }))
         else if (i.uni b).toNat = 0 ∨ 512 < (i.uni b).toNat then exec (.mdrn a b) s = .next (i.conclude (.trap { plainTrap .prot 7 with addr := i.uni b }))
         else if 512 < (i.uni a).toNat + (i.uni b).toNat then exec (.mdrn a b) s = .next (i.conclude (.trap { plainTrap .prot 7 with addr := i.uni a }))
         else ∃ t b' g' o, exec (.mdrn a b) s = .next t ∧ i.Issued (.mdrn a b) 1 [i.uni a, i.uni b] t b' g' o) ∧
        ∀ p ∈ [(Instr.mdst d a b x, true), (.mlda d a b x, false)],
          let w := i.g.rdS i.sl.wb d.toNat
          (drainMalformed p.2 w = true → exec p.1 s = .next (i.conclude (.trap { plainTrap .prot 7 with addr := w }))) ∧
          (drainMalformed p.2 w = false → engRange x.toNat (i.uni a + i.uni b) = .ok () →
            ∃ t b' g' o, exec p.1 s = .next t ∧ i.Issued p.1 1 [w, i.uni a, i.uni b] t b' g' o ∧
              b'.idem = (i.b.idem && !(p.2 && x == 0))))))

/-- R184, R299: one step of a running array operation applies one chunk of 32 terms to a block of 64 rows by at most 192 columns of the accumulators:
each becomes the canonical sum of what it held, or of 0 at the first chunk where ACC is 0, and of that chunk's products. No other byte changes; the
operation goes on to its next step. [R187, R299] the oldest t1 operation on its CBs starts: MZERO clears its CB and has done its work, a drain begins
to give rows, an array operation takes its records and runs; one whose operands or records fail stops there.
Rests on log entries 8, 32, 33. -/
def Obligations.MatrixRuns : Prop :=
  (∀ (s : State) (blk : Nat) (b : Block) (o : EngOp) (ra rb : Nat → Nat → Option Nat), s.block? blk = some b →
    b.place.isSome = true → b.stepping[Config.pick s.tick % b.stepping.length]? = some o → isArray o.instr = true →
    let x := o.stepCtx
    let cols := min 192 (x.c.n - x.col)
    (∀ r, r < 64 → ∀ k, k < 32 → s.elemA b o x (x.row + r) (x.k + k) = .ok (ra r k)) →
    (∀ n, n < cols → ∀ k, k < 32 → s.elemB b o x (x.k + k) (x.col + n) = .ok (rb n k)) →
    s.stepRace b o x cols = none → (o.members.map (· % 6)).Nodup → x.c.n ≤ 128 * o.members.length → o.tl = 1 → (∀ q ∈ b.ops, q.tl = 1 → q.num = o.num → q = o) →
    let at_ (r n : Nat) : Loc := cbLoc b.id (o.members.getD ((x.col + n) / 128) 0 % 6) (x.row + r) ((x.col + n) % 128)
    ∃ t, exec (.matrixStep blk) s = .next t ∧
      (∀ r, r < 64 → ∀ n, n < cols → t.num (at_ r n) 4 =
        (x.apply (if x.t = 0 ∧ x.chunk = 0 ∧ x.c.acc = false then 0 else s.num (at_ r n) 4) ((List.range 32).map (ra r)) ((List.range 32).map (rb n))).1 % 2 ^ 32) ∧
      (∀ y, (∀ r, r < 64 → ∀ n, n < cols → y.within (at_ r n) 4 = false) → t.byte y = s.byte y) ∧
      ∃ b', t.block? blk = some b' ∧ ∀ q ∈ b'.ops, q.tl = 1 → q.num = o.num →
        if o.pix + 1 < x.c.steps then q.pix = o.pix + 1 ∧ q.state = .running
        else if iterNumber o.levels o.ivec + 1 < levelsTotal o.levels then q.pix = 0 ∧ q.ivec = iterVector o.levels (iterNumber o.levels o.ivec + 1)
        else q.state = .worked) ∧
  (∀ (s : State) (blk n : Nat) (b : Block) (o : EngOp), s.block? blk = some b → b.op? 1 n = some o → b.mayStart1 o = true →
    (o.instr = .mzero → s.cbRace ((b.starting o).who b) (cbLoc blk (o.grp % 6) 0 0) 262144 true = none →
      ∃ t b', exec (.matrixOpStart blk n) s = .next t ∧ t.block? blk = some b' ∧
      (∀ k, k < 262144 → t.byte ((cbLoc blk (o.grp % 6) 0 0).add k) = 0) ∧
      (∀ y, y.within (cbLoc blk (o.grp % 6) 0 0) 262144 = false → t.byte y = s.byte y) ∧ (b'.op? 1 n).map (·.state) = some .worked) ∧
    (o.instr = .mzero → ∀ e, s.cbRace ((b.starting o).who b) (cbLoc blk (o.grp % 6) 0 0) 262144 true = some e →
      ∃ t b', exec (.matrixOpStart blk n) s = .next t ∧ t.block? blk = some b' ∧ (∀ y, t.byte y = s.byte y) ∧ (b'.op? 1 n).map (·.state) = some (.stopped e)) ∧
    (isMdrn o.instr = true → ∃ t b', exec (.matrixOpStart blk n) s = .next t ∧ t.block? blk = some b' ∧ (∀ y, t.byte y = s.byte y) ∧
      (b'.op? 1 n).map (·.state) = some .running) ∧
    (isArray o.instr = true → arrayMalformed o.instr o.opa = none → (cfgOf (cfgWord o.opa)).n ≤ 128 * o.members.length → recordCount o.instr = 0 →
      o.pix < (cfgOf (cfgWord o.opa)).steps → o.ivec = [0, 0, 0, 0, 0] →
      ∃ t b', exec (.matrixOpStart blk n) s = .next t ∧ t.block? blk = some b' ∧ (∀ y, t.byte y = s.byte y) ∧
        (b'.op? 1 n).map (·.state) = some .running) ∧
    (isArray o.instr = true → ∀ x, arrayMalformed o.instr o.opa = some x →
      ∃ t b', exec (.matrixOpStart blk n) s = .next t ∧ t.block? blk = some b' ∧ (∀ y, t.byte y = s.byte y) ∧
        (b'.op? 1 n).map (·.state) = some (.stopped { plainTrap .prot 7 with addr := x })))

/-! ## Plane family -/

/-- R190-R196, R200-R204: a plane instruction of the bound group issues one operation of t2 with the scalars it has read, and PLSEQ takes its number;
another group's is PLX 4. PLBIND gives the plane to the group if it is free, PLX 6 if another holds it. The issue side counts PLIF and PLEND, at most
8 deep. [R197, R241] PLLD and PLST check the range, the alignment to 256 and the SP footprint of A + B, a span peer's address being malformed, then issue;
a PLST to global memory ends the block's idempotent status.
Rests on log entries 8, 31, 36. -/
def Obligations.PlaneIssues : Prop :=
  (∀ (s : State) (i : Iss) (p : Plane) (d : BitVec 5) (a a2 : CellSrc) (b : CellSrcB) (r : BitVec 6) (cl le : Bool) (dir : Dir) (f : Fn) (c : VCond)
    (u w : Src) (m : BitVec 5), s.issue? = some i →
    let issues (instr : Instr) (v : List Word) (q : Plane) : Prop := ∃ t b' g' o, exec instr s = .next t ∧ i.Issued instr 2 v t b' g' o ∧
      g'.plseq = BitVec.ofNat 64 o.num ∧ b'.planeSt = some q ∧ o.data = [i.g.flagen.setWidth 64]
    ((∀ q, i.b.planeSt = some q → q.bound ≠ some i.gr.grp) →
      (∀ e ∈ i.planeAny d a b cl dir, exec e.1 s = .next (i.conclude (.trap (plainTrap .plx 4)))) ∧
      (i.ty = .f32 ∨ i.ty = .bf16 → ∀ e ∈ i.planeFloat d a b r f c a2, exec e.1 s = .next (i.conclude (.trap (plainTrap .plx 4)))) ∧
      ∀ e ∈ [Instr.plfree, .plif, .plelse, .plend, .plclr m], exec e s = .next (i.conclude (.trap (plainTrap .plx 4)))) ∧
    (i.Binds p →
      (∀ e ∈ i.planeAny d a b cl dir, issues e.1 e.2 p) ∧
      (i.ty = .f32 ∨ i.ty = .bf16 → ∀ e ∈ i.planeFloat d a b r f c a2, issues e.1 e.2 p) ∧
      (i.ty = .f32 → issues (.plvis a r le) [i.g.rdS i.sl.wb r.toNat] p ∧
        issues (.plbld d a r) [i.g.rdS i.sl.wb r.toNat, i.g.rdS i.sl.wb (r.toNat + 1)] p) ∧
      (i.checkSca .i64 [u, w] = .ok () → issues (.pltile u w) [i.uni u, i.uni w] p) ∧
      (i.checkSca .i64 [u] = .ok () → issues (.plwin u) [i.uni u] p ∧
        (canonicalVa (i.uni u).toNat = true → (i.uni u).toNat % 32 = 0 → issues (.plbin u) [i.uni u] p)) ∧
      issues .plfree [] { p with bound := none } ∧
      issues (.plclr m) [] (if m.getLsbD 2 then { p with depth := 0 } else p) ∧
      (if p.depth = 8 then exec .plif s = .next (i.conclude (.trap (plainTrap .plx 2))) else issues .plif [] { p with depth := p.depth + 1 }) ∧
      (if p.depth = 0 then exec .plelse s = .next (i.conclude (.trap (plainTrap .plx 3))) else issues .plelse [] p) ∧
      if p.depth = 0 then exec .plend s = .next (i.conclude (.trap (plainTrap .plx 3))) else issues .plend [] { p with depth := p.depth - 1 }) ∧
    (i.b.plane = false → exec .plbind s = .next (i.conclude (.trap (plainTrap .plx 5)))) ∧
    (i.b.plane = true → i.planeBusy = false →
      (i.b.planeSt = none → issues .plbind [] { Plane.fresh with bound := some i.gr.grp }) ∧
      ∀ q, i.b.planeSt = some q →
        if q.bound = none ∨ q.bound = some i.gr.grp then issues .plbind [] { q with bound := some i.gr.grp }
        else exec .plbind s = .next (i.conclude (.trap (plainTrap .plx 6))))) ∧
  (∀ (s : State) (i : Iss) (p : Plane) (d : BitVec 5) (a b : Src) (sp : Bool), s.issue? = some i → i.checkSca .i64 [a, b] = .ok () →
    let x := i.uni a + i.uni b
    ∀ e ∈ [(Instr.plld d a b sp, false), (.plst d a b sp, true)],
      (sp = true → 2 ^ 25 ≤ x.toNat ∨ 5 < bits x.toNat 18 3 ∨ (bit x.toNat 24 = false ∧ bits x.toNat 21 3 ≠ 0) →
        exec e.1 s = .next (i.conclude (.trap { plainTrap .prot 2 with addr := x }))) ∧
      (sp = true → x.toNat < 2 ^ 25 → bits x.toNat 18 3 ≤ 5 → bit x.toNat 24 = true →
        exec e.1 s = .next (i.conclude (.trap { plainTrap .prot 7 with addr := x }))) ∧
      (sp = false → canonicalVa x.toNat = false → exec e.1 s = .next (i.conclude (.trap { plainTrap .page 1 with addr := x }))) ∧
      ((if sp then x.toNat < 2 ^ 21 ∧ bits x.toNat 18 3 ≤ 5 else canonicalVa x.toNat = true) → x.toNat % 256 ≠ 0 →
        exec e.1 s = .next (i.conclude (.trap { plainTrap .align 1 with addr := x }))) ∧
      (planeRange i.b sp x = .ok () → i.Binds p → ∃ t b' g' o, exec e.1 s = .next t ∧ i.Issued e.1 2 [i.uni a, i.uni b] t b' g' o ∧
        g'.plseq = BitVec.ofNat 64 o.num ∧ b'.planeSt = some p ∧ b'.idem = (i.b.idem && !(e.2 && !sp))))

/-- R198, R199, R203, R283, R289, R327: a plane-synchronising read of the bound group is a t2 operation, numbered at its issue. It waits while an earlier
one has not completed, at its issue or when it resumes, and then reads: PLRED the fold of the enabled cells' values from B, PLEXC the exception bitmap into
2,048 bytes and its count, PLFLG the union of the cell flags with PLX; .clr clears what it has read. A pending PLX of the group is its trap instead. A group
that is not bound at the issue waits for the earlier operations too, and then takes its pending PLX, else PLX 4. A read whose registers' parity has failed
waits for the error [R285].
Rests on log entries 8, 9, 36, 56. -/
def Obligations.PlaneReads : Prop :=
  ∀ (s : State) (i : Iss) (p : Plane) (d : BitVec 6) (a : CellSrc) (b : Src) (op : AmmOp) (clr : Bool) (x : Acc) (k : Nat), s.issue? = some i →
    let issues := i.sl.wait = none ∧ i.planeBusy = false ∧ k = (i.b.tline 2).issued + 1
    let bound := i.b.planeSt = some p ∧ p.bound = some i.gr.grp
    let resumes := i.sl.wait = some (.plane k) ∧ (i.b.op? 2 k).isSome = true ∧ i.b.planeSt = some p
    let lost := i.sl.wait = some (.unbound k) ∨ (issues ∧ ∀ q, i.b.planeSt = some q → q.bound ≠ some i.gr.grp)
    let early := i.b.ops.any fun o => o.tl == 2 && decide (o.num < k) && !o.isDone
    let pending (n : Nat) : Prop := ∃ q, i.b.planeSt = some q ∧ q.plx = some (i.gr.grp, n)
    let plx1 (n : Nat) : Trap := { plainTrap .plx 1 with addr := BitVec.ofNat 64 n }
    let reads (instr : Instr) (q : State → Block → Group → Prop) : Prop :=
      (lost →
        (early = true → ∃ t b' g', exec instr s = .next t ∧ i.InBlock t b' g' ∧ i.Waiting (.unbound k) g' ∧ i.Unread g' ∧ b'.ops = i.b.ops ∧ b'.planeSt = i.b.planeSt) ∧
        (early = false → (∀ n, pending n → exec instr s = .next (i.conclude (.trap (plx1 n)))) ∧
          ((∀ n, ¬ pending n) → exec instr s = .next (i.conclude (.trap (plainTrap .plx 4)))))) ∧
      ((issues ∧ bound) ∨ resumes →
        (early = true ∨ s.parityMet i.b instr = true → ∃ t b' g', exec instr s = .next t ∧ i.InBlock t b' g' ∧ i.Waiting (.plane k) g' ∧ i.Unread g' ∧
          b'.planeSt = some p ∧ (issues → g'.plseq = BitVec.ofNat 64 k ∧ ∃ o ∈ b'.ops, o.tl = 2 ∧ o.num = k ∧ o.instr = instr ∧ o.state = .running)) ∧
        (early = false → s.parityMet i.b instr = false →
          (∀ n, pending n → exec instr s = .next (i.conclude (.trap (plx1 n)))) ∧
          ((∀ n, ¬ pending n) → ∃ t b' g', exec instr s = .next t ∧ t.block? i.gr.blk = some b' ∧ b'.groups[i.gr.grp]? = some g' ∧
            (∀ gr, gr ≠ i.gr → t.group? gr = s.group? gr) ∧ i.At (i.pc + 4) i.active i.sl.wb 0 g' ∧ (issues → g'.plseq = BitVec.ofNat 64 k) ∧
            (b'.op? 2 k).map (·.state) = some .done ∧ g'.v = i.g.v ∧ g'.p = i.g.p ∧
            (∀ wb m, (wb + m) % 256 ≠ (i.sl.wb + d.toNat) % 256 → g'.rdS wb m = i.g.rdS wb m) ∧ q t b' g')))
    (i.checkSca .f32 [b] = .ok () → reads (.plred d a b op) fun t b' g' =>
      let r := redValue (redOfAmm op) .f32 false (i.uniF32 b).1 (p.terms a)
      g'.rdS i.sl.wb d.toNat = BitVec.ofNat 64 (canonical .f32 r.1) ∧ (∀ n, (r.2 ||| (i.uniF32 b).2).getLsbD n = true → g'.flags.getLsbD n = true) ∧
        b'.planeSt = some { p with last := k } ∧ ∀ l, t.byte l = s.byte l) ∧
    (i.checkSca .i64 [b] = .ok () →
      i.s.check i.who i.b none ⟨.sp, i.uni b, 2048, decide ((i.uni b).toNat % 256 = 0), false, true, false, false, true⟩ false = .ok x →
      (∀ y ∈ s.writers, touchesGranule x.loc 2048 y.1 = false) → s.holds x.loc.store = true → reads (.plexc d b clr) fun t b' g' =>
        g'.rdS i.sl.wb d.toNat = BitVec.ofNat 64 (cellCount p.exc) ∧ b'.planeSt = some { p with last := k, exc := if clr then [] else p.exc } ∧
        s.Stored t x.loc (excBytes p.exc)) ∧
    reads (.plflg d clr) fun t b' g' =>
      b'.planeSt = some { p with last := k, flags := if clr then [] else p.flags } ∧ (∀ l, t.byte l = s.byte l) ∧
      ∀ n, (g'.rdS i.sl.wb d.toNat).getLsbD n =
        if n < 6 then p.flags.any fun r => r.any fun f => f.getLsbD n else decide (n = 6) && decide (cellCount p.exc ≠ 0)

/-- R191-R198, R200, R202, R203, R282: the next operation of a placed block's plane runs over every cell at once. An element-wise one writes its destinations
in the enabled cells with the value its operands had before it, and holds the flags of those cells; the others keep theirs. PLVIS gives a cell
that passes its test the depth and the ID, PLBLD blends a colour into four registers, each step rounded to f32 by RNE. PLLD and PLST go row by
row, the enabled cells of a row in no order, and PLTILE by one primitive of its list at a time; PLBIN joins the queue of its die's engine. PLCLR clears what its bits name.
Rests on log entries 29, 36, 56. -/
def Obligations.PlaneOperations : Prop :=
  ∀ (s : State) (blk : Nat) (b : Block) (o : EngOp) (p : Plane), s.block? blk = some b → b.place.isSome = true → b.nextPlane = some o →
    b.planeSt = some p → o.tl = 2 → s.parityMet b o.instr = false → (∀ q ∈ b.ops, q.tl = 2 → q.num = o.num → q = o) →
    let o' := { o with state := .running, clock := (b.ops.filter fun (q : EngOp) => q.tl == 2 && decide (q.num < o.num)).foldl (fun c (q : EngOp) => clockJoin c q.rel) o.clock }
    let same (b' : Block) : Prop := ∀ k : Nat, (b'.groups[k]?).map (fun (g : Group) => { g with pix := 0 }) = (b.groups[k]?).map fun (g : Group) => { g with pix := 0 }
    let runs (f : Plane → Prop) : Prop := ∃ t b' p', exec (.planeOp blk) s = .next t ∧ t.block? blk = some b' ∧ b'.planeSt = some p' ∧
      (b'.op? 2 o.num).map (·.state) = some .worked ∧ (∀ l, t.byte l = s.byte l) ∧ same b' ∧ f p'
    let stops (e : Trap) : Prop := ∃ t b', exec (.planeOp blk) s = .next t ∧ t.block? blk = some b' ∧ b'.planeSt = some p ∧
      (b'.op? 2 o.num).map (·.state) = some (.stopped e) ∧ ∀ l, t.byte l = s.byte l
    let f32 (v : Val × Flags) : Val := decodeElem .f32 (finish .f32 .rne false v).1
    let val (r i j : Nat) : Val := decodeElem .f32 (p.cell r i j).toNat
    (cellDests o.instr ≠ [] → runs fun p' => ∀ i j, i < 128 → j < 128 →
      (∀ r, r < 32 → p'.cell r i j =
        if r ∈ cellDests o.instr ∧ p.en i j = true then ((cellEffect o p i j).vals.find? fun x => x.1 == r).map (·.2) |>.getD (p.cell r i j) else p.cell r i j) ∧
      p'.wn = p.wn ∧ p'.e = p.e ∧ p'.stack = p.stack ∧
      p'.cellFlags i j = p.cellFlags i j ||| if p.en i j then (cellEffect o p i j).fl else 0) ∧
    (∀ a r le, o.instr = .plvis a r le → runs fun p' => ∀ i j, i < 128 → j < 128 →
      let x := p.src false a i j
      let passes := p.en i j && condVal (if le then .le else .lt) (decodeElem .f32 x.toNat) (val 31 i j)
      p'.cell 31 i j = (if passes then x else p.cell 31 i j) ∧ p'.cell 30 i j = (if passes then (o.opa.getD 0 0).setWidth 32 else p.cell 30 i j) ∧
      ∀ n, n < 30 → p'.cell n i j = p.cell n i j) ∧
    (∀ (d : BitVec 5) a r, o.instr = .plbld d a r → d.toNat ≤ 28 → runs fun p' => ∀ i j, i < 128 → j < 128 → p.en i j = true →
      let al := decodeElem .f32 (p.src false a i j).toNat
      let colour (c : Nat) : Val := decodeElem .f32 ((o.opa.getD (c / 2) 0).toNat / 2 ^ (32 * (c % 2)) % 2 ^ 32)
      let w := f32 (mulVal al (val (d.toNat + 3) i j))
      (∀ c, c < 3 → (p'.cell (d.toNat + c) i j).toNat = (finish .f32 .rne false (addVal .rne (val (d.toNat + c) i j) (f32 (mulVal w (colour c))))).1) ∧
      (p'.cell (d.toNat + 3) i j).toNat = (finish .f32 .rne false (mulVal (val (d.toNat + 3) i j) (f32 (subVal .rne (Val.ofInt 1) al)))).1) ∧
    (∀ a c k, o.instr = .plcmp a c k → runs fun p' => ∀ i j, i < 128 → j < 128 →
      cbit p'.t i j = (if p.en i j then condVal k (cellVal o.bf (p.src o.bf a i j)) (cellVal o.bf (p.src o.bf c i j)) else cbit p.t i j) ∧
      ∀ r, p'.cell r i j = p.cell r i j) ∧
    (o.instr = .plif → runs fun p' => ∀ i j, i < 128 → j < 128 → cbit p'.e i j = (p.en i j && cbit p.t i j) ∧
      ∃ q, p'.stack = q :: p.stack ∧ q.1 = p.e ∧ cbit q.2 i j = (p.en i j && !cbit p.t i j)) ∧
    (∀ x y r, o.instr = .plelse → p.stack = (x, y) :: r → runs fun p' => p' = { p with e := y, stack := (x, []) :: r, exc := p'.exc, plx := p'.plx }) ∧
    (∀ x y r, o.instr = .plend → p.stack = (x, y) :: r → runs fun p' => p' = { p with e := x, stack := r, exc := p'.exc, plx := p'.plx }) ∧
    (∀ a, o.instr = .plwin a → runs fun p' => ∀ i j, i < 128 → j < 128 → cbit p'.wn i j =
      let v := (o.opa.getD 0 0).toNat
      decide (v % 128 ≤ i ∧ i ≤ v / 2 ^ 16 % 128 ∧ v / 2 ^ 8 % 128 ≤ j ∧ j ≤ v / 2 ^ 24 % 128)) ∧
    (∀ m : BitVec 5, o.instr = .plclr m → runs fun p' => p'.bound = p.bound ∧ p'.wn = p.wn ∧ ∀ i j, i < 128 → j < 128 →
      p'.cellFlags i j = (if m.getLsbD 0 then 0 else p.cellFlags i j) ∧ cbit p'.exc i j = (cbit p.exc i j && !m.getLsbD 1) ∧
      p'.plx = (if m.getLsbD 1 then none else p.plx) ∧ p'.stack = (if m.getLsbD 2 then [] else p.stack) ∧ cbit p'.e i j = (cbit p.e i j || m.getLsbD 2) ∧
      cbit p'.t i j = (cbit p.t i j && !m.getLsbD 2) ∧ p'.cell 30 i j = (if m.getLsbD 3 then 0xFFFFFFFF else p.cell 30 i j) ∧
      p'.cell 31 i j = (if m.getLsbD 3 then 0x7F800000 else p.cell 31 i j) ∧ ∀ r, r < 30 → p'.cell r i j = if m.getLsbD 4 then 0 else p.cell r i j) ∧
    (∀ a, o.instr = .plbin a → ∃ t, exec (.planeOp blk) s = .next t ∧ t.binJobs = s.binJobs ++ [⟨dieOf (b.place.getD 0), blk, o.num⟩] ∧ ∀ l, t.byte l = s.byte l) ∧
    (∀ (d : BitVec 5) u w (sp st : Bool), o.instr = (if st then Instr.plst d u w sp else .plld d u w sp) → o.pix < 128 →
      let j := o.pix
      let check (i : Nat) : Except Trap Acc := s.copyCheck (o'.who b) b o.grp (if sp then 1 else 0)
        (o.opa.getD 0 0 + o.opa.getD 1 0 + BitVec.ofNat 64 (4 * (128 * j + i))) 4 st true
      let moves (i : Nat) : Bool := p.en i j && !o.units.contains i && Config.units s.tick i
      let after (b' : Block) : Prop := ∃ q, b'.op? 2 o.num = some q ∧
        let all : Prop := ∀ i, i < 128 → p.en i j = true → i ∈ o.units ∨ moves i = true
        (all → if j = 127 then q.state = .worked else q.pix = j + 1 ∧ q.state = .running ∧ q.units = []) ∧
        (¬ all → q.pix = j ∧ q.state = .running ∧ ∀ k ∈ q.parts.head?, ∀ i, i ∈ k.units ↔ i ∈ o.units ∨ i < 128 ∧ moves i = true)
      (∀ i e, i < 128 → p.en i j = true → check i = .error e → (∀ k, k < i → p.en k j = true → ∃ y, check k = .ok y) → stops e) ∧
      ∀ f : Nat → Acc, (∀ i, i < 128 → p.en i j = true → check i = .ok (f i) ∧ s.holds (f i).loc.store = true) →
        (∀ i k, i < 128 → k < 128 → i ≠ k → ∀ x, x < 4 → ((f i).loc.add x).within (f k).loc 4 = false) →
        ∃ t b' p', exec (.planeOp blk) s = .next t ∧ t.block? blk = some b' ∧ b'.planeSt = some p' ∧ after b' ∧ same b' ∧
          (st = true → p' = p ∧ (∀ i, i < 128 → moves i = true → t.num (f i).loc 4 = (p.cell d.toNat i j).toNat) ∧
            ∀ y, (∀ i, i < 128 → moves i = true → y.within (f i).loc 4 = false) → t.byte y = s.byte y) ∧
          (st = false → (∀ y, t.byte y = s.byte y) ∧ ∀ r i k, r < 32 → i < 128 → k < 128 →
            p'.cell r i k = if r = d.toNat ∧ k = j ∧ moves i = true then BitVec.ofNat 32 (s.num (f i).loc 4) else p.cell r i k)) ∧
    (∀ u w hd, o.instr = .pltile u w → o.state = .queued → o.data.length = 3 → s.engRead (o'.who b) b false (o.opa.getD 0 0) 16 16 = .ok hd → hd.length = 16 →
      let count := leNat (hd.take 4)
      let x := leNat ((hd.drop 4).take 2)
      let y := leNat ((hd.drop 6).take 2)
      let list := binStoreOf b (o.opa.getD 0 0) + BitVec.ofNat 64 (leNat (hd.drop 8))
      (count ≤ o.pix → runs fun p' => p' = p) ∧
      ∀ ix bs, o.pix < count → s.engRead (o'.who b) b false (list + BitVec.ofNat 64 (4 * o.pix)) 4 4 = .ok ix →
        s.engRead (o'.who b) b false (o.opa.getD 1 0 + BitVec.ofNat 64 (64 * leNat ix)) 64 64 = .ok bs →
        let k (n : Nat) : Val := decodeElem .f32 (leNat ((bs.drop n).take 4))
        let f (i j : Nat) : Val := (polyVal ((List.range 6).map fun n => k (4 * n)) (centre (128 * x + i)) (centre (128 * y + j))).1
        let z (i j : Nat) : Val := (linVal ((List.range 3).map fun n => k (40 + 4 * n)) (centre (128 * x + i)) (centre (128 * y + j))).1
        let takes (i j : Nat) : Bool := p.en i j && condVal .ge (f i j) (Val.ofInt 0) && condVal .lt (z i j) (val 31 i j)
        ∃ t b' p' q, exec (.planeOp blk) s = .next t ∧ t.block? blk = some b' ∧ b'.planeSt = some p' ∧ b'.op? 2 o.num = some q ∧ (∀ l, t.byte l = s.byte l) ∧ same b' ∧
          q.pix = o.pix + 1 ∧ q.state = (if o.pix + 1 = count then .worked else .running) ∧
          ∀ i j, i < 128 → j < 128 →
            (p'.cell 31 i j).toNat = (if takes i j then (finish .f32 .rne false (z i j, 0)).1 else (p.cell 31 i j).toNat) ∧
            p'.cell 30 i j = (if takes i j then BitVec.ofNat 32 (leNat ((bs.drop 52).take 4)) else p.cell 30 i j) ∧ ∀ r, r < 30 → p'.cell r i j = p.cell r i j)

/-! ## Copies -/

/-- R153, R154, R307, R310: CPB supplies the group's slice, the 32 bytes at an SP address, to the block's collective; the first group to reach it issues the
operation, and later ones join it. CPT reads its 64-byte record and issues an operation of its own. Both number on t0.
Rests on log entries 8, 38, 39. -/
def Obligations.CopyIssues : Prop :=
  ∀ (s : State) (i : Iss) (a b : Src) (x : Acc), s.issue? = some i → i.onlyHelpers = false → i.g.quiet = true →
    (i.checkSca .i64 [a] = .ok () →
      i.s.check i.who i.b none ⟨.sp, i.uni a, 32, decide ((i.uni a).toNat % 32 = 0), true, false, false, false, true⟩ true = .ok x →
      let words := (List.range 4).map fun j => BitVec.ofNat 64 (s.num (x.loc.add (8 * j)) 8)
      (i.b.collective? i.g.collSeq = none → ∃ t b' g' o, exec (.cpb a) s = .next t ∧ i.Issued (.cpb a) 0 [i.uni a] t b' g' o ∧
        g'.collSeq = i.g.collSeq + 1 ∧ o.index = i.g.collSeq ∧ o.members = List.range i.b.groups.length ∧ o.parts = [i.part [i.uni a] words 0] ∧
        b'.idem = (i.b.idem && !decide ((sliceOfWords words).dspc = 0))) ∧
      ∀ q, i.b.collective? i.g.collSeq = some q → q.tl = 0 → ∃ t b' g' o, exec (.cpb a) s = .next t ∧ t.block? i.gr.blk = some b' ∧
        b'.groups[i.gr.grp]? = some g' ∧ i.Onward g' ∧ i.Unread g' ∧ (∀ l, t.byte l = s.byte l) ∧ g'.collSeq = i.g.collSeq + 1 ∧
        g'.mine = setAt i.g.mine 0 q.num ∧ o ∈ b'.ops ∧ o.num = q.num ∧ o.parts = q.parts ++ [i.part [i.uni a] words 0] ∧ o.state = q.state) ∧
    (i.checkSca .i64 [a, b] = .ok () →
      i.s.checkRecord i.who i.b (coreIdx i.gr.grp) (i.uni a) = .ok x →
      (∀ e, tileDest i.b (i.uni b) = .error e → exec (.cpt a b) s = .next (i.conclude (.trap e))) ∧
      (tileDest i.b (i.uni b) = .ok () → ∃ t b' g' o, exec (.cpt a b) s = .next t ∧ i.Issued (.cpt a b) 0 [i.uni a, i.uni b] t b' g' o ∧
        o.parts = [i.part [i.uni a, i.uni b] ((List.range 8).map fun j => BitVec.ofNat 64 (s.num (x.loc.add (8 * j)) 8)) 0] ∧ b'.idem = i.b.idem))

/-- R253, R307, R310, R311, R314: a row of a slice is copied as 8-byte units, in no order: at a step some perform, all of those read before any
is written, and no other byte changes; once all have, the part goes on to its next row, and after its last row it writes STAT 0 at byte 27 of its
descriptor. A unit whose source fails a check ends the part: its address stands over SRC, and STAT gives the cause. [R148, R322] The 8-byte writes of
a CPA transfer start after the older ones of its tag have completed, and perform in no order, but those of lanes with one destination in lane order:
each lane's bytes, then zeros up to 32. With the last, the tag's count goes down by 1.
Rests on log entry 39. -/
def Obligations.CopiesRun : Prop :=
  (∀ (s : State) (blk num slice : Nat) (b : Block) (o : EngOp) (p : Part) (fa fb : Nat → Acc), s.block? blk = some b → b.op? 0 num = some o →
    isCpb o.instr = true → o.state = .running → o.parts.find? (fun p => p.grp == slice) = some p → p.regs ≠ [] → o.turn p = true → p.ended o.instr = false →
    (∀ q ∈ b.ops, q.tl = 0 → q.num = num → q = o) →
    let d := sliceOfWords p.regs
    d.empty = false → d.malformed b = false → bit d.sync 31 = false → p.pix < d.rows →
    let who := o.sliceWho b p.grp (p.pix + 1)
    let n := d.rowlen / 8
    let now (k : Nat) : Bool := decide (k < n) && !p.units.contains k && Config.units s.tick k
    let all : Prop := ∀ k, k < n → k ∈ p.units ∨ now k = true
    let src (k : Nat) : Word := d.src + BitVec.ofNat 64 (p.pix * d.spitch + 8 * k)
    let reads (k : Nat) : Except Trap Acc := s.copyCheck who b p.grp d.sspc (src k) 8 false true
    let record (ofs m : Nat) : Except Trap Acc := s.copyCheck (o.sliceWho b p.grp claimTime) b p.grp 1 (p.opa.getD 0 0 + BitVec.ofNat 64 ofs) m true false
    let part (t : State) (pix : Nat) (us : Nat → Prop) : Prop := ∃ b' q, t.block? blk = some b' ∧ b'.op? 0 num = some q ∧
      ∀ x ∈ q.parts, x.grp = slice → x.pix = pix ∧ ∀ k, k ∈ x.units ↔ us k
    ((∀ k, now k = true → reads k = .ok (fa k) ∧ s.holds (fb k).loc.store = true ∧
        s.copyCheck who b p.grp d.dspc (d.dst + BitVec.ofNat 64 (p.pix * d.dpitch + 8 * k)) 8 true true = .ok (fb k)) →
      (∀ k m j, now k = true → now m = true → j < 8 → k ≠ m → ((fb k).loc.add j).within (fb m).loc 8 = false) →
      let copied (t : State) (but : Loc → Prop) : Prop :=
        (∀ k j, now k = true → j < 8 → ¬ but ((fb k).loc.add j) → t.byte ((fb k).loc.add j) = s.byte ((fa k).loc.add j)) ∧
        ∀ x, ¬ but x → (∀ k, now k = true → x.within (fb k).loc 8 = false) → t.byte x = s.byte x
      (¬ all → ∃ t, exec (.copyRow blk num slice) s = .next t ∧ copied t (fun _ => False) ∧ part t p.pix fun k => k ∈ p.units ∨ now k = true) ∧
      (all → p.pix + 1 < d.rows → ∃ t, exec (.copyRow blk num slice) s = .next t ∧ copied t (fun _ => False) ∧ part t (p.pix + 1) fun _ => False) ∧
      (all → p.pix + 1 = d.rows → ∀ y, record 27 1 = .ok y → s.holds y.loc.store = true →
        ∃ t, exec (.copyRow blk num slice) s = .next t ∧ copied t (fun x => x = y.loc) ∧ t.byte y.loc = 0 ∧ part t (d.rows + 1) fun _ => False)) ∧
    ∀ k e y z, now k = true → reads k = .error e → (∀ m, m < k → now m = true → ∃ x, reads m = .ok x) → record 0 8 = .ok y → record 27 1 = .ok z →
      s.holds y.loc.store = true → z.loc = y.loc.add 27 →
      ∃ t, exec (.copyRow blk num slice) s = .next t ∧ t.num y.loc 8 = (src k).toNat ∧ t.byte z.loc = BitVec.ofNat 8 (1 + 16 * statCause e) ∧
        (∀ x, x.within y.loc 8 = false → x ≠ z.loc → t.byte x = s.byte x) ∧ part t (d.rows + 1) fun _ => False) ∧
  (∀ (s : State) (gr : GRef) (k : Nat) (b : Block) (g : Group) (c : CpaOp), s.block? gr.blk = some b → s.group? gr = some g → g.cpas[k]? = some c →
    c.done = false → (∀ y ∈ g.cpas.take k, y.tag = c.tag → y.done = true) →
    (∀ x ∈ c.lanes, x.2.1.length ≤ 32 ∧ s.holds x.2.2.store = true) →
    (∀ (i m : Nat) (x y : Nat × List Byte × Loc), c.lanes[i]? = some x → c.lanes[m]? = some y → i ≠ m →
      x.2.2 = y.2.2 ∨ ∀ j, j < 32 → (x.2.2.add j).within y.2.2 32 = false) →
    let n := 4 * c.lanes.length
    let now (u : Nat) : Prop := u < n ∧ u ∉ c.units ∧ Config.units s.tick u = true ∧
      ∀ (m : Nat) (x y : Nat × List Byte × Loc), m < u / 4 → c.lanes[m]? = some x → c.lanes[u / 4]? = some y → x.2.2 = y.2.2 →
        4 * m + u % 4 ∈ c.units ∨ Config.units s.tick (4 * m + u % 4) = true
    let all : Prop := ∀ u, u < n → u ∈ c.units ∨ now u
    ∃ t g' c', exec (.cpaTransferComplete gr k) s = .next t ∧ t.group? gr = some g' ∧ g'.cpas[k]? = some c' ∧
      (∀ (i j : Nat) (x : Nat × List Byte × Loc), c.lanes[i]? = some x → j < 32 → now (4 * i + j / 8) →
        (∀ (m : Nat) (y : Nat × List Byte × Loc), i < m → c.lanes[m]? = some y → x.2.2 = y.2.2 → ¬ now (4 * m + j / 8)) →
        t.byte (x.2.2.add j) = (x.2.1 ++ List.replicate (32 - x.2.1.length) 0).getD j 0) ∧
      (∀ l, (∀ (i u : Nat) (x : Nat × List Byte × Loc), c.lanes[i]? = some x → u < 4 → now (4 * i + u) → l.within (x.2.2.add (8 * u)) 8 = false) →
        t.byte l = s.byte l) ∧
      (all → c'.done = true ∧ g'.tagc = modAt g.tagc c.tag (· - 1)) ∧
      (¬ all → c'.done = false ∧ g'.tagc = g.tagc ∧ ∀ u, u ∈ c'.units ↔ u ∈ c.units ∨ now u) ∧
      g'.v = g.v ∧ g'.s = g.s ∧ ∀ o, o ≠ gr → t.group? o = s.group? o)

/-! ## Launch and handle families -/

/-- R205, R329, R332-R334, R349: LAUNCH reads its 128-byte record, and puts into S[D] the LAUNCHID of the grid it has made, or minus the code of the
first check that fails; LQFULL when there is no room. ARM fills a free entry of the table and gives its index, -1 when the table is full and -2 for
a pair that stands; DISARM frees an entry.
Rests on log entries 8, 37. -/
def Obligations.Launches : Prop :=
  ∀ (s : State) (i : Iss) (d : BitVec 6) (a : Src) (bs : List Byte), s.issue? = some i → i.checkSca .i64 [a] = .ok () →
    (i.Reads d (i.uni a) 128 bs → ∀ c, s.ctx? i.b.ctx = some c →
      (∀ n, rejects bs c = some n → ∃ t g', exec (.launch d a) s = .next t ∧ i.Gave d (BitVec.ofInt 64 (-(n : Int))) true true t g' ∧ t.grids = s.grids) ∧
      (rejects bs c = none → s.storeFull (dieOf i.cluster) = false → ∃ t g' gd, exec (.launch d a) s = .next t ∧
        i.Gave d (BitVec.ofNat 64 c.nextLaunch) true true t g' ∧ t.grids = s.grids ++ [gd] ∧ gd.lid = c.nextLaunch ∧ gd.ctx = c.num ∧ gd.lrec = lrecOf bs ∧
        gd.active = [] ∧ gd.low = 0 ∧ i.g.epoch + 1 ≤ clockGet gd.clock i.g.agent ∧
        (t.ctx? i.b.ctx).map (·.nextLaunch) = some (if 0xFFFFFFFE ≤ c.nextLaunch then 1 else c.nextLaunch + 1)) ∧
      (rejects bs c = none → s.storeFull (dieOf i.cluster) = true → exec (.launch d a) s = .next (i.conclude (.trap (plainTrap .lqfull 0))))) ∧
    (i.Reads d (i.uni a) 32 bs →
      let tag := leNat (bs.take 4)
      let len := leNat ((bs.drop 4).take 4)
      (4096 ≤ s.armed.length → ∃ t g', exec (.arm d a) s = .next t ∧ i.Gave d (BitVec.ofInt 64 (-1)) false true t g' ∧ t.armed = s.armed) ∧
      (s.armed.length < 4096 → (∃ e ∈ s.armed, e.ctx = i.b.ctx ∧ e.tag = tag ∧ e.minLen = len) →
        ∃ t g', exec (.arm d a) s = .next t ∧ i.Gave d (BitVec.ofInt 64 (-2)) false true t g' ∧ t.armed = s.armed) ∧
      (s.armed.length < 4096 → (∀ e ∈ s.armed, ¬ (e.ctx = i.b.ctx ∧ e.tag = tag ∧ e.minLen = len)) → (∃ n, n < 4096 ∧ ∀ e ∈ s.armed, e.idx ≠ n) →
        ∃ t g' e, exec (.arm d a) s = .next t ∧ i.Gave d (BitVec.ofNat 64 e.idx) false true t g' ∧ t.armed = s.armed ++ [e] ∧ e.idx < 4096 ∧
          (∀ x ∈ s.armed, x.idx ≠ e.idx) ∧ e.ctx = i.b.ctx ∧ e.tag = tag ∧ e.minLen = len ∧
          e.recAddr = BitVec.ofNat 64 (leNat ((bs.drop 8).take 8)) ∧ e.buf = BitVec.ofNat 64 (leNat ((bs.drop 16).take 8)))) ∧
    (i.onlyHelpers = false → i.g.destBusy i.sl.wb [] [d.toNat] = false →
      let is_ (e : ArmEnt) : Prop := e.ctx = i.b.ctx ∧ e.tag = (i.uni a).toNat % 2 ^ 32 ∧ e.minLen = (i.uni a).toNat / 2 ^ 32
      ∃ t g' x, exec (.disarm d a) s = .next t ∧ i.Gave d x false true t g' ∧ (∀ e, e ∈ t.armed ↔ e ∈ s.armed ∧ ¬ is_ e) ∧
        (x = 1 ∧ (∃ e ∈ s.armed, is_ e) ∨ x = 0 ∧ ∀ e ∈ s.armed, ¬ is_ e))

/-- R207, R355-R359: INVOKE reads its record and payload, allocates the lowest FREE slot of its cluster as PENDING, gives its handle, and sends the
invocation to the place. INVH does the same for a handle: at a home in its own cluster, the invocation is queued while the slot is PENDING, and a
handle that fails a check is a HANDLE trap with nothing allocated; to another home it sends the invocation and waits.
Rests on log entries 8, 41, 42. -/
def Obligations.Invokes : Prop :=
  ∀ (s : State) (i : Iss) (d : BitVec 6) (a b : Src) (bs p : List Byte) (n : Nat), s.issue? = some i → i.checkSca .i64 [a, b] = .ok () →
    i.Reads d (i.uni b) 32 bs → invMalformed bs = false → i.payload (BitVec.ofNat 64 (leNat ((bs.drop 16).take 8))) (leNat ((bs.drop 8).take 4)) = .ok p →
    let x := i.uni a
    let key := i.cluster * 4096 + n
    let own := handleWord s.pkg i.cluster n (s.hslot key).gen
    let made (v : Inv) : Prop := v.own = own ∧ v.entry = BitVec.ofNat 64 (leNat (bs.take 8)) ∧ v.payload = p ∧ v.ctx = i.b.ctx ∧ v.sender = i.sender ∧
      i.g.epoch + 1 ≤ clockGet v.clock i.g.agent
    let pending (t : State) : Prop := (t.hslot key).state = .pending ∧ (t.hslot key).owner = i.b.ctx ∧ (t.hslot key).gen = (s.hslot key).gen
    (s.placeMalformed x = true → exec (.invoke d a b) s = .next (i.conclude (.trap (plainTrap .handle 1)))) ∧
    (s.handleMalformed x = true → i.sl.wait = none → exec (.invh d a b) s = .next (i.conclude (.trap (plainTrap .handle 1)))) ∧
    (s.freeSlot i.cluster = some n →
      (s.placeMalformed x = false → ∃ t g' v, exec (.invoke d a b) s = .next t ∧ i.Gave d own true true t g' ∧ pending t ∧ made v ∧
        t.msgs = s.msgs ++ [⟨i.leaf, handleLeaf x, .place v 0⟩]) ∧
      (s.handleMalformed x = false → i.sl.wait = none → i.homeHere x = true → i.homeBusy = false →
        (∀ e, s.handleFault i.b.ctx x = some e → exec (.invh d a b) s = .next (i.conclude (.trap (plainTrap .handle e)))) ∧
        (s.handleFault i.b.ctx x = none → (s.hslot (handleKey x)).state = .pending → (s.hslot (handleKey x)).queue.length < 8 → handleKey x ≠ key →
          ∃ t g' v, exec (.invh d a b) s = .next t ∧ i.Gave d own true true t g' ∧ pending t ∧ made v ∧
            (t.hslot (handleKey x)).queue = (s.hslot (handleKey x)).queue ++ [v] ∧ (t.hslot (handleKey x)).state = .pending)) ∧
      (s.handleMalformed x = false → i.sl.wait = none → i.homeHere x = false → ∃ t g' v, exec (.invh d a b) s = .next t ∧ t.group? i.gr = some g' ∧
        pending t ∧ made v ∧ (g'.slot i.slotB).pc = i.pc ∧ (g'.slot i.slotB).wait = some (.answer s.nextId own (handlePkg x)) ∧
        t.msgs = s.msgs ++ [⟨i.leaf, handleLeaf x, .toHandle x v [] (some i.waiter)⟩]))

/-- R209, R358, R364: HWAIT asks the handle's home and waits; with the answer, S[D] and S[D + 1] take it and the group acquires what it releases.
HRES and HBRK of a handler send its resolution, forward or break home, once; HANDLE 4 otherwise. HQRY gives the slot's word, and HFREE frees a slot
that is not PENDING and whose queue is empty.
Rests on log entries 8, 41. -/
def Obligations.HandleInstructions : Prop :=
  ∀ (s : State) (i : Iss) (d : BitVec 6) (a : Src), s.issue? = some i → i.checkSca .i64 [a] = .ok () →
    let h := i.uni a
    let x := s.hslot (handleKey h)
    (i.sl.wait = none → s.handleMalformed h = true → exec (.hwait d a) s = .next (i.conclude (.trap (plainTrap .handle 1)))) ∧
    (i.sl.wait = none → s.handleMalformed h = false → ∃ t g', exec (.hwait d a) s = .next t ∧ t.group? i.gr = some g' ∧
      i.Waiting (.handle s.nextId h) g' ∧ i.Unread g' ∧ t.msgs = s.msgs ++ [⟨i.leaf, handleLeaf h, .wait h i.waiter []⟩]) ∧
    (∀ k u v w c, i.sl.wait = some (.handle k u) → i.sl.answer = some ([v, w], c) → i.g.destBusy i.sl.wb [] [d.toNat, d.toNat + 1] = false →
      ∃ t g', exec (.hwait d a) s = .next t ∧ i.Switched t g' ∧ i.At (i.pc + 4) i.active i.sl.wb 0 g' ∧ g'.rdS i.sl.wb d.toNat = v ∧
        g'.rdS i.sl.wb (d.toNat + 1) = w ∧ g'.clock = clockJoin i.g.clock c ∧ g'.v = i.g.v ∧ g'.flags = i.g.flags) ∧
    (i.onlyHelpers = false →
      (i.b.settles = none → exec (.hbrk a) s = .next (i.conclude (.trap (plainTrap .handle 4))) ∧
        exec (.hres a false) s = .next (i.conclude (.trap (plainTrap .handle 4)))) ∧
      (∀ own, i.b.settles = some own → i.g.quiet = true →
        (own = h → exec (.hres a true) s = .next (i.conclude (.trap (plainTrap .handle 6)))) ∧
        let sends (instr : Instr) (m : MsgBody) : Prop := ∃ t b' g', exec instr s = .next t ∧ t.block? i.gr.blk = some b' ∧
          b'.groups[i.gr.grp]? = some g' ∧ b'.settled = true ∧ i.Onward g' ∧ i.Unread g' ∧ g'.epoch = i.g.epoch + 1 ∧
          t.msgs = s.msgs ++ [⟨i.leaf, handleLeaf own, m⟩] ∧ ∀ l, t.byte l = s.byte l
        sends (.hres a false) (.resolve own h i.leaf i.g.known) ∧
        (own ≠ h → sends (.hres a true) (.forward own h i.g.known)) ∧
        sends (.hbrk a) (.brk own own (if h.toNat % 2 ^ 15 = 0 then 1 else h.toNat % 2 ^ 15) i.g.known))) ∧
    (i.sl.wait = none → s.handleMalformed h = false → i.homeHere h = true → i.homeBusy = false →
      (∀ e, s.handleFault i.b.ctx h = some e → exec (.hqry d a) s = .next (i.conclude (.trap (plainTrap .handle e))) ∧
        (i.onlyHelpers = false → exec (.hfree a) s = .next (i.conclude (.trap (plainTrap .handle e))))) ∧
      (s.handleFault i.b.ctx h = none → i.g.destBusy i.sl.wb [] [d.toNat] = false →
        (∃ t g', exec (.hqry d a) s = .next t ∧ i.Alone t g' ∧ i.PlainResult (.reg d)
          (BitVec.ofNat 64 ((match x.state with | .free => 0 | .pending => 1 | .forwarded _ => 2 | .resolved .. => 3 | .broken .. => 4) +
            min 8 x.queue.length * 2 ^ 8 + x.queue.length % 2 ^ 32 * 2 ^ 32)) g') ∧
        (i.onlyHelpers = false →
          if x.state = .pending ∨ x.queue ≠ [] then exec (.hfree a) s = .next (i.conclude (.trap (plainTrap .handle 5)))
          else ∃ t g', exec (.hfree a) s = .next t ∧ t.group? i.gr = some g' ∧ i.Onward g' ∧ i.Unread g' ∧
            (t.hslot (handleKey h)).state = .free ∧ (t.hslot (handleKey h)).gen = (if (x.gen + 1) % 2 ^ 24 = 0 then 1 else (x.gen + 1) % 2 ^ 24) ∧
            ∀ k, k ≠ handleKey h → t.hslot k = s.hslot k)))

/-- R210, R375-R378: VGCMD issues one operation of t3 for the command at A over the channel run B, and gives its number; a run out of range is PROT 7.
VGQRY reads a channel's counts, the free capabilities of its stack, or the offset in its violation register.
Rests on log entries 8, 13, 44. -/
def Obligations.VirgaInstructions : Prop :=
  ∀ (s : State) (i : Iss) (d : BitVec 6) (a b : Src) (x : Acc), s.issue? = some i →
    (i.checkSca .i64 [a, b] = .ok () → i.onlyHelpers = false →
      let v := (i.uni b).toNat
      let first := v % 128
      let count := v / 2 ^ 8 % 256
      let bad : Prop := count = 0 ∨ 128 < count ∨ 128 < first + count ∨ v / 2 ^ 7 % 2 = 1 ∨ 2 ^ 16 ≤ v
      (bad → exec (.vgcmd d a b) s = .next (i.conclude (.trap { plainTrap .prot 7 with addr := i.uni b }))) ∧
      (¬ bad → i.g.quiet = true → i.g.destBusy i.sl.wb [] [d.toNat] = false →
        i.s.check i.who i.b (coreIdx i.gr.grp) ⟨.gl, i.uni a, 128, decide ((i.uni a).toNat % 128 = 0), true, true, false, false, true⟩ false = .ok x →
        ∃ t b' g' o, exec (.vgcmd d a b) s = .next t ∧ t.block? i.gr.blk = some b' ∧ b'.groups[i.gr.grp]? = some g' ∧ o ∈ b'.ops ∧ o.tl = 3 ∧
          o.num = (i.b.tline 3).issued + 1 ∧ o.instr = .vgcmd d a b ∧ o.opa = [i.uni a, i.uni b] ∧ o.state = .queued ∧
          i.Gave d (BitVec.ofNat 64 o.num) true true t g')) ∧
    (i.checkSca .i64 [a] = .ok () → i.g.destBusy i.sl.wb [] [d.toNat] = false →
      let ch := (i.uni a).toNat % 128
      let gives (sel : VgSel) (n : Nat) : Prop := ∃ t g', exec (.vgqry d a sel) s = .next t ∧ i.Alone t g' ∧ i.PlainResult (.reg d) (BitVec.ofNat 64 n) g'
      gives .mis (SMap.get 0 s.misalign ch) ∧ gives .thr (SMap.get 0 s.throttle ch) ∧ gives .err (SMap.get (0, 0) s.viol (ch * 64 + i.b.ctx)).1 ∧
        gives .cap (s.freeCaps (ch / 16)))

/-! ## Messages between leaves -/

/-- R359, R361, R362, R365: an invocation that reaches its place becomes a handler that waits to start; at a handle's home it is queued, sent on,
started at the place with S3 the value, or its own handle breaks, by the slot's state. A probe that comes back, or passes 255 slots, breaks the
chain.
Rests on log entries 41, 42. -/
def Obligations.InvocationsArrive : Prop :=
  ∀ (s : State) (k src dst : Nat) (h : Word) (v : Inv) (via : List Word),
    let x := s.hslot (handleKey h)
    let u := { s with msgs := s.msgs.eraseIdx k }
    let next (m : MsgBody) : Prop := s.msgs[k]? = some ⟨src, dst, m⟩ ∧ dst / 128 = s.pkg ∧ ∀ y ∈ s.msgs.take k, ¬ (y.src = src ∧ y.dst = dst)
    let event := if via = [] then exec (.invocationArrival k) s else exec (.forwardArrival k) s
    (∀ s3, next (.place v s3) → exec (.invocationArrival k) s = .next { u with pendH := u.pendH ++ [⟨v, dst % 128, s3, s.nextId⟩], nextId := s.nextId + 1 }) ∧
    (next (.toHandle h v via none) →
      (s.handleFault v.ctx h = none →
        (x.state = .pending → x.queue.length < 8 → event = .next (u.setHSlot { x with queue := x.queue ++ [v] })) ∧
        (∀ b, x.state = .forwarded b → s.handleMalformed b = false → event = .next (u.send dst (handleLeaf b) (.toHandle b v (via ++ [h]) none))) ∧
        (∀ b, x.state = .forwarded b → s.handleMalformed b = true → ∃ t, event = .next t ∧ t.handles = s.handles ∧
          t.msgs = u.msgs ++ (via ++ [h, v.own]).map (fun y => ⟨dst, handleLeaf y, .brk y h 0xFFFD v.clock⟩)) ∧
        (∀ r p, x.state = .resolved r p → event = .next (u.send dst p (.place { v with clock := clockJoin v.clock x.rel, through := some h } r))) ∧
        (∀ o n, x.state = .broken o n → event = .next (u.send dst (handleLeaf v.own) (.brk v.own o n x.rel)))) ∧
      (∀ n, s.handleFault v.ctx h = some n → ∃ t, event = .next t ∧
        t.msgs = u.msgs ++ (via ++ [v.own]).map (fun y => ⟨dst, handleLeaf y, .brk y (via.getLast?.getD h) 0xFFFD v.clock⟩) ∧ t.handles = s.handles)) ∧
    (∀ o path, next (.probe o h path) →
      (h = o → ∃ t, exec (.forwardProbe k) s = .next t ∧ t.msgs = u.msgs ++ path.map (fun y => ⟨dst, handleLeaf y, .brk y o 0xFFFF []⟩)) ∧
      (h ≠ o → s.current h = true → ∀ b, x.state = .forwarded b →
        (s.handleMalformed b = false → path.length < 255 → ∃ t, exec (.forwardProbe k) s = .next t ∧
          t.msgs = u.msgs ++ [⟨dst, handleLeaf b, .probe o b (path ++ [h])⟩] ∧ (t.hslot (handleKey h)).state = x.state ∧
          ∀ y ∈ path, y ∈ (t.hslot (handleKey h)).sources) ∧
        (s.handleMalformed b = false → 255 ≤ path.length → ∃ t, exec (.forwardProbe k) s = .next t ∧
          t.msgs = u.msgs ++ (path ++ [h]).map (fun y => ⟨dst, handleLeaf y, .brk y o 0xFFFF []⟩))))

/-- R358, R361, R362, R364: a resolution, a forward or a break that reaches the home of a handle that is PENDING there settles its slot, and what has
waited in the slot goes out: answers to its HWAITs, then its queue, in order. An HWAIT is answered, waits, or is sent on.
Rests on log entries 41, 43. -/
def Obligations.HandlesSettle : Prop :=
  ∀ (s : State) (k src dst : Nat) (h : Word) (c : Clock) (w : Waiter),
    let x := s.hslot (handleKey h)
    let here := s.pkg * 128 + handleKey h / 4096
    let u := { s with msgs := s.msgs.eraseIdx k }
    let rel := clockJoin x.rel c
    let next (m : MsgBody) : Prop := s.msgs[k]? = some ⟨src, dst, m⟩ ∧ dst / 128 = s.pkg ∧ ∀ y ∈ s.msgs.take k, ¬ (y.src = src ∧ y.dst = dst)
    let settles (e : Instr) (st : HState) (ms : List Msg) : Prop := ∃ t, exec e s = .next t ∧
      t.hslot (handleKey h) = { x with state := st, waiters := [], queue := [], rel := rel } ∧ (∀ n, n ≠ handleKey h → t.hslot n = s.hslot n) ∧
      t.msgs = u.msgs ++ ms ∧ t.pendH = s.pendH ∧ t.blocks = s.blocks ∧ t.mem = s.mem
    (s.current h = true → x.state = .pending →
      (∀ v p, next (.resolve h v p c) → settles (.resolutionArrival k) (.resolved v p)
        (x.waiters.map (fun y => ⟨here, y.leaf, .answer y.req [v, 0] rel⟩) ++
          x.queue.map (fun i => ⟨here, p, .place { i with clock := clockJoin i.clock c, through := some (s.ownWord x) } v⟩))) ∧
      (∀ b, next (.forward h b c) → s.handleMalformed b = false → settles (.forwardArrival k) (.forwarded b)
        (x.queue.map (fun i => ⟨here, handleLeaf b, .toHandle b { i with clock := clockJoin i.clock c } [h] none⟩) ++
          x.waiters.map (fun y => ⟨here, handleLeaf b, .wait b y [h]⟩) ++ [⟨here, handleLeaf b, .probe h b [h]⟩]))) ∧
    (∀ o n, s.current h = true → x.state = .pending ∨ (∃ b, x.state = .forwarded b) ∧ (n = 0xFFFC ∨ n = 0xFFFD ∨ n = 0xFFFF) → next (.brk h o n c) →
      settles (.breakArrival k) (.broken o n) (x.waiters.map (fun y => ⟨here, y.leaf, .answer y.req [o, BitVec.ofNat 64 n] rel⟩) ++
        (x.queue.map (·.own) ++ if n = 0xFFFD ∧ o = s.ownWord x then x.sources else []).map (fun y => ⟨here, handleLeaf y, .brk y o n rel⟩))) ∧
    (∀ o n, (∃ b, x.state = .forwarded b) → n ≠ 0xFFFC → n ≠ 0xFFFD → n ≠ 0xFFFF → next (.brk h o n c) → exec (.breakArrival k) s = .next u) ∧
    (∀ via, next (.wait h w via) → s.handleFault w.ctx h = none →
      (x.state = .pending → exec (.hwaitRegistration k) s = .next (u.setHSlot { x with waiters := x.waiters ++ [w] })) ∧
      (∀ b, x.state = .forwarded b → s.handleMalformed b = false →
        exec (.hwaitRegistration k) s = .next (u.send dst (handleLeaf b) (.wait b w (via ++ [h])))) ∧
      (∀ v p, x.state = .resolved v p → exec (.hwaitRegistration k) s = .next (u.send dst w.leaf (.answer w.req [v, 0] x.rel))) ∧
      (∀ o n, x.state = .broken o n → exec (.hwaitRegistration k) s = .next (u.send dst w.leaf (.answer w.req [o, BitVec.ofNat 64 n] x.rel)))) ∧
    (∀ r vals, next (.answer r vals c) → s.asked r = false → ∃ t, exec (.hwaitAnswer k) s = .next t ∧ t.msgs = u.msgs ∧ t.mem = s.mem ∧
      ∀ gr g sb, s.group? gr = some g → ∃ g', t.group? gr = some g' ∧ g'.v = g.v ∧ g'.s = g.s ∧
        (∀ y, (g.slot sb).wait = some (.handle r y) → (g'.slot sb).answer = some (vals, c)) ∧
        ((∀ y, (g.slot sb).wait ≠ some (.handle r y)) → (∀ y n, (g.slot sb).wait ≠ some (.answer r y n)) → g'.slot sb = g.slot sb)) ∧
    (next (.query h w) → s.handleFault w.ctx h = none → exec (.homeAnswer k) s = .next (u.send dst w.leaf (.answer w.req [x.word, 0] []))) ∧
    (next (.query h w) → ∀ n, s.handleFault w.ctx h = some n → exec (.homeAnswer k) s = .next (u.send dst w.leaf (.refuse w.req n))) ∧
    (next (.free h w) →
      (∀ n, s.handleFault w.ctx h = some n → exec (.hfreeArrival k) s = .next (u.send dst w.leaf (.refuse w.req n))) ∧
      (s.handleFault w.ctx h = none → x.state = .pending ∨ x.queue ≠ [] → exec (.hfreeArrival k) s = .next (u.send dst w.leaf (.refuse w.req 5))) ∧
      (s.handleFault w.ctx h = none → x.state ≠ .pending → x.queue = [] → ∃ t, exec (.hfreeArrival k) s = .next t ∧
        (t.hslot (handleKey h)).state = .free ∧ (t.hslot (handleKey h)).gen = (if (x.gen + 1) % 2 ^ 24 = 0 then 1 else (x.gen + 1) % 2 ^ 24) ∧
        (∀ n, n ≠ handleKey h → t.hslot n = s.hslot n) ∧ t.msgs = u.msgs ++ [⟨dst, w.leaf, .answer w.req [] []⟩]))

/-! ## What the package's units do by themselves -/

/-- R129, R167, R225, R348, R396, R407: a load whose lanes have all been written leaves the queue; a walk's translation may be held; a core goes over
to the ready group that has waited longest once that is a quantum; an operation that has done its work completes; a group retires, and with the last its
block; a group takes the trap of its stopped operation.
Rests on log entries 21, 36. -/
def Obligations.UnitsCarryOn : Prop :=
  ∀ (s : State) (gr : GRef) (b : Block) (g : Group), s.block? gr.blk = some b → s.group? gr = some g →
    (∀ m, g.memq.find? (fun m => isLoad m.instr) = some m → m.accepted = true → m.todo = 0 →
      ∃ t, exec (.loadComplete gr) s = .next t ∧
        t.group? gr = some { g with memq := g.memq.filter (fun y => y.id != m.id), ldcnt := g.ldcnt - 1 } ∧
        (∀ o, o ≠ gr → t.group? o = s.group? o) ∧ ∀ l, t.byte l = s.byte l) ∧
    (∀ ctx agent va tr, canonicalVa va.toNat = true → s.walk ctx (va57 va.toNat) = .ok tr →
      (∀ e ∈ s.tlbs, e.agent = agent → e.ctx = ctx → ¬ (e.tr.base ≤ va57 va.toNat ∧ va57 va.toNat < e.tr.base + e.tr.size)) →
      exec (.pageTableWalk ctx agent va) s = .next { s with tlbs := s.tlbs ++ [⟨agent, ctx, tr⟩] }) ∧
    (∀ core sb, (s.core core).cur = some (gr, sb) → (s.core core).fresh = false → (g.slot sb).inPair = false →
      (∃ r ∈ s.rivals core, r.gr ≠ gr ∧ quantum ≤ r.wait) →
      ∃ t r y, exec (.quantumSwitch core) s = .next t ∧ r ∈ s.rivals core ∧ r.gr ≠ gr ∧ quantum ≤ r.wait ∧
        (∀ x ∈ s.rivals core, x.gr ≠ gr → quantum ≤ x.wait → x.wait ≤ r.wait) ∧ (t.core core).cur = some (r.gr, y) ∧ (t.core core).fresh = true ∧
        t.group? gr = some { (g.modSlot sb Slot.abandon).resumeIn (s.resumeSlot core gr sb) with since := s.cycle } ∧ ∀ o, o ≠ gr → t.group? o = s.group? o) ∧
    (∀ tl num o, tl < 4 → b.op? tl num = some o → o.state = .worked →
      ∃ t b' o', exec (.engineOpComplete gr.blk (4 * num + tl)) s = .next t ∧ t.block? gr.blk = some b' ∧ b'.op? tl num = some o' ∧
        o' = { o with state := .done, rel := o'.rel } ∧ (∀ x ∈ b.ops, ¬ (x.tl = tl ∧ x.num = num) → x ∈ b'.ops) ∧ t.group? gr = some g ∧
        ∀ l, t.byte l = s.byte l) ∧
    (b.place.isSome = true → b.aborted = false → g.retired = false → g.live = 0 → g.quiet = true → g.cpas.all (·.done) = true →
      ((∃ j x, j ≠ gr.grp ∧ b.groups[j]? = some x ∧ x.retired = false) → ∃ t g', exec (.groupRetire gr) s = .next t ∧ t.group? gr = some g' ∧
        g'.retired = true ∧ g'.memq = [] ∧ g'.v = g.v ∧ g'.s = g.s ∧ g'.p = g.p ∧ g'.epoch = g.epoch + 1 ∧ ∀ o, o ≠ gr → t.group? o = s.group? o) ∧
      ((∀ j x, b.groups[j]? = some x → j ≠ gr.grp → x.retired = true) → ∃ t, exec (.groupRetire gr) s = .next t ∧ t.block? gr.blk = none ∧
        ∀ gd, s.grid? b.grid = some gd → ∃ gd', t.grid? b.grid = some gd' ∧ gd'.done b.lin = true ∧ gd'.active = gd.active.filter fun n => n != b.lin)) ∧
    (∀ st o c p, b.place.isSome = true → b.aborted = false → g.retired = false → g.parked = false → g.awaitsHome = false → g.memq = [] → g.stopped = [st] →
      g.traps.length ≤ st.depth → b.op? st.tl st.num = some o → o.state = .stopped c → o.parts.find? (fun p => p.grp == gr.grp) = some p →
      let u := (s.modGroup gr fun g => { g with stopped := g.stopped.erase st, pix := BitVec.ofNat 64 p.pix, ivec := p.ivec.map (BitVec.ofNat 64 ·) }).takeTrap
        gr p.slotB (if p.pre.isSome then p.epc - 4 else p.epc) c ⟨some (st.tl, st.num), []⟩ [p.entry]
      exec (.trapEntry gr) s = .next (if u.overPinned then s.pinRelease gr else u)) ∧
    (∀ j o t, s.binJobs.find? (fun x => x.die == dieOf (b.place.getD 0)) = some j → j.blk = gr.blk → b.op? 2 j.num = some o →
      let left := s.binJobs.filter fun y => y != j
      (s.binJob b o = .ok (t, false) → exec (.binningJob gr.blk) s = .next t) ∧
      (s.binJob b o = .ok (t, true) → exec (.binningJob gr.blk) s = .next ({ t with binJobs := left }.endOp gr.blk o)) ∧
      ∀ e, s.binJob b o = .error e → exec (.binningJob gr.blk) s = .next ({ s with binJobs := left }.modBlock gr.blk fun b => b.stopOp o.unplanned e))

/-- R378-R381, R387: a VGCMD starts once the earlier ones that touch its ranges have completed; an engine that holds its banks works a wave of its tokens;
its window ends and the controller serves; once every engine has ended, the partials are merged, unless a write has overtaken a read or the block has been
aborted, the state record is written, and the operation has done its work.
Rests on log entries 44, 45. -/
def Obligations.VirgaCommands : Prop :=
  ∀ (s : State) (blk num chan : Nat),
    (∀ b o, s.block? blk = some b → b.op? 3 num = some o → o.state = .queued → (b.before3 o).all EngOp.isDone = true →
      ∃ t b' c, exec (.vgcmdStart blk num) s = .next t ∧ t.vgcmds = s.vgcmds ++ [c] ∧ c.blk = blk ∧ c.num = num ∧ c.ctx = b.ctx ∧ c.flags = 0 ∧
        t.block? blk = some b' ∧ (b'.op? 3 num).map (·.state) = some .running ∧ (∀ l, t.byte l = s.byte l) ∧
        (c.code = 0 → vgMalformed c.cmd = false ∧ ∀ p ∈ c.parts, p.next = 0 ∧ p.done = false ∧ p.code = 0 ∧
          p.rows = List.replicate c.blkOf.nq (vgEmpty c.blkOf.dh)) ∧
        (c.code = 0 → c.parts.map (·.chan) = (List.range ((o.opa.getD 1 0).toNat / 2 ^ 8 % 2 ^ 8)).map ((o.opa.getD 1 0).toNat % 2 ^ 7 + ·))) ∧
    (∀ c, s.vgcmd? blk num = some c →
      (c.code = 0 → SMap.get 0 s.banks chan ≠ 2 → (∃ p ∈ c.parts, p.chan = chan ∧ p.done = false) → ∃ t, exec (.virgaWave blk num chan) s = .next t ∧
        t = ({ s with banks := SMap.set 0 s.banks chan 1 }).vgRun blk num chan (c.blkOf.ntok + 1) (bankCount s.thermal) ∧ SMap.get 0 t.banks chan = 1 ∧
        t.thermal = s.thermal ∧ ∀ x, x ≠ chan → SMap.get 0 t.banks x = SMap.get 0 s.banks x) ∧
      (∀ b o, s.block? blk = some b → b.op? 3 num = some o → (c.code ≠ 0 ∨ ∀ p ∈ c.parts, p.done = true) →
        let ends (fl : Flags) (u : State) : Prop := ∃ t, exec (.virgaMerge blk num) s = .next t ∧ t = u.vgEnd c fl
        (c.code ≠ 0 → ends 0 (s.vgRecord c c.code 255 c.codeAddr)) ∧
        let seen := { c with parts := c.parts.map (s.vgOvertaken c) }
        (c.code = 0 → ∀ e, seen.stop? = some e → ends c.flags (s.vgRecord c e.code e.chan (BitVec.ofNat 64 e.ofs))) ∧
        (c.code = 0 → seen.stop? = none →
          (c.blkOf.attn = false → ends c.flags (s.vgRecord c 0 255 0)) ∧
          (c.blkOf.attn = true → b.aborted = true → ends c.flags (s.vgRecord c (Config.abortCode s.tick % 256) 255 0)) ∧
          (c.blkOf.attn = true → b.aborted = false →
            (∀ r, s.vgMerge c = .ok r → ends (c.flags ||| r.2.2) (r.1.vgRecord c r.2.1 255 0)) ∧
            ∀ e, s.vgMerge c = .error e → ends c.flags (e.1.vgRecord c e.2.code e.2.chan (BitVec.ofNat 64 e.2.ofs)))))) ∧
    (SMap.get 0 s.banks chan = 1 → exec (.virgaWindowEnd chan) s = .next { s with banks := SMap.set 0 s.banks chan 2 }) ∧
    (SMap.get 0 s.banks chan = 2 → exec (.bankServiceEnd chan) s = .next { s with banks := SMap.set 0 s.banks chan 0 })

/-! ## Zenith -/

/-- R208, R214, R215, R331, R342, R352: the first candidate that fits starts, or returns: a block of a grid with its groups at the entry point in
mode 0x1F, a handler with its invocation's registers and payload, or a saved span on the clusters found. A first candidate that has fitted nowhere for a
quantum holds its entry's die, and one that a full save area holds back is logged once [R403].
Rests on log entries 28, 47, 48. -/
def Obligations.WorkStarts : Prop :=
  ∀ (s : State) (c : Cand) (cluster : Nat),
    (s.refilled.nextCand = some c →
      (∀ gid lin cl gd, c.work = .block gid lin → s.refilled.startable c cluster = some cl → s.refilled.grid? gid = some gd →
        exec (.blockStart cluster) s = .next (s.refilled.startSpan gd lin cl) ∧
        (∀ m, cl = [cluster] → gd.spanLeft lin = [m] → gd.lrec.narg = 0 → gd.s0s1 = none → ∃ b, (s.refilled.startSpan gd lin cl).blocks = s.blocks ++ [b] ∧
          b.place = some cluster ∧ b.grid = gd.gid ∧ b.lin = m ∧ b.spanIdx = m - lin ∧ b.ctx = gd.ctx ∧ b.bx = m % gd.lrec.gx ∧
          b.byy = m / gd.lrec.gx % gd.lrec.gy ∧ b.bz = m / (gd.lrec.gx * gd.lrec.gy) ∧ b.groups.length = (gd.lrec.tx * gd.lrec.ty * gd.lrec.tz + 31) / 32 ∧
          ∀ k g, b.groups[k]? = some g → g.slotA.pc = gd.lrec.entry ∧ g.slotB.isFree = true ∧ g.mode = 0x1F ∧ g.flags = 0 ∧ g.v = [] ∧ g.s = [] ∧
            (∀ l, l < 32 → (laneIn g.slotA.mask l = true ↔ gd.lrec.help = true ∨ 32 * k + l < gd.lrec.tx * gd.lrec.ty * gd.lrec.tz)) ∧
            (∀ l, l < 32 → (laneIn g.helper l = true ↔ gd.lrec.help = true ∧ gd.lrec.tx * gd.lrec.ty * gd.lrec.tz ≤ 32 * k + l)))) ∧
      (∀ k h, c.work = .handler k → s.pendH[k]? = some h → (∀ e ∈ s.armed, e.held = none) → ∃ t b g, exec (.handlerStart k) s = .next t ∧
        t.blocks = s.blocks ++ [b] ∧ t.pendH = s.pendH.eraseIdx k ∧ b.place = some h.cluster ∧ b.handler = some h.inv.own ∧ b.ctx = h.inv.ctx ∧ b.groups = [g] ∧
        g.slotA.pc = h.inv.entry ∧ g.slotA.mask = -1 ∧ g.handle = h.inv.own ∧ g.rdS 0 0 = 0x3FC00 ∧ g.rdS 0 1 = h.inv.own ∧ g.rdS 0 2 = h.inv.sender ∧
        g.rdS 0 3 = h.s3 ∧ ∀ j, j < h.inv.payload.length → Memory.get b.sp (0x3FC00 + j) = h.inv.payload.getD j 0) ∧
      (∀ blk b cl, c.work = .saved blk → s.refilled.startable c cluster = some cl → s.block? blk = some b → (s.members b.span).Nodup →
        (∀ x ∈ s.members b.span, s.block? x.id = some x) →
        ∃ t, exec (.restoration blk cluster) s = .next t ∧ ∀ x ∈ (s.members b.span).zip cl,
          t.block? x.1.id = some { x.1 with place := some x.2, groups := x.1.groups.map fun (g : Group) => { g with since := s.cycle } })) ∧
    (∃ t, exec .candidateHold s = .next t ∧ t.blocks = s.blocks ∧ t.grids = s.grids ∧ t.mem = s.mem ∧ (∀ e ∈ s.holding, e ∈ t.holding) ∧
      (∀ e n, s.first = some (e, n) → n + quantum ≤ s.cycle → e ∈ t.holding) ∧
      ∀ x ∈ s.cands, s.saveRoom x.ctx x.need x.saves = false → s.fitsNowhere x = false → x.entry ∈ t.saveHeld) ∧
    (∀ x ∈ s.cands, ∀ cl, x.entry ∈ s.holding → s.fitsNowhere x = true → x.entry ≠ c.entry → x.pri ≤ c.pri → dieOf cl = x.die →
      s.startable c cl = none)

/-- R344, R350, R351, R400, R402: what takes a block's place: its groups stop at boundaries, or after 19,000 cycles where they stand, and once all have
and nothing is under way it is saved and its cluster free; idempotent spans are discarded; long waits are evicted; a suspension and a PRI 0 candidate
displace.
Rests on log entries 47, 49. -/
def Obligations.WorkStops : Prop :=
  ∀ (s : State) (blk : Nat) (b : Block), s.block? blk = some b →
    let parks (e : Instr) (f : Group → Group) : Prop :=
      let b1 := { b with groups := b.groups.map f }
      (b1.savable = false → ∃ t, exec e s = .next t ∧ t.block? blk = some b1) ∧
      (b1.savable = true → ∃ t b', exec e s = .next t ∧ t.block? blk = some b' ∧ b'.place = none ∧ b'.preempt = none ∧ b'.savedAt = s.cycle ∧ b'.saveWhy = 0 ∧
        (∀ core sb g, (t.core core).cur = some (g, sb) → g.blk ≠ blk) ∧
        ∀ (k : Nat) (g : Group), b.groups[k]? = some g → ∃ g' : Group, b'.groups[k]? = some g' ∧ g'.slotA = (f g).slotA.abandon ∧ g'.slotB = (f g).slotB.abandon ∧ g'.parked = false ∧
          g'.ready = false ∧ g'.stackCopy = [] ∧
          g'.v = g.v ∧ g'.s = g.s ∧ g'.p = g.p ∧ g'.mode = g.mode ∧ g'.flags = g.flags ∧ g'.latches = g.latches ∧ g'.memq = g.memq)
    (b.place.isSome = true → b.aborted = false → ∀ n, b.preempt = some n →
      parks (.preemption blk) (fun g => { g with parked := g.parked || g.atBoundary }) ∧
      (n + patience ≤ s.cycle → parks (.forcedPreemption blk) fun g =>
        if g.parked || g.retired || g.live == 0 || g.leaving || g.awaitsHome || g.slotA.inPair || g.slotB.inPair || !latchesOld g.slotA g.resetA s.cycle ||
          !latchesOld g.slotB g.resetB s.cycle then g
        else { g with parked := true, slotA := g.slotA.loseLatches, slotB := g.slotB.loseLatches })) ∧
    ((s.members b.span).all s.evictable = true → ∃ t, exec (.eviction blk) s = .next t ∧ ∀ x ∈ s.members b.span, ∃ y, t.block? x.id = some y ∧
      y.place = none ∧ y.saveWhy = 1 ∧ y.savedAt = s.cycle) ∧
    (∃ t, exec (.suspension b.ctx) s = .next t ∧ (t.ctx? b.ctx).map (·.suspended) = (s.ctx? b.ctx).map (fun _ => true) ∧
      (∀ y ∈ t.blocks, y.ctx = b.ctx → y.place.isSome = true → y.aborted = false → y.preempt.isSome = true) ∧
      (b.place.isSome = true → (∀ x ∈ s.members b.span, x.flushable = true) → t.block? blk = none)) ∧
    (∀ c vs, s.displacement = some (c, vs) → c.pri = 0 ∧ s.fitsNowhere c = true ∧ (s.without fun b => vs.contains b.id).fitsDie c c.die = true ∧
      ((s.blocks.map (·.id)).Nodup → ∀ x ∈ s.victims c.die, ∀ y ∈ s.victims c.die, x.id ∈ vs → x.preempt = none → s.members x.span = [x] → y.id ∉ vs →
        victimFirst y x = false) ∧
      ∃ t, exec .pri0Displacement s = .next t ∧ (∃ r ∈ t.reserved, r.1 = c.entry ∧ ∀ x ∈ s.blocks, x.id ∈ vs → ∀ n, x.place = some n → n ∈ r.2) ∧
        ∀ x ∈ s.blocks, x.id ∈ vs → x.preempt = none →
          if ∀ y ∈ s.members x.span, y.flushable = true then t.block? x.id = none else ∃ y, t.block? x.id = some y ∧ y.preempt.isSome = true)

/-- R138, R275, R337, R386, R399: the ordered-add agent applies the contribution of lowest ordinal by one rounded addition; a grid that has ended leaves its
completion word, LAUNCHID and STATUS, and starts what waited for it; a kill aborts a grid with its blocks; a context that is destroyed leaves nothing.
Rests on log entries 16, 50. -/
def Obligations.WorkEnds : Prop :=
  ∀ (s : State) (gid : Nat) (g : Grid), s.grid? gid = some g →
    (∀ c, firstBy (fun (x y : Contrib) => ordBefore x.ord y.ord) g.contribs = some c →
      (∀ n, n ≤ c.lin → g.low ≤ n → s.closed g n = true) → s.holds c.addr.store = true →
      let n := width c.ty / 8
      let sum := finish c.ty .rne false (addVal .rne (decodeElem c.ty (s.num c.addr n)) (decodeElem c.ty c.val))
      ∃ t, exec (.atomoApplication gid) s = .next t ∧ s.Stored t c.addr (leBytes n sum.1) ∧ (t.grid? gid).map (·.contribs) = some (g.contribs.erase c)) ∧
    (∀ x, s.gridOver g = true → (∀ e ∈ s.armed, e.held = none) → g.aborted = false → g.lrec.stats ≠ 0 → g.lrec.comp = 0 →
      ({ s with nextAgent := s.nextAgent + 1 }).checkGlobal (deviceWho g.ctx s.nextAgent g.rel [] none (s.devSegment g.ctx))
        ⟨.gl, g.lrec.stats, 64, true, false, true, false, true, true⟩ false = .ok x → s.holds x.loc.store = true →
      ∃ t, exec (.completionWrite gid) s = .next t ∧ t.grid? gid = none ∧
        s.Stored t x.loc ((List.range 6).flatMap (fun j => leBytes 8 (g.stats.getD j 0)) ++ List.replicate 16 0)) ∧
    (s.gridOver g = true → (∀ e ∈ s.armed, e.held = none) → (g.aborted = true ∨ g.lrec.stats = 0) →
      let u := { s with nextAgent := s.nextAgent + 1 }
      let who := deviceWho g.ctx s.nextAgent (clockJoin g.clock g.rel) [(.device, clockSet (clockJoin g.clock g.rel) s.nextAgent 1)] (some .device) (s.devSegment g.ctx)
      (g.lrec.comp = 0 → ∃ t, exec (.completionWrite gid) s = .next t ∧ t.grid? gid = none ∧ ∀ l, t.byte l = s.byte l) ∧
      (∀ x, g.lrec.comp ≠ 0 → u.checkGlobal who ⟨.gl, g.lrec.comp, 8, true, false, true, false, true, true⟩ false = .ok x → s.holds x.loc.store = true →
        ∃ t, exec (.completionWrite gid) s = .next t ∧ t.grid? gid = none ∧
          s.Stored t x.loc (leBytes 8 ((if g.aborted then 5 else 0) * 2 ^ 32 + g.lid)) ∧
          ∀ y ∈ s.grids, y.gid ≠ gid → y.ctx = g.ctx → y.after = g.lid → ∃ z ∈ t.grids, z.gid = y.gid ∧ z.after = 0)) ∧
    (g.aborted = false → (∀ b, s.blocks.find? (fun b => b.grid == gid && !b.aborted) = some b → s.block? b.id = some b ∧ b.handler = none) →
      ∃ t g', exec (.driverKill gid) s = .next t ∧ t.grid? gid = some g' ∧ g'.aborted = true ∧ g'.active = [] ∧
        (∀ b ∈ t.blocks, b.grid = gid → b.aborted = true) ∧ ∀ l, t.byte l = s.byte l) ∧
    (∃ t, exec (.contextDestroy g.ctx) s = .next t ∧ t.ctx? g.ctx = none ∧ (∀ x ∈ t.blocks, x.ctx ≠ g.ctx) ∧ (∀ x ∈ t.grids, x.ctx ≠ g.ctx) ∧
      (∀ x ∈ t.queues, x.ctx ≠ g.ctx) ∧ (∀ x ∈ t.rings, x.ctx ≠ g.ctx) ∧ (∀ x ∈ t.armed, x.ctx ≠ g.ctx) ∧ (∀ x ∈ t.vgcmds, x.ctx ≠ g.ctx) ∧
      (∀ x ∈ t.tlbs, x.ctx ≠ g.ctx) ∧ ∀ x ∈ t.pendH, x.inv.ctx ≠ g.ctx)

/-! ## Queues, connections, the host -/

/-- R335-R340, R372: Zenith takes the record at a running queue's RPTR: it accepts the grid, finds its store full (STATE 2), or finds the ring lapped (STATE 1,
the pointers recorded, an interrupt). A ring's descriptor is sent, or answered with its STATUS. The driver binds, and the host resumes.
Rests on log entries 23, 55. -/
def Obligations.QueuesAndRings : Prop :=
  ∀ (s : State) (q ctx cb : Nat),
    (∀ r c, s.queues.find? (fun r => r.q == q) = some r → s.ctx? r.ctx = some c → s.ringRuns r = true →
      let at_ (o : Nat) : Loc := paLoc (r.cb + o)
      let bs := s.bytes (paLoc (s.cbBase r + 128 * (s.cbRptr r % s.cbSize r))) 128
      (s.lapped r = true → ∃ t, exec (.hostQueueRecord q) s = .next t ∧ t.num (at_ 24) 4 = s.cbWptr r ∧ t.num (at_ 20) 4 = s.cbRptr r ∧ t.num (at_ 31) 1 = 1 ∧
        s.msix + 1 ≤ t.msix ∧ (∀ l, l.within (at_ 20) 12 = false → t.byte l = s.byte l) ∧ t.grids = s.grids) ∧
      (s.lapped r = false → rejects bs c = none → s.storeFull (q % 4) = true → ∃ t, exec (.hostQueueRecord q) s = .next t ∧ s.Stored t (at_ 31) [2] ∧
        s.msix + 1 ≤ t.msix ∧ t.grids = s.grids) ∧
      (s.lapped r = false → rejects bs c = none → s.storeFull (q % 4) = false → ∃ t gd, exec (.hostQueueRecord q) s = .next t ∧
        s.Stored t (at_ 16) (leBytes 4 (s.cbRptr r + 1)) ∧ t.grids = s.grids ++ [gd] ∧ gd.lid = c.nextLaunch ∧ gd.ctx = c.num ∧ gd.lrec = lrecOf bs ∧
        gd.source = .queue q ∧ gd.die = q % 4 ∧ gd.active = [] ∧ gd.low = 0) ∧
      (∀ n, s.lapped r = false → rejects bs c = some n → leNat ((bs.drop 16).take 8) = 0 → ∃ t, exec (.hostQueueRecord q) s = .next t ∧
        s.Stored t (at_ 16) (leBytes 4 (s.cbRptr r + 1)) ∧ t.grids = s.grids)) ∧
    (∀ ring r, (if ring then s.rings else s.queues).find? (fun r => r.q == q) = some r →
      ∃ t, exec (.queueResume ring q) s = .next t ∧ s.Stored t (paLoc (r.cb + 31)) [0] ∧ t.queues = s.queues ∧ t.rings = s.rings) ∧
    (∀ ring, cb % 32 = 0 → inHbm (cb + 31) = true → (s.ctx? ctx).isSome = true → q < (if ring then 64 else 256) →
      ∃ t, exec (.queueBinding ring q ctx cb) s = .next t ∧ (if ring then t.rings else t.queues).find? (fun r => r.q == q) = some ⟨q, ctx, cb⟩ ∧
        (∀ r, r.q ≠ q → (r ∈ t.rings ↔ r ∈ s.rings) ∧ (r ∈ t.queues ↔ r ∈ s.queues)) ∧ t.mem = s.mem) ∧
    (∀ r, s.rings.find? (fun r => r.q == q) = some r → s.ringRuns r = true → s.lapped r = false →
      let p := s.cbRptr r
      let bs := s.bytes (paLoc (s.cbBase r + 64 * (p % s.cbSize r))) 64
      let u := s.setRptr r (p + 1)
      let comp := leNat ((bs.drop 24).take 8)
      let dest := leNat ((bs.drop 16).take 2)
      (sendMalformed bs = true → exec (.sendRingDescriptor q) s = .next ((u.sendDone comp p 3).logFate r.ctx 3 0 0 0 0)) ∧
      (sendMalformed bs = false → dest = s.pkg →
        let v := u.taggedArrives s.pkg (leNat ((bs.drop 18).take 1)) (leNat ((bs.drop 12).take 4)) (u.bytes (paLoc (leNat (bs.take 8))) (leNat ((bs.drop 8).take 4)))
        exec (.sendRingDescriptor q) s = .next (v.1.sendDone comp p v.2)) ∧
      (sendMalformed bs = false → dest ≠ s.pkg → s.linked dest = false → exec (.sendRingDescriptor q) s = .next (u.sendDone comp p 2)) ∧
      (sendMalformed bs = false → dest ≠ s.pkg → s.linked dest = true → ∃ t seq, exec (.sendRingDescriptor q) s = .next t ∧
        t.sent = s.sent ++ [⟨dest, seq, comp, p⟩] ∧ (∃ f ∈ (t.conn dest).unacked, f.1.seq = BitVec.ofNat 64 seq ∧ f.1.ty = 2 ∧ f.1.dstPkg = BitVec.ofNat 16 dest) ∧
        s.Stored t (paLoc (r.cb + 16)) (leBytes 4 (p + 1))))

/-- R353, R354, R368-R371, R374: a tagged message matches the armed entry of its context and tag with the largest MINLEN that it reaches, whose record is
launched, or is dropped; frames are taken in order of sequence numbers, resent after 20 µs and 64 times at most; a connection that fails and a link that
comes up change what can be reached; a host write performs, and a host read acquires what the bytes publish at system scope and changes nothing else.
Rests on log entries 52, 53, 54. -/
def Obligations.Connections : Prop :=
  ∀ (s : State) (p : Nat) (f : Frame),
    (∀ ctx tag data, data.length ≤ 2 ^ 20 →
      (s.matchArm ctx (BitVec.toNat tag) data.length = none → ∃ t, exec (.taggedMessage p ctx tag data) s = .next t ∧ t.armed = s.armed ∧ t.grids = s.grids ∧ t.mem = s.mem) ∧
      (∀ e, s.matchArm ctx (BitVec.toNat tag) data.length = some e → e ∈ s.armed ∧ e.ctx = ctx ∧ e.tag = BitVec.toNat tag ∧ e.minLen ≤ data.length ∧ e.held = none ∧
        (∀ y ∈ s.armed, y.ctx = ctx → y.tag = BitVec.toNat tag → y.minLen ≤ data.length → y.held = none → y.minLen ≤ e.minLen) ∧
        (s.storeFull e.die = false → ∃ t, exec (.taggedMessage p ctx tag data) s = .next t ∧ ∀ x ∈ t.armed, x.idx ≠ e.idx) ∧
        (s.storeFull e.die = true → ∃ t x, exec (.taggedMessage p ctx tag data) s = .next t ∧ x ∈ t.armed ∧ x.idx = e.idx ∧
          x.held = some (data.length, clockSet [] s.nextAgent 1) ∧ t.grids = s.grids))) ∧
    (f.etherType ≠ s.etherType → exec (.frameReceive f) s = .next { s with dropped := s.dropped + 1 }) ∧
    (f.etherType = s.etherType → s.ports ≠ [] → f.fcsOk = true → f.vr = 1 → f.dstPkg.toNat = s.pkg → f.payload.length = f.len.toNat →
      f.tags.length ≤ 1 → wholeFrame f ≤ 9216 → s.linked f.srcPkg.toNat = true → f.ty = 0 →
      let c := s.conn f.srcPkg.toNat
      (f.seq.toNat ≤ c.rseq → ∃ t, exec (.frameReceive f) s = .next t ∧ t.msgs = s.msgs ∧ t.mem = s.mem ∧ (t.conn f.srcPkg.toNat).rseq = c.rseq) ∧
      (f.seq.toNat = c.rseq + 1 → c.ahead = [] → f.cls = 2 →
        ∃ t, exec (.frameReceive f) s = .next t ∧ t.msgs = s.msgs ++ (Config.invOfPayload f.payload).toList.filter (fun m => m.dst / 128 == s.pkg) ∧
          (t.conn f.srcPkg.toNat).rseq = c.rseq + 1 ∧ t.mem = s.mem)) ∧
    (∀ x, (s.conn p).unacked.find? (fun f => decide (f.2.2 + 20000 ≤ s.ns) && decide (f.2.1 < 64)) = some x → (s.conn p).failed = false → s.ports ≠ [] →
      ∃ t, exec (.retransmit p) s = .next t ∧ t.outbox = s.outbox ++ [x.1] ∧ (x.1, x.2.1 + 1, s.ns) ∈ (t.conn p).unacked) ∧
    (∀ x xs, (s.conn p).unacked = x :: xs → (s.conn p).failed = false → x.2.1 = 64 ∨ (s.conn p).ackAt + 10000000 ≤ s.ns →
      ∃ t, exec (.connectionFailure p) s = .next t ∧ (t.conn p).failed = true ∧ (t.conn p).unacked = [] ∧ t.linked p = false ∧ (∀ y ∈ t.sent, y.pkg ≠ p) ∧
        ∀ h ∈ t.handles, (h.brokenBy (s.ownWord h) p) = none) ∧
    (p < 24 → p ∉ s.ports → exec (.linkTraining p) s =
      .next { s with ports := s.ports ++ [p], etherType := (Config.etherType s.tick).getD s.etherType }) ∧
    (p ≠ s.pkg → p < 4095 → ∃ t, exec (.connectionReestablished p) s = .next t ∧ t.linked p = true ∧ (t.conn p).failed = false ∧ (t.conn p).unacked = [] ∧
      ∀ n, n ≠ p → t.conn n = s.conn n ∧ t.linked n = s.linked n) ∧
    (∀ pa bs, bs ≠ [] → inHole pa = false → inHole (pa + bs.length - 1) = false → pa + bs.length ≤ 2 ^ 52 →
      (∀ n, n < bs.length → s.roByte (pa + n) = false) → ∃ t, exec (.hostAccess true pa bs) s = .next t ∧ s.Stored t (paLoc pa) bs ∧ t.blocks = s.blocks) ∧
    (∀ pa bs, inMemory pa bs.length = true → ∃ t, exec (.hostAccess false pa bs) s = .next t ∧ { t with hostClock := s.hostClock } = s ∧
      t.hostClock = ((s.relsAt (paLoc pa) bs.length).filter fun r => r.scope == .sys).foldl (fun k r => clockJoin k r.clock) s.hostClock)

/-- R375, R389, R407: what the driver writes: a context from its descriptor, an entry of a stack's capability table, a shootdown of a context's
translations.
Rests on log entries 12, 49. -/
def Obligations.DriverWrites : Prop :=
  ∀ (s : State) (ctx : Nat) (desc : List (BitVec 8)),
    (s.announced = true → ctx < 64 → s.ctx? ctx = none →
      ∃ c, exec (.contextCreation ctx desc) s = .next { s with ctxs := s.ctxs ++ [c] } ∧ c.num = ctx ∧ c.undo = [] ∧ c.committed = 0 ∧ c.suspended = false ∧
        c.credit = (if c.weight = 0 then 1 else c.weight) ∧ { (Context.fresh ctx).read desc with credit := c.credit } = c) ∧
    (∀ c, s.ctx? ctx = some c → ∃ t, exec (.contextDescriptorWrite ctx desc) s = .next t ∧ t.ctx? ctx = some { c.read desc with suspended := false } ∧
      (∀ n, n ≠ ctx → t.ctx? n = s.ctx? n) ∧ { t with ctxs := s.ctxs } = s) ∧
    (∀ stack idx e, stack < 8 → idx < 4096 → ∃ t, exec (.capabilityTableWrite stack idx e) s = .next t ∧ t.cap stack idx = e ∧
      (∀ a b, a < 8 → b < 4096 → ¬ (a = stack ∧ b = idx) → t.cap a b = s.cap a b) ∧ { t with caps := s.caps } = s) ∧
    (∃ t, exec (.shootdown ctx) s = .next t ∧ (∀ e ∈ t.tlbs, e.ctx ≠ ctx) ∧ (∀ e, e.ctx ≠ ctx → (e ∈ t.tlbs ↔ e ∈ s.tlbs)) ∧ { t with tlbs := s.tlbs } = s)

/-! ## Errors, checkpoints, freeze, resets -/

/-- R413-R418, R420, R421, R424, R425: errors are recorded, in the ring in host memory too, and by their severity poison, roll back or freeze. A
rollback stops and discards at once what the contexts it charges have, and then restores one line after another, the oldest value of each that a later
segment has written, and records its error at its end; a parity error of the plane waits for an operation that reads a register [R285]. Epochs commit:
the totals are saved, and the log's entries of the committed segments go. The thermal step moves by one towards what the readings ask for, and 115
degrees freeze the package; the mailbox answers with the signed report; a readout alters nothing.
Rests on log entries 14, 51, 56, 57, 58. -/
def Obligations.ErrorsAndStates : Prop :=
  ∀ (s : State) (e : ErrorInfo),
    let entry : Nat := 2 ^ 51 + (Config.errorBase + 32 * (s.errNext % Config.errorRing)) % 2 ^ 51
    let written (t : State) : Prop := s.Stored t (paLoc entry) (⟨e, s.ns, 1⟩ : ErrRec).bytes ∧ t.errNext = s.errNext + 1 ∧
      t.errors = (s.errors ++ [(⟨e, s.ns, 1⟩ : ErrRec)]).drop (s.errors.length + 1 - Config.errorRing)
    let charges (c : Context) : Prop := e.unit = 2 ∨ e.unit = 6 ∨ (e.unit = 9 ∧ Config.zenithError s.tick = true) ∨ c.num = e.ctx.toNat
    let begins (t : State) (e : ErrorInfo) (c : Context) : Prop := (∀ b ∈ t.blocks, b.ctx ≠ c.num) ∧ (∀ g ∈ t.grids, g.ctx ≠ c.num) ∧
      ∃ r ∈ t.rollbacks, r.ctx = c.num ∧ e ∈ r.errs ∧ r.restores = (c.ckptValid && decide (1 ≤ c.committed)) ∧
        r.lines = if r.restores then oldest c.undo c.committed else []
    (e.unit.toNat < 10 →
      (e.sev = 1 → e.unit = 4 → inHbm e.addr.toNat = true → ∃ t, exec (.errorDetected e) s = .next t ∧ t.isPoisoned e.addr.toNat = true ∧
        written t ∧ t.msix = s.msix + 1 ∧ t.frozen = s.frozen ∧ t.ctxs = s.ctxs) ∧
      (e.sev = 3 → ∃ t, exec (.errorDetected e) s = .next t ∧ written t ∧ t.msix = s.msix + 1 ∧ t.frozen = true ∧ t.blocks = s.blocks) ∧
      (e.sev = 2 → e.unit ≠ 1 → (s.ctxs.map (·.num)).Nodup → ∃ t, exec (.errorDetected e) s = .next t ∧ t.frozen = s.frozen ∧
        (∀ c ∈ s.ctxs, charges c → begins t e c) ∧ (e.unit ≠ 5 → (∀ c ∈ s.ctxs, ¬ charges c) → written t ∧ t.blocks = s.blocks)) ∧
      (e.sev = 2 → e.unit = 1 → (∃ b ∈ s.blocks, b.place = some e.inst.toNat ∧ b.planeSt.isSome = true) →
        (∀ b ∈ s.blocks, b.place = some e.inst.toNat → ∀ o ∈ b.ops, o.tl = 2 → o.isDone = true) →
        ∃ t, exec (.errorDetected e) s = .next t ∧ e ∈ t.parity ∧ { t with parity := s.parity } = s) ∧
      (e.sev = 0 → s.errors = [] → ∃ t, exec (.errorDetected e) s = .next t ∧ written t ∧ t.msix = s.msix ∧ t.blocks = s.blocks ∧
        (e.unit = 5 → SMap.get 0 t.residues e.inst.toNat = SMap.get 0 s.residues e.inst.toNat + 1))) ∧
    (∀ a b, a < b → b < 4 → (s.ctxs.map (·.num)).Nodup → ∃ t, exec (.bridgeFailure a b) s = .next t ∧ t.frozen = s.frozen ∧
      ∀ c ∈ s.ctxs, begins t ⟨0, 0, 6, BitVec.ofNat 8 (if a = 0 then b - 1 else a + b), 0, 2⟩ c) ∧
    (∀ us n, (∀ u ∈ oldest us n, n < u.seg ∧ us.find? (fun v => v.line == u.line && decide (n < v.seg)) = some u) ∧
      ∀ u ∈ us, n < u.seg → ∃ v ∈ oldest us n, v.line = u.line) ∧
    (s.choice = some .recover → step s = afterwards (.next s.recover)) ∧
    (∀ r rest, s.discarding = false → s.rollbacks = r :: rest →
      (∀ u us, r.lines = u :: us → s.Stored s.recover (paLoc u.line) u.old ∧ s.recover.rollbacks = { r with lines := us } :: rest) ∧
      (r.lines = [] → r.comps = [] → (∀ x ∈ s.armed, x.held = none) → s.recover.rollbacks = rest ∧
        (r.restores = true → ∀ c, s.ctx? r.ctx = some c → (s.recover.ctx? r.ctx).map (·.undo) = some []))) ∧
    (∀ c n, c ∈ s.ctxs → s.lastEpoch c = some n → ∃ t x k, exec .checkpointCommit s = .next t ∧ x ∈ s.ctxs ∧ s.lastEpoch x = some k ∧
      ∀ y, s.ctx? x.num = some y → t.ctx? x.num = some { y with
        committed := k, ckptValid := true, totals := (s.grids.filter fun g => g.ctx == x.num).map fun g => (g.gid, g.stats)
        undo := y.undo.filter fun u => decide (k < u.seg), stale := y.stale ++ y.undo.filter fun u => decide (u.seg ≤ k) }) ∧
    (∃ t, exec .tapFreeze s = .next t ∧ t.frozen = true ∧ { t with frozen := s.frozen, contrail := s.contrail } = s) ∧
    (∀ c, ∃ t, exec (.freeze c) s = .next t ∧ t.frozen = true ∧ { t with frozen := s.frozen, contrail := s.contrail } = s) ∧
    exec .testPortReadout s = .next s ∧
    (∀ temp flow k, s.thermal ≤ 3 → ∃ t, exec (.thermalStep ⟨temp, flow⟩ k) s = .next t ∧ t.heat = ⟨temp, flow, k⟩ ∧
      { t with heat := s.heat, thermal := s.thermal, throttle := s.throttle, frozen := s.frozen, contrail := s.contrail } = s ∧
      t.frozen = (s.frozen || decide (115 ≤ temp)) ∧
      t.thermal = (if 115 ≤ temp then s.thermal
        else if flow < 12 then min 3 (s.thermal + 1)
        else if (s.thermal, true) ∈ [(0, decide (95 ≤ temp)), (1, decide (102 ≤ temp)), (2, decide (108 ≤ temp))] then s.thermal + 1
        else if (s.thermal, true) ∈ [(1, decide (temp < 90)), (2, decide (temp < 97)), (3, decide (temp < 103))] then s.thermal - 1
        else s.thermal) ∧
      ∀ c, c < 128 → SMap.get 0 t.throttle c = SMap.get 0 s.throttle c + if s.thermal < t.thermal then 1 else 0) ∧
    (∀ n, n.length = 64 → ∃ t, exec (.attestationRequest n) s = .next t ∧ t.mailbox.take 64 = n ∧
      t.mailbox = s.report n ++ edSign s.fuses.deviceKey (s.report n) ∧ { t with mailbox := s.mailbox } = s)

/-- R422, R426: a cold reset leaves no context, grid, block or handle, no translation and an empty Contrail, and ends a freeze; a warm reset keeps Contrail
and is not taken while frozen; without power the package holds none of them. Memory outside the package stands, and so do fuses, which repairs only add to, a spare cluster for
one failed cluster of its die, a spare row for one row of 128 [R3].
Rests on log entries 1, 57, 58, 65. -/
def Obligations.Resets : Prop :=
  ∀ s : State,
    let empty (t : State) : Prop := t.ctxs = [] ∧ t.grids = [] ∧ t.blocks = [] ∧ t.handles = [] ∧ t.msgs = [] ∧ t.tlbs = [] ∧ t.pins = [] ∧ t.armed = [] ∧
      t.queues = [] ∧ t.rings = [] ∧ t.conns = [] ∧ t.caps = [] ∧ t.vgcmds = [] ∧ t.rollbacks = [] ∧ t.parity = [] ∧ t.thermal = 0 ∧ t.etherType = 0x88B5
    let outside (t : State) : Prop := (∀ a, 2 ^ 51 ≤ a → t.byte (paLoc a) = s.byte (paLoc a)) ∧ ∀ p a, t.byte ⟨.far p, a⟩ = s.byte ⟨.far p, a⟩
    let repaired (t : State) : Prop := t.clusterMap = t.fuses.map ∧ t.fuses.secret = s.fuses.secret ∧ ∃ rs, t.fuses.repairs = s.fuses.repairs ++ rs ∧
      (∀ a g x y, Repair.row a g x ∈ rs → Repair.row a g y ∈ s.fuses.repairs ++ rs → x = y ∧ x < 128) ∧
      (∀ a c x y, Repair.cluster a x ∈ rs → Repair.cluster c y ∈ s.fuses.repairs ++ rs → (a = c ↔ x = y) ∧ a / 34 = x / 34 ∧ 32 ≤ a % 34 ∧ x % 34 < 32)
    (∃ t, exec .coldReset s = .next t ∧ empty t ∧ outside t ∧ repaired t ∧ t.frozen = false ∧ t.contrail = []) ∧
    (s.frozen = false → ∃ t, exec .warmReset s = .next t ∧ empty t ∧ outside t ∧ repaired t ∧ t.frozen = false ∧ t.contrail = s.contrail) ∧
    (s.frozen = true → exec .warmReset s = .next s) ∧
    (∃ t, exec .powerOff s = .next t ∧ empty t ∧ outside t ∧ t.announced = false ∧ t.contrail = []) ∧
    empty State.reset ∧ State.reset.contrail = [] ∧ State.reset.frozen = false ∧ State.reset.cur = none ∧ ∀ l, State.reset.byte l = 0

/-! ## The machine as a whole -/

/-- R33-R56: every well-formed instruction that has a word decodes from it, every operand as it was; the terms without a word are the package's
events. -/
def Obligations.DecodesWhatIsEncoded : Prop :=
  ∀ i : Instr, WellFormed i = true → (∀ w, encode i = some w → decode w = .ok i) ∧ (encode i = none → i.isEvent = true)

/-- The other direction: a word that decodes is the word of the well-formed instruction it decodes to, so that no two words share a meaning and no bit
of a word is passed over. -/
def Obligations.EncodesWhatIsDecoded : Prop :=
  ∀ (w : Word32) (i : Instr), decode w = .ok i → WellFormed i = true ∧ encode i = some w

/-- Words that the spec writes out with their instructions, of every family of the opcode table. -/
def Obligations.DecodedWords : Prop :=
  decode 0x020A0414 = .ok (.vadd (.reg 5) (.reg 1) (.bcast 2)) ∧ decode 0x04050298 = .ok (.vmul (.reg 2) (.latch 0) (.src (.imm 3))) ∧
    decode 0x1A0813FD = .ok (.vaddi (.reg 4) (.reg 4) (-3)) ∧ decode 0x17038B69 = .ok (.vcmp 1 (.spec .lane) (.spec .negone) .ne) ∧
    decode 0x400C1A88 = .ok (.sadd (.reg 6) (.reg 6) (.imm 1)) ∧ decode 0x570E03E0 = .ok (.sshi (.reg 7) (-32)) ∧
    decode 0x62072005 = .ok (.brp 3 true 2 5) ∧ decode 0x6520000C = .ok (.call 2 12) ∧ decode 0x70080411 = .ok (.pand 4 1 2 true) ∧
    decode 0x8006_0831 = .ok (.vld (.reg 3) (.reg 2) (.reg 6) .sp) ∧ decode 0x8508_0818 = .ok (.sld (.reg 4) (.reg 2) (.reg 3) false) ∧
    decode 0x8C0A_081F = .ok (.atom (.reg 5) (.reg 2) (.reg 3) .cas) ∧ decode 0x9300_0003 = .ok (.fence .device) ∧
    decode 0x980C_0822 = .ok (.cpa 6 (.reg 2) (.reg 4) 2) ∧ decode 0xA001_8000 = .ok (.bar (.spec .zero) 0) ∧ decode 0xB114_0820 = .ok (.mmal 10 2 4) ∧
    decode 0xB610_0F03 = .ok (.mdst 8 (.reg 3) (.spec .zero) 3) ∧ decode 0xC604_0C4C = .ok (.plfma 2 (.cell 3) (.bcast 9)) ∧
    decode 0xCC00_1704 = .ok (.plcmp (.cell 5) .zero .gt) ∧ decode 0xE00A_1800 = .ok (.launch 5 (.reg 6)) ∧
    decode 0xE600_1C01 = .ok (.hres (.reg 7) true) ∧ decode 0xEA12_0818 = .ok (.vgcmd 9 (.reg 2) (.reg 3)) ∧ decode 0xF000_015F = .ok (.mode 0x15F) ∧
    decode 0xF206_0019 = .ok (.getc (.reg 3) 25) ∧ decode 0xFFFF_FFFF = .ok (.ill true 0xFFFFFF) ∧ decode 0xFF00_0000 = .ok (.undef 0x700_0000) ∧
    decode 0x0012_3456 = .ok (.ill false 0x12_3456)

/-- A step that issues runs the decoded instruction: where the step's choice is a core whose slot can issue and its fetch gives instruction i with the slot
marked as its issuer, the step is exec of i there, and then what every step does at its end.
Rests on log entries 2, 4. -/
def Obligations.StepRunsDecoded : Prop :=
  ∀ (s : State) (core : Nat) (gr : GRef) (sb : Bool) (b : Block) (g : Group) (w : Word32) (i : Instr), s.choice = some (.issue core) →
    s.issueSlot core = some (gr, sb) → s.block? gr.blk = some b → s.group? gr = some g →
    (s.issueCore (coreOf (b.place.getD 0) gr.grp) gr sb).fetchWord b.ctx (coreOf (b.place.getD 0) gr.grp) (g.slot sb).pc = .ok w →
    decode w = .ok i →
    let t := { s.issueCore (coreOf (b.place.getD 0) gr.grp) gr sb with cur := some ⟨gr, sb, w⟩ }
    step s = afterwards (exec i t)

/-- R421: a frozen package stays as it is, but for the step count, until a cold reset or the loss of power: blocks, memory, registers, time.
Rests on log entry 59. -/
def Obligations.FrozenStands : Prop :=
  ∀ s t : State, s.frozen = true → step s = .next t → s.inputs.head? ≠ some .coldReset → s.inputs.head? ≠ some .powerOff →
    { t with tick := s.tick, inputs := s.inputs, cur := s.cur } = s

/-- Every step keeps every store in canonical form, so that equal memories are equal data.
Rests on log entry 1. -/
def Obligations.StoresStayCanonical : Prop := ∀ s t : State, s.Canonical → step s = .next t → t.Canonical

/-- The machine right after reset is canonical, between steps, and at time 0.
Rests on log entries 1, 58. -/
def Obligations.CanonicalAtReset : Prop := State.reset.Canonical ∧ State.reset.cur = none ∧ State.reset.cycle = 0 ∧ State.reset.ns = 0
end

