-- ==== Sys2Proof/Laws/Encoding.lean ====
section
/-! SUPPORT. The fields of an assembled word, and what each field reader of the decoder makes of each field of the encoder. -/

namespace Sys2Proof.Laws

open Sys2Proof

/-! ## Fields of a concatenation -/

theorem extract_high {m n : Nat} (a : BitVec m) (b : BitVec n) (k l : Nat) (h : n ≤ k) :
    (a ++ b).extractLsb' k l = a.extractLsb' (k - n) l := by
  apply BitVec.eq_of_getLsbD_eq
  intro i hi
  simp [BitVec.getLsbD_append, hi, show ¬ k + i < n by omega, show k + i - n = k - n + i by omega]

theorem extract_low {m n : Nat} (a : BitVec m) (b : BitVec n) (k l : Nat) (h : k + l ≤ n) :
    (a ++ b).extractLsb' k l = b.extractLsb' k l := by
  apply BitVec.eq_of_getLsbD_eq
  intro i hi
  simp [BitVec.getLsbD_append, hi, show k + i < n by omega]

theorem extract_all {n : Nat} (a : BitVec n) : a.extractLsb' 0 n = a := by simp

theorem fOp_mkR (op : BitVec 8) (d a b : BitVec 7) (x : BitVec 3) : fOp (mkR op d a b x) = op :=
  (extract_high op (d ++ (a ++ (b ++ x))) 24 8 (by decide)).trans (extract_all op)

theorem fL_mkL (op : BitVec 8) (i : BitVec 24) : fL (mkL op i) = i :=
  (extract_low op i 0 24 (by decide)).trans (extract_all i)

theorem fOp_mkL (op : BitVec 8) (i : BitVec 24) : fOp (mkL op i) = op :=
  (extract_high op i 24 8 (by decide)).trans (extract_all op)

theorem fD_mkR (op : BitVec 8) (d a b : BitVec 7) (x : BitVec 3) : fD (mkR op d a b x) = d :=
  (extract_low op (d ++ (a ++ (b ++ x))) 17 7 (by decide)).trans
    ((extract_high d (a ++ (b ++ x)) 17 7 (by decide)).trans (extract_all d))

theorem fA_mkR (op : BitVec 8) (d a b : BitVec 7) (x : BitVec 3) : fA (mkR op d a b x) = a :=
  (extract_low op (d ++ (a ++ (b ++ x))) 10 7 (by decide)).trans
    ((extract_low d (a ++ (b ++ x)) 10 7 (by decide)).trans ((extract_high a (b ++ x) 10 7 (by decide)).trans (extract_all a)))

theorem fB_mkR (op : BitVec 8) (d a b : BitVec 7) (x : BitVec 3) : fB (mkR op d a b x) = b :=
  (extract_low op (d ++ (a ++ (b ++ x))) 3 7 (by decide)).trans
    ((extract_low d (a ++ (b ++ x)) 3 7 (by decide)).trans
      ((extract_low a (b ++ x) 3 7 (by decide)).trans ((extract_high b x 3 7 (by decide)).trans (extract_all b))))

theorem fX_mkR (op : BitVec 8) (d a b : BitVec 7) (x : BitVec 3) : fX (mkR op d a b x) = x :=
  (extract_low op (d ++ (a ++ (b ++ x))) 0 3 (by decide)).trans
    ((extract_low d (a ++ (b ++ x)) 0 3 (by decide)).trans
      ((extract_low a (b ++ x) 0 3 (by decide)).trans ((extract_low b x 0 3 (by decide)).trans (extract_all x))))

theorem fOp_mkI (op : BitVec 8) (d a : BitVec 7) (i : BitVec 10) : fOp (mkI op d a i) = op :=
  (extract_high op (d ++ (a ++ i)) 24 8 (by decide)).trans (extract_all op)

theorem fD_mkI (op : BitVec 8) (d a : BitVec 7) (i : BitVec 10) : fD (mkI op d a i) = d :=
  (extract_low op (d ++ (a ++ i)) 17 7 (by decide)).trans ((extract_high d (a ++ i) 17 7 (by decide)).trans (extract_all d))

theorem fA_mkI (op : BitVec 8) (d a : BitVec 7) (i : BitVec 10) : fA (mkI op d a i) = a :=
  (extract_low op (d ++ (a ++ i)) 10 7 (by decide)).trans
    ((extract_low d (a ++ i) 10 7 (by decide)).trans ((extract_high a i 10 7 (by decide)).trans (extract_all a)))

theorem fI_mkI (op : BitVec 8) (d a : BitVec 7) (i : BitVec 10) : fI (mkI op d a i) = i :=
  (extract_low op (d ++ (a ++ i)) 0 10 (by decide)).trans
    ((extract_low d (a ++ i) 0 10 (by decide)).trans ((extract_low a i 0 10 (by decide)).trans (extract_all i)))

theorem fOp_mkB (op : BitVec 8) (c : BitVec 7) (n : Bool) (t : BitVec 4) (o : BitVec 12) : fOp (mkB op c n t o) = op :=
  (extract_high op (c ++ (BitVec.ofBool n ++ (t ++ o))) 24 8 (by decide)).trans (extract_all op)

theorem fD_mkB (op : BitVec 8) (c : BitVec 7) (n : Bool) (t : BitVec 4) (o : BitVec 12) : fD (mkB op c n t o) = c :=
  (extract_low op (c ++ (BitVec.ofBool n ++ (t ++ o))) 17 7 (by decide)).trans
    ((extract_high c (BitVec.ofBool n ++ (t ++ o)) 17 7 (by decide)).trans (extract_all c))

theorem fN_mkB (op : BitVec 8) (c : BitVec 7) (n : Bool) (t : BitVec 4) (o : BitVec 12) : fN (mkB op c n t o) = n := by
  have h : (fN (mkB op c n t o)) = (BitVec.ofBool n ++ (t ++ o)).getLsbD 16 :=
    (BitVec.getLsbD_append (x := op) (y := c ++ (BitVec.ofBool n ++ (t ++ o))) (i := 16)).trans
      (BitVec.getLsbD_append (x := c) (y := BitVec.ofBool n ++ (t ++ o)) (i := 16))
  rw [h, BitVec.getLsbD_append]
  cases n <;> rfl

theorem fT_mkB (op : BitVec 8) (c : BitVec 7) (n : Bool) (t : BitVec 4) (o : BitVec 12) : fT (mkB op c n t o) = t :=
  (extract_low op (c ++ (BitVec.ofBool n ++ (t ++ o))) 12 4 (by decide)).trans
    ((extract_low c (BitVec.ofBool n ++ (t ++ o)) 12 4 (by decide)).trans
      ((extract_low (BitVec.ofBool n) (t ++ o) 12 4 (by decide)).trans ((extract_high t o 12 4 (by decide)).trans (extract_all t))))

theorem fO_mkB (op : BitVec 8) (c : BitVec 7) (n : Bool) (t : BitVec 4) (o : BitVec 12) : fO (mkB op c n t o) = o :=
  (extract_low op (c ++ (BitVec.ofBool n ++ (t ++ o))) 0 12 (by decide)).trans
    ((extract_low c (BitVec.ofBool n ++ (t ++ o)) 0 12 (by decide)).trans
      ((extract_low (BitVec.ofBool n) (t ++ o) 0 12 (by decide)).trans ((extract_low t o 0 12 (by decide)).trans (extract_all o))))

/-! ## Decoding an assembled word -/

theorem decode_mkR {op : BitVec 8} {d a b : BitVec 7} {x : BitVec 3} {r : Dec Instr}
    (h : ∀ w : Word32, fD w = d → fA w = a → fB w = b → fX w = x → decodeOp op.toNat w = r) : decode (mkR op d a b x) = r := by
  unfold decode
  rw [fOp_mkR]
  exact h _ (fD_mkR op d a b x) (fA_mkR op d a b x) (fB_mkR op d a b x) (fX_mkR op d a b x)

theorem decode_mkI {op : BitVec 8} {d a : BitVec 7} {i : BitVec 10} {r : Dec Instr}
    (h : ∀ w : Word32, fD w = d → fA w = a → fI w = i → decodeOp op.toNat w = r) : decode (mkI op d a i) = r := by
  unfold decode
  rw [fOp_mkI]
  exact h _ (fD_mkI op d a i) (fA_mkI op d a i) (fI_mkI op d a i)

theorem decode_mkL {op : BitVec 8} {i : BitVec 24} {r : Dec Instr}
    (h : ∀ w : Word32, fL w = i → decodeOp op.toNat w = r) : decode (mkL op i) = r := by
  unfold decode
  rw [fOp_mkL]
  exact h _ (fL_mkL op i)

theorem decode_mkB {op : BitVec 8} {c : BitVec 7} {n : Bool} {t : BitVec 4} {o : BitVec 12} {r : Dec Instr}
    (h : ∀ w : Word32, fD w = c → fN w = n → fT w = t → fO w = o → decodeOp op.toNat w = r) : decode (mkB op c n t o) = r := by
  unfold decode
  rw [fOp_mkB]
  exact h _ (fD_mkB op c n t o) (fN_mkB op c n t o) (fT_mkB op c n t o) (fO_mkB op c n t o)

/-! ## Sources -/

theorem anySrc_eSrc (a : Src) : anySrc (eSrc a) = .ok a := by
  cases a with
  | reg r => revert r; decide
  | latch r => revert r; decide
  | imm r => revert r; decide
  | spec r => cases r <;> decide

theorem scalarSrc_eSrc {a : Src} (h : scalarOk a = true) : scalarSrc (eSrc a) = .ok a := by
  simp [scalarSrc, srcIf, anySrc_eSrc, h]

theorem uniformSrc_eSrc {a : Src} (h : uniformOk a = true) : uniformSrc (eSrc a) = .ok a := by
  simp [uniformSrc, srcIf, anySrc_eSrc, h]

theorem laneSrc_eSrc {a : Src} (h : laneOk a = true) : laneSrc (eSrc a) = .ok a := by
  simp [laneSrc, srcIf, anySrc_eSrc, h]

theorem predSrc_ePred {p : BitVec 5} (h : predOk p = true) : predSrc (ePred p) = .ok p := by
  revert p; decide

theorem cellSrc_e (a : CellSrc) : cellSrc (eCellSrc a) = .ok a := by
  cases a with
  | cell r => revert r; decide
  | imm r => revert r; decide
  | _ => decide

theorem regRun1_eReg (r : BitVec 6) : regRun (eReg r) 1 = .ok r := by revert r; decide
theorem regRun2_eReg {r : BitVec 6} (h : runOk r 2 = true) : regRun (eReg r) 2 = .ok r := by revert r; decide
theorem regRun3_eReg {r : BitVec 6} (h : runOk r 3 = true) : regRun (eReg r) 3 = .ok r := by revert r; decide
theorem regRun6_eReg {r : BitVec 6} (h : runOk r 6 = true) : regRun (eReg r) 6 = .ok r := by revert r; decide

theorem cvtSrc_eCvt {t : ElemType} (h : (t != .d) = true) : cvtSrc (eCvt t) = .ok t := by
  cases t <;> first | rfl | exact absurd h (by decide)

theorem eSrc_isDrn (a : Src) : (eSrc a == 0x6C) = a.isDrn := by
  cases a with
  | reg r => revert r; decide
  | latch r => revert r; decide
  | imm r => revert r; decide
  | spec r => cases r <;> decide

/-! ## Fields of a word -/

theorem dDst_of {w : Word32} {d : Dst} (h : fD w = eDst d) : dDst w = .ok d := by
  unfold dDst
  rw [h]
  clear h
  cases d with
  | reg r => revert r; decide
  | none => decide

theorem dReg_of {w : Word32} {d : BitVec 6} {e : Illop} (h : fD w = eReg d) : dReg w e = .ok d := by
  unfold dReg
  rw [h, if_pos (by clear h; revert d; decide)]
  exact congrArg _ (by clear h; revert d; decide)

theorem dPred_of {w : Word32} {d : BitVec 5} (h : fD w = ePred d) (k : predOk d = true) : dPred w = .ok d := by
  unfold dPred
  rw [h]
  clear h
  revert d; decide

theorem bPred_of {w : Word32} {d : BitVec 5} (h : fD w = ePred d) (k : predOk d = true) : bPred w = .ok d := by
  unfold bPred
  rw [h]
  clear h
  revert d; decide

theorem bReg_of {w : Word32} {d : BitVec 6} (h : fD w = eReg d) : bReg w = .ok d := by
  unfold bReg
  rw [h]
  clear h
  revert d; decide

theorem dCell32_of {w : Word32} {d : BitVec 5} (h : fD w = eCell d) : dCell w 32 = .ok d := by
  unfold dCell
  rw [h]
  clear h
  revert d; decide

theorem dCell29_of {w : Word32} {d : BitVec 5} (h : fD w = eCell d) (k : decide (d.toNat ≤ 28) = true) : dCell w 29 = .ok d := by
  unfold dCell
  rw [h]
  clear h
  revert d; decide

theorem dEven_of {w : Word32} {d : BitVec 5} (h : fD w = eEven d) : dEven w = .ok d := by
  unfold dEven
  rw [h]
  clear h
  revert d; decide

theorem dRun2_of {w : Word32} {d : BitVec 6} (h : fD w = eReg d) (k : runOk d 2 = true) : dRun w 2 = .ok d := by
  unfold dRun; rw [h]; exact regRun2_eReg k

theorem dRun3_of {w : Word32} {d : BitVec 6} (h : fD w = eReg d) (k : runOk d 3 = true) : dRun w 3 = .ok d := by
  unfold dRun; rw [h]; exact regRun3_eReg k

theorem srcB_of {w : Word32} {b : SrcB} (h : fB w = eSrcB b) (k : (fX w).getLsbD 2 = (eBc b).getLsbD 2) : srcBOf w = .ok b := by
  unfold srcBOf
  rw [h, k]
  clear h k
  cases b with
  | src a => simp [eBc, eSrcB, anySrc_eSrc]
  | bcast r => revert r; decide

theorem cellB_of {w : Word32} {b : CellSrcB} (h : fB w = eCellB b) (k : fX w = eBcCell b) : cellBOf w = .ok b := by
  unfold cellBOf
  rw [h, k]
  clear h k
  cases b with
  | src a => simp [eBcCell, eCellB, cellSrc_e]
  | bcast r => revert r; decide

theorem drnOnce_of {w : Word32} {a : Src} {b : SrcB} (h : fA w = eSrc a) (k : fB w = eSrcB b) (r : drnOk a b = true) : drnOnce w = true := by
  unfold drnOnce
  rw [h, k, eSrc_isDrn]
  clear h k
  cases b with
  | src b => rw [eSrcB, eSrc_isDrn]; exact r
  | bcast x =>
    have : (eSrcB (.bcast x) == 0x6C) = false := by clear r; revert x; decide
    rw [this, Bool.and_false]; rfl

theorem xIn_of {w : Word32} {x : BitVec 3} {l : List (BitVec 3)} (h : fX w = x) (k : l.contains x = true) : xIn w l = true := by
  unfold xIn
  rw [h]; exact k

theorem x0_of {w : Word32} {x : BitVec 3} {r : Bool} (h : fX w = x) (k : x.getLsbD 0 = r) : x0 w = .ok r := by
  unfold x0
  rw [h, k]

theorem x2_of {w : Word32} {x : BitVec 3} {r : Bool} (h : fX w = x) (k : x.getLsbD 2 = r) : x2 w = .ok r := by
  unfold x2
  rw [h, k]

/-! ## Numbers in wider fields -/

theorem four_fits (n : BitVec 4) : decide ((n.setWidth 10).toNat < 16) = true := by revert n; decide
theorem four_back (n : BitVec 4) : (n.setWidth 10).setWidth 4 = n := by revert n; decide
theorem four_high {n : BitVec 4} (h : decide (4 ≤ n.toNat) = true) : decide (4 ≤ (n.setWidth 10).toNat % 16) = true := by revert n; decide
theorem pair_back (x : BitVec 2) : (x.setWidth 3).setWidth 2 = x := by revert x; decide
theorem mode_fits (m : BitVec 14) : decide ((m.setWidth 24).toNat < 16384) = true := by
  have := m.isLt
  simp only [BitVec.toNat_setWidth, decide_eq_true_eq]
  omega
theorem mode_back (m : BitVec 14) : (m.setWidth 24).setWidth 14 = m := by
  apply BitVec.eq_of_toNat_eq
  have := m.isLt
  simp only [BitVec.toNat_setWidth]
  omega
theorem selector_fits (s : TlSel) (n : BitVec 4) : decide (((0 : BitVec 4) ++ (eTlSel s ++ n)).toNat < 64) = true := by
  cases s <;> revert n <;> decide
theorem selector_is (s : TlSel) (n : BitVec 4) : (((0 : BitVec 4) ++ (eTlSel s ++ n)).extractLsb' 4 2 != 3) = true := by
  cases s <;> revert n <;> decide
theorem selector_back (s : TlSel) (n : BitVec 4) : tlSelOf (((0 : BitVec 4) ++ (eTlSel s ++ n)).extractLsb' 4 2) = s := by
  cases s <;> revert n <;> decide
theorem number_back (s : TlSel) (n : BitVec 4) : ((0 : BitVec 4) ++ (eTlSel s ++ n)).setWidth 4 = n := by
  cases s <;> revert n <;> decide

theorem req_true {α : Type} (e : Illop) (x : Dec α) : req true e x = x := by cases x <;> rfl

/-! ## Opcodes outside the families -/

theorem decodeOp_undef (x : BitVec 3) (w : Word32) (hw : w ≠ 0xFFFFFFFF) :
    decodeOp ((0x1F : BitVec 5) ++ x).toNat w = .ok (.undef (w.extractLsb' 0 27)) := by
  have h : x = 0 ∨ x = 1 ∨ x = 2 ∨ x = 3 ∨ x = 4 ∨ x = 5 ∨ x = 6 ∨ x = 7 := by revert x; decide
  rcases h with rfl | rfl | rfl | rfl | rfl | rfl | rfl | rfl <;> exact if_neg hw

theorem reservedOp_cases (op : BitVec 8) (h : reservedOp op = true) :
    op.toNat ∈ ((List.range 13).map (0x33 + ·) ++ (List.range 4).map (0x5C + ·) ++ (List.range 3).map (0x6D + ·) ++
      (List.range 6).map (0x7A + ·) ++ (List.range 3).map (0x9D + ·) ++ (List.range 7).map (0xA9 + ·) ++ (List.range 7).map (0xB9 + ·) ++
      (List.range 3).map (0xDD + ·) ++ (List.range 4).map (0xEC + ·)) := by
  revert op; decide

theorem decodeOp_rsvop (op : BitVec 8) (w : Word32) (h : reservedOp op = true) : decodeOp op.toNat w = .ok (.rsvop w) := by
  have k := reservedOp_cases op h
  generalize op.toNat = n at k
  fin_cases k <;> rfl

end Sys2Proof.Laws
end

