-- ==== Sys2Proof/Laws/Memory.lean ====
section
/-! SUPPORT. Sparse maps and memory: what a read gives after a write, and that every write keeps the canonical form. -/

namespace Sys2Proof.Laws

open Sys2Proof Sys2Proof.Machine

/-! ## Sparse maps -/

variable {α : Type} [DecidableEq α]

theorem wfFrom_mono {d : α} {m : SMap α} {lo hi : Nat} (h : SMap.wfFrom d hi m = true) (k : lo ≤ hi) : SMap.wfFrom d lo m = true := by
  cases m with
  | nil => rfl
  | cons x r =>
    simp only [SMap.wfFrom, Bool.and_eq_true, decide_eq_true_eq] at h ⊢
    exact ⟨⟨by omega, h.1.2⟩, h.2⟩

theorem wfFrom_filter {d : α} {m : SMap α} {lo : Nat} (h : SMap.wfFrom d lo m = true) (p : Nat × α → Bool) :
    SMap.wfFrom d lo (m.filter p) = true := by
  induction m generalizing lo with
  | nil => rfl
  | cons x r ih =>
    simp only [SMap.wfFrom, Bool.and_eq_true, decide_eq_true_eq] at h
    rw [List.filter_cons]
    split
    · simp only [SMap.wfFrom, Bool.and_eq_true, decide_eq_true_eq]
      exact ⟨h.1, ih h.2⟩
    · exact wfFrom_mono (ih h.2) (by omega)

theorem wfFrom_insert {d : α} (m : SMap α) {lo k : Nat} {v : α} (h : SMap.wfFrom d lo m = true) (hk : lo ≤ k) (hv : v ≠ d)
    (hm : ∀ x ∈ m, x.1 ≠ k) : SMap.wfFrom d lo (SMap.insert k v m) = true := by
  induction m generalizing lo with
  | nil =>
    simp only [SMap.insert, SMap.wfFrom, Bool.and_eq_true, decide_eq_true_eq]
    exact ⟨⟨hk, hv⟩, trivial⟩
  | cons x r ih =>
    obtain ⟨a, w⟩ := x
    simp only [SMap.wfFrom, Bool.and_eq_true, decide_eq_true_eq] at h
    simp only [SMap.insert]
    split
    · simp only [SMap.wfFrom, Bool.and_eq_true, decide_eq_true_eq]
      exact ⟨⟨hk, hv⟩, ⟨by omega, h.1.2⟩, h.2⟩
    · have ha : a ≠ k := hm (a, w) List.mem_cons_self
      simp only [SMap.wfFrom, Bool.and_eq_true, decide_eq_true_eq]
      exact ⟨h.1, ih h.2 (by omega) fun x hx => hm x (List.mem_cons_of_mem _ hx)⟩

/-- A write keeps the canonical form. -/
theorem wfFrom_set {d : α} (m : SMap α) {lo k : Nat} (v : α) (h : SMap.wfFrom d lo m = true) (hk : lo ≤ k) :
    SMap.wfFrom d lo (SMap.set d m k v) = true := by
  unfold SMap.set
  simp only
  split
  · exact wfFrom_filter h _
  · rename_i hv
    exact wfFrom_insert _ (wfFrom_filter h _) hk hv fun x hx => by simpa using (List.mem_filter.1 hx).2

omit [DecidableEq α] in
theorem get_insert {d : α} (m : SMap α) (k x : Nat) (v : α) (hm : ∀ y ∈ m, y.1 ≠ k) :
    SMap.get d (SMap.insert k v m) x = if x = k then v else SMap.get d m x := by
  induction m with
  | nil => simp only [SMap.insert, SMap.get, eq_comm]
  | cons y r ih =>
    obtain ⟨a, w⟩ := y
    have ha : a ≠ k := hm (a, w) List.mem_cons_self
    have ih := ih fun z hz => hm z (List.mem_cons_of_mem _ hz)
    simp only [SMap.insert]
    split
    · simp only [SMap.get, eq_comm]
    · simp only [SMap.get, ih]
      by_cases hx : a = x
      · subst hx; simp [ha]
      · simp [hx]

omit [DecidableEq α] in
theorem get_filter {d : α} (m : SMap α) (p : Nat × α → Bool) (x : Nat) (h : ∀ v, p (x, v) = true) :
    SMap.get d (m.filter p) x = SMap.get d m x := by
  induction m with
  | nil => rfl
  | cons y r ih =>
    obtain ⟨a, w⟩ := y
    by_cases hp : p (a, w) = true
    · simp only [List.filter_cons_of_pos hp, SMap.get, ih]
    · have hx : a ≠ x := fun e => hp (e ▸ h w)
      simp only [List.filter_cons_of_neg hp, SMap.get, ih, hx, if_false]

omit [DecidableEq α] in
theorem get_absent {d : α} (m : SMap α) (x : Nat) (h : ∀ y ∈ m, y.1 ≠ x) : SMap.get d m x = d := by
  induction m with
  | nil => rfl
  | cons y r ih =>
    simp only [SMap.get]
    rw [if_neg (h y List.mem_cons_self)]
    exact ih fun z hz => h z (List.mem_cons_of_mem _ hz)

/-- A read after a write. -/
theorem get_set {d : α} (m : SMap α) (k x : Nat) (v : α) : SMap.get d (SMap.set d m k v) x = if x = k then v else SMap.get d m x := by
  have hm : ∀ y ∈ m.filter (fun y => y.1 != k), y.1 ≠ k := fun y hy => by simpa using (List.mem_filter.1 hy).2
  unfold SMap.set
  simp only
  split
  · rename_i hv
    by_cases hx : x = k
    · subst hx
      rw [if_pos rfl, hv]
      exact get_absent _ _ hm
    · rw [if_neg hx]
      exact get_filter _ _ _ fun w => by simpa using hx
  · rw [get_insert _ _ _ _ hm]
    by_cases hx : x = k
    · simp [hx]
    · rw [if_neg hx, if_neg hx]
      exact get_filter _ _ _ fun w => by simpa using hx

theorem get_set_self {d : α} (m : SMap α) (k : Nat) (v : α) : SMap.get d (SMap.set d m k v) k = v := by simp [get_set]

theorem get_set_ne {d : α} (m : SMap α) {k x : Nat} (v : α) (h : x ≠ k) : SMap.get d (SMap.set d m k v) x = SMap.get d m x := by
  simp [get_set, h]

/-! ## Bytes of memory -/

theorem get_set_byte (m : List Host.Cell) (a x : Nat) (v : Byte) :
    Memory.get (Memory.set m a v) x = if x = a then v else Memory.get m x := get_set m a x v

theorem wf_set_byte {m : List Host.Cell} (h : Memory.wf m = true) (a : Nat) (v : Byte) : Memory.wf (Memory.set m a v) = true :=
  wfFrom_set m v h (Nat.zero_le a)

theorem wfFrom_append {d : α} {m n : SMap α} {lo mid : Nat} (h : SMap.wfFrom d lo m = true) (hm : ∀ x ∈ m, x.1 < mid)
    (hl : lo ≤ mid) (k : SMap.wfFrom d mid n = true) : SMap.wfFrom d lo (m ++ n) = true := by
  induction m generalizing lo with
  | nil => exact wfFrom_mono k hl
  | cons x r ih =>
    simp only [SMap.wfFrom, Bool.and_eq_true, decide_eq_true_eq] at h
    simp only [List.cons_append, SMap.wfFrom, Bool.and_eq_true, decide_eq_true_eq]
    exact ⟨h.1, ih h.2 (fun y hy => hm y (List.mem_cons_of_mem _ hy)) (hm x List.mem_cons_self)⟩

theorem wfFrom_filter_ge {d : α} {m : SMap α} {lo : Nat} (n : Nat) (h : SMap.wfFrom d lo m = true) :
    SMap.wfFrom d n (m.filter fun x => decide (n ≤ x.1)) = true := by
  induction m generalizing lo with
  | nil => rfl
  | cons x r ih =>
    simp only [SMap.wfFrom, Bool.and_eq_true, decide_eq_true_eq] at h
    rw [List.filter_cons]
    split
    · rename_i hx
      simp only [decide_eq_true_eq] at hx
      simp only [SMap.wfFrom, Bool.and_eq_true, decide_eq_true_eq]
      exact ⟨⟨hx, h.1.2⟩, wfFrom_filter h.2 _⟩
    · exact ih h.2

theorem wfFrom_fresh (a : Nat) (vs : List Byte) : SMap.wfFrom (0 : Byte) a (Memory.fresh a vs) = true := by
  induction vs generalizing a with
  | nil => rfl
  | cons v vs ih =>
    simp only [Memory.fresh]
    split
    · exact wfFrom_mono (ih (a + 1)) (by omega)
    · rename_i hv
      simp only [SMap.wfFrom, Bool.and_eq_true, decide_eq_true_eq]
      exact ⟨⟨Nat.le_refl a, hv⟩, ih (a + 1)⟩

theorem fresh_bounds (a : Nat) (vs : List Byte) : ∀ x ∈ Memory.fresh a vs, x.1 < a + vs.length := by
  induction vs generalizing a with
  | nil => intro x hx; simp [Memory.fresh] at hx
  | cons v vs ih =>
    intro x hx
    simp only [Memory.fresh] at hx
    split at hx
    · have := ih (a + 1) x hx
      simp only [List.length_cons]
      omega
    · rcases List.mem_cons.1 hx with rfl | hx
      · simp
      · have := ih (a + 1) x hx
        simp only [List.length_cons]
        omega

/-- A store of any number of bytes keeps the canonical form. -/
theorem wf_setMany {m : List Host.Cell} (h : Memory.wf m = true) (a : Nat) (vs : List Byte) : Memory.wf (Memory.setMany m a vs) = true := by
  unfold Memory.wf Memory.setMany
  rw [List.append_assoc]
  refine wfFrom_append (mid := a) (wfFrom_filter h _) ?_ (Nat.zero_le a) ?_
  · intro x hx
    simpa using (List.mem_filter.1 hx).2
  · exact wfFrom_append (wfFrom_fresh a vs) (fresh_bounds a vs) (by omega) (wfFrom_filter_ge _ h)

omit [DecidableEq α] in
theorem get_append {d : α} (m n : SMap α) (x : Nat) : SMap.get d (m ++ n) x = SMap.get (SMap.get d n x) m x := by
  induction m with
  | nil => rfl
  | cons y r ih => simp only [List.cons_append, SMap.get, ih]

theorem fresh_above (a : Nat) (vs : List Byte) : ∀ y ∈ Memory.fresh a vs, a ≤ y.1 := by
  induction vs generalizing a with
  | nil => intro y hy; simp [Memory.fresh] at hy
  | cons u us ih =>
    intro y hy
    simp only [Memory.fresh] at hy
    split at hy
    · have := ih (a + 1) y hy; omega
    · rcases List.mem_cons.1 hy with rfl | hy
      · simp
      · have := ih (a + 1) y hy; omega

theorem get_fresh (a : Nat) (vs : List Byte) (x : Nat) (hx : a ≤ x) : SMap.get (0 : Byte) (Memory.fresh a vs) x = vs.getD (x - a) 0 := by
  induction vs generalizing a with
  | nil => rfl
  | cons v vs ih =>
    by_cases he : x = a
    · subst he
      have h0 : SMap.get (0 : Byte) (Memory.fresh (x + 1) vs) x = 0 :=
        get_absent _ _ fun y hy => by have := fresh_above (x + 1) vs y hy; omega
      simp only [Memory.fresh]
      split
      · rename_i hv
        rw [h0, hv, Nat.sub_self]
        rfl
      · simp [SMap.get]
    · have hs : (v :: vs).getD (x - a) 0 = vs.getD (x - (a + 1)) 0 := by
        rw [show x - a = (x - (a + 1)) + 1 by omega]
        rfl
      have ih := ih (a + 1) (by omega)
      rw [hs, ← ih]
      simp only [Memory.fresh]
      split
      · rfl
      · simp only [SMap.get]
        rw [if_neg (fun e => he e.symm)]

/-- A read after a store of many bytes: the stored byte inside the range, what was there outside it. -/
theorem get_setMany (m : List Host.Cell) (a x : Nat) (vs : List Byte) :
    Memory.get (Memory.setMany m a vs) x = if a ≤ x ∧ x < a + vs.length then vs.getD (x - a) 0 else Memory.get m x := by
  have hlow : ∀ y ∈ m.filter (fun y => decide (y.1 < a)), y.1 < a := fun y hy => by simpa using (List.mem_filter.1 hy).2
  have hhigh : ∀ y ∈ m.filter (fun y => decide (a + vs.length ≤ y.1)), a + vs.length ≤ y.1 :=
    fun y hy => by simpa using (List.mem_filter.1 hy).2
  unfold Memory.get Memory.setMany
  rw [get_append, get_append]
  by_cases h1 : x < a
  · rw [get_absent (m.filter fun y => decide (a + vs.length ≤ y.1)) x fun y hy => by have := hhigh y hy; omega,
      get_absent (Memory.fresh a vs) x fun y hy => by have := fresh_above a vs y hy; omega,
      get_filter m (fun y => decide (y.1 < a)) x fun v => decide_eq_true h1, if_neg (by omega)]
  · rw [get_absent (m.filter fun y => decide (y.1 < a)) x fun y hy => by have := hlow y hy; omega]
    by_cases h2 : x < a + vs.length
    · rw [get_absent (m.filter fun y => decide (a + vs.length ≤ y.1)) x fun y hy => by have := hhigh y hy; omega,
        get_fresh a vs x (by omega), if_pos ⟨by omega, h2⟩]
    · rw [get_absent (Memory.fresh a vs) x fun y hy => by have := fresh_bounds a vs y hy; omega,
        get_filter m (fun y => decide (a + vs.length ≤ y.1)) x fun v => decide_eq_true (by omega), if_neg (by omega)]

end Sys2Proof.Laws
end

