-- ==== Sys2Proof/Laws/State.lean ====
section
/-! SUPPORT. The fields of the state, of a group and of a slot after each shared update: one lemma for each field that the update leaves alone. -/

namespace Sys2Proof.Laws

open Sys2Proof Sys2Proof.Machine

/-! ## The state -/

@[simp] theorem modBlock_spans (x : State) (id : Nat) (f : Block → Block) : (x.modBlock id f).spans = x.spans := rfl
@[simp] theorem modBlock_ctxs (x : State) (id : Nat) (f : Block → Block) : (x.modBlock id f).ctxs = x.ctxs := rfl
@[simp] theorem modBlock_cores (x : State) (id : Nat) (f : Block → Block) : (x.modBlock id f).cores = x.cores := rfl
@[simp] theorem modBlock_mem (x : State) (id : Nat) (f : Block → Block) : (x.modBlock id f).mem = x.mem := rfl
@[simp] theorem modBlock_farMem (x : State) (id : Nat) (f : Block → Block) : (x.modBlock id f).farMem = x.farMem := rfl
@[simp] theorem modBlock_descs (x : State) (id : Nat) (f : Block → Block) : (x.modBlock id f).descs = x.descs := rfl
@[simp] theorem modBlock_poison (x : State) (id : Nat) (f : Block → Block) : (x.modBlock id f).poison = x.poison := rfl
@[simp] theorem modBlock_writers (x : State) (id : Nat) (f : Block → Block) : (x.modBlock id f).writers = x.writers := rfl
@[simp] theorem modBlock_rels (x : State) (id : Nat) (f : Block → Block) : (x.modBlock id f).rels = x.rels := rfl
@[simp] theorem modBlock_words (x : State) (id : Nat) (f : Block → Block) : (x.modBlock id f).words = x.words := rfl
@[simp] theorem modBlock_tlbs (x : State) (id : Nat) (f : Block → Block) : (x.modBlock id f).tlbs = x.tlbs := rfl
@[simp] theorem modBlock_pins (x : State) (id : Nat) (f : Block → Block) : (x.modBlock id f).pins = x.pins := rfl
@[simp] theorem modBlock_cycle (x : State) (id : Nat) (f : Block → Block) : (x.modBlock id f).cycle = x.cycle := rfl
@[simp] theorem modBlock_ns (x : State) (id : Nat) (f : Block → Block) : (x.modBlock id f).ns = x.ns := rfl
@[simp] theorem modBlock_grids (x : State) (id : Nat) (f : Block → Block) : (x.modBlock id f).grids = x.grids := rfl
@[simp] theorem modBlock_completed (x : State) (id : Nat) (f : Block → Block) : (x.modBlock id f).completed = x.completed := rfl
@[simp] theorem modBlock_first (x : State) (id : Nat) (f : Block → Block) : (x.modBlock id f).first = x.first := rfl
@[simp] theorem modBlock_holding (x : State) (id : Nat) (f : Block → Block) : (x.modBlock id f).holding = x.holding := rfl
@[simp] theorem modBlock_reserved (x : State) (id : Nat) (f : Block → Block) : (x.modBlock id f).reserved = x.reserved := rfl
@[simp] theorem modBlock_saveHeld (x : State) (id : Nat) (f : Block → Block) : (x.modBlock id f).saveHeld = x.saveHeld := rfl
@[simp] theorem modBlock_prevs (x : State) (id : Nat) (f : Block → Block) : (x.modBlock id f).prevs = x.prevs := rfl
@[simp] theorem modBlock_handles (x : State) (id : Nat) (f : Block → Block) : (x.modBlock id f).handles = x.handles := rfl
@[simp] theorem modBlock_msgs (x : State) (id : Nat) (f : Block → Block) : (x.modBlock id f).msgs = x.msgs := rfl
@[simp] theorem modBlock_pendH (x : State) (id : Nat) (f : Block → Block) : (x.modBlock id f).pendH = x.pendH := rfl
@[simp] theorem modBlock_armed (x : State) (id : Nat) (f : Block → Block) : (x.modBlock id f).armed = x.armed := rfl
@[simp] theorem modBlock_queues (x : State) (id : Nat) (f : Block → Block) : (x.modBlock id f).queues = x.queues := rfl
@[simp] theorem modBlock_rings (x : State) (id : Nat) (f : Block → Block) : (x.modBlock id f).rings = x.rings := rfl
@[simp] theorem modBlock_routes (x : State) (id : Nat) (f : Block → Block) : (x.modBlock id f).routes = x.routes := rfl
@[simp] theorem modBlock_conns (x : State) (id : Nat) (f : Block → Block) : (x.modBlock id f).conns = x.conns := rfl
@[simp] theorem modBlock_sent (x : State) (id : Nat) (f : Block → Block) : (x.modBlock id f).sent = x.sent := rfl
@[simp] theorem modBlock_outbox (x : State) (id : Nat) (f : Block → Block) : (x.modBlock id f).outbox = x.outbox := rfl
@[simp] theorem modBlock_ports (x : State) (id : Nat) (f : Block → Block) : (x.modBlock id f).ports = x.ports := rfl
@[simp] theorem modBlock_etherType (x : State) (id : Nat) (f : Block → Block) : (x.modBlock id f).etherType = x.etherType := rfl
@[simp] theorem modBlock_dropped (x : State) (id : Nat) (f : Block → Block) : (x.modBlock id f).dropped = x.dropped := rfl
@[simp] theorem modBlock_caps (x : State) (id : Nat) (f : Block → Block) : (x.modBlock id f).caps = x.caps := rfl
@[simp] theorem modBlock_viol (x : State) (id : Nat) (f : Block → Block) : (x.modBlock id f).viol = x.viol := rfl
@[simp] theorem modBlock_misalign (x : State) (id : Nat) (f : Block → Block) : (x.modBlock id f).misalign = x.misalign := rfl
@[simp] theorem modBlock_throttle (x : State) (id : Nat) (f : Block → Block) : (x.modBlock id f).throttle = x.throttle := rfl
@[simp] theorem modBlock_vgcmds (x : State) (id : Nat) (f : Block → Block) : (x.modBlock id f).vgcmds = x.vgcmds := rfl
@[simp] theorem modBlock_banks (x : State) (id : Nat) (f : Block → Block) : (x.modBlock id f).banks = x.banks := rfl
@[simp] theorem modBlock_binJobs (x : State) (id : Nat) (f : Block → Block) : (x.modBlock id f).binJobs = x.binJobs := rfl
@[simp] theorem modBlock_residues (x : State) (id : Nat) (f : Block → Block) : (x.modBlock id f).residues = x.residues := rfl
@[simp] theorem modBlock_parity (x : State) (id : Nat) (f : Block → Block) : (x.modBlock id f).parity = x.parity := rfl
@[simp] theorem modBlock_rollbacks (x : State) (id : Nat) (f : Block → Block) : (x.modBlock id f).rollbacks = x.rollbacks := rfl
@[simp] theorem modBlock_thermal (x : State) (id : Nat) (f : Block → Block) : (x.modBlock id f).thermal = x.thermal := rfl
@[simp] theorem modBlock_heat (x : State) (id : Nat) (f : Block → Block) : (x.modBlock id f).heat = x.heat := rfl
@[simp] theorem modBlock_errors (x : State) (id : Nat) (f : Block → Block) : (x.modBlock id f).errors = x.errors := rfl
@[simp] theorem modBlock_errNext (x : State) (id : Nat) (f : Block → Block) : (x.modBlock id f).errNext = x.errNext := rfl
@[simp] theorem modBlock_msix (x : State) (id : Nat) (f : Block → Block) : (x.modBlock id f).msix = x.msix := rfl
@[simp] theorem modBlock_contrail (x : State) (id : Nat) (f : Block → Block) : (x.modBlock id f).contrail = x.contrail := rfl
@[simp] theorem modBlock_mailbox (x : State) (id : Nat) (f : Block → Block) : (x.modBlock id f).mailbox = x.mailbox := rfl
@[simp] theorem modBlock_fuses (x : State) (id : Nat) (f : Block → Block) : (x.modBlock id f).fuses = x.fuses := rfl
@[simp] theorem modBlock_clusterMap (x : State) (id : Nat) (f : Block → Block) : (x.modBlock id f).clusterMap = x.clusterMap := rfl
@[simp] theorem modBlock_hostClock (x : State) (id : Nat) (f : Block → Block) : (x.modBlock id f).hostClock = x.hostClock := rfl
@[simp] theorem modBlock_reqs (x : State) (id : Nat) (f : Block → Block) : (x.modBlock id f).reqs = x.reqs := rfl
@[simp] theorem modBlock_resets (x : State) (id : Nat) (f : Block → Block) : (x.modBlock id f).resets = x.resets := rfl
@[simp] theorem modBlock_announced (x : State) (id : Nat) (f : Block → Block) : (x.modBlock id f).announced = x.announced := rfl
@[simp] theorem modBlock_frozen (x : State) (id : Nat) (f : Block → Block) : (x.modBlock id f).frozen = x.frozen := rfl
@[simp] theorem modBlock_failed (x : State) (id : Nat) (f : Block → Block) : (x.modBlock id f).failed = x.failed := rfl
@[simp] theorem modBlock_pkg (x : State) (id : Nat) (f : Block → Block) : (x.modBlock id f).pkg = x.pkg := rfl
@[simp] theorem modBlock_cur (x : State) (id : Nat) (f : Block → Block) : (x.modBlock id f).cur = x.cur := rfl
@[simp] theorem modBlock_inputs (x : State) (id : Nat) (f : Block → Block) : (x.modBlock id f).inputs = x.inputs := rfl
@[simp] theorem modBlock_tick (x : State) (id : Nat) (f : Block → Block) : (x.modBlock id f).tick = x.tick := rfl
@[simp] theorem modBlock_nextAgent (x : State) (id : Nat) (f : Block → Block) : (x.modBlock id f).nextAgent = x.nextAgent := rfl
@[simp] theorem modBlock_nextId (x : State) (id : Nat) (f : Block → Block) : (x.modBlock id f).nextId = x.nextId := rfl

@[simp] theorem modGroup_spans (x : State) (g : GRef) (f : Group → Group) : (x.modGroup g f).spans = x.spans := rfl
@[simp] theorem modGroup_ctxs (x : State) (g : GRef) (f : Group → Group) : (x.modGroup g f).ctxs = x.ctxs := rfl
@[simp] theorem modGroup_cores (x : State) (g : GRef) (f : Group → Group) : (x.modGroup g f).cores = x.cores := rfl
@[simp] theorem modGroup_mem (x : State) (g : GRef) (f : Group → Group) : (x.modGroup g f).mem = x.mem := rfl
@[simp] theorem modGroup_farMem (x : State) (g : GRef) (f : Group → Group) : (x.modGroup g f).farMem = x.farMem := rfl
@[simp] theorem modGroup_descs (x : State) (g : GRef) (f : Group → Group) : (x.modGroup g f).descs = x.descs := rfl
@[simp] theorem modGroup_poison (x : State) (g : GRef) (f : Group → Group) : (x.modGroup g f).poison = x.poison := rfl
@[simp] theorem modGroup_writers (x : State) (g : GRef) (f : Group → Group) : (x.modGroup g f).writers = x.writers := rfl
@[simp] theorem modGroup_rels (x : State) (g : GRef) (f : Group → Group) : (x.modGroup g f).rels = x.rels := rfl
@[simp] theorem modGroup_words (x : State) (g : GRef) (f : Group → Group) : (x.modGroup g f).words = x.words := rfl
@[simp] theorem modGroup_tlbs (x : State) (g : GRef) (f : Group → Group) : (x.modGroup g f).tlbs = x.tlbs := rfl
@[simp] theorem modGroup_pins (x : State) (g : GRef) (f : Group → Group) : (x.modGroup g f).pins = x.pins := rfl
@[simp] theorem modGroup_cycle (x : State) (g : GRef) (f : Group → Group) : (x.modGroup g f).cycle = x.cycle := rfl
@[simp] theorem modGroup_ns (x : State) (g : GRef) (f : Group → Group) : (x.modGroup g f).ns = x.ns := rfl
@[simp] theorem modGroup_grids (x : State) (g : GRef) (f : Group → Group) : (x.modGroup g f).grids = x.grids := rfl
@[simp] theorem modGroup_completed (x : State) (g : GRef) (f : Group → Group) : (x.modGroup g f).completed = x.completed := rfl
@[simp] theorem modGroup_first (x : State) (g : GRef) (f : Group → Group) : (x.modGroup g f).first = x.first := rfl
@[simp] theorem modGroup_holding (x : State) (g : GRef) (f : Group → Group) : (x.modGroup g f).holding = x.holding := rfl
@[simp] theorem modGroup_reserved (x : State) (g : GRef) (f : Group → Group) : (x.modGroup g f).reserved = x.reserved := rfl
@[simp] theorem modGroup_saveHeld (x : State) (g : GRef) (f : Group → Group) : (x.modGroup g f).saveHeld = x.saveHeld := rfl
@[simp] theorem modGroup_prevs (x : State) (g : GRef) (f : Group → Group) : (x.modGroup g f).prevs = x.prevs := rfl
@[simp] theorem modGroup_handles (x : State) (g : GRef) (f : Group → Group) : (x.modGroup g f).handles = x.handles := rfl
@[simp] theorem modGroup_msgs (x : State) (g : GRef) (f : Group → Group) : (x.modGroup g f).msgs = x.msgs := rfl
@[simp] theorem modGroup_pendH (x : State) (g : GRef) (f : Group → Group) : (x.modGroup g f).pendH = x.pendH := rfl
@[simp] theorem modGroup_armed (x : State) (g : GRef) (f : Group → Group) : (x.modGroup g f).armed = x.armed := rfl
@[simp] theorem modGroup_queues (x : State) (g : GRef) (f : Group → Group) : (x.modGroup g f).queues = x.queues := rfl
@[simp] theorem modGroup_rings (x : State) (g : GRef) (f : Group → Group) : (x.modGroup g f).rings = x.rings := rfl
@[simp] theorem modGroup_routes (x : State) (g : GRef) (f : Group → Group) : (x.modGroup g f).routes = x.routes := rfl
@[simp] theorem modGroup_conns (x : State) (g : GRef) (f : Group → Group) : (x.modGroup g f).conns = x.conns := rfl
@[simp] theorem modGroup_sent (x : State) (g : GRef) (f : Group → Group) : (x.modGroup g f).sent = x.sent := rfl
@[simp] theorem modGroup_outbox (x : State) (g : GRef) (f : Group → Group) : (x.modGroup g f).outbox = x.outbox := rfl
@[simp] theorem modGroup_ports (x : State) (g : GRef) (f : Group → Group) : (x.modGroup g f).ports = x.ports := rfl
@[simp] theorem modGroup_etherType (x : State) (g : GRef) (f : Group → Group) : (x.modGroup g f).etherType = x.etherType := rfl
@[simp] theorem modGroup_dropped (x : State) (g : GRef) (f : Group → Group) : (x.modGroup g f).dropped = x.dropped := rfl
@[simp] theorem modGroup_caps (x : State) (g : GRef) (f : Group → Group) : (x.modGroup g f).caps = x.caps := rfl
@[simp] theorem modGroup_viol (x : State) (g : GRef) (f : Group → Group) : (x.modGroup g f).viol = x.viol := rfl
@[simp] theorem modGroup_misalign (x : State) (g : GRef) (f : Group → Group) : (x.modGroup g f).misalign = x.misalign := rfl
@[simp] theorem modGroup_throttle (x : State) (g : GRef) (f : Group → Group) : (x.modGroup g f).throttle = x.throttle := rfl
@[simp] theorem modGroup_vgcmds (x : State) (g : GRef) (f : Group → Group) : (x.modGroup g f).vgcmds = x.vgcmds := rfl
@[simp] theorem modGroup_banks (x : State) (g : GRef) (f : Group → Group) : (x.modGroup g f).banks = x.banks := rfl
@[simp] theorem modGroup_binJobs (x : State) (g : GRef) (f : Group → Group) : (x.modGroup g f).binJobs = x.binJobs := rfl
@[simp] theorem modGroup_residues (x : State) (g : GRef) (f : Group → Group) : (x.modGroup g f).residues = x.residues := rfl
@[simp] theorem modGroup_parity (x : State) (g : GRef) (f : Group → Group) : (x.modGroup g f).parity = x.parity := rfl
@[simp] theorem modGroup_rollbacks (x : State) (g : GRef) (f : Group → Group) : (x.modGroup g f).rollbacks = x.rollbacks := rfl
@[simp] theorem modGroup_thermal (x : State) (g : GRef) (f : Group → Group) : (x.modGroup g f).thermal = x.thermal := rfl
@[simp] theorem modGroup_heat (x : State) (g : GRef) (f : Group → Group) : (x.modGroup g f).heat = x.heat := rfl
@[simp] theorem modGroup_errors (x : State) (g : GRef) (f : Group → Group) : (x.modGroup g f).errors = x.errors := rfl
@[simp] theorem modGroup_errNext (x : State) (g : GRef) (f : Group → Group) : (x.modGroup g f).errNext = x.errNext := rfl
@[simp] theorem modGroup_msix (x : State) (g : GRef) (f : Group → Group) : (x.modGroup g f).msix = x.msix := rfl
@[simp] theorem modGroup_contrail (x : State) (g : GRef) (f : Group → Group) : (x.modGroup g f).contrail = x.contrail := rfl
@[simp] theorem modGroup_mailbox (x : State) (g : GRef) (f : Group → Group) : (x.modGroup g f).mailbox = x.mailbox := rfl
@[simp] theorem modGroup_fuses (x : State) (g : GRef) (f : Group → Group) : (x.modGroup g f).fuses = x.fuses := rfl
@[simp] theorem modGroup_clusterMap (x : State) (g : GRef) (f : Group → Group) : (x.modGroup g f).clusterMap = x.clusterMap := rfl
@[simp] theorem modGroup_hostClock (x : State) (g : GRef) (f : Group → Group) : (x.modGroup g f).hostClock = x.hostClock := rfl
@[simp] theorem modGroup_reqs (x : State) (g : GRef) (f : Group → Group) : (x.modGroup g f).reqs = x.reqs := rfl
@[simp] theorem modGroup_resets (x : State) (g : GRef) (f : Group → Group) : (x.modGroup g f).resets = x.resets := rfl
@[simp] theorem modGroup_announced (x : State) (g : GRef) (f : Group → Group) : (x.modGroup g f).announced = x.announced := rfl
@[simp] theorem modGroup_frozen (x : State) (g : GRef) (f : Group → Group) : (x.modGroup g f).frozen = x.frozen := rfl
@[simp] theorem modGroup_failed (x : State) (g : GRef) (f : Group → Group) : (x.modGroup g f).failed = x.failed := rfl
@[simp] theorem modGroup_pkg (x : State) (g : GRef) (f : Group → Group) : (x.modGroup g f).pkg = x.pkg := rfl
@[simp] theorem modGroup_cur (x : State) (g : GRef) (f : Group → Group) : (x.modGroup g f).cur = x.cur := rfl
@[simp] theorem modGroup_inputs (x : State) (g : GRef) (f : Group → Group) : (x.modGroup g f).inputs = x.inputs := rfl
@[simp] theorem modGroup_tick (x : State) (g : GRef) (f : Group → Group) : (x.modGroup g f).tick = x.tick := rfl
@[simp] theorem modGroup_nextAgent (x : State) (g : GRef) (f : Group → Group) : (x.modGroup g f).nextAgent = x.nextAgent := rfl
@[simp] theorem modGroup_nextId (x : State) (g : GRef) (f : Group → Group) : (x.modGroup g f).nextId = x.nextId := rfl

@[simp] theorem setGroup_spans (x : State) (g : GRef) (v : Group) : (x.setGroup g v).spans = x.spans := rfl
@[simp] theorem setGroup_ctxs (x : State) (g : GRef) (v : Group) : (x.setGroup g v).ctxs = x.ctxs := rfl
@[simp] theorem setGroup_cores (x : State) (g : GRef) (v : Group) : (x.setGroup g v).cores = x.cores := rfl
@[simp] theorem setGroup_mem (x : State) (g : GRef) (v : Group) : (x.setGroup g v).mem = x.mem := rfl
@[simp] theorem setGroup_farMem (x : State) (g : GRef) (v : Group) : (x.setGroup g v).farMem = x.farMem := rfl
@[simp] theorem setGroup_descs (x : State) (g : GRef) (v : Group) : (x.setGroup g v).descs = x.descs := rfl
@[simp] theorem setGroup_poison (x : State) (g : GRef) (v : Group) : (x.setGroup g v).poison = x.poison := rfl
@[simp] theorem setGroup_writers (x : State) (g : GRef) (v : Group) : (x.setGroup g v).writers = x.writers := rfl
@[simp] theorem setGroup_rels (x : State) (g : GRef) (v : Group) : (x.setGroup g v).rels = x.rels := rfl
@[simp] theorem setGroup_words (x : State) (g : GRef) (v : Group) : (x.setGroup g v).words = x.words := rfl
@[simp] theorem setGroup_tlbs (x : State) (g : GRef) (v : Group) : (x.setGroup g v).tlbs = x.tlbs := rfl
@[simp] theorem setGroup_pins (x : State) (g : GRef) (v : Group) : (x.setGroup g v).pins = x.pins := rfl
@[simp] theorem setGroup_cycle (x : State) (g : GRef) (v : Group) : (x.setGroup g v).cycle = x.cycle := rfl
@[simp] theorem setGroup_ns (x : State) (g : GRef) (v : Group) : (x.setGroup g v).ns = x.ns := rfl
@[simp] theorem setGroup_grids (x : State) (g : GRef) (v : Group) : (x.setGroup g v).grids = x.grids := rfl
@[simp] theorem setGroup_completed (x : State) (g : GRef) (v : Group) : (x.setGroup g v).completed = x.completed := rfl
@[simp] theorem setGroup_first (x : State) (g : GRef) (v : Group) : (x.setGroup g v).first = x.first := rfl
@[simp] theorem setGroup_holding (x : State) (g : GRef) (v : Group) : (x.setGroup g v).holding = x.holding := rfl
@[simp] theorem setGroup_reserved (x : State) (g : GRef) (v : Group) : (x.setGroup g v).reserved = x.reserved := rfl
@[simp] theorem setGroup_saveHeld (x : State) (g : GRef) (v : Group) : (x.setGroup g v).saveHeld = x.saveHeld := rfl
@[simp] theorem setGroup_prevs (x : State) (g : GRef) (v : Group) : (x.setGroup g v).prevs = x.prevs := rfl
@[simp] theorem setGroup_handles (x : State) (g : GRef) (v : Group) : (x.setGroup g v).handles = x.handles := rfl
@[simp] theorem setGroup_msgs (x : State) (g : GRef) (v : Group) : (x.setGroup g v).msgs = x.msgs := rfl
@[simp] theorem setGroup_pendH (x : State) (g : GRef) (v : Group) : (x.setGroup g v).pendH = x.pendH := rfl
@[simp] theorem setGroup_armed (x : State) (g : GRef) (v : Group) : (x.setGroup g v).armed = x.armed := rfl
@[simp] theorem setGroup_queues (x : State) (g : GRef) (v : Group) : (x.setGroup g v).queues = x.queues := rfl
@[simp] theorem setGroup_rings (x : State) (g : GRef) (v : Group) : (x.setGroup g v).rings = x.rings := rfl
@[simp] theorem setGroup_routes (x : State) (g : GRef) (v : Group) : (x.setGroup g v).routes = x.routes := rfl
@[simp] theorem setGroup_conns (x : State) (g : GRef) (v : Group) : (x.setGroup g v).conns = x.conns := rfl
@[simp] theorem setGroup_sent (x : State) (g : GRef) (v : Group) : (x.setGroup g v).sent = x.sent := rfl
@[simp] theorem setGroup_outbox (x : State) (g : GRef) (v : Group) : (x.setGroup g v).outbox = x.outbox := rfl
@[simp] theorem setGroup_ports (x : State) (g : GRef) (v : Group) : (x.setGroup g v).ports = x.ports := rfl
@[simp] theorem setGroup_etherType (x : State) (g : GRef) (v : Group) : (x.setGroup g v).etherType = x.etherType := rfl
@[simp] theorem setGroup_dropped (x : State) (g : GRef) (v : Group) : (x.setGroup g v).dropped = x.dropped := rfl
@[simp] theorem setGroup_caps (x : State) (g : GRef) (v : Group) : (x.setGroup g v).caps = x.caps := rfl
@[simp] theorem setGroup_viol (x : State) (g : GRef) (v : Group) : (x.setGroup g v).viol = x.viol := rfl
@[simp] theorem setGroup_misalign (x : State) (g : GRef) (v : Group) : (x.setGroup g v).misalign = x.misalign := rfl
@[simp] theorem setGroup_throttle (x : State) (g : GRef) (v : Group) : (x.setGroup g v).throttle = x.throttle := rfl
@[simp] theorem setGroup_vgcmds (x : State) (g : GRef) (v : Group) : (x.setGroup g v).vgcmds = x.vgcmds := rfl
@[simp] theorem setGroup_banks (x : State) (g : GRef) (v : Group) : (x.setGroup g v).banks = x.banks := rfl
@[simp] theorem setGroup_binJobs (x : State) (g : GRef) (v : Group) : (x.setGroup g v).binJobs = x.binJobs := rfl
@[simp] theorem setGroup_residues (x : State) (g : GRef) (v : Group) : (x.setGroup g v).residues = x.residues := rfl
@[simp] theorem setGroup_parity (x : State) (g : GRef) (v : Group) : (x.setGroup g v).parity = x.parity := rfl
@[simp] theorem setGroup_rollbacks (x : State) (g : GRef) (v : Group) : (x.setGroup g v).rollbacks = x.rollbacks := rfl
@[simp] theorem setGroup_thermal (x : State) (g : GRef) (v : Group) : (x.setGroup g v).thermal = x.thermal := rfl
@[simp] theorem setGroup_heat (x : State) (g : GRef) (v : Group) : (x.setGroup g v).heat = x.heat := rfl
@[simp] theorem setGroup_errors (x : State) (g : GRef) (v : Group) : (x.setGroup g v).errors = x.errors := rfl
@[simp] theorem setGroup_errNext (x : State) (g : GRef) (v : Group) : (x.setGroup g v).errNext = x.errNext := rfl
@[simp] theorem setGroup_msix (x : State) (g : GRef) (v : Group) : (x.setGroup g v).msix = x.msix := rfl
@[simp] theorem setGroup_contrail (x : State) (g : GRef) (v : Group) : (x.setGroup g v).contrail = x.contrail := rfl
@[simp] theorem setGroup_mailbox (x : State) (g : GRef) (v : Group) : (x.setGroup g v).mailbox = x.mailbox := rfl
@[simp] theorem setGroup_fuses (x : State) (g : GRef) (v : Group) : (x.setGroup g v).fuses = x.fuses := rfl
@[simp] theorem setGroup_clusterMap (x : State) (g : GRef) (v : Group) : (x.setGroup g v).clusterMap = x.clusterMap := rfl
@[simp] theorem setGroup_hostClock (x : State) (g : GRef) (v : Group) : (x.setGroup g v).hostClock = x.hostClock := rfl
@[simp] theorem setGroup_reqs (x : State) (g : GRef) (v : Group) : (x.setGroup g v).reqs = x.reqs := rfl
@[simp] theorem setGroup_resets (x : State) (g : GRef) (v : Group) : (x.setGroup g v).resets = x.resets := rfl
@[simp] theorem setGroup_announced (x : State) (g : GRef) (v : Group) : (x.setGroup g v).announced = x.announced := rfl
@[simp] theorem setGroup_frozen (x : State) (g : GRef) (v : Group) : (x.setGroup g v).frozen = x.frozen := rfl
@[simp] theorem setGroup_failed (x : State) (g : GRef) (v : Group) : (x.setGroup g v).failed = x.failed := rfl
@[simp] theorem setGroup_pkg (x : State) (g : GRef) (v : Group) : (x.setGroup g v).pkg = x.pkg := rfl
@[simp] theorem setGroup_cur (x : State) (g : GRef) (v : Group) : (x.setGroup g v).cur = x.cur := rfl
@[simp] theorem setGroup_inputs (x : State) (g : GRef) (v : Group) : (x.setGroup g v).inputs = x.inputs := rfl
@[simp] theorem setGroup_tick (x : State) (g : GRef) (v : Group) : (x.setGroup g v).tick = x.tick := rfl
@[simp] theorem setGroup_nextAgent (x : State) (g : GRef) (v : Group) : (x.setGroup g v).nextAgent = x.nextAgent := rfl
@[simp] theorem setGroup_nextId (x : State) (g : GRef) (v : Group) : (x.setGroup g v).nextId = x.nextId := rfl

@[simp] theorem modCtx_blocks (x : State) (n : Nat) (f : Context → Context) : (x.modCtx n f).blocks = x.blocks := rfl
@[simp] theorem modCtx_spans (x : State) (n : Nat) (f : Context → Context) : (x.modCtx n f).spans = x.spans := rfl
@[simp] theorem modCtx_cores (x : State) (n : Nat) (f : Context → Context) : (x.modCtx n f).cores = x.cores := rfl
@[simp] theorem modCtx_mem (x : State) (n : Nat) (f : Context → Context) : (x.modCtx n f).mem = x.mem := rfl
@[simp] theorem modCtx_farMem (x : State) (n : Nat) (f : Context → Context) : (x.modCtx n f).farMem = x.farMem := rfl
@[simp] theorem modCtx_descs (x : State) (n : Nat) (f : Context → Context) : (x.modCtx n f).descs = x.descs := rfl
@[simp] theorem modCtx_poison (x : State) (n : Nat) (f : Context → Context) : (x.modCtx n f).poison = x.poison := rfl
@[simp] theorem modCtx_writers (x : State) (n : Nat) (f : Context → Context) : (x.modCtx n f).writers = x.writers := rfl
@[simp] theorem modCtx_rels (x : State) (n : Nat) (f : Context → Context) : (x.modCtx n f).rels = x.rels := rfl
@[simp] theorem modCtx_words (x : State) (n : Nat) (f : Context → Context) : (x.modCtx n f).words = x.words := rfl
@[simp] theorem modCtx_tlbs (x : State) (n : Nat) (f : Context → Context) : (x.modCtx n f).tlbs = x.tlbs := rfl
@[simp] theorem modCtx_pins (x : State) (n : Nat) (f : Context → Context) : (x.modCtx n f).pins = x.pins := rfl
@[simp] theorem modCtx_cycle (x : State) (n : Nat) (f : Context → Context) : (x.modCtx n f).cycle = x.cycle := rfl
@[simp] theorem modCtx_ns (x : State) (n : Nat) (f : Context → Context) : (x.modCtx n f).ns = x.ns := rfl
@[simp] theorem modCtx_grids (x : State) (n : Nat) (f : Context → Context) : (x.modCtx n f).grids = x.grids := rfl
@[simp] theorem modCtx_completed (x : State) (n : Nat) (f : Context → Context) : (x.modCtx n f).completed = x.completed := rfl
@[simp] theorem modCtx_first (x : State) (n : Nat) (f : Context → Context) : (x.modCtx n f).first = x.first := rfl
@[simp] theorem modCtx_holding (x : State) (n : Nat) (f : Context → Context) : (x.modCtx n f).holding = x.holding := rfl
@[simp] theorem modCtx_reserved (x : State) (n : Nat) (f : Context → Context) : (x.modCtx n f).reserved = x.reserved := rfl
@[simp] theorem modCtx_saveHeld (x : State) (n : Nat) (f : Context → Context) : (x.modCtx n f).saveHeld = x.saveHeld := rfl
@[simp] theorem modCtx_prevs (x : State) (n : Nat) (f : Context → Context) : (x.modCtx n f).prevs = x.prevs := rfl
@[simp] theorem modCtx_handles (x : State) (n : Nat) (f : Context → Context) : (x.modCtx n f).handles = x.handles := rfl
@[simp] theorem modCtx_msgs (x : State) (n : Nat) (f : Context → Context) : (x.modCtx n f).msgs = x.msgs := rfl
@[simp] theorem modCtx_pendH (x : State) (n : Nat) (f : Context → Context) : (x.modCtx n f).pendH = x.pendH := rfl
@[simp] theorem modCtx_armed (x : State) (n : Nat) (f : Context → Context) : (x.modCtx n f).armed = x.armed := rfl
@[simp] theorem modCtx_queues (x : State) (n : Nat) (f : Context → Context) : (x.modCtx n f).queues = x.queues := rfl
@[simp] theorem modCtx_rings (x : State) (n : Nat) (f : Context → Context) : (x.modCtx n f).rings = x.rings := rfl
@[simp] theorem modCtx_routes (x : State) (n : Nat) (f : Context → Context) : (x.modCtx n f).routes = x.routes := rfl
@[simp] theorem modCtx_conns (x : State) (n : Nat) (f : Context → Context) : (x.modCtx n f).conns = x.conns := rfl
@[simp] theorem modCtx_sent (x : State) (n : Nat) (f : Context → Context) : (x.modCtx n f).sent = x.sent := rfl
@[simp] theorem modCtx_outbox (x : State) (n : Nat) (f : Context → Context) : (x.modCtx n f).outbox = x.outbox := rfl
@[simp] theorem modCtx_ports (x : State) (n : Nat) (f : Context → Context) : (x.modCtx n f).ports = x.ports := rfl
@[simp] theorem modCtx_etherType (x : State) (n : Nat) (f : Context → Context) : (x.modCtx n f).etherType = x.etherType := rfl
@[simp] theorem modCtx_dropped (x : State) (n : Nat) (f : Context → Context) : (x.modCtx n f).dropped = x.dropped := rfl
@[simp] theorem modCtx_caps (x : State) (n : Nat) (f : Context → Context) : (x.modCtx n f).caps = x.caps := rfl
@[simp] theorem modCtx_viol (x : State) (n : Nat) (f : Context → Context) : (x.modCtx n f).viol = x.viol := rfl
@[simp] theorem modCtx_misalign (x : State) (n : Nat) (f : Context → Context) : (x.modCtx n f).misalign = x.misalign := rfl
@[simp] theorem modCtx_throttle (x : State) (n : Nat) (f : Context → Context) : (x.modCtx n f).throttle = x.throttle := rfl
@[simp] theorem modCtx_vgcmds (x : State) (n : Nat) (f : Context → Context) : (x.modCtx n f).vgcmds = x.vgcmds := rfl
@[simp] theorem modCtx_banks (x : State) (n : Nat) (f : Context → Context) : (x.modCtx n f).banks = x.banks := rfl
@[simp] theorem modCtx_binJobs (x : State) (n : Nat) (f : Context → Context) : (x.modCtx n f).binJobs = x.binJobs := rfl
@[simp] theorem modCtx_residues (x : State) (n : Nat) (f : Context → Context) : (x.modCtx n f).residues = x.residues := rfl
@[simp] theorem modCtx_parity (x : State) (n : Nat) (f : Context → Context) : (x.modCtx n f).parity = x.parity := rfl
@[simp] theorem modCtx_rollbacks (x : State) (n : Nat) (f : Context → Context) : (x.modCtx n f).rollbacks = x.rollbacks := rfl
@[simp] theorem modCtx_thermal (x : State) (n : Nat) (f : Context → Context) : (x.modCtx n f).thermal = x.thermal := rfl
@[simp] theorem modCtx_heat (x : State) (n : Nat) (f : Context → Context) : (x.modCtx n f).heat = x.heat := rfl
@[simp] theorem modCtx_errors (x : State) (n : Nat) (f : Context → Context) : (x.modCtx n f).errors = x.errors := rfl
@[simp] theorem modCtx_errNext (x : State) (n : Nat) (f : Context → Context) : (x.modCtx n f).errNext = x.errNext := rfl
@[simp] theorem modCtx_msix (x : State) (n : Nat) (f : Context → Context) : (x.modCtx n f).msix = x.msix := rfl
@[simp] theorem modCtx_contrail (x : State) (n : Nat) (f : Context → Context) : (x.modCtx n f).contrail = x.contrail := rfl
@[simp] theorem modCtx_mailbox (x : State) (n : Nat) (f : Context → Context) : (x.modCtx n f).mailbox = x.mailbox := rfl
@[simp] theorem modCtx_fuses (x : State) (n : Nat) (f : Context → Context) : (x.modCtx n f).fuses = x.fuses := rfl
@[simp] theorem modCtx_clusterMap (x : State) (n : Nat) (f : Context → Context) : (x.modCtx n f).clusterMap = x.clusterMap := rfl
@[simp] theorem modCtx_hostClock (x : State) (n : Nat) (f : Context → Context) : (x.modCtx n f).hostClock = x.hostClock := rfl
@[simp] theorem modCtx_reqs (x : State) (n : Nat) (f : Context → Context) : (x.modCtx n f).reqs = x.reqs := rfl
@[simp] theorem modCtx_resets (x : State) (n : Nat) (f : Context → Context) : (x.modCtx n f).resets = x.resets := rfl
@[simp] theorem modCtx_announced (x : State) (n : Nat) (f : Context → Context) : (x.modCtx n f).announced = x.announced := rfl
@[simp] theorem modCtx_frozen (x : State) (n : Nat) (f : Context → Context) : (x.modCtx n f).frozen = x.frozen := rfl
@[simp] theorem modCtx_failed (x : State) (n : Nat) (f : Context → Context) : (x.modCtx n f).failed = x.failed := rfl
@[simp] theorem modCtx_pkg (x : State) (n : Nat) (f : Context → Context) : (x.modCtx n f).pkg = x.pkg := rfl
@[simp] theorem modCtx_cur (x : State) (n : Nat) (f : Context → Context) : (x.modCtx n f).cur = x.cur := rfl
@[simp] theorem modCtx_inputs (x : State) (n : Nat) (f : Context → Context) : (x.modCtx n f).inputs = x.inputs := rfl
@[simp] theorem modCtx_tick (x : State) (n : Nat) (f : Context → Context) : (x.modCtx n f).tick = x.tick := rfl
@[simp] theorem modCtx_nextAgent (x : State) (n : Nat) (f : Context → Context) : (x.modCtx n f).nextAgent = x.nextAgent := rfl
@[simp] theorem modCtx_nextId (x : State) (n : Nat) (f : Context → Context) : (x.modCtx n f).nextId = x.nextId := rfl

@[simp] theorem modGrid_blocks (x : State) (n : Nat) (f : Grid → Grid) : (x.modGrid n f).blocks = x.blocks := rfl
@[simp] theorem modGrid_spans (x : State) (n : Nat) (f : Grid → Grid) : (x.modGrid n f).spans = x.spans := rfl
@[simp] theorem modGrid_ctxs (x : State) (n : Nat) (f : Grid → Grid) : (x.modGrid n f).ctxs = x.ctxs := rfl
@[simp] theorem modGrid_cores (x : State) (n : Nat) (f : Grid → Grid) : (x.modGrid n f).cores = x.cores := rfl
@[simp] theorem modGrid_mem (x : State) (n : Nat) (f : Grid → Grid) : (x.modGrid n f).mem = x.mem := rfl
@[simp] theorem modGrid_farMem (x : State) (n : Nat) (f : Grid → Grid) : (x.modGrid n f).farMem = x.farMem := rfl
@[simp] theorem modGrid_descs (x : State) (n : Nat) (f : Grid → Grid) : (x.modGrid n f).descs = x.descs := rfl
@[simp] theorem modGrid_poison (x : State) (n : Nat) (f : Grid → Grid) : (x.modGrid n f).poison = x.poison := rfl
@[simp] theorem modGrid_writers (x : State) (n : Nat) (f : Grid → Grid) : (x.modGrid n f).writers = x.writers := rfl
@[simp] theorem modGrid_rels (x : State) (n : Nat) (f : Grid → Grid) : (x.modGrid n f).rels = x.rels := rfl
@[simp] theorem modGrid_words (x : State) (n : Nat) (f : Grid → Grid) : (x.modGrid n f).words = x.words := rfl
@[simp] theorem modGrid_tlbs (x : State) (n : Nat) (f : Grid → Grid) : (x.modGrid n f).tlbs = x.tlbs := rfl
@[simp] theorem modGrid_pins (x : State) (n : Nat) (f : Grid → Grid) : (x.modGrid n f).pins = x.pins := rfl
@[simp] theorem modGrid_cycle (x : State) (n : Nat) (f : Grid → Grid) : (x.modGrid n f).cycle = x.cycle := rfl
@[simp] theorem modGrid_ns (x : State) (n : Nat) (f : Grid → Grid) : (x.modGrid n f).ns = x.ns := rfl
@[simp] theorem modGrid_prevs (x : State) (n : Nat) (f : Grid → Grid) : (x.modGrid n f).prevs = x.prevs := rfl
@[simp] theorem modGrid_handles (x : State) (n : Nat) (f : Grid → Grid) : (x.modGrid n f).handles = x.handles := rfl
@[simp] theorem modGrid_msgs (x : State) (n : Nat) (f : Grid → Grid) : (x.modGrid n f).msgs = x.msgs := rfl
@[simp] theorem modGrid_pendH (x : State) (n : Nat) (f : Grid → Grid) : (x.modGrid n f).pendH = x.pendH := rfl
@[simp] theorem modGrid_armed (x : State) (n : Nat) (f : Grid → Grid) : (x.modGrid n f).armed = x.armed := rfl
@[simp] theorem modGrid_queues (x : State) (n : Nat) (f : Grid → Grid) : (x.modGrid n f).queues = x.queues := rfl
@[simp] theorem modGrid_rings (x : State) (n : Nat) (f : Grid → Grid) : (x.modGrid n f).rings = x.rings := rfl
@[simp] theorem modGrid_routes (x : State) (n : Nat) (f : Grid → Grid) : (x.modGrid n f).routes = x.routes := rfl
@[simp] theorem modGrid_conns (x : State) (n : Nat) (f : Grid → Grid) : (x.modGrid n f).conns = x.conns := rfl
@[simp] theorem modGrid_sent (x : State) (n : Nat) (f : Grid → Grid) : (x.modGrid n f).sent = x.sent := rfl
@[simp] theorem modGrid_outbox (x : State) (n : Nat) (f : Grid → Grid) : (x.modGrid n f).outbox = x.outbox := rfl
@[simp] theorem modGrid_ports (x : State) (n : Nat) (f : Grid → Grid) : (x.modGrid n f).ports = x.ports := rfl
@[simp] theorem modGrid_etherType (x : State) (n : Nat) (f : Grid → Grid) : (x.modGrid n f).etherType = x.etherType := rfl
@[simp] theorem modGrid_dropped (x : State) (n : Nat) (f : Grid → Grid) : (x.modGrid n f).dropped = x.dropped := rfl
@[simp] theorem modGrid_caps (x : State) (n : Nat) (f : Grid → Grid) : (x.modGrid n f).caps = x.caps := rfl
@[simp] theorem modGrid_viol (x : State) (n : Nat) (f : Grid → Grid) : (x.modGrid n f).viol = x.viol := rfl
@[simp] theorem modGrid_misalign (x : State) (n : Nat) (f : Grid → Grid) : (x.modGrid n f).misalign = x.misalign := rfl
@[simp] theorem modGrid_throttle (x : State) (n : Nat) (f : Grid → Grid) : (x.modGrid n f).throttle = x.throttle := rfl
@[simp] theorem modGrid_vgcmds (x : State) (n : Nat) (f : Grid → Grid) : (x.modGrid n f).vgcmds = x.vgcmds := rfl
@[simp] theorem modGrid_banks (x : State) (n : Nat) (f : Grid → Grid) : (x.modGrid n f).banks = x.banks := rfl
@[simp] theorem modGrid_binJobs (x : State) (n : Nat) (f : Grid → Grid) : (x.modGrid n f).binJobs = x.binJobs := rfl
@[simp] theorem modGrid_residues (x : State) (n : Nat) (f : Grid → Grid) : (x.modGrid n f).residues = x.residues := rfl
@[simp] theorem modGrid_parity (x : State) (n : Nat) (f : Grid → Grid) : (x.modGrid n f).parity = x.parity := rfl
@[simp] theorem modGrid_rollbacks (x : State) (n : Nat) (f : Grid → Grid) : (x.modGrid n f).rollbacks = x.rollbacks := rfl
@[simp] theorem modGrid_thermal (x : State) (n : Nat) (f : Grid → Grid) : (x.modGrid n f).thermal = x.thermal := rfl
@[simp] theorem modGrid_heat (x : State) (n : Nat) (f : Grid → Grid) : (x.modGrid n f).heat = x.heat := rfl
@[simp] theorem modGrid_errors (x : State) (n : Nat) (f : Grid → Grid) : (x.modGrid n f).errors = x.errors := rfl
@[simp] theorem modGrid_errNext (x : State) (n : Nat) (f : Grid → Grid) : (x.modGrid n f).errNext = x.errNext := rfl
@[simp] theorem modGrid_msix (x : State) (n : Nat) (f : Grid → Grid) : (x.modGrid n f).msix = x.msix := rfl
@[simp] theorem modGrid_contrail (x : State) (n : Nat) (f : Grid → Grid) : (x.modGrid n f).contrail = x.contrail := rfl
@[simp] theorem modGrid_mailbox (x : State) (n : Nat) (f : Grid → Grid) : (x.modGrid n f).mailbox = x.mailbox := rfl
@[simp] theorem modGrid_fuses (x : State) (n : Nat) (f : Grid → Grid) : (x.modGrid n f).fuses = x.fuses := rfl
@[simp] theorem modGrid_clusterMap (x : State) (n : Nat) (f : Grid → Grid) : (x.modGrid n f).clusterMap = x.clusterMap := rfl
@[simp] theorem modGrid_hostClock (x : State) (n : Nat) (f : Grid → Grid) : (x.modGrid n f).hostClock = x.hostClock := rfl
@[simp] theorem modGrid_reqs (x : State) (n : Nat) (f : Grid → Grid) : (x.modGrid n f).reqs = x.reqs := rfl
@[simp] theorem modGrid_resets (x : State) (n : Nat) (f : Grid → Grid) : (x.modGrid n f).resets = x.resets := rfl
@[simp] theorem modGrid_announced (x : State) (n : Nat) (f : Grid → Grid) : (x.modGrid n f).announced = x.announced := rfl
@[simp] theorem modGrid_frozen (x : State) (n : Nat) (f : Grid → Grid) : (x.modGrid n f).frozen = x.frozen := rfl
@[simp] theorem modGrid_failed (x : State) (n : Nat) (f : Grid → Grid) : (x.modGrid n f).failed = x.failed := rfl
@[simp] theorem modGrid_pkg (x : State) (n : Nat) (f : Grid → Grid) : (x.modGrid n f).pkg = x.pkg := rfl
@[simp] theorem modGrid_cur (x : State) (n : Nat) (f : Grid → Grid) : (x.modGrid n f).cur = x.cur := rfl
@[simp] theorem modGrid_inputs (x : State) (n : Nat) (f : Grid → Grid) : (x.modGrid n f).inputs = x.inputs := rfl
@[simp] theorem modGrid_tick (x : State) (n : Nat) (f : Grid → Grid) : (x.modGrid n f).tick = x.tick := rfl
@[simp] theorem modGrid_nextAgent (x : State) (n : Nat) (f : Grid → Grid) : (x.modGrid n f).nextAgent = x.nextAgent := rfl
@[simp] theorem modGrid_nextId (x : State) (n : Nat) (f : Grid → Grid) : (x.modGrid n f).nextId = x.nextId := rfl

@[simp] theorem setCore_blocks (x : State) (id : Nat) (c : Option (GRef × Bool)) : (x.setCore id c).blocks = x.blocks := rfl
@[simp] theorem setCore_spans (x : State) (id : Nat) (c : Option (GRef × Bool)) : (x.setCore id c).spans = x.spans := rfl
@[simp] theorem setCore_ctxs (x : State) (id : Nat) (c : Option (GRef × Bool)) : (x.setCore id c).ctxs = x.ctxs := rfl
@[simp] theorem setCore_mem (x : State) (id : Nat) (c : Option (GRef × Bool)) : (x.setCore id c).mem = x.mem := rfl
@[simp] theorem setCore_farMem (x : State) (id : Nat) (c : Option (GRef × Bool)) : (x.setCore id c).farMem = x.farMem := rfl
@[simp] theorem setCore_descs (x : State) (id : Nat) (c : Option (GRef × Bool)) : (x.setCore id c).descs = x.descs := rfl
@[simp] theorem setCore_poison (x : State) (id : Nat) (c : Option (GRef × Bool)) : (x.setCore id c).poison = x.poison := rfl
@[simp] theorem setCore_writers (x : State) (id : Nat) (c : Option (GRef × Bool)) : (x.setCore id c).writers = x.writers := rfl
@[simp] theorem setCore_rels (x : State) (id : Nat) (c : Option (GRef × Bool)) : (x.setCore id c).rels = x.rels := rfl
@[simp] theorem setCore_words (x : State) (id : Nat) (c : Option (GRef × Bool)) : (x.setCore id c).words = x.words := rfl
@[simp] theorem setCore_tlbs (x : State) (id : Nat) (c : Option (GRef × Bool)) : (x.setCore id c).tlbs = x.tlbs := rfl
@[simp] theorem setCore_pins (x : State) (id : Nat) (c : Option (GRef × Bool)) : (x.setCore id c).pins = x.pins := rfl
@[simp] theorem setCore_cycle (x : State) (id : Nat) (c : Option (GRef × Bool)) : (x.setCore id c).cycle = x.cycle := rfl
@[simp] theorem setCore_ns (x : State) (id : Nat) (c : Option (GRef × Bool)) : (x.setCore id c).ns = x.ns := rfl
@[simp] theorem setCore_grids (x : State) (id : Nat) (c : Option (GRef × Bool)) : (x.setCore id c).grids = x.grids := rfl
@[simp] theorem setCore_completed (x : State) (id : Nat) (c : Option (GRef × Bool)) : (x.setCore id c).completed = x.completed := rfl
@[simp] theorem setCore_first (x : State) (id : Nat) (c : Option (GRef × Bool)) : (x.setCore id c).first = x.first := rfl
@[simp] theorem setCore_holding (x : State) (id : Nat) (c : Option (GRef × Bool)) : (x.setCore id c).holding = x.holding := rfl
@[simp] theorem setCore_reserved (x : State) (id : Nat) (c : Option (GRef × Bool)) : (x.setCore id c).reserved = x.reserved := rfl
@[simp] theorem setCore_saveHeld (x : State) (id : Nat) (c : Option (GRef × Bool)) : (x.setCore id c).saveHeld = x.saveHeld := rfl
@[simp] theorem setCore_prevs (x : State) (id : Nat) (c : Option (GRef × Bool)) : (x.setCore id c).prevs = x.prevs := rfl
@[simp] theorem setCore_handles (x : State) (id : Nat) (c : Option (GRef × Bool)) : (x.setCore id c).handles = x.handles := rfl
@[simp] theorem setCore_msgs (x : State) (id : Nat) (c : Option (GRef × Bool)) : (x.setCore id c).msgs = x.msgs := rfl
@[simp] theorem setCore_pendH (x : State) (id : Nat) (c : Option (GRef × Bool)) : (x.setCore id c).pendH = x.pendH := rfl
@[simp] theorem setCore_armed (x : State) (id : Nat) (c : Option (GRef × Bool)) : (x.setCore id c).armed = x.armed := rfl
@[simp] theorem setCore_queues (x : State) (id : Nat) (c : Option (GRef × Bool)) : (x.setCore id c).queues = x.queues := rfl
@[simp] theorem setCore_rings (x : State) (id : Nat) (c : Option (GRef × Bool)) : (x.setCore id c).rings = x.rings := rfl
@[simp] theorem setCore_routes (x : State) (id : Nat) (c : Option (GRef × Bool)) : (x.setCore id c).routes = x.routes := rfl
@[simp] theorem setCore_conns (x : State) (id : Nat) (c : Option (GRef × Bool)) : (x.setCore id c).conns = x.conns := rfl
@[simp] theorem setCore_sent (x : State) (id : Nat) (c : Option (GRef × Bool)) : (x.setCore id c).sent = x.sent := rfl
@[simp] theorem setCore_outbox (x : State) (id : Nat) (c : Option (GRef × Bool)) : (x.setCore id c).outbox = x.outbox := rfl
@[simp] theorem setCore_ports (x : State) (id : Nat) (c : Option (GRef × Bool)) : (x.setCore id c).ports = x.ports := rfl
@[simp] theorem setCore_etherType (x : State) (id : Nat) (c : Option (GRef × Bool)) : (x.setCore id c).etherType = x.etherType := rfl
@[simp] theorem setCore_dropped (x : State) (id : Nat) (c : Option (GRef × Bool)) : (x.setCore id c).dropped = x.dropped := rfl
@[simp] theorem setCore_caps (x : State) (id : Nat) (c : Option (GRef × Bool)) : (x.setCore id c).caps = x.caps := rfl
@[simp] theorem setCore_viol (x : State) (id : Nat) (c : Option (GRef × Bool)) : (x.setCore id c).viol = x.viol := rfl
@[simp] theorem setCore_misalign (x : State) (id : Nat) (c : Option (GRef × Bool)) : (x.setCore id c).misalign = x.misalign := rfl
@[simp] theorem setCore_throttle (x : State) (id : Nat) (c : Option (GRef × Bool)) : (x.setCore id c).throttle = x.throttle := rfl
@[simp] theorem setCore_vgcmds (x : State) (id : Nat) (c : Option (GRef × Bool)) : (x.setCore id c).vgcmds = x.vgcmds := rfl
@[simp] theorem setCore_banks (x : State) (id : Nat) (c : Option (GRef × Bool)) : (x.setCore id c).banks = x.banks := rfl
@[simp] theorem setCore_binJobs (x : State) (id : Nat) (c : Option (GRef × Bool)) : (x.setCore id c).binJobs = x.binJobs := rfl
@[simp] theorem setCore_residues (x : State) (id : Nat) (c : Option (GRef × Bool)) : (x.setCore id c).residues = x.residues := rfl
@[simp] theorem setCore_parity (x : State) (id : Nat) (c : Option (GRef × Bool)) : (x.setCore id c).parity = x.parity := rfl
@[simp] theorem setCore_rollbacks (x : State) (id : Nat) (c : Option (GRef × Bool)) : (x.setCore id c).rollbacks = x.rollbacks := rfl
@[simp] theorem setCore_thermal (x : State) (id : Nat) (c : Option (GRef × Bool)) : (x.setCore id c).thermal = x.thermal := rfl
@[simp] theorem setCore_heat (x : State) (id : Nat) (c : Option (GRef × Bool)) : (x.setCore id c).heat = x.heat := rfl
@[simp] theorem setCore_errors (x : State) (id : Nat) (c : Option (GRef × Bool)) : (x.setCore id c).errors = x.errors := rfl
@[simp] theorem setCore_errNext (x : State) (id : Nat) (c : Option (GRef × Bool)) : (x.setCore id c).errNext = x.errNext := rfl
@[simp] theorem setCore_msix (x : State) (id : Nat) (c : Option (GRef × Bool)) : (x.setCore id c).msix = x.msix := rfl
@[simp] theorem setCore_contrail (x : State) (id : Nat) (c : Option (GRef × Bool)) : (x.setCore id c).contrail = x.contrail := rfl
@[simp] theorem setCore_mailbox (x : State) (id : Nat) (c : Option (GRef × Bool)) : (x.setCore id c).mailbox = x.mailbox := rfl
@[simp] theorem setCore_fuses (x : State) (id : Nat) (c : Option (GRef × Bool)) : (x.setCore id c).fuses = x.fuses := rfl
@[simp] theorem setCore_clusterMap (x : State) (id : Nat) (c : Option (GRef × Bool)) : (x.setCore id c).clusterMap = x.clusterMap := rfl
@[simp] theorem setCore_hostClock (x : State) (id : Nat) (c : Option (GRef × Bool)) : (x.setCore id c).hostClock = x.hostClock := rfl
@[simp] theorem setCore_reqs (x : State) (id : Nat) (c : Option (GRef × Bool)) : (x.setCore id c).reqs = x.reqs := rfl
@[simp] theorem setCore_resets (x : State) (id : Nat) (c : Option (GRef × Bool)) : (x.setCore id c).resets = x.resets := rfl
@[simp] theorem setCore_announced (x : State) (id : Nat) (c : Option (GRef × Bool)) : (x.setCore id c).announced = x.announced := rfl
@[simp] theorem setCore_frozen (x : State) (id : Nat) (c : Option (GRef × Bool)) : (x.setCore id c).frozen = x.frozen := rfl
@[simp] theorem setCore_failed (x : State) (id : Nat) (c : Option (GRef × Bool)) : (x.setCore id c).failed = x.failed := rfl
@[simp] theorem setCore_pkg (x : State) (id : Nat) (c : Option (GRef × Bool)) : (x.setCore id c).pkg = x.pkg := rfl
@[simp] theorem setCore_cur (x : State) (id : Nat) (c : Option (GRef × Bool)) : (x.setCore id c).cur = x.cur := rfl
@[simp] theorem setCore_inputs (x : State) (id : Nat) (c : Option (GRef × Bool)) : (x.setCore id c).inputs = x.inputs := rfl
@[simp] theorem setCore_tick (x : State) (id : Nat) (c : Option (GRef × Bool)) : (x.setCore id c).tick = x.tick := rfl
@[simp] theorem setCore_nextAgent (x : State) (id : Nat) (c : Option (GRef × Bool)) : (x.setCore id c).nextAgent = x.nextAgent := rfl
@[simp] theorem setCore_nextId (x : State) (id : Nat) (c : Option (GRef × Bool)) : (x.setCore id c).nextId = x.nextId := rfl

/-! ## A group -/

@[simp] theorem wrS_v (x : Group) (wb n : Nat) (v : Word) : (x.wrS wb n v).v = x.v := rfl
@[simp] theorem wrS_av (x : Group) (wb n : Nat) (v : Word) : (x.wrS wb n v).av = x.av := rfl
@[simp] theorem wrS_p (x : Group) (wb n : Nat) (v : Word) : (x.wrS wb n v).p = x.p := rfl
@[simp] theorem wrS_mode (x : Group) (wb n : Nat) (v : Word) : (x.wrS wb n v).mode = x.mode := rfl
@[simp] theorem wrS_flags (x : Group) (wb n : Nat) (v : Word) : (x.wrS wb n v).flags = x.flags := rfl
@[simp] theorem wrS_flagen (x : Group) (wb n : Nat) (v : Word) : (x.wrS wb n v).flagen = x.flagen := rfl
@[simp] theorem wrS_gang (x : Group) (wb n : Nat) (v : Word) : (x.wrS wb n v).gang = x.gang := rfl
@[simp] theorem wrS_gangCount (x : Group) (wb n : Nat) (v : Word) : (x.wrS wb n v).gangCount = x.gangCount := rfl
@[simp] theorem wrS_pix (x : Group) (wb n : Nat) (v : Word) : (x.wrS wb n v).pix = x.pix := rfl
@[simp] theorem wrS_ivec (x : Group) (wb n : Nat) (v : Word) : (x.wrS wb n v).ivec = x.ivec := rfl
@[simp] theorem wrS_slotA (x : Group) (wb n : Nat) (v : Word) : (x.wrS wb n v).slotA = x.slotA := rfl
@[simp] theorem wrS_slotB (x : Group) (wb n : Nat) (v : Word) : (x.wrS wb n v).slotB = x.slotB := rfl
@[simp] theorem wrS_latches (x : Group) (wb n : Nat) (v : Word) : (x.wrS wb n v).latches = x.latches := rfl
@[simp] theorem wrS_tokens (x : Group) (wb n : Nat) (v : Word) : (x.wrS wb n v).tokens = x.tokens := rfl
@[simp] theorem wrS_traps (x : Group) (wb n : Nat) (v : Word) : (x.wrS wb n v).traps = x.traps := rfl
@[simp] theorem wrS_dstkp (x : Group) (wb n : Nat) (v : Word) : (x.wrS wb n v).dstkp = x.dstkp := rfl
@[simp] theorem wrS_stackCopy (x : Group) (wb n : Nat) (v : Word) : (x.wrS wb n v).stackCopy = x.stackCopy := rfl
@[simp] theorem wrS_stkBase (x : Group) (wb n : Nat) (v : Word) : (x.wrS wb n v).stkBase = x.stkBase := rfl
@[simp] theorem wrS_stkSize (x : Group) (wb n : Nat) (v : Word) : (x.wrS wb n v).stkSize = x.stkSize := rfl
@[simp] theorem wrS_spillBase (x : Group) (wb n : Nat) (v : Word) : (x.wrS wb n v).spillBase = x.spillBase := rfl
@[simp] theorem wrS_spillSize (x : Group) (wb n : Nat) (v : Word) : (x.wrS wb n v).spillSize = x.spillSize := rfl
@[simp] theorem wrS_lo (x : Group) (wb n : Nat) (v : Word) : (x.wrS wb n v).lo = x.lo := rfl
@[simp] theorem wrS_hi (x : Group) (wb n : Nat) (v : Word) : (x.wrS wb n v).hi = x.hi := rfl
@[simp] theorem wrS_ldcnt (x : Group) (wb n : Nat) (v : Word) : (x.wrS wb n v).ldcnt = x.ldcnt := rfl
@[simp] theorem wrS_tagc (x : Group) (wb n : Nat) (v : Word) : (x.wrS wb n v).tagc = x.tagc := rfl
@[simp] theorem wrS_memq (x : Group) (wb n : Nat) (v : Word) : (x.wrS wb n v).memq = x.memq := rfl
@[simp] theorem wrS_cpas (x : Group) (wb n : Nat) (v : Word) : (x.wrS wb n v).cpas = x.cpas := rfl
@[simp] theorem wrS_plseq (x : Group) (wb n : Nat) (v : Word) : (x.wrS wb n v).plseq = x.plseq := rfl
@[simp] theorem wrS_trapcause (x : Group) (wb n : Nat) (v : Word) : (x.wrS wb n v).trapcause = x.trapcause := rfl
@[simp] theorem wrS_trapaddr (x : Group) (wb n : Nat) (v : Word) : (x.wrS wb n v).trapaddr = x.trapaddr := rfl
@[simp] theorem wrS_trappc (x : Group) (wb n : Nat) (v : Word) : (x.wrS wb n v).trappc = x.trappc := rfl
@[simp] theorem wrS_handle (x : Group) (wb n : Nat) (v : Word) : (x.wrS wb n v).handle = x.handle := rfl
@[simp] theorem wrS_launched (x : Group) (wb n : Nat) (v : Word) : (x.wrS wb n v).launched = x.launched := rfl
@[simp] theorem wrS_helper (x : Group) (wb n : Nat) (v : Word) : (x.wrS wb n v).helper = x.helper := rfl
@[simp] theorem wrS_exited (x : Group) (wb n : Nat) (v : Word) : (x.wrS wb n v).exited = x.exited := rfl
@[simp] theorem wrS_mine (x : Group) (wb n : Nat) (v : Word) : (x.wrS wb n v).mine = x.mine := rfl
@[simp] theorem wrS_barAt (x : Group) (wb n : Nat) (v : Word) : (x.wrS wb n v).barAt = x.barAt := rfl
@[simp] theorem wrS_spanAt (x : Group) (wb n : Nat) (v : Word) : (x.wrS wb n v).spanAt = x.spanAt := rfl
@[simp] theorem wrS_ordcl (x : Group) (wb n : Nat) (v : Word) : (x.wrS wb n v).ordcl = x.ordcl := rfl
@[simp] theorem wrS_atomoSeq (x : Group) (wb n : Nat) (v : Word) : (x.wrS wb n v).atomoSeq = x.atomoSeq := rfl
@[simp] theorem wrS_collSeq (x : Group) (wb n : Nat) (v : Word) : (x.wrS wb n v).collSeq = x.collSeq := rfl
@[simp] theorem wrS_ckpt (x : Group) (wb n : Nat) (v : Word) : (x.wrS wb n v).ckpt = x.ckpt := rfl
@[simp] theorem wrS_arrivals (x : Group) (wb n : Nat) (v : Word) : (x.wrS wb n v).arrivals = x.arrivals := rfl
@[simp] theorem wrS_agent (x : Group) (wb n : Nat) (v : Word) : (x.wrS wb n v).agent = x.agent := rfl
@[simp] theorem wrS_epoch (x : Group) (wb n : Nat) (v : Word) : (x.wrS wb n v).epoch = x.epoch := rfl
@[simp] theorem wrS_clock (x : Group) (wb n : Nat) (v : Word) : (x.wrS wb n v).clock = x.clock := rfl
@[simp] theorem wrS_fences (x : Group) (wb n : Nat) (v : Word) : (x.wrS wb n v).fences = x.fences := rfl
@[simp] theorem wrS_reads (x : Group) (wb n : Nat) (v : Word) : (x.wrS wb n v).reads = x.reads := rfl
@[simp] theorem wrS_lastB (x : Group) (wb n : Nat) (v : Word) : (x.wrS wb n v).lastB = x.lastB := rfl
@[simp] theorem wrS_since (x : Group) (wb n : Nat) (v : Word) : (x.wrS wb n v).since = x.since := rfl
@[simp] theorem wrS_resetA (x : Group) (wb n : Nat) (v : Word) : (x.wrS wb n v).resetA = x.resetA := rfl
@[simp] theorem wrS_resetB (x : Group) (wb n : Nat) (v : Word) : (x.wrS wb n v).resetB = x.resetB := rfl
@[simp] theorem wrS_nextMem (x : Group) (wb n : Nat) (v : Word) : (x.wrS wb n v).nextMem = x.nextMem := rfl
@[simp] theorem wrS_stopped (x : Group) (wb n : Nat) (v : Word) : (x.wrS wb n v).stopped = x.stopped := rfl
@[simp] theorem wrS_ready (x : Group) (wb n : Nat) (v : Word) : (x.wrS wb n v).ready = x.ready := rfl
@[simp] theorem wrS_retired (x : Group) (wb n : Nat) (v : Word) : (x.wrS wb n v).retired = x.retired := rfl
@[simp] theorem wrS_parked (x : Group) (wb n : Nat) (v : Word) : (x.wrS wb n v).parked = x.parked := rfl

@[simp] theorem wrV_s (x : Group) (wb n lane : Nat) (v : Word) : (x.wrV wb n lane v).s = x.s := rfl
@[simp] theorem wrV_av (x : Group) (wb n lane : Nat) (v : Word) : (x.wrV wb n lane v).av = x.av := rfl
@[simp] theorem wrV_p (x : Group) (wb n lane : Nat) (v : Word) : (x.wrV wb n lane v).p = x.p := rfl
@[simp] theorem wrV_mode (x : Group) (wb n lane : Nat) (v : Word) : (x.wrV wb n lane v).mode = x.mode := rfl
@[simp] theorem wrV_flags (x : Group) (wb n lane : Nat) (v : Word) : (x.wrV wb n lane v).flags = x.flags := rfl
@[simp] theorem wrV_flagen (x : Group) (wb n lane : Nat) (v : Word) : (x.wrV wb n lane v).flagen = x.flagen := rfl
@[simp] theorem wrV_gang (x : Group) (wb n lane : Nat) (v : Word) : (x.wrV wb n lane v).gang = x.gang := rfl
@[simp] theorem wrV_gangCount (x : Group) (wb n lane : Nat) (v : Word) : (x.wrV wb n lane v).gangCount = x.gangCount := rfl
@[simp] theorem wrV_pix (x : Group) (wb n lane : Nat) (v : Word) : (x.wrV wb n lane v).pix = x.pix := rfl
@[simp] theorem wrV_ivec (x : Group) (wb n lane : Nat) (v : Word) : (x.wrV wb n lane v).ivec = x.ivec := rfl
@[simp] theorem wrV_slotA (x : Group) (wb n lane : Nat) (v : Word) : (x.wrV wb n lane v).slotA = x.slotA := rfl
@[simp] theorem wrV_slotB (x : Group) (wb n lane : Nat) (v : Word) : (x.wrV wb n lane v).slotB = x.slotB := rfl
@[simp] theorem wrV_latches (x : Group) (wb n lane : Nat) (v : Word) : (x.wrV wb n lane v).latches = x.latches := rfl
@[simp] theorem wrV_tokens (x : Group) (wb n lane : Nat) (v : Word) : (x.wrV wb n lane v).tokens = x.tokens := rfl
@[simp] theorem wrV_traps (x : Group) (wb n lane : Nat) (v : Word) : (x.wrV wb n lane v).traps = x.traps := rfl
@[simp] theorem wrV_dstkp (x : Group) (wb n lane : Nat) (v : Word) : (x.wrV wb n lane v).dstkp = x.dstkp := rfl
@[simp] theorem wrV_stackCopy (x : Group) (wb n lane : Nat) (v : Word) : (x.wrV wb n lane v).stackCopy = x.stackCopy := rfl
@[simp] theorem wrV_stkBase (x : Group) (wb n lane : Nat) (v : Word) : (x.wrV wb n lane v).stkBase = x.stkBase := rfl
@[simp] theorem wrV_stkSize (x : Group) (wb n lane : Nat) (v : Word) : (x.wrV wb n lane v).stkSize = x.stkSize := rfl
@[simp] theorem wrV_spillBase (x : Group) (wb n lane : Nat) (v : Word) : (x.wrV wb n lane v).spillBase = x.spillBase := rfl
@[simp] theorem wrV_spillSize (x : Group) (wb n lane : Nat) (v : Word) : (x.wrV wb n lane v).spillSize = x.spillSize := rfl
@[simp] theorem wrV_lo (x : Group) (wb n lane : Nat) (v : Word) : (x.wrV wb n lane v).lo = x.lo := rfl
@[simp] theorem wrV_hi (x : Group) (wb n lane : Nat) (v : Word) : (x.wrV wb n lane v).hi = x.hi := rfl
@[simp] theorem wrV_ldcnt (x : Group) (wb n lane : Nat) (v : Word) : (x.wrV wb n lane v).ldcnt = x.ldcnt := rfl
@[simp] theorem wrV_tagc (x : Group) (wb n lane : Nat) (v : Word) : (x.wrV wb n lane v).tagc = x.tagc := rfl
@[simp] theorem wrV_memq (x : Group) (wb n lane : Nat) (v : Word) : (x.wrV wb n lane v).memq = x.memq := rfl
@[simp] theorem wrV_cpas (x : Group) (wb n lane : Nat) (v : Word) : (x.wrV wb n lane v).cpas = x.cpas := rfl
@[simp] theorem wrV_plseq (x : Group) (wb n lane : Nat) (v : Word) : (x.wrV wb n lane v).plseq = x.plseq := rfl
@[simp] theorem wrV_trapcause (x : Group) (wb n lane : Nat) (v : Word) : (x.wrV wb n lane v).trapcause = x.trapcause := rfl
@[simp] theorem wrV_trapaddr (x : Group) (wb n lane : Nat) (v : Word) : (x.wrV wb n lane v).trapaddr = x.trapaddr := rfl
@[simp] theorem wrV_trappc (x : Group) (wb n lane : Nat) (v : Word) : (x.wrV wb n lane v).trappc = x.trappc := rfl
@[simp] theorem wrV_handle (x : Group) (wb n lane : Nat) (v : Word) : (x.wrV wb n lane v).handle = x.handle := rfl
@[simp] theorem wrV_launched (x : Group) (wb n lane : Nat) (v : Word) : (x.wrV wb n lane v).launched = x.launched := rfl
@[simp] theorem wrV_helper (x : Group) (wb n lane : Nat) (v : Word) : (x.wrV wb n lane v).helper = x.helper := rfl
@[simp] theorem wrV_exited (x : Group) (wb n lane : Nat) (v : Word) : (x.wrV wb n lane v).exited = x.exited := rfl
@[simp] theorem wrV_mine (x : Group) (wb n lane : Nat) (v : Word) : (x.wrV wb n lane v).mine = x.mine := rfl
@[simp] theorem wrV_barAt (x : Group) (wb n lane : Nat) (v : Word) : (x.wrV wb n lane v).barAt = x.barAt := rfl
@[simp] theorem wrV_spanAt (x : Group) (wb n lane : Nat) (v : Word) : (x.wrV wb n lane v).spanAt = x.spanAt := rfl
@[simp] theorem wrV_ordcl (x : Group) (wb n lane : Nat) (v : Word) : (x.wrV wb n lane v).ordcl = x.ordcl := rfl
@[simp] theorem wrV_atomoSeq (x : Group) (wb n lane : Nat) (v : Word) : (x.wrV wb n lane v).atomoSeq = x.atomoSeq := rfl
@[simp] theorem wrV_collSeq (x : Group) (wb n lane : Nat) (v : Word) : (x.wrV wb n lane v).collSeq = x.collSeq := rfl
@[simp] theorem wrV_ckpt (x : Group) (wb n lane : Nat) (v : Word) : (x.wrV wb n lane v).ckpt = x.ckpt := rfl
@[simp] theorem wrV_arrivals (x : Group) (wb n lane : Nat) (v : Word) : (x.wrV wb n lane v).arrivals = x.arrivals := rfl
@[simp] theorem wrV_agent (x : Group) (wb n lane : Nat) (v : Word) : (x.wrV wb n lane v).agent = x.agent := rfl
@[simp] theorem wrV_epoch (x : Group) (wb n lane : Nat) (v : Word) : (x.wrV wb n lane v).epoch = x.epoch := rfl
@[simp] theorem wrV_clock (x : Group) (wb n lane : Nat) (v : Word) : (x.wrV wb n lane v).clock = x.clock := rfl
@[simp] theorem wrV_fences (x : Group) (wb n lane : Nat) (v : Word) : (x.wrV wb n lane v).fences = x.fences := rfl
@[simp] theorem wrV_reads (x : Group) (wb n lane : Nat) (v : Word) : (x.wrV wb n lane v).reads = x.reads := rfl
@[simp] theorem wrV_lastB (x : Group) (wb n lane : Nat) (v : Word) : (x.wrV wb n lane v).lastB = x.lastB := rfl
@[simp] theorem wrV_since (x : Group) (wb n lane : Nat) (v : Word) : (x.wrV wb n lane v).since = x.since := rfl
@[simp] theorem wrV_resetA (x : Group) (wb n lane : Nat) (v : Word) : (x.wrV wb n lane v).resetA = x.resetA := rfl
@[simp] theorem wrV_resetB (x : Group) (wb n lane : Nat) (v : Word) : (x.wrV wb n lane v).resetB = x.resetB := rfl
@[simp] theorem wrV_nextMem (x : Group) (wb n lane : Nat) (v : Word) : (x.wrV wb n lane v).nextMem = x.nextMem := rfl
@[simp] theorem wrV_stopped (x : Group) (wb n lane : Nat) (v : Word) : (x.wrV wb n lane v).stopped = x.stopped := rfl
@[simp] theorem wrV_ready (x : Group) (wb n lane : Nat) (v : Word) : (x.wrV wb n lane v).ready = x.ready := rfl
@[simp] theorem wrV_retired (x : Group) (wb n lane : Nat) (v : Word) : (x.wrV wb n lane v).retired = x.retired := rfl
@[simp] theorem wrV_parked (x : Group) (wb n lane : Nat) (v : Word) : (x.wrV wb n lane v).parked = x.parked := rfl

@[simp] theorem wrP_v (x : Group) (n : Nat) (m : Lanes) : (x.wrP n m).v = x.v := rfl
@[simp] theorem wrP_s (x : Group) (n : Nat) (m : Lanes) : (x.wrP n m).s = x.s := rfl
@[simp] theorem wrP_av (x : Group) (n : Nat) (m : Lanes) : (x.wrP n m).av = x.av := rfl
@[simp] theorem wrP_mode (x : Group) (n : Nat) (m : Lanes) : (x.wrP n m).mode = x.mode := rfl
@[simp] theorem wrP_flags (x : Group) (n : Nat) (m : Lanes) : (x.wrP n m).flags = x.flags := rfl
@[simp] theorem wrP_flagen (x : Group) (n : Nat) (m : Lanes) : (x.wrP n m).flagen = x.flagen := rfl
@[simp] theorem wrP_gang (x : Group) (n : Nat) (m : Lanes) : (x.wrP n m).gang = x.gang := rfl
@[simp] theorem wrP_gangCount (x : Group) (n : Nat) (m : Lanes) : (x.wrP n m).gangCount = x.gangCount := rfl
@[simp] theorem wrP_pix (x : Group) (n : Nat) (m : Lanes) : (x.wrP n m).pix = x.pix := rfl
@[simp] theorem wrP_ivec (x : Group) (n : Nat) (m : Lanes) : (x.wrP n m).ivec = x.ivec := rfl
@[simp] theorem wrP_slotA (x : Group) (n : Nat) (m : Lanes) : (x.wrP n m).slotA = x.slotA := rfl
@[simp] theorem wrP_slotB (x : Group) (n : Nat) (m : Lanes) : (x.wrP n m).slotB = x.slotB := rfl
@[simp] theorem wrP_latches (x : Group) (n : Nat) (m : Lanes) : (x.wrP n m).latches = x.latches := rfl
@[simp] theorem wrP_tokens (x : Group) (n : Nat) (m : Lanes) : (x.wrP n m).tokens = x.tokens := rfl
@[simp] theorem wrP_traps (x : Group) (n : Nat) (m : Lanes) : (x.wrP n m).traps = x.traps := rfl
@[simp] theorem wrP_dstkp (x : Group) (n : Nat) (m : Lanes) : (x.wrP n m).dstkp = x.dstkp := rfl
@[simp] theorem wrP_stackCopy (x : Group) (n : Nat) (m : Lanes) : (x.wrP n m).stackCopy = x.stackCopy := rfl
@[simp] theorem wrP_stkBase (x : Group) (n : Nat) (m : Lanes) : (x.wrP n m).stkBase = x.stkBase := rfl
@[simp] theorem wrP_stkSize (x : Group) (n : Nat) (m : Lanes) : (x.wrP n m).stkSize = x.stkSize := rfl
@[simp] theorem wrP_spillBase (x : Group) (n : Nat) (m : Lanes) : (x.wrP n m).spillBase = x.spillBase := rfl
@[simp] theorem wrP_spillSize (x : Group) (n : Nat) (m : Lanes) : (x.wrP n m).spillSize = x.spillSize := rfl
@[simp] theorem wrP_lo (x : Group) (n : Nat) (m : Lanes) : (x.wrP n m).lo = x.lo := rfl
@[simp] theorem wrP_hi (x : Group) (n : Nat) (m : Lanes) : (x.wrP n m).hi = x.hi := rfl
@[simp] theorem wrP_ldcnt (x : Group) (n : Nat) (m : Lanes) : (x.wrP n m).ldcnt = x.ldcnt := rfl
@[simp] theorem wrP_tagc (x : Group) (n : Nat) (m : Lanes) : (x.wrP n m).tagc = x.tagc := rfl
@[simp] theorem wrP_memq (x : Group) (n : Nat) (m : Lanes) : (x.wrP n m).memq = x.memq := rfl
@[simp] theorem wrP_cpas (x : Group) (n : Nat) (m : Lanes) : (x.wrP n m).cpas = x.cpas := rfl
@[simp] theorem wrP_plseq (x : Group) (n : Nat) (m : Lanes) : (x.wrP n m).plseq = x.plseq := rfl
@[simp] theorem wrP_trapcause (x : Group) (n : Nat) (m : Lanes) : (x.wrP n m).trapcause = x.trapcause := rfl
@[simp] theorem wrP_trapaddr (x : Group) (n : Nat) (m : Lanes) : (x.wrP n m).trapaddr = x.trapaddr := rfl
@[simp] theorem wrP_trappc (x : Group) (n : Nat) (m : Lanes) : (x.wrP n m).trappc = x.trappc := rfl
@[simp] theorem wrP_handle (x : Group) (n : Nat) (m : Lanes) : (x.wrP n m).handle = x.handle := rfl
@[simp] theorem wrP_launched (x : Group) (n : Nat) (m : Lanes) : (x.wrP n m).launched = x.launched := rfl
@[simp] theorem wrP_helper (x : Group) (n : Nat) (m : Lanes) : (x.wrP n m).helper = x.helper := rfl
@[simp] theorem wrP_exited (x : Group) (n : Nat) (m : Lanes) : (x.wrP n m).exited = x.exited := rfl
@[simp] theorem wrP_mine (x : Group) (n : Nat) (m : Lanes) : (x.wrP n m).mine = x.mine := rfl
@[simp] theorem wrP_barAt (x : Group) (n : Nat) (m : Lanes) : (x.wrP n m).barAt = x.barAt := rfl
@[simp] theorem wrP_spanAt (x : Group) (n : Nat) (m : Lanes) : (x.wrP n m).spanAt = x.spanAt := rfl
@[simp] theorem wrP_ordcl (x : Group) (n : Nat) (m : Lanes) : (x.wrP n m).ordcl = x.ordcl := rfl
@[simp] theorem wrP_atomoSeq (x : Group) (n : Nat) (m : Lanes) : (x.wrP n m).atomoSeq = x.atomoSeq := rfl
@[simp] theorem wrP_collSeq (x : Group) (n : Nat) (m : Lanes) : (x.wrP n m).collSeq = x.collSeq := rfl
@[simp] theorem wrP_ckpt (x : Group) (n : Nat) (m : Lanes) : (x.wrP n m).ckpt = x.ckpt := rfl
@[simp] theorem wrP_arrivals (x : Group) (n : Nat) (m : Lanes) : (x.wrP n m).arrivals = x.arrivals := rfl
@[simp] theorem wrP_agent (x : Group) (n : Nat) (m : Lanes) : (x.wrP n m).agent = x.agent := rfl
@[simp] theorem wrP_epoch (x : Group) (n : Nat) (m : Lanes) : (x.wrP n m).epoch = x.epoch := rfl
@[simp] theorem wrP_clock (x : Group) (n : Nat) (m : Lanes) : (x.wrP n m).clock = x.clock := rfl
@[simp] theorem wrP_fences (x : Group) (n : Nat) (m : Lanes) : (x.wrP n m).fences = x.fences := rfl
@[simp] theorem wrP_reads (x : Group) (n : Nat) (m : Lanes) : (x.wrP n m).reads = x.reads := rfl
@[simp] theorem wrP_lastB (x : Group) (n : Nat) (m : Lanes) : (x.wrP n m).lastB = x.lastB := rfl
@[simp] theorem wrP_since (x : Group) (n : Nat) (m : Lanes) : (x.wrP n m).since = x.since := rfl
@[simp] theorem wrP_resetA (x : Group) (n : Nat) (m : Lanes) : (x.wrP n m).resetA = x.resetA := rfl
@[simp] theorem wrP_resetB (x : Group) (n : Nat) (m : Lanes) : (x.wrP n m).resetB = x.resetB := rfl
@[simp] theorem wrP_nextMem (x : Group) (n : Nat) (m : Lanes) : (x.wrP n m).nextMem = x.nextMem := rfl
@[simp] theorem wrP_stopped (x : Group) (n : Nat) (m : Lanes) : (x.wrP n m).stopped = x.stopped := rfl
@[simp] theorem wrP_ready (x : Group) (n : Nat) (m : Lanes) : (x.wrP n m).ready = x.ready := rfl
@[simp] theorem wrP_retired (x : Group) (n : Nat) (m : Lanes) : (x.wrP n m).retired = x.retired := rfl
@[simp] theorem wrP_parked (x : Group) (n : Nat) (m : Lanes) : (x.wrP n m).parked = x.parked := rfl

@[simp] theorem setSlot_v (x : Group) (b : Bool) (v : Slot) : (x.setSlot b v).v = x.v := by cases b <;> rfl
@[simp] theorem setSlot_s (x : Group) (b : Bool) (v : Slot) : (x.setSlot b v).s = x.s := by cases b <;> rfl
@[simp] theorem setSlot_av (x : Group) (b : Bool) (v : Slot) : (x.setSlot b v).av = x.av := by cases b <;> rfl
@[simp] theorem setSlot_p (x : Group) (b : Bool) (v : Slot) : (x.setSlot b v).p = x.p := by cases b <;> rfl
@[simp] theorem setSlot_mode (x : Group) (b : Bool) (v : Slot) : (x.setSlot b v).mode = x.mode := by cases b <;> rfl
@[simp] theorem setSlot_flags (x : Group) (b : Bool) (v : Slot) : (x.setSlot b v).flags = x.flags := by cases b <;> rfl
@[simp] theorem setSlot_flagen (x : Group) (b : Bool) (v : Slot) : (x.setSlot b v).flagen = x.flagen := by cases b <;> rfl
@[simp] theorem setSlot_gang (x : Group) (b : Bool) (v : Slot) : (x.setSlot b v).gang = x.gang := by cases b <;> rfl
@[simp] theorem setSlot_gangCount (x : Group) (b : Bool) (v : Slot) : (x.setSlot b v).gangCount = x.gangCount := by cases b <;> rfl
@[simp] theorem setSlot_pix (x : Group) (b : Bool) (v : Slot) : (x.setSlot b v).pix = x.pix := by cases b <;> rfl
@[simp] theorem setSlot_ivec (x : Group) (b : Bool) (v : Slot) : (x.setSlot b v).ivec = x.ivec := by cases b <;> rfl
@[simp] theorem setSlot_latches (x : Group) (b : Bool) (v : Slot) : (x.setSlot b v).latches = x.latches := by cases b <;> rfl
@[simp] theorem setSlot_tokens (x : Group) (b : Bool) (v : Slot) : (x.setSlot b v).tokens = x.tokens := by cases b <;> rfl
@[simp] theorem setSlot_traps (x : Group) (b : Bool) (v : Slot) : (x.setSlot b v).traps = x.traps := by cases b <;> rfl
@[simp] theorem setSlot_dstkp (x : Group) (b : Bool) (v : Slot) : (x.setSlot b v).dstkp = x.dstkp := by cases b <;> rfl
@[simp] theorem setSlot_stackCopy (x : Group) (b : Bool) (v : Slot) : (x.setSlot b v).stackCopy = x.stackCopy := by cases b <;> rfl
@[simp] theorem setSlot_stkBase (x : Group) (b : Bool) (v : Slot) : (x.setSlot b v).stkBase = x.stkBase := by cases b <;> rfl
@[simp] theorem setSlot_stkSize (x : Group) (b : Bool) (v : Slot) : (x.setSlot b v).stkSize = x.stkSize := by cases b <;> rfl
@[simp] theorem setSlot_spillBase (x : Group) (b : Bool) (v : Slot) : (x.setSlot b v).spillBase = x.spillBase := by cases b <;> rfl
@[simp] theorem setSlot_spillSize (x : Group) (b : Bool) (v : Slot) : (x.setSlot b v).spillSize = x.spillSize := by cases b <;> rfl
@[simp] theorem setSlot_lo (x : Group) (b : Bool) (v : Slot) : (x.setSlot b v).lo = x.lo := by cases b <;> rfl
@[simp] theorem setSlot_hi (x : Group) (b : Bool) (v : Slot) : (x.setSlot b v).hi = x.hi := by cases b <;> rfl
@[simp] theorem setSlot_ldcnt (x : Group) (b : Bool) (v : Slot) : (x.setSlot b v).ldcnt = x.ldcnt := by cases b <;> rfl
@[simp] theorem setSlot_tagc (x : Group) (b : Bool) (v : Slot) : (x.setSlot b v).tagc = x.tagc := by cases b <;> rfl
@[simp] theorem setSlot_memq (x : Group) (b : Bool) (v : Slot) : (x.setSlot b v).memq = x.memq := by cases b <;> rfl
@[simp] theorem setSlot_cpas (x : Group) (b : Bool) (v : Slot) : (x.setSlot b v).cpas = x.cpas := by cases b <;> rfl
@[simp] theorem setSlot_plseq (x : Group) (b : Bool) (v : Slot) : (x.setSlot b v).plseq = x.plseq := by cases b <;> rfl
@[simp] theorem setSlot_trapcause (x : Group) (b : Bool) (v : Slot) : (x.setSlot b v).trapcause = x.trapcause := by cases b <;> rfl
@[simp] theorem setSlot_trapaddr (x : Group) (b : Bool) (v : Slot) : (x.setSlot b v).trapaddr = x.trapaddr := by cases b <;> rfl
@[simp] theorem setSlot_trappc (x : Group) (b : Bool) (v : Slot) : (x.setSlot b v).trappc = x.trappc := by cases b <;> rfl
@[simp] theorem setSlot_handle (x : Group) (b : Bool) (v : Slot) : (x.setSlot b v).handle = x.handle := by cases b <;> rfl
@[simp] theorem setSlot_launched (x : Group) (b : Bool) (v : Slot) : (x.setSlot b v).launched = x.launched := by cases b <;> rfl
@[simp] theorem setSlot_helper (x : Group) (b : Bool) (v : Slot) : (x.setSlot b v).helper = x.helper := by cases b <;> rfl
@[simp] theorem setSlot_exited (x : Group) (b : Bool) (v : Slot) : (x.setSlot b v).exited = x.exited := by cases b <;> rfl
@[simp] theorem setSlot_mine (x : Group) (b : Bool) (v : Slot) : (x.setSlot b v).mine = x.mine := by cases b <;> rfl
@[simp] theorem setSlot_barAt (x : Group) (b : Bool) (v : Slot) : (x.setSlot b v).barAt = x.barAt := by cases b <;> rfl
@[simp] theorem setSlot_spanAt (x : Group) (b : Bool) (v : Slot) : (x.setSlot b v).spanAt = x.spanAt := by cases b <;> rfl
@[simp] theorem setSlot_ordcl (x : Group) (b : Bool) (v : Slot) : (x.setSlot b v).ordcl = x.ordcl := by cases b <;> rfl
@[simp] theorem setSlot_atomoSeq (x : Group) (b : Bool) (v : Slot) : (x.setSlot b v).atomoSeq = x.atomoSeq := by cases b <;> rfl
@[simp] theorem setSlot_collSeq (x : Group) (b : Bool) (v : Slot) : (x.setSlot b v).collSeq = x.collSeq := by cases b <;> rfl
@[simp] theorem setSlot_ckpt (x : Group) (b : Bool) (v : Slot) : (x.setSlot b v).ckpt = x.ckpt := by cases b <;> rfl
@[simp] theorem setSlot_arrivals (x : Group) (b : Bool) (v : Slot) : (x.setSlot b v).arrivals = x.arrivals := by cases b <;> rfl
@[simp] theorem setSlot_agent (x : Group) (b : Bool) (v : Slot) : (x.setSlot b v).agent = x.agent := by cases b <;> rfl
@[simp] theorem setSlot_epoch (x : Group) (b : Bool) (v : Slot) : (x.setSlot b v).epoch = x.epoch := by cases b <;> rfl
@[simp] theorem setSlot_clock (x : Group) (b : Bool) (v : Slot) : (x.setSlot b v).clock = x.clock := by cases b <;> rfl
@[simp] theorem setSlot_fences (x : Group) (b : Bool) (v : Slot) : (x.setSlot b v).fences = x.fences := by cases b <;> rfl
@[simp] theorem setSlot_reads (x : Group) (b : Bool) (v : Slot) : (x.setSlot b v).reads = x.reads := by cases b <;> rfl
@[simp] theorem setSlot_lastB (x : Group) (b : Bool) (v : Slot) : (x.setSlot b v).lastB = x.lastB := by cases b <;> rfl
@[simp] theorem setSlot_since (x : Group) (b : Bool) (v : Slot) : (x.setSlot b v).since = x.since := by cases b <;> rfl
@[simp] theorem setSlot_resetA (x : Group) (b : Bool) (v : Slot) : (x.setSlot b v).resetA = x.resetA := by cases b <;> rfl
@[simp] theorem setSlot_resetB (x : Group) (b : Bool) (v : Slot) : (x.setSlot b v).resetB = x.resetB := by cases b <;> rfl
@[simp] theorem setSlot_nextMem (x : Group) (b : Bool) (v : Slot) : (x.setSlot b v).nextMem = x.nextMem := by cases b <;> rfl
@[simp] theorem setSlot_stopped (x : Group) (b : Bool) (v : Slot) : (x.setSlot b v).stopped = x.stopped := by cases b <;> rfl
@[simp] theorem setSlot_ready (x : Group) (b : Bool) (v : Slot) : (x.setSlot b v).ready = x.ready := by cases b <;> rfl
@[simp] theorem setSlot_retired (x : Group) (b : Bool) (v : Slot) : (x.setSlot b v).retired = x.retired := by cases b <;> rfl
@[simp] theorem setSlot_parked (x : Group) (b : Bool) (v : Slot) : (x.setSlot b v).parked = x.parked := by cases b <;> rfl

@[simp] theorem modSlot_v (x : Group) (b : Bool) (f : Slot → Slot) : (x.modSlot b f).v = x.v := by cases b <;> rfl
@[simp] theorem modSlot_s (x : Group) (b : Bool) (f : Slot → Slot) : (x.modSlot b f).s = x.s := by cases b <;> rfl
@[simp] theorem modSlot_av (x : Group) (b : Bool) (f : Slot → Slot) : (x.modSlot b f).av = x.av := by cases b <;> rfl
@[simp] theorem modSlot_p (x : Group) (b : Bool) (f : Slot → Slot) : (x.modSlot b f).p = x.p := by cases b <;> rfl
@[simp] theorem modSlot_mode (x : Group) (b : Bool) (f : Slot → Slot) : (x.modSlot b f).mode = x.mode := by cases b <;> rfl
@[simp] theorem modSlot_flags (x : Group) (b : Bool) (f : Slot → Slot) : (x.modSlot b f).flags = x.flags := by cases b <;> rfl
@[simp] theorem modSlot_flagen (x : Group) (b : Bool) (f : Slot → Slot) : (x.modSlot b f).flagen = x.flagen := by cases b <;> rfl
@[simp] theorem modSlot_gang (x : Group) (b : Bool) (f : Slot → Slot) : (x.modSlot b f).gang = x.gang := by cases b <;> rfl
@[simp] theorem modSlot_gangCount (x : Group) (b : Bool) (f : Slot → Slot) : (x.modSlot b f).gangCount = x.gangCount := by cases b <;> rfl
@[simp] theorem modSlot_pix (x : Group) (b : Bool) (f : Slot → Slot) : (x.modSlot b f).pix = x.pix := by cases b <;> rfl
@[simp] theorem modSlot_ivec (x : Group) (b : Bool) (f : Slot → Slot) : (x.modSlot b f).ivec = x.ivec := by cases b <;> rfl
@[simp] theorem modSlot_latches (x : Group) (b : Bool) (f : Slot → Slot) : (x.modSlot b f).latches = x.latches := by cases b <;> rfl
@[simp] theorem modSlot_tokens (x : Group) (b : Bool) (f : Slot → Slot) : (x.modSlot b f).tokens = x.tokens := by cases b <;> rfl
@[simp] theorem modSlot_traps (x : Group) (b : Bool) (f : Slot → Slot) : (x.modSlot b f).traps = x.traps := by cases b <;> rfl
@[simp] theorem modSlot_dstkp (x : Group) (b : Bool) (f : Slot → Slot) : (x.modSlot b f).dstkp = x.dstkp := by cases b <;> rfl
@[simp] theorem modSlot_stackCopy (x : Group) (b : Bool) (f : Slot → Slot) : (x.modSlot b f).stackCopy = x.stackCopy := by cases b <;> rfl
@[simp] theorem modSlot_stkBase (x : Group) (b : Bool) (f : Slot → Slot) : (x.modSlot b f).stkBase = x.stkBase := by cases b <;> rfl
@[simp] theorem modSlot_stkSize (x : Group) (b : Bool) (f : Slot → Slot) : (x.modSlot b f).stkSize = x.stkSize := by cases b <;> rfl
@[simp] theorem modSlot_spillBase (x : Group) (b : Bool) (f : Slot → Slot) : (x.modSlot b f).spillBase = x.spillBase := by cases b <;> rfl
@[simp] theorem modSlot_spillSize (x : Group) (b : Bool) (f : Slot → Slot) : (x.modSlot b f).spillSize = x.spillSize := by cases b <;> rfl
@[simp] theorem modSlot_lo (x : Group) (b : Bool) (f : Slot → Slot) : (x.modSlot b f).lo = x.lo := by cases b <;> rfl
@[simp] theorem modSlot_hi (x : Group) (b : Bool) (f : Slot → Slot) : (x.modSlot b f).hi = x.hi := by cases b <;> rfl
@[simp] theorem modSlot_ldcnt (x : Group) (b : Bool) (f : Slot → Slot) : (x.modSlot b f).ldcnt = x.ldcnt := by cases b <;> rfl
@[simp] theorem modSlot_tagc (x : Group) (b : Bool) (f : Slot → Slot) : (x.modSlot b f).tagc = x.tagc := by cases b <;> rfl
@[simp] theorem modSlot_memq (x : Group) (b : Bool) (f : Slot → Slot) : (x.modSlot b f).memq = x.memq := by cases b <;> rfl
@[simp] theorem modSlot_cpas (x : Group) (b : Bool) (f : Slot → Slot) : (x.modSlot b f).cpas = x.cpas := by cases b <;> rfl
@[simp] theorem modSlot_plseq (x : Group) (b : Bool) (f : Slot → Slot) : (x.modSlot b f).plseq = x.plseq := by cases b <;> rfl
@[simp] theorem modSlot_trapcause (x : Group) (b : Bool) (f : Slot → Slot) : (x.modSlot b f).trapcause = x.trapcause := by cases b <;> rfl
@[simp] theorem modSlot_trapaddr (x : Group) (b : Bool) (f : Slot → Slot) : (x.modSlot b f).trapaddr = x.trapaddr := by cases b <;> rfl
@[simp] theorem modSlot_trappc (x : Group) (b : Bool) (f : Slot → Slot) : (x.modSlot b f).trappc = x.trappc := by cases b <;> rfl
@[simp] theorem modSlot_handle (x : Group) (b : Bool) (f : Slot → Slot) : (x.modSlot b f).handle = x.handle := by cases b <;> rfl
@[simp] theorem modSlot_launched (x : Group) (b : Bool) (f : Slot → Slot) : (x.modSlot b f).launched = x.launched := by cases b <;> rfl
@[simp] theorem modSlot_helper (x : Group) (b : Bool) (f : Slot → Slot) : (x.modSlot b f).helper = x.helper := by cases b <;> rfl
@[simp] theorem modSlot_exited (x : Group) (b : Bool) (f : Slot → Slot) : (x.modSlot b f).exited = x.exited := by cases b <;> rfl
@[simp] theorem modSlot_mine (x : Group) (b : Bool) (f : Slot → Slot) : (x.modSlot b f).mine = x.mine := by cases b <;> rfl
@[simp] theorem modSlot_barAt (x : Group) (b : Bool) (f : Slot → Slot) : (x.modSlot b f).barAt = x.barAt := by cases b <;> rfl
@[simp] theorem modSlot_spanAt (x : Group) (b : Bool) (f : Slot → Slot) : (x.modSlot b f).spanAt = x.spanAt := by cases b <;> rfl
@[simp] theorem modSlot_ordcl (x : Group) (b : Bool) (f : Slot → Slot) : (x.modSlot b f).ordcl = x.ordcl := by cases b <;> rfl
@[simp] theorem modSlot_atomoSeq (x : Group) (b : Bool) (f : Slot → Slot) : (x.modSlot b f).atomoSeq = x.atomoSeq := by cases b <;> rfl
@[simp] theorem modSlot_collSeq (x : Group) (b : Bool) (f : Slot → Slot) : (x.modSlot b f).collSeq = x.collSeq := by cases b <;> rfl
@[simp] theorem modSlot_ckpt (x : Group) (b : Bool) (f : Slot → Slot) : (x.modSlot b f).ckpt = x.ckpt := by cases b <;> rfl
@[simp] theorem modSlot_arrivals (x : Group) (b : Bool) (f : Slot → Slot) : (x.modSlot b f).arrivals = x.arrivals := by cases b <;> rfl
@[simp] theorem modSlot_agent (x : Group) (b : Bool) (f : Slot → Slot) : (x.modSlot b f).agent = x.agent := by cases b <;> rfl
@[simp] theorem modSlot_epoch (x : Group) (b : Bool) (f : Slot → Slot) : (x.modSlot b f).epoch = x.epoch := by cases b <;> rfl
@[simp] theorem modSlot_clock (x : Group) (b : Bool) (f : Slot → Slot) : (x.modSlot b f).clock = x.clock := by cases b <;> rfl
@[simp] theorem modSlot_fences (x : Group) (b : Bool) (f : Slot → Slot) : (x.modSlot b f).fences = x.fences := by cases b <;> rfl
@[simp] theorem modSlot_reads (x : Group) (b : Bool) (f : Slot → Slot) : (x.modSlot b f).reads = x.reads := by cases b <;> rfl
@[simp] theorem modSlot_lastB (x : Group) (b : Bool) (f : Slot → Slot) : (x.modSlot b f).lastB = x.lastB := by cases b <;> rfl
@[simp] theorem modSlot_since (x : Group) (b : Bool) (f : Slot → Slot) : (x.modSlot b f).since = x.since := by cases b <;> rfl
@[simp] theorem modSlot_resetA (x : Group) (b : Bool) (f : Slot → Slot) : (x.modSlot b f).resetA = x.resetA := by cases b <;> rfl
@[simp] theorem modSlot_resetB (x : Group) (b : Bool) (f : Slot → Slot) : (x.modSlot b f).resetB = x.resetB := by cases b <;> rfl
@[simp] theorem modSlot_nextMem (x : Group) (b : Bool) (f : Slot → Slot) : (x.modSlot b f).nextMem = x.nextMem := by cases b <;> rfl
@[simp] theorem modSlot_stopped (x : Group) (b : Bool) (f : Slot → Slot) : (x.modSlot b f).stopped = x.stopped := by cases b <;> rfl
@[simp] theorem modSlot_ready (x : Group) (b : Bool) (f : Slot → Slot) : (x.modSlot b f).ready = x.ready := by cases b <;> rfl
@[simp] theorem modSlot_retired (x : Group) (b : Bool) (f : Slot → Slot) : (x.modSlot b f).retired = x.retired := by cases b <;> rfl
@[simp] theorem modSlot_parked (x : Group) (b : Bool) (f : Slot → Slot) : (x.modSlot b f).parked = x.parked := by cases b <;> rfl

/-! ## A slot -/

@[simp] theorem advance_mask (x : Slot) (sw : Bool) : (x.advance sw).mask = x.mask := rfl
@[simp] theorem advance_wb (x : Slot) (sw : Bool) : (x.advance sw).wb = x.wb := rfl

@[simp] theorem advance_pc (x : Slot) (sw : Bool) : (x.advance sw).pc = x.pc + 4 := rfl
@[simp] theorem advance_wait (x : Slot) (sw : Bool) : (x.advance sw).wait = none := rfl
@[simp] theorem advance_modex (x : Slot) (sw : Bool) : (x.advance sw).modex = none := rfl
@[simp] theorem slot_setSlot (x : Group) (b : Bool) (v : Slot) : (x.setSlot b v).slot b = v := by cases b <;> rfl
@[simp] theorem slot_setSlot_not (x : Group) (b : Bool) (v : Slot) : (x.setSlot b v).slot (!b) = x.slot (!b) := by cases b <;> rfl
@[simp] theorem slot_modSlot (x : Group) (b : Bool) (f : Slot → Slot) : (x.modSlot b f).slot b = f (x.slot b) := by cases b <;> rfl
@[simp] theorem slot_modSlot_not (x : Group) (b : Bool) (f : Slot → Slot) : (x.modSlot b f).slot (!b) = x.slot (!b) := by cases b <;> rfl

end Sys2Proof.Laws
end

