-- ==== Sys2Proof/Laws/Groups.lean ====
section
/-! SUPPORT. What a change of one group leaves of the rest: blocks, other groups, memory; and registers read after they are written. -/

namespace Sys2Proof.Laws

open Sys2Proof Sys2Proof.Machine

/-! ## Blocks -/

theorem block?_modBlock (s : State) (id x : Nat) (f : Block → Block) (hf : ∀ b, (f b).id = b.id) :
    (s.modBlock id f).block? x = if x = id then (s.block? x).map f else s.block? x := by
  unfold State.block? State.modBlock
  simp only
  induction s.blocks with
  | nil => simp
  | cons b r ih =>
    simp only [List.map_cons, List.find?_cons]
    by_cases h : b.id = id
    · by_cases hx : x = id
      · subst hx
        simp [h, hf]
      · have e : (b.id == x) = false := by simp [h]; omega
        simp only [h, if_true, hf]
        rw [h] at e
        simp only [e]
        exact ih
    · by_cases hx : b.id = x
      · have : x ≠ id := fun e => h (hx.trans e)
        simp [hx, this]
      · simp only [h, if_false]
        have e : (b.id == x) = false := by simpa using hx
        simp only [e]
        exact ih

theorem modBlock_modBlock (s : State) (id : Nat) (f g : Block → Block) (hf : ∀ b, (f b).id = b.id) :
    (s.modBlock id f).modBlock id g = s.modBlock id (g ∘ f) := by
  unfold State.modBlock
  simp only [List.map_map]
  congr 1
  apply List.map_congr_left
  intro b _
  by_cases h : b.id = id <;> simp [h, hf]

@[simp] theorem modGroup_id (b : Block) (i : Nat) (f : Group → Group) : (b.modGroup i f).id = b.id := rfl

theorem block?_modGroup (s : State) (g : GRef) (f : Group → Group) (x : Nat) :
    (s.modGroup g f).block? x = if x = g.blk then (s.block? x).map (fun b => b.modGroup g.grp f) else s.block? x :=
  block?_modBlock s g.blk x (fun b => b.modGroup g.grp f) fun _ => rfl

theorem modAt_modAt {α : Type} (l : List α) (i : Nat) (f g : α → α) : modAt (modAt l i f) i g = modAt l i (g ∘ f) := by
  induction l generalizing i with
  | nil => rfl
  | cons x r ih => cases i with
    | zero => rfl
    | succ n => simp only [modAt, ih]

theorem get_modAt {α : Type} (l : List α) (i j : Nat) (f : α → α) : (modAt l i f)[j]? = if j = i then l[j]?.map f else l[j]? := by
  induction l generalizing i j with
  | nil => simp [modAt]
  | cons x r ih => cases i with
    | zero => cases j <;> simp [modAt]
    | succ n => cases j with
      | zero => simp [modAt]
      | succ m => simp only [modAt, List.getElem?_cons_succ, ih]; simp

theorem length_modAt {α : Type} (l : List α) (i : Nat) (f : α → α) : (modAt l i f).length = l.length := by
  induction l generalizing i with
  | nil => rfl
  | cons x r ih => cases i with
    | zero => rfl
    | succ n => simp only [modAt, List.length_cons, ih]

/-- Two changes of one group are one. -/
theorem modGroup_modGroup (s : State) (g : GRef) (f h : Group → Group) : (s.modGroup g f).modGroup g h = s.modGroup g (h ∘ f) := by
  refine (modBlock_modBlock s g.blk (fun b => b.modGroup g.grp f) (fun b => b.modGroup g.grp h) fun _ => rfl).trans ?_
  unfold State.modGroup
  congr 1
  funext b
  simp only [Function.comp, Block.modGroup, modAt_modAt]

theorem group?_modGroup_self {s : State} {g : GRef} {x : Group} (f : Group → Group) (h : s.group? g = some x) :
    (s.modGroup g f).group? g = some (f x) := by
  unfold State.group? at h ⊢
  rw [block?_modGroup, if_pos rfl]
  cases hb : s.block? g.blk with
  | none => simp [hb] at h
  | some b =>
    simp only [hb, Option.bind_some] at h
    simp only [Option.map_some, Option.bind_some, Block.modGroup, get_modAt, if_pos, h]

theorem group?_modGroup_ne {s : State} {g x : GRef} (f : Group → Group) (h : x ≠ g) : (s.modGroup g f).group? x = s.group? x := by
  unfold State.group?
  rw [block?_modGroup]
  split
  · rename_i hb
    cases hs : s.block? x.blk with
    | none => rfl
    | some b =>
      have : x.grp ≠ g.grp := fun e => h (by cases x; cases g; simp_all)
      simp only [Option.map_some, Option.bind_some, Block.modGroup, get_modAt, if_neg this]
  · rfl

theorem block?_modGroup_self {s : State} {g : GRef} {b : Block} (f : Group → Group) (h : s.block? g.blk = some b) :
    (s.modGroup g f).block? g.blk = some (b.modGroup g.grp f) := by
  rw [block?_modGroup, if_pos rfl, h]
  rfl

/-! ## Memory -/

theorem byte_modBlock (s : State) (id : Nat) (f : Block → Block) (l : Loc) (hf : ∀ b, (f b).id = b.id)
    (hs : ∀ b, (f b).sp = b.sp ∧ (f b).wb = b.wb ∧ (f b).ab = b.ab ∧ (f b).cb = b.cb) : (s.modBlock id f).byte l = s.byte l := by
  have h : (s.modBlock id f).cells l.store = s.cells l.store := by
    cases l.store with
    | pkg => rfl
    | far p => rfl
    | sp b | wb b | ab b | cb b =>
      simp only [State.cells, block?_modBlock s id b f hf]
      by_cases hb : b = id
      · rw [if_pos hb]
        cases s.block? b with
        | none => rfl
        | some x => simp [hs x]
      · rw [if_neg hb]
  unfold State.byte
  rw [h]

@[simp] theorem byte_modGroup (s : State) (g : GRef) (f : Group → Group) (l : Loc) : (s.modGroup g f).byte l = s.byte l :=
  byte_modBlock s _ _ l (fun _ => rfl) fun _ => ⟨rfl, rfl, rfl, rfl⟩

@[simp] theorem byte_setGroup (s : State) (g : GRef) (v : Group) (l : Loc) : (s.setGroup g v).byte l = s.byte l := byte_modGroup s g _ l

@[simp] theorem byte_setCore (s : State) (id : Nat) (c : Option (GRef × Bool)) (l : Loc) : (s.setCore id c).byte l = s.byte l := by
  cases l with | mk st o => cases st <;> rfl

@[simp] theorem block?_setCore (s : State) (id n : Nat) (c : Option (GRef × Bool)) : (s.setCore id c).block? n = s.block? n := rfl
@[simp] theorem group?_setCore (s : State) (id : Nat) (g : GRef) (c : Option (GRef × Bool)) : (s.setCore id c).group? g = s.group? g := rfl

theorem setCore_modGroup (s : State) (id : Nat) (c : Option (GRef × Bool)) (g : GRef) (f : Group → Group) :
    (s.setCore id c).modGroup g f = (s.modGroup g f).setCore id c := rfl

theorem coreIdOf_modGroup (s : State) (g x : GRef) (f : Group → Group) : (s.modGroup g f).coreIdOf x = s.coreIdOf x := by
  unfold State.coreIdOf
  rw [block?_modGroup]
  by_cases h : x.blk = g.blk
  · rw [if_pos h]
    cases s.block? x.blk <;> rfl
  · rw [if_neg h]

/-! ## Registers -/

@[simp] theorem rdS_wrS (g : Group) (wb n : Nat) (x : Word) : (g.wrS wb n x).rdS wb n = x := get_set_self _ _ _

theorem rdS_wrS_ne (g : Group) (wb n wb' m : Nat) (x : Word) (h : (wb' + m) % 256 ≠ (wb + n) % 256) :
    (g.wrS wb n x).rdS wb' m = g.rdS wb' m := get_set_ne _ _ h

@[simp] theorem rdV_wrV (g : Group) (wb n lane : Nat) (x : Word) : (g.wrV wb n lane x).rdV wb n lane = x := get_set_self _ _ _

theorem rdV_wrV_ne (g : Group) (wb n lane wb' m lane' : Nat) (x : Word) (h : g.vkey wb' m lane' ≠ g.vkey wb n lane) :
    (g.wrV wb n lane x).rdV wb' m lane' = g.rdV wb' m lane' := get_set_ne _ _ h

@[simp] theorem rdP_wrP (g : Group) (n : Nat) (m : Lanes) : (g.wrP n m).rdP n = m := get_set_self _ _ _

theorem rdP_wrP_ne (g : Group) (n k : Nat) (m : Lanes) (h : k ≠ n) : (g.wrP n m).rdP k = g.rdP k := get_set_ne _ _ h

end Sys2Proof.Laws
end

