-- ==== Sys2Proof/Laws/Issue.lean ====
section
/-! SUPPORT. How an instruction runs and ends: `State.run`, `Iss.conclude`, and the results that change the issuing group alone. -/

namespace Sys2Proof.Laws

open Sys2Proof Sys2Proof.Machine

/-- What stands behind an instruction at issue. -/
theorem issue_facts {s : State} {i : Iss} (h : s.issue? = some i) : i.s = s ∧ s.block? i.gr.blk = some i.b ∧ s.group? i.gr = some i.g := by
  unfold State.issue? at h
  split at h
  · cases h
  · split at h
    · rename_i hb hg
      cases h
      exact ⟨rfl, hb, hg⟩
    · cases h

theorem run_issue {s : State} {i : Iss} (h : s.issue? = some i) (f : Iss → Res) : s.run f = .next (i.conclude (f i)) := by
  unfold State.run
  rw [h]

/-- An instruction that changes the issuing group alone and ends at the next word. -/
theorem alone_done {i : Iss} (hg : i.s.group? i.gr = some i.g) (f : Group → Group) :
    i.Alone (i.conclude (.done (i.s.modGroup i.gr f) false)) ((f i.g).ended i.slotB false i.s.cycle) := by
  have e : i.conclude (.done (i.s.modGroup i.gr f) false) = i.s.modGroup i.gr fun g => (f g).ended i.slotB false i.s.cycle :=
    modGroup_modGroup _ _ _ _
  rw [e]
  exact ⟨group?_modGroup_self _ hg, fun gr h => group?_modGroup_ne _ h, fun l => byte_modGroup _ _ _ l, ⟨_, rfl⟩⟩

theorem alone_group {i : Iss} (hg : i.s.group? i.gr = some i.g) (g : Group) :
    i.Alone (i.conclude (i.group g)) (g.ended i.slotB false i.s.cycle) := alone_done hg fun _ => g

/-- An instruction of the switch-point class that changes the issuing group alone and ends at the next word. -/
theorem switched_done {i : Iss} (hg : i.s.group? i.gr = some i.g) (f : Group → Group) :
    i.Switched (i.conclude (.done (i.s.modGroup i.gr f) true)) { (f i.g).ended i.slotB true i.s.cycle with since := i.s.cycle } := by
  have e : i.conclude (.done (i.s.modGroup i.gr f) true) =
      (i.s.modGroup i.gr fun g => { (f g).ended i.slotB true i.s.cycle with since := i.s.cycle }).setCore (i.s.coreIdOf i.gr) none := by
    show State.switchPoint _ _ = _
    unfold State.switchPoint
    rw [setCore_modGroup, modGroup_modGroup, modGroup_modGroup, coreIdOf_modGroup, coreIdOf_modGroup]
    rfl
  rw [e]
  exact ⟨group?_modGroup_self (s := i.s) _ hg, fun gr h => group?_modGroup_ne (s := i.s) _ h,
    fun l => (byte_setCore _ _ _ l).trans (byte_modGroup _ _ _ l), ⟨_, rfl⟩⟩

/-- The slots of a group whose instruction has ended, where the instruction itself has left them alone. -/
theorem onward_ended {i : Iss} {g : Group} (sw : Bool) (c : Nat) (h : g.slot i.slotB = { i.sl with k := (g.slot i.slotB).k })
    (h' : g.slot (!i.slotB) = i.g.slot (!i.slotB)) : i.Onward (g.ended i.slotB sw c) := by
  have e : (g.ended i.slotB sw c).slot i.slotB = (g.slot i.slotB).advance sw := by
    cases sw <;> cases hb : i.slotB <;> rfl
  have e' : (g.ended i.slotB sw c).slot (!i.slotB) = g.slot (!i.slotB) := by
    cases sw <;> cases hb : i.slotB <;> rfl
  refine ⟨?_, ?_, ?_, ?_, ?_⟩ <;> simp only [e, e', h'] <;> rw [h] <;> rfl

/-! ## Scalar results -/

theorem rdS_putS (i : Iss) (r : BitVec 6) (x : Word) (fl : Flags) : (i.putS (.reg r) x fl).rdS i.sl.wb r.toNat = x := by
  show ((i.g.wrS i.sl.wb r.toNat x).enterLatch i.slotB (.sca x)).rdS _ _ = x
  unfold Group.enterLatch Group.modSlot Group.setSlot
  cases i.slotB <;> exact get_set_self _ _ _

theorem scalarResult (i : Iss) (d : Dst) (x : Word) (fl : Flags) : i.ScalarResult d x fl ((i.putS d x fl).ended i.slotB false i.s.cycle) := by
  have hs : ∀ wb n, ((i.putS d x fl).ended i.slotB false i.s.cycle).rdS wb n = (match d with | .reg r => i.g.wrS i.sl.wb r.toNat x | .none => i.g).rdS wb n := by
    intro wb n
    obtain ⟨s, gr, sb, w, b, g⟩ := i
    cases d <;> cases sb <;> rfl
  refine ⟨?_, ?_, ?_, ?_, ?_, ?_, ?_⟩
  · rintro r rfl
    rw [hs]
    exact rdS_wrS _ _ _ _
  · intro wb n h
    rw [hs]
    cases d with
    | none => rfl
    | reg r => exact rdS_wrS_ne _ _ _ _ _ _ (h r rfl)
  all_goals obtain ⟨s, gr, sb, w, b, g⟩ := i
  · cases d <;> cases sb <;> rfl
  · cases d <;> cases sb <;> rfl
  · cases d <;> cases sb <;> rfl
  · apply onward_ended <;> cases d <;> cases sb <;> rfl
  · cases d <;> cases sb <;> simp [Iss.putS, Group.ended, Group.enterLatch, Group.modSlot, Group.setSlot, Group.core, Group.wrS]

theorem plainResult (i : Iss) (d : Dst) (x : Word) : i.PlainResult d x ((i.g.putReg i.sl.wb d x).ended i.slotB false i.s.cycle) := by
  have hs : ∀ wb n, ((i.g.putReg i.sl.wb d x).ended i.slotB false i.s.cycle).rdS wb n = (match d with | .reg r => i.g.wrS i.sl.wb r.toNat x | .none => i.g).rdS wb n := by
    intro wb n
    obtain ⟨s, gr, sb, w, b, g⟩ := i
    cases d <;> cases sb <;> rfl
  refine ⟨?_, ?_, ?_, ?_, ?_⟩
  · rintro r rfl
    rw [hs]
    exact rdS_wrS _ _ _ _
  · intro wb n h
    rw [hs]
    cases d with
    | none => rfl
    | reg r => exact rdS_wrS_ne _ _ _ _ _ _ (h r rfl)
  all_goals obtain ⟨s, gr, sb, w, b, g⟩ := i
  · cases d <;> cases sb <;> rfl
  · apply onward_ended <;> cases d <;> cases sb <;> rfl
  · cases d <;> cases sb <;> simp [Group.putReg, Group.ended, Group.modSlot, Group.setSlot, Group.core, Group.wrS]

/-! ## Predicate results -/

@[simp] theorem orFlags_zero (g : Group) : g.orFlags 0 = g := by simp [Group.orFlags]

theorem laneIn_merge (m x old : Lanes) (l : Nat) (hl : l < 32) :
    laneIn ((old &&& ~~~ m) ||| (x &&& m)) l = if laneIn m l then laneIn x l else laneIn old l := by
  unfold laneIn
  simp only [BitVec.getLsbD_or, BitVec.getLsbD_and, BitVec.getLsbD_not]
  cases m.getLsbD l <;> simp [hl]

theorem predResult (i : Iss) (d : BitVec 5) (m x : Lanes) (fl : Flags) :
    i.PredResult d m x fl (((i.g.wrP d.toNat ((i.g.rdP d.toNat &&& ~~~ m) ||| (x &&& m))).orFlags fl).ended i.slotB false i.s.cycle) := by
  have hs : ∀ y n, ((((i.g.wrP d.toNat y).orFlags fl).ended i.slotB false i.s.cycle).rdP n) = (i.g.wrP d.toNat y).rdP n := by
    intro y n
    obtain ⟨s, gr, sb, w, b, g⟩ := i
    cases sb <;> rfl
  refine ⟨?_, ?_, ?_, ?_, ?_, ?_⟩
  · intro l hl
    rw [hs, rdP_wrP]
    exact laneIn_merge _ _ _ _ hl
  · intro n hn
    rw [hs]
    exact rdP_wrP_ne _ _ _ _ hn
  all_goals obtain ⟨s, gr, sb, w, b, g⟩ := i
  · cases sb <;> rfl
  · cases sb <;> rfl
  · apply onward_ended <;> cases sb <;> rfl
  · cases sb <;> simp [Group.orFlags, Group.ended, Group.modSlot, Group.setSlot, Group.core, Group.wrP]

/-! ## Vector results -/

theorem vkey_inj {g : Group} {wb n wb' m l k : Nat} (hl : l < 32) (hk : k < 32) (h : g.vkey wb n l = g.vkey wb' m k) :
    (wb + n) % g.av = (wb' + m) % g.av ∧ l = k := by
  unfold Group.vkey at h
  omega

theorem lanesOf_lt {m : Lanes} {l : Nat} (h : l ∈ lanesOf m) : l < 32 := by
  unfold lanesOf at h
  exact List.mem_range.1 (List.mem_filter.1 h).1

theorem mem_lanesOf {m : Lanes} {l : Nat} (h : l < 32) : l ∈ lanesOf m ↔ laneIn m l = true := by
  unfold lanesOf
  simp [h]

theorem wrVec_fold_av (ls : List Nat) (g : Group) (wb n : Nat) (f : Nat → Word) :
    (ls.foldl (fun g l => g.wrV wb n l (f l)) g).av = g.av := by
  induction ls generalizing g with
  | nil => rfl
  | cons a r ih => exact ih _

theorem rdV_wrVec_fold (ls : List Nat) (hls : ∀ l ∈ ls, l < 32) (g : Group) (wb n wb' k l : Nat) (f : Nat → Word) (hl : l < 32) :
    (ls.foldl (fun g l => g.wrV wb n l (f l)) g).rdV wb' k l =
      if l ∈ ls ∧ (wb' + k) % g.av = (wb + n) % g.av then f l else g.rdV wb' k l := by
  induction ls generalizing g with
  | nil => simp
  | cons a r ih =>
    have ha : a < 32 := hls a List.mem_cons_self
    rw [List.foldl_cons, ih (fun x hx => hls x (List.mem_cons_of_mem _ hx)), show (g.wrV wb n a (f a)).av = g.av from rfl]
    by_cases hw : (wb' + k) % g.av = (wb + n) % g.av
    · by_cases hr : l ∈ r
      · simp [hr, hw]
      · by_cases he : l = a
        · subst he
          have e : g.vkey wb' k l = g.vkey wb n l := by unfold Group.vkey; rw [hw]
          rw [if_neg (fun h => hr h.1), if_pos ⟨List.mem_cons_self, hw⟩]
          unfold Group.rdV Group.wrV
          simp only [show ({ g with v := SMap.set 0 g.v (g.vkey wb n l) (f l) } : Group).vkey wb' k l = g.vkey wb n l from e]
          exact get_set_self _ _ _
        · rw [if_neg (fun h => hr h.1), if_neg (fun h => by rcases List.mem_cons.1 h.1 with h | h; exacts [he h, hr h])]
          exact rdV_wrV_ne _ _ _ _ _ _ _ _ fun h => he (vkey_inj hl ha h).2
    · rw [if_neg (fun h => hw h.2), if_neg (fun h => hw h.2)]
      exact rdV_wrV_ne _ _ _ _ _ _ _ _ fun h => hw (vkey_inj hl ha h).1

/-- A write of some lanes of a vector register, read at any register and lane. -/
theorem rdV_wrVec (g : Group) (wb n : Nat) (m : Lanes) (f : Nat → Word) (wb' k l : Nat) (hl : l < 32) :
    (g.wrVec wb n m f).rdV wb' k l = if laneIn m l = true ∧ (wb' + k) % g.av = (wb + n) % g.av then f l else g.rdV wb' k l := by
  unfold Group.wrVec
  rw [rdV_wrVec_fold _ (fun _ h => lanesOf_lt h) g wb n wb' k l f hl]
  simp only [mem_lanesOf hl]

theorem wrVec_frame (g : Group) (wb n : Nat) (m : Lanes) (f : Nat → Word) : ∃ v, g.wrVec wb n m f = { g with v := v } := by
  unfold Group.wrVec
  generalize lanesOf m = ls
  induction ls generalizing g with
  | nil => exact ⟨g.v, rfl⟩
  | cons a r ih =>
    obtain ⟨v, h⟩ := ih (g.wrV wb n a (f a))
    exact ⟨v, h⟩

theorem rdV_latched (g : Group) (sb : Bool) (x : Latch) (fl : Flags) (c wb n l : Nat) :
    (({ g.enterLatch sb x with flags := fl } : Group).ended sb false c).rdV wb n l = g.rdV wb n l := by cases sb <;> rfl

theorem wroteV_frame (i : Iss) (d : Dst) (w : Lanes) (f : Nat → Word) : ∃ v, i.wroteV d w f = { i.g with v := v } := by
  cases d with
  | none => exact ⟨i.g.v, rfl⟩
  | reg r => exact wrVec_frame _ _ _ _ _

theorem vectorResult (i : Iss) (d : Dst) (w : Lanes) (f : Nat → Word) (fl : Flags) :
    i.VectorResult d w f fl ((i.putV d w f fl).ended i.slotB false i.s.cycle) := by
  have hr : ∀ wb n l, ((i.putV d w f fl).ended i.slotB false i.s.cycle).rdV wb n l = (i.wroteV d w f).rdV wb n l :=
    fun wb n l => rdV_latched _ i.slotB _ _ _ wb n l
  refine ⟨?_, ?_, ?_, ?_, ?_, ?_, ?_⟩
  · rintro r rfl l hl hw
    rw [hr]
    unfold Iss.wroteV
    simp only
    rw [rdV_wrVec _ _ _ _ _ _ _ _ hl, if_pos ⟨hw, rfl⟩]
  · intro wb n l hl h
    rw [hr]
    cases d with
    | none => rfl
    | reg r =>
      unfold Iss.wroteV
      simp only
      rw [rdV_wrVec _ _ _ _ _ _ _ _ hl, if_neg fun k => h r rfl k.1 k.2]
  · simp only [hr]
    unfold Iss.putV
    obtain ⟨v, hv⟩ := wroteV_frame i d w f
    rw [hv]
    obtain ⟨s, gr, sb, ww, b, g⟩ := i
    cases d <;> cases sb <;> rfl
  all_goals unfold Iss.putV; obtain ⟨v, hv⟩ := wroteV_frame i d w f; rw [hv]; obtain ⟨s, gr, sb, ww, b, g⟩ := i
  · cases sb <;> rfl
  · cases sb <;> rfl
  · apply onward_ended <;> cases sb <;> rfl
  · cases sb <;> simp [Group.ended, Group.enterLatch, Group.modSlot, Group.setSlot, Group.core]

/-! ## Whole families -/

/-- The shape of the scalar family: with its checks passed and its destination free, the result is x. -/
theorem scalar_next {s : State} {i : Iss} (h : s.issue? = some i) (d : Dst) (srcs : List Src) (x : Iss → Word)
    (hc : i.checkSca .i64 srcs = .ok ()) (hd : i.g.destBusy i.sl.wb [] (dstRegs d) = false) :
    ∃ t g', (s.run fun i => i.scalar d srcs (x i)) = .next t ∧ i.Alone t g' ∧ i.ScalarResult d (x i) 0 g' := by
  obtain ⟨rfl, _, hg⟩ := issue_facts h
  rw [run_issue h]
  refine ⟨_, _, rfl, ?_, scalarResult i d (x i) 0⟩
  have e : i.scalar d srcs (x i) = i.group (i.putS d (x i) 0) := by
    unfold Iss.scalar orTrap
    rw [hc]
    simp [hd]
  rw [e]
  exact alone_group hg _

/-- What a vector instruction computes its group from, once its checks have passed and its sources stand. -/
theorem rows_facts {i j : Iss} {row : Nat → Word} {srcs : List Src} (h : i.rows srcs = some (j, row)) :
    j.g = i.g ∧ j.gr = i.gr ∧ j.slotB = i.slotB ∧ j.word = i.word ∧ j.s.cycle = i.s.cycle := by
  unfold Iss.rows at h
  split at h
  · split at h
    · cases h; exact ⟨rfl, rfl, rfl, rfl, rfl⟩
    · cases h
  · cases h; exact ⟨rfl, rfl, rfl, rfl, rfl⟩

theorem readRow_groups {i : Iss} {r : List Word} {b : Block} (h : i.readRow = .row r b) : b.groups = i.b.groups ∧ b.id = i.b.id := by
  unfold Iss.readRow at h
  split at h
  · cases h
  · split at h
    · cases h; exact ⟨rfl, rfl⟩
    · cases h

theorem block?_id {s : State} {n : Nat} {b : Block} (h : s.block? n = some b) : b.id = n := by
  unfold State.block? at h
  simpa using List.find?_some h

theorem rows_group {i j : Iss} {row : Nat → Word} {srcs : List Src} (hb : i.s.block? i.gr.blk = some i.b) (hg : i.s.group? i.gr = some i.g)
    (h : i.rows srcs = some (j, row)) : j.s.group? j.gr = some j.g := by
  unfold Iss.rows at h
  split at h
  · split at h
    · rename_i r b hr
      cases h
      obtain ⟨e, ei⟩ := readRow_groups hr
      have hid : b.id = i.gr.blk := ei.trans (block?_id hb)
      have hblk : (i.s.modBlock i.gr.blk fun _ => b).block? i.gr.blk = some b := by
        have hmem : ∃ x ∈ i.s.blocks, x.id = i.gr.blk := ⟨i.b, List.mem_of_find?_eq_some hb, block?_id hb⟩
        unfold State.block? State.modBlock
        simp only
        obtain ⟨x, hx, hxid⟩ := hmem
        generalize i.s.blocks = bl at hx
        induction bl with
        | nil => cases hx
        | cons y r ih =>
          simp only [List.map_cons, List.find?_cons]
          by_cases hy : y.id = i.gr.blk
          · simp [hy, hid]
          · rcases List.mem_cons.1 hx with rfl | hx
            · exact absurd hxid hy
            · have : (y.id == i.gr.blk) = false := by simpa using hy
              simp only [hy, if_false, this]
              exact ih hx
      show ((i.s.modBlock i.gr.blk fun _ => b).group? i.gr) = some i.g
      unfold State.group? at hg ⊢
      rw [hblk]
      rw [hb] at hg
      simpa [e] using hg
    · cases h
  · cases h; exact hg

/-- The shape of the vector family: with its checks passed, its destinations free and its sources standing, the group becomes f. -/
theorem vector_next {s : State} {i j : Iss} {row : Nat → Word} (h : s.issue? = some i) (ok : ElemType → Bool) (srcs : List Src)
    (vd sd : List Nat) (f : Iss → (Nat → Word) → Group) (hc : i.checkVec ok srcs = .ok ()) (hd : i.g.destBusy i.sl.wb vd sd = false)
    (hr : i.rows srcs = some (j, row)) :
    i.conclude (i.vector ok srcs vd sd f) = j.conclude (j.group (f j row)) ∧
      j.Alone (i.conclude (i.vector ok srcs vd sd f)) ((f j row).ended j.slotB false j.s.cycle) := by
  obtain ⟨rfl, hb, hg⟩ := issue_facts h
  have hj := rows_group hb hg hr
  have e : i.conclude (i.vector ok srcs vd sd f) = j.conclude (j.group (f j row)) := by
    unfold Iss.vector orTrap
    rw [hc]
    simp only [hd, Bool.false_eq_true, if_false]
    unfold Iss.rows at hr
    split at hr
    · rename_i hs
      rw [if_pos hs]
      split at hr
      · rename_i r b hrow
        cases hr
        rw [hrow]
        rfl
      · cases hr
    · rename_i hs
      cases hr
      rw [if_neg hs]
  exact ⟨e, e ▸ alone_group hj _⟩

/-- %zero as a second source adds no check and no row. -/
theorem checkVec_zero {i : Iss} {ok : ElemType → Bool} {a : Src} (h : i.checkVec ok [a] = .ok ()) : i.checkVec ok [a, .spec .zero] = .ok () := by
  unfold Iss.checkVec at h ⊢
  have hz : constBad i.ty (.spec .zero) = false := by cases i.ty <;> decide
  have hl : firstTrap ([a, .spec .zero].map (i.latchBad false)) = firstTrap ([a].map (i.latchBad false)) := by
    simp only [List.map_cons, List.map_nil, show i.latchBad false (.spec .zero) = none from rfl]
    cases i.latchBad false a <;> rfl
  rw [hl]
  simpa only [List.any_cons, hz, List.any_nil, Bool.or_false] using h

theorem rows_zero (i : Iss) (a : Src) : i.rows [a, .spec .zero] = i.rows [a] := by
  unfold Iss.rows
  rw [show [a, Src.spec .zero].contains (.spec .drn) = [a].contains (.spec .drn) by simp]

/-- The shape of the cross-lane instructions with a uniform operand. -/
theorem withUniform_next {s : State} {i j : Iss} {row : Nat → Word} (h : s.issue? = some i) (u : ElemType) (a b : Src)
    (vd sd : List Nat) (f : Iss → (Nat → Word) → Group) (ht : tsAll i.ty = true) (ha : constBad i.ty a = false) (hb : constBad u b = false)
    (la : i.latchBad false a = none) (lb : i.latchBad true b = none) (hd : i.g.destBusy i.sl.wb vd sd = false) (hr : i.rows [a] = some (j, row)) :
    j.Alone (i.conclude (i.withUniform u a b vd sd f)) ((f j row).ended j.slotB false j.s.cycle) := by
  have hc : i.checkVec tsAll [a] = .ok () := by
    unfold Iss.checkVec
    simp [ht, ha, la, firstTrap]
  have e : i.withUniform u a b vd sd f = i.vector tsAll [a] vd sd f := by
    unfold Iss.withUniform
    simp [ht, ha, hb, la, lb, firstTrap, orTrap]
  rw [e]
  exact (vector_next h tsAll [a] vd sd f hc hd hr).2

end Sys2Proof.Laws
end

