-- ==== Sys2Proof/Laws/PerInstr.lean ====
section
/-! SUPPORT. For every instruction: a well-formed term's word decodes to the term, and the terms without a word are the events. -/

namespace Sys2Proof.Laws.Encoding

open Sys2Proof

/-- Decoding the word of a well-formed instruction gives the instruction back; an event has no word. -/
def Statement (i : Instr) : Prop :=
  WellFormed i = true →
    match encode i with
    | some w => decode w = .ok i
    | none => i.isEvent = true

theorem ill (ones : Bool) (i : BitVec 24) : Statement (.ill ones i) := by
  intro h
  cases ones with
  | true =>
    obtain rfl : i = 0xFFFFFF := by simpa [WellFormed] using h
    rfl
  | false =>
    refine decode_mkL fun w hL => ?_
    show (ap (.ok (Instr.ill false)) (.ok (fL w))) = _
    simp only [hL]
    rfl

theorem vadd (d : Dst) (a : Src) (b : SrcB) : Statement (.vadd d a b) := by
  intro hw
  replace hw : (drnOk a b) = true := hw
  refine decode_mkR fun w hD hA hB hX => ?_
  show (req (xIn w [0, 4]) .xval (req (drnOnce w) .src (ap (ap (ap (.ok Instr.vadd) (dDst w)) (anySrc (fA w))) (srcBOf w)))) = _
  simp only [xIn_of (l := [0, 4]) hX (by cases b <;> rfl), drnOnce_of (b := b) hA hB hw, dDst_of hD, hA, anySrc_eSrc a, srcB_of hB (by rw [hX])]
  rfl

theorem vsub (d : Dst) (a : Src) (b : SrcB) : Statement (.vsub d a b) := by
  intro hw
  replace hw : (drnOk a b) = true := hw
  refine decode_mkR fun w hD hA hB hX => ?_
  show (req (xIn w [0, 4]) .xval (req (drnOnce w) .src (ap (ap (ap (.ok Instr.vsub) (dDst w)) (anySrc (fA w))) (srcBOf w)))) = _
  simp only [xIn_of (l := [0, 4]) hX (by cases b <;> rfl), drnOnce_of (b := b) hA hB hw, dDst_of hD, hA, anySrc_eSrc a, srcB_of hB (by rw [hX])]
  rfl

theorem vmul (d : Dst) (a : Src) (b : SrcB) : Statement (.vmul d a b) := by
  intro hw
  replace hw : (drnOk a b) = true := hw
  refine decode_mkR fun w hD hA hB hX => ?_
  show (req (xIn w [0, 4]) .xval (req (drnOnce w) .src (ap (ap (ap (.ok Instr.vmul) (dDst w)) (anySrc (fA w))) (srcBOf w)))) = _
  simp only [xIn_of (l := [0, 4]) hX (by cases b <;> rfl), drnOnce_of (b := b) hA hB hw, dDst_of hD, hA, anySrc_eSrc a, srcB_of hB (by rw [hX])]
  rfl

theorem vmad (d : Dst) (a : Src) (b : SrcB) : Statement (.vmad d a b) := by
  intro hw
  replace hw : (drnOk a b) = true := hw
  refine decode_mkR fun w hD hA hB hX => ?_
  show (req (xIn w [0, 4]) .xval (req (drnOnce w) .src (ap (ap (ap (.ok Instr.vmad) (dDst w)) (anySrc (fA w))) (srcBOf w)))) = _
  simp only [xIn_of (l := [0, 4]) hX (by cases b <;> rfl), drnOnce_of (b := b) hA hB hw, dDst_of hD, hA, anySrc_eSrc a, srcB_of hB (by rw [hX])]
  rfl

theorem vmadn (d : Dst) (a : Src) (b : SrcB) : Statement (.vmadn d a b) := by
  intro hw
  replace hw : (drnOk a b) = true := hw
  refine decode_mkR fun w hD hA hB hX => ?_
  show (req (xIn w [0, 4]) .xval (req (drnOnce w) .src (ap (ap (ap (.ok Instr.vmadn) (dDst w)) (anySrc (fA w))) (srcBOf w)))) = _
  simp only [xIn_of (l := [0, 4]) hX (by cases b <;> rfl), drnOnce_of (b := b) hA hB hw, dDst_of hD, hA, anySrc_eSrc a, srcB_of hB (by rw [hX])]
  rfl

theorem vmin (d : Dst) (a : Src) (b : SrcB) : Statement (.vmin d a b) := by
  intro hw
  replace hw : (drnOk a b) = true := hw
  refine decode_mkR fun w hD hA hB hX => ?_
  show (req (xIn w [0, 4]) .xval (req (drnOnce w) .src (ap (ap (ap (.ok Instr.vmin) (dDst w)) (anySrc (fA w))) (srcBOf w)))) = _
  simp only [xIn_of (l := [0, 4]) hX (by cases b <;> rfl), drnOnce_of (b := b) hA hB hw, dDst_of hD, hA, anySrc_eSrc a, srcB_of hB (by rw [hX])]
  rfl

theorem vmax (d : Dst) (a : Src) (b : SrcB) : Statement (.vmax d a b) := by
  intro hw
  replace hw : (drnOk a b) = true := hw
  refine decode_mkR fun w hD hA hB hX => ?_
  show (req (xIn w [0, 4]) .xval (req (drnOnce w) .src (ap (ap (ap (.ok Instr.vmax) (dDst w)) (anySrc (fA w))) (srcBOf w)))) = _
  simp only [xIn_of (l := [0, 4]) hX (by cases b <;> rfl), drnOnce_of (b := b) hA hB hw, dDst_of hD, hA, anySrc_eSrc a, srcB_of hB (by rw [hX])]
  rfl

theorem vabs (d : Dst) (a : Src) : Statement (.vabs d a) := by
  intro _
  refine decode_mkR fun w hD hA hB hX => ?_
  show (req (fB w == 0) .rsvbits (req (xIn w [0]) .xval (ap (ap (.ok Instr.vabs) (dDst w)) (anySrc (fA w))))) = _
  simp only [xIn_of (l := [0]) hX (by rfl), dDst_of hD, hA, anySrc_eSrc a, hB]
  rfl

theorem vneg (d : Dst) (a : Src) : Statement (.vneg d a) := by
  intro _
  refine decode_mkR fun w hD hA hB hX => ?_
  show (req (fB w == 0) .rsvbits (req (xIn w [0]) .xval (ap (ap (.ok Instr.vneg) (dDst w)) (anySrc (fA w))))) = _
  simp only [xIn_of (l := [0]) hX (by rfl), dDst_of hD, hA, anySrc_eSrc a, hB]
  rfl

theorem vclmp (d : Dst) (a : Src) (b : SrcB) : Statement (.vclmp d a b) := by
  intro hw
  replace hw : (drnOk a b) = true := hw
  refine decode_mkR fun w hD hA hB hX => ?_
  show (req (xIn w [0, 4]) .xval (req (drnOnce w) .src (ap (ap (ap (.ok Instr.vclmp) (dDst w)) (anySrc (fA w))) (srcBOf w)))) = _
  simp only [xIn_of (l := [0, 4]) hX (by cases b <;> rfl), drnOnce_of (b := b) hA hB hw, dDst_of hD, hA, anySrc_eSrc a, srcB_of hB (by rw [hX])]
  rfl

theorem vand (d : Dst) (a : Src) (b : SrcB) : Statement (.vand d a b) := by
  intro hw
  replace hw : (drnOk a b) = true := hw
  refine decode_mkR fun w hD hA hB hX => ?_
  show (req (xIn w [0, 4]) .xval (req (drnOnce w) .src (ap (ap (ap (.ok Instr.vand) (dDst w)) (anySrc (fA w))) (srcBOf w)))) = _
  simp only [xIn_of (l := [0, 4]) hX (by cases b <;> rfl), drnOnce_of (b := b) hA hB hw, dDst_of hD, hA, anySrc_eSrc a, srcB_of hB (by rw [hX])]
  rfl

theorem vor (d : Dst) (a : Src) (b : SrcB) : Statement (.vor d a b) := by
  intro hw
  replace hw : (drnOk a b) = true := hw
  refine decode_mkR fun w hD hA hB hX => ?_
  show (req (xIn w [0, 4]) .xval (req (drnOnce w) .src (ap (ap (ap (.ok Instr.vor) (dDst w)) (anySrc (fA w))) (srcBOf w)))) = _
  simp only [xIn_of (l := [0, 4]) hX (by cases b <;> rfl), drnOnce_of (b := b) hA hB hw, dDst_of hD, hA, anySrc_eSrc a, srcB_of hB (by rw [hX])]
  rfl

theorem vxor (d : Dst) (a : Src) (b : SrcB) : Statement (.vxor d a b) := by
  intro hw
  replace hw : (drnOk a b) = true := hw
  refine decode_mkR fun w hD hA hB hX => ?_
  show (req (xIn w [0, 4]) .xval (req (drnOnce w) .src (ap (ap (ap (.ok Instr.vxor) (dDst w)) (anySrc (fA w))) (srcBOf w)))) = _
  simp only [xIn_of (l := [0, 4]) hX (by cases b <;> rfl), drnOnce_of (b := b) hA hB hw, dDst_of hD, hA, anySrc_eSrc a, srcB_of hB (by rw [hX])]
  rfl

theorem vnot (d : Dst) (a : Src) : Statement (.vnot d a) := by
  intro _
  refine decode_mkR fun w hD hA hB hX => ?_
  show (req (fB w == 0) .rsvbits (req (xIn w [0]) .xval (ap (ap (.ok Instr.vnot) (dDst w)) (anySrc (fA w))))) = _
  simp only [xIn_of (l := [0]) hX (by rfl), dDst_of hD, hA, anySrc_eSrc a, hB]
  rfl

theorem vshl (d : Dst) (a : Src) (b : SrcB) : Statement (.vshl d a b) := by
  intro hw
  replace hw : (drnOk a b) = true := hw
  refine decode_mkR fun w hD hA hB hX => ?_
  show (req (xIn w [0, 4]) .xval (req (drnOnce w) .src (ap (ap (ap (.ok Instr.vshl) (dDst w)) (anySrc (fA w))) (srcBOf w)))) = _
  simp only [xIn_of (l := [0, 4]) hX (by cases b <;> rfl), drnOnce_of (b := b) hA hB hw, dDst_of hD, hA, anySrc_eSrc a, srcB_of hB (by rw [hX])]
  rfl

theorem vshr (d : Dst) (a : Src) (b : SrcB) (r : Bool) : Statement (.vshr d a b r) := by
  intro hw
  replace hw : (drnOk a b) = true := hw
  refine decode_mkR fun w hD hA hB hX => ?_
  show (req (xIn w [0, 1, 4, 5]) .xval (req (drnOnce w) .src (ap (ap (ap (ap (.ok Instr.vshr) (dDst w)) (anySrc (fA w))) (srcBOf w)) (x0 w)))) = _
  simp only [xIn_of (l := [0, 1, 4, 5]) hX (by cases b <;> cases r <;> simp [eBc, eBit]), drnOnce_of (b := b) hA hB hw, dDst_of hD, hA, anySrc_eSrc a, srcB_of hB (by rw [hX]; cases r <;> cases b <;> simp [eBc, eBit]), x0_of (r := r) hX (by cases b <;> cases r <;> simp [eBc, eBit])]
  cases r <;> rfl

theorem vrot (d : Dst) (a : Src) (b : SrcB) : Statement (.vrot d a b) := by
  intro hw
  replace hw : (drnOk a b) = true := hw
  refine decode_mkR fun w hD hA hB hX => ?_
  show (req (xIn w [0, 4]) .xval (req (drnOnce w) .src (ap (ap (ap (.ok Instr.vrot) (dDst w)) (anySrc (fA w))) (srcBOf w)))) = _
  simp only [xIn_of (l := [0, 4]) hX (by cases b <;> rfl), drnOnce_of (b := b) hA hB hw, dDst_of hD, hA, anySrc_eSrc a, srcB_of hB (by rw [hX])]
  rfl

theorem vpopc (d : Dst) (a : Src) : Statement (.vpopc d a) := by
  intro _
  refine decode_mkR fun w hD hA hB hX => ?_
  show (req (fB w == 0) .rsvbits (req (xIn w [0]) .xval (ap (ap (.ok Instr.vpopc) (dDst w)) (anySrc (fA w))))) = _
  simp only [xIn_of (l := [0]) hX (by rfl), dDst_of hD, hA, anySrc_eSrc a, hB]
  rfl

theorem vclz (d : Dst) (a : Src) : Statement (.vclz d a) := by
  intro _
  refine decode_mkR fun w hD hA hB hX => ?_
  show (req (fB w == 0) .rsvbits (req (xIn w [0]) .xval (ap (ap (.ok Instr.vclz) (dDst w)) (anySrc (fA w))))) = _
  simp only [xIn_of (l := [0]) hX (by rfl), dDst_of hD, hA, anySrc_eSrc a, hB]
  rfl

theorem vmulh (d : Dst) (a : Src) (b : SrcB) : Statement (.vmulh d a b) := by
  intro hw
  replace hw : (drnOk a b) = true := hw
  refine decode_mkR fun w hD hA hB hX => ?_
  show (req (xIn w [0, 4]) .xval (req (drnOnce w) .src (ap (ap (ap (.ok Instr.vmulh) (dDst w)) (anySrc (fA w))) (srcBOf w)))) = _
  simp only [xIn_of (l := [0, 4]) hX (by cases b <;> rfl), drnOnce_of (b := b) hA hB hw, dDst_of hD, hA, anySrc_eSrc a, srcB_of hB (by rw [hX])]
  rfl

theorem vabd (d : Dst) (a : Src) (b : SrcB) : Statement (.vabd d a b) := by
  intro hw
  replace hw : (drnOk a b) = true := hw
  refine decode_mkR fun w hD hA hB hX => ?_
  show (req (xIn w [0, 4]) .xval (req (drnOnce w) .src (ap (ap (ap (.ok Instr.vabd) (dDst w)) (anySrc (fA w))) (srcBOf w)))) = _
  simp only [xIn_of (l := [0, 4]) hX (by cases b <;> rfl), drnOnce_of (b := b) hA hB hw, dDst_of hD, hA, anySrc_eSrc a, srcB_of hB (by rw [hX])]
  rfl

theorem vcmp (d : BitVec 5) (a : Src) (b : Src) (c : VCond) : Statement (.vcmp d a b c) := by
  intro hw
  replace hw : (predOk d && drnOk a (.src b)) = true := hw
  simp only [Bool.and_eq_true] at hw
  obtain ⟨k0, k1⟩ := hw
  refine decode_mkR fun w hD hA hB hX => ?_
  show (req (drnOnce w) .src (ap (ap (ap (ap (.ok Instr.vcmp) (dPred w)) (anySrc (fA w))) (anySrc (fB w))) (.ok (vcondOf (fX w))))) = _
  simp only [drnOnce_of (b := .src b) hA hB k1, dPred_of hD k0, hA, anySrc_eSrc a, hB, anySrc_eSrc b, hX]
  cases c <;> rfl

theorem vsel (d : Dst) (a : Src) (b : SrcB) : Statement (.vsel d a b) := by
  intro hw
  replace hw : (drnOk a b) = true := hw
  refine decode_mkR fun w hD hA hB hX => ?_
  show (req (xIn w [0, 4]) .xval (req (drnOnce w) .src (ap (ap (ap (.ok Instr.vsel) (dDst w)) (anySrc (fA w))) (srcBOf w)))) = _
  simp only [xIn_of (l := [0, 4]) hX (by cases b <;> rfl), drnOnce_of (b := b) hA hB hw, dDst_of hD, hA, anySrc_eSrc a, srcB_of hB (by rw [hX])]
  rfl

theorem vmov (d : Dst) (a : Src) : Statement (.vmov d a) := by
  intro _
  refine decode_mkR fun w hD hA hB hX => ?_
  show (req (fB w == 0) .rsvbits (req (xIn w [0]) .xval (ap (ap (.ok Instr.vmov) (dDst w)) (anySrc (fA w))))) = _
  simp only [xIn_of (l := [0]) hX (by rfl), dDst_of hD, hA, anySrc_eSrc a, hB]
  rfl

theorem vaddi (d : Dst) (a : Src) (i : BitVec 10) : Statement (.vaddi d a i) := by
  intro _
  refine decode_mkI fun w hD hA hI => ?_
  show (ap (ap (ap (.ok Instr.vaddi) (dDst w)) (anySrc (fA w))) (.ok (fI w))) = _
  simp only [dDst_of hD, hA, anySrc_eSrc a, hI]
  rfl

theorem vmovi (d : Dst) (i : BitVec 10) : Statement (.vmovi d i) := by
  intro _
  refine decode_mkI fun w hD hA hI => ?_
  show (req (fA w == 0) .rsvbits (ap (ap (.ok Instr.vmovi) (dDst w)) (.ok (fI w)))) = _
  simp only [dDst_of hD, hA, hI]
  rfl

theorem vdot (d : Dst) (a : Src) (b : SrcB) : Statement (.vdot d a b) := by
  intro hw
  replace hw : (drnOk a b) = true := hw
  refine decode_mkR fun w hD hA hB hX => ?_
  show (req (xIn w [0, 4]) .xval (req (drnOnce w) .src (ap (ap (ap (.ok Instr.vdot) (dDst w)) (anySrc (fA w))) (srcBOf w)))) = _
  simp only [xIn_of (l := [0, 4]) hX (by cases b <;> rfl), drnOnce_of (b := b) hA hB hw, dDst_of hD, hA, anySrc_eSrc a, srcB_of hB (by rw [hX])]
  rfl

theorem vhsum (d : Dst) (a : Src) : Statement (.vhsum d a) := by
  intro _
  refine decode_mkR fun w hD hA hB hX => ?_
  show (req (fB w == 0) .rsvbits (req (xIn w [0]) .xval (ap (ap (.ok Instr.vhsum) (dDst w)) (anySrc (fA w))))) = _
  simp only [xIn_of (l := [0]) hX (by rfl), dDst_of hD, hA, anySrc_eSrc a, hB]
  rfl

theorem vpack (d : Dst) (a : Src) (b : SrcB) (h : Bool) : Statement (.vpack d a b h) := by
  intro hw
  replace hw : (drnOk a b) = true := hw
  refine decode_mkR fun w hD hA hB hX => ?_
  show (req (xIn w [0, 1, 4, 5]) .xval (req (drnOnce w) .src (ap (ap (ap (ap (.ok Instr.vpack) (dDst w)) (anySrc (fA w))) (srcBOf w)) (x0 w)))) = _
  simp only [xIn_of (l := [0, 1, 4, 5]) hX (by cases b <;> cases h <;> simp [eBc, eBit]), drnOnce_of (b := b) hA hB hw, dDst_of hD, hA, anySrc_eSrc a, srcB_of hB (by rw [hX]; cases h <;> cases b <;> simp [eBc, eBit]), x0_of (r := h) hX (by cases b <;> cases h <;> simp [eBc, eBit])]
  cases h <;> rfl

theorem vunpk (d : Dst) (a : Src) (b : SrcB) (h : Bool) : Statement (.vunpk d a b h) := by
  intro hw
  replace hw : (drnOk a b) = true := hw
  refine decode_mkR fun w hD hA hB hX => ?_
  show (req (xIn w [0, 1, 4, 5]) .xval (req (drnOnce w) .src (ap (ap (ap (ap (.ok Instr.vunpk) (dDst w)) (anySrc (fA w))) (srcBOf w)) (x0 w)))) = _
  simp only [xIn_of (l := [0, 1, 4, 5]) hX (by cases b <;> cases h <;> simp [eBc, eBit]), drnOnce_of (b := b) hA hB hw, dDst_of hD, hA, anySrc_eSrc a, srcB_of hB (by rw [hX]; cases h <;> cases b <;> simp [eBc, eBit]), x0_of (r := h) hX (by cases b <;> cases h <;> simp [eBc, eBit])]
  cases h <;> rfl

theorem vcvt (d : Dst) (a : Src) (st : ElemType) (p : BitVec 3) : Statement (.vcvt d a st p) := by
  intro hw
  replace hw : (st != .d) = true := hw
  refine decode_mkR fun w hD hA hB hX => ?_
  show (ap (ap (ap (ap (.ok Instr.vcvt) (dDst w)) (anySrc (fA w))) (cvtSrc (fB w))) (.ok (fX w))) = _
  simp only [dDst_of hD, hA, anySrc_eSrc a, hB, cvtSrc_eCvt hw, hX]
  rfl

theorem vrint (d : Dst) (a : Src) (nx : Bool) : Statement (.vrint d a nx) := by
  intro _
  refine decode_mkR fun w hD hA hB hX => ?_
  show (req (fB w == 0) .rsvbits (req (xIn w [0, 1]) .xval (ap (ap (ap (.ok Instr.vrint) (dDst w)) (anySrc (fA w))) (x0 w)))) = _
  simp only [xIn_of (l := [0, 1]) hX (by cases nx <;> rfl), dDst_of hD, hA, anySrc_eSrc a, x0_of (r := nx) hX (by cases nx <;> rfl), hB]
  cases nx <;> rfl

theorem vcpys (d : Dst) (a : Src) (b : Src) : Statement (.vcpys d a b) := by
  intro hw
  replace hw : (drnOk a (.src b)) = true := hw
  refine decode_mkR fun w hD hA hB hX => ?_
  show (req (xIn w [0]) .xval (req (drnOnce w) .src (ap (ap (ap (.ok Instr.vcpys) (dDst w)) (anySrc (fA w))) (anySrc (fB w))))) = _
  simp only [xIn_of (l := [0]) hX (by rfl), drnOnce_of (b := .src b) hA hB hw, dDst_of hD, hA, anySrc_eSrc a, hB, anySrc_eSrc b]
  rfl

theorem vfcls (d : Dst) (a : Src) : Statement (.vfcls d a) := by
  intro _
  refine decode_mkR fun w hD hA hB hX => ?_
  show (req (fB w == 0) .rsvbits (req (xIn w [0]) .xval (ap (ap (.ok Instr.vfcls) (dDst w)) (anySrc (fA w))))) = _
  simp only [xIn_of (l := [0]) hX (by rfl), dDst_of hD, hA, anySrc_eSrc a, hB]
  rfl

theorem vrcp (d : Dst) (a : Src) : Statement (.vrcp d a) := by
  intro _
  refine decode_mkR fun w hD hA hB hX => ?_
  show (req (fB w == 0) .rsvbits (req (xIn w [0]) .xval (ap (ap (.ok Instr.vrcp) (dDst w)) (anySrc (fA w))))) = _
  simp only [xIn_of (l := [0]) hX (by rfl), dDst_of hD, hA, anySrc_eSrc a, hB]
  rfl

theorem vrsq (d : Dst) (a : Src) : Statement (.vrsq d a) := by
  intro _
  refine decode_mkR fun w hD hA hB hX => ?_
  show (req (fB w == 0) .rsvbits (req (xIn w [0]) .xval (ap (ap (.ok Instr.vrsq) (dDst w)) (anySrc (fA w))))) = _
  simp only [xIn_of (l := [0]) hX (by rfl), dDst_of hD, hA, anySrc_eSrc a, hB]
  rfl

theorem vsqrt (d : Dst) (a : Src) : Statement (.vsqrt d a) := by
  intro _
  refine decode_mkR fun w hD hA hB hX => ?_
  show (req (fB w == 0) .rsvbits (req (xIn w [0]) .xval (ap (ap (.ok Instr.vsqrt) (dDst w)) (anySrc (fA w))))) = _
  simp only [xIn_of (l := [0]) hX (by rfl), dDst_of hD, hA, anySrc_eSrc a, hB]
  rfl

theorem vdiv (d : Dst) (a : Src) (b : SrcB) : Statement (.vdiv d a b) := by
  intro hw
  replace hw : (drnOk a b) = true := hw
  refine decode_mkR fun w hD hA hB hX => ?_
  show (req (xIn w [0, 4]) .xval (req (drnOnce w) .src (ap (ap (ap (.ok Instr.vdiv) (dDst w)) (anySrc (fA w))) (srcBOf w)))) = _
  simp only [xIn_of (l := [0, 4]) hX (by cases b <;> rfl), drnOnce_of (b := b) hA hB hw, dDst_of hD, hA, anySrc_eSrc a, srcB_of hB (by rw [hX])]
  rfl

theorem vex2 (d : Dst) (a : Src) : Statement (.vex2 d a) := by
  intro _
  refine decode_mkR fun w hD hA hB hX => ?_
  show (req (fB w == 0) .rsvbits (req (xIn w [0]) .xval (ap (ap (.ok Instr.vex2) (dDst w)) (anySrc (fA w))))) = _
  simp only [xIn_of (l := [0]) hX (by rfl), dDst_of hD, hA, anySrc_eSrc a, hB]
  rfl

theorem vlg2 (d : Dst) (a : Src) : Statement (.vlg2 d a) := by
  intro _
  refine decode_mkR fun w hD hA hB hX => ?_
  show (req (fB w == 0) .rsvbits (req (xIn w [0]) .xval (ap (ap (.ok Instr.vlg2) (dDst w)) (anySrc (fA w))))) = _
  simp only [xIn_of (l := [0]) hX (by rfl), dDst_of hD, hA, anySrc_eSrc a, hB]
  rfl

theorem vsinp (d : Dst) (a : Src) : Statement (.vsinp d a) := by
  intro _
  refine decode_mkR fun w hD hA hB hX => ?_
  show (req (fB w == 0) .rsvbits (req (xIn w [0]) .xval (ap (ap (.ok Instr.vsinp) (dDst w)) (anySrc (fA w))))) = _
  simp only [xIn_of (l := [0]) hX (by rfl), dDst_of hD, hA, anySrc_eSrc a, hB]
  rfl

theorem vcosp (d : Dst) (a : Src) : Statement (.vcosp d a) := by
  intro _
  refine decode_mkR fun w hD hA hB hX => ?_
  show (req (fB w == 0) .rsvbits (req (xIn w [0]) .xval (ap (ap (.ok Instr.vcosp) (dDst w)) (anySrc (fA w))))) = _
  simp only [xIn_of (l := [0]) hX (by rfl), dDst_of hD, hA, anySrc_eSrc a, hB]
  rfl

theorem vtanh (d : Dst) (a : Src) : Statement (.vtanh d a) := by
  intro _
  refine decode_mkR fun w hD hA hB hX => ?_
  show (req (fB w == 0) .rsvbits (req (xIn w [0]) .xval (ap (ap (.ok Instr.vtanh) (dDst w)) (anySrc (fA w))))) = _
  simp only [xIn_of (l := [0]) hX (by rfl), dDst_of hD, hA, anySrc_eSrc a, hB]
  rfl

theorem vperm (d : Dst) (a : Src) (b : SrcB) : Statement (.vperm d a b) := by
  intro hw
  replace hw : (drnOk a b) = true := hw
  refine decode_mkR fun w hD hA hB hX => ?_
  show (req (xIn w [0, 4]) .xval (req (drnOnce w) .src (ap (ap (ap (.ok Instr.vperm) (dDst w)) (anySrc (fA w))) (srcBOf w)))) = _
  simp only [xIn_of (l := [0, 4]) hX (by cases b <;> rfl), drnOnce_of (b := b) hA hB hw, dDst_of hD, hA, anySrc_eSrc a, srcB_of hB (by rw [hX])]
  rfl

theorem vbcst (d : Dst) (a : Src) (b : Src) : Statement (.vbcst d a b) := by
  intro hw
  replace hw : (scalarOk b) = true := hw
  refine decode_mkR fun w hD hA hB hX => ?_
  show (req (xIn w [0]) .xval (ap (ap (ap (.ok Instr.vbcst) (dDst w)) (anySrc (fA w))) (scalarSrc (fB w)))) = _
  simp only [xIn_of (l := [0]) hX (by rfl), dDst_of hD, hA, anySrc_eSrc a, hB, scalarSrc_eSrc hw]
  rfl

theorem vslid (d : Dst) (a : Src) (b : Src) (r : Bool) : Statement (.vslid d a b r) := by
  intro hw
  replace hw : (scalarOk b) = true := hw
  refine decode_mkR fun w hD hA hB hX => ?_
  show (req (xIn w [0, 1]) .xval (ap (ap (ap (ap (.ok Instr.vslid) (dDst w)) (anySrc (fA w))) (scalarSrc (fB w))) (x0 w))) = _
  simp only [xIn_of (l := [0, 1]) hX (by cases r <;> rfl), dDst_of hD, hA, anySrc_eSrc a, hB, scalarSrc_eSrc hw, x0_of (r := r) hX (by cases r <;> rfl)]
  cases r <;> rfl

theorem vred (d : Dst) (a : Src) (b : Src) (p : RedOp) : Statement (.vred d a b p) := by
  intro hw
  replace hw : (scalarOk b) = true := hw
  refine decode_mkR fun w hD hA hB hX => ?_
  show (req (xIn w [0, 1, 2, 3, 4, 5]) .xval (ap (ap (ap (ap (.ok Instr.vred) (dDst w)) (anySrc (fA w))) (scalarSrc (fB w))) (.ok (redOf (fX w))))) = _
  simp only [xIn_of (l := [0, 1, 2, 3, 4, 5]) hX (by cases p <;> rfl), dDst_of hD, hA, anySrc_eSrc a, hB, scalarSrc_eSrc hw, hX]
  cases p <;> rfl

theorem vscan (d : Dst) (a : Src) (b : Src) (p : AmmOp) (ex : Bool) : Statement (.vscan d a b p ex) := by
  intro hw
  replace hw : (scalarOk b) = true := hw
  refine decode_mkR fun w hD hA hB hX => ?_
  show (req (xIn w [0, 1, 2, 4, 5, 6]) .xval (ap (ap (ap (ap (ap (.ok Instr.vscan) (dDst w)) (anySrc (fA w))) (scalarSrc (fB w))) (.ok (ammOf (fX w &&& 3)))) (x2 w))) = _
  simp only [xIn_of (l := [0, 1, 2, 4, 5, 6]) hX (by cases p <;> cases ex <;> decide), dDst_of hD, hA, anySrc_eSrc a, hB, scalarSrc_eSrc hw, x2_of (r := ex) hX (by cases p <;> cases ex <;> decide), hX]
  cases p <;> cases ex <;> rfl

theorem vbal (d : Dst) (a : Src) (c : Bool) : Statement (.vbal d a c) := by
  intro _
  refine decode_mkR fun w hD hA hB hX => ?_
  show (req (fB w == 0) .rsvbits (req (xIn w [0, 1]) .xval (ap (ap (ap (.ok Instr.vbal) (dDst w)) (anySrc (fA w))) (x0 w)))) = _
  simp only [xIn_of (l := [0, 1]) hX (by cases c <;> rfl), dDst_of hD, hA, anySrc_eSrc a, x0_of (r := c) hX (by cases c <;> rfl), hB]
  cases c <;> rfl

theorem sadd (d : Dst) (a : Src) (b : Src) : Statement (.sadd d a b) := by
  intro hw
  replace hw : (scalarOk a && scalarOk b) = true := hw
  simp only [Bool.and_eq_true] at hw
  obtain ⟨k0, k1⟩ := hw
  refine decode_mkR fun w hD hA hB hX => ?_
  show (req (xIn w [0]) .xval (ap (ap (ap (.ok Instr.sadd) (dDst w)) (scalarSrc (fA w))) (scalarSrc (fB w)))) = _
  simp only [xIn_of (l := [0]) hX (by rfl), dDst_of hD, hA, scalarSrc_eSrc k0, hB, scalarSrc_eSrc k1]
  rfl

theorem ssub (d : Dst) (a : Src) (b : Src) : Statement (.ssub d a b) := by
  intro hw
  replace hw : (scalarOk a && scalarOk b) = true := hw
  simp only [Bool.and_eq_true] at hw
  obtain ⟨k0, k1⟩ := hw
  refine decode_mkR fun w hD hA hB hX => ?_
  show (req (xIn w [0]) .xval (ap (ap (ap (.ok Instr.ssub) (dDst w)) (scalarSrc (fA w))) (scalarSrc (fB w)))) = _
  simp only [xIn_of (l := [0]) hX (by rfl), dDst_of hD, hA, scalarSrc_eSrc k0, hB, scalarSrc_eSrc k1]
  rfl

theorem smul (d : Dst) (a : Src) (b : Src) : Statement (.smul d a b) := by
  intro hw
  replace hw : (scalarOk a && scalarOk b) = true := hw
  simp only [Bool.and_eq_true] at hw
  obtain ⟨k0, k1⟩ := hw
  refine decode_mkR fun w hD hA hB hX => ?_
  show (req (xIn w [0]) .xval (ap (ap (ap (.ok Instr.smul) (dDst w)) (scalarSrc (fA w))) (scalarSrc (fB w)))) = _
  simp only [xIn_of (l := [0]) hX (by rfl), dDst_of hD, hA, scalarSrc_eSrc k0, hB, scalarSrc_eSrc k1]
  rfl

theorem smulh (d : Dst) (a : Src) (b : Src) (u : Bool) : Statement (.smulh d a b u) := by
  intro hw
  replace hw : (scalarOk a && scalarOk b) = true := hw
  simp only [Bool.and_eq_true] at hw
  obtain ⟨k0, k1⟩ := hw
  refine decode_mkR fun w hD hA hB hX => ?_
  show (req (xIn w [0, 1]) .xval (ap (ap (ap (ap (.ok Instr.smulh) (dDst w)) (scalarSrc (fA w))) (scalarSrc (fB w))) (x0 w))) = _
  simp only [xIn_of (l := [0, 1]) hX (by cases u <;> rfl), dDst_of hD, hA, scalarSrc_eSrc k0, hB, scalarSrc_eSrc k1, x0_of (r := u) hX (by cases u <;> rfl)]
  cases u <;> rfl

theorem smad (d : Dst) (a : Src) (b : Src) : Statement (.smad d a b) := by
  intro hw
  replace hw : (scalarOk a && scalarOk b) = true := hw
  simp only [Bool.and_eq_true] at hw
  obtain ⟨k0, k1⟩ := hw
  refine decode_mkR fun w hD hA hB hX => ?_
  show (req (xIn w [0]) .xval (ap (ap (ap (.ok Instr.smad) (dDst w)) (scalarSrc (fA w))) (scalarSrc (fB w)))) = _
  simp only [xIn_of (l := [0]) hX (by rfl), dDst_of hD, hA, scalarSrc_eSrc k0, hB, scalarSrc_eSrc k1]
  rfl

theorem sdiv (d : Dst) (a : Src) (b : Src) (u : Bool) : Statement (.sdiv d a b u) := by
  intro hw
  replace hw : (scalarOk a && scalarOk b) = true := hw
  simp only [Bool.and_eq_true] at hw
  obtain ⟨k0, k1⟩ := hw
  refine decode_mkR fun w hD hA hB hX => ?_
  show (req (xIn w [0, 1]) .xval (ap (ap (ap (ap (.ok Instr.sdiv) (dDst w)) (scalarSrc (fA w))) (scalarSrc (fB w))) (x0 w))) = _
  simp only [xIn_of (l := [0, 1]) hX (by cases u <;> rfl), dDst_of hD, hA, scalarSrc_eSrc k0, hB, scalarSrc_eSrc k1, x0_of (r := u) hX (by cases u <;> rfl)]
  cases u <;> rfl

theorem srem (d : Dst) (a : Src) (b : Src) (u : Bool) : Statement (.srem d a b u) := by
  intro hw
  replace hw : (scalarOk a && scalarOk b) = true := hw
  simp only [Bool.and_eq_true] at hw
  obtain ⟨k0, k1⟩ := hw
  refine decode_mkR fun w hD hA hB hX => ?_
  show (req (xIn w [0, 1]) .xval (ap (ap (ap (ap (.ok Instr.srem) (dDst w)) (scalarSrc (fA w))) (scalarSrc (fB w))) (x0 w))) = _
  simp only [xIn_of (l := [0, 1]) hX (by cases u <;> rfl), dDst_of hD, hA, scalarSrc_eSrc k0, hB, scalarSrc_eSrc k1, x0_of (r := u) hX (by cases u <;> rfl)]
  cases u <;> rfl

theorem sand (d : Dst) (a : Src) (b : Src) : Statement (.sand d a b) := by
  intro hw
  replace hw : (scalarOk a && scalarOk b) = true := hw
  simp only [Bool.and_eq_true] at hw
  obtain ⟨k0, k1⟩ := hw
  refine decode_mkR fun w hD hA hB hX => ?_
  show (req (xIn w [0]) .xval (ap (ap (ap (.ok Instr.sand) (dDst w)) (scalarSrc (fA w))) (scalarSrc (fB w)))) = _
  simp only [xIn_of (l := [0]) hX (by rfl), dDst_of hD, hA, scalarSrc_eSrc k0, hB, scalarSrc_eSrc k1]
  rfl

theorem sor (d : Dst) (a : Src) (b : Src) : Statement (.sor d a b) := by
  intro hw
  replace hw : (scalarOk a && scalarOk b) = true := hw
  simp only [Bool.and_eq_true] at hw
  obtain ⟨k0, k1⟩ := hw
  refine decode_mkR fun w hD hA hB hX => ?_
  show (req (xIn w [0]) .xval (ap (ap (ap (.ok Instr.sor) (dDst w)) (scalarSrc (fA w))) (scalarSrc (fB w)))) = _
  simp only [xIn_of (l := [0]) hX (by rfl), dDst_of hD, hA, scalarSrc_eSrc k0, hB, scalarSrc_eSrc k1]
  rfl

theorem sxor (d : Dst) (a : Src) (b : Src) : Statement (.sxor d a b) := by
  intro hw
  replace hw : (scalarOk a && scalarOk b) = true := hw
  simp only [Bool.and_eq_true] at hw
  obtain ⟨k0, k1⟩ := hw
  refine decode_mkR fun w hD hA hB hX => ?_
  show (req (xIn w [0]) .xval (ap (ap (ap (.ok Instr.sxor) (dDst w)) (scalarSrc (fA w))) (scalarSrc (fB w)))) = _
  simp only [xIn_of (l := [0]) hX (by rfl), dDst_of hD, hA, scalarSrc_eSrc k0, hB, scalarSrc_eSrc k1]
  rfl

theorem snot (d : Dst) (a : Src) : Statement (.snot d a) := by
  intro hw
  replace hw : (scalarOk a) = true := hw
  refine decode_mkR fun w hD hA hB hX => ?_
  show (req (fB w == 0) .rsvbits (req (xIn w [0]) .xval (ap (ap (.ok Instr.snot) (dDst w)) (scalarSrc (fA w))))) = _
  simp only [xIn_of (l := [0]) hX (by rfl), dDst_of hD, hA, scalarSrc_eSrc hw, hB]
  rfl

theorem sshl (d : Dst) (a : Src) (b : Src) : Statement (.sshl d a b) := by
  intro hw
  replace hw : (scalarOk a && scalarOk b) = true := hw
  simp only [Bool.and_eq_true] at hw
  obtain ⟨k0, k1⟩ := hw
  refine decode_mkR fun w hD hA hB hX => ?_
  show (req (xIn w [0]) .xval (ap (ap (ap (.ok Instr.sshl) (dDst w)) (scalarSrc (fA w))) (scalarSrc (fB w)))) = _
  simp only [xIn_of (l := [0]) hX (by rfl), dDst_of hD, hA, scalarSrc_eSrc k0, hB, scalarSrc_eSrc k1]
  rfl

theorem sshr (d : Dst) (a : Src) (b : Src) (u : Bool) : Statement (.sshr d a b u) := by
  intro hw
  replace hw : (scalarOk a && scalarOk b) = true := hw
  simp only [Bool.and_eq_true] at hw
  obtain ⟨k0, k1⟩ := hw
  refine decode_mkR fun w hD hA hB hX => ?_
  show (req (xIn w [0, 1]) .xval (ap (ap (ap (ap (.ok Instr.sshr) (dDst w)) (scalarSrc (fA w))) (scalarSrc (fB w))) (x0 w))) = _
  simp only [xIn_of (l := [0, 1]) hX (by cases u <;> rfl), dDst_of hD, hA, scalarSrc_eSrc k0, hB, scalarSrc_eSrc k1, x0_of (r := u) hX (by cases u <;> rfl)]
  cases u <;> rfl

theorem srot (d : Dst) (a : Src) (b : Src) : Statement (.srot d a b) := by
  intro hw
  replace hw : (scalarOk a && scalarOk b) = true := hw
  simp only [Bool.and_eq_true] at hw
  obtain ⟨k0, k1⟩ := hw
  refine decode_mkR fun w hD hA hB hX => ?_
  show (req (xIn w [0]) .xval (ap (ap (ap (.ok Instr.srot) (dDst w)) (scalarSrc (fA w))) (scalarSrc (fB w)))) = _
  simp only [xIn_of (l := [0]) hX (by rfl), dDst_of hD, hA, scalarSrc_eSrc k0, hB, scalarSrc_eSrc k1]
  rfl

theorem smin (d : Dst) (a : Src) (b : Src) (u : Bool) : Statement (.smin d a b u) := by
  intro hw
  replace hw : (scalarOk a && scalarOk b) = true := hw
  simp only [Bool.and_eq_true] at hw
  obtain ⟨k0, k1⟩ := hw
  refine decode_mkR fun w hD hA hB hX => ?_
  show (req (xIn w [0, 1]) .xval (ap (ap (ap (ap (.ok Instr.smin) (dDst w)) (scalarSrc (fA w))) (scalarSrc (fB w))) (x0 w))) = _
  simp only [xIn_of (l := [0, 1]) hX (by cases u <;> rfl), dDst_of hD, hA, scalarSrc_eSrc k0, hB, scalarSrc_eSrc k1, x0_of (r := u) hX (by cases u <;> rfl)]
  cases u <;> rfl

theorem smax (d : Dst) (a : Src) (b : Src) (u : Bool) : Statement (.smax d a b u) := by
  intro hw
  replace hw : (scalarOk a && scalarOk b) = true := hw
  simp only [Bool.and_eq_true] at hw
  obtain ⟨k0, k1⟩ := hw
  refine decode_mkR fun w hD hA hB hX => ?_
  show (req (xIn w [0, 1]) .xval (ap (ap (ap (ap (.ok Instr.smax) (dDst w)) (scalarSrc (fA w))) (scalarSrc (fB w))) (x0 w))) = _
  simp only [xIn_of (l := [0, 1]) hX (by cases u <;> rfl), dDst_of hD, hA, scalarSrc_eSrc k0, hB, scalarSrc_eSrc k1, x0_of (r := u) hX (by cases u <;> rfl)]
  cases u <;> rfl

theorem spopc (d : Dst) (a : Src) : Statement (.spopc d a) := by
  intro hw
  replace hw : (scalarOk a) = true := hw
  refine decode_mkR fun w hD hA hB hX => ?_
  show (req (fB w == 0) .rsvbits (req (xIn w [0]) .xval (ap (ap (.ok Instr.spopc) (dDst w)) (scalarSrc (fA w))))) = _
  simp only [xIn_of (l := [0]) hX (by rfl), dDst_of hD, hA, scalarSrc_eSrc hw, hB]
  rfl

theorem sclz (d : Dst) (a : Src) : Statement (.sclz d a) := by
  intro hw
  replace hw : (scalarOk a) = true := hw
  refine decode_mkR fun w hD hA hB hX => ?_
  show (req (fB w == 0) .rsvbits (req (xIn w [0]) .xval (ap (ap (.ok Instr.sclz) (dDst w)) (scalarSrc (fA w))))) = _
  simp only [xIn_of (l := [0]) hX (by rfl), dDst_of hD, hA, scalarSrc_eSrc hw, hB]
  rfl

theorem scmp (d : Dst) (a : Src) (b : Src) (c : SCond) : Statement (.scmp d a b c) := by
  intro hw
  replace hw : (scalarOk a && scalarOk b) = true := hw
  simp only [Bool.and_eq_true] at hw
  obtain ⟨k0, k1⟩ := hw
  refine decode_mkR fun w hD hA hB hX => ?_
  show (ap (ap (ap (ap (.ok Instr.scmp) (dDst w)) (scalarSrc (fA w))) (scalarSrc (fB w))) (.ok (scondOf (fX w)))) = _
  simp only [dDst_of hD, hA, scalarSrc_eSrc k0, hB, scalarSrc_eSrc k1, hX]
  cases c <;> rfl

theorem ssel (d : Dst) (a : Src) (b : Src) : Statement (.ssel d a b) := by
  intro hw
  replace hw : (scalarOk a && scalarOk b) = true := hw
  simp only [Bool.and_eq_true] at hw
  obtain ⟨k0, k1⟩ := hw
  refine decode_mkR fun w hD hA hB hX => ?_
  show (req (xIn w [0]) .xval (ap (ap (ap (.ok Instr.ssel) (dDst w)) (scalarSrc (fA w))) (scalarSrc (fB w)))) = _
  simp only [xIn_of (l := [0]) hX (by rfl), dDst_of hD, hA, scalarSrc_eSrc k0, hB, scalarSrc_eSrc k1]
  rfl

theorem smov (d : Dst) (a : Src) : Statement (.smov d a) := by
  intro hw
  replace hw : (scalarOk a) = true := hw
  refine decode_mkR fun w hD hA hB hX => ?_
  show (req (fB w == 0) .rsvbits (req (xIn w [0]) .xval (ap (ap (.ok Instr.smov) (dDst w)) (scalarSrc (fA w))))) = _
  simp only [xIn_of (l := [0]) hX (by rfl), dDst_of hD, hA, scalarSrc_eSrc hw, hB]
  rfl

theorem saddi (d : Dst) (a : Src) (i : BitVec 10) : Statement (.saddi d a i) := by
  intro hw
  replace hw : (scalarOk a) = true := hw
  refine decode_mkI fun w hD hA hI => ?_
  show (ap (ap (ap (.ok Instr.saddi) (dDst w)) (scalarSrc (fA w))) (.ok (fI w))) = _
  simp only [dDst_of hD, hA, scalarSrc_eSrc hw, hI]
  rfl

theorem smovi (d : Dst) (i : BitVec 10) : Statement (.smovi d i) := by
  intro _
  refine decode_mkI fun w hD hA hI => ?_
  show (req (fA w == 0) .rsvbits (ap (ap (.ok Instr.smovi) (dDst w)) (.ok (fI w)))) = _
  simp only [dDst_of hD, hA, hI]
  rfl

theorem sshi (d : Dst) (i : BitVec 10) : Statement (.sshi d i) := by
  intro _
  refine decode_mkI fun w hD hA hI => ?_
  show (req (fA w == 0) .rsvbits (ap (ap (.ok Instr.sshi) (dDst w)) (.ok (fI w)))) = _
  simp only [dDst_of hD, hA, hI]
  rfl

theorem slea (d : Dst) (a : Src) (b : Src) (n : BitVec 3) : Statement (.slea d a b n) := by
  intro hw
  replace hw : (scalarOk a && scalarOk b) = true := hw
  simp only [Bool.and_eq_true] at hw
  obtain ⟨k0, k1⟩ := hw
  refine decode_mkR fun w hD hA hB hX => ?_
  show (ap (ap (ap (ap (.ok Instr.slea) (dDst w)) (scalarSrc (fA w))) (scalarSrc (fB w))) (.ok (fX w))) = _
  simp only [dDst_of hD, hA, scalarSrc_eSrc k0, hB, scalarSrc_eSrc k1, hX]
  rfl

theorem sext (d : Dst) (a : Src) (t : ExtKind) : Statement (.sext d a t) := by
  intro hw
  replace hw : (scalarOk a) = true := hw
  refine decode_mkR fun w hD hA hB hX => ?_
  show (req (fB w == 0) .rsvbits (req (xIn w [0, 1, 2, 4, 5, 6]) .xval (ap (ap (ap (.ok Instr.sext) (dDst w)) (scalarSrc (fA w))) (.ok (extOf (fX w)))))) = _
  simp only [xIn_of (l := [0, 1, 2, 4, 5, 6]) hX (by cases t <;> rfl), dDst_of hD, hA, scalarSrc_eSrc hw, hB, hX]
  cases t <;> rfl

theorem sbfx (d : Dst) (a : Src) (b : Src) (s : Bool) : Statement (.sbfx d a b s) := by
  intro hw
  replace hw : (scalarOk a && scalarOk b) = true := hw
  simp only [Bool.and_eq_true] at hw
  obtain ⟨k0, k1⟩ := hw
  refine decode_mkR fun w hD hA hB hX => ?_
  show (req (xIn w [0, 1]) .xval (ap (ap (ap (ap (.ok Instr.sbfx) (dDst w)) (scalarSrc (fA w))) (scalarSrc (fB w))) (x0 w))) = _
  simp only [xIn_of (l := [0, 1]) hX (by cases s <;> rfl), dDst_of hD, hA, scalarSrc_eSrc k0, hB, scalarSrc_eSrc k1, x0_of (r := s) hX (by cases s <;> rfl)]
  cases s <;> rfl

theorem sbfi (d : Dst) (a : Src) (b : Src) : Statement (.sbfi d a b) := by
  intro hw
  replace hw : (scalarOk a && scalarOk b) = true := hw
  simp only [Bool.and_eq_true] at hw
  obtain ⟨k0, k1⟩ := hw
  refine decode_mkR fun w hD hA hB hX => ?_
  show (req (xIn w [0]) .xval (ap (ap (ap (.ok Instr.sbfi) (dDst w)) (scalarSrc (fA w))) (scalarSrc (fB w)))) = _
  simp only [xIn_of (l := [0]) hX (by rfl), dDst_of hD, hA, scalarSrc_eSrc k0, hB, scalarSrc_eSrc k1]
  rfl

theorem bra (o : BitVec 24) : Statement (.bra o) := by
  intro _
  refine decode_mkL fun w hL => ?_
  show (ap (.ok Instr.bra) (.ok (fL w))) = _
  simp only [hL]
  rfl

theorem brs (c : BitVec 6) (n : Bool) (o : BitVec 12) : Statement (.brs c n o) := by
  intro _
  refine decode_mkB fun w hD hN hT hO => ?_
  show (req (fT w == 0) .rsvbits (ap (ap (ap (.ok Instr.brs) (bReg w)) (.ok (fN w))) (.ok (fO w)))) = _
  simp only [bReg_of hD, hN, hT, hO]
  rfl

theorem brp (c : BitVec 5) (n : Bool) (t : BitVec 4) (o : BitVec 12) : Statement (.brp c n t o) := by
  intro hw
  replace hw : (predOk c) = true := hw
  refine decode_mkB fun w hD hN hT hO => ?_
  show (ap (ap (ap (ap (.ok Instr.brp) (bPred w)) (.ok (fN w))) (.ok (fT w))) (.ok (fO w))) = _
  simp only [bPred_of hD hw, hN, hT, hO]
  rfl

theorem brk (c : BitVec 5) (n : Bool) (t : BitVec 4) (o : BitVec 12) : Statement (.brk c n t o) := by
  intro hw
  replace hw : (predOk c) = true := hw
  refine decode_mkB fun w hD hN hT hO => ?_
  show (ap (ap (ap (ap (.ok Instr.brk) (bPred w)) (.ok (fN w))) (.ok (fT w))) (.ok (fO w))) = _
  simp only [bPred_of hD hw, hN, hT, hO]
  rfl

theorem join (t : BitVec 4) : Statement (.join t) := by
  intro _
  refine decode_mkB fun w hD hN hT hO => ?_
  show (req (fD w == 0 && !(fN w) && fO w == 0) .rsvbits (ap (.ok Instr.join) (.ok (fT w)))) = _
  simp only [hD, hN, hT, hO]
  rfl

theorem call (k : BitVec 4) (o : BitVec 20) : Statement (.call k o) := by
  intro _
  refine decode_mkL fun w hL => ?_
  show (ap (ap (.ok Instr.call) (.ok ((fL w).extractLsb' 20 4))) (.ok ((fL w).extractLsb' 0 20))) = _
  simp only [hL]
  exact congrArg₂ (fun x y => (Except.ok (Instr.call x y) : Dec Instr)) ((extract_high k o 20 4 (by decide)).trans (extract_all k))
    ((extract_low k o 0 20 (by decide)).trans (extract_all o))

theorem calli (a : Src) (k : BitVec 4) : Statement (.calli a k) := by
  intro hw
  replace hw : (uniformOk a) = true := hw
  refine decode_mkI fun w hD hA hI => ?_
  show (req (fD w == 0) .rsvbits (req ((fI w).toNat < 16) .rsvbits (ap (ap (.ok Instr.calli) (uniformSrc (fA w))) (.ok ((fI w).setWidth 4))))) = _
  simp only [hA, uniformSrc_eSrc hw, hD, hI, four_fits k, four_back k]
  rfl

theorem ret (k : BitVec 4) : Statement (.ret k) := by
  intro _
  refine decode_mkL fun w hL => ?_
  show (req ((fL w).toNat < 16) .rsvbits (ap (.ok Instr.ret) (.ok ((fL w).setWidth 4)))) = _
  rw [hL]
  clear * -
  revert k; decide

theorem jmpi (a : Src) : Statement (.jmpi a) := by
  intro hw
  replace hw : (uniformOk a) = true := hw
  refine decode_mkR fun w hD hA hB hX => ?_
  show (req (fD w == 0) .rsvbits (req (fB w == 0) .rsvbits (req (xIn w [0]) .xval (ap (.ok Instr.jmpi) (uniformSrc (fA w)))))) = _
  simp only [xIn_of (l := [0]) hX (by rfl), hA, uniformSrc_eSrc hw, hD, hB]
  rfl

theorem trap (i : BitVec 24) : Statement (.trap i) := by
  intro _
  refine decode_mkL fun w hL => ?_
  show (ap (.ok Instr.trap) (.ok (fL w))) = _
  simp only [hL]
  rfl

theorem dbnz (c : BitVec 6) (n : Bool) (o : BitVec 12) : Statement (.dbnz c n o) := by
  intro _
  refine decode_mkB fun w hD hN hT hO => ?_
  show (req (fT w == 0) .rsvbits (ap (ap (ap (.ok Instr.dbnz) (bReg w)) (.ok (fN w))) (.ok (fO w)))) = _
  simp only [bReg_of hD, hN, hT, hO]
  rfl

theorem pand (d : BitVec 5) (a : BitVec 5) (b : BitVec 5) (n : Bool) : Statement (.pand d a b n) := by
  intro hw
  replace hw : (predOk d && predOk a && predOk b) = true := hw
  simp only [Bool.and_eq_true] at hw
  obtain ⟨⟨k0, k1⟩, k2⟩ := hw
  refine decode_mkR fun w hD hA hB hX => ?_
  show (req (xIn w [0, 1]) .xval (ap (ap (ap (ap (.ok Instr.pand) (dPred w)) (predSrc (fA w))) (predSrc (fB w))) (x0 w))) = _
  simp only [xIn_of (l := [0, 1]) hX (by cases n <;> rfl), dPred_of hD k0, hA, predSrc_ePred k1, hB, predSrc_ePred k2, x0_of (r := n) hX (by cases n <;> rfl)]
  cases n <;> rfl

theorem por (d : BitVec 5) (a : BitVec 5) (b : BitVec 5) (n : Bool) : Statement (.por d a b n) := by
  intro hw
  replace hw : (predOk d && predOk a && predOk b) = true := hw
  simp only [Bool.and_eq_true] at hw
  obtain ⟨⟨k0, k1⟩, k2⟩ := hw
  refine decode_mkR fun w hD hA hB hX => ?_
  show (req (xIn w [0, 1]) .xval (ap (ap (ap (ap (.ok Instr.por) (dPred w)) (predSrc (fA w))) (predSrc (fB w))) (x0 w))) = _
  simp only [xIn_of (l := [0, 1]) hX (by cases n <;> rfl), dPred_of hD k0, hA, predSrc_ePred k1, hB, predSrc_ePred k2, x0_of (r := n) hX (by cases n <;> rfl)]
  cases n <;> rfl

theorem pxor (d : BitVec 5) (a : BitVec 5) (b : BitVec 5) (n : Bool) : Statement (.pxor d a b n) := by
  intro hw
  replace hw : (predOk d && predOk a && predOk b) = true := hw
  simp only [Bool.and_eq_true] at hw
  obtain ⟨⟨k0, k1⟩, k2⟩ := hw
  refine decode_mkR fun w hD hA hB hX => ?_
  show (req (xIn w [0, 1]) .xval (ap (ap (ap (ap (.ok Instr.pxor) (dPred w)) (predSrc (fA w))) (predSrc (fB w))) (x0 w))) = _
  simp only [xIn_of (l := [0, 1]) hX (by cases n <;> rfl), dPred_of hD k0, hA, predSrc_ePred k1, hB, predSrc_ePred k2, x0_of (r := n) hX (by cases n <;> rfl)]
  cases n <;> rfl

theorem pnot (d : BitVec 5) (a : BitVec 5) : Statement (.pnot d a) := by
  intro hw
  replace hw : (predOk d && predOk a) = true := hw
  simp only [Bool.and_eq_true] at hw
  obtain ⟨k0, k1⟩ := hw
  refine decode_mkR fun w hD hA hB hX => ?_
  show (req (fB w == 0) .rsvbits (req (xIn w [0]) .xval (ap (ap (.ok Instr.pnot) (dPred w)) (predSrc (fA w))))) = _
  simp only [xIn_of (l := [0]) hX (by rfl), dPred_of hD k0, hA, predSrc_ePred k1, hB]
  rfl

theorem pmov (d : BitVec 5) (a : BitVec 5) : Statement (.pmov d a) := by
  intro hw
  replace hw : (predOk d && predOk a) = true := hw
  simp only [Bool.and_eq_true] at hw
  obtain ⟨k0, k1⟩ := hw
  refine decode_mkR fun w hD hA hB hX => ?_
  show (req (fB w == 0) .rsvbits (req (xIn w [0]) .xval (ap (ap (.ok Instr.pmov) (dPred w)) (predSrc (fA w))))) = _
  simp only [xIn_of (l := [0]) hX (by rfl), dPred_of hD k0, hA, predSrc_ePred k1, hB]
  rfl

theorem psetm (d : BitVec 5) (a : Src) : Statement (.psetm d a) := by
  intro hw
  replace hw : (predOk d && uniformOk a) = true := hw
  simp only [Bool.and_eq_true] at hw
  obtain ⟨k0, k1⟩ := hw
  refine decode_mkR fun w hD hA hB hX => ?_
  show (req (fB w == 0) .rsvbits (req (xIn w [0]) .xval (ap (ap (.ok Instr.psetm) (dPred w)) (uniformSrc (fA w))))) = _
  simp only [xIn_of (l := [0]) hX (by rfl), dPred_of hD k0, hA, uniformSrc_eSrc k1, hB]
  rfl

theorem pgetm (d : BitVec 6) (a : BitVec 5) (m : Bool) : Statement (.pgetm d a m) := by
  intro hw
  replace hw : (predOk a) = true := hw
  refine decode_mkR fun w hD hA hB hX => ?_
  show (req (fB w == 0) .rsvbits (req (xIn w [0, 1]) .xval (ap (ap (ap (.ok Instr.pgetm) (dReg w .rsvbits)) (predSrc (fA w))) (x0 w)))) = _
  simp only [xIn_of (l := [0, 1]) hX (by cases m <;> rfl), dReg_of hD, hA, predSrc_ePred hw, x0_of (r := m) hX (by cases m <;> rfl), hB]
  cases m <;> rfl

theorem pany (d : BitVec 6) (a : BitVec 5) : Statement (.pany d a) := by
  intro hw
  replace hw : (predOk a) = true := hw
  refine decode_mkR fun w hD hA hB hX => ?_
  show (req (fB w == 0) .rsvbits (req (xIn w [0]) .xval (ap (ap (.ok Instr.pany) (dReg w .rsvbits)) (predSrc (fA w))))) = _
  simp only [xIn_of (l := [0]) hX (by rfl), dReg_of hD, hA, predSrc_ePred hw, hB]
  rfl

theorem pall (d : BitVec 6) (a : BitVec 5) : Statement (.pall d a) := by
  intro hw
  replace hw : (predOk a) = true := hw
  refine decode_mkR fun w hD hA hB hX => ?_
  show (req (fB w == 0) .rsvbits (req (xIn w [0]) .xval (ap (ap (.ok Instr.pall) (dReg w .rsvbits)) (predSrc (fA w))))) = _
  simp only [xIn_of (l := [0]) hX (by rfl), dReg_of hD, hA, predSrc_ePred hw, hB]
  rfl

theorem pcnt (d : BitVec 6) (a : BitVec 5) : Statement (.pcnt d a) := by
  intro hw
  replace hw : (predOk a) = true := hw
  refine decode_mkR fun w hD hA hB hX => ?_
  show (req (fB w == 0) .rsvbits (req (xIn w [0]) .xval (ap (ap (.ok Instr.pcnt) (dReg w .rsvbits)) (predSrc (fA w))))) = _
  simp only [xIn_of (l := [0]) hX (by rfl), dReg_of hD, hA, predSrc_ePred hw, hB]
  rfl

theorem vld (d : Dst) (a : Src) (b : Src) (x : Space) : Statement (.vld d a b x) := by
  intro hw
  replace hw : (laneOk a && uniformOk b) = true := hw
  simp only [Bool.and_eq_true] at hw
  obtain ⟨k0, k1⟩ := hw
  refine decode_mkR fun w hD hA hB hX => ?_
  show (req (xIn w [0, 1, 2, 3, 4]) .xval (ap (ap (ap (ap (.ok Instr.vld) (dDst w)) (laneSrc (fA w))) (uniformSrc (fB w))) (.ok (spaceOf (fX w))))) = _
  simp only [xIn_of (l := [0, 1, 2, 3, 4]) hX (by cases x <;> rfl), dDst_of hD, hA, laneSrc_eSrc k0, hB, uniformSrc_eSrc k1, hX]
  cases x <;> rfl

theorem vst (d : BitVec 6) (a : Src) (b : Src) (x : Space) : Statement (.vst d a b x) := by
  intro hw
  replace hw : (laneOk a && uniformOk b) = true := hw
  simp only [Bool.and_eq_true] at hw
  obtain ⟨k0, k1⟩ := hw
  refine decode_mkR fun w hD hA hB hX => ?_
  show (req (xIn w [0, 1, 2, 3, 4]) .xval (ap (ap (ap (ap (.ok Instr.vst) (dReg w .src)) (laneSrc (fA w))) (uniformSrc (fB w))) (.ok (spaceOf (fX w))))) = _
  simp only [xIn_of (l := [0, 1, 2, 3, 4]) hX (by cases x <;> rfl), dReg_of hD, hA, laneSrc_eSrc k0, hB, uniformSrc_eSrc k1, hX]
  cases x <;> rfl

theorem vlde (d : Dst) (a : Src) (b : Src) (x : Space) : Statement (.vlde d a b x) := by
  intro hw
  replace hw : (laneOk a && uniformOk b) = true := hw
  simp only [Bool.and_eq_true] at hw
  obtain ⟨k0, k1⟩ := hw
  refine decode_mkR fun w hD hA hB hX => ?_
  show (req (xIn w [0, 1, 2, 3, 4]) .xval (ap (ap (ap (ap (.ok Instr.vlde) (dDst w)) (laneSrc (fA w))) (uniformSrc (fB w))) (.ok (spaceOf (fX w))))) = _
  simp only [xIn_of (l := [0, 1, 2, 3, 4]) hX (by cases x <;> rfl), dDst_of hD, hA, laneSrc_eSrc k0, hB, uniformSrc_eSrc k1, hX]
  cases x <;> rfl

theorem vste (d : BitVec 6) (a : Src) (b : Src) (x : Space) : Statement (.vste d a b x) := by
  intro hw
  replace hw : (laneOk a && uniformOk b) = true := hw
  simp only [Bool.and_eq_true] at hw
  obtain ⟨k0, k1⟩ := hw
  refine decode_mkR fun w hD hA hB hX => ?_
  show (req (xIn w [0, 1, 2, 3, 4]) .xval (ap (ap (ap (ap (.ok Instr.vste) (dReg w .src)) (laneSrc (fA w))) (uniformSrc (fB w))) (.ok (spaceOf (fX w))))) = _
  simp only [xIn_of (l := [0, 1, 2, 3, 4]) hX (by cases x <;> rfl), dReg_of hD, hA, laneSrc_eSrc k0, hB, uniformSrc_eSrc k1, hX]
  cases x <;> rfl

theorem vldd (d : BitVec 5) (a : Src) (b : Src) : Statement (.vldd d a b) := by
  intro hw
  replace hw : (laneOk a && uniformOk b) = true := hw
  simp only [Bool.and_eq_true] at hw
  obtain ⟨k0, k1⟩ := hw
  refine decode_mkR fun w hD hA hB hX => ?_
  show (req (xIn w [0]) .xval (ap (ap (ap (.ok Instr.vldd) (dEven w)) (laneSrc (fA w))) (uniformSrc (fB w)))) = _
  simp only [xIn_of (l := [0]) hX (by rfl), dEven_of hD, hA, laneSrc_eSrc k0, hB, uniformSrc_eSrc k1]
  rfl

theorem sld (d : Dst) (a : Src) (b : Src) (spm : Bool) : Statement (.sld d a b spm) := by
  intro hw
  replace hw : (uniformOk a && uniformOk b) = true := hw
  simp only [Bool.and_eq_true] at hw
  obtain ⟨k0, k1⟩ := hw
  refine decode_mkR fun w hD hA hB hX => ?_
  show (req (xIn w [0, 1]) .xval (ap (ap (ap (ap (.ok Instr.sld) (dDst w)) (uniformSrc (fA w))) (uniformSrc (fB w))) (x0 w))) = _
  simp only [xIn_of (l := [0, 1]) hX (by cases spm <;> rfl), dDst_of hD, hA, uniformSrc_eSrc k0, hB, uniformSrc_eSrc k1, x0_of (r := spm) hX (by cases spm <;> rfl)]
  cases spm <;> rfl

theorem sst (d : BitVec 6) (a : Src) (b : Src) (spm : Bool) : Statement (.sst d a b spm) := by
  intro hw
  replace hw : (uniformOk a && uniformOk b) = true := hw
  simp only [Bool.and_eq_true] at hw
  obtain ⟨k0, k1⟩ := hw
  refine decode_mkR fun w hD hA hB hX => ?_
  show (req (xIn w [0, 1]) .xval (ap (ap (ap (ap (.ok Instr.sst) (dReg w .src)) (uniformSrc (fA w))) (uniformSrc (fB w))) (x0 w))) = _
  simp only [xIn_of (l := [0, 1]) hX (by cases spm <;> rfl), dReg_of hD, hA, uniformSrc_eSrc k0, hB, uniformSrc_eSrc k1, x0_of (r := spm) hX (by cases spm <;> rfl)]
  cases spm <;> rfl

theorem vldb (d : Dst) (a : Src) (b : Src) (x : Space) : Statement (.vldb d a b x) := by
  intro hw
  replace hw : (uniformOk a && uniformOk b) = true := hw
  simp only [Bool.and_eq_true] at hw
  obtain ⟨k0, k1⟩ := hw
  refine decode_mkR fun w hD hA hB hX => ?_
  show (req (xIn w [0, 1, 2, 3, 4]) .xval (ap (ap (ap (ap (.ok Instr.vldb) (dDst w)) (uniformSrc (fA w))) (uniformSrc (fB w))) (.ok (spaceOf (fX w))))) = _
  simp only [xIn_of (l := [0, 1, 2, 3, 4]) hX (by cases x <;> rfl), dDst_of hD, hA, uniformSrc_eSrc k0, hB, uniformSrc_eSrc k1, hX]
  cases x <;> rfl

theorem vstb (d : BitVec 6) (a : Src) (b : Src) (x : Space) : Statement (.vstb d a b x) := by
  intro hw
  replace hw : (uniformOk a && uniformOk b) = true := hw
  simp only [Bool.and_eq_true] at hw
  obtain ⟨k0, k1⟩ := hw
  refine decode_mkR fun w hD hA hB hX => ?_
  show (req (xIn w [0, 1, 2, 3, 4]) .xval (ap (ap (ap (ap (.ok Instr.vstb) (dReg w .src)) (uniformSrc (fA w))) (uniformSrc (fB w))) (.ok (spaceOf (fX w))))) = _
  simp only [xIn_of (l := [0, 1, 2, 3, 4]) hX (by cases x <;> rfl), dReg_of hD, hA, uniformSrc_eSrc k0, hB, uniformSrc_eSrc k1, hX]
  cases x <;> rfl

theorem ldds (d : Dst) (a : Src) (b : Src) : Statement (.ldds d a b) := by
  intro hw
  replace hw : (laneOk a && uniformOk b) = true := hw
  simp only [Bool.and_eq_true] at hw
  obtain ⟨k0, k1⟩ := hw
  refine decode_mkR fun w hD hA hB hX => ?_
  show (req (xIn w [0]) .xval (ap (ap (ap (.ok Instr.ldds) (dDst w)) (laneSrc (fA w))) (uniformSrc (fB w)))) = _
  simp only [xIn_of (l := [0]) hX (by rfl), dDst_of hD, hA, laneSrc_eSrc k0, hB, uniformSrc_eSrc k1]
  rfl

theorem stds (d : BitVec 6) (a : Src) (b : Src) : Statement (.stds d a b) := by
  intro hw
  replace hw : (laneOk a && uniformOk b) = true := hw
  simp only [Bool.and_eq_true] at hw
  obtain ⟨k0, k1⟩ := hw
  refine decode_mkR fun w hD hA hB hX => ?_
  show (req (xIn w [0]) .xval (ap (ap (ap (.ok Instr.stds) (dReg w .src)) (laneSrc (fA w))) (uniformSrc (fB w)))) = _
  simp only [xIn_of (l := [0]) hX (by rfl), dReg_of hD, hA, laneSrc_eSrc k0, hB, uniformSrc_eSrc k1]
  rfl

theorem vgath (d : Dst) (a : BitVec 6) (b : Src) (x : Space) : Statement (.vgath d a b x) := by
  intro hw
  replace hw : (uniformOk b) = true := hw
  refine decode_mkR fun w hD hA hB hX => ?_
  show (req (xIn w [0, 1, 2, 3, 4]) .xval (ap (ap (ap (ap (.ok Instr.vgath) (dDst w)) (regRun (fA w) 1)) (uniformSrc (fB w))) (.ok (spaceOf (fX w))))) = _
  simp only [xIn_of (l := [0, 1, 2, 3, 4]) hX (by cases x <;> rfl), dDst_of hD, hA, regRun1_eReg a, hB, uniformSrc_eSrc hw, hX]
  cases x <;> rfl

theorem atom (d : Dst) (a : Src) (b : Src) (p : AtomOp) : Statement (.atom d a b p) := by
  intro hw
  replace hw : (laneOk a && laneOk b) = true := hw
  simp only [Bool.and_eq_true] at hw
  obtain ⟨k0, k1⟩ := hw
  refine decode_mkR fun w hD hA hB hX => ?_
  show (ap (ap (ap (ap (.ok Instr.atom) (dDst w)) (laneSrc (fA w))) (laneSrc (fB w))) (.ok (atomOf (fX w)))) = _
  simp only [dDst_of hD, hA, laneSrc_eSrc k0, hB, laneSrc_eSrc k1, hX]
  cases p <;> rfl

theorem atoms (d : Dst) (a : Src) (b : Src) (p : AtomOp) : Statement (.atoms d a b p) := by
  intro hw
  replace hw : (laneOk a && laneOk b) = true := hw
  simp only [Bool.and_eq_true] at hw
  obtain ⟨k0, k1⟩ := hw
  refine decode_mkR fun w hD hA hB hX => ?_
  show (ap (ap (ap (ap (.ok Instr.atoms) (dDst w)) (laneSrc (fA w))) (laneSrc (fB w))) (.ok (atomOf (fX w)))) = _
  simp only [dDst_of hD, hA, laneSrc_eSrc k0, hB, laneSrc_eSrc k1, hX]
  cases p <;> rfl

theorem atomf (d : Dst) (a : Src) (b : Src) (p : AmmOp) : Statement (.atomf d a b p) := by
  intro hw
  replace hw : (laneOk a && laneOk b) = true := hw
  simp only [Bool.and_eq_true] at hw
  obtain ⟨k0, k1⟩ := hw
  refine decode_mkR fun w hD hA hB hX => ?_
  show (req (xIn w [0, 1, 2]) .xval (ap (ap (ap (ap (.ok Instr.atomf) (dDst w)) (laneSrc (fA w))) (laneSrc (fB w))) (.ok (ammOf (fX w))))) = _
  simp only [xIn_of (l := [0, 1, 2]) hX (by cases p <;> rfl), dDst_of hD, hA, laneSrc_eSrc k0, hB, laneSrc_eSrc k1, hX]
  cases p <;> rfl

theorem atomo (a : Src) (b : Src) : Statement (.atomo a b) := by
  intro hw
  replace hw : (laneOk a && laneOk b) = true := hw
  simp only [Bool.and_eq_true] at hw
  obtain ⟨k0, k1⟩ := hw
  refine decode_mkR fun w hD hA hB hX => ?_
  show (req (fD w == 0) .rsvbits (req (xIn w [0]) .xval (ap (ap (.ok Instr.atomo) (laneSrc (fA w))) (laneSrc (fB w))))) = _
  simp only [xIn_of (l := [0]) hX (by rfl), hA, laneSrc_eSrc k0, hB, laneSrc_eSrc k1, hD]
  rfl

theorem waitc (k : BitVec 10) : Statement (.waitc k) := by
  intro _
  refine decode_mkI fun w hD hA hI => ?_
  show (req (fD w == 0) .rsvbits (req (fA w == 0) .rsvbits (ap (.ok Instr.waitc) (.ok (fI w))))) = _
  simp only [hD, hA, hI]
  rfl

theorem waitv (d : BitVec 6) (a : Src) : Statement (.waitv d a) := by
  intro hw
  replace hw : (uniformOk a) = true := hw
  refine decode_mkI fun w hD hA hI => ?_
  show (req (fI w == 0) .rsvbits (ap (ap (.ok Instr.waitv) (dReg w .src)) (uniformSrc (fA w)))) = _
  simp only [dReg_of hD, hA, uniformSrc_eSrc hw, hI]
  rfl

theorem fence (sc : Scope) : Statement (.fence sc) := by
  intro _
  refine decode_mkR fun w hD hA hB hX => ?_
  show (req (fD w == 0) .rsvbits (req (fA w == 0) .rsvbits (req (fB w == 0) .rsvbits (req (xIn w [0, 1, 2, 3, 4]) .xval (ap (.ok Instr.fence) (.ok (scopeOf (fX w)))))))) = _
  simp only [xIn_of (l := [0, 1, 2, 3, 4]) hX (by cases sc <;> rfl), hD, hA, hB, hX]
  cases sc <;> rfl

theorem tfence (sc : Scope) : Statement (.tfence sc) := by
  intro _
  refine decode_mkR fun w hD hA hB hX => ?_
  show (req (fD w == 0) .rsvbits (req (fA w == 0) .rsvbits (req (fB w == 0) .rsvbits (req (xIn w [0, 1, 2, 3, 4]) .xval (ap (.ok Instr.tfence) (.ok (scopeOf (fX w)))))))) = _
  simp only [xIn_of (l := [0, 1, 2, 3, 4]) hX (by cases sc <;> rfl), hD, hA, hB, hX]
  cases sc <;> rfl

theorem pref (a : Src) (b : Src) : Statement (.pref a b) := by
  intro hw
  replace hw : (laneOk a && uniformOk b) = true := hw
  simp only [Bool.and_eq_true] at hw
  obtain ⟨k0, k1⟩ := hw
  refine decode_mkR fun w hD hA hB hX => ?_
  show (req (fD w == 0) .rsvbits (req (xIn w [0]) .xval (ap (ap (.ok Instr.pref) (laneSrc (fA w))) (uniformSrc (fB w))))) = _
  simp only [xIn_of (l := [0]) hX (by rfl), hA, laneSrc_eSrc k0, hB, uniformSrc_eSrc k1, hD]
  rfl

theorem samp (d : Dst) (a : Src) (b : Src) (hi : Bool) : Statement (.samp d a b hi) := by
  intro hw
  replace hw : (laneOk a && uniformOk b) = true := hw
  simp only [Bool.and_eq_true] at hw
  obtain ⟨k0, k1⟩ := hw
  refine decode_mkR fun w hD hA hB hX => ?_
  show (req (xIn w [0, 1]) .xval (ap (ap (ap (ap (.ok Instr.samp) (dDst w)) (laneSrc (fA w))) (uniformSrc (fB w))) (x0 w))) = _
  simp only [xIn_of (l := [0, 1]) hX (by cases hi <;> rfl), dDst_of hD, hA, laneSrc_eSrc k0, hB, uniformSrc_eSrc k1, x0_of (r := hi) hX (by cases hi <;> rfl)]
  cases hi <;> rfl

theorem sampg (d : Dst) (a : Src) (b : Src) (hi : Bool) : Statement (.sampg d a b hi) := by
  intro hw
  replace hw : (laneOk a && uniformOk b) = true := hw
  simp only [Bool.and_eq_true] at hw
  obtain ⟨k0, k1⟩ := hw
  refine decode_mkR fun w hD hA hB hX => ?_
  show (req (xIn w [0, 1]) .xval (ap (ap (ap (ap (.ok Instr.sampg) (dDst w)) (laneSrc (fA w))) (uniformSrc (fB w))) (x0 w))) = _
  simp only [xIn_of (l := [0, 1]) hX (by cases hi <;> rfl), dDst_of hD, hA, laneSrc_eSrc k0, hB, uniformSrc_eSrc k1, x0_of (r := hi) hX (by cases hi <;> rfl)]
  cases hi <;> rfl

theorem cpa (d : BitVec 6) (a : Src) (b : Src) (t : BitVec 3) : Statement (.cpa d a b t) := by
  intro hw
  replace hw : (laneOk a && laneOk b) = true := hw
  simp only [Bool.and_eq_true] at hw
  obtain ⟨k0, k1⟩ := hw
  refine decode_mkR fun w hD hA hB hX => ?_
  show (ap (ap (ap (ap (.ok Instr.cpa) (dReg w .src)) (laneSrc (fA w))) (laneSrc (fB w))) (.ok (fX w))) = _
  simp only [dReg_of hD, hA, laneSrc_eSrc k0, hB, laneSrc_eSrc k1, hX]
  rfl

theorem cpwt (k : BitVec 7) (t : BitVec 3) : Statement (.cpwt k t) := by
  intro _
  refine decode_mkI fun w hD hA hI => ?_
  show (req (fD w == 0) .rsvbits (req (fA w == 0) .rsvbits (ap (ap (.ok Instr.cpwt) (.ok ((fI w).extractLsb' 3 7))) (.ok ((fI w).extractLsb' 0 3))))) = _
  simp only [hD, hA, hI]
  exact congrArg₂ (fun x y => (Except.ok (Instr.cpwt x y) : Dec Instr)) ((extract_high k t 3 7 (by decide)).trans (extract_all k))
    ((extract_low k t 0 3 (by decide)).trans (extract_all t))

theorem cpb (a : Src) : Statement (.cpb a) := by
  intro hw
  replace hw : (uniformOk a) = true := hw
  refine decode_mkR fun w hD hA hB hX => ?_
  show (req (fD w == 0) .rsvbits (req (fB w == 0) .rsvbits (req (xIn w [0]) .xval (ap (.ok Instr.cpb) (uniformSrc (fA w)))))) = _
  simp only [xIn_of (l := [0]) hX (by rfl), hA, uniformSrc_eSrc hw, hD, hB]
  rfl

theorem cpt (a : Src) (b : Src) : Statement (.cpt a b) := by
  intro hw
  replace hw : (uniformOk a && uniformOk b) = true := hw
  simp only [Bool.and_eq_true] at hw
  obtain ⟨k0, k1⟩ := hw
  refine decode_mkR fun w hD hA hB hX => ?_
  show (req (fD w == 0) .rsvbits (req (xIn w [0]) .xval (ap (ap (.ok Instr.cpt) (uniformSrc (fA w))) (uniformSrc (fB w))))) = _
  simp only [xIn_of (l := [0]) hX (by rfl), hA, uniformSrc_eSrc k0, hB, uniformSrc_eSrc k1, hD]
  rfl

theorem syncw (a : Src) (b : Src) : Statement (.syncw a b) := by
  intro hw
  replace hw : (uniformOk a && uniformOk b) = true := hw
  simp only [Bool.and_eq_true] at hw
  obtain ⟨k0, k1⟩ := hw
  refine decode_mkR fun w hD hA hB hX => ?_
  show (req (fD w == 0) .rsvbits (req (xIn w [0]) .xval (ap (ap (.ok Instr.syncw) (uniformSrc (fA w))) (uniformSrc (fB w))))) = _
  simp only [xIn_of (l := [0]) hX (by rfl), hA, uniformSrc_eSrc k0, hB, uniformSrc_eSrc k1, hD]
  rfl

theorem bar (a : Src) (n : BitVec 4) : Statement (.bar a n) := by
  intro hw
  replace hw : (uniformOk a) = true := hw
  refine decode_mkI fun w hD hA hI => ?_
  show (req (fD w == 0) .rsvbits (req ((fI w).toNat < 16) .rsvbits (ap (ap (.ok Instr.bar) (uniformSrc (fA w))) (.ok ((fI w).setWidth 4))))) = _
  simp only [hA, uniformSrc_eSrc hw, hD, hI, four_fits n, four_back n]
  rfl

theorem bara (a : Src) (n : BitVec 4) : Statement (.bara a n) := by
  intro hw
  replace hw : (uniformOk a) = true := hw
  refine decode_mkI fun w hD hA hI => ?_
  show (req (fD w == 0) .rsvbits (req ((fI w).toNat < 16) .rsvbits (ap (ap (.ok Instr.bara) (uniformSrc (fA w))) (.ok ((fI w).setWidth 4))))) = _
  simp only [hA, uniformSrc_eSrc hw, hD, hI, four_fits n, four_back n]
  rfl

theorem barw (a : Src) (n : BitVec 4) : Statement (.barw a n) := by
  intro hw
  replace hw : (uniformOk a) = true := hw
  refine decode_mkI fun w hD hA hI => ?_
  show (req (fD w == 0) .rsvbits (req ((fI w).toNat < 16) .rsvbits (ap (ap (.ok Instr.barw) (uniformSrc (fA w))) (.ok ((fI w).setWidth 4))))) = _
  simp only [hA, uniformSrc_eSrc hw, hD, hI, four_fits n, four_back n]
  rfl

theorem tlwait (a : Src) (n : BitVec 4) : Statement (.tlwait a n) := by
  intro hw
  replace hw : (uniformOk a) = true := hw
  refine decode_mkI fun w hD hA hI => ?_
  show (req (fD w == 0) .rsvbits (req ((fI w).toNat < 16) .rsvbits (ap (ap (.ok Instr.tlwait) (uniformSrc (fA w))) (.ok ((fI w).setWidth 4))))) = _
  simp only [hA, uniformSrc_eSrc hw, hD, hI, four_fits n, four_back n]
  rfl

theorem tladv (a : Src) (n : BitVec 4) : Statement (.tladv a n) := by
  intro hw
  replace hw : (uniformOk a && decide (4 ≤ n.toNat)) = true := hw
  simp only [Bool.and_eq_true] at hw
  obtain ⟨k0, k1⟩ := hw
  refine decode_mkI fun w hD hA hI => ?_
  show (req (fD w == 0) .rsvbits (req (4 ≤ (fI w).toNat % 16) .xval (req ((fI w).toNat < 16) .rsvbits (ap (ap (.ok Instr.tladv) (uniformSrc (fA w))) (.ok ((fI w).setWidth 4)))))) = _
  simp only [hA, uniformSrc_eSrc k0, hD, hI, four_fits n, four_back n, four_high k1]
  rfl

theorem tlget (d : Dst) (sel : TlSel) (n : BitVec 4) : Statement (.tlget d sel n) := by
  intro _
  refine decode_mkI fun w hD hA hI => ?_
  show (req (fA w == 0) .rsvbits (req ((fI w).extractLsb' 4 2 != 3) .xval (req ((fI w).toNat < 64) .rsvbits (ap (ap (ap (.ok Instr.tlget) (dDst w)) (.ok (tlSelOf ((fI w).extractLsb' 4 2)))) (.ok ((fI w).setWidth 4)))))) = _
  simp only [dDst_of hD, hA, hI, selector_fits, selector_is, selector_back, number_back]
  rfl

theorem gangset (a : Src) : Statement (.gangset a) := by
  intro hw
  replace hw : (uniformOk a) = true := hw
  refine decode_mkR fun w hD hA hB hX => ?_
  show (req (fD w == 0) .rsvbits (req (fB w == 0) .rsvbits (req (xIn w [0]) .xval (ap (.ok Instr.gangset) (uniformSrc (fA w)))))) = _
  simp only [xIn_of (l := [0]) hX (by rfl), hA, uniformSrc_eSrc hw, hD, hB]
  rfl

theorem mma (d : BitVec 6) (a : BitVec 6) (b : BitVec 6) : Statement (.mma d a b) := by
  intro hw
  replace hw : (runOk a 2 && runOk b 2) = true := hw
  simp only [Bool.and_eq_true] at hw
  obtain ⟨k0, k1⟩ := hw
  refine decode_mkR fun w hD hA hB hX => ?_
  show (req (xIn w [0]) .xval (ap (ap (ap (.ok Instr.mma) (dReg w .src)) (regRun (fA w) 2)) (regRun (fB w) 2))) = _
  simp only [xIn_of (l := [0]) hX (by rfl), dReg_of hD, hA, regRun2_eReg k0, hB, regRun2_eReg k1]
  rfl

theorem mmal (d : BitVec 6) (a : BitVec 6) (b : BitVec 6) : Statement (.mmal d a b) := by
  intro hw
  replace hw : (runOk d 2 && runOk a 2 && runOk b 2) = true := hw
  simp only [Bool.and_eq_true] at hw
  obtain ⟨⟨k0, k1⟩, k2⟩ := hw
  refine decode_mkR fun w hD hA hB hX => ?_
  show (req (xIn w [0]) .xval (ap (ap (ap (.ok Instr.mmal) (dRun w 2)) (regRun (fA w) 2)) (regRun (fB w) 2))) = _
  simp only [xIn_of (l := [0]) hX (by rfl), dRun2_of hD k0, hA, regRun2_eReg k1, hB, regRun2_eReg k2]
  rfl

theorem mconv (d : BitVec 6) (a : BitVec 6) (b : BitVec 6) : Statement (.mconv d a b) := by
  intro hw
  replace hw : (runOk d 2 && runOk a 2 && runOk b 2) = true := hw
  simp only [Bool.and_eq_true] at hw
  obtain ⟨⟨k0, k1⟩, k2⟩ := hw
  refine decode_mkR fun w hD hA hB hX => ?_
  show (req (xIn w [0]) .xval (ap (ap (ap (.ok Instr.mconv) (dRun w 2)) (regRun (fA w) 2)) (regRun (fB w) 2))) = _
  simp only [xIn_of (l := [0]) hX (by rfl), dRun2_of hD k0, hA, regRun2_eReg k1, hB, regRun2_eReg k2]
  rfl

theorem mconvl (d : BitVec 6) (a : BitVec 6) (b : BitVec 6) : Statement (.mconvl d a b) := by
  intro hw
  replace hw : (runOk d 3 && runOk a 2 && runOk b 2) = true := hw
  simp only [Bool.and_eq_true] at hw
  obtain ⟨⟨k0, k1⟩, k2⟩ := hw
  refine decode_mkR fun w hD hA hB hX => ?_
  show (req (xIn w [0]) .xval (ap (ap (ap (.ok Instr.mconvl) (dRun w 3)) (regRun (fA w) 2)) (regRun (fB w) 2))) = _
  simp only [xIn_of (l := [0]) hX (by rfl), dRun3_of hD k0, hA, regRun2_eReg k1, hB, regRun2_eReg k2]
  rfl

theorem mdrn (a : Src) (b : Src) : Statement (.mdrn a b) := by
  intro hw
  replace hw : (uniformOk a && uniformOk b) = true := hw
  simp only [Bool.and_eq_true] at hw
  obtain ⟨k0, k1⟩ := hw
  refine decode_mkR fun w hD hA hB hX => ?_
  show (req (fD w == 0) .rsvbits (req (xIn w [0]) .xval (ap (ap (.ok Instr.mdrn) (uniformSrc (fA w))) (uniformSrc (fB w))))) = _
  simp only [xIn_of (l := [0]) hX (by rfl), hA, uniformSrc_eSrc k0, hB, uniformSrc_eSrc k1, hD]
  rfl

theorem mdst (d : BitVec 6) (a : Src) (b : Src) (x : BitVec 2) : Statement (.mdst d a b x) := by
  intro hw
  replace hw : (uniformOk a && uniformOk b) = true := hw
  simp only [Bool.and_eq_true] at hw
  obtain ⟨k0, k1⟩ := hw
  refine decode_mkR fun w hD hA hB hX => ?_
  show (req (xIn w [0, 1, 2, 3]) .xval (ap (ap (ap (ap (.ok Instr.mdst) (dReg w .src)) (uniformSrc (fA w))) (uniformSrc (fB w))) (.ok ((fX w).setWidth 2)))) = _
  simp only [xIn_of (l := [0, 1, 2, 3]) hX (by clear * -; revert x; decide), dReg_of hD, hA, uniformSrc_eSrc k0, hB, uniformSrc_eSrc k1, hX, pair_back x]
  rfl

theorem mlda (d : BitVec 6) (a : Src) (b : Src) (x : BitVec 2) : Statement (.mlda d a b x) := by
  intro hw
  replace hw : (uniformOk a && uniformOk b) = true := hw
  simp only [Bool.and_eq_true] at hw
  obtain ⟨k0, k1⟩ := hw
  refine decode_mkR fun w hD hA hB hX => ?_
  show (req (xIn w [0, 1, 2, 3]) .xval (ap (ap (ap (ap (.ok Instr.mlda) (dReg w .src)) (uniformSrc (fA w))) (uniformSrc (fB w))) (.ok ((fX w).setWidth 2)))) = _
  simp only [xIn_of (l := [0, 1, 2, 3]) hX (by clear * -; revert x; decide), dReg_of hD, hA, uniformSrc_eSrc k0, hB, uniformSrc_eSrc k1, hX, pair_back x]
  rfl

theorem mqry (d : BitVec 6) (sel : MqSel) : Statement (.mqry d sel) := by
  intro _
  refine decode_mkR fun w hD hA hB hX => ?_
  show (req (fA w == 0) .rsvbits (req (fB w == 0) .rsvbits (req (xIn w [0, 1, 2]) .xval (ap (ap (.ok Instr.mqry) (dReg w .src)) (.ok (mqOf (fX w))))))) = _
  simp only [xIn_of (l := [0, 1, 2]) hX (by cases sel <;> rfl), dReg_of hD, hA, hB, hX]
  cases sel <;> rfl

theorem plwin (a : Src) : Statement (.plwin a) := by
  intro hw
  replace hw : (uniformOk a) = true := hw
  refine decode_mkR fun w hD hA hB hX => ?_
  show (req (fD w == 0) .rsvbits (req (fB w == 0) .rsvbits (req (xIn w [0]) .xval (ap (.ok Instr.plwin) (uniformSrc (fA w)))))) = _
  simp only [xIn_of (l := [0]) hX (by rfl), hA, uniformSrc_eSrc hw, hD, hB]
  rfl

theorem pleval (d : BitVec 5) (a : BitVec 6) : Statement (.pleval d a) := by
  intro hw
  replace hw : (runOk a 6) = true := hw
  refine decode_mkR fun w hD hA hB hX => ?_
  show (req (fB w == 0) .rsvbits (req (xIn w [0]) .xval (ap (ap (.ok Instr.pleval) (dCell w 32)) (regRun (fA w) 6)))) = _
  simp only [xIn_of (l := [0]) hX (by rfl), dCell32_of hD, hA, regRun6_eReg hw, hB]
  rfl

theorem plexp (d : BitVec 5) (a : BitVec 6) : Statement (.plexp d a) := by
  intro hw
  replace hw : (runOk a 6) = true := hw
  refine decode_mkR fun w hD hA hB hX => ?_
  show (req (fB w == 0) .rsvbits (req (xIn w [0]) .xval (ap (ap (.ok Instr.plexp) (dCell w 32)) (regRun (fA w) 6)))) = _
  simp only [xIn_of (l := [0]) hX (by rfl), dCell32_of hD, hA, regRun6_eReg hw, hB]
  rfl

theorem pllin (d : BitVec 5) (a : BitVec 6) : Statement (.pllin d a) := by
  intro hw
  replace hw : (runOk a 3) = true := hw
  refine decode_mkR fun w hD hA hB hX => ?_
  show (req (fB w == 0) .rsvbits (req (xIn w [0]) .xval (ap (ap (.ok Instr.pllin) (dCell w 32)) (regRun (fA w) 3)))) = _
  simp only [xIn_of (l := [0]) hX (by rfl), dCell32_of hD, hA, regRun3_eReg hw, hB]
  rfl

theorem plfma (d : BitVec 5) (a : CellSrc) (b : CellSrcB) : Statement (.plfma d a b) := by
  intro _
  refine decode_mkR fun w hD hA hB hX => ?_
  show (req (xIn w [0, 4]) .xval (ap (ap (ap (.ok Instr.plfma) (dCell w 32)) (cellSrc (fA w))) (cellBOf w))) = _
  simp only [xIn_of (l := [0, 4]) hX (by cases b <;> rfl), dCell32_of hD, hA, cellSrc_e a, cellB_of hB hX]
  rfl

theorem pladd (d : BitVec 5) (a : CellSrc) (b : CellSrcB) : Statement (.pladd d a b) := by
  intro _
  refine decode_mkR fun w hD hA hB hX => ?_
  show (req (xIn w [0, 4]) .xval (ap (ap (ap (.ok Instr.pladd) (dCell w 32)) (cellSrc (fA w))) (cellBOf w))) = _
  simp only [xIn_of (l := [0, 4]) hX (by cases b <;> rfl), dCell32_of hD, hA, cellSrc_e a, cellB_of hB hX]
  rfl

theorem plmul (d : BitVec 5) (a : CellSrc) (b : CellSrcB) : Statement (.plmul d a b) := by
  intro _
  refine decode_mkR fun w hD hA hB hX => ?_
  show (req (xIn w [0, 4]) .xval (ap (ap (ap (.ok Instr.plmul) (dCell w 32)) (cellSrc (fA w))) (cellBOf w))) = _
  simp only [xIn_of (l := [0, 4]) hX (by cases b <;> rfl), dCell32_of hD, hA, cellSrc_e a, cellB_of hB hX]
  rfl

theorem plmin (d : BitVec 5) (a : CellSrc) (b : CellSrcB) : Statement (.plmin d a b) := by
  intro _
  refine decode_mkR fun w hD hA hB hX => ?_
  show (req (xIn w [0, 4]) .xval (ap (ap (ap (.ok Instr.plmin) (dCell w 32)) (cellSrc (fA w))) (cellBOf w))) = _
  simp only [xIn_of (l := [0, 4]) hX (by cases b <;> rfl), dCell32_of hD, hA, cellSrc_e a, cellB_of hB hX]
  rfl

theorem plmax (d : BitVec 5) (a : CellSrc) (b : CellSrcB) : Statement (.plmax d a b) := by
  intro _
  refine decode_mkR fun w hD hA hB hX => ?_
  show (req (xIn w [0, 4]) .xval (ap (ap (ap (.ok Instr.plmax) (dCell w 32)) (cellSrc (fA w))) (cellBOf w))) = _
  simp only [xIn_of (l := [0, 4]) hX (by cases b <;> rfl), dCell32_of hD, hA, cellSrc_e a, cellB_of hB hX]
  rfl

theorem plmov (d : BitVec 5) (a : CellSrc) : Statement (.plmov d a) := by
  intro _
  refine decode_mkR fun w hD hA hB hX => ?_
  show (req (fB w == 0) .rsvbits (req (xIn w [0]) .xval (ap (ap (.ok Instr.plmov) (dCell w 32)) (cellSrc (fA w))))) = _
  simp only [xIn_of (l := [0]) hX (by rfl), dCell32_of hD, hA, cellSrc_e a, hB]
  rfl

theorem plcmp (a : CellSrc) (b : CellSrc) (c : VCond) : Statement (.plcmp a b c) := by
  intro _
  refine decode_mkR fun w hD hA hB hX => ?_
  show (req (fD w == 0) .rsvbits (ap (ap (ap (.ok Instr.plcmp) (cellSrc (fA w))) (cellSrc (fB w))) (.ok (vcondOf (fX w))))) = _
  simp only [hA, cellSrc_e a, hB, cellSrc_e b, hD, hX]
  cases c <;> rfl

theorem plsel (d : BitVec 5) (a : CellSrc) (b : CellSrcB) : Statement (.plsel d a b) := by
  intro _
  refine decode_mkR fun w hD hA hB hX => ?_
  show (req (xIn w [0, 4]) .xval (ap (ap (ap (.ok Instr.plsel) (dCell w 32)) (cellSrc (fA w))) (cellBOf w))) = _
  simp only [xIn_of (l := [0, 4]) hX (by cases b <;> rfl), dCell32_of hD, hA, cellSrc_e a, cellB_of hB hX]
  rfl

theorem plshf (d : BitVec 5) (a : CellSrc) (cl : Bool) (dir : Dir) : Statement (.plshf d a cl dir) := by
  intro _
  refine decode_mkR fun w hD hA hB hX => ?_
  show (req (fB w == 0) .rsvbits (ap (ap (ap (ap (.ok Instr.plshf) (dCell w 32)) (cellSrc (fA w))) (x2 w)) (.ok (dirOf (fX w &&& 3))))) = _
  simp only [dCell32_of hD, hA, cellSrc_e a, x2_of (r := cl) hX (by cases dir <;> cases cl <;> decide), hB, hX]
  cases dir <;> cases cl <;> rfl

theorem plld (d : BitVec 5) (a : Src) (b : Src) (spm : Bool) : Statement (.plld d a b spm) := by
  intro hw
  replace hw : (uniformOk a && uniformOk b) = true := hw
  simp only [Bool.and_eq_true] at hw
  obtain ⟨k0, k1⟩ := hw
  refine decode_mkR fun w hD hA hB hX => ?_
  show (req (xIn w [0, 1]) .xval (ap (ap (ap (ap (.ok Instr.plld) (dCell w 32)) (uniformSrc (fA w))) (uniformSrc (fB w))) (x0 w))) = _
  simp only [xIn_of (l := [0, 1]) hX (by cases spm <;> rfl), dCell32_of hD, hA, uniformSrc_eSrc k0, hB, uniformSrc_eSrc k1, x0_of (r := spm) hX (by cases spm <;> rfl)]
  cases spm <;> rfl

theorem plst (d : BitVec 5) (a : Src) (b : Src) (spm : Bool) : Statement (.plst d a b spm) := by
  intro hw
  replace hw : (uniformOk a && uniformOk b) = true := hw
  simp only [Bool.and_eq_true] at hw
  obtain ⟨k0, k1⟩ := hw
  refine decode_mkR fun w hD hA hB hX => ?_
  show (req (xIn w [0, 1]) .xval (ap (ap (ap (ap (.ok Instr.plst) (dCell w 32)) (uniformSrc (fA w))) (uniformSrc (fB w))) (x0 w))) = _
  simp only [xIn_of (l := [0, 1]) hX (by cases spm <;> rfl), dCell32_of hD, hA, uniformSrc_eSrc k0, hB, uniformSrc_eSrc k1, x0_of (r := spm) hX (by cases spm <;> rfl)]
  cases spm <;> rfl

theorem plred (d : BitVec 6) (a : CellSrc) (b : Src) (p : AmmOp) : Statement (.plred d a b p) := by
  intro hw
  replace hw : (uniformOk b) = true := hw
  refine decode_mkR fun w hD hA hB hX => ?_
  show (req (xIn w [0, 1, 2]) .xval (ap (ap (ap (ap (.ok Instr.plred) (dReg w .src)) (cellSrc (fA w))) (uniformSrc (fB w))) (.ok (ammOf (fX w))))) = _
  simp only [xIn_of (l := [0, 1, 2]) hX (by cases p <;> rfl), dReg_of hD, hA, cellSrc_e a, hB, uniformSrc_eSrc hw, hX]
  cases p <;> rfl

theorem plexc (d : BitVec 6) (a : Src) (clr : Bool) : Statement (.plexc d a clr) := by
  intro hw
  replace hw : (uniformOk a) = true := hw
  refine decode_mkR fun w hD hA hB hX => ?_
  show (req (fB w == 0) .rsvbits (req (xIn w [0, 1]) .xval (ap (ap (ap (.ok Instr.plexc) (dReg w .src)) (uniformSrc (fA w))) (x0 w)))) = _
  simp only [xIn_of (l := [0, 1]) hX (by cases clr <;> rfl), dReg_of hD, hA, uniformSrc_eSrc hw, x0_of (r := clr) hX (by cases clr <;> rfl), hB]
  cases clr <;> rfl

theorem plvis (a : CellSrc) (b : BitVec 6) (le : Bool) : Statement (.plvis a b le) := by
  intro _
  refine decode_mkR fun w hD hA hB hX => ?_
  show (req (fD w == 0) .rsvbits (req (xIn w [0, 1]) .xval (ap (ap (ap (.ok Instr.plvis) (cellSrc (fA w))) (regRun (fB w) 1)) (x0 w)))) = _
  simp only [xIn_of (l := [0, 1]) hX (by cases le <;> rfl), hA, cellSrc_e a, hB, regRun1_eReg b, x0_of (r := le) hX (by cases le <;> rfl), hD]
  cases le <;> rfl

theorem plbld (d : BitVec 5) (a : CellSrc) (b : BitVec 6) : Statement (.plbld d a b) := by
  intro hw
  replace hw : (decide (d.toNat ≤ 28) && runOk b 2) = true := hw
  simp only [Bool.and_eq_true] at hw
  obtain ⟨k0, k1⟩ := hw
  refine decode_mkR fun w hD hA hB hX => ?_
  show (req (xIn w [0]) .xval (ap (ap (ap (.ok Instr.plbld) (dCell w 29)) (cellSrc (fA w))) (regRun (fB w) 2))) = _
  simp only [xIn_of (l := [0]) hX (by rfl), dCell29_of hD k0, hA, cellSrc_e a, hB, regRun2_eReg k1]
  rfl

theorem pltile (a : Src) (b : Src) : Statement (.pltile a b) := by
  intro hw
  replace hw : (uniformOk a && uniformOk b) = true := hw
  simp only [Bool.and_eq_true] at hw
  obtain ⟨k0, k1⟩ := hw
  refine decode_mkR fun w hD hA hB hX => ?_
  show (req (fD w == 0) .rsvbits (req (xIn w [0]) .xval (ap (ap (.ok Instr.pltile) (uniformSrc (fA w))) (uniformSrc (fB w))))) = _
  simp only [xIn_of (l := [0]) hX (by rfl), hA, uniformSrc_eSrc k0, hB, uniformSrc_eSrc k1, hD]
  rfl

theorem plflg (d : BitVec 6) (clr : Bool) : Statement (.plflg d clr) := by
  intro _
  refine decode_mkR fun w hD hA hB hX => ?_
  show (req (fA w == 0) .rsvbits (req (fB w == 0) .rsvbits (req (xIn w [0, 1]) .xval (ap (ap (.ok Instr.plflg) (dReg w .src)) (x0 w))))) = _
  simp only [xIn_of (l := [0, 1]) hX (by cases clr <;> rfl), dReg_of hD, x0_of (r := clr) hX (by cases clr <;> rfl), hA, hB]
  cases clr <;> rfl

theorem plsfn (d : BitVec 5) (a : CellSrc) (f : Fn) : Statement (.plsfn d a f) := by
  intro _
  refine decode_mkR fun w hD hA hB hX => ?_
  show (req (fB w == 0) .rsvbits (ap (ap (ap (.ok Instr.plsfn) (dCell w 32)) (cellSrc (fA w))) (.ok (fnOf (fX w))))) = _
  simp only [dCell32_of hD, hA, cellSrc_e a, hB, hX]
  cases f <;> rfl

theorem plclr (i : BitVec 5) : Statement (.plclr i) := by
  intro _
  refine decode_mkL fun w hL => ?_
  show (req ((fL w).toNat < 32) .rsvbits (ap (.ok Instr.plclr) (.ok ((fL w).setWidth 5)))) = _
  rw [hL]
  clear * -
  revert i; decide

theorem plbin (a : Src) : Statement (.plbin a) := by
  intro hw
  replace hw : (uniformOk a) = true := hw
  refine decode_mkR fun w hD hA hB hX => ?_
  show (req (fD w == 0) .rsvbits (req (fB w == 0) .rsvbits (req (xIn w [0]) .xval (ap (.ok Instr.plbin) (uniformSrc (fA w)))))) = _
  simp only [xIn_of (l := [0]) hX (by rfl), hA, uniformSrc_eSrc hw, hD, hB]
  rfl

theorem launch (d : BitVec 6) (a : Src) : Statement (.launch d a) := by
  intro hw
  replace hw : (uniformOk a) = true := hw
  refine decode_mkR fun w hD hA hB hX => ?_
  show (req (fB w == 0) .rsvbits (req (xIn w [0]) .xval (ap (ap (.ok Instr.launch) (dReg w .src)) (uniformSrc (fA w))))) = _
  simp only [xIn_of (l := [0]) hX (by rfl), dReg_of hD, hA, uniformSrc_eSrc hw, hB]
  rfl

theorem arm (d : BitVec 6) (a : Src) : Statement (.arm d a) := by
  intro hw
  replace hw : (uniformOk a) = true := hw
  refine decode_mkR fun w hD hA hB hX => ?_
  show (req (fB w == 0) .rsvbits (req (xIn w [0]) .xval (ap (ap (.ok Instr.arm) (dReg w .src)) (uniformSrc (fA w))))) = _
  simp only [xIn_of (l := [0]) hX (by rfl), dReg_of hD, hA, uniformSrc_eSrc hw, hB]
  rfl

theorem disarm (d : BitVec 6) (a : Src) : Statement (.disarm d a) := by
  intro hw
  replace hw : (uniformOk a) = true := hw
  refine decode_mkR fun w hD hA hB hX => ?_
  show (req (fB w == 0) .rsvbits (req (xIn w [0]) .xval (ap (ap (.ok Instr.disarm) (dReg w .src)) (uniformSrc (fA w))))) = _
  simp only [xIn_of (l := [0]) hX (by rfl), dReg_of hD, hA, uniformSrc_eSrc hw, hB]
  rfl

theorem invoke (d : BitVec 6) (a : Src) (b : Src) : Statement (.invoke d a b) := by
  intro hw
  replace hw : (uniformOk a && uniformOk b) = true := hw
  simp only [Bool.and_eq_true] at hw
  obtain ⟨k0, k1⟩ := hw
  refine decode_mkR fun w hD hA hB hX => ?_
  show (req (xIn w [0]) .xval (ap (ap (ap (.ok Instr.invoke) (dReg w .src)) (uniformSrc (fA w))) (uniformSrc (fB w)))) = _
  simp only [xIn_of (l := [0]) hX (by rfl), dReg_of hD, hA, uniformSrc_eSrc k0, hB, uniformSrc_eSrc k1]
  rfl

theorem invh (d : BitVec 6) (a : Src) (b : Src) : Statement (.invh d a b) := by
  intro hw
  replace hw : (uniformOk a && uniformOk b) = true := hw
  simp only [Bool.and_eq_true] at hw
  obtain ⟨k0, k1⟩ := hw
  refine decode_mkR fun w hD hA hB hX => ?_
  show (req (xIn w [0]) .xval (ap (ap (ap (.ok Instr.invh) (dReg w .src)) (uniformSrc (fA w))) (uniformSrc (fB w)))) = _
  simp only [xIn_of (l := [0]) hX (by rfl), dReg_of hD, hA, uniformSrc_eSrc k0, hB, uniformSrc_eSrc k1]
  rfl

theorem hwait (d : BitVec 6) (a : Src) : Statement (.hwait d a) := by
  intro hw
  replace hw : (runOk d 2 && uniformOk a) = true := hw
  simp only [Bool.and_eq_true] at hw
  obtain ⟨k0, k1⟩ := hw
  refine decode_mkR fun w hD hA hB hX => ?_
  show (req (fB w == 0) .rsvbits (req (xIn w [0]) .xval (ap (ap (.ok Instr.hwait) (dRun w 2)) (uniformSrc (fA w))))) = _
  simp only [xIn_of (l := [0]) hX (by rfl), dRun2_of hD k0, hA, uniformSrc_eSrc k1, hB]
  rfl

theorem hres (a : Src) (fwd : Bool) : Statement (.hres a fwd) := by
  intro hw
  replace hw : (uniformOk a) = true := hw
  refine decode_mkR fun w hD hA hB hX => ?_
  show (req (fD w == 0) .rsvbits (req (fB w == 0) .rsvbits (req (xIn w [0, 1]) .xval (ap (ap (.ok Instr.hres) (uniformSrc (fA w))) (x0 w))))) = _
  simp only [xIn_of (l := [0, 1]) hX (by cases fwd <;> rfl), hA, uniformSrc_eSrc hw, x0_of (r := fwd) hX (by cases fwd <;> rfl), hD, hB]
  cases fwd <;> rfl

theorem hbrk (a : Src) : Statement (.hbrk a) := by
  intro hw
  replace hw : (uniformOk a) = true := hw
  refine decode_mkR fun w hD hA hB hX => ?_
  show (req (fD w == 0) .rsvbits (req (fB w == 0) .rsvbits (req (xIn w [0]) .xval (ap (.ok Instr.hbrk) (uniformSrc (fA w)))))) = _
  simp only [xIn_of (l := [0]) hX (by rfl), hA, uniformSrc_eSrc hw, hD, hB]
  rfl

theorem hqry (d : BitVec 6) (a : Src) : Statement (.hqry d a) := by
  intro hw
  replace hw : (uniformOk a) = true := hw
  refine decode_mkR fun w hD hA hB hX => ?_
  show (req (fB w == 0) .rsvbits (req (xIn w [0]) .xval (ap (ap (.ok Instr.hqry) (dReg w .src)) (uniformSrc (fA w))))) = _
  simp only [xIn_of (l := [0]) hX (by rfl), dReg_of hD, hA, uniformSrc_eSrc hw, hB]
  rfl

theorem hfree (a : Src) : Statement (.hfree a) := by
  intro hw
  replace hw : (uniformOk a) = true := hw
  refine decode_mkR fun w hD hA hB hX => ?_
  show (req (fD w == 0) .rsvbits (req (fB w == 0) .rsvbits (req (xIn w [0]) .xval (ap (.ok Instr.hfree) (uniformSrc (fA w)))))) = _
  simp only [xIn_of (l := [0]) hX (by rfl), hA, uniformSrc_eSrc hw, hD, hB]
  rfl

theorem vgcmd (d : BitVec 6) (a : Src) (b : Src) : Statement (.vgcmd d a b) := by
  intro hw
  replace hw : (uniformOk a && uniformOk b) = true := hw
  simp only [Bool.and_eq_true] at hw
  obtain ⟨k0, k1⟩ := hw
  refine decode_mkR fun w hD hA hB hX => ?_
  show (req (xIn w [0]) .xval (ap (ap (ap (.ok Instr.vgcmd) (dReg w .src)) (uniformSrc (fA w))) (uniformSrc (fB w)))) = _
  simp only [xIn_of (l := [0]) hX (by rfl), dReg_of hD, hA, uniformSrc_eSrc k0, hB, uniformSrc_eSrc k1]
  rfl

theorem vgqry (d : BitVec 6) (a : Src) (sel : VgSel) : Statement (.vgqry d a sel) := by
  intro hw
  replace hw : (uniformOk a) = true := hw
  refine decode_mkR fun w hD hA hB hX => ?_
  show (req (fB w == 0) .rsvbits (req (xIn w [0, 1, 2, 3]) .xval (ap (ap (ap (.ok Instr.vgqry) (dReg w .src)) (uniformSrc (fA w))) (.ok (vgOf (fX w)))))) = _
  simp only [xIn_of (l := [0, 1, 2, 3]) hX (by cases sel <;> rfl), dReg_of hD, hA, uniformSrc_eSrc hw, hB, hX]
  cases sel <;> rfl

theorem mode (i : BitVec 14) : Statement (.mode i) := by
  intro hw
  replace hw : (modeLegal i) = true := hw
  refine decode_mkL fun w hL => ?_
  show (req ((fL w).toNat < 16384 && modeLegal ((fL w).setWidth 14)) .modeval (ap (.ok Instr.mode) (.ok ((fL w).setWidth 14)))) = _
  simp only [hL, mode_fits i, mode_back i, hw]
  rfl

theorem modex (i : BitVec 14) : Statement (.modex i) := by
  intro hw
  replace hw : (modeLegal i) = true := hw
  refine decode_mkL fun w hL => ?_
  show (req ((fL w).toNat < 16384 && modeLegal ((fL w).setWidth 14)) .modeval (ap (.ok Instr.modex) (.ok ((fL w).setWidth 14)))) = _
  simp only [hL, mode_fits i, mode_back i, hw]
  rfl

theorem getc (d : Dst) (i : BitVec 10) : Statement (.getc d i) := by
  intro hw
  replace hw : (decide (i.toNat < 30)) = true := hw
  refine decode_mkI fun w hD hA hI => ?_
  show (req (fA w == 0) .rsvbits (req ((fI w).toNat < 30) .creg (ap (ap (.ok Instr.getc) (dDst w)) (.ok (fI w))))) = _
  simp only [dDst_of hD, hA, hI, hw, req_true]
  rfl

theorem setc (a : Src) (i : BitVec 10) : Statement (.setc a i) := by
  intro hw
  replace hw : (uniformOk a && decide (i.toNat < 30)) = true := hw
  simp only [Bool.and_eq_true] at hw
  obtain ⟨k0, k1⟩ := hw
  refine decode_mkI fun w hD hA hI => ?_
  show (req (fD w == 0) .rsvbits (req ((fI w).toNat < 30) .creg (ap (ap (.ok Instr.setc) (uniformSrc (fA w))) (.ok (fI w))))) = _
  simp only [hA, uniformSrc_eSrc k0, hD, hI, k1, req_true]
  rfl

theorem timer (d : Dst) (sel : TimerSel) : Statement (.timer d sel) := by
  intro _
  refine decode_mkR fun w hD hA hB hX => ?_
  show (req (fA w == 0) .rsvbits (req (fB w == 0) .rsvbits (req (xIn w [0, 1]) .xval (ap (ap (.ok Instr.timer) (dDst w)) (.ok (timerOf (fX w))))))) = _
  simp only [xIn_of (l := [0, 1]) hX (by cases sel <;> rfl), dDst_of hD, hA, hB, hX]
  cases sel <;> rfl

theorem ckpt (d : Dst) (a : Src) (q : Bool) : Statement (.ckpt d a q) := by
  intro hw
  replace hw : (uniformOk a && (!q || a == .reg 0)) = true := hw
  simp only [Bool.and_eq_true] at hw
  obtain ⟨k0, k1⟩ := hw
  refine decode_mkR fun w hD hA hB hX => ?_
  show (req (fB w == 0) .rsvbits (req (xIn w [0, 1]) .xval (req (fX w != 1 || fA w == 0) .rsvbits (ap (ap (ap (.ok Instr.ckpt) (dDst w)) (uniformSrc (fA w))) (x0 w))))) = _
  simp only [xIn_of (l := [0, 1]) hX (by cases q <;> rfl), dDst_of hD, hA, uniformSrc_eSrc k0, x0_of (r := q) hX (by cases q <;> rfl), hB, hX]
  cases q with
  | false => rfl
  | true =>
    obtain rfl : a = .reg 0 := by simpa using k1
    rfl

theorem bkpt (i : BitVec 24) : Statement (.bkpt i) := by
  intro _
  refine decode_mkL fun w hL => ?_
  show (ap (.ok Instr.bkpt) (.ok (fL w))) = _
  simp only [hL]
  rfl

theorem undef (v : BitVec 27) : Statement (.undef v) := by
  intro h
  have hv : (0x1F : BitVec 5) ++ v ≠ 0xFFFFFFFF := by
    intro e
    have := congrArg (BitVec.extractLsb' 0 27) e
    rw [(extract_low (0x1F : BitVec 5) v 0 27 (by decide)).trans (extract_all v)] at this
    rw [this] at h
    exact absurd h (by decide)
  show decodeOp (fOp ((0x1F : BitVec 5) ++ v)).toNat _ = _
  rw [show fOp ((0x1F : BitVec 5) ++ v) = (0x1F : BitVec 5) ++ v.extractLsb' 24 3 from by
    apply BitVec.eq_of_getLsbD_eq
    intro i hi
    simp only [fOp, BitVec.getLsbD_extractLsb', BitVec.getLsbD_append]
    interval_cases i <;> simp]
  rw [decodeOp_undef _ _ hv]
  exact congrArg (fun x => (Except.ok (Instr.undef x) : Dec Instr)) ((extract_low (0x1F : BitVec 5) v 0 27 (by decide)).trans (extract_all v))

theorem rsvop (w : Word32) : Statement (.rsvop w) := fun h => decodeOp_rsvop (fOp w) w h

theorem quantumSwitch (core : Nat) : Statement (.quantumSwitch core) := fun _ => rfl

theorem loadComplete (g : GRef) : Statement (.loadComplete g) := fun _ => rfl

theorem accessPerform (g : GRef) (k : Nat) (lanes : BitVec 32) : Statement (.accessPerform g k lanes) := fun _ => rfl

theorem pageTableWalk (ctx : Nat) (agent : Nat) (va : BitVec 64) : Statement (.pageTableWalk ctx agent va) := fun _ => rfl

theorem trapEntry (g : GRef) : Statement (.trapEntry g) := fun _ => rfl

theorem groupRetire (g : GRef) : Statement (.groupRetire g) := fun _ => rfl

theorem completionWrite (gid : Nat) : Statement (.completionWrite gid) := fun _ => rfl

theorem atomoApplication (gid : Nat) : Statement (.atomoApplication gid) := fun _ => rfl

theorem blockStart (cluster : Nat) : Statement (.blockStart cluster) := fun _ => rfl

theorem preemption (blk : Nat) : Statement (.preemption blk) := fun _ => rfl

theorem forcedPreemption (blk : Nat) : Statement (.forcedPreemption blk) := fun _ => rfl

theorem restoration (blk : Nat) (cluster : Nat) : Statement (.restoration blk cluster) := fun _ => rfl

theorem eviction (blk : Nat) : Statement (.eviction blk) := fun _ => rfl

theorem suspension (ctx : Nat) : Statement (.suspension ctx) := fun _ => rfl

theorem driverKill (gid : Nat) : Statement (.driverKill gid) := fun _ => rfl

theorem contextDestroy (ctx : Nat) : Statement (.contextDestroy ctx) := fun _ => rfl

theorem matrixOpStart (blk : Nat) (op : Nat) : Statement (.matrixOpStart blk op) := fun _ => rfl

theorem matrixStep (blk : Nat) : Statement (.matrixStep blk) := fun _ => rfl

theorem engineOpComplete (blk : Nat) (op : Nat) : Statement (.engineOpComplete blk op) := fun _ => rfl

theorem planeOp (blk : Nat) : Statement (.planeOp blk) := fun _ => rfl

theorem binningJob (blk : Nat) : Statement (.binningJob blk) := fun _ => rfl

theorem cpaTransferComplete (g : GRef) (k : Nat) : Statement (.cpaTransferComplete g k) := fun _ => rfl

theorem copyRow (blk : Nat) (op : Nat) (slice : Nat) : Statement (.copyRow blk op slice) := fun _ => rfl

theorem vgcmdStart (blk : Nat) (op : Nat) : Statement (.vgcmdStart blk op) := fun _ => rfl

theorem virgaWave (blk : Nat) (op : Nat) (chan : Nat) : Statement (.virgaWave blk op chan) := fun _ => rfl

theorem virgaWindowEnd (chan : Nat) : Statement (.virgaWindowEnd chan) := fun _ => rfl

theorem bankServiceEnd (chan : Nat) : Statement (.bankServiceEnd chan) := fun _ => rfl

theorem virgaMerge (blk : Nat) (op : Nat) : Statement (.virgaMerge blk op) := fun _ => rfl

theorem handlerStart (k : Nat) : Statement (.handlerStart k) := fun _ => rfl

theorem invocationArrival (k : Nat) : Statement (.invocationArrival k) := fun _ => rfl

theorem hwaitRegistration (k : Nat) : Statement (.hwaitRegistration k) := fun _ => rfl

theorem hwaitAnswer (k : Nat) : Statement (.hwaitAnswer k) := fun _ => rfl

theorem resolutionArrival (k : Nat) : Statement (.resolutionArrival k) := fun _ => rfl

theorem forwardArrival (k : Nat) : Statement (.forwardArrival k) := fun _ => rfl

theorem forwardProbe (k : Nat) : Statement (.forwardProbe k) := fun _ => rfl

theorem breakArrival (k : Nat) : Statement (.breakArrival k) := fun _ => rfl

theorem homeAnswer (k : Nat) : Statement (.homeAnswer k) := fun _ => rfl

theorem hostQueueRecord (q : Nat) : Statement (.hostQueueRecord q) := fun _ => rfl

theorem queueResume (ring : Bool) (q : Nat) : Statement (.queueResume ring q) := fun _ => rfl

theorem taggedMessage (pkg : Nat) (ctx : Nat) (tag : BitVec 32) (payload : List (BitVec 8)) : Statement (.taggedMessage pkg ctx tag payload) := fun _ => rfl

theorem frameReceive (f : Frame) : Statement (.frameReceive f) := fun _ => rfl

theorem retransmit (pkg : Nat) : Statement (.retransmit pkg) := fun _ => rfl

theorem connectionFailure (pkg : Nat) : Statement (.connectionFailure pkg) := fun _ => rfl

theorem sendRingDescriptor (r : Nat) : Statement (.sendRingDescriptor r) := fun _ => rfl

theorem bridgeFailure (a : Nat) (b : Nat) : Statement (.bridgeFailure a b) := fun _ => rfl

theorem hostAccess (write : Bool) (pa : Nat) (bytes : List (BitVec 8)) : Statement (.hostAccess write pa bytes) := fun _ => rfl

theorem contextDescriptorWrite (ctx : Nat) (desc : List (BitVec 8)) : Statement (.contextDescriptorWrite ctx desc) := fun _ => rfl

theorem capabilityTableWrite (stack : Nat) (index : Nat) (entry : BitVec 128) : Statement (.capabilityTableWrite stack index entry) := fun _ => rfl

theorem shootdown (ctx : Nat) : Statement (.shootdown ctx) := fun _ => rfl

theorem errorDetected (e : ErrorInfo) : Statement (.errorDetected e) := fun _ => rfl

theorem freeze (c : FreezeCause) : Statement (.freeze c) := fun _ => rfl

theorem thermalStep (r : Reading) (sensor : Nat) : Statement (.thermalStep r sensor) := fun _ => rfl

theorem attestationRequest (nonce : List (BitVec 8)) : Statement (.attestationRequest nonce) := fun _ => rfl

theorem hfreeArrival (k : Nat) : Statement (.hfreeArrival k) := fun _ => rfl

theorem linkTraining (port : Nat) : Statement (.linkTraining port) := fun _ => rfl

theorem connectionReestablished (pkg : Nat) : Statement (.connectionReestablished pkg) := fun _ => rfl

theorem queueBinding (ring : Bool) (q : Nat) (ctx : Nat) (cb : Nat) : Statement (.queueBinding ring q ctx cb) := fun _ => rfl

theorem contextCreation (ctx : Nat) (desc : List (BitVec 8)) : Statement (.contextCreation ctx desc) := fun _ => rfl

theorem nop : Statement .nop := by
  intro _
  refine decode_mkL fun w hL => ?_
  show (req (fL w == 0) .rsvbits (.ok Instr.nop)) = _
  simp only [hL]
  rfl

theorem exit : Statement .exit := by
  intro _
  refine decode_mkL fun w hL => ?_
  show (req (fL w == 0) .rsvbits (.ok Instr.exit)) = _
  simp only [hL]
  rfl

theorem rft : Statement .rft := by
  intro _
  refine decode_mkL fun w hL => ?_
  show (req (fL w == 0) .rsvbits (.ok Instr.rft)) = _
  simp only [hL]
  rfl

theorem ordcl : Statement .ordcl := by
  intro _
  refine decode_mkL fun w hL => ?_
  show (req (fL w == 0) .rsvbits (.ok Instr.ordcl)) = _
  simp only [hL]
  rfl

theorem sbar : Statement .sbar := by
  intro _
  refine decode_mkL fun w hL => ?_
  show (req (fL w == 0) .rsvbits (.ok Instr.sbar)) = _
  simp only [hL]
  rfl

theorem yield : Statement .yield := by
  intro _
  refine decode_mkL fun w hL => ?_
  show (req (fL w == 0) .rsvbits (.ok Instr.yield)) = _
  simp only [hL]
  rfl

theorem mzero : Statement .mzero := by
  intro _
  refine decode_mkL fun w hL => ?_
  show (req (fL w == 0) .rsvbits (.ok Instr.mzero)) = _
  simp only [hL]
  rfl

theorem plbind : Statement .plbind := by
  intro _
  refine decode_mkR fun w hD hA hB hX => ?_
  show (req (fD w == 0) .rsvbits (req (fA w == 0) .rsvbits (req (fB w == 0) .rsvbits (req (xIn w [0]) .xval (.ok Instr.plbind))))) = _
  simp only [xIn_of (l := [0]) hX (by rfl), hD, hA, hB]
  rfl

theorem plfree : Statement .plfree := by
  intro _
  refine decode_mkR fun w hD hA hB hX => ?_
  show (req (fD w == 0) .rsvbits (req (fA w == 0) .rsvbits (req (fB w == 0) .rsvbits (req (xIn w [0]) .xval (.ok Instr.plfree))))) = _
  simp only [xIn_of (l := [0]) hX (by rfl), hD, hA, hB]
  rfl

theorem plif : Statement .plif := by
  intro _
  refine decode_mkL fun w hL => ?_
  show (req (fL w == 0) .rsvbits (.ok Instr.plif)) = _
  simp only [hL]
  rfl

theorem plelse : Statement .plelse := by
  intro _
  refine decode_mkL fun w hL => ?_
  show (req (fL w == 0) .rsvbits (.ok Instr.plelse)) = _
  simp only [hL]
  rfl

theorem plend : Statement .plend := by
  intro _
  refine decode_mkL fun w hL => ?_
  show (req (fL w == 0) .rsvbits (.ok Instr.plend)) = _
  simp only [hL]
  rfl

theorem flagchk : Statement .flagchk := by
  intro _
  refine decode_mkL fun w hL => ?_
  show (req (fL w == 0) .rsvbits (.ok Instr.flagchk)) = _
  simp only [hL]
  rfl

theorem candidateHold : Statement .candidateHold := fun _ => rfl

theorem pri0Displacement : Statement .pri0Displacement := fun _ => rfl

theorem checkpointCommit : Statement .checkpointCommit := fun _ => rfl

theorem tapFreeze : Statement .tapFreeze := fun _ => rfl

theorem testPortReadout : Statement .testPortReadout := fun _ => rfl

theorem coldReset : Statement .coldReset := fun _ => rfl

theorem warmReset : Statement .warmReset := fun _ => rfl

theorem powerOff : Statement .powerOff := fun _ => rfl

end Sys2Proof.Laws.Encoding
end

