-- ==== Sys2Proof/Laws/Perform.lean ====
section
/-! SUPPORT. What the performing of a write changes: the bytes at its place, and what is noted of writers, releases, pins, poison and the undo
log; never a group. -/

namespace Sys2Proof.Laws

open Sys2Proof Sys2Proof.Machine

/-- Two states with the same blocks, the same bytes and the same block descriptors. -/
structure SameBytes (s t : State) : Prop where
  blocks : t.blocks = s.blocks
  mem : t.mem = s.mem
  far : t.farMem = s.farMem
  descs : t.descs = s.descs

theorem SameBytes.refl (s : State) : SameBytes s s := ⟨rfl, rfl, rfl, rfl⟩

theorem SameBytes.trans {s t u : State} (h : SameBytes s t) (k : SameBytes t u) : SameBytes s u :=
  ⟨k.blocks.trans h.blocks, k.mem.trans h.mem, k.far.trans h.far, k.descs.trans h.descs⟩

theorem SameBytes.block? {s t : State} (h : SameBytes s t) (n : Nat) : t.block? n = s.block? n := by unfold State.block?; rw [h.blocks]

theorem SameBytes.group? {s t : State} (h : SameBytes s t) (g : GRef) : t.group? g = s.group? g := by unfold State.group?; rw [h.block?]

theorem SameBytes.cells {s t : State} (h : SameBytes s t) (x : Store) : t.cells x = s.cells x := by
  cases x <;> simp only [State.cells, h.block?, h.mem, h.far]

theorem SameBytes.byte {s t : State} (h : SameBytes s t) (l : Loc) : t.byte l = s.byte l := by unfold State.byte; rw [h.cells]

theorem SameBytes.foldl {α : Type} (f : State → α → State) (hf : ∀ s x, SameBytes s (f s x)) (l : List α) (s : State) :
    SameBytes s (l.foldl f s) := by
  induction l generalizing s with
  | nil => exact .refl s
  | cons x r ih => exact (hf s x).trans (ih _)

theorem same_modCtx (s : State) (n : Nat) (f : Context → Context) : SameBytes s (s.modCtx n f) := ⟨rfl, rfl, rfl, rfl⟩

theorem same_undoLog (s : State) (who : Who) (pa n : Nat) : SameBytes s (s.undoLog who pa n) := by
  unfold State.undoLog
  apply SameBytes.foldl
  intro s i
  simp only
  split
  · exact .refl s
  · split
    · exact .refl s
    · split <;> exact ⟨rfl, rfl, rfl, rfl⟩

theorem same_clearPoison (s : State) (pa n : Nat) : SameBytes s (s.clearPoison pa n) := ⟨rfl, rfl, rfl, rfl⟩
theorem same_claim (s : State) (who : Who) (l : Loc) (n : Nat) : SameBytes s (s.claim who l n) := ⟨rfl, rfl, rfl, rfl⟩
theorem same_publish (s : State) (who : Who) (l : Loc) (n : Nat) : SameBytes s (s.publish who l n) := ⟨rfl, rfl, rfl, rfl⟩
theorem same_unpin (s : State) (n : Nat) : SameBytes s (s.unpin n) := ⟨rfl, rfl, rfl, rfl⟩
theorem same_log (s : State) (c x : Nat) (d : List Nat) : SameBytes s (s.log c x d) := by
  unfold State.log
  exact ⟨rfl, rfl, rfl, rfl⟩

theorem same_pin (s : State) (who : Who) (pa : Nat) : SameBytes s (s.pin who pa) := by
  unfold State.pin
  simp only
  split <;> exact ⟨rfl, rfl, rfl, rfl⟩

theorem same_pinRange (s : State) (who : Who) (pa n : Nat) : SameBytes s (s.pinRange who pa n) := by
  unfold State.pinRange
  exact SameBytes.foldl _ (fun _ _ => same_pin ..) _ _

theorem same_ite {s t : State} (c : Prop) [Decidable c] (h : SameBytes s t) : SameBytes s (if c then t else s) := by
  split
  · exact h
  · exact .refl s

/-- A write is a change of bytes between changes that touch none. -/
theorem perform_bytes (s : State) (who : Who) (a : Acc) (vs : List Byte) :
    ∃ s1, SameBytes s s1 ∧ SameBytes (s1.setBytes a.loc vs) (s.perform who a vs) := by
  refine ⟨if a.ckpt then s.undoLog who a.loc.ofs vs.length else s, same_ite _ (same_undoLog ..), ?_⟩
  unfold State.perform
  exact (((same_ite _ (same_clearPoison ..)).trans (same_ite _ (same_claim ..))).trans (same_ite _ (same_pinRange ..))).trans (same_publish ..)

theorem cells_setCells_same {s : State} {x : Store} (h : s.holds x = true) (m : List Host.Cell) {y : Store} (hy : y.same x = true) :
    (s.setCells x m).cells y = m := by
  cases x with
  | pkg => cases y <;> first | rfl | (simp [Store.same] at hy)
  | far p => cases y <;> first | rfl | (simp [Store.same] at hy)
  | sp b | wb b | ab b | cb b =>
    cases y with
    | pkg | far p => simp [Store.same] at hy
    | sp c | wb c | ab c | cb c =>
      first
      | (simp [Store.same] at hy; done)
      | (simp only [Store.same, beq_iff_eq, Store.sp.injEq, Store.wb.injEq, Store.ab.injEq, Store.cb.injEq] at hy
         subst hy
         simp only [State.holds] at h
         obtain ⟨v, hv⟩ := Option.isSome_iff_exists.1 h
         simp only [State.setCells, State.cells]
         rw [block?_modBlock, if_pos rfl, hv]
         · rfl
         · intro _; rfl)

theorem cells_setCells_other (s : State) (x : Store) (m : List Host.Cell) {y : Store} (hy : y.same x = false) : (s.setCells x m).cells y = s.cells y := by
  cases x with
  | pkg => cases y <;> first | rfl | (simp [Store.same] at hy)
  | far p => cases y <;> first | rfl | (simp [Store.same] at hy)
  | sp b | wb b | ab b | cb b =>
    cases y with
    | pkg | far p => rfl
    | sp c | wb c | ab c | cb c =>
      simp only [State.setCells, State.cells]
      rw [block?_modBlock]
      case hf => intro _; rfl
      by_cases e : c = b
      · rw [if_pos e]
        cases s.block? c with
        | none => rfl
        | some v => first | rfl | (simp [Store.same, e] at hy)
      · rw [if_neg e]

/-- Storing bytes at a place that exists. -/
theorem stored_setBytes (s : State) (l : Loc) (vs : List Byte) (h : s.holds l.store = true) : s.Stored (s.setBytes l vs) l vs := by
  have keyAdd : ∀ k, (l.add k).key = l.key + k := by
    intro k; unfold Loc.key Loc.add; cases l.store <;> simp only <;> omega
  refine ⟨?_, ?_⟩
  · intro k hk
    unfold State.setBytes State.byte
    rw [cells_setCells_same h _ (y := (l.add k).store) (by cases hl : l.store <;> simp [Loc.add, hl, Store.same]), get_setMany, keyAdd,
      if_pos (by omega), show l.key + k - l.key = k by omega]
  · intro x hx
    unfold State.setBytes State.byte
    by_cases hs : x.store.same l.store = true
    · rw [cells_setCells_same h _ hs, get_setMany, if_neg]
      · have : s.cells x.store = s.cells l.store := by
          have hs' := hs
          cases hx : x.store <;> cases hl : l.store <;> simp_all [Store.same, State.cells]
        rw [this]
      · simp only [Loc.within, hs, Bool.true_and, Bool.and_eq_false_iff, decide_eq_false_iff_not] at hx
        omega
    · rw [cells_setCells_other _ _ _ (by simpa using hs)]

theorem stored_perform (s : State) (who : Who) (a : Acc) (vs : List Byte) (h : s.holds a.loc.store = true) :
    s.Stored (s.perform who a vs) a.loc vs := by
  obtain ⟨s1, h1, h2⟩ := perform_bytes s who a vs
  have h' : s1.holds a.loc.store = true := by
    revert h; unfold State.holds; cases a.loc.store <;> simp only [h1.block?] <;> exact id
  obtain ⟨hw, hk⟩ := stored_setBytes s1 a.loc vs h'
  exact ⟨fun k hk' => (h2.byte _).trans (hw k hk'), fun x hx => ((h2.byte x).trans (hk x hx)).trans (h1.byte x)⟩

theorem block?_setCells_groups (s : State) (x : Store) (m : List Host.Cell) (n : Nat) :
    ((s.setCells x m).block? n).map (·.groups) = (s.block? n).map (·.groups) := by
  cases x with
  | pkg | far p => rfl
  | sp b | wb b | ab b | cb b =>
    simp only [State.setCells]
    rw [block?_modBlock]
    case hf => intro _; rfl
    split
    · cases s.block? n <;> rfl
    · rfl

theorem group?_perform (s : State) (who : Who) (a : Acc) (vs : List Byte) (g : GRef) : (s.perform who a vs).group? g = s.group? g := by
  obtain ⟨s1, h1, h2⟩ := perform_bytes s who a vs
  rw [h2.group?, ← h1.group?]
  have := block?_setCells_groups s1 a.loc.store (Memory.setMany (s1.cells a.loc.store) a.loc.key vs) g.blk
  unfold State.group? State.setBytes
  cases hx : (s1.setCells a.loc.store (Memory.setMany (s1.cells a.loc.store) a.loc.key vs)).block? g.blk <;>
    cases hy : s1.block? g.blk <;> simp_all

end Sys2Proof.Laws
end

