-- ==== Sys2Proof/Laws/Queue.lean ====
section
/-! SUPPORT. Instructions of the queue: what their issue changes (`Iss.Within`, `Iss.Queued`), and an instruction that changes nothing. -/

namespace Sys2Proof.Laws

open Sys2Proof Sys2Proof.Machine

theorem block?_idem (s : State) (id x : Nat) (c : Bool) : (s.modBlock id fun b => { b with idem := b.idem && c }).block? x =
   if x = id then (s.block? x).map (fun b => { b with idem := b.idem && c }) else s.block? x := block?_modBlock _ _ _ _ (fun _ => rfl)
theorem group?_idem (s : State) (id : Nat) (c : Bool) (gr : GRef) : (s.modBlock id fun b => { b with idem := b.idem && c }).group? gr = s.group? gr := by
  unfold State.group?
  rw [block?_idem]
  split
  · cases s.block? gr.blk <;> rfl
  · rfl
theorem byte_idem (s : State) (id : Nat) (c : Bool) (l : Loc) : (s.modBlock id fun b => { b with idem := b.idem && c }).byte l = s.byte l :=
  byte_modBlock s id (fun b => { b with idem := b.idem && c }) l (fun _ => rfl) fun _ => ⟨rfl, rfl, rfl, rfl⟩
theorem modBlock_same (s : State) (id : Nat) (f : Block → Block) (hf : ∀ b, f b = b) : s.modBlock id f = s := by
  unfold State.modBlock
  have : (s.blocks.map fun b => if b.id = id then f b else b) = s.blocks := by
    conv_rhs => rw [← List.map_id s.blocks]
    apply List.map_congr_left
    intro b _
    simp [hf]
  rw [this]

theorem modGroup_modBlock_idem (s : State) (g : GRef) (f : Group → Group) (c : Bool) :
  (s.modBlock g.blk fun b => { b with idem := b.idem && c }).modGroup g f = (s.modGroup g f).modBlock g.blk fun b => { b with idem := b.idem && c } := by
  unfold State.modGroup
  rw [modBlock_modBlock, modBlock_modBlock] <;> intros <;> rfl

theorem within_done {i : Iss} (hg : i.s.group? i.gr = some i.g) (f : Group → Group) (o : Bool) :
    i.Within o (i.conclude (.done ((i.s.modGroup i.gr f).modBlock i.gr.blk fun b => { b with idem := b.idem && !o }) false)) ((f i.g).ended i.slotB false i.s.cycle) := by
  have e : i.conclude (.done ((i.s.modGroup i.gr f).modBlock i.gr.blk fun b => { b with idem := b.idem && !o }) false) =
      (i.s.modGroup i.gr fun g => (f g).ended i.slotB false i.s.cycle).modBlock i.gr.blk fun b => { b with idem := b.idem && !o } := by
    show ((i.s.modGroup i.gr f).modBlock i.gr.blk fun b => { b with idem := b.idem && !o }).modGroup i.gr _ = _
    rw [modGroup_modBlock_idem, modGroup_modGroup]; rfl
  rw [e]
  refine ⟨?_, ?_, ?_, ⟨_, rfl⟩⟩
  · rw [group?_idem]; exact group?_modGroup_self _ hg
  · intro gr h; rw [group?_idem]; exact group?_modGroup_ne _ h
  · intro l; rw [byte_idem]; exact byte_modGroup _ _ _ l

theorem modAt_id {α : Type} (l : List α) (n : Nat) : modAt l n (fun g => g) = l := by
  induction l generalizing n with
  | nil => rfl
  | cons x r ih => cases n <;> simp [modAt, ih]

theorem modGroup_same (s : State) (gr : GRef) : s.modGroup gr (fun g => g) = s :=
  modBlock_same _ _ _ fun b => by unfold Block.modGroup; rw [modAt_id]

theorem noop_facts {i : Iss} (hg : i.s.group? i.gr = some i.g) :
    i.Alone (i.conclude (.done i.s false)) (i.g.ended i.slotB false i.s.cycle) ∧ i.Onward (i.g.ended i.slotB false i.s.cycle) ∧
    (i.g.ended i.slotB false i.s.cycle).core = i.g.core := by
  have hh := alone_done hg (fun g => g)
  rw [modGroup_same] at hh
  refine ⟨hh, ?_, ?_⟩
  · apply onward_ended <;> obtain ⟨s, gr, sb, ww, b, g⟩ := i <;> cases sb <;> rfl
  · obtain ⟨s, gr, sb, ww, b, g⟩ := i
    cases sb <;> simp [Group.ended, Group.modSlot, Group.setSlot, Group.core]

theorem touch_eq (s : State) (id : Nat) (o : Bool) : (if o then s.touchOutside id else s) = s.modBlock id fun b => { b with idem := b.idem && !o } := by
  cases o
  · rw [modBlock_same]; rfl
    intro b; cases b; simp
  · unfold State.touchOutside; simp

theorem enqueue_eq (s : State) (gr : GRef) (m : MemOp) : s.enqueue gr m = s.modGroup gr fun g =>
    { g with
      memq := g.memq ++ [{ m with id := g.nextMem }], nextMem := g.nextMem + 1
      ldcnt := if isLoad m.instr then g.ldcnt + 1 else g.ldcnt
      tagc := match m.instr with | .cpa _ _ _ tag => modAt g.tagc tag.toNat (· + 1) | _ => g.tagc } := rfl

theorem queue_done {i : Iss} {m : MemOp} (h : i.Room m) : i.queue m = .done ((i.s.enqueue i.gr m).modBlock i.gr.blk fun b => { b with idem := b.idem && !isOutside m.instr }) false := by
  unfold Iss.queue
  have h1 := h.waiting
  have h2 := h.loads
  have h3 := h.dest
  simp only
  rw [if_neg (by omega), if_neg, if_neg]
  · rw [touch_eq]
  · have : (loadDestS m.instr).toList = (match loadDestS m.instr with | some d => [d] | none => []) := by cases loadDestS m.instr <;> rfl
    rw [this] at h3; rw [Bool.not_eq_true]; exact h3
  · simp only [Bool.and_eq_true, decide_eq_true_eq]; intro ⟨a, b⟩; have := h2 a; omega

theorem queued_of {i : Iss} (m : MemOp) (n : Nat) (hn : n = (match m.instr with | .atomo .. => 1 | _ => 0)) : i.Queued m (Group.ended
    { i.g with
      memq := i.g.memq ++ [{ m with id := i.g.nextMem }], nextMem := i.g.nextMem + 1
      ldcnt := if isLoad m.instr then i.g.ldcnt + 1 else i.g.ldcnt
      tagc := match m.instr with | .cpa _ _ _ tag => modAt i.g.tagc tag.toNat (· + 1) | _ => i.g.tagc
      atomoSeq := i.g.atomoSeq + n } i.slotB false i.s.cycle) := by
  obtain ⟨s, gr, sb, ww, b, g⟩ := i
  refine ⟨?_, ?_, ?_, ?_, ?_, ?_, ?_⟩
  · cases sb <;> rfl
  · cases sb <;> simp only [Group.ended] <;> cases isLoad m.instr <;> rfl
  · cases sb <;> rfl
  · cases sb <;> rfl
  · apply onward_ended <;> cases sb <;> rfl
  · cases sb <;> simp [Group.ended, Group.modSlot, Group.setSlot, Group.core]
  · subst hn; cases sb <;> rfl

theorem queue_next {s : State} {i : Iss} (h : s.issue? = some i) {m : MemOp} (hr : i.Room m) (hm : (match m.instr with | .atomo .. => 1 | _ => 0) = 0) {I : Instr} {f : Iss → Res}
    (e : exec I s = s.run f) (hf : f i = i.queue m) :
    ∃ t g', exec I s = .next t ∧ i.Within (isOutside m.instr) t g' ∧ i.Queued m g' := by
  obtain ⟨rfl, _, hg⟩ := issue_facts h
  rw [e, run_issue h, hf, queue_done hr]
  exact ⟨_, _, rfl, within_done hg _ _, queued_of m 0 hm.symm⟩

/-! ## Switch points that wait -/

/-- The group of an instruction that waits at its own word. -/
def waited (i : Iss) (g : Group) (w : Wait) : Group :=
  let g := g.modSlot i.slotB fun x => { x with wait := some w }
  { (g.modSlot i.slotB Slot.resetLatch).noteReset i.slotB i.s.cycle with lastB := i.slotB, since := i.s.cycle }

theorem wait_switched {i : Iss} (hg : i.s.group? i.gr = some i.g) (w : Wait) (f : Group → Group) :
    i.Switched (i.conclude (i.wait w (i.s.modGroup i.gr f))) (waited i (f i.g) w) := by
  have e : i.conclude (i.wait w (i.s.modGroup i.gr f)) =
      (i.s.modGroup i.gr fun g => waited i (f g) w).setCore (i.s.coreIdOf i.gr) none := by
    show State.switchPoint _ _ = _
    unfold State.switchPoint
    simp only [setCore_modGroup, modGroup_modGroup, coreIdOf_modGroup]
    rfl
  rw [e]
  exact ⟨group?_modGroup_self (s := i.s) _ hg, fun gr h => group?_modGroup_ne (s := i.s) _ h,
    fun l => (byte_setCore _ _ _ l).trans (byte_modGroup _ _ _ l), ⟨_, rfl⟩⟩

end Sys2Proof.Laws
end

