-- ==== Sys2Proof/Tests/Slice0.lean ====
section
/-! SUPPORT. Tests: words of the spec's encodings, ill-formed terms, single instructions, and for every statement with hypotheses a state that
meets them. -/

namespace Sys2Proof.Tests

set_option Elab.async false

open Sys2Proof Sys2Proof.Machine

/-! ## A small machine -/

/-- The one group of the placed program's block (Boot.lean): 32 lanes, type i64, 1 KiB of scratchpad; the first GiB of memory maps on to itself. -/
def at0 : GRef := ⟨1, 0⟩

def base : State := { State.reset.bootTables.bootBlock with cur := some ⟨at0, false, 0⟩ }

def withG (f : Group → Group) : State := base.modGroup at0 f
def withB (f : Block → Block) : State := base.modBlock 1 f

/-- S registers 0, 1, … of the group. -/
def withS (xs : List Word) : State := withG fun g => xs.zipIdx.foldl (fun g x => g.wrS 0 x.2 x.1) g

/-- MODE: guard 31, RNE, element type t. -/
def modeT (t : Nat) : BitVec 14 := BitVec.ofNat 14 (0x1F + 64 * t)

/-- An engine operation of group 0, queued. -/
def anOp (tl num : Nat) (i : Instr) (opa : List Word) : EngOp :=
  { tl := tl, num := num, instr := i, mode := 0x1F, grp := 0, members := [0], index := 0, parts := [⟨0, 0, 0, false, none, -1, 0, opa, [], 0, 0, [0, 0, 0, 0, 0], true, []⟩],
    acquired := [], state := .queued, pix := 0, ivec := [0, 0, 0, 0, 0], flags := 0, opa := opa, data := [0], agent := 9, clock := [], rel := [], seg := 1, begun := false }

/-- A memory instruction in the queue, with its lanes and its accesses. -/
def aMem (i : Instr) (lanes : Lanes) (opa opb : List Word) (accs : List (Nat × Loc × Bool × Bool)) : MemOp :=
  { id := 0, first := 0, instr := i, word := 0, epc := 0x10000, slotB := false, pre := none, mode := 0x1F, lanes := lanes, help := 0, pix := 0, opa := opa, opb := opb, wb := 0,
    accepted := !accs.isEmpty, accs := accs, got := [], todo := lanes, clock := [], epoch := 0, guard := lanes, met := [], seg := 1 }

theorem ex_some {α : Type} {o : Option α} {P : α → Prop} [DecidablePred P]
    (h : (match o with | some x => decide (P x) | none => false) = true) : ∃ x, o = some x ∧ P x := by
  cases o with
  | none => simp at h
  | some x => exact ⟨x, rfl, by simpa using h⟩

theorem ex_ok {α : Type} {o : Except Trap α} {P : α → Prop} [DecidablePred P]
    (h : (match o with | .ok x => decide (P x) | .error _ => false) = true) : ∃ x, o = .ok x ∧ P x := by
  cases o with
  | error _ => simp at h
  | ok x => exact ⟨x, rfl, by simpa using h⟩

theorem ok_of {ε α : Type} {o : Except ε α} (h : o.isOk = true) : ∃ x, o = .ok x := by
  cases o with
  | error _ => simp [Except.isOk, Except.toBool] at h
  | ok x => exact ⟨x, rfl⟩

theorem error_of {ε α : Type} {o : Except ε α} (h : o.isOk = false) : ∃ e, o = .error e := by
  cases o with
  | error e => exact ⟨e, rfl⟩
  | ok x => simp [Except.isOk, Except.toBool] at h

theorem ex_error {α : Type} {o : Except Trap α} {P : Trap → Prop} [DecidablePred P]
    (h : (match o with | .ok _ => false | .error e => decide (P e)) = true) : ∃ e, o = .error e ∧ P e := by
  cases o with
  | error e => exact ⟨e, rfl, by simpa using h⟩
  | ok x => simp at h

/-! ## Witnesses: scalar, predicate, vector -/

theorem witness_ScalarInstructions : ∃ i, base.issue? = some i ∧ i.checkSca .i64 [.reg 1, .spec .one] = .ok () ∧ i.checkSca .i64 [.reg 1] = .ok () ∧
    i.g.destBusy i.sl.wb [] (dstRegs (.reg 63)) = false ∧ i.scalarTwo (.reg 63) (.reg 1) (.spec .one) ≠ [] :=
  ⟨_, rfl, by decide +kernel⟩

theorem witness_PredicateInstructions : ∃ i, base.issue? = some i ∧ i.checkSca .i64 [.reg 1] = .ok () ∧ i.g.destBusy i.sl.wb [] [63] = false ∧
    i.predicates 23 0 1 ≠ [] ∧ i.fromPredicate 63 0 ≠ [] :=
  ⟨_, rfl, by decide +kernel⟩

/-- One drain row is left on the core of the group. -/
def drainS : State := withB fun b => { b with ops := [{ anOp 1 1 (.mdrn (.imm 0) (.imm 1)) [0, 1] with state := .running, pix := 1 }] }

theorem witness_ElementsTwoSources_regs : ∃ i j row, base.issue? = some i ∧ (∃ p ∈ i.elementTwo (.reg 63), i.checkVec p.2.1 [.reg 1, .reg 2] = .ok ()) ∧
    i.g.destBusy i.sl.wb (dstRegs (.reg 63)) [] = false ∧ i.rows [.reg 1, .reg 2] = some (j, row) :=
  ⟨_, _, _, rfl, by decide +kernel, by decide +kernel, rfl⟩

theorem witness_ElementsTwoSources_drn : ∃ i j row, drainS.issue? = some i ∧ (∃ p ∈ i.elementTwo (.reg 63), i.checkVec p.2.1 [.reg 1, .spec .drn] = .ok ()) ∧
    i.g.destBusy i.sl.wb (dstRegs (.reg 63)) [] = false ∧ i.rows [.reg 1, .spec .drn] = some (j, row) :=
  ⟨_, _, _, rfl, by decide +kernel, by decide +kernel, rfl⟩

theorem witness_ElementsOneSource : ∃ i j row, base.issue? = some i ∧ (∃ p ∈ i.elementOne, i.checkVec p.2.1 [.spec .lane] = .ok ()) ∧
    i.g.destBusy i.sl.wb (dstRegs .none) [] = false ∧ i.rows [.spec .lane] = some (j, row) :=
  ⟨_, _, _, rfl, by decide +kernel, by decide +kernel, rfl⟩

theorem witness_WholeLanes : ∃ i j row, base.issue? = some i ∧ i.g.destBusy i.sl.wb (dstRegs (.reg 0)) [] = false ∧ (∃ p ∈ i.laneTwo, i.checkVec p.2.1 [.reg 1] = .ok ()) ∧
    i.checkVec tsAll [.reg 1] = .ok () ∧ tsAll i.ty = true ∧ (constElem i.ty (Val.ofInt (-512))).isSome = true ∧ i.rows (.reg 1 :: srcsB (.bcast 2)) = some (j, row) :=
  ⟨_, _, _, rfl, by decide +kernel, by decide +kernel, by decide +kernel, by decide +kernel, by decide +kernel, rfl⟩

/-- 511 is no value of dya8. -/
theorem witness_WholeLanes_inexact : ∃ i j row, (withG fun g => { g with mode := modeT 14 }).issue? = some i ∧ tsAll i.ty = true ∧
    i.g.destBusy i.sl.wb (dstRegs (.reg 0)) [] = false ∧ i.checkVec tsAll [.reg 1] = .ok () ∧ constElem i.ty (Val.ofInt 511) = none ∧ i.rows [.reg 1] = some (j, row) :=
  ⟨_, _, _, rfl, by decide +kernel, by decide +kernel, by decide +kernel, by decide +kernel, rfl⟩

/-- Type f32. -/
def f32S : State := withG fun g => { g with mode := modeT 5 }

theorem witness_CompareAndSign : ∃ i j row, f32S.issue? = some i ∧ i.rows [.reg 1, .reg 2] = some (j, row) ∧ i.g.destBusy i.sl.wb (dstRegs (.reg 63)) [] = false ∧
    i.g.destBusy i.sl.wb [] [] = false ∧ i.checkVec tsAll [.reg 1, .reg 2] = .ok () ∧ i.checkVec tsFlt [.reg 1, .reg 2] = .ok () ∧ i.ty = .f32 :=
  ⟨_, _, _, rfl, rfl, by decide +kernel⟩

theorem witness_Convert : ∃ i j row, base.issue? = some i ∧ tsAll i.ty = true ∧ ElemType.f32 ≠ .d ∧
    (1 : BitVec 3).toNat < max (width .f32) (width i.ty) / min (width .f32) (width i.ty) ∧ constBad .f32 (.reg 1) = false ∧ i.latchBad false (.reg 1) = none ∧
    i.g.destBusy i.sl.wb (dstRegs (.reg 2)) [] = false ∧ i.rows [.reg 1] = some (j, row) :=
  ⟨_, _, _, rfl, by decide +kernel, by decide +kernel, by decide +kernel, by decide +kernel, by decide +kernel, by decide +kernel, rfl⟩

theorem witness_LaneSums : ∃ i j row, f32S.issue? = some i ∧ i.g.destBusy i.sl.wb (dstRegs (.reg 2)) [] = false ∧ i.checkVec tsAll (.reg 1 :: srcsB (.bcast 5)) = .ok () ∧
    i.checkVec tsAll [.reg 1] = .ok () ∧ i.rows (.reg 1 :: srcsB (.bcast 5)) = some (j, row) ∧ i.rows [.reg 1] = some (j, row) :=
  ⟨_, _, _, rfl, by decide +kernel, by decide +kernel, by decide +kernel, rfl, rfl⟩

theorem witness_CrossLane : ∃ i j row, f32S.issue? = some i ∧ i.g.destBusy i.sl.wb (dstRegs (.reg 2)) [] = false ∧
    i.checkVec tsAll (.reg 1 :: srcsB (.src (.reg 4))) = .ok () ∧ tsAll i.ty = true ∧ constBad i.ty (.reg 1) = false ∧ constBad .i64 (.spec .negone) = false ∧
    i.latchBad false (.reg 1) = none ∧ i.latchBad true (.spec .negone) = none ∧ i.rows (.reg 1 :: srcsB (.src (.reg 4))) = some (j, row) ∧ i.rows [.reg 1] = some (j, row) :=
  ⟨_, _, _, rfl, by decide +kernel, by decide +kernel, by decide +kernel, by decide +kernel, by decide +kernel, by decide +kernel, by decide +kernel, rfl, rfl⟩

theorem witness_Reductions : ∃ i j row, f32S.issue? = some i ∧ tsAll i.ty = true ∧ constBad i.ty (.reg 1) = false ∧ i.latchBad false (.reg 1) = none ∧
    (∀ p, constBad (redOut p i.ty) (.spec .zero) = false) ∧ i.latchBad true (.spec .zero) = none ∧ i.g.destBusy i.sl.wb [] (dstRegs (.reg 63)) = false ∧
    i.g.destBusy i.sl.wb (dstRegs (.reg 63)) [] = false ∧ i.rows [.reg 1] = some (j, row) :=
  ⟨_, _, _, rfl, by decide +kernel, by decide +kernel, by decide +kernel, by intro p; cases p <;> decide +kernel, by decide +kernel, by decide +kernel, by decide +kernel, rfl⟩

theorem witness_VectorTraps : ∃ i, f32S.issue? = some i ∧ (∃ p ∈ i.elementTwo (.reg 2), p.2.1 i.ty = false) ∧
    (∃ p ∈ i.elementTwo (.reg 2), i.checkVec p.2.1 [.spec .drn, .reg 1] = .ok ()) ∧ i.g.destBusy i.sl.wb (dstRegs (.reg 2)) [] = false ∧ i.b.drainsOf (i.gr.grp % 6) = [] :=
  ⟨_, rfl, by decide +kernel⟩

/-! ## Witnesses: memory -/

/-- Room for m, from three evaluations. -/
theorem room {i : Iss} {m : MemOp} (h : decide ((i.g.memq.filter fun x => !x.accepted).length < 8) && decide (i.g.ldcnt < 64) &&
    (i.g.destBusy i.sl.wb (loadDest m.instr) (loadDestS m.instr).toList == false) = true) : i.Room m := by
  simp only [Bool.and_eq_true, beq_iff_eq, decide_eq_true_eq] at h
  exact ⟨h.1.1, fun _ => h.1.2, h.2⟩

theorem witness_AccessesIssue_lanes : ∃ i, base.issue? = some i ∧ i.checkLaneOps [.reg 2] [.reg 1] = .ok () ∧
    (∃ m ∈ i.laneAccesses (.reg 3) 3 31 (.reg 1) (.reg 2) .gl, i.Room m) ∧ i.checkSca .i64 [.reg 1, .reg 2] = .ok () ∧
    ∃ m ∈ i.rowAccesses (.reg 3) 3 (.reg 1) (.reg 2) .sp, i.Room m :=
  ⟨_, rfl, by decide +kernel, ⟨_, .head _, room (by decide +kernel)⟩, by decide +kernel, _, .head _, room (by decide +kernel)⟩

theorem witness_AccessesIssue_scalar : ∃ i, base.issue? = some i ∧ i.checkSca .i64 [.reg 1, .reg 2] = .ok () ∧ i.onlyHelpers = false ∧
    i.Room (i.mem (.sld (.reg 3) (.reg 1) (.reg 2) true) 1 0 [i.uni (.reg 1), i.uni (.reg 2)] []) ∧
    i.Room (i.mem (.sst 3 (.reg 1) (.reg 2) true) 1 0 [i.g.rdS i.sl.wb 3, i.uni (.reg 1), i.uni (.reg 2)] []) :=
  ⟨_, rfl, by decide +kernel, by decide +kernel, room (by decide +kernel), room (by decide +kernel)⟩

theorem witness_AccessesIssue_helpers : ∃ i, (withG fun g => { g with helper := -1 }).issue? = some i ∧ i.checkSca .i64 [.reg 1, .reg 2] = .ok () ∧ i.onlyHelpers = true ∧
    i.g.destBusy i.sl.wb [] [3] = false ∧ i.g.quiet = true ∧ i.b.collective? i.g.collSeq = none :=
  ⟨_, rfl, by decide +kernel⟩

/-- VGATH of i64 takes one register, the last. -/
theorem witness_AccessesIssue_gather : ∃ i, base.issue? = some i ∧ tsAll i.ty = true ∧ (63 : BitVec 6).toNat + (nsub i.ty + 1) / 2 ≤ 64 ∧
    i.checkSca .i64 [.reg 2] = .ok () ∧ i.Room (i.mem (.vgath (.reg 3) 63 (.reg 2) .gl) i.counted i.helpers [i.uni (.reg 2)]
      ((List.range ((nsub i.ty + 1) / 2)).flatMap fun j => perLane fun l => i.g.rdV i.sl.wb (63 + j) l)) :=
  ⟨_, rfl, by decide +kernel, by decide +kernel, by decide +kernel, room (by decide +kernel)⟩

theorem witness_AccessesIssue_samples : ∃ i, f32S.issue? = some i ∧ constBad .f32 (.reg 1) = false ∧ i.checkSca .i64 [.reg 2] = .ok () ∧
    i.Room (i.mem (.samp (.reg 3) (.reg 1) (.reg 2) true) i.counted i.helpers [i.uni (.reg 2)] []) ∧ i.checkLaneOps [] [.reg 1, .reg 2] = .ok () ∧
    i.g.tagc.getD 7 0 < 255 ∧ i.Room (i.mem (.cpa 3 (.reg 1) (.reg 2) 7) i.counted i.helpers [] []) ∧ i.ty = .f32 ∧ constBad .i64 (.reg 1) = false ∧
    constBad i.ty (.reg 2) = false ∧ i.g.ordcl = false ∧ i.Room (i.mem (.atomo (.reg 1) (.reg 2)) i.counted i.helpers [] []) :=
  ⟨_, rfl, by decide +kernel, by decide +kernel, room (by decide +kernel), by decide +kernel, by decide +kernel, room (by decide +kernel),
    by decide +kernel, by decide +kernel, by decide +kernel, by decide +kernel, room (by decide +kernel)⟩

/-- The queue holds one instruction of lane 0. -/
def queueS (m : MemOp) : State := withG fun g => { g with memq := [m], ldcnt := 1 }

def vldGl : MemOp := aMem (.vld (.reg 3) (.reg 1) (.spec .zero) .gl) 1 [0x20000] [] []
def vstSp : MemOp := aMem (.vst 3 (.reg 1) (.spec .zero) .sp) 1 [0x3F8] [7] []

theorem witness_AccessesAreChecked_ok : ∃ b g x, (queueS vldGl).block? 1 = some b ∧ (queueS vldGl).group? at0 = some g ∧
    ((b.place.isSome ∧ b.aborted = false ∧ g.awaitsHome = false ∧ g.memq[0]? = some vldGl ∧ vldGl.accepted = false ∧ isLoad vldGl.instr = true) ∧
      (lanesOf vldGl.lanes = [0] ∧ vldGl.help = 0)) ∧
    (queueS vldGl).check ((queueS vldGl).memWho b g 0 vldGl) b (coreIdx 0) (vldGl.req 0) true = .ok x ∧
    (isFarStore x.loc.store = false ∧ (queueS vldGl).pinRoom ((queueS vldGl).newPins g.agent { vldGl with accs := [(0, x.loc, x.watch, x.ckpt)], accepted := true }) = true) :=
  ⟨_, _, _, rfl, rfl, by decide +kernel, rfl, by decide +kernel⟩

/-- A sample in each lane of `lanes`, with its descriptor at an address; zeros are a malformed descriptor. -/
def sampS (a : Word) (q : List MemOp) : State := withG fun g => { g with memq := q ++ [{ aMem (.samp (.reg 3) (.reg 1) (.reg 2) true) 1 [a] (List.replicate 64 0) [] with id := 9 }] }

theorem witness_AccessesAreChecked_sample : ∀ q ∈ [[], [{ aMem (.vst 3 (.reg 1) (.spec .zero) .gl) 1 [0x20000] [7] [(0, paLoc 0x20000, true, false)] with id := 0 }]],
    ∃ b g m, (sampS 0x20000 q).block? 1 = some b ∧ (sampS 0x20000 q).group? at0 = some g ∧ (g.memq[q.length]? = some m ∧ m.accepted = false ∧ (∀ n ∈ g.memq.take q.length, n.accepted = true)) ∧
      (lanesOf m.lanes).head? = some 0 ∧ ∃ a, (sampS 0x20000 q).check ((sampS 0x20000 q).memWho b g 0 m) b (coreIdx 0) (texReq (m.opa.getD 0 0)) true = .ok a ∧
        g.clearFor m.id a.loc 64 = q.isEmpty := by
  intro q h
  fin_cases h <;> exact ⟨_, _, _, rfl, rfl, ⟨rfl, by decide +kernel, by decide +kernel⟩, by decide +kernel, ex_ok (by decide +kernel)⟩

/-- The descriptor's address 4 is no multiple of 64; a descriptor of RGBA8, 1 by 1, whose texels lie past the memory that is mapped. -/
theorem witness_AccessesAreChecked_sample_traps : (∃ b g m, (sampS 4 []).block? 1 = some b ∧ (sampS 4 []).group? at0 = some g ∧ g.memq[0]? = some m ∧
      ∃ e, (sampS 4 []).check ((sampS 4 []).memWho b g 0 m) b (coreIdx 0) (texReq (m.opa.getD 0 0)) true = .error e ∧ e.cause = .align) ∧
    ∃ b g, base.block? 1 = some b ∧ base.group? at0 = some g ∧
      let x := aMem (.samp (.reg 3) (.reg 1) (.reg 2) true) 1 [0x20000] (List.replicate 64 0 ++ [2 ^ 50, 0x100000001, 0x100, 0, 0, 0, 0, 0]) []
      ∃ e, base.checkLanes (base.memWho b g 0 x) b (coreIdx 0) ((lanesOf x.lanes).flatMap (x.texReqs x.tex)) = .error e ∧ e.cause = .page :=
  ⟨⟨_, _, _, rfl, rfl, rfl, ex_error (by decide +kernel)⟩, _, _, rfl, rfl, ex_error (by decide +kernel)⟩

/-- A CPA of 9 bytes from an address to SP address 0x20. -/
def cpaS (a : Word) : State := withG fun g => { g with memq := [aMem (.cpa 3 (.reg 1) (.reg 2) 7) 1 [a] ([9] ++ List.replicate 31 0 ++ [0x20]) []] }

/-- Its two source pieces and its destination pass; from 4 the source fails. -/
theorem witness_AccessesAreChecked_cpa : ∃ b g1 m, ((cpaS 0x20000).performAccepted at0).group? at0 = some g1 ∧ (cpaS 0x20000).block? 1 = some b ∧ g1.memq = [m] ∧ (lanesOf m.lanes = [0] ∧ min 32 (m.opb.getD 0 0).toNat = 9) ∧
    let u := (cpaS 0x20000).performAccepted at0
    let engine := { u.memWho b g1 0 m with agent := u.nextAgent }
    (∃ x, u.check engine b (coreIdx 0) ⟨.gl, 0x20000, 8, true, true, false, false, false, true⟩ true = .ok x ∧ True) ∧
    (∃ x, u.check engine b (coreIdx 0) ⟨.gl, 0x20008, 1, true, true, false, false, false, true⟩ true = .ok x ∧ True) ∧
    (∃ x, u.check engine b (coreIdx 0) ⟨.sp, 0x20, 32, true, false, true, false, true, true⟩ true = .ok x ∧ True) ∧
    ∃ e, u.check engine b (coreIdx 0) ⟨.gl, 4, 8, false, true, false, false, false, true⟩ true = .error e ∧ e.cause = .align :=
  ⟨_, _, _, rfl, rfl, rfl, by decide +kernel, ex_ok (by decide +kernel), ex_ok (by decide +kernel), ex_ok (by decide +kernel), ex_error (by decide +kernel)⟩

theorem witness_AccessesAreChecked_lanes : (∀ x ∈ [(0, vldGl.req 0), (0, vldGl.req 0), (31, vstSp.req 0)], x.1 < 32) ∧
    [(0, vldGl.req 0), (0, vldGl.req 0), (31, vstSp.req 0)].Pairwise fun x y => x.1 ≤ y.1 := by decide +kernel

theorem witness_Checks : 0 < (vldGl.req 0).n ∧ (vldGl.req 0).space = .gl ∧ (vstSp.req 0).space = .sp ∧ ({ vstSp.req 0 with space := .cb } : Req).space = .cb := by decide +kernel

/-- The address 4 is no multiple of 8. -/
theorem witness_AccessesAreChecked_trap : ∃ b g, (queueS { vldGl with opa := [4] }).block? 1 = some b ∧ (queueS { vldGl with opa := [4] }).group? at0 = some g ∧
    ∃ e, (queueS { vldGl with opa := [4] }).check ((queueS { vldGl with opa := [4] }).memWho b g 0 { vldGl with opa := [4] }) b (coreIdx 0)
      (MemOp.req { vldGl with opa := [4] } 0) true = .error e ∧ e = memTrap .align 1 4 :=
  ⟨_, _, rfl, rfl, ex_error (by decide +kernel)⟩

/-- Another agent's write of the granule, its first release unknown to the group. -/
def raceS : State := { queueS vstSp with writers := [(⟨.sp 1, 0x3E0⟩, ⟨7, 1, none, false, ⟨9, 9, 0, false⟩, 5⟩)] }

theorem witness_AccessesAreChecked_race : ∃ b g, raceS.block? 1 = some b ∧ raceS.group? at0 = some g ∧
    ∃ a, raceS.check (raceS.memWho b g 0 vstSp) b (coreIdx 0) (vstSp.req 0) false = .ok a ∧ (a.watch = true ∧
      (raceS.race? (raceS.memWho b g 0 vstSp) a.loc (vstSp.req 0).n (vstSp.req 0).w).isSome = true) :=
  ⟨_, _, rfl, rfl, ex_ok (by decide +kernel)⟩

/-- Accepted instructions of each kind, at the first byte of the scratchpad and at 0x20000 of global memory. -/
def accepted (i : Instr) (l : Loc) : MemOp := aMem i 1 [0, 0] [9] [(0, l, false, false)]

theorem witness_AccessesPerform : ∀ m ∈ [accepted (.sld (.reg 3) (.reg 1) (.reg 2) true) ⟨.sp 1, 0⟩, accepted (.vld (.reg 63) (.reg 1) (.spec .zero) .sp) ⟨.sp 1, 0x3F8⟩,
      accepted (.vldd 31 (.reg 1) (.spec .zero)) (paLoc 0x20000), accepted (.vst 3 (.reg 1) (.spec .zero) .gl) (paLoc 0x20000),
      accepted (.sst 3 (.reg 1) (.reg 2) true) ⟨.sp 1, 8⟩, accepted (.stds 3 (.reg 1) (.spec .zero)) (paLoc 0x20000)],
    ∃ b g p w c, (queueS m).MayAccess at0 0 0 b g m ∧ m.accs.find? (fun x => x.1 == 0) = some (0, p, w, c) ∧ (queueS m).holds p.store = true := by
  intro m h
  fin_cases h <;> exact ⟨_, _, _, _, _, ⟨rfl, rfl, rfl, by decide +kernel, rfl, by decide, by decide +kernel, by decide +kernel⟩, rfl, by decide +kernel⟩

/-- A load of a watched granule that has kept 4 there, with and without a racing write since its acceptance. -/
def heldS (w : List (Loc × Writer)) : State :=
  { queueS { aMem (.sld (.reg 3) (.reg 1) (.reg 2) true) 1 [0, 0] [] [(0, ⟨.sp 1, 0⟩, true, false)] with got := [(0, (4, 0, 0), [])] } with writers := w }

theorem witness_AccessesPerform_held : ∀ w ∈ [[], [((⟨.sp 1, 0⟩ : Loc), (⟨77, 1, none, false, ⟨1, 1, 0, false⟩, 5⟩ : Writer))]],
    ∃ b g m p, (heldS w).MayAccess at0 0 0 b g m ∧ m.accs.find? (fun x => x.1 == 0) = some (0, p, true, false) ∧
      m.got.find? (fun x => x.1 == 0) = some (0, (4, 0, 0), []) ∧ (heldS w).overtaken ((heldS w).memWho b g 0 m) m 0 = !w.isEmpty := by
  intro w h
  fin_cases h <;> exact ⟨_, _, _, _, ⟨rfl, rfl, rfl, by decide +kernel, rfl, by decide, by decide +kernel, by decide +kernel⟩, rfl, rfl, by decide +kernel⟩

theorem witness_AccessesPerform_sample : ∃ b g, (queueS (accepted (.samp (.reg 3) (.reg 1) (.reg 2) true) (paLoc 0x20000))).MayAccess at0 0 0 b g (accepted (.samp (.reg 3) (.reg 1) (.reg 2) true) (paLoc 0x20000)) ∧
    laneIn (accepted (.samp (.reg 3) (.reg 1) (.reg 2) true) (paLoc 0x20000)).help 0 = false ∧ (accepted (.samp (.reg 3) (.reg 1) (.reg 2) true) (paLoc 0x20000)).tex = none :=
  ⟨_, _, ⟨rfl, rfl, rfl, by decide +kernel, rfl, by decide, by decide +kernel, by decide +kernel⟩, by decide +kernel⟩

/-- A VGATH of i64 with its base at an address: it stands at element e; lane 0 is guarded, lane 1 a helper. -/
def gathM (a : Word) (e : Nat) : MemOp := { aMem (.vgath (.reg 3) 10 (.reg 2) .gl) 1 [a] (List.replicate 32 0) [] with help := 2, pix := e }

theorem witness_AccessesPerform_gather : ∀ x ∈ [((0x20000 : Word), 0), (0x20000, 1), (4, 1), (0x20000, 2), (0x20000, 31), (0x20000, 32), (4, 0)],
    ∃ b g, (queueS (gathM x.1 x.2)).block? 1 = some b ∧ (queueS (gathM x.1 x.2)).group? at0 = some g ∧ b.place.isSome = true ∧ b.aborted = false ∧ g.awaitsHome = false ∧
      g.memq = [gathM x.1 x.2] ∧ (gathM x.1 x.2).accepted = false ∧ modeType (gathM x.1 x.2).mode = .i64 ∧
      ((queueS (gathM x.1 x.2)).check ((queueS (gathM x.1 x.2)).memWho b g 0 (gathM x.1 x.2)) b (coreIdx 0) ⟨.gl, x.1, 8, decide (x.1.toNat % 8 = 0), true, false, false, true, true⟩ true).isOk = decide (x.1 ≠ 4) ∧
      laneIn (gathM x.1 x.2).lanes x.2 = decide (x.2 = 0) ∧ laneIn (gathM x.1 x.2).help x.2 = decide (x.2 = 1) := by
  intro x h
  fin_cases h <;> exact ⟨_, _, rfl, rfl, by decide +kernel⟩

/-- Sixteen bytes over the edge of a page: both parts pass, of a store and of a load; past the memory that is mapped, the first fails. -/
theorem witness_AccessesPerform_ranges : ∃ b g, base.block? 1 = some b ∧ base.group? at0 = some g ∧
    (∀ w ∈ [false, true], (∃ x, base.check (base.groupWho b g 0) b (coreIdx 0) ⟨.gl, 0x20FF8, 8, true, !w, w, false, true, true⟩ true = .ok x ∧ x.loc = paLoc 0x20FF8) ∧
      (∃ x, base.check (base.groupWho b g 0) b (coreIdx 0) ⟨.gl, 0x21000, 8, true, !w, w, false, true, true⟩ true = .ok x ∧ x.loc = paLoc 0x21000) ∧
      ∃ e, base.check (base.groupWho b g 0) b (coreIdx 0) ⟨.gl, 0x80000000000, 8, true, !w, w, false, true, true⟩ true = .error e ∧ e.cause = .page) ∧
    ∀ x < 8, ((paLoc 0x20FF8).add x).within (paLoc 0x21000) 8 = false ∧ ((paLoc 0x21000).add x).within (paLoc 0x20FF8) 8 = false := by
  refine ⟨_, _, rfl, rfl, fun w h => ?_, by decide +kernel⟩
  fin_cases h <;> exact ⟨ex_ok (by decide +kernel), ex_ok (by decide +kernel), ex_error (by decide +kernel)⟩

/-- Lane 5 alone is guarded in by P0, its address S1 + … is 0x20000: type i32 and f32. -/
def atomS (t : Nat) : State := withG fun g => { g with mode := BitVec.ofNat 14 (64 * t), p := [(0, 0x20)], v := [(32 * 1 + 5, 0x20000), (32 * 2 + 5, 3)] }

theorem witness_Atomics : ∀ t ∈ [3, 5], ∃ i, (atomS t).issue? = some i ∧ (i.g.quiet = true ∧ constBad .i64 (.reg 1) = false ∧ constBad i.ty (.reg 2) = false ∧
    (i.ty = .i32 ∨ i.ty = .f32) ∧ lanesOf i.counted = [5]) ∧
    ∃ x, i.s.check { i.who with atomic := some .device } i.b (coreIdx 0) ⟨.gl, i.laneWord (.reg 1) 5, 4, true, true, true, false, true, true⟩ true = .ok x ∧
      i.s.holds x.loc.store = true ∧ (atomS t).pins.length + 1 ≤ 8192 := by
  intro t h
  fin_cases h <;> exact ⟨_, rfl, by decide +kernel, ex_ok (by decide +kernel)⟩

/-- Lanes 5 and 9 name one place. -/
theorem witness_Atomics_lanes : ∃ i, ((atomS 3).modGroup at0 fun g => { g with p := [(0, 0x220)], v := [(32 * 1 + 5, 0x20000), (32 * 1 + 9, 0x20000), (32 * 2 + 5, 3), (32 * 2 + 9, 4)] }).issue? = some i ∧
    lanesOf i.counted = [5, 9] ∧ i.s.pins = [] ∧ (∃ x, i.s.check { i.who with atomic := some .device } i.b (coreIdx 0) ⟨.gl, i.laneWord (.reg 1) 5, 4, true, true, true, false, true, true⟩ true = .ok x ∧ x.loc = paLoc 0x20000) ∧
    ∃ x, i.s.check { i.who with atomic := some .device } i.b (coreIdx 0) ⟨.gl, i.laneWord (.reg 1) 9, 4, true, true, true, false, true, true⟩ true = .ok x ∧ x.loc = paLoc 0x20000 :=
  ⟨_, rfl, by decide +kernel, by decide +kernel, ex_ok (by decide +kernel), ex_ok (by decide +kernel)⟩

/-- Lane 5's address 0x20002 is no multiple of 4. -/
theorem witness_Atomics_trap : ∃ i, ((atomS 3).modGroup at0 fun g => { g with v := [(32 * 1 + 5, 0x20002)] }).issue? = some i ∧ lanesOf i.counted = [5] ∧
    ∃ e, i.s.check { i.who with atomic := some .device } i.b (coreIdx 0) ⟨.gl, i.laneWord (.reg 1) 5, 4, false, true, true, false, true, true⟩ true = .error e ∧ e.cause = .align :=
  ⟨_, rfl, by decide +kernel, ex_error (by decide +kernel)⟩

/-- A synchronisation word at the last 16 bytes of the slice. -/
theorem witness_SyncWordArmed : ∃ i, (withS [0x3F0, 0xFFFFFFFF, 0x100000000]).issue? = some i ∧ (i.checkSca .i64 [.reg 0, .reg 1] = .ok () ∧ i.onlyHelpers = false ∧
    (i.uni (.reg 1)).toNat < 2 ^ 32 ∧ i.checkSca .i64 [.reg 0, .reg 2] = .ok () ∧ 2 ^ 32 ≤ (i.uni (.reg 2)).toNat ∧ i.g.quiet = true) ∧
    ∃ x, i.s.check { i.who with atomic := some .block } i.b (coreIdx i.gr.grp)
      ⟨.sp, i.uni (.reg 0), 16, decide ((i.uni (.reg 0)).toNat % 16 = 0), true, true, false, false, true⟩ true = .ok x ∧ i.s.holds x.loc.store = true ∧ i.s.pins.length ≤ 8192 :=
  ⟨_, rfl, by decide +kernel, ex_ok (by decide +kernel)⟩

/-- A load under way, two copies of tag 7, the generation 1 in the word at 0x3F0. -/
def waitS : State := (withG fun g => ({ g with ldcnt := 1, tagc := [0, 0, 0, 0, 0, 0, 0, 2] }.wrS 0 0 0x3F0).wrS 0 1 1).setBytes ⟨.sp 1, 0x3F8⟩ [1]

theorem witness_WaitsAndFences : ∃ i, waitS.issue? = some i ∧ (i.sl.wait = none ∧ i.g.ldcnt ≤ 1 ∧ ¬ i.g.ldcnt ≤ 0 ∧ i.g.tagc.getD 7 0 ≤ 2 ∧ ¬ i.g.tagc.getD 7 0 ≤ 1 ∧
    i.checkSca .i64 [.reg 0] = .ok ()) ∧ ∃ x, i.s.check { i.who with atomic := some .block } i.b (coreIdx i.gr.grp) (syncReq (i.uni (.reg 0))) true = .ok x ∧
      (i.g.clearFor i.g.nextMem (x.loc.add 8) 4 = true ∧ genPassed (i.s.genOf x.loc) ((i.g.rdS i.sl.wb 2).toNat % 2 ^ 32) = true ∧ genPassed (i.s.genOf x.loc) ((i.g.rdS i.sl.wb 1).toNat % 2 ^ 32) = false) :=
  ⟨_, rfl, by decide +kernel, ex_ok (by decide +kernel)⟩

theorem witness_WaitsAndFences_fence : ∃ i c, base.issue? = some i ∧ base.ctx? i.b.ctx = some c ∧ (i.g.quiet = true ∧ i.g.ldcnt = 0 ∧ c.ptw = false ∧
    i.checkLaneOps [.reg 2] [.reg 1] = .ok ()) :=
  ⟨_, _, rfl, rfl, by decide +kernel⟩

theorem witness_WaitsAndEnginesComplete : (∃ i, waitS.issue? = some i ∧ i.g.ldcnt ≤ (1 : BitVec 10).toNat ∧ i.g.tagc.getD (7 : BitVec 3).toNat 0 ≤ (2 : BitVec 7).toNat ∧
      i.checkSca .i64 [.reg 0] = .ok () ∧ i.sl.wait = none) ∧
    (∃ i c, (base.modCtx 0 fun c => { c with ptw := true }).issue? = some i ∧ i.s.ctx? i.b.ctx = some c ∧ c.ptw = true ∧ i.g.quiet = true ∧ i.g.ldcnt = 0 ∧
      i.checkLaneOps [.reg 2] [.reg 1] = .ok ()) :=
  ⟨⟨_, rfl, by decide +kernel⟩, _, _, rfl, rfl, by decide +kernel⟩

theorem witness_WaitsAndFences_tfence : ∃ i c, (base.modCtx 0 fun c => { c with ptw := true }).issue? = some i ∧
    (base.modCtx 0 fun c => { c with ptw := true }).ctx? i.b.ctx = some c ∧ (i.g.quiet = true ∧ c.ptw = true) :=
  ⟨_, _, rfl, rfl, by decide +kernel⟩

/-! ## Witnesses: control and traps -/

/-- 256 V registers for each thread, a stack area of 32 KiB at 0x30000. -/
def roomyS : State := withG fun g => { g with av := 256, stkBase := 0x30000, stkSize := 0x8000, dstkp := 0x38000 }

/-- S0 is 0x10100, S1 is 0x10102, the return address 0x10200. -/
def callS : State := roomyS.modGroup at0 fun g => ((g.wrS 0 0 0x10100).wrS 0 1 0x10102).wrS 0 63 0x10200

theorem witness_BranchesAndCalls_branches : ∃ i, callS.issue? = some i ∧ i.g.destBusy i.sl.wb [] [63] = false ∧ i.checkSca .i64 [.reg 0] = .ok () ∧
    (i.uni (.reg 0)).toNat % 4 = 0 ∧ i.checkSca .i64 [.reg 1] = .ok () ∧ (i.uni (.reg 1)).toNat % 4 ≠ 0 :=
  ⟨_, rfl, by decide +kernel⟩

/-- k 15 slides by 120; k 0 keeps the window, and RET from it is legal; from base 0, k 1 is not. -/
theorem witness_BranchesAndCalls_calls : ∃ i, callS.issue? = some i ∧ (i.g.bound = true ∧ i.Fits (i.sl.wb + 8 * (15 : BitVec 4).toNat) ∧
    i.checkSca .i64 [.reg 0] = .ok () ∧ (i.uni (.reg 0)).toNat % 4 = 0 ∧ i.sl.wb < 8 * (1 : BitVec 4).toNat ∧ ¬ i.sl.wb < 8 * (0 : BitVec 4).toNat ∧
    i.Fits (i.sl.wb - 8 * (0 : BitVec 4).toNat) ∧ (i.g.rdS i.sl.wb 63).toNat % 4 = 0) :=
  ⟨_, rfl, rfl, ⟨by decide +kernel, by decide +kernel, by decide +kernel, by decide +kernel⟩, by decide +kernel, by decide +kernel, by decide +kernel, by decide +kernel,
    ⟨by decide +kernel, by decide +kernel, by decide +kernel, by decide +kernel⟩, by decide +kernel⟩

/-- With 64 V registers and no spill area, k 15 has no room. -/
theorem witness_BranchesAndCalls_overflow : ∃ i, base.issue? = some i ∧ i.g.bound = true ∧ i.checkSca .i64 [.reg 0] = .ok () ∧
    ∃ e, i.s.slide i.gr i.slotB (8 * (15 : BitVec 4).toNat) = .error e ∧ e.cause = .stkovf :=
  ⟨_, rfl, rfl, by decide +kernel, ex_error (by decide +kernel)⟩

/-- 64 V registers, a spill area for n bytes at 0x40000, a window at base wb with LO lo; slot B as given. -/
def spillS (n lo wb : Nat) (b : Slot) : State :=
  withG fun g => { g.wrS wb 63 0x10200 with spillBase := 0x40000, spillSize := n, lo := lo, hi := lo + 64, slotA := { g.slotA with wb := wb }, slotB := b }

/-- CALL 1 from base 0 spills unit 0. -/
theorem witness_BranchesAndCalls_spill : ∃ i c, (spillS 2112 0 0 Slot.free).issue? = some i ∧ i.g.bound = true ∧ i.active ≠ 0 ∧ (i.g.lo < i.top (i.sl.wb + 8) - i.g.span ∧
    (i.g.slot (!i.slotB)).isFree = true ∧ i.top (i.sl.wb + 8) - i.g.span = 8 ∧ i.g.quiet = true) ∧ i.Spills 0 1 c ∧ (c 1).overPinned = false := by
  have h : ∃ t, (spillS 2112 0 0 Slot.free).storeRange at0 0x40000 (List.replicate 2112 0) 0x40000 = .ok t ∧ t.overPinned = false := ex_ok (by decide +kernel)
  obtain ⟨t, h, n⟩ := h
  refine ⟨_, fun j => if j = 0 then spillS 2112 0 0 Slot.free else t, rfl, by decide +kernel, by decide +kernel, by decide +kernel, ⟨rfl, fun j l => ?_⟩, n⟩
  obtain rfl : j = 0 := by omega
  exact ⟨by decide +kernel, List.replicate 2112 0, ⟨by decide +kernel, by decide +kernel, by decide +kernel⟩, h⟩

/-- Slot B's window at base 0 would leave the resident range; the spill area is a byte too short. -/
theorem witness_BranchesAndCalls_spill_traps : (∃ i, (spillS 2112 0 0 (pathSlot 0xFF 0x10020 0)).issue? = some i ∧ i.g.lo < i.top (i.sl.wb + 8) - i.g.span ∧
      (i.g.slot (!i.slotB)).isFree = false ∧ (i.g.slot (!i.slotB)).wb < i.top (i.sl.wb + 8) - i.g.span) ∧
    ∃ i, (spillS 2111 0 0 Slot.free).issue? = some i ∧ i.Spills 0 0 (fun _ => i.s) ∧ i.g.spillSize < 2112 * (0 + 0 + 1) ∧ i.g.lo < i.top (i.sl.wb + 8) - i.g.span :=
  ⟨⟨_, rfl, by decide +kernel⟩, _, rfl, ⟨rfl, fun _ h => absurd h (Nat.not_lt_zero _)⟩, by decide +kernel⟩

/-- RET 1 to base 0 with LO 8 refills unit 0; beside a window of slot B at base 8 it does not fit. -/
theorem witness_BranchesAndCalls_refill : (∃ i, (spillS 2112 8 8 Slot.free).issue? = some i ∧ i.g.bound = true ∧ i.active ≠ 0 ∧ 8 ≤ i.sl.wb ∧ 0 < i.g.lo ∧
      (i.g.rdS i.sl.wb 63).toNat % 4 = 0 ∧ i.top 0 - 0 ≤ i.g.span ∧ 8 * (i.g.lo / 8 - 0) ≤ i.g.span ∧ i.g.quiet = true ∧ i.s.overPinned = false ∧
      ∃ bs, i.s.loadRange i.gr (i.g.unitPlace 0) 2112 (i.g.unitPlace 0) = .ok bs) ∧
    ∃ i, (spillS 2112 8 8 (pathSlot 0xFF 0x10020 8)).issue? = some i ∧ (i.g.slot (!i.slotB)).isFree = false ∧ i.g.span < i.top 0 - 0 :=
  ⟨⟨_, rfl, by decide +kernel, by decide +kernel, by decide +kernel, by decide +kernel, by decide +kernel, by decide +kernel, by decide +kernel, by decide +kernel, by decide +kernel,
    ok_of (by decide +kernel)⟩, _, rfl, by decide +kernel⟩

/-- P0 holds in the lower 16 lanes. -/
def halfS (f : Group → Group) : State := roomyS.modGroup at0 fun g => f { g with p := [(0, 0xFFFF)] }

theorem witness_DivergentBranch_free : ∃ i, (halfS id).issue? = some i ∧ i.g.tokens.length = 16 ∧ (i.active &&& i.g.rdP 0 ≠ 0 ∧ i.active &&& ~~~ (i.active &&& i.g.rdP 0) ≠ 0) ∧
    i.active &&& i.g.rdP 1 = 0 ∧ (i.g.slot (!i.slotB)).isFree = true ∧ i.Fits i.sl.wb :=
  ⟨_, rfl, by decide +kernel, by decide +kernel, by decide +kernel, by decide +kernel, by decide +kernel, by decide +kernel, by decide +kernel, by decide +kernel⟩

/-- Slot A has the lower 24 lanes, slot B the others. -/
def bothS (f : Group → Group) : State := halfS fun g => f { g with slotA := pathSlot 0xFFFFFF 0x10000 0, slotB := pathSlot 0xFF000000 0x10020 0 }

theorem witness_DivergentBranch_push : ∃ i, (bothS id).issue? = some i ∧ i.g.tokens.length = 16 ∧ (i.active &&& i.g.rdP 0 ≠ 0 ∧
    i.active &&& ~~~ (i.active &&& i.g.rdP 0) ≠ 0 ∧ (i.g.slot (!i.slotB)).isFree = false ∧ ¬ i.g.dstkp.toNat < i.g.stkBase.toNat + 16 ∧ i.g.dstkp.toNat % 16 = 0 ∧ i.g.quiet = true) ∧
    ∃ x, i.s.check i.who i.b (coreIdx i.gr.grp) (rangeReq (i.g.dstkp - 16) 16 true) true = .ok x ∧ x.loc = paLoc 0x37FF0 ∧ i.s.pins.length + 1 ≤ 8192 :=
  ⟨_, rfl, by decide +kernel, by decide +kernel, ex_ok (by decide +kernel)⟩

theorem witness_DivergentBranch_overflow : ∃ i, (bothS fun g => { g with dstkp := 0x3000F }).issue? = some i ∧ i.active &&& i.g.rdP 0 ≠ 0 ∧
    i.active &&& ~~~ (i.active &&& i.g.rdP 0) ≠ 0 ∧ (i.g.slot (!i.slotB)).isFree = false ∧ i.g.dstkp.toNat < i.g.stkBase.toNat + 16 :=
  ⟨_, rfl, by decide +kernel⟩

theorem witness_BreaksAndJoins_some : ∃ i, (halfS id).issue? = some i ∧ i.g.tokens.length = 16 ∧ i.active &&& ~~~ (i.active &&& i.g.rdP 0) ≠ 0 ∧ (i.g.token 15).exp = 0 :=
  ⟨_, rfl, by decide +kernel⟩

/-- Token 2 expects every lane; slot B's have not arrived. -/
theorem witness_BreaksAndJoins_wait : ∃ i, (bothS fun g => { g with tokens := setAt g.tokens 2 ⟨-1, 0, 0, 0⟩ }).issue? = some i ∧ i.g.tokens.length = 16 ∧
    i.active &&& ~~~ (i.active &&& ~~~ i.g.rdP 1) = 0 ∧ (i.g.token 2).exp ≠ 0 ∧ i.active ≠ 0 ∧ i.g.stackEmpty = true ∧
    ((i.arrival 2 i.active i.pc).exp &&& ~~~ i.g.exited) &&& ~~~ (i.arrival 2 i.active i.pc).arr ≠ 0 ∧ (i.g.slot (!i.slotB)).isFree = false :=
  ⟨_, rfl, by decide +kernel⟩

/-- Token 2 expects every lane, and all have arrived but the issuing slot's. -/
theorem witness_BreaksAndJoins_last : ∃ i, (halfS fun g => { g with slotA := pathSlot 0xFFFFFF 0x10000 0, tokens := setAt g.tokens 2 ⟨-1, 0xFF000000, 0x10040, 0⟩ }).issue? = some i ∧
    (i.g.tokens.length = 16 ∧ (i.g.token 2).exp ≠ 0 ∧ i.active ≠ 0 ∧ i.g.stackEmpty = true ∧
    ((i.arrival 2 i.active i.pc).exp &&& ~~~ i.g.exited) &&& ~~~ (i.arrival 2 i.active i.pc).arr = 0 ∧ (i.arrival 2 i.active i.pc).exp &&& ~~~ i.g.exited ≠ 0 ∧
    i.g.lo ≤ (i.arrival 2 i.active i.pc).jwb ∧ (i.arrival 2 i.active i.pc).jwb + 64 ≤ i.g.lo + i.g.span) ∧ i.Fits i.sl.wb :=
  ⟨_, rfl, by decide +kernel, by decide +kernel, by decide +kernel, by decide +kernel, by decide +kernel⟩

/-- One stack entry: lanes 24 to 31 at 0x10020, window base 0, token 2. Slot A has the lower 24 lanes, and token 2 expects all. -/
def popS (copy : Bool) (b : Slot) : State :=
  let e := leBytes 8 0x10020 ++ leBytes 4 0xFF000000 ++ leBytes 4 32
  (halfS fun g => { g with slotA := pathSlot 0xFFFFFF 0x10000 0, slotB := b, dstkp := 0x37FF0, stackCopy := if copy then [e] else [], tokens := setAt g.tokens 2 ⟨-1, 0, 0, 0⟩ }).setBytes (paLoc 0x37FF0) e

/-- The entry comes from the core's copy, or by a load; slot B is free, or busy with lane 31. -/
theorem witness_BreaksAndJoins_pop : ∀ x ∈ [(true, Slot.free), (false, Slot.free), (true, pathSlot 0x80000000 0x10040 0)], ∃ i bs, (popS x.1 x.2).issue? = some i ∧ i.TopEntry bs (!x.1) ∧
    (i.g.tokens.length = 16 ∧ i.active ≠ 0 ∧ ((i.arrival 2 i.active i.pc).exp &&& ~~~ i.g.exited) &&& ~~~ (i.arrival 2 i.active i.pc).arr ≠ 0 ∧ i.g.stackEmpty = false ∧
      (i.entrySlot i.g.live bs (!x.1)).mask ≠ 0 ∧ (i.entrySlot i.g.live bs (!x.1)).wb = 0 ∧ i.g.stackTop.toNat ≤ i.g.dstkp.toNat + 16) ∧ i.FitsBeside 0 := by
  intro x h
  fin_cases h
  · exact ⟨_, _, rfl, ⟨by decide +kernel, rfl, rfl⟩, by decide +kernel, by decide +kernel, by decide +kernel, by decide +kernel⟩
  · refine ⟨_, leBytes 8 0x10020 ++ leBytes 4 0xFF000000 ++ leBytes 4 32, rfl, ⟨by decide +kernel, rfl, by decide +kernel, by decide +kernel, ?_⟩, by decide +kernel, by decide +kernel, by decide +kernel, by decide +kernel⟩
    obtain ⟨bs, h, e⟩ := ex_ok (o := (popS false Slot.free).loadRange at0 0x37FF0 16 0x37FF0) (P := fun bs => bs = leBytes 8 0x10020 ++ leBytes 4 0xFF000000 ++ leBytes 4 32) (by decide +kernel)
    exact e ▸ h
  · exact ⟨_, _, rfl, ⟨by decide +kernel, rfl, rfl⟩, by decide +kernel, by decide +kernel, by decide +kernel, by decide +kernel⟩

theorem witness_Exits_pop : ∃ i bs, (popS true (pathSlot 0x80000000 0x10040 0)).issue? = some i ∧ i.TopEntry bs false ∧ (i.b.ops = [] ∧ i.g.flags &&& i.g.flagen = 0 ∧ i.active ≠ 0 ∧
      i.g.tokens.length = 16 ∧ (i.g.slot (!i.slotB)).isFree = false ∧ (∀ k ∈ i.g.tokens, k.exp &&& ~~~ i.active = 0 ∨ k.exp &&& ~~~ i.active &&& ~~~ i.g.exited &&& ~~~ k.arr ≠ 0) ∧
      i.g.stackEmpty = false ∧ (i.entrySlot (i.g.live &&& ~~~ i.active) bs false).mask ≠ 0) ∧ i.FitsBeside (i.entrySlot (i.g.live &&& ~~~ i.active) bs false).wb :=
  ⟨_, _, rfl, ⟨by decide +kernel, rfl, rfl⟩, by decide +kernel, by decide +kernel, by decide +kernel, by decide +kernel⟩

theorem witness_Exits_waits : ∃ i, (withB fun b => { b with ops := [anOp 1 1 .mzero []] }).issue? = some i ∧
    ∃ o ∈ i.b.ops, o.arrived.contains i.gr.grp = true ∧ o.acquired.contains i.gr.grp = false ∧ o.isDone = false ∧ isMdrn o.instr = false :=
  ⟨_, rfl, by decide +kernel⟩

theorem witness_Exits_flag : ∃ i, (withG fun g => { g with flags := 0x40, flagen := 0x40 }).issue? = some i ∧ i.b.ops = [] ∧ i.g.flags &&& i.g.flagen ≠ 0 :=
  ⟨_, rfl, by decide +kernel⟩

theorem witness_Exits_ends : ∃ i, base.issue? = some i ∧ i.b.ops = [] ∧ i.g.flags &&& i.g.flagen = 0 ∧ i.active ≠ 0 ∧ i.g.stackEmpty = true ∧ i.g.tokens.length = 16 ∧
    ((i.g.slot (!i.slotB)).isFree = true ∧ i.g.live &&& ~~~ i.active = 0 ∧ i.g.tokens = List.replicate 16 Token.idle) ∧
    ∀ k ∈ i.g.tokens, k.exp &&& ~~~ i.active = 0 ∨ k.exp &&& ~~~ i.active &&& ~~~ i.g.exited &&& ~~~ k.arr ≠ 0 :=
  ⟨_, rfl, by decide +kernel⟩

/-- A handler at 0x20000; the frame has just room. -/
def trapS : State := (roomyS.modCtx 0 fun c => { c with hvec := 0x20000 }).modGroup at0 fun g => { g with dstkp := 0x30000 + 11008 }

theorem canTrap {i : Iss} {past : Bool} {c : Cause} {sub : Nat} {addr hvec : Word} (h : i.g.memq = [] ∧ i.b.handler = none ∧ i.g.traps.length < 4 ∧
      (i.s.ctx? i.b.ctx).map (·.hvec) = some hvec ∧ hvec ≠ 0 ∧ i.g.stkBase.toNat + 11008 ≤ i.g.dstkp.toNat) (f : i.Fits (i.sl.wb + 16))
    (w : ∃ s1, (i.s.setGroup i.gr (i.halted past)).storeRange i.gr i.frame (frameBytes (i.halted past) (i.causeOf c sub) addr i.reported 0 []) i.frame = .ok s1 ∧ s1.overPinned = false) :
    ∃ s1, i.CanTrap past c sub addr hvec s1 :=
  let ⟨s1, w, n⟩ := w
  ⟨s1, h.1, h.2.1, h.2.2.1, h.2.2.2.1, h.2.2.2.2.1, h.2.2.2.2.2, f, w, n⟩

theorem witness_TrapsTaken : ∃ i, trapS.issue? = some i ∧ i.active ≠ 0 ∧ (∃ s1, i.CanTrap true .trap 0xFFFFFF 0 0x20000 s1) ∧ ∃ s1, i.CanTrap false .illop 3 0 0x20000 s1 :=
  ⟨_, rfl, by decide +kernel,
    canTrap (by decide +kernel) ⟨by decide +kernel, by decide +kernel, by decide +kernel, by decide +kernel⟩ (ex_ok (by decide +kernel)),
    canTrap (by decide +kernel) ⟨by decide +kernel, by decide +kernel, by decide +kernel, by decide +kernel⟩ (ex_ok (by decide +kernel))⟩

/-- The aborts: no handler; depth 4; a handler's group; a frame one byte too long. -/
theorem witness_TrapsTaken_abort : ∀ s ∈ [base, trapS.modGroup at0 fun g => { g with traps := List.replicate 4 ⟨false, [], 0, 0, ⟨none, []⟩⟩ },
      trapS.modBlock 1 fun b => { b with handler := some 0 }, trapS.modGroup at0 fun g => { g with dstkp := 0x30000 + 11007 }],
    ∃ i, s.issue? = some i ∧ (i.g.memq = [] ∧ s.block? i.gr.blk = some i.b ∧ (i.b.handler.isSome = true ∨ 4 ≤ i.g.traps.length ∨
      ((i.s.ctx? i.b.ctx).map (·.hvec)).getD 0 = 0 ∨ i.g.dstkp.toNat < i.g.stkBase.toNat + 11008)) := by
  intro s h
  fin_cases h <;> exact ⟨_, rfl, rfl, rfl, by decide +kernel⟩

theorem witness_TrapFrame : ∃ (g : Group) (q : List QEnt), g.traps.length < 4 ∧ q.length = 8 ∧ g.slotA.wb < 2 ^ 32 ∧ g.slotB.wb < 2 ^ 32 ∧ g.ivec.length = 5 :=
  ⟨freshGroup 64 0 (-1) 0 0 0 0 0 0 1 0 [], List.replicate 8 QEnt.empty, by decide +kernel⟩

theorem witness_TrapReturn_priv : ∃ i, base.issue? = some i ∧ i.g.traps = [] := ⟨_, rfl, rfl⟩

/-- In a handler, with a frame of zeros at 0x31000; the last frame's first PC field is 0 too, and a MODE of 24 is none. -/
def inTrapS : State := roomyS.modGroup at0 fun g => { g with traps := [⟨false, [], 0x31000, 0, ⟨none, []⟩⟩], dstkp := 0x31000 }

theorem witness_TrapReturn : ∃ i h rest, inTrapS.issue? = some i ∧ i.g.traps = h :: rest ∧ i.g.quiet = true ∧ i.g.ldcnt ≤ 64 ∧ inTrapS.overPinned = false ∧ ∃ bs, inTrapS.loadRange i.gr i.g.dstkp 11008 i.g.dstkp = .ok bs ∧
    (FrameData.check ⟨bs⟩ i.g.live = .ok () ∧ FrameData.num ⟨bs⟩ 88 1 = 0 ∧ i.g.lo ≤ min (FrameData.num ⟨bs⟩ 24 4) (FrameData.num ⟨bs⟩ 28 4) ∧
      max (FrameData.num ⟨bs⟩ 24 4) (FrameData.num ⟨bs⟩ 28 4) + 64 ≤ i.g.lo + i.g.span) :=
  ⟨_, _, _, rfl, rfl, by decide +kernel, by decide +kernel, by decide +kernel, ex_ok (by decide +kernel)⟩

theorem witness_TrapReturn_bad : ∃ i, (inTrapS.setBytes (paLoc 0x31020) [24]).issue? = some i ∧
    ∃ bs, i.s.loadRange i.gr i.g.dstkp 11008 i.g.dstkp = .ok bs ∧ FrameData.check ⟨bs⟩ i.g.live = .error (illopTrap 8) :=
  ⟨_, rfl, ex_ok (by decide +kernel)⟩

/-! ## Witnesses: synchronisation and system -/

/-- Two groups; the first is the issuer. -/
def twoS (f : Block → Block) : State := withB fun b => f { b with groups := b.groups ++ b.groups }

theorem witness_Barriers : ∀ s ∈ [base, twoS id], ∃ i, s.issue? = some i ∧ i.checkSca .i64 [.spec .zero] = .ok () ∧ i.checkSca .i64 [.imm 1] = .ok () ∧ i.b.bars.length = 16 ∧
    i.g.quiet = true ∧ (i.b.bar 15).arrived.contains i.gr.grp = false ∧ i.sl.wait = none ∧ i.sl.resume = false ∧ i.g.flags &&& i.g.flagen = 0 ∧
    i.g.barAt.getD 15 0 ≤ (i.b.bar 15).outs.length := by
  intro s h
  fin_cases h <;> exact ⟨_, rfl, by decide +kernel⟩

/-- Alone, the group ends the phase of a count of 0; of two groups it does not, nor of a count of 2. -/
theorem witness_Barriers_ends : (∃ i, base.issue? = some i ∧ ∀ g ∈ i.b.standing, g ∈ [i.gr.grp]) ∧ (∃ i, (twoS id).issue? = some i ∧ ¬ ∀ g ∈ i.b.standing, g ∈ [i.gr.grp]) ∧
    ∃ i, (twoS id).issue? = some i ∧ min (i.uni (.imm 2)).toNat i.b.groups.length = 2 :=
  ⟨⟨_, rfl, by decide +kernel⟩, ⟨_, rfl, by decide +kernel⟩, _, rfl, by decide +kernel⟩

theorem witness_Barriers_waits : ∃ i, (withG fun g => { g with barAt := setAt g.barAt 0 1, flags := 1, flagen := 0x7F }).issue? = some i ∧ i.sl.wait = none ∧
    ¬ i.g.barAt.getD 0 0 ≤ (i.b.bar 0).outs.length ∧ i.g.flags &&& i.g.flagen ≠ 0 :=
  ⟨_, rfl, by decide +kernel⟩

theorem witness_Barriers_span : ∀ s ∈ [base, twoS id], ∃ i x, s.issue? = some i ∧ s.span? i.b.span = some x ∧ i.b.id = i.gr.blk ∧ i.sl.wait = none ∧ i.sl.resume = false ∧
    i.g.quiet = true ∧ x.arrived.contains (i.b.id, i.gr.grp) = false ∧ i.g.flags &&& i.g.flagen = 0 ∧
    ((∀ b ∈ s.blocks, x.members.contains b.id = true → b.aborted = false → ∀ g ∈ b.standing, (b.id, g) ∈ [(i.b.id, i.gr.grp)]) ↔ i.b.groups.length = 1) := by
  intro s h
  fin_cases h <;> exact ⟨_, _, rfl, rfl, by decide +kernel⟩

/-- One operation of t1 has completed and is not acquired, with INX. -/
def doneS : State := withB fun b => { b with ops := [{ anOp 1 1 .mzero [] with state := .done, flags := 0x20 }], tls := setAt b.tls 1 ⟨1, 0, []⟩ }

theorem witness_Timelines : ∃ i, doneS.issue? = some i ∧ i.b.tls.length = 16 ∧ i.checkSca .i64 [.spec .one] = .ok () ∧ ¬ i.b.counter 1 < (i.uni (.spec .one)).toNat ∧
    i.b.counter 15 < (i.uni (.spec .one)).toNat ∧ i.g.quiet = true ∧ i.g.destBusy i.sl.wb [] (dstRegs (.reg 3)) = false ∧
    ∃ o ∈ i.b.ops, (o.isDone && o.tl == 1 && decide (o.num ≤ 1)) = true :=
  ⟨_, rfl, by decide +kernel⟩

/-- A TLWAIT of t1 that has issued with 1 goes on with it. -/
theorem witness_Timelines_held : ∃ i, (doneS.modGroup at0 fun g => { g with slotA := { g.slotA with wait := some (.tl 1 1) } }).issue? = some i ∧ i.sl.wait = some (.tl 1 1) ∧
    i.b.tls.length = 16 ∧ i.checkSca .i64 [.imm 9] = .ok () ∧ 1 ≤ i.b.counter 1 :=
  ⟨_, rfl, by decide +kernel⟩

/-- Eight groups; masks 0x3 and 0x3F are gangs, and each of the four conditions has a mask that is the first to fail it. -/
def eightS (m : Word) : State := (withB fun b => { b with groups := (List.range 8).flatMap fun _ => b.groups }).modGroup at0 fun g => g.wrS 0 0 m

theorem witness_Timelines_gang : ∀ m ∈ [(0 : Word), 3, 0x3F, 0x100000001, 0x41, 6, 0x201], ∃ i, (eightS m).issue? = some i ∧ i.checkSca .i64 [.reg 0] = .ok () ∧
    ∀ o ∈ i.b.ops, o.tl ≠ 1 := by
  intro m h
  fin_cases h <;> exact ⟨_, rfl, by decide +kernel⟩

theorem witness_Timelines_gang_faults : (lanesOf 1).length < 2 ∧ (laneIn 0x41 0 = true ∧ laneIn 0x41 6 = true ∧ 0 % 6 = 6 % 6 ∧ (lanesOf 0x41).length = 2) ∧
    (laneIn 6 0 = false ∧ (lanesOf 6).length = 2) ∧ (laneIn 0x201 0 = true ∧ laneIn 0x201 9 = true ∧ 8 ≤ 9) :=
  by decide +kernel

theorem witness_ModesTimersCheckpoints : ∃ i c, base.issue? = some i ∧ base.ctx? i.b.ctx = some c ∧ (i.sl.modex = none ∧ i.g.destBusy i.sl.wb [] (dstRegs (.reg 3)) = false ∧
    i.checkSca .i64 [.reg 1] = .ok () ∧ i.g.flags &&& i.g.flagen = 0) :=
  ⟨_, _, rfl, rfl, by decide +kernel⟩

theorem witness_ModesTimersCheckpoints_modex : ∃ i, (withG fun g => { g with slotA := { g.slotA with modex := some (0x1F, 0xFFFC) }, flags := 1, flagen := 1 }).issue? = some i ∧
    i.sl.modex.isSome = true ∧ i.g.flags &&& i.g.flagen ≠ 0 :=
  ⟨_, rfl, by decide +kernel⟩

theorem witness_ControlRegisters : ∃ i, (withS [0x1F, 0x20, 0x15, 0x80, -1]).issue? = some i ∧ i.g.destBusy i.sl.wb [] (dstRegs (.reg 3)) = false ∧ i.b.handler = none ∧
    (∀ c ∈ i.g.tagc, c < 256) ∧ (∀ r ∈ [0, 1, 2, 3, 4], i.checkSca .i64 [.reg r] = .ok ()) ∧ modeValueOk (i.uni (.reg 0)).toNat = true ∧
    modeValueOk (i.uni (.reg 4)).toNat = false ∧ (i.uni (.reg 1)).toNat % 16 = 0 ∧ (i.uni (.reg 2)).toNat % 16 ≠ 0 ∧ (i.uni (.reg 1)).toNat < 2 ^ 7 ∧ ¬ (i.uni (.reg 3)).toNat < 2 ^ 7 ∧
    i.controls ≠ [] ∧ i.writables 0 ≠ [] :=
  ⟨_, rfl, by decide +kernel⟩

theorem witness_ControlRegisters_grid : ∃ i g, ({ base with grids := [⟨0, 0, 5, lrecOf [], .queue 0, 0, 1, 0, 0, [], [0], [], none, [], [], [], 8, [], false⟩] }).issue? = some i ∧
    i.s.grid? i.b.grid = some g ∧ i.b.handler = none ∧ g.lid = 5 :=
  ⟨_, _, rfl, rfl, by decide +kernel⟩

/-! ## Witnesses: matrix, plane, copies -/

/-- Configuration words: bf16 by bf16, M 64, K 32, and N 64 or 192. -/
def cfg64 : Word := 0x9900100
def cfg192 : Word := 0x9900120

theorem witness_MatrixIssues_alone : ∃ i, (withS [cfg64]).issue? = some i ∧ i.b.matrix = true ∧ i.g.quiet = true ∧ i.g.gang = 0 ∧ (∀ o ∈ i.b.ops, o.waits = false) ∧
    i.b.clashes i.gr.grp [0] i.g.gangCount = [] ∧
    (let run (r : BitVec 6) (n : Nat) : List Word := (List.range n).map fun j => i.g.rdS i.sl.wb (r.toNat + j)
     ∀ p ∈ [(Instr.mma 0 3 5, 1), (.mmal 0 3 5, 2), (.mconv 0 3 5, 2), (.mconvl 0 3 5, 3)],
      let v := run 0 p.2 ++ run 3 2 ++ run 5 2
      arrayMalformed p.1 v = none ∧ (cfgOf (v.getD 0 0)).n ≤ 128 ∧ i.registersOut p.1 v 0 = none) :=
  ⟨_, rfl, by decide +kernel⟩

/-- A configuration of 0 is malformed, N 192 is too wide for one group, and a block may be without matrix storage. -/
theorem witness_MatrixIssues_traps : (∃ i, base.issue? = some i ∧ i.b.matrix = true ∧ ∀ p ∈ [Instr.mma 0 3 5, .mmal 0 3 5, .mconv 0 3 5, .mconvl 0 3 5],
      arrayMalformed p (List.replicate 7 0) = some 0) ∧
    (∃ i, (withS [cfg192]).issue? = some i ∧ i.b.matrix = true ∧ arrayMalformed (.mma 0 3 5) [cfg192, 0, 0, 0, 0] = none ∧ 128 * 1 < (cfgOf cfg192).n) ∧
    ∃ i, (withB fun b => { b with matrix := false }).issue? = some i ∧ i.b.matrix = false :=
  ⟨⟨_, rfl, by decide +kernel⟩, ⟨_, rfl, by decide +kernel⟩, _, rfl, rfl⟩

/-- Groups 0 and 1 are a gang, and group 1 has issued its part. -/
def gangS : State :=
  (twoS fun b => { b with ops := [{ anOp 1 1 (.mma 0 3 5) [cfg64, 0, 0, 0, 0] with grp := 1, members := [0, 1], parts := [⟨1, 0, 0, false, none, -1, 3, [cfg64, 0, 0, 0, 0], [], 0, 0, [0, 0, 0, 0, 0], true, []⟩] }] }).modGroup
    at0 fun g => { g.wrS 0 0 cfg64 with gang := 3 }

theorem witness_MatrixIssues_gang : ∃ i, gangS.issue? = some i ∧ i.b.matrix = true ∧ i.g.quiet = true ∧ i.b.clashes i.gr.grp (lanesOf i.g.gang) i.g.gangCount = [] ∧
    lanesOf i.g.gang = [0, 1] ∧ arrayMalformed (.mma 0 3 5) [cfg64, 0, 0, 0, 0] = none ∧ i.registersOut (.mma 0 3 5) [cfg64, 0, 0, 0, 0] 0 = none ∧
    ∃ q ∈ i.b.ops, i.b.ops.find? (fun o => o.waits && o.index == i.g.gangCount && o.members == [0, 1] && !o.arrived.contains i.gr.grp) = some q ∧ q.parts ≠ [] ∧ q.tl = 1 ∧
      ∀ m ∈ [0, 1], m ≠ i.gr.grp → q.parts.any (fun x => x.grp == m && x.back) = true :=
  ⟨_, rfl, by decide +kernel⟩

/-- Rows 511 of 1, and of 0 and 513; row 512; a drain specification of f32 with one row. -/
theorem witness_MatrixIssues_drains : ∃ i, (withS [511, 1, 512, 0, 513, 0x5000000010000]).issue? = some i ∧ (i.b.matrix = true ∧ i.g.quiet = true ∧
    i.g.destBusy i.sl.wb [] [63] = false ∧ (∀ a ∈ [0, 1, 2, 3, 4], i.checkSca .i64 [.reg a, .reg a] = .ok ()) ∧ ¬ 511 < (i.uni (.reg 0)).toNat ∧
    ¬ ((i.uni (.reg 1)).toNat = 0 ∨ 512 < (i.uni (.reg 1)).toNat) ∧ ¬ 512 < (i.uni (.reg 0)).toNat + (i.uni (.reg 1)).toNat ∧ 511 < (i.uni (.reg 2)).toNat ∧
    (i.uni (.reg 3)).toNat = 0 ∧ 512 < (i.uni (.reg 4)).toNat ∧ 512 < (i.uni (.reg 1)).toNat + 512 ∧
    (∀ st, drainMalformed st (i.g.rdS i.sl.wb 5) = false ∧ drainMalformed st (i.g.rdS i.sl.wb 3) = true) ∧
    ∀ spc ∈ [0, 1, 2, 3], engRange spc (i.uni (.reg 3) + i.uni (.reg 3)) = .ok ()) :=
  ⟨_, rfl, by decide +kernel⟩

/-- An array operation runs whose register operands are absent in every lane. -/
def runS : State := withB fun b => { b with ops := [{ anOp 1 1 (.mma 0 3 5) [cfg64, 0, 0, 0, 0] with
  state := .running, parts := [⟨0, 0, 0, false, none, -1, 0, [cfg64, 0, 0, 0, 0], [], -1, 0, [0, 0, 0, 0, 0], true, []⟩] }] }

/-- Of one operation the step takes that one. -/
theorem only (n : Nat) (o : EngOp) : [o][n % [o].length]? = some o := by
  show [o][n % 1]? = some o
  rw [Nat.mod_one]
  rfl

theorem witness_MatrixRuns_step : ∃ b o, runS.block? 1 = some b ∧ b.place.isSome = true ∧ b.stepping[Config.pick runS.tick % b.stepping.length]? = some o ∧
    (isArray o.instr = true ∧ (∀ r, r < 64 → ∀ k, k < 32 → runS.elemA b o o.stepCtx (o.stepCtx.row + r) (o.stepCtx.k + k) = .ok none) ∧
      (∀ n, n < min 192 (o.stepCtx.c.n - o.stepCtx.col) → ∀ k, k < 32 → runS.elemB b o o.stepCtx (o.stepCtx.k + k) (o.stepCtx.col + n) = .ok none) ∧
      runS.stepRace b o o.stepCtx (min 192 (o.stepCtx.c.n - o.stepCtx.col)) = none ∧
      (o.members.map (· % 6)).Nodup ∧ o.stepCtx.c.n ≤ 128 * o.members.length ∧ o.tl = 1 ∧ ∀ q ∈ b.ops, q.tl = 1 → q.num = o.num → q = o) :=
  ⟨_, _, rfl, rfl, only _ _, by decide +kernel⟩

/-- The oldest operation of t1, of each kind. -/
theorem witness_MatrixRuns_start : ∀ o ∈ [anOp 1 1 .mzero [], anOp 1 1 (.mdrn (.imm 0) (.imm 1)) [0, 1], anOp 1 1 (.mma 0 3 5) [cfg64, 0, 0, 0, 0], anOp 1 1 (.mma 0 3 5) [0, 0, 0, 0, 0]],
    ∃ b, (withB fun b => { b with ops := [o] }).block? 1 = some b ∧ b.op? 1 1 = some o ∧ b.mayStart1 o = true := by
  intro o h
  fin_cases h <;> exact ⟨_, rfl, by decide +kernel, by decide +kernel⟩

/-- MZERO beside a write of the last granule of its CB, by an agent that it knows nothing of; and beside none. -/
def mzS (w : List (Loc × Writer)) : State := { withB fun b => { b with ops := [anOp 1 1 .mzero []] } with writers := w }

theorem witness_MatrixRuns_race : ∀ w ∈ [[], [((cbLoc 1 0 511 120), (⟨77, 1, none, false, ⟨1, 1, 0, false⟩, 5⟩ : Writer))]],
    ∃ b o, (mzS w).block? 1 = some b ∧ b.op? 1 1 = some o ∧ (b.mayStart1 o = true ∧ o.instr = .mzero) ∧
      ((mzS w).cbRace ((b.starting o).who b) (cbLoc 1 (o.grp % 6) 0 0) 262144 true).isSome = !w.isEmpty := by
  intro w h
  fin_cases h <;> exact ⟨_, _, rfl, rfl, by decide +kernel, by decide +kernel⟩

theorem witness_MatrixRuns_array : arrayMalformed (.mma 0 3 5) [cfg64, 0, 0, 0, 0] = none ∧ (cfgOf cfg64).n ≤ 128 ∧ recordCount (.mma 0 3 5) = 0 ∧ 0 < (cfgOf cfg64).steps ∧
    (arrayMalformed (.mma 0 3 5) [0, 0, 0, 0, 0]).isSome = true := by decide +kernel

/-- The group has bound the plane. -/
def planeS (f : Plane → Plane) : State := (withB fun b => { b with planeSt := some (f { Plane.fresh with bound := some 0 }) }).modGroup at0 fun g => { g with mode := modeT 5 }

theorem witness_PlaneIssues : ∃ i p, (planeS id).issue? = some i ∧ i.Binds p ∧ (i.ty = .f32 ∧ i.checkSca .i64 [.reg 1, .reg 2] = .ok () ∧ i.checkSca .i64 [.reg 1] = .ok () ∧
    canonicalVa (i.uni (.reg 1)).toNat = true ∧ (i.uni (.reg 1)).toNat % 32 = 0 ∧ p.depth = 0) :=
  ⟨_, _, rfl, ⟨rfl, rfl, by decide +kernel⟩, by decide +kernel⟩

theorem witness_PlaneIssues_deep : ∃ i p, (planeS fun p => { p with depth := 8 }).issue? = some i ∧ i.Binds p ∧ p.depth = 8 :=
  ⟨_, _, rfl, ⟨rfl, rfl, by decide +kernel⟩, rfl⟩

theorem witness_PlaneIssues_unbound : (∃ i p, (planeS fun p => { p with bound := some 1 }).issue? = some i ∧ i.b.planeSt = some p ∧ p.bound ≠ some i.gr.grp ∧ i.b.plane = true ∧ i.planeBusy = false) ∧
    (∃ i, base.issue? = some i ∧ i.b.planeSt = none ∧ i.b.plane = true ∧ i.planeBusy = false) ∧ ∃ i, (withB fun b => { b with plane := false }).issue? = some i ∧ i.b.plane = false :=
  ⟨⟨_, _, rfl, rfl, by decide, rfl, by decide +kernel⟩, ⟨_, rfl, rfl, rfl, by decide +kernel⟩, _, rfl, rfl⟩

/-- PLLD and PLST: slice 6, bit 25, bit 21, a span peer's address, bit 56 without those above, 0x80, and 0 in a slice of 64 KiB. -/
theorem witness_PlaneIssues_ranges : ∃ i p, ((planeS id).modBlock 1 fun b => { b with spr := 65536 }).issue? = some i ∧ i.Binds p ∧ (i.checkSca .i64 [.reg 1, .reg 2] = .ok () ∧
    planeRange i.b true (i.uni (.reg 1) + i.uni (.reg 2)) = .ok () ∧ planeRange i.b false (i.uni (.reg 1) + i.uni (.reg 2)) = .ok () ∧
    5 < bits 0x180000 18 3 ∧ 2 ^ 25 ≤ 0x2000000 ∧ (bit 0x200000 24 = false ∧ bits 0x200000 21 3 ≠ 0) ∧ (0x1200000 < 2 ^ 25 ∧ bits 0x1200000 18 3 ≤ 5 ∧ bit 0x1200000 24 = true) ∧
    (0x80 < 2 ^ 21 ∧ bits 0x80 18 3 ≤ 5) ∧ canonicalVa (2 ^ 56) = false ∧ canonicalVa 0x80 = true ∧ 0x80 % 256 ≠ 0) :=
  ⟨_, _, rfl, ⟨rfl, rfl, by decide +kernel⟩, by decide +kernel⟩

/-- The plane of group g, with PLX q, in a block whose scratchpad holds the bitmap; an operation of t2 may be under way, which the slot may wait for. -/
def planeRead (g : Nat) (q : Option (Nat × Nat)) (o : Option OpState) (w : Option Wait) : State :=
  ((planeS fun p => { p with bound := some g, plx := q }).modBlock 1 fun b =>
    { b with spr := 2048, tls := setAt b.tls 2 ⟨o.toList.length + w.toList.length, 0, []⟩, ops := o.toList.map (fun x => { anOp 2 1 .plfree [] with state := x }) ++ w.toList.map fun _ => { anOp 2 2 (.plred 0 (.cell 0) (.spec .zero) .add) [] with state := .running } }).modGroup
    at0 fun g => { g with slotA := { g.slotA with wait := w } }

/-- At its issue with nothing before it, with an operation before it, and when it resumes, with one or without. -/
theorem witness_PlaneReads : ∀ x ∈ [(none, none, 1), (some .queued, none, 2), (none, some (Wait.plane 2), 2), (some .queued, some (.plane 2), 2)],
    ∃ i p, (planeRead 0 none x.1 x.2.1).issue? = some i ∧ i.b.planeSt = some p ∧ (p.plx = none ∧ p.bound = some i.gr.grp ∧ i.checkSca .f32 [.spec .zero] = .ok () ∧
      i.s.parityMet i.b (.plred 0 (.cell 0) (.spec .zero) .add) = false ∧ i.checkSca .i64 [.reg 1] = .ok () ∧ (i.sl.wait = none ∧ i.planeBusy = false ∧ x.2.2 = (i.b.tline 2).issued + 1 ∨ i.sl.wait = some (.plane x.2.2) ∧ (i.b.op? 2 x.2.2).isSome = true) ∧
      (i.b.ops.any fun o => o.tl == 2 && decide (o.num < x.2.2) && !o.isDone) = x.1.isSome ∧ i.s.writers = []) ∧
    ∃ x, i.s.check i.who i.b none ⟨.sp, i.uni (.reg 1), 2048, decide ((i.uni (.reg 1)).toNat % 256 = 0), false, true, false, false, true⟩ false = .ok x ∧ i.s.holds x.loc.store = true := by
  intro x h
  fin_cases h <;> exact ⟨_, _, rfl, rfl, by decide +kernel, ex_ok (by decide +kernel)⟩

/-- A pending PLX of the group, and the plane of another group. -/
theorem witness_PlaneReads_plx : ∀ x ∈ [(0, some (0, 1)), (1, none)], ∃ i p, (planeRead x.1 x.2 none none).issue? = some i ∧ i.b.planeSt = some p ∧
    (p.bound = some x.1 ∧ p.plx = x.2 ∧ i.gr.grp = 0 ∧ i.sl.wait = none ∧ i.planeBusy = false ∧ 1 = (i.b.tline 2).issued + 1 ∧
      (i.b.ops.any fun o => o.tl == 2 && decide (o.num < 1) && !o.isDone) = false) := by
  intro x h
  fin_cases h <;> exact ⟨_, _, rfl, rfl, by decide +kernel⟩

/-- A read that has waited since the group lost the plane, with and without an operation before it. -/
theorem witness_PlaneReads_lost : ∀ x ∈ [none, some OpState.queued], ∃ i, ((planeRead 0 none x none).modGroup at0 fun g => { g with slotA := { g.slotA with wait := some (.unbound 2) } }).issue? = some i ∧
    i.sl.wait = some (.unbound 2) ∧ (i.b.ops.any fun o => o.tl == 2 && decide (o.num < 2) && !o.isDone) = x.isSome := by
  intro x h
  fin_cases h <;> exact ⟨_, rfl, by decide +kernel⟩

/-- The parity of the plane of cluster 0 has failed. -/
theorem witness_PlaneReads_parity : ∃ i p, ({ planeRead 0 none none none with parity := [⟨0, 0, 1, 0, 0, 2⟩] }).issue? = some i ∧ i.b.planeSt = some p ∧ p.bound = some i.gr.grp ∧
    i.s.parityMet i.b (.plred 0 (.cell 0) (.spec .zero) .add) = true ∧ i.sl.wait = none ∧ i.planeBusy = false := ⟨_, _, rfl, rfl, by decide +kernel⟩

theorem witness_PlaneOperations : ∀ e ∈ [Instr.plmov 31 (.cell 0), .plshf 0 (.cell 1) true .n, .plcmp (.cell 5) .zero .gt, .plif, .plelse, .plend, .plwin (.reg 1),
      .plvis (.cell 2) 1 true, .plbld 28 (.cell 2) 1, .plclr 0x1F, .plbin (.reg 1), .plld 3 (.reg 1) (.reg 2) true, .plst 3 (.reg 1) (.reg 2) false],
    ∃ b o p, ((planeS fun p => { p with stack := [(allCells, [])] }).modBlock 1 fun b => { b with ops := [anOp 2 1 e [0x7F7F0000]] }).block? 1 = some b ∧ b.place.isSome = true ∧ b.nextPlane = some o ∧
      b.planeSt = some p ∧ (o.instr = e ∧ o.tl = 2 ∧ base.parityMet b e = false ∧ o.pix < 128 ∧ (∀ q ∈ b.ops, q.tl = 2 → q.num = o.num → q = o) ∧ (∀ k ∈ o.parts, k.pix = 0) ∧ p.stack ≠ []) := by
  intro e h
  fin_cases h <;> exact ⟨_, _, _, rfl, rfl, rfl, rfl, by decide +kernel⟩

/-- Only cell (0, 0) is enabled; PLLD and PLST of its row at SP address 0, and at one past the footprint. -/
def rowOp (st : Bool) (a : Word) : State :=
  (planeS fun p => { p with e := cellBits fun i j => i == 0 && j == 0 }).modBlock 1 fun b => { b with ops := [anOp 2 1 (if st then .plst 3 (.reg 1) (.reg 2) true else .plld 3 (.reg 1) (.reg 2) true) [a, 0]] }

theorem witness_PlaneOperations_row : ∀ st ∈ [false, true], ∃ b o p, (rowOp st 0).block? 1 = some b ∧ b.nextPlane = some o ∧ b.planeSt = some p ∧ (∀ i < 128, p.en i 0 = decide (i = 0)) ∧
    (∃ x, (rowOp st 0).copyCheck (EngOp.who { o with state := .running } b) b 0 1 0 4 st true = .ok x ∧ (rowOp st 0).holds x.loc.store = true) ∧
    ∃ e, (rowOp st 0).copyCheck (EngOp.who { o with state := .running } b) b 0 1 0x400 4 st true = .error e ∧ e.cause = .prot := by
  intro st h
  fin_cases h <;> exact ⟨_, _, _, rfl, rfl, rfl, by decide +kernel, ex_ok (by decide +kernel), ex_error (by decide +kernel)⟩

/-- A tile's header at 0x20000 with n primitives, its list 0x40 bytes on in the store of a PLBIN that has completed. -/
def tileOp (n : Byte) : State :=
  ((planeS id).modBlock 1 fun b => { b with ops := [{ anOp 2 1 (.plbin (.reg 1)) [0x20000] with state := .done, data := [0, 0x20000, 0x100] }, { anOp 2 2 (.pltile (.reg 1) (.reg 2)) [0x20000, 0x30000] with data := [0, 0, 0] }] }).setBytes
    (paLoc 0x20000) [n, 0, 0, 0, 0, 0, 0, 0, 0x40]

theorem witness_PlaneOperations_tile : ∀ n ∈ [(0 : Byte), 1], ∃ b o, (tileOp n).block? 1 = some b ∧ b.nextPlane = some o ∧ (o.state = .queued ∧ o.data.length = 3 ∧ o.pix = 0) ∧
    ∃ hd, (tileOp n).engRead (EngOp.who { o with state := .running } b) b false 0x20000 16 16 = .ok hd ∧ (hd.length = 16 ∧ leNat (hd.take 4) = n.toNat ∧ leNat (hd.drop 8) = 0x40) ∧
    binStoreOf b 0x20000 = 0x20000 ∧ ∃ ix bs, (tileOp n).engRead (EngOp.who { o with state := .running } b) b false 0x20040 4 4 = .ok ix ∧
      (tileOp n).engRead (EngOp.who { o with state := .running } b) b false (0x30000 + BitVec.ofNat 64 (64 * leNat ix)) 64 64 = .ok bs := by
  intro n h
  have two {s : State} {w : Who} {b : Block} (r : (match s.engRead w b false 0x20040 4 4 with | .ok ix => (s.engRead w b false (0x30000 + BitVec.ofNat 64 (64 * leNat ix)) 64 64).isOk | .error _ => false) = true) :
      ∃ ix bs, s.engRead w b false 0x20040 4 4 = .ok ix ∧ s.engRead w b false (0x30000 + BitVec.ofNat 64 (64 * leNat ix)) 64 64 = .ok bs := by
    cases h : s.engRead w b false 0x20040 4 4 with
    | error e => rw [h] at r; exact absurd r (by simp)
    | ok ix => rw [h] at r; obtain ⟨bs, e⟩ := ok_of r; exact ⟨ix, bs, rfl, e⟩
  fin_cases h <;> exact ⟨_, _, rfl, rfl, by decide +kernel,
    let ⟨hd, a, b⟩ := ex_ok (P := fun hd : List Byte => hd.length = 16 ∧ leNat (hd.take 4) = _ ∧ leNat (hd.drop 8) = 0x40) (by decide +kernel); ⟨hd, a, b, by decide +kernel, two (by decide +kernel)⟩⟩

theorem witness_CopyIssues_bulk : ∃ i, base.issue? = some i ∧ (i.onlyHelpers = false ∧ i.g.quiet = true ∧ i.checkSca .i64 [.reg 0] = .ok () ∧ i.b.collective? i.g.collSeq = none) ∧
    ∃ x, i.s.check i.who i.b none ⟨.sp, i.uni (.reg 0), 32, decide ((i.uni (.reg 0)).toNat % 32 = 0), true, false, false, false, true⟩ true = .ok x ∧ x.loc = ⟨.sp 1, 0⟩ :=
  ⟨_, rfl, by decide +kernel, ex_ok (by decide +kernel)⟩

theorem witness_CopyIssues_joins : ∃ i q, (twoS fun b => { b with ops := [{ anOp 0 1 (.cpb (.reg 0)) [0] with grp := 1, members := [0, 1] }] }).issue? = some i ∧
    i.b.collective? i.g.collSeq = some q ∧ q.tl = 0 := ⟨_, _, rfl, rfl, rfl⟩

/-- A tile to SP address 0, and to one that is no multiple of 32. -/
theorem witness_CopyIssues_tile : ∃ i, (withS [0x20000, 0, 8]).issue? = some i ∧ (i.onlyHelpers = false ∧ i.g.quiet = true ∧ i.checkSca .i64 [.reg 0, .reg 1] = .ok () ∧
    i.checkSca .i64 [.reg 0, .reg 2] = .ok () ∧ tileDest i.b (i.uni (.reg 1)) = .ok ()) ∧ (∃ e, tileDest i.b (0x3F8000 + i.uni (.reg 2)) = .error e ∧ True) ∧
    ∃ x, i.s.checkRecord i.who i.b (coreIdx i.gr.grp) (i.uni (.reg 0)) = .ok x ∧ x.loc = paLoc 0x20000 :=
  ⟨_, rfl, by decide +kernel, ex_error (by decide +kernel), ex_ok (by decide +kernel)⟩

/-- One row of 8 bytes from 0x20000 to SP address 0x40, with the given progress. Whether its unit performs at a step is a free value (Config.units), so that
the witnesses show what it meets when it does. -/
def rowS (pix : Nat) : State := withB fun b => { b with ops := [{ anOp 0 1 (.cpb (.reg 0)) [0x20] with
  state := .running, parts := [⟨0, 0, 0, false, none, -1, 0, [0x20], [0x20000, 0x40, 0x8000000000000, 0x100001], 0, pix, [0, 0, 0, 0, 0], true, []⟩] }] }

theorem witness_CopiesRun_row : ∃ b o p, (rowS 0).block? 1 = some b ∧ b.op? 0 1 = some o ∧ o.parts.find? (fun p => p.grp == 0) = some p ∧
    (isCpb o.instr = true ∧ o.state = .running ∧ p.regs ≠ [] ∧ o.turn p = true ∧ p.ended o.instr = false ∧ (∀ q ∈ b.ops, q.tl = 0 → q.num = 1 → q = o) ∧
      (sliceOfWords p.regs).empty = false ∧ (sliceOfWords p.regs).malformed b = false ∧ bit (sliceOfWords p.regs).sync 31 = false ∧ p.pix < (sliceOfWords p.regs).rows ∧
      (sliceOfWords p.regs).rowlen / 8 = 1 ∧ (sliceOfWords p.regs).sspc = 0 ∧ (sliceOfWords p.regs).dspc = 1 ∧ p.units = [] ∧ p.pix + 1 = (sliceOfWords p.regs).rows) ∧
    (∃ x, (rowS 0).copyCheck (o.sliceWho b p.grp (p.pix + 1)) b p.grp 0 0x20000 8 false true = .ok x ∧ x.loc = paLoc 0x20000) ∧
    ∃ x, (rowS 0).copyCheck (o.sliceWho b p.grp (p.pix + 1)) b p.grp 1 0x40 8 true true = .ok x ∧ (rowS 0).holds x.loc.store = true :=
  ⟨_, _, _, rfl, rfl, rfl, by decide +kernel, ex_ok (by decide +kernel), ex_ok (by decide +kernel)⟩

/-- STAT of the descriptor at SP address 0x20, in its byte 27; and SRC, which a failing source overwrites. -/
theorem witness_CopiesRun_record : ∃ b o p, (rowS 0).block? 1 = some b ∧ b.op? 0 1 = some o ∧ o.parts.find? (fun p => p.grp == 0) = some p ∧
    (∃ y, (rowS 0).copyCheck (o.sliceWho b p.grp claimTime) b p.grp 1 (p.opa.getD 0 0 + BitVec.ofNat 64 27) 1 true false = .ok y ∧ y.loc = ⟨.sp 1, 0x3B⟩ ∧ (rowS 0).holds y.loc.store = true) ∧
    (∃ y, (rowS 0).copyCheck (o.sliceWho b p.grp claimTime) b p.grp 1 (p.opa.getD 0 0 + BitVec.ofNat 64 0) 8 true false = .ok y ∧ y.loc = ⟨.sp 1, 0x20⟩) ∧
    ∃ e, (rowS 0).copyCheck (o.sliceWho b p.grp (p.pix + 1)) b p.grp 0 0x80000000000 8 false true = .error e ∧ e.cause = .page :=
  ⟨_, _, _, rfl, rfl, rfl, ex_ok (by decide +kernel), ex_ok (by decide +kernel), ex_error (by decide +kernel)⟩

/-- A transfer of 2 bytes, and in a higher lane of 1, to the first 32 of the slice, and of 32 to its last. -/
def cpaLanes : List (Nat × List Byte × Loc) := [(0, [1, 2], ⟨.sp 1, 0⟩), (1, [9], ⟨.sp 1, 0⟩), (31, List.replicate 32 3, ⟨.sp 1, 0x3E0⟩)]

/-- The units given have performed. -/
def cpaRun (us : List Nat) : State := withG fun g => { g with cpas := [⟨0, 7, 5, cpaLanes, 0, [], false, us⟩] }

theorem witness_CopiesRun_cpa (us : List Nat) : ∃ b g c, (cpaRun us).block? 1 = some b ∧ (cpaRun us).group? at0 = some g ∧ g.cpas[0]? = some c ∧ c.done = false ∧ c.lanes = cpaLanes ∧ c.units = us ∧
    (∀ x ∈ cpaLanes, x.2.1.length ≤ 32 ∧ base.holds x.2.2.store = true) ∧ ∀ x ∈ cpaLanes, ∀ y ∈ cpaLanes, x.2.2 = y.2.2 ∨ ∀ j, j < 32 → (x.2.2.add j).within y.2.2 32 = false :=
  ⟨_, _, _, rfl, rfl, rfl, rfl, rfl, rfl, by decide +kernel, by decide +kernel⟩

/-- R322: of two lanes with one destination the bytes of the higher one stand. -/
theorem test_cpa_higher_lane : ((cpaRun []).finishCpa at0 0).num ⟨.sp 1, 0⟩ 8 = 9 := by decide +kernel

/-! ## Witnesses: launches, handles, Virga -/

/-- A launch record of one block of one thread, priority 1, in the 17 bytes of it that are not 0, at 0x20000. -/
def recordS : State := (withS [0x20000]).setBytes (paLoc 0x20038) [1, 0, 1, 0, 1, 0, 1, 0, 1, 0, 1, 0, 0, 0, 0, 1, 0x10]

theorem reads {i : Iss} {d : BitVec 6} {a : Word} {n : Nat} (h : i.onlyHelpers = false ∧ i.g.quiet = true ∧ i.g.destBusy i.sl.wb [] [d.toNat] = false)
    (x : ∃ x, i.s.check i.who i.b (coreIdx i.gr.grp) ⟨.gl, a, n, decide (a.toNat % n = 0), true, false, false, true, true⟩ true = .ok x ∧ x.loc = paLoc a.toNat) :
    i.Reads d a n (i.s.bytes (paLoc a.toNat) n) :=
  let ⟨x, w, e⟩ := x
  ⟨h.1, h.2.1, h.2.2, x, w, by rw [e]⟩

theorem witness_Launches : ∃ i c, recordS.issue? = some i ∧ i.Reads 3 (i.uni (.reg 0)) 128 (i.s.bytes (paLoc (i.uni (.reg 0)).toNat) 128) ∧
    recordS.ctx? i.b.ctx = some c ∧ (i.checkSca .i64 [.reg 0] = .ok () ∧ rejects (i.s.bytes (paLoc (i.uni (.reg 0)).toNat) 128) c = none ∧ recordS.storeFull (dieOf i.cluster) = false) :=
  ⟨_, _, rfl, reads (by decide +kernel) (ex_ok (by decide +kernel)), rfl, by decide +kernel⟩

/-- A record of zeros is malformed. -/
theorem witness_Launches_rejected : ∃ i c, (withS [0x20000]).issue? = some i ∧ i.Reads 0 (i.uni (.reg 0)) 128 (i.s.bytes (paLoc (i.uni (.reg 0)).toNat) 128) ∧
    i.s.ctx? i.b.ctx = some c ∧ rejects (i.s.bytes (paLoc (i.uni (.reg 0)).toNat) 128) c = some 2 :=
  ⟨_, _, rfl, reads (by decide +kernel) (ex_ok (by decide +kernel)), rfl, by decide +kernel⟩

/-- A grid of one block, of context 0, with LAUNCHID 5. -/
def aGrid : Grid := ⟨0, 0, 5, lrecOf [], .queue 0, 0, 1, 0, 0, [], [0], [], none, [], [], [], 8, [], false⟩

/-- Die 0's store holds n grids. -/
def manyS (s : State) (n : Nat) : State := { s with grids := List.replicate n aGrid }

theorem many_entries (s : State) (n d : Nat) (h : s.pendH = []) : (manyS s n).entries d = if d = 0 then n else 0 := by
  by_cases hd : d = 0
  · simp [State.entries, manyS, h, aGrid, hd]
  · simp [State.entries, manyS, h, aGrid, hd, Ne.symm hd]

theorem many_spilled (s : State) (n : Nat) (h : s.pendH = []) : (manyS s n).spilled = n - 4096 := by
  have r : List.range 4 = [0, 1, 2, 3] := rfl
  unfold State.spilled
  rw [r]
  simp only [List.foldl_cons, List.foldl_nil, many_entries s n _ h]
  generalize 4096 = k
  simp

theorem many_full (s : State) (n : Nat) (h : s.pendH = []) (hn : 4096 ≤ n) (hv : Config.overflowEntries ≤ n - 4096) : (manyS s n).storeFull 0 = true := by
  unfold State.storeFull
  rw [many_entries s n 0 h, many_spilled s n h, if_pos rfl, decide_eq_true hn, decide_eq_true hv]
  rfl

/-- Full: 4,096 entries and the overflow area. -/
theorem witness_Launches_full : ∃ n i, (manyS recordS n).issue? = some i ∧ dieOf i.cluster = 0 ∧ (manyS recordS n).storeFull 0 = true :=
  ⟨Config.overflowEntries + 4096, _, rfl, rfl, many_full _ _ rfl (Nat.le_add_left ..) (Nat.le_of_eq (Nat.add_sub_cancel ..).symm)⟩

def anArm (n : Nat) : ArmEnt := ⟨n, 0, 7, 9, 0x20000, 0x30000, 1, 0, none⟩

/-- Zeros at 0x20000 arm tag 0 with length 0; tag 7 with length 9 is armed as entry 0. -/
theorem witness_Launches_arms : ∃ i, ({ withS [0x20000, 0x900000007] with armed := [anArm 0] }).issue? = some i ∧
    i.Reads 3 (i.uni (.reg 0)) 32 (i.s.bytes (paLoc (i.uni (.reg 0)).toNat) 32) ∧ (i.s.armed.length < 4096 ∧ (∀ e ∈ i.s.armed, ¬ (e.ctx = i.b.ctx ∧ e.tag = 0 ∧ e.minLen = 0)) ∧
      (∀ e ∈ i.s.armed, e.idx ≠ 4095) ∧ i.onlyHelpers = false ∧ i.checkSca .i64 [.reg 0] = .ok () ∧ i.checkSca .i64 [.reg 1] = .ok () ∧
      (∃ e ∈ i.s.armed, e.ctx = i.b.ctx ∧ e.tag = (i.uni (.reg 1)).toNat % 2 ^ 32 ∧ e.minLen = (i.uni (.reg 1)).toNat / 2 ^ 32)) :=
  ⟨_, rfl, reads (by decide +kernel) (ex_ok (by decide +kernel)), by decide +kernel⟩

theorem witness_Launches_standing : ∃ i, ({ (withS [0x20000]).setBytes (paLoc 0x20000) [7, 0, 0, 0, 9] with armed := [anArm 0] }).issue? = some i ∧
    i.Reads 3 (i.uni (.reg 0)) 32 (i.s.bytes (paLoc (i.uni (.reg 0)).toNat) 32) ∧
      ∃ e ∈ i.s.armed, e.ctx = i.b.ctx ∧ e.tag = leNat ((i.s.bytes (paLoc 0x20000) 32).take 4) ∧ e.minLen = leNat (((i.s.bytes (paLoc 0x20000) 32).drop 4).take 4) :=
  ⟨_, rfl, reads (by decide +kernel) (ex_ok (by decide +kernel)), by decide +kernel⟩

theorem arms (n : Nat) : ∃ i, ({ withS [0x20000] with armed := List.replicate n (anArm 0) }).issue? = some i ∧ i.s.armed.length = n :=
  ⟨_, rfl, List.length_replicate ..⟩

theorem witness_Launches_tableFull : ∃ i, ({ withS [0x20000] with armed := List.replicate 4096 (anArm 0) }).issue? = some i ∧ i.s.armed.length = 4096 := arms 4096

/-- Handle 1: package 0, cluster 0, slot 0, generation 1. It is in the state given. -/
def handleS (st : HState) (h : Word) : State := { (withS [0x20000, h, 0x200000000000]).setBytes (paLoc 0x2000E) [1] with handles := [⟨0, 0, 1, st, [], [], [], none, []⟩] }

theorem witness_Invokes : ∃ i, (handleS .pending 1).issue? = some i ∧ i.Reads 3 (i.uni (.reg 0)) 32 (i.s.bytes (paLoc (i.uni (.reg 0)).toNat) 32) ∧
    (i.checkSca .i64 [.reg 1, .reg 0] = .ok () ∧ invMalformed (i.s.bytes (paLoc (i.uni (.reg 0)).toNat) 32) = false ∧ i.payload 0 0 = .ok [] ∧ i.s.freeSlot i.cluster = some 1 ∧
      i.s.handleMalformed (i.uni (.reg 1)) = false ∧ i.sl.wait = none ∧ i.homeHere (i.uni (.reg 1)) = true ∧ i.homeBusy = false ∧ i.s.handleFault i.b.ctx (i.uni (.reg 1)) = none ∧
      (i.s.hslot (handleKey (i.uni (.reg 1)))).state = .pending ∧ (i.s.hslot (handleKey (i.uni (.reg 1)))).queue.length < 8 ∧ handleKey (i.uni (.reg 1)) ≠ i.cluster * 4096 + 1 ∧
      i.s.placeMalformed (i.uni (.reg 2)) = false ∧ i.s.placeMalformed (i.uni (.reg 1)) = true) :=
  ⟨_, rfl, reads (by decide +kernel) (ex_ok (by decide +kernel)), by decide +kernel⟩

/-- Handle 0 is malformed, handle 2 stale, and 0x200000000001 has its home in cluster 1. -/
theorem witness_Invokes_others : (∃ i, (handleS .pending 0).issue? = some i ∧ i.s.handleMalformed (i.uni (.reg 1)) = true) ∧
    (∃ i, (handleS .pending 2).issue? = some i ∧ i.s.handleMalformed (i.uni (.reg 1)) = false ∧ i.homeHere (i.uni (.reg 1)) = true ∧ i.s.handleFault i.b.ctx (i.uni (.reg 1)) = some 2) ∧
    ∃ i, (handleS .pending 0x200000000001).issue? = some i ∧ i.s.handleMalformed (i.uni (.reg 1)) = false ∧ i.homeHere (i.uni (.reg 1)) = false :=
  ⟨⟨_, rfl, by decide +kernel⟩, ⟨_, rfl, by decide +kernel⟩, _, rfl, by decide +kernel⟩

theorem witness_HandleInstructions : ∀ st ∈ [HState.pending, .resolved 5 0], ∃ i, (handleS st 1).issue? = some i ∧ i.checkSca .i64 [.reg 1] = .ok () ∧ i.sl.wait = none ∧
    i.s.handleMalformed (i.uni (.reg 1)) = false ∧ i.onlyHelpers = false ∧ i.b.settles = none ∧ i.homeHere (i.uni (.reg 1)) = true ∧ i.homeBusy = false ∧
    i.s.handleFault i.b.ctx (i.uni (.reg 1)) = none ∧ i.g.destBusy i.sl.wb [] (dstRegs (.reg 63)) = false ∧ (i.s.hslot (handleKey (i.uni (.reg 1)))).queue = [] := by
  intro st h
  fin_cases h <;> exact ⟨_, rfl, by decide +kernel⟩

theorem witness_HandleInstructions_answer : ∃ i, (withG fun g => { g with slotA := { g.slotA with wait := some (.handle 3 1), answer := some ([5, 0], [(7, 1)]) } }).issue? = some i ∧
    i.sl.wait = some (.handle 3 1) ∧ i.sl.answer = some ([5, 0], [(7, 1)]) ∧ i.g.destBusy i.sl.wb [] [63, 64] = false ∧ i.checkSca .i64 [.reg 1] = .ok () :=
  ⟨_, rfl, by decide +kernel⟩

/-- The handler of handle 3, or of handle 1 itself; handle 0 is malformed and handle 2 at fault. -/
theorem witness_HandleInstructions_settles : (∃ i, ((handleS .pending 1).modBlock 1 fun b => { b with handler := some 3 }).issue? = some i ∧ i.b.settles = some 3 ∧ i.g.quiet = true ∧
      i.onlyHelpers = false ∧ 3 ≠ i.uni (.reg 1) ∧ i.s.handleMalformed (i.uni (.reg 1)) = false) ∧
    (∃ i, ((handleS .pending 1).modBlock 1 fun b => { b with handler := some 1 }).issue? = some i ∧ i.b.settles = some (i.uni (.reg 1))) ∧
    (∃ i, (handleS .pending 0).issue? = some i ∧ i.s.handleMalformed (i.uni (.reg 1)) = true ∧ i.sl.wait = none) ∧
    ∃ i, (handleS .pending 2).issue? = some i ∧ i.s.handleFault i.b.ctx (i.uni (.reg 1)) = some 2 ∧ i.homeHere (i.uni (.reg 1)) = true :=
  ⟨⟨_, rfl, by decide +kernel⟩, ⟨_, rfl, by decide +kernel⟩, ⟨_, rfl, by decide +kernel⟩, _, rfl, by decide +kernel⟩

/-- The runs of all 128 channels and of the last; no channel, and one past the last. -/
theorem witness_VirgaInstructions : ∃ i, (withS [0x20000, 0x8000, 0x17F, 0, 0x27F]).issue? = some i ∧ (i.checkSca .i64 [.reg 0, .reg 1] = .ok () ∧ i.checkSca .i64 [.reg 2] = .ok () ∧
    i.onlyHelpers = false ∧ i.g.quiet = true ∧ i.g.destBusy i.sl.wb [] (dstRegs (.reg 63)) = false ∧
    (let bad (v : Nat) : Prop := v / 2 ^ 8 % 256 = 0 ∨ 128 < v / 2 ^ 8 % 256 ∨ 128 < v % 128 + v / 2 ^ 8 % 256 ∨ v / 2 ^ 7 % 2 = 1 ∨ 2 ^ 16 ≤ v
     ¬ bad (i.uni (.reg 1)).toNat ∧ ¬ bad (i.uni (.reg 2)).toNat ∧ bad (i.uni (.reg 3)).toNat ∧ bad (i.uni (.reg 4)).toNat)) ∧
    ∃ x, i.s.check i.who i.b (coreIdx i.gr.grp) ⟨.gl, i.uni (.reg 0), 128, decide ((i.uni (.reg 0)).toNat % 128 = 0), true, true, false, false, true⟩ false = .ok x ∧ x.watch = false :=
  ⟨_, rfl, by decide +kernel, ex_ok (by decide +kernel)⟩

/-! ## Witnesses: messages, units, Virga commands -/

/-- An invocation of context 0 from handle 2^45 + 1. -/
def anInv : Inv := ⟨0x200000000001, 0x20000, 0, 1, [1, 2], 0, 1, 0, [], none⟩

/-- Handle 1 in a state, with a waiter and a queued invocation, and one message on its way to its home. -/
def homeS (st : HState) (m : MsgBody) : State :=
  { base with handles := [⟨0, 0, 1, st, [⟨7, 3, 0⟩], [anInv], [], none, [6]⟩], msgs := [⟨5, 0, m⟩] }

/-- The message has arrived and no other goes before it. -/
def Next (s : State) (m : MsgBody) : Prop := s.msgs[0]? = some ⟨5, 0, m⟩ ∧ 0 / 128 = s.pkg ∧ ∀ y ∈ s.msgs.take 0, ¬ (y.src = 5 ∧ y.dst = 0)

theorem next (st : HState) (m : MsgBody) : Next (homeS st m) m := ⟨rfl, rfl, by simp⟩

def states : List HState := [.pending, .forwarded 2, .resolved 9 4, .broken 3 1]

theorem witness_InvocationsArrive : (∀ m ∈ [MsgBody.place anInv 8, .toHandle 1 anInv [] none, .toHandle 1 anInv [6] none, .probe 1 1 [1], .probe 2 1 [2]], Next (homeS .pending m) m) ∧
    (∀ st ∈ states, let s := homeS st (.toHandle 1 anInv [] none)
      s.handleFault anInv.ctx 1 = none ∧ (s.hslot (handleKey 1)).state = st ∧ (s.hslot (handleKey 1)).queue.length < 8 ∧ s.current 1 = true) ∧
    (homeS .pending (.toHandle 2 anInv [] none)).handleFault anInv.ctx 2 = some 2 ∧
    ((homeS (.forwarded 2) (.toHandle 1 anInv [] none)).handleMalformed 2 = false ∧ (homeS (.forwarded 0) (.toHandle 1 anInv [] none)).handleMalformed 0 = true) ∧
    (homeS (.forwarded 2) (.probe 4 1 [])).current 1 = true ∧ (1 : Word) ≠ 4 ∧ ∃ path : List Word, 255 ≤ path.length := by
  refine ⟨fun m h => ?_, by decide +kernel, by decide +kernel, by decide +kernel, by decide +kernel, by decide, _, Nat.le_of_eq (List.length_replicate (n := 255) (a := 4)).symm⟩
  fin_cases h <;> exact next ..

theorem witness_HandlesSettle : (∀ m ∈ [MsgBody.resolve 1 9 4 [], .forward 1 2 [], .brk 1 3 7 [], .wait 1 ⟨8, 3, 0⟩ [], .answer 4 [9, 0] [], .query 1 ⟨8, 3, 0⟩, .free 1 ⟨8, 3, 0⟩], Next (homeS .pending m) m) ∧
    ((homeS .pending (.brk 1 3 7 [])).current 1 = true ∧ (homeS .pending (.forward 1 2 [])).handleMalformed 2 = false) ∧
    (∀ n ∈ [0xFFFC, 0xFFFD, 0xFFFF, 7], Next (homeS (.forwarded 2) (.brk 1 1 n [])) (.brk 1 1 n []) ∧ (homeS (.forwarded 2) (.brk 1 1 n [])).current 1 = true ∧
      ((homeS (.forwarded 2) (.brk 1 1 n [])).hslot (handleKey 1)).state = .forwarded 2) ∧
    (∀ st ∈ states, let s := homeS st (.wait 1 ⟨8, 3, 0⟩ [])
      s.handleFault 0 1 = none ∧ (s.hslot (handleKey 1)).state = st ∧ s.current 1 = true ∧ s.asked 4 = false) ∧
    (homeS .pending (.query 2 ⟨8, 3, 0⟩)).handleFault 0 2 = some 2 ∧
    let s := { homeS .pending (.free 1 ⟨8, 3, 0⟩) with handles := [⟨0, 0, 1, .broken 1 1, [], [], [], none, []⟩] }
    s.handleFault 0 1 = none ∧ (s.hslot (handleKey 1)).state ≠ .pending ∧ (s.hslot (handleKey 1)).queue = [] ∧ s.group? at0 ≠ none := by
  refine ⟨fun m h => ?_, by decide +kernel, fun n h => ?_, by decide +kernel, by decide +kernel, by decide +kernel⟩
  · fin_cases h <;> exact next ..
  · fin_cases h <;> exact ⟨next .., by decide +kernel, by decide +kernel⟩

/-- A load whose lanes have all been written. -/
def loadedS : State := withG fun g => { g with memq := [{ aMem (.vld (.reg 3) (.reg 0) (.spec .zero) .gl) 0 [] [] [(0, paLoc 0x20000, true, false)] with todo := 0 }], ldcnt := 1 }

theorem witness_UnitsCarryOn : ∃ b g m tr, loadedS.block? at0.blk = some b ∧ loadedS.group? at0 = some g ∧ g.memq.find? (fun m => isLoad m.instr) = some m ∧ m.accepted = true ∧ m.todo = 0 ∧
    canonicalVa (0x20000 : Word).toNat = true ∧ loadedS.walk 0 (va57 (0x20000 : Word).toNat) = .ok tr ∧ loadedS.tlbs = [] := by
  cases h : loadedS.walk 0 (va57 (0x20000 : Word).toNat) with
  | error e => exact absurd h (by have : (loadedS.walk 0 (va57 (0x20000 : Word).toNat)).isOk = true := by decide +kernel
                                  rw [h] at this; simp [Except.isOk, Except.toBool] at this)
  | ok tr => exact ⟨_, _, _, tr, rfl, rfl, rfl, rfl, rfl, by decide +kernel, rfl, rfl⟩

/-- Core 0 executes group 0; group 6 of the block, on the same core, has been ready for a quantum. -/
def rivalS : State := { (withB fun b => { b with groups := List.replicate 7 (b.groups.headD (freshGroup 64 0 (-1) 0 0 0 0 0 0 0 0 [])) }).setCore 0 (some (at0, false)) with cycle := 76000 }

theorem witness_UnitsCarryOn_quantum : ∃ b g, rivalS.block? at0.blk = some b ∧ rivalS.group? at0 = some g ∧ (rivalS.core 0).cur = some (at0, false) ∧
    ((rivalS.core 0).fresh = false ∧ (g.slot false).inPair = false) ∧ ∃ r ∈ rivalS.rivals 0, r.gr ≠ at0 ∧ quantum ≤ r.wait :=
  ⟨_, _, rfl, rfl, rfl, by decide +kernel, by decide +kernel⟩

theorem witness_UnitsCarryOn_worked : ∃ b o, (withB fun b => { b with ops := [{ anOp 1 1 .mzero [] with state := .worked }] }).block? at0.blk = some b ∧ b.op? 1 1 = some o ∧ o.state = .worked :=
  ⟨_, _, rfl, rfl, rfl⟩

/-- All lanes have exited; in a block of two groups, the other has retired, or has not. -/
theorem witness_UnitsCarryOn_retire : (∀ s ∈ [withG fun g => { g with exited := -1, slotA := Slot.free }, (twoS id).modGroup at0 fun g => { g with exited := -1, slotA := Slot.free }], ∃ b g, s.block? at0.blk = some b ∧
      s.group? at0 = some g ∧ b.place.isSome = true ∧ b.aborted = false ∧ g.retired = false ∧ g.live = 0 ∧ g.quiet = true ∧ g.cpas.all (·.done) = true) ∧
    (∃ b, (twoS id).block? at0.blk = some b ∧ ∃ j ∈ [1], j ≠ at0.grp ∧ (b.groups[j]?).map (·.retired) = some false) ∧
    (∃ b, base.block? at0.blk = some b ∧ b.groups.length = 1) ∧ (base.grid? 0).isNone = true := by
  refine ⟨fun s h => ?_, ⟨_, rfl, by decide +kernel⟩, ⟨_, rfl, by decide +kernel⟩, by decide +kernel⟩
  fin_cases h <;> exact ⟨_, _, rfl, rfl, by decide +kernel⟩

/-- An operation of t1 has stopped with CAUSE 5. -/
def stoppedS : State :=
  (withB fun b => { b with ops := [{ anOp 1 1 .mzero [] with state := .stopped (plainTrap .align 2) }] }).modGroup at0 fun g => { g with stopped := [⟨1, 1, 0⟩] }

theorem witness_UnitsCarryOn_trap : ∃ b g o, stoppedS.block? at0.blk = some b ∧ stoppedS.group? at0 = some g ∧ b.op? 1 1 = some o ∧ b.place.isSome = true ∧ b.aborted = false ∧
    g.retired = false ∧ g.parked = false ∧ g.awaitsHome = false ∧ g.memq = [] ∧ g.stopped = [⟨1, 1, 0⟩] ∧ g.traps.length ≤ 0 ∧ o.state = .stopped (plainTrap .align 2) ∧
    (o.parts.find? (fun p => p.grp == at0.grp)).isSome = true :=
  ⟨_, _, _, rfl, rfl, rfl, by decide +kernel⟩

/-- The binning engine's job. -/
def binS : State := { withB fun b => { b with ops := [anOp 2 1 (.plbin (.reg 0)) [0x20000]] } with binJobs := [⟨0, 1, 1⟩] }

theorem witness_UnitsCarryOn_bins : ∃ b j o, binS.block? at0.blk = some b ∧ binS.binJobs.find? (fun x => x.die == dieOf (b.place.getD 0)) = some j ∧ j.blk = at0.blk ∧
    b.op? 2 j.num = some o ∧ (∃ r, binS.binJob b o = .ok r ∧ r.2 = false) ∧ (∃ e, binS.binJob b { o with opa := [4] } = .error e ∧ e.cause = .align) ∧
    ∃ r, binS.binJob b { o with parts := o.parts.map fun p => { p with regs := [2, 0, 0, 0, 0, 0] } } = .ok r ∧ r.2 = true :=
  ⟨_, ⟨0, 1, 1⟩, _, rfl, by decide +kernel, rfl, rfl, ex_ok (by decide +kernel), ex_error (by decide +kernel), ex_ok (by decide +kernel)⟩

/-! ## Witnesses: Virga commands, Zenith -/

def vgOpS : State := withB fun b => { b with ops := [anOp 3 1 (.vgcmd 0 (.reg 0) (.reg 1)) [0x20000, 0x100]] }

def aCmd (code : Nat) (done : Bool) : VgCmd := ⟨1, 1, 0, [], 0, [], [⟨0, 0, [], 0, 0, 0, done, []⟩], 0, 9, [], hostPos, code, 0⟩

/-- A command of operation op over n query rows, whose one engine has ended with a code. -/
def ended (op n : Byte) (code : Nat) : VgCmd := { aCmd 0 true with cmd := [op, 0, 0, 0, n], parts := [⟨0, 0, [], code, 0, 0, true, []⟩] }

def seen (c : VgCmd) : VgCmd := { c with parts := c.parts.map (vgOpS.vgOvertaken c) }

theorem witness_VirgaCommands : (∃ b o, vgOpS.block? 1 = some b ∧ b.op? 3 1 = some o ∧ o.state = .queued ∧ (b.before3 o).all EngOp.isDone = true) ∧
    (∀ c ∈ [aCmd 0 false, aCmd 0 true, aCmd 3 false], { vgOpS with vgcmds := [c] }.vgcmd? 1 1 = some c) ∧
    ((aCmd 0 false).code = 0 ∧ SMap.get 0 base.banks 0 ≠ 2 ∧ ∃ p ∈ (aCmd 0 false).parts, p.chan = 0 ∧ p.done = false) ∧
    ((aCmd 3 false).code ≠ 0 ∧ ∀ p ∈ (aCmd 0 true).parts, p.done = true ∧ p.code = 0) ∧
    SMap.get 0 { base with banks := [(0, 1)] }.banks 0 = 1 ∧ SMap.get 0 { base with banks := [(0, 2)] }.banks 0 = 2 := by
  refine ⟨⟨_, _, rfl, rfl, by decide +kernel⟩, fun c h => ?_, by decide +kernel, by decide +kernel, by decide +kernel, by decide +kernel⟩
  fin_cases h <;> rfl

/-- At the merge: an engine has stopped; the command is none of attention, or one whose result fits or does not; its block has been aborted. -/
theorem witness_VirgaCommands_merge : (∃ e, (seen (ended 0 0 4)).stop? = some e) ∧ ((seen (ended 1 0 0)).stop? = none ∧ (ended 1 0 0).blkOf.attn = false) ∧
    ((seen (ended 0 0 0)).stop? = none ∧ (ended 0 0 0).blkOf.attn = true ∧ (seen (ended 0 1 0)).stop? = none ∧ (ended 0 1 0).blkOf.attn = true) ∧
    (∃ r, vgOpS.vgMerge (ended 0 0 0) = .ok r) ∧ (∃ e, vgOpS.vgMerge (ended 0 1 0) = .error e) ∧
    ∃ b, vgOpS.block? 1 = some b ∧ b.aborted = false ∧ ∃ b, (vgOpS.modBlock 1 fun b => { b with aborted := true }).block? 1 = some b ∧ b.aborted = true :=
  ⟨⟨_, rfl⟩, by decide +kernel, by decide +kernel, ok_of (by decide +kernel), error_of (by decide +kernel), _, rfl, rfl, _, rfl, rfl⟩

/-- A package without blocks, whose context 0 has a save area. -/
def idleS : State := { base with blocks := [], cur := none, ctxs := [{ bootCtx with csasz := 2 ^ 40 }] }

/-- A grid of one block of tx threads with 64 * regs registers. -/
def startGrid (tx regs pri : Nat) : Grid :=
  { aGrid with lrec := { lrecOf [] with entry := 0x10000, gx := 1, gy := 1, gz := 1, tx := tx, ty := 1, tz := 1, regs := regs, pri := pri }, active := [] }

def gridS (tx regs pri : Nat) : State := { idleS with grids := [startGrid tx regs pri] }

/-- Its one candidate. -/
def startCand (tx regs pri : Nat) : Cand := ⟨.block 0 0, .grid 0, 0, pri, 1, 0, (startGrid tx regs pri).lrec.need, 1, 1, none, 0⟩

theorem witness_WorkStarts : (gridS 33 1 1).refilled.nextCand = some (startCand 33 1 1) ∧ (gridS 33 1 1).refilled.startable (startCand 33 1 1) 0 = some [0] ∧
    (gridS 33 1 1).refilled.grid? 0 = some (startGrid 33 1 1) ∧ (startGrid 33 1 1).spanLeft 0 = [0] ∧ (startGrid 33 1 1).lrec.narg = 0 ∧ (startGrid 33 1 1).s0s1 = none := by decide +kernel

/-- A handler of priority pri that waits for cluster 0. -/
def waitsFor (pri : Nat) : PendH := ⟨{ anInv with pri := pri }, 0, 7, 5⟩

def handlerCand (pri : Nat) : Cand := ⟨.handler 0, .handler 5, 0, pri, 5, 0, anInv.need, 1, 1, some 0, 0⟩

def waitingS : State := { idleS with pendH := [waitsFor 1] }

theorem witness_WorkStarts_handler : waitingS.refilled.nextCand = some (handlerCand 1) ∧ waitingS.pendH[0]? = some (waitsFor 1) ∧
    ∀ e ∈ waitingS.armed, e.held = none := by decide +kernel

/-- A saved block. -/
def savedS : State := { withB fun b => { b with place := none } with ctxs := idleS.ctxs }

theorem witness_WorkStarts_saved : ∃ c b, savedS.refilled.nextCand = some c ∧ c.work = .saved 1 ∧ savedS.refilled.startable c 5 = some [5] ∧ savedS.block? 1 = some b ∧
    (savedS.members b.span).Nodup ∧ ∀ x ∈ savedS.members b.span, savedS.block? x.id = some x := by
  obtain ⟨c, h, w⟩ := ex_some (o := savedS.refilled.nextCand) (P := fun c => c.work = .saved 1 ∧ savedS.refilled.startable c 5 = some [5]) (by decide +kernel)
  exact ⟨c, _, h, w.1, w.2, rfl, by decide +kernel⟩

/-- 32 groups of 512 registers fit on no cluster: the grid has been the first candidate for a quantum, and holds its die against the others. -/
def holdS : State := { gridS 1024 8 1 with pendH := [waitsFor 1], first := some (.grid 0, 0), holding := [.grid 0], cycle := 76000 }

theorem witness_WorkStarts_hold : holdS.first = some (.grid 0, 0) ∧ 0 + quantum ≤ holdS.cycle ∧ (∃ x ∈ holdS.cands, x = startCand 1024 8 1 ∧ x.entry ∈ holdS.holding ∧
      holdS.fitsNowhere x = true ∧ x.entry ≠ (handlerCand 1).entry ∧ x.pri ≤ (handlerCand 1).pri ∧ dieOf 31 = x.die) := by decide +kernel

/-- No save area. -/
def noSaveS : State := { gridS 33 1 1 with ctxs := [bootCtx] }

theorem witness_WorkStarts_full : ∃ x ∈ noSaveS.cands, noSaveS.saveRoom x.ctx x.need x.saves = false ∧ noSaveS.fitsNowhere x = false := by decide +kernel

/-- A block that is to be saved since cycle 0. -/
def preS (k : Nat) : State := { withB fun b => { b with preempt := some 0, groups := b.groups.map fun g => { g with slotA := { g.slotA with k := k }, resetA := 18000 } } with cycle := 19000 }

theorem witness_WorkStops : ∀ k ∈ [0, 1], ∃ b, (preS k).block? 1 = some b ∧ b.place.isSome = true ∧ b.aborted = false ∧ b.preempt = some 0 ∧ 0 + patience ≤ (preS k).cycle ∧
    ({ b with groups := b.groups.map fun (g : Group) => { g with parked := g.parked || g.atBoundary } }).savable = (k == 0) := by
  intro k h
  fin_cases h <;> exact ⟨_, rfl, by decide +kernel⟩

/-- A block that has waited at an HWAIT, with nothing under way, for 19,000 cycles. -/
def longS : State := { (withG fun g => { g with slotA := { g.slotA with wait := some (.handle 1 1) }, ready := false }).modBlock 1 fun b => { b with quiet := some 0 } with cycle := 19000 }

theorem witness_WorkStops_eviction : ∃ b, longS.block? 1 = some b ∧ (longS.members b.span).all longS.evictable = true := ⟨_, rfl, by decide +kernel⟩

theorem witness_WorkStops_idempotent : ∃ b, (withB fun b => { b with idem := true }).block? 1 = some b ∧ b.place.isSome = true ∧
    ∀ x ∈ (withB fun b => { b with idem := true }).members b.span, x.flushable = true := ⟨_, rfl, by decide +kernel⟩

/-- A PRI 0 handler for cluster 0, whose scratchpads a block of PRI 1 takes whole. -/
def urgentS (idem : Bool) : State := { withB fun b => { b with idem := idem, spr := 262144 } with ctxs := idleS.ctxs, pendH := [waitsFor 0] }

theorem witness_WorkStops_urgent : ∀ idem ∈ [false, true], (urgentS idem).displacement = some (handlerCand 0, [1]) ∧ ((urgentS idem).blocks.map (·.id)).Nodup ∧
    ∃ x ∈ (urgentS idem).blocks, x.id ∈ [1] ∧ x.preempt = none ∧ x.place = some 0 ∧ (urgentS idem).members x.span = [x] ∧
      ((∀ y ∈ (urgentS idem).members x.span, y.flushable = true) ↔ idem = true) := by
  intro idem h
  fin_cases h <;> decide +kernel

/-- A contribution of 1.0 at 0x20000 of block 0, which has retired. -/
def aContrib : Contrib := ⟨0, paLoc 0x20000, true, false, [0], .f32, 0x3F800000⟩

def addS : State := { base with grids := [{ aGrid with active := [], retired := [0], contribs := [aContrib] }] }

theorem witness_WorkEnds_adds : ∃ g, addS.grid? 0 = some g ∧ firstBy (fun (x y : Contrib) => ordBefore x.ord y.ord) g.contribs = some aContrib ∧
    (∀ n ∈ List.range (aContrib.lin + 1), g.low ≤ n → addS.closed g n = true) ∧ addS.holds aContrib.addr.store = true := ⟨_, rfl, by decide +kernel⟩

/-- A grid that has ended, with the addresses of its statistics record and its completion word. -/
def overGrid (stats comp : Word) : Grid := { aGrid with active := [], lrec := { lrecOf [] with stats := stats, comp := comp } }

def overS (stats comp : Word) : State := { base with grids := [overGrid stats comp] }

theorem witness_WorkEnds : ∀ x ∈ [((0x20000 : Word), (0 : Word)), (0, 0x20000), (0, 0)], (overS x.1 x.2).grid? 0 = some (overGrid x.1 x.2) ∧
    (overS x.1 x.2).gridOver (overGrid x.1 x.2) = true ∧ (overGrid x.1 x.2).aborted = false ∧ (∀ e ∈ (overS x.1 x.2).armed, e.held = none) := by
  intro x h
  fin_cases h <;> decide +kernel

/-- Both words can be written. -/
theorem witness_WorkEnds_writes : (∃ x, ({ overS 0x20000 0 with nextAgent := 4098 }).checkGlobal (deviceWho 0 4097 [] [] none 1) ⟨.gl, 0x20000, 64, true, false, true, false, true, true⟩ false = .ok x ∧
      (overS 0x20000 0).holds x.loc.store = true) ∧
    (∃ x, ({ overS 0 0x20000 with nextAgent := 4098 }).checkGlobal (deviceWho 0 4097 [] [(.device, [(4097, 1)])] (some .device) 1) ⟨.gl, 0x20000, 8, true, false, true, false, true, true⟩ false = .ok x ∧
      (overS 0 0x20000).holds x.loc.store = true) ∧ base.nextAgent = 4097 ∧ base.devSegment 0 = 1 ∧ clockSet (clockJoin aGrid.clock aGrid.rel) 4097 1 = [(4097, 1)] :=
  ⟨ex_ok (by decide +kernel), ex_ok (by decide +kernel), by decide +kernel⟩

theorem witness_WorkEnds_kill : ∃ g b, ({ base with grids := [aGrid] }).grid? 0 = some g ∧ g.aborted = false ∧
    ({ base with grids := [aGrid] }).blocks.find? (fun b => b.grid == 0 && !b.aborted) = some b ∧ ({ base with grids := [aGrid] }).block? b.id = some b ∧ b.handler = none :=
  ⟨_, _, rfl, rfl, rfl, rfl, rfl⟩
/-! ## Witnesses: rings, connections, the driver, errors, resets, steps -/

/-- A control block at 0x30000 with its ring of 4 entries at 0x20000, WPTR w and RPTR 0, over the bytes of s. -/
def ringS (s : State) (w : Nat) : State :=
  { s.setBytes (paLoc 0x30000) (leBytes 8 0x20000 ++ leBytes 4 4 ++ leBytes 4 w) with queues := [⟨4, 0, 0x30000⟩], rings := [⟨4, 0, 0x30000⟩] }

def theRing : Ring := ⟨4, 0, 0x30000⟩

theorem witness_QueuesAndRings : ∀ w ∈ [1, 5], (ringS recordS w).queues.find? (fun r => r.q == 4) = some theRing ∧ (ringS recordS w).rings.find? (fun r => r.q == 4) = some theRing ∧
    (ringS recordS w).ctx? theRing.ctx = some bootCtx ∧ (ringS recordS w).ringRuns theRing = true ∧ (ringS recordS w).lapped theRing = (w == 5) := by decide +kernel

/-- The record at RPTR is accepted, or malformed. -/
theorem witness_QueuesAndRings_records : rejects ((ringS recordS 1).bytes (paLoc ((ringS recordS 1).cbBase theRing)) 128) bootCtx = none ∧ (ringS recordS 1).storeFull 0 = false ∧
    rejects ((ringS base 1).bytes (paLoc ((ringS base 1).cbBase theRing)) 128) bootCtx = some 2 ∧
    leNat ((((ringS base 1).bytes (paLoc ((ringS base 1).cbBase theRing)) 128).drop 16).take 8) = 0 ∧ 4 % 4 = 0 := by decide +kernel

theorem witness_QueuesAndRings_full : ∃ n, (manyS (ringS recordS 1) n).ringRuns theRing = true ∧ (manyS (ringS recordS 1) n).storeFull 0 = true :=
  ⟨Config.overflowEntries + 4096, by decide +kernel, many_full _ _ rfl (Nat.le_add_left ..) (Nat.le_of_eq (Nat.add_sub_cancel ..).symm)⟩

theorem witness_QueuesAndRings_binding : 0x30000 % 32 = 0 ∧ inHbm (0x30000 + 31) = true ∧ (base.ctx? 0).isSome = true ∧ 63 < (if true then 64 else 256) ∧ 255 < (if false then 64 else 256) := by
  decide +kernel

/-- A descriptor of no bytes for package p, its reserved byte 32 being x. -/
def sendS (p x : Byte) : State := { ringS (base.setBytes (paLoc 0x20010) ([p, 0] ++ List.replicate 14 0 ++ [x])) 1 with routes := [1] }

/-- What the ring's descriptor is. -/
def sent (p x : Byte) : List Byte := (sendS p x).bytes (paLoc ((sendS p x).cbBase theRing)) 64

theorem witness_QueuesAndRings_sends : ∀ x ∈ [((0 : Byte), (0 : Byte)), (0, 1), (1, 0), (2, 0)], (sendS x.1 x.2).rings.find? (fun r => r.q == 4) = some theRing ∧
    (sendS x.1 x.2).ringRuns theRing = true ∧ (sendS x.1 x.2).lapped theRing = false ∧ (sendS x.1 x.2).linked x.1.toNat = (x.1 == 1) ∧ (sendS x.1 x.2).pkg = 0 := by
  intro x h
  fin_cases h <;> exact ⟨rfl, by decide +kernel, by decide +kernel, by decide +kernel, rfl⟩

theorem witness_QueuesAndRings_descriptors : ∀ x ∈ [((0 : Byte), (0 : Byte)), (0, 1), (1, 0), (2, 0)], sendMalformed (sent x.1 x.2) = (x.2 == 1) ∧
    leNat (((sent x.1 x.2).drop 16).take 2) = x.1.toNat := by
  intro x h
  fin_cases h <;> exact ⟨by decide +kernel, by decide +kernel⟩

/-- Tag 7 with MINLEN 9 is armed. -/
def armedS : State := { base with armed := [anArm 0] }

theorem witness_Connections : armedS.matchArm 0 (BitVec.toNat (7 : BitVec 32)) 9 = some (anArm 0) ∧ armedS.matchArm 0 (BitVec.toNat (7 : BitVec 32)) 8 = none ∧
    (List.replicate 9 (0 : Byte)).length ≤ 2 ^ 20 ∧ armedS.storeFull (anArm 0).die = false := by decide +kernel

theorem witness_Connections_full : ∃ n, (manyS armedS n).matchArm 0 (BitVec.toNat (7 : BitVec 32)) 9 = some (anArm 0) ∧ (manyS armedS n).storeFull (anArm 0).die = true :=
  ⟨Config.overflowEntries + 4096, by decide +kernel, many_full _ _ rfl (Nat.le_add_left ..) (Nat.le_of_eq (Nat.add_sub_cancel ..).symm)⟩

/-- A frame of class INV from package 1. -/
def aFrame (seq : Word) (et : BitVec 16) : Frame := ⟨1, 0, 1, 0, 2, seq, 0, 1, 0, [0], true, et, [5]⟩

def linkedS : State := { base with ports := [0], routes := [1] }

theorem witness_Connections_frames : (aFrame 0 0x88B6).etherType ≠ linkedS.etherType ∧ linkedS.ports ≠ [] ∧ linkedS.linked 1 = true ∧ (linkedS.conn 1).ahead = [] ∧
    (linkedS.conn 1).rseq = 0 ∧ linkedS.pkg = 0 ∧ linkedS.etherType = 0x88B5 :=
  ⟨by decide, by decide, by decide +kernel, rfl, rfl, rfl, rfl⟩

theorem witness_Connections_frame (n : Word) : (aFrame n 0x88B5).etherType = 0x88B5 ∧ (aFrame n 0x88B5).fcsOk = true ∧ (aFrame n 0x88B5).vr = 1 ∧ (aFrame n 0x88B5).dstPkg.toNat = 0 ∧
    (aFrame n 0x88B5).payload.length = (aFrame n 0x88B5).len.toNat ∧ (aFrame n 0x88B5).srcPkg.toNat = 1 ∧ (aFrame n 0x88B5).ty = 0 ∧ (aFrame n 0x88B5).cls = 2 ∧
    (aFrame n 0x88B5).seq = n ∧ (aFrame n 0x88B5).tags.length ≤ 1 ∧ wholeFrame (aFrame n 0x88B5) ≤ 9216 :=
  ⟨rfl, rfl, rfl, rfl, rfl, rfl, rfl, rfl, rfl, Nat.le_refl 1, (by decide : 14 + 4 * 1 + 32 + 1 + 4 ≤ 9216)⟩

/-- A frame to package 1 that has gone out again n times, the last time at 0 ns. -/
def lateS (n : Nat) : State := { linkedS with conns := [{ Conn.fresh 1 0 with unacked := [(aFrame 1 0x88B5, n, 0)] }], ns := 20000 }

theorem witness_Connections_late : ((lateS 63).conn 1).unacked.find? (fun f => decide (f.2.2 + 20000 ≤ (lateS 63).ns) && decide (f.2.1 < 64)) = some (aFrame 1 0x88B5, 63, 0) ∧
    ((lateS 63).conn 1).failed = false ∧ (lateS 63).ports ≠ [] ∧ ((lateS 64).conn 1).unacked = [(aFrame 1 0x88B5, 64, 0)] ∧ ((lateS 64).conn 1).failed = false := by decide +kernel

theorem witness_Connections_others : 23 < 24 ∧ 23 ∉ base.ports ∧ 4094 ≠ base.pkg ∧ 4094 < 4095 ∧ [(1 : Byte)] ≠ [] ∧ inHole 0x20000 = false ∧ inHole (0x20000 + 1 - 1) = false ∧
    0x20000 + 1 ≤ 2 ^ 52 ∧ inMemory 0x20000 1 = true ∧ ∀ n < 1, base.roByte (0x20000 + n) = false := by decide +kernel

theorem witness_DriverWrites : base.announced = true ∧ 63 < 64 ∧ base.ctx? 63 = none ∧ base.ctx? 0 = some bootCtx ∧ 7 < 8 ∧ 4095 < 4096 := by decide +kernel

/-- An error of unit 4 of a severity at 0x20000. -/
def anError (sev : BitVec 2) : ErrorInfo := ⟨0x20000, 0, 4, 0, 0, sev⟩

/-- The one group of context 0 has arrived at epoch 1. -/
def epochS : State := { withG fun g => { g with ckpt := 2, arrivals := [(1, 0, 0)] } with ctxs := [{ bootCtx with arrived := 1 }] }

theorem witness_ErrorsAndStates : (∀ v ∈ [(0 : BitVec 2), 1, 2, 3], (anError v).unit.toNat < 10 ∧ (anError v).sev = v ∧ (anError v).unit = 4 ∧ inHbm (anError v).addr.toNat = true) ∧
    base.errors = [] ∧ (∃ c ∈ base.ctxs, c.num = (anError 2).ctx.toNat) ∧ 2 < 3 ∧ 3 < 4 ∧ (∃ c ∈ epochS.ctxs, epochS.lastEpoch c = some 1) ∧ (base.ctxs.map (·.num)).Nodup ∧ base.thermal ≤ 3 ∧
    (List.replicate 64 (0 : Byte)).length = 64 := by decide +kernel

/-- An error of unit 1, of the plane that cluster 0 runs with nothing under way. -/
theorem witness_ErrorsAndStates_plane : (∃ b ∈ (planeS id).blocks, b.place = some 0 ∧ b.planeSt.isSome = true) ∧ ∀ b ∈ (planeS id).blocks, ∀ o ∈ b.ops, o.tl = 2 → o.isDone = true := by decide +kernel

/-- A rollback of context 0 with lines ls to restore; it is the only thing that a package without a block has to do. -/
def backS (ls : List Undo) : State := { base with blocks := [], cores := [], grids := [], rollbacks := [⟨0, ls, [], true, [anError 2]⟩] }

theorem witness_ErrorsAndStates_rollback : ∀ ls ∈ [[], [(⟨1, 0x20000, List.replicate 32 7⟩ : Undo)]], (backS ls).choice = some .recover ∧ (backS ls).discarding = false ∧
    (∃ r, (backS ls).rollbacks = [r] ∧ r.lines = ls ∧ r.comps = []) ∧ (∀ x ∈ (backS ls).armed, x.held = none) ∧ ((backS ls).ctx? 0).isSome = true := by
  intro ls h
  fin_cases h <;> exact ⟨by decide +kernel, by decide +kernel, ⟨_, rfl, rfl, rfl⟩, by decide +kernel, by decide +kernel⟩

theorem witness_Resets : base.frozen = false ∧ ({ base with frozen := true }).frozen = true := by decide +kernel

theorem witness_DecodesWhatIsEncoded : WellFormed (.exit) = true ∧ encode .exit = some 0x69000000 ∧ encode .candidateHold = none ∧ WellFormed .candidateHold = true := by decide +kernel

theorem witness_EncodesWhatIsDecoded : decode 0x69000000 = .ok .exit := by decide +kernel

/-- The step after reset issues a YIELD placed where it fetches. -/
theorem witness_StepRunsDecoded : ∃ gr b g, (State.reset.withFetchWord 32 0xA7000000).choice = some (.issue 0) ∧ (State.reset.withFetchWord 32 0xA7000000).issueSlot 0 = some (gr, false) ∧
    (State.reset.withFetchWord 32 0xA7000000).block? gr.blk = some b ∧ (State.reset.withFetchWord 32 0xA7000000).group? gr = some g ∧
    ((State.reset.withFetchWord 32 0xA7000000).issueCore (coreOf (b.place.getD 0) gr.grp) gr false).fetchWord b.ctx (coreOf (b.place.getD 0) gr.grp) (g.slot false).pc = .ok 0xA7000000 ∧
    decode 0xA7000000 = .ok .yield :=
  ⟨at0, _, _, by decide +kernel, by decide +kernel, rfl, rfl, by decide +kernel, by decide +kernel⟩

/-- A frozen package steps. -/
theorem witness_FrozenStands : ∃ t, ({ State.reset with frozen := true }).frozen = true ∧ step { State.reset with frozen := true } = .next t ∧
    ({ State.reset with frozen := true }).inputs.head? ≠ some .coldReset ∧ ({ State.reset with frozen := true }).inputs.head? ≠ some .powerOff :=
  ⟨_, rfl, rfl, by decide, by decide⟩

theorem witness_StoresStayCanonical : ∃ t, State.reset.Canonical ∧ step State.reset = .next t :=
  ⟨_, ⟨rfl, rfl, fun _ h => absurd h (List.not_mem_nil)⟩, rfl⟩
/-! ## Words that the spec writes out, by family -/

theorem test_decode_vector : decode 0x2D0A0410 = .ok (.vperm (.reg 5) (.reg 1) (.src (.reg 2))) ∧ decode 0x2E040430 = .ok (.vbcst (.reg 2) (.reg 1) (.reg 6)) ∧
    decode 0x31060B04 = .ok (.vscan (.reg 3) (.reg 2) (.spec .zero) .add true) := by decide
theorem test_decode_control : decode 0x67000002 = .ok (.ret 2) ∧ decode 0x63023009 = .ok (.brk 1 false 3 9) ∧ decode 0x64003000 = .ok (.join 3) ∧
    decode 0x6C0A0FFC = .ok (.dbnz 5 false (-4)) ∧ decode 0x69000000 = .ok .exit := by decide
theorem test_decode_memory : decode 0x81061300 = .ok (.vst 3 (.reg 4) (.spec .zero) .gl) ∧ decode 0x860A0B00 = .ok (.sst 5 (.reg 2) (.spec .zero) false) ∧
    decode 0x8F000818 = .ok (.atomo (.reg 2) (.reg 3)) ∧ decode 0x91000000 = .ok (.waitc 0) ∧ decode 0x92062000 = .ok (.waitv 3 (.reg 8)) ∧
    decode 0x94000002 = .ok (.tfence .die) := by decide
theorem test_decode_copies : decode 0x99000010 = .ok (.cpwt 2 0) ∧ decode 0x9C002048 = .ok (.syncw (.reg 8) (.reg 9)) := by decide
theorem test_decode_sync : decode 0xA4001001 = .ok (.tlwait (.reg 4) 1) ∧ decode 0xA7000000 = .ok .yield := by decide
theorem test_decode_matrix : decode 0xB4000000 = .ok .mzero ∧ decode 0xB5001838 = .ok (.mdrn (.reg 6) (.reg 7)) ∧ decode 0xB80A0001 = .ok (.mqry 5 .drn) := by decide
theorem test_decode_plane : decode 0xC3085000 = .ok (.pleval 4 20) ∧ decode 0xCD000000 = .ok .plif ∧ decode 0xD10C1801 = .ok (.plshf 6 (.cell 6) false .e) ∧
    decode 0xD4080300 = .ok (.plred 4 (.cell 0) (.spec .zero) .add) ∧ decode 0xD5062001 = .ok (.plexc 3 (.reg 8) true) ∧ decode 0xDB000018 = .ok (.plclr 0x18) := by decide
theorem test_decode_handles : decode 0xE3080818 = .ok (.invoke 4 (.reg 2) (.reg 3)) ∧ decode 0xE4080818 = .ok (.invh 4 (.reg 2) (.reg 3)) ∧
    decode 0xE5141000 = .ok (.hwait 10 (.reg 4)) := by decide
theorem test_decode_system : decode 0xF3018001 = .ok (.setc (.spec .zero) 1) ∧ decode 0xF40A0000 = .ok (.timer (.reg 5) .cyc) ∧ decode 0xF10020C7 = .ok (.modex 0x20C7) := by decide

/-! ## Ill-formed terms -/

theorem test_ill_drn_twice : WellFormed (.vadd (.reg 0) (.spec .drn) (.src (.spec .drn))) = false := by decide
theorem test_ill_predicate_24 : WellFormed (.vcmp 24 (.reg 0) (.reg 1) .eq) = false ∧ WellFormed (.pmov 0 31) = false := by decide
theorem test_ill_convert_d : WellFormed (.vcvt (.reg 0) (.reg 1) .d 0) = false := by decide
theorem test_ill_varying_scalar : WellFormed (.sadd (.reg 0) (.spec .lane) (.reg 1)) = false ∧ WellFormed (.vbcst (.reg 0) (.reg 1) (.spec .tx)) = false := by decide
theorem test_ill_latch_outside : WellFormed (.launch 0 (.latch 0)) = false ∧ WellFormed (.vld (.reg 0) (.latch 1) (.reg 1) .gl) = false := by decide
theorem test_ill_drn_address : WellFormed (.vld (.reg 0) (.spec .drn) (.reg 1) .gl) = false := by decide
theorem test_ill_register_run : WellFormed (.hwait 63 (.reg 4)) = false ∧ WellFormed (.pleval 0 59) = false ∧ WellFormed (.plbld 29 (.cell 0) 0) = false := by decide
theorem test_ill_timeline : WellFormed (.tladv (.reg 0) 3) = false := by decide
theorem test_ill_mode : WellFormed (.mode 0x18) = false ∧ WellFormed (.mode 0x3F) = false ∧ WellFormed (.modex 0x141F) = false := by decide
theorem test_ill_control_register : WellFormed (.getc (.reg 0) 30) = false := by decide
theorem test_ill_checkpoint : WellFormed (.ckpt (.reg 0) (.reg 1) true) = false := by decide
theorem test_ill_reserved : WellFormed (.rsvop 0x32000000) = false ∧ WellFormed (.rsvop 0x33000000) = true := by decide

/-! ## Single steps -/

/-- What is seen of the state after a step. -/
def sees {α : Type} (i : Instr) (s : State) (f : State → α) : Option α := match exec i s with | .next t => some (f t) | _ => none

/-- S[n] of the group, V[n] of a lane, P[n], the slot's PC. -/
def sAt (n : Nat) (t : State) : Word := match t.group? at0 with | some g => g.rdS 0 n | none => 0
def vAt (n l : Nat) (t : State) : Word := match t.group? at0 with | some g => g.rdV 0 n l | none => 0
def pAt (n : Nat) (t : State) : Lanes := match t.group? at0 with | some g => g.rdP n | none => 0
def pcAt (t : State) : Word := match t.group? at0 with | some g => g.slotA.pc | none => 0

/-- Lane 5 of V0 and V1, in MODE type t. -/
def withV (t : Nat) (x y : Word) : State := withG fun g => { g with mode := modeT t, v := [(5, x), (37, y)] }

theorem test_sadd_wraps : sees (.sadd (.reg 1) (.reg 0) (.imm 1)) (withS [-1]) (sAt 1) = some 0 := by decide +kernel
theorem test_smulh_signed : sees (.smulh (.reg 1) (.reg 0) (.imm 2) false) (withS [-1]) (sAt 1) = some (-1) := by decide +kernel
theorem test_sdiv_truncates : sees (.sdiv (.reg 1) (.reg 0) (.imm 2) false) (withS [-3]) (sAt 1) = some (-1) := by decide +kernel
theorem test_sbfx_signed : sees (.sbfx (.reg 1) (.reg 0) (.reg 2) true) (withS [0xF0, 0, 0x304]) (sAt 1) = some (-1) := by decide +kernel
theorem test_dbnz_taken : sees (.dbnz 0 false (-4)) (withS [2]) (fun t => (sAt 0 t, pcAt t)) = some (1, 0xFFF0) := by decide +kernel
theorem test_dbnz_falls : sees (.dbnz 0 false (-4)) (withS [1]) (fun t => (sAt 0 t, pcAt t)) = some (0, 0x10004) := by decide +kernel
theorem test_call_links : sees (.call 2 12) roomyS (fun t => (t.group? at0).map fun g => (g.slotA.pc, g.slotA.wb, g.rdS 16 63)) = some (some (0x10030, 16, 0x10004)) := by decide +kernel
theorem test_pand_not : sees (.pand 2 0 1 true) (withG fun g => { g with p := [(0, 0xFF), (1, 0xF)] }) (pAt 2) = some 0xF0 := by decide +kernel
theorem test_vadd_bytes : sees (.vadd (.reg 2) (.reg 0) (.src (.reg 1))) (withV 10 0xFF 0x101) (vAt 2 5) = some 0x100 := by decide +kernel
theorem test_vadd_f32 : sees (.vadd (.reg 2) (.reg 0) (.src (.reg 1))) (withV 5 0x3F800000 0x40000000) (vAt 2 5) = some 0x40400000 := by decide +kernel
/-- With N = 1 a VMAD under RDN is the product alone, +0 of +0 and 1. -/
theorem test_vmad_product : sees (.vmad .none (.reg 0) (.src (.reg 1))) (withG fun g => { g with mode := modeT 5 ||| 0x800, v := [(5, 0), (37, 0x3F800000)] })
    (fun t => (t.group? at0).map fun g => (g.latches[0]?).map fun x => match x with | .vec w => w.getD 5 1 | .sca w => w | .empty => 1) = some (some (some 0)) := by decide +kernel
theorem test_vmax_signed : sees (.vmax (.reg 2) (.reg 0) (.src (.reg 1))) (withV 0 (-1) 1) (vAt 2 5) = some 1 := by decide +kernel
theorem test_vcmp_lanes : sees (.vcmp 3 (.spec .lane) (.spec .zero) .ne) (withV 0 0 0) (pAt 3) = some 0xFFFFFFFE := by decide +kernel
theorem test_vshr_rounds : sees (.vshr (.reg 2) (.reg 0) (.src (.reg 1)) true) (withV 0 7 1) (vAt 2 5) = some 4 := by decide +kernel
theorem test_store_performs : sees (.accessPerform at0 0 0x20) (queueS { aMem (.vst 1 (.reg 0) (.spec .zero) .gl) 0x20 (List.replicate 32 0x20000) (List.replicate 32 0x1122334455667788)
    [(5, paLoc 0x20000, true, false)] with todo := 0x20 }) (fun t => t.bytes (paLoc 0x20000) 9) = some [0x88, 0x77, 0x66, 0x55, 0x44, 0x33, 0x22, 0x11, 0] := by decide +kernel
theorem test_exit_frees : sees .exit base (fun t => (t.group? at0).map fun g => (g.slotA.mask, g.exited)) = some (some (0, -1)) := by decide +kernel
theorem test_trap_enters : sees (.trap 9) trapS (fun t => (t.group? at0).map fun g => (g.slotA.pc, g.slotA.wb, g.mode, g.trapcause, g.dstkp)) =
    some (some (0x20000, 16, 0x1F, 0x911, 0x30000)) := by decide +kernel
theorem test_tladv_counts : sees (.tladv (.imm 2) 4) base (fun t => (t.block? 1).map fun b => b.counter 4) = some (some 2) := by decide +kernel
theorem test_mode_writes : sees (.mode 0x15F) base (fun t => (t.group? at0).map (·.mode)) = some (some 0x15F) := by decide +kernel
theorem test_getc_cause : sees (.getc (.reg 3) 25) (withG fun g => { g with trapcause := 0x911 }) (sAt 3) = some 0x911 := by decide +kernel
theorem test_launch_numbers : sees (.launch 3 (.reg 0)) recordS (fun t => (sAt 3 t, t.grids.length)) = some (1, 1) := by decide +kernel
theorem test_launch_malformed : sees (.launch 3 (.reg 0)) (withS [0x20000]) (fun t => (sAt 3 t, t.grids.length)) = some (-2, 0) := by decide +kernel
theorem test_hqry_pending : sees (.hqry 3 (.reg 1)) (handleS .pending 1) (sAt 3) = some 1 := by decide +kernel
theorem test_vgqry_free : sees (.vgqry 3 (.reg 0) .cap) base (sAt 3) = some 4096 := by decide +kernel
theorem test_thermal_throttles : sees (.thermalStep ⟨95, 20⟩ 0) base (fun t => (t.thermal, SMap.get 0 t.throttle 127)) = some (1, 1) := by decide +kernel
theorem test_shootdown_drops : sees (.shootdown 0) { base with tlbs := [⟨0, 0, ⟨0, 4096, 0, true, true, true, true, true, true, none⟩⟩, ⟨0, 1, ⟨0, 4096, 0, true, true, true, true, true, true, none⟩⟩] }
    (fun t => t.tlbs.map (·.ctx)) = some [1] := by decide +kernel

end Sys2Proof.Tests
end

section
/-! SUPPORT. The scalar family: what each of its instructions computes, and O1. -/

namespace Sys2Proof.Proofs.Scalar

open Sys2Proof Sys2Proof.Machine Sys2Proof.Laws

/-! ## What the words of the scalar family compute -/

theorem boolWord_eq_ite {b : Bool} {P : Prop} [Decidable P] (h : b = true ↔ P) : boolWord b = if P then 1 else 0 := by
  unfold boolWord
  simp only [h]

/-- SMIN and SMAX take the second word where a strict comparison holds; the statement takes the first where the converse does. -/
theorem ite_slt_eq (x y u v : Word) : (if x.slt y then u else v) = if y.toInt ≤ x.toInt then v else u := by
  simp only [BitVec.slt_iff_toInt_lt, ← Int.not_le, ite_not]

theorem ite_ult_eq (x y u v : Word) : (if x.ult y then u else v) = if y.toNat ≤ x.toNat then v else u := by
  simp only [BitVec.ult_iff_toNat_lt, ← Nat.not_le, ite_not]

/-- An arithmetic shift by the whole width or more leaves copies of the sign bit only. -/
theorem sshiftRight_ge_width (x : Word) {n : Nat} (h : 64 ≤ n) : BitVec.sshiftRight x n = if x.msb then BitVec.ofInt 64 (-1) else 0 := by
  cases hx : x.msb with
  | false => rw [BitVec.sshiftRight_eq_of_msb_false hx, BitVec.ushiftRight_eq_zero h]; rfl
  | true => rw [BitVec.sshiftRight_eq_of_msb_true hx, BitVec.ushiftRight_eq_zero h]; rfl

theorem shiftRight_arithmetic (x y : Word) :
    shiftRight false x y = if 64 ≤ y.toNat then (if x.msb then BitVec.ofInt 64 (-1) else 0) else BitVec.sshiftRight x y.toNat := by
  by_cases h : 64 ≤ y.toNat
  · rw [if_pos h, ← sshiftRight_ge_width x (Nat.le_refl 64)]
    simp [shiftRight, Nat.min_eq_right h]
  · simp [shiftRight, h, Nat.min_eq_left (Nat.le_of_not_le h)]

theorem shiftRight_logical (x y : Word) : shiftRight true x y = if 64 ≤ y.toNat then 0 else x >>> y.toNat := by
  unfold shiftRight
  by_cases h : 64 ≤ y.toNat
  · simp only [Nat.min_eq_right h, if_pos h, if_true]
    exact BitVec.ushiftRight_eq_zero (Nat.le_refl 64)
  · simp [h, Nat.min_eq_left (Nat.le_of_not_le h)]

theorem bit_toNat (x : Word) (k : Nat) : bit x.toNat k = x.getLsbD k := by
  rw [bit, BitVec.getLsbD, Nat.testBit_eq_decide_div_mod_eq]
  rfl

theorem countOnes_toNat (x : Word) : countOnes 64 x.toNat = ((List.range 64).filter fun k => x.getLsbD k).length := by
  simp only [countOnes, bit_toNat]

theorem leadingZeros_toNat (x : Word) : leadingZeros 64 x.toNat = if x = 0 then 64 else 63 - Nat.log2 x.toNat := by
  simp only [leadingZeros, BitVec.toNat_eq (x := x)]
  rfl

theorem fieldPos_eq (y : Word) : fieldPos y = y.toNat % 64 := by
  simp [fieldPos, bits]

theorem fieldLen_eq (y : Word) : fieldLen y = y.toNat / 256 % 64 + 1 := rfl

/-- The top bit of a field of n bits is set where its value is in the upper half. -/
theorem bit_top_iff {x n : Nat} (hn : 0 < n) (hx : x < 2 ^ n) : bit x (n - 1) = true ↔ 2 ^ (n - 1) ≤ x := by
  obtain ⟨n, rfl⟩ := Nat.exists_eq_succ_of_ne_zero hn.ne'
  have hq : x / 2 ^ n < 2 := Nat.div_lt_of_lt_mul (by rwa [← Nat.pow_succ])
  simp only [bit, Nat.succ_eq_add_one, Nat.add_sub_cancel, beq_iff_eq, Nat.mod_eq_of_lt hq]
  rw [← Nat.one_le_div_iff (Nat.two_pow_pos n)]
  omega

theorem fieldGet_unsigned (x y : Word) :
    fieldGet false x y = BitVec.ofNat 64 (x.toNat / 2 ^ (y.toNat % 64) % 2 ^ (y.toNat / 256 % 64 + 1)) := by
  simp only [fieldGet, fieldPos_eq, fieldLen_eq, bits, Bool.false_and, Bool.false_eq_true, if_false]

theorem fieldGet_signed (x y : Word) :
    fieldGet true x y =
      let len := y.toNat / 256 % 64 + 1
      let field := x.toNat / 2 ^ (y.toNat % 64) % 2 ^ len
      if 2 ^ (len - 1) ≤ field then BitVec.ofInt 64 ((field : Int) - 2 ^ len) else BitVec.ofNat 64 field := by
  have htop : bit (bits x.toNat (fieldPos y) (fieldLen y)) (fieldLen y - 1) = true ↔ 2 ^ (fieldLen y - 1) ≤ bits x.toNat (fieldPos y) (fieldLen y) :=
    bit_top_iff (Nat.succ_pos _) (Nat.mod_lt _ (Nat.two_pow_pos _))
  simp only [fieldGet, Bool.true_and, htop]
  simp only [fieldPos_eq, fieldLen_eq, bits]

theorem fieldPut_eq (d x y : Word) :
    fieldPut d x y =
      let mask : Word := BitVec.ofNat 64 ((2 ^ (y.toNat / 256 % 64 + 1) - 1) * 2 ^ (y.toNat % 64))
      (d &&& ~~~ mask) ||| ((x <<< (y.toNat % 64)) &&& mask) := by
  simp only [fieldPut, fieldPos_eq, fieldLen_eq]

/-- Cutting a word to its low n bits and widening it again keeps those bits and clears the others. -/
theorem setWidth_setWidth_eq_and (x : Word) (n : Nat) : (x.setWidth n).setWidth 64 = x &&& BitVec.ofNat 64 (2 ^ n - 1) := by
  apply BitVec.eq_of_getLsbD_eq
  intro k hk
  simp only [BitVec.getLsbD_setWidth, BitVec.getLsbD_and, BitVec.getLsbD_ofNat, Nat.testBit_two_pow_sub_one, hk, decide_true, Bool.true_and, Bool.and_comm]

/-! ## The rows of the scalar family -/

/-- The row's instruction runs as the scalar family does, from sources `srcs` into D, and what it computes for i is the row's word. -/
def ScalarRow (s : State) (i : Iss) (d : Dst) (srcs : List Src) (p : Instr × Word) : Prop :=
  ∃ x : Iss → Word, (exec p.1 s = s.run fun j => j.scalar d srcs (x j)) ∧ x i = p.2

/-- A row whose checks pass and whose destination is free completes with its word. -/
theorem ScalarRow.completes {s : State} {i : Iss} {d : Dst} {srcs : List Src} {p : Instr × Word} (hp : ScalarRow s i d srcs p)
    (h : s.issue? = some i) (hc : i.checkSca .i64 srcs = .ok ()) (hd : i.g.destBusy i.sl.wb [] (dstRegs d) = false) :
    ∃ t g', exec p.1 s = .next t ∧ i.Alone t g' ∧ i.ScalarResult d p.2 0 g' := by
  obtain ⟨x, hrun, hx⟩ := hp
  rw [hrun, ← hx]
  exact scalar_next h d srcs x hc hd

/-- The two-source rows: each runs as the family does, with its word computed from the two sources and the old S[D] (R118-R120). -/
theorem scalarTwo_rows (s : State) (i : Iss) (d : Dst) (a b : Src) : ∀ p ∈ i.scalarTwo d a b, ScalarRow s i d [a, b] p := by
  simp only [Iss.scalarTwo, List.forall_mem_cons]
  refine ⟨?sadd, ?ssub, ?smul, ?smulh, ?smulhu, ?smad, ?sdiv, ?sdivu, ?srem, ?sremu, ?sand, ?sor, ?sxor, ?sshl, ?sshr, ?sshru, ?srot,
    ?smin, ?sminu, ?smax, ?smaxu, ?eq, ?ne, ?lt, ?le, ?gt, ?ge, ?ltu, ?geu, ?ssel, ?slea0, ?slea1, ?slea2, ?slea3, ?slea4, ?slea5, ?slea6, ?slea7,
    ?sbfx, ?sbfxs, ?sbfi, List.forall_mem_nil _⟩
  case sshr => exact ⟨_, rfl, shiftRight_arithmetic _ _⟩
  case sshru => exact ⟨_, rfl, shiftRight_logical _ _⟩
  case smin | smax => exact ⟨_, rfl, ite_slt_eq _ _ _ _⟩
  case sminu | smaxu => exact ⟨_, rfl, ite_ult_eq _ _ _ _⟩
  case eq => exact ⟨_, rfl, boolWord_eq_ite beq_iff_eq⟩
  case ne => exact ⟨_, rfl, boolWord_eq_ite bne_iff_ne⟩
  case lt | gt => exact ⟨_, rfl, boolWord_eq_ite BitVec.slt_iff_toInt_lt⟩
  case le | ge => exact ⟨_, rfl, boolWord_eq_ite BitVec.sle_iff_toInt_le⟩
  case ltu => exact ⟨_, rfl, boolWord_eq_ite BitVec.ult_iff_toNat_lt⟩
  case geu => exact ⟨_, rfl, boolWord_eq_ite BitVec.ule_iff_toNat_le⟩
  case slea0 => exact ⟨_, rfl, congrArg (i.uni a + ·) (BitVec.shiftLeft_zero _)⟩
  case sbfx => exact ⟨_, rfl, fieldGet_unsigned _ _⟩
  case sbfxs => exact ⟨_, rfl, fieldGet_signed _ _⟩
  case sbfi => exact ⟨_, rfl, fieldPut_eq _ _ _⟩
  -- the statement gives the other rows as the model computes them
  all_goals exact ⟨_, rfl, rfl⟩

/-- The one-source rows (R118). -/
theorem scalarOne_rows (s : State) (i : Iss) (d : Dst) (a : Src) : ∀ p ∈ i.scalarOne d a, ScalarRow s i d [a] p := by
  simp only [Iss.scalarOne, List.forall_mem_cons]
  refine ⟨?snot, ?smov, ?spopc, ?sclz, ?i8, ?i16, ?i32, ?n8, ?n16, ?n32, List.forall_mem_nil _⟩
  case spopc => exact ⟨_, rfl, congrArg (BitVec.ofNat 64) (countOnes_toNat _)⟩
  case sclz => exact ⟨_, rfl, congrArg (BitVec.ofNat 64) (leadingZeros_toNat _)⟩
  case n8 => exact ⟨_, rfl, setWidth_setWidth_eq_and _ 8⟩
  case n16 => exact ⟨_, rfl, setWidth_setWidth_eq_and _ 16⟩
  case n32 => exact ⟨_, rfl, setWidth_setWidth_eq_and _ 32⟩
  -- the statement gives the other rows as the model computes them
  all_goals exact ⟨_, rfl, rfl⟩

/-- Settles O1: every row runs as the scalar family does (`scalarTwo_rows`, `scalarOne_rows`), and what the family does is `scalar_next`. -/
theorem scalarInstructions : Obligations.ScalarInstructions := by
  unfold Obligations.ScalarInstructions
  refine ⟨fun s i d a b h hc hd p hp => (scalarTwo_rows s i d a b p hp).completes h hc hd, fun s i d a v h hc hd p hp => ?_⟩
  have hnone : i.checkSca .i64 [] = .ok () := rfl
  rcases List.mem_append.1 hp with hp | hp
  · exact (scalarOne_rows s i d a p hp).completes h hc hd
  · simp only [List.mem_cons, List.not_mem_nil, or_false] at hp
    obtain rfl | rfl | rfl := hp
    · exact ScalarRow.completes (srcs := [a]) ⟨_, rfl, rfl⟩ h hc hd
    · exact ScalarRow.completes (srcs := []) ⟨_, rfl, rfl⟩ h hnone hd
    · exact ScalarRow.completes (srcs := []) ⟨_, rfl, rfl⟩ h hnone hd

end Sys2Proof.Proofs.Scalar
end

section
/-! SUPPORT. An instruction that changes its block: what stands outside the block, and how the issuing group's slots go on. -/

namespace Sys2Proof.Proofs.IssuingBlock

open Sys2Proof Sys2Proof.Machine Sys2Proof.Laws

/-! ## Changes of a block that leave its identity, its place and its stores -/

/-- A change of a block that no other block, no core and no byte of memory sees. -/
structure Stays (f : Block → Block) : Prop where
  id : ∀ b, (f b).id = b.id
  place : ∀ b, (f b).place = b.place
  stores : ∀ b, (f b).sp = b.sp ∧ (f b).wb = b.wb ∧ (f b).ab = b.ab ∧ (f b).cb = b.cb

theorem Stays.comp {f h : Block → Block} (hh : Stays h) (hf : Stays f) : Stays fun b => h (f b) where
  id b := (hh.id _).trans (hf.id b)
  place b := (hh.place _).trans (hf.place b)
  stores b := by
    obtain ⟨h1, h2, h3, h4⟩ := hh.stores (f b)
    obtain ⟨f1, f2, f3, f4⟩ := hf.stores b
    exact ⟨h1.trans f1, h2.trans f2, h3.trans f3, h4.trans f4⟩

theorem Stays.foldl {α : Type} {f : Block → α → Block} (hf : ∀ x, Stays fun b => f b x) : ∀ l : List α, Stays fun b => l.foldl f b
  | [] => ⟨fun _ => rfl, fun _ => rfl, fun _ => ⟨rfl, rfl, rfl, rfl⟩⟩
  | x :: r => (Stays.foldl hf r).comp (hf x)

theorem stays_modGroup (n : Nat) (f : Group → Group) : Stays fun b => b.modGroup n f :=
  ⟨fun _ => rfl, fun _ => rfl, fun _ => ⟨rfl, rfl, rfl, rfl⟩⟩

theorem groups_modGroup_self {b : Block} {n : Nat} {g : Group} (f : Group → Group) (h : b.groups[n]? = some g) :
    (b.modGroup n f).groups[n]? = some (f g) := by
  simp only [Block.modGroup, get_modAt, if_true, h, Option.map_some]

theorem groups_modGroup_ne {n k : Nat} (b : Block) (f : Group → Group) (h : k ≠ n) : (b.modGroup n f).groups[k]? = b.groups[k]? := by
  simp only [Block.modGroup, get_modAt, if_neg h]

/-- The issuing group stands in its block at its own number. -/
theorem issue_group {s : State} {i : Iss} (h : s.issue? = some i) : i.b.groups[i.gr.grp]? = some i.g := by
  obtain ⟨_, hb, hg⟩ := issue_facts h
  simpa only [State.group?, hb, Option.bind_some] using hg

/-! ## The end of an instruction -/

/-- The issuing group, which the instruction has left as g, once the instruction has ended at the next word. -/
def finished (i : Iss) (sw : Bool) (g : Group) : Group :=
  if sw then { g.ended i.slotB sw i.s.cycle with since := i.s.cycle } else g.ended i.slotB sw i.s.cycle

theorem slot_finished (i : Iss) (sw : Bool) (g : Group) : (finished i sw g).slot i.slotB = (g.slot i.slotB).advance sw := by
  unfold finished Group.ended
  cases sw <;> cases i.slotB <;> rfl

theorem slot_finished_not (i : Iss) (sw : Bool) (g : Group) : (finished i sw g).slot (!i.slotB) = g.slot (!i.slotB) := by
  unfold finished Group.ended
  cases sw <;> cases i.slotB <;> rfl

theorem still_finished (i : Iss) (sw : Bool) (g : Group) : (finished i sw g).still = g.still := by
  unfold finished
  cases sw <;> cases i.slotB <;> simp [Group.ended, Group.modSlot, Group.setSlot, Group.still, Group.core, Group.noteReset]

theorem core_finished (i : Iss) (g : Group) : (finished i false g).core = g.core := by
  unfold finished
  cases i.slotB <;> simp [Group.ended, Group.modSlot, Group.setSlot, Group.core]

theorem tokens_finished (i : Iss) (sw : Bool) (g : Group) : (finished i sw g).tokens = g.tokens := by
  unfold finished Group.ended
  cases sw <;> cases i.slotB <;> rfl

/-- An instruction that leaves the group's slots alone ends at the next word, with its latch count reset at a switch point (R45). -/
theorem at_finished {i : Iss} {g : Group} (sw : Bool) (hslot : g.slot i.slotB = i.sl) (hother : g.slot (!i.slotB) = i.g.slot (!i.slotB)) :
    i.At (i.pc + 4) i.active i.sl.wb (if sw then 0 else i.sl.k) (finished i sw g) := by
  refine ⟨?_, ?_, ?_, ?_, ?_, (slot_finished_not i sw g).trans hother⟩ <;> rw [slot_finished, hslot] <;> rfl

/-- An instruction that leaves the group's slots alone and ends at the next word, with its latches. -/
theorem onward_finished {i : Iss} {g : Group} (hslot : g.slot i.slotB = i.sl) (hother : g.slot (!i.slotB) = i.g.slot (!i.slotB)) :
    i.Onward (finished i false g) := by
  obtain ⟨hpc, hmask, hwindow, _, hmodex, hother⟩ := at_finished false hslot hother
  exact ⟨hpc, hmask, hwindow, hmodex, hother⟩

theorem still_waited (i : Iss) (w : Wait) (g : Group) : (waited i g w).still = g.still := by
  unfold waited
  cases i.slotB <;> simp [Group.modSlot, Group.setSlot, Group.still, Group.core, Group.noteReset]

theorem slot_waited (i : Iss) (w : Wait) (g : Group) :
    (waited i g w).slot i.slotB = Slot.resetLatch { g.slot i.slotB with wait := some w } := by
  unfold waited
  cases i.slotB <;> simp [Group.slot, Group.modSlot, Group.setSlot, Group.noteReset]

theorem slot_waited_not (i : Iss) (w : Wait) (g : Group) : (waited i g w).slot (!i.slotB) = g.slot (!i.slotB) := by
  unfold waited
  cases i.slotB <;> simp [Group.slot, Group.modSlot, Group.setSlot, Group.noteReset]

/-- The slot stands at its word and waits there. -/
theorem waiting_waited (i : Iss) (w : Wait) : i.Waiting w (waited i i.g w) := by
  refine ⟨?_, ?_, ?_, slot_waited_not i w i.g⟩ <;> rw [slot_waited] <;> rfl

/-- Registers and flags are among what `Group.still` keeps. -/
theorem Unread.of_still {i : Iss} {x g' : Group} (hx : i.Unread x) (h : g'.still = x.still) : i.Unread g' where
  v := (congrArg Group.v h).trans hx.v
  s := (congrArg Group.s h).trans hx.s
  p := (congrArg Group.p h).trans hx.p
  flags := (congrArg Group.flags h).trans hx.flags
  mode := (congrArg Group.mode h).trans hx.mode
  latches := (congrArg Group.latches h).trans hx.latches

theorem unread_self (i : Iss) : i.Unread i.g := ⟨rfl, rfl, rfl, rfl, rfl, rfl⟩

theorem unread_release (i : Iss) : i.Unread i.g.release := ⟨rfl, rfl, rfl, rfl, rfl, rfl⟩

/-- An instruction that has changed its block by f and ends at the next word: the block and its group; at a switch point the core, too, has
to choose afresh. -/
theorem conclude_done_modBlock (i : Iss) {f : Block → Block} (hf : Stays f) (sw : Bool) :
    i.conclude (.done (i.s.modBlock i.gr.blk f) sw) =
      let t := i.s.modBlock i.gr.blk fun b => (f b).modGroup i.gr.grp (finished i sw)
      if sw then t.setCore (i.s.coreIdOf i.gr) none else t := by
  have hcore : (i.s.modBlock i.gr.blk f).coreIdOf i.gr = i.s.coreIdOf i.gr := by
    unfold State.coreIdOf
    rw [block?_modBlock _ _ _ _ hf.id, if_pos rfl]
    cases i.s.block? i.gr.blk with
    | none => rfl
    | some b => simp only [Option.map_some, hf.place]
  have hmod : ∀ h : Group → Group, (i.s.modBlock i.gr.blk f).modGroup i.gr h = i.s.modBlock i.gr.blk fun b => (f b).modGroup i.gr.grp h :=
    fun h => modBlock_modBlock _ _ _ _ hf.id
  cases sw with
  | false => exact hmod _
  | true =>
    show State.switchPoint _ _ = _
    unfold State.switchPoint
    rw [setCore_modGroup, modGroup_modGroup, coreIdOf_modGroup, hcore, hmod]
    rfl

/-- The block after the instruction, and every other block. -/
theorem block?_done {i : Iss} {f : Block → Block} (hf : Stays f) (hb : i.s.block? i.gr.blk = some i.b) (sw : Bool) (n : Nat) :
    (i.conclude (.done (i.s.modBlock i.gr.blk f) sw)).block? n =
      if n = i.gr.blk then some ((f i.b).modGroup i.gr.grp (finished i sw)) else i.s.block? n := by
  have hblock := block?_modBlock i.s i.gr.blk n (fun b => (f b).modGroup i.gr.grp (finished i sw)) hf.id
  have hself : (if n = i.gr.blk then (i.s.block? n).map fun b => (f b).modGroup i.gr.grp (finished i sw) else i.s.block? n) =
      if n = i.gr.blk then some ((f i.b).modGroup i.gr.grp (finished i sw)) else i.s.block? n := by
    split
    · next h => rw [h, hb]; rfl
    · rfl
  rw [conclude_done_modBlock i hf]
  cases sw <;> exact hblock.trans hself

theorem byte_done (i : Iss) {f : Block → Block} (hf : Stays f) (sw : Bool) (l : Loc) :
    (i.conclude (.done (i.s.modBlock i.gr.blk f) sw)).byte l = i.s.byte l := by
  have hbyte := byte_modBlock i.s i.gr.blk (fun b => (f b).modGroup i.gr.grp (finished i sw)) l hf.id hf.stores
  rw [conclude_done_modBlock i hf]
  cases sw with
  | false => exact hbyte
  | true => exact (byte_setCore _ _ _ l).trans hbyte

/-- An instruction that changes its block but not the block's other groups stays within the block. -/
theorem inBlock_done {i : Iss} {f : Block → Block} {g : Group} (hf : Stays f) (hb : i.s.block? i.gr.blk = some i.b)
    (hg : (f i.b).groups[i.gr.grp]? = some g) (hs : ∀ k, k ≠ i.gr.grp → (f i.b).groups[k]? = i.b.groups[k]?) (sw : Bool) :
    i.InBlock (i.conclude (.done (i.s.modBlock i.gr.blk f) sw)) ((f i.b).modGroup i.gr.grp (finished i sw)) (finished i sw g) where
  block := (block?_done hf hb sw _).trans (if_pos rfl)
  group := groups_modGroup_self _ hg
  others n hn := (block?_done hf hb sw n).trans (if_neg hn)
  siblings k hk := (groups_modGroup_ne _ _ hk).trans (hs k hk)
  bytes l := byte_done i hf sw l

/-- An instruction that waits at its own word stays within its group. -/
theorem inBlock_wait {i : Iss} (hb : i.s.block? i.gr.blk = some i.b) (hg : i.b.groups[i.gr.grp]? = some i.g) (w : Wait) :
    i.InBlock (i.conclude (i.wait w i.s)) (i.b.modGroup i.gr.grp fun g => waited i g w) (waited i i.g w) := by
  have e : i.conclude (i.wait w i.s) = (i.s.modGroup i.gr fun g => waited i g w).setCore (i.s.coreIdOf i.gr) none := by
    show State.switchPoint _ _ = _
    unfold State.switchPoint
    simp only [setCore_modGroup, modGroup_modGroup, coreIdOf_modGroup]
    rfl
  rw [e]
  exact {
    block := block?_modGroup_self _ hb
    group := groups_modGroup_self _ hg
    others := fun n hn => (block?_modGroup _ _ _ n).trans (if_neg hn)
    siblings := fun k hk => groups_modGroup_ne _ _ hk
    bytes := fun l => (byte_setCore _ _ _ l).trans (byte_modGroup _ _ _ l) }

/-- An instruction that sets its slot's PC itself and changes the issuing group alone. -/
theorem alone_jump {i : Iss} (hg : i.s.group? i.gr = some i.g) (f : Group → Group) :
    i.Alone (i.conclude (.jump (i.s.modGroup i.gr f) false)) { f i.g with lastB := i.slotB } := by
  have e : i.conclude (.jump (i.s.modGroup i.gr f) false) = i.s.modGroup i.gr fun g => { f g with lastB := i.slotB } :=
    modGroup_modGroup _ _ _ _
  rw [e]
  exact ⟨group?_modGroup_self _ hg, fun _ h => group?_modGroup_ne _ h, fun l => byte_modGroup _ _ _ l, ⟨_, rfl⟩⟩

/-- A value into a plain S destination that is free (R129). -/
theorem putD_next {s : State} {i : Iss} (h : s.issue? = some i) (d : Dst) (x : Word) (hd : i.g.destBusy i.sl.wb [] (dstRegs d) = false) :
    i.Alone (i.conclude (i.putD d x)) ((i.g.putReg i.sl.wb d x).ended i.slotB false i.s.cycle) ∧
      i.PlainResult d x ((i.g.putReg i.sl.wb d x).ended i.slotB false i.s.cycle) := by
  obtain ⟨rfl, _, hg⟩ := issue_facts h
  refine ⟨?_, plainResult i d x⟩
  unfold Iss.putD
  rw [hd]
  exact alone_group hg _

end Sys2Proof.Proofs.IssuingBlock
end

section
/-! SUPPORT. The timelines, YIELD and GANGSET (R167-R170): what each of them does to its block, and O28. -/

namespace Sys2Proof.Proofs.Timelines

open Sys2Proof Sys2Proof.Machine Sys2Proof.Laws Sys2Proof.Proofs.IssuingBlock

/-! ## Acquisition (R81) -/

/-- The flags that a group acquires with the completed operations that `sel` picks: those of its own, once (R81). -/
def owedFlags (b : Block) (grp : Nat) (sel : EngOp → Bool) : Flags :=
  (b.ops.filter fun o => o.isDone && sel o).foldl (fun f o => if o.owes grp then f ||| o.flags else f) 0

theorem getLsbD_foldl_owes (grp : Nat) (os : List EngOp) (x : Flags) (k : Nat) :
    (os.foldl (fun f o => if o.owes grp then f ||| o.flags else f) x).getLsbD k =
      (x.getLsbD k || os.any fun o => o.owes grp && o.flags.getLsbD k) := by
  induction os generalizing x with
  | nil => simp
  | cons o r ih =>
    rw [List.foldl_cons, ih, List.any_cons]
    cases o.owes grp <;> simp [Bool.or_assoc]

theorem getLsbD_owedFlags (b : Block) (grp : Nat) (sel : EngOp → Bool) (k : Nat) :
    (owedFlags b grp sel).getLsbD k = b.ops.any fun o => (o.isDone && sel o) && o.owes grp && o.flags.getLsbD k := by
  unfold owedFlags
  rw [getLsbD_foldl_owes, List.any_filter]
  simp [Bool.and_assoc]

theorem stays_acquire (grp : Nat) (sel : EngOp → Bool) : Stays fun b => b.acquire grp sel :=
  ⟨fun _ => rfl, fun _ => rfl, fun _ => ⟨rfl, rfl, rfl, rfl⟩⟩

theorem group_acquire {b : Block} {grp : Nat} {g : Group} (sel : EngOp → Bool) (hg : b.groups[grp]? = some g) :
    ∃ c, (b.acquire grp sel).groups[grp]? = some ((g.acquire c).orFlags (owedFlags b grp sel)) :=
  ⟨_, groups_modGroup_self _ hg⟩

/-- After the acquisition the group has acquired every operation that it picked. -/
theorem acquired_acquire {b : Block} {grp : Nat} {sel : EngOp → Bool} {o : EngOp} (ho : o ∈ (b.acquire grp sel).ops)
    (hdone : o.isDone = true) (hpick : sel o = true) : o.acquired.contains grp = true := by
  obtain ⟨x, _, rfl⟩ := List.mem_map.1 ho
  by_cases hx : (x.isDone && sel x && !x.acquired.contains grp) = true
  · rw [if_pos hx]
    exact List.contains_iff_mem.2 List.mem_cons_self
  · rw [if_neg hx] at hdone hpick ⊢
    simpa [hdone, hpick] using hx

/-! ## TLWAIT (R167) -/

/-- The v of a TLWAIT: the one that it issued with, once it waits. -/
def waitValue (i : Iss) (a : Src) : Nat :=
  match i.sl.wait with
  | some (.tl _ v) => v
  | _ => (i.uni a).toNat

/-- What a TLWAIT of timeline k acquires when it goes on with v. -/
def reached (i : Iss) (k v : Nat) (b : Block) : Block :=
  if k < 4 then b.acquire i.gr.grp fun o => o.tl == k && decide (o.num ≤ v)
  else b.modGroup i.gr.grp fun g => g.acquire ((b.tline k).upTo v)

theorem reached_engine (i : Iss) {k : Nat} (v : Nat) (hk : k < 4) (b : Block) :
    reached i k v b = b.acquire i.gr.grp fun o => o.tl == k && decide (o.num ≤ v) := if_pos hk

theorem reached_software (i : Iss) {k : Nat} (v : Nat) (hk : ¬ k < 4) (b : Block) :
    reached i k v b = b.modGroup i.gr.grp fun g => g.acquire ((b.tline k).upTo v) := if_neg hk

theorem exec_tlwait {s : State} {i : Iss} (h : s.issue? = some i) {a : Src} (hc : i.checkSca .i64 [a] = .ok ()) (n : BitVec 4) :
    exec (.tlwait a n) s = .next (i.conclude (if waitValue i a ≤ i.b.counter n.toNat
      then .done (i.s.modBlock i.gr.blk (reached i n.toNat (waitValue i a))) true
      else i.wait (.tl n.toNat (waitValue i a)) i.s)) := by
  show s.run _ = _
  rw [run_issue h]
  unfold orTrap
  rw [hc]
  rfl

theorem stays_reached (i : Iss) (k v : Nat) : Stays (reached i k v) := by
  by_cases hk : k < 4
  · rw [funext (reached_engine i v hk)]
    exact stays_acquire _ _
  · rw [funext (reached_software i v hk)]
    exact ⟨fun _ => rfl, fun _ => rfl, fun _ => ⟨rfl, rfl, rfl, rfl⟩⟩

/-- The group acquires, and its flags grow by those that it was owed on t0-t3. -/
theorem group_reached {i : Iss} (hg : i.b.groups[i.gr.grp]? = some i.g) (k v : Nat) :
    ∃ c fl, (reached i k v i.b).groups[i.gr.grp]? = some ((i.g.acquire c).orFlags fl) ∧
      ∀ f, fl.getLsbD f = (decide (k < 4) && i.b.ops.any fun o =>
        (o.isDone && o.tl == k && decide (o.num ≤ v)) && o.owes i.gr.grp && o.flags.getLsbD f) := by
  by_cases hk : k < 4
  · rw [reached_engine i v hk]
    obtain ⟨c, hgroup⟩ := group_acquire (fun o => o.tl == k && decide (o.num ≤ v)) hg
    refine ⟨c, _, hgroup, fun f => ?_⟩
    simp only [getLsbD_owedFlags, hk, decide_true, Bool.true_and, Bool.and_assoc]
  · rw [reached_software i v hk]
    refine ⟨(i.b.tline k).upTo v, 0, ?_, fun f => by simp [hk]⟩
    rw [orFlags_zero]
    exact groups_modGroup_self _ hg

theorem siblings_reached (i : Iss) (k v m : Nat) (hm : m ≠ i.gr.grp) : (reached i k v i.b).groups[m]? = i.b.groups[m]? := by
  unfold reached
  split
  · exact groups_modGroup_ne _ _ hm
  · exact groups_modGroup_ne _ _ hm

theorem tls_reached (i : Iss) (k v : Nat) : (reached i k v i.b).tls = i.b.tls := by
  unfold reached
  split <;> rfl

theorem ops_reached (i : Iss) {k : Nat} (v : Nat) (hk : 4 ≤ k) : (reached i k v i.b).ops = i.b.ops := by
  rw [reached_software i v (Nat.not_lt.2 hk)]
  rfl

theorem acquired_reached {i : Iss} {k v : Nat} (hk : k < 4) {o : EngOp} (ho : o ∈ (reached i k v i.b).ops)
    (hgot : (o.isDone && o.tl == k && decide (o.num ≤ v)) = true) : o.acquired.contains i.gr.grp = true := by
  rw [reached_engine i v hk] at ho
  rw [Bool.and_assoc, Bool.and_eq_true] at hgot
  obtain ⟨hdone, hpick⟩ := hgot
  exact acquired_acquire ho hdone hpick

/-! ## TLADV (R168) -/

theorem getD_setAt {α : Type} (l : List α) (k m : Nat) (x d : α) :
    (setAt l k x).getD m d = if m = k ∧ k < l.length then x else l.getD m d := by
  simp only [setAt, List.getD_eq_getElem?_getD, get_modAt]
  by_cases hm : m = k
  · subst hm
    by_cases hl : m < l.length
    · simp [hl]
    · simp [hl]
  · simp [hm]

/-- The block with one of its timelines replaced. -/
def withTline (b : Block) (k : Nat) (x : Tline) : Block := { b with tls := setAt b.tls k x }

theorem counter_withTline_self {b : Block} {k : Nat} (x : Tline) (h4 : 4 ≤ k) (hk : k < b.tls.length) :
    (withTline b k x).counter k = x.count := by
  unfold Block.counter withTline
  simp only [getD_setAt, hk, and_self, if_true, h4]

theorem counter_withTline_ne (b : Block) {k m : Nat} (x : Tline) (h : m ≠ k) : (withTline b k x).counter m = b.counter m := by
  unfold Block.counter withTline
  simp only [getD_setAt, h, false_and, if_false]

theorem counter_software (b : Block) {k : Nat} (h4 : 4 ≤ k) : b.counter k = (b.tline k).count := if_pos h4

/-- Timeline k after the group has added x to it: the count saturates, and the advance is a release (R168, R258). -/
def advanced (i : Iss) (k : Nat) (x : Word) : Tline :=
  let c := min (2 ^ 64 - 1) ((i.b.tline k).count + x.toNat)
  { i.b.tline k with count := c, rels := (i.b.tline k).rels ++ [(c, i.g.known)] }

theorem exec_tladv {s : State} {i : Iss} (h : s.issue? = some i) {a : Src} (hc : i.checkSca .i64 [a] = .ok ()) (hq : i.g.quiet = true)
    (n : BitVec 4) :
    exec (.tladv a n) s = .next (i.conclude (.done (i.s.modBlock i.gr.blk fun b =>
      (withTline b n.toNat (advanced i n.toNat (i.uni a))).modGroup i.gr.grp Group.release) false)) := by
  show s.run _ = _
  rw [run_issue h]
  unfold orTrap
  rw [hc]
  simp only [hq, Bool.not_true, Bool.false_eq_true, if_false]
  rfl

theorem stays_withTline (k : Nat) (x : Tline) : Stays fun b => withTline b k x :=
  ⟨fun _ => rfl, fun _ => rfl, fun _ => ⟨rfl, rfl, rfl, rfl⟩⟩

/-! ## Gangs (R170) -/

/-- A mask meets the condition with sub-code c. -/
def GangBad (m : Lanes) (grp groups : Nat) (c : Nat) : Prop :=
  match c with
  | 1 => (lanesOf m).length < 2 ∨ 6 < (lanesOf m).length
  | 2 => ∃ g h, laneIn m g = true ∧ laneIn m h = true ∧ g ≠ h ∧ g % 6 = h % 6
  | 3 => laneIn m grp = false ∨ 32 ≤ grp
  | _ => ∃ g, laneIn m g = true ∧ groups ≤ g

theorem mem_lanesOf_iff {m : Lanes} {l : Nat} : l ∈ lanesOf m ↔ laneIn m l = true := by
  refine ⟨fun h => (mem_lanesOf (lanesOf_lt h)).1 h, fun h => (mem_lanesOf ?_).2 h⟩
  exact BitVec.lt_of_getLsbD h

theorem sharesCore_iff (m : Lanes) (grp groups : Nat) :
    ((lanesOf m).any fun g => (lanesOf m).any fun h => g != h && g % 6 == h % 6) = true ↔ GangBad m grp groups 2 := by
  simp only [List.any_eq_true, mem_lanesOf_iff, Bool.and_eq_true, bne_iff_ne, beq_iff_eq]
  exact ⟨fun ⟨g, hg, h, hh, hne, hmod⟩ => ⟨g, h, hg, hh, hne, hmod⟩, fun ⟨g, h, hg, hh, hne, hmod⟩ => ⟨g, hg, h, hh, hne, hmod⟩⟩

theorem leavesOut_iff (m : Lanes) (grp groups : Nat) : (!(lanesOf m).contains grp) = true ↔ GangBad m grp groups 3 := by
  have hout : 32 ≤ grp → laneIn m grp = false := BitVec.getLsbD_of_ge m grp
  rw [Bool.not_eq_true', List.contains_eq_mem, decide_eq_false_iff_not, mem_lanesOf_iff, Bool.not_eq_true]
  exact ⟨Or.inl, fun h => h.elim id hout⟩

theorem namesNone_iff (m : Lanes) (grp groups : Nat) : ((lanesOf m).any fun g => decide (groups ≤ g)) = true ↔ GangBad m grp groups 4 := by
  simp only [List.any_eq_true, mem_lanesOf_iff, decide_eq_true_eq]
  exact Iff.rfl

/-- The sub-code is the lowest that applies. -/
theorem gangFault_of_lowest {m : Lanes} {grp groups c : Nat} (h1 : 1 ≤ c) (h4 : c ≤ 4) (hbad : GangBad m grp groups c)
    (hlow : ∀ e, 1 ≤ e → e < c → ¬ GangBad m grp groups e) : gangFault m grp groups = some c := by
  have hlow (e : Nat) (he : 1 ≤ e ∧ e < c) := hlow e he.1 he.2
  unfold gangFault
  obtain rfl | rfl | rfl | rfl : c = 1 ∨ c = 2 ∨ c = 3 ∨ c = 4 := by omega
  · exact if_pos hbad
  · exact (if_neg (hlow 1 (by decide))).trans (if_pos ((sharesCore_iff m grp groups).2 hbad))
  · exact (if_neg (hlow 1 (by decide))).trans <| (if_neg (mt (sharesCore_iff m grp groups).1 (hlow 2 (by decide)))).trans <|
      if_pos ((leavesOut_iff m grp groups).2 hbad)
  · exact (if_neg (hlow 1 (by decide))).trans <| (if_neg (mt (sharesCore_iff m grp groups).1 (hlow 2 (by decide)))).trans <|
      (if_neg (mt (leavesOut_iff m grp groups).1 (hlow 3 (by decide)))).trans <| if_pos ((namesNone_iff m grp groups).2 hbad)

theorem gangFault_of_none {m : Lanes} {grp groups : Nat} (hgood : ∀ c, 1 ≤ c → c ≤ 4 → ¬ GangBad m grp groups c) :
    gangFault m grp groups = none := by
  have hgood (c : Nat) (hc : 1 ≤ c ∧ c ≤ 4) := hgood c hc.1 hc.2
  unfold gangFault
  exact (if_neg (hgood 1 (by decide))).trans <| (if_neg (mt (sharesCore_iff m grp groups).1 (hgood 2 (by decide)))).trans <|
    (if_neg (mt (leavesOut_iff m grp groups).1 (hgood 3 (by decide)))).trans <| if_neg (mt (namesNone_iff m grp groups).1 (hgood 4 (by decide)))

/-! ## Operations that a changed gang leaves incomplete (R182) -/

theorem groups_foldl_modGroup {n : Nat} (f : Group → Group) {l : List Nat} (h : n ∉ l) (b : Block) :
    (l.foldl (fun b g => b.modGroup g f) b).groups[n]? = b.groups[n]? := by
  induction l generalizing b with
  | nil => rfl
  | cons x r ih =>
    obtain ⟨hx, hr⟩ := not_or.1 (mt List.mem_cons.2 h)
    exact (ih hr _).trans (groups_modGroup_ne _ _ hx)

theorem ops_foldl_modGroup (f : Group → Group) (l : List Nat) (b : Block) : (l.foldl (fun b g => b.modGroup g f) b).ops = b.ops := by
  induction l generalizing b with
  | nil => rfl
  | cons x r ih => exact ih _

theorem stays_stopOp (o : EngOp) (t : Trap) : Stays fun b => b.stopOp o t :=
  (Stays.foldl (fun n => stays_modGroup n _) o.arrived).comp ⟨fun _ => rfl, fun _ => rfl, fun _ => ⟨rfl, rfl, rfl, rfl⟩⟩

theorem groups_stopOp {n : Nat} (b : Block) {o : EngOp} (t : Trap) (h : n ∉ o.arrived) : (b.stopOp o t).groups[n]? = b.groups[n]? :=
  groups_foldl_modGroup _ h _

/-- The block has an operation of that number on t1, and it is as P says. -/
def HasOp (P : EngOp → Prop) (num : Nat) (b : Block) : Prop := ∃ o ∈ b.ops, o.tl = 1 ∧ o.num = num ∧ P o

/-- Stopping an operation leaves every number in place, and what bears its own number is stopped (R177). -/
theorem HasOp.stopOp {P Q : EngOp → Prop} {num : Nat} {b : Block} (h : HasOp P num b) {q : EngOp} (hq : q.tl = 1) (t : Trap)
    (hstop : ∀ o, o.isStopped = true → Q o) (hkeep : num ≠ q.num → ∀ o, P o → Q o) : HasOp Q num (b.stopOp q t) := by
  obtain ⟨o, ho, htl, hnum, hP⟩ := h
  unfold HasOp Block.stopOp
  simp only [ops_foldl_modGroup]
  refine ⟨_, List.mem_map_of_mem ho, ?_⟩
  have his : o.is q.tl q.num = true ↔ num = q.num := by simp [EngOp.is, htl, hq, hnum]
  by_cases hn : num = q.num
  · rw [if_pos (his.2 hn)]
    exact ⟨hq, hn.symm, hstop _ rfl⟩
  · rw [if_neg (mt his.1 hn)]
    exact ⟨htl, hnum, hkeep hn _ hP⟩

/-- Operations are stopped one after the other: each is stopped in the end. -/
theorem HasOp.foldl_stopOp (t : Trap) {os : List EngOp} (htl : ∀ o ∈ os, o.tl = 1) {num : Nat} {b : Block}
    (h : HasOp (fun o => o.isStopped = true ∨ num ∈ os.map (·.num)) num b) :
    HasOp (fun o => o.isStopped = true) num (os.foldl (fun b o => b.stopOp o t) b) := by
  induction os generalizing b with
  | nil => simpa using h
  | cons q r ih =>
    refine ih (fun o ho => htl o (List.mem_cons_of_mem _ ho)) (h.stopOp (htl q List.mem_cons_self) t (fun _ => Or.inl) ?_)
    exact fun hne o ho => ho.imp_right fun hmem => (List.mem_cons.1 hmem).resolve_left hne

theorem groups_foldl_stopOp {n : Nat} (t : Trap) {os : List EngOp} (h : ∀ o ∈ os, n ∉ o.arrived) (b : Block) :
    (os.foldl (fun b o => b.stopOp o t) b).groups[n]? = b.groups[n]? := by
  induction os generalizing b with
  | nil => rfl
  | cons q r ih => exact (ih (fun o ho => h o (List.mem_cons_of_mem _ ho)) _).trans (groups_stopOp b t (h q List.mem_cons_self))

/-- A joint operation of t1 that waits for the group's part. -/
def WaitsFor (grp : Nat) (o : EngOp) : Prop := o.tl = 1 ∧ o.members.contains grp = true ∧ o.arrived.contains grp = false ∧ o.state = .queued

/-- The operations that a group stops when it changes its gang. -/
def lostOps (b : Block) (grp : Nat) : List EngOp :=
  b.ops.filter fun o => o.tl == 1 && o.members.contains grp && !o.arrived.contains grp && o.state == .queued

theorem mem_lostOps {b : Block} {grp : Nat} {o : EngOp} : o ∈ lostOps b grp ↔ o ∈ b.ops ∧ WaitsFor grp o := by
  unfold lostOps WaitsFor
  rw [List.mem_filter]
  simp only [Bool.and_eq_true, beq_iff_eq, Bool.not_eq_true', and_assoc]

theorem gangLost_eq (b : Block) (grp : Nat) : b.gangLost grp = (lostOps b grp).foldl (fun b o => b.stopOp o (plainTrap .gang 8)) b := rfl

theorem gangLost_of_none {b : Block} {grp : Nat} (h : ∀ o ∈ b.ops, ¬ WaitsFor grp o) : b.gangLost grp = b := by
  have hnil : lostOps b grp = [] := List.eq_nil_iff_forall_not_mem.2 fun o ho => h o (mem_lostOps.1 ho).1 (mem_lostOps.1 ho).2
  rw [gangLost_eq, hnil]
  rfl

theorem stays_gangLost (grp : Nat) : Stays fun b => b.gangLost grp :=
  have hfold (os : List EngOp) : Stays fun b => os.foldl (fun b o => b.stopOp o (plainTrap .gang 8)) b := Stays.foldl (fun o => stays_stopOp o _) os
  ⟨fun b => (hfold (lostOps b grp)).id b, fun b => (hfold (lostOps b grp)).place b, fun b => (hfold (lostOps b grp)).stores b⟩

/-- The group itself has no part in the operations that it stops, and so no trap to take. -/
theorem groups_gangLost_self (b : Block) (grp : Nat) : (b.gangLost grp).groups[grp]? = b.groups[grp]? := by
  refine groups_foldl_stopOp _ (fun o ho => ?_) b
  obtain ⟨_, _, _, hout, _⟩ := mem_lostOps.1 ho
  simpa using hout

theorem isStopped_gangLost {b : Block} {grp : Nat} {o : EngOp} (ho : o ∈ b.ops) (hw : WaitsFor grp o) :
    HasOp (fun o => o.isStopped = true) o.num (b.gangLost grp) :=
  HasOp.foldl_stopOp _ (fun _ hx => (mem_lostOps.1 hx).2.1) ⟨o, ho, hw.1, rfl, .inr (List.mem_map_of_mem (mem_lostOps.2 ⟨ho, hw⟩))⟩

/-! ## GANGSET (R170) -/

/-- What GANGSET finds wrong with a mask; the mask 0 names no gang. -/
def maskFault (i : Iss) (m : Lanes) : Option Nat := if m = 0 then none else gangFault m i.gr.grp i.b.groups.length

/-- The block after its group has taken m as its gang. -/
def ganged (i : Iss) (m : Lanes) (b : Block) : Block :=
  (b.gangLost i.gr.grp).modGroup i.gr.grp fun g => { g with gang := m, gangCount := 0 }

theorem stays_ganged (i : Iss) (m : Lanes) : Stays (ganged i m) := (stays_modGroup i.gr.grp _).comp (stays_gangLost i.gr.grp)

theorem group_ganged {i : Iss} (hg : i.b.groups[i.gr.grp]? = some i.g) (m : Lanes) :
    (ganged i m i.b).groups[i.gr.grp]? = some { i.g with gang := m, gangCount := 0 } :=
  groups_modGroup_self _ ((groups_gangLost_self i.b i.gr.grp).trans hg)

theorem exec_gangset {s : State} {i : Iss} (h : s.issue? = some i) {a : Src} (hc : i.checkSca .i64 [a] = .ok ()) :
    exec (.gangset a) s = .next (i.conclude (match maskFault i ((i.uni a).setWidth 32) with
      | some n => .trap (plainTrap .gang n)
      | none => .done (i.s.modBlock i.gr.blk (ganged i ((i.uni a).setWidth 32))) false)) := by
  show s.run _ = _
  rw [run_issue h]
  unfold orTrap
  rw [hc]
  rfl

theorem gangset_traps {s : State} {i : Iss} (h : s.issue? = some i) {a : Src} (hc : i.checkSca .i64 [a] = .ok ()) {c : Nat}
    (hm : (i.uni a).setWidth 32 ≠ (0 : Lanes)) (h1 : 1 ≤ c) (h4 : c ≤ 4) (hbad : GangBad ((i.uni a).setWidth 32) i.gr.grp i.b.groups.length c)
    (hlow : ∀ e, 1 ≤ e → e < c → ¬ GangBad ((i.uni a).setWidth 32) i.gr.grp i.b.groups.length e) :
    exec (.gangset a) s = .next (i.conclude (.trap (plainTrap .gang c))) := by
  have hfault : maskFault i ((i.uni a).setWidth 32) = some c := (if_neg hm).trans (gangFault_of_lowest h1 h4 hbad hlow)
  rw [exec_gangset h hc, hfault]

theorem gangset_takes {s : State} {i : Iss} (h : s.issue? = some i) {a : Src} (hc : i.checkSca .i64 [a] = .ok ()) {m : Lanes}
    (hma : (i.uni a).setWidth 32 = m) (hm : m = 0 ∨ ∀ c, 1 ≤ c → c ≤ 4 → ¬ GangBad m i.gr.grp i.b.groups.length c) :
    exec (.gangset a) s = .next (i.conclude (.done (i.s.modBlock i.gr.blk (ganged i m)) false)) := by
  have hfault : maskFault i m = none := by
    by_cases hz : m = 0
    · exact if_pos hz
    · exact (if_neg hz).trans (gangFault_of_none (hm.resolve_left hz))
  rw [exec_gangset h hc, hma, hfault]

/-! ## O28 -/

theorem tlwait_waits {s : State} {i : Iss} (h : s.issue? = some i) {a : Src} (hc : i.checkSca .i64 [a] = .ok ()) {n : BitVec 4}
    (hlt : i.b.counter n.toNat < waitValue i a) :
    ∃ t b' g', exec (.tlwait a n) s = .next t ∧ i.InBlock t b' g' ∧ i.Waiting (.tl n.toNat (waitValue i a)) g' ∧ i.Unread g' := by
  obtain ⟨rfl, hb, _⟩ := issue_facts h
  rw [exec_tlwait h hc, if_neg (Nat.not_le.2 hlt)]
  exact ⟨_, _, _, rfl, inBlock_wait hb (issue_group h) _, waiting_waited i _, Unread.of_still (unread_self i) (still_waited i _ i.g)⟩

theorem tlwait_passes {s : State} {i : Iss} (h : s.issue? = some i) {a : Src} (hc : i.checkSca .i64 [a] = .ok ()) {n : BitVec 4}
    (hle : waitValue i a ≤ i.b.counter n.toNat) :
    let k := n.toNat
    let got (o : EngOp) : Bool := o.isDone && o.tl == k && decide (o.num ≤ waitValue i a)
    ∃ t b' g', exec (.tlwait a n) s = .next t ∧ i.InBlock t b' g' ∧ i.At (i.pc + 4) i.active i.sl.wb 0 g' ∧ g'.v = i.g.v ∧ g'.s = i.g.s ∧
      (∀ f, g'.flags.getLsbD f = (i.g.flags.getLsbD f || decide (k < 4) && i.b.ops.any fun o => got o && o.owes i.gr.grp && o.flags.getLsbD f)) ∧
      (k < 4 → ∀ o ∈ b'.ops, got o = true → o.acquired.contains i.gr.grp = true) ∧ (4 ≤ k → b'.ops = i.b.ops) ∧ b'.tls = i.b.tls := by
  intro k got
  obtain ⟨rfl, hb, _⟩ := issue_facts h
  obtain ⟨c, fl, hgroup, hfl⟩ := group_reached (issue_group h) k (waitValue i a)
  have hstill := still_finished i true ((i.g.acquire c).orFlags fl)
  rw [exec_tlwait h hc, if_pos hle]
  refine ⟨_, _, _, rfl, inBlock_done (stays_reached i k _) hb hgroup (siblings_reached i k _) true, at_finished true rfl rfl,
    (congrArg Group.v hstill :), (congrArg Group.s hstill :), fun f => ?_, fun hk o ho => acquired_reached hk ho, ops_reached i _, tls_reached i k _⟩
  rw [show (finished i true ((i.g.acquire c).orFlags fl)).flags = i.g.flags ||| fl from congrArg Group.flags hstill, BitVec.getLsbD_or, hfl]

theorem tladv_adds {s : State} {i : Iss} (h : s.issue? = some i) {a : Src} (hc : i.checkSca .i64 [a] = .ok ()) (htls : i.b.tls.length = 16)
    {n : BitVec 4} (h4 : 4 ≤ n.toNat) (hq : i.g.quiet = true) :
    ∃ t b' g', exec (.tladv a n) s = .next t ∧ i.InBlock t b' g' ∧ i.At (i.pc + 4) i.active i.sl.wb i.sl.k g' ∧ i.Unread g' ∧
      b'.counter n.toNat = min (2 ^ 64 - 1) (i.b.counter n.toNat + (i.uni a).toNat) ∧
      (∀ m, m ≠ n.toNat → b'.counter m = i.b.counter m) ∧ b'.ops = i.b.ops := by
  obtain ⟨rfl, hb, _⟩ := issue_facts h
  have hn : n.toNat < i.b.tls.length := htls ▸ n.isLt
  have hstays := (stays_modGroup i.gr.grp Group.release).comp (stays_withTline n.toNat (advanced i n.toNat (i.uni a)))
  rw [exec_tladv h hc hq]
  refine ⟨_, _, _, rfl, inBlock_done hstays hb (groups_modGroup_self _ (issue_group h)) (fun m hm => groups_modGroup_ne _ _ hm) false,
    at_finished false rfl rfl, Unread.of_still (unread_release i) (still_finished i false _), ?_, fun m hm => ?_, rfl⟩
  · rw [counter_software i.b h4]
    exact counter_withTline_self (advanced i n.toNat (i.uni a)) h4 hn
  · exact counter_withTline_ne i.b (advanced i n.toNat (i.uni a)) hm

theorem yield_switches {s : State} {i : Iss} (h : s.issue? = some i) :
    ∃ t g', exec .yield s = .next t ∧ i.Switched t g' ∧ i.At (i.pc + 4) i.active i.sl.wb 0 g' ∧ g'.still = i.g.still ∧ g'.tokens = i.g.tokens := by
  obtain ⟨rfl, _, hg⟩ := issue_facts h
  have hswitched := switched_done hg fun g => g
  rw [modGroup_same] at hswitched
  exact ⟨_, finished i true i.g, run_issue h _, hswitched, at_finished true rfl rfl, still_finished i true i.g, tokens_finished i true i.g⟩

theorem gangset_sets {s : State} {i : Iss} (h : s.issue? = some i) {a : Src} (hc : i.checkSca .i64 [a] = .ok ()) {m : Lanes}
    (hma : (i.uni a).setWidth 32 = m) (hm : m = 0 ∨ ∀ c, 1 ≤ c → c ≤ 4 → ¬ GangBad m i.gr.grp i.b.groups.length c) :
    ∃ t b' g', exec (.gangset a) s = .next t ∧ t.block? i.gr.blk = some b' ∧ b'.groups[i.gr.grp]? = some g' ∧ (∀ l, t.byte l = s.byte l) ∧
      i.At (i.pc + 4) i.active i.sl.wb i.sl.k g' ∧ g'.gang = m ∧ g'.gangCount = 0 ∧
      { g'.core with gang := i.g.gang, gangCount := i.g.gangCount } = i.g.core ∧ ((∀ o ∈ i.b.ops, ¬ WaitsFor i.gr.grp o) → i.InBlock t b' g') ∧
      ∀ o ∈ i.b.ops, WaitsFor i.gr.grp o → ∃ o' ∈ b'.ops, o'.tl = 1 ∧ o'.num = o.num ∧ o'.isStopped = true := by
  obtain ⟨rfl, hb, _⟩ := issue_facts h
  have hstays := stays_ganged i m
  have hgroup := group_ganged (issue_group h) m
  have hcore := core_finished i { i.g with gang := m, gangCount := 0 }
  rw [gangset_takes h hc hma hm]
  refine ⟨_, _, _, rfl, (block?_done hstays hb false _).trans (if_pos rfl), groups_modGroup_self _ hgroup, byte_done i hstays false,
    at_finished false rfl rfl, congrArg Group.gang hcore, congrArg Group.gangCount hcore, ?_, fun hnone => ?_, fun o ho hw => isStopped_gangLost ho hw⟩
  · rw [hcore]
    rfl
  · refine inBlock_done hstays hb hgroup (fun k hk => ?_) false
    exact (groups_modGroup_ne _ _ hk).trans (by rw [gangLost_of_none hnone])

/-- Settles O28: TLWAIT by `tlwait_waits` and `tlwait_passes`, TLADV by `tladv_adds`, TLGET by `putD_next`, YIELD by `yield_switches`,
GANGSET by `gangset_traps` and `gangset_sets`. -/
theorem timelines : Obligations.Timelines := by
  unfold Obligations.Timelines
  refine ⟨fun s i d a n h htls => ⟨fun hc => ⟨fun hlt => tlwait_waits h hc hlt, fun hle => tlwait_passes h hc hle,
    fun h4 hq => tladv_adds h hc htls h4 hq⟩, fun hd => ?_⟩, fun s i a h => ⟨yield_switches h, rfl, fun hc => ⟨?_, ?_⟩⟩⟩
  · have hget (x : Nat) := putD_next h d (BitVec.ofNat 64 x) hd
    exact ⟨⟨_, _, run_issue h _, hget _⟩, ⟨_, _, run_issue h _, hget _⟩, ⟨_, _, run_issue h _, hget _⟩⟩
  · exact fun c h1 h4 hm hbad hlow => gangset_traps h hc hm h1 h4 hbad hlow
  · exact fun hm => gangset_sets h hc rfl hm

end Sys2Proof.Proofs.Timelines
end

section
/-! SUPPORT. NOP and the system family but for control registers (R48, R49, R55, R172-R174): what each changes, and O29. -/

namespace Sys2Proof.Proofs.Modes

open Sys2Proof Sys2Proof.Machine Sys2Proof.Laws Sys2Proof.Proofs.IssuingBlock

/-! ## MODE and MODEX (R48, R49) -/

theorem afterModex_none {i : Iss} (h : i.sl.modex = none) (r : Res) : i.afterModex r = r := by
  unfold Iss.afterModex
  rw [h]
  rfl

theorem afterModex_some {i : Iss} (h : i.sl.modex.isSome = true) (r : Res) : i.afterModex r = .trap (illopTrap 12) := if_pos h

/-- The issuing group after a MODEX of m: the slot stands at the next word, with m in force for the instruction there. -/
def prefixed (i : Iss) (m : BitVec 14) : Group :=
  { i.g.modSlot i.slotB fun x => { x with pc := x.pc + 4, modex := some (m, x.pc) } with lastB := i.slotB }

theorem slot_prefixed (i : Iss) (m : BitVec 14) : (prefixed i m).slot i.slotB = { i.sl with pc := i.pc + 4, modex := some (m, i.pc) } :=
  slot_modSlot i.g i.slotB _

theorem slot_prefixed_not (i : Iss) (m : BitVec 14) : (prefixed i m).slot (!i.slotB) = i.g.slot (!i.slotB) := slot_modSlot_not i.g i.slotB _

theorem core_prefixed (i : Iss) (m : BitVec 14) : (prefixed i m).core = i.g.core := by
  unfold prefixed
  cases i.slotB <;> simp [Group.modSlot, Group.setSlot, Group.core]

/-- The mode in force for the slot's next instruction is m, and a trap of that instruction reports the MODEX (R26, R49). -/
theorem mode_prefixed (i : Iss) (m : BitVec 14) (s : State) (w : Word32) (b : Block) :
    (⟨s, i.gr, i.slotB, w, b, prefixed i m⟩ : Iss).mode = m ∧ (⟨s, i.gr, i.slotB, w, b, prefixed i m⟩ : Iss).reported = i.pc := by
  unfold Iss.mode Iss.reported
  rw [show (⟨s, i.gr, i.slotB, w, b, prefixed i m⟩ : Iss).sl = _ from slot_prefixed i m]
  exact ⟨rfl, rfl⟩

theorem exec_mode {s : State} {i : Iss} (h : s.issue? = some i) (m : BitVec 14) :
    exec (.mode m) s = .next (i.conclude (i.afterModex (i.group { i.g with mode := m }))) := run_issue h _

theorem exec_modex {s : State} {i : Iss} (h : s.issue? = some i) (m : BitVec 14) :
    exec (.modex m) s = .next (i.conclude (i.afterModex
      (.jump (i.s.modGroup i.gr fun g => g.modSlot i.slotB fun x => { x with pc := x.pc + 4, modex := some (m, x.pc) }) false))) := run_issue h _

theorem nop_goes_on {s : State} {i : Iss} (h : s.issue? = some i) :
    ∃ t g', exec .nop s = .next t ∧ i.Alone t g' ∧ i.Onward g' ∧ (g'.slot i.slotB).k = i.sl.k ∧ g'.core = i.g.core := by
  obtain ⟨rfl, _, hg⟩ := issue_facts h
  obtain ⟨halone, honward, hcore⟩ := noop_facts hg
  exact ⟨_, finished i false i.g, run_issue h _, halone, honward, (congrArg Slot.k (slot_finished i false i.g) :), hcore⟩

theorem mode_sets {s : State} {i : Iss} (h : s.issue? = some i) (hm : i.sl.modex = none) (m : BitVec 14) :
    ∃ t g', exec (.mode m) s = .next t ∧ i.Alone t g' ∧ i.Onward g' ∧ g'.mode = m ∧ { g'.core with mode := i.g.mode } = i.g.core := by
  obtain ⟨rfl, _, hg⟩ := issue_facts h
  have hcore := core_finished i { i.g with mode := m }
  rw [exec_mode h, afterModex_none hm]
  refine ⟨_, finished i false { i.g with mode := m }, rfl, alone_group hg _, onward_finished rfl rfl, congrArg Group.mode hcore, ?_⟩
  rw [hcore]
  rfl

theorem modex_holds {s : State} {i : Iss} (h : s.issue? = some i) (hm : i.sl.modex = none) (m : BitVec 14) :
    ∃ t g', exec (.modex m) s = .next t ∧ i.Alone t g' ∧ g'.core = i.g.core ∧ g'.slot i.slotB = { i.sl with pc := i.pc + 4, modex := some (m, i.pc) } ∧
      g'.slot (!i.slotB) = i.g.slot (!i.slotB) ∧
      ∀ s' w b, (⟨s', i.gr, i.slotB, w, b, g'⟩ : Iss).mode = m ∧ (⟨s', i.gr, i.slotB, w, b, g'⟩ : Iss).reported = i.pc := by
  obtain ⟨rfl, _, hg⟩ := issue_facts h
  rw [exec_modex h, afterModex_none hm]
  exact ⟨_, prefixed i m, rfl, alone_jump hg _, core_prefixed i m, slot_prefixed i m, slot_prefixed_not i m, mode_prefixed i m⟩

theorem mode_after_modex {s : State} {i : Iss} (h : s.issue? = some i) (hm : i.sl.modex.isSome = true) (m : BitVec 14) :
    exec (.mode m) s = .next (i.conclude (.trap (illopTrap 12))) ∧ exec (.modex m) s = .next (i.conclude (.trap (illopTrap 12))) := by
  rw [exec_mode h, exec_modex h, afterModex_some hm, afterModex_some hm]
  exact ⟨rfl, rfl⟩

/-! ## TIMER (R172) -/

theorem timer_reads {s : State} {i : Iss} (h : s.issue? = some i) {d : Dst} (hd : i.g.destBusy i.sl.wb [] (dstRegs d) = false) (sel : TimerSel) :
    ∃ t g', exec (.timer d sel) s = .next t ∧ i.Alone t g' ∧ i.PlainResult d (BitVec.ofNat 64 (match sel with | .cyc => s.cycle | .ns => s.ns)) g' := by
  obtain ⟨rfl, _, _⟩ := issue_facts h
  exact ⟨_, _, run_issue h _, putD_next h d _ hd⟩

/-! ## CKPT (R173, R416) -/

/-- An arrival past the committed epoch and past the group's last one is recorded (R416). -/
theorem ckpt_arriveEpoch (g : Group) (e c n : Nat) : (g.arriveEpoch e c n).ckpt = if c < e ∧ g.ckpt ≤ e then e + 1 else g.ckpt := by
  have hlate : (e ≤ c ∨ e < g.release.ckpt) ↔ ¬ (c < e ∧ g.ckpt ≤ e) := by
    rw [show g.release.ckpt = g.ckpt from rfl]
    omega
  unfold Group.arriveEpoch
  simp only [hlate, ite_not, apply_ite Group.ckpt]
  rfl

@[simp] theorem slot_arriveEpoch (g : Group) (e c n : Nat) (b : Bool) : (g.arriveEpoch e c n).slot b = g.slot b := by
  simp only [Group.arriveEpoch, apply_ite (Group.slot · b)]
  cases b <;> exact ite_self _

@[simp] theorem v_arriveEpoch (g : Group) (e c n : Nat) : (g.arriveEpoch e c n).v = g.v := by
  simp only [Group.arriveEpoch, apply_ite Group.v]
  exact ite_self _

@[simp] theorem flags_arriveEpoch (g : Group) (e c n : Nat) : (g.arriveEpoch e c n).flags = g.flags := by
  simp only [Group.arriveEpoch, apply_ite Group.flags]
  exact ite_self _

@[simp] theorem slot_putReg (g : Group) (wb : Nat) (d : Dst) (x : Word) (b : Bool) : (g.putReg wb d x).slot b = g.slot b := by cases d <;> rfl
@[simp] theorem v_putReg (g : Group) (wb : Nat) (d : Dst) (x : Word) : (g.putReg wb d x).v = g.v := by cases d <;> rfl
@[simp] theorem flags_putReg (g : Group) (wb : Nat) (d : Dst) (x : Word) : (g.putReg wb d x).flags = g.flags := by cases d <;> rfl
@[simp] theorem ckpt_putReg (g : Group) (wb : Nat) (d : Dst) (x : Word) : (g.putReg wb d x).ckpt = g.ckpt := by cases d <;> rfl
@[simp] theorem rdS_putReg (g : Group) (wb : Nat) (r : BitVec 6) (x : Word) : (g.putReg wb (.reg r) x).rdS wb r.toNat = x := rdS_wrS g wb r.toNat x

/-- The issuing group after an arrival at epoch e and the read of the committed epoch c into D. -/
def arrivedGroup (i : Iss) (d : Dst) (e c : Nat) : Group := (i.g.arriveEpoch e c i.s.nextAgent).putReg i.sl.wb d (BitVec.ofNat 64 c)

/-- The machine outside the group after an arrival at epoch e: the group's lines are unpinned, its block is no longer idempotent, and its
context has recorded the arrival (R249, R349, R416). -/
def arrivedAt (i : Iss) (e : Nat) : State :=
  ((i.s.unpin i.g.agent).touchOutside i.gr.blk).modCtx i.b.ctx fun c => { c with arrived := max c.arrived e }

theorem group?_touchOutside (s : State) (blk : Nat) (gr : GRef) : (s.touchOutside blk).group? gr = s.group? gr := by
  rw [show s.touchOutside blk = _ from touch_eq s blk true]
  exact group?_idem s blk _ gr

theorem byte_touchOutside (s : State) (blk : Nat) (l : Loc) : (s.touchOutside blk).byte l = s.byte l := by
  rw [show s.touchOutside blk = _ from touch_eq s blk true]
  exact byte_idem s blk _ l

theorem byte_modCtx (s : State) (n : Nat) (f : Context → Context) (l : Loc) : (s.modCtx n f).byte l = s.byte l := by
  obtain ⟨store, ofs⟩ := l
  cases store <;> rfl

theorem byte_unpin (s : State) (agent : Nat) (l : Loc) : (s.unpin agent).byte l = s.byte l := by
  obtain ⟨store, ofs⟩ := l
  cases store <;> rfl

theorem group?_arrivedAt (i : Iss) (e : Nat) (gr : GRef) : (arrivedAt i e).group? gr = i.s.group? gr := group?_touchOutside _ _ _

theorem byte_arrivedAt (i : Iss) (e : Nat) (l : Loc) : (arrivedAt i e).byte l = i.s.byte l :=
  (byte_modCtx _ _ _ l).trans <| (byte_touchOutside _ _ l).trans (byte_unpin _ _ l)

theorem exec_ckpt {s : State} {i : Iss} (h : s.issue? = some i) {d : Dst} {a : Src} (hc : i.checkSca .i64 [a] = .ok ())
    (hd : i.g.destBusy i.sl.wb [] (dstRegs d) = false) {c : Context} (hctx : s.ctx? i.b.ctx = some c) (q : Bool) :
    exec (.ckpt d a q) s = .next (i.conclude (.done (if q then i.s.setGroup i.gr (i.g.putReg i.sl.wb d (BitVec.ofNat 64 c.committed))
      else (arrivedAt i (i.uni a).toNat).setGroup i.gr (arrivedGroup i d (i.uni a).toNat c.committed)) false)) := by
  obtain ⟨rfl, _, _⟩ := issue_facts h
  show i.s.run _ = _
  rw [run_issue h]
  unfold orTrap
  rw [hc]
  simp only [hd, hctx, Bool.false_eq_true, if_false]
  cases q <;> rfl

theorem ckpt_reads {s : State} {i : Iss} (h : s.issue? = some i) {d : Dst} {a : Src} (hc : i.checkSca .i64 [a] = .ok ())
    (hd : i.g.destBusy i.sl.wb [] (dstRegs d) = false) {c : Context} (hctx : s.ctx? i.b.ctx = some c) :
    ∃ t g', exec (.ckpt d a true) s = .next t ∧ i.Alone t g' ∧ i.PlainResult d (BitVec.ofNat 64 c.committed) g' := by
  rw [exec_ckpt h hc hd hctx]
  obtain ⟨rfl, _, hg⟩ := issue_facts h
  exact ⟨_, _, rfl, alone_group hg _, plainResult i d _⟩

theorem ckpt_arrives {s : State} {i : Iss} (h : s.issue? = some i) {d : Dst} {a : Src} (hc : i.checkSca .i64 [a] = .ok ())
    (hd : i.g.destBusy i.sl.wb [] (dstRegs d) = false) {c : Context} (hctx : s.ctx? i.b.ctx = some c) :
    let e := (i.uni a).toNat
    ∃ t g', exec (.ckpt d a false) s = .next t ∧ t.group? i.gr = some g' ∧ (∀ gr, gr ≠ i.gr → t.group? gr = s.group? gr) ∧
      (∀ l, t.byte l = s.byte l) ∧ i.Onward g' ∧ (∀ r, d = .reg r → g'.rdS i.sl.wb r.toNat = BitVec.ofNat 64 c.committed) ∧
      g'.ckpt = (if c.committed < e ∧ i.g.ckpt ≤ e then e + 1 else i.g.ckpt) ∧ g'.v = i.g.v ∧ g'.flags = i.g.flags := by
  intro e
  rw [exec_ckpt h hc hd hctx]
  obtain ⟨rfl, _, hg⟩ := issue_facts h
  let y := arrivedGroup i d e c.committed
  obtain ⟨hgroup, hothers, hbytes, _⟩ := alone_group (i := { i with s := arrivedAt i e }) ((group?_arrivedAt i e i.gr).trans hg) y
  have hcore := core_finished i y
  have hslot (b : Bool) : y.slot b = i.g.slot b := (slot_putReg _ _ _ _ b).trans (slot_arriveEpoch _ _ _ _ b)
  refine ⟨_, finished i false y, rfl, hgroup, fun gr hgr => (hothers gr hgr).trans (group?_arrivedAt i e gr),
    fun l => (hbytes l).trans (byte_arrivedAt i e l), onward_finished (hslot _) (hslot _), ?dest, ?ckpt, ?v, ?flags⟩
  case dest =>
    rintro r rfl
    exact (congrArg (fun g : Group => g.rdS i.sl.wb r.toNat) hcore :).trans (rdS_putReg _ _ _ _)
  case ckpt => exact (congrArg Group.ckpt hcore :).trans <| (ckpt_putReg _ _ _ _).trans (ckpt_arriveEpoch _ _ _ _)
  case v => exact (congrArg Group.v hcore :).trans <| (v_putReg _ _ _ _).trans (v_arriveEpoch _ _ _ _)
  case flags => exact (congrArg Group.flags hcore :).trans <| (flags_putReg _ _ _ _).trans (flags_arriveEpoch _ _ _ _)

/-! ## FLAGCHK (R82, R174) -/

theorem exec_flagchk {s : State} {i : Iss} (h : s.issue? = some i) :
    exec .flagchk s = .next (i.conclude (if i.g.flags &&& i.g.flagen = 0 then .done i.s false
      else .trap (plainTrap .flag (i.g.flags &&& i.g.flagen).toNat))) := by
  show s.run _ = _
  rw [run_issue h]
  unfold Group.flagTrap
  by_cases hf : i.g.flags &&& i.g.flagen = 0
  · simp only [hf, if_true]
  · simp only [hf, if_false]

/-- Settles O29: NOP by `nop_goes_on`, MODE and MODEX by `mode_sets`, `modex_holds` and `mode_after_modex`, TIMER by `timer_reads`, CKPT by
`ckpt_reads` and `ckpt_arrives`, FLAGCHK by `exec_flagchk`. -/
theorem modesTimersCheckpoints : Obligations.ModesTimersCheckpoints := by
  unfold Obligations.ModesTimersCheckpoints
  refine ⟨fun s i m h => ⟨nop_goes_on h, fun hm => ⟨mode_sets h hm m, modex_holds h hm m⟩, fun hm => mode_after_modex h hm m⟩,
    fun s i d a h => ⟨fun hd => ⟨timer_reads h hd .cyc, timer_reads h hd .ns, fun hc c hctx => ⟨ckpt_reads h hc hd hctx, ckpt_arrives h hc hd hctx⟩⟩, ?_⟩⟩
  rw [exec_flagchk h]
  split
  · obtain ⟨rfl, _, hg⟩ := issue_facts h
    exact ⟨_, _, rfl, noop_facts hg⟩
  · rfl

end Sys2Proof.Proofs.Modes
end

section
/-! SUPPORT. The decoder and the encoder are inverse: O54 by the lemma of each instruction, O55 by what each field reader of the decoder has read. -/

namespace Sys2Proof.Proofs.DecodeEncode

open Sys2Proof Sys2Proof.Laws

/-! ## O54 -/

theorem statement (i : Instr) : Encoding.Statement i := match i with
  | .ill a b => Encoding.ill a b
  | .vadd a b c => Encoding.vadd a b c
  | .vsub a b c => Encoding.vsub a b c
  | .vmul a b c => Encoding.vmul a b c
  | .vmad a b c => Encoding.vmad a b c
  | .vmadn a b c => Encoding.vmadn a b c
  | .vmin a b c => Encoding.vmin a b c
  | .vmax a b c => Encoding.vmax a b c
  | .vabs a b => Encoding.vabs a b
  | .vneg a b => Encoding.vneg a b
  | .vclmp a b c => Encoding.vclmp a b c
  | .vand a b c => Encoding.vand a b c
  | .vor a b c => Encoding.vor a b c
  | .vxor a b c => Encoding.vxor a b c
  | .vnot a b => Encoding.vnot a b
  | .vshl a b c => Encoding.vshl a b c
  | .vshr a b c d => Encoding.vshr a b c d
  | .vrot a b c => Encoding.vrot a b c
  | .vpopc a b => Encoding.vpopc a b
  | .vclz a b => Encoding.vclz a b
  | .vmulh a b c => Encoding.vmulh a b c
  | .vabd a b c => Encoding.vabd a b c
  | .vcmp a b c d => Encoding.vcmp a b c d
  | .vsel a b c => Encoding.vsel a b c
  | .vmov a b => Encoding.vmov a b
  | .vaddi a b c => Encoding.vaddi a b c
  | .vmovi a b => Encoding.vmovi a b
  | .vdot a b c => Encoding.vdot a b c
  | .vhsum a b => Encoding.vhsum a b
  | .vpack a b c d => Encoding.vpack a b c d
  | .vunpk a b c d => Encoding.vunpk a b c d
  | .vcvt a b c d => Encoding.vcvt a b c d
  | .vrint a b c => Encoding.vrint a b c
  | .vcpys a b c => Encoding.vcpys a b c
  | .vfcls a b => Encoding.vfcls a b
  | .vrcp a b => Encoding.vrcp a b
  | .vrsq a b => Encoding.vrsq a b
  | .vsqrt a b => Encoding.vsqrt a b
  | .vdiv a b c => Encoding.vdiv a b c
  | .vex2 a b => Encoding.vex2 a b
  | .vlg2 a b => Encoding.vlg2 a b
  | .vsinp a b => Encoding.vsinp a b
  | .vcosp a b => Encoding.vcosp a b
  | .vtanh a b => Encoding.vtanh a b
  | .vperm a b c => Encoding.vperm a b c
  | .vbcst a b c => Encoding.vbcst a b c
  | .vslid a b c d => Encoding.vslid a b c d
  | .vred a b c d => Encoding.vred a b c d
  | .vscan a b c d e => Encoding.vscan a b c d e
  | .vbal a b c => Encoding.vbal a b c
  | .sadd a b c => Encoding.sadd a b c
  | .ssub a b c => Encoding.ssub a b c
  | .smul a b c => Encoding.smul a b c
  | .smulh a b c d => Encoding.smulh a b c d
  | .smad a b c => Encoding.smad a b c
  | .sdiv a b c d => Encoding.sdiv a b c d
  | .srem a b c d => Encoding.srem a b c d
  | .sand a b c => Encoding.sand a b c
  | .sor a b c => Encoding.sor a b c
  | .sxor a b c => Encoding.sxor a b c
  | .snot a b => Encoding.snot a b
  | .sshl a b c => Encoding.sshl a b c
  | .sshr a b c d => Encoding.sshr a b c d
  | .srot a b c => Encoding.srot a b c
  | .smin a b c d => Encoding.smin a b c d
  | .smax a b c d => Encoding.smax a b c d
  | .spopc a b => Encoding.spopc a b
  | .sclz a b => Encoding.sclz a b
  | .scmp a b c d => Encoding.scmp a b c d
  | .ssel a b c => Encoding.ssel a b c
  | .smov a b => Encoding.smov a b
  | .saddi a b c => Encoding.saddi a b c
  | .smovi a b => Encoding.smovi a b
  | .sshi a b => Encoding.sshi a b
  | .slea a b c d => Encoding.slea a b c d
  | .sext a b c => Encoding.sext a b c
  | .sbfx a b c d => Encoding.sbfx a b c d
  | .sbfi a b c => Encoding.sbfi a b c
  | .bra a => Encoding.bra a
  | .brs a b c => Encoding.brs a b c
  | .brp a b c d => Encoding.brp a b c d
  | .brk a b c d => Encoding.brk a b c d
  | .join a => Encoding.join a
  | .call a b => Encoding.call a b
  | .calli a b => Encoding.calli a b
  | .ret a => Encoding.ret a
  | .jmpi a => Encoding.jmpi a
  | .trap a => Encoding.trap a
  | .dbnz a b c => Encoding.dbnz a b c
  | .pand a b c d => Encoding.pand a b c d
  | .por a b c d => Encoding.por a b c d
  | .pxor a b c d => Encoding.pxor a b c d
  | .pnot a b => Encoding.pnot a b
  | .pmov a b => Encoding.pmov a b
  | .psetm a b => Encoding.psetm a b
  | .pgetm a b c => Encoding.pgetm a b c
  | .pany a b => Encoding.pany a b
  | .pall a b => Encoding.pall a b
  | .pcnt a b => Encoding.pcnt a b
  | .vld a b c d => Encoding.vld a b c d
  | .vst a b c d => Encoding.vst a b c d
  | .vlde a b c d => Encoding.vlde a b c d
  | .vste a b c d => Encoding.vste a b c d
  | .vldd a b c => Encoding.vldd a b c
  | .sld a b c d => Encoding.sld a b c d
  | .sst a b c d => Encoding.sst a b c d
  | .vldb a b c d => Encoding.vldb a b c d
  | .vstb a b c d => Encoding.vstb a b c d
  | .ldds a b c => Encoding.ldds a b c
  | .stds a b c => Encoding.stds a b c
  | .vgath a b c d => Encoding.vgath a b c d
  | .atom a b c d => Encoding.atom a b c d
  | .atoms a b c d => Encoding.atoms a b c d
  | .atomf a b c d => Encoding.atomf a b c d
  | .atomo a b => Encoding.atomo a b
  | .waitc a => Encoding.waitc a
  | .waitv a b => Encoding.waitv a b
  | .fence a => Encoding.fence a
  | .tfence a => Encoding.tfence a
  | .pref a b => Encoding.pref a b
  | .samp a b c d => Encoding.samp a b c d
  | .sampg a b c d => Encoding.sampg a b c d
  | .cpa a b c d => Encoding.cpa a b c d
  | .cpwt a b => Encoding.cpwt a b
  | .cpb a => Encoding.cpb a
  | .cpt a b => Encoding.cpt a b
  | .syncw a b => Encoding.syncw a b
  | .bar a b => Encoding.bar a b
  | .bara a b => Encoding.bara a b
  | .barw a b => Encoding.barw a b
  | .tlwait a b => Encoding.tlwait a b
  | .tladv a b => Encoding.tladv a b
  | .tlget a b c => Encoding.tlget a b c
  | .gangset a => Encoding.gangset a
  | .mma a b c => Encoding.mma a b c
  | .mmal a b c => Encoding.mmal a b c
  | .mconv a b c => Encoding.mconv a b c
  | .mconvl a b c => Encoding.mconvl a b c
  | .mdrn a b => Encoding.mdrn a b
  | .mdst a b c d => Encoding.mdst a b c d
  | .mlda a b c d => Encoding.mlda a b c d
  | .mqry a b => Encoding.mqry a b
  | .plwin a => Encoding.plwin a
  | .pleval a b => Encoding.pleval a b
  | .plexp a b => Encoding.plexp a b
  | .pllin a b => Encoding.pllin a b
  | .plfma a b c => Encoding.plfma a b c
  | .pladd a b c => Encoding.pladd a b c
  | .plmul a b c => Encoding.plmul a b c
  | .plmin a b c => Encoding.plmin a b c
  | .plmax a b c => Encoding.plmax a b c
  | .plmov a b => Encoding.plmov a b
  | .plcmp a b c => Encoding.plcmp a b c
  | .plsel a b c => Encoding.plsel a b c
  | .plshf a b c d => Encoding.plshf a b c d
  | .plld a b c d => Encoding.plld a b c d
  | .plst a b c d => Encoding.plst a b c d
  | .plred a b c d => Encoding.plred a b c d
  | .plexc a b c => Encoding.plexc a b c
  | .plvis a b c => Encoding.plvis a b c
  | .plbld a b c => Encoding.plbld a b c
  | .pltile a b => Encoding.pltile a b
  | .plflg a b => Encoding.plflg a b
  | .plsfn a b c => Encoding.plsfn a b c
  | .plclr a => Encoding.plclr a
  | .plbin a => Encoding.plbin a
  | .launch a b => Encoding.launch a b
  | .arm a b => Encoding.arm a b
  | .disarm a b => Encoding.disarm a b
  | .invoke a b c => Encoding.invoke a b c
  | .invh a b c => Encoding.invh a b c
  | .hwait a b => Encoding.hwait a b
  | .hres a b => Encoding.hres a b
  | .hbrk a => Encoding.hbrk a
  | .hqry a b => Encoding.hqry a b
  | .hfree a => Encoding.hfree a
  | .vgcmd a b c => Encoding.vgcmd a b c
  | .vgqry a b c => Encoding.vgqry a b c
  | .mode a => Encoding.mode a
  | .modex a => Encoding.modex a
  | .getc a b => Encoding.getc a b
  | .setc a b => Encoding.setc a b
  | .timer a b => Encoding.timer a b
  | .ckpt a b c => Encoding.ckpt a b c
  | .bkpt a => Encoding.bkpt a
  | .undef a => Encoding.undef a
  | .rsvop a => Encoding.rsvop a
  | .quantumSwitch a => Encoding.quantumSwitch a
  | .loadComplete a => Encoding.loadComplete a
  | .accessPerform a b c => Encoding.accessPerform a b c
  | .pageTableWalk a b c => Encoding.pageTableWalk a b c
  | .trapEntry a => Encoding.trapEntry a
  | .groupRetire a => Encoding.groupRetire a
  | .completionWrite a => Encoding.completionWrite a
  | .atomoApplication a => Encoding.atomoApplication a
  | .blockStart a => Encoding.blockStart a
  | .preemption a => Encoding.preemption a
  | .forcedPreemption a => Encoding.forcedPreemption a
  | .restoration a b => Encoding.restoration a b
  | .eviction a => Encoding.eviction a
  | .suspension a => Encoding.suspension a
  | .driverKill a => Encoding.driverKill a
  | .contextDestroy a => Encoding.contextDestroy a
  | .matrixOpStart a b => Encoding.matrixOpStart a b
  | .matrixStep a => Encoding.matrixStep a
  | .engineOpComplete a b => Encoding.engineOpComplete a b
  | .planeOp a => Encoding.planeOp a
  | .binningJob a => Encoding.binningJob a
  | .cpaTransferComplete a b => Encoding.cpaTransferComplete a b
  | .copyRow a b c => Encoding.copyRow a b c
  | .vgcmdStart a b => Encoding.vgcmdStart a b
  | .virgaWave a b c => Encoding.virgaWave a b c
  | .virgaWindowEnd a => Encoding.virgaWindowEnd a
  | .bankServiceEnd a => Encoding.bankServiceEnd a
  | .virgaMerge a b => Encoding.virgaMerge a b
  | .handlerStart a => Encoding.handlerStart a
  | .invocationArrival a => Encoding.invocationArrival a
  | .hwaitRegistration a => Encoding.hwaitRegistration a
  | .hwaitAnswer a => Encoding.hwaitAnswer a
  | .resolutionArrival a => Encoding.resolutionArrival a
  | .forwardArrival a => Encoding.forwardArrival a
  | .forwardProbe a => Encoding.forwardProbe a
  | .breakArrival a => Encoding.breakArrival a
  | .homeAnswer a => Encoding.homeAnswer a
  | .hostQueueRecord a => Encoding.hostQueueRecord a
  | .queueResume a b => Encoding.queueResume a b
  | .taggedMessage a b c d => Encoding.taggedMessage a b c d
  | .frameReceive a => Encoding.frameReceive a
  | .retransmit a => Encoding.retransmit a
  | .connectionFailure a => Encoding.connectionFailure a
  | .sendRingDescriptor a => Encoding.sendRingDescriptor a
  | .bridgeFailure a b => Encoding.bridgeFailure a b
  | .hostAccess a b c => Encoding.hostAccess a b c
  | .contextDescriptorWrite a b => Encoding.contextDescriptorWrite a b
  | .capabilityTableWrite a b c => Encoding.capabilityTableWrite a b c
  | .shootdown a => Encoding.shootdown a
  | .errorDetected a => Encoding.errorDetected a
  | .freeze a => Encoding.freeze a
  | .thermalStep a b => Encoding.thermalStep a b
  | .attestationRequest a => Encoding.attestationRequest a
  | .hfreeArrival a => Encoding.hfreeArrival a
  | .linkTraining a => Encoding.linkTraining a
  | .connectionReestablished a => Encoding.connectionReestablished a
  | .queueBinding a b c d => Encoding.queueBinding a b c d
  | .contextCreation a b => Encoding.contextCreation a b
  | .nop => Encoding.nop
  | .exit => Encoding.exit
  | .rft => Encoding.rft
  | .ordcl => Encoding.ordcl
  | .sbar => Encoding.sbar
  | .yield => Encoding.yield
  | .mzero => Encoding.mzero
  | .plbind => Encoding.plbind
  | .plfree => Encoding.plfree
  | .plif => Encoding.plif
  | .plelse => Encoding.plelse
  | .plend => Encoding.plend
  | .flagchk => Encoding.flagchk
  | .candidateHold => Encoding.candidateHold
  | .pri0Displacement => Encoding.pri0Displacement
  | .checkpointCommit => Encoding.checkpointCommit
  | .tapFreeze => Encoding.tapFreeze
  | .testPortReadout => Encoding.testPortReadout
  | .coldReset => Encoding.coldReset
  | .warmReset => Encoding.warmReset
  | .powerOff => Encoding.powerOff

/-- Settles O54 by `statement`, the lemma of each instruction in one. -/
theorem decodesWhatIsEncoded : Obligations.DecodesWhatIsEncoded := by
  unfold Obligations.DecodesWhatIsEncoded
  intro i hi
  have h := statement i hi
  cases he : encode i with
  | none => rw [he] at h; exact ⟨nofun, fun _ => h⟩
  | some w => rw [he] at h; exact ⟨fun _ hw => Option.some.inj hw ▸ h, nofun⟩

/-! ## What a reader yields -/

/-- What x gives, if it gives anything, meets P. -/
def Yields {α : Type} (x : Dec α) (P : α → Prop) : Prop := ∀ a, x = .ok a → P a

theorem Yields.ok {α : Type} {a : α} {P : α → Prop} (h : P a) : Yields (.ok a) P := by
  rintro _ ⟨⟩
  exact h

theorem Yields.error {α : Type} {e : Illop} {P : α → Prop} : Yields (.error e) P := nofun

theorem Yields.app {α β : Type} {f : Dec (α → β)} {x : Dec α} {P : β → Prop} {Q : α → Prop} (hx : Yields x Q)
    (hf : Yields f fun g => ∀ a, Q a → P (g a)) : Yields (ap f x) P := by
  cases f with
  | error e => cases x <;> exact .error
  | ok g =>
    cases x with
    | error e => exact .error
    | ok a => exact .ok (hf g rfl a (hx a rfl))

/-- A field that is only copied. -/
theorem Yields.val {α β : Type} {f : Dec (α → β)} {a : α} {P : β → Prop} (hf : Yields f fun g => P (g a)) : Yields (ap f (.ok a)) P :=
  .app (Q := (· = a)) (.ok rfl) fun g hg _ hb => hb ▸ hf g hg

theorem Yields.req {α : Type} {c : Bool} {e : Illop} {x : Dec α} {P : α → Prop} (h : c = true → Yields x P) : Yields (req c e x) P := by
  cases c with
  | true => exact h rfl
  | false => cases x <;> exact .error

theorem Yields.ite {α : Type} {c : Prop} [Decidable c] {e : Illop} {a : α} {P : α → Prop} (h : c → P a) :
    Yields (if c then .ok a else .error e) P := by
  split
  next hc => exact .ok (h hc)
  next => exact .error

/-! ## What each field reader has read -/

/-- A check of what a reader gives, over all fields at once. -/
def Given {α : Type} (x : Dec α) (p : α → Bool) : Bool :=
  match x with
  | .ok a => p a
  | .error _ => true

theorem Yields.of_given {α : Type} {x : Dec α} {p : α → Bool} {P : α → Prop} (h : Given x p = true) (hp : ∀ a, p a = true → P a) : Yields x P := by
  rintro a rfl
  exact hp a h

theorem anySrc_yields (f : BitVec 7) : Yields (anySrc f) fun a => f = eSrc a :=
  .of_given (p := fun a => decide (f = eSrc a)) (by revert f; decide) fun _ => of_decide_eq_true

theorem srcIf_yields (p : Src → Bool) (f : BitVec 7) : Yields (srcIf p f) fun a => f = eSrc a ∧ p a = true := by
  intro a h
  unfold srcIf at h
  cases hf : anySrc f with
  | error e => rw [hf] at h; cases h
  | ok b =>
    simp only [hf] at h
    split at h
    next hp => cases h; exact ⟨anySrc_yields f _ hf, hp⟩
    next => cases h

theorem scalarSrc_yields (f : BitVec 7) : Yields (scalarSrc f) fun a => f = eSrc a ∧ scalarOk a = true := srcIf_yields _ f
theorem uniformSrc_yields (f : BitVec 7) : Yields (uniformSrc f) fun a => f = eSrc a ∧ uniformOk a = true := srcIf_yields _ f
theorem laneSrc_yields (f : BitVec 7) : Yields (laneSrc f) fun a => f = eSrc a ∧ laneOk a = true := srcIf_yields _ f

theorem cellSrc_yields (f : BitVec 7) : Yields (cellSrc f) fun a => f = eCellSrc a :=
  .of_given (p := fun a => decide (f = eCellSrc a)) (by revert f; decide) fun _ => of_decide_eq_true

theorem cvtSrc_yields (f : BitVec 7) : Yields (cvtSrc f) fun t => f = eCvt t ∧ (t != .d) = true :=
  .of_given (p := fun t => decide (f = eCvt t ∧ (t != .d) = true)) (by revert f; decide) fun _ => of_decide_eq_true

theorem predSrc_yields (f : BitVec 7) : Yields (predSrc f) fun p => f = ePred p ∧ predOk p = true :=
  .of_given (p := fun p => decide (f = ePred p ∧ predOk p = true)) (by revert f; decide) fun _ => of_decide_eq_true

theorem reg_back {f : BitVec 7} (h : f.toNat < 64) : f = eReg (f.setWidth 6) := by revert f; decide
theorem cell_back {f : BitVec 7} (h : f.toNat < 32) : f = eCell (f.setWidth 5) := by revert f; decide

theorem regRun_yields {f : BitVec 7} {n : Nat} (hn : 0 < n) : Yields (regRun f n) fun r => f = eReg r ∧ runOk r n = true :=
  .ite fun h => by
    have hf : f.toNat < 64 := by omega
    refine ⟨reg_back hf, decide_eq_true ?_⟩
    rw [BitVec.toNat_setWidth]
    omega

theorem dDst_yields (w : Word32) : Yields (dDst w) fun d => fD w = eDst d := by
  unfold dDst
  generalize fD w = f
  exact .of_given (p := fun d => decide (f = eDst d)) (by revert f; decide) fun _ => of_decide_eq_true

theorem dReg_yields (w : Word32) (e : Illop) : Yields (dReg w e) fun r => fD w = eReg r := .ite reg_back
theorem bReg_yields (w : Word32) : Yields (bReg w) fun r => fD w = eReg r := .ite reg_back
theorem dPred_yields (w : Word32) : Yields (dPred w) fun p => fD w = ePred p ∧ predOk p = true := by
  unfold dPred
  generalize fD w = f
  exact .of_given (p := fun p => decide (f = ePred p ∧ predOk p = true)) (by revert f; decide) fun _ => of_decide_eq_true
theorem bPred_yields (w : Word32) : Yields (bPred w) fun p => fD w = ePred p ∧ predOk p = true := predSrc_yields (fD w)

theorem dCell_yields {w : Word32} {n : Nat} (hn : n ≤ 32) : Yields (dCell w n) fun c => fD w = eCell c ∧ c.toNat < n :=
  .ite fun h => by
    refine ⟨cell_back (by omega), ?_⟩
    rw [BitVec.toNat_setWidth]
    omega

theorem dEven_yields (w : Word32) : Yields (dEven w) fun d => fD w = eEven d := by
  unfold dEven
  generalize fD w = f
  exact .of_given (p := fun d => decide (f = eEven d)) (by revert f; decide) fun _ => of_decide_eq_true

/-- Field B with the broadcast bit X[2] (R42). -/
theorem srcBOf_yields (w : Word32) : Yields (srcBOf w) fun b => fB w = eSrcB b ∧ (fX w).getLsbD 2 = (eBc b).getLsbD 2 := by
  unfold srcBOf
  generalize fB w = f, (fX w).getLsbD 2 = x
  exact .of_given (p := fun b => decide (f = eSrcB b ∧ x = (eBc b).getLsbD 2)) (by revert f x; decide) fun _ => of_decide_eq_true

theorem cellBOf_yields (w : Word32) : Yields (cellBOf w) fun b => fB w = eCellB b ∧ (fX w).getLsbD 2 = (eBcCell b).getLsbD 2 := by
  unfold cellBOf
  generalize fB w = f, (fX w).getLsbD 2 = x
  exact .of_given (p := fun b => decide (f = eCellB b ∧ x = (eBcCell b).getLsbD 2)) (by revert f x; decide) fun _ => of_decide_eq_true

/-! ## Field X -/

section
variable {w : Word32}

theorem x_of_xIn {l : List (BitVec 3)} {P : BitVec 3 → Prop} (h : xIn w l = true) (hp : ∀ x ∈ l, P x) : P (fX w) :=
  hp _ (List.contains_iff_mem.1 h)

theorem x_none (h : xIn w [0] = true) : fX w = 0 := x_of_xIn (P := fun x => x = 0) h (by decide)

theorem x_bcast {b : SrcB} (h : xIn w [0, 4] = true) (hb : (fX w).getLsbD 2 = (eBc b).getLsbD 2) : fX w = eBc b := by
  revert hb
  refine x_of_xIn (P := fun x => x.getLsbD 2 = (eBc b).getLsbD 2 → x = eBc b) h ?_
  cases b <;> simp [eBc]

theorem x_bcastCell {b : CellSrcB} (h : xIn w [0, 4] = true) (hb : (fX w).getLsbD 2 = (eBcCell b).getLsbD 2) : fX w = eBcCell b := by
  revert hb
  refine x_of_xIn (P := fun x => x.getLsbD 2 = (eBcCell b).getLsbD 2 → x = eBcCell b) h ?_
  cases b <;> simp [eBcCell]

theorem x_bcastBit {b : SrcB} (h : xIn w [0, 1, 4, 5] = true) (hb : (fX w).getLsbD 2 = (eBc b).getLsbD 2) :
    fX w = eBc b ||| eBit ((fX w).getLsbD 0) := by
  revert hb
  refine x_of_xIn (P := fun x => x.getLsbD 2 = (eBc b).getLsbD 2 → x = eBc b ||| eBit (x.getLsbD 0)) h ?_
  cases b <;> simp [eBc, eBit]

theorem x_bit (h : xIn w [0, 1] = true) : fX w = eBit ((fX w).getLsbD 0) := x_of_xIn (P := fun x => x = eBit (x.getLsbD 0)) h (by decide)
theorem x_timer (h : xIn w [0, 1] = true) : fX w = eTimer (timerOf (fX w)) := x_of_xIn (P := fun x => x = eTimer (timerOf x)) h (by decide)
theorem x_space (h : xIn w [0, 1, 2, 3, 4] = true) : fX w = eSpace (spaceOf (fX w)) := x_of_xIn (P := fun x => x = eSpace (spaceOf x)) h (by decide)
theorem x_scope (h : xIn w [0, 1, 2, 3, 4] = true) : fX w = eScope (scopeOf (fX w)) := x_of_xIn (P := fun x => x = eScope (scopeOf x)) h (by decide)
theorem x_red (h : xIn w [0, 1, 2, 3, 4, 5] = true) : fX w = eRed (redOf (fX w)) := x_of_xIn (P := fun x => x = eRed (redOf x)) h (by decide)
theorem x_ext (h : xIn w [0, 1, 2, 4, 5, 6] = true) : fX w = eExt (extOf (fX w)) := x_of_xIn (P := fun x => x = eExt (extOf x)) h (by decide)
theorem x_scan (h : xIn w [0, 1, 2, 4, 5, 6] = true) : fX w = eAmm (ammOf (fX w &&& 3)) ||| eBit2 ((fX w).getLsbD 2) :=
  x_of_xIn (P := fun x => x = eAmm (ammOf (x &&& 3)) ||| eBit2 (x.getLsbD 2)) h (by decide)
theorem x_amm (h : xIn w [0, 1, 2] = true) : fX w = eAmm (ammOf (fX w)) := x_of_xIn (P := fun x => x = eAmm (ammOf x)) h (by decide)
theorem x_mq (h : xIn w [0, 1, 2] = true) : fX w = eMq (mqOf (fX w)) := x_of_xIn (P := fun x => x = eMq (mqOf x)) h (by decide)
theorem x_vg (h : xIn w [0, 1, 2, 3] = true) : fX w = eVg (vgOf (fX w)) := x_of_xIn (P := fun x => x = eVg (vgOf x)) h (by decide)
theorem x_pair (h : xIn w [0, 1, 2, 3] = true) : fX w = ((fX w).setWidth 2).setWidth 3 :=
  x_of_xIn (P := fun x => x = (x.setWidth 2).setWidth 3) h (by decide)

end

theorem x_vcond (w : Word32) : fX w = eVCond (vcondOf (fX w)) := by generalize fX w = x; revert x; decide
theorem x_scond (w : Word32) : fX w = eSCond (scondOf (fX w)) := by generalize fX w = x; revert x; decide
theorem x_atom (w : Word32) : fX w = eAtom (atomOf (fX w)) := by generalize fX w = x; revert x; decide
theorem x_fn (w : Word32) : fX w = eFn (fnOf (fX w)) := by generalize fX w = x; revert x; decide
theorem x_dir (w : Word32) : fX w = eDir (dirOf (fX w &&& 3)) ||| eBit2 ((fX w).getLsbD 2) := by generalize fX w = x; revert x; decide

/-! ## Wider fields, and conditions on two fields -/

theorem widen_back {k n : Nat} {x : BitVec n} (h : x.toNat < 2 ^ k) : x = (x.setWidth k).setWidth n := by
  apply BitVec.eq_of_toNat_eq
  simp only [BitVec.toNat_setWidth, Nat.mod_eq_of_lt h, Nat.mod_eq_of_lt x.isLt]

theorem append_extract {m n : Nat} (x : BitVec (m + n)) : x = x.extractLsb' n m ++ x.extractLsb' 0 n := by
  rw [BitVec.extractLsb'_append_extractLsb'_eq_extractLsb' (by simp)]
  exact BitVec.extractLsb'_eq_self.symm

theorem low_four {x : BitVec 10} (h : decide (4 ≤ x.toNat % 16) = true) : decide (4 ≤ (x.setWidth 4).toNat) = true := by
  rwa [BitVec.toNat_setWidth]

theorem extract_extract {n : Nat} (x : BitVec n) {k l m : Nat} (h : k + l ≤ m) : (x.extractLsb' 0 m).extractLsb' k l = x.extractLsb' k l := by
  apply BitVec.eq_of_getLsbD_eq
  intro i hi
  simp [hi, show k + i < m by omega]

theorem selector_of {x : BitVec 10} (h : (x.extractLsb' 4 2 != 3) = true) (k : decide (x.toNat < 64) = true) :
    x = (0 : BitVec 4) ++ (eTlSel (tlSelOf (x.extractLsb' 4 2)) ++ x.setWidth 4) := by
  have hs : ∀ y : BitVec 2, (y != 3) = true → eTlSel (tlSelOf y) = y := by decide
  have hx : x.extractLsb' 6 4 = 0 := by
    apply BitVec.eq_of_toNat_eq
    have := of_decide_eq_true k
    simp only [BitVec.extractLsb'_toNat, Nat.shiftRight_eq_div_pow]
    rw [Nat.div_eq_of_lt (by simpa using this)]
    rfl
  have hn : x.setWidth 4 = x.extractLsb' 0 4 := by
    apply BitVec.eq_of_toNat_eq
    simp
  rw [hs _ h, ← hx, hn]
  conv_lhs => rw [append_extract (m := 4) (n := 6) x, append_extract (m := 2) (n := 4) (x.extractLsb' 0 6), extract_extract x (by decide), extract_extract x (by decide)]

theorem eSrc_zero {a : Src} (h : eSrc a = 0) : a = .reg 0 := by
  have k := anySrc_eSrc a
  rw [h] at k
  exact (Except.ok.inj k).symm

/-- CKPT with X = 1 reads no A, whose field is then 0. -/
theorem query_zero {w : Word32} {a : Src} (hx : xIn w [0, 1] = true) (h : (fX w != 1 || fA w == 0) = true) (ha : fA w = eSrc a) :
    (!(fX w).getLsbD 0 || a == .reg 0) = true := by
  rw [ha] at h
  have hq : (fX w).getLsbD 0 = true → fX w = 1 := x_of_xIn (P := fun x => x.getLsbD 0 = true → x = 1) hx (by decide)
  cases hb : (fX w).getLsbD 0 with
  | false => rfl
  | true =>
    rw [hq hb] at h
    exact beq_iff_eq.2 (eSrc_zero (eq_of_beq h))

theorem drnOk_of {w : Word32} {a : Src} {b : SrcB} (h : drnOnce w = true) (ha : fA w = eSrc a) (hb : fB w = eSrcB b) : drnOk a b = true := by
  unfold drnOnce at h
  rw [ha, hb, eSrc_isDrn] at h
  cases b with
  | src b => rwa [eSrcB, eSrc_isDrn] at h
  | bcast x => rfl

theorem and_true {a b : Bool} (ha : a = true) (hb : b = true) : (a && b) = true := Bool.and_eq_true_iff.2 ⟨ha, hb⟩

/-! ## A word from its fields (R33) -/

/-- The low m + n bits of a word, cut in two. -/
theorem low_cut (w : Word32) (m n : Nat) : w.extractLsb' 0 (m + n) = w.extractLsb' n m ++ w.extractLsb' 0 n := by
  conv_lhs => rw [append_extract (w.extractLsb' 0 (m + n))]
  rw [extract_extract w (by omega), extract_extract w (by omega)]

theorem fL_fields_B (w : Word32) : fL w = fD w ++ (BitVec.ofBool (fN w) ++ (fT w ++ fO w)) := by
  have hN : w.extractLsb' 16 1 = BitVec.ofBool (fN w) := by
    apply BitVec.eq_of_getLsbD_eq
    intro i hi
    obtain rfl : i = 0 := by omega
    simp [fN]
  rw [← hN]
  exact (low_cut w 7 17).trans (congrArg _ ((low_cut w 1 16).trans (congrArg _ (low_cut w 4 12))))

theorem fL_fields_I (w : Word32) : fL w = fD w ++ (fA w ++ fI w) := (low_cut w 7 17).trans (congrArg _ (low_cut w 7 10))

theorem fL_fields_R (w : Word32) : fL w = fD w ++ (fA w ++ (fB w ++ fX w)) := (fL_fields_I w).trans (congrArg _ (congrArg _ (low_cut w 7 3)))

section
variable {w : Word32} {op : BitVec 8} (h : fOp w = op)
include h

theorem word_L {i : BitVec 24} (hL : fL w = i) : some (mkL op i) = some w := by
  subst h hL
  exact congrArg some (append_extract (m := 8) (n := 24) w).symm

theorem word_R {d a b : BitVec 7} {x : BitVec 3} (hD : fD w = d) (hA : fA w = a) (hB : fB w = b) (hX : fX w = x) :
    some (mkR op d a b x) = some w := by
  subst hD hA hB hX
  exact word_L h (fL_fields_R w)

theorem word_I {d a : BitVec 7} {i : BitVec 10} (hD : fD w = d) (hA : fA w = a) (hI : fI w = i) : some (mkI op d a i) = some w := by
  subst hD hA hI
  exact word_L h (fL_fields_I w)

theorem word_B {c : BitVec 7} {n : Bool} {t : BitVec 4} {o : BitVec 12} (hC : fD w = c) (hN : fN w = n) (hT : fT w = t) (hO : fO w = o) :
    some (mkB op c n t o) = some w := by
  subst hC hN hT hO
  exact word_L h (fL_fields_B w)

end

theorem word_join {w : Word32} (h : fOp w = 0x64) (hz : (fD w == 0 && !fN w && fO w == 0) = true) : some (mkB 0x64 0 false (fT w) 0) = some w := by
  obtain ⟨hz, hO⟩ := Bool.and_eq_true_iff.1 hz
  obtain ⟨hD, hN⟩ := Bool.and_eq_true_iff.1 hz
  exact word_B h (eq_of_beq hD) (by simpa using hN) rfl (eq_of_beq hO)

/-! ## O55: the rows of the opcode map (R54) -/

/-- The instruction i is well-formed, and w is its word. -/
def Spelled (w : Word32) (i : Instr) : Prop := WellFormed i = true ∧ encode i = some w

theorem ill_row {w : Word32} (h : fOp w = 0x00) :
    Yields (ap (.ok (Instr.ill false)) (.ok (fL w))) (Spelled w) :=
  .val <| .ok ⟨rfl, word_L h rfl⟩

theorem long_zero_row {op : BitVec 8} {w : Word32} (h : fOp w = op) {F : Instr}
    (hw : WellFormed F = true)
    (he : encode F = some (mkL op 0)) :
    Yields (req (fL w == 0) .rsvbits (.ok F)) (Spelled w) :=
  .req fun c0 => .ok ⟨hw, he.trans (word_L h (eq_of_beq c0))⟩

theorem dDst_anySrc_srcBOf_row {op : BitVec 8} {w : Word32} (h : fOp w = op) {F : Dst → Src → SrcB → Instr}
    (hw : ∀ d a b, WellFormed (F d a b) = drnOk a b)
    (he : ∀ d a b, encode (F d a b) = some (mkR op (eDst d) (eSrc a) (eSrcB b) (eBc b))) :
    Yields (req (xIn w [0, 4]) .xval (req (drnOnce w) .src (ap (ap (ap (.ok F) (dDst w)) (anySrc (fA w))) (srcBOf w)))) (Spelled w) :=
  .req fun c0 => .req fun c1 => .app (srcBOf_yields w) <| .app (anySrc_yields _) <| .app (dDst_yields w) <|
    .ok fun _ hd _ ha _ hb => ⟨(hw _ _ _).trans (drnOk_of c1 ha hb.1), (he _ _ _).trans (word_R h hd ha hb.1 (x_bcast c0 hb.2))⟩

theorem dDst_anySrc_row {op : BitVec 8} {w : Word32} (h : fOp w = op) {F : Dst → Src → Instr}
    (hw : ∀ d a, WellFormed (F d a) = true)
    (he : ∀ d a, encode (F d a) = some (mkR op (eDst d) (eSrc a) 0 0)) :
    Yields (req (fB w == 0) .rsvbits (req (xIn w [0]) .xval (ap (ap (.ok F) (dDst w)) (anySrc (fA w))))) (Spelled w) :=
  .req fun c0 => .req fun c1 => .app (anySrc_yields _) <| .app (dDst_yields w) <|
    .ok fun _ hd _ ha => ⟨hw _ _, (he _ _).trans (word_R h hd ha (eq_of_beq c0) (x_none c1))⟩

theorem dDst_anySrc_srcBOf_x0_row {op : BitVec 8} {w : Word32} (h : fOp w = op) {F : Dst → Src → SrcB → Bool → Instr}
    (hw : ∀ d a b r, WellFormed (F d a b r) = drnOk a b)
    (he : ∀ d a b r, encode (F d a b r) = some (mkR op (eDst d) (eSrc a) (eSrcB b) (eBc b ||| eBit r))) :
    Yields (req (xIn w [0, 1, 4, 5]) .xval (req (drnOnce w) .src (ap (ap (ap (ap (.ok F) (dDst w)) (anySrc (fA w))) (srcBOf w)) (x0 w))))
      (Spelled w) :=
  .req fun c0 => .req fun c1 => .val <| .app (srcBOf_yields w) <| .app (anySrc_yields _) <| .app (dDst_yields w) <|
    .ok fun _ hd _ ha _ hb => ⟨(hw _ _ _ _).trans (drnOk_of c1 ha hb.1), (he _ _ _ _).trans (word_R h hd ha hb.1 (x_bcastBit c0 hb.2))⟩

theorem vcmp_row {w : Word32} (h : fOp w = 0x17) :
    Yields (req (drnOnce w) .src (ap (ap (ap (ap (.ok Instr.vcmp) (dPred w)) (anySrc (fA w))) (anySrc (fB w))) (.ok (vcondOf (fX w))))) (Spelled w) :=
  .req fun c0 => .val <| .app (anySrc_yields _) <| .app (anySrc_yields _) <| .app (dPred_yields w) <|
    .ok fun _ hd _ ha _ hb => ⟨and_true hd.2 (drnOk_of (b := .src _) c0 ha hb), word_R h hd.1 ha hb (x_vcond w)⟩

theorem vaddi_row {w : Word32} (h : fOp w = 0x1a) :
    Yields (ap (ap (ap (.ok Instr.vaddi) (dDst w)) (anySrc (fA w))) (.ok (fI w))) (Spelled w) :=
  .val <| .app (anySrc_yields _) <| .app (dDst_yields w) <| .ok fun _ hd _ ha => ⟨rfl, word_I h hd ha rfl⟩

theorem dDst_row {op : BitVec 8} {w : Word32} (h : fOp w = op) {F : Dst → BitVec 10 → Instr}
    (hw : ∀ d i, WellFormed (F d i) = true)
    (he : ∀ d i, encode (F d i) = some (mkI op (eDst d) 0 i)) :
    Yields (req (fA w == 0) .rsvbits (ap (ap (.ok F) (dDst w)) (.ok (fI w)))) (Spelled w) :=
  .req fun c0 => .val <| .app (dDst_yields w) <| .ok fun _ hd => ⟨hw _ _, (he _ _).trans (word_I h hd (eq_of_beq c0) rfl)⟩

theorem vcvt_row {w : Word32} (h : fOp w = 0x20) :
    Yields (ap (ap (ap (ap (.ok Instr.vcvt) (dDst w)) (anySrc (fA w))) (cvtSrc (fB w))) (.ok (fX w))) (Spelled w) :=
  .val <| .app (cvtSrc_yields _) <| .app (anySrc_yields _) <| .app (dDst_yields w) <|
    .ok fun _ hd _ ha _ hst => ⟨hst.2, word_R h hd ha hst.1 rfl⟩

theorem dDst_anySrc_x0_row {op : BitVec 8} {w : Word32} (h : fOp w = op) {F : Dst → Src → Bool → Instr}
    (hw : ∀ d a nx, WellFormed (F d a nx) = true)
    (he : ∀ d a nx, encode (F d a nx) = some (mkR op (eDst d) (eSrc a) 0 (eBit nx))) :
    Yields (req (fB w == 0) .rsvbits (req (xIn w [0, 1]) .xval (ap (ap (ap (.ok F) (dDst w)) (anySrc (fA w))) (x0 w)))) (Spelled w) :=
  .req fun c0 => .req fun c1 => .val <| .app (anySrc_yields _) <| .app (dDst_yields w) <|
    .ok fun _ hd _ ha => ⟨hw _ _ _, (he _ _ _).trans (word_R h hd ha (eq_of_beq c0) (x_bit c1))⟩

theorem vcpys_row {w : Word32} (h : fOp w = 0x22) :
    Yields (req (xIn w [0]) .xval (req (drnOnce w) .src (ap (ap (ap (.ok Instr.vcpys) (dDst w)) (anySrc (fA w))) (anySrc (fB w))))) (Spelled w) :=
  .req fun c0 => .req fun c1 => .app (anySrc_yields _) <| .app (anySrc_yields _) <| .app (dDst_yields w) <|
    .ok fun _ hd _ ha _ hb => ⟨drnOk_of (b := .src _) c1 ha hb, word_R h hd ha hb (x_none c0)⟩

theorem vbcst_row {w : Word32} (h : fOp w = 0x2e) :
    Yields (req (xIn w [0]) .xval (ap (ap (ap (.ok Instr.vbcst) (dDst w)) (anySrc (fA w))) (scalarSrc (fB w)))) (Spelled w) :=
  .req fun c0 => .app (scalarSrc_yields _) <| .app (anySrc_yields _) <| .app (dDst_yields w) <|
    .ok fun _ hd _ ha _ hb => ⟨hb.2, word_R h hd ha hb.1 (x_none c0)⟩

theorem vslid_row {w : Word32} (h : fOp w = 0x2f) :
    Yields (req (xIn w [0, 1]) .xval (ap (ap (ap (ap (.ok Instr.vslid) (dDst w)) (anySrc (fA w))) (scalarSrc (fB w))) (x0 w))) (Spelled w) :=
  .req fun c0 => .val <| .app (scalarSrc_yields _) <| .app (anySrc_yields _) <| .app (dDst_yields w) <|
    .ok fun _ hd _ ha _ hb => ⟨hb.2, word_R h hd ha hb.1 (x_bit c0)⟩

theorem vred_row {w : Word32} (h : fOp w = 0x30) :
    Yields (req (xIn w [0, 1, 2, 3, 4, 5]) .xval (ap (ap (ap (ap (.ok Instr.vred) (dDst w)) (anySrc (fA w))) (scalarSrc (fB w))) (.ok (redOf (fX w)))))
      (Spelled w) :=
  .req fun c0 => .val <| .app (scalarSrc_yields _) <| .app (anySrc_yields _) <| .app (dDst_yields w) <|
    .ok fun _ hd _ ha _ hb => ⟨hb.2, word_R h hd ha hb.1 (x_red c0)⟩

theorem vscan_row {w : Word32} (h : fOp w = 0x31) :
    Yields (req (xIn w [0, 1, 2, 4, 5, 6]) .xval (ap (ap (ap (ap (ap (.ok Instr.vscan) (dDst w)) (anySrc (fA w))) (scalarSrc (fB w))) (.ok (ammOf (fX w &&& 3)))) (x2 w)))
      (Spelled w) :=
  .req fun c0 => .val <| .val <| .app (scalarSrc_yields _) <| .app (anySrc_yields _) <| .app (dDst_yields w) <|
    .ok fun _ hd _ ha _ hb => ⟨hb.2, word_R h hd ha hb.1 (x_scan c0)⟩

theorem dDst_scalarSrc_scalarSrc_row {op : BitVec 8} {w : Word32} (h : fOp w = op) {F : Dst → Src → Src → Instr}
    (hw : ∀ d a b, WellFormed (F d a b) = (scalarOk a && scalarOk b))
    (he : ∀ d a b, encode (F d a b) = some (mkR op (eDst d) (eSrc a) (eSrc b) 0)) :
    Yields (req (xIn w [0]) .xval (ap (ap (ap (.ok F) (dDst w)) (scalarSrc (fA w))) (scalarSrc (fB w)))) (Spelled w) :=
  .req fun c0 => .app (scalarSrc_yields _) <| .app (scalarSrc_yields _) <| .app (dDst_yields w) <|
    .ok fun _ hd _ ha _ hb => ⟨(hw _ _ _).trans (and_true ha.2 hb.2), (he _ _ _).trans (word_R h hd ha.1 hb.1 (x_none c0))⟩

theorem dDst_scalarSrc_scalarSrc_x0_row {op : BitVec 8} {w : Word32} (h : fOp w = op) {F : Dst → Src → Src → Bool → Instr}
    (hw : ∀ d a b u, WellFormed (F d a b u) = (scalarOk a && scalarOk b))
    (he : ∀ d a b u, encode (F d a b u) = some (mkR op (eDst d) (eSrc a) (eSrc b) (eBit u))) :
    Yields (req (xIn w [0, 1]) .xval (ap (ap (ap (ap (.ok F) (dDst w)) (scalarSrc (fA w))) (scalarSrc (fB w))) (x0 w))) (Spelled w) :=
  .req fun c0 => .val <| .app (scalarSrc_yields _) <| .app (scalarSrc_yields _) <| .app (dDst_yields w) <|
    .ok fun _ hd _ ha _ hb => ⟨(hw _ _ _ _).trans (and_true ha.2 hb.2), (he _ _ _ _).trans (word_R h hd ha.1 hb.1 (x_bit c0))⟩

theorem dDst_scalarSrc_row {op : BitVec 8} {w : Word32} (h : fOp w = op) {F : Dst → Src → Instr}
    (hw : ∀ d a, WellFormed (F d a) = scalarOk a)
    (he : ∀ d a, encode (F d a) = some (mkR op (eDst d) (eSrc a) 0 0)) :
    Yields (req (fB w == 0) .rsvbits (req (xIn w [0]) .xval (ap (ap (.ok F) (dDst w)) (scalarSrc (fA w))))) (Spelled w) :=
  .req fun c0 => .req fun c1 => .app (scalarSrc_yields _) <| .app (dDst_yields w) <|
    .ok fun _ hd _ ha => ⟨(hw _ _).trans ha.2, (he _ _).trans (word_R h hd ha.1 (eq_of_beq c0) (x_none c1))⟩

theorem scmp_row {w : Word32} (h : fOp w = 0x52) :
    Yields (ap (ap (ap (ap (.ok Instr.scmp) (dDst w)) (scalarSrc (fA w))) (scalarSrc (fB w))) (.ok (scondOf (fX w)))) (Spelled w) :=
  .val <| .app (scalarSrc_yields _) <| .app (scalarSrc_yields _) <| .app (dDst_yields w) <|
    .ok fun _ hd _ ha _ hb => ⟨and_true ha.2 hb.2, word_R h hd ha.1 hb.1 (x_scond w)⟩

theorem saddi_row {w : Word32} (h : fOp w = 0x55) :
    Yields (ap (ap (ap (.ok Instr.saddi) (dDst w)) (scalarSrc (fA w))) (.ok (fI w))) (Spelled w) :=
  .val <| .app (scalarSrc_yields _) <| .app (dDst_yields w) <|
    .ok fun _ hd _ ha => ⟨ha.2, word_I h hd ha.1 rfl⟩

theorem slea_row {w : Word32} (h : fOp w = 0x58) :
    Yields (ap (ap (ap (ap (.ok Instr.slea) (dDst w)) (scalarSrc (fA w))) (scalarSrc (fB w))) (.ok (fX w))) (Spelled w) :=
  .val <| .app (scalarSrc_yields _) <| .app (scalarSrc_yields _) <| .app (dDst_yields w) <|
    .ok fun _ hd _ ha _ hb => ⟨and_true ha.2 hb.2, word_R h hd ha.1 hb.1 rfl⟩

theorem sext_row {w : Word32} (h : fOp w = 0x59) :
    Yields (req (fB w == 0) .rsvbits (req (xIn w [0, 1, 2, 4, 5, 6]) .xval (ap (ap (ap (.ok Instr.sext) (dDst w)) (scalarSrc (fA w))) (.ok (extOf (fX w))))))
      (Spelled w) :=
  .req fun c0 => .req fun c1 => .val <| .app (scalarSrc_yields _) <| .app (dDst_yields w) <|
    .ok fun _ hd _ ha => ⟨ha.2, word_R h hd ha.1 (eq_of_beq c0) (x_ext c1)⟩

theorem long_row {op : BitVec 8} {w : Word32} (h : fOp w = op) {F : BitVec 24 → Instr}
    (hw : ∀ o, WellFormed (F o) = true)
    (he : ∀ o, encode (F o) = some (mkL op o)) :
    Yields (ap (.ok F) (.ok (fL w))) (Spelled w) :=
  .val <| .ok ⟨hw _, (he _).trans (word_L h rfl)⟩

theorem bReg_row {op : BitVec 8} {w : Word32} (h : fOp w = op) {F : BitVec 6 → Bool → BitVec 12 → Instr}
    (hw : ∀ c n o, WellFormed (F c n o) = true)
    (he : ∀ c n o, encode (F c n o) = some (mkB op (eReg c) n 0 o)) :
    Yields (req (fT w == 0) .rsvbits (ap (ap (ap (.ok F) (bReg w)) (.ok (fN w))) (.ok (fO w)))) (Spelled w) :=
  .req fun c0 => .val <| .val <| .app (bReg_yields w) <| .ok fun _ hc => ⟨hw _ _ _, (he _ _ _).trans (word_B h hc rfl (eq_of_beq c0) rfl)⟩

theorem bPred_row {op : BitVec 8} {w : Word32} (h : fOp w = op) {F : BitVec 5 → Bool → BitVec 4 → BitVec 12 → Instr}
    (hw : ∀ c n t o, WellFormed (F c n t o) = predOk c)
    (he : ∀ c n t o, encode (F c n t o) = some (mkB op (ePred c) n t o)) :
    Yields (ap (ap (ap (ap (.ok F) (bPred w)) (.ok (fN w))) (.ok (fT w))) (.ok (fO w))) (Spelled w) :=
  .val <| .val <| .val <| .app (bPred_yields w) <| .ok fun _ hc => ⟨(hw _ _ _ _).trans hc.2, (he _ _ _ _).trans (word_B h hc.1 rfl rfl rfl)⟩

theorem join_row {w : Word32} (h : fOp w = 0x64) :
    Yields (req (fD w == 0 && !(fN w) && fO w == 0) .rsvbits (ap (.ok Instr.join) (.ok (fT w)))) (Spelled w) :=
  .req fun c0 => .val <| .ok ⟨rfl, word_join h c0⟩

theorem call_row {w : Word32} (h : fOp w = 0x65) :
    Yields (ap (ap (.ok Instr.call) (.ok ((fL w).extractLsb' 20 4))) (.ok ((fL w).extractLsb' 0 20))) (Spelled w) :=
  .val <| .val <| .ok ⟨rfl, word_L h (append_extract (m := 4) (n := 20) (fL w))⟩

theorem uniformSrc_row {op : BitVec 8} {w : Word32} (h : fOp w = op) {F : Src → BitVec 4 → Instr}
    (hw : ∀ a k, WellFormed (F a k) = uniformOk a)
    (he : ∀ a k, encode (F a k) = some (mkI op 0 (eSrc a) (k.setWidth 10))) :
    Yields (req (fD w == 0) .rsvbits (req ((fI w).toNat < 16) .rsvbits (ap (ap (.ok F) (uniformSrc (fA w))) (.ok ((fI w).setWidth 4)))))
      (Spelled w) :=
  .req fun c0 => .req fun c1 => .val <| .app (uniformSrc_yields _) <|
    .ok fun _ ha => ⟨(hw _ _).trans ha.2, (he _ _).trans (word_I h (eq_of_beq c0) ha.1 (widen_back (of_decide_eq_true c1)))⟩

theorem ret_row {w : Word32} (h : fOp w = 0x67) :
    Yields (req ((fL w).toNat < 16) .rsvbits (ap (.ok Instr.ret) (.ok ((fL w).setWidth 4)))) (Spelled w) :=
  .req fun c0 => .val <| .ok ⟨rfl, word_L h (widen_back (of_decide_eq_true c0))⟩

theorem uniformSrc_byte_row {op : BitVec 8} {w : Word32} (h : fOp w = op) {F : Src → Instr}
    (hw : ∀ a, WellFormed (F a) = uniformOk a)
    (he : ∀ a, encode (F a) = some (mkR op 0 (eSrc a) 0 0)) :
    Yields (req (fD w == 0) .rsvbits (req (fB w == 0) .rsvbits (req (xIn w [0]) .xval (ap (.ok F) (uniformSrc (fA w)))))) (Spelled w) :=
  .req fun c0 => .req fun c1 => .req fun c2 => .app (uniformSrc_yields _) <|
    .ok fun _ ha => ⟨(hw _).trans ha.2, (he _).trans (word_R h (eq_of_beq c0) ha.1 (eq_of_beq c1) (x_none c2))⟩

theorem dPred_predSrc_predSrc_x0_row {op : BitVec 8} {w : Word32} (h : fOp w = op) {F : BitVec 5 → BitVec 5 → BitVec 5 → Bool → Instr}
    (hw : ∀ d a b n, WellFormed (F d a b n) = (predOk d && predOk a && predOk b))
    (he : ∀ d a b n, encode (F d a b n) = some (mkR op (ePred d) (ePred a) (ePred b) (eBit n))) :
    Yields (req (xIn w [0, 1]) .xval (ap (ap (ap (ap (.ok F) (dPred w)) (predSrc (fA w))) (predSrc (fB w))) (x0 w))) (Spelled w) :=
  .req fun c0 => .val <| .app (predSrc_yields _) <| .app (predSrc_yields _) <| .app (dPred_yields w) <|
    .ok fun _ hd _ ha _ hb => ⟨(hw _ _ _ _).trans (and_true (and_true hd.2 ha.2) hb.2), (he _ _ _ _).trans (word_R h hd.1 ha.1 hb.1 (x_bit c0))⟩

theorem dPred_predSrc_row {op : BitVec 8} {w : Word32} (h : fOp w = op) {F : BitVec 5 → BitVec 5 → Instr}
    (hw : ∀ d a, WellFormed (F d a) = (predOk d && predOk a))
    (he : ∀ d a, encode (F d a) = some (mkR op (ePred d) (ePred a) 0 0)) :
    Yields (req (fB w == 0) .rsvbits (req (xIn w [0]) .xval (ap (ap (.ok F) (dPred w)) (predSrc (fA w))))) (Spelled w) :=
  .req fun c0 => .req fun c1 => .app (predSrc_yields _) <| .app (dPred_yields w) <|
    .ok fun _ hd _ ha => ⟨(hw _ _).trans (and_true hd.2 ha.2), (he _ _).trans (word_R h hd.1 ha.1 (eq_of_beq c0) (x_none c1))⟩

theorem psetm_row {w : Word32} (h : fOp w = 0x75) :
    Yields (req (fB w == 0) .rsvbits (req (xIn w [0]) .xval (ap (ap (.ok Instr.psetm) (dPred w)) (uniformSrc (fA w))))) (Spelled w) :=
  .req fun c0 => .req fun c1 => .app (uniformSrc_yields _) <| .app (dPred_yields w) <|
    .ok fun _ hd _ ha => ⟨and_true hd.2 ha.2, word_R h hd.1 ha.1 (eq_of_beq c0) (x_none c1)⟩

theorem pgetm_row {w : Word32} (h : fOp w = 0x76) :
    Yields (req (fB w == 0) .rsvbits (req (xIn w [0, 1]) .xval (ap (ap (ap (.ok Instr.pgetm) (dReg w .rsvbits)) (predSrc (fA w))) (x0 w))))
      (Spelled w) :=
  .req fun c0 => .req fun c1 => .val <| .app (predSrc_yields _) <| .app (dReg_yields w _) <|
    .ok fun _ hd _ ha => ⟨ha.2, word_R h hd ha.1 (eq_of_beq c0) (x_bit c1)⟩

theorem dReg_predSrc_row {op : BitVec 8} {w : Word32} (h : fOp w = op) {F : BitVec 6 → BitVec 5 → Instr}
    (hw : ∀ d a, WellFormed (F d a) = predOk a)
    (he : ∀ d a, encode (F d a) = some (mkR op (eReg d) (ePred a) 0 0)) :
    Yields (req (fB w == 0) .rsvbits (req (xIn w [0]) .xval (ap (ap (.ok F) (dReg w .rsvbits)) (predSrc (fA w))))) (Spelled w) :=
  .req fun c0 => .req fun c1 => .app (predSrc_yields _) <| .app (dReg_yields w _) <|
    .ok fun _ hd _ ha => ⟨(hw _ _).trans ha.2, (he _ _).trans (word_R h hd ha.1 (eq_of_beq c0) (x_none c1))⟩

theorem dDst_laneSrc_uniformSrc_spaceOf_row {op : BitVec 8} {w : Word32} (h : fOp w = op) {F : Dst → Src → Src → Space → Instr}
    (hw : ∀ d a b x, WellFormed (F d a b x) = (laneOk a && uniformOk b))
    (he : ∀ d a b x, encode (F d a b x) = some (mkR op (eDst d) (eSrc a) (eSrc b) (eSpace x))) :
    Yields (req (xIn w [0, 1, 2, 3, 4]) .xval (ap (ap (ap (ap (.ok F) (dDst w)) (laneSrc (fA w))) (uniformSrc (fB w))) (.ok (spaceOf (fX w)))))
      (Spelled w) :=
  .req fun c0 => .val <| .app (uniformSrc_yields _) <| .app (laneSrc_yields _) <| .app (dDst_yields w) <|
    .ok fun _ hd _ ha _ hb => ⟨(hw _ _ _ _).trans (and_true ha.2 hb.2), (he _ _ _ _).trans (word_R h hd ha.1 hb.1 (x_space c0))⟩

theorem dReg_laneSrc_uniformSrc_spaceOf_row {op : BitVec 8} {w : Word32} (h : fOp w = op) {F : BitVec 6 → Src → Src → Space → Instr}
    (hw : ∀ d a b x, WellFormed (F d a b x) = (laneOk a && uniformOk b))
    (he : ∀ d a b x, encode (F d a b x) = some (mkR op (eReg d) (eSrc a) (eSrc b) (eSpace x))) :
    Yields (req (xIn w [0, 1, 2, 3, 4]) .xval (ap (ap (ap (ap (.ok F) (dReg w .src)) (laneSrc (fA w))) (uniformSrc (fB w))) (.ok (spaceOf (fX w)))))
      (Spelled w) :=
  .req fun c0 => .val <| .app (uniformSrc_yields _) <| .app (laneSrc_yields _) <| .app (dReg_yields w _) <|
    .ok fun _ hd _ ha _ hb => ⟨(hw _ _ _ _).trans (and_true ha.2 hb.2), (he _ _ _ _).trans (word_R h hd ha.1 hb.1 (x_space c0))⟩

theorem vldd_row {w : Word32} (h : fOp w = 0x84) :
    Yields (req (xIn w [0]) .xval (ap (ap (ap (.ok Instr.vldd) (dEven w)) (laneSrc (fA w))) (uniformSrc (fB w)))) (Spelled w) :=
  .req fun c0 => .app (uniformSrc_yields _) <| .app (laneSrc_yields _) <| .app (dEven_yields w) <|
    .ok fun _ hd _ ha _ hb => ⟨and_true ha.2 hb.2, word_R h hd ha.1 hb.1 (x_none c0)⟩

theorem sld_row {w : Word32} (h : fOp w = 0x85) :
    Yields (req (xIn w [0, 1]) .xval (ap (ap (ap (ap (.ok Instr.sld) (dDst w)) (uniformSrc (fA w))) (uniformSrc (fB w))) (x0 w))) (Spelled w) :=
  .req fun c0 => .val <| .app (uniformSrc_yields _) <| .app (uniformSrc_yields _) <| .app (dDst_yields w) <|
    .ok fun _ hd _ ha _ hb => ⟨and_true ha.2 hb.2, word_R h hd ha.1 hb.1 (x_bit c0)⟩

theorem sst_row {w : Word32} (h : fOp w = 0x86) :
    Yields (req (xIn w [0, 1]) .xval (ap (ap (ap (ap (.ok Instr.sst) (dReg w .src)) (uniformSrc (fA w))) (uniformSrc (fB w))) (x0 w))) (Spelled w) :=
  .req fun c0 => .val <| .app (uniformSrc_yields _) <| .app (uniformSrc_yields _) <| .app (dReg_yields w _) <|
    .ok fun _ hd _ ha _ hb => ⟨and_true ha.2 hb.2, word_R h hd ha.1 hb.1 (x_bit c0)⟩

theorem vldb_row {w : Word32} (h : fOp w = 0x87) :
    Yields (req (xIn w [0, 1, 2, 3, 4]) .xval (ap (ap (ap (ap (.ok Instr.vldb) (dDst w)) (uniformSrc (fA w))) (uniformSrc (fB w))) (.ok (spaceOf (fX w)))))
      (Spelled w) :=
  .req fun c0 => .val <| .app (uniformSrc_yields _) <| .app (uniformSrc_yields _) <| .app (dDst_yields w) <|
    .ok fun _ hd _ ha _ hb => ⟨and_true ha.2 hb.2, word_R h hd ha.1 hb.1 (x_space c0)⟩

theorem vstb_row {w : Word32} (h : fOp w = 0x88) :
    Yields (req (xIn w [0, 1, 2, 3, 4]) .xval (ap (ap (ap (ap (.ok Instr.vstb) (dReg w .src)) (uniformSrc (fA w))) (uniformSrc (fB w))) (.ok (spaceOf (fX w)))))
      (Spelled w) :=
  .req fun c0 => .val <| .app (uniformSrc_yields _) <| .app (uniformSrc_yields _) <| .app (dReg_yields w _) <|
    .ok fun _ hd _ ha _ hb => ⟨and_true ha.2 hb.2, word_R h hd ha.1 hb.1 (x_space c0)⟩

theorem ldds_row {w : Word32} (h : fOp w = 0x89) :
    Yields (req (xIn w [0]) .xval (ap (ap (ap (.ok Instr.ldds) (dDst w)) (laneSrc (fA w))) (uniformSrc (fB w)))) (Spelled w) :=
  .req fun c0 => .app (uniformSrc_yields _) <| .app (laneSrc_yields _) <| .app (dDst_yields w) <|
    .ok fun _ hd _ ha _ hb => ⟨and_true ha.2 hb.2, word_R h hd ha.1 hb.1 (x_none c0)⟩

theorem stds_row {w : Word32} (h : fOp w = 0x8a) :
    Yields (req (xIn w [0]) .xval (ap (ap (ap (.ok Instr.stds) (dReg w .src)) (laneSrc (fA w))) (uniformSrc (fB w)))) (Spelled w) :=
  .req fun c0 => .app (uniformSrc_yields _) <| .app (laneSrc_yields _) <| .app (dReg_yields w _) <|
    .ok fun _ hd _ ha _ hb => ⟨and_true ha.2 hb.2, word_R h hd ha.1 hb.1 (x_none c0)⟩

theorem vgath_row {w : Word32} (h : fOp w = 0x8b) :
    Yields (req (xIn w [0, 1, 2, 3, 4]) .xval (ap (ap (ap (ap (.ok Instr.vgath) (dDst w)) (regRun (fA w) 1)) (uniformSrc (fB w))) (.ok (spaceOf (fX w)))))
      (Spelled w) :=
  .req fun c0 => .val <| .app (uniformSrc_yields _) <| .app (regRun_yields (by decide)) <| .app (dDst_yields w) <|
    .ok fun _ hd _ ha _ hb => ⟨hb.2, word_R h hd ha.1 hb.1 (x_space c0)⟩

theorem dDst_laneSrc_laneSrc_atomOf_row {op : BitVec 8} {w : Word32} (h : fOp w = op) {F : Dst → Src → Src → AtomOp → Instr}
    (hw : ∀ d a b p, WellFormed (F d a b p) = (laneOk a && laneOk b))
    (he : ∀ d a b p, encode (F d a b p) = some (mkR op (eDst d) (eSrc a) (eSrc b) (eAtom p))) :
    Yields (ap (ap (ap (ap (.ok F) (dDst w)) (laneSrc (fA w))) (laneSrc (fB w))) (.ok (atomOf (fX w)))) (Spelled w) :=
  .val <| .app (laneSrc_yields _) <| .app (laneSrc_yields _) <| .app (dDst_yields w) <|
    .ok fun _ hd _ ha _ hb => ⟨(hw _ _ _ _).trans (and_true ha.2 hb.2), (he _ _ _ _).trans (word_R h hd ha.1 hb.1 (x_atom w))⟩

theorem atomf_row {w : Word32} (h : fOp w = 0x8e) :
    Yields (req (xIn w [0, 1, 2]) .xval (ap (ap (ap (ap (.ok Instr.atomf) (dDst w)) (laneSrc (fA w))) (laneSrc (fB w))) (.ok (ammOf (fX w)))))
      (Spelled w) :=
  .req fun c0 => .val <| .app (laneSrc_yields _) <| .app (laneSrc_yields _) <| .app (dDst_yields w) <|
    .ok fun _ hd _ ha _ hb => ⟨and_true ha.2 hb.2, word_R h hd ha.1 hb.1 (x_amm c0)⟩

theorem atomo_row {w : Word32} (h : fOp w = 0x8f) :
    Yields (req (fD w == 0) .rsvbits (req (xIn w [0]) .xval (ap (ap (.ok Instr.atomo) (laneSrc (fA w))) (laneSrc (fB w))))) (Spelled w) :=
  .req fun c0 => .req fun c1 => .app (laneSrc_yields _) <| .app (laneSrc_yields _) <|
    .ok fun _ ha _ hb => ⟨and_true ha.2 hb.2, word_R h (eq_of_beq c0) ha.1 hb.1 (x_none c1)⟩

theorem waitc_row {w : Word32} (h : fOp w = 0x91) :
    Yields (req (fD w == 0) .rsvbits (req (fA w == 0) .rsvbits (ap (.ok Instr.waitc) (.ok (fI w))))) (Spelled w) :=
  .req fun c0 => .req fun c1 => .val <| .ok ⟨rfl, word_I h (eq_of_beq c0) (eq_of_beq c1) rfl⟩

theorem waitv_row {w : Word32} (h : fOp w = 0x92) :
    Yields (req (fI w == 0) .rsvbits (ap (ap (.ok Instr.waitv) (dReg w .src)) (uniformSrc (fA w)))) (Spelled w) :=
  .req fun c0 => .app (uniformSrc_yields _) <| .app (dReg_yields w _) <|
    .ok fun _ hd _ ha => ⟨ha.2, word_I h hd ha.1 (eq_of_beq c0)⟩

theorem scopeOf_row {op : BitVec 8} {w : Word32} (h : fOp w = op) {F : Scope → Instr}
    (hw : ∀ sc, WellFormed (F sc) = true)
    (he : ∀ sc, encode (F sc) = some (mkR op 0 0 0 (eScope sc))) :
    Yields (req (fD w == 0) .rsvbits (req (fA w == 0) .rsvbits (req (fB w == 0) .rsvbits (req (xIn w [0, 1, 2, 3, 4]) .xval (ap (.ok F) (.ok (scopeOf (fX w))))))))
      (Spelled w) :=
  .req fun c0 => .req fun c1 => .req fun c2 => .req fun c3 => .val <|
    .ok ⟨hw _, (he _).trans (word_R h (eq_of_beq c0) (eq_of_beq c1) (eq_of_beq c2) (x_scope c3))⟩

theorem pref_row {w : Word32} (h : fOp w = 0x95) :
    Yields (req (fD w == 0) .rsvbits (req (xIn w [0]) .xval (ap (ap (.ok Instr.pref) (laneSrc (fA w))) (uniformSrc (fB w))))) (Spelled w) :=
  .req fun c0 => .req fun c1 => .app (uniformSrc_yields _) <| .app (laneSrc_yields _) <|
    .ok fun _ ha _ hb => ⟨and_true ha.2 hb.2, word_R h (eq_of_beq c0) ha.1 hb.1 (x_none c1)⟩

theorem dDst_laneSrc_uniformSrc_x0_row {op : BitVec 8} {w : Word32} (h : fOp w = op) {F : Dst → Src → Src → Bool → Instr}
    (hw : ∀ d a b hi, WellFormed (F d a b hi) = (laneOk a && uniformOk b))
    (he : ∀ d a b hi, encode (F d a b hi) = some (mkR op (eDst d) (eSrc a) (eSrc b) (eBit hi))) :
    Yields (req (xIn w [0, 1]) .xval (ap (ap (ap (ap (.ok F) (dDst w)) (laneSrc (fA w))) (uniformSrc (fB w))) (x0 w))) (Spelled w) :=
  .req fun c0 => .val <| .app (uniformSrc_yields _) <| .app (laneSrc_yields _) <| .app (dDst_yields w) <|
    .ok fun _ hd _ ha _ hb => ⟨(hw _ _ _ _).trans (and_true ha.2 hb.2), (he _ _ _ _).trans (word_R h hd ha.1 hb.1 (x_bit c0))⟩

theorem cpa_row {w : Word32} (h : fOp w = 0x98) :
    Yields (ap (ap (ap (ap (.ok Instr.cpa) (dReg w .src)) (laneSrc (fA w))) (laneSrc (fB w))) (.ok (fX w))) (Spelled w) :=
  .val <| .app (laneSrc_yields _) <| .app (laneSrc_yields _) <| .app (dReg_yields w _) <|
    .ok fun _ hd _ ha _ hb => ⟨and_true ha.2 hb.2, word_R h hd ha.1 hb.1 rfl⟩

theorem cpwt_row {w : Word32} (h : fOp w = 0x99) :
    Yields (req (fD w == 0) .rsvbits (req (fA w == 0) .rsvbits (ap (ap (.ok Instr.cpwt) (.ok ((fI w).extractLsb' 3 7))) (.ok ((fI w).extractLsb' 0 3)))))
      (Spelled w) :=
  .req fun c0 => .req fun c1 => .val <| .val <| .ok ⟨rfl, word_I h (eq_of_beq c0) (eq_of_beq c1) (append_extract (m := 7) (n := 3) (fI w))⟩

theorem uniformSrc_uniformSrc_row {op : BitVec 8} {w : Word32} (h : fOp w = op) {F : Src → Src → Instr}
    (hw : ∀ a b, WellFormed (F a b) = (uniformOk a && uniformOk b))
    (he : ∀ a b, encode (F a b) = some (mkR op 0 (eSrc a) (eSrc b) 0)) :
    Yields (req (fD w == 0) .rsvbits (req (xIn w [0]) .xval (ap (ap (.ok F) (uniformSrc (fA w))) (uniformSrc (fB w))))) (Spelled w) :=
  .req fun c0 => .req fun c1 => .app (uniformSrc_yields _) <| .app (uniformSrc_yields _) <|
    .ok fun _ ha _ hb => ⟨(hw _ _).trans (and_true ha.2 hb.2), (he _ _).trans (word_R h (eq_of_beq c0) ha.1 hb.1 (x_none c1))⟩

theorem tladv_row {w : Word32} (h : fOp w = 0xa5) :
    Yields (req (fD w == 0) .rsvbits (req (4 ≤ (fI w).toNat % 16) .xval (req ((fI w).toNat < 16) .rsvbits (ap (ap (.ok Instr.tladv) (uniformSrc (fA w))) (.ok ((fI w).setWidth 4))))))
      (Spelled w) :=
  .req fun c0 => .req fun c1 => .req fun c2 => .val <| .app (uniformSrc_yields _) <|
    .ok fun _ ha => ⟨and_true ha.2 (low_four c1), word_I h (eq_of_beq c0) ha.1 (widen_back (of_decide_eq_true c2))⟩

theorem tlget_row {w : Word32} (h : fOp w = 0xa6) :
    Yields (req (fA w == 0) .rsvbits (req ((fI w).extractLsb' 4 2 != 3) .xval (req ((fI w).toNat < 64) .rsvbits (ap (ap (ap (.ok Instr.tlget) (dDst w)) (.ok (tlSelOf ((fI w).extractLsb' 4 2)))) (.ok ((fI w).setWidth 4))))))
      (Spelled w) :=
  .req fun c0 => .req fun c1 => .req fun c2 => .val <| .val <| .app (dDst_yields w) <|
    .ok fun _ hd => ⟨rfl, word_I h hd (eq_of_beq c0) (selector_of c1 c2)⟩

theorem mma_row {w : Word32} (h : fOp w = 0xb0) :
    Yields (req (xIn w [0]) .xval (ap (ap (ap (.ok Instr.mma) (dReg w .src)) (regRun (fA w) 2)) (regRun (fB w) 2))) (Spelled w) :=
  .req fun c0 => .app (regRun_yields (by decide)) <| .app (regRun_yields (by decide)) <| .app (dReg_yields w _) <|
    .ok fun _ hd _ ha _ hb => ⟨and_true ha.2 hb.2, word_R h hd ha.1 hb.1 (x_none c0)⟩

theorem dRun_regRun_regRun_row {op : BitVec 8} {w : Word32} (h : fOp w = op) {F : BitVec 6 → BitVec 6 → BitVec 6 → Instr}
    (hw : ∀ d a b, WellFormed (F d a b) = (runOk d 2 && runOk a 2 && runOk b 2))
    (he : ∀ d a b, encode (F d a b) = some (mkR op (eReg d) (eReg a) (eReg b) 0)) :
    Yields (req (xIn w [0]) .xval (ap (ap (ap (.ok F) (dRun w 2)) (regRun (fA w) 2)) (regRun (fB w) 2))) (Spelled w) :=
  .req fun c0 => .app (regRun_yields (by decide)) <| .app (regRun_yields (by decide)) <| .app (regRun_yields (by decide)) <|
    .ok fun _ hd _ ha _ hb => ⟨(hw _ _ _).trans (and_true (and_true hd.2 ha.2) hb.2), (he _ _ _).trans (word_R h hd.1 ha.1 hb.1 (x_none c0))⟩

theorem mconvl_row {w : Word32} (h : fOp w = 0xb3) :
    Yields (req (xIn w [0]) .xval (ap (ap (ap (.ok Instr.mconvl) (dRun w 3)) (regRun (fA w) 2)) (regRun (fB w) 2))) (Spelled w) :=
  .req fun c0 => .app (regRun_yields (by decide)) <| .app (regRun_yields (by decide)) <| .app (regRun_yields (by decide)) <|
    .ok fun _ hd _ ha _ hb => ⟨and_true (and_true hd.2 ha.2) hb.2, word_R h hd.1 ha.1 hb.1 (x_none c0)⟩

theorem dReg_uniformSrc_uniformSrc_row {op : BitVec 8} {w : Word32} (h : fOp w = op) {F : BitVec 6 → Src → Src → BitVec 2 → Instr}
    (hw : ∀ d a b x, WellFormed (F d a b x) = (uniformOk a && uniformOk b))
    (he : ∀ d a b x, encode (F d a b x) = some (mkR op (eReg d) (eSrc a) (eSrc b) (x.setWidth 3))) :
    Yields (req (xIn w [0, 1, 2, 3]) .xval (ap (ap (ap (ap (.ok F) (dReg w .src)) (uniformSrc (fA w))) (uniformSrc (fB w))) (.ok ((fX w).setWidth 2))))
      (Spelled w) :=
  .req fun c0 => .val <| .app (uniformSrc_yields _) <| .app (uniformSrc_yields _) <| .app (dReg_yields w _) <|
    .ok fun _ hd _ ha _ hb => ⟨(hw _ _ _ _).trans (and_true ha.2 hb.2), (he _ _ _ _).trans (word_R h hd ha.1 hb.1 (x_pair c0))⟩

theorem mqry_row {w : Word32} (h : fOp w = 0xb8) :
    Yields (req (fA w == 0) .rsvbits (req (fB w == 0) .rsvbits (req (xIn w [0, 1, 2]) .xval (ap (ap (.ok Instr.mqry) (dReg w .src)) (.ok (mqOf (fX w)))))))
      (Spelled w) :=
  .req fun c0 => .req fun c1 => .req fun c2 => .val <| .app (dReg_yields w _) <|
    .ok fun _ hd => ⟨rfl, word_R h hd (eq_of_beq c0) (eq_of_beq c1) (x_mq c2)⟩

theorem fields_zero_row {op : BitVec 8} {w : Word32} (h : fOp w = op) {F : Instr}
    (hw : WellFormed F = true)
    (he : encode F = some (mkR op 0 0 0 0)) :
    Yields (req (fD w == 0) .rsvbits (req (fA w == 0) .rsvbits (req (fB w == 0) .rsvbits (req (xIn w [0]) .xval (.ok F))))) (Spelled w) :=
  .req fun c0 => .req fun c1 => .req fun c2 => .req fun c3 => .ok ⟨hw, he.trans (word_R h (eq_of_beq c0) (eq_of_beq c1) (eq_of_beq c2) (x_none c3))⟩

theorem dCell_regRun_row {op : BitVec 8} {w : Word32} (h : fOp w = op) {F : BitVec 5 → BitVec 6 → Instr}
    (hw : ∀ d a, WellFormed (F d a) = runOk a 6)
    (he : ∀ d a, encode (F d a) = some (mkR op (eCell d) (eReg a) 0 0)) :
    Yields (req (fB w == 0) .rsvbits (req (xIn w [0]) .xval (ap (ap (.ok F) (dCell w 32)) (regRun (fA w) 6)))) (Spelled w) :=
  .req fun c0 => .req fun c1 => .app (regRun_yields (by decide)) <| .app (dCell_yields (by decide)) <|
    .ok fun _ hd _ ha => ⟨(hw _ _).trans ha.2, (he _ _).trans (word_R h hd.1 ha.1 (eq_of_beq c0) (x_none c1))⟩

theorem pllin_row {w : Word32} (h : fOp w = 0xc5) :
    Yields (req (fB w == 0) .rsvbits (req (xIn w [0]) .xval (ap (ap (.ok Instr.pllin) (dCell w 32)) (regRun (fA w) 3)))) (Spelled w) :=
  .req fun c0 => .req fun c1 => .app (regRun_yields (by decide)) <| .app (dCell_yields (by decide)) <|
    .ok fun _ hd _ ha => ⟨ha.2, word_R h hd.1 ha.1 (eq_of_beq c0) (x_none c1)⟩

theorem dCell_cellSrc_cellBOf_row {op : BitVec 8} {w : Word32} (h : fOp w = op) {F : BitVec 5 → CellSrc → CellSrcB → Instr}
    (hw : ∀ d a b, WellFormed (F d a b) = true)
    (he : ∀ d a b, encode (F d a b) = some (mkR op (eCell d) (eCellSrc a) (eCellB b) (eBcCell b))) :
    Yields (req (xIn w [0, 4]) .xval (ap (ap (ap (.ok F) (dCell w 32)) (cellSrc (fA w))) (cellBOf w))) (Spelled w) :=
  .req fun c0 => .app (cellBOf_yields w) <| .app (cellSrc_yields _) <| .app (dCell_yields (by decide)) <|
    .ok fun _ hd _ ha _ hb => ⟨hw _ _ _, (he _ _ _).trans (word_R h hd.1 ha hb.1 (x_bcastCell c0 hb.2))⟩

theorem plmov_row {w : Word32} (h : fOp w = 0xcb) :
    Yields (req (fB w == 0) .rsvbits (req (xIn w [0]) .xval (ap (ap (.ok Instr.plmov) (dCell w 32)) (cellSrc (fA w))))) (Spelled w) :=
  .req fun c0 => .req fun c1 => .app (cellSrc_yields _) <| .app (dCell_yields (by decide)) <|
    .ok fun _ hd _ ha => ⟨rfl, word_R h hd.1 ha (eq_of_beq c0) (x_none c1)⟩

theorem plcmp_row {w : Word32} (h : fOp w = 0xcc) :
    Yields (req (fD w == 0) .rsvbits (ap (ap (ap (.ok Instr.plcmp) (cellSrc (fA w))) (cellSrc (fB w))) (.ok (vcondOf (fX w))))) (Spelled w) :=
  .req fun c0 => .val <| .app (cellSrc_yields _) <| .app (cellSrc_yields _) <|
    .ok fun _ ha _ hb => ⟨rfl, word_R h (eq_of_beq c0) ha hb (x_vcond w)⟩

theorem plshf_row {w : Word32} (h : fOp w = 0xd1) :
    Yields (req (fB w == 0) .rsvbits (ap (ap (ap (ap (.ok Instr.plshf) (dCell w 32)) (cellSrc (fA w))) (x2 w)) (.ok (dirOf (fX w &&& 3)))))
      (Spelled w) :=
  .req fun c0 => .val <| .val <| .app (cellSrc_yields _) <| .app (dCell_yields (by decide)) <|
    .ok fun _ hd _ ha => ⟨rfl, word_R h hd.1 ha (eq_of_beq c0) (x_dir w)⟩

theorem dCell_uniformSrc_uniformSrc_x0_row {op : BitVec 8} {w : Word32} (h : fOp w = op) {F : BitVec 5 → Src → Src → Bool → Instr}
    (hw : ∀ d a b spm, WellFormed (F d a b spm) = (uniformOk a && uniformOk b))
    (he : ∀ d a b spm, encode (F d a b spm) = some (mkR op (eCell d) (eSrc a) (eSrc b) (eBit spm))) :
    Yields (req (xIn w [0, 1]) .xval (ap (ap (ap (ap (.ok F) (dCell w 32)) (uniformSrc (fA w))) (uniformSrc (fB w))) (x0 w))) (Spelled w) :=
  .req fun c0 => .val <| .app (uniformSrc_yields _) <| .app (uniformSrc_yields _) <| .app (dCell_yields (by decide)) <|
    .ok fun _ hd _ ha _ hb => ⟨(hw _ _ _ _).trans (and_true ha.2 hb.2), (he _ _ _ _).trans (word_R h hd.1 ha.1 hb.1 (x_bit c0))⟩

theorem plred_row {w : Word32} (h : fOp w = 0xd4) :
    Yields (req (xIn w [0, 1, 2]) .xval (ap (ap (ap (ap (.ok Instr.plred) (dReg w .src)) (cellSrc (fA w))) (uniformSrc (fB w))) (.ok (ammOf (fX w)))))
      (Spelled w) :=
  .req fun c0 => .val <| .app (uniformSrc_yields _) <| .app (cellSrc_yields _) <| .app (dReg_yields w _) <|
    .ok fun _ hd _ ha _ hb => ⟨hb.2, word_R h hd ha hb.1 (x_amm c0)⟩

theorem plexc_row {w : Word32} (h : fOp w = 0xd5) :
    Yields (req (fB w == 0) .rsvbits (req (xIn w [0, 1]) .xval (ap (ap (ap (.ok Instr.plexc) (dReg w .src)) (uniformSrc (fA w))) (x0 w))))
      (Spelled w) :=
  .req fun c0 => .req fun c1 => .val <| .app (uniformSrc_yields _) <| .app (dReg_yields w _) <|
    .ok fun _ hd _ ha => ⟨ha.2, word_R h hd ha.1 (eq_of_beq c0) (x_bit c1)⟩

theorem plvis_row {w : Word32} (h : fOp w = 0xd6) :
    Yields (req (fD w == 0) .rsvbits (req (xIn w [0, 1]) .xval (ap (ap (ap (.ok Instr.plvis) (cellSrc (fA w))) (regRun (fB w) 1)) (x0 w))))
      (Spelled w) :=
  .req fun c0 => .req fun c1 => .val <| .app (regRun_yields (by decide)) <| .app (cellSrc_yields _) <|
    .ok fun _ ha _ hb => ⟨rfl, word_R h (eq_of_beq c0) ha hb.1 (x_bit c1)⟩

theorem plbld_row {w : Word32} (h : fOp w = 0xd7) :
    Yields (req (xIn w [0]) .xval (ap (ap (ap (.ok Instr.plbld) (dCell w 29)) (cellSrc (fA w))) (regRun (fB w) 2))) (Spelled w) :=
  .req fun c0 => .app (regRun_yields (by decide)) <| .app (cellSrc_yields _) <| .app (dCell_yields (by decide)) <|
    .ok fun _ hd _ ha _ hb => ⟨and_true (decide_eq_true (Nat.le_of_lt_succ hd.2)) hb.2, word_R h hd.1 ha hb.1 (x_none c0)⟩

theorem plflg_row {w : Word32} (h : fOp w = 0xd9) :
    Yields (req (fA w == 0) .rsvbits (req (fB w == 0) .rsvbits (req (xIn w [0, 1]) .xval (ap (ap (.ok Instr.plflg) (dReg w .src)) (x0 w)))))
      (Spelled w) :=
  .req fun c0 => .req fun c1 => .req fun c2 => .val <| .app (dReg_yields w _) <|
    .ok fun _ hd => ⟨rfl, word_R h hd (eq_of_beq c0) (eq_of_beq c1) (x_bit c2)⟩

theorem plsfn_row {w : Word32} (h : fOp w = 0xda) :
    Yields (req (fB w == 0) .rsvbits (ap (ap (ap (.ok Instr.plsfn) (dCell w 32)) (cellSrc (fA w))) (.ok (fnOf (fX w))))) (Spelled w) :=
  .req fun c0 => .val <| .app (cellSrc_yields _) <| .app (dCell_yields (by decide)) <|
    .ok fun _ hd _ ha => ⟨rfl, word_R h hd.1 ha (eq_of_beq c0) (x_fn w)⟩

theorem plclr_row {w : Word32} (h : fOp w = 0xdb) :
    Yields (req ((fL w).toNat < 32) .rsvbits (ap (.ok Instr.plclr) (.ok ((fL w).setWidth 5)))) (Spelled w) :=
  .req fun c0 => .val <| .ok ⟨rfl, word_L h (widen_back (of_decide_eq_true c0))⟩

theorem dReg_uniformSrc_row {op : BitVec 8} {w : Word32} (h : fOp w = op) {F : BitVec 6 → Src → Instr}
    (hw : ∀ d a, WellFormed (F d a) = uniformOk a)
    (he : ∀ d a, encode (F d a) = some (mkR op (eReg d) (eSrc a) 0 0)) :
    Yields (req (fB w == 0) .rsvbits (req (xIn w [0]) .xval (ap (ap (.ok F) (dReg w .src)) (uniformSrc (fA w))))) (Spelled w) :=
  .req fun c0 => .req fun c1 => .app (uniformSrc_yields _) <| .app (dReg_yields w _) <|
    .ok fun _ hd _ ha => ⟨(hw _ _).trans ha.2, (he _ _).trans (word_R h hd ha.1 (eq_of_beq c0) (x_none c1))⟩

theorem dReg_uniformSrc_uniformSrc_byte_row {op : BitVec 8} {w : Word32} (h : fOp w = op) {F : BitVec 6 → Src → Src → Instr}
    (hw : ∀ d a b, WellFormed (F d a b) = (uniformOk a && uniformOk b))
    (he : ∀ d a b, encode (F d a b) = some (mkR op (eReg d) (eSrc a) (eSrc b) 0)) :
    Yields (req (xIn w [0]) .xval (ap (ap (ap (.ok F) (dReg w .src)) (uniformSrc (fA w))) (uniformSrc (fB w)))) (Spelled w) :=
  .req fun c0 => .app (uniformSrc_yields _) <| .app (uniformSrc_yields _) <| .app (dReg_yields w _) <|
    .ok fun _ hd _ ha _ hb => ⟨(hw _ _ _).trans (and_true ha.2 hb.2), (he _ _ _).trans (word_R h hd ha.1 hb.1 (x_none c0))⟩

theorem hwait_row {w : Word32} (h : fOp w = 0xe5) :
    Yields (req (fB w == 0) .rsvbits (req (xIn w [0]) .xval (ap (ap (.ok Instr.hwait) (dRun w 2)) (uniformSrc (fA w))))) (Spelled w) :=
  .req fun c0 => .req fun c1 => .app (uniformSrc_yields _) <| .app (regRun_yields (by decide)) <|
    .ok fun _ hd _ ha => ⟨and_true hd.2 ha.2, word_R h hd.1 ha.1 (eq_of_beq c0) (x_none c1)⟩

theorem hres_row {w : Word32} (h : fOp w = 0xe6) :
    Yields (req (fD w == 0) .rsvbits (req (fB w == 0) .rsvbits (req (xIn w [0, 1]) .xval (ap (ap (.ok Instr.hres) (uniformSrc (fA w))) (x0 w)))))
      (Spelled w) :=
  .req fun c0 => .req fun c1 => .req fun c2 => .val <| .app (uniformSrc_yields _) <|
    .ok fun _ ha => ⟨ha.2, word_R h (eq_of_beq c0) ha.1 (eq_of_beq c1) (x_bit c2)⟩

theorem vgqry_row {w : Word32} (h : fOp w = 0xeb) :
    Yields (req (fB w == 0) .rsvbits (req (xIn w [0, 1, 2, 3]) .xval (ap (ap (ap (.ok Instr.vgqry) (dReg w .src)) (uniformSrc (fA w))) (.ok (vgOf (fX w))))))
      (Spelled w) :=
  .req fun c0 => .req fun c1 => .val <| .app (uniformSrc_yields _) <| .app (dReg_yields w _) <|
    .ok fun _ hd _ ha => ⟨ha.2, word_R h hd ha.1 (eq_of_beq c0) (x_vg c1)⟩

theorem modeValue_row {op : BitVec 8} {w : Word32} (h : fOp w = op) {F : BitVec 14 → Instr}
    (hw : ∀ i, WellFormed (F i) = modeLegal i)
    (he : ∀ i, encode (F i) = some (mkL op (i.setWidth 24))) :
    Yields (req ((fL w).toNat < 16384 && modeLegal ((fL w).setWidth 14)) .modeval (ap (.ok F) (.ok ((fL w).setWidth 14)))) (Spelled w) :=
  .req fun c0 => .val <| .ok ⟨(hw _).trans ((Bool.and_eq_true_iff.1 c0).2), (he _).trans (word_L h (widen_back (of_decide_eq_true (Bool.and_eq_true_iff.1 c0).1)))⟩

theorem getc_row {w : Word32} (h : fOp w = 0xf2) :
    Yields (req (fA w == 0) .rsvbits (req ((fI w).toNat < 30) .creg (ap (ap (.ok Instr.getc) (dDst w)) (.ok (fI w))))) (Spelled w) :=
  .req fun c0 => .req fun c1 => .val <| .app (dDst_yields w) <|
    .ok fun _ hd => ⟨c1, word_I h hd (eq_of_beq c0) rfl⟩

theorem setc_row {w : Word32} (h : fOp w = 0xf3) :
    Yields (req (fD w == 0) .rsvbits (req ((fI w).toNat < 30) .creg (ap (ap (.ok Instr.setc) (uniformSrc (fA w))) (.ok (fI w))))) (Spelled w) :=
  .req fun c0 => .req fun c1 => .val <| .app (uniformSrc_yields _) <|
    .ok fun _ ha => ⟨and_true ha.2 c1, word_I h (eq_of_beq c0) ha.1 rfl⟩

theorem timer_row {w : Word32} (h : fOp w = 0xf4) :
    Yields (req (fA w == 0) .rsvbits (req (fB w == 0) .rsvbits (req (xIn w [0, 1]) .xval (ap (ap (.ok Instr.timer) (dDst w)) (.ok (timerOf (fX w)))))))
      (Spelled w) :=
  .req fun c0 => .req fun c1 => .req fun c2 => .val <| .app (dDst_yields w) <|
    .ok fun _ hd => ⟨rfl, word_R h hd (eq_of_beq c0) (eq_of_beq c1) (x_timer c2)⟩

theorem ckpt_row {w : Word32} (h : fOp w = 0xf5) :
    Yields (req (fB w == 0) .rsvbits (req (xIn w [0, 1]) .xval (req (fX w != 1 || fA w == 0) .rsvbits (ap (ap (ap (.ok Instr.ckpt) (dDst w)) (uniformSrc (fA w))) (x0 w)))))
      (Spelled w) :=
  .req fun c0 => .req fun c1 => .req fun c2 => .val <| .app (uniformSrc_yields _) <| .app (dDst_yields w) <|
    .ok fun _ hd _ ha => ⟨and_true ha.2 (query_zero c1 c2 ha.1), word_R h hd ha.1 (eq_of_beq c0) (x_bit c1)⟩

/-! ## The opcode map by family -/

theorem vector_rows {w : Word32} {op : Nat} (lo : 0x00 ≤ op) (hi : op ≤ 0x32) (h : fOp w = BitVec.ofNat 8 op) :
    Yields (decodeOp op w) (Spelled w) := by
  interval_cases op
  · exact ill_row h
  · exact long_zero_row h rfl rfl
  · exact dDst_anySrc_srcBOf_row h (fun _ _ _ => rfl) fun _ _ _ => rfl
  · exact dDst_anySrc_srcBOf_row h (fun _ _ _ => rfl) fun _ _ _ => rfl
  · exact dDst_anySrc_srcBOf_row h (fun _ _ _ => rfl) fun _ _ _ => rfl
  · exact dDst_anySrc_srcBOf_row h (fun _ _ _ => rfl) fun _ _ _ => rfl
  · exact dDst_anySrc_srcBOf_row h (fun _ _ _ => rfl) fun _ _ _ => rfl
  · exact dDst_anySrc_srcBOf_row h (fun _ _ _ => rfl) fun _ _ _ => rfl
  · exact dDst_anySrc_srcBOf_row h (fun _ _ _ => rfl) fun _ _ _ => rfl
  · exact dDst_anySrc_row h (fun _ _ => rfl) fun _ _ => rfl
  · exact dDst_anySrc_row h (fun _ _ => rfl) fun _ _ => rfl
  · exact dDst_anySrc_srcBOf_row h (fun _ _ _ => rfl) fun _ _ _ => rfl
  · exact dDst_anySrc_srcBOf_row h (fun _ _ _ => rfl) fun _ _ _ => rfl
  · exact dDst_anySrc_srcBOf_row h (fun _ _ _ => rfl) fun _ _ _ => rfl
  · exact dDst_anySrc_srcBOf_row h (fun _ _ _ => rfl) fun _ _ _ => rfl
  · exact dDst_anySrc_row h (fun _ _ => rfl) fun _ _ => rfl
  · exact dDst_anySrc_srcBOf_row h (fun _ _ _ => rfl) fun _ _ _ => rfl
  · exact dDst_anySrc_srcBOf_x0_row h (fun _ _ _ _ => rfl) fun _ _ _ _ => rfl
  · exact dDst_anySrc_srcBOf_row h (fun _ _ _ => rfl) fun _ _ _ => rfl
  · exact dDst_anySrc_row h (fun _ _ => rfl) fun _ _ => rfl
  · exact dDst_anySrc_row h (fun _ _ => rfl) fun _ _ => rfl
  · exact dDst_anySrc_srcBOf_row h (fun _ _ _ => rfl) fun _ _ _ => rfl
  · exact dDst_anySrc_srcBOf_row h (fun _ _ _ => rfl) fun _ _ _ => rfl
  · exact vcmp_row h
  · exact dDst_anySrc_srcBOf_row h (fun _ _ _ => rfl) fun _ _ _ => rfl
  · exact dDst_anySrc_row h (fun _ _ => rfl) fun _ _ => rfl
  · exact vaddi_row h
  · exact dDst_row h (fun _ _ => rfl) fun _ _ => rfl
  · exact dDst_anySrc_srcBOf_row h (fun _ _ _ => rfl) fun _ _ _ => rfl
  · exact dDst_anySrc_row h (fun _ _ => rfl) fun _ _ => rfl
  · exact dDst_anySrc_srcBOf_x0_row h (fun _ _ _ _ => rfl) fun _ _ _ _ => rfl
  · exact dDst_anySrc_srcBOf_x0_row h (fun _ _ _ _ => rfl) fun _ _ _ _ => rfl
  · exact vcvt_row h
  · exact dDst_anySrc_x0_row h (fun _ _ _ => rfl) fun _ _ _ => rfl
  · exact vcpys_row h
  · exact dDst_anySrc_row h (fun _ _ => rfl) fun _ _ => rfl
  · exact dDst_anySrc_row h (fun _ _ => rfl) fun _ _ => rfl
  · exact dDst_anySrc_row h (fun _ _ => rfl) fun _ _ => rfl
  · exact dDst_anySrc_row h (fun _ _ => rfl) fun _ _ => rfl
  · exact dDst_anySrc_srcBOf_row h (fun _ _ _ => rfl) fun _ _ _ => rfl
  · exact dDst_anySrc_row h (fun _ _ => rfl) fun _ _ => rfl
  · exact dDst_anySrc_row h (fun _ _ => rfl) fun _ _ => rfl
  · exact dDst_anySrc_row h (fun _ _ => rfl) fun _ _ => rfl
  · exact dDst_anySrc_row h (fun _ _ => rfl) fun _ _ => rfl
  · exact dDst_anySrc_row h (fun _ _ => rfl) fun _ _ => rfl
  · exact dDst_anySrc_srcBOf_row h (fun _ _ _ => rfl) fun _ _ _ => rfl
  · exact vbcst_row h
  · exact vslid_row h
  · exact vred_row h
  · exact vscan_row h
  · exact dDst_anySrc_x0_row h (fun _ _ _ => rfl) fun _ _ _ => rfl

theorem scalar_rows {w : Word32} {op : Nat} (lo : 0x40 ≤ op) (hi : op ≤ 0x5b) (h : fOp w = BitVec.ofNat 8 op) :
    Yields (decodeOp op w) (Spelled w) := by
  interval_cases op
  · exact dDst_scalarSrc_scalarSrc_row h (fun _ _ _ => rfl) fun _ _ _ => rfl
  · exact dDst_scalarSrc_scalarSrc_row h (fun _ _ _ => rfl) fun _ _ _ => rfl
  · exact dDst_scalarSrc_scalarSrc_row h (fun _ _ _ => rfl) fun _ _ _ => rfl
  · exact dDst_scalarSrc_scalarSrc_x0_row h (fun _ _ _ _ => rfl) fun _ _ _ _ => rfl
  · exact dDst_scalarSrc_scalarSrc_row h (fun _ _ _ => rfl) fun _ _ _ => rfl
  · exact dDst_scalarSrc_scalarSrc_x0_row h (fun _ _ _ _ => rfl) fun _ _ _ _ => rfl
  · exact dDst_scalarSrc_scalarSrc_x0_row h (fun _ _ _ _ => rfl) fun _ _ _ _ => rfl
  · exact dDst_scalarSrc_scalarSrc_row h (fun _ _ _ => rfl) fun _ _ _ => rfl
  · exact dDst_scalarSrc_scalarSrc_row h (fun _ _ _ => rfl) fun _ _ _ => rfl
  · exact dDst_scalarSrc_scalarSrc_row h (fun _ _ _ => rfl) fun _ _ _ => rfl
  · exact dDst_scalarSrc_row h (fun _ _ => rfl) fun _ _ => rfl
  · exact dDst_scalarSrc_scalarSrc_row h (fun _ _ _ => rfl) fun _ _ _ => rfl
  · exact dDst_scalarSrc_scalarSrc_x0_row h (fun _ _ _ _ => rfl) fun _ _ _ _ => rfl
  · exact dDst_scalarSrc_scalarSrc_row h (fun _ _ _ => rfl) fun _ _ _ => rfl
  · exact dDst_scalarSrc_scalarSrc_x0_row h (fun _ _ _ _ => rfl) fun _ _ _ _ => rfl
  · exact dDst_scalarSrc_scalarSrc_x0_row h (fun _ _ _ _ => rfl) fun _ _ _ _ => rfl
  · exact dDst_scalarSrc_row h (fun _ _ => rfl) fun _ _ => rfl
  · exact dDst_scalarSrc_row h (fun _ _ => rfl) fun _ _ => rfl
  · exact scmp_row h
  · exact dDst_scalarSrc_scalarSrc_row h (fun _ _ _ => rfl) fun _ _ _ => rfl
  · exact dDst_scalarSrc_row h (fun _ _ => rfl) fun _ _ => rfl
  · exact saddi_row h
  · exact dDst_row h (fun _ _ => rfl) fun _ _ => rfl
  · exact dDst_row h (fun _ _ => rfl) fun _ _ => rfl
  · exact slea_row h
  · exact sext_row h
  · exact dDst_scalarSrc_scalarSrc_x0_row h (fun _ _ _ _ => rfl) fun _ _ _ _ => rfl
  · exact dDst_scalarSrc_scalarSrc_row h (fun _ _ _ => rfl) fun _ _ _ => rfl

theorem control_rows {w : Word32} {op : Nat} (lo : 0x60 ≤ op) (hi : op ≤ 0x6c) (h : fOp w = BitVec.ofNat 8 op) :
    Yields (decodeOp op w) (Spelled w) := by
  interval_cases op
  · exact long_row h (fun _ => rfl) fun _ => rfl
  · exact bReg_row h (fun _ _ _ => rfl) fun _ _ _ => rfl
  · exact bPred_row h (fun _ _ _ _ => rfl) fun _ _ _ _ => rfl
  · exact bPred_row h (fun _ _ _ _ => rfl) fun _ _ _ _ => rfl
  · exact join_row h
  · exact call_row h
  · exact uniformSrc_row h (fun _ _ => rfl) fun _ _ => rfl
  · exact ret_row h
  · exact uniformSrc_byte_row h (fun _ => rfl) fun _ => rfl
  · exact long_zero_row h rfl rfl
  · exact long_row h (fun _ => rfl) fun _ => rfl
  · exact long_zero_row h rfl rfl
  · exact bReg_row h (fun _ _ _ => rfl) fun _ _ _ => rfl

theorem predicate_rows {w : Word32} {op : Nat} (lo : 0x70 ≤ op) (hi : op ≤ 0x79) (h : fOp w = BitVec.ofNat 8 op) :
    Yields (decodeOp op w) (Spelled w) := by
  interval_cases op
  · exact dPred_predSrc_predSrc_x0_row h (fun _ _ _ _ => rfl) fun _ _ _ _ => rfl
  · exact dPred_predSrc_predSrc_x0_row h (fun _ _ _ _ => rfl) fun _ _ _ _ => rfl
  · exact dPred_predSrc_predSrc_x0_row h (fun _ _ _ _ => rfl) fun _ _ _ _ => rfl
  · exact dPred_predSrc_row h (fun _ _ => rfl) fun _ _ => rfl
  · exact dPred_predSrc_row h (fun _ _ => rfl) fun _ _ => rfl
  · exact psetm_row h
  · exact pgetm_row h
  · exact dReg_predSrc_row h (fun _ _ => rfl) fun _ _ => rfl
  · exact dReg_predSrc_row h (fun _ _ => rfl) fun _ _ => rfl
  · exact dReg_predSrc_row h (fun _ _ => rfl) fun _ _ => rfl

theorem memory_rows {w : Word32} {op : Nat} (lo : 0x80 ≤ op) (hi : op ≤ 0x9c) (h : fOp w = BitVec.ofNat 8 op) :
    Yields (decodeOp op w) (Spelled w) := by
  interval_cases op
  · exact dDst_laneSrc_uniformSrc_spaceOf_row h (fun _ _ _ _ => rfl) fun _ _ _ _ => rfl
  · exact dReg_laneSrc_uniformSrc_spaceOf_row h (fun _ _ _ _ => rfl) fun _ _ _ _ => rfl
  · exact dDst_laneSrc_uniformSrc_spaceOf_row h (fun _ _ _ _ => rfl) fun _ _ _ _ => rfl
  · exact dReg_laneSrc_uniformSrc_spaceOf_row h (fun _ _ _ _ => rfl) fun _ _ _ _ => rfl
  · exact vldd_row h
  · exact sld_row h
  · exact sst_row h
  · exact vldb_row h
  · exact vstb_row h
  · exact ldds_row h
  · exact stds_row h
  · exact vgath_row h
  · exact dDst_laneSrc_laneSrc_atomOf_row h (fun _ _ _ _ => rfl) fun _ _ _ _ => rfl
  · exact dDst_laneSrc_laneSrc_atomOf_row h (fun _ _ _ _ => rfl) fun _ _ _ _ => rfl
  · exact atomf_row h
  · exact atomo_row h
  · exact long_zero_row h rfl rfl
  · exact waitc_row h
  · exact waitv_row h
  · exact scopeOf_row h (fun _ => rfl) fun _ => rfl
  · exact scopeOf_row h (fun _ => rfl) fun _ => rfl
  · exact pref_row h
  · exact dDst_laneSrc_uniformSrc_x0_row h (fun _ _ _ _ => rfl) fun _ _ _ _ => rfl
  · exact dDst_laneSrc_uniformSrc_x0_row h (fun _ _ _ _ => rfl) fun _ _ _ _ => rfl
  · exact cpa_row h
  · exact cpwt_row h
  · exact uniformSrc_byte_row h (fun _ => rfl) fun _ => rfl
  · exact uniformSrc_uniformSrc_row h (fun _ _ => rfl) fun _ _ => rfl
  · exact uniformSrc_uniformSrc_row h (fun _ _ => rfl) fun _ _ => rfl

theorem synchronisation_rows {w : Word32} {op : Nat} (lo : 0xa0 ≤ op) (hi : op ≤ 0xa8) (h : fOp w = BitVec.ofNat 8 op) :
    Yields (decodeOp op w) (Spelled w) := by
  interval_cases op
  · exact uniformSrc_row h (fun _ _ => rfl) fun _ _ => rfl
  · exact uniformSrc_row h (fun _ _ => rfl) fun _ _ => rfl
  · exact uniformSrc_row h (fun _ _ => rfl) fun _ _ => rfl
  · exact long_zero_row h rfl rfl
  · exact uniformSrc_row h (fun _ _ => rfl) fun _ _ => rfl
  · exact tladv_row h
  · exact tlget_row h
  · exact long_zero_row h rfl rfl
  · exact uniformSrc_byte_row h (fun _ => rfl) fun _ => rfl

theorem matrix_rows {w : Word32} {op : Nat} (lo : 0xb0 ≤ op) (hi : op ≤ 0xb8) (h : fOp w = BitVec.ofNat 8 op) :
    Yields (decodeOp op w) (Spelled w) := by
  interval_cases op
  · exact mma_row h
  · exact dRun_regRun_regRun_row h (fun _ _ _ => rfl) fun _ _ _ => rfl
  · exact dRun_regRun_regRun_row h (fun _ _ _ => rfl) fun _ _ _ => rfl
  · exact mconvl_row h
  · exact long_zero_row h rfl rfl
  · exact uniformSrc_uniformSrc_row h (fun _ _ => rfl) fun _ _ => rfl
  · exact dReg_uniformSrc_uniformSrc_row h (fun _ _ _ _ => rfl) fun _ _ _ _ => rfl
  · exact dReg_uniformSrc_uniformSrc_row h (fun _ _ _ _ => rfl) fun _ _ _ _ => rfl
  · exact mqry_row h

theorem plane_rows {w : Word32} {op : Nat} (lo : 0xc0 ≤ op) (hi : op ≤ 0xdc) (h : fOp w = BitVec.ofNat 8 op) :
    Yields (decodeOp op w) (Spelled w) := by
  interval_cases op
  · exact fields_zero_row h rfl rfl
  · exact fields_zero_row h rfl rfl
  · exact uniformSrc_byte_row h (fun _ => rfl) fun _ => rfl
  · exact dCell_regRun_row h (fun _ _ => rfl) fun _ _ => rfl
  · exact dCell_regRun_row h (fun _ _ => rfl) fun _ _ => rfl
  · exact pllin_row h
  · exact dCell_cellSrc_cellBOf_row h (fun _ _ _ => rfl) fun _ _ _ => rfl
  · exact dCell_cellSrc_cellBOf_row h (fun _ _ _ => rfl) fun _ _ _ => rfl
  · exact dCell_cellSrc_cellBOf_row h (fun _ _ _ => rfl) fun _ _ _ => rfl
  · exact dCell_cellSrc_cellBOf_row h (fun _ _ _ => rfl) fun _ _ _ => rfl
  · exact dCell_cellSrc_cellBOf_row h (fun _ _ _ => rfl) fun _ _ _ => rfl
  · exact plmov_row h
  · exact plcmp_row h
  · exact long_zero_row h rfl rfl
  · exact long_zero_row h rfl rfl
  · exact long_zero_row h rfl rfl
  · exact dCell_cellSrc_cellBOf_row h (fun _ _ _ => rfl) fun _ _ _ => rfl
  · exact plshf_row h
  · exact dCell_uniformSrc_uniformSrc_x0_row h (fun _ _ _ _ => rfl) fun _ _ _ _ => rfl
  · exact dCell_uniformSrc_uniformSrc_x0_row h (fun _ _ _ _ => rfl) fun _ _ _ _ => rfl
  · exact plred_row h
  · exact plexc_row h
  · exact plvis_row h
  · exact plbld_row h
  · exact uniformSrc_uniformSrc_row h (fun _ _ => rfl) fun _ _ => rfl
  · exact plflg_row h
  · exact plsfn_row h
  · exact plclr_row h
  · exact uniformSrc_byte_row h (fun _ => rfl) fun _ => rfl

theorem launch_rows {w : Word32} {op : Nat} (lo : 0xe0 ≤ op) (hi : op ≤ 0xeb) (h : fOp w = BitVec.ofNat 8 op) :
    Yields (decodeOp op w) (Spelled w) := by
  interval_cases op
  · exact dReg_uniformSrc_row h (fun _ _ => rfl) fun _ _ => rfl
  · exact dReg_uniformSrc_row h (fun _ _ => rfl) fun _ _ => rfl
  · exact dReg_uniformSrc_row h (fun _ _ => rfl) fun _ _ => rfl
  · exact dReg_uniformSrc_uniformSrc_byte_row h (fun _ _ _ => rfl) fun _ _ _ => rfl
  · exact dReg_uniformSrc_uniformSrc_byte_row h (fun _ _ _ => rfl) fun _ _ _ => rfl
  · exact hwait_row h
  · exact hres_row h
  · exact uniformSrc_byte_row h (fun _ => rfl) fun _ => rfl
  · exact dReg_uniformSrc_row h (fun _ _ => rfl) fun _ _ => rfl
  · exact uniformSrc_byte_row h (fun _ => rfl) fun _ => rfl
  · exact dReg_uniformSrc_uniformSrc_byte_row h (fun _ _ _ => rfl) fun _ _ _ => rfl
  · exact vgqry_row h

theorem system_rows {w : Word32} {op : Nat} (lo : 0xf0 ≤ op) (hi : op ≤ 0xf7) (h : fOp w = BitVec.ofNat 8 op) :
    Yields (decodeOp op w) (Spelled w) := by
  interval_cases op
  · exact modeValue_row h (fun _ => rfl) fun _ => rfl
  · exact modeValue_row h (fun _ => rfl) fun _ => rfl
  · exact getc_row h
  · exact setc_row h
  · exact timer_row h
  · exact ckpt_row h
  · exact long_zero_row h rfl rfl
  · exact long_row h (fun _ => rfl) fun _ => rfl

theorem reserved_rows {w : Word32} (h : reservedOp (fOp w) = true) : Yields (decodeOp (fOp w).toNat w) (Spelled w) := by
  rw [decodeOp_rsvop (fOp w) w h]
  exact .ok ⟨h, rfl⟩

theorem undefined_rows {w : Word32} (h : 0xf8 ≤ (fOp w).toNat) : Yields (decodeOp (fOp w).toNat w) (Spelled w) := by
  by_cases hw : w = 0xFFFFFFFF
  · subst hw
    exact Yields.ok (a := Instr.ill true 0xFFFFFF) (P := Spelled _) ⟨rfl, rfl⟩
  have hOp : fOp w = (0x1F : BitVec 5) ++ (fOp w).extractLsb' 0 3 := by
    generalize fOp w = op at h
    revert op
    decide
  have hTop : w.extractLsb' 27 5 = 0x1F := by
    have := w.isLt
    apply BitVec.eq_of_toNat_eq
    simp only [fOp, BitVec.extractLsb'_toNat, Nat.shiftRight_eq_div_pow] at h ⊢
    change _ = 31
    omega
  have hSplit := append_extract (m := 5) (n := 27) w
  rw [hTop] at hSplit
  rw [hOp, decodeOp_undef _ w hw]
  refine .ok ⟨bne_iff_ne.2 fun hi => hw ?_, congrArg some hSplit.symm⟩
  rw [hSplit, hi]
  rfl

theorem decode_yields (w : Word32) : Yields (decode w) (Spelled w) := by
  unfold decode
  by_cases hr : reservedOp (fOp w) = true
  · exact reserved_rows hr
  have h : fOp w = BitVec.ofNat 8 (fOp w).toNat := ((BitVec.ofNat_toNat 8 (fOp w)).trans (BitVec.setWidth_eq _)).symm
  simp only [reservedOp, Bool.or_eq_true, Bool.and_eq_true, decide_eq_true_eq] at hr
  have hlt := (fOp w).isLt
  by_cases h0 : (fOp w).toNat ≤ 0x32; · exact vector_rows (Nat.zero_le _) h0 h
  by_cases h1 : (fOp w).toNat ≤ 0x5b; · exact scalar_rows (by omega) h1 h
  by_cases h2 : (fOp w).toNat ≤ 0x6c; · exact control_rows (by omega) h2 h
  by_cases h3 : (fOp w).toNat ≤ 0x79; · exact predicate_rows (by omega) h3 h
  by_cases h4 : (fOp w).toNat ≤ 0x9c; · exact memory_rows (by omega) h4 h
  by_cases h5 : (fOp w).toNat ≤ 0xa8; · exact synchronisation_rows (by omega) h5 h
  by_cases h6 : (fOp w).toNat ≤ 0xb8; · exact matrix_rows (by omega) h6 h
  by_cases h7 : (fOp w).toNat ≤ 0xdc; · exact plane_rows (by omega) h7 h
  by_cases h8 : (fOp w).toNat ≤ 0xeb; · exact launch_rows (by omega) h8 h
  by_cases h9 : (fOp w).toNat ≤ 0xf7; · exact system_rows (by omega) h9 h
  exact undefined_rows (by omega)

/-- Settles O55 by `decode_yields`: each family's rows (`vector_rows` to `system_rows`), the reserved opcodes and the undefined ones. -/
theorem encodesWhatIsDecoded : Obligations.EncodesWhatIsDecoded := by
  unfold Obligations.EncodesWhatIsDecoded
  exact decode_yields

/-- Settles O56: the decoder computes each of the words. -/
theorem decodedWords : Obligations.DecodedWords := by
  unfold Obligations.DecodedWords
  decide

end Sys2Proof.Proofs.DecodeEncode
end

section
/-! SUPPORT. The machine as a whole: what a step does that issues (O57), what a frozen package does (O58), and the state of reset (O60). -/

namespace Sys2Proof.Proofs.Whole

open Sys2Proof Sys2Proof.Machine

/-! ## A step that issues (R31, R224) -/

theorem fetch_run {s : State} {gr : GRef} {sb : Bool} {b : Block} {g : Group} {w : Word32} {i : Instr} (hb : s.block? gr.blk = some b)
    (hg : s.group? gr = some g)
    (hw : (s.issueCore (coreOf (b.place.getD 0) gr.grp) gr sb).fetchWord b.ctx (coreOf (b.place.getD 0) gr.grp) (g.slot sb).pc = .ok w)
    (hd : decode w = .ok i) :
    s.fetch gr sb = .run i { s.issueCore (coreOf (b.place.getD 0) gr.grp) gr sb with cur := some ⟨gr, sb, w⟩ } := by
  unfold State.fetch
  simp only [hb, hg, hw, hd]

theorem stepIssue_run {s t : State} {core : Nat} {gr : GRef} {sb : Bool} {i : Instr} (hs : s.issueSlot core = some (gr, sb))
    (hf : s.fetch gr sb = .run i t) : s.stepIssue core = exec i t := by
  unfold State.stepIssue
  simp only [hs, hf]

/-- Settles O57: the step's choice is the core, its fetch gives the instruction (`fetch_run`), and the step runs it (`stepIssue_run`). -/
theorem stepRunsDecoded : Obligations.StepRunsDecoded := by
  unfold Obligations.StepRunsDecoded
  intro s core gr sb b g w i hc hs hb hg hw hd
  unfold step
  simp only [hc]
  exact congrArg afterwards (stepIssue_run hs (fetch_run hb hg hw hd))

/-! ## A frozen package (R421) -/

/-- t is s but for the count of steps, the events to come and the mark of an issuer. -/
def Stands (s t : State) : Prop := { t with tick := s.tick, inputs := s.inputs, cur := s.cur } = s

theorem after_frozen {s : State} (h : s.frozen = true) : s.after = { s with cur := none, tick := s.tick + 1 } := by
  unfold State.after State.passTime
  simp only [h, if_true]

theorem stands_after {s : State} (h : s.frozen = true) (l : List Instr) : Stands s { s with inputs := l }.after := by
  rw [after_frozen (s := { s with inputs := l }) h]
  rfl

theorem choice_frozen {s : State} (h : s.frozen = true) : s.choice = none ∨ ∃ i, s.inputs.head? = some i ∧ s.choice = some (.input i) := by
  have hp : s.plan = s.inputs.head?.toList.map .input := by
    unfold State.plan
    simp only [h, Bool.true_or, if_true]
  unfold State.choice
  rw [hp]
  cases hi : s.inputs.head? with
  | none => exact .inl rfl
  | some i => exact .inr ⟨i, rfl, rfl⟩

/-- Of what may come from outside, a frozen package takes two resets and the readout. -/
theorem admits_frozen {s : State} (h : s.frozen = true) {i : Instr} (hi : s.admits i = true) : i = .coldReset ∨ i = .powerOff ∨ i = .testPortReadout := by
  unfold State.admits at hi
  simp only [h, if_true, Bool.and_eq_true] at hi
  revert hi
  cases i <;> simp [whileFrozen]

theorem stands_step {s t : State} (h : s.frozen = true) (hs : step s = .next t) (hc : s.inputs.head? ≠ some .coldReset)
    (hp : s.inputs.head? ≠ some .powerOff) : Stands s t := by
  unfold step at hs
  rcases choice_frozen h with hn | ⟨i, hi, hn⟩ <;> simp only [hn] at hs
  · cases hs
    exact stands_after h s.inputs
  · have hstay : afterwards (.next { s with inputs := s.inputs.tail }) = .next t := by
      by_cases ha : s.admits i = true
      · rcases admits_frozen h ha with rfl | rfl | rfl
        · exact absurd hi hc
        · exact absurd hi hp
        · rwa [if_pos ha] at hs
      · rwa [if_neg ha] at hs
    cases hstay
    exact stands_after h s.inputs.tail

/-- Settles O58 by `stands_step`. -/
theorem frozenStands : Obligations.FrozenStands := by
  unfold Obligations.FrozenStands
  exact fun s t => stands_step

/-! ## Reset (R426) -/

/-- Settles O60: no block and no byte stands in the state of reset. -/
theorem canonicalAtReset : Obligations.CanonicalAtReset := by
  unfold Obligations.CanonicalAtReset
  exact ⟨⟨rfl, rfl, nofun⟩, rfl, rfl, rfl⟩

end Sys2Proof.Proofs.Whole
end

section
/-! SUPPORT. Masks of lanes, sub-elements of a lane, and flags that are joined: what each reads as, bit by bit. -/

namespace Sys2Proof.Proofs.Lanes

open Sys2Proof Sys2Proof.Machine Sys2Proof.Laws

/-! ## Masks -/

theorem laneIn_and (a b : Lanes) (l : Nat) : laneIn (a &&& b) l = (laneIn a l && laneIn b l) := BitVec.getLsbD_and

theorem laneIn_not {l : Nat} (h : l < 32) (a : Lanes) : laneIn (~~~ a) l = !laneIn a l := by
  unfold laneIn
  simp [h]

/-- Lanes outside the machine are in no mask. -/
theorem lt_of_laneIn {m : Lanes} {l : Nat} (h : laneIn m l = true) : l < 32 := by
  by_contra hl
  unfold laneIn at h
  rw [BitVec.getLsbD_of_ge _ _ (by omega)] at h
  cases h

theorem mask_ext {a b : Lanes} (h : ∀ l, l < 32 → laneIn a l = laneIn b l) : a = b :=
  BitVec.eq_of_getLsbD_eq fun l hl => h l hl

theorem mask_ne_zero_iff {m : Lanes} : (m != 0) = (List.range 32).any (laneIn m) := by
  rw [Bool.eq_iff_iff, bne_iff_ne, List.any_eq_true]
  constructor
  · intro h
    by_contra hn
    refine h (mask_ext fun l hl => ?_)
    have : ¬ laneIn m l = true := fun hm => hn ⟨l, List.mem_range.2 hl, hm⟩
    simpa [laneIn] using this
  · rintro ⟨l, -, hl⟩ rfl
    simp [laneIn] at hl

theorem laneIn_laneBit {k l : Nat} (hk : k < 32) : laneIn (laneBit k) l = decide (l = k) := by
  unfold laneIn laneBit
  rw [BitVec.getLsbD_ofNat, Nat.testBit_two_pow]
  by_cases h : k = l
  · subst h
    simp [hk]
  · simp [h, Ne.symm h]

theorem laneIn_foldl_mask (f : Nat → Bool) (ls : List Nat) (hls : ∀ l ∈ ls, l < 32) (m : Lanes) (l : Nat) :
    laneIn (ls.foldl (fun m l => if f l then m ||| laneBit l else m) m) l = (laneIn m l || (decide (l ∈ ls) && f l)) := by
  induction ls generalizing m with
  | nil => simp
  | cons k ks ih =>
    rw [List.foldl_cons, ih fun x hx => hls x (List.mem_cons_of_mem _ hx)]
    have hk : k < 32 := hls k List.mem_cons_self
    have hbit : laneIn (if f k then m ||| laneBit k else m) l = (laneIn m l || (decide (l = k) && f k)) := by
      split
      next hf =>
        rw [show laneIn (m ||| laneBit k) l = (laneIn m l || laneIn (laneBit k) l) from BitVec.getLsbD_or, laneIn_laneBit hk, hf, Bool.and_true]
      next hf => simp [hf]
    rw [hbit]
    by_cases hl : l = k
    · subst hl
      cases laneIn m l <;> cases f l <;> simp
    · simp [hl]

theorem laneIn_maskOf (f : Nat → Bool) {l : Nat} (h : l < 32) : laneIn (maskOf f) l = f l := by
  unfold maskOf
  rw [laneIn_foldl_mask f _ (fun _ => List.mem_range.1)]
  simp [laneIn, h]

/-! ## Sub-elements (R59) -/

theorem width_pos (t : ElemType) : 0 < width t := by cases t <;> decide

theorem nsub_mul_width (t : ElemType) : nsub t * width t = 64 := by cases t <;> decide

theorem nsub_pos (t : ElemType) : 0 < nsub t := by cases t <;> decide

/-- Digit k of a number assembled from its digits in base 2^w. -/
theorem digit_foldr (w : Nat) (xs : List Nat) (k : Nat) :
    xs.foldr (fun x acc => x % 2 ^ w + 2 ^ w * acc) 0 / 2 ^ (k * w) % 2 ^ w = xs.getD k 0 % 2 ^ w := by
  have hw : 0 < 2 ^ w := Nat.two_pow_pos w
  induction xs generalizing k with
  | nil => simp
  | cons x xs ih =>
    cases k with
    | zero => simp
    | succ k =>
      rw [List.foldr_cons, List.getD_cons_succ, ← ih k, Nat.succ_mul, Nat.add_comm (k * w), Nat.pow_add, ← Nat.div_div_eq_div_mul,
        Nat.add_mul_div_left _ _ hw, Nat.div_eq_of_lt (Nat.mod_lt _ hw), Nat.zero_add]

theorem sub_packSubs (t : ElemType) (xs : List Nat) {k : Nat} (hk : k < nsub t) : sub (packSubs t xs) k t = xs.getD k 0 % 2 ^ width t := by
  have hfit : k * width t + width t ≤ 64 := by
    rw [← Nat.succ_mul, ← nsub_mul_width t]
    exact Nat.mul_le_mul_right _ hk
  unfold sub packSubs bits
  rw [BitVec.toNat_ofNat, ← digit_foldr]
  generalize xs.foldr _ 0 = n
  rw [show (2 : Nat) ^ 64 = 2 ^ (k * width t) * 2 ^ (64 - k * width t) by rw [← Nat.pow_add]; congr 1; omega, Nat.mod_mul_right_div_self,
    Nat.mod_mod_of_dvd _ (Nat.pow_dvd_pow 2 (by omega))]

theorem sub_lt (x : Word) (k : Nat) (t : ElemType) : sub x k t < 2 ^ width t := Nat.mod_lt _ (Nat.two_pow_pos _)

/-- A lane whose sub-element k is f k. -/
theorem sub_packSubs_map (t : ElemType) (f : Nat → Nat) {k : Nat} (hk : k < nsub t) :
    sub (packSubs t ((List.range (nsub t)).map f)) k t = f k % 2 ^ width t := by
  rw [sub_packSubs t _ hk]
  simp [List.getD_eq_getElem?_getD, hk]

/-! ## Flags -/

theorem getLsbD_foldl_or {α : Type} (f : α → Flags) (l : List α) (x : Flags) (n : Nat) :
    (l.foldl (fun x a => x ||| f a) x).getLsbD n = (x.getLsbD n || l.any fun a => (f a).getLsbD n) := by
  induction l generalizing x with
  | nil => simp
  | cons a l ih => rw [List.foldl_cons, ih, BitVec.getLsbD_or, List.any_cons, Bool.or_assoc]

theorem getLsbD_laneFlags (i : Iss) (f : Nat → Flags) (n : Nat) :
    (i.laneFlags f).getLsbD n = (lanesOf i.counted).any fun l => (f l).getLsbD n := by
  unfold Iss.laneFlags
  rw [getLsbD_foldl_or]
  simp

end Sys2Proof.Proofs.Lanes
end

section
/-! SUPPORT. The predicate family (R121, R122): what each instruction gives, and O2. -/

namespace Sys2Proof.Proofs.Predicates

open Sys2Proof Sys2Proof.Machine Sys2Proof.Laws Sys2Proof.Proofs.Lanes

/-! ## What is read of a predicate under a mask -/

theorem terms_lane (i : Iss) (l : Nat) : laneIn i.terms l = (laneIn i.active l && !laneIn i.g.helper l) := by
  unfold Iss.terms
  rw [laneIn_and]
  cases ha : laneIn i.active l with
  | false => rfl
  | true => rw [laneIn_not (lt_of_laneIn ha)]

/-- The lanes that PANY, PALL and PCNT look at. -/
theorem filter_terms (i : Iss) (p : Nat → Bool) :
    ((List.range 32).filter fun l => laneIn i.active l && !laneIn i.g.helper l).filter p = (List.range 32).filter fun l => p l && laneIn i.terms l := by
  rw [List.filter_filter]
  exact List.filter_congr fun l _ => by rw [terms_lane]

theorem any_filter {α : Type} (p q : α → Bool) (l : List α) : (l.filter p).any q = l.any fun x => p x && q x := by
  induction l with
  | nil => rfl
  | cons a l ih => cases h : p a <;> simp [h, ih]

theorem any_terms (i : Iss) (p : Lanes) :
    (p &&& i.terms != 0) = ((List.range 32).filter fun l => laneIn i.active l && !laneIn i.g.helper l).any (laneIn p) := by
  rw [mask_ne_zero_iff, any_filter]
  exact List.any_congr rfl fun l => by rw [laneIn_and, terms_lane, Bool.and_comm]

theorem all_terms (i : Iss) (p : Lanes) :
    (~~~ p &&& i.terms == 0) = ((List.range 32).filter fun l => laneIn i.active l && !laneIn i.g.helper l).all (laneIn p) := by
  have h : (~~~ p &&& i.terms == 0) = !(~~~ p &&& i.terms != 0) := by simp [bne]
  rw [h, any_terms, Bool.eq_iff_iff]
  simp only [Bool.not_eq_true', List.any_eq_false, List.all_eq_true]
  refine forall₂_congr fun l hl => ?_
  rw [laneIn_not (List.mem_range.1 (List.mem_filter.1 hl).1)]
  simp

theorem popcount_terms (i : Iss) (p : Lanes) :
    popcount (p &&& i.terms) = (((List.range 32).filter fun l => laneIn i.active l && !laneIn i.g.helper l).filter (laneIn p)).length := by
  rw [filter_terms]
  unfold popcount lanesOf
  congr 1
  exact List.filter_congr fun l _ => laneIn_and _ _ _

/-! ## The rows -/

theorem putP_next {s : State} {i : Iss} (h : s.issue? = some i) (d : BitVec 5) (x : Iss → Lanes) :
    ∃ t g', (s.run fun i => i.putP d (x i)) = .next t ∧ i.Alone t g' ∧ i.PredResult d i.active (x i) 0 g' := by
  obtain ⟨rfl, _, hg⟩ := issue_facts h
  rw [run_issue h]
  have hres := predResult i d i.active (x i) 0
  rw [orFlags_zero] at hres
  exact ⟨_, _, rfl, alone_group hg _, hres⟩

theorem psetm_next {s : State} {i : Iss} (h : s.issue? = some i) (d : BitVec 5) {a : Src} (hc : i.checkSca .i64 [a] = .ok ()) :
    ∃ t g', exec (.psetm d a) s = .next t ∧ i.Alone t g' ∧ i.PredResult d (-1) ((i.uni a).setWidth 32) 0 g' := by
  obtain ⟨rfl, _, hg⟩ := issue_facts h
  have he : exec (.psetm d a) i.s = .next (i.conclude (i.group (i.g.wrP d.toNat ((i.uni a).setWidth 32)))) := by
    show i.s.run _ = _
    rw [run_issue h, hc]
    rfl
  rw [he]
  have hres := predResult i d (-1) ((i.uni a).setWidth 32) 0
  have hall : (i.g.rdP d.toNat &&& ~~~ (-1 : Lanes)) ||| ((i.uni a).setWidth 32 &&& (-1 : Lanes)) = (i.uni a).setWidth 32 := by
    rw [show (-1 : Lanes) = BitVec.allOnes 32 by decide]
    simp only [BitVec.not_allOnes, BitVec.and_zero, BitVec.zero_or, BitVec.and_allOnes]
  rw [orFlags_zero, hall] at hres
  exact ⟨_, _, rfl, alone_group hg _, hres⟩

theorem putPlain_next {s : State} {i : Iss} (h : s.issue? = some i) {d : BitVec 6} (hd : i.g.destBusy i.sl.wb [] [d.toNat] = false)
    (x : Iss → Word) : ∃ t g', (s.run fun i => i.putPlain d (x i)) = .next t ∧ i.Alone t g' ∧ i.PlainResult (.reg d) (x i) g' := by
  obtain ⟨rfl, _, hg⟩ := issue_facts h
  have he : (i.s.run fun i => i.putPlain d (x i)) = .next (i.conclude (i.group (i.g.putReg i.sl.wb (.reg d) (x i)))) := by
    rw [run_issue h]
    unfold Iss.putPlain
    rw [hd]
    rfl
  rw [he]
  exact ⟨_, _, rfl, alone_group hg _, plainResult i (.reg d) (x i)⟩

/-- The row's instruction gives P[d] the row's lanes. -/
def PredRow (s : State) (i : Iss) (d : BitVec 5) (p : Instr × Lanes) : Prop :=
  ∃ x : Iss → Lanes, (exec p.1 s = s.run fun j => j.putP d (x j)) ∧ x i = p.2

theorem predicates_rows (s : State) (i : Iss) (d a b : BitVec 5) : ∀ p ∈ i.predicates d a b, PredRow s i d p := by
  simp only [Iss.predicates, List.forall_mem_cons]
  exact ⟨⟨_, rfl, rfl⟩, ⟨_, rfl, rfl⟩, ⟨_, rfl, rfl⟩, ⟨_, rfl, rfl⟩, ⟨_, rfl, rfl⟩, ⟨_, rfl, rfl⟩, ⟨_, rfl, rfl⟩, ⟨_, rfl, rfl⟩, List.forall_mem_nil _⟩

/-- The row's instruction gives S[d] the row's word. -/
def PlainRow (s : State) (i : Iss) (d : BitVec 6) (p : Instr × Word) : Prop :=
  ∃ x : Iss → Word, (exec p.1 s = s.run fun j => j.putPlain d (x j)) ∧ x i = p.2

theorem fromPredicate_rows (s : State) (i : Iss) (d : BitVec 6) (a : BitVec 5) : ∀ p ∈ i.fromPredicate d a, PlainRow s i d p := by
  simp only [Iss.fromPredicate, List.forall_mem_cons]
  refine ⟨⟨_, rfl, rfl⟩, ⟨_, rfl, rfl⟩, ⟨_, rfl, ?pany⟩, ⟨_, rfl, ?pall⟩, ⟨_, rfl, ?pcnt⟩, List.forall_mem_nil _⟩
  case pany => exact congrArg boolWord (any_terms i (i.g.rdP a.toNat))
  case pall => exact congrArg boolWord (all_terms i (i.g.rdP a.toNat))
  case pcnt => exact congrArg (BitVec.ofNat 64) (popcount_terms i (i.g.rdP a.toNat))

/-- Settles O2: the rows that write a predicate by `putP_next`, PSETM by `psetm_next`, the rows that write S[d] by `putPlain_next`. -/
theorem predicateInstructions : Obligations.PredicateInstructions := by
  unfold Obligations.PredicateInstructions
  refine ⟨fun s i d a b x h => ⟨fun p hp => ?_, psetm_next h d⟩, fun s i d a h hd p hp => ?_⟩
  · obtain ⟨y, hrun, hy⟩ := predicates_rows s i d a b p hp
    rw [hrun, ← hy]
    exact putP_next h d y
  · obtain ⟨y, hrun, hy⟩ := fromPredicate_rows s i d a p hp
    rw [hrun, ← hy]
    exact putPlain_next h hd y

end Sys2Proof.Proofs.Predicates
end

section
/-! SUPPORT. The vector family (R95-R109): the shapes its instructions have, and O3 to O6 and O8. -/

namespace Sys2Proof.Proofs.Vector

open Sys2Proof Sys2Proof.Machine Sys2Proof.Laws Sys2Proof.Proofs.Lanes

/-! ## One operation on the sub-elements of a lane -/

theorem sub_laneOp (t : ElemType) (f : Nat → Nat → Nat → Nat × Flags) (a b c : Word) {k : Nat} (hk : k < nsub t) :
    sub (laneOp t f a b c).1 k t = (f (sub a k t) (sub b k t) (sub c k t)).1 % 2 ^ width t := by
  unfold laneOp
  simp only [List.map_map]
  exact sub_packSubs_map t _ hk

theorem flags_laneOp (t : ElemType) (f : Nat → Nat → Nat → Nat × Flags) (a b c : Word) (n : Nat) :
    (laneOp t f a b c).2.getLsbD n = (List.range (nsub t)).any fun k => (f (sub a k t) (sub b k t) (sub c k t)).2.getLsbD n := by
  unfold laneOp
  simp only [getLsbD_foldl_or, List.any_map, BitVec.ofNat_eq_ofNat, BitVec.getLsbD_zero, Bool.false_or]
  rfl

/-! ## Checks, and what the sources find -/

theorem checkVec_nil {i : Iss} {ok : ElemType → Bool} (h : ok i.ty = true) : i.checkVec ok [] = .ok () := by
  unfold Iss.checkVec
  simp [h, firstTrap]

theorem rows_nil (i : Iss) : i.rows [] = some (i, fun _ => 0) := rfl

section
variable {s : State} {i j : Iss} {row : Nat → Word} (h : s.issue? = some i) {d : Dst} {a : Src}
include h

/-- An instruction of the family, with its checks passed, its destination free and its sources standing, writes what its meaning says. -/
theorem vector_writes {ok : ElemType → Bool} {srcs : List Src} (hc : i.checkVec ok srcs = .ok ())
    (hd : i.g.destBusy i.sl.wb (dstRegs d) [] = false) (hr : i.rows srcs = some (j, row)) {w : Iss → Lanes}
    {f : Iss → (Nat → Word) → Nat → Word} {fl : Iss → (Nat → Word) → Flags} :
    ∃ t g', Host.Outcome.next (φ := Fault) (ρ := Refusal) (i.conclude (i.vector ok srcs (dstRegs d) [] fun i row => i.putV d (w i) (f i row) (fl i row))) = .next t ∧
      j.Alone t g' ∧ j.VectorResult d (w j) (f j row) (fl j row) g' :=
  ⟨_, _, rfl, (vector_next h ok srcs (dstRegs d) [] (fun i row => i.putV d (w i) (f i row) (fl i row)) hc hd hr).2,
    vectorResult j d (w j) (f j row) (fl j row)⟩

theorem elementwise_writes {b : SrcB} {ok : ElemType → Bool} (hc : i.checkVec ok (a :: srcsB b) = .ok ())
    (hd : i.g.destBusy i.sl.wb (dstRegs d) [] = false) (hr : i.rows (a :: srcsB b) = some (j, row)) (f : Iss → Nat → Nat → Nat → Nat × Flags) :
    ∃ t g', (s.run fun i => i.elementwise ok d a b (f i)) = .next t ∧ j.Alone t g' ∧
      let r (l : Nat) : Word × Flags := laneOp j.ty (f i) (j.vec j.ty row a l) (j.vecB j.ty row b l) (j.old d l)
      j.VectorResult d j.guard (fun l => (r l).1)
        (j.laneFlags (fun l => (r l).2) ||| j.countFlags j.ty a ||| (srcsB b).foldl (fun f x => f ||| j.countFlags j.ty x) 0) g' := by
  rw [run_issue h]
  exact vector_writes h hc hd hr

theorem unary_writes {ok : ElemType → Bool} (hc : i.checkVec ok [a] = .ok ()) (hd : i.g.destBusy i.sl.wb (dstRegs d) [] = false)
    (hr : i.rows [a] = some (j, row)) (f : Iss → Nat → Nat × Flags) :
    ∃ t g', (s.run fun i => i.unary ok d a fun x _ => f i x) = .next t ∧ j.Alone t g' ∧
      let r (l : Nat) : Word × Flags := laneOp j.ty (fun x _ _ => f i x) (j.vec j.ty row a l) 0 0
      j.VectorResult d j.guard (fun l => (r l).1) (j.laneFlags (fun l => (r l).2) ||| j.countFlags j.ty a) g' := by
  have hw := elementwise_writes h (b := .src (.spec .zero)) (checkVec_zero hc) hd ((rows_zero i a).trans hr) fun i x _ _ => f i x
  have hz (x : Flags) : x ||| (srcsB (.src (.spec .zero))).foldl (fun fl x => fl ||| j.countFlags j.ty x) 0 = x :=
    (congrArg (x ||| ·) BitVec.zero_or).trans BitVec.or_zero
  simp only [hz] at hw
  exact hw

theorem bitwise_writes {b : SrcB} {ok : ElemType → Bool} (hc : i.checkVec ok (a :: srcsB b) = .ok ())
    (hd : i.g.destBusy i.sl.wb (dstRegs d) [] = false) (hr : i.rows (a :: srcsB b) = some (j, row)) (f : Iss → Word → Word → Word) :
    ∃ t g', (s.run fun i => i.bitwise ok d a b (f i)) = .next t ∧ j.Alone t g' ∧
      j.VectorResult d j.guard (fun l => f i (j.vec j.ty row a l) (j.vecB j.ty row b l)) 0 g' := by
  rw [run_issue h]
  exact vector_writes h hc hd hr

theorem bitwise_one_writes {ok : ElemType → Bool} (hc : i.checkVec ok [a] = .ok ()) (hd : i.g.destBusy i.sl.wb (dstRegs d) [] = false)
    (hr : i.rows [a] = some (j, row)) (f : Iss → Word → Word) :
    ∃ t g', (s.run fun i => i.bitwise ok d a (.src (.spec .zero)) fun x _ => f i x) = .next t ∧ j.Alone t g' ∧
      j.VectorResult d j.guard (fun l => f i (j.vec j.ty row a l)) 0 g' :=
  bitwise_writes h (b := .src (.spec .zero)) (checkVec_zero hc) hd ((rows_zero i a).trans hr) fun i x _ => f i x

end

/-! ## O3 -/

/-- The row's instruction is element-wise, over the row's types and with the row's function. -/
def TwoRow (s : State) (i : Iss) (d : Dst) (a : Src) (b : SrcB)
    (p : (Dst → Src → SrcB → Instr) × (ElemType → Bool) × (Nat → Nat → Nat → Nat × Flags)) : Prop :=
  ∃ f : Iss → Nat → Nat → Nat → Nat × Flags, (exec (p.1 d a b) s = s.run fun i => i.elementwise p.2.1 d a b (f i)) ∧ f i = p.2.2

theorem elementTwo_rows (s : State) (i : Iss) (d : Dst) (a : Src) (b : SrcB) : ∀ p ∈ i.elementTwo d, TwoRow s i d a b p := by
  simp only [Iss.elementTwo, List.forall_mem_cons]
  exact ⟨⟨_, rfl, rfl⟩, ⟨_, rfl, rfl⟩, ⟨_, rfl, rfl⟩, ⟨_, rfl, rfl⟩, ⟨_, rfl, rfl⟩, ⟨_, rfl, rfl⟩, ⟨_, rfl, rfl⟩, ⟨_, rfl, rfl⟩, ⟨_, rfl, rfl⟩,
    ⟨_, rfl, rfl⟩, ⟨_, rfl, rfl⟩, ⟨_, rfl, rfl⟩, ⟨_, rfl, rfl⟩, ⟨_, rfl, rfl⟩, ⟨_, rfl, rfl⟩, List.forall_mem_nil _⟩

/-- Settles O3: a lane's result by `sub_laneOp` and `flags_laneOp`, the rows by `elementTwo_rows` and `elementwise_writes`. -/
theorem elementsTwoSources : Obligations.ElementsTwoSources := by
  unfold Obligations.ElementsTwoSources
  refine ⟨fun t f a b c => ⟨fun k => sub_laneOp t f a b c, flags_laneOp t f a b c⟩, fun s i j row d a b h p hp hc hd hr => ?_⟩
  obtain ⟨f, hrun, hf⟩ := elementTwo_rows s i d a b p hp
  rw [hrun, ← hf]
  exact elementwise_writes h hc hd hr f

/-! ## O4 -/

def OneRow (s : State) (i : Iss) (d : Dst) (a : Src) (p : (Dst → Src → Instr) × (ElemType → Bool) × (Nat → Nat × Flags)) : Prop :=
  ∃ f : Iss → Nat → Nat × Flags, (exec (p.1 d a) s = s.run fun i => i.unary p.2.1 d a fun x _ => f i x) ∧ f i = p.2.2

theorem elementOne_rows (s : State) (i : Iss) (d : Dst) (a : Src) : ∀ p ∈ i.elementOne, OneRow s i d a p := by
  simp only [Iss.elementOne, List.forall_mem_cons]
  exact ⟨⟨_, rfl, rfl⟩, ⟨_, rfl, rfl⟩, ⟨_, rfl, rfl⟩, ⟨_, rfl, rfl⟩, ⟨_, rfl, rfl⟩, ⟨_, rfl, rfl⟩, ⟨_, rfl, rfl⟩, ⟨_, rfl, rfl⟩, ⟨_, rfl, rfl⟩,
    ⟨_, rfl, rfl⟩, ⟨_, rfl, rfl⟩, ⟨_, rfl, rfl⟩, ⟨_, rfl, rfl⟩, ⟨_, rfl, rfl⟩, List.forall_mem_nil _⟩

theorem rows_ty {i j : Iss} {row : Nat → Word} {srcs : List Src} (h : i.rows srcs = some (j, row)) : j.ty = i.ty := by
  obtain ⟨hg, _, hb, _⟩ := rows_facts h
  unfold Iss.ty Iss.mode Iss.sl
  rw [hg, hb]

/-- Settles O4: the rows by `elementOne_rows` and `unary_writes`, VFCLS by `bitwise_one_writes`. -/
theorem elementsOneSource : Obligations.ElementsOneSource := by
  unfold Obligations.ElementsOneSource
  refine ⟨fun s i j row d a h p hp hc hd hr => ?_, fun s i j row d a h hc hd hr => ?_⟩
  · obtain ⟨f, hrun, hf⟩ := elementOne_rows s i d a p hp
    rw [hrun, ← hf]
    exact unary_writes h hc hd hr f
  · obtain ⟨t, g', hrun, halone, hres⟩ := bitwise_one_writes h hc hd hr fun i x =>
      packSubs i.ty ((List.range (nsub i.ty)).map fun k => classOf i.ty (sub x k i.ty))
    refine ⟨t, g', _, hrun, halone, hres, fun l _ k hk => ?_⟩
    simp only [← rows_ty hr]
    exact sub_packSubs_map j.ty _ hk

/-! ## O5 -/

def LaneRow (s : State) (i : Iss) (d : Dst) (a : Src) (b : SrcB) (p : (Dst → Src → SrcB → Instr) × (ElemType → Bool) × (Word → Word → Word)) : Prop :=
  ∃ f : Iss → Word → Word → Word, (exec (p.1 d a b) s = s.run fun i => i.bitwise p.2.1 d a b (f i)) ∧ f i = p.2.2

theorem laneTwo_rows (s : State) (i : Iss) (d : Dst) (a : Src) (b : SrcB) : ∀ p ∈ i.laneTwo, LaneRow s i d a b p := by
  simp only [Iss.laneTwo, List.forall_mem_cons]
  exact ⟨⟨_, rfl, rfl⟩, ⟨_, rfl, rfl⟩, ⟨_, rfl, rfl⟩, ⟨_, rfl, rfl⟩, ⟨_, rfl, rfl⟩, ⟨_, rfl, rfl⟩, ⟨_, rfl, rfl⟩, List.forall_mem_nil _⟩

theorem imm10_of {i : Iss} (ht : tsAll i.ty = true) (v : BitVec 10) (r : Nat → Res) :
    i.imm10 v r = match constElem i.ty (Val.ofInt v.toInt) with | none => .trap (illopTrap 11) | some x => r x := by
  unfold Iss.imm10
  rw [ht]
  cases constElem i.ty (Val.ofInt v.toInt) <;> rfl

section
variable {s : State} {i : Iss} (h : s.issue? = some i) (ht : tsAll i.ty = true) (d : Dst) (a : Src) {v : BitVec 10}
include h ht

/-- An immediate that T does not hold (R38). -/
theorem immediate_traps (hv : constElem i.ty (Val.ofInt v.toInt) = none) :
    exec (.vmovi d v) s = .next (i.conclude (.trap (illopTrap 11))) ∧ exec (.vaddi d a v) s = .next (i.conclude (.trap (illopTrap 11))) := by
  constructor
  all_goals
    refine (run_issue h _).trans ?_
    rw [imm10_of ht, hv]

theorem vmovi_writes (hd : i.g.destBusy i.sl.wb (dstRegs d) [] = false) {y : Nat} (hv : constElem i.ty (Val.ofInt v.toInt) = some y) :
    ∃ t g', exec (.vmovi d v) s = .next t ∧ i.Alone t g' ∧ i.VectorResult d i.guard (fun _ => splat i.ty y) 0 g' := by
  rw [show exec (.vmovi d v) s = _ from run_issue h _, imm10_of ht, hv]
  exact vector_writes (row := fun _ => 0) h (checkVec_nil ht) hd (rows_nil i)

theorem vaddi_runs {y : Nat} (hv : constElem i.ty (Val.ofInt v.toInt) = some y) :
    exec (.vaddi d a v) s = s.run fun i => i.unary tsAll d a fun x _ => op2 i addVal x y := by
  rw [show exec (.vaddi d a v) s = _ from run_issue h _, run_issue h, imm10_of ht, hv]

end

/-- Settles O5: the rows by `laneTwo_rows`, VSEL by `vector_writes`, VNOT and VMOV by `bitwise_one_writes`, the immediates by
`immediate_traps`, `vmovi_writes` and `vaddi_runs`. -/
theorem wholeLanes : Obligations.WholeLanes := by
  unfold Obligations.WholeLanes
  refine ⟨fun s i j row d a b h hd hr => ⟨fun p hp hc => ?_, fun hc => ?_⟩, fun s i j row d a v h ht hd hc hr => ⟨?_, ?_, ?_⟩⟩
  · obtain ⟨f, hrun, hf⟩ := laneTwo_rows s i d a b p hp
    rw [hrun, ← hf]
    exact bitwise_writes h hc hd hr f
  · rw [show exec (.vsel d a b) s = _ from run_issue h _]
    exact vector_writes h hc hd hr
  · exact bitwise_one_writes h hc hd hr fun _ x => ~~~ x
  · exact bitwise_one_writes h hc hd hr fun _ x => x
  · split
    next hv => exact immediate_traps h ht d a hv
    next y hv =>
      refine ⟨vmovi_writes h ht d hd hv, ?_⟩
      rw [vaddi_runs h ht d a hv]
      exact unary_writes h hc hd hr fun i x => op2 i addVal x y

/-! ## O6 -/

section
variable {s : State} {i j : Iss} {row : Nat → Word} (h : s.issue? = some i) {a b : Src} (hr : i.rows [a, b] = some (j, row))
include h hr

theorem vcmp_writes (p : BitVec 5) (c : VCond) (hd : i.g.destBusy i.sl.wb [] [] = false) (hc : i.checkVec tsAll [a, b] = .ok ()) :
    ∃ t g', exec (.vcmp p a b c) s = .next t ∧ j.Alone t g' ∧
      j.PredResult p j.guard (maskOf fun l => laneCond j.ty c (j.vec j.ty row a l) (j.vec j.ty row b l))
        (j.laneFlags (fun l => laneCondFlags j.ty (j.vec j.ty row a l) (j.vec j.ty row b l)) ||| j.countFlags j.ty a ||| j.countFlags j.ty b) g' := by
  rw [show exec (.vcmp p a b c) s = _ from run_issue h _]
  exact ⟨_, _, rfl, (vector_next h tsAll [a, b] [] [] _ hc hd hr).2, predResult j p j.guard _ _⟩

theorem vcpys_writes (d : Dst) (hd : i.g.destBusy i.sl.wb (dstRegs d) [] = false) (hc : i.checkVec tsFlt [a, b] = .ok ()) :
    ∃ t g', exec (.vcpys d a b) s = .next t ∧ j.Alone t g' ∧
      let f (x y _ : Nat) : Nat × Flags :=
        if (decodeElem i.ty x).isNaN then (canonNaN i.ty, sigFlag (decodeElem i.ty x))
        else (y / 2 ^ (width i.ty - 1) % 2 * 2 ^ (width i.ty - 1) + x % 2 ^ (width i.ty - 1), 0)
      let r (l : Nat) : Word × Flags := laneOp j.ty f (j.vec j.ty row a l) (j.vec j.ty row b l) (j.old d l)
      j.VectorResult d j.guard (fun l => (r l).1) (j.laneFlags (fun l => (r l).2) ||| j.countFlags j.ty a ||| j.countFlags j.ty b) g' := by
  have hw := elementwise_writes h (b := .src b) (d := d) hc hd hr fun i x y _ =>
    if (decodeElem i.ty x).isNaN then (canonNaN i.ty, sigFlag (decodeElem i.ty x))
    else (y / 2 ^ (width i.ty - 1) % 2 * 2 ^ (width i.ty - 1) + x % 2 ^ (width i.ty - 1), 0)
  have hz : (srcsB (.src b)).foldl (fun fl x => fl ||| j.countFlags j.ty x) 0 = j.countFlags j.ty b := BitVec.zero_or
  rw [hz] at hw
  exact hw

end

theorem laneIn_laneCond {t : ElemType} {c : VCond} {a b : Nat → Word} {l : Nat} (hl : l < 32) :
    laneIn (maskOf fun l => laneCond t c (a l) (b l)) l = true ↔
      ∀ k, k < nsub t → condVal c (decodeElem t (sub (a l) k t)) (decodeElem t (sub (b l) k t)) = true := by
  rw [laneIn_maskOf _ hl]
  unfold laneCond
  simp only [List.all_eq_true, List.mem_range]

/-- Settles O6 by `vcmp_writes`, `laneIn_laneCond` and `vcpys_writes`. -/
theorem compareAndSign : Obligations.CompareAndSign := by
  unfold Obligations.CompareAndSign
  intro s i j row p d a b c h hr hd hd'
  refine ⟨fun hc => ?_, fun hc => vcpys_writes h hr d hd hc⟩
  obtain ⟨t, g', hrun, halone, hres⟩ := vcmp_writes h hr p c hd' hc
  exact ⟨t, g', _, hrun, halone, hres, fun l hl => laneIn_laneCond hl⟩

/-! ## O8 -/

/-- What a sum is added to: what D held, 0 where N = 1 (R108). -/
def sumOld (i : Iss) (d : Dst) (l : Nat) : Word :=
  match d with
  | .reg r => i.g.rdV i.sl.wb r.toNat l
  | .none => 0

theorem rows_sumOld {i j : Iss} {row : Nat → Word} {srcs : List Src} (hr : i.rows srcs = some (j, row)) (d : Dst) : sumOld i d = sumOld j d := by
  obtain ⟨hg, _, hb, _⟩ := rows_facts hr
  funext l
  unfold sumOld Iss.sl
  rw [hg, hb]

theorem vdot_writes {s : State} {i j : Iss} {row : Nat → Word} (h : s.issue? = some i) (d : Dst) {a : Src} {b : SrcB}
    (hd : i.g.destBusy i.sl.wb (dstRegs d) [] = false) (hc : i.checkVec tsAll (a :: srcsB b) = .ok ()) (hr : i.rows (a :: srcsB b) = some (j, row)) :
    ∃ t g', exec (.vdot d a b) s = .next t ∧ j.Alone t g' ∧
      let r (l : Nat) : Word × Flags := dotLane j.ty j.sat (j.vec j.ty row a l) (some (j.vecB j.ty row b l)) (sumOld j d l)
      j.VectorResult d j.guard (fun l => (r l).1)
        (j.laneFlags (fun l => (r l).2) ||| j.countFlags j.ty a ||| (srcsB b).foldl (fun f x => f ||| j.countFlags j.ty x) 0) g' := by
  rw [show exec (.vdot d a b) s = _ from run_issue h _]
  exact vector_writes h hc hd hr (w := Iss.guard)
    (f := fun i row l => (dotLane i.ty i.sat (i.vec i.ty row a l) (some (i.vecB i.ty row b l)) (sumOld i d l)).1)
    (fl := fun i row => i.laneFlags (fun l => (dotLane i.ty i.sat (i.vec i.ty row a l) (some (i.vecB i.ty row b l)) (sumOld i d l)).2) |||
      i.countFlags i.ty a ||| (srcsB b).foldl (fun f x => f ||| i.countFlags i.ty x) 0)

theorem vhsum_writes {s : State} {i j : Iss} {row : Nat → Word} (h : s.issue? = some i) (d : Dst) {a : Src}
    (hd : i.g.destBusy i.sl.wb (dstRegs d) [] = false) (hc : i.checkVec tsAll [a] = .ok ()) (hr : i.rows [a] = some (j, row)) :
    ∃ t g', exec (.vhsum d a) s = .next t ∧ j.Alone t g' ∧
      let r (l : Nat) : Word × Flags := dotLane j.ty j.sat (j.vec j.ty row a l) none (sumOld j d l)
      j.VectorResult d j.guard (fun l => (r l).1) (j.laneFlags (fun l => (r l).2) ||| j.countFlags j.ty a) g' := by
  rw [show exec (.vhsum d a) s = _ from run_issue h _]
  exact vector_writes h hc hd hr (w := Iss.guard) (f := fun i row l => (dotLane i.ty i.sat (i.vec i.ty row a l) none (sumOld i d l)).1)
    (fl := fun i row => i.laneFlags (fun l => (dotLane i.ty i.sat (i.vec i.ty row a l) none (sumOld i d l)).2) ||| i.countFlags i.ty a)

/-- Settles O8 by `vdot_writes` and `vhsum_writes`; reading a drain row leaves what D held (`rows_sumOld`). -/
theorem laneSums : Obligations.LaneSums := by
  unfold Obligations.LaneSums
  intro s i j row d a b h hd old
  have hold : old = sumOld i d := by
    funext l
    cases d <;> rfl
  rw [hold]
  refine ⟨fun hc hr => ?_, fun hc hr => ?_⟩
  · rw [rows_sumOld hr]
    exact vdot_writes h d hd hc hr
  · rw [rows_sumOld hr]
    exact vhsum_writes h d hd hc hr

end Sys2Proof.Proofs.Vector
end

section
/-! SUPPORT. The vector family: conversions (R104), other lanes (R110-R114), reductions (R115-R117) and what stops an instruction; O7 and O9 to O11. -/

namespace Sys2Proof.Proofs.VectorLanes

open Sys2Proof Sys2Proof.Machine Sys2Proof.Laws Sys2Proof.Proofs.Lanes Sys2Proof.Proofs.Vector

/-! ## What an element converts to (R75-R77) -/

theorem isInt_of_isFloat {t : ElemType} (h : isFloat t = true) : isInt t = false := by cases t <;> first | rfl | exact absurd h (by decide)

theorem decodeElem_int {t : ElemType} (h : isInt t = true) (x : Nat) : decodeElem t x = Val.ofInt (intOf t x) := by
  unfold decodeElem
  cases t <;> first | rfl | exact absurd h (by decide)

/-- An element's value is exact: its sticky part is clear. -/
theorem decodeElem_exact {t : ElemType} {x : Nat} {neg : Bool} {m : Nat} {e : Int} {f : Bool} (h : decodeElem t x = .fin neg m e f) : f = false := by
  unfold decodeElem at h
  simp only at h
  split at h
  · split at h
    · split at h
      · cases h
      · split at h <;> cases h <;> rfl
    · split at h
      · split at h <;> cases h
      · split at h <;> cases h <;> rfl
  · split at h
    · cases h; rfl
    · cases h; rfl

theorem convertElem_ints {st t : ElemType} (ht : isInt t = true) (hs : isInt st = true) (r : Rnd) (sat : Bool) (x : Nat) :
    convertElem st t r sat x = narrowInt t sat (intOf st x) := by
  unfold convertElem
  rw [ht, hs]
  rfl

theorem convertElem_toInt {st t : ElemType} (ht : isInt t = true) (hs : isInt st = false) (r : Rnd) (sat : Bool) (x : Nat) :
    convertElem st t r sat x = toInt t r sat (decodeElem st x) := by
  unfold convertElem convertVal
  rw [ht, hs]
  rfl

theorem convertElem_round {st t : ElemType} (ht : isInt t = false) (r : Rnd) (sat : Bool) (x : Nat) :
    convertElem st t r sat x =
      ((roundTo t r sat (decodeElem st x)).1, sigFlag (decodeElem st x) ||| (roundTo t r sat (decodeElem st x)).2) := by
  unfold convertElem convertVal
  simp only [ht, Bool.and_false, Bool.false_eq_true, if_false]

theorem intMax_lt (t : ElemType) : intMax t < 2 ^ 64 := by cases t <;> decide
theorem neg_le_intMin (t : ElemType) : -2 ^ 64 < intMin t := by cases t <;> decide

/-- A value of more than 128 whole bits rounds to itself. -/
theorem roundInt_large (rnd : Rnd) (neg : Bool) {m : Nat} {e : Int} (he : 128 < e) :
    roundInt rnd neg m e false = (if neg then -((m * 2 ^ e.toNat : Nat) : Int) else ((m * 2 ^ e.toNat : Nat) : Int), false) := by
  have hup (k : Nat) : roundsUp rnd neg k 0 0 false = false := by cases rnd <;> cases neg <;> simp [roundsUp]
  unfold roundInt roundAt
  rw [if_pos (by omega)]
  simp only [hup, Bool.false_eq_true, if_false, Nat.shiftLeft_eq, Int.sub_zero]

theorem large_value {m : Nat} {e : Int} (hm : m ≠ 0) (he : 128 < e) : (2 : Int) ^ 64 < ((m * 2 ^ e.toNat : Nat) : Int) := by
  have h : 2 ^ 65 ≤ m * 2 ^ e.toNat :=
    (Nat.pow_le_pow_right (by decide) (by omega)).trans (Nat.le_mul_of_pos_left _ (Nat.pos_of_ne_zero hm))
  have : (2 : Int) ^ 65 ≤ ((m * 2 ^ e.toNat : Nat) : Int) := by exact_mod_cast h
  omega

/-- A finite value rounds, and what lies outside the type becomes its nearer bound (R76). -/
theorem toInt_fin (t : ElemType) (r : Rnd) (sat : Bool) (neg : Bool) (m : Nat) (e : Int) :
    toInt t r sat (.fin neg m e false) =
      if intMax t < (roundInt r neg m e false).1 then (wrapInt t (intMax t), if sat then flISAT else flINV)
      else if (roundInt r neg m e false).1 < intMin t then (wrapInt t (intMin t), if sat then flISAT else flINV)
      else (wrapInt t (roundInt r neg m e false).1, if (roundInt r neg m e false).2 then flINX else 0) := by
  unfold toInt
  simp only
  split
  next hbig =>
    simp only [Bool.and_eq_true, decide_eq_true_eq] at hbig
    have hv := large_value hbig.2 hbig.1
    have hmax := intMax_lt t
    have hmin := neg_le_intMin t
    rw [roundInt_large r neg hbig.1]
    generalize ((m * 2 ^ e.toNat : Nat) : Int) = n at hv
    cases neg with
    | false =>
      have habove : intMax t < n := by omega
      simp only [Bool.false_eq_true, if_false, habove, if_true]
    | true =>
      have hle : intMin t ≤ intMax t := by cases t <;> decide
      have hnot : ¬ intMax t < -n := by have : -2 ^ 64 < intMax t := by omega
                                        omega
      have hbelow : -n < intMin t := by omega
      simp only [if_true, hnot, if_false, hbelow]
  next => rfl

theorem convertElem_facts {st t : ElemType} (r : Rnd) (sat : Bool) (x : Nat) :
    let v := decodeElem st x
    let c := convertElem st t r sat x
    let out : Flags := if sat then flISAT else flINV
    (isInt t = true → isInt st = true → c = narrowInt t sat (intOf st x)) ∧
    (isInt t = true → isInt st = false →
      (v.isNaN = true → c = (0, flINV)) ∧ (∀ neg, v = .inf neg → c = (wrapInt t (if neg then intMin t else intMax t), out)) ∧
      ∀ neg m e f, v = .fin neg m e f → let q := roundInt r neg m e false
        c = if intMax t < q.1 then (wrapInt t (intMax t), out) else if q.1 < intMin t then (wrapInt t (intMin t), out)
          else (wrapInt t q.1, if q.2 then flINX else 0)) ∧
    (isFloat t = true → v.isNaN = true → c = (canonNaN t, if v.isSig then flINV else 0)) ∧ (t = .dya8 → v.isNaN = true → c = (0x77, flINV)) ∧
    (isInt t = false → v.isNaN = false → c = roundTo t r sat v) := by
  refine ⟨fun ht hs => convertElem_ints ht hs r sat x, fun ht hs => ⟨fun hn => ?nan, fun neg hv => ?inf, fun neg m e f hv => ?fin⟩,
    fun ht hn => ?float, ?dya, fun ht hn => ?round⟩
  case nan =>
    rw [convertElem_toInt ht hs]
    cases hd : decodeElem st x with
    | nan b => rfl
    | inf b => rw [hd] at hn; cases hn
    | fin b m e f => rw [hd] at hn; cases hn
  case inf => rw [convertElem_toInt ht hs, hv]; rfl
  case fin =>
    obtain rfl := decodeElem_exact hv
    rw [convertElem_toInt ht hs, hv]
    exact toInt_fin t r sat neg m e
  case float =>
    rw [convertElem_round (isInt_of_isFloat ht)]
    cases hd : decodeElem st x with
    | nan b => unfold roundTo; rw [if_pos ht]; exact congrArg _ BitVec.or_zero
    | inf b => rw [hd] at hn; cases hn
    | fin b m e f => rw [hd] at hn; cases hn
  case dya =>
    rintro rfl hn
    rw [convertElem_round rfl]
    cases hd : decodeElem st x with
    | nan b =>
      show (0x77, sigFlag (.nan b) ||| flINV) = _
      cases b <;> decide
    | inf b => rw [hd] at hn; cases hn
    | fin b m e f => rw [hd] at hn; cases hn
  case round =>
    rw [convertElem_round ht]
    have hsig : sigFlag (decodeElem st x) = 0 := by
      cases hd : decodeElem st x with
      | nan b => rw [hd] at hn; cases hn
      | inf b => rfl
      | fin b m e f => rfl
    rw [hsig]
    exact congrArg _ BitVec.zero_or

/-! ## VCVT (R104) -/

/-- Of a source, what VCVT reads through `Iss.vector`: the sources that are no constant of T. -/
def cvtSrcs (a : Src) : List Src :=
  match a with
  | .reg _ | .latch _ | .spec .drn => [a]
  | _ => []

theorem cvtSrcs_check {i : Iss} (ht : tsAll i.ty = true) {a : Src} (hl : i.latchBad false a = none) : i.checkVec tsAll (cvtSrcs a) = .ok () := by
  cases a with
  | reg r => unfold Iss.checkVec; simp [cvtSrcs, ht, constBad, constOf, isCount, firstTrap, hl]
  | latch n => unfold Iss.checkVec; simp [cvtSrcs, ht, constBad, constOf, isCount, firstTrap, hl]
  | imm v => exact checkVec_nil ht
  | spec c =>
    cases c
    case drn => unfold Iss.checkVec; simp [cvtSrcs, ht, constBad, constOf, isCount, firstTrap, hl]
    all_goals exact checkVec_nil ht

theorem cvtSrcs_rows (i : Iss) (a : Src) : i.rows (cvtSrcs a) = i.rows [a] := by
  cases a with
  | spec c => cases c <;> rfl
  | _ => rfl

/-- The M conversions of a lane: each with the sub-element of the result that it gives. -/
def conversions (i : Iss) (st t : ElemType) (p m : Nat) (x : Word) : List (Nat × Nat × Flags) :=
  (List.range m).map fun j =>
    if nsub st > nsub t then (j, convertElem st t i.rnd i.sat (sub x (p * m + j) st))
    else (p * m + j, convertElem st t i.rnd i.sat (sub x j st))

/-- A lane of VCVT: the conversions where there is one, and what D held elsewhere. -/
def converted (i : Iss) (st t : ElemType) (p m : Nat) (x o : Word) : Word × Flags :=
  (packSubs t ((List.range (nsub t)).map fun k =>
    match (conversions i st t p m x).find? fun c => c.1 == k with
    | some c => c.2.1
    | none => sub o k t), (conversions i st t p m x).foldl (fun f c => f ||| c.2.2) 0)

theorem vcvt_writes {s : State} {i j : Iss} {row : Nat → Word} (h : s.issue? = some i) (d : Dst) {a : Src} {st : ElemType} {p : BitVec 3}
    (ht : tsAll i.ty = true) (hst : st ≠ .d) (hp : p.toNat < widthRatio st i.ty) (hc : constBad st a = false) (hl : i.latchBad false a = none)
    (hd : i.g.destBusy i.sl.wb (dstRegs d) [] = false) (hr : i.rows [a] = some (j, row)) :
    ∃ t g', exec (.vcvt d a st p) s = .next t ∧ j.Alone t g' ∧
      let r (l : Nat) : Word × Flags := converted j st i.ty p.toNat (min (nsub st) (nsub i.ty)) (j.vec st row a l) (j.old d l)
      j.VectorResult d j.guard (fun l => (r l).1) (j.laneFlags (fun l => (r l).2) ||| j.countFlags st a) g' := by
  have hrun : exec (.vcvt d a st p) s = .next (i.conclude (i.vector tsAll (cvtSrcs a) (dstRegs d) [] fun j row =>
      j.putV d j.guard (fun l => (converted j st i.ty p.toNat (min (nsub st) (nsub i.ty)) (j.vec st row a l) (j.old d l)).1)
        (j.laneFlags (fun l => (converted j st i.ty p.toNat (min (nsub st) (nsub i.ty)) (j.vec st row a l) (j.old d l)).2) ||| j.countFlags st a))) := by
    refine (run_issue h _).trans ?_
    simp only
    rw [if_neg (by omega), ht, hc, beq_false_of_ne hst]
    rfl
  rw [hrun]
  exact vector_writes h (cvtSrcs_check ht hl) hd ((cvtSrcs_rows i a).trans hr)

theorem rows_mode {i j : Iss} {row : Nat → Word} {srcs : List Src} (h : i.rows srcs = some (j, row)) : j.mode = i.mode := by
  obtain ⟨hg, _, hb, _⟩ := rows_facts h
  unfold Iss.mode Iss.sl
  rw [hg, hb]

theorem find_conversion (o m k : Nat) (g : Nat → Nat × Flags) :
    ((List.range m).map fun j => (o + j, g j)).find? (fun c => c.1 == k) = if o ≤ k ∧ k < o + m then some (k, g (k - o)) else none := by
  split
  next hk =>
    obtain ⟨hlo, hhi⟩ := hk
    rw [List.find?_map]
    have hfind : (List.range m).find? ((fun c : Nat × Nat × Flags => c.1 == k) ∘ fun j => (o + j, g j)) = some (k - o) := by
      rw [List.find?_range_eq_some]
      refine ⟨by simp; omega, by simp; omega, fun j hj => by simp; omega⟩
    rw [hfind]
    simp [show o + (k - o) = k by omega]
  next hk =>
    simp only [List.find?_eq_none, List.mem_map, List.mem_range, forall_exists_index, and_imp, beq_iff_eq]
    rintro _ j hj rfl
    simp only
    omega

theorem sub_converted (i : Iss) (st t : ElemType) (p : Nat) (x o : Word) {k : Nat} (hk : k < nsub t) :
    sub (converted i st t p (min (nsub st) (nsub t)) x o).1 k t =
      if nsub st > nsub t then (convertElem st t i.rnd i.sat (sub x (p * nsub t + k) st)).1 % 2 ^ width t
      else if p * nsub st ≤ k ∧ k < p * nsub st + nsub st then (convertElem st t i.rnd i.sat (sub x (k - p * nsub st) st)).1 % 2 ^ width t
      else sub o k t := by
  unfold converted
  rw [sub_packSubs_map t _ hk]
  unfold conversions
  by_cases hn : nsub st > nsub t
  · simp only [hn, if_true, Nat.min_eq_right (Nat.le_of_lt hn)]
    have hf := find_conversion 0 (nsub t) k fun j => convertElem st t i.rnd i.sat (sub x (p * nsub t + j) st)
    simp only [Nat.zero_add, Nat.zero_le, true_and, hk, if_true, Nat.sub_zero] at hf
    rw [hf]
  · simp only [hn, if_false, Nat.min_eq_left (Nat.le_of_not_lt hn)]
    rw [find_conversion]
    by_cases hpart : p * nsub st ≤ k ∧ k < p * nsub st + nsub st
    · simp only [hpart, and_self, if_true]
    · simp only [hpart, if_false]
      exact Nat.mod_eq_of_lt (sub_lt o k t)

theorem flags_converted (i : Iss) (st t : ElemType) (p : Nat) (x o : Word) (n : Nat) :
    (converted i st t p (min (nsub st) (nsub t)) x o).2.getLsbD n = (List.range (min (nsub st) (nsub t))).any fun e =>
      (convertElem st t i.rnd i.sat (sub x (if nsub st > nsub t then p * nsub t + e else e) st)).2.getLsbD n := by
  unfold converted conversions
  simp only [getLsbD_foldl_or, List.any_map, BitVec.ofNat_eq_ofNat, BitVec.getLsbD_zero, Bool.false_or]
  by_cases hn : nsub st > nsub t
  · simp only [hn, if_true, Nat.min_eq_right (Nat.le_of_lt hn)]
    rfl
  · simp only [hn, if_false]
    rfl

/-- Settles O7: the instruction by `vcvt_writes`, its lanes by `sub_converted`, its flags by `flags_converted`, an element by `convertElem_facts`. -/
theorem convert : Obligations.Convert := by
  unfold Obligations.Convert
  refine ⟨fun s i j row d a st p h ht hst hp hc hl hd hr => ?_, fun st t r sat x _ _ => convertElem_facts r sat x⟩
  obtain ⟨t, g', hrun, halone, hres⟩ := vcvt_writes h d ht hst hp hc hl hd hr
  have hrnd : j.rnd = i.rnd := congrArg modeRnd (rows_mode hr)
  have hsat : j.sat = i.sat := congrArg modeSat (rows_mode hr)
  refine ⟨t, g', _, _, hrun, halone, hres, fun n => ?_, fun l _ k hk => ?_⟩
  · rw [BitVec.getLsbD_or, getLsbD_laneFlags]
    simp only [flags_converted, hrnd, hsat]
  · simp only [sub_converted j st i.ty p.toNat _ _ hk, hrnd, hsat]

/-! ## O9 -/

theorem bits_lane (x : Nat) : bits x 0 5 = x % 32 := by simp [bits]
theorem bits_part (x : Nat) : bits x 5 3 = x / 32 % 8 := rfl

theorem bits_permuted (x k : Nat) : bits x (8 * k + 5) 3 = x / 2 ^ (8 * k) / 32 % 8 := by
  unfold bits
  rw [Nat.pow_add, Nat.div_div_eq_div_mul]
  rfl

section
variable {s : State} {i j : Iss} {row : Nat → Word} (h : s.issue? = some i) (d : Dst) {a : Src}
include h

/-- VBCST, VSLID and VSCAN: a vector source and a uniform operand. -/
theorem withUniform_writes {u : ElemType} {b : Src} (ht : tsAll i.ty = true) (ha : constBad i.ty a = false) (hb : constBad u b = false)
    (la : i.latchBad false a = none) (lb : i.latchBad true b = none) (hd : i.g.destBusy i.sl.wb (dstRegs d) [] = false)
    (hr : i.rows [a] = some (j, row)) {f : Iss → (Nat → Word) → Nat → Word} {fl : Iss → (Nat → Word) → Flags} :
    ∃ t g', Host.Outcome.next (φ := Fault) (ρ := Refusal)
        (i.conclude (i.withUniform u a b (dstRegs d) [] fun i row => i.putV d i.guard (f i row) (fl i row))) = .next t ∧
      j.Alone t g' ∧ j.VectorResult d j.guard (f j row) (fl j row) g' :=
  ⟨_, _, rfl, withUniform_next h u a b (dstRegs d) [] (fun i row => i.putV d i.guard (f i row) (fl i row)) ht ha hb la lb hd hr,
    vectorResult j d j.guard (f j row) (fl j row)⟩

theorem vperm_writes {b : SrcB} (hd : i.g.destBusy i.sl.wb (dstRegs d) [] = false) (hc : i.checkVec tsAll (a :: srcsB b) = .ok ())
    (hr : i.rows (a :: srcsB b) = some (j, row)) :
    ∃ t g', exec (.vperm d a b) s = .next t ∧ j.Alone t g' ∧ j.VectorResult d j.guard (fun l => packSubs j.ty ((List.range (nsub j.ty)).map fun k =>
      j.cross j.ty (j.vec j.ty row a) (bits (j.vecB j.ty row b l).toNat (8 * k) 5) (bits (j.vecB j.ty row b l).toNat (8 * k + 5) 3))) 0 g' := by
  rw [show exec (.vperm d a b) s = _ from run_issue h _]
  exact vector_writes h hc hd hr

end

/-- Settles O9: VPERM by `vperm_writes`, VBCST and VSLID by `withUniform_writes`; a sub-element by `sub_packSubs_map`. -/
theorem crossLane : Obligations.CrossLane := by
  unfold Obligations.CrossLane
  intro s i j row d a b bb h hd
  refine ⟨fun hc hr => ?_, fun ht ha hb la lb hr => ⟨?_, fun rot => ?_⟩⟩
  · obtain ⟨t, g', hrun, halone, hres⟩ := vperm_writes h d hd hc hr
    refine ⟨t, g', _, hrun, halone, hres, fun l _ k hk => ?_⟩
    rw [sub_packSubs_map j.ty _ hk, bits_permuted]
    rfl
  · rw [show exec (.vbcst d a b) s = _ from run_issue h _]
    simp only [← bits_lane, ← bits_part]
    exact withUniform_writes h d ht ha hb la lb hd hr
  · rw [show exec (.vslid d a b rot) s = _ from run_issue h _]
    obtain ⟨t, g', hrun, halone, hres⟩ := withUniform_writes h d ht ha hb la lb hd hr (fl := fun _ _ => 0) (f := fun i row l =>
      packSubs i.ty ((List.range (nsub i.ty)).map fun k =>
        let e : Int := ((l * nsub i.ty + k : Nat) : Int) + (i.uni b).toInt
        let e := if rot then e % (32 * nsub i.ty : Int) else e
        if 0 ≤ e ∧ e < (32 * nsub i.ty : Int) then i.cross i.ty (i.vec i.ty row a) (e.toNat / nsub i.ty) (e.toNat % nsub i.ty) else 0))
    refine ⟨t, g', _, hrun, halone, hres, fun l _ k hk => ?_⟩
    rw [sub_packSubs_map j.ty _ hk]
    by_cases hin : 0 ≤ (if rot then (((l * nsub j.ty + k : Nat) : Int) + (j.uni b).toInt) % (32 * nsub j.ty : Int)
        else ((l * nsub j.ty + k : Nat) : Int) + (j.uni b).toInt) ∧
      (if rot then (((l * nsub j.ty + k : Nat) : Int) + (j.uni b).toInt) % (32 * nsub j.ty : Int)
        else ((l * nsub j.ty + k : Nat) : Int) + (j.uni b).toInt) < (32 * nsub j.ty : Int)
    · simp only [hin, and_self, if_true]
    · simp only [hin, if_false, Nat.zero_mod]

/-! ## O10 -/

theorem checkVec_one {i : Iss} (ht : tsAll i.ty = true) {a : Src} (ha : constBad i.ty a = false) (la : i.latchBad false a = none) :
    i.checkVec tsAll [a] = .ok () := by
  unfold Iss.checkVec
  simp [ht, ha, la, firstTrap]

/-- The fold of the terms up to element e, or before it (R116). -/
def scanFold (i : Iss) (u : ElemType) (row : Nat → Word) (a b : Src) (p : AmmOp) (ex : Bool) (e : Nat) : Nat × Flags :=
  redValue (ammRed p) i.ty i.sat (sub (i.sca u b) 0 u)
    ((redTerms i.ty i.counted (i.vec i.ty row a)).filter fun x => if ex then decide (x.1 < e) else decide (x.1 ≤ e))

def scanElem (i : Iss) (u : ElemType) (row : Nat → Word) (a b : Src) (p : AmmOp) (ex : Bool) (e : Nat) : Nat × Flags :=
  match p with
  | .add =>
    ((convertElem u i.ty i.rnd i.sat (scanFold i u row a b .add ex e).1).1,
      (scanFold i u row a b .add ex e).2 ||| (convertElem u i.ty i.rnd i.sat (scanFold i u row a b .add ex e).1).2)
  | p => scanFold i u row a b p ex e

/-- A lane of VSCAN. -/
def scanLane (i : Iss) (u : ElemType) (row : Nat → Word) (a b : Src) (p : AmmOp) (ex : Bool) (l : Nat) : Word × Flags :=
  let rs := (List.range (nsub i.ty)).map fun k => scanElem i u row a b p ex (l * nsub i.ty + k)
  (packSubs i.ty (rs.map (·.1)), rs.foldl (fun f x => f ||| x.2) 0)

theorem sub_scanLane (i : Iss) (u : ElemType) (row : Nat → Word) (a b : Src) (p : AmmOp) (ex : Bool) (l : Nat) {k : Nat} (hk : k < nsub i.ty) :
    sub (scanLane i u row a b p ex l).1 k i.ty = (scanElem i u row a b p ex (l * nsub i.ty + k)).1 % 2 ^ width i.ty := by
  unfold scanLane
  simp only [List.map_map]
  exact sub_packSubs_map i.ty _ hk

/-- The group that VSCAN leaves. -/
def scanned (d : Dst) (u : ElemType) (a b : Src) (p : AmmOp) (ex : Bool) (i : Iss) (row : Nat → Word) : Group :=
  i.putV d i.guard (fun l => (scanLane i u row a b p ex l).1)
    (i.laneFlags (fun l => (scanLane i u row a b p ex l).2) ||| i.countFlags i.ty a ||| i.countFlags u b)

theorem execVscan_eq (d : Dst) (a b : Src) (p : AmmOp) (ex : Bool) (s : State) : exec (.vscan d a b p ex) s =
    s.run fun i => i.withUniform (redOut (ammRed p) i.ty) a b (dstRegs d) [] (scanned d (redOut (ammRed p) i.ty) a b p ex) := by
  cases p <;> rfl

section
variable {s : State} {i j : Iss} {row : Nat → Word} (h : s.issue? = some i) (d : Dst) {a b : Src} (ht : tsAll i.ty = true)
  (ha : constBad i.ty a = false) (la : i.latchBad false a = none) (hr : i.rows [a] = some (j, row))
include h ht ha la hr

theorem vscan_writes (p : AmmOp) (ex : Bool) (hb : constBad (redOut (ammRed p) i.ty) b = false) (lb : i.latchBad true b = none)
    (hd : i.g.destBusy i.sl.wb (dstRegs d) [] = false) :
    ∃ t g' f fl, exec (.vscan d a b p ex) s = .next t ∧ j.Alone t g' ∧ j.VectorResult d j.guard f fl g' ∧
      ∀ l, f l = (scanLane j (redOut (ammRed p) i.ty) row a b p ex l).1 := by
  rw [execVscan_eq, run_issue h]
  exact ⟨_, _, _, _, rfl, withUniform_next h _ a b (dstRegs d) [] (scanned d _ a b p ex) ht ha hb la lb hd hr,
    vectorResult j d j.guard _ _, fun _ => rfl⟩

theorem vred_writes (p : RedOp) (hb : constBad (redOut p i.ty) b = false) (lb : i.latchBad true b = none)
    (hd : i.g.destBusy i.sl.wb [] (dstRegs d) = false) :
    let r := redValue p j.ty j.sat (sub (j.sca (redOut p i.ty) b) 0 (redOut p i.ty)) (redTerms j.ty j.counted (j.vec j.ty row a))
    ∃ t g', exec (.vred d a b p) s = .next t ∧ j.Alone t g' ∧ j.ScalarResult d (extendElem (redOut p i.ty) (redPattern p (redOut p i.ty) r.1))
      (r.2 ||| j.countFlags j.ty a ||| j.countFlags (redOut p i.ty) b) g' := by
  rw [show exec (.vred d a b p) s = _ from run_issue h _]
  exact ⟨_, _, rfl, withUniform_next h (redOut p i.ty) a b [] (dstRegs d) _ ht ha hb la lb hd hr, scalarResult j d _ _⟩

theorem vbal_writes (c : Bool) (hd : i.g.destBusy i.sl.wb [] (dstRegs d) = false) :
    let m := j.counted &&& maskOf fun l => j.vec j.ty row a l != 0
    ∃ t g', exec (.vbal d a c) s = .next t ∧ j.Alone t g' ∧
      j.ScalarResult d (if c then BitVec.ofNat 64 (popcount m) else m.setWidth 64) (j.countFlags j.ty a) g' := by
  rw [show exec (.vbal d a c) s = _ from run_issue h _]
  exact ⟨_, _, rfl, (vector_next h tsAll [a] [] (dstRegs d) _ (checkVec_one ht ha la) hd hr).2, scalarResult j d _ _⟩

end

/-- Settles O10: VRED by `vred_writes`, VSCAN by `vscan_writes`, VBAL by `vbal_writes`. -/
theorem reductions : Obligations.Reductions := by
  unfold Obligations.Reductions
  intro s i j row d a b h ht ha la hr
  refine ⟨fun p hb lb hd => vred_writes h d ht ha la hr p hb lb hd, fun p ex hb lb hd => ?_, fun c hd => vbal_writes h d ht ha la hr c hd⟩
  obtain ⟨t, g', f, fl, hrun, halone, hres, hf⟩ := vscan_writes h d ht ha la hr p ex hb lb hd
  refine ⟨t, g', f, fl, hrun, halone, hres, fun l _ k hk => ?_⟩
  rw [hf, sub_scanLane _ _ _ _ _ _ _ _ hk]
  cases p <;> rfl

/-! ## O11 -/

section
variable {s : State} {i : Iss} (h : s.issue? = some i) {d : Dst} {a : Src} {b : SrcB} {ok : ElemType → Bool}
  (f : Iss → Nat → Nat → Nat → Nat × Flags)
include h

theorem elementwise_type (ht : ok i.ty = false) : (s.run fun i => i.elementwise ok d a b (f i)) = .next (i.conclude (.trap (illopTrap 10))) := by
  rw [run_issue h]
  unfold Iss.elementwise Iss.vector Iss.checkVec
  rw [ht]
  rfl

theorem elementwise_noRow (hc : i.checkVec ok (a :: srcsB b) = .ok ()) (hd : i.g.destBusy i.sl.wb (dstRegs d) [] = false)
    (ha : a = .spec .drn ∨ b = .src (.spec .drn)) (hn : i.b.drainsOf (i.gr.grp % 6) = []) :
    (s.run fun i => i.elementwise ok d a b (f i)) = .next (i.conclude (.trap (plainTrap .prot 7))) := by
  have hdrn : (a :: srcsB b).contains (.spec .drn) = true := by
    rcases ha with rfl | rfl <;> simp [srcsB]
  have hrow : i.readRow = .none := by unfold Iss.readRow; rw [hn]
  rw [run_issue h]
  unfold Iss.elementwise Iss.vector
  rw [hc, hd, hdrn, hrow]
  rfl

end

/-- Settles O11: the rows are element-wise (`elementTwo_rows`), and stop by `elementwise_type` and `elementwise_noRow`. -/
theorem vectorTraps : Obligations.VectorTraps := by
  unfold Obligations.VectorTraps
  intro s i d a b h p hp
  obtain ⟨f, hrun, -⟩ := elementTwo_rows s i d a b p hp
  rw [hrun]
  exact ⟨elementwise_type h f, elementwise_noRow h f⟩

end Sys2Proof.Proofs.VectorLanes
end

section
/-! SUPPORT. What the driver writes (O51), and resets (O53). -/

namespace Sys2Proof.Proofs.Driver

open Sys2Proof Sys2Proof.Machine Sys2Proof.Laws

/-! ## Contexts, capabilities and translations (R9, R375, R389, R407) -/

theorem find?_map_replace {α : Type} (l : List α) (num : α → Nat) (f : α → α) (n m : Nat) (hf : ∀ x, num x = n → num (f x) = n) :
    (l.map fun x => if num x = n then f x else x).find? (fun x => num x == m) =
      (l.find? fun x => num x == m).map fun x => if num x = n then f x else x := by
  rw [List.find?_map]
  refine congrArg (Option.map _) (List.find?_congr fun x _ => ?_)
  show (num (if num x = n then f x else x) == m) = (num x == m)
  split
  · next h => rw [hf x h, h]
  · rfl

theorem ctx?_modCtx (s : State) (n m : Nat) {f : Context → Context} (hf : ∀ c, c.num = n → (f c).num = n) :
    (s.modCtx n f).ctx? m = (s.ctx? m).map fun c => if c.num = n then f c else c := find?_map_replace s.ctxs (·.num) f n m hf

theorem num_of_ctx? {s : State} {n : Nat} {c : Context} (h : s.ctx? n = some c) : c.num = n := by
  simpa using List.find?_some h

theorem ctx?_modCtx_self {s : State} {n : Nat} {c : Context} (h : s.ctx? n = some c) {f : Context → Context} (hf : ∀ c, c.num = n → (f c).num = n) :
    (s.modCtx n f).ctx? n = some (f c) := by
  rw [ctx?_modCtx s n n hf, h, Option.map_some, if_pos (num_of_ctx? h)]

theorem ctx?_modCtx_ne (s : State) {n m : Nat} (h : m ≠ n) {f : Context → Context} (hf : ∀ c, c.num = n → (f c).num = n) :
    (s.modCtx n f).ctx? m = s.ctx? m := by
  rw [ctx?_modCtx s n m hf]
  cases hc : s.ctx? m with
  | none => rfl
  | some c => rw [Option.map_some, if_neg (num_of_ctx? hc ▸ h)]

theorem create_next {s : State} {ctx : Nat} (desc : List (BitVec 8)) (ha : s.announced = true) (hn : ctx < 64) (hc : s.ctx? ctx = none) :
    exec (.contextCreation ctx desc) s =
      .next { s with ctxs := s.ctxs ++ [{ (Context.fresh ctx).read desc with credit := ((Context.fresh ctx).read desc).share }] } := by
  show execContextCreation ctx desc s = _
  unfold execContextCreation
  simp [ha, hn, hc]

theorem cap_set {s : State} {a b stack idx : Nat} (hb : b < 4096) (hi : idx < 4096) (e : BitVec 128) :
    State.cap { s with caps := SMap.set 0 s.caps (stack * 4096 + idx) e } a b = if a = stack ∧ b = idx then e else s.cap a b := by
  have hkey : a * 4096 + b = stack * 4096 + idx ↔ a = stack ∧ b = idx := by omega
  unfold State.cap
  simp only [get_set, hkey]

theorem capability_next {stack idx : Nat} (hs : stack < 8) (hi : idx < 4096) (e : BitVec 128) (s : State) :
    exec (.capabilityTableWrite stack idx e) s = .next { s with caps := SMap.set 0 s.caps (stack * 4096 + idx) e } := if_pos ⟨hs, hi⟩

/-- Settles O51: a creation by `create_next`, a descriptor by the rules of `modCtx`, an entry by `cap_set`, a shootdown as the filter it is. -/
theorem driverWrites : Obligations.DriverWrites := by
  unfold Obligations.DriverWrites
  intro s ctx desc
  refine ⟨fun ha hn hc => ⟨_, create_next desc ha hn hc, rfl, rfl, rfl, rfl, rfl, rfl⟩, fun c hc => ⟨_, rfl, ?_, fun n hn => ?_, rfl⟩,
    fun stack idx e hs hi => ⟨_, capability_next hs hi e s, ?_, fun a b _ hb hne => ?_, rfl⟩, ⟨_, rfl, fun e he => ?_, fun e hne => ?_, rfl⟩⟩
  · exact ctx?_modCtx_self hc fun _ h => h
  · exact ctx?_modCtx_ne s hn fun _ h => h
  · rw [cap_set hi hi, if_pos ⟨rfl, rfl⟩]
  · rw [cap_set hb hi, if_neg hne]
  · simpa using (List.mem_filter.1 he).2
  · simp [List.mem_filter, hne]

/-! ## Resets (R422, R426) -/

/-- What a repair that enters the fuses keeps to by itself. -/
def Sound : Repair → Prop
  | .cluster a x => a / 34 = x / 34 ∧ 32 ≤ a % 34 ∧ x % 34 < 32
  | .row _ _ x => x < 128
  | .hbm .. => True

/-- Two repairs that do not contend: for a spare or a cluster, or for the spare row of 128. -/
def Apart : Repair → Repair → Prop
  | .cluster a x, .cluster c y => a ≠ c ∧ x ≠ y
  | .row a g _, .row b k _ => ¬ (a = b ∧ g = k)
  | _, _ => True

theorem Apart.symm {p q : Repair} (h : Apart p q) : Apart q p := by
  cases p <;> cases q <;> simp only [Apart] at h ⊢
  · exact ⟨h.1.symm, h.2.symm⟩
  · exact fun e => h ⟨e.1.symm, e.2.symm⟩

theorem mayEnter_facts {f : Fuses} {r : Repair} (h : f.mayEnter r = true) : Sound r ∧ ∀ q ∈ f.repairs, Apart q r := by
  cases r with
  | cluster a x =>
    simp only [Fuses.mayEnter, Fuses.mayRepair, Bool.and_eq_true, decide_eq_true_eq, beq_iff_eq, List.all_eq_true] at h
    obtain ⟨⟨⟨⟨_, hdie⟩, hspare⟩, hfailed⟩, hall⟩ := h
    refine ⟨⟨hdie, hspare, hfailed⟩, fun q hq => ?_⟩
    cases q with
    | cluster c y => simpa [Apart] using hall _ hq
    | row => trivial
    | hbm => trivial
  | row a g x =>
    simp only [Fuses.mayEnter, Bool.and_eq_true, decide_eq_true_eq, List.all_eq_true] at h
    obtain ⟨hrow, hall⟩ := h
    refine ⟨hrow, fun q hq => ?_⟩
    cases q with
    | cluster => trivial
    | row b k y => simpa [Apart, imp_iff_not_or] using hall _ hq
    | hbm => trivial
  | hbm stack row => exact ⟨trivial, fun q _ => by cases q <;> trivial⟩

/-- Fuses f hold what g hold, and more repairs, which contend with none. -/
structure Entered (g f : Fuses) (rs : List Repair) : Prop where
  secret : f.secret = g.secret
  repairs : f.repairs = g.repairs ++ rs
  sound : ∀ p ∈ rs, Sound p
  apart : ∀ p ∈ rs, ∀ q ∈ g.repairs ++ rs, p = q ∨ Apart p q

theorem Entered.enter {g f : Fuses} {rs : List Repair} (h : Entered g f rs) {r : Repair} (hr : f.mayEnter r = true) :
    Entered g { f with repairs := f.repairs ++ [r] } (rs ++ [r]) := by
  obtain ⟨hsound, hapart⟩ := mayEnter_facts hr
  rw [h.repairs] at hapart
  refine ⟨h.secret, by simp [h.repairs], fun p hp => ?_, fun p hp q hq => ?_⟩
  · rcases List.mem_append.1 hp with hp | hp
    · exact h.sound p hp
    · exact List.mem_singleton.1 hp ▸ hsound
  · rw [← List.append_assoc] at hq
    rcases List.mem_append.1 hp with hp | hp <;> rcases List.mem_append.1 hq with hq | hq
    · exact h.apart p hp q hq
    · exact .inr (List.mem_singleton.1 hq ▸ hapart p (List.mem_append_right _ hp))
    · exact .inr (List.mem_singleton.1 hp ▸ (hapart q hq).symm)
    · exact .inl ((List.mem_singleton.1 hp).trans (List.mem_singleton.1 hq).symm)

theorem Entered.foldl {g f : Fuses} {rs : List Repair} (h : Entered g f rs) (l : List Repair) :
    ∃ rs, Entered g (l.foldl (fun (f : Fuses) r => if f.mayEnter r then { f with repairs := f.repairs ++ [r] } else f) f) rs := by
  induction l generalizing f rs with
  | nil => exact ⟨rs, h⟩
  | cons r l ih =>
    rw [List.foldl_cons]
    split
    · next hr => exact ih (h.enter hr)
    · exact ih h

theorem repair_enters (f : Fuses) (n : Nat) : ∃ rs, Entered f (f.repair n) rs :=
  Entered.foldl (rs := []) ⟨rfl, by simp, nofun, nofun⟩ _

/-- The repairs of a reset as the statement asks for them. -/
theorem Entered.stated {g f : Fuses} {rs : List Repair} (h : Entered g f rs) :
    (∀ a k x y, Repair.row a k x ∈ rs → Repair.row a k y ∈ g.repairs ++ rs → x = y ∧ x < 128) ∧
    ∀ a c x y, Repair.cluster a x ∈ rs → Repair.cluster c y ∈ g.repairs ++ rs → (a = c ↔ x = y) ∧ a / 34 = x / 34 ∧ 32 ≤ a % 34 ∧ x % 34 < 32 := by
  refine ⟨fun a k x y hp hq => ⟨?_, h.sound _ hp⟩, fun a c x y hp hq => ⟨?_, h.sound _ hp⟩⟩
  · rcases h.apart _ hp _ hq with e | ha
    · exact (Repair.row.inj e).2.2
    · exact absurd ⟨rfl, rfl⟩ ha
  · rcases h.apart _ hp _ hq with e | ha
    · exact iff_of_true (Repair.cluster.inj e).1 (Repair.cluster.inj e).2
    · exact iff_of_false ha.1 ha.2

theorem byte_cleared (s : State) {a : Nat} (h : 2 ^ 51 ≤ a) : s.cleared.byte (paLoc a) = s.byte (paLoc a) :=
  get_filter s.mem _ a fun _ => decide_eq_true h

/-- No context, grid, block or handle, no translation, and nothing of what these have left. -/
def Bare (t : State) : Prop :=
  t.ctxs = [] ∧ t.grids = [] ∧ t.blocks = [] ∧ t.handles = [] ∧ t.msgs = [] ∧ t.tlbs = [] ∧ t.pins = [] ∧ t.armed = [] ∧ t.queues = [] ∧
    t.rings = [] ∧ t.conns = [] ∧ t.caps = [] ∧ t.vgcmds = [] ∧ t.rollbacks = [] ∧ t.parity = [] ∧ t.thermal = 0 ∧ t.etherType = 0x88B5

theorem bare_cleared (s : State) : Bare s.cleared := ⟨rfl, rfl, rfl, rfl, rfl, rfl, rfl, rfl, rfl, rfl, rfl, rfl, rfl, rfl, rfl, rfl, rfl⟩

theorem byte_reset (l : Loc) : State.reset.byte l = 0 := by
  obtain ⟨st, o⟩ := l
  cases st <;> rfl

/-- Settles O53: what is left by `bare_cleared`, memory outside by `byte_cleared`, the fuses by `repair_enters`. -/
theorem resets : Obligations.Resets := by
  unfold Obligations.Resets
  intro s
  obtain ⟨rs, hrs⟩ := repair_enters s.fuses (s.resets + 1)
  obtain ⟨hrow, hcluster⟩ := hrs.stated
  refine ⟨⟨_, rfl, bare_cleared s, ?_, ?_, rfl, rfl⟩, fun hf => ⟨{ s.bringUp with contrail := s.contrail }, if_neg (by simp [hf]), bare_cleared s, ?_, ?_, rfl, rfl⟩,
    fun hf => if_pos hf, ⟨_, rfl, bare_cleared s, ?_, rfl, rfl⟩, bare_cleared State.reset, rfl, rfl, rfl, byte_reset⟩
  · exact ⟨fun a h => byte_cleared s h, fun _ _ => rfl⟩
  · exact ⟨rfl, hrs.secret, rs, hrs.repairs, hrow, hcluster⟩
  · exact ⟨fun a h => byte_cleared s h, fun _ _ => rfl⟩
  · exact ⟨rfl, hrs.secret, rs, hrs.repairs, hrow, hcluster⟩
  · exact ⟨fun a h => byte_cleared s h, fun _ _ => rfl⟩

end Sys2Proof.Proofs.Driver
end

section
/-! SUPPORT. GETC and SETC (R51-R53): O30. -/

namespace Sys2Proof.Proofs.ControlRegisters

open Sys2Proof Sys2Proof.Machine Sys2Proof.Laws Sys2Proof.Proofs.IssuingBlock Sys2Proof.Proofs.Lanes

/-! ## GETC -/

theorem controls_eq (i : Iss) : i.controls =
    [0, 1, 2, 3, 4, 5, 6, 7, 8, 9, 10, 12, 13, 14, 15, 16, 17, 18, 20, 21, 22, 23, 24, 25, 26, 27, 28].map fun n => (n, i.creg n) := rfl

theorem creg_controls (i : Iss) : ∀ p ∈ i.controls, i.creg p.1 = p.2 := by
  rw [controls_eq]
  intro p hp
  obtain ⟨n, -, rfl⟩ := List.mem_map.1 hp
  rfl

/-- The digits of a number in base 256, added up from the lowest. -/
theorem foldl_digits (n : Nat) (f : Nat → Nat) (m acc : Nat) : (List.range n).foldl (fun w k => w + f k % 256 * 2 ^ (m + 8 * k)) acc =
    acc + 2 ^ m * ((List.range n).map f).foldr (fun x w => x % 2 ^ 8 + 2 ^ 8 * w) 0 := by
  induction n generalizing f m acc with
  | zero => simp
  | succ n ih =>
    have hstep : ∀ k, 2 ^ (m + 8 * (k + 1)) = 2 ^ (m + 8 + 8 * k) := fun k => congrArg (2 ^ ·) (by omega)
    rw [List.range_succ_eq_map, List.foldl_cons, List.foldl_map, List.map_cons, List.map_map, List.foldr_cons]
    simp only [Nat.succ_eq_add_one, hstep]
    rw [ih (fun k => f (k + 1)) (m + 8), Nat.pow_add 2 m 8]
    simp only [Nat.mul_zero, Nat.add_zero, Nat.reducePow, Function.comp_def, Nat.succ_eq_add_one]
    ring

theorem tagWord_eq (c : List Nat) : BitVec.ofNat 64 (tagWord c) = packSubs .i8 ((List.range 8).map fun k => c.getD k 0) := by
  have h := foldl_digits 8 (fun k => c.getD k 0) 0 0
  simp only [Nat.zero_add, Nat.pow_zero, Nat.one_mul] at h
  exact congrArg (BitVec.ofNat 64) h

/-- The counts of the tags, one in each byte, where none exceeds it. -/
theorem bits_tagWord {c : List Nat} (hc : ∀ x ∈ c, x < 256) {k : Nat} (hk : k < 8) :
    bits (BitVec.ofNat 64 (tagWord c)).toNat (8 * k) 8 = c.getD k 0 := by
  have hlt : c.getD k 0 < 256 := by
    by_cases h : k < c.length
    · rw [List.getD_eq_getElem _ _ h]
      exact hc _ (List.getElem_mem h)
    · rw [List.getD_eq_default _ _ (Nat.le_of_not_lt h)]
      decide
  rw [tagWord_eq, Nat.mul_comm]
  exact (sub_packSubs_map .i8 (fun k => c.getD k 0) hk).trans (Nat.mod_eq_of_lt hlt)

section
variable {s : State} {i : Iss} (h : s.issue? = some i)
include h

theorem getc_reads {d : Dst} (hd : i.g.destBusy i.sl.wb [] (dstRegs d) = false) {n : BitVec 10} {x : Word} (hx : i.creg n.toNat = x) :
    ∃ t g', exec (.getc d n) s = .next t ∧ i.Alone t g' ∧ i.PlainResult d x g' :=
  ⟨_, _, run_issue h _, putD_next h d (i.creg n.toNat) hd |>.1, hx ▸ (putD_next h d (i.creg n.toNat) hd).2⟩

/-! ## SETC -/

theorem exec_setc {a : Src} (hc : i.checkSca .i64 [a] = .ok ()) (n : BitVec 10) : exec (.setc a n) s = .next (i.conclude
    (if n.toNat = 0 ∧ modeValueOk (i.uni a).toNat = false then .trap (illopTrap 8)
     else if cregReserved n.toNat (i.uni a) = true then .trap (illopTrap 5)
     else if cregWritable n.toNat = false then .trap (plainTrap .priv 1) else i.group (i.g.setCreg n.toNat (i.uni a)))) := by
  have hconst : constBad .i64 a = false := by
    cases hb : constBad .i64 a with
    | false => rfl
    | true => simp [Iss.checkSca, hb] at hc
  rw [show exec (.setc a n) s = _ from run_issue h _]
  simp only [hc, hconst, orTrap, Bool.not_false, and_true, Bool.not_eq_true']

theorem setc_sets {a : Src} (hc : i.checkSca .i64 [a] = .ok ()) {n : BitVec 10} (hm : n.toNat = 0 → modeValueOk (i.uni a).toNat = true)
    (hr : cregReserved n.toNat (i.uni a) = false) (hw : cregWritable n.toNat = true) : exec (.setc a n) s = .next (i.conclude (i.group (i.g.setCreg n.toNat (i.uni a)))) := by
  have h8 : ¬ (n.toNat = 0 ∧ modeValueOk (i.uni a).toNat = false) := fun e => by simp [hm e.1] at e
  rw [exec_setc h hc, if_neg h8, hr, hw]
  rfl

theorem setc_reserved {a : Src} (hc : i.checkSca .i64 [a] = .ok ()) {n : BitVec 10} (hn : n.toNat ≠ 0)
    (hr : cregReserved n.toNat (i.uni a) = true) : exec (.setc a n) s = .next (i.conclude (.trap (illopTrap 5))) := by
  rw [exec_setc h hc, if_neg fun e => hn e.1, if_pos hr]

theorem setc_readOnly {a : Src} (hc : i.checkSca .i64 [a] = .ok ()) {n : BitVec 10}
    (hn : n.toNat ∈ [3, 4, 11, 12, 13, 14, 15, 17, 18, 19, 20, 21, 22, 23, 24, 28, 29]) :
    exec (.setc a n) s = .next (i.conclude (.trap (plainTrap .priv 1))) := by
  have hro : ∀ k ∈ [3, 4, 11, 12, 13, 14, 15, 17, 18, 19, 20, 21, 22, 23, 24, 28, 29],
      k ≠ 0 ∧ cregReserved k (i.uni a) = false ∧ cregWritable k = false := by
    simp [cregReserved, cregWritable]
  obtain ⟨h0, hr, hw⟩ := hro _ hn
  rw [exec_setc h hc, if_neg fun e => h0 e.1, hr, hw]
  rfl

/-- The group that SETC leaves: it has gone on, and is as `Group.setCreg` has made it. -/
theorem alone_setc (g : Group) (hslot : ∀ b, g.slot b = i.g.slot b) :
    ∃ g', i.Alone (i.conclude (i.group g)) g' ∧ i.Onward g' ∧ g'.core = g.core := by
  obtain ⟨rfl, _, hg⟩ := issue_facts h
  exact ⟨_, alone_group hg g, onward_finished (hslot _) (hslot _), core_finished i g⟩

end

theorem slot_setCreg (g : Group) (n : Nat) (x : Word) (b : Bool) : (g.setCreg n x).slot b = g.slot b := by
  unfold Group.setCreg
  split <;> rfl

/-- What the rows of `Iss.writables` have in common: a value of the register's width is taken, any other has a reserved bit. -/
def Writes (i : Iss) (x : Word) (n w : Nat) (g : Group) : Prop :=
  n ≠ 0 ∧ cregWritable n = true ∧ (cregReserved n x = false ↔ x.toNat < 2 ^ w) ∧ i.g.setCreg n x = g

theorem writes_writables (i : Iss) (x : Word) : ∀ p ∈ i.writables x, Writes i x p.1 p.2.1 p.2.2 := by
  have hwide : x.toNat < 2 ^ 64 := x.isLt
  have hfits : ∀ k, ((x.toNat / 2 ^ k != 0) = false ↔ x.toNat < 2 ^ k) := fun k => by
    simp [Nat.div_eq_zero_iff]
  unfold Iss.writables
  simp only [List.forall_mem_cons]
  refine ⟨?_, ?_, ?_, ?_, ?_, ?_, ?_, ?_, ?_, ?_, ?_, List.forall_mem_nil _⟩
  · exact ⟨by decide, by decide, hfits 7, rfl⟩
  · exact ⟨by decide, by decide, hfits 7, rfl⟩
  · exact ⟨by decide, by decide, iff_of_true rfl hwide, rfl⟩
  · exact ⟨by decide, by decide, iff_of_true rfl hwide, rfl⟩
  · exact ⟨by decide, by decide, iff_of_true rfl hwide, rfl⟩
  · exact ⟨by decide, by decide, iff_of_true rfl hwide, rfl⟩
  · exact ⟨by decide, by decide, iff_of_true rfl hwide, rfl⟩
  · exact ⟨by decide, by decide, iff_of_true rfl hwide, rfl⟩
  · exact ⟨by decide, by decide, hfits 39, rfl⟩
  · exact ⟨by decide, by decide, iff_of_true rfl hwide, rfl⟩
  · exact ⟨by decide, by decide, iff_of_true rfl hwide, rfl⟩

section
variable {s : State} {i : Iss} (h : s.issue? = some i) {a : Src} (hc : i.checkSca .i64 [a] = .ok ()) {n : BitVec 10}
include h hc

theorem setc_writable {p : Nat × Nat × Group} (hp : Writes i (i.uni a) p.1 p.2.1 p.2.2) (hn : n.toNat = p.1) :
    if (i.uni a).toNat < 2 ^ p.2.1 then ∃ t g', exec (.setc a n) s = .next t ∧ i.Alone t g' ∧ i.Onward g' ∧ g'.core = p.2.2.core
    else exec (.setc a n) s = .next (i.conclude (.trap (illopTrap 5))) := by
  obtain ⟨h0, hw, hr, hset⟩ := hp
  rw [← hn] at h0 hw hr hset
  split
  · next hx =>
    obtain ⟨g', halone, honward, hcore⟩ := alone_setc h (i.g.setCreg n.toNat (i.uni a)) (slot_setCreg _ _ _)
    exact ⟨_, g', setc_sets h hc (fun e => absurd e h0) (hr.2 hx) hw, halone, honward, hset ▸ hcore⟩
  · next hx => exact setc_reserved h hc h0 (by simpa using mt hr.1 hx)

theorem setc_mode (hn : n.toNat = 0) : if modeValueOk (i.uni a).toNat = true then
      ∃ t g', exec (.setc a n) s = .next t ∧ i.Alone t g' ∧ i.Onward g' ∧ g'.mode.toNat = (i.uni a).toNat ∧ { g'.core with mode := i.g.mode } = i.g.core
    else exec (.setc a n) s = .next (i.conclude (.trap (illopTrap 8))) := by
  split
  · next hm =>
    have hlt : (i.uni a).toNat < 2 ^ 14 := by
      unfold modeValueOk at hm
      simp only [Bool.and_eq_true, decide_eq_true_eq] at hm
      exact hm.1
    obtain ⟨g', halone, honward, hcore⟩ := alone_setc h (i.g.setCreg n.toNat (i.uni a)) (slot_setCreg _ _ _)
    rw [hn] at hcore
    refine ⟨_, g', setc_sets h hc (fun _ => hm) (by rw [hn]; rfl) (by rw [hn]; rfl), halone, honward, ?_, ?_⟩
    · rw [show g'.mode = (i.uni a).setWidth 14 from congrArg Group.mode hcore, BitVec.toNat_setWidth, Nat.mod_eq_of_lt hlt]
    · rw [hcore]
      rfl
  · next hm =>
    rw [exec_setc h hc, if_pos ⟨hn, by simpa using hm⟩]

theorem setc_stack (hn : n.toNat = 16) : if (i.uni a).toNat % 16 = 0 then
      ∃ t g', exec (.setc a n) s = .next t ∧ i.Alone t g' ∧ i.Onward g' ∧ g'.dstkp = i.uni a ∧ g'.stackCopy = [] ∧
        { g'.core with dstkp := i.g.dstkp, stackCopy := i.g.stackCopy } = i.g.core
    else exec (.setc a n) s = .next (i.conclude (.trap (illopTrap 5))) := by
  have h0 : n.toNat ≠ 0 := by omega
  have hr : cregReserved n.toNat (i.uni a) = ((i.uni a).toNat % 16 != 0) := by rw [hn]; rfl
  split
  · next hx =>
    obtain ⟨g', halone, honward, hcore⟩ := alone_setc h (i.g.setCreg n.toNat (i.uni a)) (slot_setCreg _ _ _)
    rw [hn] at hcore
    refine ⟨_, g', setc_sets h hc (fun e => absurd e h0) (by simp [hr, hx]) (by rw [hn]; rfl), halone, honward, ?_, ?_, ?_⟩
    · exact congrArg Group.dstkp hcore
    · exact congrArg Group.stackCopy hcore
    · rw [hcore]
      rfl
  · next hx => exact setc_reserved h hc h0 (by simp [hr, hx])

end

/-- Settles O30: GETC by `getc_reads` with `creg_controls` and `bits_tagWord`, SETC by the four `setc_` lemmas. -/
theorem controlRegisters : Obligations.ControlRegisters := by
  unfold Obligations.ControlRegisters
  intro s i d a n h
  refine ⟨fun hd => ⟨fun p hp hn => getc_reads h hd (hn ▸ creg_controls i p hp), fun hn => ?_, fun hh hn => getc_reads h hd ?_,
    fun hh hn g hg => getc_reads h hd ?_⟩, fun hc => ⟨fun p hp hn => setc_writable h hc (writes_writables i _ p hp) hn, setc_mode h hc,
    setc_stack h hc, setc_readOnly h hc⟩⟩
  · obtain ⟨t, g', hrun, halone, hres⟩ := getc_reads h hd (n := n) (x := BitVec.ofNat 64 (tagWord i.g.tagc)) (by rw [hn]; rfl)
    exact ⟨t, g', _, hrun, halone, hres, fun hlt k hk => bits_tagWord hlt hk⟩
  · rw [hn]
    simp [Iss.creg, hh]
  · obtain ⟨rfl, _, _⟩ := issue_facts h
    rw [hn]
    simp [Iss.creg, hh, hg]

end Sys2Proof.Proofs.ControlRegisters
end

section
/-! SUPPORT. The end of an instruction that has changed more than its own group, and what the checks of the scratchpad give. SYNCW (R150, R151): O17. -/

namespace Sys2Proof.Proofs.SyncWords

open Sys2Proof Sys2Proof.Machine Sys2Proof.Laws Sys2Proof.Proofs.IssuingBlock

/-! ## The end of an instruction -/

section
variable {i : Iss} {t : State} {g : Group} (hg : t.group? i.gr = some g)
include hg

theorem group?_ended : (i.conclude (.done t false)).group? i.gr = some (finished i false g) := group?_modGroup_self _ hg

theorem group?_switched (hc : t.cycle = i.s.cycle) : (i.conclude (.done t true)).group? i.gr = some (finished i true g) := by
  have e : (i.conclude (.done t true)).group? i.gr = some { g.ended i.slotB true i.s.cycle with since := t.cycle } := by
    refine (group?_modGroup_self (x := g.ended i.slotB true i.s.cycle) (fun g => { g with since := t.cycle }) ?_)
    exact (group?_setCore _ _ _ _).trans (group?_modGroup_self _ hg)
  rw [e, hc]
  rfl

end

theorem group?_done_ne {i : Iss} {gr : GRef} (h : gr ≠ i.gr) (t : State) (sw : Bool) : (i.conclude (.done t sw)).group? gr = t.group? gr := by
  have e := group?_modGroup_ne (s := t) (fun g => g.ended i.slotB sw i.s.cycle) h
  cases sw with
  | false => exact e
  | true => exact (group?_modGroup_ne _ h).trans e

@[simp] theorem byte_ended (i : Iss) (t : State) (sw : Bool) (l : Loc) : (i.conclude (.done t sw)).byte l = t.byte l := by
  have e := byte_modGroup t i.gr (fun g => g.ended i.slotB sw i.s.cycle) l
  cases sw with
  | false => exact e
  | true => exact ((byte_modGroup _ _ _ l).trans (byte_setCore _ _ _ l)).trans e

/-! ## What the checks of an access to the scratchpad give (R237-R239) -/

theorem ok_of_ite {ε α : Type} {c : Prop} [Decidable c] {e : ε} {r : Except ε α} {x : α} (h : (if c then .error e else r) = .ok x) :
    ¬ c ∧ r = .ok x := by
  split at h
  · cases h
  · next hc => exact ⟨hc, h⟩

theorem lateChecks_ok {s : State} {who : Who} {q : Req} {a x : Acc} {race : Bool} (h : s.lateChecks who q a race = .ok x) : x = a := by
  unfold State.lateChecks at h
  simp only at h
  generalize (if (race && a.watch) = true then s.race? who a.loc q.n q.w else none) = hit at h
  cases hit with
  | some w => cases h
  | none =>
    obtain ⟨-, h⟩ := ok_of_ite h
    split at h
    · exact (Except.ok.inj (ok_of_ite h).2).symm
    · exact (Except.ok.inj h).symm

/-- A place in the scratchpad is watched, of no checkpoint, and in some block. -/
theorem checkSp_ok {s : State} {who : Who} {b : Block} {core : Option Nat} {q : Req} {race : Bool} {x : Acc}
    (h : s.checkSp who b core q race = .ok x) : ∃ n ofs, x = ⟨⟨.sp n, ofs⟩, true, false, false⟩ := by
  unfold State.checkSp at h
  obtain ⟨-, h⟩ := ok_of_ite h
  obtain ⟨-, h⟩ := ok_of_ite h
  obtain ⟨-, h⟩ := ok_of_ite h
  obtain ⟨-, h⟩ := ok_of_ite h
  simp only at h
  split at h
  · obtain ⟨-, h⟩ := ok_of_ite h
    cases h
  · obtain ⟨-, h⟩ := ok_of_ite h
    obtain ⟨-, h⟩ := ok_of_ite h
    obtain ⟨-, h⟩ := ok_of_ite h
    obtain ⟨-, h⟩ := ok_of_ite h
    exact ⟨_, _, lateChecks_ok h⟩

/-- A write to the scratchpad pins no line. -/
theorem pins_perform_sp (s : State) (who : Who) (n ofs : Nat) (vs : List Byte) :
    (s.perform who ⟨⟨.sp n, ofs⟩, true, false, false⟩ vs).pins = s.pins := by
  simp [State.perform, State.publish, State.claim, State.setBytes, State.setCells]

/-! ## SYNCW -/

/-- The instruction as SYNCW hands it on. -/
def armOp (i : Iss) (a b : Src) : MemOp := i.mem (.syncw a b) 1 0 [i.uni a, i.uni b] []

/-- The agent of the write that arms the word. -/
def armWho (i : Iss) : Who := { i.s.memWho i.b i.g i.gr.grp (armOp i (.reg 0) (.reg 0)) with atomic := some .block, pub := i.g.fences }

theorem lanesOf_one : lanesOf 1 = [0] := by decide

theorem lanesOf_zero : lanesOf 0 = [] := by decide

theorem atomAll_arm (i : Iss) (a b : Src) {x : Acc}
    (hx : i.s.check { i.who with atomic := some .block } i.b (coreIdx i.gr.grp)
      ⟨.sp, i.uni a, 16, decide ((i.uni a).toNat % 16 = 0), true, true, false, false, true⟩ true = .ok x) :
    i.s.atomAll i.gr i.b i.g (armOp i a b) = .ok (i.s.perform (armWho i) x (leBytes 8 (bits (i.uni b).toNat 0 32))) := by
  have hc : i.s.check { i.s.memWho i.b i.g i.gr.grp (armOp i a b) with atomic := some (atomScope (armOp i a b).instr i.b ((armOp i a b).atomReq 0).addr) }
      i.b (coreIdx i.gr.grp) ((armOp i a b).atomReq 0) true = .ok x := hx
  unfold State.atomAll
  rw [show lanesOf (armOp i a b).lanes = [0] from lanesOf_one, show lanesOf (armOp i a b).help = [] from lanesOf_zero]
  simp only [List.foldlM_cons, List.foldlM_nil, hc, bind, Except.bind, pure, Except.pure, List.nil_append, List.foldl_cons, List.foldl_nil]
  rfl

theorem leBytes_low {n : Nat} (h : n < 2 ^ 32) : leBytes 8 n = leBytes 4 n ++ leBytes 4 0 := by
  simp only [leBytes, List.cons_append, List.nil_append]
  have h4 : n / 256 / 256 / 256 / 256 = 0 := by omega
  rw [h4]

/-- The word's place, and the machine once SYNCW has armed it and taken what was counted there. -/
theorem exec_syncw {s : State} {i : Iss} (h : s.issue? = some i) {a b : Src} {x : Acc} (hc : i.checkSca .i64 [a, b] = .ok ())
    (hl : i.onlyHelpers = false) (hb : (i.uni b).toNat < 2 ^ 32) (hq : i.g.quiet = true) (hp : s.PinRoom 0)
    (hx : i.s.check { i.who with atomic := some .block } i.b (coreIdx i.gr.grp)
      ⟨.sp, i.uni a, 16, decide ((i.uni a).toNat % 16 = 0), true, true, false, false, true⟩ true = .ok x) :
    ∃ ws, exec (.syncw a b) s = .next (i.conclude (.done
      { i.s.perform (armWho i) x (leBytes 4 (i.uni b).toNat ++ leBytes 4 0) with words := ws } false)) := by
  obtain ⟨rfl, _, _⟩ := issue_facts h
  have hbytes : leBytes 8 (bits (i.uni b).toNat 0 32) = leBytes 4 (i.uni b).toNat ++ leBytes 4 0 := by
    rw [show bits (i.uni b).toNat 0 32 = (i.uni b).toNat by unfold bits; omega, leBytes_low hb]
  have hatomic : i.atomic (armOp i a b) = .done (i.s.perform (armWho i) x (leBytes 4 (i.uni b).toNat ++ leBytes 4 0)) false := by
    obtain ⟨n, ofs, rfl⟩ := checkSp_ok hx
    have hpins : (i.s.perform (armWho i) ⟨⟨.sp n, ofs⟩, true, false, false⟩ (leBytes 4 (i.uni b).toNat ++ leBytes 4 0)).overPinned = false := by
      unfold State.overPinned
      rw [pins_perform_sp, decide_eq_false (show ¬ 8192 < i.s.pins.length from Nat.not_lt.2 hp), Bool.false_and]
    unfold Iss.atomic
    rw [hq, atomAll_arm i a b hx, hbytes]
    simp only [hpins]
    rfl
  rw [show exec (.syncw a b) i.s = _ from run_issue h _]
  unfold orTrap Iss.unlessHelpers
  rw [hc]
  simp only [hl, if_neg (Nat.not_le.2 hb), Bool.false_eq_true, if_false]
  rw [show i.atomic (i.mem (.syncw a b) 1 0 [i.uni a, i.uni b] []) = _ from hatomic]
  simp only
  split
  · exact ⟨_, rfl⟩
  · exact ⟨_, rfl⟩

theorem leNat_leBytes (n v : Nat) : leNat (leBytes n v) = v % 256 ^ n := by
  induction n generalizing v with
  | zero => simp [leBytes, leNat, Nat.mod_one]
  | succ n ih =>
    rw [leBytes, leNat, ih, BitVec.toNat_ofNat, show 256 ^ (n + 1) = 256 * 256 ^ n from Nat.pow_succ', Nat.mod_mul]

theorem length_leBytes (n v : Nat) : (leBytes n v).length = n := by
  induction n generalizing v with
  | zero => rfl
  | succ n ih => simp [leBytes, ih]

/-! ## Numbers in memory after a store -/

theorem add_add (l : Loc) (k n : Nat) : (l.add k).add n = l.add (k + n) := by
  simp [Loc.add, Nat.add_assoc]

theorem add_zero (l : Loc) : l.add 0 = l := rfl

theorem key_add (l : Loc) (k : Nat) : (l.add k).key = l.key + k := by
  unfold Loc.key Loc.add
  cases l.store with
  | far p => exact (Nat.add_assoc _ _ _).symm
  | _ => rfl

theorem num_stored {s t : State} {l : Loc} {vs : List Byte} (h : s.Stored t l vs) {k n : Nat} (hk : k + n ≤ vs.length) :
    t.num (l.add k) n = leNat ((vs.drop k).take n) := by
  unfold State.num State.bytes
  refine congrArg leNat (List.ext_getElem (by simp; omega) fun m hm _ => ?_)
  have hn : m < n := by simpa using hm
  rw [List.getElem_map, List.getElem_range, add_add, h.written _ (by omega), List.getElem_take, List.getElem_drop,
    List.getD_eq_getElem _ _ (by omega)]

theorem num_above_stored {s t : State} {l : Loc} {vs : List Byte} (h : s.Stored t l vs) {k : Nat} (hk : vs.length ≤ k) (n : Nat) :
    t.num (l.add k) n = s.num (l.add k) n := by
  unfold State.num State.bytes
  refine congrArg leNat (List.map_congr_left fun m _ => ?_)
  rw [add_add]
  refine h.kept _ ?_
  have hkey : ¬ (l.add (k + m)).key < l.key + vs.length := by
    rw [key_add]
    omega
  unfold Loc.within
  rw [decide_eq_false hkey, Bool.and_false]

/-- Changes that leave every byte leave what has been stored. -/
theorem stored_of_bytes {s t u : State} {l : Loc} {vs : List Byte} (h : s.Stored t l vs) (hb : ∀ x, u.byte x = t.byte x) : s.Stored u l vs where
  written k hk := (hb _).trans (h.written k hk)
  kept x hx := (hb x).trans (h.kept x hx)

/-- Settles O17: the trap is the first branch of SYNCW, the arming `exec_syncw`. -/
theorem syncWordArmed : Obligations.SyncWordArmed := by
  unfold Obligations.SyncWordArmed
  intro s i a b x h hc hl
  refine ⟨fun hb => ?_, fun hb hq hp hx hs => ?_⟩
  · rw [show exec (.syncw a b) s = _ from run_issue h _]
    unfold orTrap Iss.unlessHelpers
    rw [hc]
    simp only [hl, if_pos hb, Bool.false_eq_true, if_false]
  · obtain ⟨ws, hrun⟩ := exec_syncw h hc hl hb hq hp hx
    obtain ⟨rfl, _, hg⟩ := issue_facts h
    have hg' : State.group? { i.s.perform (armWho i) x (leBytes 4 (i.uni b).toNat ++ leBytes 4 0) with words := ws } i.gr = some i.g :=
      (group?_perform i.s (armWho i) x _ i.gr).trans hg
    have hst : i.s.Stored (i.conclude (.done { i.s.perform (armWho i) x (leBytes 4 (i.uni b).toNat ++ leBytes 4 0) with words := ws } false)) x.loc
        (leBytes 4 (i.uni b).toNat ++ leBytes 4 0) :=
      stored_of_bytes (stored_perform i.s (armWho i) x _ hs) fun l => (byte_ended _ _ _ l).trans (by cases l with | mk st o => cases st <;> rfl)
    obtain ⟨hv, hsc, -, hfl, -, -⟩ := Unread.of_still (unread_self i) (still_finished i false i.g)
    refine ⟨_, _, hrun, group?_ended hg', onward_finished rfl rfl, hv, hsc, hfl, hst, ?_, ?_, ?_⟩
    · refine (num_stored hst (k := 0) (n := 4) (by simp [length_leBytes])).trans ?_
      rw [List.drop_zero, List.take_left' (length_leBytes _ _), leNat_leBytes]
      exact Nat.mod_eq_of_lt hb
    · refine (num_stored hst (k := 4) (n := 4) (by simp [length_leBytes])).trans ?_
      rw [List.drop_left' (length_leBytes _ _)]
      decide
    · exact num_above_stored hst (by simp [length_leBytes]) 4

end Sys2Proof.Proofs.SyncWords
end

section
/-! SUPPORT. What the performing of accesses leaves: every field but bytes and what is noted of them (`State.shape`), and every other group. -/

namespace Sys2Proof.Proofs.Frames

open Sys2Proof Sys2Proof.Machine Sys2Proof.Laws Sys2Proof.Proofs.IssuingBlock

/-! ## The machine without bytes and what is noted of them -/

/-- A block without its groups and its stores. -/
def blockShape (b : Block) : Block := { b with groups := [], sp := [], wb := [], ab := [], cb := [] }

/-- A context without its undo log. -/
def ctxShape (c : Context) : Context := { c with undo := [], ckptValid := true }

/-- A grid without its ordered contributions. -/
def gridShape (g : Grid) : Grid := { g with contribs := [] }

/-- The machine without bytes, without groups, and without what accesses note: writers, releases, poison, pins, undo logs, requests, contributions. -/
def shape (s : State) : State :=
  { s with
    blocks := s.blocks.map blockShape, ctxs := s.ctxs.map ctxShape, grids := s.grids.map gridShape
    mem := [], farMem := [], descs := [], poison := [], writers := [], rels := [], pins := [], reqs := [], msix := 0, contrail := [] }

theorem shape_foldl {α : Type} {f : State → α → State} (hf : ∀ s x, shape (f s x) = shape s) (l : List α) (s : State) :
    shape (l.foldl f s) = shape s := by
  induction l generalizing s with
  | nil => rfl
  | cons x r ih => exact (ih (f s x)).trans (hf s x)

theorem map_replace {α β : Type} (l : List α) (p : α → Prop) [DecidablePred p] (f : α → α) (h : α → β) (hf : ∀ x, h (f x) = h x) :
    (l.map fun x => if p x then f x else x).map h = l.map h := by
  rw [List.map_map]
  refine List.map_congr_left fun x _ => ?_
  show h (if p x then f x else x) = h x
  split
  · exact hf x
  · rfl

theorem shape_modBlock (s : State) (n : Nat) {f : Block → Block} (hf : ∀ b, blockShape (f b) = blockShape b) : shape (s.modBlock n f) = shape s := by
  unfold shape State.modBlock
  simp only [map_replace s.blocks (fun b => b.id = n) f blockShape hf]

@[simp] theorem shape_modGroup (s : State) (gr : GRef) (f : Group → Group) : shape (s.modGroup gr f) = shape s := shape_modBlock _ _ fun _ => rfl

@[simp] theorem shape_setGroup (s : State) (gr : GRef) (g : Group) : shape (s.setGroup gr g) = shape s := shape_modGroup _ _ _

theorem shape_modCtx (s : State) (n : Nat) {f : Context → Context} (hf : ∀ c, ctxShape (f c) = ctxShape c) : shape (s.modCtx n f) = shape s := by
  unfold shape State.modCtx
  simp only [map_replace s.ctxs (fun c => c.num = n) f ctxShape hf]

theorem shape_modGrid (s : State) (n : Nat) {f : Grid → Grid} (hf : ∀ g, gridShape (f g) = gridShape g) : shape (s.modGrid n f) = shape s := by
  unfold shape State.modGrid
  simp only [map_replace s.grids (fun g => g.gid = n) f gridShape hf]

@[simp] theorem shape_setCells (s : State) (x : Store) (m : List Host.Cell) : shape (s.setCells x m) = shape s := by
  cases x with
  | pkg | far p => rfl
  | sp b | wb b | ab b | cb b => exact shape_modBlock _ _ fun _ => rfl

@[simp] theorem shape_setBytes (s : State) (l : Loc) (vs : List Byte) : shape (s.setBytes l vs) = shape s := shape_setCells _ _ _
@[simp] theorem shape_setDesc (s : State) (pa v : Nat) : shape (s.setDesc pa v) = shape s := rfl
/-- A record of Contrail changes Contrail alone. -/
theorem log_eq (s : State) (c x : Nat) (d : List Nat) : ∃ l, s.log c x d = { s with contrail := l } := ⟨_, rfl⟩

@[simp] theorem shape_log (s : State) (c x : Nat) (d : List Nat) : shape (s.log c x d) = shape s := by
  obtain ⟨l, hl⟩ := log_eq s c x d
  rw [hl]
  rfl

@[simp] theorem shape_interrupt (s : State) : shape s.interrupt = shape s := rfl
@[simp] theorem shape_clearPoison (s : State) (pa n : Nat) : shape (s.clearPoison pa n) = shape s := rfl
@[simp] theorem shape_claim (s : State) (who : Who) (l : Loc) (n : Nat) : shape (s.claim who l n) = shape s := rfl
@[simp] theorem shape_publish (s : State) (who : Who) (l : Loc) (n : Nat) : shape (s.publish who l n) = shape s := rfl
@[simp] theorem shape_unpin (s : State) (n : Nat) : shape (s.unpin n) = shape s := rfl

@[simp] theorem shape_request (s : State) (l : Loc) (r : FarReq) : shape (s.request l r) = shape s := by
  unfold State.request
  split <;> rfl

@[simp] theorem shape_pin (s : State) (who : Who) (pa : Nat) : shape (s.pin who pa) = shape s := by
  unfold State.pin
  simp only
  split <;> rfl

@[simp] theorem shape_pinRange (s : State) (who : Who) (pa n : Nat) : shape (s.pinRange who pa n) = shape s :=
  shape_foldl (fun _ _ => shape_pin _ _ _) _ _

@[simp] theorem shape_undoLog (s : State) (who : Who) (pa n : Nat) : shape (s.undoLog who pa n) = shape s := by
  unfold State.undoLog
  refine shape_foldl (fun s k => ?_) _ _
  simp only
  split
  · rfl
  · split
    · rfl
    · split
      · exact shape_modCtx _ _ fun _ => rfl
      · exact (shape_log _ _ _ _).trans (shape_modCtx s who.ctx fun _ => rfl)

theorem shape_ite {c : Prop} [Decidable c] {s t u : State} (ht : shape t = shape s) (hu : shape u = shape s) : shape (if c then t else u) = shape s := by
  split
  · exact ht
  · exact hu

@[simp] theorem shape_perform (s : State) (who : Who) (a : Acc) (vs : List Byte) : shape (s.perform who a vs) = shape s := by
  unfold State.perform
  simp only [shape_publish, apply_ite shape, shape_pinRange, shape_claim, shape_clearPoison, shape_setBytes, shape_undoLog, ite_self]

@[simp] theorem shape_clearCovered (s : State) (ps : List (Loc × Nat)) : shape (s.clearCovered ps) = shape s := by
  unfold State.clearCovered
  refine shape_foldl (fun s k => ?_) _ _
  split <;> rfl

@[simp] theorem shape_performStds (s : State) (who : Who) (a : Loc) (watch ckpt : Bool) (x : Word) : shape (s.performStds who a watch ckpt x) = shape s := by
  unfold State.performStds
  simp only [shape_publish, apply_ite shape, shape_pinRange, shape_claim, shape_clearPoison, shape_undoLog, ite_self,
    shape_foldl (fun (s : State) (j : Nat) => shape_setDesc s (a.ofs + 64 * j) (sub x j .n16))]

@[simp] theorem shape_performLane (s : State) (gr : GRef) (b : Block) (g : Group) (m : MemOp) (l : Nat) :
    shape (s.performLane gr b g m l) = shape s := by
  unfold State.performLane
  simp only
  split
  · exact shape_modGroup _ _ _
  · exact shape_modGroup _ _ _
  · split
    · rfl
    · exact shape_modGrid _ _ fun _ => rfl
  · split
    · rfl
    · exact shape_performStds _ _ _ _ _ _
  · split
    · split <;> exact shape_modGroup _ _ _
    · split
      · rfl
      · exact (shape_modGroup _ _ _).trans (shape_perform _ _ _ _)

@[simp] theorem shape_rowPoison (s : State) (m : MemOp) : shape (s.rowPoison m) = shape s := by
  unfold State.rowPoison
  split
  · exact shape_clearCovered _ _
  · rfl

@[simp] theorem shape_performEach (s : State) (gr : GRef) (id : Nat) (mask : Lanes) : shape (s.performEach gr id mask) = shape s := by
  refine shape_foldl (fun s l => ?_) _ _
  simp only
  split
  · split
    · rfl
    · split
      · exact (shape_modGroup _ _ _).trans (shape_performLane _ _ _ _ _ _)
      · rfl
  · rfl

@[simp] theorem shape_performLanes (s : State) (gr : GRef) (id : Nat) (mask : Lanes) : shape (s.performLanes gr id mask) = shape s := by
  unfold State.performLanes
  simp only
  split
  · exact (shape_rowPoison _ _).trans (shape_performEach _ _ _ _)
  · exact shape_performEach _ _ _ _

@[simp] theorem shape_performAccepted (s : State) (gr : GRef) : shape (s.performAccepted gr) = shape s := by
  unfold State.performAccepted
  split
  · rfl
  · exact shape_foldl (fun _ _ => shape_performLanes _ _ _ _) _ _

/-! ## Other groups -/

/-- Every group but gr stands. -/
def OthersStand (gr : GRef) (s t : State) : Prop := ∀ x, x ≠ gr → t.group? x = s.group? x

theorem OthersStand.refl (gr : GRef) (s : State) : OthersStand gr s s := fun _ _ => rfl

theorem OthersStand.trans {gr : GRef} {s t u : State} (h : OthersStand gr s t) (k : OthersStand gr t u) : OthersStand gr s u :=
  fun x hx => (k x hx).trans (h x hx)

theorem OthersStand.foldl {α : Type} {gr : GRef} {f : State → α → State} (hf : ∀ s x, OthersStand gr s (f s x)) (l : List α) (s : State) :
    OthersStand gr s (l.foldl f s) := by
  induction l generalizing s with
  | nil => exact .refl gr s
  | cons x r ih => exact (hf s x).trans (ih (f s x))

theorem others_modGroup (s : State) (gr : GRef) (f : Group → Group) : OthersStand gr s (s.modGroup gr f) := fun _ h => group?_modGroup_ne f h

theorem others_of_same {gr : GRef} {s t : State} (h : SameBytes s t) : OthersStand gr s t := fun _ _ => h.group? _

theorem others_perform (gr : GRef) (s : State) (who : Who) (a : Acc) (vs : List Byte) : OthersStand gr s (s.perform who a vs) :=
  fun _ _ => group?_perform _ _ _ _ _

theorem same_clearCovered (s : State) (ps : List (Loc × Nat)) : SameBytes s (s.clearCovered ps) := by
  unfold State.clearCovered
  exact SameBytes.foldl _ (fun _ _ => same_ite _ (same_clearPoison ..)) _ _

theorem group?_of_blocks {s t : State} (h : t.blocks = s.blocks) (gr : GRef) : t.group? gr = s.group? gr := by
  unfold State.group? State.block?
  rw [h]

theorem blocks_undoLog (s : State) (who : Who) (pa n : Nat) : (s.undoLog who pa n).blocks = s.blocks := (same_undoLog s who pa n).blocks

theorem blocks_performStds (s : State) (who : Who) (a : Loc) (watch ckpt : Bool) (x : Word) : (s.performStds who a watch ckpt x).blocks = s.blocks := by
  have hdesc : ∀ (l : List Nat) (s : State), (l.foldl (fun s j => s.setDesc (a.ofs + 64 * j) (sub x j .n16)) s).blocks = s.blocks := by
    intro l
    induction l with
    | nil => exact fun _ => rfl
    | cons y r ih => exact fun s => (ih _).trans rfl
  unfold State.performStds State.publish
  simp only [apply_ite State.blocks, (same_pinRange _ who a.ofs 256).blocks, (same_claim _ who a 256).blocks, (same_clearPoison _ a.ofs 256).blocks,
    (same_undoLog _ who a.ofs 256).blocks, ite_self, hdesc]

theorem others_performLane (s : State) (gr : GRef) (b : Block) (g : Group) (m : MemOp) (l : Nat) : OthersStand gr s (s.performLane gr b g m l) := by
  unfold State.performLane
  simp only
  split
  · exact others_modGroup _ _ _
  · exact others_modGroup _ _ _
  · split
    · exact .refl gr s
    · exact fun _ _ => rfl
  · split
    · exact .refl gr s
    · exact fun x _ => group?_of_blocks (blocks_performStds _ _ _ _ _ _) x
  · split
    · split <;> exact others_modGroup _ _ _
    · split
      · exact .refl gr s
      · exact (others_perform gr _ _ _ _).trans (others_modGroup _ _ _)

theorem group?_rowPoison (s : State) (m : MemOp) (gr : GRef) : (s.rowPoison m).group? gr = s.group? gr := by
  unfold State.rowPoison
  split
  · exact (same_clearCovered _ _).group? gr
  · rfl

theorem others_performLanes (s : State) (gr : GRef) (id : Nat) (mask : Lanes) : OthersStand gr s (s.performLanes gr id mask) := by
  have heach : OthersStand gr s (s.performEach gr id mask) := by
    refine OthersStand.foldl (fun s l => ?_) _ _
    simp only
    split
    · split
      · exact .refl gr s
      · split
        · exact (others_performLane _ _ _ _ _ _).trans (others_modGroup _ _ _)
        · exact .refl gr s
    · exact .refl gr s
  unfold State.performLanes
  simp only
  split
  · exact fun x hx => (group?_rowPoison _ _ x).trans (heach x hx)
  · exact heach

theorem others_performAccepted (s : State) (gr : GRef) : OthersStand gr s (s.performAccepted gr) := by
  unfold State.performAccepted
  split
  · exact .refl gr s
  · exact OthersStand.foldl (fun _ _ => others_performLanes _ _ _ _) _ _

/-! ## A group none of whose accesses is left -/

theorem todo_of_quiet {g : Group} (hq : g.quiet = true) {m : MemOp} (hm : m ∈ g.memq) : m.todo = 0 := by
  have h := List.all_eq_true.1 hq m hm
  simp only [Bool.and_eq_true, beq_iff_eq] at h
  exact h.2

theorem performEach_quiet {s : State} {gr : GRef} {g : Group} (hg : s.group? gr = some g) (hq : g.quiet = true) (id : Nat) (mask : Lanes) :
    s.performEach gr id mask = s := by
  unfold State.performEach
  generalize lanesOf mask = ls
  induction ls with
  | nil => rfl
  | cons l r ih =>
    rw [List.foldl_cons]
    refine Eq.trans (congrArg (fun t => List.foldl _ t r) ?_) ih
    simp only [hg]
    split
    · next h1 h2 =>
      cases h2
      split
      · rfl
      · next m hm =>
        rw [if_neg]
        rw [todo_of_quiet hq (List.mem_of_find?_eq_some hm)]
        simp [laneIn]
    · rfl

theorem group?_performAccepted_quiet {s : State} {gr : GRef} {g : Group} (hg : s.group? gr = some g) (hq : g.quiet = true) :
    (s.performAccepted gr).group? gr = some g := by
  unfold State.performAccepted
  rw [hg]
  simp only
  generalize g.memq.filter _ = ms
  induction ms generalizing s with
  | nil => exact hg
  | cons m r ih =>
    rw [List.foldl_cons]
    refine ih ?_
    unfold State.performLanes
    rw [performEach_quiet hg hq]
    simp only
    split
    · exact (group?_rowPoison _ _ gr).trans hg
    · exact hg

end Sys2Proof.Proofs.Frames
end

section
/-! SUPPORT. Waits and fences (R139-R143, R149, R152): O18. -/

namespace Sys2Proof.Proofs.Waits

open Sys2Proof Sys2Proof.Machine Sys2Proof.Laws Sys2Proof.Proofs.IssuingBlock Sys2Proof.Proofs.SyncWords Sys2Proof.Proofs.Frames

/-! ## Instructions of the switch-point class -/

section
variable {i : Iss} (hg : i.s.group? i.gr = some i.g)
include hg

/-- A switch point that changes its group by f and goes on. -/
theorem switch_goes_on (f : Group → Group) (hf : ∀ b, (f i.g).slot b = i.g.slot b) :
    i.Switched (i.conclude (.done (i.s.modGroup i.gr f) true)) (finished i true (f i.g)) ∧
      i.At (i.pc + 4) i.active i.sl.wb 0 (finished i true (f i.g)) :=
  ⟨switched_done hg f, at_finished true (hf _) (hf _)⟩

/-- A switch point that waits at its own word. -/
theorem switch_waits (w : Wait) : i.Switched (i.conclude (i.wait w i.s)) (waited i i.g w) := by
  have h := wait_switched hg w fun g => g
  rwa [modGroup_same] at h

end

theorem onward_of_at {i : Iss} {k : Nat} {g' : Group} (h : i.At (i.pc + 4) i.active i.sl.wb k g') : i.Onward g' :=
  ⟨h.pc, h.mask, h.window, h.modex, h.other⟩

/-- What a waiting instruction leaves of its group. -/
theorem waited_facts (i : Iss) (w : Wait) : ((waited i i.g w).slot i.slotB).pc = i.pc ∧ ((waited i i.g w).slot i.slotB).wait = some w ∧
    (waited i i.g w).slot (!i.slotB) = i.g.slot (!i.slotB) ∧ (waited i i.g w).v = i.g.v ∧ (waited i i.g w).s = i.g.s ∧ (waited i i.g w).flags = i.g.flags := by
  obtain ⟨hpc, -, hwait, hother⟩ := waiting_waited i w
  obtain ⟨hv, hs, -, hfl, -, -⟩ := Unread.of_still (unread_self i) (still_waited i w i.g)
  exact ⟨hpc, hwait, hother, hv, hs, hfl⟩

theorem unread_finished {i : Iss} {x : Group} (hx : i.Unread x) (sw : Bool) : i.Unread (finished i sw x) := Unread.of_still hx (still_finished i sw x)

/-! ## WAITC, CPWT, WAITV -/

section
variable {s : State} {i : Iss} (h : s.issue? = some i)
include h

theorem exec_waitc (k : BitVec 10) : exec (.waitc k) s =
    .next (i.conclude (if i.g.ldcnt ≤ k.toNat then .done (i.s.modGroup i.gr fun g => g) true else i.wait (.loads k.toNat) i.s)) := by
  rw [modGroup_same]
  exact run_issue h _

theorem exec_cpwt (n : BitVec 7) (tag : BitVec 3) : exec (.cpwt n tag) s = .next (i.conclude
    (if i.g.tagc.getD tag.toNat 0 ≤ n.toNat then .done (i.s.modGroup i.gr fun g => g.acquireCpas tag.toNat n.toNat) true
     else i.wait (.copies tag.toNat n.toNat) i.s)) := run_issue h _

theorem exec_waitv {d : BitVec 6} {a : Src} {x : Acc} (hc : i.checkSca .i64 [a] = .ok ()) (hw : i.sl.wait = none)
    (hx : i.s.check { i.who with atomic := some .block } i.b (coreIdx i.gr.grp) (syncReq (i.uni a)) true = .ok x) :
    exec (.waitv d a) s = .next (i.conclude (i.awaitGen x.loc ((i.g.rdS i.sl.wb d.toNat).toNat % 2 ^ 32))) := by
  have hbits : bits (i.g.rdS i.sl.wb d.toNat).toNat 0 32 = (i.g.rdS i.sl.wb d.toNat).toNat % 2 ^ 32 := by simp [bits]
  rw [show exec (.waitv d a) s = _ from run_issue h _]
  unfold orTrap
  simp only [hc, hw, hx, hbits]

end

/-! ## Fences -/

theorem acquireRels_eq (g : Group) (p : Pos) (sc : Scope) (rs : List Rel) : ∃ c, g.acquireRels p sc rs = { g with clock := c } := by
  unfold Group.acquireRels
  induction rs generalizing g with
  | nil => exact ⟨g.clock, rfl⟩
  | cons r rs ih =>
    rw [List.foldl_cons]
    split
    · obtain ⟨c, hc⟩ := ih (g.acquire r.clock)
      exact ⟨c, hc⟩
    · exact ih g

/-- A fence changes what its group knows, its count of releases and its fences. -/
theorem fence_eq (g : Group) (p : Pos) (sc : Scope) : ∃ c k, g.fence p sc = { g with
    clock := k, epoch := g.epoch + 1, fences := (sc, c) :: g.fences.filter fun x => x.1 != sc } ∧ clockGet c g.agent = g.epoch + 1 := by
  obtain ⟨c, hc⟩ := acquireRels_eq g p sc g.reads
  unfold Group.fence
  rw [hc]
  exact ⟨_, _, rfl, get_set_self (d := 0) c g.agent (g.epoch + 1)⟩

theorem wideScope_iff (sc : Scope) : wideScope sc = true ↔ sc = .device ∨ sc = .sys := by cases sc <;> simp [wideScope]

section
variable {s : State} {i : Iss} (h : s.issue? = some i)
include h

theorem fence_completes (sc : Scope) (hq : i.g.quiet = true) (hl : i.g.ldcnt = 0) :
    exec (.fence sc) s = .next (i.conclude (.done ((if wideScope sc then i.s.unpin i.g.agent else i.s).setGroup i.gr (i.g.fence i.b.pos sc)) false)) := by
  rw [show exec (.fence sc) s = _ from run_issue h _]
  simp only [hq, hl, Bool.not_true, bne_self_eq_false, Bool.or_self, Bool.false_eq_true, if_false]

theorem fence_facts (sc : Scope) (hq : i.g.quiet = true) (hl : i.g.ldcnt = 0) : ∃ t g', exec (.fence sc) s = .next t ∧ t.group? i.gr = some g' ∧
    (∀ gr, gr ≠ i.gr → t.group? gr = s.group? gr) ∧ (∀ l, t.byte l = s.byte l) ∧ i.At (i.pc + 4) i.active i.sl.wb i.sl.k g' ∧ i.Unread g' ∧
    g'.epoch = i.g.epoch + 1 ∧ (∃ c, (sc, c) ∈ g'.fences ∧ clockGet c i.g.agent = i.g.epoch + 1) ∧
    (sc = .device ∨ sc = .sys → ∀ x ∈ t.pins, x.2 ≠ i.g.agent) := by
  obtain ⟨rfl, _, hg⟩ := issue_facts h
  have hunpin : SameBytes i.s (if wideScope sc then i.s.unpin i.g.agent else i.s) := same_ite _ (same_unpin ..)
  obtain ⟨c, k, hf, hc⟩ := fence_eq i.g i.b.pos sc
  have hslot : ∀ b, (i.g.fence i.b.pos sc).slot b = i.g.slot b := fun b => by rw [hf]; rfl
  have hunread : i.Unread (i.g.fence i.b.pos sc) := by
    rw [hf]
    exact ⟨rfl, rfl, rfl, rfl, rfl, rfl⟩
  have hfin := still_finished i false (i.g.fence i.b.pos sc)
  refine ⟨_, finished i false (i.g.fence i.b.pos sc), fence_completes h sc hq hl, group?_ended (group?_modGroup_self _ ((hunpin.group? _).trans hg)),
    fun gr hne => ?_, fun l => ?_, at_finished false (hslot _) (hslot _), unread_finished hunread false, ?_, ⟨c, ?_, hc⟩, fun hw x hx => ?_⟩
  · rw [group?_done_ne hne]
    exact (group?_modGroup_ne _ hne).trans (hunpin.group? _)
  · exact (byte_ended _ _ _ l).trans ((byte_setGroup _ _ _ l).trans (hunpin.byte l))
  · rw [show (finished i false (i.g.fence i.b.pos sc)).epoch = (i.g.fence i.b.pos sc).epoch from (congrArg Group.epoch hfin :), hf]
  · rw [show (finished i false (i.g.fence i.b.pos sc)).fences = (i.g.fence i.b.pos sc).fences from (congrArg Group.fences hfin :), hf]
    exact List.mem_cons_self
  · rw [if_pos ((wideScope_iff sc).2 hw)] at hx
    simpa using (List.mem_filter.1 hx).2

end

/-! ## TFENCE -/

theorem tlbInScope_of_shape {s t : State} (h : shape t = shape s) (b : Block) (sc : Scope) (agent : Nat) :
    t.tlbInScope b sc agent = s.tlbInScope b sc agent := by
  cases sc with
  | span =>
    have hblocks : t.blocks.map blockShape = s.blocks.map blockShape := congrArg State.blocks h
    have hany : ∀ u : State, (u.blocks.any fun x => x.span == b.span && (tlbCluster agent).isSome && tlbCluster agent == x.place) =
        (u.blocks.map blockShape).any fun x => x.span == b.span && (tlbCluster agent).isSome && tlbCluster agent == x.place := fun u => by
      rw [List.any_map]
      rfl
    exact (hany t).trans ((congrArg (fun l => List.any l _) hblocks).trans (hany s).symm)
  | block | die | device | sys => rfl

theorem shape_performScope (s : State) (b : Block) (sc : Scope) : shape (s.performScope b sc) = shape s := by
  refine shape_foldl (fun s x => shape_foldl (fun s n => ?_) _ _) _ _
  exact shape_ite (shape_performAccepted _ _) rfl

/-- A group all of whose accesses have performed stands while those of its scope perform. -/
theorem group?_performScope {s : State} {gr : GRef} {g : Group} (hg : s.group? gr = some g) (hq : g.quiet = true) (b : Block) (sc : Scope) :
    (s.performScope b sc).group? gr = some g := by
  have hstep : ∀ (s : State) (x : GRef), s.group? gr = some g → (s.performAccepted x).group? gr = some g := fun s x h => by
    by_cases hx : gr = x
    · exact hx ▸ group?_performAccepted_quiet (hx ▸ h) hq
    · exact (others_performAccepted s x gr hx).trans h
  unfold State.performScope
  generalize s.blocks.filter _ = bs
  induction bs generalizing s with
  | nil => exact hg
  | cons x r ih =>
    rw [List.foldl_cons]
    refine ih ?_
    generalize List.range x.groups.length = ns
    induction ns generalizing s with
    | nil => exact hg
    | cons n ns ih' =>
      rw [List.foldl_cons]
      refine ih' ?_
      split
      · exact hstep _ _ hg
      · exact hg

section
variable {s : State} {i : Iss} (h : s.issue? = some i)
include h

theorem tfence_traps {c : Context} (hc : s.ctx? i.b.ctx = some c) (hp : c.ptw = false) (sc : Scope) :
    exec (.tfence sc) s = .next (i.conclude (.trap (plainTrap .priv 3))) := by
  obtain ⟨rfl, _, _⟩ := issue_facts h
  rw [show exec (.tfence sc) i.s = _ from run_issue h _]
  simp [hc, hp]

theorem tfence_facts {c : Context} (hc : s.ctx? i.b.ctx = some c) (hp : c.ptw = true) (hq : i.g.quiet = true) (sc : Scope) :
    ∃ t g', exec (.tfence sc) s = .next t ∧ t.group? i.gr = some g' ∧ i.Onward g' ∧ g'.core = i.g.core ∧
      (∀ gr, gr ≠ i.gr → t.group? gr = (s.performScope i.b sc).group? gr) ∧ (∀ l, t.byte l = (s.performScope i.b sc).byte l) ∧
      ∀ x, x ∈ t.tlbs ↔ x ∈ s.tlbs ∧ (x.ctx = i.b.ctx → s.tlbInScope i.b sc x.agent = false) := by
  obtain ⟨rfl, _, hg⟩ := issue_facts h
  have hshape := shape_performScope i.s i.b sc
  have hrun : exec (.tfence sc) i.s = .next (i.conclude (.done { i.s.performScope i.b sc with
      tlbs := (i.s.performScope i.b sc).tlbs.filter fun t => !(t.ctx == i.b.ctx && (i.s.performScope i.b sc).tlbInScope i.b sc t.agent) } false)) := by
    rw [show exec (.tfence sc) i.s = _ from run_issue h _]
    simp only [hc, hp, hq, Option.map_some, Option.getD_some, Bool.not_true, Bool.false_eq_true, if_false]
  refine ⟨_, finished i false i.g, hrun, group?_ended (group?_performScope hg hq i.b sc), onward_finished rfl rfl, core_finished i i.g,
    fun gr hne => ?_, fun l => ?_, fun x => ?_⟩
  · rw [group?_done_ne hne]
    rfl
  · refine (byte_ended _ _ _ l).trans ?_
    cases l with | mk st o => cases st <;> rfl
  · have htlbs : (i.s.performScope i.b sc).tlbs = i.s.tlbs := (congrArg State.tlbs hshape :)
    show x ∈ List.filter _ (i.s.performScope i.b sc).tlbs ↔ _
    rw [List.mem_filter, htlbs, tlbInScope_of_shape hshape]
    simp [imp_iff_not_or]

theorem pref_completes {a b : Src} (hc : i.checkLaneOps [b] [a] = .ok ()) :
    ∃ t g', exec (.pref a b) s = .next t ∧ i.Alone t g' ∧ i.Onward g' ∧ g'.core = i.g.core := by
  obtain ⟨rfl, _, hg⟩ := issue_facts h
  rw [show exec (.pref a b) i.s = _ from run_issue h _]
  unfold orTrap
  rw [hc]
  exact ⟨_, _, rfl, noop_facts hg⟩

theorem ordcl_completes : ∃ t g', exec .ordcl s = .next t ∧ i.Alone t g' ∧ i.Onward g' ∧ g'.ordcl = true ∧ { g'.core with ordcl := i.g.ordcl } = i.g.core := by
  obtain ⟨rfl, _, hg⟩ := issue_facts h
  have hcore := core_finished i { i.g with ordcl := true }
  refine ⟨_, finished i false { i.g with ordcl := true }, run_issue h _, alone_group hg _, onward_finished rfl rfl, congrArg Group.ordcl hcore, ?_⟩
  rw [hcore]
  rfl

end

/-- Settles O18: the waits by `switch_goes_on` and `switch_waits`, the fences by `fence_facts` and `tfence_facts`. -/
theorem waitsAndFences : Obligations.WaitsAndFences := by
  unfold Obligations.WaitsAndFences
  refine ⟨fun s i k n tag d a x h => ?_, fun s i sc a b h => ⟨fence_facts h sc, fun c hc => ⟨fun hp => tfence_traps h hc hp sc,
    fun hp hq => tfence_facts h hc hp hq sc⟩, pref_completes h, ordcl_completes h⟩⟩
  obtain ⟨rfl, _, hg⟩ := issue_facts h
  refine ⟨?_, ?_, fun hc hw hx => ?_⟩
  · have hrun := exec_waitc h k
    split <;> rename_i hk
    · rw [if_pos hk] at hrun
      obtain ⟨hsw, hat⟩ := switch_goes_on hg (fun g => g) fun _ => rfl
      obtain ⟨hv, hs, -, hfl, -, -⟩ := unread_finished (unread_self i) true
      exact ⟨_, _, hrun, hsw, onward_of_at hat, hat.latch, hv, hs, hfl⟩
    · rw [if_neg hk] at hrun
      exact ⟨_, _, hrun, switch_waits hg _, waited_facts i _⟩
  · have hrun := exec_cpwt h n tag
    split <;> rename_i hk
    · rw [if_pos hk] at hrun
      obtain ⟨hsw, hat⟩ := switch_goes_on hg (fun g => g.acquireCpas tag.toNat n.toNat) fun _ => rfl
      obtain ⟨hv, hs, -, hfl, -, -⟩ := unread_finished (i := i) (x := i.g.acquireCpas tag.toNat n.toNat) ⟨rfl, rfl, rfl, rfl, rfl, rfl⟩ true
      exact ⟨_, _, hrun, hsw, onward_of_at hat, hat.latch, hv, hs, hfl⟩
    · rw [if_neg hk] at hrun
      exact ⟨_, _, hrun, switch_waits hg _, waited_facts i _⟩
  · simp only
    have hrun := exec_waitv h hc hw hx (d := d)
    unfold Iss.awaitGen at hrun
    simp only [Bool.and_eq_true] at hrun
    split <;> rename_i hk
    · rw [if_pos hk] at hrun
      obtain ⟨hsw, hat⟩ := switch_goes_on hg (fun g => g.acquire (i.s.wordPassed x.loc)) fun _ => rfl
      obtain ⟨hv, hs, -, hfl, -, -⟩ := unread_finished (i := i) (x := i.g.acquire (i.s.wordPassed x.loc)) ⟨rfl, rfl, rfl, rfl, rfl, rfl⟩ true
      exact ⟨_, _, hrun, hsw, onward_of_at hat, hat.latch, (congrArg Group.clock (still_finished i true (i.g.acquire (i.s.wordPassed x.loc))) :), hv, hs, hfl⟩
    · rw [if_neg hk] at hrun
      exact ⟨_, _, hrun, switch_waits hg _, waited_facts i _⟩

end Sys2Proof.Proofs.Waits
end

section
/-! SUPPORT. The Virga engines' events: what of the machine they leave (`vgShape`), how a command starts, works and ends. O19. -/

namespace Sys2Proof.Proofs.Virga

open Sys2Proof Sys2Proof.Machine Sys2Proof.Laws Sys2Proof.Proofs.IssuingBlock Sys2Proof.Proofs.SyncWords Sys2Proof.Proofs.Frames Sys2Proof.Proofs.Waits

/-! ## Errors of a chain of steps -/

theorem bind_ok {ε α β : Type} {x : Except ε α} {f : α → Except ε β} {b : β} (h : (x >>= f) = .ok b) : ∃ a, x = .ok a ∧ f a = .ok b := by
  cases x with
  | error e => cases h
  | ok a => exact ⟨a, rfl, h⟩

theorem bind_error {ε α β : Type} {x : Except ε α} {f : α → Except ε β} {e : ε} (h : (x >>= f) = .error e) :
    x = .error e ∨ ∃ a, x = .ok a ∧ f a = .error e := by
  cases x with
  | error e' => exact .inl (Except.error.inj (show (Except.error e' : Except ε β) = .error e from h) ▸ rfl)
  | ok a => exact .inr ⟨a, rfl, h⟩

/-- What holds of every error of a step holds of the error of a chain of such steps. -/
theorem foldlM_error {ε α β : Type} {P : ε → Prop} {f : β → α → Except ε β} (hf : ∀ b a e, f b a = .error e → P e) (l : List α) (b : β) {e : ε}
    (h : l.foldlM f b = .error e) : P e := by
  induction l generalizing b with
  | nil => cases h
  | cons a r ih =>
    rw [List.foldlM_cons] at h
    rcases bind_error h with h | ⟨b', -, h⟩
    · exact hf _ _ _ h
    · exact ih b' h

/-! ## The machine without what a command notes -/

/-- The machine without bytes, groups, what accesses note, and what a Virga command notes of itself and its channels. -/
def vgShape (s : State) : State := { shape s with viol := [], misalign := [], vgcmds := [] }

theorem vgShape_of_shape {s t : State} (h : shape t = shape s) : vgShape t = vgShape s :=
  congrArg (fun u : State => { u with viol := [], misalign := [], vgcmds := [] }) h

theorem vgShape_foldl {α : Type} {f : State → α → State} (hf : ∀ s x, vgShape (f s x) = vgShape s) (l : List α) (s : State) :
    vgShape (l.foldl f s) = vgShape s := by
  induction l generalizing s with
  | nil => rfl
  | cons x r ih => exact (ih (f s x)).trans (hf s x)

theorem vgShape_violate (s : State) (ctx chan h o : Nat) : vgShape (s.violate ctx chan h o) = vgShape s :=
  (vgShape_of_shape (shape_log { s with viol := SMap.set (0, 0) s.viol (chan * 64 + ctx) (o, h) } 5 ctx [chan, h, o])).trans rfl

theorem vgShape_ite {c : Prop} [Decidable c] {s t u : State} (ht : vgShape t = vgShape s) (hu : vgShape u = vgShape s) :
    vgShape (if c then t else u) = vgShape s := by
  split
  · exact ht
  · exact hu

theorem vgShape_countMis (s : State) (ch : Nat) : vgShape (s.countMis ch) = vgShape s := rfl

theorem vgShape_modVg (s : State) (blk num : Nat) (f : VgCmd → VgCmd) : vgShape (s.modVg blk num f) = vgShape s := rfl

theorem shape_logLines (s : State) (who : Who) (pa n : Nat) : shape (s.logLines who pa n) = shape s := by
  unfold State.logLines
  refine shape_foldl (fun s k => ?_) _ _
  exact shape_ite (shape_undoLog _ _ _ _) rfl

theorem shape_performOp (s : State) (b : Block) (o : EngOp) (who : Who) (a : Acc) (vs : List Byte) : shape (s.performOp b o who a vs) = shape s := by
  unfold State.performOp
  exact (shape_foldl (f := fun (s : State) (x : Loc × Writer) => s.setWriter x.1 x.2) (fun _ _ => rfl) _ _).trans (shape_perform _ _ _ _)

theorem shape_vgWrite (s : State) (c : VgCmd) (l : Loc) (bs : List Byte) : shape (s.vgWrite c l bs) = shape s := by
  unfold State.vgWrite
  simp only
  split
  · exact (shape_performOp _ _ _ _ _ _).trans (shape_logLines _ _ _ _)
  · exact (shape_perform _ _ _ _).trans (shape_logLines _ _ _ _)

theorem vgShape_vgAccess {s : State} {c : VgCmd} {h o n : Nat} {rights : List Nat} {w : Bool} {e : State × VgStop}
    (he : s.vgAccess c h o n rights w = .error e) : vgShape e.1 = vgShape s := by
  unfold State.vgAccess at he
  simp only at he
  split at he
  · cases he
    exact vgShape_violate _ _ _ _ _
  · split at he
    · cases he
      rfl
    · split at he
      · cases he
        rfl
      · cases he

/-- What a token or an element comes to leaves the machine but for what a command notes. -/
inductive Keeps (s : State) : VgDone → Prop
  | other : Keeps s .other
  | did {t : State} (h : vgShape t = vgShape s) : Keeps s (.did t)
  | stop {t : State} (h : vgShape t = vgShape s) (e : VgStop) : Keeps s (.stop t e)

theorem keeps_did {s t : State} (h : vgShape t = vgShape s) (blk num : Nat) (f : VgCmd → VgCmd) : Keeps s (.did (t.modVg blk num f)) := .did h

theorem keeps_ite {s : State} {c : Prop} [Decidable c] {x y : VgDone} (hx : Keeps s x) (hy : Keeps s y) : Keeps s (if c then x else y) := by
  split
  · exact hx
  · exact hy

theorem keeps_vgAttn (s : State) (c : VgCmd) (p : VgPart) (g : Nat) : Keeps s (s.vgAttn c p g) := by
  unfold State.vgAttn
  cases ht : s.vgAccess c c.blkOf.btcap (c.blkOf.btofs + 8 * (g / c.blkOf.page)) 8 [capR] false with
  | error e =>
    simp only [ht]
    exact .stop (vgShape_vgAccess ht) _
  | ok t =>
    simp only [ht]
    refine keeps_ite (.stop (vgShape_violate _ _ _ _ _) _) (keeps_ite (.stop rfl _) (keeps_ite .other ?_))
    generalize hl : s.vgAccess c c.blkOf.kvcap _ _ [capAttn] false = x
    cases x with
    | error e => exact .stop (vgShape_vgAccess hl) _
    | ok l => exact keeps_ite (.stop rfl _) (keeps_did (vgShape_ite (vgShape_countMis _ _) rfl) _ _ _)

theorem keeps_vgAxpy (s : State) (c : VgCmd) (p : VgPart) (n : Nat) : Keeps s (s.vgAxpy c p n) := by
  unfold State.vgAxpy
  simp only
  refine keeps_ite (.stop rfl _) (keeps_ite .other ?_)
  generalize hy : s.vgAccess c c.blkOf.outcap _ _ [capR, capW] true = y
  generalize hx : s.vgAccess c c.blkOf.btcap _ _ [capR] false = x
  cases y with
  | error e => exact .stop (vgShape_vgAccess hy) _
  | ok y =>
    cases x with
    | error e => exact .stop (vgShape_vgAccess hx) _
    | ok x =>
      exact keeps_ite (.stop rfl _) (keeps_ite (.stop rfl _)
        (keeps_did ((vgShape_of_shape (shape_vgWrite _ _ _ _)).trans (vgShape_ite (vgShape_countMis _ _) rfl)) _ _ _))

theorem vgShape_vgRun (s : State) (blk num chan fuel budget : Nat) : vgShape (s.vgRun blk num chan fuel budget) = vgShape s := by
  induction fuel generalizing s budget with
  | zero => rfl
  | succ fuel ih =>
    unfold State.vgRun
    split
    · rfl
    · next c _ =>
      split
      · rfl
      · next p _ =>
        split
        · rfl
        · split
          · rfl
          · have hk : Keeps s (if c.blkOf.attn then s.vgAttn c p p.next else s.vgAxpy c p p.next) := by
              split
              · exact keeps_vgAttn _ _ _ _
              · exact keeps_vgAxpy _ _ _ _
            simp only
            split
            · exact ih _ _
            · next hd =>
              rw [hd] at hk
              cases hk with
              | did h => exact (ih _ _).trans h
            · next hd =>
              rw [hd] at hk
              cases hk with
              | stop h e => exact h

/-! ## The merge -/

theorem vgShape_vgReadWords {s : State} {c : VgCmd} {h o n : Nat} {e : State × VgStop} (he : s.vgReadWords c h o n = .error e) : vgShape e.1 = vgShape s := by
  refine foldlM_error (P := fun e => vgShape e.1 = vgShape s) (fun acc j e h => ?_) _ _ he
  split at h
  · cases h
  · next ha =>
    cases h
    exact vgShape_vgAccess ha

theorem vgShape_vgPlaces {s : State} {c : VgCmd} {h o w n : Nat} {e : State × VgStop} (he : s.vgPlaces c h o w n = .error e) : vgShape e.1 = vgShape s := by
  refine foldlM_error (P := fun e => vgShape e.1 = vgShape s) (fun acc j e h => ?_) _ _ he
  split at h
  · cases h
  · next ha =>
    cases h
    exact vgShape_vgAccess ha

theorem vgShape_vgInitial {s : State} {c : VgCmd} {e : State × VgStop} (he : s.vgInitial c = .error e) : vgShape e.1 = vgShape s := by
  unfold State.vgInitial at he
  simp only at he
  split at he
  · refine foldlM_error (P := fun e => vgShape e.1 = vgShape s) (fun acc j e h => ?_) _ _ he
    split at h
    · cases h
    · next ha =>
      cases h
      exact vgShape_vgReadWords ha
  · cases he

theorem vgShape_vgMerge_error {s : State} {c : VgCmd} {e : State × VgStop} (he : s.vgMerge c = .error e) : vgShape e.1 = vgShape s := by
  unfold State.vgMerge at he
  rcases bind_error he with h | ⟨init, -, he⟩
  · exact vgShape_vgInitial h
  · rcases bind_error he with h | ⟨out, -, he⟩
    · exact vgShape_vgPlaces h
    · dsimp only at he
      split at he
      · rcases bind_error he with h | ⟨st, -, he⟩
        · exact vgShape_vgPlaces h
        · cases he
      · cases he

/-- The writes of a result and of a running state, and the blocks that they cover. -/
theorem vgShape_written {β γ : Type} (s : State) (c : VgCmd) (l : List (Loc × β)) (m : List (Loc × γ)) (f : Loc × β → List Byte) (g : Loc × γ → List Byte)
    (ps : List (Loc × Nat)) :
    vgShape ((m.foldl (fun s x => s.vgWrite c x.1 (g x)) (l.foldl (fun s x => s.vgWrite c x.1 (f x)) s)).clearCovered ps) = vgShape s := by
  refine vgShape_of_shape ((shape_clearCovered _ _).trans ?_)
  exact (shape_foldl (fun _ _ => shape_vgWrite _ _ _ _) _ _).trans (shape_foldl (fun _ _ => shape_vgWrite _ _ _ _) _ _)

theorem vgShape_vgMerge {s : State} {c : VgCmd} {r : State × Nat × Flags} (h : s.vgMerge c = .ok r) : vgShape r.1 = vgShape s := by
  unfold State.vgMerge at h
  obtain ⟨init, -, h⟩ := bind_ok h
  obtain ⟨out, -, h⟩ := bind_ok h
  dsimp only at h
  split at h
  · obtain ⟨st, -, h⟩ := bind_ok h
    cases h
    exact vgShape_written _ _ _ _ _ _ _
  · cases h
    exact vgShape_written _ _ _ _ _ _ _

theorem shape_devWrite {s t : State} {who : Who} {a : Word} {bs : List Byte} (h : s.devWrite who a bs = .ok t) : shape t = shape s := by
  unfold State.devWrite at h
  split at h
  · cases h
    exact ((shape_unpin _ _).trans (shape_perform _ _ _ _)).trans (shape_request _ _ _)
  · cases h

theorem shape_vgRecord (s : State) (c : VgCmd) (code chan : Nat) (addr : Word) : shape (s.vgRecord c code chan addr) = shape s := by
  unfold State.vgRecord
  simp only
  split
  · next h => exact shape_devWrite h
  · split <;> exact shape_log _ _ _ _

/-! ## A command's end -/

theorem op?_modOp {b : Block} {tl num : Nat} {o : EngOp} (h : b.op? tl num = some o) {f : EngOp → EngOp} (hf : ∀ o, (f o).tl = o.tl ∧ (f o).num = o.num) :
    (b.modOp tl num f).op? tl num = some (f o) := by
  have his : ∀ o, (f o).is tl num = o.is tl num := fun o => by
    unfold EngOp.is
    rw [(hf o).1, (hf o).2]
  unfold Block.op? Block.modOp at *
  simp only [List.find?_map]
  have hcongr : ((fun o : EngOp => o.is tl num) ∘ fun o => if o.is tl num = true then f o else o) = fun o => o.is tl num := by
    funext o
    simp only [Function.comp]
    split
    · exact his o
    · rfl
  rw [hcongr, h, Option.map_some, if_pos (List.find?_some h)]

theorem blocks_of_shape {s t : State} (h : vgShape t = vgShape s) : t.blocks.map blockShape = s.blocks.map blockShape :=
  (congrArg State.blocks h :)

theorem block?_map_blockShape (s : State) (n : Nat) : (s.block? n).map blockShape = (s.blocks.map blockShape).find? fun b => b.id == n := by
  rw [List.find?_map]
  rfl

/-- Where the machine stands but for bytes and groups, a block has the operations that it had. -/
theorem ops_of_shape {s t : State} (h : vgShape t = vgShape s) {n : Nat} {b : Block} (hb : s.block? n = some b) :
    ∃ b', t.block? n = some b' ∧ b'.ops = b.ops := by
  have e : (t.block? n).map blockShape = (s.block? n).map blockShape := by
    rw [block?_map_blockShape, block?_map_blockShape, blocks_of_shape h]
  rw [hb, Option.map_some] at e
  obtain ⟨b', hb', hs⟩ := Option.map_eq_some_iff.1 e
  exact ⟨b', hb', (congrArg Block.ops hs :)⟩

theorem block?_modOp (s : State) (blk tl num : Nat) (f : EngOp → EngOp) (n : Nat) :
    (s.modOp blk tl num f).block? n = if n = blk then (s.block? n).map fun b => b.modOp tl num f else s.block? n :=
  block?_modBlock s blk n (fun b => b.modOp tl num f) fun _ => rfl

/-- A command that ends is gone, and its operation has done its work. -/
theorem vgEnd_facts {s t : State} (h : vgShape t = vgShape s) {blk num : Nat} {b : Block} {o : EngOp} (hb : s.block? blk = some b)
    (ho : b.op? 3 num = some o) {c : VgCmd} (hc : c.blk = blk ∧ c.num = num) (fl : Flags) :
    (t.vgEnd c fl).vgcmd? blk num = none ∧ ((t.vgEnd c fl).block? blk).bind (·.op? 3 num) = some { o with state := .worked, flags := fl } := by
  obtain ⟨b', hb', hops⟩ := ops_of_shape h hb
  obtain ⟨rfl, rfl⟩ := hc
  have ho' : b'.op? 3 c.num = some o := by
    unfold Block.op? at ho ⊢
    rw [hops]
    exact ho
  refine ⟨?_, ?_⟩
  · show (t.vgcmds.filter fun x => !(x.blk == c.blk && x.num == c.num)).find? _ = none
    rw [List.find?_eq_none]
    intro x hx
    have hne := (List.mem_filter.1 hx).2
    simpa [imp_iff_not_or] using hne
  · show ((State.modOp _ c.blk 3 c.num _).block? c.blk).bind _ = _
    rw [block?_modOp, if_pos rfl]
    refine (congrArg (fun x => Option.bind (Option.map _ x) _) (show _ = some b' from hb')).trans ?_
    exact op?_modOp ho' fun _ => ⟨rfl, rfl⟩

theorem vgcmd?_facts {s : State} {blk num : Nat} {c : VgCmd} (h : s.vgcmd? blk num = some c) : c.blk = blk ∧ c.num = num := by
  have := List.find?_some h
  simpa using this

/-! ## A command's start -/

/-- The command that a VGCMD of operation o of block b starts. -/
structure Starts (b : Block) (o : EngOp) (blk num : Nat) (c : VgCmd) : Prop where
  blk : c.blk = blk
  num : c.num = num
  ctx : c.ctx = b.ctx
  flags : c.flags = 0
  formed : c.code = 0 → vgMalformed c.cmd = false ∧ ∀ p ∈ c.parts, p.next = 0 ∧ p.done = false ∧ p.code = 0 ∧
    p.rows = List.replicate c.blkOf.nq (vgEmpty c.blkOf.dh)
  run : c.code = 0 → c.parts.map (·.chan) = (List.range ((o.opa.getD 1 0).toNat / 2 ^ 8 % 2 ^ 8)).map ((o.opa.getD 1 0).toNat % 2 ^ 7 + ·)

/-- A command that ends at its start, with a code. -/
theorem Starts.of_code {b : Block} {o : EngOp} {blk num : Nat} {c : VgCmd} (hb : c.blk = blk) (hn : c.num = num) (hx : c.ctx = b.ctx) (hf : c.flags = 0)
    (hc : c.code ≠ 0) : Starts b o blk num c := ⟨hb, hn, hx, hf, fun h => absurd h hc, fun h => absurd h hc⟩

/-- The fresh part of a channel. -/
def freshPart (k : VgBlk) (ch : Nat) : VgPart := ⟨ch, 0, List.replicate k.nq (vgEmpty k.dh), 0, 0, 0, false, []⟩

/-- A command whose block is well formed. -/
theorem Starts.of_parts {b : Block} {o : EngOp} {blk num : Nat} {c : VgCmd} (hb : c.blk = blk) (hn : c.num = num) (hx : c.ctx = b.ctx) (hf : c.flags = 0)
    (hm : vgMalformed c.cmd = false) (hp : c.parts = (List.range (bits (o.opa.getD 1 0).toNat 8 8)).map fun j =>
      freshPart (vgBlkOf c.cmd) (bits (o.opa.getD 1 0).toNat 0 7 + j)) : Starts b o blk num c := by
  have hlow : bits (o.opa.getD 1 0).toNat 0 7 = (o.opa.getD 1 0).toNat % 2 ^ 7 := by simp [bits]
  refine ⟨hb, hn, hx, hf, fun _ => ⟨hm, fun p h => ?_⟩, fun _ => ?_⟩
  · rw [hp] at h
    obtain ⟨j, -, rfl⟩ := List.mem_map.1 h
    exact ⟨rfl, rfl, rfl, rfl⟩
  · rw [hp, List.map_map, hlow]
    rfl

theorem queryRows_code {s : State} {who : Who} {k : VgBlk} {e : Nat × Word} (h : s.queryRows who k = .error e) : e.1 ≠ 0 := by
  unfold State.queryRows at h
  rcases bind_error h with h | ⟨a, -, h⟩
  · refine foldlM_error (P := fun e => e.1 ≠ 0) (fun acc p e h => ?_) _ _ h
    split at h
    · cases h
    · cases h
      split <;> simp
  · cases h

/-- The machine once the operation runs, with the command that has started. -/
def started (s : State) (blk num : Nat) (clock : Clock) (c : VgCmd) : State :=
  { s.modOp blk 3 num fun x => { x with state := .running, clock := clock } with vgcmds := s.vgcmds ++ [c] }

theorem vgcmdStart_starts {s : State} {blk num : Nat} {b : Block} {o : EngOp} (hb : s.block? blk = some b) (ho : b.op? 3 num = some o)
    (hq : o.state = .queued) (hall : (b.before3 o).all EngOp.isDone = true) :
    ∃ k c, exec (.vgcmdStart blk num) s = .next (started s blk num k c) ∧ Starts b o blk num c := by
  show ∃ k c, execVgcmdStart blk num s = _ ∧ _
  unfold execVgcmdStart
  simp only [hb, ho, hq, hall, bne_self_eq_false, Bool.not_true, Bool.or_self, Bool.false_eq_true, if_false]
  split
  · refine ⟨_, _, rfl, .of_code rfl rfl rfl rfl ?_⟩
    simp only
    split <;> decide
  · split
    · exact ⟨_, _, rfl, .of_code rfl rfl rfl rfl (by simp)⟩
    · next hm =>
      split
      · exact ⟨_, _, rfl, .of_parts rfl rfl rfl rfl (by simpa using hm) rfl⟩
      · split
        · next he => exact ⟨_, _, rfl, .of_code rfl rfl rfl rfl (queryRows_code he)⟩
        · exact ⟨_, _, rfl, .of_parts rfl rfl rfl rfl (by simpa using hm) rfl⟩

theorem byte_started (s : State) (blk num : Nat) (k : Clock) (c : VgCmd) (l : Loc) : (started s blk num k c).byte l = s.byte l := by
  refine Eq.trans ?_ (byte_modBlock s blk (fun b => b.modOp 3 num fun x => { x with state := .running, clock := k }) l (fun _ => rfl)
    fun _ => ⟨rfl, rfl, rfl, rfl⟩)
  cases l with | mk st o => cases st <;> rfl

/-- The operation runs. -/
theorem op?_started {s : State} {blk num : Nat} {b : Block} {o : EngOp} (hb : s.block? blk = some b) (ho : b.op? 3 num = some o) (k : Clock) (c : VgCmd) :
    ∃ b', (started s blk num k c).block? blk = some b' ∧ (b'.op? 3 num).map (·.state) = some .running := by
  refine ⟨b.modOp 3 num fun x => { x with state := .running, clock := k }, ?_, ?_⟩
  · refine (block?_modOp s blk 3 num _ blk).trans ?_
    rw [if_pos rfl, hb]
    rfl
  · rw [op?_modOp ho (f := fun x => { x with state := .running, clock := k }) fun _ => ⟨rfl, rfl⟩]
    rfl

/-! ## Waves, windows and the controller's service -/

theorem virgaWave_runs {s : State} {blk num chan : Nat} {c : VgCmd} (hc : s.vgcmd? blk num = some c) (h0 : c.code = 0) (hk : SMap.get 0 s.banks chan ≠ 2)
    (hp : ∃ p ∈ c.parts, p.chan = chan ∧ p.done = false) : exec (.virgaWave blk num chan) s =
      .next (({ s with banks := SMap.set 0 s.banks chan 1 }).vgRun blk num chan (c.blkOf.ntok + 1) (bankCount s.thermal)) := by
  obtain ⟨p, hmem, hchan, hdone⟩ := hp
  have hany : (c.parts.any fun p => p.chan == chan && !p.done) = true := List.any_eq_true.2 ⟨p, hmem, by simp [hchan, hdone]⟩
  show execVirgaWave blk num chan s = _
  unfold execVirgaWave
  simp only [hc, h0, hany, bne_self_eq_false, beq_eq_false_iff_ne.2 hk, Bool.not_true, Bool.or_self, Bool.false_eq_true, if_false]

/-- A wave leaves the banks as it has found them, and the thermal step. -/
theorem vgRun_banks (s : State) (blk num chan fuel budget : Nat) :
    (s.vgRun blk num chan fuel budget).banks = s.banks ∧ (s.vgRun blk num chan fuel budget).thermal = s.thermal :=
  ⟨(congrArg State.banks (vgShape_vgRun s blk num chan fuel budget) :), (congrArg State.thermal (vgShape_vgRun s blk num chan fuel budget) :)⟩

theorem windowEnd_suspends {s : State} {chan : Nat} (h : SMap.get 0 s.banks chan = 1) :
    exec (.virgaWindowEnd chan) s = .next { s with banks := SMap.set 0 s.banks chan 2 } := congrArg Host.Outcome.next (if_pos h)

theorem serviceEnd_frees {s : State} {chan : Nat} (h : SMap.get 0 s.banks chan = 2) :
    exec (.bankServiceEnd chan) s = .next { s with banks := SMap.set 0 s.banks chan 0 } := congrArg Host.Outcome.next (if_pos h)

/-! ## The end of a command whose block stands -/

section
variable {s : State} {blk num : Nat} {c : VgCmd} (hc : s.vgcmd? blk num = some c) {b : Block} (hb : s.block? blk = some b)
include hc hb

theorem merge_code (h0 : c.code ≠ 0) : exec (.virgaMerge blk num) s = .next ((s.vgRecord c c.code 255 c.codeAddr).vgEnd c 0) := by
  show execVirgaMerge blk num s = _
  unfold execVirgaMerge
  simp [hc, hb, h0]

/-- The parts of the command, each with the stop that an overtaken read has given it. -/
def seen (s : State) (c : VgCmd) : VgCmd := { c with parts := c.parts.map (s.vgOvertaken c) }

theorem merge_all (h0 : c.code = 0) (hd : ∀ p ∈ c.parts, p.done = true) : exec (.virgaMerge blk num) s =
    match (seen s c).stop? with
    | some e => .next ((s.vgRecord c e.code e.chan (BitVec.ofNat 64 e.ofs)).vgEnd c c.flags)
    | none =>
      if !c.blkOf.attn then .next ((s.vgRecord c 0 255 0).vgEnd c c.flags)
      else if b.aborted then .next ((s.vgRecord c (Config.abortCode s.tick % 256) 255 0).vgEnd c c.flags)
      else
        match s.vgMerge c with
        | .error e => .next ((e.1.vgRecord c e.2.code e.2.chan (BitVec.ofNat 64 e.2.ofs)).vgEnd c c.flags)
        | .ok r => .next ((r.1.vgRecord c r.2.1 255 0).vgEnd c (c.flags ||| r.2.2)) := by
  have hall : (c.parts.any fun p => !p.done) = false := List.any_eq_false.2 fun p hp => by simp [hd p hp]
  show execVirgaMerge blk num s = _
  unfold execVirgaMerge
  simp only [hc, hb, h0, hall, Bool.and_false, Bool.false_eq_true, if_false, Option.isNone_some, ne_eq, not_true, Option.map_some, Option.getD_some]
  rfl

/-- Once its engines have ended, the command is merged: it is gone, and its operation has done its work. -/
theorem merge_ends (hd : c.code ≠ 0 ∨ ∀ p ∈ c.parts, p.done = true) :
    ∃ u fl, vgShape u = vgShape s ∧ exec (.virgaMerge blk num) s = .next (u.vgEnd c fl) := by
  by_cases h0 : c.code = 0
  · rw [merge_all hc hb h0 (hd.resolve_left fun h => h h0)]
    split
    · exact ⟨_, _, vgShape_of_shape (shape_vgRecord _ _ _ _ _), rfl⟩
    · split
      · exact ⟨_, _, vgShape_of_shape (shape_vgRecord _ _ _ _ _), rfl⟩
      · split
        · exact ⟨_, _, vgShape_of_shape (shape_vgRecord _ _ _ _ _), rfl⟩
        · split
          · next he => exact ⟨_, _, (vgShape_of_shape (shape_vgRecord _ _ _ _ _)).trans (vgShape_vgMerge_error he), rfl⟩
          · next hm => exact ⟨_, _, (vgShape_of_shape (shape_vgRecord _ _ _ _ _)).trans (vgShape_vgMerge hm), rfl⟩
  · exact ⟨_, _, vgShape_of_shape (shape_vgRecord _ _ _ _ _), merge_code hc hb h0⟩

end

/-- Settles O45: the start by `vgcmdStart_starts`, a wave by `virgaWave_runs`, the end by `merge_code` and `merge_all`. -/
theorem virgaCommands : Obligations.VirgaCommands := by
  unfold Obligations.VirgaCommands
  intro s blk num chan
  refine ⟨fun b o hb ho hq hall => ?_, fun c hc => ⟨fun h0 hk hp => ?_, fun b o hb ho hd => ?_⟩, windowEnd_suspends, serviceEnd_frees⟩
  · obtain ⟨k, c, hrun, hs⟩ := vgcmdStart_starts hb ho hq hall
    obtain ⟨b', hb', hst⟩ := op?_started hb ho k c
    exact ⟨_, b', c, hrun, rfl, hs.blk, hs.num, hs.ctx, hs.flags, hb', hst, byte_started s blk num k c, hs.formed, hs.run⟩
  · obtain ⟨hbanks, hthermal⟩ := vgRun_banks { s with banks := SMap.set 0 s.banks chan 1 } blk num chan (c.blkOf.ntok + 1) (bankCount s.thermal)
    refine ⟨_, virgaWave_runs hc h0 hk hp, rfl, ?_, hthermal, fun x hx => ?_⟩
    · rw [hbanks]
      exact get_set_self s.banks chan 1
    · rw [hbanks]
      exact get_set_ne s.banks 1 hx
  · have hdone := fun h0 : c.code = 0 => hd.resolve_left fun h => h h0
    refine ⟨fun h0 => ⟨_, merge_code hc hb h0, rfl⟩, fun h0 e he => ⟨_, ?_, rfl⟩, fun h0 hn => ⟨fun ha => ⟨_, ?_, rfl⟩, fun ha hab => ⟨_, ?_, rfl⟩,
      fun ha hab => ⟨fun r hr => ⟨_, ?_, rfl⟩, fun e he => ⟨_, ?_, rfl⟩⟩⟩⟩
    · rw [merge_all hc hb h0 (hdone h0), show (seen s c).stop? = some e from he]
    · rw [merge_all hc hb h0 (hdone h0), show (seen s c).stop? = none from hn]
      simp [ha]
    · rw [merge_all hc hb h0 (hdone h0), show (seen s c).stop? = none from hn]
      simp [ha, hab]
    · rw [merge_all hc hb h0 (hdone h0), show (seen s c).stop? = none from hn]
      simp [ha, hab, hr]
    · rw [merge_all hc hb h0 (hdone h0), show (seen s c).stop? = none from hn]
      simp [ha, hab, he]

/-! ## O19 -/

section
variable {s : State} {i : Iss} (h : s.issue? = some i)
include h

theorem waitc_completes {k : BitVec 10} (hk : i.g.ldcnt ≤ k.toNat) :
    ∃ t g', exec (.waitc k) s = .next t ∧ t.group? i.gr = some g' ∧ i.Onward g' ∧ i.Unread g' ∧ ∀ l, t.byte l = s.byte l := by
  have hrun := exec_waitc h k
  obtain ⟨rfl, _, hg⟩ := issue_facts h
  rw [if_pos hk] at hrun
  obtain ⟨hsw, hat⟩ := switch_goes_on hg (fun g => g) fun _ => rfl
  exact ⟨_, _, hrun, hsw.group, onward_of_at hat, unread_finished (unread_self i) true, hsw.bytes⟩

theorem cpwt_completes {n : BitVec 7} {tag : BitVec 3} (hk : i.g.tagc.getD tag.toNat 0 ≤ n.toNat) :
    ∃ t g', exec (.cpwt n tag) s = .next t ∧ t.group? i.gr = some g' ∧ i.Onward g' ∧ i.Unread g' ∧ ∀ l, t.byte l = s.byte l := by
  have hrun := exec_cpwt h n tag
  obtain ⟨rfl, _, hg⟩ := issue_facts h
  rw [if_pos hk] at hrun
  obtain ⟨hsw, hat⟩ := switch_goes_on hg (fun g => g.acquireCpas tag.toNat n.toNat) fun _ => rfl
  exact ⟨_, _, hrun, hsw.group, onward_of_at hat,
    unread_finished (i := i) (x := i.g.acquireCpas tag.toNat n.toNat) ⟨rfl, rfl, rfl, rfl, rfl, rfl⟩ true, hsw.bytes⟩

theorem waitv_completes {d : BitVec 6} {a : Src} {x : Acc} (hc : i.checkSca .i64 [a] = .ok ()) (hw : i.sl.wait = none)
    (hx : i.s.check { i.who with atomic := some .block } i.b (coreIdx i.gr.grp) (syncReq (i.uni a)) true = .ok x)
    (hclear : i.g.clearFor i.g.nextMem (x.loc.add 8) 4 = true) (hgen : genPassed (i.s.genOf x.loc) ((i.g.rdS i.sl.wb d.toNat).toNat % 2 ^ 32) = true) :
    ∃ t g', exec (.waitv d a) s = .next t ∧ t.group? i.gr = some g' ∧ i.Onward g' ∧ i.Unread g' ∧ ∀ l, t.byte l = s.byte l := by
  have hrun := exec_waitv h hc hw hx (d := d)
  obtain ⟨rfl, _, hg⟩ := issue_facts h
  unfold Iss.awaitGen at hrun
  rw [if_pos (by rw [hclear, hgen]; rfl)] at hrun
  obtain ⟨hsw, hat⟩ := switch_goes_on hg (fun g => g.acquire (i.s.wordPassed x.loc)) fun _ => rfl
  exact ⟨_, _, hrun, hsw.group, onward_of_at hat,
    unread_finished (i := i) (x := i.g.acquire (i.s.wordPassed x.loc)) ⟨rfl, rfl, rfl, rfl, rfl, rfl⟩ true, hsw.bytes⟩

end

/-- Registers and flags stand where the group stands but for its slots and its ORDCL. -/
theorem unread_of_core {i : Iss} {g' : Group} (h : { g'.core with ordcl := i.g.ordcl } = i.g.core) : i.Unread g' where
  v := (congrArg Group.v h :)
  s := (congrArg Group.s h :)
  p := (congrArg Group.p h :)
  flags := (congrArg Group.flags h :)
  mode := (congrArg Group.mode h :)
  latches := (congrArg Group.latches h :)

/-- Settles O19: the waits by `switch_goes_on`, the fences by `fence_facts` and `tfence_facts`, the engines' events by the lemmas of O45. -/
theorem waitsAndEnginesComplete : Obligations.WaitsAndEnginesComplete := by
  unfold Obligations.WaitsAndEnginesComplete
  refine ⟨fun s i k n tag d a b sc x c h => ⟨waitc_completes h, cpwt_completes h, waitv_completes h, fun hq hl => ?_, fun hc => ?_, ?_,
    fun hc hp hq => ?_⟩, fun s blk num chan b o c => ⟨fun hb ho hq hall => ?_, fun hc h0 hk hp => ?_, fun hk => ?_, fun hk => ?_,
    fun hc hb ho hd => ?_⟩⟩
  · obtain ⟨t, g', hrun, hgr, -, hbytes, hat, hun, -⟩ := fence_facts h sc hq hl
    exact ⟨t, g', hrun, hgr, onward_of_at hat, hun, hbytes⟩
  · obtain ⟨t, g', hrun, halone, hon, hcore⟩ := pref_completes h hc
    obtain ⟨rfl, -, -⟩ := issue_facts h
    exact ⟨t, g', hrun, halone.group, hon, unread_of_core (by rw [hcore]; rfl), halone.bytes⟩
  · obtain ⟨t, g', hrun, halone, hon, -, hcore⟩ := ordcl_completes h
    obtain ⟨rfl, -, -⟩ := issue_facts h
    exact ⟨t, g', hrun, halone.group, hon, unread_of_core hcore, halone.bytes⟩
  · obtain ⟨t, g', hrun, hgr, hon, hcore, -⟩ := tfence_facts h hc hp hq sc
    exact ⟨t, g', hrun, hgr, hon, unread_of_core (by rw [hcore]; rfl)⟩
  · obtain ⟨k, y, hrun, hs⟩ := vgcmdStart_starts hb ho hq hall
    exact ⟨_, y, hrun, rfl, hs.blk, hs.num⟩
  · refine ⟨_, virgaWave_runs hc h0 hk hp, ?_⟩
    rw [(vgRun_banks _ _ _ _ _ _).1]
    exact get_set_self s.banks chan 1
  · exact ⟨_, windowEnd_suspends hk, get_set_self s.banks chan 2⟩
  · exact ⟨_, serviceEnd_frees hk, get_set_self s.banks chan 0⟩
  · obtain ⟨u, fl, hu, hrun⟩ := merge_ends hc hb hd
    obtain ⟨hgone, hop⟩ := vgEnd_facts hu hb ho (vgcmd?_facts hc) fl
    exact ⟨_, _, hrun, hgone, hop, rfl⟩

end Sys2Proof.Proofs.Virga
end

section
/-! SUPPORT. The issue of an engine operation (R167, R176): what stands outside the issuing block, and `Iss.Issued`. -/

namespace Sys2Proof.Proofs.Issues

open Sys2Proof Sys2Proof.Machine Sys2Proof.Laws Sys2Proof.Proofs.IssuingBlock Sys2Proof.Proofs.Frames

/-! ## Clocks -/

theorem clockGet_clockSet_self (c : Clock) (a n : Nat) : clockGet (clockSet c a n) a = n := get_set_self c a n

theorem clockGet_known (g : Group) : clockGet g.known g.agent = g.epoch + 1 := clockGet_clockSet_self _ _ _

/-- A join knows no less than what it starts from. -/
theorem clockGet_le_clockJoin (c d : Clock) (a : Nat) : clockGet c a ≤ clockGet (clockJoin c d) a := by
  unfold clockJoin
  induction d generalizing c with
  | nil => exact Nat.le_refl _
  | cons x r ih =>
    refine Nat.le_trans ?_ (ih _)
    unfold clockGet clockSet
    rw [get_set]
    split
    · next h => subst h; exact Nat.le_max_left _ _
    · exact Nat.le_refl _

theorem clockGet_le_foldl {α : Type} (f : α → Clock) (l : List α) (c : Clock) (a : Nat) :
    clockGet c a ≤ clockGet (l.foldl (fun c x => clockJoin c (f x)) c) a := by
  induction l generalizing c with
  | nil => exact Nat.le_refl _
  | cons x r ih => exact Nat.le_trans (clockGet_le_clockJoin _ _ _) (ih _)

/-! ## A change of the issuing block among changes that touch no block and no byte -/

/-- The issuing block now is b1; every other block and every byte stand as the instruction has found them. -/
structure Became (i : Iss) (u : State) (b1 : Block) : Prop where
  block : u.block? i.gr.blk = some b1
  others : ∀ n, n ≠ i.gr.blk → u.block? n = i.s.block? n
  bytes : ∀ l, u.byte l = i.s.byte l

theorem Became.start {i : Iss} (hb : i.s.block? i.gr.blk = some i.b) {u : State} (h : SameBytes i.s u) : Became i u i.b :=
  ⟨(h.block? _).trans hb, fun n _ => h.block? n, h.byte⟩

theorem Became.same {i : Iss} {u v : State} {b1 : Block} (h : Became i u b1) (k : SameBytes u v) : Became i v b1 :=
  ⟨(k.block? _).trans h.block, fun n hn => (k.block? n).trans (h.others n hn), fun l => (k.byte l).trans (h.bytes l)⟩

theorem Became.change {i : Iss} {u : State} {b1 : Block} (h : Became i u b1) {f : Block → Block} (hf : Stays f) :
    Became i (u.modBlock i.gr.blk f) (f b1) where
  block := by rw [block?_modBlock _ _ _ _ hf.id, if_pos rfl, h.block]; rfl
  others n hn := by rw [block?_modBlock _ _ _ _ hf.id, if_neg hn, h.others n hn]
  bytes l := (byte_modBlock u i.gr.blk f l hf.id hf.stores).trans (h.bytes l)

theorem Became.touch {i : Iss} {u : State} {b1 : Block} (h : Became i u b1) (o : Bool) :
    Became i (if o then u.touchOutside i.gr.blk else u) { b1 with idem := b1.idem && !o } := by
  rw [touch_eq]
  exact h.change ⟨fun _ => rfl, fun _ => rfl, fun _ => ⟨rfl, rfl, rfl, rfl⟩⟩

/-- The instruction ends at the next word. -/
theorem Became.next {i : Iss} {u : State} {b1 : Block} (h : Became i u b1) :
    Became i (i.conclude (.done u false)) (b1.modGroup i.gr.grp (finished i false)) := h.change (stays_modGroup _ _)

theorem Became.group? {i : Iss} {u : State} {b1 : Block} {g : Group} (h : Became i u b1) (hg : b1.groups[i.gr.grp]? = some g) :
    u.group? i.gr = some g := by
  unfold State.group?
  rw [h.block]
  exact hg

/-- Every other group stands where the siblings of the issuing group do. -/
theorem Became.others_group {i : Iss} {u : State} {b1 : Block} (h : Became i u b1) (hb : i.s.block? i.gr.blk = some i.b)
    (hs : ∀ k, k ≠ i.gr.grp → b1.groups[k]? = i.b.groups[k]?) (gr : GRef) (hne : gr ≠ i.gr) : u.group? gr = i.s.group? gr := by
  unfold State.group?
  by_cases hn : gr.blk = i.gr.blk
  · have hk : gr.grp ≠ i.gr.grp := fun hk => hne (by cases gr; simp_all)
    rw [hn, h.block, hb]
    exact hs _ hk
  · rw [h.others _ hn]

theorem same_nextAgent (s : State) (n : Nat) : SameBytes s { s with nextAgent := n } := ⟨rfl, rfl, rfl, rfl⟩

theorem same_claimFree (s : State) (who : Who) (a : Acc) (n : Nat) : SameBytes s (s.claimFree who a n) := by
  unfold State.claimFree
  split
  · exact .refl s
  · exact ⟨rfl, rfl, rfl, rfl⟩

/-! ## The block after an issue -/

/-- The block once the issuing group has issued operation o. -/
def issuedBlock (i : Iss) (o : EngOp) : Block := (i.b.addOp o).modGroup i.gr.grp fun g => g.issuedOp o.tl o.num

theorem stays_issued (i : Iss) (o : EngOp) : Stays fun b => (b.addOp o).modGroup i.gr.grp fun g => g.issuedOp o.tl o.num :=
  ⟨fun _ => rfl, fun _ => rfl, fun _ => ⟨rfl, rfl, rfl, rfl⟩⟩

theorem unread_issuedOp (i : Iss) (tl num : Nat) : i.Unread (i.g.issuedOp tl num) := ⟨rfl, rfl, rfl, rfl, rfl, rfl⟩

theorem group_issuedBlock {i : Iss} (hg : i.b.groups[i.gr.grp]? = some i.g) (o : EngOp) :
    (issuedBlock i o).groups[i.gr.grp]? = some (i.g.issuedOp o.tl o.num) := groups_modGroup_self (b := i.b.addOp o) _ hg

theorem siblings_issuedBlock (i : Iss) (o : EngOp) {k : Nat} (hk : k ≠ i.gr.grp) : (issuedBlock i o).groups[k]? = i.b.groups[k]? :=
  groups_modGroup_ne (i.b.addOp o) _ hk

/-- What a fresh operation of the issuing group holds. -/
structure NewOp (i : Iss) (instr : Instr) (tl : Nat) (opa : List Word) (o : EngOp) : Prop where
  place : o.tl = tl ∧ o.num = (i.b.tline tl).issued + 1
  what : o.instr = instr ∧ o.opa = opa ∧ o.mode = i.mode ∧ o.grp = i.gr.grp
  waiting : o.state = .queued ∧ o.pix = 0 ∧ o.flags = 0
  release : i.g.epoch + 1 ≤ clockGet o.clock i.g.agent

theorem newOp_holds (i : Iss) (instr : Instr) (tl : Nat) (members : List Nat) (index : Nat) (opa data regs : List Word) (gone : Lanes) :
    NewOp i instr tl opa (i.newOp instr tl members index opa data regs gone) :=
  ⟨⟨rfl, rfl⟩, ⟨rfl, rfl, rfl, rfl⟩, ⟨rfl, rfl, rfl⟩, Nat.le_of_eq (clockGet_known i.g).symm⟩

/-- An instruction that has issued o, with what else it has changed of its block, now b1, and its group, now g1. -/
theorem issued_next {i : Iss} {instr : Instr} {tl : Nat} {opa : List Word} {o : EngOp} {u : State} {b1 : Block} {g1 : Group}
    (ho : NewOp i instr tl opa o) (hu : Became i u b1) (hg : b1.groups[i.gr.grp]? = some g1)
    (hs : ∀ k, k ≠ i.gr.grp → b1.groups[k]? = i.b.groups[k]?) (hop : o ∈ b1.ops) (hold : ∀ x ∈ i.b.ops, x.tl ≠ tl ∨ x.num ≠ o.num → x ∈ b1.ops)
    (hmine : g1.mine = setAt i.g.mine tl o.num) (hslots : g1.slot i.slotB = i.g.slot i.slotB ∧ g1.slot (!i.slotB) = i.g.slot (!i.slotB))
    (hepoch : g1.epoch = i.g.epoch + 1) (hread : i.Unread g1) :
    i.Issued instr tl opa (i.conclude (.done u false)) (b1.modGroup i.gr.grp (finished i false)) (finished i false g1) o where
  block := hu.next.block
  group := groups_modGroup_self _ hg
  others := hu.next.others
  siblings k hk := (groups_modGroup_ne _ _ hk).trans (hs k hk)
  bytes := hu.next.bytes
  op := hop
  older := hold
  place := ho.place
  what := ho.what
  waiting := ho.waiting
  mine := (congrArg Group.mine (still_finished i false g1) :).trans hmine
  onward := onward_finished hslots.1 hslots.2
  release := ⟨(congrArg Group.epoch (still_finished i false g1) :).trans hepoch, ho.release⟩
  registers := Unread.of_still hread (still_finished i false g1)

theorem mem_added {l : List EngOp} {o : EngOp} {b1 : Block} (h : b1.ops = l ++ [o]) : o ∈ b1.ops ∧ ∀ x ∈ l, x ∈ b1.ops :=
  ⟨by rw [h]; exact List.mem_append_right _ (List.mem_singleton_self _), fun x hx => by rw [h]; exact List.mem_append_left _ hx⟩

/-- The machine after a group has issued an operation alone. -/
theorem became_issueOp {i : Iss} (hb : i.s.block? i.gr.blk = some i.b) (instr : Instr) (tl : Nat) (opa data : List Word) :
    Became i (i.issueOp instr tl opa data).2 (issuedBlock i (i.issueOp instr tl opa data).1) :=
  (Became.start hb (same_nextAgent _ _)).change (stays_issued i _)

theorem newOp_issueOp (i : Iss) (instr : Instr) (tl : Nat) (opa data : List Word) : NewOp i instr tl opa (i.issueOp instr tl opa data).1 :=
  newOp_holds _ _ _ _ _ _ _ _ _

/-- A group that issues an operation alone goes on with it, whatever accesses it has claimed. -/
theorem issued_alone {i : Iss} {instr : Instr} {tl : Nat} {opa data : List Word} {u : State} {b1 : Block} {g1 : Group}
    (hu : Became i u b1) (hg : b1.groups[i.gr.grp]? = some g1) (hs : ∀ k, k ≠ i.gr.grp → b1.groups[k]? = i.b.groups[k]?)
    (hops : b1.ops = i.b.ops ++ [(i.issueOp instr tl opa data).1]) (hcore : { g1 with plseq := 0 } = { i.g.issuedOp tl (i.issueOp instr tl opa data).1.num with plseq := 0 }) :
    i.Issued instr tl opa (i.conclude (.done u false)) (b1.modGroup i.gr.grp (finished i false)) (finished i false g1) (i.issueOp instr tl opa data).1 :=
  issued_next (newOp_issueOp _ _ _ _ _) hu hg hs (mem_added hops).1 (fun x hx _ => (mem_added hops).2 x hx) (congrArg Group.mine hcore :)
    ⟨(congrArg (Group.slot · i.slotB) hcore :), (congrArg (Group.slot · (!i.slotB)) hcore :)⟩ (congrArg Group.epoch hcore :)
    ⟨(congrArg Group.v hcore :), (congrArg Group.s hcore :), (congrArg Group.p hcore :), (congrArg Group.flags hcore :), (congrArg Group.mode hcore :),
      (congrArg Group.latches hcore :)⟩

/-! ## A result in S[D] beside a change outside the group -/

theorem rdS_finished (i : Iss) (sw : Bool) (g : Group) (wb n : Nat) : (finished i sw g).rdS wb n = g.rdS wb n :=
  (congrArg (Group.rdS · wb n) (still_finished i sw g) :)

/-- The group goes on with x in S[D], after a change of its block and of the machine outside all blocks. -/
theorem gave_next {i : Iss} (hb : i.s.block? i.gr.blk = some i.b) {d : BitVec 6} {v : Word} {rel out : Bool} {u : State} {b1 : Block} {x : Group}
    (hu : Became i u b1) (hg : b1.groups[i.gr.grp]? = some (x.wrS i.sl.wb d.toNat v)) (hs : ∀ k, k ≠ i.gr.grp → b1.groups[k]? = i.b.groups[k]?)
    (hread : i.Unread x) (hslots : x.slot i.slotB = i.g.slot i.slotB ∧ x.slot (!i.slotB) = i.g.slot (!i.slotB))
    (hepoch : x.epoch = if rel then i.g.epoch + 1 else i.g.epoch) (hidem : b1.idem = (i.b.idem && !out)) :
    i.Gave d v rel out (i.conclude (.done u false)) (finished i false (x.wrS i.sl.wb d.toNat v)) where
  group := hu.next.group? (groups_modGroup_self _ hg)
  others gr hne := hu.next.others_group hb (fun k hk => (groups_modGroup_ne _ _ hk).trans (hs k hk)) gr hne
  bytes := hu.next.bytes
  dest := (rdS_finished _ _ _ _ _).trans (rdS_wrS _ _ _ _)
  keep wb n hn := by
    rw [rdS_finished, rdS_wrS_ne _ _ _ _ _ _ hn]
    exact congrArg (fun s => SMap.get 0 s ((wb + n) % 256)) hread.s
  rest := by
    have h := still_finished i false (x.wrS i.sl.wb d.toNat v)
    exact ⟨(congrArg Group.v h :).trans hread.v, (congrArg Group.p h :).trans hread.p, (congrArg Group.flags h :).trans hread.flags,
      (congrArg Group.latches h :).trans hread.latches⟩
  release := (congrArg Group.epoch (still_finished i false (x.wrS i.sl.wb d.toNat v)) :).trans hepoch
  idem := by
    rw [hu.next.block]
    exact congrArg some hidem
  onward := onward_finished hslots.1 hslots.2

end Sys2Proof.Proofs.Issues
end

section
/-! SUPPORT. VGCMD and VGQRY, LAUNCH, ARM and DISARM: O41 and O38. -/

namespace Sys2Proof.Proofs.Launches

open Sys2Proof Sys2Proof.Machine Sys2Proof.Laws Sys2Proof.Proofs.IssuingBlock Sys2Proof.Proofs.Frames Sys2Proof.Proofs.Driver Sys2Proof.Proofs.Issues

/-! ## VGCMD and VGQRY -/

theorem same_vgClaim (s : State) (b : Block) (o : EngOp) (pa n : Nat) : SameBytes s (s.vgClaim b o pa n) :=
  SameBytes.foldl _ (fun _ _ => same_claimFree ..) _ _

theorem vgRunBad_iff (b : Word) : vgRunBad b = true ↔ b.toNat / 2 ^ 8 % 256 = 0 ∨ 128 < b.toNat / 2 ^ 8 % 256 ∨
    128 < b.toNat % 128 + b.toNat / 2 ^ 8 % 256 ∨ b.toNat / 2 ^ 7 % 2 = 1 ∨ 2 ^ 16 ≤ b.toNat := by
  unfold vgRunBad bits bit
  simp only [Bool.or_eq_true, beq_iff_eq, decide_eq_true_eq, bne_iff_ne, ne_eq]
  omega

theorem exec_vgqry {s : State} {i : Iss} (h : s.issue? = some i) {d : BitVec 6} {a : Src} (hc : i.checkSca .i64 [a] = .ok ()) (sel : VgSel) :
    exec (.vgqry d a sel) s = .next (i.conclude (i.putD (.reg d) (BitVec.ofNat 64 (match sel with
      | .mis => SMap.get 0 i.s.misalign (bits (i.uni a).toNat 0 7)
      | .thr => SMap.get 0 i.s.throttle (bits (i.uni a).toNat 0 7)
      | .cap => i.s.freeCaps (bits (i.uni a).toNat 0 7 / 16)
      | .err => (SMap.get (0, 0) i.s.viol (bits (i.uni a).toNat 0 7 * 64 + i.b.ctx)).1)))) := by
  refine (run_issue h _).trans ?_
  rw [hc]
  rfl

theorem bits_low (n k : Nat) : bits n 0 k = n % 2 ^ k := by
  unfold bits
  rw [pow_zero, Nat.div_one]

/-- The ranges that a command names, the place of its block being x. -/
def vgRanges (i : Iss) (b : Src) (x : Acc) : List (Nat × Nat × Bool) :=
  i.s.vgTouches (bits (i.uni b).toNat 0 7) i.b.ctx (i.s.bytes x.loc 128) (some x.loc.ofs)

/-- Its operation, with the machine that has issued it. -/
def vgOp (i : Iss) (d : BitVec 6) (a b : Src) (x : Acc) : EngOp × State :=
  i.issueOp (.vgcmd d a b) 3 [i.uni a, i.uni b] ((vgRanges i b x).flatMap fun y => [BitVec.ofNat 64 y.1, BitVec.ofNat 64 y.2.1])

/-- The machine once the operation has claimed what it writes. -/
def vgClaimed (i : Iss) (d : BitVec 6) (a b : Src) (x : Acc) : State :=
  ((vgRanges i b x).filter (·.2.2)).foldl (fun s y => s.vgClaim i.b (vgOp i d a b x).1 y.1 y.2.1) (vgOp i d a b x).2

theorem same_vgClaimed (i : Iss) (d : BitVec 6) (a b : Src) (x : Acc) : SameBytes (vgOp i d a b x).2 (vgClaimed i d a b x) :=
  SameBytes.foldl _ (fun _ _ => same_vgClaim ..) _ _

section
variable {s : State} {i : Iss} (h : s.issue? = some i) {d : BitVec 6} {a b : Src} (hc : i.checkSca .i64 [a, b] = .ok ()) (hh : i.onlyHelpers = false)
include h hc hh

theorem vgcmd_bad (hbad : vgRunBad (i.uni b) = true) :
    exec (.vgcmd d a b) s = .next (i.conclude (.trap { plainTrap .prot 7 with addr := i.uni b })) := by
  refine (run_issue h _).trans ?_
  rw [hc]
  simp only [orTrap, Iss.suppressed, hh, hbad, if_true, Bool.false_eq_true, if_false]

theorem exec_vgcmd (hbad : vgRunBad (i.uni b) = false) (hq : i.g.quiet = true) (hd : i.g.destBusy i.sl.wb [] [d.toNat] = false) {x : Acc}
    (hx : i.s.check i.who i.b (coreIdx i.gr.grp) ⟨.gl, i.uni a, 128, decide ((i.uni a).toNat % 128 = 0), true, true, false, false, true⟩ false = .ok x) :
    exec (.vgcmd d a b) s = .next (i.conclude (.done (((vgClaimed i d a b x).touchOutside i.gr.blk).modGroup i.gr fun g =>
      g.wrS i.sl.wb d.toNat (BitVec.ofNat 64 (vgOp i d a b x).1.num)) false)) := by
  refine (run_issue h _).trans ?_
  rw [hc]
  simp only [orTrap, Iss.suppressed, hh, hbad, hq, hd, hx, Bool.false_eq_true, if_false, Bool.not_true, Bool.or_self]
  rfl

end

/-- Settles O41: the issue by `exec_vgcmd`, the read of a channel by `putD_next`. -/
theorem virgaInstructions : Obligations.VirgaInstructions := by
  unfold Obligations.VirgaInstructions
  intro s i d a b x h
  obtain ⟨rfl, hb, hg⟩ := issue_facts h
  refine ⟨fun hc hh => ⟨fun hbad => vgcmd_bad h hc hh ((vgRunBad_iff _).2 hbad), fun hbad hq hd hx => ?_⟩, fun hc hd => ?_⟩
  · have hrun := exec_vgcmd h hc hh (Bool.eq_false_iff.2 fun e => hbad ((vgRunBad_iff _).1 e)) hq hd hx
    have hop : Became i (vgOp i d a b x).2 (issuedBlock i (vgOp i d a b x).1) := became_issueOp hb _ _ _ _
    have hclaimed := hop.same (same_vgClaimed i d a b x)
    have hu := (hclaimed.touch true).change (stays_modGroup i.gr.grp fun g => g.wrS i.sl.wb d.toNat (BitVec.ofNat 64 (vgOp i d a b x).1.num))
    have hg1 := groups_modGroup_self (fun g => g.wrS i.sl.wb d.toNat (BitVec.ofNat 64 (vgOp i d a b x).1.num))
      (group_issuedBlock (issue_group h) (vgOp i d a b x).1)
    exact ⟨_, _, _, _, hrun, hu.next.block, groups_modGroup_self _ hg1, List.mem_append_right _ (List.mem_singleton_self _), rfl, rfl, rfl, rfl, rfl,
      gave_next hb hu hg1 (fun k hk => (groups_modGroup_ne _ _ hk).trans (siblings_issuedBlock i _ hk)) (unread_issuedOp i _ _) ⟨rfl, rfl⟩ rfl rfl⟩
  · have gives (sel : VgSel) := (exec_vgqry h hc (d := d) sel).trans rfl
    simp only [bits_low] at gives
    exact ⟨⟨_, _, gives .mis, putD_next h _ _ hd⟩, ⟨_, _, gives .thr, putD_next h _ _ hd⟩, ⟨_, _, gives .err, putD_next h _ _ hd⟩,
      ⟨_, _, gives .cap, putD_next h _ _ hd⟩⟩

/-! ## Instructions that read a record -/

theorem record_reads {i : Iss} {d : BitVec 6} {a : Word} {n : Nat} {bs : List Byte} (h : i.Reads d a n bs) (r : List Byte → Res) :
    i.suppressed d (fun _ => i.record [d.toNat] a n r) = r bs := by
  obtain ⟨hh, hq, hd, x, hx, rfl⟩ := h
  simp only [Iss.suppressed, Iss.record, hh, hq, hd, hx, Bool.false_eq_true, if_false, Bool.not_true, Bool.or_self]

/-- An instruction that has changed the machine outside all blocks ends with x in S[D]. -/
theorem outside_gave {s : State} {i : Iss} (h : s.issue? = some i) (d : BitVec 6) (x : Word) (rel : Bool) {u : State} (hu : SameBytes i.s u) :
    ∃ g', i.Gave d x rel true (i.conclude (i.outside u d x rel)) g' := by
  obtain ⟨rfl, hb, hg⟩ := issue_facts h
  have hblk := ((Became.start hb hu).touch true).same (v := if rel then (u.touchOutside i.gr.blk).unpin i.g.agent else u.touchOutside i.gr.blk)
    (same_ite _ (same_unpin _ _))
  cases rel with
  | true => exact ⟨_, gave_next hb (hblk.change (stays_modGroup _ _)) (groups_modGroup_self _ (issue_group h)) (fun k hk => groups_modGroup_ne _ _ hk)
      (unread_release i) ⟨rfl, rfl⟩ rfl rfl⟩
  | false => exact ⟨_, gave_next hb (hblk.change (stays_modGroup _ _)) (groups_modGroup_self _ (issue_group h)) (fun k hk => groups_modGroup_ne _ _ hk)
      (unread_self i) ⟨rfl, rfl⟩ rfl rfl⟩

/-- What such an instruction has changed outside all blocks stands. -/
theorem outside_rest (i : Iss) (u : State) (d : BitVec 6) (x : Word) (rel : Bool) : (i.conclude (i.outside u d x rel)).grids = u.grids ∧
    (i.conclude (i.outside u d x rel)).armed = u.armed ∧ (i.conclude (i.outside u d x rel)).ctxs = u.ctxs := by
  cases rel <;> exact ⟨rfl, rfl, rfl⟩

/-! ## LAUNCH -/

theorem exec_launch {s : State} {i : Iss} (h : s.issue? = some i) {d : BitVec 6} {a : Src} (hc : i.checkSca .i64 [a] = .ok ()) {bs : List Byte}
    (hr : i.Reads d (i.uni a) 128 bs) {c : Context} (hctx : i.s.ctx? i.b.ctx = some c) :
    exec (.launch d a) s = .next (i.conclude (match rejects bs c with
      | some n => i.outside i.s d (BitVec.ofInt 64 (-(n : Int))) true
      | none => if i.s.storeFull (dieOf i.cluster) then .trap (plainTrap .lqfull 0)
        else i.outside (i.s.acceptGrid c (lrecOf bs) (.group i.g.agent) (dieOf i.cluster) i.g.known none).1 d
          (BitVec.ofNat 64 (i.s.acceptGrid c (lrecOf bs) (.group i.g.agent) (dieOf i.cluster) i.g.known none).2) true)) := by
  refine (run_issue h _).trans ?_
  rw [hc]
  simp only [orTrap, record_reads hr, hctx] <;> cases rejects bs c <;> rfl

theorem same_acceptGrid (s : State) (c : Context) (r : LRec) (src : LSource) (die : Nat) (clock : Clock) (w : Option (Word × Word)) :
    SameBytes s (s.acceptGrid c r src die clock w).1 := ⟨rfl, rfl, rfl, rfl⟩

/-! ## ARM and DISARM -/

/-- An entry that ARM makes of the record bs. -/
def armEntry (i : Iss) (bs : List Byte) (idx : Nat) : ArmEnt :=
  ⟨idx, i.b.ctx, recNum bs 0 4, recNum bs 4 4, BitVec.ofNat 64 (recNum bs 8 8), BitVec.ofNat 64 (recNum bs 16 8), i.g.agent, dieOf i.cluster, none⟩

/-- The index that ARM takes. -/
def armIndex (free : List Nat) (k : Nat) : Nat := match free with | [n] => n | _ => free.getD (k % free.length) 0

theorem armIndex_mem {l : List Nat} (h : l ≠ []) (k : Nat) : armIndex l k ∈ l := by
  unfold armIndex
  split
  · exact List.mem_singleton_self _
  · have hk := Nat.mod_lt k (List.length_pos_of_ne_nil h)
    rw [List.getD_eq_getElem _ _ hk]
    exact List.getElem_mem hk

theorem mem_freeArms (s : State) (n : Nat) : n ∈ s.freeArms ↔ n < 4096 ∧ ∀ e ∈ s.armed, e.idx ≠ n := by
  unfold State.freeArms
  simp [List.mem_filter]

theorem exec_arm {s : State} {i : Iss} (h : s.issue? = some i) {d : BitVec 6} {a : Src} (hc : i.checkSca .i64 [a] = .ok ()) {bs : List Byte}
    (hr : i.Reads d (i.uni a) 32 bs) :
    exec (.arm d a) s = .next (i.conclude (
      if 4096 ≤ i.s.armed.length then i.outside i.s d (-1) false
      else if i.s.armed.any fun e => e.ctx == i.b.ctx && e.tag == recNum bs 0 4 && e.minLen == recNum bs 4 4 then i.outside i.s d (-2) false
      else i.outside { i.s with armed := i.s.armed ++ [armEntry i bs (armIndex i.s.freeArms (Config.armEntry i.s.tick))] } d
        (BitVec.ofNat 64 (armIndex i.s.freeArms (Config.armEntry i.s.tick))) false)) := by
  refine (run_issue h _).trans ?_
  rw [hc]
  simp only [orTrap, record_reads hr]
  generalize i.s.freeArms = free
  rfl

/-- The entry that DISARM names. -/
theorem disarms_iff (i : Iss) (x : Word) (e : ArmEnt) :
    (e.ctx == i.b.ctx && e.tag == bits x.toNat 0 32 && e.minLen == bits x.toNat 32 32) = true ↔
      e.ctx = i.b.ctx ∧ e.tag = x.toNat % 2 ^ 32 ∧ e.minLen = x.toNat / 2 ^ 32 := by
  have hhigh : bits x.toNat 32 32 = x.toNat / 2 ^ 32 := Nat.mod_eq_of_lt (by have := x.isLt; omega)
  rw [bits_low, hhigh]
  simp only [Bool.and_eq_true, beq_iff_eq, and_assoc]

theorem exec_disarm {s : State} {i : Iss} (h : s.issue? = some i) {d : BitVec 6} {a : Src} (hc : i.checkSca .i64 [a] = .ok ())
    (hh : i.onlyHelpers = false) (hd : i.g.destBusy i.sl.wb [] [d.toNat] = false) :
    exec (.disarm d a) s = .next (i.conclude (
      let is_ (e : ArmEnt) : Bool := e.ctx == i.b.ctx && e.tag == bits (i.uni a).toNat 0 32 && e.minLen == bits (i.uni a).toNat 32 32
      i.outside { i.s with armed := i.s.armed.filter fun e => !is_ e } d (if i.s.armed.any is_ then 1 else 0) false)) := by
  refine (run_issue h _).trans ?_
  rw [hc]
  simp only [orTrap, Iss.suppressed, hh, hd, Bool.false_eq_true, if_false]

/-- Settles O38: LAUNCH by `exec_launch`, ARM by `exec_arm`, DISARM by `exec_disarm`; each gives its result by `outside_gave`. -/
theorem launches : Obligations.Launches := by
  unfold Obligations.Launches
  intro s i d a bs h hc
  obtain ⟨rfl, hb, hg⟩ := issue_facts h
  have gave (x : Word) (rel : Bool) {u : State} (hu : SameBytes i.s u) := outside_gave h d x rel hu
  refine ⟨fun hr c hctx => ⟨fun n hn => ?_, fun hn hfull => ?_, fun hn hfull => ?_⟩, fun hr => ⟨fun hlen => ?_, fun hlen hex => ?_, fun hlen hno hfree => ?_⟩,
    fun hh hd => ?_⟩
  · have hrun := exec_launch h hc hr hctx
    simp only [hn] at hrun
    obtain ⟨g', hgave⟩ := gave (BitVec.ofInt 64 (-(n : Int))) true (.refl i.s)
    exact ⟨_, g', hrun, hgave, (outside_rest i i.s d _ true).1⟩
  · have hrun := exec_launch h hc hr hctx
    simp only [hn, hfull, Bool.false_eq_true, if_false] at hrun
    obtain ⟨g', hgave⟩ := gave (BitVec.ofNat 64 c.nextLaunch) true (same_acceptGrid i.s c (lrecOf bs) (.group i.g.agent) (dieOf i.cluster) i.g.known none)
    have hrest := outside_rest i (i.s.acceptGrid c (lrecOf bs) (.group i.g.agent) (dieOf i.cluster) i.g.known none).1 d (BitVec.ofNat 64 c.nextLaunch) true
    refine ⟨_, g', _, hrun, hgave, hrest.1, rfl, rfl, rfl, rfl, rfl, ?_, ?_⟩
    · exact Nat.le_trans (Nat.le_of_eq (clockGet_known i.g).symm) (clockGet_le_clockJoin _ _ _)
    · have hnum := num_of_ctx? hctx
      have hself := ctx?_modCtx_self (s := i.s) (n := c.num) (hnum ▸ hctx) (f := fun x => { x with nextLaunch := nextLid c.nextLaunch }) fun _ h => h
      unfold State.ctx? at hself ⊢
      refine (congrArg (fun l : List Context => (l.find? fun c => c.num == i.b.ctx).map (·.nextLaunch)) hrest.2.2).trans ?_
      rw [← hnum]
      exact congrArg (Option.map (·.nextLaunch)) hself
  · have hrun := exec_launch h hc hr hctx
    simpa only [hn, hfull, if_true] using hrun
  · have hrun := exec_arm h hc hr
    rw [if_pos hlen] at hrun
    obtain ⟨g', hgave⟩ := gave (-1) false (.refl i.s)
    exact ⟨_, g', hrun, hgave, (outside_rest i i.s d _ false).2.1⟩
  · have hrun := exec_arm h hc hr
    rw [if_neg (Nat.not_le.2 hlen), if_pos] at hrun
    · obtain ⟨g', hgave⟩ := gave (-2) false (.refl i.s)
      exact ⟨_, g', hrun, hgave, (outside_rest i i.s d _ false).2.1⟩
    · obtain ⟨e, he, h1, h2, h3⟩ := hex
      refine List.any_eq_true.2 ⟨e, he, ?_⟩
      simp only [h1, h2, h3, recNum, List.drop_zero, beq_self_eq_true, Bool.and_self]
  · have hrun := exec_arm h hc hr
    rw [if_neg (Nat.not_le.2 hlen), if_neg] at hrun
    · obtain ⟨n, hn, hidx⟩ := hfree
      obtain ⟨hlt, hne⟩ := (mem_freeArms i.s _).1 (armIndex_mem (List.ne_nil_of_mem ((mem_freeArms i.s n).2 ⟨hn, hidx⟩)) (Config.armEntry i.s.tick))
      generalize armIndex i.s.freeArms (Config.armEntry i.s.tick) = idx at hrun hlt hne
      obtain ⟨g', hgave⟩ := gave (BitVec.ofNat 64 idx) false (u := { i.s with armed := i.s.armed ++ [armEntry i bs idx] }) ⟨rfl, rfl, rfl, rfl⟩
      exact ⟨_, g', armEntry i bs idx, hrun, hgave, (outside_rest i _ d _ false).2.1, hlt, hne, rfl, rfl, rfl, rfl, rfl⟩
    · intro he
      obtain ⟨e, he, hall⟩ := List.any_eq_true.1 he
      simp only [Bool.and_eq_true, beq_iff_eq, recNum, List.drop_zero] at hall
      exact hno e he ⟨hall.1.1, hall.1.2, hall.2⟩
  · have hrun := exec_disarm h hc hh hd
    obtain ⟨g', hgave⟩ := gave (if i.s.armed.any (fun e => e.ctx == i.b.ctx && e.tag == bits (i.uni a).toNat 0 32 && e.minLen == bits (i.uni a).toNat 32 32) then 1 else 0)
      false (u := { i.s with armed := i.s.armed.filter fun e => !(e.ctx == i.b.ctx && e.tag == bits (i.uni a).toNat 0 32 && e.minLen == bits (i.uni a).toNat 32 32) }) ⟨rfl, rfl, rfl, rfl⟩
    refine ⟨_, g', _, hrun, hgave, fun e => ?_, ?_⟩
    · rw [(outside_rest i _ d _ false).2.1, List.mem_filter, Bool.not_eq_true', Bool.eq_false_iff, ne_eq, disarms_iff]
    · split
      · next hany =>
        obtain ⟨e, he, hall⟩ := List.any_eq_true.1 hany
        exact .inl ⟨rfl, e, he, (disarms_iff i _ e).1 hall⟩
      · next hany => exact .inr ⟨rfl, fun e he hall => hany (List.any_eq_true.2 ⟨e, he, (disarms_iff i _ e).2 hall⟩)⟩

end Sys2Proof.Proofs.Launches
end

section
/-! SUPPORT. The issue of plane instructions: O33. -/

namespace Sys2Proof.Proofs.PlaneIssues

open Sys2Proof Sys2Proof.Machine Sys2Proof.Laws Sys2Proof.Proofs.IssuingBlock Sys2Proof.Proofs.Frames Sys2Proof.Proofs.Issues

theorem run_eq {s : State} {i : Iss} (h : s.issue? = some i) {f : Iss → Res} {r : Res} (hf : f i = r) : s.run f = .next (i.conclude r) :=
  (run_issue h f).trans (by rw [hf])

/-! ## The issue itself -/

/-- A change of the block's plane alone. -/
structure OnPlane (f : Block → Block) : Prop where
  stays : Stays f
  groups : ∀ b, (f b).groups = b.groups
  ops : ∀ b, (f b).ops = b.ops

theorem onPlane_id : OnPlane id := ⟨⟨fun _ => rfl, fun _ => rfl, fun _ => ⟨rfl, rfl, rfl, rfl⟩⟩, fun _ => rfl, fun _ => rfl⟩

theorem onPlane_setPlane (f : Plane → Plane) : OnPlane fun b => setPlane b f :=
  ⟨⟨fun _ => rfl, fun _ => rfl, fun _ => ⟨rfl, rfl, rfl, rfl⟩⟩, fun _ => rfl, fun _ => rfl⟩

/-- The operation of a plane instruction. -/
def planeEng (i : Iss) (instr : Instr) (v : List Word) : EngOp := (i.issueOp instr 2 v [i.g.flagen.setWidth 64]).1

/-- The block once a plane instruction has issued, before what the instruction does to the plane's issue side. -/
def planeBlock (i : Iss) (instr : Instr) (v : List Word) : Block :=
  (issuedBlock i (planeEng i instr v)).modGroup i.gr.grp fun g => { g with plseq := BitVec.ofNat 64 (planeEng i instr v).num }

theorem became_planeIssue {i : Iss} (hb : i.s.block? i.gr.blk = some i.b) (instr : Instr) (v : List Word) {f : Block → Block} (hf : OnPlane f) :
    Became i (i.planeIssue instr v f).2 (f (planeBlock i instr v)) :=
  (became_issueOp hb instr 2 v [i.g.flagen.setWidth 64]).change
    (f := fun b => f (b.modGroup i.gr.grp fun g => { g with plseq := BitVec.ofNat 64 (planeEng i instr v).num }))
    (hf.stays.comp (stays_modGroup _ _))

/-- A plane instruction that issues goes on with its operation issued, PLSEQ its number, and the plane as f leaves it. -/
theorem plane_issued {s : State} {i : Iss} (h : s.issue? = some i) (instr : Instr) (v : List Word) {u : State}
    {b1 : Block} (hu : Became i u b1) (hgroups : b1.groups = (planeBlock i instr v).groups) (hops : b1.ops = (planeBlock i instr v).ops) :
    ∃ b' g' o, i.Issued instr 2 v (i.conclude (.done u false)) b' g' o ∧ g'.plseq = BitVec.ofNat 64 o.num ∧ b'.planeSt = b1.planeSt ∧
      b'.idem = b1.idem ∧ o.data = [i.g.flagen.setWidth 64] := by
  have hg := groups_modGroup_self (fun g => { g with plseq := BitVec.ofNat 64 (planeEng i instr v).num }) (group_issuedBlock (issue_group h) (planeEng i instr v))
  have hi : i.Issued instr 2 v (i.conclude (.done u false)) _ _ (planeEng i instr v) := issued_alone hu (g1 := { i.g.issuedOp 2 (planeEng i instr v).num with plseq := BitVec.ofNat 64 (planeEng i instr v).num })
    ((congrArg (·[i.gr.grp]?) hgroups).trans hg)
    (fun k hk => by
      rw [hgroups]
      exact (groups_modGroup_ne _ _ hk).trans (siblings_issuedBlock i _ hk))
    hops rfl
  exact ⟨_, _, _, hi, (congrArg Group.plseq (still_finished i false { i.g.issuedOp 2 (planeEng i instr v).num with plseq := BitVec.ofNat 64 (planeEng i instr v).num }) :), rfl, rfl, rfl⟩

/-! ## Plane instructions of the bound group -/

section
variable {s : State} {i : Iss}

theorem planeOp_unbound (hno : ∀ q, i.b.planeSt = some q → q.bound ≠ some i.gr.grp) (instr : Instr) (v : List Word) (bad : Option Trap) (f : Plane → Plane) :
    i.planeOp instr v bad f = .trap (plainTrap .plx 4) := by
  have hb : i.isBound = false := by
    unfold Iss.isBound
    cases hp : i.b.planeSt with
    | none => rfl
    | some q => exact beq_eq_false_iff_ne.2 (hno q hp)
  unfold Iss.planeOp
  rw [hb]
  rfl

theorem isBound_of_binds {p : Plane} (h : i.Binds p) : i.isBound = true := by
  obtain ⟨hp, hbound, -⟩ := h
  unfold Iss.isBound
  rw [hp]
  exact beq_iff_eq.2 hbound

theorem planeDepth_of_binds {p : Plane} (h : i.Binds p) : i.planeDepth = p.depth := by
  unfold Iss.planeDepth
  rw [h.1]

theorem planeOp_binds {p : Plane} (h : i.Binds p) (instr : Instr) (v : List Word) (bad : Option Trap) (f : Plane → Plane) :
    i.planeOp instr v bad f = match bad with
      | some t => .trap t
      | none => .done (i.planeIssue instr v fun b => setPlane b f).2 false := by
  unfold Iss.planeOp
  rw [isBound_of_binds h, h.2.2]
  cases bad <;> rfl

theorem planeArith_eq (ht : i.ty = .f32 ∨ i.ty = .bf16) (instr : Instr) (v : List Word) : i.planeArith instr v = i.planeOp instr v none id := if_pos ht

/-- What the statements ask of an issue. -/
theorem planeOp_issues (h : s.issue? = some i) {p : Plane} (hp : i.Binds p) {instr : Instr} {v : List Word} {f : Plane → Plane}
    {out : Host.Outcome State Fault Refusal} (hrun : out = .next (i.conclude (i.planeOp instr v none f))) {q : Plane} (hf : f p = q) :
    ∃ t b' g' o, out = .next t ∧ i.Issued instr 2 v t b' g' o ∧
      g'.plseq = BitVec.ofNat 64 o.num ∧ b'.planeSt = some q ∧ o.data = [i.g.flagen.setWidth 64] := by
  subst hf
  obtain ⟨rfl, hb, -⟩ := issue_facts h
  rw [planeOp_binds hp] at hrun
  obtain ⟨b', g', o, hi, hseq, hplane, -, hdata⟩ := plane_issued h instr v (became_planeIssue hb instr v (onPlane_setPlane f)) rfl rfl
  exact ⟨_, b', g', o, hrun, hi, hseq, hplane.trans (congrArg (Option.map f) hp.1), hdata⟩

/-- PLIF, PLELSE and PLEND, each with the depth at which it stops. -/
theorem planeOp_depth (h : s.issue? = some i) {p : Plane} (hp : i.Binds p) {instr : Instr} {v : List Word} {f : Plane → Plane} (n : Nat) (t : Trap)
    {out : Host.Outcome State Fault Refusal} (hrun : out = .next (i.conclude (i.planeOp instr v (if i.planeDepth = n then some t else none) f))) :
    if p.depth = n then out = .next (i.conclude (.trap t)) else
      ∃ t b' g' o, out = .next t ∧ i.Issued instr 2 v t b' g' o ∧ g'.plseq = BitVec.ofNat 64 o.num ∧ b'.planeSt = some (f p) ∧
        o.data = [i.g.flagen.setWidth 64] := by
  rw [planeDepth_of_binds hp] at hrun
  split
  · next hd =>
    rw [if_pos hd, planeOp_binds hp] at hrun
    exact hrun
  · next hd =>
    rw [if_neg hd] at hrun
    exact planeOp_issues h hp hrun rfl

end

/-! ## PLBIND -/

/-- What PLBIND makes of the plane. -/
def bindPlane (i : Iss) (b : Block) : Block := { b with planeSt := some { b.planeSt.getD Plane.fresh with bound := some i.gr.grp } }

theorem onPlane_bindPlane (i : Iss) : OnPlane (bindPlane i) := ⟨⟨fun _ => rfl, fun _ => rfl, fun _ => ⟨rfl, rfl, rfl, rfl⟩⟩, fun _ => rfl, fun _ => rfl⟩

theorem plbind_issues {s : State} {i : Iss} (h : s.issue? = some i) (hplane : i.b.plane = true) (hbusy : i.planeBusy = false)
    (hfree : ∀ q, i.b.planeSt = some q → q.bound = none ∨ q.bound = some i.gr.grp) :
    ∃ t b' g' o, exec .plbind s = .next t ∧ i.Issued .plbind 2 [] t b' g' o ∧ g'.plseq = BitVec.ofNat 64 o.num ∧
      b'.planeSt = some { i.b.planeSt.getD Plane.fresh with bound := some i.gr.grp } ∧ o.data = [i.g.flagen.setWidth 64] := by
  obtain ⟨rfl, hb, -⟩ := issue_facts h
  have hheld : ((match i.b.planeSt with | some p => p.bound | none => none).isSome &&
      (match i.b.planeSt with | some p => p.bound | none => none) != some i.gr.grp) = false := by
    cases hp : i.b.planeSt with
    | none => rfl
    | some q => rcases hfree q hp with hq | hq <;> simp [hq]
  have hrun : exec .plbind i.s = .next (i.conclude (.done (if i.b.planeSt.isNone
      then { (i.planeIssue .plbind [] (bindPlane i)).2 with
        parity := (i.planeIssue .plbind [] (bindPlane i)).2.parity.filter fun e => i.b.place != some e.inst.toNat }
      else (i.planeIssue .plbind [] (bindPlane i)).2) false)) := by
    refine run_eq h ?_
    simp only [hplane, hbusy, Bool.not_true, Bool.false_eq_true, if_false]
    rw [if_neg (by rw [Bool.not_eq_true]; exact hheld)]
    rfl
  have hu := (became_planeIssue hb .plbind [] (onPlane_bindPlane i)).same (v := if i.b.planeSt.isNone
      then { (i.planeIssue .plbind [] (bindPlane i)).2 with
        parity := (i.planeIssue .plbind [] (bindPlane i)).2.parity.filter fun e => i.b.place != some e.inst.toNat }
      else (i.planeIssue .plbind [] (bindPlane i)).2) (same_ite _ ⟨rfl, rfl, rfl, rfl⟩)
  obtain ⟨b', g', o, hi, hseq, hp, -, hdata⟩ := plane_issued h .plbind [] hu rfl rfl
  exact ⟨_, b', g', o, hrun, hi, hseq, hp, hdata⟩

/-! ## PLLD and PLST -/

theorem same_claimFoot (s : State) (b : Block) (o : EngOp) (sp : Bool) (a : Word) : SameBytes s (s.claimFoot b o sp a) := by
  refine SameBytes.foldl _ (fun s x => ?_) _ _
  split
  · exact same_claimFree _ _ _ _
  · exact .refl s

/-- The two instructions, each with whether it stores. -/
theorem exec_planeMem {s : State} {i : Iss} (h : s.issue? = some i) (d : BitVec 5) (a b : Src) (sp : Bool) :
    ∀ e ∈ [(Instr.plld d a b sp, false), (.plst d a b sp, true)], exec e.1 s = .next (i.conclude (i.planeMem e.1 e.2 a b sp)) := by
  simp only [List.forall_mem_cons]
  exact ⟨run_issue h _, run_issue h _, List.forall_mem_nil _⟩

theorem planeMem_stops {i : Iss} {a b : Src} (hc : i.checkSca .i64 [a, b] = .ok ()) {sp : Bool} {t : Trap}
    (hr : planeRange i.b sp (i.uni a + i.uni b) = .error t) (instr : Instr) (st : Bool) : i.planeMem instr st a b sp = .trap t := by
  unfold Iss.planeMem
  rw [hc]
  simp only [orTrap, hr]

theorem planeMem_issues {s : State} {i : Iss} (h : s.issue? = some i) {a b : Src} (hc : i.checkSca .i64 [a, b] = .ok ()) {sp : Bool}
    (hr : planeRange i.b sp (i.uni a + i.uni b) = .ok ()) {p : Plane} (hp : i.Binds p) (instr : Instr) (st : Bool) :
    ∃ b' g' o, i.Issued instr 2 [i.uni a, i.uni b] (i.conclude (i.planeMem instr st a b sp)) b' g' o ∧ g'.plseq = BitVec.ofNat 64 o.num ∧
      b'.planeSt = some p ∧ b'.idem = (i.b.idem && !(st && !sp)) := by
  obtain ⟨rfl, hb, -⟩ := issue_facts h
  have hclaimed : SameBytes (i.planeIssue instr [i.uni a, i.uni b] id).2 (if st then (i.planeIssue instr [i.uni a, i.uni b] id).2.claimFoot i.b
      (i.planeIssue instr [i.uni a, i.uni b] id).1 sp (i.uni a + i.uni b) else (i.planeIssue instr [i.uni a, i.uni b] id).2) := same_ite _ (same_claimFoot ..)
  have hu := ((became_planeIssue hb instr [i.uni a, i.uni b] onPlane_id).same hclaimed).touch (st && !sp)
  obtain ⟨b', g', o, hi, hseq, hplane, hidem, -⟩ := plane_issued h instr [i.uni a, i.uni b] hu rfl rfl
  refine ⟨b', g', o, ?_, hseq, hplane.trans hp.1, hidem⟩
  unfold Iss.planeMem
  rw [hc]
  simp only [orTrap, hr, isBound_of_binds hp, hp.2.2, Bool.not_true, Bool.false_eq_true, if_false]
  exact hi

section
variable {b : Block} {x : Word}

theorem planeRange_malformed (h : 2 ^ 25 ≤ x.toNat ∨ 5 < bits x.toNat 18 3 ∨ (bit x.toNat 24 = false ∧ bits x.toNat 21 3 ≠ 0)) :
    planeRange b true x = .error { plainTrap .prot 2 with addr := x } := by
  unfold planeRange
  rw [if_pos rfl, if_pos]
  simpa using h

theorem planeRange_peer (h25 : x.toNat < 2 ^ 25) (h5 : bits x.toNat 18 3 ≤ 5) (hb : bit x.toNat 24 = true) :
    planeRange b true x = .error { plainTrap .prot 7 with addr := x } := by
  unfold planeRange
  rw [if_pos rfl, if_neg, if_pos hb]
  simp [hb]
  omega

theorem planeRange_canonical (h : canonicalVa x.toNat = false) : planeRange b false x = .error { plainTrap .page 1 with addr := x } := by
  unfold planeRange
  rw [if_neg Bool.false_ne_true, h]
  rfl

theorem planeRange_unaligned {sp : Bool} (h : if sp then x.toNat < 2 ^ 21 ∧ bits x.toNat 18 3 ≤ 5 else canonicalVa x.toNat = true)
    (ha : x.toNat % 256 ≠ 0) : planeRange b sp x = .error { plainTrap .align 1 with addr := x } := by
  unfold planeRange
  cases sp with
  | true =>
    obtain ⟨h21, h5⟩ := h
    have hbit : bit x.toNat 24 = false := by
      unfold bit
      rw [Nat.div_eq_of_lt (by omega)]
      rfl
    have hmemb : bits x.toNat 21 3 = 0 := by
      unfold bits
      rw [Nat.div_eq_of_lt (by omega), Nat.zero_mod]
    rw [if_pos rfl, if_neg, if_neg, if_pos ha]
    · simp [hbit]
    · simp [hbit, hmemb]
      omega
  | false =>
    have hcan : canonicalVa x.toNat = true := h
    simp only [Bool.false_eq_true, if_false, hcan, Bool.not_true, ha, ne_eq, not_false_eq_true, if_true]

end

/-- Settles O33: an issue by `planeOp_issues`, PLBIND by `plbind_issues`, PLLD and PLST by `planeMem_issues` and `planeMem_stops`. -/
theorem planeIssues : Obligations.PlaneIssues := by
  unfold Obligations.PlaneIssues
  refine ⟨fun s i p d a a2 b r cl le dir f c u w m h => ?_, fun s i p d a b sp h hc => ?_⟩
  · refine ⟨fun hno => ⟨?_, fun ht => ?_, ?_⟩, fun hp => ⟨?_, fun ht => ?_, fun ht => ?_, fun hc => ?_, fun hc => ?_, ?_, ?_, ?_, ?_, ?_⟩, fun hpl => ?_, fun hpl hbusy => ?_⟩
    · have stops (instr : Instr) (v : List Word) := planeOp_unbound hno instr v none id
      simp only [Iss.planeAny, List.forall_mem_cons]
      exact ⟨run_eq h (stops _ _), run_eq h (stops _ _), run_eq h (stops _ _), List.forall_mem_nil _⟩
    · have stops (instr : Instr) (v : List Word) := (planeArith_eq ht instr v).trans (planeOp_unbound hno instr v none id)
      simp only [Iss.planeFloat, List.forall_mem_cons]
      exact ⟨run_eq h (stops _ _), run_eq h (stops _ _), run_eq h (stops _ _), run_eq h (stops _ _), run_eq h (stops _ _), run_eq h (stops _ _),
        run_eq h (stops _ _), run_eq h (stops _ _), run_eq h (stops _ _), run_eq h (stops _ _), List.forall_mem_nil _⟩
    · simp only [List.forall_mem_cons]
      exact ⟨run_eq h (planeOp_unbound hno _ _ _ _), run_eq h (planeOp_unbound hno _ _ _ _), run_eq h (planeOp_unbound hno _ _ _ _),
        run_eq h (planeOp_unbound hno _ _ _ _), run_eq h (planeOp_unbound hno _ _ _ _), List.forall_mem_nil _⟩
    · simp only [Iss.planeAny, List.forall_mem_cons]
      exact ⟨planeOp_issues h hp (run_eq h rfl) rfl, planeOp_issues h hp (run_eq h rfl) rfl, planeOp_issues h hp (run_eq h rfl) rfl, List.forall_mem_nil _⟩
    · have arith (instr : Instr) (v : List Word) := planeArith_eq ht instr v
      simp only [Iss.planeFloat, List.forall_mem_cons]
      exact ⟨planeOp_issues h hp (run_eq h (arith _ _)) rfl, planeOp_issues h hp (run_eq h (arith _ _)) rfl, planeOp_issues h hp (run_eq h (arith _ _)) rfl, planeOp_issues h hp (run_eq h (arith _ _)) rfl,
        planeOp_issues h hp (run_eq h (arith _ _)) rfl, planeOp_issues h hp (run_eq h (arith _ _)) rfl, planeOp_issues h hp (run_eq h (arith _ _)) rfl, planeOp_issues h hp (run_eq h (arith _ _)) rfl,
        planeOp_issues h hp (run_eq h (arith _ _)) rfl, planeOp_issues h hp (run_eq h (arith _ _)) rfl, List.forall_mem_nil _⟩
    · exact ⟨planeOp_issues h hp (run_eq h (if_pos ht)) rfl, planeOp_issues h hp (run_eq h (if_pos ht)) rfl⟩
    · exact planeOp_issues h hp (run_eq h (by rw [hc]; rfl)) rfl
    · refine ⟨planeOp_issues h hp (run_eq h (by rw [hc]; rfl)) rfl, fun hcan hal => planeOp_issues h hp (f := id) (run_eq h ?_) rfl⟩
      rw [hc]
      simp [orTrap, hcan, hal]
    · exact planeOp_issues h hp (run_eq h rfl) rfl
    · exact planeOp_issues h hp (f := fun p => if m.getLsbD 2 then { p with depth := 0 } else p) (run_eq h rfl) rfl
    · exact planeOp_depth h hp (f := fun p => { p with depth := p.depth + 1 }) 8 _ (run_issue h _)
    · exact planeOp_depth h hp (f := id) 0 _ (run_issue h _)
    · exact planeOp_depth h hp (f := fun p => { p with depth := p.depth - 1 }) 0 _ (run_issue h _)
    · exact run_eq h (by rw [hpl]; rfl)
    · refine ⟨fun hnone => ?_, fun q hq => ?_⟩
      · have hi := plbind_issues h hpl hbusy (fun q hq => nomatch hnone.symm.trans hq)
        rwa [hnone] at hi
      · split
        · next hfree =>
          have hi := plbind_issues h hpl hbusy (fun q' hq' => Option.some.inj (hq.symm.trans hq') ▸ hfree)
          rwa [hq] at hi
        · next hheld =>
          refine run_eq h ?_
          obtain ⟨h1, h2⟩ := not_or.1 hheld
          simp [hpl, hq, Option.isSome_iff_ne_none.2 h1, h2]
  · intro x e he
    have hrun := exec_planeMem h d a b sp e he
    have stops {t : Trap} (hr : planeRange i.b sp (i.uni a + i.uni b) = .error t) : exec e.1 s = .next (i.conclude (.trap t)) := by
      rw [hrun, planeMem_stops hc hr]
    refine ⟨fun hsp hbad => ?_, fun hsp h25 h5 hbit => ?_, fun hsp hcan => ?_, fun hin hal => stops (planeRange_unaligned hin hal), fun hr hp => ?_⟩
    · subst hsp
      exact stops (planeRange_malformed hbad)
    · subst hsp
      exact stops (planeRange_peer h25 h5 hbit)
    · subst hsp
      exact stops (planeRange_canonical hcan)
    · obtain ⟨b', g', o, hi, hseq, hplane, hidem⟩ := planeMem_issues h hc hr hp e.1 e.2
      exact ⟨_, b', g', o, hrun, hi, hseq, hplane, hidem⟩

end Sys2Proof.Proofs.PlaneIssues
end

section
/-! SUPPORT. The issue of copies (R153, R154): O36. -/

namespace Sys2Proof.Proofs.CopyIssues

open Sys2Proof Sys2Proof.Machine Sys2Proof.Laws Sys2Proof.Proofs.IssuingBlock Sys2Proof.Proofs.Frames Sys2Proof.Proofs.Issues
  Sys2Proof.Proofs.PlaneIssues

/-! ## Claims -/

theorem same_claimRow (s : State) (who : Who) (b : Block) (grp spc : Nat) (a : Word) (n : Nat) : SameBytes s (s.claimRow who b grp spc a n) := by
  refine SameBytes.foldl _ (fun s x => ?_) _ _
  split
  · exact same_claimFree _ _ _ _
  · exact .refl s

theorem same_claimRows (s : State) (who : Who) (b : Block) (grp spc : Nat) (a : Nat → Word) (n rows : Nat) :
    SameBytes s ((List.range rows).foldl (fun s r => s.claimRow who b grp spc (a r) n) s) :=
  SameBytes.foldl _ (fun _ _ => same_claimRow ..) _ _

theorem same_claimSlice (s : State) (b : Block) (o : EngOp) (grp : Nat) (desc : Option Acc) (d : Slice) : SameBytes s (s.claimSlice b o grp desc d) := by
  have hdesc : SameBytes s (match desc with | some a => s.claimFree (o.sliceWho b grp claimTime) a 32 | none => s) := by
    cases desc with
    | none => exact .refl s
    | some a => exact same_claimFree _ _ _ _
  unfold State.claimSlice
  simp only
  split
  · exact hdesc
  · exact hdesc.trans (same_claimRows ..)

theorem same_claimTile (s : State) (b : Block) (o : EngOp) (record : Acc) (dst : Word) (t : Tile) : SameBytes s (s.claimTile b o record dst t) := by
  unfold State.claimTile
  simp only
  split
  · exact same_claimFree _ _ _ _
  · exact (same_claimFree s (o.sliceWho b 0 claimTime) record 64).trans (same_claimRows ..)

/-! ## CPB -/

/-- A copy that follows earlier ones knows no less. -/
theorem clockGet_le_after0 (b : Block) (num : Nat) (r : List Reach) (c : Clock) (a : Nat) : clockGet c a ≤ clockGet (b.after0 num r c) a :=
  clockGet_le_foldl _ _ _ _

/-- The operation of a collective that the group's slice begins. -/
def collBegun (i : Iss) (instr : Instr) (a : Word) (words : List Word) : EngOp :=
  let o := i.newOp instr 0 (List.range i.b.groups.length) i.g.collSeq [a] [] words 0
  { o with clock := i.b.after0 o.num (i.part [a] words 0).reach o.clock }

/-- The operation q of a collective once the group's slice has joined it. -/
def collJoined (i : Iss) (q : EngOp) (a : Word) (words : List Word) : EngOp :=
  { q with parts := q.parts ++ [i.part [a] words 0], clock := i.b.after0 q.num (i.part [a] words 0).reach (clockJoin q.clock i.g.known) }

theorem newOp_collBegun (i : Iss) (instr : Instr) (a : Word) (words : List Word) : NewOp i instr 0 [a] (collBegun i instr a words) where
  place := ⟨rfl, rfl⟩
  what := ⟨rfl, rfl, rfl, rfl⟩
  waiting := ⟨rfl, rfl, rfl⟩
  release := Nat.le_trans (Nat.le_of_eq (clockGet_known i.g).symm) (clockGet_le_after0 _ _ _ _ _)

/-- The group's next collective. -/
def nextColl (i : Iss) (tl num : Nat) (g : Group) : Group := { g.issuedOp tl num with collSeq := i.g.collSeq + 1 }

theorem collSeq_finished (i : Iss) (tl num : Nat) : (finished i false (nextColl i tl num i.g)).collSeq = i.g.collSeq + 1 :=
  (congrArg Group.collSeq (still_finished i false (nextColl i tl num i.g)) :)

theorem mine_finished (i : Iss) (tl num : Nat) : (finished i false (nextColl i tl num i.g)).mine = setAt i.g.mine tl num :=
  (congrArg Group.mine (still_finished i false (nextColl i tl num i.g)) :)

theorem unread_nextColl (i : Iss) (tl num : Nat) : i.Unread (nextColl i tl num i.g) := by
  obtain ⟨hv, hs, hp, hf, hm, hl⟩ := unread_issuedOp i tl num
  exact ⟨hv, hs, hp, hf, hm, hl⟩

theorem supply_none {i : Iss} (h : i.b.collective? i.g.collSeq = none) (instr : Instr) (desc : Option Acc) (a : Word) (words : List Word) :
    ∃ u, i.supply instr desc a words = u ∧ SameBytes ({ i.s with nextAgent := i.s.nextAgent + 34 }.modBlock i.gr.blk fun b =>
      (b.addOp (collBegun i instr a words)).modGroup i.gr.grp (nextColl i 0 (collBegun i instr a words).num)) u := by
  refine ⟨_, rfl, ?_⟩
  unfold Iss.supply
  simp only [h, Option.isNone_none, if_true]
  split
  · exact .refl _
  · exact same_claimSlice _ _ _ _ _ _

theorem supply_some {i : Iss} {q : EngOp} (h : i.b.collective? i.g.collSeq = some q) (instr : Instr) (desc : Option Acc) (a : Word) (words : List Word) :
    SameBytes (i.s.modBlock i.gr.blk fun b => (b.modOp 0 q.num fun _ => collJoined i q a words).modGroup i.gr.grp (nextColl i 0 q.num))
      (i.supply instr desc a words) := by
  unfold Iss.supply
  simp only [h, Option.isNone_some, Bool.false_eq_true, if_false]
  split
  · exact .refl _
  · exact same_claimSlice _ _ _ _ _ _

/-- The change of the block that issues the collective's operation o. -/
def beginColl (i : Iss) (o : EngOp) (b : Block) : Block := (b.addOp o).modGroup i.gr.grp (nextColl i 0 o.num)

theorem stays_beginColl (i : Iss) (o : EngOp) : Stays (beginColl i o) := ⟨fun _ => rfl, fun _ => rfl, fun _ => ⟨rfl, rfl, rfl, rfl⟩⟩

theorem slot_nextColl (i : Iss) (tl num : Nat) (g : Group) (b : Bool) : (nextColl i tl num g).slot b = g.slot b := rfl

/-- A group that has issued the collective's operation goes on. -/
theorem coll_begins {i : Iss} (hb : i.s.block? i.gr.blk = some i.b) (hg : i.b.groups[i.gr.grp]? = some i.g) {instr : Instr} {opa : List Word} {o : EngOp}
    (ho : NewOp i instr 0 opa o) {u : State} (hu : SameBytes ({ i.s with nextAgent := i.s.nextAgent + 34 }.modBlock i.gr.blk (beginColl i o)) u)
    (out : Bool) : ∃ b' g', i.Issued instr 0 opa (i.conclude (.done (if out then u.touchOutside i.gr.blk else u) false)) b' g' o ∧
      g'.collSeq = i.g.collSeq + 1 ∧ b'.idem = (i.b.idem && !out) := by
  have hbecame := (((Became.start hb (same_nextAgent i.s (i.s.nextAgent + 34))).change (stays_beginColl i o)).same hu).touch out
  have hgroup : (beginColl i o i.b).groups[i.gr.grp]? = some (nextColl i 0 o.num i.g) := groups_modGroup_self (b := i.b.addOp o) _ hg
  have hsib : ∀ k, k ≠ i.gr.grp → (beginColl i o i.b).groups[k]? = i.b.groups[k]? := fun k hk => groups_modGroup_ne (i.b.addOp o) _ hk
  have hops : (beginColl i o i.b).ops = i.b.ops ++ [o] := rfl
  obtain ⟨hmem, hold⟩ := mem_added hops
  have hmine : (nextColl i 0 o.num i.g).mine = setAt i.g.mine 0 o.num := rfl
  have hepoch : (nextColl i 0 o.num i.g).epoch = i.g.epoch + 1 := rfl
  refine ⟨_, _, issued_next ho hbecame hgroup hsib hmem (fun x hx _ => hold x hx) hmine ⟨slot_nextColl .., slot_nextColl ..⟩ hepoch
    (unread_nextColl _ _ _), collSeq_finished _ _ _, ?_⟩
  rfl

/-- The first group that supplies a slice to a collective issues its operation. -/
theorem supply_begins {s : State} {i : Iss} (h : s.issue? = some i) (hn : i.b.collective? i.g.collSeq = none) (instr : Instr) (desc : Option Acc)
    (a : Word) (words : List Word) (out : Bool) :
    let u := i.supply instr desc a words
    ∃ b' g', i.Issued instr 0 [a] (i.conclude (.done (if out then u.touchOutside i.gr.blk else u) false)) b' g' (collBegun i instr a words) ∧
      g'.collSeq = i.g.collSeq + 1 ∧ b'.idem = (i.b.idem && !out) := by
  obtain ⟨rfl, hb, -⟩ := issue_facts h
  obtain ⟨u, rfl, hsame⟩ := supply_none hn instr desc a words
  exact coll_begins hb (issue_group h) (newOp_collBegun i instr a words) hsame out

theorem collective?_mem {b : Block} {k : Nat} {q : EngOp} (h : b.collective? k = some q) : q ∈ b.ops := List.mem_of_find?_eq_some h

/-- An operation that a change of those of one number makes of one of them. -/
theorem mem_modOp {b : Block} {q : EngOp} (hq : q ∈ b.ops) (f : EngOp → EngOp) : f q ∈ (b.modOp q.tl q.num f).ops := by
  refine List.mem_map.2 ⟨q, hq, ?_⟩
  rw [if_pos]
  simp [EngOp.is]

/-- The change of the block whose collective's operation q becomes o. -/
def joinColl (i : Iss) (q o : EngOp) (b : Block) : Block := (b.modOp 0 q.num fun _ => o).modGroup i.gr.grp (nextColl i 0 q.num)

theorem stays_joinColl (i : Iss) (q o : EngOp) : Stays (joinColl i q o) := ⟨fun _ => rfl, fun _ => rfl, fun _ => ⟨rfl, rfl, rfl, rfl⟩⟩

/-- A group that has joined the collective's operation goes on. -/
theorem coll_joins {i : Iss} (hb : i.s.block? i.gr.blk = some i.b) (hg : i.b.groups[i.gr.grp]? = some i.g) {q o : EngOp} (hq : q ∈ i.b.ops)
    (htl : q.tl = 0) {u : State} (hu : SameBytes (i.s.modBlock i.gr.blk (joinColl i q o)) u) (out : Bool) :
    let t := i.conclude (.done (if out then u.touchOutside i.gr.blk else u) false)
    ∃ b' g', t.block? i.gr.blk = some b' ∧ b'.groups[i.gr.grp]? = some g' ∧ i.Onward g' ∧ i.Unread g' ∧ (∀ l, t.byte l = i.s.byte l) ∧
      g'.collSeq = i.g.collSeq + 1 ∧ g'.mine = setAt i.g.mine 0 q.num ∧ o ∈ b'.ops := by
  have hbecame := ((((Became.start hb (.refl i.s)).change (stays_joinColl i q o)).same hu).touch out).next
  have hgroup : (joinColl i q o i.b).groups[i.gr.grp]? = some (nextColl i 0 q.num i.g) :=
    groups_modGroup_self (b := i.b.modOp 0 q.num fun _ => o) _ hg
  have hops := mem_modOp hq fun _ => o
  rw [htl] at hops
  exact ⟨_, _, hbecame.block, groups_modGroup_self _ hgroup, onward_finished (slot_nextColl ..) (slot_nextColl ..),
    Unread.of_still (unread_nextColl i 0 q.num) (still_finished _ _ _), hbecame.bytes, collSeq_finished _ _ _, mine_finished _ _ _, hops⟩

/-- A later group joins the operation. -/
theorem supply_joins {s : State} {i : Iss} (h : s.issue? = some i) {q : EngOp} (hn : i.b.collective? i.g.collSeq = some q) (htl : q.tl = 0)
    (instr : Instr) (desc : Option Acc) (a : Word) (words : List Word) (out : Bool) :
    let u := i.supply instr desc a words
    let t := i.conclude (.done (if out then u.touchOutside i.gr.blk else u) false)
    ∃ b' g', t.block? i.gr.blk = some b' ∧ b'.groups[i.gr.grp]? = some g' ∧ i.Onward g' ∧ i.Unread g' ∧ (∀ l, t.byte l = i.s.byte l) ∧
      g'.collSeq = i.g.collSeq + 1 ∧ g'.mine = setAt i.g.mine 0 q.num ∧ collJoined i q a words ∈ b'.ops := by
  obtain ⟨rfl, hb, -⟩ := issue_facts h
  exact coll_joins hb (issue_group h) (collective?_mem hn) htl (supply_some hn instr desc a words) out

theorem exec_cpb {s : State} {i : Iss} (h : s.issue? = some i) (hh : i.onlyHelpers = false) (hq : i.g.quiet = true) {a : Src}
    (hc : i.checkSca .i64 [a] = .ok ()) {x : Acc}
    (hx : i.s.check i.who i.b none ⟨.sp, i.uni a, 32, decide ((i.uni a).toNat % 32 = 0), true, false, false, false, true⟩ true = .ok x) :
    let words := (List.range 4).map fun j => BitVec.ofNat 64 (i.s.num (x.loc.add (8 * j)) 8)
    let u := i.supply (.cpb a) (some x) (i.uni a) words
    exec (.cpb a) s = .next (i.conclude (.done (if decide ((sliceOfWords words).dspc = 0) then u.touchOutside i.gr.blk else u) false)) := by
  refine run_eq h ?_
  rw [hc]
  simp only [orTrap, hq, hh, hx, Bool.not_true, Bool.false_eq_true, if_false, decide_eq_true_eq]

/-- A slot of helper lanes supplies an empty slice. -/
theorem exec_cpb_helpers {s : State} {i : Iss} (h : s.issue? = some i) (hh : i.onlyHelpers = true) (hq : i.g.quiet = true) {a : Src}
    (hc : i.checkSca .i64 [a] = .ok ()) : exec (.cpb a) s = .next (i.conclude (.done (i.supply (.cpb a) none 0 []) false)) := by
  refine run_eq h ?_
  rw [hc]
  simp only [orTrap, hq, hh, Bool.not_true, Bool.false_eq_true, if_false, if_true]

/-! ## CPT -/

/-- The eight words of a record. -/
def recordWords (s : State) (x : Acc) : List Word := (List.range 8).map fun j => BitVec.ofNat 64 (s.num (x.loc.add (8 * j)) 8)

/-- The operation of a CPT. -/
def tileOp (i : Iss) (a b : Src) (x : Acc) : EngOp :=
  let o := i.newOp (.cpt a b) 0 [i.gr.grp] 0 [i.uni a, i.uni b] [] (recordWords i.s x) 0
  { o with clock := i.b.after0 o.num o.reaches o.clock }

theorem newOp_tileOp (i : Iss) (a b : Src) (x : Acc) : NewOp i (.cpt a b) 0 [i.uni a, i.uni b] (tileOp i a b x) where
  place := ⟨rfl, rfl⟩
  what := ⟨rfl, rfl, rfl, rfl⟩
  waiting := ⟨rfl, rfl, rfl⟩
  release := Nat.le_trans (Nat.le_of_eq (clockGet_known i.g).symm) (clockGet_le_after0 _ _ _ _ _)

/-- The machine that has issued it. -/
def tileIssued (i : Iss) (a b : Src) (x : Acc) : State :=
  { i.s with nextAgent := i.s.nextAgent + 34 }.modBlock i.gr.blk fun blk =>
    (blk.addOp (tileOp i a b x)).modGroup i.gr.grp fun g => g.issuedOp (tileOp i a b x).tl (tileOp i a b x).num

theorem exec_cpt {s : State} {i : Iss} (h : s.issue? = some i) (hh : i.onlyHelpers = false) (hq : i.g.quiet = true) {a b : Src}
    (hc : i.checkSca .i64 [a, b] = .ok ()) {x : Acc} (hx : i.s.checkRecord i.who i.b (coreIdx i.gr.grp) (i.uni a) = .ok x) :
    exec (.cpt a b) s = .next (i.conclude (orTrap (tileDest i.b (i.uni b)) fun _ =>
      .done ((tileIssued i a b x).claimTile i.b (tileOp i a b x) x (i.uni b) (tileOfBytes ((recordWords i.s x).flatMap fun w => leBytes 8 w.toNat))) false)) := by
  refine run_eq h ?_
  rw [hc]
  simp only [orTrap, Iss.unlessHelpers, hq, hh, hx, Bool.not_true, Bool.false_eq_true, if_false]
  rfl

theorem cpt_issues {s : State} {i : Iss} (h : s.issue? = some i) {a b : Src} {x : Acc} {u : State} (hu : SameBytes (tileIssued i a b x) u) :
    ∃ b' g', i.Issued (.cpt a b) 0 [i.uni a, i.uni b] (i.conclude (.done u false)) b' g' (tileOp i a b x) ∧ b'.idem = i.b.idem := by
  obtain ⟨rfl, hb, -⟩ := issue_facts h
  have hbecame := ((Became.start hb (same_nextAgent i.s (i.s.nextAgent + 34))).change (stays_issued i (tileOp i a b x))).same hu
  exact ⟨_, _, issued_next (newOp_tileOp i a b x) hbecame (group_issuedBlock (issue_group h) _) (fun k hk => siblings_issuedBlock i _ hk)
    (mem_added rfl).1 (fun x hx _ => (mem_added rfl).2 x hx) rfl ⟨rfl, rfl⟩ rfl (unread_issuedOp i _ _), rfl⟩

/-- Settles O36: CPB by `supply_begins` and `supply_joins`, CPT by `cpt_issues`. -/
theorem copyIssues : Obligations.CopyIssues := by
  unfold Obligations.CopyIssues
  intro s i a b x h hh hq
  obtain ⟨rfl, -, -⟩ := issue_facts h
  refine ⟨fun hc hx => ⟨fun hn => ?_, fun q hn htl => ?_⟩, fun hc hx => ⟨fun e he => ?_, fun ht => ?_⟩⟩
  · obtain ⟨b', g', hi, hseq, hidem⟩ := supply_begins h hn (.cpb a) (some x) (i.uni a)
      ((List.range 4).map fun j => BitVec.ofNat 64 (i.s.num (x.loc.add (8 * j)) 8)) _
    exact ⟨_, b', g', _, exec_cpb h hh hq hc hx, hi, hseq, rfl, rfl, rfl, hidem⟩
  · obtain ⟨b', g', hblk, hg, hon, hun, hbytes, hseq, hmine, hop⟩ := supply_joins h hn htl (.cpb a) (some x) (i.uni a)
      ((List.range 4).map fun j => BitVec.ofNat 64 (i.s.num (x.loc.add (8 * j)) 8)) _
    exact ⟨_, b', g', _, exec_cpb h hh hq hc hx, hblk, hg, hon, hun, hbytes, hseq, hmine, hop, rfl, rfl, rfl⟩
  · rw [exec_cpt h hh hq hc hx, he]
    rfl
  · have hrun := exec_cpt h hh hq hc hx
    rw [ht] at hrun
    obtain ⟨b', g', hi, hidem⟩ := cpt_issues h (same_claimTile (tileIssued i a b x) i.b (tileOp i a b x) x (i.uni b)
      (tileOfBytes ((recordWords i.s x).flatMap fun w => leBytes 8 w.toNat)))
    exact ⟨_, b', g', _, hrun, hi, rfl, hidem⟩

end Sys2Proof.Proofs.CopyIssues
end

section
/-! SUPPORT. The issue of matrix operations: O31. -/

namespace Sys2Proof.Proofs.MatrixIssues

open Sys2Proof Sys2Proof.Machine Sys2Proof.Laws Sys2Proof.Proofs.IssuingBlock Sys2Proof.Proofs.Frames Sys2Proof.Proofs.Issues
  Sys2Proof.Proofs.PlaneIssues Sys2Proof.Proofs.CopyIssues

/-! ## Claims -/

theorem same_claimCb (s : State) (b : Block) (o : EngOp) (core row n : Nat) : SameBytes s (s.claimCb b o core row n) := same_claimFree _ _ _ _

theorem same_claimArray (s : State) (b : Block) (o : EngOp) : SameBytes s (s.claimArray b o) := by
  refine SameBytes.foldl _ (fun s m => ?_) _ _
  simp only
  split
  · exact .refl s
  · split
    · exact same_claimCb _ _ _ _ _ _
    · exact SameBytes.foldl _ (fun _ _ => same_claimCb ..) _ _

theorem same_claimRows (s : State) (b : Block) (o : EngOp) (spc : Nat) (d : DrainSpec) (a : Word) : SameBytes s (s.claimRows b o spc d a) := by
  refine SameBytes.foldl _ (fun s r => SameBytes.foldl _ (fun s x => ?_) _ _) _ _
  split
  · exact same_claimFree _ _ _ _
  · exact .refl s

/-! ## Operations of one CB -/

theorem complete_issueOp (i : Iss) (instr : Instr) (tl : Nat) (opa data : List Word) : (i.issueOp instr tl opa data).1.complete = true := by
  show ([i.gr.grp].all fun m => [i.part opa [] 0].any fun p => p.grp == m && p.back) = true
  simp [Iss.part]

/-- An instruction that issues an operation of t1 and claims what it writes. -/
theorem t1_issues {s : State} {i : Iss} (h : s.issue? = some i) (instr : Instr) (opa : List Word) {u : State}
    (hu : SameBytes (i.issueOp instr 1 opa []).2 u) (out : Bool) :
    ∃ b' g', i.Issued instr 1 opa (i.conclude (.done (if out then u.touchOutside i.gr.blk else u) false)) b' g' (i.issueOp instr 1 opa []).1 ∧
      b'.idem = (i.b.idem && !out) := by
  obtain ⟨rfl, hb, -⟩ := issue_facts h
  exact ⟨_, _, issued_alone (((became_issueOp hb instr 1 opa []).same hu).touch out) (group_issuedBlock (issue_group h) _)
    (fun k hk => siblings_issuedBlock i _ hk) rfl rfl, rfl⟩

section
variable {s : State} {i : Iss} (h : s.issue? = some i)
include h

theorem exec_mqry {d : BitVec 6} (hm : i.b.matrix = true) (sel : MqSel) : exec (.mqry d sel) s = .next (i.conclude (i.putD (.reg d) (match sel with
    | .cap => matCap
    | .drn => BitVec.ofNat 64 ((i.b.drainsOf (i.gr.grp % 6)).foldl (fun n o => n + (o.drainRows - o.pix)) 0)
    | .res => BitVec.ofNat 64 (SMap.get 0 i.s.residues i.cluster)))) := by
  refine run_eq h ?_
  simp only [cbOrStall, hm, Bool.not_true, Bool.false_eq_true, if_false] <;> cases sel <;> rfl

theorem mzero_issues (hm : i.b.matrix = true) (hq : i.g.quiet = true) :
    ∃ t b' g' o, exec .mzero s = .next t ∧ i.Issued .mzero 1 [] t b' g' o ∧ o.complete = true := by
  obtain ⟨b', g', hi, -⟩ := t1_issues h .mzero [] (same_claimCb (i.issueOp .mzero 1 [] []).2 i.b (i.issueOp .mzero 1 [] []).1 (i.gr.grp % 6) 0 262144) false
  refine ⟨_, b', g', _, run_eq h ?_, hi, complete_issueOp _ _ _ _ _⟩
  simp only [cbOrStall, hm, hq, Bool.not_true, Bool.false_eq_true, if_false]

theorem exec_mdrn (hm : i.b.matrix = true) (hq : i.g.quiet = true) {a b : Src} (hc : i.checkSca .i64 [a, b] = .ok ()) :
    exec (.mdrn a b) s = .next (i.conclude (
      if 511 < (i.uni a).toNat then .trap { plainTrap .prot 7 with addr := i.uni a }
      else if (i.uni b).toNat = 0 ∨ 512 < (i.uni b).toNat then .trap { plainTrap .prot 7 with addr := i.uni b }
      else if 512 < (i.uni a).toNat + (i.uni b).toNat then .trap { plainTrap .prot 7 with addr := i.uni a }
      else .done (i.issueOp (.mdrn a b) 1 [i.uni a, i.uni b] []).2 false)) := by
  refine run_eq h ?_
  rw [hc]
  simp only [orTrap, cbOrStall, hm, hq, Bool.not_true, Bool.false_eq_true, if_false]

/-- MDST and MLDA, each with whether it stores. -/
theorem exec_drainOp (d : BitVec 6) (a b : Src) (x : BitVec 2) : ∀ p ∈ [(Instr.mdst d a b x, true), (.mlda d a b x, false)],
    exec p.1 s = .next (i.conclude (i.drainOp p.1 p.2 d a b x)) := by
  simp only [List.forall_mem_cons]
  exact ⟨run_issue h _, run_issue h _, List.forall_mem_nil _⟩

end

section
variable {i : Iss} {d : BitVec 6} {a b : Src} {x : BitVec 2} (hm : i.b.matrix = true) (hc : i.checkSca .i64 [a, b] = .ok ())
include hm hc

theorem drainOp_malformed {store : Bool} (hbad : drainMalformed store (i.g.rdS i.sl.wb d.toNat) = true) (instr : Instr) :
    i.drainOp instr store d a b x = .trap { plainTrap .prot 7 with addr := i.g.rdS i.sl.wb d.toNat } := by
  unfold Iss.drainOp
  rw [hc]
  simp only [orTrap, cbOrStall, hm, hbad, Bool.not_true, Bool.false_eq_true, if_false, if_true]

theorem drainOp_issues {s : State} (h : s.issue? = some i) (hq : i.g.quiet = true) {store : Bool} (hbad : drainMalformed store (i.g.rdS i.sl.wb d.toNat) = false)
    (hr : engRange x.toNat (i.uni a + i.uni b) = .ok ()) (instr : Instr) :
    ∃ b' g' o, i.Issued instr 1 [i.g.rdS i.sl.wb d.toNat, i.uni a, i.uni b] (i.conclude (i.drainOp instr store d a b x)) b' g' o ∧
      b'.idem = (i.b.idem && !(store && x == 0)) := by
  generalize hr0 : i.issueOp instr 1 [i.g.rdS i.sl.wb d.toNat, i.uni a, i.uni b] [] = r
  have hclaimed : SameBytes r.2 (if store then r.2.claimRows i.b r.1 x.toNat (drainSpecOf (i.g.rdS i.sl.wb d.toNat)) (i.uni a + i.uni b)
      else r.2.claimCb i.b r.1 (i.gr.grp % 6) (drainSpecOf (i.g.rdS i.sl.wb d.toNat)).row (512 * (drainSpecOf (i.g.rdS i.sl.wb d.toNat)).cnt)) := by
    split
    · exact same_claimRows _ _ _ _ _ _
    · exact same_claimCb _ _ _ _ _ _
  subst hr0
  obtain ⟨b', g', hi, hidem⟩ := t1_issues h instr _ hclaimed (store && x == 0)
  refine ⟨b', g', (i.issueOp instr 1 [i.g.rdS i.sl.wb d.toNat, i.uni a, i.uni b] []).1, ?_, hidem⟩
  unfold Iss.drainOp
  rw [hc]
  simp only [orTrap, cbOrStall, hm, hbad, hq, hr, Bool.not_true, Bool.false_eq_true, if_false]
  exact hi

end

/-! ## Array operations -/

/-- The four instructions, with how many S registers the configuration and the record addresses take. -/
theorem exec_array {s : State} {i : Iss} (h : s.issue? = some i) (d a b : BitVec 6) :
    ∀ p ∈ [(Instr.mma d a b, 1), (.mmal d a b, 2), (.mconv d a b, 2), (.mconvl d a b, 3)],
      exec p.1 s = .next (i.conclude (i.array p.1 (i.sRun d p.2 ++ i.sRun a 2 ++ i.sRun b 2))) := by
  simp only [List.forall_mem_cons]
  exact ⟨run_issue h _, run_issue h _, run_issue h _, run_issue h _, List.forall_mem_nil _⟩

section
variable {i : Iss} {instr : Instr} {v : List Word}

theorem array_unstored (hm : i.b.matrix = false) : i.array instr v = .trap (plainTrap .prot 5) := by
  unfold Iss.array
  rw [hm]
  rfl

theorem array_malformed (hm : i.b.matrix = true) {x : Word} (hx : arrayMalformed instr v = some x) :
    i.array instr v = .trap { plainTrap .prot 7 with addr := x } := by
  unfold Iss.array
  simp only [hm, hx, Bool.not_true, Bool.false_eq_true, if_false]

theorem array_narrow (hm : i.b.matrix = true) (hx : arrayMalformed instr v = none) (hn : 128 * i.gangMembers.length < (cfgOf (cfgWord v)).n) :
    i.array instr v = .trap (plainTrap .gang 5) := by
  unfold Iss.array
  simp only [hm, hx, hn, Bool.not_true, Bool.false_eq_true, if_false, if_true]

theorem array_joins (hm : i.b.matrix = true) (hx : arrayMalformed instr v = none) (hn : (cfgOf (cfgWord v)).n ≤ 128 * i.gangMembers.length)
    (hr : i.registersOut instr v (i.gangMembers.idxOf i.gr.grp) = none) (hq : i.g.quiet = true)
    (hroom : (decide (4 ≤ (i.b.ops.filter fun o => o.waits && o.members == i.gangMembers).length) &&
      !(i.b.ops.any fun o => o.waits && o.index == i.g.gangCount && o.members == i.gangMembers && !o.arrived.contains i.gr.grp)) = false) :
    i.array instr v = .done (i.join instr v i.gangMembers) false := by
  unfold Iss.array
  simp only [hm, hx, Nat.not_lt.2 hn, hr, hq, Bool.not_true, Bool.false_eq_true, if_false]
  rw [if_neg (Bool.eq_false_iff.1 hroom)]

end

/-- The operation that a group's part begins. -/
def arrayBegun (i : Iss) (instr : Instr) (v : List Word) : EngOp :=
  i.newOp instr 1 i.gangMembers i.g.gangCount v [] (if Word.spc (pairWords instr v).1 = 0 ∨ Word.spc (pairWords instr v).2.2.1 = 0 then i.snapshot else []) i.goneLanes

/-- The group's part of an operation. -/
def arrayPart (i : Iss) (instr : Instr) (v : List Word) : Part :=
  i.part v (if Word.spc (pairWords instr v).1 = 0 ∨ Word.spc (pairWords instr v).2.2.1 = 0 then i.snapshot else []) i.goneLanes

/-- The operation q once the group's part has joined it. -/
def arrayJoined (i : Iss) (instr : Instr) (v : List Word) (q : EngOp) : EngOp :=
  { q with instr := instr, parts := q.parts ++ [arrayPart i instr v], clock := clockJoin q.clock i.g.known }

/-- The group's next joint instruction. -/
def nextJoint (i : Iss) (num : Nat) (g : Group) : Group := { g.issuedOp 1 num with gangCount := i.g.gangCount + 1 }

theorem unread_nextJoint (i : Iss) (num : Nat) : i.Unread (nextJoint i num i.g) := by
  obtain ⟨hv, hs, hp, hf, hm, hl⟩ := unread_issuedOp i 1 num
  exact ⟨hv, hs, hp, hf, hm, hl⟩

/-- What an operation does once every part is there, its parts being r and ps. -/
def meeting (o : EngOp) (r : Part) (ps : List Part) (b : Block) : Block :=
  if ps.all r.agrees then b.modOp o.tl o.num fun _ => { o with state := .queued, opa := r.opa, pix := r.pix, ivec := r.ivec }
  else (b.modOp o.tl o.num fun _ => o).stopOp o (plainTrap .gang 6)

theorem meet_eq {o : EngOp} {r : Part} {ps : List Part} (h : o.parts = r :: ps) (b : Block) : b.meet o = meeting o r ps b := by
  unfold Block.meet meeting
  rw [h]

theorem stays_meeting (o : EngOp) (r : Part) (ps : List Part) : Stays (meeting o r ps) := by
  unfold meeting
  split
  · exact ⟨fun _ => rfl, fun _ => rfl, fun _ => ⟨rfl, rfl, rfl, rfl⟩⟩
  · exact (Timelines.stays_stopOp o (plainTrap .gang 6)).comp (f := fun b => b.modOp o.tl o.num fun _ => o) ⟨fun _ => rfl, fun _ => rfl, fun _ => ⟨rfl, rfl, rfl, rfl⟩⟩

/-- The join of an operation of which every part is there, where no mask clashes. -/
theorem join_begins {i : Iss} {instr : Instr} {v : List Word}
    (hnone : i.b.ops.find? (fun o => o.waits && o.index == i.g.gangCount && o.members == i.gangMembers && !o.arrived.contains i.gr.grp) = none)
    (hclash : i.b.clashes i.gr.grp i.gangMembers i.g.gangCount = []) (hcomp : (arrayBegun i instr v).complete = true) :
    i.join instr v i.gangMembers = ({ i.s with nextAgent := i.s.nextAgent + 1 }.claimArray i.b (arrayBegun i instr v)).modBlock i.gr.blk fun b =>
      meeting (arrayBegun i instr v) (arrayPart i instr v) [] ((b.addOp (arrayBegun i instr v)).modGroup i.gr.grp (nextJoint i (arrayBegun i instr v).num)) := by
  unfold Iss.join
  simp only [hnone, hclash, Option.isNone_none, if_true, List.isEmpty_nil, Bool.not_true, Bool.false_eq_true, if_false]
  have hcomp' : (i.newOp instr 1 i.gangMembers i.g.gangCount v [] (if Word.spc (pairWords instr v).1 = 0 ∨ Word.spc (pairWords instr v).2.2.1 = 0 then i.snapshot else [])
    i.goneLanes).complete = true := hcomp
  simp only [hcomp', if_true]
  rfl

theorem join_completes {i : Iss} {instr : Instr} {v : List Word} {q : EngOp}
    (hq : i.b.ops.find? (fun o => o.waits && o.index == i.g.gangCount && o.members == i.gangMembers && !o.arrived.contains i.gr.grp) = some q)
    (hclash : i.b.clashes i.gr.grp i.gangMembers i.g.gangCount = []) (hcomp : (arrayJoined i instr v q).complete = true) {r : Part} {ps : List Part}
    (hparts : q.parts = r :: ps) :
    i.join instr v i.gangMembers = i.s.modBlock i.gr.blk fun b =>
      meeting (arrayJoined i instr v q) r (ps ++ [arrayPart i instr v]) ((b.modOp 1 q.num fun _ => arrayJoined i instr v q).modGroup i.gr.grp (nextJoint i q.num)) := by
  unfold Iss.join
  have hcomp' := hcomp
  unfold arrayJoined arrayPart at hcomp'
  simp only [hq, hclash, Option.isNone_some, List.isEmpty_nil, Bool.not_true, Bool.false_eq_true, if_false, hcomp', if_true]
  have hp : (arrayJoined i instr v q).parts = r :: (ps ++ [arrayPart i instr v]) := by
    show q.parts ++ _ = _
    rw [hparts]
    rfl
  simp only [← meet_eq hp]
  rfl

/-! ## The block after the parts have met -/

theorem groups_foldl_stop (l : List Nat) (tl num k : Nat) {b : Block} {g : Group} (hg : b.groups[k]? = some g) :
    ∃ st, (l.foldl (fun b g => b.modGroup g fun x => { x with stopped := x.stopped ++ [⟨tl, num, x.traps.length⟩] }) b).groups[k]? =
      some { g with stopped := st } := by
  induction l generalizing b g with
  | nil => exact ⟨g.stopped, hg⟩
  | cons n r ih =>
    by_cases hn : n = k
    · subst hn
      obtain ⟨st, h⟩ := ih (groups_modGroup_self (fun x => { x with stopped := x.stopped ++ [⟨tl, num, x.traps.length⟩] }) hg)
      exact ⟨st, h⟩
    · exact ih ((groups_modGroup_ne _ _ (Ne.symm hn)).trans hg)

theorem ops_foldl_stop (l : List Nat) (tl num : Nat) (b : Block) :
    (l.foldl (fun b g => b.modGroup g fun x => { x with stopped := x.stopped ++ [⟨tl, num, x.traps.length⟩] }) b).ops = b.ops := by
  induction l generalizing b with
  | nil => rfl
  | cons n r ih => exact (ih _).trans rfl

theorem group_meeting (o : EngOp) (r : Part) (ps : List Part) {b : Block} {k : Nat} {g : Group} (hg : b.groups[k]? = some g) :
    ∃ st, (meeting o r ps b).groups[k]? = some { g with stopped := st } := by
  unfold meeting
  split
  · exact ⟨g.stopped, hg⟩
  · exact groups_foldl_stop _ _ _ _ (b := ((b.modOp o.tl o.num fun _ => o).modOp o.tl o.num _)) hg

/-- The operation goes on, or has stopped. -/
theorem op_meeting {o o0 : EngOp} (r : Part) (ps : List Part) {b : Block} (ho : o0 ∈ b.ops) (hpl : o0.tl = o.tl ∧ o0.num = o.num) :
    ∃ x ∈ (meeting o r ps b).ops, x.tl = o.tl ∧ x.num = o.num ∧
      if ps.all r.agrees = true then x.state = .queued ∧ x.parts = o.parts ∧ x.opa = r.opa else x.state = .stopped (plainTrap .gang 6) := by
  have hmem (f : EngOp → EngOp) : f o0 ∈ (b.modOp o.tl o.num f).ops := by
    have h := mem_modOp ho f
    rwa [hpl.1, hpl.2] at h
  unfold meeting
  split
  · exact ⟨_, hmem fun _ => { o with state := .queued, opa := r.opa, pix := r.pix, ivec := r.ivec }, rfl, rfl, rfl, rfl, rfl⟩
  · refine ⟨{ o with state := .stopped (plainTrap .gang 6), parts := o.parts.map fun p => { p with back := false, pix := o.pix, ivec := o.ivec, units := [] } },
      ?_, rfl, rfl, rfl⟩
    unfold Block.stopOp
    rw [ops_foldl_stop]
    exact mem_modOp (hmem fun _ => o) fun _ => _

/-- The instruction of a group alone issues the whole operation. -/
theorem array_alone {s : State} {i : Iss} (h : s.issue? = some i) {instr : Instr} {v : List Word} (hgang : i.g.gang = 0)
    (hnone : i.b.ops.find? (fun o => o.waits && o.index == i.g.gangCount && o.members == i.gangMembers && !o.arrived.contains i.gr.grp) = none)
    (hclash : i.b.clashes i.gr.grp i.gangMembers i.g.gangCount = []) :
    ∃ b' g', i.Issued instr 1 v (i.conclude (.done (i.join instr v i.gangMembers) false)) b' g' (arrayBegun i instr v) ∧
      (arrayBegun i instr v).members = [i.gr.grp] ∧ (arrayBegun i instr v).complete = true := by
  obtain ⟨rfl, hb, -⟩ := issue_facts h
  have hmembers : i.gangMembers = [i.gr.grp] := if_pos hgang
  have hcomp : (arrayBegun i instr v).complete = true := by
    show (i.gangMembers.all fun m => [arrayPart i instr v].any fun p => p.grp == m && p.back) = true
    rw [hmembers]
    simp [arrayPart, Iss.part]
  rw [join_begins hnone hclash hcomp]
  have hst : Stays fun b => meeting (arrayBegun i instr v) (arrayPart i instr v) [] ((b.addOp (arrayBegun i instr v)).modGroup i.gr.grp
      (nextJoint i (arrayBegun i instr v).num)) :=
    (stays_meeting _ _ _).comp (f := fun b => (b.addOp (arrayBegun i instr v)).modGroup i.gr.grp (nextJoint i (arrayBegun i instr v).num))
      ⟨fun _ => rfl, fun _ => rfl, fun _ => ⟨rfl, rfl, rfl, rfl⟩⟩
  have hu := (((Became.start hb (same_nextAgent i.s (i.s.nextAgent + 1))).same (same_claimArray _ i.b (arrayBegun i instr v))).change hst)
  have hops : (meeting (arrayBegun i instr v) (arrayPart i instr v) [] ((i.b.addOp (arrayBegun i instr v)).modGroup i.gr.grp
      (nextJoint i (arrayBegun i instr v).num))).ops = (i.b.ops ++ [arrayBegun i instr v]).map fun o =>
        if o.is 1 (arrayBegun i instr v).num then arrayBegun i instr v else o := rfl
  refine ⟨_, _, issued_next (newOp_holds _ _ _ _ _ _ _ _ _) hu
    (groups_modGroup_self (b := i.b.addOp (arrayBegun i instr v)) (nextJoint i (arrayBegun i instr v).num) (issue_group h))
    (fun k hk => groups_modGroup_ne (i.b.addOp (arrayBegun i instr v)) _ hk) ?_ (fun x hx hne => ?_) rfl ⟨rfl, rfl⟩ rfl (unread_nextJoint _ _), hmembers, hcomp⟩
  · rw [hops]
    exact List.mem_map.2 ⟨arrayBegun i instr v, List.mem_append_right _ (List.mem_singleton_self _), if_pos (by simp [EngOp.is, arrayBegun, Iss.newOp])⟩
  · rw [hops]
    refine List.mem_map.2 ⟨x, List.mem_append_left _ hx, if_neg ?_⟩
    rintro his
    have := Bool.and_eq_true_iff.1 his
    rcases hne with hne | hne
    · exact hne (beq_iff_eq.1 this.1)
    · exact hne (beq_iff_eq.1 this.2)

/-- A group with its stops. -/
def withStops (st : List Stop) (g : Group) : Group := { g with stopped := st }

theorem slot_withStops (st : List Stop) (g : Group) (b : Bool) : (withStops st g).slot b = g.slot b := rfl

theorem slot_nextJoint (i : Iss) (num : Nat) (g : Group) (b : Bool) : (nextJoint i num g).slot b = g.slot b := rfl

theorem unread_withStops {i : Iss} {g : Group} (h : i.Unread g) (st : List Stop) : i.Unread (withStops st g) :=
  ⟨h.v, h.s, h.p, h.flags, h.mode, h.latches⟩

/-- The group as the meeting leaves it, at the end of its instruction. -/
def jointDone (i : Iss) (num : Nat) (st : List Stop) : Group := finished i false (withStops st (nextJoint i num i.g))

theorem still_jointDone (i : Iss) (num : Nat) (st : List Stop) : (jointDone i num st).still = (withStops st (nextJoint i num i.g)).still :=
  still_finished _ _ _

theorem mine_jointDone (i : Iss) (num : Nat) (st : List Stop) : (jointDone i num st).mine = setAt i.g.mine 1 num :=
  (congrArg Group.mine (still_jointDone i num st) :)

theorem unread_jointDone (i : Iss) (num : Nat) (st : List Stop) : i.Unread (jointDone i num st) :=
  Unread.of_still (unread_withStops (unread_nextJoint i num) st) (still_jointDone i num st)

theorem onward_jointDone (i : Iss) (num : Nat) (st : List Stop) : i.Onward (jointDone i num st) :=
  onward_finished ((slot_withStops ..).trans (slot_nextJoint ..)) ((slot_withStops ..).trans (slot_nextJoint ..))

/-- The part of a member that the operation has waited for. -/
theorem array_joined {s : State} {i : Iss} (h : s.issue? = some i) {instr : Instr} {v : List Word} {q : EngOp}
    (hq : i.b.ops.find? (fun o => o.waits && o.index == i.g.gangCount && o.members == i.gangMembers && !o.arrived.contains i.gr.grp) = some q)
    (hclash : i.b.clashes i.gr.grp i.gangMembers i.g.gangCount = []) {r : Part} {ps : List Part} (hparts : q.parts = r :: ps) (htl : q.tl = 1)
    (hback : ∀ m ∈ i.gangMembers, m ≠ i.gr.grp → q.parts.any (fun x => x.grp == m && x.back) = true) :
    let t := i.conclude (.done (i.join instr v i.gangMembers) false)
    ∃ b' g' o, t.block? i.gr.blk = some b' ∧ b'.groups[i.gr.grp]? = some g' ∧ (∀ l, t.byte l = i.s.byte l) ∧
      (∀ n, n ≠ i.gr.blk → t.block? n = i.s.block? n) ∧ i.Onward g' ∧ i.Unread g' ∧ g'.mine = setAt i.g.mine 1 q.num ∧ o ∈ b'.ops ∧ o.tl = 1 ∧ o.num = q.num ∧
      if (ps ++ [arrayPart i instr v]).all r.agrees = true then o.state = .queued ∧ o.parts = q.parts ++ [arrayPart i instr v] ∧ o.opa = r.opa
      else o.state = .stopped (plainTrap .gang 6) := by
  obtain ⟨rfl, hb, -⟩ := issue_facts h
  have hmembers : q.members = i.gangMembers := by
    have hp := List.find?_some hq
    simp only [Bool.and_eq_true, beq_iff_eq] at hp
    exact hp.1.2
  have hcomp : (arrayJoined i instr v q).complete = true := by
    refine List.all_eq_true.2 fun m hm => ?_
    show ((q.parts ++ [arrayPart i instr v]).any fun p => p.grp == m && p.back) = true
    rw [List.any_append, Bool.or_eq_true]
    by_cases hself : m = i.gr.grp
    · exact .inr (by simp [hself, arrayPart, Iss.part])
    · exact .inl (hback m (hmembers ▸ hm) hself)
  rw [join_completes hq hclash hcomp hparts]
  have hst : Stays fun b => meeting (arrayJoined i instr v q) r (ps ++ [arrayPart i instr v]) ((b.modOp 1 q.num fun _ => arrayJoined i instr v q).modGroup i.gr.grp
      (nextJoint i q.num)) :=
    (stays_meeting _ _ _).comp (f := fun b => (b.modOp 1 q.num fun _ => arrayJoined i instr v q).modGroup i.gr.grp (nextJoint i q.num))
      ⟨fun _ => rfl, fun _ => rfl, fun _ => ⟨rfl, rfl, rfl, rfl⟩⟩
  have hu := ((Became.start hb (.refl i.s)).change hst).next
  obtain ⟨st, hg⟩ := group_meeting (arrayJoined i instr v q) r (ps ++ [arrayPart i instr v])
    (groups_modGroup_self (b := i.b.modOp 1 q.num fun _ => arrayJoined i instr v q) (nextJoint i q.num) (issue_group h))
  have hmem : arrayJoined i instr v q ∈ ((i.b.modOp 1 q.num fun _ => arrayJoined i instr v q).modGroup i.gr.grp (nextJoint i q.num)).ops := by
    have hop := mem_modOp (List.mem_of_find?_eq_some hq) fun _ => arrayJoined i instr v q
    rwa [htl] at hop
  obtain ⟨o, ho, hotl, honum, hstate⟩ := op_meeting r (ps ++ [arrayPart i instr v]) hmem ⟨rfl, rfl⟩
  exact ⟨_, jointDone i q.num st, o, hu.block, groups_modGroup_self _ hg, hu.bytes, hu.others, onward_jointDone _ _ _, unread_jointDone _ _ _,
    mine_jointDone _ _ _, ho, hotl.trans htl, honum, hstate⟩

/-- Settles O31: an array operation by `array_alone` and `array_joined`, the operations of one CB by `t1_issues`, MQRY by `exec_mqry`. -/
theorem matrixIssues : Obligations.MatrixIssues := by
  unfold Obligations.MatrixIssues
  refine ⟨fun s i d a b h => ?_, fun s i d a b x h => ⟨fun hm sel => ⟨?_, ?_⟩, fun hm hd => ⟨?_, ?_, ?_⟩, fun hm hq => ⟨mzero_issues h hm hq, fun hc => ⟨?_, fun p hp => ⟨fun hbad => ?_, fun hbad hr => ?_⟩⟩⟩⟩⟩
  · intro _ p hp
    have hrun := exec_array h d a b p hp
    generalize hv : i.sRun d p.2 ++ i.sRun a 2 ++ i.sRun b 2 = v at hrun
    refine ⟨fun hm => ?_, fun hm x hx => ?_, fun hm hx hn => ?_, fun hok hq hgang hwaits hclash => ?_, fun hok hq hclash q r ps hfind hparts htl hback => ?_⟩
    · rw [hrun, array_unstored hm]
    · rw [hrun, array_malformed hm (hv ▸ hx)]
    · rw [hrun, array_narrow hm (hv ▸ hx) (hv ▸ hn)]
    · obtain ⟨hm, hx, hn, hr⟩ := hok
      subst hv
      have hnone : i.b.ops.find? (fun o => o.waits && o.index == i.g.gangCount && o.members == i.gangMembers && !o.arrived.contains i.gr.grp) = none :=
        List.find?_eq_none.2 fun o ho => by simp [hwaits o ho]
      have hjoin : i.array p.1 (i.sRun d p.2 ++ i.sRun a 2 ++ i.sRun b 2) = _ := array_joins hm hx hn hr hq (by
        rw [List.filter_eq_nil_iff.2 fun o ho => by simp [hwaits o ho]]
        rfl)
      rw [hjoin] at hrun
      obtain ⟨b', g', hi, hmem, hcomp⟩ := array_alone h hgang hnone hclash
      exact ⟨_, b', g', _, hrun, hi, hmem, hcomp⟩
    · obtain ⟨hm, hx, hn, hr⟩ := hok
      subst hv
      have hany : (i.b.ops.any fun o => o.waits && o.index == i.g.gangCount && o.members == i.gangMembers && !o.arrived.contains i.gr.grp) = true :=
        List.any_eq_true.2 ⟨q, List.mem_of_find?_eq_some hfind, List.find?_some (p := fun o : EngOp => o.waits && o.index == i.g.gangCount && o.members == i.gangMembers && !o.arrived.contains i.gr.grp) hfind⟩
      have hjoin : i.array p.1 (i.sRun d p.2 ++ i.sRun a 2 ++ i.sRun b 2) = _ := array_joins hm hx hn hr hq (by rw [hany, Bool.not_true, Bool.and_false])
      rw [hjoin] at hrun
      obtain ⟨b', g', o, hblk, hg, hbytes, hothers, hon, hun, hmine, hop, hotl, honum, hstate⟩ := array_joined h hfind hclash hparts htl hback
      obtain ⟨rfl, -, -⟩ := issue_facts h
      exact ⟨_, b', g', o, hrun, hblk, hg, hbytes, hothers, hon, hun, hmine, hop, hotl, honum, hstate⟩
  · exact run_eq h (by simp [cbOrStall, hm])
  · exact run_eq h (by simp [cbOrStall, hm])
  · exact ⟨_, _, exec_mqry h hm .cap, putD_next h _ _ hd⟩
  · exact ⟨_, _, exec_mqry h hm .drn, putD_next h _ _ hd⟩
  · obtain ⟨rfl, -, -⟩ := issue_facts h
    exact ⟨_, _, exec_mqry h hm .res, putD_next h _ _ hd⟩
  · have hrun := exec_mdrn h hm hq hc
    split
    · next h1 => rwa [if_pos h1] at hrun
    · next h1 =>
      rw [if_neg h1] at hrun
      split
      · next h2 => rwa [if_pos h2] at hrun
      · next h2 =>
        rw [if_neg h2] at hrun
        split
        · next h3 => rwa [if_pos h3] at hrun
        · next h3 =>
          rw [if_neg h3] at hrun
          obtain ⟨b', g', hi, -⟩ := t1_issues h (.mdrn a b) [i.uni a, i.uni b] (.refl _) false
          exact ⟨_, b', g', _, hrun, hi⟩
  · rw [exec_drainOp h d a b x p hp, drainOp_malformed hm hc hbad]
  · obtain ⟨b', g', o, hi, hidem⟩ := drainOp_issues hm hc h hq hbad hr p.1
    exact ⟨_, b', g', o, exec_drainOp h d a b x p hp, hi, hidem⟩

end Sys2Proof.Proofs.MatrixIssues
end

section
/-! SUPPORT. Instructions that enter the group's queue, and those that a slot of helper lanes only suppresses: O12. -/

namespace Sys2Proof.Proofs.AccessIssue

open Sys2Proof Sys2Proof.Machine Sys2Proof.Laws Sys2Proof.Proofs.IssuingBlock Sys2Proof.Proofs.PlaneIssues Sys2Proof.Proofs.CopyIssues

/-! ## Into the queue -/

/-- An instruction that queues m, which is no ATOMO. -/
theorem queues {s : State} {i : Iss} (h : s.issue? = some i) {m : MemOp} (hr : i.Room m) (hm : (match m.instr with | .atomo .. => 1 | _ => 0) = 0)
    {I : Instr} {f : Iss → Res} (e : exec I s = s.run f) (hf : f i = i.queue m) {o : Bool} (ho : isOutside m.instr = o) :
    ∃ t g', exec I s = .next t ∧ i.Within o t g' ∧ i.Queued m g' :=
  ho ▸ queue_next h hr hm e hf

theorem laneAccess_queue {i : Iss} {a b : Src} (hc : i.checkLaneOps [b] [a] = .ok ()) (instr : Instr) (data : List Word) :
    i.laneAccess instr a b data = i.queue (i.mem instr i.counted i.helpers (perLane fun l => i.laneWord a l + i.uni b) data) := by
  rw [Iss.laneAccess, hc, orTrap]

theorem rowAccess_queue {i : Iss} {a b : Src} (hc : i.checkSca .i64 [a, b] = .ok ()) (instr : Instr) (data : List Word) :
    i.rowAccess instr a b data =
      i.queue (i.mem instr i.counted i.helpers (perLane fun l => i.uni a + i.uni b + BitVec.ofNat 64 (8 * l)) data) := by
  rw [Iss.rowAccess, hc, orTrap]

theorem scalarAccess_queue {i : Iss} {a b : Src} (hc : i.checkSca .i64 [a, b] = .ok ()) (instr : Instr) (data : List Word) :
    i.scalarAccess instr a b data = i.queue (i.mem instr 1 0 (data ++ [i.uni a, i.uni b]) []) := by
  rw [Iss.scalarAccess, hc, orTrap]

theorem sample_queue {i : Iss} {a b : Src} (ha : constBad .f32 a = false) (hb : i.checkSca .i64 [b] = .ok ()) (instr : Instr) (d : Dst) :
    i.sample instr d a b = i.queue (i.mem instr i.counted i.helpers [i.uni b] (perLane (i.vec .f32 (fun _ => 0) a) ++
      perLane fun l => match d with | .reg r => i.g.rdV i.sl.wb r.toNat l | .none => 0)) := by
  rw [Iss.sample, if_neg (by rw [ha]; exact Bool.false_ne_true), hb]
  rfl

/-- Loads and stores with an address for each lane. -/
theorem laneAccesses_issue {s : State} {i : Iss} (h : s.issue? = some i) (d : Dst) (ds : BitVec 6) (dd : BitVec 5) (a b : Src) (x : Space)
    (hc : i.checkLaneOps [b] [a] = .ok ()) : ∀ m ∈ i.laneAccesses d ds dd a b x, i.Room m →
      ∃ t g', exec m.instr s = .next t ∧ i.Within (isOutside m.instr) t g' ∧ i.Queued m g' := by
  simp only [Iss.laneAccesses, List.forall_mem_cons]
  exact ⟨fun hr => queue_next h hr rfl rfl (laneAccess_queue hc _ _), fun hr => queue_next h hr rfl rfl (laneAccess_queue hc _ _),
    fun hr => queue_next h hr rfl rfl (laneAccess_queue hc _ _), fun hr => queue_next h hr rfl rfl (laneAccess_queue hc _ _),
    fun hr => queue_next h hr rfl rfl (laneAccess_queue hc _ _), fun hr => queue_next h hr rfl rfl (laneAccess_queue hc _ _),
    fun hr => queue_next h hr rfl rfl (laneAccess_queue hc _ _), List.forall_mem_nil _⟩

/-- Row accesses. -/
theorem rowAccesses_issue {s : State} {i : Iss} (h : s.issue? = some i) (d : Dst) (ds : BitVec 6) (a b : Src) (x : Space)
    (hc : i.checkSca .i64 [a, b] = .ok ()) : ∀ m ∈ i.rowAccesses d ds a b x, i.Room m →
      ∃ t g', exec m.instr s = .next t ∧ i.Within (isOutside m.instr) t g' ∧ i.Queued m g' := by
  simp only [Iss.rowAccesses, List.forall_mem_cons]
  exact ⟨fun hr => queue_next h hr rfl rfl (rowAccess_queue hc _ _), fun hr => queue_next h hr rfl rfl (rowAccess_queue hc _ _),
    List.forall_mem_nil _⟩

/-- An instruction that a slot of helper lanes only skips. -/
theorem skipped {s : State} {i : Iss} (h : s.issue? = some i) {I : Instr} {f : Iss → Res} (e : exec I s = s.run f) (hf : f i = .done i.s false) :
    ∃ t g', exec I s = .next t ∧ i.Alone t g' ∧ i.Onward g' ∧ g'.core = i.g.core := by
  obtain ⟨rfl, -, hg⟩ := issue_facts h
  exact ⟨_, _, e.trans (run_eq h hf), noop_facts hg⟩

theorem unlessHelpers_only {i : Iss} (hh : i.onlyHelpers = true) (r : Unit → Res) : i.unlessHelpers r = .done i.s false := by
  rw [Iss.unlessHelpers, if_pos hh]

theorem sst_issue {s : State} {i : Iss} (h : s.issue? = some i) (ds : BitVec 6) (a b : Src) (sp : Bool) (hc : i.checkSca .i64 [a, b] = .ok ()) :
    let m := i.mem (.sst ds a b sp) 1 0 [i.g.rdS i.sl.wb ds.toNat, i.uni a, i.uni b] []
    if i.onlyHelpers then ∃ t g', exec m.instr s = .next t ∧ i.Alone t g' ∧ i.Onward g' ∧ g'.core = i.g.core
    else i.Room m → ∃ t g', exec m.instr s = .next t ∧ i.Within (!sp) t g' ∧ i.Queued m g' := by
  intro m
  split
  next hh =>
    refine skipped h rfl ?_
    rw [hc]
    exact unlessHelpers_only hh fun _ => i.scalarAccess (.sst ds a b sp) a b [i.g.rdS i.sl.wb ds.toNat]
  next hh =>
    intro hr
    refine queues h hr rfl rfl ?_ (by cases sp <;> rfl)
    rw [hc]
    show (if i.onlyHelpers then _ else i.scalarAccess _ a b _) = _
    rw [if_neg hh, scalarAccess_queue hc]
    rfl

theorem vgath_issue {s : State} {i : Iss} (h : s.issue? = some i) (d : Dst) (r : BitVec 6) (b : Src) (x : Space) :
    let n := (nsub i.ty + 1) / 2
    let m := i.mem (.vgath d r b x) i.counted i.helpers [i.uni b] ((List.range n).flatMap fun j => perLane fun l => i.g.rdV i.sl.wb (r.toNat + j) l)
    tsAll i.ty = true → r.toNat + n ≤ 64 → i.checkSca .i64 [b] = .ok () → i.Room m →
      ∃ t g', exec m.instr s = .next t ∧ i.Within false t g' ∧ i.Queued m g' := by
  intro n m ht hn hc hr
  refine queues h hr rfl rfl ?_ rfl
  have hfit : decide (63 < r.toNat + (nsub i.ty + 1) / 2 - 1) = false := decide_eq_false (by omega)
  simp only [ht, hfit, hc, orTrap, Bool.and_false, Bool.not_true, Bool.false_eq_true, if_false]
  rfl

theorem samples_issue {s : State} {i : Iss} (h : s.issue? = some i) (d : Dst) (a b : Src) (ha : constBad .f32 a = false)
    (hb : i.checkSca .i64 [b] = .ok ()) :
    ∀ instr ∈ [Instr.samp d a b false, .samp d a b true, .sampg d a b false, .sampg d a b true],
      let old (l : Nat) : Word := match d with | .reg r => i.g.rdV i.sl.wb r.toNat l | .none => 0
      let m := i.mem instr i.counted i.helpers [i.uni b] (perLane (i.vec .f32 (fun _ => 0) a) ++ perLane old)
      i.Room m → ∃ t g', exec instr s = .next t ∧ i.Within false t g' ∧ i.Queued m g' := by
  simp only [List.forall_mem_cons]
  exact ⟨fun hr => queues h hr rfl rfl (sample_queue ha hb _ _) rfl, fun hr => queues h hr rfl rfl (sample_queue ha hb _ _) rfl,
    fun hr => queues h hr rfl rfl (sample_queue ha hb _ _) rfl, fun hr => queues h hr rfl rfl (sample_queue ha hb _ _) rfl,
    List.forall_mem_nil _⟩

theorem cpa_issue {s : State} {i : Iss} (h : s.issue? = some i) (r : BitVec 6) (a b : Src) (tag : BitVec 3) :
    let m := i.mem (.cpa r a b tag) i.counted i.helpers (perLane (i.laneWord a))
      ((perLane fun l => i.g.rdV i.sl.wb r.toNat l) ++ perLane (i.laneWord b))
    i.checkLaneOps [] [a, b] = .ok () → i.g.tagc.getD tag.toNat 0 < 255 → i.Room m →
      ∃ t g', exec m.instr s = .next t ∧ i.Within false t g' ∧ i.Queued m g' := by
  intro m hc ht hr
  refine queues h hr rfl rfl ?_ rfl
  simp only [hc, orTrap, if_neg (Nat.not_le.2 ht)]
  rfl

/-- ATOMO enters the queue and takes the group's next ordinal. -/
theorem atomo_issue {s : State} {i : Iss} (h : s.issue? = some i) (a b : Src) :
    let m := i.mem (.atomo a b) i.counted i.helpers (perLane (i.laneWord a)) (perLane (i.vec i.ty (fun _ => 0) b))
    i.ty = .f32 ∨ i.ty = .f64 → constBad .i64 a = false → constBad i.ty b = false → i.g.ordcl = false → i.Room m →
      ∃ t g', exec m.instr s = .next t ∧ i.Within true t g' ∧ i.Queued m g' := by
  intro m ht ha hb ho hr
  obtain ⟨rfl, -, hg⟩ := issue_facts h
  have hty : tsAtomf i.ty = true := by rcases ht with ht | ht <;> rw [ht] <;> rfl
  refine ⟨_, _, run_eq h (r := .done (((i.s.enqueue i.gr m).modBlock i.gr.blk fun b => { b with idem := b.idem && !true }).modGroup i.gr
    fun g => { g with atomoSeq := g.atomoSeq + 1 }) false) ?_, ?_, queued_of m 1 rfl⟩
  · simp only [hty, ha, hb, ho, Bool.or_self, Bool.not_true, Bool.false_eq_true, if_false]
    rw [queue_done hr]
    rfl
  · rw [modGroup_modBlock_idem, enqueue_eq, modGroup_modGroup]
    exact within_done hg _ true

/-! ## A slot of helper lanes only -/

/-- Fewer operands have no more checks. -/
theorem checkSca_fst {i : Iss} {t : ElemType} {a b : Src} (hc : i.checkSca t [a, b] = .ok ()) : i.checkSca t [a] = .ok () := by
  unfold Iss.checkSca firstTrap at hc ⊢
  split at hc
  · cases hc
  next hbad =>
    rw [if_neg (by simp only [List.any_cons, List.any_nil, Bool.or_false, Bool.or_eq_true, not_or] at hbad ⊢; exact hbad.1)]
    cases hl : i.latchBad true a with
    | none => simp [List.findSome?, hl]
    | some t => simp [hl] at hc

theorem skips {s : State} {i : Iss} (h : s.issue? = some i) (hh : i.onlyHelpers = true) (ds : BitVec 6) (a b : Src) (sp fwd : Bool)
    (hc : i.checkSca .i64 [a, b] = .ok ()) :
    ∀ instr ∈ [Instr.sst ds a b sp, .syncw a b, .cpt a b, .hres a fwd, .hbrk a, .hfree a],
      ∃ t g', exec instr s = .next t ∧ i.Alone t g' ∧ i.Onward g' ∧ g'.core = i.g.core := by
  have hc1 := checkSca_fst hc
  have hskip (c : Except Trap Unit) (hok : c = .ok ()) (r : Unit → Res) : (orTrap c fun _ => i.unlessHelpers r) = .done i.s false := by
    rw [hok]
    exact unlessHelpers_only hh r
  simp only [List.forall_mem_cons]
  exact ⟨skipped h rfl (hskip _ hc _), skipped h rfl (hskip _ hc _), skipped h rfl (hskip _ hc _), skipped h rfl (hskip _ hc1 _),
    skipped h rfl (hskip _ hc1 _), skipped h rfl (hskip _ hc1 _), List.forall_mem_nil _⟩

/-- A suppressed instruction's destination receives 0. -/
theorem zeroed {s : State} {i : Iss} (h : s.issue? = some i) (hh : i.onlyHelpers = true) (d : BitVec 6)
    (hd : i.g.destBusy i.sl.wb [] [d.toNat] = false) {c : Except Trap Unit} (hc : c = .ok ()) {r : Unit → Res} {I : Instr} {f : Iss → Res}
    (e : exec I s = s.run f) (hf : f i = orTrap c fun _ => i.suppressed d r) :
    ∃ t g', exec I s = .next t ∧ i.Alone t g' ∧ i.PlainResult (.reg d) 0 g' := by
  obtain ⟨ha, hp⟩ := putD_next h (.reg d) 0 hd
  refine ⟨_, _, e.trans (run_eq h ?_), ha, hp⟩
  rw [hf, hc, orTrap, Iss.suppressed, if_pos hh]

theorem zeroes {s : State} {i : Iss} (h : s.issue? = some i) (hh : i.onlyHelpers = true) (d : BitVec 6) (a b : Src)
    (hc : i.checkSca .i64 [a, b] = .ok ()) (hd : i.g.destBusy i.sl.wb [] [d.toNat] = false) :
    ∀ instr ∈ [Instr.launch d a, .arm d a, .disarm d a, .invoke d a b, .invh d a b, .vgcmd d a b],
      ∃ t g', exec instr s = .next t ∧ i.Alone t g' ∧ i.PlainResult (.reg d) 0 g' := by
  have hc1 := checkSca_fst hc
  simp only [List.forall_mem_cons]
  exact ⟨zeroed h hh d hd hc1 rfl rfl, zeroed h hh d hd hc1 rfl rfl, zeroed h hh d hd hc1 rfl rfl, zeroed h hh d hd hc rfl rfl,
    zeroed h hh d hd hc rfl rfl, zeroed h hh d hd hc rfl rfl, List.forall_mem_nil _⟩

theorem cpb_empty {s : State} {i : Iss} (h : s.issue? = some i) (hh : i.onlyHelpers = true) (a : Src) (hc : i.checkSca .i64 [a] = .ok ())
    (hq : i.g.quiet = true) (hn : i.b.collective? i.g.collSeq = none) :
    ∃ t b' g' o, exec (.cpb a) s = .next t ∧ i.Issued (.cpb a) 0 [0] t b' g' o ∧ o.parts = [i.part [0] [] 0] := by
  obtain ⟨b', g', hi, -, -⟩ := supply_begins h hn (.cpb a) none 0 [] false
  exact ⟨_, b', g', _, exec_cpb_helpers h hh hq hc, hi, rfl⟩

/-- Settles O12: each access queues what it has read (`queue_next`); a slot of helper lanes only skips an instruction, or writes 0. -/
theorem accessesIssue : Obligations.AccessesIssue := by
  unfold Obligations.AccessesIssue
  refine ⟨fun s i d ds dd a b x sp h => ⟨laneAccesses_issue h d ds dd a b x, rowAccesses_issue h d ds a b x, fun hc => ⟨?_, ?_⟩⟩,
    fun s i d r a b x h => ⟨vgath_issue h d r b x, ?_, cpa_issue h r a b, atomo_issue h a b⟩,
    fun s i d ds a b sp fwd h hh hc => ⟨skips h hh ds a b sp fwd hc, zeroes h hh d a b hc, cpb_empty h hh a (checkSca_fst hc)⟩⟩
  · intro m hr
    exact queues h hr rfl rfl (scalarAccess_queue hc _ _) (by cases sp <;> rfl)
  · exact sst_issue h ds a b sp hc
  · intro instr hi old m ha hb hr
    exact samples_issue h d a b ha hb instr hi hr

end Sys2Proof.Proofs.AccessIssue
end

section
/-! SUPPORT. Barriers of a block and of a span (R165, R166): O27. -/

namespace Sys2Proof.Proofs.Barriers

open Sys2Proof Sys2Proof.Machine Sys2Proof.Laws Sys2Proof.Proofs.IssuingBlock Sys2Proof.Proofs.Timelines Sys2Proof.Proofs.Waits
  Sys2Proof.Proofs.Issues Sys2Proof.Proofs.PlaneIssues

/-! ## Ends of an instruction that has changed its block -/

section
variable {i : Iss} {u : State} {b1 : Block}

theorem conclude_done (i : Iss) {u : State} (hc : u.cycle = i.s.cycle) (sw : Bool) : i.conclude (.done u sw) =
    if sw then (u.modGroup i.gr (finished i sw)).setCore (u.coreIdOf i.gr) none else u.modGroup i.gr (finished i sw) := by
  cases sw with
  | false => rfl
  | true =>
    show State.switchPoint _ _ = _
    unfold State.switchPoint
    rw [setCore_modGroup, modGroup_modGroup, coreIdOf_modGroup, show (u.modGroup i.gr _).cycle = i.s.cycle from hc]
    rfl

theorem conclude_wait (i : Iss) {u : State} (hc : u.cycle = i.s.cycle) (w : Wait) : i.conclude (i.wait w u) =
    (u.modGroup i.gr fun g => waited i g w).setCore (u.coreIdOf i.gr) none := by
  show State.switchPoint _ _ = _
  unfold State.switchPoint
  simp only [setCore_modGroup, modGroup_modGroup, coreIdOf_modGroup]
  rw [show (u.modGroup i.gr _).cycle = i.s.cycle from hc]
  rfl

theorem spans_done (i : Iss) {u : State} (hc : u.cycle = i.s.cycle) (sw : Bool) : (i.conclude (.done u sw)).spans = u.spans := by
  rw [conclude_done i hc]
  cases sw <;> rfl

theorem spans_wait (i : Iss) {u : State} (hc : u.cycle = i.s.cycle) (w : Wait) : (i.conclude (i.wait w u)).spans = u.spans := by
  rw [conclude_wait i hc]
  rfl

theorem same_setCore (s : State) (id : Nat) (c : Option (GRef × Bool)) : SameBytes s (s.setCore id c) := ⟨rfl, rfl, rfl, rfl⟩

theorem became_done (h : Became i u b1) (hc : u.cycle = i.s.cycle) (sw : Bool) : Became i (i.conclude (.done u sw)) (b1.modGroup i.gr.grp (finished i sw)) := by
  have hg : Became i (u.modGroup i.gr (finished i sw)) (b1.modGroup i.gr.grp (finished i sw)) := h.change (stays_modGroup _ _)
  rw [conclude_done i hc]
  cases sw with
  | false => exact hg
  | true => exact hg.same (same_setCore _ _ _)

theorem became_wait (h : Became i u b1) (hc : u.cycle = i.s.cycle) (w : Wait) : Became i (i.conclude (i.wait w u)) (b1.modGroup i.gr.grp fun g => waited i g w) := by
  have hg : Became i (u.modGroup i.gr fun g => waited i g w) (b1.modGroup i.gr.grp fun g => waited i g w) := h.change (stays_modGroup _ _)
  rw [conclude_wait i hc]
  exact hg.same (same_setCore _ _ _)

theorem inBlock_became {g : Group} (h : Became i u b1) (hg : b1.groups[i.gr.grp]? = some g)
    (hs : ∀ k, k ≠ i.gr.grp → b1.groups[k]? = i.b.groups[k]?) : i.InBlock u b1 g :=
  ⟨h.block, hg, h.others, hs, h.bytes⟩

theorem inBlock_ends {g : Group} (h : Became i u b1) (hc : u.cycle = i.s.cycle) (hg : b1.groups[i.gr.grp]? = some g)
    (hs : ∀ k, k ≠ i.gr.grp → b1.groups[k]? = i.b.groups[k]?) (sw : Bool) :
    i.InBlock (i.conclude (.done u sw)) (b1.modGroup i.gr.grp (finished i sw)) (finished i sw g) :=
  inBlock_became (became_done h hc sw) (groups_modGroup_self _ hg) fun k hk => (groups_modGroup_ne _ _ hk).trans (hs k hk)

theorem inBlock_waits {g : Group} (h : Became i u b1) (hc : u.cycle = i.s.cycle) (hg : b1.groups[i.gr.grp]? = some g)
    (hs : ∀ k, k ≠ i.gr.grp → b1.groups[k]? = i.b.groups[k]?) (w : Wait) :
    i.InBlock (i.conclude (i.wait w u)) (b1.modGroup i.gr.grp fun g => waited i g w) (waited i g w) :=
  inBlock_became (became_wait h hc w) (groups_modGroup_self _ hg) fun k hk => (groups_modGroup_ne _ _ hk).trans (hs k hk)

theorem waiting_of_slots {g : Group} (w : Wait) (hself : g.slot i.slotB = i.sl) (hother : g.slot (!i.slotB) = i.g.slot (!i.slotB)) :
    i.Waiting w (waited i g w) := by
  refine ⟨?_, ?_, ?_, (slot_waited_not i w g).trans hother⟩ <;> rw [slot_waited, hself] <;> rfl

end

/-! ## The arrival at a barrier of the block -/

/-- The barrier with the arrival noted. -/
def barArrived (b : Block) (n grp c : Nat) (g : Group) : Bar :=
  { b.bar n with
    arrived := grp :: (b.bar n).arrived
    count := some ((b.bar n).count.getD (min c b.groups.length))
    rel := clockJoin (b.bar n).rel g.known }

/-- The group that has arrived at phase ph. -/
def arrivedGroup (n ph : Nat) (g : Group) : Group := { g.release with barAt := setAt g.barAt n ph }

/-- The block with the arrival, before the phase ends. -/
def arriving (b : Block) (n grp c : Nat) (g : Group) : Block :=
  { b with bars := setAt b.bars n (barArrived b n grp c g) }.modGroup grp (arrivedGroup n ((b.bar n).outs.length + 1))

/-- The phase is complete with the group's arrival. -/
def phaseEnds (b : Block) (n grp count : Nat) : Prop :=
  if count = 0 then ∀ g ∈ b.standing, g ∈ grp :: (b.bar n).arrived else count ≤ (b.bar n).arrived.length + 1

theorem arrive_eq {b : Block} {n grp c : Nat} {g : Group} (hg : b.groups[grp]? = some g) (ha : (b.bar n).arrived.contains grp = false) :
    b.arrive n grp c = (arriving b n grp c g).checkBar n := by
  unfold Block.arrive
  simp only [ha, hg, Bool.false_eq_true, if_false]
  rfl

/-- The end of a phase changes the barriers alone. -/
theorem checkBar_eq (b : Block) (n : Nat) : ∃ l, b.checkBar n = { b with bars := l } := by
  unfold Block.checkBar
  simp only
  split
  · exact ⟨_, rfl⟩
  · exact ⟨b.bars, rfl⟩

theorem groups_checkBar (b : Block) (n : Nat) : (b.checkBar n).groups = b.groups := by
  obtain ⟨l, h⟩ := checkBar_eq b n
  rw [h]

/-- An arrival changes nothing, or brings the block on. -/
theorem arrive_cases (b : Block) (n grp c : Nat) : b.arrive n grp c = b ∨ ∃ g, b.arrive n grp c = (arriving b n grp c g).checkBar n := by
  by_cases ha : (b.bar n).arrived.contains grp = true
  · exact .inl (if_pos ha)
  · cases hg : b.groups[grp]? with
    | none =>
      refine .inl ?_
      unfold Block.arrive
      simp only [ha, hg]
      rfl
    | some g => exact .inr ⟨g, arrive_eq hg (Bool.eq_false_iff.2 ha)⟩

theorem stays_arrive (n grp c : Nat) : Stays fun b => b.arrive n grp c := by
  have hfields : ∀ b : Block, ∃ gs l, b.arrive n grp c = { b with groups := gs, bars := l } := fun b => by
    rcases arrive_cases b n grp c with h | ⟨g, h⟩
    · exact ⟨b.groups, b.bars, h⟩
    · obtain ⟨l, hl⟩ := checkBar_eq (arriving b n grp c g) n
      exact ⟨_, l, h.trans hl⟩
  refine ⟨fun b => ?_, fun b => ?_, fun b => ?_⟩ <;> obtain ⟨gs, l, h⟩ := hfields b <;> simp only [h]
  exact ⟨trivial, trivial, trivial, trivial⟩

section
variable {b : Block} {n grp c : Nat} {g : Group}

theorem bar_setBar (hn : n < b.bars.length) (x : Bar) : Block.bar { b with bars := setAt b.bars n x } n = x := by
  unfold Block.bar
  rw [getD_setAt, if_pos ⟨rfl, hn⟩]

theorem bar_setBar_ne {m : Nat} (h : m ≠ n) (x : Bar) : Block.bar { b with bars := setAt b.bars n x } m = b.bar m := by
  unfold Block.bar
  rw [getD_setAt, if_neg fun hm => h hm.1]

theorem bar_arriving (hn : n < b.bars.length) : (arriving b n grp c g).bar n = barArrived b n grp c g := bar_setBar hn _

theorem bar_arriving_ne {m : Nat} (h : m ≠ n) : (arriving b n grp c g).bar m = b.bar m := bar_setBar_ne h _

/-- A change of a group that does not retire it leaves the groups that stand. -/
theorem standing_modGroup (b : Block) (n : Nat) (f : Group → Group) (hf : ∀ g, (f g).retired = g.retired) :
    (b.modGroup n f).standing = b.standing := by
  unfold Block.standing Block.modGroup
  simp only [length_modAt]
  refine List.filter_congr fun k _ => ?_
  rw [get_modAt]
  by_cases hk : k = n
  · rw [if_pos hk]
    cases b.groups[k]? with
    | none => rfl
    | some g => exact congrArg not (hf g)
  · rw [if_neg hk]

theorem standing_arriving : (arriving b n grp c g).standing = b.standing := standing_modGroup _ _ _ fun _ => rfl

theorem full_arriving :
    (barArrived b n grp c g).full (arriving b n grp c g) = true ↔ phaseEnds b n grp ((b.bar n).count.getD (min c b.groups.length)) := by
  unfold Bar.full phaseEnds
  rw [standing_arriving]
  simp only [barArrived]
  cases (b.bar n).count.getD (min c b.groups.length) with
  | zero => simp
  | succ k => simp

/-- The phase that the arrival completes. -/
theorem bar_arrive_ends (hn : n < b.bars.length) (hg : b.groups[grp]? = some g) (ha : (b.bar n).arrived.contains grp = false)
    (he : phaseEnds b n grp ((b.bar n).count.getD (min c b.groups.length))) :
    let x := (b.arrive n grp c).bar n
    x.arrived = [] ∧ x.count = none ∧ x.outs.length = (b.bar n).outs.length + 1 := by
  have hlen : n < (arriving b n grp c g).bars.length := by
    show n < (setAt b.bars n _).length
    rwa [setAt, length_modAt]
  rw [arrive_eq hg ha, Block.checkBar, bar_arriving hn]
  simp only [(full_arriving).2 he, if_true]
  rw [bar_setBar hlen]
  exact ⟨rfl, rfl, List.length_append⟩

/-- The arrival that leaves the phase incomplete. -/
theorem bar_arrive_goes (hn : n < b.bars.length) (hg : b.groups[grp]? = some g) (ha : (b.bar n).arrived.contains grp = false)
    (he : ¬ phaseEnds b n grp ((b.bar n).count.getD (min c b.groups.length))) : (b.arrive n grp c).bar n = barArrived b n grp c g := by
  rw [arrive_eq hg ha, Block.checkBar, bar_arriving hn]
  simp only [show (barArrived b n grp c g).full (arriving b n grp c g) = false from Bool.eq_false_iff.2 fun h => he ((full_arriving).1 h),
    Bool.false_eq_true, if_false]
  exact bar_arriving hn

theorem bar_checkBar_ne (b : Block) {m n : Nat} (h : m ≠ n) : (b.checkBar n).bar m = b.bar m := by
  unfold Block.checkBar
  simp only
  split
  · exact bar_setBar_ne h _
  · rfl

theorem bar_arrive_ne (hg : b.groups[grp]? = some g) (ha : (b.bar n).arrived.contains grp = false) {m : Nat} (h : m ≠ n) :
    (b.arrive n grp c).bar m = b.bar m := by
  rw [arrive_eq hg ha, bar_checkBar_ne _ h, bar_arriving_ne h]

theorem group_arrive (hg : b.groups[grp]? = some g) (ha : (b.bar n).arrived.contains grp = false) :
    (b.arrive n grp c).groups[grp]? = some (arrivedGroup n ((b.bar n).outs.length + 1) g) := by
  rw [arrive_eq hg ha, groups_checkBar]
  exact groups_modGroup_self (b := { b with bars := setAt b.bars n (barArrived b n grp c g) }) _ hg

theorem siblings_arrive (hg : b.groups[grp]? = some g) (ha : (b.bar n).arrived.contains grp = false) (k : Nat) (hk : k ≠ grp) :
    (b.arrive n grp c).groups[k]? = b.groups[k]? := by
  rw [arrive_eq hg ha, groups_checkBar]
  exact groups_modGroup_ne { b with bars := setAt b.bars n (barArrived b n grp c g) } _ hk

end

/-! ## BAR, BARA, BARW -/

/-- What the arrival has left of the barriers and of the group's own phase. -/
def Arrives (i : Iss) (k c : Nat) (b' : Block) (g' : Group) : Prop :=
  let x := i.b.bar k
  let count := x.count.getD (min c i.b.groups.length)
  g'.barAt = setAt i.g.barAt k (x.outs.length + 1) ∧ (∀ m, m ≠ k → b'.bar m = i.b.bar m) ∧
    (phaseEnds i.b k i.gr.grp count → (b'.bar k).arrived = [] ∧ (b'.bar k).count = none ∧ (b'.bar k).outs.length = x.outs.length + 1) ∧
    (¬ phaseEnds i.b k i.gr.grp count → (b'.bar k).arrived = i.gr.grp :: x.arrived ∧ (b'.bar k).count = some count ∧ (b'.bar k).outs = x.outs)

theorem arrives {i : Iss} {k c : Nat} (hk : k < i.b.bars.length) (hg : i.b.groups[i.gr.grp]? = some i.g)
    (ha : (i.b.bar k).arrived.contains i.gr.grp = false) {b' : Block} {g' : Group} (hb : b'.bars = (i.b.arrive k i.gr.grp c).bars)
    (hat : g'.barAt = setAt i.g.barAt k ((i.b.bar k).outs.length + 1)) : Arrives i k c b' g' := by
  have hbar : ∀ m, b'.bar m = (i.b.arrive k i.gr.grp c).bar m := fun m => by unfold Block.bar; rw [hb]
  refine ⟨hat, fun m hm => (hbar m).trans (bar_arrive_ne hg ha hm), fun he => ?_, fun he => ?_⟩
  · rw [hbar]
    exact bar_arrive_ends hk hg ha he
  · rw [hbar, bar_arrive_goes hk hg ha he]
    exact ⟨rfl, rfl, rfl⟩

theorem unread_arrived (i : Iss) (n ph : Nat) : i.Unread (arrivedGroup n ph i.g) := ⟨rfl, rfl, rfl, rfl, rfl, rfl⟩

theorem slot_arrived (n ph : Nat) (g : Group) (b : Bool) : (arrivedGroup n ph g).slot b = g.slot b := rfl

theorem slot_acquired (n ph : Nat) (g : Group) (c : Clock) (b : Bool) : ((arrivedGroup n ph g).acquire c).slot b = g.slot b := rfl

theorem barAt_finished (i : Iss) (sw : Bool) (g : Group) : (finished i sw g).barAt = g.barAt := (congrArg Group.barAt (still_finished i sw g) :)

theorem barAt_waited (i : Iss) (w : Wait) (g : Group) : (waited i g w).barAt = g.barAt := (congrArg Group.barAt (still_waited i w g) :)

/-- What the end of the phase that it waits for does to the waiter's block. -/
def leave (i : Iss) (k ph : Nat) (b : Block) : Block := if ph = 0 then b else b.leaveBar k i.gr.grp ph

theorem stays_leave {i : Iss} (k ph : Nat) : Stays (leave i k ph) := by
  unfold leave
  split
  · exact ⟨fun _ => rfl, fun _ => rfl, fun _ => ⟨rfl, rfl, rfl, rfl⟩⟩
  · exact ⟨fun _ => rfl, fun _ => rfl, fun _ => ⟨rfl, rfl, rfl, rfl⟩⟩

theorem bars_leave (i : Iss) (k ph : Nat) (b : Block) : (leave i k ph b).bars = b.bars := by
  unfold leave
  split <;> rfl

theorem siblings_leave {i : Iss} {k ph : Nat} (b : Block) {j : Nat} (hj : j ≠ i.gr.grp) : (leave i k ph b).groups[j]? = b.groups[j]? := by
  unfold leave
  split
  · rfl
  · exact groups_modGroup_ne _ _ hj

theorem group_leave {i : Iss} {b : Block} {g : Group} (hg : b.groups[i.gr.grp]? = some g) (k : Nat) {ph : Nat} (hp : ph ≠ 0) :
    (leave i k ph b).groups[i.gr.grp]? = some (g.acquire ((b.bar k).outs.getD (ph - 1) [])) := by
  unfold leave
  rw [if_neg hp]
  exact groups_modGroup_self _ hg

theorem unread_acquire {i : Iss} {g : Group} (h : i.Unread g) (c : Clock) : i.Unread (g.acquire c) := ⟨h.v, h.s, h.p, h.flags, h.mode, h.latches⟩

theorem unread_waited {i : Iss} {g : Group} (h : i.Unread g) (w : Wait) : i.Unread (waited i g w) := Unread.of_still h (still_waited i w g)

/-- The issuing group acquires, or stands where it waits for no phase. -/
theorem group_left {i : Iss} {b : Block} (hg : b.groups[i.gr.grp]? = some i.g) (k ph : Nat) :
    ∃ g', (leave i k ph b).groups[i.gr.grp]? = some g' ∧ (∀ sb, g'.slot sb = i.g.slot sb) ∧ i.Unread g' := by
  by_cases hp : ph = 0
  · exact ⟨i.g, by rw [leave, if_pos hp, hg], fun _ => rfl, unread_self i⟩
  · exact ⟨_, group_leave hg k hp, fun _ => rfl, unread_acquire (unread_self i) _⟩

theorem awaitBar_goes {i : Iss} {u : State} {b1 : Block} (hu : Became i u b1) {k ph : Nat} (h : ph ≤ (b1.bar k).outs.length) (w : Wait) :
    i.awaitBar u k ph w = .done (u.modBlock i.gr.blk (leave i k ph)) true := by
  unfold Iss.awaitBar
  simp only [hu.block, if_pos h]
  rfl

theorem awaitBar_waits {i : Iss} {u : State} {b1 : Block} (hu : Became i u b1) {k ph : Nat} (h : ¬ ph ≤ (b1.bar k).outs.length) (w : Wait) :
    i.awaitBar u k ph w = i.wait w u := by
  unfold Iss.awaitBar
  simp only [hu.block, if_neg h]

section
variable {s : State} {i : Iss} (h : s.issue? = some i)
include h

theorem became_arrive (k c : Nat) : Became i (i.s.modBlock i.gr.blk fun b => b.arrive k i.gr.grp c) (i.b.arrive k i.gr.grp c) :=
  by
  obtain ⟨rfl, hb, -⟩ := issue_facts h
  exact (Became.start hb (.refl _)).change (stays_arrive k i.gr.grp c)

theorem bara_arrives {a : Src} {n : BitVec 4} (hc : i.checkSca .i64 [a] = .ok ()) (hq : i.g.quiet = true) (hk : n.toNat < i.b.bars.length)
    (ha : (i.b.bar n.toNat).arrived.contains i.gr.grp = false) :
    ∃ t b' g', exec (.bara a n) s = .next t ∧ i.InBlock t b' g' ∧ i.At (i.pc + 4) i.active i.sl.wb i.sl.k g' ∧ i.Unread g' ∧
      Arrives i n.toNat (i.uni a).toNat b' g' := by
  have hg := issue_group h
  refine ⟨_, _, _, run_eq h (r := .done (i.s.modBlock i.gr.blk fun b => b.arrive n.toNat i.gr.grp (i.uni a).toNat) false) ?_,
    inBlock_ends (became_arrive h _ _) rfl (group_arrive hg ha) (siblings_arrive hg ha) false,
    at_finished false (slot_arrived ..) (slot_arrived ..), unread_finished (unread_arrived ..) _, arrives hk hg ha rfl (barAt_finished ..)⟩
  simp only [hc, orTrap, hq, Bool.not_true, Bool.false_eq_true, if_false]
  rfl

theorem exec_bar_flag {a : Src} {n : BitVec 4} (hc : i.checkSca .i64 [a] = .ok ()) (hq : i.g.quiet = true) (hw : i.sl.wait = none)
    (hr : i.sl.resume = false) {t : Trap} (hf : i.g.flagTrap = some t) : exec (.bar a n) s = .next (i.conclude (.trap t)) := by
  refine run_eq h ?_
  simp only [hc, orTrap, hw, hr, hq, hf, Bool.not_true, Bool.false_eq_true, if_false]

/-- BAR after its checks. -/
theorem exec_bar {a : Src} {n : BitVec 4} (hc : i.checkSca .i64 [a] = .ok ()) (hq : i.g.quiet = true) (hw : i.sl.wait = none)
    (hr : i.sl.resume = false) (hf : i.g.flagTrap = none) {r : Res}
    (hres : i.awaitBar (i.s.modBlock i.gr.blk fun b => b.arrive n.toNat i.gr.grp (i.uni a).toNat) n.toNat ((i.b.bar n.toNat).outs.length + 1)
      (.bar n.toNat ((i.b.bar n.toNat).outs.length + 1)) = r) : exec (.bar a n) s = .next (i.conclude r) := by
  refine run_eq h ?_
  simp only [hc, orTrap, hw, hr, hq, hf, Bool.not_true, Bool.false_eq_true, if_false]
  exact hres

/-- BAR goes on when its arrival has completed the phase, and waits otherwise. -/
theorem bar_arrives {a : Src} {n : BitVec 4} (hc : i.checkSca .i64 [a] = .ok ()) (hq : i.g.quiet = true) (hw : i.sl.wait = none)
    (hr : i.sl.resume = false) (hf : i.g.flags &&& i.g.flagen = 0) (hk : n.toNat < i.b.bars.length)
    (ha : (i.b.bar n.toNat).arrived.contains i.gr.grp = false) :
    let ends := phaseEnds i.b n.toNat i.gr.grp ((i.b.bar n.toNat).count.getD (min (i.uni a).toNat i.b.groups.length))
    ∃ t b' g', exec (.bar a n) s = .next t ∧ i.InBlock t b' g' ∧ i.Unread g' ∧ Arrives i n.toNat (i.uni a).toNat b' g' ∧
      (ends → i.At (i.pc + 4) i.active i.sl.wb 0 g') ∧ (¬ ends → i.Waiting (.bar n.toNat ((i.b.bar n.toNat).outs.length + 1)) g') := by
  intro ends
  have hg := issue_group h
  have hu := became_arrive h n.toNat (i.uni a).toNat
  have hga := group_arrive (c := (i.uni a).toNat) hg ha
  have hsib := siblings_arrive (c := (i.uni a).toNat) hg ha
  have hflag : i.g.flagTrap = none := if_pos hf
  by_cases he : ends
  · obtain ⟨-, -, hlen⟩ := bar_arrive_ends (c := (i.uni a).toNat) hk hg ha he
    have hgo := awaitBar_goes hu (ph := (i.b.bar n.toNat).outs.length + 1) (k := n.toNat) (by omega)
      (.bar n.toNat ((i.b.bar n.toNat).outs.length + 1))
    refine ⟨_, _, _, exec_bar h hc hq hw hr hflag hgo,
      inBlock_ends (hu.change (stays_leave _ _)) rfl (group_leave hga _ (by omega)) (fun k hk => (siblings_leave _ hk).trans (hsib k hk)) true,
      unread_finished (unread_acquire (unread_arrived ..) _) _, arrives hk hg ha (bars_leave _ _ _ _) (barAt_finished ..),
      fun _ => at_finished true (slot_acquired ..) (slot_acquired ..), fun hn => absurd he hn⟩
  · have hbar := bar_arrive_goes (c := (i.uni a).toNat) hk hg ha he
    refine ⟨_, _, _, exec_bar h hc hq hw hr hflag (awaitBar_waits hu (by rw [hbar]; exact Nat.not_succ_le_self _) _),
      inBlock_waits hu rfl hga hsib _, unread_waited (unread_arrived ..) _, arrives hk hg ha rfl (barAt_waited ..), fun hp => absurd hp he,
      fun _ => waiting_of_slots _ (slot_arrived ..) (slot_arrived ..)⟩

/-- BARW waits for the phase that the group last arrived in. -/
theorem barw_waits {a : Src} {n : BitVec 4} (hc : i.checkSca .i64 [a] = .ok ()) (hw : i.sl.wait = none) :
    if i.g.barAt.getD n.toNat 0 ≤ (i.b.bar n.toNat).outs.length then
      ∃ t b' g', exec (.barw a n) s = .next t ∧ i.InBlock t b' g' ∧ i.At (i.pc + 4) i.active i.sl.wb 0 g' ∧ i.Unread g' ∧ b'.bars = i.b.bars
    else ∃ t b' g', exec (.barw a n) s = .next t ∧ i.InBlock t b' g' ∧ i.Waiting (.barw n.toNat (i.g.barAt.getD n.toNat 0)) g' ∧ i.Unread g' ∧
      b'.bars = i.b.bars := by
  obtain ⟨rfl, hb, -⟩ := issue_facts h
  have hg := issue_group h
  have hu := Became.start hb (.refl i.s)
  have hrun : ∀ r, i.awaitBar i.s n.toNat (i.g.barAt.getD n.toNat 0) (.barw n.toNat (i.g.barAt.getD n.toNat 0)) = r →
      exec (.barw a n) i.s = .next (i.conclude r) := fun r hr => by
    refine run_eq h ?_
    simp only [hc, orTrap, hw]
    exact hr
  split
  next hp =>
    obtain ⟨g', hg', hslot, hread⟩ := group_left hg n.toNat (i.g.barAt.getD n.toNat 0)
    exact ⟨_, _, _, hrun _ (awaitBar_goes hu hp _), inBlock_ends (hu.change (stays_leave _ _)) rfl hg' (fun k hk => siblings_leave _ hk) true,
      at_finished true (hslot _) (hslot _), unread_finished hread _, bars_leave _ _ _ _⟩
  next hp =>
    exact ⟨_, _, _, hrun _ (awaitBar_waits hu hp _), inBlock_waits hu rfl hg (fun _ _ => rfl) _, waiting_waited i _,
      unread_waited (unread_self i) _, rfl⟩

end

/-! ## SBAR -/

theorem span?_modSpan {s : State} {key : Nat} {x : Span} (h : s.span? key = some x) (f : Span → Span) (hf : ∀ x, (f x).key = x.key) :
    (s.modSpan key f).span? key = some (f x) := by
  show (s.spans.map fun x => if x.key = key then f x else x).find? _ = _
  unfold State.span? at h
  rw [List.find?_map]
  have hp : ((fun x : Span => x.key == key) ∘ fun x => if x.key = key then f x else x) = fun x : Span => x.key == key := by
    funext y
    simp only [Function.comp]
    split
    next hy => rw [hf]
    next hy => rfl
  rw [hp, h, Option.map_some, if_pos (by simpa using List.find?_some h)]

/-- The span with the arrival noted. -/
def spanArrived (who : Nat × Nat) (known : Clock) (x : Span) : Span := { x with arrived := who :: x.arrived, rel := clockJoin x.rel known }

/-- A phase of the span ended. -/
def spanEnded (x : Span) : Span := { x with arrived := [], rel := [], outs := x.outs ++ [x.rel] }

/-- The group that has arrived at its span's phase ph. -/
def spanReached (ph : Nat) (g : Group) : Group := { g.release with spanAt := ph }

theorem unread_spanReached (i : Iss) (ph : Nat) : i.Unread (spanReached ph i.g) := ⟨rfl, rfl, rfl, rfl, rfl, rfl⟩

theorem slot_spanReached (ph : Nat) (g : Group) (b : Bool) : (spanReached ph g).slot b = g.slot b := rfl

theorem slot_spanLeft (ph : Nat) (g : Group) (c : Clock) (b : Bool) : ((spanReached ph g).acquire c).slot b = g.slot b := rfl

/-- The machine with the arrival, before the phase ends. -/
def spanArriving (s : State) (gr : GRef) (b : Block) (g : Group) (ph : Nat) : State :=
  (s.modSpan b.span (spanArrived (b.id, gr.grp) g.known)).modGroup gr (spanReached ph)

/-- Every standing group of the span's blocks has arrived, with one more. -/
def spanEnds (s : State) (x : Span) (who : Nat × Nat) : Prop :=
  ∀ b ∈ s.blocks, x.members.contains b.id = true → b.aborted = false → ∀ g ∈ b.standing, (b.id, g) ∈ who :: x.arrived

theorem spanFull_arriving (s : State) (gr : GRef) (b : Block) (g : Group) (ph : Nat) (x : Span) :
    (spanArriving s gr b g ph).spanFull (spanArrived (b.id, gr.grp) g.known x) = true ↔ spanEnds s x (b.id, gr.grp) := by
  have hblk (y : Block) : let y' := if y.id = gr.blk then y.modGroup gr.grp (spanReached ph) else y
      y'.id = y.id ∧ y'.aborted = y.aborted ∧ y'.standing = y.standing := by
    simp only
    split
    · exact ⟨rfl, rfl, standing_modGroup _ _ _ fun _ => rfl⟩
    · exact ⟨rfl, rfl, rfl⟩
  show ((s.blocks.map fun y => if y.id = gr.blk then y.modGroup gr.grp (spanReached ph) else y).all fun y => _) = true ↔ _
  unfold spanEnds
  simp only [List.all_map, List.all_eq_true, Function.comp]
  refine forall₂_congr fun y _ => ?_
  obtain ⟨hid, hab, hst⟩ := hblk y
  simp only [hid, hab, hst, spanArrived, Bool.or_eq_true, Bool.not_eq_true', List.all_eq_true]
  cases x.members.contains y.id <;> cases y.aborted <;> simp

section
variable {s : State} {i : Iss} {x : Span}

theorem span?_arriving {gr : GRef} {b : Block} (hx : s.span? b.span = some x) (g : Group) (ph : Nat) :
    (spanArriving s gr b g ph).span? b.span = some (spanArrived (b.id, gr.grp) g.known x) := span?_modSpan hx _ fun _ => rfl

theorem arriveSpan_eq {gr : GRef} {b : Block} (g : Group) (hx : s.span? b.span = some x) (ha : x.arrived.contains (b.id, gr.grp) = false) :
    s.arriveSpan gr b g = (spanArriving s gr b g (x.outs.length + 1)).checkSpan b.span := by
  unfold State.arriveSpan
  simp only [hx, ha, Bool.false_eq_true, if_false]
  rfl

theorem arriveSpan_ends {gr : GRef} {b : Block} (g : Group) (hx : s.span? b.span = some x) (ha : x.arrived.contains (b.id, gr.grp) = false)
    (he : spanEnds s x (b.id, gr.grp)) :
    s.arriveSpan gr b g = (spanArriving s gr b g (x.outs.length + 1)).modSpan b.span spanEnded := by
  rw [arriveSpan_eq g hx ha, State.checkSpan, span?_arriving hx]
  simp only [(spanFull_arriving s gr b g (x.outs.length + 1) x).2 he, Bool.and_true]
  rfl

theorem arriveSpan_goes {gr : GRef} {b : Block} (g : Group) (hx : s.span? b.span = some x) (ha : x.arrived.contains (b.id, gr.grp) = false)
    (he : ¬ spanEnds s x (b.id, gr.grp)) : s.arriveSpan gr b g = spanArriving s gr b g (x.outs.length + 1) := by
  rw [arriveSpan_eq g hx ha, State.checkSpan, span?_arriving hx]
  simp only [Bool.eq_false_iff.2 fun h => he ((spanFull_arriving s gr b g (x.outs.length + 1) x).1 h), Bool.and_false, Bool.false_eq_true, if_false]

theorem awaitSpan_goes (i : Iss) {u : State} {y : Span} (hy : u.span? i.b.span = some y) {ph : Nat} (hp : ph ≤ y.outs.length) :
    i.awaitSpan u ph = .done (u.modGroup i.gr fun g => g.acquire (y.outs.getD (ph - 1) [])) true := by
  unfold Iss.awaitSpan
  simp only [hy, if_pos hp]

theorem awaitSpan_waits (i : Iss) {u : State} {y : Span} (hy : u.span? i.b.span = some y) {ph : Nat} (hp : ¬ ph ≤ y.outs.length) :
    i.awaitSpan u ph = i.wait (.span ph) u := by
  unfold Iss.awaitSpan
  simp only [hy, if_neg hp]

theorem same_modSpan (s : State) (key : Nat) (f : Span → Span) : SameBytes s (s.modSpan key f) := ⟨rfl, rfl, rfl, rfl⟩

variable (h : s.issue? = some i)
include h

theorem became_span (ph : Nat) : Became i (spanArriving i.s i.gr i.b i.g ph)
    (i.b.modGroup i.gr.grp (spanReached ph)) := by
  obtain ⟨rfl, hb, -⟩ := issue_facts h
  exact (Became.start hb (same_modSpan _ _ _)).change (stays_modGroup _ _)

theorem exec_sbar_flag (hq : i.g.quiet = true) (hw : i.sl.wait = none) (hr : i.sl.resume = false) {t : Trap} (hf : i.g.flagTrap = some t) :
    exec .sbar s = .next (i.conclude (.trap t)) := by
  refine run_eq h ?_
  simp only [hw, hr, hq, hf, Bool.not_true, Bool.false_eq_true, if_false]

theorem exec_sbar (hx : s.span? i.b.span = some x) (hq : i.g.quiet = true) (hw : i.sl.wait = none) (hr : i.sl.resume = false)
    (hf : i.g.flagTrap = none) : exec .sbar s = .next (i.conclude (i.awaitSpan (s.arriveSpan i.gr i.b i.g) (x.outs.length + 1))) := by
  obtain ⟨rfl, -, -⟩ := issue_facts h
  refine run_eq h ?_
  simp only [hw, hr, hq, hx, hf, Bool.not_true, Bool.false_eq_true, if_false]

/-- A group that has arrived at its span's barrier and goes on. -/
theorem sbar_goes {u : State} {y : Span} {ph : Nat} (hu : Became i u (i.b.modGroup i.gr.grp (spanReached ph))) (hc : u.cycle = i.s.cycle)
    (hy : u.span? i.b.span = some y) (hp : ph ≤ y.outs.length) :
    ∃ b' g', i.InBlock (i.conclude (i.awaitSpan u ph)) b' g' ∧ i.Unread g' ∧ (i.conclude (i.awaitSpan u ph)).span? i.b.span = some y ∧
      i.At (i.pc + 4) i.active i.sl.wb 0 g' := by
  have hg := groups_modGroup_self (b := i.b) (spanReached ph) (issue_group h)
  rw [awaitSpan_goes i hy hp]
  generalize y.outs.getD (ph - 1) [] = c
  refine ⟨_, finished i true ((spanReached ph i.g).acquire c), inBlock_ends (hu.change (stays_modGroup _ _)) hc (groups_modGroup_self _ hg)
    (fun k hk => (groups_modGroup_ne _ _ hk).trans (groups_modGroup_ne _ _ hk)) true, unread_finished (unread_acquire (unread_spanReached ..) _) _, ?_, ?_⟩
  · unfold State.span?
    rw [spans_done i (by exact hc)]
    exact hy
  · exact at_finished true (slot_spanLeft _ _ _ _) (slot_spanLeft _ _ _ _)

/-- A group that has arrived at its span's barrier and waits there. -/
theorem sbar_waits {u : State} {y : Span} {ph : Nat} (hu : Became i u (i.b.modGroup i.gr.grp (spanReached ph))) (hc : u.cycle = i.s.cycle)
    (hy : u.span? i.b.span = some y) (hp : ¬ ph ≤ y.outs.length) :
    ∃ b' g', i.InBlock (i.conclude (i.awaitSpan u ph)) b' g' ∧ i.Unread g' ∧ (i.conclude (i.awaitSpan u ph)).span? i.b.span = some y ∧
      i.Waiting (.span ph) g' := by
  have hg := groups_modGroup_self (b := i.b) (spanReached ph) (issue_group h)
  rw [awaitSpan_waits i hy hp]
  refine ⟨_, waited i (spanReached ph i.g) (.span ph), inBlock_waits hu hc hg (fun k hk => groups_modGroup_ne _ _ hk) _,
    unread_waited (unread_spanReached ..) _, ?_, waiting_of_slots _ (slot_spanReached ..) (slot_spanReached ..)⟩
  unfold State.span?
  rw [spans_wait i hc]
  exact hy

/-- SBAR goes on when its arrival has completed the span's phase, and waits otherwise. -/
theorem sbar_arrives (hx : s.span? i.b.span = some x) (hq : i.g.quiet = true) (hw : i.sl.wait = none)
    (hr : i.sl.resume = false) (ha : x.arrived.contains (i.b.id, i.gr.grp) = false) (hf : i.g.flags &&& i.g.flagen = 0) :
    let ends := spanEnds s x (i.b.id, i.gr.grp)
    ∃ t b' g' y, exec .sbar s = .next t ∧ i.InBlock t b' g' ∧ i.Unread g' ∧ t.span? i.b.span = some y ∧ y.members = x.members ∧
      (ends → i.At (i.pc + 4) i.active i.sl.wb 0 g' ∧ y.arrived = [] ∧ y.outs.length = x.outs.length + 1) ∧
      (¬ ends → i.Waiting (.span (x.outs.length + 1)) g' ∧ y.arrived = (i.b.id, i.gr.grp) :: x.arrived ∧ y.outs = x.outs) := by
  intro ends
  have hs : i.s = s := (issue_facts h).1
  have hu := became_span h (x.outs.length + 1)
  have hspan := span?_arriving (gr := i.gr) hx i.g (x.outs.length + 1)
  have hflag : i.g.flagTrap = none := if_pos hf
  have hrun := exec_sbar h hx hq hw hr hflag
  rw [hs] at hu
  have hcycle : (spanArriving s i.gr i.b i.g (x.outs.length + 1)).cycle = i.s.cycle := by
    rw [hs]
    rfl
  by_cases he : ends
  · have hlen : (spanEnded (spanArrived (i.b.id, i.gr.grp) i.g.known x)).outs.length = x.outs.length + 1 := List.length_append
    obtain ⟨b', g', hin, hread, hspan', hat⟩ := sbar_goes h (hu.same (same_modSpan _ i.b.span spanEnded)) hcycle
      (span?_modSpan hspan spanEnded fun _ => rfl) (Nat.le_of_eq hlen.symm)
    rw [← arriveSpan_ends i.g hx ha he] at hin hspan'
    exact ⟨_, b', g', spanEnded (spanArrived (i.b.id, i.gr.grp) i.g.known x), hrun, hin, hread, hspan', rfl, fun _ => ⟨hat, rfl, hlen⟩, fun hn => absurd he hn⟩
  · obtain ⟨b', g', hin, hread, hspan', hwait⟩ := sbar_waits h hu hcycle hspan (Nat.not_succ_le_self _)
    rw [← arriveSpan_goes i.g hx ha he] at hin hspan'
    exact ⟨_, b', g', spanArrived (i.b.id, i.gr.grp) i.g.known x, hrun, hin, hread, hspan', rfl, fun hp => absurd hp he, fun _ => ⟨hwait, rfl, rfl⟩⟩

end

/-- Settles O27: the arrival by `arrive_cases`, and whether it completes the phase by `full_arriving` and `spanFull_arriving`. -/
theorem barriers : Obligations.Barriers := by
  unfold Obligations.Barriers
  refine ⟨fun s i a n h hc hbars => ⟨fun hq ha => ⟨bara_arrives h hc hq ?_ ha, fun hw hr => ⟨fun hf => ?_, fun hf =>
    bar_arrives h hc hq hw hr hf ?_ ha⟩⟩, fun hw => barw_waits h hc hw⟩, fun s i x h _ hx hw hr hq ha => ⟨fun hf => ?_, fun hf =>
    sbar_arrives h hx hq hw hr ha hf⟩⟩
  · rw [hbars]
    exact n.isLt
  · exact exec_bar_flag h hc hq hw hr (if_neg hf)
  · rw [hbars]
    exact n.isLt
  · exact exec_sbar_flag h hq hw hr (if_neg hf)

end Sys2Proof.Proofs.Barriers
end

section
/-! SUPPORT. The bytes of a trap frame (R395): O25. -/

namespace Sys2Proof.Proofs.TrapFrames

open Sys2Proof Sys2Proof.Machine Sys2Proof.Laws Sys2Proof.Proofs.SyncWords

/-! ## Reading a field of a list of bytes -/

/-- The number in the n bytes from o on. -/
def fieldAt (f : List Byte) (o n : Nat) : Nat := leNat ((f.drop o).take n)

theorem fieldAt_append_right {a b : List Byte} {k : Nat} (ha : a.length = k) (o n : Nat) : fieldAt (a ++ b) (k + o) n = fieldAt b o n := by
  rw [fieldAt, fieldAt, ← ha, List.drop_append, List.drop_eq_nil_of_le (Nat.le_add_right _ _), List.nil_append, Nat.add_sub_cancel_left]

theorem fieldAt_append_left {a b : List Byte} {o n : Nat} (h : o + n ≤ a.length) : fieldAt (a ++ b) o n = fieldAt a o n := by
  rw [fieldAt, fieldAt, List.drop_append_of_le_length (by omega), List.take_append_of_le_length (by rw [List.length_drop]; omega)]

/-- A field beyond the first. -/
theorem fieldAt_skip {m v : Nat} {r : List Byte} {o n : Nat} (h : m ≤ o) : fieldAt (leBytes m v ++ r) o n = fieldAt r (o - m) n := by
  have := fieldAt_append_right (b := r) (length_leBytes m v) (o - m) n
  rwa [Nat.add_sub_cancel' h] at this

/-- The first field. -/
theorem fieldAt_first (n v : Nat) (r : List Byte) : fieldAt (leBytes n v ++ r) 0 n = v % 256 ^ n := by
  rw [fieldAt_append_left (by rw [length_leBytes]; omega), fieldAt, List.drop_zero, List.take_of_length_le (by rw [length_leBytes]), leNat_leBytes]

theorem fieldAt_word {n w : Nat} (v : BitVec w) (r : List Byte) (h : w ≤ 8 * n) : fieldAt (leBytes n v.toNat ++ r) 0 n = v.toNat := by
  rw [fieldAt_first, Nat.mod_eq_of_lt]
  calc v.toNat < 2 ^ w := v.isLt
    _ ≤ 2 ^ (8 * n) := Nat.pow_le_pow_right (by omega) h
    _ = 256 ^ n := Nat.pow_mul 2 8 n

theorem fieldAt_zero (n : Nat) (r : List Byte) : fieldAt (leBytes n 0 ++ r) 0 n = 0 := (fieldAt_first n 0 r).trans (Nat.zero_mod _)

/-- A field of one of the chunks of k bytes each. -/
theorem fieldAt_chunk {α : Type} {c : α → List Byte} {k : Nat} (hc : ∀ x, (c x).length = k) (r : List Byte) {o n : Nat} (hn : o + n ≤ k) :
    ∀ (l : List α) (e : Nat) (x : α), l[e]? = some x → fieldAt (l.flatMap c ++ r) (k * e + o) n = fieldAt (c x) o n
  | [], e, x, h => by simp at h
  | y :: l, 0, x, h => by
    obtain rfl : y = x := by simpa using h
    rw [List.flatMap_cons, List.append_assoc, Nat.mul_zero, Nat.zero_add, fieldAt_append_left (by rw [hc]; exact hn)]
  | y :: l, e + 1, x, h => by
    rw [List.flatMap_cons, List.append_assoc, Nat.mul_succ, Nat.add_right_comm, Nat.add_comm (k * e + o) k, fieldAt_append_right (hc y)]
    exact fieldAt_chunk hc r hn l e x (by simpa using h)

theorem length_flatMap_const {α : Type} {c : α → List Byte} {k : Nat} (hc : ∀ x, (c x).length = k) (l : List α) :
    (l.flatMap c).length = k * l.length := by
  rw [List.length_flatMap, List.map_congr_left (g := fun _ => k) fun x _ => hc x, List.map_const', List.sum_replicate_nat, Nat.mul_comm]

theorem length_wordBytes (n : Nat) (l : List Word) : (wordBytes n l).length = 8 * n := by
  rw [wordBytes, length_flatMap_const fun _ => length_leBytes 8 _, List.length_range]

/-- Word k of a list of words. -/
theorem fieldAt_wordBytes {n k : Nat} (hk : k < n) (l : List Word) (r : List Byte) : fieldAt (wordBytes n l ++ r) (8 * k) 8 = (l.getD k 0).toNat := by
  have h := fieldAt_chunk (fun _ => length_leBytes 8 _) r (o := 0) (n := 8) (Nat.le_refl _) (List.range n) k k (List.getElem?_range hk)
    (c := fun i => leBytes 8 (l.getD i 0).toNat)
  rw [wordBytes, ← Nat.add_zero (8 * k), h, ← List.append_nil (leBytes 8 _), fieldAt_word _ _ (by omega)]

/-! ## The header and the entries -/

/-- The first 256 bytes. -/
def frameHeader (g : Group) (cause addr tpc detail : Word) (n : Nat) : List Byte :=
  leBytes 8 g.slotA.pc.toNat ++ (leBytes 8 g.slotB.pc.toNat ++ (leBytes 4 g.slotA.mask.toNat ++ (leBytes 4 g.slotB.mask.toNat ++
    (leBytes 4 g.slotA.wb ++ (leBytes 4 g.slotB.wb ++ (leBytes 8 g.mode.toNat ++ (leBytes 8 g.flags.toNat ++ (leBytes 8 g.flagen.toNat ++
    (leBytes 8 cause.toNat ++ (leBytes 8 addr.toNat ++ (leBytes 8 tpc.toNat ++ (leBytes 8 detail.toNat ++
    (leBytes 1 (min 8 n) ++ (leBytes 1 (g.traps.length + 1) ++
    (leBytes 1 ((if g.slotA.resume then 1 else 0) + (if g.slotB.resume then 2 else 0)) ++ (leBytes 5 0 ++
    (leBytes 8 g.pix.toNat ++ (wordBytes 5 g.ivec ++ leBytes 112 0))))))))))))))))))

theorem frameBytes_eq (g : Group) (cause addr tpc detail : Word) (q : List QEnt) : frameBytes g cause addr tpc detail q =
    frameHeader g cause addr tpc detail q.length ++ (List.range 8).flatMap fun e => (q.getD e QEnt.empty).bytes := by
  unfold frameBytes frameHeader
  simp only [List.append_assoc]

theorem length_frameHeader (g : Group) (cause addr tpc detail : Word) (n : Nat) : (frameHeader g cause addr tpc detail n).length = 256 := by
  simp only [frameHeader, List.length_append, length_leBytes, length_wordBytes]

theorem length_entry (e : QEnt) : e.bytes.length = 1344 := by
  simp only [QEnt.bytes, List.length_append, length_leBytes, length_wordBytes]

theorem length_frameBytes (g : Group) (cause addr tpc detail : Word) (q : List QEnt) : (frameBytes g cause addr tpc detail q).length = 11008 := by
  rw [frameBytes_eq, List.length_append, length_frameHeader, length_flatMap_const (fun e => length_entry (q.getD e QEnt.empty)), List.length_range]

section
variable {g : Group} {cause addr tpc detail : Word} {q : List QEnt}

theorem fieldAt_header {o n : Nat} (h : o + n ≤ 256) :
    fieldAt (frameBytes g cause addr tpc detail q) o n = fieldAt (frameHeader g cause addr tpc detail q.length) o n := by
  rw [frameBytes_eq, fieldAt_append_left (by rw [length_frameHeader]; exact h)]

/-- A field of entry e. -/
theorem fieldAt_entry {e o n : Nat} (he : e < 8) (h : o + n ≤ 1344) :
    fieldAt (frameBytes g cause addr tpc detail q) (256 + 1344 * e + o) n = fieldAt (q.getD e QEnt.empty).bytes o n := by
  have hchunk := fieldAt_chunk (fun e => length_entry (q.getD e QEnt.empty)) [] h (List.range 8) e e (List.getElem?_range he)
  rw [frameBytes_eq, Nat.add_assoc, fieldAt_append_right (length_frameHeader ..), ← List.append_nil (List.flatMap _ _), hchunk]

end

/-- The parts of an entry's bytes. -/
theorem entry_bytes (e : QEnt) : e.bytes = leBytes 4 e.word.toNat ++ (leBytes 4 e.efl ++ (leBytes 4 e.pre.toNat ++ (leBytes 4 0 ++ (leBytes 8 e.epc.toNat ++
    (leBytes 4 e.lanes.toNat ++ (leBytes 4 0 ++ (leBytes 8 e.pix ++ (leBytes 24 0 ++ (wordBytes 32 e.opa ++ (wordBytes 128 e.opb ++ [])))))))))) := by
  simp only [QEnt.bytes, List.append_assoc, List.append_nil]

theorem entry_fields (x : QEnt) :
    fieldAt x.bytes 0 4 = x.word.toNat ∧ fieldAt x.bytes 8 4 = x.pre.toNat ∧ fieldAt x.bytes 12 4 = 0 ∧ fieldAt x.bytes 16 8 = x.epc.toNat ∧
      fieldAt x.bytes 24 4 = x.lanes.toNat ∧ fieldAt x.bytes 28 4 = 0 ∧ fieldAt x.bytes 40 24 = 0 := by
  rw [entry_bytes]
  refine ⟨?_, ?_, ?_, ?_, ?_, ?_, ?_⟩ <;> simp (disch := decide) only [fieldAt_skip, Nat.reduceSub, Nat.sub_self, fieldAt_word, fieldAt_zero]

theorem entry_opa (x : QEnt) {l : Nat} (hl : l < 32) : fieldAt x.bytes (64 + 8 * l) 8 = (x.opa.getD l 0).toNat := by
  rw [entry_bytes, ← fieldAt_wordBytes hl x.opa (wordBytes 128 x.opb ++ [])]
  simp (disch := omega) only [fieldAt_skip]
  congr 1
  omega

theorem entry_opb (x : QEnt) {l : Nat} (hl : l < 128) : fieldAt x.bytes (320 + 8 * l) 8 = (x.opb.getD l 0).toNat := by
  rw [entry_bytes, ← (fieldAt_append_right (length_wordBytes 32 x.opa) (8 * l) 8).trans (fieldAt_wordBytes hl x.opb [])]
  simp (disch := omega) only [fieldAt_skip]
  congr 1
  omega

section
variable (g : Group) (cause addr tpc detail : Word) (n : Nat)

/-- The slots and the registers of the header. -/
theorem header_slots (ha : g.slotA.wb < 2 ^ 32) (hb : g.slotB.wb < 2 ^ 32) :
    let f := frameHeader g cause addr tpc detail n
    fieldAt f 0 8 = g.slotA.pc.toNat ∧ fieldAt f 8 8 = g.slotB.pc.toNat ∧ fieldAt f 16 4 = g.slotA.mask.toNat ∧ fieldAt f 20 4 = g.slotB.mask.toNat ∧
      fieldAt f 24 4 = g.slotA.wb ∧ fieldAt f 28 4 = g.slotB.wb ∧ fieldAt f 32 8 = g.mode.toNat ∧ fieldAt f 40 8 = g.flags.toNat ∧
      fieldAt f 48 8 = g.flagen.toNat := by
  intro f
  refine ⟨?_, ?_, ?_, ?_, ?_, ?_, ?_, ?_, ?_⟩
  case refine_5 =>
    simp (disch := decide) only [f, frameHeader, fieldAt_skip, Nat.reduceSub, Nat.sub_self, fieldAt_first]
    omega
  case refine_6 =>
    simp (disch := decide) only [f, frameHeader, fieldAt_skip, Nat.reduceSub, Nat.sub_self, fieldAt_first]
    omega
  all_goals simp (disch := decide) only [f, frameHeader, fieldAt_skip, Nat.reduceSub, Nat.sub_self, fieldAt_word]

/-- The report and the counts of the header. -/
theorem header_report (hn : n ≤ 8) (ht : g.traps.length < 4) :
    let f := frameHeader g cause addr tpc detail n
    fieldAt f 56 8 = cause.toNat ∧ fieldAt f 64 8 = addr.toNat ∧ fieldAt f 72 8 = tpc.toNat ∧ fieldAt f 80 8 = detail.toNat ∧ fieldAt f 88 1 = n ∧
      fieldAt f 89 1 = g.traps.length + 1 ∧ fieldAt f 90 1 = (if g.slotA.resume then 1 else 0) + (if g.slotB.resume then 2 else 0) ∧
      fieldAt f 91 5 = 0 ∧ fieldAt f 96 8 = g.pix.toNat := by
  intro f
  refine ⟨?_, ?_, ?_, ?_, ?_, ?_, ?_, ?_, ?_⟩
  case refine_5 =>
    simp (disch := decide) only [f, frameHeader, fieldAt_skip, Nat.reduceSub, Nat.sub_self, fieldAt_first]
    omega
  case refine_6 =>
    simp (disch := decide) only [f, frameHeader, fieldAt_skip, Nat.reduceSub, Nat.sub_self, fieldAt_first]
    omega
  case refine_7 =>
    simp (disch := decide) only [f, frameHeader, fieldAt_skip, Nat.reduceSub, Nat.sub_self, fieldAt_first]
    cases g.slotA.resume <;> cases g.slotB.resume <;> rfl
  all_goals simp (disch := decide) only [f, frameHeader, fieldAt_skip, Nat.reduceSub, Nat.sub_self, fieldAt_word, fieldAt_zero]

/-- The invocation's vector and what follows it. -/
theorem header_ivec :
    let f := frameHeader g cause addr tpc detail n
    (∀ k, k < 5 → fieldAt f (104 + 8 * k) 8 = (g.ivec.getD k 0).toNat) ∧ fieldAt f 144 112 = 0 := by
  intro f
  refine ⟨fun k hk => ?_, ?_⟩
  · rw [← fieldAt_wordBytes hk g.ivec (leBytes 112 0)]
    simp (disch := omega) only [f, frameHeader, fieldAt_skip]
    congr 1
    omega
  · simp (disch := decide) only [f, frameHeader, fieldAt_skip, Nat.reduceSub]
    rw [show (40 : Nat) = 8 * 5 + 0 from rfl, fieldAt_append_right (length_wordBytes 5 g.ivec), ← List.append_nil (leBytes 112 0), fieldAt_zero]

end

/-- Settles O25: the header's fields by `header_slots`, `header_report` and `header_ivec`, an entry's by `fieldAt_entry`. -/
theorem trapFrame : Obligations.TrapFrame := by
  unfold Obligations.TrapFrame
  intro g cause addr tpc detail q ht hq ha hb _
  obtain ⟨h1, h2, h3, h4, h5, h6, h7, h8, h9⟩ := header_slots g cause addr tpc detail q.length ha hb
  obtain ⟨k1, k2, k3, k4, k5, k6, k7, k8, k9⟩ := header_report g cause addr tpc detail q.length hq ht
  obtain ⟨m1, m2⟩ := header_ivec g cause addr tpc detail q.length
  intro f at_
  have hlen : f.length = 11008 := length_frameBytes ..
  have hh : ∀ {o n : Nat}, o + n ≤ 256 → at_ o n = fieldAt (frameHeader g cause addr tpc detail q.length) o n := fun h => fieldAt_header h
  have hent : ∀ {e o n : Nat}, e < 8 → o + n ≤ 1344 → at_ (256 + 1344 * e + o) n = fieldAt (q.getD e QEnt.empty).bytes o n :=
    fun he h => fieldAt_entry he h
  clear_value at_ f
  refine ⟨hlen, (hh (by decide)).trans h1, (hh (by decide)).trans h2, (hh (by decide)).trans h3, (hh (by decide)).trans h4,
    (hh (by decide)).trans h5, (hh (by decide)).trans h6, (hh (by decide)).trans h7, (hh (by decide)).trans h8, (hh (by decide)).trans h9,
    (hh (by decide)).trans k1, (hh (by decide)).trans k2, (hh (by decide)).trans k3, (hh (by decide)).trans k4, (hh (by decide)).trans k5,
    (hh (by decide)).trans k6, (hh (by decide)).trans k7, (hh (by decide)).trans k8, (hh (by decide)).trans k9,
    fun k hk => (hh (by omega)).trans (m1 k hk), (hh (by decide)).trans m2, fun e he => ?_⟩
  have he8 := Nat.lt_of_lt_of_le he hq
  obtain ⟨e1, e2, e3, e4, e5, e6, e7⟩ := entry_fields (q.getD e QEnt.empty)
  refine ⟨(hent he8 (o := 0) (n := 4) (by decide)).trans e1, (hent he8 (by decide)).trans e2, (hent he8 (by decide)).trans e3, (hent he8 (by decide)).trans e4,
    (hent he8 (by decide)).trans e5, (hent he8 (by decide)).trans e6, (hent he8 (by decide)).trans e7, fun l hl => ?_, fun l hl => ?_⟩
  · rw [Nat.add_assoc]
    exact (hent he8 (by omega)).trans (entry_opa _ hl)
  · rw [Nat.add_assoc]
    exact (hent he8 (by omega)).trans (entry_opb _ hl)

end Sys2Proof.Proofs.TrapFrames
end

section
/-! SUPPORT. A trap of a group with no memory instruction in its queue, and the wait for a pin that holds its entry back (R249, R393): O24. -/

namespace Sys2Proof.Proofs.TrapEntry

open Sys2Proof Sys2Proof.Machine Sys2Proof.Laws Sys2Proof.Proofs.PlaneIssues

/-! ## No memory instruction in the queue -/

section
variable {s : State} {gr : GRef} {g : Group} (hg : s.group? gr = some g) (hm : g.memq = [])
include hg hm

theorem acceptNext_empty (n : Nat) : s.acceptNext gr n = (s, none) := by
  unfold State.acceptNext
  cases hb : s.block? gr.blk with
  | none => rfl
  | some b => simp only [hg, hm, List.find?_nil]

theorem acceptAll_empty (n : Nat) : s.acceptAll gr (n + 1) = (s, none) := by
  unfold State.acceptAll
  rw [acceptNext_empty hg hm]
  simp only [hg, hm, List.all_nil, if_true]

theorem performAccepted_empty : s.performAccepted gr = s := by
  unfold State.performAccepted
  simp only [hg, hm, List.filter_nil, List.foldl_nil]

theorem raise_empty (slotB past : Bool) (tpc : Word) (t : Trap) : s.raise gr slotB past tpc t [] =
    s.ifPinned gr ((if past then s.modGroup gr fun g => g.modSlot slotB fun x => { x with pc := x.pc + 4, modex := none } else s).takeTrap gr slotB tpc t
      ⟨none, []⟩ []) := by
  unfold State.raise
  rw [acceptAll_empty hg hm]
  simp only [hg, hm, Option.map_some, List.all_nil, Option.getD_some, Bool.not_true, Bool.false_eq_true, if_false]
  rfl

end

/-! ## An abort -/

theorem pins_abortBlock (s : State) (id cause grp : Nat) (pc : Word) : (s.abortBlock id cause grp pc).pins = s.pins := by
  unfold State.abortBlock
  split
  · rfl
  · split
    · simp only
      split <;> rfl
    · rfl

/-- A group that cannot enter a handler aborts its block. -/
theorem takeTrap_aborts {s : State} {gr : GRef} {b : Block} {g : Group} (hb : s.block? gr.blk = some b) (hg : s.group? gr = some g)
    (h : b.handler.isSome = true ∨ 4 ≤ g.traps.length ∨ ((s.ctx? b.ctx).map (·.hvec)).getD 0 = 0 ∨ g.dstkp.toNat < g.stkBase.toNat + 11008)
    (slotB : Bool) (tpc : Word) (t : Trap) (k : Kept) (q : List QEnt) :
    s.takeTrap gr slotB tpc t k q = s.abortBlock b.id t.cause.code gr.grp tpc := by
  have hvec : (match s.ctx? b.ctx with | some c => c.hvec | none => 0) = ((s.ctx? b.ctx).map (·.hvec)).getD 0 := by cases s.ctx? b.ctx <;> rfl
  unfold State.takeTrap
  simp only [hb, hg]
  cases g.trapSlot slotB with
  | none => rfl
  | some sb =>
    refine if_pos ?_
    simp only [Bool.or_eq_true, decide_eq_true_eq, beq_iff_eq]
    rcases h with h | h | h | h
    · exact .inl (.inl (.inl h))
    · exact .inl (.inl (.inr h))
    · exact .inl (.inr (hvec.trans h))
    · exact .inr h

/-! ## A full slice holds the abort back -/

theorem block?_pinRelease {s : State} {gr : GRef} {b : Block} {g : Group} (hb : s.block? gr.blk = some b) (hg : s.group? gr = some g)
    (hm : g.memq = []) : (s.pinRelease gr).block? gr.blk = some (b.modGroup gr.grp Group.release) := by
  unfold State.pinRelease
  simp only [hg, performAccepted_empty hg hm]
  exact block?_modGroup_self (s := s.unpin g.agent) _ hb

/-- Where a slice pins too many lines, a trap that would abort the block releases instead, and the block stands. -/
theorem ill_releases {s : State} {i : Iss} (h : s.issue? = some i) (hm : i.g.memq = []) (hp : s.overPinned = true)
    (hc : i.b.handler.isSome = true ∨ 4 ≤ i.g.traps.length ∨ ((i.s.ctx? i.b.ctx).map (·.hvec)).getD 0 = 0 ∨ i.g.dstkp.toNat < i.g.stkBase.toNat + 11008)
    (ones : Bool) (v : BitVec 24) :
    ∃ t, exec (.ill ones v) s = .next t ∧ t.block? i.gr.blk = some (i.b.modGroup i.gr.grp Group.release) := by
  obtain ⟨rfl, hb, hg⟩ := issue_facts h
  refine ⟨_, run_eq h rfl, ?_⟩
  have habort := takeTrap_aborts hb hg hc i.slotB i.reported (illopTrap 1) ⟨none, []⟩ []
  have hraise : i.conclude (.trap (illopTrap 1)) = i.s.pinRelease i.gr := by
    show i.s.raise i.gr i.slotB false i.reported (illopTrap 1) [] = _
    rw [raise_empty hg hm, if_neg Bool.false_ne_true, habort]
    refine if_pos ?_
    unfold State.overPinned at hp ⊢
    unfold State.pinRoom at hp ⊢
    rwa [pins_abortBlock]
  rw [hraise]
  exact block?_pinRelease hb hg hm

/-- One line more than a slice pins: all of them at multiples of 2^23, in slice 0, and pinned by an agent that is no group. -/
def crowd : List (Nat × Nat) := (List.range 8193).map fun k => (2 ^ 23 * k, 2 ^ 20)

theorem sliceOf_crowd (k : Nat) : sliceOf (2 ^ 23 * k) = 0 := by
  have h11 : bits (2 ^ 23 * k) 11 6 = 0 := by unfold bits; omega
  have h17 : bits (2 ^ 23 * k) 17 6 = 0 := by unfold bits; omega
  rw [sliceOf, h11, h17]
  rfl

theorem overPinned_crowd {s : State} (h : s.pins = crowd) : s.overPinned = true := by
  have hlines : crowd.map (·.1) = (List.range 8193).map (2 ^ 23 * ·) := List.map_map
  generalize hl : (List.range 8193).map (2 ^ 23 * ·) = ls at hlines
  have hnodup : ls.Nodup := hl ▸ List.nodup_range.map fun a b hab => Nat.eq_of_mul_eq_mul_left (by decide) hab
  have hlen : ls.length = 8193 := by rw [← hl, List.length_map, List.length_range]
  have hslice : ∀ x ∈ ls, sliceOf x = 0 := by
    rw [← hl]
    intro x hx
    obtain ⟨k, -, rfl⟩ := List.mem_map.1 hx
    exact sliceOf_crowd k
  have hfilter : ∀ x ∈ ls, (ls ++ ls).filter (fun y => sliceOf y == sliceOf x) = ls ++ ls := fun x hx => by
    rw [List.filter_eq_self]
    intro y hy
    rw [hslice x hx, hslice y ((List.mem_append.1 hy).elim id id)]
    rfl
  have hfull : 8193 ≤ (ls ++ ls).dedup.length := by
    rw [← hlen]
    exact (hnodup.subperm fun x hx => List.mem_dedup.2 (List.mem_append_left _ hx)).length_le
  obtain ⟨x, hx⟩ : ∃ x, x ∈ ls := List.exists_mem_of_length_pos (by omega)
  have hcount : ¬ s.pins.length ≤ 8192 := by
    rw [h, crowd, List.length_map, List.length_range]
    decide
  unfold State.overPinned State.pinRoom
  rw [h, hlines, Bool.and_eq_true, decide_eq_true_eq, Bool.not_eq_true', List.all_eq_false]
  refine ⟨by rw [← h]; omega, x, hx, ?_⟩
  rw [hfilter x hx, decide_eq_true_eq]
  omega

/-- The placed program's group at an instruction, in a machine one of whose slices pins a line too many. -/
def crowded : State := { State.reset.bootTables.bootBlock with cur := some ⟨⟨1, 0⟩, false, 0⟩, pins := crowd }

theorem pins_crowded : crowded.pins = crowd := by
  unfold crowded
  generalize crowd = c
  rfl

/-- Refutes O24, in its clause about aborts: where a slice pins 8,193 lines, the trap's entry waits for room, as every entry does whose stores
would pin a line (`State.ifPinned`), and the group releases in place of aborting its block. -/
theorem not_trapsTaken : ¬ Obligations.TrapsTaken := by
  unfold Obligations.TrapsTaken
  rintro ⟨-, habort⟩
  obtain ⟨i, hi, hgr, hb, hstands, hm, hc⟩ : ∃ i, crowded.issue? = some i ∧ i.gr = ⟨1, 0⟩ ∧ crowded.block? 1 = some i.b ∧ i.b.aborted = false ∧
      i.g.memq = [] ∧ ((i.s.ctx? i.b.ctx).map (·.hvec)).getD 0 = 0 := ⟨_, rfl, rfl, rfl, by decide +kernel⟩
  obtain ⟨t, ht, htb⟩ := ill_releases hi hm (overPinned_crowd pins_crowded) (.inr (.inr (.inl hc))) false 0
  obtain ⟨u, b, hu, hub, haborted, -⟩ := habort crowded i false 0 hi hm (by rw [hgr]; exact hb) (.inr (.inr (.inl hc)))
  rw [ht] at hu
  cases hu
  rw [htb] at hub
  cases hub
  exact Bool.false_ne_true (hstands.symm.trans haborted)

end Sys2Proof.Proofs.TrapEntry
end

section
/-! SUPPORT. Messages between leaves (R355-R365): O42 and O43. -/

namespace Sys2Proof.Proofs.Messages

open Sys2Proof Sys2Proof.Machine Sys2Proof.Laws

/-! ## Handle slots -/

theorem hslot_key (s : State) (k : Nat) : (s.hslot k).key = k := by
  unfold State.hslot
  cases h : s.handles.find? fun x => x.key == k with
  | none => rfl
  | some x => simpa using List.find?_some h

theorem hslot_setHSlot_self (s : State) {x : HSlot} {k : Nat} (h : x.key = k) : (s.setHSlot x).hslot k = x := by
  unfold State.hslot State.setHSlot
  rw [List.find?_cons_of_pos (by simpa using h)]
  rfl

theorem hslot_setHSlot_ne (s : State) (x : HSlot) {k : Nat} (h : k ≠ x.key) : (s.setHSlot x).hslot k = s.hslot k := by
  have hfilter : (s.handles.filter fun y => y.key != x.key).find? (fun y => y.key == k) = s.handles.find? fun y => y.key == k := by
    rw [List.find?_filter]
    refine List.find?_congr fun y _ => ?_
    rcases Decidable.em (y.key = k) with hy | hy
    · simp [hy, h]
    · simp [hy]
  show ((x :: s.handles.filter fun y => y.key != x.key).find? fun y => y.key == k).getD _ = _
  rw [List.find?_cons_of_neg (p := fun y : HSlot => y.key == k) fun e => h (beq_iff_eq.1 e).symm, hfilter]
  rfl

/-! ## Messages sent one after another -/

theorem foldl_send {α : Type} (leaf : Nat) (dst : α → Nat) (body : α → MsgBody) (l : List α) (s : State) :
    l.foldl (fun s x => s.send leaf (dst x) (body x)) s = { s with msgs := s.msgs ++ l.map fun x => ⟨leaf, dst x, body x⟩ } := by
  induction l generalizing s with
  | nil => rw [List.foldl_nil, List.map_nil, List.append_nil]
  | cons x l ih =>
    rw [List.foldl_cons, ih, List.map_cons, State.send, List.append_assoc]
    rfl

theorem breakAll_eq (s : State) (leaf : Nat) (hs : List Word) (o : Word) (n : Nat) (c : Clock) :
    s.breakAll leaf hs o n c = { s with msgs := s.msgs ++ hs.map fun y => ⟨leaf, handleLeaf y, .brk y o n c⟩ } := foldl_send ..

theorem answerAll_eq (s : State) (leaf : Nat) (ws : List Waiter) (vals : List Word) (c : Clock) :
    s.answerAll leaf ws vals c = { s with msgs := s.msgs ++ ws.map fun w => ⟨leaf, w.leaf, .answer w.req vals c⟩ } := foldl_send ..

/-! ## A message arrives -/

/-- Message k may arrive now. -/
def Next (s : State) (k src dst : Nat) (m : MsgBody) : Prop :=
  s.msgs[k]? = some ⟨src, dst, m⟩ ∧ dst / 128 = s.pkg ∧ ∀ y ∈ s.msgs.take k, ¬ (y.src = src ∧ y.dst = dst)

theorem arrives {s : State} {k src dst : Nat} {m : MsgBody} (h : Next s k src dst m) (f : State → Msg → Option State) :
    s.onArrival k f = .next ((f { s with msgs := s.msgs.eraseIdx k } ⟨src, dst, m⟩).getD s) := by
  obtain ⟨hk, hpkg, hfirst⟩ := h
  have hall : (s.msgs.take k).all (fun x => x.src != src || x.dst != dst) = true := by
    rw [List.all_eq_true]
    intro y hy
    have := hfirst y hy
    simp only [Bool.or_eq_true, bne_iff_ne, ne_eq]
    exact Decidable.not_and_iff_or_not.1 this
  unfold State.onArrival State.arrival
  simp only [hk, hpkg, hall, and_self, if_true]

/-- The event of message k leaves u. -/
theorem arrival_next {s u : State} {k src dst : Nat} {m : MsgBody} (h : Next s k src dst m) {f : State → Msg → Option State}
    (hf : f { s with msgs := s.msgs.eraseIdx k } ⟨src, dst, m⟩ = some u) : s.onArrival k f = .next u := by
  rw [arrives h, hf]
  rfl

/-! ## An invocation at a handle's home -/

section
variable {s : State} {h : Word} {v : Inv} {via : List Word} {leaf : Nat}

theorem reach_fault {n : Nat} (hf : s.handleFault v.ctx h = some n) :
    s.reach leaf h v via none = { s with msgs := s.msgs ++ (via ++ [v.own]).map fun y => ⟨leaf, handleLeaf y, .brk y (via.getLast?.getD h) 0xFFFD v.clock⟩ } := by
  unfold State.reach
  simp only [hf, breakAll_eq]
  rfl

variable (hf : s.handleFault v.ctx h = none)
include hf

theorem reach_pending (hx : (s.hslot (handleKey h)).state = .pending) (hq : (s.hslot (handleKey h)).queue.length < 8) :
    s.reach leaf h v via none = s.setHSlot { s.hslot (handleKey h) with queue := (s.hslot (handleKey h)).queue ++ [v] } := by
  unfold State.reach
  simp only [hf, hx, hq, true_or, if_true]

theorem reach_forwarded {b : Word} (hx : (s.hslot (handleKey h)).state = .forwarded b) : s.reach leaf h v via none =
    if s.handleMalformed b then { s with msgs := s.msgs ++ (via ++ [h, v.own]).map fun y => ⟨leaf, handleLeaf y, .brk y h 0xFFFD v.clock⟩ }
    else s.send leaf (handleLeaf b) (.toHandle b v (via ++ [h]) none) := by
  unfold State.reach
  simp only [hf, hx, breakAll_eq]

theorem reach_resolved {r : Word} {p : Nat} (hx : (s.hslot (handleKey h)).state = .resolved r p) : s.reach leaf h v via none =
    s.send leaf p (.place { v with clock := clockJoin v.clock (s.hslot (handleKey h)).rel, through := some h } r) := by
  unfold State.reach
  simp only [hf, hx]

theorem reach_broken {o : Word} {n : Nat} (hx : (s.hslot (handleKey h)).state = .broken o n) : s.reach leaf h v via none =
    s.send leaf (handleLeaf v.own) (.brk v.own o n (s.hslot (handleKey h)).rel) := by
  unfold State.reach
  simp only [hf, hx]
  rfl

end

/-- The event of an invocation of a handle. -/
theorem toHandle_event {s : State} {k src dst : Nat} {h : Word} {v : Inv} {via : List Word} (hn : Next s k src dst (.toHandle h v via none)) {u : State}
    (hr : { s with msgs := s.msgs.eraseIdx k }.reach dst h v via none = u) :
    (if via = [] then exec (.invocationArrival k) s else exec (.forwardArrival k) s) = .next u := by
  subst hr
  cases via with
  | nil => exact (if_pos rfl).trans (arrival_next hn rfl)
  | cons y via => exact (if_neg (List.cons_ne_nil _ _)).trans (arrival_next hn rfl)

/-! ## A probe -/

/-- The slot of h notes the chain that has come through it. -/
def noted (s : State) (h : Word) (path : List Word) : State :=
  s.setHSlot { s.hslot (handleKey h) with sources := (s.hslot (handleKey h)).sources ++ path.filter fun p => !(s.hslot (handleKey h)).sources.contains p }

theorem hslot_noted (s : State) (h : Word) (path : List Word) : ((noted s h path).hslot (handleKey h)).state = (s.hslot (handleKey h)).state ∧
    ∀ y ∈ path, y ∈ ((noted s h path).hslot (handleKey h)).sources := by
  have hself := hslot_setHSlot_self s (x := { s.hslot (handleKey h) with
    sources := (s.hslot (handleKey h)).sources ++ path.filter fun p => !(s.hslot (handleKey h)).sources.contains p }) (hslot_key s (handleKey h))
  unfold noted
  rw [hself]
  refine ⟨rfl, fun y hy => ?_⟩
  by_cases hmem : (s.hslot (handleKey h)).sources.contains y = true
  · exact List.mem_append_left _ (List.contains_iff_mem.1 hmem)
  · exact List.mem_append_right _ (List.mem_filter.2 ⟨hy, by simpa using hmem⟩)

section
variable {s : State} {k src dst : Nat} {o h : Word} {path : List Word} (hn : Next s k src dst (.probe o h path))
include hn

theorem probe_back (he : h = o) : ∃ t, exec (.forwardProbe k) s = .next t ∧
    t.msgs = s.msgs.eraseIdx k ++ path.map fun y => ⟨dst, handleLeaf y, .brk y o 0xFFFF []⟩ := by
  refine ⟨_, arrival_next hn ((if_pos he).trans rfl), ?_⟩
  rw [breakAll_eq]

/-- The probe goes on, or the chain is too long. -/
theorem probe_goes {b : Word} (he : h ≠ o) (hc : s.current h = true) (hx : (s.hslot (handleKey h)).state = .forwarded b) (hb : s.handleMalformed b = false) :
    exec (.forwardProbe k) s = .next (if 255 < path.length + 1 then (noted { s with msgs := s.msgs.eraseIdx k } h path).breakAll dst (path ++ [h]) o 0xFFFF []
      else (noted { s with msgs := s.msgs.eraseIdx k } h path).send dst (handleLeaf b) (.probe o b (path ++ [h]))) := by
  refine arrival_next hn ?_
  generalize hu : ({ s with msgs := s.msgs.eraseIdx k } : State) = u
  have hx' : (u.hslot (handleKey h)).state = .forwarded b := hu ▸ hx
  have hc' : u.current h = true := hu ▸ hc
  have hb' : (noted u h path).handleMalformed b = false := hu ▸ hb
  refine (if_neg he).trans ?_
  rw [hx']
  refine (if_neg (by rw [hc']; exact Bool.false_ne_true)).trans ?_
  refine (if_neg (Bool.eq_false_iff.1 hb')).trans ?_
  split <;> rfl

end

/-- Settles O42: `toHandle_event` with the lemma of the slot's state; a probe by `probe_goes`. -/
theorem invocationsArrive : Obligations.InvocationsArrive := by
  unfold Obligations.InvocationsArrive
  intro s k src dst h v via x u next event
  refine ⟨fun s3 hn => arrival_next hn rfl, fun hn => ⟨fun hf => ⟨fun hx hq => ?_, fun b hx hb => ?_, fun b hx hb => ?_, fun r p hx => ?_, fun o n hx => ?_⟩,
    fun n hf => ?_⟩, fun o path hn => ⟨fun he => probe_back hn he, fun he hc b hx => ⟨fun hb hp => ?_, fun hb hp => ?_⟩⟩⟩
  · exact toHandle_event hn (reach_pending (s := u) hf hx hq)
  · exact toHandle_event hn ((reach_forwarded (s := u) hf hx).trans (if_neg (Bool.eq_false_iff.1 hb)))
  · exact ⟨_, toHandle_event hn ((reach_forwarded (s := u) hf hx).trans (if_pos hb)), rfl, rfl⟩
  · exact toHandle_event hn (reach_resolved (s := u) hf hx)
  · exact toHandle_event hn (reach_broken (s := u) hf hx)
  · exact ⟨_, toHandle_event hn (reach_fault (s := u) hf), rfl, rfl⟩
  · have hrun := probe_goes hn he hc hx hb
    rw [if_neg (by omega)] at hrun
    exact ⟨_, hrun, rfl, hslot_noted u h path⟩
  · have hrun := probe_goes hn he hc hx hb
    rw [if_pos (by omega), breakAll_eq] at hrun
    exact ⟨_, hrun, rfl⟩

end Sys2Proof.Proofs.Messages
end

section
/-! SUPPORT. What settles a handle's slot, and what its home answers (R358-R364): O43. -/

namespace Sys2Proof.Proofs.Settling

open Sys2Proof Sys2Proof.Machine Sys2Proof.Laws Sys2Proof.Proofs.Messages

/-! ## A slot settles -/

/-- The leaf of a slot's cluster. -/
def homeLeaf (s : State) (key : Nat) : Nat := s.pkg * 128 + key / 4096

/-- The slot of a key as it settles: nothing waits in it any more. -/
def settledSlot (x : HSlot) (st : HState) (c : Clock) : HSlot := { x with state := st, waiters := [], queue := [], rel := clockJoin x.rel c }

/-- The machine with a slot settled and messages sent. -/
def settled (s : State) (key : Nat) (st : HState) (c : Clock) (ms : List Msg) : State :=
  { s.setHSlot (settledSlot (s.hslot key) st c) with msgs := s.msgs ++ ms }

theorem hslot_settled (s : State) (key : Nat) (st : HState) (c : Clock) (ms : List Msg) :
    (settled s key st c ms).hslot key = settledSlot (s.hslot key) st c :=
  hslot_setHSlot_self s (x := settledSlot (s.hslot key) st c) (hslot_key s key)

theorem hslot_settled_ne (s : State) {key n : Nat} (st : HState) (c : Clock) (ms : List Msg) (h : n ≠ key) :
    (settled s key st c ms).hslot n = s.hslot n :=
  hslot_setHSlot_ne s (settledSlot (s.hslot key) st c) (by rw [show (settledSlot (s.hslot key) st c).key = key from hslot_key s key]; exact h)

/-- Invocations that start at a place, sent one after another. -/
theorem foldl_start (leaf p : Nat) (x : HSlot) (v : Word) (c : Clock) (l : List Inv) (s : State) :
    l.foldl (fun s i => s.send leaf p (.place { i with clock := clockJoin i.clock c, through := some (s.ownWord x) } v)) s =
      { s with msgs := s.msgs ++ l.map fun i => ⟨leaf, p, .place { i with clock := clockJoin i.clock c, through := some (s.ownWord x) } v⟩ } := by
  induction l generalizing s with
  | nil => rw [List.foldl_nil, List.map_nil, List.append_nil]
  | cons i l ih =>
    rw [List.foldl_cons, ih, List.map_cons, State.send, List.append_assoc]
    rfl

theorem resolveSlot_eq (s : State) (key : Nat) (v : Word) (p : Nat) (c : Clock) : s.resolveSlot key v p c =
    settled s key (.resolved v p) c ((s.hslot key).waiters.map (fun y => ⟨homeLeaf s key, y.leaf, .answer y.req [v, 0] (clockJoin (s.hslot key).rel c)⟩) ++
      (s.hslot key).queue.map fun i => ⟨homeLeaf s key, p, .place { i with clock := clockJoin i.clock c, through := some (s.ownWord (s.hslot key)) } v⟩) := by
  unfold State.resolveSlot
  simp only [answerAll_eq, foldl_start]
  unfold settled
  rw [← List.append_assoc]
  rfl

theorem breakSlot_eq (s : State) (key : Nat) (o : Word) (n : Nat) (c : Clock) : s.breakSlot key o n c =
    settled s key (.broken o n) c ((s.hslot key).waiters.map (fun y => ⟨homeLeaf s key, y.leaf, .answer y.req [o, BitVec.ofNat 64 n] (clockJoin (s.hslot key).rel c)⟩) ++
      ((s.hslot key).queue.map (·.own) ++ if n = 0xFFFD ∧ o = s.ownWord (s.hslot key) then (s.hslot key).sources else []).map fun y =>
        ⟨homeLeaf s key, handleLeaf y, .brk y o n (clockJoin (s.hslot key).rel c)⟩) := by
  unfold State.breakSlot
  simp only [answerAll_eq, foldl_send]
  unfold settled
  rw [← List.append_assoc]
  rfl

theorem forwardSlot_eq (s : State) (key : Nat) (own : Word) {b : Word} (c : Clock) (hb : s.handleMalformed b = false) : s.forwardSlot key own b c =
    settled s key (.forwarded b) c ((s.hslot key).queue.map (fun i => ⟨homeLeaf s key, handleLeaf b, .toHandle b { i with clock := clockJoin i.clock c } [own] none⟩) ++
      (s.hslot key).waiters.map (fun y => ⟨homeLeaf s key, handleLeaf b, .wait b y [own]⟩) ++ [⟨homeLeaf s key, handleLeaf b, .probe own b [own]⟩]) := by
  unfold State.forwardSlot
  simp only [hb, Bool.false_eq_true, if_false, foldl_send]
  unfold settled State.send
  rw [← List.append_assoc, ← List.append_assoc]
  rfl

/-- The event of a message leaves its handle's slot settled. -/
theorem settles {s : State} {k : Nat} {e : Instr} {key : Nat} {st : HState} {c : Clock} {ms : List Msg}
    (h : exec e s = .next (settled { s with msgs := s.msgs.eraseIdx k } key st c ms)) : ∃ t, exec e s = .next t ∧
      t.hslot key = { s.hslot key with state := st, waiters := [], queue := [], rel := clockJoin (s.hslot key).rel c } ∧
      (∀ n, n ≠ key → t.hslot n = s.hslot n) ∧ t.msgs = s.msgs.eraseIdx k ++ ms ∧ t.pendH = s.pendH ∧ t.blocks = s.blocks ∧ t.mem = s.mem :=
  ⟨_, h, hslot_settled { s with msgs := s.msgs.eraseIdx k } key st c ms,
    fun _ hn => hslot_settled_ne { s with msgs := s.msgs.eraseIdx k } st c ms hn, rfl, rfl, rfl, rfl⟩

/-! ## The messages that settle a slot -/

section
variable {s : State} {k src dst : Nat} {h : Word} {c : Clock}

theorem resolution_settles {v : Word} {p : Nat} (hn : Next s k src dst (.resolve h v p c)) (hc : s.current h = true)
    (hx : (s.hslot (handleKey h)).state = .pending) :
    exec (.resolutionArrival k) s = .next (({ s with msgs := s.msgs.eraseIdx k } : State).resolveSlot (handleKey h) v p c) := by
  refine arrival_next hn (congrArg some (if_pos ?_))
  have hp : (s.hslot (handleKey h)).isPending = true := by rw [HSlot.isPending, hx]
  exact Bool.and_eq_true_iff.2 ⟨hc, hp⟩

theorem forward_settles {b : Word} (hn : Next s k src dst (.forward h b c)) (hc : s.current h = true)
    (hx : (s.hslot (handleKey h)).state = .pending) :
    exec (.forwardArrival k) s = .next (({ s with msgs := s.msgs.eraseIdx k } : State).forwardSlot (handleKey h) h b c) := by
  refine arrival_next hn (congrArg some (if_pos ?_))
  have hp : (s.hslot (handleKey h)).isPending = true := by rw [HSlot.isPending, hx]
  exact Bool.and_eq_true_iff.2 ⟨hc, hp⟩

/-- Whether a break with root n settles a slot of a state. -/
def opens (x : HState) (n : Nat) : Bool :=
  match x with
  | .pending => true
  | .forwarded _ => n == 0xFFFD || n == 0xFFFF || n == 0xFFFC
  | _ => false

theorem break_arrives {o : Word} {n : Nat} (hn : Next s k src dst (.brk h o n c)) : exec (.breakArrival k) s = .next
    (if s.current h && opens (s.hslot (handleKey h)).state n then ({ s with msgs := s.msgs.eraseIdx k } : State).breakSlot (handleKey h) o n c
      else { s with msgs := s.msgs.eraseIdx k }) := by
  refine arrival_next hn ?_
  have hopen : opens (s.hslot (handleKey h)).state n = (match (({ s with msgs := s.msgs.eraseIdx k } : State).hslot (handleKey h)).state with
      | .pending => true
      | .forwarded _ => n == 0xFFFD || n == 0xFFFF || n == 0xFFFC
      | _ => false) := rfl
  rw [hopen]
  rfl

end

/-! ## HWAIT at its home -/

section
variable {s : State} {h : Word} {w : Waiter} {via : List Word} {leaf : Nat} (hf : s.handleFault w.ctx h = none)
include hf

theorem register_pending (hx : (s.hslot (handleKey h)).state = .pending) : s.register leaf h w via =
    s.setHSlot { s.hslot (handleKey h) with waiters := (s.hslot (handleKey h)).waiters ++ [w] } := by
  unfold State.register
  simp only [hf, hx]

theorem register_forwarded {b : Word} (hx : (s.hslot (handleKey h)).state = .forwarded b) (hb : s.handleMalformed b = false) :
    s.register leaf h w via = s.send leaf (handleLeaf b) (.wait b w (via ++ [h])) := by
  unfold State.register
  simp only [hf, hx, hb, Bool.false_eq_true, if_false]

theorem register_resolved {v : Word} {p : Nat} (hx : (s.hslot (handleKey h)).state = .resolved v p) :
    s.register leaf h w via = s.send leaf w.leaf (.answer w.req [v, 0] (s.hslot (handleKey h)).rel) := by
  unfold State.register
  simp only [hf, hx]

theorem register_broken {o : Word} {n : Nat} (hx : (s.hslot (handleKey h)).state = .broken o n) :
    s.register leaf h w via = s.send leaf w.leaf (.answer w.req [o, BitVec.ofNat 64 n] (s.hslot (handleKey h)).rel) := by
  unfold State.register
  simp only [hf, hx]

end

/-- The event of an HWAIT at its home. -/
theorem wait_event {s : State} {k src dst : Nat} {h : Word} {w : Waiter} {via : List Word} (hn : Next s k src dst (.wait h w via)) {u : State}
    (hr : ({ s with msgs := s.msgs.eraseIdx k } : State).register dst h w via = u) : exec (.hwaitRegistration k) s = .next u :=
  arrival_next hn (congrArg some hr)

/-! ## An answer at its group -/

/-- What an answer to request r leaves of a slot. -/
def answered (r : Nat) (vals : List Word) (c : Clock) (x : Slot) : Slot := if x.awaits r then { x with answer := some (vals, c) } else x

theorem awaits_handle {x : Slot} {r : Nat} {y : Word} (h : x.wait = some (.handle r y)) : x.awaits r = true := by
  rw [Slot.awaits, h]
  exact beq_self_eq_true r

theorem not_awaits {x : Slot} {r : Nat} (h1 : ∀ y, x.wait ≠ some (.handle r y)) (h2 : ∀ y n, x.wait ≠ some (.answer r y n)) : x.awaits r = false := by
  unfold Slot.awaits
  split
  next j y hw =>
    simp only [beq_eq_false_iff_ne]
    rintro rfl
    exact h1 y hw
  next j y n hw =>
    simp only [beq_eq_false_iff_ne]
    rintro rfl
    exact h2 y n hw
  next => rfl

/-- The group that an answer reaches: its slots alone may have changed. -/
def answeredGroup (r : Nat) (vals : List Word) (c : Clock) (g : Group) : Group :=
  { g with slotA := answered r vals c g.slotA, slotB := answered r vals c g.slotB }

theorem slot_answeredGroup (r : Nat) (vals : List Word) (c : Clock) (g : Group) (sb : Bool) :
    (answeredGroup r vals c g).slot sb = answered r vals c (g.slot sb) := by cases sb <;> rfl

theorem group?_deliver (s : State) (r : Nat) (vals : List Word) (c : Clock) (gr : GRef) :
    (s.deliver r vals c).group? gr = (s.group? gr).map (answeredGroup r vals c) := by
  have hblock : (s.deliver r vals c).block? gr.blk = (s.block? gr.blk).map fun b => { b with groups := b.groups.map (answeredGroup r vals c) } := by
    show (s.blocks.map fun b => ({ b with groups := b.groups.map (answeredGroup r vals c) } : Block)).find? _ = _
    rw [List.find?_map]
    rfl
  unfold State.group?
  rw [hblock]
  cases s.block? gr.blk with
  | none => rfl
  | some b => exact List.getElem?_map

/-! ## A slot freed -/

theorem freeHandle_fault {s : State} {ctx n : Nat} {h : Word} (hf : s.handleFault ctx h = some n) : s.freeHandle ctx h = .error n := by
  unfold State.freeHandle
  rw [hf]

theorem freeHandle_busy {s : State} {ctx : Nat} {h : Word} (hf : s.handleFault ctx h = none)
    (hx : (s.hslot (handleKey h)).state = .pending ∨ (s.hslot (handleKey h)).queue ≠ []) : s.freeHandle ctx h = .error 5 := by
  have hbusy : ((s.hslot (handleKey h)).isPending || !(s.hslot (handleKey h)).queue.isEmpty) = true := by
    rw [Bool.or_eq_true]
    refine hx.imp (fun hx => ?_) fun hq => ?_
    · rw [HSlot.isPending, hx]
    · simpa using hq
  unfold State.freeHandle
  simp only [hf, hbusy, if_true]

theorem freeHandle_frees {s : State} {ctx : Nat} {h : Word} (hf : s.handleFault ctx h = none) (hx : (s.hslot (handleKey h)).state ≠ .pending)
    (hq : (s.hslot (handleKey h)).queue = []) : s.freeHandle ctx h = .ok (s.setHSlot (s.hslot (handleKey h)).freed) := by
  have hidle : (s.hslot (handleKey h)).isPending = false := by
    unfold HSlot.isPending
    split
    next hp => exact absurd hp hx
    next => rfl
  unfold State.freeHandle
  simp only [hf, hidle, hq, List.isEmpty_nil, Bool.not_true, Bool.or_self, Bool.false_eq_true, if_false]

/-- A freed slot is FREE at its next generation, and every other slot stands. -/
theorem hslot_freed (s : State) (key : Nat) :
    ((s.setHSlot (s.hslot key).freed).hslot key = (s.hslot key).freed) ∧ ∀ n, n ≠ key → (s.setHSlot (s.hslot key).freed).hslot n = s.hslot n := by
  have hkey : (s.hslot key).freed.key = key := hslot_key s key
  exact ⟨hslot_setHSlot_self s hkey, fun n hn => hslot_setHSlot_ne s _ (by rw [hkey]; exact hn)⟩

section
variable {s : State} {k src dst : Nat} {h : Word} {w : Waiter} (hn : Next s k src dst (.free h w))
include hn

theorem free_refused {n : Nat} (hf : s.freeHandle w.ctx h = .error n) :
    exec (.hfreeArrival k) s = .next (({ s with msgs := s.msgs.eraseIdx k } : State).send dst w.leaf (.refuse w.req n)) := by
  have hf' : ({ s with msgs := s.msgs.eraseIdx k } : State).freeHandle w.ctx h = .error n := by
    unfold State.freeHandle at hf ⊢
    show (match s.handleFault w.ctx h with | some n => _ | none => _) = _
    cases hx : s.handleFault w.ctx h with
    | some m =>
      rw [hx] at hf
      exact hf
    | none =>
      rw [hx] at hf
      simp only at hf ⊢
      split at hf
      next hc =>
        cases hf
        exact if_pos hc
      next => cases hf
  refine arrival_next hn ?_
  simp only [hf']

theorem free_answered (hf : s.handleFault w.ctx h = none) (hx : (s.hslot (handleKey h)).state ≠ .pending) (hq : (s.hslot (handleKey h)).queue = []) :
    exec (.hfreeArrival k) s = .next ((({ s with msgs := s.msgs.eraseIdx k } : State).setHSlot (s.hslot (handleKey h)).freed).send dst w.leaf (.answer w.req [] [])) := by
  have hfree := freeHandle_frees (s := { s with msgs := s.msgs.eraseIdx k }) hf hx hq
  refine arrival_next hn ?_
  simp only [hfree]
  rfl

end

theorem query_answered {s : State} {k src dst : Nat} {h : Word} {w : Waiter} (hn : Next s k src dst (.query h w)) (hf : s.handleFault w.ctx h = none) :
    exec (.homeAnswer k) s = .next (({ s with msgs := s.msgs.eraseIdx k } : State).send dst w.leaf (.answer w.req [(s.hslot (handleKey h)).word, 0] [])) := by
  have hf' : ({ s with msgs := s.msgs.eraseIdx k } : State).handleFault w.ctx h = none := hf
  refine arrival_next hn ?_
  simp only [hf']
  rfl

theorem query_refused {s : State} {k src dst n : Nat} {h : Word} {w : Waiter} (hn : Next s k src dst (.query h w)) (hf : s.handleFault w.ctx h = some n) :
    exec (.homeAnswer k) s = .next (({ s with msgs := s.msgs.eraseIdx k } : State).send dst w.leaf (.refuse w.req n)) := by
  have hf' : ({ s with msgs := s.msgs.eraseIdx k } : State).handleFault w.ctx h = some n := hf
  refine arrival_next hn ?_
  simp only [hf']

/-- Settles O43: the settling messages by `settles`; an HWAIT, an answer, a query and a free by the lemma of each. -/
theorem handlesSettle : Obligations.HandlesSettle := by
  unfold Obligations.HandlesSettle
  intro s k src dst h c w x here u rel next settles'
  refine ⟨fun hc hx => ⟨fun v p hn => ?_, fun b hn hb => ?_⟩, fun o n hc hx hn => ?_, fun o n hx h1 h2 h3 hn => ?_, fun via hn hf => ⟨fun hx => ?_,
    fun b hx hb => ?_, fun v p hx => ?_, fun o n hx => ?_⟩, fun r vals hn hr => ?_, fun hn hf => ?_, fun hn n hf => ?_, fun hn => ⟨fun n hf => ?_,
    fun hf hx => ?_, fun hf hx hq => ?_⟩⟩
  · exact settles ((resolution_settles hn hc hx).trans (congrArg _ (resolveSlot_eq u (handleKey h) v p c)))
  · exact settles ((forward_settles hn hc hx).trans (congrArg _ (forwardSlot_eq u (handleKey h) h c hb)))
  · have hopen : opens x.state n = true := by
      rcases hx with hx | ⟨⟨b, hx⟩, hn⟩
      · rw [hx]
        rfl
      · rw [hx]
        rcases hn with rfl | rfl | rfl <;> rfl
    refine settles ((break_arrives hn).trans ?_)
    rw [if_pos (Bool.and_eq_true_iff.2 ⟨hc, hopen⟩)]
    exact congrArg _ (breakSlot_eq u (handleKey h) o n c)
  · obtain ⟨b, hx⟩ := hx
    refine (break_arrives hn).trans (congrArg _ (if_neg ?_))
    rw [show (s.hslot (handleKey h)).state = .forwarded b from hx]
    simp [opens, h1, h2, h3]
  · exact wait_event hn (register_pending (s := u) hf hx)
  · exact wait_event hn (register_forwarded (s := u) hf hx hb)
  · exact wait_event hn (register_resolved (s := u) hf hx)
  · exact wait_event hn (register_broken (s := u) hf hx)
  · refine ⟨u.deliver r vals c, arrival_next hn (if_neg (Bool.eq_false_iff.1 hr)), rfl, rfl, fun gr g sb hg => ?_⟩
    refine ⟨answeredGroup r vals c g, ?_, rfl, rfl, fun y hy => ?_, fun h1 h2 => ?_⟩
    · rw [group?_deliver, show u.group? gr = some g from hg]
      rfl
    · rw [slot_answeredGroup, answered, if_pos (awaits_handle hy)]
    · rw [slot_answeredGroup, answered, not_awaits h1 h2]
      rfl
  · exact query_answered hn hf
  · exact query_refused hn hf
  · exact free_refused hn (freeHandle_fault hf)
  · exact free_refused hn (freeHandle_busy hf hx)
  · obtain ⟨hself, hother⟩ := hslot_freed u (handleKey h)
    refine ⟨_, free_answered hn hf hx hq, ?_, ?_, hother, rfl⟩
    · exact congrArg HSlot.state hself
    · exact congrArg HSlot.gen hself

end Sys2Proof.Proofs.Settling
end

section
/-! SUPPORT. The instructions of handles and invocations (R207-R209, R355-R364): O39 and O40. -/

namespace Sys2Proof.Proofs.HandleOps

open Sys2Proof Sys2Proof.Machine Sys2Proof.Laws Sys2Proof.Proofs.IssuingBlock Sys2Proof.Proofs.Frames Sys2Proof.Proofs.Waits Sys2Proof.Proofs.Issues
  Sys2Proof.Proofs.Launches Sys2Proof.Proofs.PlaneIssues Sys2Proof.Proofs.Barriers Sys2Proof.Proofs.Messages Sys2Proof.Proofs.Settling

/-! ## HWAIT -/

/-- The group that asks: what an earlier answer has left is gone. -/
def asking (sb : Bool) (g : Group) : Group := g.modSlot sb fun x => { x with answer := none }

theorem still_asking (sb : Bool) (g : Group) : (asking sb g).still = g.still := by cases sb <;> rfl

theorem waiting_asking (i : Iss) (w : Wait) : i.Waiting w (waited i (asking i.slotB i.g) w) := by
  have hself : (asking i.slotB i.g).slot i.slotB = { i.sl with answer := none } := by
    unfold asking Iss.sl
    cases i.slotB <;> rfl
  have hother : (asking i.slotB i.g).slot (!i.slotB) = i.g.slot (!i.slotB) := by cases i.slotB <;> rfl
  refine ⟨?_, ?_, ?_, (slot_waited_not i w _).trans hother⟩ <;> rw [slot_waited, hself] <;> rfl

/-- The group that has its answer. -/
def answeredHwait (i : Iss) (d : BitVec 6) (v w : Word) (c : Clock) : Group :=
  ((i.g.acquire c).wrS i.sl.wb d.toNat v).wrS i.sl.wb (d.toNat + 1) w

theorem slot_answeredHwait (i : Iss) (d : BitVec 6) (v w : Word) (c : Clock) (b : Bool) : (answeredHwait i d v w c).slot b = i.g.slot b := rfl

section
variable {s : State} {i : Iss} (h : s.issue? = some i)
include h

theorem hwait_malformed {d : BitVec 6} {a : Src} (hc : i.checkSca .i64 [a] = .ok ()) (hw : i.sl.wait = none) (hm : i.s.handleMalformed (i.uni a) = true) :
    exec (.hwait d a) s = .next (i.conclude (.trap (plainTrap .handle 1))) := by
  refine run_eq h ?_
  simp only [hc, orTrap, hw, hm, if_true]

theorem hwait_asks {d : BitVec 6} {a : Src} (hc : i.checkSca .i64 [a] = .ok ()) (hw : i.sl.wait = none) (hm : i.s.handleMalformed (i.uni a) = false) :
    exec (.hwait d a) s = .next (i.conclude (i.wait (.handle i.s.nextId (i.uni a))
      (({ i.s with nextId := i.s.nextId + 1 }.send i.leaf (handleLeaf (i.uni a)) (.wait (i.uni a) i.waiter [])).modGroup i.gr (asking i.slotB)))) := by
  refine run_eq h ?_
  simp only [hc, orTrap, hw, hm, Bool.false_eq_true, if_false]
  rfl

theorem hwait_answered {d : BitVec 6} {a : Src} (hc : i.checkSca .i64 [a] = .ok ()) {k : Nat} {u v w : Word} {c : Clock}
    (hw : i.sl.wait = some (.handle k u)) (ha : i.sl.answer = some ([v, w], c)) (hd : i.g.destBusy i.sl.wb [] [d.toNat, d.toNat + 1] = false) :
    exec (.hwait d a) s = .next (i.conclude (.done (i.s.modGroup i.gr fun _ => answeredHwait i d v w c) true)) := by
  refine run_eq h ?_
  simp only [hc, orTrap, hw, ha, hd, Bool.false_eq_true, if_false]
  rfl

end

/-! ## HRES and HBRK -/

/-- The machine whose handler has settled its handle. -/
def settling (i : Iss) (own : Word) (m : MsgBody) : State :=
  ((((i.s.touchOutside i.gr.blk).unpin i.g.agent).modBlock i.gr.blk fun b => { b with settled := true }).modGroup i.gr Group.release).send
    i.leaf (handleLeaf own) m

theorem settle_eq {i : Iss} (hq : i.g.quiet = true) (own : Word) (m : MsgBody) : i.settle own m = .done (settling i own m) false := by
  unfold Iss.settle
  rw [hq]
  rfl

/-- What sending its handle's fate leaves of a handler's group. -/
theorem settle_sends {s : State} {i : Iss} (h : s.issue? = some i) {instr : Instr} {own : Word} {m : MsgBody}
    (hrun : exec instr s = .next (i.conclude (.done (settling i own m) false))) : ∃ t b' g', exec instr s = .next t ∧ t.block? i.gr.blk = some b' ∧
      b'.groups[i.gr.grp]? = some g' ∧ b'.settled = true ∧ i.Onward g' ∧ i.Unread g' ∧ g'.epoch = i.g.epoch + 1 ∧
      t.msgs = s.msgs ++ [⟨i.leaf, handleLeaf own, m⟩] ∧ ∀ l, t.byte l = s.byte l := by
  obtain ⟨rfl, hb, -⟩ := issue_facts h
  have hset : Stays fun b : Block => { b with settled := true } := ⟨fun _ => rfl, fun _ => rfl, fun _ => ⟨rfl, rfl, rfl, rfl⟩⟩
  have hu := (((((Became.start hb (.refl i.s)).touch true).same (same_unpin _ i.g.agent)).change hset).change
    (stays_modGroup i.gr.grp Group.release)).same (v := settling i own m) ⟨rfl, rfl, rfl, rfl⟩
  have hg := groups_modGroup_self (b := { i.b with idem := i.b.idem && !true, settled := true }) Group.release (issue_group h)
  have hstill := still_finished i false i.g.release
  exact ⟨_, _, finished i false i.g.release, hrun, hu.next.block, groups_modGroup_self _ hg, rfl, onward_finished rfl rfl,
    Unread.of_still (unread_release i) hstill, (congrArg Group.epoch hstill :), rfl, hu.next.bytes⟩

section
variable {s : State} {i : Iss} (h : s.issue? = some i) {a : Src} (hc : i.checkSca .i64 [a] = .ok ()) (hh : i.onlyHelpers = false)
include h hc hh

theorem hbrk_none (hs : i.b.settles = none) : exec (.hbrk a) s = .next (i.conclude (.trap (plainTrap .handle 4))) := by
  refine run_eq h ?_
  simp only [hc, orTrap, Iss.unlessHelpers, hh, hs, Bool.false_eq_true, if_false]

theorem hres_none (hs : i.b.settles = none) (fwd : Bool) : exec (.hres a fwd) s = .next (i.conclude (.trap (plainTrap .handle 4))) := by
  refine run_eq h ?_
  simp only [hc, orTrap, Iss.unlessHelpers, hh, hs, Bool.false_eq_true, if_false]

variable {own : Word} (hs : i.b.settles = some own)
include hs

theorem hres_itself (he : i.uni a = own) : exec (.hres a true) s = .next (i.conclude (.trap (plainTrap .handle 6))) := by
  refine run_eq h ?_
  simp only [hc, orTrap, Iss.unlessHelpers, hh, hs, he, Bool.false_eq_true, if_false, if_true]

variable (hq : i.g.quiet = true)
include hq

theorem hres_resolves : exec (.hres a false) s = .next (i.conclude (.done (settling i own (.resolve own (i.uni a) i.leaf i.g.known)) false)) := by
  refine run_eq h ?_
  simp only [hc, orTrap, Iss.unlessHelpers, hh, hs, Bool.false_eq_true, if_false, settle_eq hq]

theorem hres_forwards (he : i.uni a ≠ own) :
    exec (.hres a true) s = .next (i.conclude (.done (settling i own (.forward own (i.uni a) i.g.known)) false)) := by
  refine run_eq h ?_
  simp only [hc, orTrap, Iss.unlessHelpers, hh, hs, Bool.false_eq_true, if_false, if_true, if_neg he, settle_eq hq]

theorem hbrk_breaks : exec (.hbrk a) s = .next (i.conclude (.done (settling i own
    (.brk own own (if (i.uni a).toNat % 2 ^ 15 = 0 then 1 else (i.uni a).toNat % 2 ^ 15) i.g.known)) false)) := by
  refine run_eq h ?_
  simp only [hc, orTrap, Iss.unlessHelpers, hh, hs, Bool.false_eq_true, if_false, settle_eq hq, bits_low]

end

/-! ## HQRY and HFREE -/

section
variable {s : State} {i : Iss} (h : s.issue? = some i) {a : Src} (hc : i.checkSca .i64 [a] = .ok ()) (hw : i.sl.wait = none)
  (hm : i.s.handleMalformed (i.uni a) = false) (hhome : i.homeHere (i.uni a) = true) (hbusy : i.homeBusy = false)
include h hc hw hm hhome hbusy

theorem hqry_fault {n : Nat} (hf : i.s.handleFault i.b.ctx (i.uni a) = some n) (d : BitVec 6) :
    exec (.hqry d a) s = .next (i.conclude (.trap (plainTrap .handle n))) := by
  refine run_eq h ?_
  simp only [hc, orTrap, hw, hm, hhome, hbusy, hf, Bool.not_true, Bool.false_eq_true, if_false]

theorem hqry_reads (hf : i.s.handleFault i.b.ctx (i.uni a) = none) (d : BitVec 6) :
    exec (.hqry d a) s = .next (i.conclude (i.putD (.reg d) (i.s.hslot (handleKey (i.uni a))).word)) := by
  refine run_eq h ?_
  simp only [hc, orTrap, hw, hm, hhome, hbusy, hf, Bool.not_true, Bool.false_eq_true, if_false]

variable (hh : i.onlyHelpers = false)
include hh

theorem hfree_fault {n : Nat} (hf : i.s.freeHandle i.b.ctx (i.uni a) = .error n) : exec (.hfree a) s = .next (i.conclude (.trap (plainTrap .handle n))) := by
  refine run_eq h ?_
  simp only [hc, orTrap, Iss.unlessHelpers, hh, hw, hm, hhome, hbusy, hf, Bool.not_true, Bool.false_eq_true, if_false]

theorem hfree_frees {u : State} (hf : i.s.freeHandle i.b.ctx (i.uni a) = .ok u) : exec (.hfree a) s = .next (i.conclude (.done (u.touchOutside i.gr.blk) false)) := by
  refine run_eq h ?_
  simp only [hc, orTrap, Iss.unlessHelpers, hh, hw, hm, hhome, hbusy, hf, Bool.not_true, Bool.false_eq_true, if_false]

end

/-- A slot freed in the issuing cluster: the group goes on. -/
theorem freed_goes {s : State} {i : Iss} (h : s.issue? = some i) (x : HSlot) : ∃ g',
    (i.conclude (.done ((i.s.setHSlot x).touchOutside i.gr.blk) false)).group? i.gr = some g' ∧ i.Onward g' ∧ i.Unread g' := by
  obtain ⟨rfl, hb, -⟩ := issue_facts h
  have hu := ((Became.start hb (u := i.s.setHSlot x) ⟨rfl, rfl, rfl, rfl⟩).touch true).next
  exact ⟨finished i false i.g, hu.group? (groups_modGroup_self (b := { i.b with idem := i.b.idem && !true }) _ (issue_group h)), onward_finished rfl rfl,
    Unread.of_still (unread_self i) (still_finished i false i.g)⟩

/-- Settles O40: each instruction by the lemma of what it does at its place. -/
theorem handleInstructions : Obligations.HandleInstructions := by
  unfold Obligations.HandleInstructions
  intro s i d a h hc hd x
  have hs : i.s = s := (issue_facts h).1
  subst hs
  obtain ⟨-, hb, hg⟩ := issue_facts h
  refine ⟨fun hw hm => hwait_malformed h hc hw hm, fun hw hm => ?_, fun k u v w c hw ha hbusy => ?_, fun hh => ⟨fun hn => ⟨hbrk_none h hc hh hn, hres_none h hc hh hn _⟩,
    fun own hown hq => ⟨fun he => hres_itself h hc hh hown he.symm, settle_sends h (hres_resolves h hc hh hown hq),
      fun he => settle_sends h (hres_forwards h hc hh hown hq he.symm), settle_sends h (hbrk_breaks h hc hh hown hq)⟩⟩,
    fun hw hm hhome hbusy => ⟨fun e he => ⟨hqry_fault h hc hw hm hhome hbusy he d, fun hh => hfree_fault h hc hw hm hhome hbusy hh (freeHandle_fault he)⟩,
      fun hf hdest => ⟨⟨_, _, hqry_reads h hc hw hm hhome hbusy hf d, putD_next h (.reg d) _ hdest⟩, fun hh => ?_⟩⟩⟩
  · have hu := (Became.start hb (u := { i.s with nextId := i.s.nextId + 1 }.send i.leaf (handleLeaf (i.uni a)) (.wait (i.uni a) i.waiter [])) ⟨rfl, rfl, rfl, rfl⟩).change
      (stays_modGroup i.gr.grp (asking i.slotB))
    have hga := groups_modGroup_self (asking i.slotB) (issue_group h)
    have hmsgs := conclude_wait i (u := ({ i.s with nextId := i.s.nextId + 1 }.send i.leaf (handleLeaf (i.uni a)) (.wait (i.uni a) i.waiter [])).modGroup i.gr (asking i.slotB))
      rfl (.handle i.s.nextId (i.uni a))
    refine ⟨_, waited i (asking i.slotB i.g) (.handle i.s.nextId (i.uni a)), hwait_asks h hc hw hm, (became_wait hu rfl _).group? (groups_modGroup_self _ hga), ?_,
      Unread.of_still (unread_self i) ((still_waited _ _ _).trans (still_asking _ _)), ?_⟩
    · exact waiting_asking i _
    · rw [hmsgs]
      rfl
  · obtain ⟨hsw, hat⟩ := switch_goes_on hg (fun _ => answeredHwait i d v w c) (slot_answeredHwait i d v w c)
    have hstill := still_finished i true (answeredHwait i d v w c)
    refine ⟨_, _, hwait_answered h hc hw ha hbusy, hsw, hat, ?_, ?_, (congrArg Group.clock hstill :), (congrArg Group.v hstill :), (congrArg Group.flags hstill :)⟩
    · rw [rdS_finished]
      exact (rdS_wrS_ne _ _ _ _ _ _ (by omega)).trans (rdS_wrS _ _ _ _)
    · rw [rdS_finished]
      exact rdS_wrS _ _ _ _
  · split
    next hx => exact hfree_fault h hc hw hm hhome hbusy hh (freeHandle_busy hf hx)
    next hx =>
      rw [not_or, not_not] at hx
      obtain ⟨g', hgroup, hon, hun⟩ := freed_goes h (i.s.hslot (handleKey (i.uni a))).freed
      obtain ⟨hself, hother⟩ := hslot_freed i.s (handleKey (i.uni a))
      exact ⟨_, g', hfree_frees h hc hw hm hhome hbusy hh (freeHandle_frees hf hx.1 hx.2), hgroup, hon, hun, congrArg HSlot.state hself,
        congrArg HSlot.gen hself, hother⟩

/-! ## INVOKE and INVH -/

/-- The invocation that a record and a payload make. -/
def newInvocation (i : Iss) (bs p : List Byte) (own : Word) : Inv :=
  { own := own, entry := BitVec.ofNat 64 (recNum bs 0 8), spr := 256 * recNum bs 12 2, regs := recNum bs 14 1, payload := p
    ctx := i.b.ctx, pri := i.b.pri, sender := i.sender, clock := i.g.known, through := none }

/-- The slot that the allocation makes PENDING. -/
def allocated (i : Iss) (n : Nat) (toward : Option (Nat × Word)) : State := (i.s.allocate i.cluster n i.b.ctx toward).1

theorem hslot_allocated (i : Iss) (n : Nat) (toward : Option (Nat × Word)) :
    let x := (allocated i n toward).hslot (i.cluster * 4096 + n)
    x.state = .pending ∧ x.owner = i.b.ctx ∧ x.gen = (i.s.hslot (i.cluster * 4096 + n)).gen := by
  have hself := hslot_setHSlot_self i.s (x := { i.s.hslot (i.cluster * 4096 + n) with
    owner := i.b.ctx, state := .pending, waiters := [], queue := [], rel := [], toward := toward }) (hslot_key _ _)
  unfold allocated State.allocate
  rw [hself]
  exact ⟨rfl, rfl, rfl⟩

theorem hslot_allocated_ne (i : Iss) {n k : Nat} (toward : Option (Nat × Word)) (hk : k ≠ i.cluster * 4096 + n) :
    (allocated i n toward).hslot k = i.s.hslot k :=
  hslot_setHSlot_ne i.s _ (by rw [show HSlot.key _ = i.cluster * 4096 + n from hslot_key i.s _]; exact hk)

section
variable {i : Iss} {d : BitVec 6} {a : Word} {bs p : List Byte} (hr : i.Reads d a 32 bs) (hb : invMalformed bs = false)
  (hp : i.payload (BitVec.ofNat 64 (leNat ((bs.drop 16).take 8))) (leNat ((bs.drop 8).take 4)) = .ok p)
include hr hb hp

theorem newInv_malformed (toward : Option (Nat × Word)) (go : State → Inv → Res) :
    i.suppressed d (fun _ => i.newInv d a true toward go) = .trap (plainTrap .handle 1) := by
  refine (record_reads hr _).trans ?_
  have hp' : i.payload (BitVec.ofNat 64 (recNum bs 16 8)) (recNum bs 8 4) = .ok p := hp
  simp only [hb, hp', Bool.false_eq_true, if_false, if_true]

theorem newInv_allocates {n : Nat} (hn : i.s.freeSlot i.cluster = some n) (toward : Option (Nat × Word)) (go : State → Inv → Res) :
    i.suppressed d (fun _ => i.newInv d a false toward go) =
      go (allocated i n toward) (newInvocation i bs p (handleWord i.s.pkg i.cluster n (i.s.hslot (i.cluster * 4096 + n)).gen)) := by
  refine (record_reads hr _).trans ?_
  have hp' : i.payload (BitVec.ofNat 64 (recNum bs 16 8)) (recNum bs 8 4) = .ok p := hp
  simp only [hb, hp', hn, Bool.false_eq_true, if_false]
  rfl

end

theorem same_send (s : State) (src dst : Nat) (m : MsgBody) : SameBytes s (s.send src dst m) := ⟨rfl, rfl, rfl, rfl⟩

theorem same_setHSlot (s : State) (x : HSlot) : SameBytes s (s.setHSlot x) := ⟨rfl, rfl, rfl, rfl⟩

theorem same_allocated (i : Iss) (n : Nat) (toward : Option (Nat × Word)) : SameBytes i.s (allocated i n toward) := ⟨rfl, rfl, rfl, rfl⟩

/-- What an instruction with effects outside the block leaves of messages and handles. -/
theorem outside_messages (i : Iss) (u : State) (d : BitVec 6) (x : Word) :
    (i.conclude (i.outside u d x true)).msgs = u.msgs ∧ (i.conclude (i.outside u d x true)).handles = u.handles := ⟨rfl, rfl⟩

theorem hslot_of_handles {s t : State} (h : t.handles = s.handles) (k : Nat) : t.hslot k = s.hslot k := by
  unfold State.hslot
  rw [h]

section
variable {s : State} {i : Iss} (h : s.issue? = some i) {d : BitVec 6} {a b : Src} (hc : i.checkSca .i64 [a, b] = .ok ())
include h hc

/-- What INVOKE goes on as. -/
theorem exec_invoke {r : Res} (hr : (i.suppressed d fun _ => i.newInv d (i.uni b) (i.s.placeMalformed (i.uni a))
      (if handlePkg (i.uni a) = i.s.pkg then none else some (handlePkg (i.uni a), (0 : Word))) fun s v =>
        i.outside (s.send i.leaf (handleLeaf (i.uni a)) (.place v 0)) d v.own true) = r) : exec (.invoke d a b) s = .next (i.conclude r) := by
  refine run_eq h ?_
  rw [hc]
  exact hr

/-- What INVH does with a new invocation. -/
def invhGo (i : Iss) (d : BitVec 6) (x : Word) (s : State) (v : Inv) : Res :=
  if i.homeHere x then
    if i.homeBusy then i.stall
    else
      match i.s.handleFault i.b.ctx x with
      | some n => .trap (plainTrap .handle n)
      | none => i.outside (s.reach i.leaf x v [] none) d v.own true
  else i.ask s x v.own (.toHandle x v [] (some i.waiter))

/-- What INVH goes on as where it does not wait. -/
theorem exec_invh (hw : i.sl.wait = none) {r : Res} (hr : (i.suppressed d fun _ => i.newInv d (i.uni b) (i.s.handleMalformed (i.uni a)) (i.elsewhere (i.uni a))
      (invhGo i d (i.uni a))) = r) : exec (.invh d a b) s = .next (i.conclude r) := by
  refine run_eq h ?_
  rw [hc]
  simp only [orTrap, hw]
  exact hr

end

/-- A new invocation's fields. -/
theorem newInvocation_made (i : Iss) (bs p : List Byte) (own : Word) : let v := newInvocation i bs p own
    v.own = own ∧ v.entry = BitVec.ofNat 64 (leNat (bs.take 8)) ∧ v.payload = p ∧ v.ctx = i.b.ctx ∧ v.sender = i.sender ∧
      i.g.epoch + 1 ≤ clockGet v.clock i.g.agent :=
  ⟨rfl, rfl, rfl, rfl, rfl, Nat.le_of_eq (clockGet_known i.g).symm⟩

/-- An instruction that is held until a remote home answers. -/
theorem asked_stands {s : State} {i : Iss} (h : s.issue? = some i) {u : State} (hu : SameBytes i.s u) (x own : Word) (m : MsgBody) :
    let t := i.conclude (i.ask u x own m)
    ∃ g', t.group? i.gr = some g' ∧ (g'.slot i.slotB).pc = i.pc ∧ (g'.slot i.slotB).wait = some (.answer i.s.nextId own (handlePkg x)) ∧
      t.msgs = u.msgs ++ [⟨i.leaf, handleLeaf x, m⟩] ∧ t.handles = u.handles := by
  obtain ⟨rfl, hb, hg⟩ := issue_facts h
  have hask := hu.trans (u := { u with nextId := i.s.nextId + 1 }.send i.leaf (handleLeaf x) m) ⟨rfl, rfl, rfl, rfl⟩
  refine ⟨_, group?_modGroup_self _ (group?_modGroup_self _ ((hask.group? i.gr).trans hg)), ?_, ?_, rfl, rfl⟩
  · unfold Iss.pc Iss.sl
    cases i.slotB <;> rfl
  · cases i.slotB <;> rfl

/-- Settles O39: INVOKE and INVH by `newInv_allocates`, the home's part by `reach_pending`. -/
theorem invokes : Obligations.Invokes := by
  unfold Obligations.Invokes
  intro s i d a b bs p n h hc hr hbs hp x key own made pending
  have hs : i.s = s := (issue_facts h).1
  subst hs
  refine ⟨fun hm => exec_invoke h hc ?_, fun hm hw => exec_invh h hc hw ?_, fun hn => ⟨fun hm => ?_, fun hm hw hhome hbusy => ⟨fun e he => exec_invh h hc hw ?_,
    fun hf hx hq hne => ?_⟩, fun hm hw hhome => ?_⟩⟩
  · rw [show i.s.placeMalformed (i.uni a) = true from hm, newInv_malformed hr hbs hp]
  · rw [show i.s.handleMalformed (i.uni a) = true from hm, newInv_malformed hr hbs hp]
  · have hsent := (same_allocated i n (if handlePkg (i.uni a) = i.s.pkg then none else some (handlePkg (i.uni a), (0 : Word)))).trans
      (same_send _ i.leaf (handleLeaf (i.uni a)) (.place (newInvocation i bs p own) 0))
    obtain ⟨g', hgave⟩ := outside_gave h d own true hsent
    refine ⟨_, g', newInvocation i bs p own, exec_invoke h hc ?_, hgave, ?_, newInvocation_made i bs p own, rfl⟩
    · rw [show i.s.placeMalformed (i.uni a) = false from hm, newInv_allocates hr hbs hp hn]
      rfl
    · exact hslot_allocated i n _
  · rw [show i.s.handleMalformed (i.uni a) = false from hm, newInv_allocates hr hbs hp hn, invhGo, if_pos hhome, hbusy, he]
    rfl
  · have hslot := hslot_allocated_ne i (i.elsewhere (i.uni a)) hne
    have hfault : (allocated i n (i.elsewhere (i.uni a))).handleFault (newInvocation i bs p own).ctx (i.uni a) = none := by
      unfold State.handleFault at hf ⊢
      rwa [hslot]
    have hreach := reach_pending (leaf := i.leaf) (via := []) hfault (by rw [hslot]; exact hx) (by rw [hslot]; exact hq)
    rw [hslot] at hreach
    have hkey : ({ i.s.hslot (handleKey (i.uni a)) with queue := (i.s.hslot (handleKey (i.uni a))).queue ++ [newInvocation i bs p own] } : HSlot).key =
        handleKey (i.uni a) := hslot_key _ _
    obtain ⟨g', hgave⟩ := outside_gave h d own true ((same_allocated i n (i.elsewhere (i.uni a))).trans (same_setHSlot _
      { i.s.hslot (handleKey (i.uni a)) with queue := (i.s.hslot (handleKey (i.uni a))).queue ++ [newInvocation i bs p own] }))
    have hself := hslot_setHSlot_self (allocated i n (i.elsewhere (i.uni a))) hkey
    refine ⟨_, g', newInvocation i bs p own, exec_invh h hc hw ?_, hgave, ?_, newInvocation_made i bs p own, congrArg HSlot.queue hself,
      (congrArg HSlot.state hself).trans hx⟩
    · rw [show i.s.handleMalformed (i.uni a) = false from hm, newInv_allocates hr hbs hp hn, invhGo, if_pos hhome, hbusy, hf]
      simp only [Bool.false_eq_true, if_false]
      exact congrArg (fun u => i.outside u d own true) hreach
    · have hkeep := hslot_setHSlot_ne (allocated i n (i.elsewhere (i.uni a)))
        { i.s.hslot (handleKey (i.uni a)) with queue := (i.s.hslot (handleKey (i.uni a))).queue ++ [newInvocation i bs p own] } (k := key)
        (by rw [hkey]; exact hne.symm)
      obtain ⟨h1, h2, h3⟩ := hslot_allocated i n (i.elsewhere (i.uni a))
      exact ⟨(congrArg HSlot.state hkeep).trans h1, (congrArg HSlot.owner hkeep).trans h2, (congrArg HSlot.gen hkeep).trans h3⟩
  · obtain ⟨g', hgroup, hpc, hwait, hmsgs, hhandles⟩ := asked_stands h (same_allocated i n (i.elsewhere (i.uni a))) (i.uni a) own
      (.toHandle (i.uni a) (newInvocation i bs p own) [] (some i.waiter))
    refine ⟨_, g', newInvocation i bs p own, exec_invh h hc hw ?_, hgroup, ?_, newInvocation_made i bs p own, hpc, hwait, hmsgs⟩
    · rw [show i.s.handleMalformed (i.uni a) = false from hm, newInv_allocates hr hbs hp hn, invhGo,
        if_neg (by rw [show i.homeHere (i.uni a) = false from hhome]; exact Bool.false_ne_true)]
      rfl
    · have hkeep := hslot_of_handles hhandles key
      obtain ⟨h1, h2, h3⟩ := hslot_allocated i n (i.elsewhere (i.uni a))
      exact ⟨(congrArg HSlot.state hkeep).trans h1, (congrArg HSlot.owner hkeep).trans h2, (congrArg HSlot.gen hkeep).trans h3⟩

end Sys2Proof.Proofs.HandleOps
end

section
/-! SUPPORT. What the units of a placed block do by themselves (R129, R163, R167, R225, R407): O44. -/

namespace Sys2Proof.Proofs.Units

open Sys2Proof Sys2Proof.Machine Sys2Proof.Laws Sys2Proof.Proofs.IssuingBlock Sys2Proof.Proofs.Frames Sys2Proof.Proofs.Virga
  Sys2Proof.Proofs.Barriers Sys2Proof.Proofs.TrapEntry Sys2Proof.Proofs.HandleOps

/-! ## Cores -/

theorem core_id (s : State) (id : Nat) : (s.core id).id = id := by
  unfold State.core
  cases h : s.cores.find? fun c => c.id == id with
  | none => rfl
  | some c => simpa using List.find?_some h

theorem core_modCore (s : State) (id : Nat) (f : Core → Core) (hf : ∀ c, (f c).id = c.id) : (s.modCore id f).core id = f (s.core id) := by
  have hid : ((f (s.core id)).id == id) = true := by rw [hf, core_id, beq_self_eq_true]
  show ((f (s.core id) :: s.cores.filter fun c => c.id != id).find? fun c => c.id == id).getD _ = _
  rw [List.find?_cons_of_pos (p := fun c : Core => c.id == id) hid]
  rfl

/-! ## The switch of a quantum (R225, R227) -/

/-- The first of a list that has waited longest has waited as long as each of its rivals. -/
theorem firstBy_longer : ∀ (rs : List Rival) (r : Rival), firstBy Rival.longer rs = some r → r ∈ rs ∧ ∀ x ∈ rs, x.wait ≤ r.wait
  | [], _, h => by cases h
  | x :: xs, r, h => by
    have hfold : ∀ (l : List Rival) (m : Rival), let w := l.foldl (fun m y => if Rival.longer y m then y else m) m
        (w = m ∨ w ∈ l) ∧ m.wait ≤ w.wait ∧ ∀ z ∈ l, z.wait ≤ w.wait := by
      intro l
      induction l with
      | nil => exact fun m => ⟨.inl rfl, Nat.le_refl _, fun _ hz => absurd hz List.not_mem_nil⟩
      | cons y l ih =>
        intro m
        have hstep : let n := if Rival.longer y m then y else m
            (n = m ∨ n = y) ∧ m.wait ≤ n.wait ∧ y.wait ≤ n.wait := by
          by_cases hl : Rival.longer y m = true
          · rw [if_pos hl]
            refine ⟨.inr rfl, ?_, Nat.le_refl _⟩
            simp only [Rival.longer, Bool.or_eq_true, decide_eq_true_eq, Bool.and_eq_true, beq_iff_eq] at hl
            rcases hl with hl | hl <;> omega
          · rw [if_neg hl]
            refine ⟨.inl rfl, Nat.le_refl _, Nat.le_of_not_lt fun hlt => hl ?_⟩
            rw [Rival.longer, decide_eq_true hlt, Bool.true_or]
        obtain ⟨hn, hm, hy⟩ := hstep
        obtain ⟨h1, h2, h3⟩ := ih (if Rival.longer y m then y else m)
        intro w
        refine ⟨?_, Nat.le_trans hm h2, ?_⟩
        · rcases h1 with h1 | h1
          · rcases hn with hn | hn
            · exact .inl (h1.trans hn)
            · refine .inr ?_
              rw [show w = y from h1.trans hn]
              exact List.mem_cons_self
          · exact .inr (List.mem_cons_of_mem _ h1)
        · simp only [List.forall_mem_cons]
          exact ⟨Nat.le_trans hy h2, h3⟩
    obtain rfl : _ = r := Option.some.inj h
    obtain ⟨h1, h2, h3⟩ := hfold xs x
    refine ⟨h1.elim (fun e => ?_) (List.mem_cons_of_mem _), List.forall_mem_cons.2 ⟨h2, h3⟩⟩
    rw [e]
    exact List.mem_cons_self

theorem firstBy_isSome {rs : List Rival} (h : rs ≠ []) : ∃ r, firstBy Rival.longer rs = some r := by
  cases rs with
  | nil => exact absurd rfl h
  | cons x xs => exact ⟨_, rfl⟩

theorem switchTo_longest {s : State} {core : Nat} {gr : GRef} {g : Group} {sb : Bool} (hg : s.group? gr = some g) (hc : (s.core core).cur = some (gr, sb))
    (hf : (s.core core).fresh = false) (hp : (g.slot sb).inPair = false) (hr : ∃ r ∈ s.rivals core, r.gr ≠ gr ∧ quantum ≤ r.wait) :
    ∃ r, s.switchTo core = some r ∧ r ∈ s.rivals core ∧ r.gr ≠ gr ∧ quantum ≤ r.wait ∧
      ∀ x ∈ s.rivals core, x.gr ≠ gr → quantum ≤ x.wait → x.wait ≤ r.wait := by
  have hmem : ∀ x, x ∈ (s.rivals core).filter (fun r => r.gr != gr && decide (quantum ≤ r.wait)) ↔ x ∈ s.rivals core ∧ x.gr ≠ gr ∧ quantum ≤ x.wait := fun x => by
    rw [List.mem_filter, Bool.and_eq_true, bne_iff_ne, decide_eq_true_eq]
  obtain ⟨x, hx, hne, hq⟩ := hr
  obtain ⟨r, hfirst⟩ := firstBy_isSome (List.ne_nil_of_mem ((hmem x).2 ⟨hx, hne, hq⟩))
  obtain ⟨hr, hlongest⟩ := firstBy_longer _ r hfirst
  obtain ⟨hr1, hr2, hr3⟩ := (hmem r).1 hr
  refine ⟨r, ?_, hr1, hr2, hr3, fun x hx hne hq => hlongest x ((hmem x).2 ⟨hx, hne, hq⟩)⟩
  unfold State.switchTo
  simp only [hc, hf, hg, hp, Option.map_some, Option.getD_some, Bool.or_self, Bool.false_eq_true, if_false]
  exact hfirst

/-! ## Loads and walks -/

theorem loadComplete_drops {s : State} {gr : GRef} {g : Group} (hg : s.group? gr = some g) {m : MemOp} (hm : g.memq.find? (fun m => isLoad m.instr) = some m)
    (ha : m.accepted = true) (ht : m.todo = 0) : exec (.loadComplete gr) s = .next (s.modGroup gr fun x =>
      { x with memq := x.memq.filter (fun y => y.id != m.id), ldcnt := x.ldcnt - 1 }) := by
  show execLoadComplete gr s = _
  unfold execLoadComplete
  simp only [hg, hm, ha, ht, beq_self_eq_true, Bool.and_self, if_true]

theorem walk_held {s : State} {ctx agent : Nat} {va : Word} {tr : Trans} (hv : canonicalVa va.toNat = true) (hw : s.walk ctx (va57 va.toNat) = .ok tr)
    (hn : ∀ e ∈ s.tlbs, e.agent = agent → e.ctx = ctx → ¬ (e.tr.base ≤ va57 va.toNat ∧ va57 va.toNat < e.tr.base + e.tr.size)) :
    exec (.pageTableWalk ctx agent va) s = .next { s with tlbs := s.tlbs ++ [⟨agent, ctx, tr⟩] } := by
  have hnone : (s.tlbs.any fun e => e.agent == agent && e.ctx == ctx && decide (e.tr.base ≤ va57 va.toNat) &&
      decide (va57 va.toNat < e.tr.base + e.tr.size)) = false := by
    rw [List.any_eq_false]
    intro e he
    simp only [Bool.and_eq_true, beq_iff_eq, decide_eq_true_eq]
    rintro ⟨⟨⟨h1, h2⟩, h3⟩, h4⟩
    exact hn e he h1 h2 ⟨h3, h4⟩
  show execPageTableWalk ctx agent va s = _
  unfold execPageTableWalk
  simp only [hv, hw, hnone, Bool.not_true, Bool.false_eq_true, if_false]

/-! ## An operation completes (R167) -/

/-- The operation once it has completed. -/
def completedOp (o : EngOp) : EngOp := { o with state := .done, rel := if o.tl = 0 then o.copyRelease else o.release }

/-- The block of a plane operation that has completed. -/
def planeLast (tl num : Nat) (b : Block) : Block := if tl = 2 then setPlane (b.addStat 4 1) fun p => { p with last := num } else b

theorem foldl_unpin_same (a : Nat) (l : List Nat) (s : State) : SameBytes s (l.foldl (fun s i => s.unpin (a + i)) s) :=
  SameBytes.foldl (fun s i => s.unpin (a + i)) (fun s i => same_unpin s (a + i)) l s

theorem engineOpComplete_completes {s : State} {blk tl num : Nat} {b : Block} (hb : s.block? blk = some b) (htl : tl < 4) {o : EngOp}
    (ho : b.op? tl num = some o) (hs : o.state = .worked) : ∃ u, SameBytes (s.modOp blk tl num completedOp) u ∧
      exec (.engineOpComplete blk (4 * num + tl)) s = .next (if tl = 2 then u.modBlock blk (planeLast 2 num) else u) := by
  have hdiv : (4 * num + tl) % 4 = tl ∧ (4 * num + tl) / 4 = num := by omega
  have hfind : ∃ o', (s.block? blk).bind (fun b => b.op? ((4 * num + tl) % 4) ((4 * num + tl) / 4)) = some o' ∧ o' = o := ⟨o, by
    rw [hb, hdiv.1, hdiv.2]
    exact ho, rfl⟩
  obtain ⟨hotl, honum⟩ : o.tl = tl ∧ o.num = num := by
    have := List.find?_some ho
    simpa [EngOp.is] using this
  obtain ⟨o', hfind, rfl⟩ := hfind
  refine ⟨_, foldl_unpin_same o'.agent (List.range (if o'.tl = 0 then 34 else 1)) _, ?_⟩
  show execEngineOpComplete blk (4 * num + tl) s = _
  unfold execEngineOpComplete
  simp only [hfind, hs, hotl, honum]
  rfl

/-! ## The switch itself -/

theorem core_chosen (u : State) (id : Nat) (x : Option (GRef × Bool)) :
    ((u.setCore id x).modCore id fun c => { c with fresh := true }).core id = { u.core id with cur := x, turn := false, fresh := true } := by
  refine (core_modCore (u.setCore id x) id (fun c => { c with fresh := true }) fun _ => rfl).trans ?_
  exact congrArg (fun c : Core => { c with fresh := true }) (core_modCore u id (fun c => { c with cur := x, turn := false }) fun _ => rfl)

theorem quantumSwitch_leaves {s : State} {core : Nat} {gr : GRef} {sb : Bool} {r : Rival} (hc : (s.core core).cur = some (gr, sb))
    (hr : s.switchTo core = some r) {t : State} (h : exec (.quantumSwitch core) s = .next t) :
    (∃ y, (t.core core).cur = some (r.gr, y)) ∧ (t.core core).fresh = true ∧
      t.blocks = (s.modGroup gr fun g => { (g.modSlot sb Slot.abandon).resumeIn (s.resumeSlot core gr sb) with since := s.cycle }).blocks := by
  replace h : execQuantumSwitch core s = .next t := h
  unfold execQuantumSwitch at h
  simp only [hc, hr] at h
  obtain rfl := Host.Outcome.next.inj h
  rw [core_chosen]
  exact ⟨⟨_, rfl⟩, rfl, rfl⟩

theorem quantumSwitch_next (core : Nat) (s : State) : ∃ t, exec (.quantumSwitch core) s = .next t := by
  show ∃ t, execQuantumSwitch core s = .next t
  unfold execQuantumSwitch
  split
  · exact ⟨_, rfl⟩
  · exact ⟨_, rfl⟩

/-! ## Completion in the block's list of operations -/

theorem planeLast_keeps (tl num : Nat) (b : Block) : (planeLast tl num b).ops = b.ops ∧ (planeLast tl num b).groups = b.groups ∧
    Stays (planeLast tl num) := by
  unfold planeLast
  split
  · exact ⟨rfl, rfl, fun _ => rfl, fun _ => rfl, fun _ => ⟨rfl, rfl, rfl, rfl⟩⟩
  · exact ⟨rfl, rfl, fun _ => rfl, fun _ => rfl, fun _ => ⟨rfl, rfl, rfl, rfl⟩⟩

theorem modBlock_self (s : State) (n : Nat) : (s.modBlock n fun b => b) = s := by
  unfold State.modBlock
  simp only [ite_self, List.map_id']

theorem engineOpComplete_next {s : State} {gr : GRef} {b : Block} {g : Group} (hb : s.block? gr.blk = some b) (hg : s.group? gr = some g) {tl num : Nat}
    (htl : tl < 4) {o : EngOp} (ho : b.op? tl num = some o) (hs : o.state = .worked) :
    ∃ t b' o', exec (.engineOpComplete gr.blk (4 * num + tl)) s = .next t ∧ t.block? gr.blk = some b' ∧ b'.op? tl num = some o' ∧
      o' = { o with state := .done, rel := o'.rel } ∧ (∀ x ∈ b.ops, ¬ (x.tl = tl ∧ x.num = num) → x ∈ b'.ops) ∧ t.group? gr = some g ∧
      ∀ l, t.byte l = s.byte l := by
  obtain ⟨u, hu, he⟩ := engineOpComplete_completes hb htl ho hs
  obtain ⟨hops, hgroups, hstays⟩ := planeLast_keeps tl num (b.modOp tl num completedOp)
  have hstaysOp : Stays fun b => b.modOp tl num completedOp := ⟨fun _ => rfl, fun _ => rfl, fun _ => ⟨rfl, rfl, rfl, rfl⟩⟩
  have hub : u.block? gr.blk = some (b.modOp tl num completedOp) := by
    rw [hu.block?]
    exact (block?_modBlock s gr.blk gr.blk _ hstaysOp.id).trans (by rw [if_pos rfl, hb]; rfl)
  have ht : (u.modBlock gr.blk (planeLast tl num)).block? gr.blk = some (planeLast tl num (b.modOp tl num completedOp)) :=
    (block?_modBlock u gr.blk gr.blk _ hstays.id).trans (by rw [if_pos rfl, hub]; rfl)
  refine ⟨u.modBlock gr.blk (planeLast tl num), _, completedOp o, ?_, ht, ?_, rfl, ?_, ?_, ?_⟩
  · rw [he]
    by_cases h : tl = 2
    · rw [if_pos h, h]
    · rw [if_neg h, show planeLast tl num = fun b => b from funext fun b => if_neg h, modBlock_self]
  · rw [Block.op?, hops]
    exact op?_modOp ho fun _ => ⟨rfl, rfl⟩
  · intro x hx hne
    rw [hops]
    refine List.mem_map.2 ⟨x, hx, if_neg ?_⟩
    simpa [EngOp.is] using hne
  · rw [State.group?, ht, Option.bind_some, hgroups]
    rw [State.group?, hb] at hg
    exact hg
  · intro l
    rw [byte_modBlock u gr.blk _ l hstays.id hstays.stores, hu.byte]
    exact byte_modBlock s gr.blk _ l hstaysOp.id hstaysOp.stores

/-! ## Retirement (R163, R232) -/

/-- A group that retires. -/
def retiring (g : Group) : Group := { g.release with retired := true, memq := [], cpas := [], ldcnt := 0 }

/-- The block of a group that retires, having done what c says. -/
def leaving (n : Nat) (c : Clock) (b : Block) : Block := (List.range 16).foldl Block.checkBar { b.modGroup n retiring with rel := clockJoin b.rel c }

theorem foldl_checkBar_eq (l : List Nat) (b : Block) : ∃ x, l.foldl Block.checkBar b = { b with bars := x } := by
  induction l generalizing b with
  | nil => exact ⟨_, rfl⟩
  | cons n l ih =>
    obtain ⟨x, hx⟩ := checkBar_eq b n
    obtain ⟨y, hy⟩ := ih (b.checkBar n)
    exact ⟨y, by rw [List.foldl_cons, hy, hx]⟩

theorem leaving_eq (n : Nat) (c : Clock) (b : Block) : ∃ x, leaving n c b = { b.modGroup n retiring with rel := clockJoin b.rel c, bars := x } :=
  foldl_checkBar_eq _ _

theorem leaving_id (n : Nat) (c : Clock) (b : Block) : (leaving n c b).id = b.id := by
  obtain ⟨x, hx⟩ := leaving_eq n c b
  rw [hx]
  rfl

theorem checkSpan_eq (s : State) (key : Nat) : ∃ l, s.checkSpan key = { s with spans := l } := by
  unfold State.checkSpan
  split
  · exact ⟨_, rfl⟩
  · split
    · exact ⟨_, rfl⟩
    · exact ⟨_, rfl⟩

/-- A group's retirement, before its block's. -/
structure LeavesBlock (s u : State) (gr : GRef) (b : Block) : Prop where
  block : ∃ b1, u.block? gr.blk = some b1 ∧ b1.groups = modAt b.groups gr.grp retiring ∧ b1.lin = b.lin ∧ b1.grid = b.grid ∧ b1.aborted = b.aborted
  others : ∀ n, n ≠ gr.blk → u.block? n = s.block? n
  grids : u.grids = s.grids

theorem modBlock_thrice (u : State) (gr : GRef) (f : Group → Group) (c : Clock) {k : Block → Block} :
    ((u.modGroup gr f).modBlock gr.blk fun b => { b with rel := clockJoin b.rel c }).modBlock gr.blk k =
      u.modBlock gr.blk fun b => k { b.modGroup gr.grp f with rel := clockJoin b.rel c } := by
  unfold State.modGroup
  rw [modBlock_modBlock u gr.blk (fun b => b.modGroup gr.grp f) _ fun _ => rfl]
  exact modBlock_modBlock u gr.blk (fun b => { b.modGroup gr.grp f with rel := clockJoin b.rel c }) _ fun _ => rfl

theorem modBlock_leaving (u : State) (gr : GRef) (c : Clock) :
    ((u.modGroup gr retiring).modBlock gr.blk fun b => { b with rel := clockJoin b.rel c }).modBlock gr.blk
      (fun b => (List.range 16).foldl Block.checkBar b) = u.modBlock gr.blk (leaving gr.grp c) := modBlock_thrice u gr retiring c

/-- The machine once the group has left its block and its span. -/
def left (s : State) (gr : GRef) (g : Group) (key : Nat) : State :=
  let u := ((s.unpin g.agent).modGroup gr retiring).modBlock gr.blk fun b => { b with rel := clockJoin b.rel g.doneClock }
  ((u.modBlock gr.blk fun b => (List.range 16).foldl Block.checkBar b).modSpan key fun x => { x with rel := clockJoin x.rel g.doneClock }).checkSpan key

theorem leavesBlock_left {s : State} {gr : GRef} {b : Block} (hb : s.block? gr.blk = some b) (g : Group) (key : Nat) :
    LeavesBlock s (left s gr g key) gr b := by
  unfold left
  simp only [modBlock_leaving]
  generalize g.doneClock = c
  obtain ⟨l, hspan⟩ := checkSpan_eq (((s.unpin g.agent).modBlock gr.blk (leaving gr.grp c)).modSpan key fun x => { x with rel := clockJoin x.rel c }) key
  rw [hspan]
  have hblock : ∀ n, ((s.unpin g.agent).modBlock gr.blk (leaving gr.grp c)).block? n =
      if n = gr.blk then (s.block? n).map (leaving gr.grp c) else s.block? n := fun n => by
    rw [block?_modBlock _ _ _ _ (leaving_id gr.grp c), (same_unpin s g.agent).block?]
  refine ⟨⟨leaving gr.grp c b, (hblock gr.blk).trans ?_, ?_⟩, fun n hn => (hblock n).trans (if_neg hn), rfl⟩
  · rw [if_pos rfl, hb]
    rfl
  · obtain ⟨x, hx⟩ := leaving_eq gr.grp c b
    rw [hx]
    exact ⟨rfl, rfl, rfl, rfl⟩

theorem leavesBlock_settled {s u : State} {gr : GRef} {b : Block} (h : LeavesBlock s u gr b) (src dst : Nat) (m : MsgBody) :
    LeavesBlock s ((u.modBlock gr.blk fun b => { b with settled := true }).send src dst m) gr b := by
  obtain ⟨⟨b1, hb1, h1⟩, hothers, hgrids⟩ := h
  have hblock : ∀ n, ((u.modBlock gr.blk fun b => { b with settled := true }).send src dst m).block? n = _ := fun n =>
    ((same_send _ src dst m).block? n).trans (block?_modBlock u gr.blk n _ fun _ => rfl)
  refine ⟨⟨{ b1 with settled := true }, ?_, h1⟩, fun n hn => ?_, hgrids⟩
  · rw [hblock, if_pos rfl, hb1]
    rfl
  · rw [hblock, if_neg hn, hothers n hn]

theorem groupRetire_leaves {s : State} {gr : GRef} {b : Block} {g : Group} (hb : s.block? gr.blk = some b) (hg : s.group? gr = some g)
    (hp : b.place.isSome = true) (ha : b.aborted = false) (hr : g.retired = false) (hl : g.live = 0) (hq : g.quiet = true)
    (hc : g.cpas.all (·.done) = true) : ∃ u, LeavesBlock s u gr b ∧ exec (.groupRetire gr) s = .next (u.retireBlock gr.blk) := by
  have hcond : (b.place.isNone || b.aborted || g.retired || g.live != 0 || !g.quiet || g.cpas.any fun c => !c.done) = false := by
    have hcpas : (g.cpas.any fun c => !c.done) = false := by
      rw [List.any_eq_false]
      intro x hx
      simpa using List.all_eq_true.1 hc x hx
    rw [Option.isNone_eq_false_iff.2 hp, ha, hr, hl, hq, hcpas]
    rfl
  have hleft := leavesBlock_left hb g b.span
  show ∃ u, LeavesBlock s u gr b ∧ execGroupRetire gr s = _
  unfold execGroupRetire
  simp only [hb, hg, hcond, Bool.false_eq_true, if_false]
  cases b.handler with
  | none => exact ⟨left s gr g b.span, hleft, rfl⟩
  | some h =>
    by_cases hset : b.settled = true
    · simp only [hset, if_true]
      exact ⟨left s gr g b.span, hleft, rfl⟩
    · simp only [hset]
      exact ⟨_, leavesBlock_settled hleft _ _ _, rfl⟩

/-! ## A block that retires -/

theorem shape_moveCpa (s : State) (gr : GRef) (k : Nat) (now : Nat → Bool) : shape (s.moveCpa gr k now) = shape s := by
  unfold State.moveCpa
  split
  · split
    · rfl
    · next c _ =>
      split
      · rfl
      · refine shape_ite ((shape_modGroup _ _ _).trans (shape_foldl (fun u x => ?_) _ _)) ((shape_modGroup _ _ _).trans (shape_foldl (fun u x => ?_) _ _))
        all_goals
          split
          · exact shape_perform _ _ _ _
          · rfl
  · rfl

theorem shape_performOwed (s : State) (id : Nat) : shape (s.performOwed id) = shape s := by
  unfold State.performOwed
  refine (shape_foldl (fun u (x : GRef × Group) => shape_foldl (fun v k => shape_moveCpa v x.1 k _) _ u) _ _).trans
    (shape_foldl (fun u (x : GRef × Group) => shape_foldl (fun v m => ?_) _ u) _ _)
  exact shape_ite (shape_performLanes _ _ _ _) rfl

theorem grid?_of_shape {s t : State} (h : shape t = shape s) {n : Nat} {gd : Grid} (hg : s.grid? n = some gd) :
    ∃ gd', t.grid? n = some gd' ∧ gridShape gd' = gridShape gd := by
  have hfind : ∀ u : State, ((shape u).grids.find? fun g => g.gid == n) = (u.grid? n).map gridShape := fun u => List.find?_map
  have hmap : (t.grid? n).map gridShape = some (gridShape gd) := by rw [← hfind, h, hfind, hg]; rfl
  exact Option.map_eq_some_iff.1 hmap

theorem grids_dropBlock (s : State) (id : Nat) : (s.dropBlock id).grids = (s.performOwed id).grids := rfl

theorem block?_dropBlock (s : State) (id : Nat) : (s.dropBlock id).block? id = none := by
  show List.find? _ ((s.performOwed id).blocks.filter fun b => b.id != id) = none
  rw [List.find?_eq_none]
  intro b hb
  have := (List.mem_filter.1 hb).2
  simpa using this

theorem retire_done (g : Grid) (lin : Nat) (c : Clock) (stats : List Nat) : (g.retire lin c stats).done lin = true := by
  unfold Grid.done Grid.retire
  simp only [Bool.or_eq_true, decide_eq_true_eq, List.contains_iff_mem, List.mem_filter]
  by_cases h : lin < lowest (lin :: g.retired) (lin :: g.retired).length g.low
  · exact .inl h
  · exact .inr ⟨List.mem_cons_self, Nat.le_of_not_lt h⟩

theorem grid?_modGrid_self {s : State} {n : Nat} {gd : Grid} (h : s.grid? n = some gd) {f : Grid → Grid} (hf : ∀ g, (f g).gid = g.gid) :
    (s.modGrid n f).grid? n = some (f gd) := by
  refine (Driver.find?_map_replace s.grids (·.gid) f n n fun g hg => (hf g).trans hg).trans ?_
  have hid : gd.gid = n := by simpa using List.find?_some h
  show (s.grid? n).map _ = _
  rw [h, Option.map_some, if_pos hid]

theorem retireBlock_drops {u : State} {id : Nat} {b : Block} (hb : u.block? id = some b) (hr : b.groups.all (·.retired) = true) (ha : b.aborted = false) :
    (u.retireBlock id).block? id = none ∧ ∀ gd, u.grid? b.grid = some gd →
      ∃ gd', (u.retireBlock id).grid? b.grid = some gd' ∧ gd'.done b.lin = true ∧ gd'.active = gd.active.filter fun n => n != b.lin := by
  have hdrop : u.retireBlock id = ((u.modGrid b.grid fun g => g.retire b.lin b.rel b.stats).dropBlock id).checkSpan b.span := by
    unfold State.retireBlock
    simp only [hb, hr, ha, Bool.not_false, Bool.and_self, if_true]
  obtain ⟨l, hspan⟩ := checkSpan_eq ((u.modGrid b.grid fun g => g.retire b.lin b.rel b.stats).dropBlock id) b.span
  rw [hdrop, hspan]
  refine ⟨block?_dropBlock _ _, fun gd hgd => ?_⟩
  obtain ⟨gd', hgd', hs⟩ := grid?_of_shape (shape_performOwed (u.modGrid b.grid fun g => g.retire b.lin b.rel b.stats) id)
    (grid?_modGrid_self hgd fun _ => rfl)
  refine ⟨gd', hgd', ?_, (congrArg Grid.active hs :)⟩
  have hdone : gd'.done b.lin = (gd.retire b.lin b.rel b.stats).done b.lin := by
    have hlow : gd'.low = _ := (congrArg Grid.low hs :)
    have hretired : gd'.retired = _ := (congrArg Grid.retired hs :)
    unfold Grid.done
    rw [hlow, hretired]
    rfl
  rw [hdone, retire_done]

theorem retireBlock_stays {u : State} {id : Nat} {b : Block} (hb : u.block? id = some b) (hr : b.groups.all (·.retired) = false) :
    u.retireBlock id = u := by
  unfold State.retireBlock
  simp only [hb, hr, Bool.false_and, Bool.false_eq_true, if_false]

theorem group?_left {s u : State} {gr : GRef} {b : Block} (h : LeavesBlock s u gr b) (hb : s.block? gr.blk = some b) {o : GRef} (hne : o ≠ gr) :
    u.group? o = s.group? o := by
  obtain ⟨⟨b1, hb1, hgroups, -⟩, hothers, -⟩ := h
  unfold State.group?
  by_cases hblk : o.blk = gr.blk
  · have hgrp : o.grp ≠ gr.grp := fun e => hne (by cases o; cases gr; simp_all)
    rw [hblk, hb1, hb, Option.bind_some, Option.bind_some, hgroups, get_modAt, if_neg hgrp]
  · rw [hothers _ hblk]

theorem group?_left_self {s u : State} {gr : GRef} {b : Block} {g : Group} (h : LeavesBlock s u gr b) (hg : b.groups[gr.grp]? = some g) :
    u.group? gr = some (retiring g) := by
  obtain ⟨⟨b1, hb1, hgroups, -⟩, -⟩ := h
  rw [State.group?, hb1, Option.bind_some, hgroups, get_modAt, if_pos rfl, hg]
  rfl

theorem not_all_retired {b : Block} {n j : Nat} {x : Group} (hj : j ≠ n) (hx : b.groups[j]? = some x) (hr : x.retired = false) :
    (modAt b.groups n retiring).all (·.retired) = false := by
  refine Bool.eq_false_iff.2 fun hall => ?_
  have hmem : x ∈ modAt b.groups n retiring := List.mem_of_getElem? (by rw [get_modAt, if_neg hj]; exact hx)
  rw [List.all_eq_true.1 hall x hmem] at hr
  cases hr

theorem all_retired {b : Block} {n : Nat} (h : ∀ j x, b.groups[j]? = some x → j ≠ n → x.retired = true) :
    (modAt b.groups n retiring).all (·.retired) = true := by
  rw [List.all_eq_true]
  intro x hx
  obtain ⟨j, hj⟩ := List.mem_iff_getElem?.1 hx
  rw [get_modAt] at hj
  split at hj
  · obtain ⟨y, -, rfl⟩ := Option.map_eq_some_iff.1 hj
    rfl
  · next hne => exact h j x hj hne

/-! ## Traps of engine operations (R177, R396) -/

/-- A group that takes the trap of a stopped operation, its part p of which stands where it stopped. -/
def unstopped (st : Stop) (p : Part) (g : Group) : Group :=
  { g with stopped := g.stopped.erase st, pix := BitVec.ofNat 64 p.pix, ivec := p.ivec.map (BitVec.ofNat 64 ·) }

theorem trapEntry_takes {s : State} {gr : GRef} {b : Block} {g : Group} {st : Stop} {o : EngOp} {c : Trap} {p : Part} (hb : s.block? gr.blk = some b)
    (hg : s.group? gr = some g) (hp : b.place.isSome = true) (ha : b.aborted = false) (hr : g.retired = false) (hk : g.parked = false)
    (hw : g.awaitsHome = false) (hm : g.memq = []) (hs : g.stopped = [st]) (hd : g.traps.length ≤ st.depth) (ho : b.op? st.tl st.num = some o)
    (hst : o.state = .stopped c) (hpart : o.parts.find? (fun p => p.grp == gr.grp) = some p) :
    exec (.trapEntry gr) s = .next (s.ifPinned gr ((s.modGroup gr (unstopped st p)).takeTrap
      gr p.slotB (if p.pre.isSome then p.epc - 4 else p.epc) c ⟨some (st.tl, st.num), []⟩ [p.entry])) := by
  have hdue : g.due = some st := by rw [Group.due, hs, List.find?_cons_of_pos (p := fun x : Stop => decide (g.traps.length ≤ x.depth)) (decide_eq_true hd)]
  have hblock : (s.modGroup gr fun g => { g with stopped := g.stopped.erase st }).block? gr.blk = some (b.modGroup gr.grp _) := block?_modGroup_self _ hb
  have hop : ((s.modGroup gr fun g => { g with stopped := g.stopped.erase st }).block? gr.blk).bind (fun b => b.op? st.tl st.num) = some o := by
    rw [hblock, Option.bind_some]
    exact ho
  show execTrapEntry gr s = _
  unfold execTrapEntry
  simp only [hb, hg, Option.isNone_eq_false_iff.2 hp, ha, hr, hk, hw, Bool.or_self, Bool.false_eq_true, if_false, hdue, acceptAll_empty hg hm,
    Option.map_some, Option.getD_some, hm, List.all_nil, Bool.not_true, hop, hst, hpart]
  rw [modGroup_modGroup]
  rfl

/-! ## Binning jobs (R201) -/

/-- The first job of its die's queue goes on by one step. -/
theorem binningJob_steps {s : State} {blk : Nat} {b : Block} {j : BinJob} {o : EngOp} (hb : s.block? blk = some b)
    (hj : s.binJobs.find? (fun x => x.die == dieOf (b.place.getD 0)) = some j) (hblk : j.blk = blk) (ho : b.op? 2 j.num = some o) (t : State) :
    let left := s.binJobs.filter fun y => y != j
    (s.binJob b o = .ok (t, false) → exec (.binningJob blk) s = .next t) ∧
      (s.binJob b o = .ok (t, true) → exec (.binningJob blk) s = .next ({ t with binJobs := left }.endOp blk o)) ∧
      ∀ e, s.binJob b o = .error e → exec (.binningJob blk) s = .next ({ s with binJobs := left }.modBlock blk fun b => b.stopOp o.unplanned e) := by
  have hexec : exec (.binningJob blk) s = execBinningJob blk s := rfl
  refine ⟨fun h => ?_, fun h => ?_, fun e h => ?_⟩
  all_goals
    rw [hexec]
    unfold execBinningJob
    simp only [hb, hj, hblk, ne_eq, not_true_eq_false, if_false, ho, h]

theorem group?_of_blocks {s t : State} (h : t.blocks = s.blocks) (o : GRef) : t.group? o = s.group? o := by
  unfold State.group? State.block?
  rw [h]

/-- Settles O44. -/
theorem unitsCarryOn : Obligations.UnitsCarryOn := by
  unfold Obligations.UnitsCarryOn
  intro s gr b g hb hg
  have hgroup : b.groups[gr.grp]? = some g := by
    rw [State.group?, hb] at hg
    exact hg
  refine ⟨fun m hm ha ht => ?_, fun ctx agent va tr hv hw hn => walk_held hv hw hn, fun core sb hc hf hp hr => ?_,
    fun tl num o htl ho hs => engineOpComplete_next hb hg htl ho hs, fun hp ha hr hl hq hc => ?_,
    fun st o c p hp ha hr hk hw hm hs hd ho hst hpart => trapEntry_takes hb hg hp ha hr hk hw hm hs hd ho hst hpart, fun j o t hj hblk ho => ?_⟩
  · refine ⟨_, loadComplete_drops hg hm ha ht, group?_modGroup_self _ hg, fun o ho => group?_modGroup_ne _ ho, fun l => byte_modGroup ..⟩
  · obtain ⟨r, hto, hmem, hne, hq, hlongest⟩ := switchTo_longest hg hc hf hp hr
    obtain ⟨t, ht⟩ := quantumSwitch_next core s
    obtain ⟨⟨y, hcur⟩, hfresh, hblocks⟩ := quantumSwitch_leaves hc hto ht
    exact ⟨t, r, y, ht, hmem, hne, hq, hlongest, hcur, hfresh, (group?_of_blocks hblocks gr).trans (group?_modGroup_self _ hg),
      fun o ho => (group?_of_blocks hblocks o).trans (group?_modGroup_ne _ ho)⟩
  · obtain ⟨u, hu, he⟩ := groupRetire_leaves hb hg hp ha hr hl hq hc
    obtain ⟨b1, hb1, hgroups, hlin, hgrid, hab⟩ := hu.block
    refine ⟨fun hj => ?_, fun hall => ?_⟩
    · obtain ⟨j, x, hj, hx, hxr⟩ := hj
      rw [retireBlock_stays hb1 (by rw [hgroups]; exact not_all_retired hj hx hxr)] at he
      exact ⟨u, _, he, group?_left_self hu hgroup, rfl, rfl, rfl, rfl, rfl, rfl, fun o ho => group?_left hu hb ho⟩
    · obtain ⟨hnone, hret⟩ := retireBlock_drops hb1 (by rw [hgroups]; exact all_retired hall) (hab.trans ha)
      refine ⟨_, he, hnone, fun gd hgd => ?_⟩
      rw [hgrid, hlin] at hret
      refine hret gd ?_
      rw [State.grid?, hu.grids]
      exact hgd
  · exact binningJob_steps hb hj hblk ho t

end Sys2Proof.Proofs.Units
end

section
/-! SUPPORT. Two blocks of one number (O47). -/

namespace Sys2Proof.Proofs.TwinBlocks

open Sys2Proof Sys2Proof.Machine Sys2Proof.Laws

/-- A block without groups on cluster 0, numbered 5, of PRI 1. -/
def twin (span spr : Nat) (idem : Bool) : Block := { freshBlock 5 0 0 0 ⟨0, 0, spr, false, false, false⟩ 1 0 0 span 0 1 with idem := idem }

/-- A handler of PRI 0 that is to run on cluster 0. -/
def urgent : PendH := ⟨⟨0, 0, 0, 1, [], 0, 0, 0, [], none⟩, 0, 0, 0⟩

/-- Two blocks of one number, the first of which is idempotent and fills its cluster, and a handler of PRI 0 that waits for that cluster. -/
def twins : State :=
  { State.reset with
    ctxs := [{ Context.fresh 0 with csasz := 2 ^ 40 }]
    blocks := [twin 1 262144 true, twin 2 0 false]
    pendH := [urgent] }

/-- The handler as a candidate. -/
def urgentCand : Cand := ⟨.handler 0, .handler 0, 0, 0, 0, 0, ⟨1, 64, 0, false, false, true⟩, 1, 1, some 0, 0⟩

theorem displacement_twins : twins.displacement = some (urgentCand, [5]) := by decide +kernel

theorem block_twins : twins.block? 5 = some (twin 1 262144 true) := rfl

theorem members_twins : twins.members 2 = [twin 2 0 false] := by decide +kernel

/-- Once the first of the twins has been discarded, no block of its number is left. -/
theorem pri0_twins {t : State} (h : exec .pri0Displacement twins = .next t) : t.block? 5 = none := by
  replace h : execPri0Displacement twins = .next t := h
  unfold execPri0Displacement at h
  rw [displacement_twins] at h
  obtain rfl := Host.Outcome.next.inj h
  decide +kernel

/-- Refutes O47, in its last clause, which speaks of every state: where two blocks have one number and the first is idempotent, the discard of the
first takes the second too, which is to be saved. -/
theorem not_workStops : ¬ Obligations.WorkStops := by
  intro h
  obtain ⟨-, -, -, hdisplaces⟩ := h twins 5 (twin 1 262144 true) block_twins
  obtain ⟨-, -, -, -, t, ht, -, hleaves⟩ := hdisplaces urgentCand [5] displacement_twins
  have htwin := hleaves (twin 2 0 false) (List.mem_cons_of_mem _ List.mem_cons_self) List.mem_cons_self rfl
  rw [if_neg] at htwin
  · obtain ⟨y, hy, -⟩ := htwin
    cases (pri0_twins ht).symm.trans hy
  · intro hall
    have := hall (twin 2 0 false) (by rw [show (twin 2 0 false).span = 2 from rfl, members_twins]; exact List.mem_cons_self)
    cases this

end Sys2Proof.Proofs.TwinBlocks
end

section
/-! SUPPORT. Blocks, handlers and saved spans start (R208, R214, R331, R342): O46. -/

namespace Sys2Proof.Proofs.Starts

open Sys2Proof Sys2Proof.Machine Sys2Proof.Laws Sys2Proof.Proofs.Frames Sys2Proof.Proofs.Lanes Sys2Proof.Proofs.Units

/-! ## What Zenith's choice leaves -/

theorem foldl_ctxs {α : Type} {f : State → α → State} (hf : ∀ s x, ∃ l, f s x = { s with ctxs := l }) (l : List α) (s : State) :
    ∃ c, l.foldl f s = { s with ctxs := c } := by
  induction l generalizing s with
  | nil => exact ⟨_, rfl⟩
  | cons x l ih =>
    obtain ⟨c, hc⟩ := hf s x
    obtain ⟨d, hd⟩ := ih (f s x)
    exact ⟨d, by rw [List.foldl_cons, hd, hc]⟩

/-- The refill of credit changes contexts alone. -/
theorem refilled_eq (s : State) : ∃ l, s.refilled = { s with ctxs := l } := by
  refine foldl_ctxs (fun u p => ?_) _ _
  dsimp only
  split
  · exact ⟨_, rfl⟩
  · exact ⟨_, rfl⟩

/-! ## A grid's block -/

theorem foldl_fixed {α β : Type} {f : β → α → β} {s : β} (h : ∀ x, f s x = s) (l : List α) : l.foldl f s = s := by
  induction l with
  | nil => rfl
  | cons x l ih => rw [List.foldl_cons, h, ih]

/-- A block without arguments takes none. -/
theorem takeArgs_none (s : State) (id : Nat) {r : LRec} (h : r.narg = 0) : s.takeArgs id r none = s := by
  have hwords : ∀ who, State.argWords s who r.args r.narg = .ok [] := fun who => by rw [h]; rfl
  unfold State.takeArgs
  split
  · rfl
  · refine foldl_fixed (fun i => ?_) _
    dsimp only
    split
    · split
      · rfl
      · rw [hwords]
        exact modGroup_same s _
    · rfl

/-- The groups of a block that starts from a launch record. -/
def startGroups (s : State) (g : Grid) (lin : Nat) : List Group :=
  (List.range g.lrec.groups).map fun i =>
    freshGroup g.lrec.av i (launchedLanes (g.lrec.tx * g.lrec.ty * g.lrec.tz) i g.lrec.help) (helpLanes (g.lrec.tx * g.lrec.ty * g.lrec.tz) i g.lrec.help)
      g.lrec.entry g.lrec.dstkBase g.lrec.dstkSz g.lrec.spillBase g.lrec.spillSz (s.nextAgent + i) s.cycle (g.startClock lin)

theorem group_started {s : State} {g : Grid} {lin k : Nat} {x : Group} (h : (startGroups s g lin)[k]? = some x) :
    x.slotA.pc = g.lrec.entry ∧ x.slotB.isFree = true ∧ x.mode = 0x1F ∧ x.flags = 0 ∧ x.v = [] ∧ x.s = [] ∧
      (∀ l, l < 32 → (laneIn x.slotA.mask l = true ↔ g.lrec.help = true ∨ 32 * k + l < g.lrec.tx * g.lrec.ty * g.lrec.tz)) ∧
      (∀ l, l < 32 → (laneIn x.helper l = true ↔ g.lrec.help = true ∧ g.lrec.tx * g.lrec.ty * g.lrec.tz ≤ 32 * k + l)) := by
  unfold startGroups at h
  rw [List.getElem?_map] at h
  obtain ⟨i, hi, rfl⟩ := Option.map_eq_some_iff.1 h
  obtain ⟨-, rfl⟩ := List.getElem?_eq_some_iff.1 hi
  rw [List.getElem_range]
  refine ⟨rfl, rfl, rfl, rfl, rfl, rfl, fun l hl => ?_, fun l hl => ?_⟩
  · refine (Bool.eq_iff_iff.1 (laneIn_maskOf _ hl)).trans ?_
    rw [Bool.or_eq_true, decide_eq_true_eq]
  · refine (Bool.eq_iff_iff.1 (laneIn_maskOf _ hl)).trans ?_
    rw [Bool.and_eq_true, decide_eq_true_eq]

/-- A span of one block starts as one block at the end of the list. -/
theorem startSpan_one (s : State) {gd : Grid} {lin m cluster : Nat} (hl : gd.spanLeft lin = [m]) (hn : gd.lrec.narg = 0) (hs : gd.s0s1 = none) :
    ∃ b, (s.startSpan gd lin [cluster]).blocks = s.blocks ++ [b] ∧ b.groups = startGroups s gd m ∧
      b.place = some cluster ∧ b.grid = gd.gid ∧ b.lin = m ∧ b.spanIdx = m - lin ∧ b.ctx = gd.ctx ∧ b.bx = m % gd.lrec.gx ∧
      b.byy = m / gd.lrec.gx % gd.lrec.gy ∧ b.bz = m / (gd.lrec.gx * gd.lrec.gy) := by
  unfold State.startSpan
  rw [hl]
  simp only [List.length_singleton, List.range_one, List.zip_cons_cons, List.zip_nil_left, List.foldl_cons, List.foldl_nil, hs, takeArgs_none _ _ hn]
  exact ⟨_, rfl, rfl, rfl, rfl, rfl, rfl, rfl, rfl, rfl, rfl⟩

/-! ## A handler -/

theorem fireHeld_none {s : State} (h : ∀ e ∈ s.armed, e.held = none) : s.fireHeld = s := by
  have hnone : s.armed.find? (fun e => e.held.isSome && !s.storeFull e.die) = none := by
    rw [List.find?_eq_none]
    intro e he
    rw [h e he]
    exact Bool.false_ne_true
  unfold State.fireHeld
  cases s.armed.length with
  | zero => rfl
  | succ n =>
    unfold State.fireSome
    rw [hnone]

/-- The block of a handler that starts holds its invocation's registers and payload. -/
theorem startHandler_block (s : State) (h : PendH) : ∃ b g, (s.startHandler h).blocks = s.blocks ++ [b] ∧ b.place = some h.cluster ∧
    b.handler = some h.inv.own ∧ b.ctx = h.inv.ctx ∧ b.groups = [g] ∧ g.slotA.pc = h.inv.entry ∧ g.slotA.mask = -1 ∧ g.handle = h.inv.own ∧
    g.rdS 0 0 = 0x3FC00 ∧ g.rdS 0 1 = h.inv.own ∧ g.rdS 0 2 = h.inv.sender ∧ g.rdS 0 3 = h.s3 ∧ b.sp = Memory.setMany [] 0x3FC00 h.inv.payload := by
  refine ⟨_, _, rfl, rfl, rfl, rfl, rfl, rfl, rfl, rfl, ?_, ?_, ?_, ?_, rfl⟩
  all_goals
    show Group.rdS (Group.wrS (Group.wrS (Group.wrS (Group.wrS _ 0 0 0x3FC00) 0 1 _) 0 2 _) 0 3 _) 0 _ = _
    simp [rdS_wrS_ne]

theorem handlerStart_starts {s : State} {c : Cand} {k : Nat} {h : PendH} (hc : s.refilled.nextCand = some c) (hw : c.work = .handler k)
    (hp : s.pendH[k]? = some h) (ha : ∀ e ∈ s.armed, e.held = none) :
    exec (.handlerStart k) s = .next (({ s.refilled with pendH := s.pendH.eraseIdx k }.startHandler h).spend c.ctx 1) := by
  obtain ⟨l, hl⟩ := refilled_eq s
  have hpend : s.refilled.pendH = s.pendH := by rw [hl]
  have harmed : s.refilled.armed = s.armed := by rw [hl]
  show execHandlerStart k s = _
  unfold execHandlerStart
  simp only [hc, hpend, hp, hw, if_true]
  rw [fireHeld_none]
  show ∀ e ∈ s.refilled.armed, e.held = none
  rw [harmed]
  exact ha

/-! ## A saved span -/

/-- A block that returns to a cluster. -/
def returned (cycle cluster : Nat) (b : Block) : Block :=
  { b with place := some cluster, groups := b.groups.map fun (g : Group) => { g with since := cycle } }

/-- A saved block takes its cluster. -/
def comeBack (u : State) (x : Block × Nat) : State := u.modBlock x.1.id (returned u.cycle x.2)

theorem block?_comeBack (u : State) (x : Block × Nat) (n : Nat) :
    (comeBack u x).block? n = if n = x.1.id then (u.block? n).map (returned u.cycle x.2) else u.block? n := block?_modBlock _ _ _ _ fun _ => rfl

theorem block?_foldl_comeBack {n : Nat} : ∀ (xs : List (Block × Nat)) (u : State), (∀ x ∈ xs, n ≠ x.1.id) → (xs.foldl comeBack u).block? n = u.block? n
  | [], _, _ => rfl
  | x :: xs, u, h => by
    obtain ⟨hx, hxs⟩ := List.forall_mem_cons.1 h
    rw [List.foldl_cons, block?_foldl_comeBack xs _ hxs, block?_comeBack, if_neg hx]

/-- Each of the blocks of a span, whose numbers differ, stands on the cluster found for it. -/
theorem returned_foldl : ∀ (ms : List Block) (cl : List Nat) (u : State), (ms.map (·.id)).Nodup → (∀ x ∈ ms, u.block? x.id = some x) →
    ∀ x ∈ ms.zip cl, ((ms.zip cl).foldl comeBack u).block? x.1.id = some (returned u.cycle x.2 x.1)
  | [], _, _, _, _ => by simp
  | _ :: _, [], _, _, _ => by simp
  | m :: ms, k :: cl, u, hn, hb => by
    obtain ⟨hm, hms⟩ := List.nodup_cons.1 (by simpa using hn : (m.id :: ms.map (·.id)).Nodup)
    obtain ⟨hbm, hbms⟩ := List.forall_mem_cons.1 hb
    have hne : ∀ x ∈ ms, x.id ≠ m.id := fun x hx e => hm (e ▸ List.mem_map_of_mem hx)
    have hafter : ∀ x ∈ ms, (comeBack u (m, k)).block? x.id = some x := fun x hx => by
      rw [block?_comeBack, if_neg (hne x hx), hbms x hx]
    rw [List.zip_cons_cons, List.foldl_cons]
    intro x hx
    rcases List.mem_cons.1 hx with rfl | hx
    · rw [block?_foldl_comeBack _ _ fun y hy => (hne y.1 (List.of_mem_zip hy).1).symm, block?_comeBack, if_pos rfl]
      show (u.block? m.id).map _ = _
      rw [hbm]
      rfl
    · exact returned_foldl ms cl _ hms hafter x hx

theorem restoration_returns {s : State} {c : Cand} {blk cluster : Nat} {b : Block} {cl : List Nat} (hc : s.refilled.nextCand = some c)
    (hw : c.work = .saved blk) (hs : s.refilled.startable c cluster = some cl) (hb : s.block? blk = some b) (hn : (s.members b.span).Nodup)
    (hm : ∀ x ∈ s.members b.span, s.block? x.id = some x) : ∃ t, exec (.restoration blk cluster) s = .next t ∧
      ∀ x ∈ (s.members b.span).zip cl, t.block? x.1.id = some (returned s.cycle x.2 x.1) := by
  obtain ⟨l, hl⟩ := refilled_eq s
  have hblock : s.refilled.block? blk = some b := by rw [hl]; exact hb
  have hmembers : s.refilled.members b.span = s.members b.span := by rw [hl]; rfl
  have hids : ((s.members b.span).map (·.id)).Nodup := hn.map_on fun x hx y hy e => by
    have := (hm x hx).symm.trans (e ▸ hm y hy)
    exact Option.some.inj this
  refine ⟨(((s.members b.span).zip cl).foldl comeBack s.refilled).spend c.ctx ((s.members b.span).zip cl).length, ?_, fun x hx => ?_⟩
  · show execRestoration blk cluster s = _
    unfold execRestoration
    simp only [hc, hw, hs, hblock, hmembers, ne_eq, not_true_eq_false, if_false]
    rfl
  · refine (returned_foldl (s.members b.span) cl s.refilled hids (fun x hx => ?_) x hx).trans ?_
    · rw [hl]
      exact hm x hx
    · rw [hl]

/-! ## Candidates that are passed over -/

/-- The log of a candidate that a full save area holds back. -/
def logHeld (s : State) (u : State) (c : Cand) : State := { u.logFate c.ctx 0 (s.candLid c) c.lin 0 0 with saveHeld := c.entry :: u.saveHeld }

theorem logHeld_eq (s u : State) (c : Cand) : ∃ l, logHeld s u c = { u with contrail := l, saveHeld := c.entry :: u.saveHeld } := by
  unfold logHeld State.logFate
  obtain ⟨l, hl⟩ := log_eq u 3 c.ctx [0, s.candLid c, c.lin, 0, 0]
  exact ⟨l, by rw [hl]⟩

theorem foldl_logHeld (s : State) (cs : List Cand) (u : State) : ∃ l, cs.foldl (logHeld s) u =
    { u with contrail := l, saveHeld := (cs.map (·.entry)).reverse ++ u.saveHeld } := by
  induction cs generalizing u with
  | nil => exact ⟨_, rfl⟩
  | cons c cs ih =>
    obtain ⟨k, hk⟩ := logHeld_eq s u c
    obtain ⟨l, hl⟩ := ih (logHeld s u c)
    refine ⟨l, ?_⟩
    rw [List.foldl_cons, hl, hk]
    simp

theorem candidateHold_eq (s : State) : ∃ l, exec .candidateHold s = .next { s with
    contrail := l, saveHeld := (s.saveDue.map (·.entry)).reverse ++ s.saveHeld, holding := s.holdDue.toList ++ s.holding } := by
  obtain ⟨l, hl⟩ := foldl_logHeld s s.saveDue s
  refine ⟨l, ?_⟩
  show execCandidateHold s = _
  unfold execCandidateHold
  change Host.Outcome.next { s.saveDue.foldl (logHeld s) s with holding := s.holdDue.toList ++ (s.saveDue.foldl (logHeld s) s).holding } = _
  rw [hl]

theorem holdDue_of_first {s : State} {e : Entry} {n : Nat} (h : s.first = some (e, n)) (hn : n + quantum ≤ s.cycle) :
    e ∈ s.holdDue.toList ++ s.holding := by
  rw [List.mem_append]
  by_cases he : s.holding.contains e = true
  · exact .inr (List.contains_iff_mem.1 he)
  · refine .inl ?_
    unfold State.holdDue
    rw [h]
    simp only [hn, he, Bool.not_false, and_self, if_true, Option.toList_some, List.mem_singleton]

theorem saveHeld_of_cand {s : State} {x : Cand} (hx : x ∈ s.cands) (hr : s.saveRoom x.ctx x.need x.saves = false) (hf : s.fitsNowhere x = false) :
    x.entry ∈ (s.saveDue.map (·.entry)).reverse ++ s.saveHeld := by
  rw [List.mem_append, List.mem_reverse]
  by_cases he : s.saveHeld.contains x.entry = true
  · exact .inr (List.contains_iff_mem.1 he)
  · refine .inl (List.mem_map_of_mem (List.mem_filter.2 ⟨hx, ?_⟩))
    rw [hr, hf, Bool.not_eq_true] at *
    rw [he]
    rfl

/-- A candidate that holds its die keeps later work of its priority and lower from it. -/
theorem startable_held {s : State} {x c : Cand} {cl : Nat} (hx : x ∈ s.cands) (hh : x.entry ∈ s.holding) (hf : s.fitsNowhere x = true)
    (hne : x.entry ≠ c.entry) (hp : x.pri ≤ c.pri) (hd : dieOf cl = x.die) : s.startable c cl = none := by
  have hheld : s.heldDie c (dieOf cl) = true := by
    unfold State.heldDie
    rw [Bool.and_eq_true, Bool.not_eq_true', List.any_eq_true]
    refine ⟨List.isEmpty_eq_false_iff.2 (List.ne_nil_of_mem hh), x, hx, ?_⟩
    simp only [Bool.and_eq_true, List.contains_iff_mem, bne_iff_ne, ne_eq, beq_iff_eq, decide_eq_true_eq]
    exact ⟨⟨⟨⟨hh, hne⟩, hd.symm⟩, hp⟩, hf⟩
  unfold State.startable
  rw [hheld, Bool.not_true, Bool.and_false]
  rfl

theorem blockStart_starts {s : State} {c : Cand} {cluster gid lin : Nat} {cl : List Nat} {gd : Grid} (hc : s.refilled.nextCand = some c)
    (hw : c.work = .block gid lin) (hs : s.refilled.startable c cluster = some cl) (hg : s.refilled.grid? gid = some gd) :
    exec (.blockStart cluster) s = .next (s.refilled.startSpan gd lin cl) := by
  show execBlockStart cluster s = _
  unfold execBlockStart
  simp only [hc, hw, hs, hg]

/-- Settles O46. -/
theorem workStarts : Obligations.WorkStarts := by
  unfold Obligations.WorkStarts
  intro s c cluster
  obtain ⟨l, hl⟩ := refilled_eq s
  have hblocks : s.refilled.blocks = s.blocks := by rw [hl]
  refine ⟨fun hc => ⟨fun gid lin cl gd hw hs hg => ⟨blockStart_starts hc hw hs hg, ?_⟩, fun k h hw hp ha => ?_, fun blk b cl hw hs hb hn hm => ?_⟩, ?_,
    fun x hx cl hh hf hne hp hd => startable_held hx hh hf hne hp hd⟩
  · rintro m rfl hl hn hs01
    obtain ⟨b, hb, hgroups, h1, h2, h3, h4, h5, h6, h7, h8⟩ := startSpan_one s.refilled hl hn hs01 (cluster := cluster)
    refine ⟨b, hb.trans (by rw [hblocks]), h1, h2, h3, h4, h5, h6, h7, h8, ?_, fun k g hk => ?_⟩
    · rw [hgroups, startGroups, List.length_map, List.length_range]
      rfl
    · rw [hgroups] at hk
      exact group_started hk
  · obtain ⟨b, g, hb, h1, h2, h3, h4, h5, h6, h7, h8, h9, h10, h11, hsp⟩ := startHandler_block { s.refilled with pendH := s.pendH.eraseIdx k } h
    refine ⟨_, b, g, handlerStart_starts hc hw hp ha, hb.trans (by rw [hblocks]), rfl, h1, h2, h3, h4, h5, h6, h7, h8, h9, h10, h11, fun j hj => ?_⟩
    rw [hsp, get_setMany, if_pos ⟨Nat.le_add_right _ _, Nat.add_lt_add_left hj _⟩, Nat.add_sub_cancel_left]
  · exact restoration_returns hc hw hs hb hn hm
  · obtain ⟨k, hk⟩ := candidateHold_eq s
    exact ⟨_, hk, rfl, rfl, rfl, fun e he => List.mem_append_right _ he, fun e n he hn => holdDue_of_first he hn, fun x hx hr hf => saveHeld_of_cand hx hr hf⟩

end Sys2Proof.Proofs.Starts
end

section
/-! SUPPORT. Ends: ordered adds, completion, kills, the destruction of a context (R138, R337, R386, R399): O48. -/

namespace Sys2Proof.Proofs.Ends

open Sys2Proof Sys2Proof.Machine Sys2Proof.Laws Sys2Proof.Proofs.Frames Sys2Proof.Proofs.SyncWords Sys2Proof.Proofs.Units Sys2Proof.Proofs.Starts

/-! ## Writes of the device -/

theorem same_request (s : State) (l : Loc) (r : FarReq) : SameBytes s (s.request l r) := by
  unfold State.request
  split
  · exact ⟨rfl, rfl, rfl, rfl⟩
  · exact .refl s

theorem devWrite_ok {s : State} {who : Who} {a : Word} {bs : List Byte} {x : Acc}
    (h : s.checkGlobal who ⟨.gl, a, bs.length, true, false, true, false, true, true⟩ false = .ok x) :
    s.devWrite who a bs = .ok (((s.request x.loc (.write x.loc.ofs bs)).perform who x bs).unpin who.agent) := by
  unfold State.devWrite
  rw [h]

theorem shape_devWrite {s t : State} {who : Who} {a : Word} {bs : List Byte} (h : s.devWrite who a bs = .ok t) : shape t = shape s := by
  unfold State.devWrite at h
  split at h
  · obtain rfl := Except.ok.inj h
    rw [shape_unpin, shape_perform, shape_request]
  · cases h

/-- A write of the device stores its bytes and nothing else. -/
theorem stored_devWrite {s : State} {who : Who} {bs : List Byte} {x : Acc} (hs : s.holds x.loc.store = true) :
    s.Stored (((s.request x.loc (.write x.loc.ofs bs)).perform who x bs).unpin who.agent) x.loc bs := by
  have hr := same_request s x.loc (.write x.loc.ofs bs)
  have hholds : (s.request x.loc (.write x.loc.ofs bs)).holds x.loc.store = true := by
    unfold State.holds at hs ⊢
    cases h : x.loc.store <;> rw [h] at hs <;> simp only [hr.block?] at hs ⊢ <;> exact hs
  obtain ⟨hw, hk⟩ := stored_perform _ who x bs hholds
  exact ⟨fun k h => ((same_unpin _ _).byte _).trans (hw k h), fun l h => ((same_unpin _ _).byte l).trans ((hk l h).trans (hr.byte l))⟩

/-- What has been stored with a number less in hand. -/
theorem stored_agent {s t : State} {n : Nat} {l : Loc} {vs : List Byte} (h : State.Stored { s with nextAgent := n } t l vs) : s.Stored t l vs :=
  ⟨h.written, fun x hx => (h.kept x hx).trans rfl⟩

theorem shape_writeComp (s : State) (ctx : Nat) (comp : Word) (status lid : Nat) (c : Clock) :
    ∃ n, shape (s.writeComp ctx comp status lid c) = shape { s with nextAgent := n } := by
  unfold State.writeComp
  split
  · exact ⟨s.nextAgent, rfl⟩
  · refine ⟨s.nextAgent + 1, ?_⟩
    dsimp only
    split
    · next h => exact shape_devWrite h
    · exact shape_log _ _ _ _

theorem shape_writeStats (s : State) (g : Grid) : shape (s.writeStats g) = shape { s with nextAgent := s.nextAgent + 1 } := by
  unfold State.writeStats
  dsimp only
  split
  · next h => exact shape_devWrite h
  · exact shape_log _ _ _ _

/-! ## A grid ends (R337) -/

/-- The machine before the grid's entry goes: its statistics, then its completion word. -/
def reported (s : State) (g : Grid) : State :=
  let counts := !g.aborted && g.lrec.stats != 0
  let c := if counts then clockSet (clockJoin g.clock g.rel) s.nextAgent 1 else clockJoin g.clock g.rel
  (if counts then s.writeStats g else s).writeComp g.ctx g.lrec.comp (if g.aborted then 5 else 0) g.lid c

theorem shape_reported (s : State) (g : Grid) : ∃ n, shape (reported s g) = shape { s with nextAgent := n } := by
  obtain ⟨n, hn⟩ := shape_writeComp (if !g.aborted && g.lrec.stats != 0 then s.writeStats g else s) g.ctx g.lrec.comp (if g.aborted then 5 else 0) g.lid
    (if !g.aborted && g.lrec.stats != 0 then clockSet (clockJoin g.clock g.rel) s.nextAgent 1 else clockJoin g.clock g.rel)
  have hstats : shape { (if !g.aborted && g.lrec.stats != 0 then s.writeStats g else s) with nextAgent := n } = shape { s with nextAgent := n } := by
    split
    · exact congrArg (fun u : State => { u with nextAgent := n }) (shape_writeStats s g)
    · rfl
  exact ⟨n, hn.trans hstats⟩

/-- A grid's entry ends, and grids that waited for it may start. -/
def entryEnds (u : State) (gid : Nat) (g : Grid) (c : Clock) : State :=
  { u with
    grids := (u.grids.filter fun (x : Grid) => x.gid != gid).map fun (x : Grid) =>
      if x.ctx = g.ctx ∧ x.after = g.lid then { x with after := 0, clock := clockJoin x.clock c } else x
    completed := (g.ctx, g.lid, c) :: u.completed.filter fun x => x.1 != g.ctx || x.2.1 != g.lid }

theorem completionWrite_ends {s : State} {gid : Nat} {g : Grid} (hg : s.grid? gid = some g) (ho : s.gridOver g = true) (ha : ∀ e ∈ s.armed, e.held = none) :
    ∃ c, exec (.completionWrite gid) s = .next (entryEnds (reported s g) gid g c) := by
  obtain ⟨n, hn⟩ := shape_reported s g
  have harmed : (reported s g).armed = s.armed := (congrArg State.armed hn :)
  refine ⟨let counts := !g.aborted && g.lrec.stats != 0
    let c := if counts then clockSet (clockJoin g.clock g.rel) s.nextAgent 1 else clockJoin g.clock g.rel
    if g.lrec.comp = 0 then c else clockSet c (if counts then s.writeStats g else s).nextAgent 1, ?_⟩
  show execCompletionWrite gid s = _
  unfold execCompletionWrite
  simp only [hg, ho, Bool.not_true, Bool.false_eq_true, if_false]
  refine congrArg Host.Outcome.next (fireHeld_none ?_)
  show ∀ e ∈ (reported s g).armed, e.held = none
  rw [harmed]
  exact ha

theorem grid?_entryEnds (u : State) (gid : Nat) (g : Grid) (c : Clock) : (entryEnds u gid g c).grid? gid = none := by
  show List.find? _ ((u.grids.filter fun x => x.gid != gid).map _) = none
  rw [List.find?_eq_none]
  intro x hx
  obtain ⟨y, hy, rfl⟩ := List.mem_map.1 hx
  have hne := (List.mem_filter.1 hy).2
  split <;> simpa using hne

theorem byte_entryEnds (u : State) (gid : Nat) (g : Grid) (c : Clock) (l : Loc) : (entryEnds u gid g c).byte l = u.byte l := rfl

theorem mem_of_map_eq {α β : Type} {f : α → β} {l m : List α} (h : l.map f = m.map f) {x : α} (hx : x ∈ l) : ∃ y ∈ m, f y = f x :=
  List.mem_map.1 (h ▸ List.mem_map_of_mem hx)

/-- A grid that waited for the one that ends waits no longer. -/
theorem after_entryEnds {s u : State} {n gid : Nat} {g y : Grid} (hs : shape u = shape { s with nextAgent := n }) (c : Clock) (hy : y ∈ s.grids)
    (hne : y.gid ≠ gid) (hctx : y.ctx = g.ctx) (ha : y.after = g.lid) : ∃ z ∈ (entryEnds u gid g c).grids, z.gid = y.gid ∧ z.after = 0 := by
  obtain ⟨x, hx, hxy⟩ := mem_of_map_eq (congrArg State.grids hs : u.grids.map gridShape = s.grids.map gridShape).symm hy
  have hgid : x.gid = y.gid := (congrArg Grid.gid hxy :)
  have hxctx : x.ctx = y.ctx := (congrArg Grid.ctx hxy :)
  have hafter : x.after = y.after := (congrArg Grid.after hxy :)
  have hmem : x ∈ u.grids.filter fun x => x.gid != gid := List.mem_filter.2 ⟨hx, by simpa [hgid] using hne⟩
  refine ⟨_, List.mem_map_of_mem hmem, ?_⟩
  rw [if_pos ⟨hxctx.trans hctx, hafter.trans ha⟩]
  exact ⟨hgid, rfl⟩

theorem compWord_length (status lid : Nat) : (compWord status lid).length = 8 := length_leBytes _ _

/-- A completion word is stored. -/
theorem stored_writeComp {s : State} {ctx : Nat} {comp : Word} {status lid : Nat} {c : Clock} {x : Acc} (hne : comp ≠ 0)
    (h : ({ s with nextAgent := s.nextAgent + 1 }).checkGlobal
      (deviceWho ctx s.nextAgent c [(.device, clockSet c s.nextAgent 1)] (some .device) (s.devSegment ctx))
      ⟨.gl, comp, 8, true, false, true, false, true, true⟩ false = .ok x) (hs : s.holds x.loc.store = true) :
    s.Stored (s.writeComp ctx comp status lid c) x.loc (leBytes 8 (status * 2 ^ 32 + lid)) := by
  unfold State.writeComp
  rw [if_neg hne]
  dsimp only
  rw [devWrite_ok (x := x) ((compWord_length status lid).symm ▸ h)]
  exact stored_agent (stored_devWrite (s := { s with nextAgent := s.nextAgent + 1 }) hs)

theorem stored_writeStats {s : State} {g : Grid} {x : Acc} (h : ({ s with nextAgent := s.nextAgent + 1 }).checkGlobal
      (deviceWho g.ctx s.nextAgent g.rel [] none (s.devSegment g.ctx)) ⟨.gl, g.lrec.stats, 64, true, false, true, false, true, true⟩ false = .ok x)
    (hs : s.holds x.loc.store = true) :
    s.Stored (s.writeStats g) x.loc ((List.range 6).flatMap (fun j => leBytes 8 (g.stats.getD j 0)) ++ leBytes 16 0) := by
  have hlen : ((List.range 6).flatMap (fun j => leBytes 8 (g.stats.getD j 0)) ++ leBytes 16 0).length = 64 := by
    simp [List.length_flatMap, length_leBytes]
  unfold State.writeStats
  dsimp only
  rw [devWrite_ok (x := x) (hlen.symm ▸ h)]
  exact stored_agent (stored_devWrite (s := { s with nextAgent := s.nextAgent + 1 }) hs)

theorem reported_plain {s : State} {g : Grid} (h : g.aborted = true ∨ g.lrec.stats = 0) :
    reported s g = s.writeComp g.ctx g.lrec.comp (if g.aborted then 5 else 0) g.lid (clockJoin g.clock g.rel) := by
  have hcounts : (!g.aborted && g.lrec.stats != 0) = false := by
    rcases h with h | h <;> simp [h]
  unfold reported
  rw [hcounts]
  rfl

theorem writeComp_zero (s : State) (ctx status lid : Nat) (c : Clock) : s.writeComp ctx 0 status lid c = s := by
  unfold State.writeComp
  rw [if_pos rfl]

theorem reported_stats {s : State} {g : Grid} (ha : g.aborted = false) (hs : g.lrec.stats ≠ 0) (hc : g.lrec.comp = 0) : reported s g = s.writeStats g := by
  have hcounts : (!g.aborted && g.lrec.stats != 0) = true := by rw [ha, Bool.not_false, Bool.true_and, bne_iff_ne]; exact hs
  unfold reported
  simp only [hcounts, hc, writeComp_zero]
  rfl

/-! ## Ordered adds (R138) -/

theorem grids_foldl {α : Type} {f : State → α → State} (hf : ∀ s x, (f s x).grids = s.grids) (l : List α) (s : State) : (l.foldl f s).grids = s.grids := by
  induction l generalizing s with
  | nil => rfl
  | cons x l ih => exact (ih (f s x)).trans (hf s x)

theorem grids_undoLog (s : State) (who : Who) (pa n : Nat) : (s.undoLog who pa n).grids = s.grids := by
  unfold State.undoLog
  refine grids_foldl (fun s i => ?_) _ _
  dsimp only
  split
  · rfl
  · split
    · rfl
    · split <;> rfl

theorem grids_pinRange (s : State) (who : Who) (pa n : Nat) : (s.pinRange who pa n).grids = s.grids := by
  refine grids_foldl (fun s i => ?_) _ _
  unfold State.pin
  dsimp only
  split <;> rfl

theorem grids_setBytes (s : State) (l : Loc) (vs : List Byte) : (s.setBytes l vs).grids = s.grids := by
  unfold State.setBytes State.setCells
  cases l.store <;> rfl

theorem grids_clearPoison (s : State) (pa n : Nat) : (s.clearPoison pa n).grids = s.grids := rfl

theorem grids_claim (s : State) (who : Who) (l : Loc) (n : Nat) : (s.claim who l n).grids = s.grids := rfl

theorem grids_publish (s : State) (who : Who) (l : Loc) (n : Nat) : (s.publish who l n).grids = s.grids := rfl

theorem grids_perform (s : State) (who : Who) (a : Acc) (vs : List Byte) : (s.perform who a vs).grids = s.grids := by
  unfold State.perform
  simp only [grids_publish, apply_ite State.grids, grids_pinRange, grids_claim, grids_clearPoison, grids_setBytes, grids_undoLog, ite_self]

theorem atomo_applies {s : State} {gid : Nat} {g : Grid} {c : Contrib} (hg : s.grid? gid = some g)
    (hc : firstBy (fun (x y : Contrib) => ordBefore x.ord y.ord) g.contribs = some c) (hclosed : ∀ n, n ≤ c.lin → g.low ≤ n → s.closed g n = true)
    (hs : s.holds c.addr.store = true) : ∃ t, exec (.atomoApplication gid) s = .next t ∧
      s.Stored t c.addr (leBytes (width c.ty / 8)
        (finish c.ty .rne false (addVal .rne (decodeElem c.ty (s.num c.addr (width c.ty / 8))) (decodeElem c.ty c.val))).1) ∧
      (t.grid? gid).map (·.contribs) = some (g.contribs.erase c) := by
  have hall : ((List.range (c.lin + 1 - g.low)).all fun i => s.closed g (g.low + i)) = true := by
    rw [List.all_eq_true]
    intro i hi
    have := List.mem_range.1 hi
    exact hclosed _ (by omega) (Nat.le_add_right _ _)
  have hbytes : ∀ (f : Grid → Grid) l, (s.modGrid gid f).byte l = s.byte l := fun _ _ => rfl
  have hexec : exec (.atomoApplication gid) s = execAtomoApplication gid s := rfl
  rw [hexec]
  unfold execAtomoApplication
  simp only [hg, hc, hall, Bool.not_true, Bool.false_eq_true, if_false]
  refine ⟨_, rfl, ?_, ?_⟩
  · obtain ⟨hw, hk⟩ := stored_perform (s.modGrid gid fun g => { g with contribs := g.contribs.erase c, rel := clockSet g.rel g.oagent 1 })
      ⟨g.ctx, 1024, g.oagent, 1, g.clock, devicePos, detailWord c.lin 7 0 0 0 g.ctx 0, some .device, true, [], s.devSegment g.ctx⟩
      ⟨c.addr, c.watch, c.ckpt, false⟩ _ hs
    exact ⟨fun k h => ((same_unpin _ _).byte _).trans (hw k h), fun l h => ((same_unpin _ _).byte l).trans ((hk l h).trans (hbytes _ l))⟩
  · have hgrids := grids_perform (s.modGrid gid fun g => { g with contribs := g.contribs.erase c, rel := clockSet g.rel g.oagent 1 })
      ⟨g.ctx, 1024, g.oagent, 1, g.clock, devicePos, detailWord c.lin 7 0 0 0 g.ctx 0, some .device, true, [], s.devSegment g.ctx⟩
      ⟨c.addr, c.watch, c.ckpt, false⟩
      (leBytes (width c.ty / 8) (finish c.ty .rne false (addVal .rne (decodeElem c.ty (s.num c.addr (width c.ty / 8))) (decodeElem c.ty c.val))).1)
    have hself := grid?_modGrid_self (f := fun g => { g with contribs := g.contribs.erase c, rel := clockSet g.rel g.oagent 1 }) hg fun _ => rfl
    refine (congrArg (fun l : List Grid => (l.find? fun g => g.gid == gid).map (·.contribs)) hgrids).trans ?_
    exact congrArg (Option.map (·.contribs)) hself

/-! ## A kill (R399) -/

/-- The blocks of a machine one grid of which stops. -/
def stopped (s : State) (gid : Nat) : State := { s with blocks := s.blocks.map fun (x : Block) => if x.grid = gid then x.stop else x }

theorem byte_stopped (s : State) (gid : Nat) (l : Loc) : (stopped s gid).byte l = s.byte l := by
  have hid : ∀ x : Block, (if x.grid = gid then x.stop else x).id = x.id := fun x => by split <;> rfl
  have hblock : ∀ n, (stopped s gid).block? n = (s.block? n).map fun x => if x.grid = gid then x.stop else x := fun n => by
    show List.find? _ (s.blocks.map _) = _
    rw [List.find?_map]
    refine congrArg (Option.map _) (List.find?_congr fun x _ => ?_)
    show ((if x.grid = gid then x.stop else x).id == n) = _
    rw [hid]
  have hstores : ∀ (n : Nat) (f : Block → List Host.Cell), (∀ b, f b.stop = f b) →
      ((stopped s gid).block? n).elim [] f = (s.block? n).elim [] f := fun n f hf => by
    rw [hblock]
    cases s.block? n with
    | none => rfl
    | some x =>
      show f (if x.grid = gid then x.stop else x) = f x
      split
      · exact hf x
      · rfl
  have hcells : ∀ st, (stopped s gid).cells st = s.cells st := fun st => by
    have helim : ∀ (o : Option Block) (f : Block → List Host.Cell), (match o with | some x => f x | none => []) = o.elim [] f := fun o f => by cases o <;> rfl
    cases st with
    | pkg | far p => rfl
    | sp n => exact (helim _ _).trans ((hstores n Block.sp fun _ => rfl).trans (helim _ _).symm)
    | wb n => exact (helim _ _).trans ((hstores n Block.wb fun _ => rfl).trans (helim _ _).symm)
    | ab n => exact (helim _ _).trans ((hstores n Block.ab fun _ => rfl).trans (helim _ _).symm)
    | cb n => exact (helim _ _).trans ((hstores n Block.cb fun _ => rfl).trans (helim _ _).symm)
  unfold State.byte
  rw [hcells]

theorem stopped_aborted {s : State} {gid : Nat} : ∀ b ∈ (stopped s gid).blocks, b.grid = gid → b.aborted = true := by
  intro b hb hgrid
  obtain ⟨x, -, rfl⟩ := List.mem_map.1 hb
  by_cases h : x.grid = gid
  · rw [if_pos h]
    rfl
  · rw [if_neg h] at hgrid
    exact absurd hgrid h

/-- What a kill leaves of a grid: aborted, with no block active. -/
structure Killed (f : Grid → Grid) : Prop where
  gid : ∀ g, (f g).gid = g.gid
  aborted : ∀ g, (f g).aborted = true
  active : ∀ g, (f g).active = []

theorem killed_facts {u : State} {gid : Nat} {g : Grid} (hg : u.grid? gid = some g) {f : Grid → Grid} (hf : Killed f)
    (hb : ∀ b ∈ u.blocks, b.grid = gid → b.aborted = true) (ctx cause lid lin grp at_ : Nat) :
    let t := (u.modGrid gid f).logFate ctx cause lid lin grp at_
    t.grid? gid = some (f g) ∧ (f g).aborted = true ∧ (f g).active = [] ∧ (∀ b ∈ t.blocks, b.grid = gid → b.aborted = true) ∧ ∀ l, t.byte l = u.byte l := by
  obtain ⟨k, hk⟩ := log_eq (u.modGrid gid f) 3 ctx [cause, lid, lin, grp, at_]
  unfold State.logFate
  rw [hk]
  exact ⟨grid?_modGrid_self hg hf.gid, hf.aborted g, hf.active g, hb, fun _ => rfl⟩

theorem driverKill_aborts {s : State} {gid : Nat} {g : Grid} (hg : s.grid? gid = some g) (ha : g.aborted = false)
    (hb : ∀ b, s.blocks.find? (fun b => b.grid == gid && !b.aborted) = some b → s.block? b.id = some b ∧ b.handler = none) :
    ∃ t g', exec (.driverKill gid) s = .next t ∧ t.grid? gid = some g' ∧ g'.aborted = true ∧ g'.active = [] ∧
      (∀ b ∈ t.blocks, b.grid = gid → b.aborted = true) ∧ ∀ l, t.byte l = s.byte l := by
  have hexec : exec (.driverKill gid) s = execDriverKill gid s := rfl
  rw [hexec]
  unfold execDriverKill
  simp only [hg, ha, Bool.false_eq_true, if_false]
  cases hfind : s.blocks.find? fun b => b.grid == gid && !b.aborted with
  | some b =>
    obtain ⟨hblock, hhandler⟩ := hb b hfind
    obtain rfl : b.grid = gid := by
      have := List.find?_some hfind
      simp only [Bool.and_eq_true, beq_iff_eq] at this
      exact this.1
    let live := (s.blocks.filter fun x => x.grid == b.grid && !x.aborted).map (·.lin)
    have hf : Killed fun g : Grid => { g with aborted := true, active := [], contribs := g.contribs.filter fun c => !live.contains c.lin } :=
      ⟨fun _ => rfl, fun _ => rfl, fun _ => rfl⟩
    obtain ⟨h1, h2, h3, h4, h5⟩ := killed_facts (u := stopped s b.grid) hg hf stopped_aborted b.ctx 0 (s.lidOf b) b.lin 0 (0 : Word).toNat
    refine ⟨_, _, congrArg Host.Outcome.next ?_, h1, h2, h3, h4, fun l => (h5 l).trans (byte_stopped s b.grid l)⟩
    unfold State.abortBlock
    simp only [hblock, hhandler]
    rfl
  | none =>
    have hall : ∀ b ∈ s.blocks, b.grid = gid → b.aborted = true := fun b hmem hgrid => by
      have := List.find?_eq_none.1 hfind b hmem
      simpa [hgrid] using this
    have hf : Killed fun g : Grid => { g with aborted := true, active := [] } := ⟨fun _ => rfl, fun _ => rfl, fun _ => rfl⟩
    obtain ⟨h1, h2, h3, h4, h5⟩ := killed_facts hg hf hall g.ctx 0 g.lid 0 0 0
    exact ⟨_, _, rfl, h1, h2, h3, h4, h5⟩

/-! ## A context is destroyed (R9) -/

/-- Nothing of the machine belongs to a context. -/
structure Without (ctx : Nat) (s : State) : Prop where
  ctxs : ∀ x ∈ s.ctxs, x.num ≠ ctx
  blocks : ∀ x ∈ s.blocks, x.ctx ≠ ctx
  grids : ∀ x ∈ s.grids, x.ctx ≠ ctx
  queues : ∀ x ∈ s.queues, x.ctx ≠ ctx
  rings : ∀ x ∈ s.rings, x.ctx ≠ ctx
  armed : ∀ x ∈ s.armed, x.ctx ≠ ctx
  vgcmds : ∀ x ∈ s.vgcmds, x.ctx ≠ ctx
  tlbs : ∀ x ∈ s.tlbs, x.ctx ≠ ctx
  pendH : ∀ x ∈ s.pendH, x.inv.ctx ≠ ctx

theorem Without.of_shape {ctx n : Nat} {s t : State} (h : Without ctx s) (hs : shape t = shape { s with nextAgent := n }) : Without ctx t where
  ctxs x hx := by
    obtain ⟨y, hy, e⟩ := mem_of_map_eq (congrArg State.ctxs hs : t.ctxs.map ctxShape = s.ctxs.map ctxShape) hx
    have hctx : y.num = x.num := (congrArg Context.num e :)
    exact hctx ▸ h.ctxs y hy
  blocks x hx := by
    obtain ⟨y, hy, e⟩ := mem_of_map_eq (congrArg State.blocks hs : t.blocks.map blockShape = s.blocks.map blockShape) hx
    have hctx : y.ctx = x.ctx := (congrArg Block.ctx e :)
    exact hctx ▸ h.blocks y hy
  grids x hx := by
    obtain ⟨y, hy, e⟩ := mem_of_map_eq (congrArg State.grids hs : t.grids.map gridShape = s.grids.map gridShape) hx
    have hctx : y.ctx = x.ctx := (congrArg Grid.ctx e :)
    exact hctx ▸ h.grids y hy
  queues := by
    have e : t.queues = s.queues := (congrArg State.queues hs :)
    exact e ▸ h.queues
  rings := by
    have e : t.rings = s.rings := (congrArg State.rings hs :)
    exact e ▸ h.rings
  armed := by
    have e : t.armed = s.armed := (congrArg State.armed hs :)
    exact e ▸ h.armed
  vgcmds := by
    have e : t.vgcmds = s.vgcmds := (congrArg State.vgcmds hs :)
    exact e ▸ h.vgcmds
  tlbs := by
    have e : t.tlbs = s.tlbs := (congrArg State.tlbs hs :)
    exact e ▸ h.tlbs
  pendH := by
    have e : t.pendH = s.pendH := (congrArg State.pendH hs :)
    exact e ▸ h.pendH

theorem Without.same {ctx : Nat} {s t : State} (h : Without ctx s) (hs : shape t = shape s) : Without ctx t := h.of_shape (n := s.nextAgent) hs

theorem without_acceptGrid {ctx : Nat} {s : State} (h : Without ctx s) {c : Context} (hc : c.num ≠ ctx) (r : LRec) (src : LSource) (die : Nat)
    (clock : Clock) (w : Option (Word × Word)) : Without ctx (s.acceptGrid c r src die clock w).1 where
  ctxs x hx := by
    obtain ⟨y, hy, rfl⟩ := List.mem_map.1 (show x ∈ s.ctxs.map _ from hx)
    split
    · exact h.ctxs y hy
    · exact h.ctxs y hy
  blocks := h.blocks
  grids x hx := by
    rcases List.mem_append.1 (show x ∈ s.grids ++ [_] from hx) with hx | hx
    · exact h.grids x hx
    · obtain rfl := List.mem_singleton.1 hx
      exact hc
  queues := h.queues
  rings := h.rings
  armed := h.armed
  vgcmds := h.vgcmds
  tlbs := h.tlbs
  pendH := h.pendH

theorem without_rejectRecord {ctx : Nat} {s : State} (h : Without ctx s) (c : Nat) (bs : List Byte) (n : Nat) : Without ctx (s.rejectRecord c bs n) := by
  unfold State.rejectRecord
  refine Without.same ?_ (shape_log _ _ _ _)
  split
  · obtain ⟨k, hk⟩ := shape_writeComp s c (BitVec.ofNat 64 (recNum bs 16 8)) n 0 []
    exact h.of_shape hk
  · exact h

theorem without_fire {ctx : Nat} {s : State} (h : Without ctx s) {e : ArmEnt} (he : e.ctx ≠ ctx) (len : Nat) (c : Clock) : Without ctx (s.fire e len c) := by
  have hless : Without ctx { s with armed := s.armed.filter fun x => x.idx != e.idx } := { h with armed := fun x hx => h.armed x (List.mem_of_mem_filter hx) }
  unfold State.fire
  dsimp only
  split
  · exact hless
  · next y hy =>
    have hnum : y.num ≠ ctx := fun hn => he ((Driver.num_of_ctx? hy).symm.trans hn)
    split
    · exact hless.same (shape_log _ _ _ _)
    · split
      · exact without_rejectRecord hless _ _ _
      · exact without_acceptGrid hless hnum _ _ _ _ _

theorem without_fireSome {ctx : Nat} {s : State} (h : Without ctx s) (n : Nat) : Without ctx (s.fireSome n) := by
  induction n generalizing s with
  | zero => exact h
  | succ n ih =>
    unfold State.fireSome
    split
    · exact h
    · next e he =>
      split
      · exact ih (without_fire h (h.armed e (List.mem_of_find?_eq_some he)) _ _)
      · exact h

/-- No block is left of those that are dropped. -/
theorem mem_dropBlocks : ∀ (bs : List Block) (u : State), ∀ x ∈ (bs.foldl (fun s b => s.dropBlock b.id) u).blocks,
    (∃ y ∈ u.blocks, y.ctx = x.ctx ∧ y.id = x.id) ∧ ∀ b ∈ bs, b.id ≠ x.id
  | [], _, x, hx => ⟨⟨x, hx, rfl, rfl⟩, fun _ hb => absurd hb List.not_mem_nil⟩
  | b :: bs, u, x, hx => by
    obtain ⟨⟨y, hy, hctx, hid⟩, hbs⟩ := mem_dropBlocks bs (u.dropBlock b.id) x hx
    obtain ⟨hmem, hne⟩ := List.mem_filter.1 (show y ∈ (u.performOwed b.id).blocks.filter fun x => x.id != b.id from hy)
    obtain ⟨z, hz, e⟩ := mem_of_map_eq (congrArg State.blocks (shape_performOwed u b.id) : (u.performOwed b.id).blocks.map blockShape = u.blocks.map blockShape) hmem
    have hzctx : z.ctx = y.ctx := (congrArg Block.ctx e :)
    have hzid : z.id = y.id := (congrArg Block.id e :)
    refine ⟨⟨z, hz, hzctx.trans hctx, hzid.trans hid⟩, List.forall_mem_cons.2 ⟨fun hb => ?_, hbs⟩⟩
    rw [bne_iff_ne] at hne
    exact hne (hid.trans hb.symm)

theorem contextDestroy_without (s : State) (ctx : Nat) : ∃ t, exec (.contextDestroy ctx) s = .next t ∧ Without ctx t := by
  refine ⟨_, rfl, without_fireSome ?_ _⟩
  refine ⟨fun x hx => ?_, fun x hx => ?_, fun x hx => ?_, fun x hx => ?_, fun x hx => ?_, fun x hx => ?_, fun x hx => ?_, fun x hx => ?_, fun x hx => ?_⟩
  case refine_2 =>
    intro hctx
    obtain ⟨⟨y, hy, hyctx, hid⟩, hne⟩ := mem_dropBlocks (s.blocks.filter fun b => b.ctx == ctx) s x hx
    exact hne y (List.mem_filter.2 ⟨hy, by rw [beq_iff_eq, hyctx, hctx]⟩) hid
  all_goals exact bne_iff_ne.1 (List.mem_filter.1 hx).2

/-- Settles O48. -/
theorem workEnds : Obligations.WorkEnds := by
  unfold Obligations.WorkEnds
  intro s gid g hg
  refine ⟨fun c hc hclosed hs => atomo_applies hg hc hclosed hs, fun x ho ha hab hst hcomp hx hs => ?_, fun ho ha hplain => ⟨fun hcomp => ?_, fun x hcomp hx hs => ?_⟩,
    fun ha hb => driverKill_aborts hg ha hb, ?_⟩
  · obtain ⟨c, hc⟩ := completionWrite_ends hg ho ha
    refine ⟨_, hc, grid?_entryEnds _ _ _ _, ?_⟩
    rw [reported_stats hab hst hcomp]
    exact stored_of_bytes (stored_writeStats hx hs) fun l => byte_entryEnds _ _ _ _ l
  · obtain ⟨c, hc⟩ := completionWrite_ends hg ho ha
    refine ⟨_, hc, grid?_entryEnds _ _ _ _, fun l => ?_⟩
    rw [reported_plain hplain, hcomp, writeComp_zero]
    rfl
  · obtain ⟨c, hc⟩ := completionWrite_ends hg ho ha
    obtain ⟨n, hn⟩ := shape_reported s g
    refine ⟨_, hc, grid?_entryEnds _ _ _ _, ?_, fun y hy hne hctx hafter => after_entryEnds hn c hy hne hctx hafter⟩
    refine stored_of_bytes ?_ fun l => byte_entryEnds _ _ _ _ l
    rw [reported_plain hplain]
    exact stored_writeComp hcomp hx hs
  · obtain ⟨t, ht, h⟩ := contextDestroy_without s g.ctx
    refine ⟨t, ht, List.find?_eq_none.2 fun c hc => ?_, h.blocks, h.grids, h.queues, h.rings, h.armed, h.vgcmds, h.tlbs, h.pendH⟩
    simpa using h.ctxs c hc

end Sys2Proof.Proofs.Ends
end

section
/-! SUPPORT. Host queues and send rings (R335-R340, R372): O49. -/

namespace Sys2Proof.Proofs.Queues

open Sys2Proof Sys2Proof.Machine Sys2Proof.Laws Sys2Proof.Proofs.Frames Sys2Proof.Proofs.SyncWords Sys2Proof.Proofs.Virga Sys2Proof.Proofs.Starts
  Sys2Proof.Proofs.Ends Sys2Proof.Proofs.Launches

/-! ## What the logs of a write take -/

/-- Contexts, Contrail and the count of interrupts alone have changed, the last upwards. -/
def Logged (s t : State) : Prop := ∃ cs l m, s.msix ≤ m ∧ t = { s with ctxs := cs, contrail := l, msix := m }

theorem Logged.refl (s : State) : Logged s s := ⟨_, _, _, Nat.le_refl _, rfl⟩

theorem Logged.trans {s t u : State} (h : Logged s t) (k : Logged t u) : Logged s u := by
  obtain ⟨cs, l, m, hm, rfl⟩ := h
  obtain ⟨cs', l', m', hm', rfl⟩ := k
  exact ⟨cs', l', m', Nat.le_trans hm hm', rfl⟩

theorem Logged.foldl {α : Type} {f : State → α → State} (hf : ∀ s x, Logged s (f s x)) (l : List α) (s : State) : Logged s (l.foldl f s) := by
  induction l generalizing s with
  | nil => exact .refl s
  | cons x l ih => exact (hf s x).trans (ih _)

theorem logged_log (s : State) (c x : Nat) (d : List Nat) : Logged s (s.log c x d) := by
  obtain ⟨l, hl⟩ := log_eq s c x d
  exact ⟨_, l, _, Nat.le_refl _, hl⟩

theorem logged_undoLog (s : State) (who : Who) (pa n : Nat) : Logged s (s.undoLog who pa n) := by
  unfold State.undoLog
  refine Logged.foldl (fun s i => ?_) _ _
  dsimp only
  split
  · exact .refl s
  · split
    · exact .refl s
    · split
      · exact ⟨_, _, _, Nat.le_refl _, rfl⟩
      · exact Logged.trans ⟨_, _, _, Nat.le_succ _, rfl⟩ (logged_log _ _ _ _)

theorem logged_logAll (s : State) (pa n : Nat) : Logged s (s.logAll pa n) := by
  unfold State.logAll
  refine Logged.foldl (fun s c => ?_) _ _
  unfold State.logLines
  refine Logged.foldl (fun s i => ?_) _ _
  dsimp only
  split
  · exact logged_undoLog _ _ _ _
  · exact .refl s

/-! ## Control blocks -/

/-- A field of a control block is written: beside what the logs take, its bytes alone change. -/
theorem setCbField_eq (s : State) (r : Ring) (o k v : Nat) : ∃ u, Logged s u ∧
    s.setCbField r o k v = { u with mem := Memory.setMany s.mem (r.cb + o) (leBytes k v) } := by
  obtain ⟨cs, l, m, hm, hu⟩ := logged_logAll s (r.cb + o) k
  refine ⟨_, ⟨cs, l, m, hm, hu⟩, ?_⟩
  unfold State.setCbField
  rw [hu]
  rfl

theorem stored_setCbField (s : State) (r : Ring) (o k v : Nat) : s.Stored (s.setCbField r o k v) (paLoc (r.cb + o)) (leBytes k v) := by
  obtain ⟨u, ⟨cs, l, m, -, rfl⟩, hu⟩ := setCbField_eq s r o k v
  exact stored_of_bytes (stored_setBytes s (paLoc (r.cb + o)) (leBytes k v) rfl) fun x => by rw [hu]; rfl

theorem within_paLoc (a b n : Nat) : (paLoc a).within (paLoc b) n = false ↔ ¬ (b ≤ a ∧ a < b + n) := by
  have hkey : ∀ x, (paLoc x).key = x := fun _ => rfl
  have hsame : (paLoc a).store.same (paLoc b).store = true := rfl
  rw [Bool.eq_false_iff]
  refine not_congr ?_
  unfold Loc.within
  rw [hsame, hkey, hkey, Bool.true_and, Bool.and_eq_true, decide_eq_true_eq, decide_eq_true_eq]

/-- A number beside what has been stored stands. -/
theorem num_beside {s t : State} {b : Nat} {vs : List Byte} (h : s.Stored t (paLoc b) vs) {a n : Nat} (hab : a + n ≤ b ∨ b + vs.length ≤ a) :
    t.num (paLoc a) n = s.num (paLoc a) n := by
  unfold State.num State.bytes
  refine congrArg leNat (List.map_congr_left fun k hk => h.kept _ ?_)
  have := List.mem_range.1 hk
  show (paLoc (a + k)).within (paLoc b) _ = false
  rw [within_paLoc]
  omega

theorem num_written {s t : State} {l : Loc} {n v : Nat} (h : s.Stored t l (leBytes n v)) : t.num l n = v % 256 ^ n := by
  have := num_stored h (k := 0) (n := n) (by rw [length_leBytes]; omega)
  rwa [add_zero, List.drop_zero, List.take_of_length_le (length_leBytes n v).le, leNat_leBytes] at this

theorem leNat_lt : ∀ bs : List Byte, leNat bs < 256 ^ bs.length
  | [] => Nat.one_pos
  | b :: bs => by
    have hb := b.isLt
    have hbs := leNat_lt bs
    rw [leNat, List.length_cons, Nat.pow_succ]
    omega

theorem num_lt (s : State) (l : Loc) (n : Nat) : s.num l n < 256 ^ n := by
  have := leNat_lt (s.bytes l n)
  rwa [State.bytes, List.length_map, List.length_range] at this

/-! ## HOST_QUEUE_RECORD -/

section
variable {s : State} {q : Nat} {r : Ring} {c : Context}

/-- The record at a queue's read pointer. -/
def recordAt (s : State) (r : Ring) : List Byte := s.bytes (paLoc (s.cbBase r + 128 * (s.cbRptr r % s.cbSize r))) 128

theorem hostQueue_lapped (hq : s.queues.find? (fun r => r.q == q) = some r) (hc : s.ctx? r.ctx = some c) (hr : s.ringRuns r = true)
    (hl : s.lapped r = true) : exec (.hostQueueRecord q) s = .next (s.lap r 128) := by
  show execHostQueueRecord q s = _
  unfold execHostQueueRecord
  simp only [hq, hc, hr, hl, Bool.not_true, Bool.false_eq_true, if_false, if_true]

theorem hostQueue_full (hq : s.queues.find? (fun r => r.q == q) = some r) (hc : s.ctx? r.ctx = some c) (hr : s.ringRuns r = true)
    (hl : s.lapped r = false) (hn : rejects (recordAt s r) c = none) (hf : s.storeFull (q % 4) = true) :
    exec (.hostQueueRecord q) s = .next (s.setCbState r 2).interrupt := by
  unfold recordAt at hn
  show execHostQueueRecord q s = _
  unfold execHostQueueRecord
  simp only [hq, hc, hr, hl, hn, hf, Bool.not_true, Bool.false_eq_true, if_false, if_true]

theorem hostQueue_accepts (hq : s.queues.find? (fun r => r.q == q) = some r) (hc : s.ctx? r.ctx = some c) (hr : s.ringRuns r = true)
    (hl : s.lapped r = false) (hn : rejects (recordAt s r) c = none) (hf : s.storeFull (q % 4) = false) : exec (.hostQueueRecord q) s =
      .next (((s.setRptr r (s.cbRptr r + 1)).acceptGrid c (lrecOf (recordAt s r)) (.queue q) (q % 4) (s.wptrClock r) none).1) := by
  unfold recordAt at hn ⊢
  show execHostQueueRecord q s = _
  unfold execHostQueueRecord
  simp only [hq, hc, hr, hl, hn, hf, Bool.not_true, Bool.false_eq_true, if_false]

theorem hostQueue_rejects (hq : s.queues.find? (fun r => r.q == q) = some r) (hc : s.ctx? r.ctx = some c) (hr : s.ringRuns r = true)
    (hl : s.lapped r = false) {n : Nat} (hn : rejects (recordAt s r) c = some n) :
    exec (.hostQueueRecord q) s = .next ((s.setRptr r (s.cbRptr r + 1)).rejectRecord r.ctx (recordAt s r) n) := by
  unfold recordAt at hn ⊢
  show execHostQueueRecord q s = _
  unfold execHostQueueRecord
  simp only [hq, hc, hr, hl, hn, Bool.not_true, Bool.false_eq_true, if_false]

/-- A grid that has been accepted is the last. -/
theorem acceptGrid_last (u : State) (c : Context) (lr : LRec) (src : LSource) (die : Nat) (k : Clock) (w : Option (Word × Word)) :
    ∃ gd, (u.acceptGrid c lr src die k w).1.grids = u.grids ++ [gd] ∧ gd.lid = c.nextLaunch ∧ gd.ctx = c.num ∧ gd.lrec = lr ∧ gd.source = src ∧
      gd.die = die ∧ gd.active = [] ∧ gd.low = 0 := ⟨_, rfl, rfl, rfl, rfl, rfl, rfl, rfl, rfl⟩

/-- A record without a COMP word that is rejected leaves a line in Contrail alone. -/
theorem rejectRecord_silent (u : State) (ctx n : Nat) {bs : List Byte} (h : recNum bs 16 8 = 0) :
    ∃ l, u.rejectRecord ctx bs n = { u with contrail := l } := by
  unfold State.rejectRecord
  rw [h]
  simp only [show (BitVec.ofNat 64 0).toNat % 8 = 0 from rfl, if_true]
  rw [show BitVec.ofNat 64 0 = (0 : Word) from rfl, writeComp_zero]
  exact log_eq _ _ _ _

theorem grids_setCbField (s : State) (r : Ring) (o k v : Nat) : (s.setCbField r o k v).grids = s.grids := by
  obtain ⟨u, ⟨cs, l, m, -, rfl⟩, hu⟩ := setCbField_eq s r o k v
  rw [hu]

theorem msix_setCbField (s : State) (r : Ring) (o k v : Nat) : s.msix ≤ (s.setCbField r o k v).msix := by
  obtain ⟨u, ⟨cs, l, m, hm, rfl⟩, hu⟩ := setCbField_eq s r o k v
  rw [hu]
  exact hm

/-- A lap records both pointers and halts the ring. -/
theorem lap_facts (s : State) (r : Ring) (n : Nat) :
    (s.lap r n).num (paLoc (r.cb + 24)) 4 = s.cbWptr r ∧ (s.lap r n).num (paLoc (r.cb + 20)) 4 = s.cbRptr r ∧ (s.lap r n).num (paLoc (r.cb + 31)) 1 = 1 ∧
      s.msix + 1 ≤ (s.lap r n).msix ∧ (∀ l, l.within (paLoc (r.cb + 20)) 12 = false → (s.lap r n).byte l = s.byte l) ∧ (s.lap r n).grids = s.grids := by
  let s1 := s.setCbField r 24 4 (s.cbWptr r)
  let s2 := s1.setCbField r 20 4 (s.cbRptr r)
  let s3 := s2.setCbField r 31 1 1
  have h1 : s.Stored s1 _ _ := stored_setCbField s r 24 4 (s.cbWptr r)
  have h2 : s1.Stored s2 _ _ := stored_setCbField s1 r 20 4 (s.cbRptr r)
  have h3 : s2.Stored s3 _ _ := stored_setCbField s2 r 31 1 1
  obtain ⟨l, hl⟩ := log_eq s3 2 r.ctx [s.cbBase r + n * (s.cbWptr r % s.cbSize r), s.cbWptr r, s.cbRptr r]
  have hlap : s.lap r n = { s3 with contrail := l, msix := s3.msix + 1 } := by
    show (s3.log 2 r.ctx _).interrupt = _
    rw [hl]
    rfl
  have hw : s.cbWptr r % 256 ^ 4 = s.cbWptr r := Nat.mod_eq_of_lt (num_lt _ _ _)
  have hp : s.cbRptr r % 256 ^ 4 = s.cbRptr r := Nat.mod_eq_of_lt (num_lt _ _ _)
  have hnum : ∀ l k, (s.lap r n).num l k = s3.num l k := fun l k => by rw [hlap]; rfl
  have hlen : ∀ k v, (leBytes k v).length = k := length_leBytes
  refine ⟨?_, ?_, ?_, ?_, fun x hx => ?_, ?_⟩
  · rw [hnum, num_beside h3 (.inl (by omega)), num_beside h2 (.inr (by rw [hlen])), num_written h1, hw]
  · rw [hnum, num_beside h3 (.inl (by omega)), num_written h2, hp]
  · rw [hnum, num_written h3]
    rfl
  · rw [hlap]
    exact Nat.succ_le_succ ((msix_setCbField _ _ _ _ _).trans ((msix_setCbField _ _ _ _ _).trans (msix_setCbField _ _ _ _ _)))
  · have hout : ∀ o k, 20 ≤ o → o + k ≤ 32 → x.within (paLoc (r.cb + o)) k = false := fun o k h1 h2 => by
      unfold Loc.within at hx ⊢
      simp only [Bool.and_eq_false_iff, decide_eq_false_iff_not] at hx ⊢
      rcases hx with (hx | hx) | hx
      · exact .inl (.inl hx)
      · exact .inl (.inr fun h => hx (Nat.le_trans (show r.cb + 20 ≤ r.cb + o by omega) h))
      · exact .inr fun h => hx (Nat.lt_of_lt_of_le h (show r.cb + o + k ≤ r.cb + 20 + 12 by omega))
    have hbyte : (s.lap r n).byte x = s3.byte x := by rw [hlap]; rfl
    rw [hbyte, h3.kept x (hout 31 _ (by omega) (by rw [hlen])), h2.kept x (hout 20 _ (by omega) (by rw [hlen]; omega)),
      h1.kept x (hout 24 _ (by omega) (by rw [hlen]; omega))]
  · rw [hlap]
    exact (grids_setCbField s2 r 31 1 1).trans ((grids_setCbField _ _ _ _ _).trans (grids_setCbField _ _ _ _ _))

end

/-! ## Bindings and resumption -/

theorem stored_hostWrite (s : State) (pa : Nat) (bs : List Byte) : s.Stored (s.hostWrite pa bs) (paLoc pa) bs ∧ shape (s.hostWrite pa bs) = shape (s.logAll pa bs.length) := by
  obtain ⟨cs, l, m, -, hu⟩ := logged_logAll s pa bs.length
  unfold State.hostWrite
  dsimp only
  refine ⟨?_, (shape_unpin _ _).trans (shape_perform _ _ _ _)⟩
  obtain ⟨hw, hk⟩ := stored_perform (s.logAll pa bs.length)
    ⟨0, 1024, hostAgent, s.hostTime, s.hostClock, hostPos, detailWord 0 6 0 0 0 0 0, none, false, [(.sys, clockSet s.hostClock hostAgent s.hostTime)], s.devSegment 0⟩
    ⟨paLoc pa, s.watchedRange pa bs.length, false, false⟩ bs rfl
  exact ⟨fun k h => ((same_unpin _ _).byte _).trans (hw k h), fun x hx => ((same_unpin _ _).byte x).trans ((hk x hx).trans (by rw [hu]; rfl))⟩

theorem queueResume_resumes {s : State} {ring : Bool} {q : Nat} {r : Ring} (h : (if ring then s.rings else s.queues).find? (fun r => r.q == q) = some r) :
    ∃ t, exec (.queueResume ring q) s = .next t ∧ s.Stored t (paLoc (r.cb + 31)) [0] ∧ t.queues = s.queues ∧ t.rings = s.rings := by
  obtain ⟨hst, hsh⟩ := stored_hostWrite s (r.cb + 31) [0]
  obtain ⟨cs, l, m, -, hu⟩ := logged_logAll s (r.cb + 31) 1
  rw [show [(0 : Byte)].length = 1 from rfl, hu] at hsh
  refine ⟨s.hostWrite (r.cb + 31) [0], ?_, hst, (congrArg State.queues hsh :), (congrArg State.rings hsh :)⟩
  show execQueueResume ring q s = _
  unfold execQueueResume
  rw [h]

theorem mem_rebind {rs : List Ring} {r x : Ring} (h : r.q ≠ x.q) : r ∈ x :: (rs.filter fun y => y.q != x.q) ↔ r ∈ rs := by
  rw [List.mem_cons, List.mem_filter, bne_iff_ne]
  exact ⟨fun hr => hr.elim (fun e => absurd (congrArg Ring.q e) h) And.left, fun hr => .inr ⟨hr, h⟩⟩

theorem queueBinding_binds {s : State} {q ctx cb : Nat} {ring : Bool} (hcb : cb % 32 = 0) (hh : inHbm (cb + 31) = true) (hc : (s.ctx? ctx).isSome = true)
    (hq : q < if ring then 64 else 256) : ∃ t, exec (.queueBinding ring q ctx cb) s = .next t ∧
      (if ring then t.rings else t.queues).find? (fun r => r.q == q) = some ⟨q, ctx, cb⟩ ∧
      (∀ r, r.q ≠ q → (r ∈ t.rings ↔ r ∈ s.rings) ∧ (r ∈ t.queues ↔ r ∈ s.queues)) ∧ t.mem = s.mem := by
  have hcond : ¬ (cb % 32 ≠ 0 ∨ !inHbm (cb + 31) ∨ (s.ctx? ctx).isNone) := by
    rw [hh, Option.isNone_eq_false_iff.2 hc]
    simp [hcb]
  have hfind : ∀ rs : List Ring, ((⟨q, ctx, cb⟩ : Ring) :: rs).find? (fun r => r.q == q) = some ⟨q, ctx, cb⟩ := fun rs =>
    List.find?_cons_of_pos (p := fun r : Ring => r.q == q) (beq_self_eq_true q)
  show ∃ t, execQueueBinding ring q ctx cb s = .next t ∧ _
  unfold execQueueBinding
  rw [if_neg hcond]
  cases ring with
  | true => exact ⟨_, (if_pos rfl).trans (if_pos hq), hfind _, fun r hr => ⟨mem_rebind (x := ⟨q, ctx, cb⟩) hr, Iff.rfl⟩, rfl⟩
  | false => exact ⟨_, (if_neg Bool.false_ne_true).trans (if_pos hq), hfind _, fun r hr => ⟨Iff.rfl, mem_rebind (x := ⟨q, ctx, cb⟩) hr⟩, rfl⟩

/-! ## Send rings -/

theorem conn_pkg (s : State) (p : Nat) : (s.conn p).pkg = p := by
  unfold State.conn
  cases h : s.conns.find? fun c => c.pkg == p with
  | none => rfl
  | some c => simpa using List.find?_some h

theorem conn_setConn_self (s : State) {c : Conn} {p : Nat} (h : c.pkg = p) : (s.setConn c).conn p = c := by
  unfold State.conn State.setConn
  rw [List.find?_cons_of_pos (p := fun x : Conn => x.pkg == p) (beq_iff_eq.2 h)]
  rfl

/-- Connections and frames handed to the ports alone have changed. -/
def Framed (s t : State) : Prop := ∃ cs o, t = { s with conns := cs, outbox := o }

theorem framed_emit (s : State) (f : Frame) : ∃ o, s.emit f = { s with outbox := o } := by
  unfold State.emit
  split
  · exact ⟨_, rfl⟩
  · exact ⟨_, rfl⟩

/-- The next frame to a package. -/
def nextFrame (s : State) (p : Nat) (ty cls : BitVec 8) (ctx : Nat) (bs : List Byte) : Frame :=
  { vr := 1, ty := ty, srcPkg := BitVec.ofNat 16 s.pkg, dstPkg := BitVec.ofNat 16 p, cls := cls, seq := BitVec.ofNat 64 (s.conn p).sseq
    ack := BitVec.ofNat 64 (s.conn p).rseq, len := BitVec.ofNat 32 bs.length, ctx := BitVec.ofNat 32 ctx, payload := bs, fcsOk := true
    etherType := s.etherType, tags := [] }

/-- The connection once it has sent a frame. -/
def sentConn (s : State) (p : Nat) (f : Frame) : Conn :=
  { s.conn p with
    sseq := (s.conn p).sseq + 1, unacked := (s.conn p).unacked ++ [(f, 0, s.ns)], ackAt := if (s.conn p).unacked.isEmpty then s.ns else (s.conn p).ackAt }

theorem sendFrame_eq (s : State) (p : Nat) (ty cls : BitVec 8) (ctx : Nat) (bs : List Byte) : s.sendFrame p ty cls ctx bs =
    ((s.setConn (sentConn s p (nextFrame s p ty cls ctx bs))).emit (nextFrame s p ty cls ctx bs), (s.conn p).sseq) := rfl

theorem framed_sendFrame (s : State) (p : Nat) (ty cls : BitVec 8) (ctx : Nat) (bs : List Byte) : Framed s (s.sendFrame p ty cls ctx bs).1 := by
  rw [sendFrame_eq]
  generalize nextFrame s p ty cls ctx bs = f
  obtain ⟨o, ho⟩ := framed_emit (s.setConn (sentConn s p f)) f
  exact ⟨_, o, ho⟩

theorem conn_emit (s : State) (f : Frame) (p : Nat) : (s.emit f).conn p = s.conn p := by
  obtain ⟨o, ho⟩ := framed_emit s f
  rw [ho]
  rfl

/-- The frame that a connection has just sent awaits its acknowledgement. -/
theorem unacked_sendFrame (s : State) (p : Nat) (ty cls : BitVec 8) (ctx : Nat) (bs : List Byte) :
    ∃ f ∈ ((s.sendFrame p ty cls ctx bs).1.conn p).unacked, f.1.seq = BitVec.ofNat 64 (s.sendFrame p ty cls ctx bs).2 ∧ f.1.ty = ty ∧
      f.1.dstPkg = BitVec.ofNat 16 p := by
  rw [sendFrame_eq]
  dsimp only
  rw [conn_emit, conn_setConn_self (c := sentConn s p _) s (p := p) (conn_pkg s p)]
  exact ⟨(nextFrame s p ty cls ctx bs, 0, s.ns), List.mem_append_right _ List.mem_cons_self, rfl, rfl, rfl⟩

theorem Framed.trans {s t u : State} (h : Framed s t) (k : Framed t u) : Framed s u := by
  obtain ⟨cs, o, rfl⟩ := h
  obtain ⟨cs', o', rfl⟩ := k
  exact ⟨cs', o', rfl⟩

/-- A message leaves in frames, the last of which awaits its acknowledgement. -/
theorem sendChunks_sends (p ctx n : Nat) (bs : List Byte) (s : State) : Framed s (s.sendChunks p ctx n bs).1 ∧
    ∃ f ∈ ((s.sendChunks p ctx n bs).1.conn p).unacked, f.1.seq = BitVec.ofNat 64 (s.sendChunks p ctx n bs).2 ∧ f.1.ty = 2 ∧ f.1.dstPkg = BitVec.ofNat 16 p := by
  induction n generalizing bs s with
  | zero => exact ⟨framed_sendFrame _ _ _ _ _ _, unacked_sendFrame _ _ _ _ _ _⟩
  | succ n ih =>
    unfold State.sendChunks
    split
    · exact ⟨framed_sendFrame _ _ _ _ _ _, unacked_sendFrame _ _ _ _ _ _⟩
    · obtain ⟨h1, h2⟩ := ih (bs.drop chunk) (s.sendFrame p 2 3 ctx (bs.take chunk)).1
      exact ⟨(framed_sendFrame _ _ _ _ _ _).trans h1, h2⟩

section
variable {s : State} {q : Nat} {r : Ring}

/-- The descriptor at a ring's read pointer. -/
def descAt (s : State) (r : Ring) : List Byte := s.bytes (paLoc (s.cbBase r + 64 * (s.cbRptr r % s.cbSize r))) 64

theorem sendRing_malformed (hq : s.rings.find? (fun r => r.q == q) = some r) (hr : s.ringRuns r = true) (hl : s.lapped r = false)
    (hm : sendMalformed (descAt s r) = true) : exec (.sendRingDescriptor q) s =
      .next (((s.setRptr r (s.cbRptr r + 1)).sendDone (recNum (descAt s r) 24 8) (s.cbRptr r) 3).logFate r.ctx 3 0 0 0 0) := by
  unfold descAt at hm ⊢
  show execSendRingDescriptor q s = _
  unfold execSendRingDescriptor
  simp only [hq, hr, hl, hm, Bool.not_true, Bool.false_eq_true, if_false, if_true]

theorem pkg_setRptr (s : State) (r : Ring) (v : Nat) : (s.setRptr r v).pkg = s.pkg ∧ ∀ p, (s.setRptr r v).linked p = s.linked p := by
  obtain ⟨u, ⟨cs, l, m, -, rfl⟩, hu⟩ := setCbField_eq s r 16 4 v
  unfold State.setRptr
  rw [hu]
  exact ⟨rfl, fun _ => rfl⟩

theorem sendRing_here (hq : s.rings.find? (fun r => r.q == q) = some r) (hr : s.ringRuns r = true) (hl : s.lapped r = false)
    (hm : sendMalformed (descAt s r) = false) (hd : recNum (descAt s r) 16 2 = s.pkg) :
    let u := s.setRptr r (s.cbRptr r + 1)
    let v := u.taggedArrives s.pkg (recNum (descAt s r) 18 1) (recNum (descAt s r) 12 4)
      (u.bytes (paLoc (recNum (descAt s r) 0 8)) (recNum (descAt s r) 8 4))
    exec (.sendRingDescriptor q) s = .next (v.1.sendDone (recNum (descAt s r) 24 8) (s.cbRptr r) v.2) := by
  unfold descAt at hm hd ⊢
  show execSendRingDescriptor q s = _
  unfold execSendRingDescriptor
  simp only [hq, hr, hl, hm, hd, pkg_setRptr, Bool.not_true, Bool.false_eq_true, if_false, if_true]

theorem sendRing_unlinked (hq : s.rings.find? (fun r => r.q == q) = some r) (hr : s.ringRuns r = true) (hl : s.lapped r = false)
    (hm : sendMalformed (descAt s r) = false) (hd : recNum (descAt s r) 16 2 ≠ s.pkg) (hk : s.linked (recNum (descAt s r) 16 2) = false) :
    exec (.sendRingDescriptor q) s = .next ((s.setRptr r (s.cbRptr r + 1)).sendDone (recNum (descAt s r) 24 8) (s.cbRptr r) 2) := by
  unfold descAt at hm hd hk ⊢
  show execSendRingDescriptor q s = _
  unfold execSendRingDescriptor
  simp only [hq, hr, hl, hm, hd, hk, pkg_setRptr, Bool.not_true, Bool.not_false, Bool.false_eq_true, if_false, if_true]

theorem sendRing_sends (hq : s.rings.find? (fun r => r.q == q) = some r) (hr : s.ringRuns r = true) (hl : s.lapped r = false)
    (hm : sendMalformed (descAt s r) = false) (hd : recNum (descAt s r) 16 2 ≠ s.pkg) (hk : s.linked (recNum (descAt s r) 16 2) = true) :
    ∃ bs, let t := (s.setRptr r (s.cbRptr r + 1)).sendChunks (recNum (descAt s r) 16 2) (recNum (descAt s r) 18 1) 129 bs
      exec (.sendRingDescriptor q) s =
        .next { t.1 with sent := t.1.sent ++ [⟨recNum (descAt s r) 16 2, t.2, recNum (descAt s r) 24 8, s.cbRptr r⟩] } := by
  refine ⟨leBytes 4 (recNum (descAt s r) 12 4) ++ leBytes 4 (recNum (descAt s r) 8 4) ++
    (s.setRptr r (s.cbRptr r + 1)).bytes (paLoc (recNum (descAt s r) 0 8)) (recNum (descAt s r) 8 4), ?_⟩
  unfold descAt at hm hd hk ⊢
  show execSendRingDescriptor q s = _
  unfold execSendRingDescriptor
  simp only [hq, hr, hl, hm, hd, hk, pkg_setRptr, Bool.not_true, Bool.false_eq_true, if_false]

end

/-- Settles O49. -/
theorem queuesAndRings : Obligations.QueuesAndRings := by
  unfold Obligations.QueuesAndRings
  intro s q ctx cb
  refine ⟨fun r c hq hc hr => ⟨fun hl => ⟨_, hostQueue_lapped hq hc hr hl, lap_facts s r 128⟩, fun hl hn hf => ?_, fun hl hn hf => ?_, fun n hl hn h0 => ?_⟩,
    fun ring r h => queueResume_resumes h, fun ring hcb hh hc hq => queueBinding_binds hcb hh hc hq,
    fun r hq hr hl => ⟨fun hm => sendRing_malformed hq hr hl hm, fun hm hd => sendRing_here hq hr hl hm hd, fun hm hd hk => sendRing_unlinked hq hr hl hm hd hk,
      fun hm hd hk => ?_⟩⟩
  · have hmsix : s.msix ≤ (s.setCbState r 2).msix := msix_setCbField s r 31 1 2
    exact ⟨_, hostQueue_full hq hc hr hl hn hf, stored_of_bytes (stored_setCbField s r 31 1 2) fun _ => rfl,
      Nat.succ_le_succ hmsix, grids_setCbField s r 31 1 2⟩
  · obtain ⟨gd, hgrids, hgd⟩ := acceptGrid_last (s.setRptr r (s.cbRptr r + 1)) c (lrecOf (recordAt s r)) (.queue q) (q % 4) (s.wptrClock r) none
    exact ⟨_, gd, hostQueue_accepts hq hc hr hl hn hf, stored_of_bytes (stored_setCbField s r 16 4 (s.cbRptr r + 1)) fun l => (same_acceptGrid _ _ _ _ _ _ _).byte l,
      hgrids.trans (congrArg (· ++ [gd]) (grids_setCbField s r 16 4 (s.cbRptr r + 1))), hgd⟩
  · have hst := stored_setCbField s r 16 4 (s.cbRptr r + 1)
    obtain ⟨l, hl'⟩ := rejectRecord_silent (s.setRptr r (s.cbRptr r + 1)) r.ctx n h0
    refine ⟨_, hostQueue_rejects hq hc hr hl hn, stored_of_bytes hst fun x => ?_, ?_⟩
    · exact (congrArg (fun u : State => u.byte x) hl').trans rfl
    · exact (congrArg State.grids hl').trans (grids_setCbField s r 16 4 (s.cbRptr r + 1))
  · obtain ⟨bs, hsend⟩ := sendRing_sends hq hr hl hm hd hk
    obtain ⟨⟨cs, o, hf⟩, hun⟩ := sendChunks_sends (recNum (descAt s r) 16 2) (recNum (descAt s r) 18 1) 129 bs (s.setRptr r (s.cbRptr r + 1))
    obtain ⟨u, ⟨cs', l, m, -, rfl⟩, hu⟩ := setCbField_eq s r 16 4 (s.cbRptr r + 1)
    have hst := stored_setCbField s r 16 4 (s.cbRptr r + 1)
    refine ⟨_, _, hsend, ?_, hun, stored_of_bytes hst fun x => ?_⟩
    · have hsent : (s.setRptr r (s.cbRptr r + 1)).sent = s.sent := (congrArg State.sent hu :)
      exact congrArg (· ++ [_]) ((congrArg State.sent hf).trans hsent)
    · exact (congrArg (fun u : State => u.byte x) hf).trans rfl

end Sys2Proof.Proofs.Queues
end

section
/-! SUPPORT. Tagged messages, frames, connections and the host's accesses (R353, R368-R371, R374): O50. -/

namespace Sys2Proof.Proofs.Links

open Sys2Proof Sys2Proof.Machine Sys2Proof.Laws Sys2Proof.Proofs.Frames Sys2Proof.Proofs.SyncWords Sys2Proof.Proofs.Messages Sys2Proof.Proofs.Settling
  Sys2Proof.Proofs.Starts Sys2Proof.Proofs.Ends Sys2Proof.Proofs.Queues

/-! ## Tagged messages -/

/-- The first of a list in descending order of a number is one of the list, and none of it has a larger one. -/
theorem firstBy_largest {α : Type} (f : α → Nat) : ∀ (xs : List α) (r : α), firstBy (fun x y => decide (f y < f x)) xs = some r →
    r ∈ xs ∧ ∀ x ∈ xs, f x ≤ f r
  | [], _, h => by cases h
  | x :: xs, r, h => by
    obtain rfl : _ = r := Option.some.inj h
    have hfold : ∀ (l : List α) (m : α), let w := l.foldl (fun m y => if decide (f m < f y) then y else m) m
        (w = m ∨ w ∈ l) ∧ f m ≤ f w ∧ ∀ z ∈ l, f z ≤ f w := by
      intro l
      induction l with
      | nil => exact fun m => ⟨.inl rfl, Nat.le_refl _, fun _ hz => absurd hz List.not_mem_nil⟩
      | cons y l ih =>
        intro m
        simp only [List.foldl_cons, decide_eq_true_eq, List.forall_mem_cons] at ih ⊢
        by_cases hy : f m < f y
        · obtain ⟨h1, h2, h3⟩ := ih y
          rw [if_pos hy]
          exact ⟨.inr (List.mem_cons.2 h1), by omega, h2, h3⟩
        · obtain ⟨h1, h2, h3⟩ := ih m
          rw [if_neg hy]
          exact ⟨h1.imp id (List.mem_cons_of_mem _), h2, by omega, h3⟩
    obtain ⟨h1, h2, h3⟩ := hfold xs x
    exact ⟨List.mem_cons.2 h1, List.forall_mem_cons.2 ⟨h2, h3⟩⟩

theorem matchArm_facts {s : State} {ctx tag len : Nat} {e : ArmEnt} (h : s.matchArm ctx tag len = some e) :
    e ∈ s.armed ∧ e.ctx = ctx ∧ e.tag = tag ∧ e.minLen ≤ len ∧ e.held = none ∧
      ∀ y ∈ s.armed, y.ctx = ctx → y.tag = tag → y.minLen ≤ len → y.held = none → y.minLen ≤ e.minLen := by
  obtain ⟨hmem, hmax⟩ := firstBy_largest ArmEnt.minLen _ e h
  have hiff : ∀ y, y ∈ s.armed.filter (fun e => e.ctx == ctx && e.tag == tag && decide (e.minLen ≤ len) && e.held.isNone) ↔
      y ∈ s.armed ∧ y.ctx = ctx ∧ y.tag = tag ∧ y.minLen ≤ len ∧ y.held = none := fun y => by
    simp only [List.mem_filter, Bool.and_eq_true, beq_iff_eq, decide_eq_true_eq, Option.isNone_iff_eq_none, and_assoc]
  obtain ⟨h1, h2, h3, h4, h5⟩ := (hiff e).1 hmem
  exact ⟨h1, h2, h3, h4, h5, fun y hy a b c d => hmax y ((hiff y).2 ⟨hy, a, b, c, d⟩)⟩

/-- Grids, and what accesses do not note, stand. -/
def Quiet (s t : State) : Prop := shape t = shape s ∧ t.grids = s.grids

theorem quiet_devWrite {s t : State} {who : Who} {a : Word} {bs : List Byte} (h : s.devWrite who a bs = .ok t) : Quiet s t := by
  refine ⟨shape_devWrite h, ?_⟩
  unfold State.devWrite at h
  split at h
  · obtain rfl := Except.ok.inj h
    refine (grids_perform _ _ _ _).trans ?_
    unfold State.request
    split <;> rfl
  · cases h

theorem quiet_log (s : State) (c x : Nat) (d : List Nat) : Quiet s (s.log c x d) := by
  obtain ⟨l, hl⟩ := log_eq s c x d
  rw [hl]
  exact ⟨rfl, rfl⟩

theorem Quiet.trans {s t u : State} (h : Quiet s t) (k : Quiet t u) : Quiet s u := ⟨k.1.trans h.1, k.2.trans h.2⟩

theorem Quiet.armed {s t : State} (h : Quiet s t) : t.armed = s.armed := (congrArg State.armed h.1 :)

theorem Quiet.storeFull {s t : State} (h : Quiet s t) (die : Nat) : t.storeFull die = s.storeFull die := by
  have hp : t.pendH = s.pendH := (congrArg State.pendH h.1 :)
  unfold State.storeFull State.spilled State.entries
  rw [h.2, hp]

/-- One piece of a message's payload is written; the first that cannot be is logged. -/
def writePiece (ctx : Nat) (who : Who) (payload : List Byte) (r : State × Bool) (x : (Word × Nat) × Nat) : State × Bool :=
  match r.1.devWrite who x.1.1 ((payload.drop (8 * x.2)).take x.1.2) with
  | .ok s => (s, r.2)
  | .error t => (if r.2 then r.1 else r.1.logFate ctx t.cause.code 0 0 0 x.1.1.toNat, true)

theorem quiet_writePiece (ctx : Nat) (who : Who) (payload : List Byte) (r : State × Bool) (x : (Word × Nat) × Nat) :
    Quiet r.1 (writePiece ctx who payload r x).1 := by
  unfold writePiece
  split
  · next h => exact quiet_devWrite h
  · dsimp only
    split
    · exact ⟨rfl, rfl⟩
    · exact quiet_log _ _ _ _

theorem quiet_pieces (ctx : Nat) (who : Who) (payload : List Byte) (l : List ((Word × Nat) × Nat)) (r : State × Bool) :
    Quiet r.1 (l.foldl (writePiece ctx who payload) r).1 := by
  induction l generalizing r with
  | nil => exact ⟨rfl, rfl⟩
  | cons x l ih => exact (quiet_writePiece _ _ _ r x).trans (ih _)

theorem armed_rejectRecord (s : State) (c : Nat) (bs : List Byte) (n : Nat) : (s.rejectRecord c bs n).armed = s.armed := by
  unfold State.rejectRecord
  refine (quiet_log _ _ _ _).armed.trans ?_
  split
  · obtain ⟨k, hk⟩ := shape_writeComp s c (BitVec.ofNat 64 (recNum bs 16 8)) n 0 []
    exact (congrArg State.armed hk :)
  · rfl

/-- An entry that fires is free afterwards. -/
theorem armed_fire (s : State) (e : ArmEnt) (len : Nat) (c : Clock) : (s.fire e len c).armed = s.armed.filter fun x => x.idx != e.idx := by
  unfold State.fire
  dsimp only
  split
  · rfl
  · split
    · exact (quiet_log _ _ _ _).armed
    · split
      · exact armed_rejectRecord _ _ _ _
      · rfl

/-- The machine once a message's payload has been written for entry e. -/
def paid (s : State) (ctx : Nat) (e : ArmEnt) (data : List Byte) : State :=
  ((pieces e.buf data.length).zipIdx.foldl (writePiece ctx
    (deviceWho ctx s.nextAgent [] [] none (State.devSegment { s with nextAgent := s.nextAgent + 1 } ctx)) data) ({ s with nextAgent := s.nextAgent + 1 }, false)).1

theorem quiet_paid (s : State) (ctx : Nat) (e : ArmEnt) (data : List Byte) : Quiet { s with nextAgent := s.nextAgent + 1 } (paid s ctx e data) :=
  quiet_pieces _ _ _ _ _

/-- An entry that holds a message. -/
def holding (e : ArmEnt) (len : Nat) (c : Clock) (x : ArmEnt) : ArmEnt := if x.idx = e.idx then { x with held := some (len, c) } else x

/-- What an entry makes of a message whose payload has been written. -/
def takes (e : ArmEnt) (len : Nat) (c : Clock) (u : State) : State × Nat :=
  if u.storeFull e.die then ({ u with armed := u.armed.map (holding e len c) }, 0) else (u.fire e len c, 0)

theorem arrives_eq {s : State} {p ctx tag : Nat} {data : List Byte} {e : ArmEnt} (h : s.matchArm ctx tag data.length = some e) :
    s.taggedArrives p ctx tag data = takes e data.length (clockSet [] s.nextAgent 1) (paid s ctx e data) := by
  unfold State.taggedArrives
  dsimp only
  split
  · next h' => cases h.symm.trans h'
  · next e' h' =>
    obtain rfl := Option.some.inj (h.symm.trans h')
    rfl

/-- A message that matches an entry is held by it while its die's store is full, and fires it otherwise. -/
theorem arrives_matched {s : State} {p ctx tag : Nat} {data : List Byte} {e : ArmEnt} (h : s.matchArm ctx tag data.length = some e) :
    ∃ u, Quiet { s with nextAgent := s.nextAgent + 1 } u ∧ (s.taggedArrives p ctx tag data).1 =
      if s.storeFull e.die then { u with armed := s.armed.map (holding e data.length (clockSet [] s.nextAgent 1)) }
      else u.fire e data.length (clockSet [] s.nextAgent 1) := by
  have hquiet := quiet_paid s ctx e data
  rw [arrives_eq h]
  generalize paid s ctx e data = u at hquiet ⊢
  refine ⟨u, hquiet, ?_⟩
  unfold takes
  rw [hquiet.storeFull, hquiet.armed]
  exact apply_ite Prod.fst _ _ _

theorem tagged_next (p ctx : Nat) (tag : BitVec 32) {data : List (BitVec 8)} (hl : data.length ≤ 2 ^ 20) (s : State) :
    exec (.taggedMessage p ctx tag data) s = .next (s.taggedArrives p ctx tag.toNat data).1 := if_neg (Nat.not_lt.2 hl)

theorem arrives_unmatched {s : State} {p ctx tag : Nat} {data : List Byte} (h : s.matchArm ctx tag data.length = none) :
    (s.taggedArrives p ctx tag data).1 = s.log 6 ctx [p, tag, data.length] := by
  unfold State.taggedArrives
  simp only [h]

/-! ## Connections -/

theorem conn_setConn_ne (s : State) (c : Conn) {p : Nat} (h : p ≠ c.pkg) : (s.setConn c).conn p = s.conn p := by
  have hfilter : (s.conns.filter fun x => x.pkg != c.pkg).find? (fun x => x.pkg == p) = s.conns.find? fun x => x.pkg == p := by
    rw [List.find?_filter]
    refine List.find?_congr fun x _ => ?_
    rcases Decidable.em (x.pkg = p) with hx | hx
    · simp [hx, h]
    · simp [hx]
  show ((c :: s.conns.filter fun x => x.pkg != c.pkg).find? fun x => x.pkg == p).getD _ = _
  rw [List.find?_cons_of_neg (p := fun x : Conn => x.pkg == p) fun e => h (beq_iff_eq.1 e).symm, hfilter]
  rfl

theorem retransmit_again {s : State} {p : Nat} {x : Frame × Nat × Nat}
    (hx : (s.conn p).unacked.find? (fun f => decide (f.2.2 + 20000 ≤ s.ns) && decide (f.2.1 < 64)) = some x) (hf : (s.conn p).failed = false)
    (hp : s.ports ≠ []) : ∃ t, exec (.retransmit p) s = .next t ∧ t.outbox = s.outbox ++ [x.1] ∧ (x.1, x.2.1 + 1, s.ns) ∈ (t.conn p).unacked := by
  let c : Conn := { s.conn p with unacked := (s.conn p).unacked.map fun (y : Frame × Nat × Nat) => if y.1.seq = x.1.seq then (y.1, y.2.1 + 1, s.ns) else y }
  have hemit : (s.setConn c).emit x.1 = { s.setConn c with outbox := s.outbox ++ [x.1] } :=
    if_neg fun h => hp (List.isEmpty_iff.1 h)
  refine ⟨(s.setConn c).emit x.1, ?_, by rw [hemit], ?_⟩
  · show execRetransmit p s = _
    unfold execRetransmit
    simp only [hx]
    exact if_neg (by rw [hf]; exact Bool.false_ne_true)
  · rw [conn_emit, conn_setConn_self (c := c) s (conn_pkg s p)]
    exact List.mem_map.2 ⟨x, List.mem_of_find?_eq_some hx, if_pos rfl⟩

theorem reestablished_fresh {s : State} {p : Nat} (hne : p ≠ s.pkg) (hp : p < 4095) : ∃ t, exec (.connectionReestablished p) s = .next t ∧ t.linked p = true ∧
    (t.conn p).failed = false ∧ (t.conn p).unacked = [] ∧ ∀ n, n ≠ p → t.conn n = s.conn n ∧ t.linked n = s.linked n := by
  have hcond : ¬ (p = s.pkg ∨ 4095 ≤ p) := by omega
  let t : State := { s.setConn (Conn.fresh p s.ns) with
    failed := s.failed.filter (· != p), routes := if s.routes.contains p then s.routes else s.routes ++ [p] }
  have hroutes : ∀ n, t.routes.contains n = (s.routes.contains n || n == p) := fun n => by
    show (if s.routes.contains p then s.routes else s.routes ++ [p]).contains n = _
    by_cases hin : s.routes.contains p = true
    · rw [if_pos hin]
      by_cases hn : n = p
      · rw [hn, hin, Bool.true_or]
      · rw [beq_false_of_ne hn, Bool.or_false]
    · rw [if_neg hin]
      rw [Bool.eq_iff_iff]
      simp
  have hfailed : ∀ n, t.failed.contains n = (s.failed.contains n && n != p) := fun n => by
    show (s.failed.filter (· != p)).contains n = _
    rw [Bool.eq_iff_iff]
    simp [List.mem_filter]
  have hconn : t.conn p = Conn.fresh p s.ns := conn_setConn_self s rfl
  refine ⟨t, if_neg hcond, ?_, by rw [hconn]; rfl, by rw [hconn]; rfl, fun n hn => ⟨conn_setConn_ne s _ hn, ?_⟩⟩
  · show (p != s.pkg && t.routes.contains p && !t.failed.contains p) = true
    rw [hroutes, hfailed]
    simp [hne]
  · show (n != s.pkg && t.routes.contains n && !t.failed.contains n) = _
    rw [hroutes, hfailed, beq_false_of_ne hn, Bool.or_false, bne_iff_ne.2 hn, Bool.and_true]
    rfl

/-! ## A connection fails (R370) -/

/-- Connections, packages that can be reached, sends whose result is owed, and handle slots. -/
structure SameNet (s t : State) : Prop where
  conns : t.conns = s.conns
  failed : t.failed = s.failed
  routes : t.routes = s.routes
  pkg : t.pkg = s.pkg
  sent : t.sent = s.sent
  handles : t.handles = s.handles

theorem SameNet.refl (s : State) : SameNet s s := ⟨rfl, rfl, rfl, rfl, rfl, rfl⟩

theorem SameNet.trans {s t u : State} (h : SameNet s t) (k : SameNet t u) : SameNet s u :=
  ⟨k.conns.trans h.conns, k.failed.trans h.failed, k.routes.trans h.routes, k.pkg.trans h.pkg, k.sent.trans h.sent, k.handles.trans h.handles⟩

theorem SameNet.foldl {α : Type} {f : State → α → State} (hf : ∀ s x, SameNet s (f s x)) (l : List α) (s : State) : SameNet s (l.foldl f s) := by
  induction l generalizing s with
  | nil => exact .refl s
  | cons x l ih => exact (hf s x).trans (ih _)

theorem sameNet_of_shape {s t : State} (h : shape t = shape s) : SameNet s t :=
  ⟨(congrArg State.conns h :), (congrArg State.failed h :), (congrArg State.routes h :), (congrArg State.pkg h :), (congrArg State.sent h :),
    (congrArg State.handles h :)⟩

theorem sameNet_logged {s t : State} (h : Logged s t) : SameNet s t := by
  obtain ⟨cs, l, m, -, rfl⟩ := h
  exact ⟨rfl, rfl, rfl, rfl, rfl, rfl⟩

theorem sameNet_sendDone (s : State) (comp rptr status : Nat) : SameNet s (s.sendDone comp rptr status) := by
  unfold State.sendDone
  split
  · exact .refl s
  · refine SameNet.trans (SameNet.trans (t := { s with nextAgent := s.nextAgent + 1 }) ⟨rfl, rfl, rfl, rfl, rfl, rfl⟩ (sameNet_logged (logged_logAll _ comp 8)))
      (sameNet_of_shape ?_)
    exact (shape_unpin _ _).trans (shape_perform _ _ _ _)

theorem sameNet_breakAll (s : State) (leaf : Nat) (hs : List Word) (o : Word) (n : Nat) (c : Clock) : SameNet s (s.breakAll leaf hs o n c) := by
  rw [breakAll_eq]
  exact ⟨rfl, rfl, rfl, rfl, rfl, rfl⟩

theorem sameNet_send (s : State) (src dst : Nat) (m : MsgBody) : SameNet s (s.send src dst m) := ⟨rfl, rfl, rfl, rfl, rfl, rfl⟩

theorem sameNet_unreachable (s : State) (m : Msg) : SameNet s (s.unreachable m) := by
  unfold State.unreachable
  split
  · exact sameNet_breakAll _ _ _ _ _ _
  · dsimp only
    split
    · exact (sameNet_breakAll _ _ _ _ _ _).trans (sameNet_send _ _ _ _)
    · exact sameNet_breakAll _ _ _ _ _ _
  · exact sameNet_send _ _ _ _
  · exact sameNet_breakAll _ _ _ _ _ _
  · exact sameNet_send _ _ _ _
  · exact sameNet_send _ _ _ _
  all_goals exact .refl s

theorem sameNet_putError (s : State) (n : Nat) (r : ErrRec) : SameNet s (s.putError n r) := by
  unfold State.putError
  generalize paLoc _ = l
  exact sameNet_of_shape (shape_setBytes s l r.bytes)

theorem sameNet_interrupt (s : State) : SameNet s s.interrupt := ⟨rfl, rfl, rfl, rfl, rfl, rfl⟩

theorem sameNet_errors (s : State) (l : List ErrRec) (n : Nat) : SameNet s { s with errors := l, errNext := n } := ⟨rfl, rfl, rfl, rfl, rfl, rfl⟩

theorem sameNet_newError (s : State) (e : ErrorInfo) : SameNet s (s.newError e) := by
  have hlog := ((sameNet_errors s ((s.errors ++ [(⟨e, s.ns, 1⟩ : ErrRec)]).drop ((s.errors ++ [(⟨e, s.ns, 1⟩ : ErrRec)]).length - Config.errorRing)) (s.errNext + 1)).trans
    (sameNet_putError _ s.errNext (⟨e, s.ns, 1⟩ : ErrRec))).trans (sameNet_logged (logged_log _ 1 e.ctx.toNat (ErrRec.detail ⟨e, s.ns, 1⟩)))
  unfold State.newError
  dsimp only
  split
  · exact hlog
  · exact hlog.trans (sameNet_interrupt _)

theorem sameNet_recordError (s : State) (e : ErrorInfo) : SameNet s (s.recordError e) := by
  unfold State.recordError
  split
  · split
    · exact (sameNet_errors s _ s.errNext).trans (sameNet_putError _ _ _)
    · exact sameNet_newError _ _
  · exact sameNet_newError _ _

theorem brokenBy_own (x : HSlot) (p : Nat) {a b : Word} (h : x.brokenBy a p = none) : x.brokenBy b p = none := by
  unfold HSlot.brokenBy at h ⊢
  cases hs : x.state with
  | forwarded t =>
    simp only [hs] at h ⊢
    exact h
  | pending =>
    cases ht : x.toward with
    | none => rfl
    | some y =>
      simp only [hs, ht] at h ⊢
      by_cases hq : y.1 = p
      · rw [if_pos hq] at h
        cases h
      · exact if_neg hq
  | _ => rfl

theorem brokenBy_broken (x : HSlot) (p : Nat) (own : Word) {o : Word} {n : Nat} (h : x.state = .broken o n) : x.brokenBy own p = none := by
  unfold HSlot.brokenBy
  rw [h]

/-- A slot that breaks. -/
theorem breakSlot_sets (s : State) (key : Nat) (o : Word) (n : Nat) (c : Clock) : ∃ x ms, x.state = .broken o n ∧ x.key = key ∧
    s.breakSlot key o n c = { s.setHSlot x with msgs := ms } := by
  rw [breakSlot_eq]
  exact ⟨settledSlot (s.hslot key) (.broken o n) c, _, rfl, hslot_key s key, rfl⟩

/-- Handle slots aside, everything of the fabric stands while slots break, and each of them is broken. -/
theorem foldl_breakSlot (n : Nat) (c : Clock) : ∀ (l : List (Nat × Word)) (s : State), let t := l.foldl (fun s x => s.breakSlot x.1 x.2 n c) s
    SameNet { s with handles := t.handles } t ∧ ∀ h ∈ t.handles, (∃ o, h.state = .broken o n) ∨ (h ∈ s.handles ∧ ∀ x ∈ l, x.1 ≠ h.key)
  | [], s => ⟨.refl s, fun h hh => .inr ⟨hh, fun _ hx => absurd hx List.not_mem_nil⟩⟩
  | x :: l, s => by
    obtain ⟨y, ms, hstate, hkey, hbreak⟩ := breakSlot_sets s x.1 x.2 n c
    obtain ⟨hnet, hall⟩ := foldl_breakSlot n c l (s.breakSlot x.1 x.2 n c)
    have hfirst : ∀ hs, SameNet { s with handles := hs } { s.breakSlot x.1 x.2 n c with handles := hs } := fun hs => by
      rw [hbreak]
      exact ⟨rfl, rfl, rfl, rfl, rfl, rfl⟩
    refine ⟨(hfirst _).trans hnet, fun h hh => ?_⟩
    rcases hall h hh with hb | ⟨hh, hne⟩
    · exact .inl hb
    · rw [hbreak] at hh
      rcases List.mem_cons.1 (show h ∈ y :: s.handles.filter fun z => z.key != y.key from hh) with rfl | hh
      · exact .inl ⟨_, hstate⟩
      · obtain ⟨hmem, hk⟩ := List.mem_filter.1 hh
        refine .inr ⟨hmem, List.forall_mem_cons.2 ⟨fun e => ?_, hne⟩⟩
        rw [bne_iff_ne, hkey] at hk
        exact hk e.symm

theorem sameNet_deliver (s : State) (k : Nat) (v : List Word) (c : Clock) : SameNet s (s.deliver k v c) := ⟨rfl, rfl, rfl, rfl, rfl, rfl⟩

/-- The connection once it has failed. -/
def lostConn (c : Conn) : Conn := { c with failed := true, unacked := [], ahead := [], part := [], passed := [], asked := [] }

/-- The machine that has noted the failure, before what it owes for it goes out. -/
def lost (s : State) (p : Nat) : State :=
  let u := (s.setConn (lostConn (s.conn p))).log 6 0 [p, 0, 0]
  { u with failed := p :: u.failed.filter (· != p), sent := u.sent.filter fun x => x.pkg != p }

theorem failConn_facts (s : State) (p : Nat) : SameNet { lost s p with handles := (s.failConn p).handles } (s.failConn p) ∧
    ∀ h ∈ (s.failConn p).handles, ∀ own, h.brokenBy own p = none := by
  let owed := ((s.sent.filter fun x => x.pkg == p).foldl (fun s x => s.sendDone x.comp x.rptr 2) (lost s p))
  let told := (s.lostWaits p).foldl (fun s x => s.deliver x.1 x.2 []) owed
  let broken := s.handles.filterMap fun x => (x.brokenBy (s.ownWord x) p).map fun o => (x.key, o)
  have htold : SameNet (lost s p) told :=
    (SameNet.foldl (fun s x => sameNet_sendDone s x.comp x.rptr 2) (s.sent.filter fun x => x.pkg == p) (lost s p)).trans
      (SameNet.foldl (fun s x => sameNet_deliver s x.1 x.2 []) (s.lostWaits p) owed)
  obtain ⟨hbroken, hall⟩ := foldl_breakSlot 0xFFFC [] broken told
  have hpassed : SameNet (broken.foldl (fun s x => s.breakSlot x.1 x.2 0xFFFC []) told) (s.failConn p) :=
    SameNet.foldl sameNet_unreachable (s.conn p).passed _
  refine ⟨?_, fun h hh own => ?_⟩
  · rw [hpassed.handles]
    have hfirst : ∀ hs, SameNet { lost s p with handles := hs } { told with handles := hs } := fun hs =>
      ⟨htold.conns, htold.failed, htold.routes, htold.pkg, htold.sent, rfl⟩
    exact ((hfirst _).trans hbroken).trans hpassed
  · rw [hpassed.handles] at hh
    rcases hall h hh with ⟨o, ho⟩ | ⟨hmem, hne⟩
    · exact brokenBy_broken h p own ho
    · refine brokenBy_own h p (a := s.ownWord h) ?_
      by_contra hsome
      obtain ⟨o, ho⟩ := Option.ne_none_iff_exists'.1 hsome
      have hold : h ∈ s.handles := by
        rw [htold.handles] at hmem
        exact hmem
      exact hne (h.key, o) (List.mem_filterMap.2 ⟨h, hold, by rw [ho]; rfl⟩) rfl

theorem conn_of_conns {t : State} {c : Conn} {cs : List Conn} (h : t.conns = c :: cs) {p : Nat} (hp : c.pkg = p) : t.conn p = c := by
  unfold State.conn
  rw [h, List.find?_cons_of_pos (p := fun x : Conn => x.pkg == p) (beq_iff_eq.2 hp)]
  rfl

theorem connectionFailure_fails {s : State} {p : Nat} {x : Frame × Nat × Nat} {xs : List (Frame × Nat × Nat)} (hx : (s.conn p).unacked = x :: xs)
    (hf : (s.conn p).failed = false) (hd : x.2.1 = 64 ∨ (s.conn p).ackAt + 10000000 ≤ s.ns) :
    ∃ t, exec (.connectionFailure p) s = .next t ∧ (t.conn p).failed = true ∧ (t.conn p).unacked = [] ∧ t.linked p = false ∧ (∀ y ∈ t.sent, y.pkg ≠ p) ∧
      ∀ h ∈ t.handles, h.brokenBy (s.ownWord h) p = none := by
  obtain ⟨hfail, hhandles⟩ := failConn_facts s p
  have herr : SameNet (s.failConn p) ((s.failConn p).linkError 1) := sameNet_recordError _ _
  have hnet := hfail.trans herr
  obtain ⟨l, hl⟩ := log_eq (s.setConn (lostConn (s.conn p))) 6 0 [p, 0, 0]
  have hlost : lost s p = { s.setConn (lostConn (s.conn p)) with
      contrail := l, failed := p :: s.failed.filter (· != p), sent := s.sent.filter fun x => x.pkg != p } := by
    unfold lost
    rw [hl]
    rfl
  have hconn : ((s.failConn p).linkError 1).conn p = lostConn (s.conn p) := by
    have hconns : (lost s p).conns = (s.setConn (lostConn (s.conn p))).conns := by rw [hlost]
    exact conn_of_conns (hnet.conns.trans hconns) (conn_pkg s p)
  refine ⟨(s.failConn p).linkError 1, ?_, by rw [hconn]; rfl, by rw [hconn]; rfl, ?_, fun y hy => ?_, fun h hh => ?_⟩
  · show execConnectionFailure p s = _
    unfold execConnectionFailure
    simp only [hx, hf, Bool.false_eq_true, if_false]
    exact if_pos hd
  · unfold State.linked
    rw [hnet.failed, hlost]
    simp
  · rw [hnet.sent, hlost] at hy
    exact bne_iff_ne.1 (List.mem_filter.1 hy).2
  · rw [herr.handles] at hh
    exact hhandles h hh _

/-! ## Frames arrive (R369) -/

/-- A connection that a frame has acknowledged. -/
def acked (c : Conn) (un : List (Frame × Nat × Nat)) (at_ : Nat) : Conn := { c with unacked := un, ackAt := at_ }

/-- A frame of data acknowledges: of the connection, what it still keeps and the time of the acknowledgement change. -/
theorem takeAck_data (s : State) (p : Nat) {f : Frame} (h : f.ty = 0) : ∃ un at_, s.takeAck p f = s.setConn (acked (s.conn p) un at_) := by
  have hnone : (s.sent.filter fun x => x.pkg == p && f.ty == 1 && !f.payload.isEmpty && x.seq == f.seq.toNat) = [] := by
    rw [List.filter_eq_nil_iff, h]
    intro x _
    simp
  have hall : (s.sent.filter fun x => !([] : List Sent).contains x) = s.sent := List.filter_eq_self.2 fun _ _ => rfl
  unfold State.takeAck
  simp only [hnone, hall, List.foldl_nil]
  exact ⟨_, _, rfl⟩

/-- A connection that has taken frame n. -/
def took (c : Conn) (n : Nat) : Conn := { c with rseq := n }

theorem sendAck_eq (s : State) (p n : Nat) : ∃ o, s.sendAck p n = { s with outbox := o } := framed_emit _ _

/-- A frame of class INV carries a message, which joins those that are under way here. -/
theorem takeFrame_inv (u : State) (p : Nat) {f : Frame} (hty : f.ty = 0) (hcls : f.cls = 2) : ∃ o, u.takeFrame p f =
    { u.setConn (took (u.conn p) f.seq.toNat) with
      msgs := u.msgs ++ (Config.invOfPayload f.payload).toList.filter (fun m => m.dst / 128 == u.pkg), outbox := o } := by
  unfold State.takeFrame
  simp only [hty, show ¬ ((0 : BitVec 8) = 2) by decide, if_false]
  rw [if_pos (show f.cls = invClass from hcls)]
  obtain ⟨o, ho⟩ := sendAck_eq { u.setConn (took (u.conn p) f.seq.toNat) with
    msgs := u.msgs ++ (Config.invOfPayload f.payload).toList.filter (fun m => m.dst / 128 == u.pkg) } p f.seq.toNat
  refine ⟨o, Eq.trans (congrArg (fun v : State => v.sendAck p f.seq.toNat) ?_) ho⟩
  cases Config.invOfPayload f.payload with
  | none =>
    simp only [Option.toList_none, List.filter_nil, List.append_nil]
    rfl
  | some m =>
    by_cases hm : m.dst / 128 = u.pkg
    · rw [Option.toList_some, List.filter_cons_of_pos (by simpa using hm)]
      exact if_pos hm
    · rw [Option.toList_some, List.filter_cons_of_neg (by simpa using hm)]
      refine (if_neg hm).trans ?_
      rw [List.filter_nil, List.append_nil]
      rfl

section
variable {s : State} {f : Frame} (he : f.etherType = s.etherType) (hp : s.ports ≠ []) (hok : f.fcsOk = true) (hv : f.vr = 1) (hd : f.dstPkg.toNat = s.pkg)
  (hlen : f.payload.length = f.len.toNat) (ht : f.tags.length ≤ 1) (hw : wholeFrame f ≤ 9216) (hl : s.linked f.srcPkg.toNat = true) (hty : f.ty = 0)
include he hp hok hv hd hlen ht hw hl hty

/-- A sound frame of data acknowledges, and meets the sequence number expected next. -/
theorem frame_next : ∃ un at_, let c := acked (s.conn f.srcPkg.toNat) un at_
    exec (.frameReceive f) s = .next (
      if f.seq.toNat ≤ c.rseq then (s.setConn c).sendAck f.srcPkg.toNat f.seq.toNat
      else if f.seq.toNat = c.rseq + 1 then ((s.setConn c).takeFrame f.srcPkg.toNat f).takeAhead f.srcPkg.toNat c.ahead.length
      else if c.ahead.any (fun x => x.seq == f.seq) then s.setConn c
      else (s.setConn c).setConn { c with ahead := c.ahead ++ [f] }) := by
  obtain ⟨un, at_, hack⟩ := takeAck_data s f.srcPkg.toNat hty
  have hports : s.ports.isEmpty = false := List.isEmpty_eq_false_iff.2 hp
  have hconn := conn_setConn_self s (c := acked (s.conn f.srcPkg.toNat) un at_) (conn_pkg s f.srcPkg.toNat)
  refine ⟨un, at_, ?_⟩
  show execFrameReceive f s = _
  unfold execFrameReceive
  simp only [he, hports, hok, hv, hd, hlen, hl, hack, hconn, decide_eq_false (Nat.not_lt.2 ht), decide_eq_false (Nat.not_lt.2 hw), ne_eq, not_true_eq_false,
    if_false, Bool.not_true, Bool.false_and, Bool.or_false, bne_self_eq_false, Bool.false_eq_true]
  rw [if_neg (by rw [hty]; decide)]
  repeat' split
  all_goals rfl

theorem frame_again (hseq : f.seq.toNat ≤ (s.conn f.srcPkg.toNat).rseq) : ∃ t, exec (.frameReceive f) s = .next t ∧ t.msgs = s.msgs ∧ t.mem = s.mem ∧
    (t.conn f.srcPkg.toNat).rseq = (s.conn f.srcPkg.toNat).rseq := by
  obtain ⟨un, at_, hexec⟩ := frame_next he hp hok hv hd hlen ht hw hl hty
  dsimp only at hexec
  rw [if_pos (show f.seq.toNat ≤ (acked (s.conn f.srcPkg.toNat) un at_).rseq from hseq)] at hexec
  refine ⟨_, hexec, ?_, ?_, ?_⟩
  · unfold State.sendAck State.emit
    dsimp only
    split <;> rfl
  · unfold State.sendAck State.emit
    dsimp only
    split <;> rfl
  · refine (congrArg Conn.rseq (conn_emit _ _ _)).trans ?_
    exact (congrArg Conn.rseq (conn_setConn_self s (c := acked (s.conn f.srcPkg.toNat) un at_) (conn_pkg s f.srcPkg.toNat)) :)

theorem frame_taken (hseq : f.seq.toNat = (s.conn f.srcPkg.toNat).rseq + 1) (ha : (s.conn f.srcPkg.toNat).ahead = []) (hcls : f.cls = 2) :
    ∃ t, exec (.frameReceive f) s = .next t ∧ t.msgs = s.msgs ++ (Config.invOfPayload f.payload).toList.filter (fun m => m.dst / 128 == s.pkg) ∧
      (t.conn f.srcPkg.toNat).rseq = (s.conn f.srcPkg.toNat).rseq + 1 ∧ t.mem = s.mem := by
  obtain ⟨un, at_, hexec⟩ := frame_next he hp hok hv hd hlen ht hw hl hty
  dsimp only at hexec
  have hc : (acked (s.conn f.srcPkg.toNat) un at_).rseq = (s.conn f.srcPkg.toNat).rseq := rfl
  have hahead : (acked (s.conn f.srcPkg.toNat) un at_).ahead = [] := ha
  rw [hc, if_neg (by omega), if_pos hseq, hahead] at hexec
  obtain ⟨o, ho⟩ := takeFrame_inv (s.setConn (acked (s.conn f.srcPkg.toNat) un at_)) f.srcPkg.toNat hty hcls
  refine ⟨_, hexec, ?_, ?_, ?_⟩
  · exact (congrArg State.msgs ho :)
  · refine (congrArg (fun t : State => (t.conn f.srcPkg.toNat).rseq) ho).trans ?_
    refine (congrArg Conn.rseq (conn_setConn_self (s.setConn (acked (s.conn f.srcPkg.toNat) un at_))
      (c := took ((s.setConn (acked (s.conn f.srcPkg.toNat) un at_)).conn f.srcPkg.toNat) f.seq.toNat) (conn_pkg _ _))).trans ?_
    exact hseq
  · exact (congrArg State.mem ho :)

end

/-! ## The host (R374) -/

theorem blocks_perform_pkg (s : State) (who : Who) {a : Acc} (h : a.loc.store = .pkg) (vs : List Byte) : (s.perform who a vs).blocks = s.blocks := by
  obtain ⟨s1, h1, h2⟩ := perform_bytes s who a vs
  have hset : (s1.setBytes a.loc vs).blocks = s1.blocks := by
    unfold State.setBytes State.setCells
    rw [h]
  exact h2.blocks.trans (hset.trans h1.blocks)

theorem blocks_hostWrite (s : State) (pa : Nat) (bs : List Byte) : (s.hostWrite pa bs).blocks = s.blocks := by
  obtain ⟨cs, l, m, -, hu⟩ := logged_logAll s pa bs.length
  unfold State.hostWrite
  refine (same_unpin _ _).blocks.trans ((blocks_perform_pkg _ _ rfl _).trans ?_)
  rw [hu]

theorem hostWrite_writes {s : State} {pa : Nat} {bs : List (BitVec 8)} (hne : bs ≠ []) (h1 : inHole pa = false) (h2 : inHole (pa + bs.length - 1) = false)
    (h3 : pa + bs.length ≤ 2 ^ 52) (hro : ∀ n, n < bs.length → s.roByte (pa + n) = false) :
    exec (.hostAccess true pa bs) s = .next (s.hostWrite pa bs) := by
  have hmem : inMemory pa bs.length = true := by
    unfold inMemory
    rw [h1, h2, decide_eq_true (List.length_pos_iff.2 hne), decide_eq_true h3]
    rfl
  have hbs : (bs.zipIdx.map fun x => if s.roByte (pa + x.2) then s.byte (paLoc (pa + x.2)) else x.1) = bs := by
    refine Eq.trans (List.map_congr_left fun x hx => ?_) (List.zipIdx_map_fst 0 bs)
    obtain ⟨-, hlt, -⟩ := List.mem_zipIdx hx
    rw [hro _ (by omega)]
    rfl
  show execHostAccess true pa bs s = _
  unfold execHostAccess
  rw [hmem, hbs]
  rfl

theorem hostRead_reads {s : State} {pa : Nat} {bs : List (BitVec 8)} (h : inMemory pa bs.length = true) : exec (.hostAccess false pa bs) s =
    .next { s with hostClock := ((s.relsAt (paLoc pa) bs.length).filter fun r => r.scope == .sys).foldl (fun k r => clockJoin k r.clock) s.hostClock } := by
  show execHostAccess false pa bs s = _
  unfold execHostAccess
  rw [h]
  rfl

theorem linkTraining_trains {s : State} {p : Nat} (hp : p < 24) (hn : p ∉ s.ports) : exec (.linkTraining p) s =
    .next { s with ports := s.ports ++ [p], etherType := (Config.etherType s.tick).getD s.etherType } :=
  if_pos ⟨hp, by simpa using hn⟩

/-- Settles O50. -/
theorem connections : Obligations.Connections := by
  unfold Obligations.Connections
  intro s p f
  refine ⟨fun ctx tag data hlen => ⟨fun h => ?_, fun e h => ?_⟩, fun h => if_pos h, fun he hp hok hv hd hl ht hw hk hty =>
      ⟨fun hseq => frame_again he hp hok hv hd hl ht hw hk hty hseq, fun hseq ha hcls => frame_taken he hp hok hv hd hl ht hw hk hty hseq ha hcls⟩,
    fun x hx hf hp => retransmit_again hx hf hp, fun x xs hx hf hd => connectionFailure_fails hx hf hd, fun hp hn => linkTraining_trains hp hn,
    fun hne hp => reestablished_fresh hne hp, fun pa bs hne h1 h2 h3 hro => ⟨_, hostWrite_writes hne h1 h2 h3 hro, (stored_hostWrite s pa bs).1, blocks_hostWrite s pa bs⟩,
    fun pa bs h => ⟨_, hostRead_reads h, rfl, rfl⟩⟩
  · refine ⟨_, tagged_next p ctx tag hlen s, ?_⟩
    rw [arrives_unmatched h]
    obtain ⟨l, hl⟩ := log_eq s 6 ctx [p, tag.toNat, data.length]
    rw [hl]
    exact ⟨rfl, rfl, rfl⟩
  · obtain ⟨h1, h2, h3, h4, h5, h6⟩ := matchArm_facts h
    obtain ⟨u, hu, htagged⟩ := arrives_matched (p := p) h
    refine ⟨h1, h2, h3, h4, h5, h6, fun hf => ⟨_, tagged_next p ctx tag hlen s, fun x hx => ?_⟩, fun hf => ?_⟩
    · rw [htagged, hf, if_neg Bool.false_ne_true, armed_fire] at hx
      exact bne_iff_ne.1 (List.mem_filter.1 hx).2
    · rw [hf, if_pos rfl] at htagged
      refine ⟨_, holding e data.length (clockSet [] s.nextAgent 1) e, tagged_next p ctx tag hlen s, ?_⟩
      rw [htagged]
      have hself : holding e data.length (clockSet [] s.nextAgent 1) e = { e with held := some (data.length, clockSet [] s.nextAgent 1) } := if_pos rfl
      exact ⟨List.mem_map_of_mem h1, by rw [hself], by rw [hself], hu.2⟩

end Sys2Proof.Proofs.Links
end

section
/-! SUPPORT. Errors, rollbacks, commits, the thermal step and attestation (R413-R425): O52. -/

namespace Sys2Proof.Proofs.Faults

open Sys2Proof Sys2Proof.Machine Sys2Proof.Laws Sys2Proof.Proofs.Frames Sys2Proof.Proofs.SyncWords Sys2Proof.Proofs.Driver Sys2Proof.Proofs.Starts Sys2Proof.Proofs.Units
  Sys2Proof.Proofs.Ends Sys2Proof.Proofs.Queues

/-! ## Errors are recorded (R414) -/

/-- The place in host memory of the record that the machine writes next. -/
def recordPlace (s : State) : Loc := paLoc (2 ^ 51 + (Config.errorBase + 32 * (s.errNext % Config.errorRing)) % 2 ^ 51)

/-- A new record of an error stands in the ring, in host memory too. -/
def Written (s : State) (e : ErrorInfo) (t : State) : Prop :=
  s.Stored t (recordPlace s) (⟨e, s.ns, 1⟩ : ErrRec).bytes ∧ t.errNext = s.errNext + 1 ∧
    t.errors = (s.errors ++ [(⟨e, s.ns, 1⟩ : ErrRec)]).drop (s.errors.length + 1 - Config.errorRing)

theorem Written.of_bytes {s t u : State} {e : ErrorInfo} (h : Written s e t) (hb : ∀ l, u.byte l = t.byte l) (hn : u.errNext = t.errNext)
    (he : u.errors = t.errors) : Written s e u := ⟨stored_of_bytes h.1 hb, hn.trans h.2.1, he.trans h.2.2⟩

theorem setBytes_pkg (s : State) {l : Loc} (h : l.store = .pkg) (vs : List Byte) : ∃ m, s.setBytes l vs = { s with mem := m } := by
  unfold State.setBytes
  rw [h]
  exact ⟨_, rfl⟩

theorem putError_eq (s : State) (n : Nat) (r : ErrRec) : ∃ m, s.putError n r = { s with mem := m } := setBytes_pkg s rfl r.bytes

/-- A record changes the package's memory, what is kept of errors, Contrail and the count of interrupts alone. -/
def Noted (s t : State) : Prop := ∃ m l es n k, t = { s with mem := m, contrail := l, errors := es, errNext := n, msix := k }

theorem Noted.refl (s : State) : Noted s s := ⟨_, _, _, _, _, rfl⟩

theorem Noted.trans {s t u : State} (h : Noted s t) (k : Noted t u) : Noted s u := by
  obtain ⟨_, _, _, _, _, rfl⟩ := h
  obtain ⟨_, _, _, _, _, rfl⟩ := k
  exact ⟨_, _, _, _, _, rfl⟩

theorem Noted.foldl {α : Type} {f : State → α → State} (hf : ∀ s x, Noted s (f s x)) (l : List α) (s : State) : Noted s (l.foldl f s) := by
  induction l generalizing s with
  | nil => exact .refl s
  | cons x l ih => exact (hf s x).trans (ih _)

theorem noted_log (s : State) (c x : Nat) (d : List Nat) : Noted s (s.log c x d) := by
  obtain ⟨l, hl⟩ := log_eq s c x d
  exact ⟨_, l, _, _, _, hl⟩

/-- A record made of an error: beside Contrail and the interrupt, what `Written` says. -/
theorem newError_facts (s : State) (e : ErrorInfo) : Noted s (s.newError e) ∧ Written s e (s.newError e) ∧
    (s.newError e).msix = if e.sev = 0 then s.msix else s.msix + 1 := by
  have hstored := stored_setBytes { s with
    errors := (s.errors ++ [(⟨e, s.ns, 1⟩ : ErrRec)]).drop ((s.errors ++ [(⟨e, s.ns, 1⟩ : ErrRec)]).length - Config.errorRing), errNext := s.errNext + 1 }
    (recordPlace s) (⟨e, s.ns, 1⟩ : ErrRec).bytes rfl
  unfold State.newError
  dsimp only
  rw [List.length_append, List.length_singleton] at hstored ⊢
  obtain ⟨m, hm⟩ := putError_eq { s with errors := (s.errors ++ [(⟨e, s.ns, 1⟩ : ErrRec)]).drop (s.errors.length + 1 - Config.errorRing), errNext := s.errNext + 1 }
    s.errNext ⟨e, s.ns, 1⟩
  have hput := hm.symm.trans (Eq.refl (State.setBytes _ (recordPlace s) (⟨e, s.ns, 1⟩ : ErrRec).bytes))
  rw [hm]
  rw [← hput] at hstored
  obtain ⟨l, hl⟩ := log_eq { s with errors := (s.errors ++ [(⟨e, s.ns, 1⟩ : ErrRec)]).drop (s.errors.length + 1 - Config.errorRing), errNext := s.errNext + 1, mem := m }
    1 e.ctx.toNat (ErrRec.detail ⟨e, s.ns, 1⟩)
  rw [hl]
  split
  · exact ⟨⟨_, _, _, _, _, rfl⟩, ⟨stored_of_bytes ⟨hstored.1, hstored.2⟩ fun _ => rfl, rfl, rfl⟩, rfl⟩
  · exact ⟨⟨_, _, _, _, _, rfl⟩, ⟨stored_of_bytes ⟨hstored.1, hstored.2⟩ fun _ => rfl, rfl, rfl⟩, rfl⟩

theorem recordError_new {s : State} {e : ErrorInfo} (h : e.sev ≠ 0 ∨ s.errors = []) : s.recordError e = s.newError e := by
  unfold State.recordError
  split
  · next r hr =>
    have hm : r.merges e = false := by
      rcases h with h | h
      · unfold ErrRec.merges
        rw [beq_false_of_ne h, Bool.and_false]
        rfl
      · rw [h] at hr
        cases hr
    rw [hm]
    rfl
  · rfl

theorem noted_recordError (s : State) (e : ErrorInfo) : Noted s (s.recordError e) := by
  unfold State.recordError
  split
  · next r _ =>
    split
    · dsimp only
      obtain ⟨m, hm⟩ := putError_eq { s with errors := s.errors.dropLast ++ [{ r with cnt := min 255 (r.cnt + 1) }] } (s.errNext - 1)
        { r with cnt := min 255 (r.cnt + 1) }
      rw [hm]
      exact ⟨_, _, _, _, _, rfl⟩
    · exact (newError_facts s e).1
  · exact (newError_facts s e).1

/-! ## Severities 0, 1 and 3 (R415, R421) -/

theorem errorDetected_of {s : State} {e : ErrorInfo} (hu : e.unit.toNat < 10) (hl : s.latent e = false) : exec (.errorDetected e) s = .next (s.error e) := by
  show execErrorDetected e s = _
  unfold execErrorDetected
  rw [if_neg (by omega), hl]
  rfl

theorem latent_of_sev {s : State} {e : ErrorInfo} (h : e.sev ≠ 2 ∨ e.unit ≠ 1) : s.latent e = false := by
  unfold State.latent
  rcases h with h | h
  · rw [beq_false_of_ne h, Bool.and_false, Bool.false_and]
  · rw [beq_false_of_ne h, Bool.false_and, Bool.false_and]

theorem error_corrected {s : State} {e : ErrorInfo} (h : e.sev = 0) : s.error e = (s.recordError e).countResidue e := by
  unfold State.error
  rw [h]
  rfl

theorem error_contained {s : State} {e : ErrorInfo} (h : e.sev = 1) : s.error e = (s.recordError e).contain e := by
  unfold State.error
  rw [h]
  rfl

theorem error_fatal {s : State} {e : ErrorInfo} (h : e.sev = 3) : s.error e = (s.recordError e).freeze 0 := by
  unfold State.error
  rw [h]
  rfl

theorem freeze_eq (s : State) (n : Nat) : ∃ l, s.freeze n = { s with contrail := l, frozen := true } := by
  obtain ⟨l, hl⟩ := log_eq s 8 0 [n]
  unfold State.freeze
  rw [hl]
  exact ⟨l, rfl⟩

theorem detected_poisons {s : State} {e : ErrorInfo} (hu : e.unit.toNat < 10) (hsev : e.sev = 1) (hunit : e.unit = 4) (ha : inHbm e.addr.toNat = true) :
    ∃ t, exec (.errorDetected e) s = .next t ∧ t.isPoisoned e.addr.toNat = true ∧ Written s e t ∧ t.msix = s.msix + 1 ∧ t.frozen = s.frozen ∧
      t.ctxs = s.ctxs := by
  have hne : e.sev ≠ 0 := by rw [hsev]; decide
  obtain ⟨⟨m, l, es, n, k, hs⟩, hw, hmsix⟩ := newError_facts s e
  refine ⟨_, errorDetected_of hu (latent_of_sev (.inl (by rw [hsev]; decide))), ?_⟩
  rw [error_contained hsev, recordError_new (.inl hne)]
  have hcontain : (s.newError e).contain e = { s.newError e with poison := SMap.set false (s.newError e).poison (e.addr.toNat / 64) true } := by
    unfold State.contain
    rw [if_pos (.inr hunit), if_pos ha]
  rw [hcontain]
  refine ⟨?_, hw.of_bytes (fun _ => rfl) rfl rfl, hmsix.trans (if_neg hne), ?_, ?_⟩
  · show SMap.get false (SMap.set false _ (e.addr.toNat / 64) true) (e.addr.toNat / 64) = true
    exact get_set_self _ _ _
  · rw [hs]
  · rw [hs]

theorem detected_freezes {s : State} {e : ErrorInfo} (hu : e.unit.toNat < 10) (hsev : e.sev = 3) :
    ∃ t, exec (.errorDetected e) s = .next t ∧ Written s e t ∧ t.msix = s.msix + 1 ∧ t.frozen = true ∧ t.blocks = s.blocks := by
  have hne : e.sev ≠ 0 := by rw [hsev]; decide
  obtain ⟨⟨m, l, es, n, k, hs⟩, hw, hmsix⟩ := newError_facts s e
  obtain ⟨l', hf⟩ := freeze_eq (s.newError e) 0
  refine ⟨_, errorDetected_of hu (latent_of_sev (.inl (by rw [hsev]; decide))), ?_⟩
  rw [error_fatal hsev, recordError_new (.inl hne), hf]
  refine ⟨hw.of_bytes (fun _ => rfl) rfl rfl, hmsix.trans (if_neg hne), rfl, ?_⟩
  rw [hs]

theorem detected_corrected {s : State} {e : ErrorInfo} (hu : e.unit.toNat < 10) (hsev : e.sev = 0) (herr : s.errors = []) :
    ∃ t, exec (.errorDetected e) s = .next t ∧ Written s e t ∧ t.msix = s.msix ∧ t.blocks = s.blocks ∧
      (e.unit = 5 → SMap.get 0 t.residues e.inst.toNat = SMap.get 0 s.residues e.inst.toNat + 1) := by
  obtain ⟨⟨m, l, es, n, k, hs⟩, hw, hmsix⟩ := newError_facts s e
  refine ⟨_, errorDetected_of hu (latent_of_sev (.inl (by rw [hsev]; decide))), ?_⟩
  rw [error_corrected hsev, recordError_new (.inr herr)]
  rw [if_pos hsev] at hmsix
  have hblocks : (s.newError e).blocks = s.blocks := by rw [hs]
  unfold State.countResidue
  split
  · refine ⟨hw.of_bytes (fun _ => rfl) rfl rfl, hmsix, hblocks, fun _ => ?_⟩
    rw [hs]
    show SMap.get 0 (SMap.set 0 s.residues e.inst.toNat (SMap.get 0 s.residues e.inst.toNat + 1)) _ = _
    exact get_set_self _ _ _
  · next hne => exact ⟨hw, hmsix, hblocks, fun h => absurd h hne⟩

theorem cellReader_done {s : State} {b : Block} (h : ∀ o ∈ b.ops, o.tl = 2 → o.isDone = true) : s.cellReader b = none := by
  have hnone : b.ops.find? (fun o => o.tl == 2 && !o.isDone) = none := by
    rw [List.find?_eq_none]
    intro o ho
    by_cases htl : o.tl = 2
    · rw [h o ho htl, Bool.not_true, Bool.and_false]
      exact Bool.false_ne_true
    · rw [beq_false_of_ne htl, Bool.false_and]
      exact Bool.false_ne_true
  unfold State.cellReader
  rw [hnone]

/-- A parity error that no operation of the plane meets is held. -/
theorem detected_latent {s : State} {e : ErrorInfo} (hu : e.unit.toNat < 10) (hsev : e.sev = 2) (hunit : e.unit = 1)
    (hplane : ∃ b ∈ s.blocks, b.place = some e.inst.toNat ∧ b.planeSt.isSome = true)
    (hdone : ∀ b ∈ s.blocks, b.place = some e.inst.toNat → ∀ o ∈ b.ops, o.tl = 2 → o.isDone = true) :
    ∃ t, exec (.errorDetected e) s = .next t ∧ e ∈ t.parity ∧ { t with parity := s.parity } = s := by
  have hlatent : s.latent e = true := by
    obtain ⟨b, hb, hplace, hp⟩ := hplane
    have hany : (s.blocks.any fun b => b.place == some e.inst.toNat && b.planeSt.isSome) = true :=
      List.any_eq_true.2 ⟨b, hb, by rw [hplace, hp, beq_self_eq_true]; rfl⟩
    unfold State.latent
    rw [hunit, hsev, hany]
    rfl
  have hmet : ∀ u : State, (s.blocks.any fun b => b.place == some e.inst.toNat && (u.cellReader b).isSome) = false := fun u => by
    rw [List.any_eq_false]
    intro b hb
    by_cases hplace : b.place = some e.inst.toNat
    · rw [cellReader_done (hdone b hb hplace), Option.isSome_none, Bool.and_false]
      exact Bool.false_ne_true
    · rw [beq_false_of_ne hplace, Bool.false_and]
      exact Bool.false_ne_true
  show ∃ t, execErrorDetected e s = _ ∧ _
  unfold execErrorDetected
  rw [if_neg (by omega), if_pos hlatent]
  by_cases hin : s.parity.contains e = true
  · rw [if_pos hin]
    refine ⟨s, if_neg ?_, by simpa using hin, rfl⟩
    rw [hmet]
    exact Bool.false_ne_true
  · rw [if_neg hin]
    refine ⟨{ s with parity := s.parity ++ [e] }, if_neg ?_, List.mem_append_right _ (List.mem_singleton.2 rfl), rfl⟩
    rw [hmet { s with parity := s.parity ++ [e] }]
    exact Bool.false_ne_true

/-! ## A rollback begins (R418) -/

/-- No block and no grid comes from a context that had none, and the rollbacks and the clocks stand. -/
structure Remains (s t : State) : Prop where
  blocks : ∀ x ∈ t.blocks, ∃ y ∈ s.blocks, y.ctx = x.ctx
  grids : ∀ x ∈ t.grids, ∃ y ∈ s.grids, y.ctx = x.ctx
  frozen : t.frozen = s.frozen
  rollbacks : t.rollbacks = s.rollbacks

theorem Remains.refl (s : State) : Remains s s := ⟨fun x h => ⟨x, h, rfl⟩, fun x h => ⟨x, h, rfl⟩, rfl, rfl⟩

theorem Remains.trans {s t u : State} (h : Remains s t) (k : Remains t u) : Remains s u where
  blocks x hx := by
    obtain ⟨y, hy, hyx⟩ := k.blocks x hx
    obtain ⟨z, hz, hzy⟩ := h.blocks y hy
    exact ⟨z, hz, hzy.trans hyx⟩
  grids x hx := by
    obtain ⟨y, hy, hyx⟩ := k.grids x hx
    obtain ⟨z, hz, hzy⟩ := h.grids y hy
    exact ⟨z, hz, hzy.trans hyx⟩
  frozen := k.frozen.trans h.frozen
  rollbacks := k.rollbacks.trans h.rollbacks

theorem Remains.foldl {α : Type} {f : State → α → State} (hf : ∀ s x, Remains s (f s x)) (l : List α) (s : State) : Remains s (l.foldl f s) := by
  induction l generalizing s with
  | nil => exact .refl s
  | cons x l ih => exact (hf s x).trans (ih _)

theorem remains_of_shape {s t : State} (h : shape t = shape s) : Remains s t where
  blocks x hx := by
    obtain ⟨y, hy, e⟩ := mem_of_map_eq (congrArg State.blocks h : t.blocks.map blockShape = s.blocks.map blockShape) hx
    exact ⟨y, hy, (congrArg Block.ctx e :)⟩
  grids x hx := by
    obtain ⟨y, hy, e⟩ := mem_of_map_eq (congrArg State.grids h : t.grids.map gridShape = s.grids.map gridShape) hx
    exact ⟨y, hy, (congrArg Grid.ctx e :)⟩
  frozen := (congrArg State.frozen h :)
  rollbacks := (congrArg State.rollbacks h :)

theorem remains_dropBlock (s : State) (id : Nat) : Remains s (s.dropBlock id) := by
  refine (remains_of_shape (shape_performOwed s id)).trans ?_
  exact ⟨fun x hx => ⟨x, List.mem_of_mem_filter hx, rfl⟩, fun x hx => ⟨x, hx, rfl⟩, rfl, rfl⟩

theorem remains_setCbField (s : State) (r : Ring) (o k v : Nat) : Remains s (s.setCbField r o k v) := by
  obtain ⟨u, ⟨cs, l, m, -, rfl⟩, h⟩ := setCbField_eq s r o k v
  rw [h]
  exact ⟨fun x hx => ⟨x, hx, rfl⟩, fun x hx => ⟨x, hx, rfl⟩, rfl, rfl⟩

theorem remains_quench (s : State) (ctx : Nat) : Remains s (s.quench ctx) where
  blocks x hx := by
    obtain ⟨y, hy, rfl⟩ := List.mem_map.1 hx
    refine ⟨y, hy, ?_⟩
    split <;> rfl
  grids x hx := ⟨x, hx, rfl⟩
  frozen := rfl
  rollbacks := rfl

theorem remains_restoreTotals (s : State) (c : Context) : Remains s (s.restoreTotals c) where
  blocks x hx := ⟨x, hx, rfl⟩
  grids x hx := by
    obtain ⟨y, hy, rfl⟩ := List.mem_map.1 hx
    refine ⟨y, hy, ?_⟩
    split <;> rfl
  frozen := rfl
  rollbacks := rfl

/-- The machine once the blocks of a context have been dropped, its handles freed and its queues halted. -/
def halted (s : State) (ctx : Nat) : State :=
  let s := ((s.quench ctx).dropBlocks fun b => b.ctx == ctx).freeHandles ctx
  (s.queues.filter fun r => r.ctx == ctx).foldl (fun s r => s.setCbState r 3) s

theorem remains_dropBlocks (s : State) (p : Block → Bool) : Remains s (s.dropBlocks p) := .foldl (fun s (b : Block) => remains_dropBlock s b.id) _ _

theorem remains_halt (s : State) (rs : List Ring) : Remains s (rs.foldl (fun s r => s.setCbState r 3) s) := .foldl (fun s r => remains_setCbField s r 31 1 3) _ _

theorem remains_halted (s : State) (ctx : Nat) : Remains s (halted s ctx) ∧ ∀ x ∈ (halted s ctx).blocks, x.ctx ≠ ctx := by
  have hdrop := remains_dropBlocks (s.quench ctx) fun b => b.ctx == ctx
  have hnone : ∀ x ∈ ((s.quench ctx).dropBlocks fun b => b.ctx == ctx).blocks, x.ctx ≠ ctx := fun x hx hctx => by
    obtain ⟨⟨y, hy, hyctx, hid⟩, hne⟩ := mem_dropBlocks ((s.quench ctx).blocks.filter fun b => b.ctx == ctx) (s.quench ctx) x hx
    exact hne y (List.mem_filter.2 ⟨hy, by rw [beq_iff_eq, hyctx, hctx]⟩) hid
  have hfree : Remains ((s.quench ctx).dropBlocks fun b => b.ctx == ctx) (((s.quench ctx).dropBlocks fun b => b.ctx == ctx).freeHandles ctx) :=
    ⟨fun x hx => ⟨x, hx, rfl⟩, fun x hx => ⟨x, hx, rfl⟩, rfl, rfl⟩
  have hhalt := hfree.trans (remains_halt _ ((((s.quench ctx).dropBlocks fun b => b.ctx == ctx).freeHandles ctx).queues.filter fun r => r.ctx == ctx))
  refine ⟨((remains_quench s ctx).trans hdrop).trans hhalt, fun x hx => ?_⟩
  obtain ⟨y, hy, hyx⟩ := hhalt.blocks x hx
  exact hyx ▸ hnone y hy

/-- Nothing of a context stands after its discarding, and of the others nothing has come. -/
theorem discard_facts (s : State) (ctx : Nat) : Remains s (s.discard ctx) ∧ (∀ x ∈ (s.discard ctx).blocks, x.ctx ≠ ctx) ∧
    ∀ x ∈ (s.discard ctx).grids, x.ctx ≠ ctx := by
  obtain ⟨hr, hb⟩ := remains_halted s ctx
  refine ⟨hr.trans ⟨fun x hx => ⟨x, hx, rfl⟩, fun x hx => ⟨x, List.mem_of_mem_filter hx, rfl⟩, rfl, rfl⟩, hb, fun x hx => ?_⟩
  exact bne_iff_ne.1 (List.mem_filter.1 (show x ∈ (halted s ctx).grids.filter _ from hx)).2

/-- A rollback of context c for error e has begun. -/
def Begun (t : State) (e : ErrorInfo) (c : Context) : Prop :=
  (∀ b ∈ t.blocks, b.ctx ≠ c.num) ∧ (∀ g ∈ t.grids, g.ctx ≠ c.num) ∧
    ∃ r ∈ t.rollbacks, r.ctx = c.num ∧ e ∈ r.errs ∧ r.restores = (c.ckptValid && decide (1 ≤ c.committed)) ∧
      r.lines = if r.restores then oldest c.undo c.committed else []

theorem rollback_facts (s : State) (e : ErrorInfo) (c : Context) : (∀ x ∈ (s.rollback e c).blocks, ∃ y ∈ s.blocks, y.ctx = x.ctx) ∧
    (∀ x ∈ (s.rollback e c).grids, ∃ y ∈ s.grids, y.ctx = x.ctx) ∧ (s.rollback e c).frozen = s.frozen ∧
    (∀ x ∈ (s.rollback e c).blocks, x.ctx ≠ c.num) ∧ (∀ x ∈ (s.rollback e c).grids, x.ctx ≠ c.num) := by
  obtain ⟨hr, hb, hg⟩ := discard_facts (s.restoreTotals c) c.num
  have hr := (remains_restoreTotals s c).trans hr
  exact ⟨hr.blocks, hr.grids, hr.frozen, hb, hg⟩

theorem rollbacks_rollback (s : State) (e : ErrorInfo) (c : Context) : ∃ r, (s.rollback e c).rollbacks = (s.rollbacks.filter fun x => x.ctx != c.num) ++ [r] ∧
    r.ctx = c.num ∧ e ∈ r.errs ∧ r.restores = (c.ckptValid && decide (1 ≤ c.committed)) ∧ r.lines = if r.restores then oldest c.undo c.committed else [] := by
  have hstand : ((s.restoreTotals c).discard c.num).rollbacks = s.rollbacks := (discard_facts (s.restoreTotals c) c.num).1.rollbacks
  rw [← hstand]
  exact ⟨⟨c.num, if c.ckptValid && decide (1 ≤ c.committed) then oldest c.undo c.committed else [], _, c.ckptValid && decide (1 ≤ c.committed), _⟩,
    rfl, rfl, List.mem_append_right _ (List.mem_singleton.2 rfl), rfl, rfl⟩

theorem rollback_begins (s : State) (e : ErrorInfo) (c : Context) : Begun (s.rollback e c) e c := by
  obtain ⟨-, -, -, hb, hg⟩ := rollback_facts s e c
  obtain ⟨r, hr, h⟩ := rollbacks_rollback s e c
  exact ⟨hb, hg, r, hr ▸ List.mem_append_right _ (List.mem_singleton.2 rfl), h⟩

theorem Begun.rollback {t : State} {e : ErrorInfo} {c d : Context} (h : Begun t e c) (hne : c.num ≠ d.num) : Begun (t.rollback e d) e c := by
  obtain ⟨hb, hg, r, hr, hctx, h⟩ := h
  obtain ⟨kb, kg, -⟩ := rollback_facts t e d
  obtain ⟨r', hr', -⟩ := rollbacks_rollback t e d
  refine ⟨fun x hx => ?_, fun x hx => ?_, r, ?_, hctx, h⟩
  · obtain ⟨y, hy, hyx⟩ := kb x hx
    exact hyx ▸ hb y hy
  · obtain ⟨y, hy, hyx⟩ := kg x hx
    exact hyx ▸ hg y hy
  · rw [hr']
    exact List.mem_append_left _ (List.mem_filter.2 ⟨hr, bne_iff_ne.2 (hctx ▸ hne)⟩)

theorem Begun.foldl {e : ErrorInfo} {c : Context} : ∀ (l : List Context) {t : State}, Begun t e c → c.num ∉ l.map (·.num) → Begun (l.foldl (State.rollback · e) t) e c
  | [], _, h, _ => h
  | d :: l, _, h, hne => by
    obtain ⟨hd, hl⟩ := not_or.1 (mt List.mem_cons.2 (show c.num ∉ d.num :: l.map (·.num) from hne))
    exact Begun.foldl l (h.rollback hd) hl

theorem begun_foldl {e : ErrorInfo} : ∀ (l : List Context) (s : State), (l.map (·.num)).Nodup → ∀ c ∈ l, Begun (l.foldl (State.rollback · e) s) e c
  | d :: l, s, hn, c, hc => by
    obtain ⟨hd, hl⟩ := List.nodup_cons.1 (show (d.num :: l.map (·.num)).Nodup from hn)
    rcases List.mem_cons.1 hc with rfl | hc
    · exact (rollback_begins s e c).foldl l hd
    · exact begun_foldl l _ hl c hc

theorem frozen_foldl (e : ErrorInfo) (l : List Context) (s : State) : (l.foldl (State.rollback · e) s).frozen = s.frozen := by
  induction l generalizing s with
  | nil => rfl
  | cons c l ih => exact (ih _).trans (rollback_facts s e c).2.2.1

/-- An error charges the context c. -/
def Charges (s : State) (e : ErrorInfo) (c : Context) : Prop :=
  e.unit = 2 ∨ e.unit = 6 ∨ (e.unit = 9 ∧ Config.zenithError s.tick = true) ∨ c.num = e.ctx.toNat

theorem charged_of {s : State} {e : ErrorInfo} {c : Context} (hc : c ∈ s.ctxs) (h : Charges s e c) : c ∈ s.charged e := by
  unfold State.charged
  dsimp only
  split
  · exact hc
  · next hall =>
    refine List.mem_filter.2 ⟨hc, ?_⟩
    rcases h with h | h | h | h
    · exact absurd (.inl h) hall
    · exact absurd (.inr (.inl h)) hall
    · exact absurd (.inr (.inr h)) hall
    · rw [h, beq_self_eq_true, Bool.true_or]

theorem charged_sublist (s : State) (e : ErrorInfo) : (s.charged e).Sublist s.ctxs := by
  unfold State.charged
  dsimp only
  split
  · exact .refl _
  · exact List.filter_sublist

theorem charged_none {s : State} {e : ErrorInfo} (h1 : e.unit ≠ 1) (h5 : e.unit ≠ 5) (h : ∀ c ∈ s.ctxs, ¬ Charges s e c) : s.charged e = [] := by
  unfold State.charged
  dsimp only
  rw [beq_false_of_ne h1, beq_false_of_ne h5]
  split
  · next hall =>
    refine List.eq_nil_iff_forall_not_mem.2 fun c hc => h c hc ?_
    exact hall.imp id (Or.imp id .inl)
  · refine List.filter_eq_nil_iff.2 fun c hc => ?_
    have hne : c.num ≠ e.ctx.toNat := fun hn => h c hc (.inr (.inr (.inr hn)))
    rw [beq_false_of_ne hne]
    simp

theorem stopEngine_facts (s : State) (e : ErrorInfo) : ((s.countResidue e).stopEngine e).frozen = s.frozen ∧
    ((s.countResidue e).stopEngine e).ctxs = s.ctxs ∧ ((s.countResidue e).stopEngine e).tick = s.tick := by
  unfold State.stopEngine State.countResidue
  split <;> split <;> exact ⟨rfl, rfl, rfl⟩

theorem stopEngine_none (s : State) {e : ErrorInfo} (h1 : e.unit ≠ 1) (h5 : e.unit ≠ 5) : (s.countResidue e).stopEngine e = s := by
  unfold State.stopEngine State.countResidue
  rw [if_neg (not_or.2 ⟨h1, h5⟩), if_neg h5]

theorem error_detected {s : State} {e : ErrorInfo} (h : e.sev = 2) : s.error e =
    if (((s.countResidue e).stopEngine e).charged e).isEmpty then ((s.countResidue e).stopEngine e).recordError e
    else (((s.countResidue e).stopEngine e).charged e).foldl (State.rollback · e) ((s.countResidue e).stopEngine e) := by
  unfold State.error
  rw [h]
  rfl

/-- A detected error rolls back the contexts that it charges; one that charges none is recorded alone. -/
theorem error_rollsBack {s : State} {e : ErrorInfo} (hsev : e.sev = 2) (hn : (s.ctxs.map (·.num)).Nodup) : (s.error e).frozen = s.frozen ∧
    (∀ c ∈ s.ctxs, Charges s e c → Begun (s.error e) e c) ∧
    (e.unit ≠ 1 → e.unit ≠ 5 → (∀ c ∈ s.ctxs, ¬ Charges s e c) → Written s e (s.error e) ∧ (s.error e).blocks = s.blocks) := by
  obtain ⟨hf, hctxs, htick⟩ := stopEngine_facts s e
  have hnone : e.unit ≠ 1 → e.unit ≠ 5 → (s.countResidue e).stopEngine e = s := stopEngine_none s
  rw [error_detected hsev]
  generalize (s.countResidue e).stopEngine e = u at hf hctxs htick hnone ⊢
  have hin : ∀ c ∈ s.ctxs, Charges s e c → c ∈ u.charged e := fun c hc h =>
    charged_of (hctxs ▸ hc) (show Charges u e c by unfold Charges; rw [htick]; exact h)
  by_cases hnil : u.charged e = []
  · obtain ⟨m, l, es, n, k, hrec⟩ := noted_recordError u e
    rw [hnil]
    refine ⟨?_, fun c hc h => absurd (hin c hc h) (by rw [hnil]; exact List.not_mem_nil), fun h1 h5 _ => ?_⟩
    · show (u.recordError e).frozen = _
      rw [hrec]
      exact hf
    · show Written s e (u.recordError e) ∧ (u.recordError e).blocks = _
      rw [hnone h1 h5, recordError_new (.inl (by rw [hsev]; decide))]
      obtain ⟨⟨m, l, es, n, k, hs⟩, hw, -⟩ := newError_facts s e
      refine ⟨hw, ?_⟩
      rw [hs]
  · rw [if_neg (mt List.isEmpty_iff.1 hnil)]
    have hnodup : ((u.charged e).map (·.num)).Nodup := ((charged_sublist u e).map _).nodup (by rw [hctxs]; exact hn)
    refine ⟨(frozen_foldl e _ u).trans hf, fun c hc h => begun_foldl _ u hnodup c (hin c hc h), fun h1 h5 h => absurd ?_ hnil⟩
    rw [hnone h1 h5]
    exact charged_none h1 h5 h

theorem detected_rollsBack {s : State} {e : ErrorInfo} (hu : e.unit.toNat < 10) (hsev : e.sev = 2) (hunit : e.unit ≠ 1) (hn : (s.ctxs.map (·.num)).Nodup) :
    ∃ t, exec (.errorDetected e) s = .next t ∧ t.frozen = s.frozen ∧ (∀ c ∈ s.ctxs, Charges s e c → Begun t e c) ∧
      (e.unit ≠ 5 → (∀ c ∈ s.ctxs, ¬ Charges s e c) → Written s e t ∧ t.blocks = s.blocks) := by
  obtain ⟨hf, hb, hw⟩ := error_rollsBack hsev hn
  exact ⟨_, errorDetected_of hu (latent_of_sev (.inr hunit)), hf, hb, hw hunit⟩

theorem bridgeFailure_rollsBack {s : State} {a b : Nat} (hab : a < b) (hb : b < 4) (hn : (s.ctxs.map (·.num)).Nodup) :
    ∃ t, exec (.bridgeFailure a b) s = .next t ∧ t.frozen = s.frozen ∧
      ∀ c ∈ s.ctxs, Begun t ⟨0, 0, 6, BitVec.ofNat 8 (if a = 0 then b - 1 else a + b), 0, 2⟩ c := by
  obtain ⟨hf, hbegun, -⟩ := error_rollsBack (s := s) (e := ⟨0, 0, 6, BitVec.ofNat 8 (bridgeNo a b), 0, 2⟩) rfl hn
  exact ⟨_, if_pos ⟨hab, hb⟩, hf, fun c hc => hbegun c hc (.inr (.inl rfl))⟩

/-! ## The oldest entries of an undo log (R417) -/

/-- The entry of a line under an epoch that comes first. -/
def firstOf (u : Undo) (n : Nat) (v : Undo) : Bool := v.line == u.line && decide (n < v.seg)

theorem oldest_append (us : List Undo) (u : Undo) (n : Nat) : oldest (us ++ [u]) n =
    if u.seg ≤ n ∨ (oldest us n).any (fun x => x.line == u.line) then oldest us n else oldest us n ++ [u] := by
  unfold oldest
  rw [List.foldl_append]
  rfl

theorem oldest_facts (n : Nat) (us : List Undo) : (∀ u ∈ oldest us n, n < u.seg ∧ us.find? (firstOf u n) = some u) ∧
    ∀ u ∈ us, n < u.seg → ∃ v ∈ oldest us n, v.line = u.line := by
  induction us using List.reverseRecOn with
  | nil => exact ⟨fun u h => absurd h List.not_mem_nil, fun u h => absurd h List.not_mem_nil⟩
  | append_singleton us x ih =>
    obtain ⟨hfirst, hall⟩ := ih
    have hkeep : ∀ u ∈ oldest us n, n < u.seg ∧ (us ++ [x]).find? (firstOf u n) = some u := fun u hu => by
      obtain ⟨hseg, hf⟩ := hfirst u hu
      exact ⟨hseg, by rw [List.find?_append, hf, Option.some_or]⟩
    rw [oldest_append]
    split
    · next hskip =>
      refine ⟨hkeep, fun u hu hseg => ?_⟩
      rcases List.mem_append.1 hu with hu | hu
      · exact hall u hu hseg
      · obtain rfl := List.mem_singleton.1 hu
        obtain ⟨v, hv, hline⟩ := List.any_eq_true.1 (hskip.resolve_left (by omega))
        exact ⟨v, hv, beq_iff_eq.1 hline⟩
    · next htake =>
      obtain ⟨hseg, hline⟩ := not_or.1 htake
      have hnew : us.find? (firstOf x n) = none := List.find?_eq_none.2 fun v hv hf => by
        obtain ⟨hl, hs⟩ := Bool.and_eq_true_iff.1 hf
        obtain ⟨w, hw, hwl⟩ := hall v hv (of_decide_eq_true hs)
        exact hline (List.any_eq_true.2 ⟨w, hw, beq_iff_eq.2 (hwl.trans (beq_iff_eq.1 hl))⟩)
      have hx : firstOf x n x = true := Bool.and_eq_true_iff.2 ⟨beq_self_eq_true _, decide_eq_true (by omega)⟩
      refine ⟨fun u hu => ?_, fun u hu hs => ?_⟩
      · rcases List.mem_append.1 hu with hu | hu
        · exact hkeep u hu
        · obtain rfl := List.mem_singleton.1 hu
          refine ⟨by omega, ?_⟩
          rw [List.find?_append, hnew, Option.none_or, List.find?_cons_of_pos (p := firstOf u n) hx]
      · rcases List.mem_append.1 hu with hu | hu
        · obtain ⟨v, hv, hl⟩ := hall u hu hs
          exact ⟨v, List.mem_append_left _ hv, hl⟩
        · exact ⟨u, List.mem_append_right _ hu, rfl⟩

/-! ## What a rollback has left to do (R418) -/

theorem recover_rollback {s : State} (h : s.discarding = false) : s.recover = match s.rollbacks with
    | [] => s
    | r :: rest =>
      match r.lines, r.comps with
      | u :: us, _ => { s.restoreLine u with rollbacks := { r with lines := us } :: rest }
      | [], x :: xs => { s.writeComp r.ctx x.1 5 x.2.1 x.2.2 with rollbacks := { r with comps := xs } :: rest }
      | [], [] => s.endRollback r rest := by
  have hnone : s.ctxs.find? (fun c => !c.stale.isEmpty) = none := by
    rw [List.find?_eq_none]
    intro c hc
    have := List.any_eq_false.1 h c hc
    simpa using this
  unfold State.recover
  rw [hnone] <;> rfl

theorem stored_restoreLine (s : State) (u : Undo) : s.Stored (s.restoreLine u) (paLoc u.line) u.old :=
  stored_of_bytes (stored_setBytes s (paLoc u.line) u.old rfl) fun _ => rfl

theorem recover_line {s : State} {r : Rollback} {rest : List Rollback} {u : Undo} {us : List Undo} (hd : s.discarding = false)
    (hr : s.rollbacks = r :: rest) (hl : r.lines = u :: us) :
    s.Stored s.recover (paLoc u.line) u.old ∧ s.recover.rollbacks = { r with lines := us } :: rest := by
  rw [recover_rollback hd]
  simp only [hr, hl]
  exact ⟨stored_of_bytes (stored_restoreLine s u) fun _ => rfl, trivial⟩

/-- The machine without a rollback that ends, and without the log that it has used. -/
def without (s : State) (r : Rollback) (rest : List Rollback) : State :=
  if r.restores then ({ s with rollbacks := rest }).modCtx r.ctx fun c => { c with undo := [] } else { s with rollbacks := rest }

/-- The machine as a rollback ends, before what was held for room goes on: the error and the rollback are recorded. -/
theorem recover_end {s : State} {r : Rollback} {rest : List Rollback} (hd : s.discarding = false) (hr : s.rollbacks = r :: rest) (hl : r.lines = [])
    (hc : r.comps = []) (ha : ∀ x ∈ s.armed, x.held = none) :
    Noted (without s r rest) s.recover := by
  rw [recover_rollback hd]
  simp only [hr, hl, hc]
  unfold State.endRollback
  dsimp only
  have harmed : (without s r rest).armed = s.armed := by
    unfold without
    split <;> rfl
  have hself : without s r rest = if r.restores then ({ s with rollbacks := rest }).modCtx r.ctx fun c => { c with undo := [] } else { s with rollbacks := rest } := rfl
  rw [← hself]
  generalize without s r rest = v at harmed ⊢
  have hnoted : Noted v (((r.errs.filter fun e => !rest.any fun x => x.errs.contains e).foldl State.recordError v).log 4 r.ctx
      [((((r.errs.filter fun e => !rest.any fun x => x.errs.contains e).foldl State.recordError v).ctx? r.ctx).map (·.committed)).getD 0]) :=
    (Noted.foldl noted_recordError _ v).trans (noted_log _ _ _ _)
  rw [fireHeld_none]
  · exact hnoted
  · obtain ⟨m, l, es, n, k, h⟩ := hnoted
    rw [h]
    exact harmed ▸ ha

theorem recover_ended {s : State} {r : Rollback} {rest : List Rollback} (hd : s.discarding = false) (hr : s.rollbacks = r :: rest) (hl : r.lines = [])
    (hc : r.comps = []) (ha : ∀ x ∈ s.armed, x.held = none) : s.recover.rollbacks = rest ∧
      (r.restores = true → ∀ c, s.ctx? r.ctx = some c → (s.recover.ctx? r.ctx).map (·.undo) = some []) := by
  obtain ⟨m, l, es, n, k, h⟩ := recover_end hd hr hl hc ha
  rw [h]
  refine ⟨?_, fun hres c hctx => ?_⟩
  · show (without s r rest).rollbacks = rest
    unfold without
    split <;> rfl
  · show ((without s r rest).ctx? r.ctx).map _ = _
    unfold without
    rw [if_pos hres, ctx?_modCtx_self (s := { s with rollbacks := rest }) (f := fun c => { c with undo := [] }) hctx fun _ h => h]
    rfl

/-! ## Epochs commit (R416) -/

theorem commitTo_facts (s : State) (x : Context) (k : Nat) {y : Context} (hy : s.ctx? x.num = some y) : (s.commitTo x.num k).ctx? x.num = some { y with
    committed := k, ckptValid := true, totals := (s.grids.filter fun g => g.ctx == x.num).map fun g => (g.gid, g.stats)
    undo := y.undo.filter fun u => decide (k < u.seg), stale := y.stale ++ y.undo.filter fun u => decide (u.seg ≤ k) } := by
  refine (ctx?_modCtx_self (f := fun c => { c with
    committed := k, ckptValid := true, totals := (s.grids.filter fun g => g.ctx == x.num).map fun g => (g.gid, g.stats)
    undo := (c.undo.partition fun u => decide (k < u.seg)).1, stale := c.stale ++ (c.undo.partition fun u => decide (k < u.seg)).2 }) hy fun _ h => h).trans ?_
  have hsplit : ∀ us : List Undo, us.partition (fun u => decide (k < u.seg)) =
      (us.filter fun u => decide (k < u.seg), us.filter fun u => decide (u.seg ≤ k)) := fun us => by
    rw [List.partition_eq_filter_filter]
    refine Prod.ext rfl (List.filter_congr fun u _ => ?_)
    show (!decide (k < u.seg)) = decide (u.seg ≤ k)
    rw [← decide_not]
    exact decide_eq_decide.2 Nat.not_lt
  simp only [hsplit]

/-- The contexts in which an epoch may commit, each with the last one that may. -/
def committing (s : State) : List (Nat × Nat) := s.ctxs.filterMap fun c => (s.lastEpoch c).map fun e => (c.num, e)

theorem checkpointCommit_commits {s : State} (h : committing s ≠ []) : ∃ x ∈ committing s, exec .checkpointCommit s = .next (s.commitTo x.1 x.2) := by
  show ∃ x ∈ committing s, execCheckpointCommit s = _
  unfold execCheckpointCommit
  have hfold : (s.ctxs.filterMap fun c => (s.lastEpoch c).map fun e => (c.num, e)) = committing s := rfl
  rw [hfold]
  generalize committing s = xs at h
  match xs, h with
  | [x], _ => exact ⟨x, List.mem_singleton.2 rfl, rfl⟩
  | x :: y :: xs, _ =>
    refine ⟨(x :: y :: xs).getD (Config.pick s.tick % (x :: y :: xs).length) (0, 0), ?_, rfl⟩
    rw [List.getD_eq_getElem _ _ (Nat.mod_lt _ (by simp))]
    exact List.getElem_mem _

/-! ## The thermal step (R424) -/

/-- The step that follows, entry and exit temperatures written out. -/
theorem nextStep_eq {step : Nat} (h : step ≤ 3) (temp flow : Nat) : nextStep step temp flow =
    if flow < 12 then min 3 (step + 1)
    else if (step, true) ∈ [(0, decide (95 ≤ temp)), (1, decide (102 ≤ temp)), (2, decide (108 ≤ temp))] then step + 1
    else if (step, true) ∈ [(1, decide (temp < 90)), (2, decide (temp < 97)), (3, decide (temp < 103))] then step - 1
    else step := by
  unfold nextStep
  refine if_congr .rfl rfl ?_
  have hcases : step = 0 ∨ step = 1 ∨ step = 2 ∨ step = 3 := by omega
  rcases hcases with rfl | rfl | rfl | rfl
  all_goals
    refine if_congr ?_ rfl (if_congr ?_ rfl rfl)
    · simp [stepEnter, eq_comm]
    · simp [stepEnter, eq_comm]
      try omega

theorem get_raised (m : SMap Nat) (n c : Nat) : SMap.get 0 ((List.range n).foldl (fun m c => SMap.set 0 m c (SMap.get 0 m c + 1)) m) c =
    SMap.get 0 m c + if c < n then 1 else 0 := by
  induction n with
  | zero => rfl
  | succ n ih =>
    rw [List.range_succ, List.foldl_append, List.foldl_cons, List.foldl_nil, get_set]
    by_cases hc : c = n
    · subst hc
      rw [if_pos rfl, ih, if_neg (Nat.lt_irrefl c), if_pos (Nat.lt_succ_self c)]
    · rw [if_neg hc, ih]
      refine congrArg _ (if_congr ?_ rfl rfl)
      omega

/-- The manager's move: the fields that it may change, and what they hold afterwards. -/
theorem thermalMove_facts (s : State) : ∃ l, s.thermalMove = { s with
    contrail := l
    frozen := s.frozen || decide (115 ≤ s.heat.temp)
    thermal := if 115 ≤ s.heat.temp then s.thermal else nextStep s.thermal s.heat.temp s.heat.flow
    throttle := if s.heat.temp < 115 ∧ s.thermal < nextStep s.thermal s.heat.temp s.heat.flow then
      (List.range 128).foldl (fun m c => SMap.set 0 m c (SMap.get 0 m c + 1)) s.throttle else s.throttle } := by
  unfold State.thermalMove
  by_cases hhot : 115 ≤ s.heat.temp
  · obtain ⟨l, hl⟩ := freeze_eq s 1
    refine ⟨l, ?_⟩
    rw [if_pos hhot, if_pos hhot, hl, if_neg (by omega), decide_eq_true hhot, Bool.or_true]
  · rw [if_neg hhot, if_neg hhot, decide_eq_false hhot, Bool.or_false]
    dsimp only
    generalize nextStep s.thermal s.heat.temp s.heat.flow = step
    by_cases hsame : step = s.thermal
    · subst hsame
      rw [if_pos rfl, if_neg (by omega)]
      exact ⟨s.contrail, rfl⟩
    · rw [if_neg hsame]
      obtain ⟨l, hl⟩ := log_eq { s with thermal := step } 7 0 [s.thermal, step, s.heat.sensor]
      rw [hl]
      refine ⟨l, ?_⟩
      by_cases hup : s.thermal < step
      · rw [if_pos hup, if_pos ⟨by omega, hup⟩]
      · rw [if_neg hup, if_neg fun h => hup h.2]

theorem thermalStep_facts {s : State} (h : s.thermal ≤ 3) (temp flow k : Nat) : ∃ t, exec (.thermalStep ⟨temp, flow⟩ k) s = .next t ∧ t.heat = ⟨temp, flow, k⟩ ∧
    { t with heat := s.heat, thermal := s.thermal, throttle := s.throttle, frozen := s.frozen, contrail := s.contrail } = s ∧
    t.frozen = (s.frozen || decide (115 ≤ temp)) ∧
    t.thermal = (if 115 ≤ temp then s.thermal
      else if flow < 12 then min 3 (s.thermal + 1)
      else if (s.thermal, true) ∈ [(0, decide (95 ≤ temp)), (1, decide (102 ≤ temp)), (2, decide (108 ≤ temp))] then s.thermal + 1
      else if (s.thermal, true) ∈ [(1, decide (temp < 90)), (2, decide (temp < 97)), (3, decide (temp < 103))] then s.thermal - 1
      else s.thermal) ∧
    ∀ c, c < 128 → SMap.get 0 t.throttle c = SMap.get 0 s.throttle c + if s.thermal < t.thermal then 1 else 0 := by
  obtain ⟨l, hl⟩ := thermalMove_facts { s with heat := ⟨temp, flow, k⟩ }
  refine ⟨_, rfl, ?_⟩
  rw [hl, ← nextStep_eq h]
  refine ⟨rfl, rfl, rfl, rfl, fun c hc => ?_⟩
  dsimp only
  by_cases hhot : 115 ≤ temp
  · rw [if_pos hhot, if_neg (by omega), if_neg (Nat.lt_irrefl _)]
    rfl
  · rw [if_neg hhot]
    by_cases hup : s.thermal < nextStep s.thermal temp flow
    · rw [if_pos ⟨by omega, hup⟩, get_raised, if_pos hc, if_pos hup]
    · rw [if_neg fun h => hup h.2, if_neg hup]
      rfl

/-! ## The statement -/

theorem frozen_of_freeze (s : State) (n : Nat) : (s.freeze n).frozen = true ∧ { s.freeze n with frozen := s.frozen, contrail := s.contrail } = s := by
  obtain ⟨l, hl⟩ := freeze_eq s n
  rw [hl]
  exact ⟨rfl, rfl⟩

theorem attestation_answers (s : State) {n : List (BitVec 8)} (h : n.length = 64) : ∃ t, exec (.attestationRequest n) s = .next t ∧ t.mailbox.take 64 = n ∧
    t.mailbox = s.report n ++ edSign s.fuses.deviceKey (s.report n) ∧ { t with mailbox := s.mailbox } = s := by
  refine ⟨_, if_pos h, ?_, rfl, rfl⟩
  show ((n ++ _ ++ _ ++ _) ++ _ : List Byte).take 64 = n
  rw [List.append_assoc, List.append_assoc, List.append_assoc, ← h, List.take_left]

theorem step_recover {s : State} (h : s.choice = some .recover) : step s = afterwards (.next s.recover) := by
  unfold step
  rw [h]

/-- Settles O52. -/
theorem errorsAndStates : Obligations.ErrorsAndStates := by
  unfold Obligations.ErrorsAndStates
  intro s e
  refine ⟨fun hu => ⟨fun hsev hunit ha => detected_poisons hu hsev hunit ha, fun hsev => detected_freezes hu hsev,
    fun hsev hunit hn => detected_rollsBack hu hsev hunit hn, fun hsev hunit hp hd => detected_latent hu hsev hunit hp hd,
    fun hsev herr => detected_corrected hu hsev herr⟩, fun a b hab hb hn => bridgeFailure_rollsBack hab hb hn, fun us n => oldest_facts n us,
    step_recover, fun r rest hd hr => ⟨fun u us hl => recover_line hd hr hl, fun hl hc ha => recover_ended hd hr hl hc ha⟩, fun c n hc hn => ?_,
    ⟨_, rfl, frozen_of_freeze s 3⟩, fun c => ⟨_, rfl, frozen_of_freeze s _⟩, rfl, fun temp flow k h => thermalStep_facts h temp flow k,
    fun n h => attestation_answers s h⟩
  have hmem : (c.num, n) ∈ committing s := List.mem_filterMap.2 ⟨c, hc, by rw [hn]; rfl⟩
  obtain ⟨x, hx, hcommit⟩ := checkpointCommit_commits fun hnil => List.not_mem_nil (hnil ▸ hmem)
  obtain ⟨d, hd, hlast⟩ := List.mem_filterMap.1 hx
  obtain ⟨k, hk, rfl⟩ := Option.map_eq_some_iff.1 hlast
  exact ⟨_, d, k, hcommit, hd, hk, fun y hy => commitTo_facts s d k hy⟩

end Sys2Proof.Proofs.Faults
end

section
/-! SUPPORT. What keeps the stores canonical (log entry 1): writes of bytes, and the shared operations of memory, queues and blocks. -/

namespace Sys2Proof.Proofs.Canon

open Sys2Proof Sys2Proof.Machine Sys2Proof.Laws

/-! ## Stores -/

/-- The stores of a block. -/
def blockStores (b : Block) : List (List Host.Cell) := [b.sp, b.wb, b.ab, b.cb]

/-- The stores of blocks are canonical. -/
def StoresOk (bs : List Block) : Prop :=
  ∀ b ∈ bs, Memory.wf b.sp = true ∧ Memory.wf b.wb = true ∧ Memory.wf b.ab = true ∧ Memory.wf b.cb = true

theorem canonical_iff (s : State) : s.Canonical ↔ Memory.wf s.mem = true ∧ Memory.wf s.farMem = true ∧ StoresOk s.blocks := Iff.rfl

theorem ok_of_stores {b c : Block} (h : blockStores c = blockStores b)
    (hb : Memory.wf b.sp = true ∧ Memory.wf b.wb = true ∧ Memory.wf b.ab = true ∧ Memory.wf b.cb = true) :
    Memory.wf c.sp = true ∧ Memory.wf c.wb = true ∧ Memory.wf c.ab = true ∧ Memory.wf c.cb = true := by
  obtain ⟨h1, h2, h3, h4, -⟩ : c.sp = b.sp ∧ c.wb = b.wb ∧ c.ab = b.ab ∧ c.cb = b.cb ∧ True := by simpa [blockStores] using h
  rw [h1, h2, h3, h4]
  exact hb

theorem storesOk_map {bs : List Block} (h : StoresOk bs) {f : Block → Block} (hf : ∀ b, blockStores (f b) = blockStores b) : StoresOk (bs.map f) :=
  fun b hb => by
    obtain ⟨c, hc, rfl⟩ := List.mem_map.1 hb
    exact ok_of_stores (hf c) (h c hc)

theorem storesOk_filter {bs : List Block} (h : StoresOk bs) (p : Block → Bool) : StoresOk (bs.filter p) := fun b hb => h b (List.mem_of_mem_filter hb)

theorem storesOk_append {bs cs : List Block} (h : StoresOk bs) (k : StoresOk cs) : StoresOk (bs ++ cs) := fun b hb =>
  (List.mem_append.1 hb).elim (h b) (k b)

section
variable {s t : State}

theorem canonical_mem (h : s.Canonical) : Memory.wf s.mem = true := h.1

theorem canonical_blocks (h : s.Canonical) : StoresOk s.blocks := h.2.2

/-- The memories stand, and the blocks that stand now are canonical. -/
theorem canonical_with (h : s.Canonical) (hb : StoresOk t.blocks) (hm : t.mem = s.mem := by rfl) (hf : t.farMem = s.farMem := by rfl) : t.Canonical := by
  obtain ⟨h1, h2, -⟩ := h
  exact ⟨hm ▸ h1, hf ▸ h2, hb⟩

theorem canonical_map (h : s.Canonical) {f : Block → Block} (hf : ∀ b, blockStores (f b) = blockStores b) :
    State.Canonical { s with blocks := s.blocks.map f } := canonical_with h (storesOk_map (canonical_blocks h) hf)

theorem canonical_filter (h : s.Canonical) (p : Block → Bool) : State.Canonical { s with blocks := s.blocks.filter p } :=
  canonical_with h (storesOk_filter (canonical_blocks h) p)

theorem canonical_ite {c : Prop} [Decidable c] (hs : s.Canonical) (ht : t.Canonical) : (if c then s else t).Canonical := by
  split
  · exact hs
  · exact ht

theorem canonical_foldl {α : Type} {f : State → α → State} (h : s.Canonical) (hf : ∀ s x, s.Canonical → (f s x).Canonical) (l : List α) :
    (l.foldl f s).Canonical := by
  induction l generalizing s with
  | nil => exact h
  | cons x l ih => exact ih (hf s x h)

theorem canonical_same (h : s.Canonical) (hs : SameBytes s t) : t.Canonical := by
  obtain ⟨hb, hm, hf, -⟩ := hs
  exact canonical_with h (hb ▸ canonical_blocks h) hm hf

/-! ## Blocks and groups -/

theorem canonical_modBlock (h : s.Canonical) (n : Nat) {f : Block → Block} (hf : ∀ b, blockStores (f b) = blockStores b) : (s.modBlock n f).Canonical :=
  canonical_map h fun b => by
    split
    · exact hf b
    · rfl

theorem canonical_modGroup (h : s.Canonical) (gr : GRef) (f : Group → Group) : (s.modGroup gr f).Canonical := canonical_modBlock h gr.blk fun _ => rfl
theorem canonical_setGroup (h : s.Canonical) (gr : GRef) (g : Group) : (s.setGroup gr g).Canonical := canonical_modGroup h gr _
theorem canonical_modOp (h : s.Canonical) (blk tl num : Nat) (f : EngOp → EngOp) : (s.modOp blk tl num f).Canonical := canonical_modBlock h blk fun _ => rfl

theorem canonical_log (h : s.Canonical) (c x : Nat) (d : List Nat) : (s.log c x d).Canonical := canonical_same h (same_log s c x d)

theorem canonical_logFate (h : s.Canonical) (ctx cause lid lin grp at_ : Nat) : (s.logFate ctx cause lid lin grp at_).Canonical := canonical_log h 3 ctx _

theorem canonical_modGrid (h : s.Canonical) (n : Nat) (f : Grid → Grid) : (s.modGrid n f).Canonical := h

/-! ## Bytes -/

theorem wf_cells (h : s.Canonical) (st : Store) : Memory.wf (s.cells st) = true := by
  have hblock : ∀ n, (∀ b, s.block? n = some b → Memory.wf b.sp = true ∧ Memory.wf b.wb = true ∧ Memory.wf b.ab = true ∧ Memory.wf b.cb = true) := fun n b hb =>
    canonical_blocks h b (List.mem_of_find?_eq_some hb)
  unfold State.cells
  cases st with
  | pkg => exact h.1
  | far p => exact h.2.1
  | sp n | wb n | ab n | cb n =>
    dsimp only
    cases hb : s.block? n with
    | none => rfl
    | some b =>
      obtain ⟨h1, h2, h3, h4⟩ := hblock n b hb
      assumption

theorem canonical_setCells (h : s.Canonical) (st : Store) {m : List Host.Cell} (hm : Memory.wf m = true) : (s.setCells st m).Canonical := by
  obtain ⟨h1, h2, h3⟩ := h
  have hmod : ∀ (n : Nat) (f : Block → Block), (∀ b ∈ s.blocks, Memory.wf (f b).sp = true ∧ Memory.wf (f b).wb = true ∧ Memory.wf (f b).ab = true ∧
      Memory.wf (f b).cb = true) → (s.modBlock n f).Canonical := fun n f hf => ⟨h1, h2, fun b hb => by
    obtain ⟨c, hc, rfl⟩ := List.mem_map.1 hb
    split
    · exact hf c hc
    · exact h3 c hc⟩
  cases st with
  | pkg => exact ⟨hm, h2, h3⟩
  | far p => exact ⟨h1, hm, h3⟩
  | sp n | wb n | ab n | cb n =>
    refine hmod n _ fun b hb => ?_
    obtain ⟨k1, k2, k3, k4⟩ := h3 b hb
    refine ⟨?_, ?_, ?_, ?_⟩ <;> assumption

theorem canonical_setBytes (h : s.Canonical) (l : Loc) (vs : List Byte) : (s.setBytes l vs).Canonical :=
  canonical_setCells h l.store (wf_setMany (wf_cells h l.store) l.key vs)

/-! ## What an access notes -/

theorem canonical_undoLog (h : s.Canonical) (who : Who) (pa n : Nat) : (s.undoLog who pa n).Canonical := canonical_same h (same_undoLog s who pa n)
theorem canonical_pinRange (h : s.Canonical) (who : Who) (pa n : Nat) : (s.pinRange who pa n).Canonical := canonical_same h (same_pinRange s who pa n)

theorem canonical_request (h : s.Canonical) (l : Loc) (r : FarReq) : (s.request l r).Canonical := by
  unfold State.request
  split
  · exact h
  · exact h

theorem canonical_clearCovered (h : s.Canonical) (ps : List (Loc × Nat)) : (s.clearCovered ps).Canonical :=
  canonical_foldl h (fun _ _ hs => by exact canonical_ite hs hs) _

theorem canonical_perform (h : s.Canonical) (who : Who) (a : Acc) (vs : List Byte) : (s.perform who a vs).Canonical := by
  unfold State.perform
  dsimp only
  have hlog : (if a.ckpt then s.undoLog who a.loc.ofs vs.length else s).Canonical := canonical_ite (canonical_undoLog h who _ _) h
  have hset := canonical_setBytes hlog a.loc vs
  generalize (if a.ckpt then s.undoLog who a.loc.ofs vs.length else s).setBytes a.loc vs = u at hset
  have hclear : (if a.loc.store = .pkg then u.clearPoison a.loc.ofs vs.length else u).Canonical := canonical_ite hset hset
  generalize (if a.loc.store = .pkg then u.clearPoison a.loc.ofs vs.length else u) = u at hclear
  have hclaim : (if a.watch then u.claim who a.loc vs.length else u).Canonical := canonical_ite hclear hclear
  generalize (if a.watch then u.claim who a.loc vs.length else u) = u at hclaim
  have hpin : (if a.watch && a.loc.store == .pkg then u.pinRange who a.loc.ofs vs.length else u).Canonical :=
    canonical_ite (canonical_pinRange hclaim who _ _) hclaim
  exact hpin

theorem canonical_performStds (h : s.Canonical) (who : Who) (a : Loc) (watch ckpt : Bool) (x : Word) : (s.performStds who a watch ckpt x).Canonical := by
  unfold State.performStds
  dsimp only
  have hlog : (if ckpt then s.undoLog who a.ofs 256 else s).Canonical := canonical_ite (canonical_undoLog h who _ _) h
  have hdesc := canonical_foldl hlog (f := fun s j => s.setDesc (a.ofs + 64 * j) (sub x j .n16)) (fun _ _ hs => hs) (List.range 4)
  generalize (List.range 4).foldl (fun s j => s.setDesc (a.ofs + 64 * j) (sub x j .n16)) (if ckpt then s.undoLog who a.ofs 256 else s) = u at hdesc
  have hpin : (if watch then (u.claim who a 256).pinRange who a.ofs 256 else u).Canonical :=
    canonical_ite (canonical_pinRange (s := u.claim who a 256) hdesc who _ _) hdesc
  generalize (if watch then (u.claim who a 256).pinRange who a.ofs 256 else u) = u at hpin
  exact canonical_ite (t := u) (s := u.clearPoison a.ofs 256) hpin hpin

/-- An operation's write among later ones that keep their marks. -/
theorem canonical_performOp (h : s.Canonical) (b : Block) (o : EngOp) (who : Who) (a : Acc) (vs : List Byte) : (s.performOp b o who a vs).Canonical :=
  canonical_foldl (canonical_perform h who a vs) (fun _ _ hs => by exact hs) _

theorem canonical_performCopy (h : s.Canonical) (b : Block) (o : EngOp) (who : Who) (a : Acc) (vs : List Byte) : (s.performCopy b o who a vs).Canonical :=
  canonical_foldl (canonical_perform h who a vs) (fun _ _ hs => by exact hs) _

/-! ## The queues of groups -/

theorem canonical_performLane (h : s.Canonical) (gr : GRef) (b : Block) (g : Group) (m : MemOp) (l : Nat) : (s.performLane gr b g m l).Canonical := by
  unfold State.performLane
  dsimp only
  split
  · exact canonical_modGroup h gr _
  · exact canonical_modGroup h gr _
  · split
    · exact h
    · exact h
  · split
    · exact h
    · exact canonical_performStds h _ _ _ _ _
  · split
    · split
      · exact canonical_modGroup h gr _
      · exact canonical_modGroup h gr _
    · split
      · exact h
      · exact canonical_modGroup (canonical_perform h _ _ _) gr _

theorem canonical_performEach (h : s.Canonical) (gr : GRef) (id : Nat) (mask : Lanes) : (s.performEach gr id mask).Canonical := by
  refine canonical_foldl h (fun s l hs => ?_) _
  split
  · split
    · exact hs
    · exact canonical_ite (canonical_modGroup (canonical_performLane hs gr _ _ _ l) gr _) hs
  · exact hs

theorem canonical_performLanes (h : s.Canonical) (gr : GRef) (id : Nat) (mask : Lanes) : (s.performLanes gr id mask).Canonical := by
  have heach := canonical_performEach h gr id mask
  unfold State.performLanes
  dsimp only
  split
  · unfold State.rowPoison
    split
    · exact canonical_clearCovered heach _
    · exact heach
  · exact heach

theorem canonical_performAccepted (h : s.Canonical) (gr : GRef) : (s.performAccepted gr).Canonical := by
  unfold State.performAccepted
  split
  · exact h
  · exact canonical_foldl h (fun s m hs => canonical_performLanes hs gr m.id (-1)) _

theorem canonical_pinRelease (h : s.Canonical) (gr : GRef) : (s.pinRelease gr).Canonical := by
  unfold State.pinRelease
  split
  · exact h
  · exact canonical_modGroup (s := (s.performAccepted gr).unpin _) (canonical_performAccepted h gr) gr _

theorem canonical_ifPinned (h : s.Canonical) (ht : t.Canonical) (gr : GRef) : (s.ifPinned gr t).Canonical := canonical_ite (canonical_pinRelease h gr) ht

theorem canonical_performScope (h : s.Canonical) (b : Block) (sc : Scope) : (s.performScope b sc).Canonical :=
  canonical_foldl h (fun _ _ hs => canonical_foldl hs (fun _ _ hs => canonical_ite (canonical_performAccepted hs _) hs) _) _

theorem canonical_moveCpa (h : s.Canonical) (gr : GRef) (k : Nat) (now : Nat → Bool) : (s.moveCpa gr k now).Canonical := by
  unfold State.moveCpa
  split
  · split
    · exact h
    · dsimp only
      refine canonical_ite h ?_
      have hmoved : ∀ (us : List Nat) (f : State → Nat → State), (∀ s u, s.Canonical → (f s u).Canonical) → (us.foldl f s).Canonical := fun us f hf =>
        canonical_foldl h hf us
      refine canonical_ite (canonical_modGroup (hmoved _ _ fun s u hs => ?_) gr _) (canonical_modGroup (hmoved _ _ fun s u hs => ?_) gr _)
      all_goals
        split
        · exact canonical_perform hs _ _ _
        · exact hs
  · exact h

theorem canonical_claimStore (h : s.Canonical) (who : Who) (m : MemOp) : (s.claimStore who m).Canonical := by
  unfold State.claimStore
  split
  · exact h
  · refine canonical_ite (canonical_foldl h (fun s x hs => ?_) _) h
    dsimp only
    exact canonical_ite (canonical_ite (canonical_pinRange (s := s.claim _ _ _) hs who _ _) hs) hs

theorem canonical_requestAll (h : s.Canonical) (m : MemOp) : (s.requestAll m).Canonical := canonical_foldl h (fun _ _ hs => canonical_request hs _ _) _

theorem canonical_startCpa (h : s.Canonical) (gr : GRef) (b : Block) (g : Group) (m : MemOp) (tag : Nat) : (s.startCpa gr b g m tag).Canonical := by
  unfold State.startCpa
  dsimp only
  exact canonical_modGroup (canonical_foldl (s := { s with nextAgent := s.nextAgent + 1 }) h (fun _ _ hs => by exact hs) _) gr _

/-! ## Blocks that stop -/

theorem stores_foldl {α : Type} {f : Block → α → Block} (hf : ∀ b x, blockStores (f b x) = blockStores b) (l : List α) (b : Block) :
    blockStores (l.foldl f b) = blockStores b := by
  induction l generalizing b with
  | nil => rfl
  | cons x l ih => exact (ih _).trans (hf b x)

theorem stores_foldr {α : Type} {f : α → Block → Block} (hf : ∀ x b, blockStores (f x b) = blockStores b) (l : List α) (b : Block) :
    blockStores (l.foldr f b) = blockStores b := by
  induction l with
  | nil => rfl
  | cons x l ih => exact (hf x _).trans ih

theorem stores_ite {c : Prop} [Decidable c] {b x y : Block} (hx : blockStores x = blockStores b) (hy : blockStores y = blockStores b) :
    blockStores (if c then x else y) = blockStores b := by
  split
  · exact hx
  · exact hy

theorem stores_stopOp (b : Block) (o : EngOp) (t : Trap) : blockStores (b.stopOp o t) = blockStores b :=
  (stores_foldl (fun _ _ => by rfl) o.arrived _).trans rfl

theorem stores_dropSyncs (b : Block) (grp : Nat) : blockStores (b.dropSyncs grp) = blockStores b :=
  stores_foldr (fun _ _ => by exact stores_ite rfl rfl) _ _

theorem stores_deliver (b : Block) (t : Trap) : blockStores (b.deliver t) = blockStores b := stores_ite rfl rfl

theorem canonical_send (h : s.Canonical) (src dst : Nat) (m : MsgBody) : (s.send src dst m).Canonical := h

theorem canonical_abortBlock (h : s.Canonical) (id cause grp : Nat) (pc : Word) : (s.abortBlock id cause grp pc).Canonical := by
  unfold State.abortBlock
  split
  · exact h
  · next b _ =>
    split
    · have hstop := canonical_logFate (canonical_modBlock h id (f := Block.stop) fun _ => rfl) b.ctx cause 0 b.lin grp pc.toNat
      exact canonical_ite hstop (canonical_send hstop _ _ _)
    · have hstop : State.Canonical { s with blocks := s.blocks.map fun (x : Block) => if x.grid = b.grid then x.stop else x } :=
        canonical_map h fun x => stores_ite rfl rfl
      exact canonical_logFate (canonical_modGrid hstop b.grid _) _ _ _ _ _ _

/-- A block goes, and what other blocks owe it performs first. -/
theorem canonical_performOwed (h : s.Canonical) (id : Nat) : (s.performOwed id).Canonical := by
  unfold State.performOwed
  refine canonical_foldl (canonical_foldl h (fun s x hs => ?_) _) (fun s x hs => ?_) _
  · exact canonical_foldl hs (fun _ _ hs => canonical_ite (canonical_performLanes hs _ _ _) hs) _
  · exact canonical_foldl hs (fun _ _ hs => canonical_moveCpa hs _ _ _) _

theorem canonical_dropBlock (h : s.Canonical) (id : Nat) : (s.dropBlock id).Canonical := canonical_filter (canonical_performOwed h id) _

theorem canonical_dropBlocks (h : s.Canonical) (p : Block → Bool) : (s.dropBlocks p).Canonical :=
  canonical_foldl h (fun _ (b : Block) hs => canonical_dropBlock hs b.id) _

/-! ## Results that may be none -/

/-- What a computation gives satisfies Q, and what it fails with P. -/
def Gives {ε α : Type} (P : ε → Prop) (Q : α → Prop) : Except ε α → Prop
  | .error e => P e
  | .ok a => Q a

/-- A trap says nothing of the machine. -/
abbrev AnyTrap (_ : Trap) : Prop := True

theorem gives_bind {ε α β : Type} {P : ε → Prop} {Q : α → Prop} {R : β → Prop} {e : Except ε α} {f : α → Except ε β} (h : Gives P Q e)
    (hf : ∀ a, Q a → Gives P R (f a)) : Gives P R (e >>= f) := by
  cases e with
  | error e => exact h
  | ok a => exact hf a h

theorem gives_foldlM {ε α β : Type} {P : ε → Prop} {Q : α → Prop} {f : α → β → Except ε α} (hf : ∀ a x, Q a → Gives P Q (f a x)) (l : List β) {a : α}
    (h : Q a) : Gives P Q (l.foldlM f a) := by
  induction l generalizing a with
  | nil => exact h
  | cons x l ih =>
    rw [List.foldlM_cons]
    exact gives_bind (hf a x h) fun a ha => ih ha

/-- A computation that gives no machine. -/
theorem gives_any {α : Type} (e : Except Trap α) : Gives AnyTrap (fun _ => True) e := by
  cases e <;> trivial

theorem gives_ite {ε α : Type} {P : ε → Prop} {Q : α → Prop} {c : Prop} [Decidable c] {x y : Except ε α} (hx : Gives P Q x) (hy : Gives P Q y) :
    Gives P Q (if c then x else y) := by
  split
  · exact hx
  · exact hy

/-! ## The group's own stores, windows and stack -/

theorem gives_storeRange (h : s.Canonical) (gr : GRef) (a : Word) (vs : List Byte) (rep : Word) : Gives AnyTrap State.Canonical (s.storeRange gr a vs rep) := by
  unfold State.storeRange
  split
  · refine gives_bind (gives_any _) fun accs _ => ?_
    exact canonical_foldl h (fun _ _ hs => canonical_perform (canonical_request hs _ _) _ _ _) _
  · exact h

theorem canonical_askRange (h : s.Canonical) (gr : GRef) (a : Word) (n : Nat) : (s.askRange gr a n).Canonical := by
  unfold State.askRange
  split
  · refine canonical_foldl h (fun s x hs => ?_) _
    split
    · exact canonical_request hs _ _
    · exact hs
  · exact h

theorem gives_slide (h : s.Canonical) (gr : GRef) (slotB : Bool) (n : Nat) : Gives AnyTrap State.Canonical (s.slide gr slotB n) := by
  unfold State.slide
  split
  · exact h
  · dsimp only
    refine gives_ite trivial (gives_bind (gives_foldlM (fun s i hs => ?_) _ h) fun s hs => canonical_modGroup hs gr _)
    unfold State.spillUnit
    split
    · exact hs
    · exact gives_ite trivial (gives_storeRange hs gr _ _ _)

theorem gives_fitWindows (h : s.Canonical) (gr : GRef) : Gives AnyTrap State.Canonical (s.fitWindows gr) := by
  unfold State.fitWindows
  split
  · exact h
  · dsimp only
    refine gives_ite h (gives_ite trivial (gives_bind (gives_foldlM (fun s i hs => ?_) _ h) fun s hs => canonical_modGroup hs gr _))
    unfold State.refillUnit
    split
    · exact hs
    · split
      · trivial
      · exact canonical_modGroup (canonical_askRange hs gr _ _) gr _

theorem gives_push (h : s.Canonical) (gr : GRef) (mask : Lanes) (pc : Word) (tok wb : Nat) : Gives AnyTrap State.Canonical (s.push gr mask pc tok wb) := by
  unfold State.push
  split
  · exact h
  · exact gives_ite trivial (gives_bind (gives_storeRange h gr _ _ _) fun s hs => canonical_modGroup hs gr _)

theorem gives_pop (h : s.Canonical) (gr : GRef) (slotB : Bool) : Gives AnyTrap State.Canonical (s.pop gr slotB) := by
  unfold State.pop
  split
  · exact h
  · next g _ =>
    have hpopped : ∀ (c : Bool) (a : Word) (f : Group → Group), ((if c then s.askRange gr a 16 else s).modGroup gr f).Canonical := fun c a f =>
      canonical_modGroup (canonical_ite (canonical_askRange h gr a 16) h) gr f
    cases g.stackCopy with
    | nil =>
      refine gives_bind (gives_any (s.loadRange gr g.dstkp 16 g.dstkp)) fun bs _ => ?_
      exact hpopped true g.dstkp _
    | cons e es => exact hpopped false g.dstkp _

theorem gives_place (h : s.Canonical) (gr : GRef) (mask : Lanes) (pc : Word) (wb tok : Nat) : Gives AnyTrap State.Canonical (s.place gr mask pc wb tok) := by
  unfold State.place
  split
  · exact h
  · exact gives_ite (gives_fitWindows (canonical_modGroup h gr _) gr) (gives_ite (gives_fitWindows (canonical_modGroup h gr _) gr) (gives_push h gr _ _ _ _))

theorem gives_complete (h : s.Canonical) (gr : GRef) (k : Nat) : Gives AnyTrap State.Canonical (s.complete gr k) := by
  unfold State.complete
  split
  · exact h
  · exact gives_ite (canonical_modGroup h gr _) (gives_place (canonical_modGroup h gr _) gr _ _ _ _)

theorem gives_refill (h : s.Canonical) (gr : GRef) (n : Nat) : Gives AnyTrap State.Canonical (s.refill gr n) := by
  induction n generalizing s with
  | zero => exact h
  | succ n ih =>
    unfold State.refill
    split
    · exact h
    · have hpop : ∀ sb, Gives AnyTrap State.Canonical (do let s ← s.pop gr sb; let s ← s.fitWindows gr; s.refill gr n) := fun sb =>
        gives_bind (gives_pop h gr sb) fun s hs => gives_bind (gives_fitWindows hs gr) fun s hs => ih hs
      exact gives_ite h (gives_ite (hpop false) (gives_ite (hpop true) h))

theorem gives_settle (h : s.Canonical) (gr : GRef) (n : Nat) : Gives AnyTrap State.Canonical (s.settle gr n) := by
  induction n generalizing s with
  | zero => exact h
  | succ n ih =>
    unfold State.settle
    refine gives_bind (gives_refill h gr _) fun s hs => ?_
    split
    · exact hs
    · refine gives_ite ?_ hs
      split
      · exact hs
      · exact gives_bind (gives_complete (canonical_modGroup hs gr _) gr _) fun s hs => ih hs

end

end Sys2Proof.Proofs.Canon
end

section
/-! SUPPORT. What keeps the stores canonical (log entry 1): traps, what an instruction answers, and the instructions that issue. -/

namespace Sys2Proof.Proofs.Canon

open Sys2Proof Sys2Proof.Machine Sys2Proof.Laws

section
variable {s t : State}

/-! ## Traps and what a group still owes -/

theorem gives_map {ε α β : Type} {P : ε → Prop} {Q : α → Prop} {R : β → Prop} {e : Except ε α} {f : α → β} (h : Gives P Q e) (hf : ∀ a, Q a → R (f a)) :
    Gives P R (e.map f) := by
  cases e with
  | error e => exact h
  | ok a => exact hf a h

theorem gives_ok {ε α : Type} {P : ε → Prop} {Q : α → Prop} {e : Except ε α} {a : α} (h : Gives P Q e) (he : e = .ok a) : Q a := by
  rw [he] at h
  exact h

/-- A machine, where there is one, is canonical. -/
def CanonicalOption : Option State → Prop
  | some s => s.Canonical
  | none => True

theorem gives_gathElem (h : s.Canonical) (gr : GRef) (b : Block) (g : Group) (m : MemOp) (e : Nat) : Gives AnyTrap CanonicalOption (s.gathElem gr b g m e) := by
  unfold State.gathElem
  dsimp only
  split
  · split
    · trivial
    · refine gives_ite trivial (canonical_modGroup ?_ gr _)
      split
      · exact canonical_modGroup (canonical_request h _ _) gr _
      · exact canonical_request h _ _
  · split
    · split
      · show State.Canonical _
        split
        · exact canonical_modGroup h gr _
        · exact h
      · refine gives_ite trivial ?_
        show State.Canonical _
        split
        · exact canonical_modGroup h gr _
        · exact h
    · exact h

theorem canonical_gathRun (h : s.Canonical) (gr : GRef) (id n : Nat) : (s.gathRun gr id n).1.Canonical := by
  induction n generalizing s with
  | zero => exact h
  | succ n ih =>
    unfold State.gathRun
    split
    · next b g _ _ =>
      split
      · exact h
      · next m _ =>
        dsimp only
        split
        · exact canonical_modGroup h gr _
        · have helem := gives_gathElem h gr b g m m.pix
          split
          · exact canonical_modGroup h gr _
          · exact h
          · next u hu =>
            rw [hu] at helem
            exact ih (canonical_modGroup helem gr _)
    · exact h

theorem canonical_acceptNext (h : s.Canonical) (gr : GRef) (n : Nat) : (s.acceptNext gr n).1.Canonical := by
  unfold State.acceptNext
  split
  · split
    · exact h
    · split
      · exact canonical_gathRun h gr _ n
      · dsimp only
        split
        · exact canonical_performAccepted h gr
        · exact canonical_startCpa (canonical_performAccepted h gr) gr _ _ _ _
      · split
        · exact h
        · next m' _ =>
          split
          · exact h
          · dsimp only
            have hroom : ∀ (c : Bool), (if c then s else s.pinRelease gr).Canonical := fun c => canonical_ite h (canonical_pinRelease h gr)
            generalize hu : (if s.pinRoom (s.newPins _ m') then s else s.pinRelease gr) = u
            have hu : u.Canonical := hu ▸ hroom _
            split
            · have hclaim := fun (who : Who) (x : MemOp) (f : Group → Group) => canonical_modGroup (canonical_claimStore hu who x) gr f
              exact canonical_ite (canonical_performAccepted (canonical_requestAll (hclaim _ _ _) _) gr) (hclaim _ _ _)
            · exact hu
  · exact h

theorem canonical_acceptAll (h : s.Canonical) (gr : GRef) (n : Nat) : (s.acceptAll gr n).1.Canonical := by
  induction n generalizing s with
  | zero => exact h
  | succ n ih =>
    have hnext := canonical_acceptNext h gr 257
    unfold State.acceptAll
    split
    · next u x hu =>
      rw [hu] at hnext
      exact hnext
    · next u hu =>
      rw [hu] at hnext
      split
      · split
        · exact hnext
        · exact ih hnext
      · exact hnext

theorem canonical_setCore (h : s.Canonical) (n : Nat) (c : Option (GRef × Bool)) : (s.setCore n c).Canonical := h

theorem canonical_takeTrap (h : s.Canonical) (gr : GRef) (slotB : Bool) (tpc : Word) (x : Trap) (kept : Kept) (q : List QEnt) :
    (s.takeTrap gr slotB tpc x kept q).Canonical := by
  unfold State.takeTrap
  split
  · next b g _ _ =>
    dsimp only
    split
    · exact canonical_abortBlock h _ _ _ _
    · next sb _ =>
      have hdropped : ((s.performAccepted gr).modBlock gr.blk fun b => (b.dropSyncs gr.grp).deliver x).Canonical :=
        canonical_modBlock (canonical_performAccepted h gr) gr.blk fun b => (stores_deliver _ x).trans (stores_dropSyncs b gr.grp)
      generalize (s.performAccepted gr).modBlock gr.blk (fun b => (b.dropSyncs gr.grp).deliver x) = u at hdropped ⊢
      have habort := canonical_abortBlock hdropped b.id x.cause.code gr.grp tpc
      -- the context's handler, or none
      split
      all_goals
        split
        · exact canonical_abortBlock h _ _ _ _
        · split
          · exact habort
          · next s1 hs1 =>
            have hstored := gives_ok (gives_storeRange (canonical_setGroup hdropped gr _) gr _ _ _) hs1
            split
            · exact habort
            · next s2 hs2 =>
              have hslid := gives_ok (gives_slide (canonical_modGroup hstored gr _) gr sb 16) hs2
              have hentered := fun f => canonical_modGroup hslid gr f
              split
              · exact canonical_ite (canonical_setCore (hentered _) _ _) (hentered _)
              · exact hentered _
  · exact h

theorem canonical_memoryTrap (h : s.Canonical) (gr : GRef) (id : Nat) (x : Trap) : (s.memoryTrap gr id x).Canonical := by
  unfold State.memoryTrap
  split
  · exact h
  · split
    · exact h
    · exact canonical_takeTrap (canonical_modGroup h gr _) gr _ _ _ _ _

theorem canonical_raise (h : s.Canonical) (gr : GRef) (slotB past : Bool) (tpc : Word) (x : Trap) (q : List MemOp) :
    (s.raise gr slotB past tpc x q).Canonical := by
  have hall := canonical_acceptAll h gr 9
  unfold State.raise
  split
  · next u y hu =>
    rw [hu] at hall
    exact canonical_ifPinned hall (canonical_memoryTrap hall gr _ _) gr
  · next u hu =>
    rw [hu] at hall
    split
    · exact hall
    · exact canonical_ifPinned hall (canonical_takeTrap (canonical_ite (canonical_modGroup hall gr _) hall) gr _ _ _ _ _) gr

/-! ## Answers of instructions -/

/-- What an instruction answers with is canonical. -/
def ResOk : Res → Prop
  | .done s _ | .jump s _ | .left s | .stay s _ | .trapIn s _ | .whole s => s.Canonical
  | .trap _ | .trapPast _ | .trapOwn _ _ => True

/-- The machine that an instruction finds is canonical, and so is the issuer's block. -/
structure IssOk (i : Iss) : Prop where
  state : i.s.Canonical
  block : Memory.wf i.b.sp = true ∧ Memory.wf i.b.wb = true ∧ Memory.wf i.b.ab = true ∧ Memory.wf i.b.cb = true

/-- An outcome's machine is canonical. -/
def Keeps : Host.Outcome State Fault Refusal → Prop
  | .next s => s.Canonical
  | .fault _ | .refused _ => True

theorem canonical_switchPoint (h : s.Canonical) (gr : GRef) : (s.switchPoint gr).Canonical := canonical_modGroup (canonical_setCore h _ _) gr _

theorem canonical_conclude {i : Iss} (hi : i.s.Canonical) {r : Res} (h : ResOk r) : (i.conclude r).Canonical := by
  unfold Iss.conclude
  cases r with
  | done s sw | jump s sw =>
    have hended := fun f => canonical_modGroup (show s.Canonical from h) i.gr f
    exact canonical_ite (canonical_switchPoint (hended _) _) (hended _)
  | left s =>
    have hleft := fun f => canonical_modGroup (show s.Canonical from h) i.gr f
    exact hleft _
  | stay s sw =>
    have hstays := fun f => canonical_modGroup (show s.Canonical from h) i.gr f
    exact canonical_ite (canonical_switchPoint (hstays _) _) (hstays _)
  | whole s => exact h
  | trapIn s t => exact canonical_raise (show s.Canonical from h) _ _ _ _ _ _
  | trap t | trapPast t => exact canonical_raise hi _ _ _ _ _ _
  | trapOwn t m => exact canonical_raise (canonical_modGroup hi i.gr _) _ _ _ _ _ _

theorem keeps_run (h : s.Canonical) {f : Iss → Res} (hf : ∀ i, IssOk i → ResOk (f i)) : Keeps (s.run f) := by
  unfold State.run
  split
  · trivial
  · next i hi =>
    obtain ⟨hs, hb, -⟩ := issue_facts hi
    have hblock := canonical_blocks h i.b (List.mem_of_find?_eq_some hb)
    exact canonical_conclude (hs.symm ▸ h) (hf i ⟨hs.symm ▸ h, hblock⟩)

end

section
variable {i : Iss} {s : State} {r : Res}

theorem ok_group (h : IssOk i) (g : Group) : ResOk (i.group g) := canonical_setGroup h.state i.gr g
theorem ok_stall (h : IssOk i) : ResOk i.stall := h.state
theorem ok_wait (h : s.Canonical) (w : Wait) : ResOk (i.wait w s) := canonical_modGroup h i.gr _
theorem ok_pinStall (h : IssOk i) : ResOk i.pinStall := canonical_pinRelease h.state i.gr
theorem ok_jump (h : s.Canonical) (pc : Word) (sw : Bool) : ResOk (i.jump s pc sw) := canonical_modGroup h i.gr _

theorem ok_ite {c : Prop} [Decidable c] {x y : Res} (hx : ResOk x) (hy : ResOk y) : ResOk (if c then x else y) := by
  split
  · exact hx
  · exact hy

theorem ok_orTrap {e : Except Trap Unit} {f : Unit → Res} (h : ResOk (f ())) : ResOk (orTrap e f) := by
  cases e with
  | error t => trivial
  | ok u => exact h

theorem ok_resOf {e : Except Trap Res} (h : Gives AnyTrap ResOk e) : ResOk (resOf e) := by
  cases e with
  | error t => trivial
  | ok r => exact h

theorem ok_ordered (h : IssOk i) (hr : ResOk r) (u : State) : ResOk (i.ordered u r) := ok_ite hr (ok_ite (ok_stall h) (ok_ite (ok_pinStall h) hr))

theorem ok_branch (h : s.Canonical) (c : Bool) (o : BitVec 12) : ResOk (i.branch s c o) := ok_ite (ok_jump h _ _) h

/-! ## Scalar, predicate and vector instructions -/

theorem ok_putD (h : IssOk i) (d : Dst) (x : Word) : ResOk (i.putD d x) := ok_ite (ok_stall h) (ok_group h _)
theorem ok_putPlain (h : IssOk i) (d : BitVec 6) (x : Word) : ResOk (i.putPlain d x) := ok_ite (ok_stall h) (ok_group h _)
theorem ok_putP (h : IssOk i) (d : BitVec 5) (x : Lanes) : ResOk (i.putP d x) := ok_group h _
theorem ok_scalar (h : IssOk i) (d : Dst) (srcs : List Src) (x : Word) : ResOk (i.scalar d srcs x) := ok_orTrap (ok_ite (ok_stall h) (ok_group h _))
theorem ok_sca1 (h : IssOk i) (d : Dst) (a : Src) (f : Word → Word) : ResOk (i.sca1 d a f) := ok_scalar h _ _ _
theorem ok_sca2 (h : IssOk i) (d : Dst) (a b : Src) (f : Word → Word → Word) : ResOk (i.sca2 d a b f) := ok_scalar h _ _ _

/-- The block that the read of a drain row leaves has the stores of before. -/
theorem stores_readRow {rs : List Word} {b : Block} (h : i.readRow = .row rs b) : blockStores b = blockStores i.b := by
  unfold Iss.readRow at h
  split at h
  · cases h
  · split at h
    · cases h
      rfl
    · cases h

theorem ok_vector (h : IssOk i) (ok : ElemType → Bool) (srcs : List Src) (vd sd : List Nat) (f : Iss → (Nat → Word) → Group) :
    ResOk (i.vector ok srcs vd sd f) := by
  unfold Iss.vector
  refine ok_orTrap (ok_ite (ok_stall h) ?_)
  split
  · split
    · trivial
    · exact ok_stall h
    · next rs b hrow =>
      have hb := ok_of_stores (stores_readRow hrow) h.block
      have hs : (i.s.modBlock i.gr.blk fun _ => b).Canonical := canonical_with h.state fun c hc => by
        obtain ⟨x, hx, rfl⟩ := List.mem_map.1 hc
        dsimp only
        split
        · exact hb
        · exact canonical_blocks h.state x hx
      exact canonical_setGroup hs i.gr _
  · exact ok_group h _

theorem ok_elementwise (h : IssOk i) (ok : ElemType → Bool) (d : Dst) (a : Src) (b : SrcB) (f : Nat → Nat → Nat → Nat × Flags) :
    ResOk (i.elementwise ok d a b f) := ok_vector h _ _ _ _ _
theorem ok_unary (h : IssOk i) (ok : ElemType → Bool) (d : Dst) (a : Src) (f : Nat → Nat → Nat × Flags) : ResOk (i.unary ok d a f) :=
  ok_elementwise h _ _ _ _ _
theorem ok_bitwise (h : IssOk i) (ok : ElemType → Bool) (d : Dst) (a : Src) (b : SrcB) (f : Word → Word → Word) : ResOk (i.bitwise ok d a b f) :=
  ok_vector h _ _ _ _ _
theorem ok_function (h : IssOk i) (f : Fn) (ok : ElemType → Bool) (d : Dst) (a : Src) : ResOk (i.function f ok d a) := ok_unary h _ _ _ _

theorem ok_imm10 (v : BitVec 10) {f : Nat → Res} (hf : ∀ n, ResOk (f n)) : ResOk (i.imm10 v f) := by
  unfold Iss.imm10
  refine ok_ite trivial ?_
  split
  · trivial
  · exact hf _

theorem ok_withUniform (h : IssOk i) (u : ElemType) (a b : Src) (vd sd : List Nat) (f : Iss → (Nat → Word) → Group) :
    ResOk (i.withUniform u a b vd sd f) := ok_ite trivial (ok_ite trivial (ok_orTrap (ok_vector h _ _ _ _ _)))

theorem ok_convert (h : IssOk i) {c1 c2 c3 : Prop} [Decidable c1] [Decidable c2] [Decidable c3] {t1 t2 t3 : Trap} (ok : ElemType → Bool) (srcs : List Src)
    (vd sd : List Nat) (f : Iss → (Nat → Word) → Group) :
    ResOk (if c1 then .trap t1 else if c2 then .trap t2 else if c3 then .trap t3 else i.vector ok srcs vd sd f) :=
  ok_ite trivial (ok_ite trivial (ok_ite trivial (ok_vector h _ _ _ _ _)))

/-! ## Accesses -/

theorem canonical_touchOutside (h : s.Canonical) (blk : Nat) : (s.touchOutside blk).Canonical := canonical_modBlock h blk fun _ => rfl

theorem ok_queue (h : IssOk i) (m : MemOp) : ResOk (i.queue m) := by
  have hqueued := fun f => canonical_modGroup h.state i.gr f
  exact ok_ite (ok_stall h) (ok_ite (ok_stall h) (ok_ite (ok_stall h) (canonical_ite (canonical_touchOutside (hqueued _) _) (hqueued _))))

theorem ok_laneAccess (h : IssOk i) (instr : Instr) (a b : Src) (v : List Word) : ResOk (i.laneAccess instr a b v) := ok_orTrap (ok_queue h _)
theorem ok_scalarAccess (h : IssOk i) (instr : Instr) (a b : Src) (v : List Word) : ResOk (i.scalarAccess instr a b v) := ok_orTrap (ok_queue h _)
theorem ok_rowAccess (h : IssOk i) (instr : Instr) (a b : Src) (v : List Word) : ResOk (i.rowAccess instr a b v) := ok_orTrap (ok_queue h _)
theorem ok_unlessHelpers (h : IssOk i) {f : Unit → Res} (hf : ResOk (f ())) : ResOk (i.unlessHelpers f) := ok_ite h.state hf
theorem ok_sample (h : IssOk i) (instr : Instr) (d : Dst) (a b : Src) : ResOk (i.sample instr d a b) := ok_ite trivial (ok_orTrap (ok_queue h _))

theorem canonical_atomLane (h : s.Canonical) (gr : GRef) (b : Block) (g : Group) (m : MemOp) (l : Nat) (a : Acc) : (s.atomLane gr b g m l a).Canonical := by
  unfold State.atomLane
  dsimp only
  split
  · exact canonical_perform h _ _ _
  · exact canonical_modGroup (canonical_perform (canonical_request h _ _) _ _ _) gr _

theorem gives_atomAll (h : s.Canonical) (gr : GRef) (b : Block) (g : Group) (m : MemOp) : Gives AnyTrap State.Canonical (s.atomAll gr b g m) := by
  unfold State.atomAll
  refine gives_bind (gives_any _) fun accs _ => ?_
  have hlanes := canonical_foldl h (f := fun s (x : Nat × Acc) => s.atomLane gr b g m x.1 x.2) (fun _ _ hs => canonical_atomLane hs gr b g m _ _) accs
  have hhelp := fun (f : Nat → Group → Group) => canonical_foldl hlanes (f := fun s l => s.modGroup gr (f l)) (fun _ _ hs => canonical_modGroup hs gr _) (lanesOf m.help)
  exact canonical_ite (hhelp fun l g => match atomDest m.instr with | .reg d => g.wrV m.wb d.toNat l 0 | .none => g) (canonical_modGroup (hhelp _) gr _)

theorem ok_atomic (h : IssOk i) (m : MemOp) : ResOk (i.atomic m) := by
  unfold Iss.atomic
  refine ok_ite (ok_stall h) ?_
  have hall := gives_atomAll h.state i.gr i.b i.g m
  split
  · trivial
  · next u hu =>
    rw [hu] at hall
    refine ok_ite (ok_pinStall h) ?_
    have houter : (if isOutside m.instr then u.touchOutside i.gr.blk else u).Canonical := canonical_ite (canonical_touchOutside hall _) hall
    dsimp only
    generalize (if isOutside m.instr then u.touchOutside i.gr.blk else u) = v at houter ⊢
    show State.Canonical _
    split
    · exact houter
    · exact houter
    · exact houter

theorem ok_atomicOp (h : IssOk i) (instr : Instr) (ok : ElemType → Bool) (v : List Word) (a b : Src) : ResOk (i.atomicOp instr ok v a b) := by
  unfold Iss.atomicOp
  refine ok_ite trivial (ok_ite trivial ?_)
  have hatomic := ok_atomic h (i.mem instr i.counted i.helpers (perLane (i.laneWord a)) (perLane (i.vec i.ty (fun _ => 0) b) ++ v))
  split
  · next u sw hu =>
    rw [hu] at hatomic
    exact canonical_modGroup hatomic i.gr _
  · exact hatomic

end

end Sys2Proof.Proofs.Canon
end

section
/-! SUPPORT. What keeps the stores canonical (log entry 1): control flow, barriers, engines, launches and handles as they issue. -/

namespace Sys2Proof.Proofs.Canon

open Sys2Proof Sys2Proof.Machine Sys2Proof.Laws

section
variable {i : Iss} {s : State}

/-! ## Branches, calls and exits (R155-R163) -/

theorem keeps_brp (h : s.Canonical) (c : BitVec 5) (n : Bool) (t : BitVec 4) (o : BitVec 12) : Keeps (execBrp c n t o s) := by
  refine keeps_run h fun i hi => ?_
  have htok := fun f => canonical_modGroup hi.state i.gr f
  refine ok_ite (htok _) (ok_ite (ok_jump (htok _) _ _) (ok_resOf (gives_map (gives_place (canonical_modGroup (htok _) i.gr _) i.gr _ _ _ _) fun u hu => ?_)))
  exact ok_ordered hi (r := .done u false) hu u

theorem gives_leave (h : s.Canonical) (i : Iss) (t : Nat) : Gives AnyTrap State.Canonical (i.leave s t) := by
  have hvacate : (i.vacate s).Canonical := canonical_modGroup h i.gr _
  unfold Iss.leave
  dsimp only
  split
  · next g _ =>
    by_cases hc : g.covered t = true
    · rw [if_pos hc]
      exact gives_bind (gives_complete hvacate i.gr t) fun u hu => gives_settle hu i.gr _
    · rw [if_neg hc]
      exact gives_settle hvacate i.gr _
  · exact gives_settle hvacate i.gr _

theorem ok_leave (hi : IssOk i) (h : s.Canonical) (t : Nat) : ResOk (resOf ((i.leave s t).map fun s => i.ordered s (.left s))) :=
  ok_resOf (gives_map (gives_leave h i t) fun u hu => ok_ordered hi (r := .left u) hu u)

theorem keeps_brk (h : s.Canonical) (c : BitVec 5) (n : Bool) (t : BitVec 4) (o : BitVec 12) : Keeps (execBrk c n t o s) := by
  refine keeps_run h fun i hi => ?_
  have htok := fun f => canonical_modGroup hi.state i.gr f
  exact ok_ite (canonical_modGroup (htok _) i.gr _) (ok_leave hi (htok _) _)

theorem keeps_join (h : s.Canonical) (t : BitVec 4) : Keeps (execJoin t s) := by
  refine keeps_run h fun i hi => ?_
  have hreset := fun f => canonical_modGroup hi.state i.gr f
  exact ok_ite (hreset _) (ok_leave hi (canonical_modGroup (hreset _) i.gr _) _)

theorem ok_callTo (hi : IssOk i) (k : BitVec 4) (pc : Word) : ResOk (i.callTo k pc) := by
  unfold Iss.callTo
  refine ok_ite (ok_stall hi) ?_
  dsimp only
  split
  · trivial
  · next u hu =>
    have hslid := gives_ok (gives_slide hi.state i.gr i.slotB _) hu
    split
    · trivial
    · exact ok_ordered hi (ok_jump (canonical_modGroup hslid i.gr _) pc true) _

theorem keeps_ret (h : s.Canonical) (k : BitVec 4) : Keeps (execRet k s) := by
  refine keeps_run h fun i hi => ok_ite (ok_stall hi) (ok_ite trivial ?_)
  dsimp only
  split
  · trivial
  · next u hu =>
    have hfit := gives_ok (gives_fitWindows (canonical_modGroup hi.state i.gr _) i.gr) hu
    split
    · trivial
    · exact ok_ordered hi (ok_jump hfit _ true) _

theorem keeps_jmpi (h : s.Canonical) (a : Src) : Keeps (execJmpi a s) := by
  refine keeps_run h fun i hi => ok_orTrap ?_
  split
  · trivial
  · exact ok_jump hi.state _ _

theorem gives_completeCovered (h : s.Canonical) (gr : GRef) : Gives AnyTrap State.Canonical (s.completeCovered gr) := by
  refine gives_foldlM (fun u t hu => ?_) _ h
  split
  · exact gives_ite (gives_complete hu gr t) hu
  · exact hu

theorem stores_gangLost (b : Block) (grp : Nat) : blockStores (b.gangLost grp) = blockStores b := stores_foldl (fun _ _ => stores_stopOp _ _ _) _ _

theorem keeps_exit (h : s.Canonical) : Keeps (execExit s) := by
  refine keeps_run h fun i hi => ?_
  dsimp only
  have h0 : (if i.lastExit then i.s.modBlock i.gr.blk fun b => b.discardDrains i.gr.grp else i.s).Canonical :=
    canonical_ite (canonical_modBlock hi.state i.gr.blk fun _ => rfl) hi.state
  generalize (if i.lastExit then i.s.modBlock i.gr.blk fun b => b.discardDrains i.gr.grp else i.s) = s0 at h0 ⊢
  split
  · exact ok_stall hi
  · refine ok_ite (ok_wait h0 _) ?_
    have h1 := canonical_modBlock h0 i.gr.blk (f := fun b => b.acquire i.gr.grp (exitOwes i.gr.grp i.lastExit)) fun _ => rfl
    split
    · exact h1
    · split
      · trivial
      · next u hu =>
        have h3 : u.Canonical := gives_ok (P := AnyTrap) (gives_bind (gives_completeCovered (canonical_modGroup (canonical_modGroup h1 i.gr _) i.gr _) i.gr)
          fun v hv => gives_settle hv i.gr settleFuel) hu
        exact ok_ordered hi (r := .jump _ true) (canonical_ite (canonical_modBlock h3 i.gr.blk fun b => stores_gangLost b i.gr.grp) h3) u

/-! ## Barriers, timelines and gangs (R164-R175) -/

theorem stores_arrive (b : Block) (n grp c : Nat) : blockStores (b.arrive n grp c) = blockStores b := by
  unfold Block.arrive
  dsimp only
  split
  · rfl
  · split
    · rfl
    · unfold Block.checkBar
      dsimp only
      split
      · rfl
      · rfl

theorem ok_awaitBar (hi : IssOk i) (h : s.Canonical) (n ph : Nat) (w : Wait) : ResOk (i.awaitBar s n ph w) := by
  unfold Iss.awaitBar
  split
  · exact ok_stall hi
  · exact ok_ite (canonical_modBlock h i.gr.blk fun b => stores_ite rfl rfl) (ok_wait h w)

theorem keeps_bar (h : s.Canonical) (a : Src) (n : BitVec 4) : Keeps (execBar a n s) := by
  refine keeps_run h fun i hi => ok_orTrap ?_
  dsimp only
  split
  · exact ok_awaitBar hi hi.state _ _ _
  · refine ok_ite (ok_awaitBar hi hi.state _ _ _) (ok_ite (ok_stall hi) ?_)
    split
    · trivial
    · exact ok_awaitBar hi (canonical_modBlock hi.state i.gr.blk fun b => stores_arrive b _ _ _) _ _ _

theorem canonical_arriveSpan (h : s.Canonical) (gr : GRef) (b : Block) (g : Group) : (s.arriveSpan gr b g).Canonical := by
  unfold State.arriveSpan
  split
  · exact h
  · split
    · exact h
    · dsimp only
      have harrived := fun (f : Span → Span) (f' : Group → Group) => canonical_modGroup (s := s.modSpan b.span f) h gr f'
      unfold State.checkSpan
      split
      · exact harrived _ _
      · exact canonical_ite (harrived _ _) (harrived _ _)

theorem ok_awaitSpan (h : s.Canonical) (ph : Nat) : ResOk (i.awaitSpan s ph) := by
  unfold Iss.awaitSpan
  split
  · exact h
  · exact ok_ite (canonical_modGroup h i.gr _) (ok_wait h _)

theorem keeps_sbar (h : s.Canonical) : Keeps (execSbar s) := by
  refine keeps_run h fun i hi => ?_
  split
  · exact ok_awaitSpan hi.state _
  · refine ok_ite (ok_awaitSpan hi.state _) (ok_ite (ok_stall hi) ?_)
    split
    · trivial
    · exact ok_awaitSpan (canonical_arriveSpan hi.state _ _ _) _

theorem keeps_tlwait (h : s.Canonical) (a : Src) (n : BitVec 4) : Keeps (execTlwait a n s) :=
  keeps_run h fun i hi => ok_orTrap (ok_ite (canonical_modBlock hi.state i.gr.blk fun _ => stores_ite rfl rfl) (ok_wait hi.state _))

theorem keeps_gangset (h : s.Canonical) (a : Src) : Keeps (execGangset a s) := by
  refine keeps_run h fun i hi => ok_orTrap ?_
  dsimp only
  split
  · trivial
  · exact canonical_modBlock hi.state i.gr.blk fun b => (stores_gangLost b i.gr.grp : blockStores (b.gangLost i.gr.grp) = _)

theorem keeps_flagchk (h : s.Canonical) : Keeps (execFlagchk s) := by
  refine keeps_run h fun i hi => ?_
  split
  · trivial
  · exact hi.state

theorem canonical_modCtx (h : s.Canonical) (n : Nat) (f : Context → Context) : (s.modCtx n f).Canonical := h

theorem keeps_ckpt (h : s.Canonical) (d : Dst) (a : Src) (q : Bool) : Keeps (execCkpt d a q s) := by
  refine keeps_run h fun i hi => ok_orTrap (ok_ite (ok_stall hi) ?_)
  have harrived := fun n f => canonical_modCtx (canonical_touchOutside (s := i.s.unpin i.g.agent) hi.state i.gr.blk) n f
  exact canonical_setGroup (canonical_ite hi.state (harrived _ _)) i.gr _

/-! ## Accesses, waits and copies -/

theorem keeps_atomo (h : s.Canonical) (a b : Src) : Keeps (execAtomo a b s) := by
  refine keeps_run h fun i hi => ok_ite trivial (ok_ite trivial ?_)
  dsimp only
  split
  · trivial
  · have hq := ok_queue hi (i.mem (.atomo a b) i.counted i.helpers (perLane (i.laneWord a)) (perLane (i.vec i.ty (fun _ => 0) b)))
    split
    · next u sw hu =>
      rw [hu] at hq
      exact canonical_modGroup hq i.gr _
    · exact hq

theorem ok_awaitGen (hi : IssOk i) (l : Loc) (g : Nat) : ResOk (i.awaitGen l g) := ok_ite (canonical_modGroup hi.state i.gr _) (ok_wait hi.state _)

theorem keeps_waitv (h : s.Canonical) (d : BitVec 6) (a : Src) : Keeps (execWaitv d a s) := by
  refine keeps_run h fun i hi => ok_orTrap ?_
  split
  · exact ok_awaitGen hi _ _
  · dsimp only
    split
    · trivial
    · exact ok_awaitGen hi _ _

theorem canonical_unpinned (h : s.Canonical) (c : Bool) (n : Nat) : (if c then s.unpin n else s).Canonical := canonical_ite (s := s.unpin n) h h

theorem keeps_fence (h : s.Canonical) (sc : Scope) : Keeps (execFence sc s) :=
  keeps_run h fun i hi => ok_ite (ok_stall hi) (canonical_setGroup (canonical_unpinned hi.state _ _) i.gr _)

theorem keeps_tfence (h : s.Canonical) (sc : Scope) : Keeps (execTfence sc s) :=
  keeps_run h fun i hi => ok_ite trivial (ok_ite (ok_stall hi) (canonical_performScope hi.state i.b sc))

theorem keeps_syncw (h : s.Canonical) (a b : Src) : Keeps (execSyncw a b s) := by
  refine keeps_run h fun i hi => ok_orTrap (ok_unlessHelpers hi (ok_ite trivial ?_))
  have hatomic := ok_atomic hi (i.mem (.syncw a b) 1 0 [i.uni a, i.uni b] [])
  split
  · next u sw hu =>
    rw [hu] at hatomic
    split
    · exact hatomic
    · exact hatomic
  · exact hatomic

theorem canonical_claimFree (h : s.Canonical) (who : Who) (a : Acc) (n : Nat) : (s.claimFree who a n).Canonical := by
  unfold State.claimFree
  split
  · exact h
  · exact h

theorem canonical_claimRow (h : s.Canonical) (who : Who) (b : Block) (grp spc : Nat) (a : Word) (n : Nat) : (s.claimRow who b grp spc a n).Canonical := by
  refine canonical_foldl h (fun u x hu => ?_) _
  split
  · exact canonical_claimFree hu _ _ _
  · exact hu

theorem canonical_claimSlice (h : s.Canonical) (b : Block) (o : EngOp) (grp : Nat) (desc : Option Acc) (d : Slice) : (s.claimSlice b o grp desc d).Canonical := by
  have hrows : ∀ {u : State}, u.Canonical → ∀ (c : Bool) (f : State → Nat → State), (∀ v r, v.Canonical → (f v r).Canonical) →
      (if c then u else (List.range d.rows).foldl f u).Canonical := fun hu c f hf => canonical_ite hu (canonical_foldl hu hf _)
  unfold State.claimSlice
  cases desc with
  | none => exact hrows h _ _ fun _ _ hv => canonical_claimRow hv _ _ _ _ _ _
  | some a => exact hrows (canonical_claimFree h _ _ _) _ _ fun _ _ hv => canonical_claimRow hv _ _ _ _ _ _

theorem stores_modGroup (b : Block) (n : Nat) (f : Group → Group) : blockStores (b.modGroup n f) = blockStores b := rfl

theorem canonical_supply (hi : IssOk i) (instr : Instr) (desc : Option Acc) (a : Word) (words : List Word) : (i.supply instr desc a words).Canonical := by
  have hs0 : ∀ c : Bool, (if c then { i.s with nextAgent := i.s.nextAgent + 34 } else i.s).Canonical := fun c =>
    canonical_ite (s := { i.s with nextAgent := i.s.nextAgent + 34 }) hi.state hi.state
  have hjoined := fun (c : Bool) (f : Block → Block) (hf : ∀ b, blockStores (f b) = blockStores b) => canonical_modBlock (hs0 c) i.gr.blk hf
  unfold Iss.supply
  dsimp only
  refine canonical_ite (hjoined _ _ fun b => ?_) (canonical_claimSlice (hjoined _ _ fun b => ?_) _ _ _ _ _)
  · exact (stores_modGroup _ _ _).trans (stores_ite rfl rfl)
  · exact (stores_modGroup _ _ _).trans (stores_ite rfl rfl)

theorem keeps_cpb (h : s.Canonical) (a : Src) : Keeps (execCpb a s) := by
  refine keeps_run h fun i hi => ok_orTrap (ok_ite (ok_stall hi) (ok_ite (canonical_supply hi _ _ _ _) ?_))
  dsimp only
  split
  · trivial
  · exact canonical_ite (canonical_touchOutside (canonical_supply hi _ _ _ _) _) (canonical_supply hi _ _ _ _)

theorem canonical_issued (hi : IssOk i) (n tl : Nat) (o : EngOp) :
    (({ i.s with nextAgent := n }).modBlock i.gr.blk fun b => (b.addOp o).modGroup i.gr.grp fun g => g.issuedOp tl o.num).Canonical :=
  canonical_modBlock (s := { i.s with nextAgent := n }) hi.state i.gr.blk fun _ => rfl

theorem keeps_cpt (h : s.Canonical) (a b : Src) : Keeps (execCpt a b s) := by
  refine keeps_run h fun i hi => ok_orTrap (ok_unlessHelpers hi (ok_ite (ok_stall hi) ?_))
  dsimp only
  split
  · trivial
  · refine ok_orTrap ?_
    have hissued := fun o => canonical_issued hi (i.s.nextAgent + 34) 0 o
    unfold State.claimTile
    dsimp only
    exact canonical_ite (canonical_claimFree (hissued _) _ _ _)
      (canonical_foldl (canonical_claimFree (hissued _) _ _ _) (fun _ _ hv => canonical_claimRow hv _ _ _ _ _ _) _)

/-! ## Matrix and plane instructions -/

theorem canonical_issueOp (hi : IssOk i) (instr : Instr) (tl : Nat) (opa data : List Word) : (i.issueOp instr tl opa data).2.Canonical :=
  canonical_issued hi _ _ _

theorem canonical_claimCb (h : s.Canonical) (b : Block) (o : EngOp) (core row n : Nat) : (s.claimCb b o core row n).Canonical := canonical_claimFree h _ _ _

theorem stores_meet (b : Block) (o : EngOp) : blockStores (b.meet o) = blockStores b := by
  unfold Block.meet
  split
  · rfl
  · exact stores_ite rfl ((stores_stopOp _ _ _).trans rfl)

theorem canonical_join (hi : IssOk i) (instr : Instr) (v : List Word) (members : List Nat) : (i.join instr v members).Canonical := by
  have hb : ∀ (b : Block) (c : Bool) (o : EngOp) (f : Group → Group),
      blockStores ((if c then b.addOp o else b.modOp 1 o.num fun _ => o).modGroup i.gr.grp f) = blockStores b := fun b c o f =>
    (stores_modGroup _ _ _).trans (stores_ite rfl rfl)
  unfold Iss.join
  dsimp only
  refine canonical_modBlock ?_ i.gr.blk fun b => ?_
  · unfold State.claimArray
    refine canonical_ite (canonical_foldl (s := { i.s with nextAgent := i.s.nextAgent + 1 }) hi.state (fun w m hw => ?_) _) hi.state
    exact canonical_ite hw (canonical_ite (canonical_claimCb hw _ _ _ _ _) (canonical_foldl hw (fun _ _ hx => canonical_claimCb hx _ _ _ _ _) _))
  · exact stores_ite ((stores_foldl (fun _ _ => stores_stopOp _ _ _) _ _).trans (hb _ _ _ _))
      (stores_ite ((stores_meet _ _).trans (hb _ _ _ _)) (stores_ite ((stores_stopOp _ _ _).trans (hb _ _ _ _)) (hb _ _ _ _)))

theorem ok_array (hi : IssOk i) (instr : Instr) (v : List Word) : ResOk (i.array instr v) := by
  unfold Iss.array
  refine ok_ite trivial ?_
  dsimp only
  split
  · trivial
  · refine ok_ite trivial ?_
    split
    · trivial
    · exact ok_ite (ok_stall hi) (ok_ite (ok_stall hi) (canonical_join hi _ _ _))

theorem ok_drainOp (hi : IssOk i) (instr : Instr) (store : Bool) (d : BitVec 6) (a b : Src) (x : BitVec 2) : ResOk (i.drainOp instr store d a b x) := by
  unfold Iss.drainOp
  refine ok_orTrap (ok_ite trivial (ok_ite trivial (ok_orTrap (ok_ite (ok_stall hi) ?_))))
  have hissued := fun opa => canonical_issueOp hi instr 1 opa []
  have hclaimed : ∀ (w : State) (o : EngOp) (spc : Nat) (sp : DrainSpec) (a : Word) (c : Bool) (core n : Nat), w.Canonical →
      (if c then w.claimRows i.b o spc sp a else w.claimCb i.b o core sp.row n).Canonical := fun w o spc sp a c core n hw => by
    refine canonical_ite (canonical_foldl hw (fun v r hv => canonical_foldl hv (fun v x hv => ?_) _) _) (canonical_claimCb hw _ _ _ _ _)
    split
    · exact canonical_claimFree hv _ _ _
    · exact hv
  exact canonical_ite (canonical_touchOutside (hclaimed _ _ _ _ _ _ _ _ (hissued _)) _) (hclaimed _ _ _ _ _ _ _ _ (hissued _))

theorem canonical_planeIssue (hi : IssOk i) (instr : Instr) (v : List Word) {f : Block → Block} (hf : ∀ b, blockStores (f b) = blockStores b) :
    (i.planeIssue instr v f).2.Canonical :=
  canonical_modBlock (canonical_issueOp hi instr 2 v _) i.gr.blk fun _ => (hf _).trans rfl

theorem ok_planeOp (hi : IssOk i) (instr : Instr) (v : List Word) (bad : Option Trap) (f : Plane → Plane) : ResOk (i.planeOp instr v bad f) := by
  unfold Iss.planeOp
  refine ok_ite trivial ?_
  split
  · trivial
  · exact ok_ite (ok_stall hi) (canonical_planeIssue hi instr v fun _ => rfl)

theorem ok_planeArith (hi : IssOk i) (instr : Instr) (v : List Word) : ResOk (i.planeArith instr v) := ok_ite (ok_planeOp hi _ _ _ _) trivial

theorem keeps_plbind (h : s.Canonical) : Keeps (execPlbind s) := by
  refine keeps_run h fun i hi => ok_ite trivial (ok_ite trivial (ok_ite (ok_stall hi) ?_))
  have hbound := canonical_planeIssue hi .plbind [] (f := fun b => { b with planeSt := some { b.planeSt.getD Plane.fresh with bound := some i.gr.grp } }) fun _ => rfl
  show State.Canonical _
  split
  · exact hbound
  · exact hbound

theorem ok_planeMem (hi : IssOk i) (instr : Instr) (st : Bool) (a b : Src) (sp : Bool) : ResOk (i.planeMem instr st a b sp) := by
  unfold Iss.planeMem
  refine ok_orTrap (ok_orTrap (ok_ite trivial (ok_ite (ok_stall hi) ?_)))
  have hissued := canonical_planeIssue hi instr [i.uni a, i.uni b] (f := id) fun _ => rfl
  have hclaimed : (if st then (i.planeIssue instr [i.uni a, i.uni b] id).2.claimFoot i.b (i.planeIssue instr [i.uni a, i.uni b] id).1 sp (i.uni a + i.uni b)
      else (i.planeIssue instr [i.uni a, i.uni b] id).2).Canonical := by
    refine canonical_ite (canonical_foldl hissued (fun v x hv => ?_) _) hissued
    split
    · exact canonical_claimFree hv _ _ _
    · exact hv
  exact canonical_ite (canonical_touchOutside hclaimed _) hclaimed

theorem ok_planeRead {α : Type} (hi : IssOk i) {u : State} (h : s.Canonical) (hu : u.Canonical) (n : Nat) (mem : State → EngOp → Except Trap α)
    {read : α → EngOp → State → State} (hread : ∀ x o v, v.Canonical → (read x o v).Canonical) : ResOk (i.planeRead s u n mem read) := by
  have hacquired := canonical_modBlock h i.gr.blk (f := fun b => b.acquire i.gr.grp fun o => o.tl == 2 && decide (o.num < n)) fun _ => rfl
  unfold Iss.planeRead
  dsimp only
  split
  · split
    · exact hu
    · split
      · exact hu
      · exact canonical_modGroup (hread _ _ _ (canonical_modBlock hacquired i.gr.blk fun _ => by rfl)) i.gr _
  · exact ok_stall hi

theorem ok_planeSync {α : Type} (hi : IssOk i) (instr : Instr) (v : List Word) (mem : State → EngOp → Except Trap α) {read : α → EngOp → State → State}
    (hread : ∀ x o u, u.Canonical → (read x o u).Canonical) : ResOk (i.planeSync instr v mem read) := by
  unfold Iss.planeSync
  extract_lets early unbound
  have hunbound : ∀ n, ResOk (unbound n) := fun n => ok_ite (ok_wait hi.state _) trivial
  split
  · exact ok_ite (ok_wait hi.state _) (ok_planeRead hi hi.state hi.state _ _ hread)
  · exact hunbound _
  · refine ok_ite (ok_stall hi) (ok_ite (hunbound _) ?_)
    have hissued := canonical_planeIssue hi instr v (f := fun b => b) fun _ => rfl
    have hruns := fun f => canonical_modOp hissued i.gr.blk 2 (i.planeIssue instr v fun b => b).1.num f
    exact ok_ite (ok_wait (hruns _) _) (ok_planeRead hi (hruns _) hi.state _ _ hread)

theorem canonical_readTo (h : s.Canonical) (i : Iss) (d : BitVec 6) (x : Nat) (fl : Flags) : (i.readTo s d x fl).Canonical := canonical_modGroup h i.gr _

theorem keeps_plred (h : s.Canonical) (d : BitVec 6) (a : CellSrc) (b : Src) (p : AmmOp) : Keeps (execPlred d a b p s) :=
  keeps_run h fun i hi => ok_orTrap (ok_planeSync hi _ _ _ fun _ _ _ hu => canonical_readTo hu i _ _ _)

theorem canonical_clear (h : s.Canonical) (c : Bool) (blk : Nat) (f : Plane → Plane) : (if c then s.modBlock blk fun b => setPlane b f else s).Canonical :=
  canonical_ite (canonical_modBlock h blk fun _ => rfl) h

theorem keeps_plexc (h : s.Canonical) (d : BitVec 6) (a : Src) (clr : Bool) : Keeps (execPlexc d a clr s) :=
  keeps_run h fun i hi => ok_orTrap (ok_planeSync hi _ _ _ fun _ _ _ hu => canonical_readTo (canonical_clear (canonical_perform hu _ _ _) _ _ _) i _ _ _)

theorem keeps_plflg (h : s.Canonical) (d : BitVec 6) (clr : Bool) : Keeps (execPlflg d clr s) :=
  keeps_run h fun i hi => ok_planeSync hi _ _ _ fun _ _ _ hu => canonical_readTo (canonical_clear hu _ _ _) i _ _ _

/-! ## Launches, handles and Virga commands -/

theorem ok_suppressed (hi : IssOk i) (d : BitVec 6) {f : Unit → Res} (hf : ResOk (f ())) : ResOk (i.suppressed d f) := ok_ite (ok_putD hi _ _) hf

theorem ok_record (hi : IssOk i) (d : List Nat) (a : Word) (n : Nat) {f : List Byte → Res} (hf : ∀ bs, ResOk (f bs)) : ResOk (i.record d a n f) := by
  unfold Iss.record
  refine ok_ite (ok_stall hi) ?_
  split
  · trivial
  · exact hf _

theorem ok_outside (h : s.Canonical) (i : Iss) (d : BitVec 6) (x : Word) (rel : Bool) : ResOk (i.outside s d x rel) :=
  canonical_modGroup (canonical_ite (s := (s.touchOutside i.gr.blk).unpin i.g.agent) (canonical_touchOutside h _) (canonical_touchOutside h _)) i.gr _

theorem keeps_launch (h : s.Canonical) (d : BitVec 6) (a : Src) : Keeps (execLaunch d a s) := by
  refine keeps_run h fun i hi => ok_orTrap (ok_suppressed hi d (ok_record hi _ _ _ fun bs => ?_))
  split
  · exact ok_outside hi.state i _ _ _
  · split
    · exact ok_outside hi.state i _ _ _
    · exact ok_ite trivial (ok_outside (s := (i.s.acceptGrid _ _ _ _ _ _).1) hi.state i _ _ _)

theorem keeps_arm (h : s.Canonical) (d : BitVec 6) (a : Src) : Keeps (execArm d a s) := by
  refine keeps_run h fun i hi => ok_orTrap (ok_suppressed hi d (ok_record hi _ _ _ fun bs => ?_))
  have harmed : ∀ l, State.Canonical { i.s with armed := l } := fun _ => hi.state
  refine ok_ite (ok_outside hi.state i _ _ _) (ok_ite (ok_outside hi.state i _ _ _) ?_)
  exact ok_outside (harmed _) i _ _ _

theorem ok_newInv (hi : IssOk i) (d : BitVec 6) (a : Word) (malformed : Bool) (toward : Option (Nat × Word)) {go : State → Inv → Res}
    (hgo : ∀ u v, u.Canonical → ResOk (go u v)) : ResOk (i.newInv d a malformed toward go) := by
  refine ok_record hi _ _ _ fun bs => ok_ite trivial ?_
  split
  · trivial
  · refine ok_ite trivial ?_
    split
    · exact ok_stall hi
    · exact hgo _ _ hi.state

theorem canonical_breakAll (h : s.Canonical) (leaf : Nat) (hs : List Word) (o : Word) (n : Nat) (c : Clock) : (s.breakAll leaf hs o n c).Canonical :=
  canonical_foldl h (fun _ _ hu => canonical_send hu _ _ _) _

theorem canonical_reach (h : s.Canonical) (leaf : Nat) (hd : Word) (v : Inv) (via : List Word) (w : Option Waiter) : (s.reach leaf hd v via w).Canonical := by
  unfold State.reach
  split
  · split
    · exact h
    · exact canonical_breakAll h _ _ _ _ _
  · dsimp only
    have hanswered : (match w with | some w => s.send leaf w.leaf (.answer w.req [] []) | none => s).Canonical := by
      split
      · exact h
      · exact h
    cases w with
    | none | some w =>
      dsimp only at hanswered ⊢
      split
      · exact hanswered
      · exact canonical_ite hanswered (canonical_breakAll hanswered _ _ _ _ _)
      · exact canonical_ite (canonical_breakAll hanswered _ _ _ _ _) hanswered
      · exact hanswered
      · exact canonical_breakAll hanswered _ _ _ _ _

theorem ok_ask (h : s.Canonical) (i : Iss) (hd own : Word) (m : MsgBody) : ResOk (i.ask s hd own m) :=
  canonical_modGroup (canonical_send (s := { s with nextId := i.s.nextId + 1 }) h _ _ _) i.gr _

theorem keeps_invoke (h : s.Canonical) (d : BitVec 6) (a b : Src) : Keeps (execInvoke d a b s) :=
  keeps_run h fun i hi => ok_orTrap (ok_suppressed hi d (ok_newInv hi _ _ _ _ fun u _ hu => ok_outside (s := u.send _ _ _) hu i _ _ _))

theorem keeps_invh (h : s.Canonical) (d : BitVec 6) (a b : Src) : Keeps (execInvh d a b s) := by
  refine keeps_run h fun i hi => ok_orTrap (ok_suppressed hi d ?_)
  dsimp only
  split
  · split
    · exact hi.state
    · exact ok_ite (ok_stall hi) (ok_outside hi.state i _ _ _)
  · exact ok_stall hi
  · refine ok_newInv hi _ _ _ _ fun u v hu => ok_ite (ok_ite (ok_stall hi) ?_) (ok_ask hu i _ _ _)
    split
    · trivial
    · exact ok_outside (canonical_reach hu _ _ _ _ _) i _ _ _

theorem keeps_hwait (h : s.Canonical) (d : BitVec 6) (a : Src) : Keeps (execHwait d a s) := by
  refine keeps_run h fun i hi => ok_orTrap ?_
  split
  · split
    · trivial
    · exact ok_ite (ok_stall hi) (canonical_setGroup hi.state i.gr _)
  · exact ok_wait hi.state _
  · exact ok_ite trivial (ok_wait (canonical_modGroup (canonical_send (s := { i.s with nextId := i.s.nextId + 1 }) hi.state _ _ _) i.gr _) _)

theorem ok_settle (hi : IssOk i) (hd : Word) (m : MsgBody) : ResOk (i.settle hd m) := by
  have hsettled := canonical_modBlock (s := (i.s.touchOutside i.gr.blk).unpin i.g.agent) (canonical_touchOutside hi.state _) i.gr.blk
    (f := fun b => { b with settled := true }) fun _ => rfl
  exact ok_ite (ok_stall hi) (canonical_send (canonical_modGroup hsettled i.gr Group.release) _ _ _)

theorem keeps_hres (h : s.Canonical) (a : Src) (fwd : Bool) : Keeps (execHres a fwd s) := by
  refine keeps_run h fun i hi => ok_orTrap (ok_unlessHelpers hi ?_)
  dsimp only
  split
  · trivial
  · exact ok_ite (ok_ite trivial (ok_settle hi _ _)) (ok_settle hi _ _)

theorem keeps_hbrk (h : s.Canonical) (a : Src) : Keeps (execHbrk a s) := by
  refine keeps_run h fun i hi => ok_orTrap (ok_unlessHelpers hi ?_)
  split
  · trivial
  · exact ok_settle hi _ _

theorem keeps_hqry (h : s.Canonical) (d : BitVec 6) (a : Src) : Keeps (execHqry d a s) := by
  refine keeps_run h fun i hi => ok_orTrap ?_
  dsimp only
  split
  · split
    · trivial
    · exact ok_putD hi _ _
  · exact ok_stall hi
  · refine ok_ite trivial (ok_ite (ok_ask hi.state i _ _ _) (ok_ite (ok_stall hi) ?_))
    split
    · trivial
    · exact ok_putD hi _ _

theorem gives_freeHandle (h : s.Canonical) (ctx : Nat) (hd : Word) : Gives (fun _ => True) State.Canonical (s.freeHandle ctx hd) := by
  unfold State.freeHandle
  split
  · trivial
  · exact gives_ite trivial h

theorem keeps_hfree (h : s.Canonical) (a : Src) : Keeps (execHfree a s) := by
  refine keeps_run h fun i hi => ok_orTrap (ok_unlessHelpers hi ?_)
  dsimp only
  split
  · split
    · trivial
    · exact canonical_touchOutside hi.state _
  · exact ok_stall hi
  · refine ok_ite trivial (ok_ite (ok_ask hi.state i _ _ _) (ok_ite (ok_stall hi) ?_))
    split
    · trivial
    · next u hu => exact canonical_touchOutside (gives_ok (gives_freeHandle hi.state _ _) hu) _

theorem keeps_vgcmd (h : s.Canonical) (d : BitVec 6) (a b : Src) : Keeps (execVgcmd d a b s) := by
  refine keeps_run h fun i hi => ok_orTrap (ok_suppressed hi d (ok_ite trivial (ok_ite (ok_stall hi) ?_)))
  dsimp only
  split
  · trivial
  · refine canonical_modGroup (canonical_touchOutside (canonical_foldl (canonical_issueOp hi _ _ _ _) (fun u y hu => ?_) _) _) i.gr _
    exact canonical_foldl hu (fun _ _ hv => canonical_claimFree hv _ _ _) _

/-! ## Return from a trap (R398) -/

theorem stores_takeBack (b : Block) (o : EngOp) (grp : Nat) (e : QEnt) (pix : Nat) (ivec : List Nat) : blockStores (b.takeBack o grp e pix ivec) = blockStores b := by
  unfold Block.takeBack
  extract_lets o1
  exact stores_ite rfl (stores_ite (stores_meet _ _) (stores_ite ((stores_stopOp _ _ _).trans rfl) rfl))

theorem canonical_reissue (h : s.Canonical) (gr : GRef) (k : Kept) (e : QEnt) : (s.reissue gr k e).1.Canonical := by
  unfold State.reissue
  split
  · split
    · split
      · exact h
      · split
        · exact canonical_modBlock h gr.blk fun _ => rfl
        · exact canonical_modBlock h gr.blk fun b => stores_takeBack b _ _ _ _ _
    · split
      · exact h
      · split
        · exact h
        · dsimp only
          split
          · exact canonical_modGroup (canonical_modGroup h gr _) gr _
          · split
            · split
              · next u hu => exact gives_ok (gives_atomAll h gr _ _ _) hu
              · exact h
            · exact h
  · exact h

theorem canonical_reissueAll (es : List QEnt) : ∀ {s : State}, s.Canonical → ∀ (gr : GRef) (k : Kept), (s.reissueAll gr k es).Canonical := by
  induction es with
  | nil => exact fun h _ _ => h
  | cons e es ih =>
    intro s h gr k
    have hone := canonical_reissue h gr k e
    unfold State.reissueAll
    split
    · next u hu =>
      rw [hu] at hone
      exact ih hone gr _
    · next u t hu =>
      rw [hu] at hone
      exact canonical_takeTrap hone gr _ _ _ _ _

theorem gives_returnFromTrap (h : s.Canonical) (gr : GRef) (g : Group) (hold : TrapHold) (rest : List TrapHold) :
    Gives AnyTrap CanonicalOption (s.returnFromTrap gr g hold rest) := by
  unfold State.returnFromTrap
  refine gives_bind (gives_any _) fun bs _ => gives_bind (gives_any _) fun _ _ => ?_
  dsimp only
  split
  · trivial
  · refine gives_bind (gives_fitWindows (canonical_modGroup h gr _) gr) fun u hu => ?_
    show CanonicalOption _
    split
    · trivial
    · exact canonical_askRange (canonical_reissueAll _ hu gr _) gr _ _

theorem keeps_rft (h : s.Canonical) : Keeps (execRft s) := by
  refine keeps_run h fun i hi => ?_
  split
  · trivial
  · refine ok_ite (ok_stall hi) ?_
    split
    · trivial
    · exact ok_pinStall hi
    · next u hu => exact canonical_switchPoint (gives_ok (Q := CanonicalOption) (gives_returnFromTrap hi.state _ _ _ _) hu) i.gr

end

end Sys2Proof.Proofs.Canon
end

section
/-! SUPPORT. What keeps the stores canonical (log entry 1): the groups' own events and the engines as they run. -/

namespace Sys2Proof.Proofs.Canon

open Sys2Proof Sys2Proof.Machine Sys2Proof.Laws

section
variable {s : State}

theorem keeps_next (h : s.Canonical) : Keeps (.next s) := h

theorem gives_pure {ε α : Type} {P : ε → Prop} {Q : α → Prop} {a : α} (h : Q a) : Gives P Q (Except.ok a : Except ε α) := h

theorem canonical_unpin (h : s.Canonical) (n : Nat) : (s.unpin n).Canonical := h

theorem canonical_modCore (h : s.Canonical) (n : Nat) (f : Core → Core) : (s.modCore n f).Canonical := h

/-! ## Groups (R129, R227, R254, R396) -/

theorem keeps_quantumSwitch (h : s.Canonical) (core : Nat) : Keeps (execQuantumSwitch core s) := by
  unfold execQuantumSwitch
  split
  · next gr sb r _ _ =>
    exact keeps_next (canonical_modCore (canonical_setCore (canonical_modGroup h gr _) _ _) _ _)
  · exact h

theorem keeps_loadComplete (h : s.Canonical) (g : GRef) : Keeps (execLoadComplete g s) := by
  unfold execLoadComplete
  split
  · exact h
  · split
    · exact h
    · split
      · exact canonical_modGroup h g _
      · exact h

theorem keeps_accessPerform (h : s.Canonical) (g : GRef) (k : Nat) (lanes : BitVec 32) : Keeps (execAccessPerform g k lanes s) := by
  have hnext := canonical_acceptNext h g 1
  unfold execAccessPerform
  split
  · split
    · exact h
    · next m _ =>
      split
      · exact canonical_modGroup (canonical_performLanes h g m.id lanes) g _
      · split
        · exact h
        · split
          · next t x he =>
            rw [he] at hnext
            exact canonical_ifPinned hnext (canonical_memoryTrap hnext g _ _) g
          · next t he =>
            rw [he] at hnext
            exact hnext
  · exact h

theorem keeps_pageTableWalk (h : s.Canonical) (ctx agent : Nat) (va : Word) : Keeps (execPageTableWalk ctx agent va s) := by
  unfold execPageTableWalk
  dsimp only
  split
  · exact h
  · split
    · exact h
    · split
      · exact h
      · exact h

theorem keeps_trapEntry (h : s.Canonical) (gr : GRef) : Keeps (execTrapEntry gr s) := by
  have hall := canonical_acceptAll h gr 9
  unfold execTrapEntry
  split
  · split
    · exact h
    · split
      · exact h
      · next st _ =>
        split
        · next t x he =>
          rw [he] at hall
          exact canonical_ifPinned hall (canonical_memoryTrap hall gr _ _) gr
        · next t he =>
          rw [he] at hall
          have herase := fun f => canonical_modGroup (show t.Canonical from hall) gr f
          split
          · exact hall
          · dsimp only
            split
            · exact herase _
            · split
              · exact keeps_next (canonical_ifPinned hall (canonical_takeTrap (canonical_modGroup (herase _) gr _) gr _ _ _ _ _) gr)
              · exact herase _
  · exact h

/-! ## Retirement (R163, R232) -/

theorem canonical_checkSpan (h : s.Canonical) (key : Nat) : (s.checkSpan key).Canonical := by
  unfold State.checkSpan
  split
  · exact h
  · exact canonical_ite h h

theorem canonical_retireBlock (h : s.Canonical) (id : Nat) : (s.retireBlock id).Canonical := by
  unfold State.retireBlock
  split
  · exact h
  · next b _ => exact canonical_ite (canonical_checkSpan (canonical_dropBlock (canonical_modGrid h b.grid _) id) _) h

theorem stores_checkBar (b : Block) (n : Nat) : blockStores (b.checkBar n) = blockStores b := stores_ite rfl rfl

theorem keeps_groupRetire (h : s.Canonical) (gr : GRef) : Keeps (execGroupRetire gr s) := by
  unfold execGroupRetire
  split
  · next b g _ _ =>
    split
    · exact h
    · have hgroup := fun f => canonical_modGroup (canonical_unpin h g.agent) gr f
      have hrel : ∀ (f : Group → Group) (c : Clock), (((s.unpin g.agent).modGroup gr f).modBlock gr.blk fun b => { b with rel := clockJoin b.rel c }).Canonical :=
        fun f c => canonical_modBlock (hgroup f) gr.blk fun _ => by rfl
      have hbars := fun f c => canonical_modBlock (hrel f c) gr.blk fun b => stores_foldl stores_checkBar (List.range 16) b
      dsimp only
      refine canonical_retireBlock ?_ _
      have hspan := fun f c x => canonical_checkSpan (s := ((((s.unpin g.agent).modGroup gr f).modBlock gr.blk fun b => { b with rel := clockJoin b.rel c }).modBlock
        gr.blk fun b => (List.range 16).foldl Block.checkBar b).modSpan b.span x) (hbars f c) b.span
      split
      · split
        · exact hspan _ _ _
        · exact canonical_modBlock (hspan _ _ _) gr.blk fun _ => by rfl
      · exact hspan _ _ _
  · exact h

/-! ## Operations that end (R167, R177) -/

theorem stores_clearPix (b : Block) (o : EngOp) : blockStores (b.clearPix o) = blockStores b :=
  (show blockStores (b.clearPix o) = blockStores (o.parts.foldl (fun b p => if p.pix = 0 then b else b.modGroup p.grp fun g => { g with pix := 0 }) b) from rfl).trans
    (stores_foldl (fun _ _ => by exact stores_ite rfl rfl) o.parts b)

theorem canonical_endOp (h : s.Canonical) (blk : Nat) (o : EngOp) : (s.endOp blk o).Canonical :=
  canonical_modOp (canonical_modBlock h blk fun b => stores_clearPix b o) blk _ _ _

theorem canonical_stopped (h : s.Canonical) (blk : Nat) (o : EngOp) (t : Trap) : (s.modBlock blk fun b => b.stopOp o t).Canonical :=
  canonical_modBlock h blk fun b => stores_stopOp b o t

theorem keeps_engineOpComplete (h : s.Canonical) (blk op : Nat) : Keeps (execEngineOpComplete blk op s) := by
  unfold execEngineOpComplete
  split
  · exact h
  · next o _ =>
    split
    · have hdone := fun f => canonical_modOp h blk o.tl o.num f
      have hpins := fun f => canonical_foldl (hdone f) (fun s i hs => canonical_unpin hs (o.agent + i)) (List.range (if o.tl = 0 then 34 else 1))
      have hcount := fun f => canonical_modBlock (hpins f) blk (f := fun b => setPlane (b.addStat 4 1) fun p => { p with last := o.num }) fun _ => by rfl
      exact canonical_ite (hcount _) (hpins _)
    · exact h

/-! ## Matrix operations (R177, R192-R203) -/

theorem canonical_putUnits (h : s.Canonical) (b : Block) (o : EngOp) (ps : List Acc) (us : List Nat) (bs : List Byte) : (s.putUnits b o ps us bs).Canonical :=
  canonical_foldl h (fun s u hs => by
    split
    · exact canonical_performOp hs b o _ _ _
    · exact hs) us

theorem canonical_drainRow (h : s.Canonical) (b : Block) (o : EngOp) (spc : Nat) (store : Bool) : (s.drainRow b o spc store).Canonical := by
  unfold State.drainRow
  dsimp only
  split
  · exact canonical_stopped h _ _ _
  · split
    · exact canonical_stopped h _ _ _
    · have hput : ∀ (c : Prop) [Decidable c] (ps as : List Acc) (us : List Nat) (r : List Byte),
          (if c then s.putUnits b o ps us r else s.putUnits b o as us r).Canonical := fun c _ ps as us r =>
        canonical_ite (canonical_putUnits h b o _ _ _) (canonical_putUnits h b o _ _ _)
      split
      · exact canonical_modOp (hput _ _ _ _ _) _ _ _ _
      · have hset : ∀ (c d : Prop) [Decidable c] [Decidable d] (ps as : List Acc) (us : List Nat) (r : List Byte) (l : List (Loc × Nat)) (f : EngOp → EngOp),
            ((if d then (if c then s.putUnits b o ps us r else s.putUnits b o as us r).clearCovered l
              else (if c then s.putUnits b o ps us r else s.putUnits b o as us r)).modOp b.id 1 o.num f).Canonical := fun c d _ _ ps as us r l f =>
          canonical_modOp (canonical_ite (canonical_clearCovered (hput _ _ _ _ _) l) (hput _ _ _ _ _)) _ _ _ _
        split
        · exact canonical_modOp (hset _ _ _ _ _ _ _ _) _ _ _ _
        · exact canonical_endOp (hset _ _ _ _ _ _ _ _) _ _

theorem canonical_foldl_fst {α β : Type} {f : State × β → α → State × β} (h : s.Canonical) (hf : ∀ s x, s.1.Canonical → (f s x).1.Canonical) (l : List α) (y : β) :
    (l.foldl f (s, y)).1.Canonical := by
  have key : ∀ (l : List α) (x : State × β), x.1.Canonical → (l.foldl f x).1.Canonical := by
    intro l
    induction l with
    | nil => exact fun _ hx => hx
    | cons a l ih => exact fun x hx => ih _ (hf x a hx)
  exact key l _ h

theorem canonical_stepRow (h : s.Canonical) (b : Block) (o : EngOp) (x : StepCtx) (i : Nat) (a : List (Option Nat)) (cols : List (Nat × List (Option Nat))) :
    (s.stepRow b o x i a cols).1.Canonical :=
  canonical_foldl_fst h (fun _ _ hs => canonical_performOp hs b o _ _ _) cols 0

theorem gives_matStep (h : s.Canonical) (b : Block) (o : EngOp) : Gives AnyTrap (fun r : State × Flags => r.1.Canonical) (s.matStep b o) := by
  unfold State.matStep
  refine gives_bind (gives_any _) fun as _ => gives_bind (gives_any _) fun bs _ => ?_
  split
  · trivial
  · exact gives_pure (canonical_foldl_fst h (fun t y ht => by exact canonical_stepRow ht b o _ _ _ _) _ 0)

theorem canonical_stepDone (h : s.Canonical) (blk : Nat) (o : EngOp) : (s.stepDone blk o).Canonical := by
  have hclear := canonical_modBlock h blk fun b => stores_clearPix b o
  unfold State.stepDone
  dsimp only
  split
  · exact canonical_modOp h _ _ _ _
  · split
    · exact canonical_modOp hclear _ _ _ _
    · exact canonical_modOp hclear _ _ _ _

theorem keeps_matrixStep (h : s.Canonical) (blk : Nat) : Keeps (execMatrixStep blk s) := by
  unfold execMatrixStep
  split
  · exact h
  · next b _ =>
    split
    · next o _ _ =>
      have hstep := gives_matStep h b o
      split
      · exact canonical_drainRow h _ _ _ _
      · exact canonical_drainRow h _ _ _ _
      · split
        · exact canonical_stopped h _ _ _
        · next r he =>
          have hr := gives_ok hstep he
          exact keeps_next (canonical_stepDone (canonical_modOp hr _ _ _ _) _ _)
    · exact h

theorem keeps_matrixOpStart (h : s.Canonical) (blk op : Nat) : Keeps (execMatrixOpStart blk op s) := by
  unfold execMatrixOpStart
  split
  · exact h
  · split
    · exact h
    · have hrun := fun f => canonical_modOp h blk 1 op f
      split
      · exact h
      · dsimp only
        split
        · split
          · exact canonical_stopped (hrun _) _ _ _
          · exact canonical_endOp (canonical_performOp (hrun _) _ _ _ _ _) _ _
        · exact hrun _
        · split
          · exact canonical_stopped (hrun _) _ _ _
          · exact hrun _
        · split
          · exact canonical_stopped (hrun _) _ _ _
          · exact hrun _
        · split
          · exact canonical_modOp (hrun _) _ _ _ _
          · exact canonical_stopped (hrun _) _ _ _

/-! ## The plane and the binning engine (R283-R295) -/

theorem gives_moveRow (h : s.Canonical) (b : Block) (o : EngOp) (p : Plane) (d : Nat) (sp st : Bool) :
    Gives AnyTrap (fun r : State × Plane × List Nat × Bool => r.1.Canonical) (s.moveRow b o p d sp st) := by
  unfold State.moveRow
  split
  · trivial
  · next xs _ =>
    dsimp only
    have hput := fun ys => canonical_foldl (f := fun (s : State) (x : Nat × Acc) => s.performOp b o (o.who b) x.2 (leBytes 4 (p.cell d x.1 o.pix).toNat)) h
      (fun _ _ hs => canonical_performOp hs b o _ _ _) ys
    split
    · exact canonical_ite (canonical_clearCovered (hput _) _) (hput _)
    · exact h

theorem canonical_stepRow2 (h : s.Canonical) (b : Block) (o : EngOp) (p : Plane) (d : BitVec 5) (sp st : Bool) : (s.stepRow2 b o p d sp st).Canonical := by
  have hmove := gives_moveRow h b o p d.toNat sp st
  unfold State.stepRow2
  split
  · exact canonical_endOp h _ _
  · split
    · exact canonical_stopped h _ _ _
    · next r he =>
      have hr := gives_ok hmove he
      have hplane := canonical_modBlock hr b.id (f := fun b => { b with planeSt := some r.2.1 }) fun _ => by rfl
      dsimp only
      split
      · exact canonical_modOp hplane _ _ _ _
      · split
        · exact canonical_endOp (canonical_modOp hplane _ _ _ _) _ _
        · exact canonical_modOp (canonical_modOp hplane _ _ _ _) _ _ _ _

theorem canonical_stepTile (h : s.Canonical) (b : Block) (o : EngOp) (p : Plane) (fresh : Bool) : (s.stepTile b o p fresh).Canonical := by
  have hfin : ∀ {t : State}, t.Canonical → ∀ (o : EngOp) (x : CellBits), ((t.modBlock b.id fun b => b.addStat 3 (cellCount x)).endOp b.id o).Canonical := fun ht o x =>
    canonical_endOp (canonical_modBlock ht b.id fun _ => by rfl) b.id o
  unfold State.stepTile
  split
  · exact canonical_stopped h _ _ _
  · next o' _ =>
    have htake := fun f => canonical_modOp h b.id 2 o'.num f
    dsimp only
    split
    · exact hfin (htake _) _ _
    · split
      · exact canonical_stopped (htake _) _ _ _
      · next r _ =>
        have hplane := fun f => canonical_modBlock (htake f) b.id (f := fun b => { b with planeSt := some r.1 }) fun _ => by rfl
        have hdata := fun f g => canonical_modOp (hplane f) b.id 2 o'.num g
        split
        · exact hfin (hdata _ _) _ _
        · exact hdata _ _

theorem stores_recordCells (b : Block) (o : EngOp) (cells : CellBits) : blockStores (b.recordCells o cells) = blockStores b := stores_ite rfl rfl

theorem keeps_planeOp (h : s.Canonical) (blk : Nat) : Keeps (execPlaneOp blk s) := by
  unfold execPlaneOp
  split
  · exact h
  · next b _ =>
    split
    · next o0 p _ _ _ =>
      split
      · exact h
      · have hrun := fun f => canonical_modOp h blk 2 o0.num f
        dsimp only
        split
        · exact keeps_next (canonical_stepRow2 (hrun _) _ _ _ _ _ _)
        · exact keeps_next (canonical_stepRow2 (hrun _) _ _ _ _ _ _)
        · exact keeps_next (canonical_stepTile (hrun _) _ _ _ _)
        · exact hrun _
        · refine keeps_next (canonical_endOp ?_ _ _)
          refine canonical_modBlock ?_ _ fun _ => stores_recordCells _ _ _
          refine canonical_modOp ?_ _ _ _ _
          refine canonical_modBlock ?_ _ fun _ => by rfl
          exact hrun _
    · exact h

theorem gives_engWrite (h : s.Canonical) (who : Who) (b : Block) (o : EngOp) (a : Word) (bs : List Byte) : Gives AnyTrap State.Canonical (s.engWrite who b o a bs) := by
  unfold State.engWrite
  split
  · exact canonical_performOp h b o _ _ _
  · trivial

theorem gives_binJob (h : s.Canonical) (b : Block) (o : EngOp) : Gives AnyTrap (fun r : State × Bool => r.1.Canonical) (s.binJob b o) := by
  have hop := fun {t : State} (ht : t.Canonical) f => canonical_modOp ht b.id 2 o.num f
  unfold State.binJob
  dsimp only
  split
  · exact gives_bind (gives_any _) fun p _ => hop h _
  · split
    · refine gives_bind (gives_foldlM (fun t k ht => ?_) _ h) fun t ht => hop ht _
      split
      · exact gives_engWrite ht _ b o _ _
      · exact ht
    · refine gives_bind (gives_engWrite h _ b o _ _) fun t ht => ?_
      have hstats := fun n m k => canonical_modBlock (show t.Canonical from ht) b.id (f := fun b => ((b.addStat 0 n).addStat 1 m).addStat 2 k) fun _ => by rfl
      exact hop (hstats _ _ _) _

theorem keeps_binningJob (h : s.Canonical) (blk : Nat) : Keeps (execBinningJob blk s) := by
  unfold execBinningJob
  split
  · exact h
  · next b _ =>
    split
    · exact h
    · split
      · exact h
      · dsimp only
        split
        · exact h
        · next o _ =>
          have hjob := gives_binJob h b o
          split
          · next t he =>
            have ht := gives_ok hjob he
            have hleft : ∀ l, State.Canonical { t with binJobs := l } := fun _ => ht
            exact keeps_next (canonical_endOp (hleft _) _ _)
          · next t he =>
            have ht := gives_ok hjob he
            exact ht
          · have hleft : ∀ l, State.Canonical { s with binJobs := l } := fun _ => h
            exact keeps_next (canonical_stopped (hleft _) _ _ _)

/-! ## Copies (R181-R191) -/

theorem canonical_count (h : s.Canonical) (who : Who) (b : Block) (sync n : Nat) (c : Clock) : (s.count who b sync n c).1.Canonical := by
  unfold State.count
  split
  · exact h
  · dsimp only
    split
    · exact h
    · exact canonical_perform h _ _ _

theorem canonical_writeStat (h : s.Canonical) (who : Who) (b : Block) (o : EngOp) (grp spc : Nat) (record : Word) (statOfs stat : Nat) (fail : Option Word) :
    (s.writeStat who b o grp spc record statOfs stat fail).Canonical := by
  have hput : ∀ {t : State} (a : Word) (bs : List Byte), t.Canonical → (match t.copyCheck who b grp spc a bs.length true false with
      | .ok x => t.performCopy b o who x bs
      | .error e => t.logFate b.ctx e.cause.code (t.lidOf b) b.lin grp a.toNat).Canonical := fun a bs ht => by
    split
    · exact canonical_performCopy ht b o _ _ _
    · exact canonical_logFate ht _ _ _ _ _ _
  unfold State.writeStat
  dsimp only
  refine hput _ _ ?_
  split
  · exact hput _ _ h
  · exact h

theorem canonical_performed (h : s.Canonical) (b : Block) (o : EngOp) (who : Who) (l : List (Acc × List Byte)) :
    (l.foldl (fun s x => s.performCopy b o who x.1 x.2) s).Canonical := canonical_foldl h (fun _ _ hs => canonical_performCopy hs b o who _ _) l

theorem gives_copyUnits (h : s.Canonical) (who : Who) (b : Block) (o : EngOp) (grp sspc dspc : Nat) (src dst : List Word) :
    Gives AnyTrap State.Canonical (s.copyUnits who b o grp sspc dspc src dst) :=
  gives_bind (gives_any _) fun _ _ => gives_bind (gives_any _) fun _ _ => canonical_performed h b o who _

theorem canonical_rowCleared (h : s.Canonical) (who : Who) (b : Block) (grp spc n : Nat) (dst : List Word) : (s.rowCleared who b grp spc n dst).Canonical :=
  canonical_clearCovered h _

theorem canonical_sliceRow (h : s.Canonical) (b : Block) (o : EngOp) (p : Part) : (s.sliceRow b o p).1.Canonical := by
  have hstat := fun {t : State} (ht : t.Canonical) who code fail => canonical_writeStat ht who b o p.grp 1 (p.opa.getD 0 0) 27 code fail
  unfold State.sliceRow
  dsimp only
  split
  · exact h
  · split
    · exact hstat h _ _ _
    · split
      · exact canonical_ite (hstat h _ _ _) (canonical_count (hstat h _ _ _) _ _ _ _ _)
      · have hunits := fun who sspc dspc src dst => gives_copyUnits h who b o p.grp sspc dspc src dst
        split
        · exact canonical_count (hstat h _ _ _) _ _ _ _ _
        · next t he =>
          have ht := gives_ok (hunits _ _ _ _ _) he
          split
          · exact ht
          · have hclear := fun who spc n dst => canonical_rowCleared ht who b p.grp spc n dst
            have hlast := fun (c : Prop) [Decidable c] who code fail who' spc n dst => canonical_ite (c := c) (hstat (hclear who' spc n dst) who code fail) (hclear who' spc n dst)
            have hcount := fun c [Decidable c] who code fail who' spc n dst w k m cl => canonical_count (hlast c who code fail who' spc n dst) w b k m cl
            split
            · next hx => exact (congrArg (fun x : State × Option Trap => x.1.Canonical) hx).mp (hcount _ _ _ _ _ _ _ _ _ _ _ _)
            · next hx => exact canonical_count (hstat ((congrArg (fun x : State × Option Trap => x.1.Canonical) hx).mp (hcount _ _ _ _ _ _ _ _ _ _ _ _)) _ _ _) _ _ _ _ _

theorem gives_tileStore (h : s.Canonical) (who : Who) (b : Block) (o : EngOp) (t : Tile) (dst : Word) (cs : List Nat) (bs : List Byte) :
    Gives AnyTrap State.Canonical (s.tileStore who b o t dst cs bs) :=
  gives_bind (gives_any _) fun _ _ => canonical_performed h b o who _

theorem canonical_tileRow (h : s.Canonical) (b : Block) (o : EngOp) (p : Part) : (s.tileRow b o p).1.Canonical := by
  have hstat := fun {t : State} (ht : t.Canonical) who code fail => canonical_writeStat ht who b o o.grp 0 (o.opa.getD 0 0) 52 code fail
  unfold State.tileRow
  dsimp only
  split
  · exact canonical_ite (hstat h _ _ _) (canonical_count (hstat h _ _ _) _ _ _ _ _)
  · split
    · exact canonical_count (hstat h _ _ _) _ _ _ _ _
    · next t he =>
      have ht : t.Canonical := gives_ok (gives_bind (gives_any _) fun r _ => gives_bind (gives_tileStore h _ b o _ _ _ _) fun u hu =>
        gives_pure (canonical_modOp hu b.id 0 o.num _)) he
      split
      · exact ht
      · have hclear := fun who spc n dst => canonical_rowCleared ht who b 0 spc n dst
        have hlast := fun (c : Prop) [Decidable c] who code fail who' spc n dst => canonical_ite (c := c) (hstat (hclear who' spc n dst) who code fail) (hclear who' spc n dst)
        have hcount := fun c [Decidable c] who code fail who' spc n dst w k m cl => canonical_count (hlast c who code fail who' spc n dst) w b k m cl
        split
        · next hx => exact (congrArg (fun x : State × Option Trap => x.1.Canonical) hx).mp (hcount _ _ _ _ _ _ _ _ _ _ _ _)
        · next hx => exact canonical_count (hstat ((congrArg (fun x : State × Option Trap => x.1.Canonical) hx).mp (hcount _ _ _ _ _ _ _ _ _ _ _ _)) _ _ _) _ _ _ _ _

theorem keeps_copyRow (h : s.Canonical) (blk op slice : Nat) : Keeps (execCopyRow blk op slice s) := by
  have hend := fun {t : State} (ht : t.Canonical) f => canonical_modOp ht blk 0 op f
  unfold execCopyRow
  split
  · exact h
  · next b _ =>
    split
    · exact h
    · next o _ =>
      split
      · exact h
      · dsimp only
        split
        · exact hend h _
        · next p _ =>
          have hrow : (if isCpb o.instr then s.sliceRow b o p else s.tileRow b o p).1.Canonical := by
            split
            · exact canonical_sliceRow h b o p
            · exact canonical_tileRow h b o p
          split
          · exact hend h _
          · exact hend (hend hrow _) _

end

end Sys2Proof.Proofs.Canon
end

section
/-! SUPPORT. What keeps the stores canonical (log entry 1): the Virga engines, and the messages of handles. -/

namespace Sys2Proof.Proofs.Canon

open Sys2Proof Sys2Proof.Machine Sys2Proof.Laws

section
variable {s : State}

/-! ## The device's writes (R311) -/

theorem gives_devWrite (h : s.Canonical) (who : Who) (a : Word) (bs : List Byte) : Gives AnyTrap State.Canonical (s.devWrite who a bs) := by
  unfold State.devWrite
  split
  · exact gives_pure (canonical_unpin (canonical_perform (canonical_request h _ _) _ _ _) _)
  · trivial

/-! ## Virga (R374-R388) -/

/-- What an engine has come to leaves canonical stores. -/
inductive DoneOk : VgDone → Prop
  | other : DoneOk .other
  | did {t : State} (h : t.Canonical) : DoneOk (.did t)
  | stop {t : State} {e : VgStop} (h : t.Canonical) : DoneOk (.stop t e)

theorem canonical_modVg (h : s.Canonical) (blk num : Nat) (f : VgCmd → VgCmd) : (s.modVg blk num f).Canonical := h

theorem canonical_violate (h : s.Canonical) (ctx chan hd o : Nat) : (s.violate ctx chan hd o).Canonical :=
  canonical_log (s := { s with viol := SMap.set (0, 0) s.viol (chan * 64 + ctx) (o, hd) }) h 5 ctx _

theorem canonical_countMis (h : s.Canonical) (ch : Nat) : (s.countMis ch).Canonical := h

theorem gives_vgAccess (h : s.Canonical) (c : VgCmd) (hd o n : Nat) (rights : List Nat) (write : Bool) :
    Gives (fun e : State × VgStop => e.1.Canonical) (fun _ => True) (s.vgAccess c hd o n rights write) :=
  gives_ite (canonical_violate h _ _ _ _) (gives_ite h (gives_ite h trivial))

theorem gives_error {ε α : Type} {P : ε → Prop} {Q : α → Prop} {e : Except ε α} {x : ε} (h : Gives P Q e) (he : e = .error x) : P x := by
  rw [he] at h
  exact h

theorem canonical_vgStop (h : s.Canonical) {c : VgCmd} {hd o n : Nat} {rights : List Nat} {write : Bool} {e : State × VgStop}
    (he : s.vgAccess c hd o n rights write = .error e) : e.1.Canonical := gives_error (P := fun e : State × VgStop => e.1.Canonical) (gives_vgAccess h c hd o n rights write) he

theorem doneOk_ite {c : Prop} [Decidable c] {x y : VgDone} (hx : DoneOk x) (hy : DoneOk y) : DoneOk (if c then x else y) := by
  split
  · exact hx
  · exact hy

theorem canonical_logLines (h : s.Canonical) (who : Who) (pa n : Nat) : (s.logLines who pa n).Canonical :=
  canonical_foldl h (fun _ _ hs => canonical_ite (canonical_undoLog hs who _ 1) hs) _

theorem canonical_vgWrite (h : s.Canonical) (c : VgCmd) (l : Loc) (bs : List Byte) : (s.vgWrite c l bs).Canonical := by
  unfold State.vgWrite
  dsimp only
  split
  · exact canonical_performOp (canonical_logLines h _ _ _) _ _ _ _ _
  · exact canonical_perform (canonical_logLines h _ _ _) _ _ _

theorem doneOk_vgAttn (h : s.Canonical) (c : VgCmd) (p : VgPart) (g : Nat) : DoneOk (s.vgAttn c p g) := by
  unfold State.vgAttn
  dsimp only
  split
  · next he => exact .stop (canonical_vgStop h he)
  · refine doneOk_ite (.stop (canonical_violate h _ _ _ _)) (doneOk_ite (.stop h) (doneOk_ite .other ?_))
    split
    · next he => exact .stop (canonical_vgStop h he)
    · refine doneOk_ite (.stop h) (.did (canonical_modVg ?_ _ _ _))
      exact canonical_ite (canonical_countMis h _) h

theorem doneOk_vgAxpy (h : s.Canonical) (c : VgCmd) (p : VgPart) (i : Nat) : DoneOk (s.vgAxpy c p i) := by
  unfold State.vgAxpy
  dsimp only
  refine doneOk_ite (.stop h) (doneOk_ite .other ?_)
  split
  · next he => exact .stop (canonical_vgStop h he)
  · next he => exact .stop (canonical_vgStop h he)
  · refine doneOk_ite (.stop h) (doneOk_ite (.stop h) (.did (canonical_modVg (canonical_vgWrite ?_ c _ _) _ _ _)))
    exact canonical_ite (canonical_countMis h _) h

theorem canonical_vgRun (h : s.Canonical) (blk num chan fuel budget : Nat) : (s.vgRun blk num chan fuel budget).Canonical := by
  induction fuel generalizing s budget with
  | zero => exact h
  | succ fuel ih =>
    unfold State.vgRun
    split
    · exact h
    · next c _ =>
      split
      · exact h
      · next p _ =>
        have hdone : DoneOk (if c.blkOf.attn then s.vgAttn c p p.next else s.vgAxpy c p p.next) := by
          split
          · exact doneOk_vgAttn h c p _
          · exact doneOk_vgAxpy h c p _
        split
        · exact h
        · split
          · exact h
          · dsimp only
            split
            · exact ih (canonical_modVg h _ _ _) budget
            · next t he =>
              obtain ⟨⟩ | ⟨ht⟩ | ⟨ht⟩ := he ▸ hdone
              exact ih (canonical_modVg ht _ _ _) _
            · next t e he =>
              obtain ⟨⟩ | ⟨ht⟩ | ⟨ht⟩ := he ▸ hdone
              exact canonical_modVg ht _ _ _

theorem canonical_vgEnd (h : s.Canonical) (c : VgCmd) (fl : Flags) : (s.vgEnd c fl).Canonical := by
  have hleft : ∀ l, (State.unpin { s with vgcmds := l } c.agent).Canonical := fun _ => h
  exact canonical_modOp (hleft _) _ _ _ _

theorem canonical_vgRecord (h : s.Canonical) (c : VgCmd) (code chan : Nat) (addr : Word) : (s.vgRecord c code chan addr).Canonical := by
  have hwrite := fun who a bs => gives_devWrite h who a bs
  unfold State.vgRecord
  dsimp only
  split
  · next he => exact gives_ok (hwrite _ _ _) he
  · split
    · exact canonical_logFate h _ _ _ _ _ _
    · exact canonical_logFate h _ _ _ _ _ _

/-- The error of a Virga command carries the machine as it stands. -/
abbrev StopOk (e : State × VgStop) : Prop := e.1.Canonical

theorem gives_vgReadWords (h : s.Canonical) (c : VgCmd) (hd o n : Nat) : Gives StopOk (fun _ => True) (s.vgReadWords c hd o n) :=
  gives_foldlM (fun acc j _ => by
    split
    · trivial
    · next he => exact canonical_vgStop h he) _ trivial

theorem gives_vgPlaces (h : s.Canonical) (c : VgCmd) (hd o w n : Nat) : Gives StopOk (fun _ => True) (s.vgPlaces c hd o w n) :=
  gives_foldlM (fun acc j _ => by
    split
    · trivial
    · next he => exact canonical_vgStop h he) _ trivial

theorem gives_vgInitial (h : s.Canonical) (c : VgCmd) : Gives StopOk (fun _ => True) (s.vgInitial c) := by
  unfold State.vgInitial
  dsimp only
  split
  · exact gives_foldlM (fun acc r _ => by
      split
      · trivial
      · next he => exact gives_error (P := StopOk) (gives_vgReadWords h c _ _ _) he) _ trivial
  · trivial

theorem gives_vgMerge (h : s.Canonical) (c : VgCmd) : Gives StopOk (fun r : State × Nat × Flags => r.1.Canonical) (s.vgMerge c) := by
  unfold State.vgMerge
  refine gives_bind (gives_vgInitial h c) fun init _ => ?_
  refine gives_bind (gives_vgPlaces h c _ _ _ _) fun out _ => ?_
  dsimp only
  split
  · exact gives_bind (gives_vgPlaces h c _ _ _ _) fun st _ => gives_pure (canonical_clearCovered (canonical_foldl (canonical_foldl h
      (fun _ _ hs => canonical_vgWrite hs c _ _) _) (fun _ _ hs => canonical_vgWrite hs c _ _) _) _)
  · exact gives_pure (canonical_clearCovered (canonical_foldl (canonical_foldl h
      (fun _ _ hs => canonical_vgWrite hs c _ _) _) (fun _ _ hs => canonical_vgWrite hs c _ _) _) _)

theorem keeps_virgaMerge (h : s.Canonical) (blk op : Nat) : Keeps (execVirgaMerge blk op s) := by
  have hended := fun {t : State} (ht : t.Canonical) c code chan addr fl => keeps_next (canonical_vgEnd (canonical_vgRecord ht c code chan addr) c fl)
  unfold execVirgaMerge
  split
  · exact h
  · next c _ =>
    have hmerge := gives_vgMerge h c
    split
    · exact h
    · split
      · exact keeps_next (canonical_vgEnd h c 0)
      · split
        · exact hended h c _ _ _ _
        · split
          · exact hended h c _ _ _ _
          · split
            · exact hended h c _ _ _ _
            · split
              · exact hended h c _ _ _ _
              · split
                · next he => exact hended (gives_error (P := StopOk) hmerge he) c _ _ _ _
                · next he =>
                  have hmerged := gives_ok hmerge he
                  exact hended hmerged c _ _ _ _

theorem keeps_virgaWave (h : s.Canonical) (blk op chan : Nat) : Keeps (execVirgaWave blk op chan s) := by
  unfold execVirgaWave
  split
  · exact h
  · split
    · exact h
    · have hbanks : ∀ l, State.Canonical { s with banks := l } := fun _ => h
      exact keeps_next (canonical_vgRun (hbanks _) _ _ _ _ _)

theorem keeps_virgaWindowEnd (h : s.Canonical) (chan : Nat) : Keeps (execVirgaWindowEnd chan s) := by
  refine keeps_next ?_
  split
  · exact h
  · exact h

theorem keeps_bankServiceEnd (h : s.Canonical) (chan : Nat) : Keeps (execBankServiceEnd chan s) := by
  refine keeps_next ?_
  split
  · exact h
  · exact h

theorem keeps_vgcmdStart (h : s.Canonical) (blk op : Nat) : Keeps (execVgcmdStart blk op s) := by
  unfold execVgcmdStart
  split
  · exact h
  · split
    · exact h
    · split
      · exact h
      · dsimp only
        have hrun := fun f => canonical_modOp h blk 3 op f
        split
        · exact hrun _
        · split
          · exact hrun _
          · split
            · exact hrun _
            · split
              · exact hrun _
              · exact hrun _

/-! ## Messages (R358-R372) -/

theorem canonical_arrival {k : Nat} {m : Msg} {t : State} (h : s.Canonical) (ha : s.arrival k = some (m, t)) : t.Canonical := by
  unfold State.arrival at ha
  split at ha
  · cases ha
  · split at ha
    · cases ha
      exact h
    · cases ha

theorem keeps_onArrival (h : s.Canonical) (k : Nat) {f : State → Msg → Option State} (hf : ∀ t m, t.Canonical → CanonicalOption (f t m)) : Keeps (s.onArrival k f) := by
  unfold State.onArrival
  split
  · exact h
  · next m t ha =>
    have ht := hf t m (canonical_arrival h ha)
    refine keeps_next ?_
    cases hr : f t m with
    | none => exact h
    | some u =>
      rw [hr] at ht
      exact ht

theorem canonical_setHSlot (h : s.Canonical) (x : HSlot) : (s.setHSlot x).Canonical := h

theorem canonical_answerAll (h : s.Canonical) (leaf : Nat) (ws : List Waiter) (vals : List Word) (c : Clock) : (s.answerAll leaf ws vals c).Canonical :=
  canonical_foldl h (fun _ _ hs => canonical_send hs _ _ _) ws

theorem canonical_sends {α : Type} (h : s.Canonical) (leaf : Nat) (dst : State → α → Nat) (m : State → α → MsgBody) (l : List α) :
    (l.foldl (fun s x => s.send leaf (dst s x) (m s x)) s).Canonical := canonical_foldl h (fun _ _ hs => canonical_send hs _ _ _) l

theorem canonical_resolveSlot (h : s.Canonical) (key : Nat) (v : Word) (place : Nat) (c : Clock) : (s.resolveSlot key v place c).Canonical :=
  canonical_foldl (canonical_answerAll (canonical_setHSlot h _) _ _ _ _) (fun _ _ hs => canonical_send hs _ _ _) _

theorem canonical_breakSlot (h : s.Canonical) (key : Nat) (origin : Word) (root : Nat) (c : Clock) : (s.breakSlot key origin root c).Canonical :=
  canonical_foldl (canonical_answerAll (canonical_setHSlot h _) _ _ _ _) (fun _ _ hs => canonical_send hs _ _ _) _

theorem canonical_forwardSlot (h : s.Canonical) (key : Nat) (own target : Word) (c : Clock) : (s.forwardSlot key own target c).Canonical := by
  unfold State.forwardSlot
  dsimp only
  split
  · split
    · exact h
    · exact canonical_breakSlot h _ _ _ _
  · exact canonical_send (canonical_foldl (canonical_foldl (canonical_setHSlot h _) (fun _ _ hs => canonical_send hs _ _ _) _) (fun _ _ hs => canonical_send hs _ _ _) _) _ _ _

theorem canonical_deliver (h : s.Canonical) (k : Nat) (v : List Word) (c : Clock) : (s.deliver k v c).Canonical := canonical_map h fun _ => rfl

theorem canonical_register (h : s.Canonical) (leaf : Nat) (hd : Word) (w : Waiter) (via : List Word) : (s.register leaf hd w via).Canonical := by
  unfold State.register
  split
  · split
    · exact h
    · exact canonical_send (canonical_breakAll h _ _ _ _ _) _ _ _
  · dsimp only
    split
    · exact h
    · exact h
    · split
      · exact canonical_send (canonical_breakAll h _ _ _ _ _) _ _ _
      · exact h
    · exact h
    · exact h

theorem keeps_invocationArrival (h : s.Canonical) (k : Nat) : Keeps (execInvocationArrival k s) :=
  keeps_onArrival h k fun t m ht => by
    split
    · exact ht
    · exact canonical_reach ht _ _ _ _ _
    · trivial

theorem keeps_hwaitRegistration (h : s.Canonical) (k : Nat) : Keeps (execHwaitRegistration k s) :=
  keeps_onArrival h k fun t m ht => by
    split
    · exact canonical_register ht _ _ _ _
    · trivial

theorem keeps_hwaitAnswer (h : s.Canonical) (k : Nat) : Keeps (execHwaitAnswer k s) :=
  keeps_onArrival h k fun t m ht => by
    split
    · split
      · trivial
      · exact canonical_deliver ht _ _ _
    · trivial

theorem keeps_resolutionArrival (h : s.Canonical) (k : Nat) : Keeps (execResolutionArrival k s) :=
  keeps_onArrival h k fun t m ht => by
    split
    · exact canonical_ite (canonical_resolveSlot ht _ _ _ _) ht
    · trivial

theorem keeps_forwardArrival (h : s.Canonical) (k : Nat) : Keeps (execForwardArrival k s) :=
  keeps_onArrival h k fun t m ht => by
    split
    · exact canonical_ite (canonical_forwardSlot ht _ _ _ _) ht
    · exact canonical_reach ht _ _ _ _ _
    · trivial

theorem keeps_breakArrival (h : s.Canonical) (k : Nat) : Keeps (execBreakArrival k s) :=
  keeps_onArrival h k fun t m ht => by
    split
    · exact canonical_ite (canonical_breakSlot ht _ _ _ _) ht
    · trivial

theorem canonicalOption_ite {c : Prop} [Decidable c] {x y : Option State} (hx : CanonicalOption x) (hy : CanonicalOption y) : CanonicalOption (if c then x else y) := by
  split
  · exact hx
  · exact hy

theorem keeps_forwardProbe (h : s.Canonical) (k : Nat) : Keeps (execForwardProbe k s) :=
  keeps_onArrival h k fun t m ht => by
    split
    · split
      · exact canonical_breakAll ht _ _ _ _ _
      · next o hd path _ _ =>
        -- `split` does not get past the pattern 0xFFFD: the last case goes by the test that the match makes of it
        cases (t.hslot (handleKey hd)).state with
        | free => exact ht
        | pending => exact canonical_ite (canonical_setHSlot ht _) ht
        | forwarded target =>
          refine canonicalOption_ite ht ?_
          exact canonicalOption_ite ht (canonicalOption_ite (canonical_breakAll (canonical_setHSlot ht _) _ _ _ _ _) ht)
        | resolved v place => exact ht
        | broken b n =>
          by_cases hn : n = 0xFFFD
          · subst hn
            exact canonical_ite (canonical_breakAll ht _ _ _ _ _) ht
          · set_option smartUnfolding false in
            exact (congrArg CanonicalOption (dif_neg hn)).mpr ht
    · trivial

theorem keeps_homeAnswer (h : s.Canonical) (k : Nat) : Keeps (execHomeAnswer k s) :=
  keeps_onArrival h k fun t m ht => by
    split
    · split
      · exact ht
      · exact ht
    · exact canonical_deliver ht _ _ _
    · split
      · exact canonical_deliver ht _ _ _
      · trivial
    · trivial

theorem keeps_hfreeArrival (h : s.Canonical) (k : Nat) : Keeps (execHfreeArrival k s) :=
  keeps_onArrival h k fun t m ht => by
    split
    · next hd w _ =>
      have hfree := gives_freeHandle ht w.ctx hd
      split
      · exact ht
      · next u he =>
        have hu := gives_ok hfree he
        exact hu
    · trivial

end

end Sys2Proof.Proofs.Canon
end

section
/-! SUPPORT. What keeps the stores canonical (log entry 1): Zenith's starts, stops and ends. -/

namespace Sys2Proof.Proofs.Canon

open Sys2Proof Sys2Proof.Machine Sys2Proof.Laws

section
variable {s : State}

/-! ## Completion words and held arms (R334, R335) -/

theorem canonical_writeComp (h : s.Canonical) (ctx : Nat) (comp : Word) (status lid : Nat) (c : Clock) : (s.writeComp ctx comp status lid c).Canonical := by
  have hnext : State.Canonical { s with nextAgent := s.nextAgent + 1 } := h
  unfold State.writeComp
  split
  · exact h
  · dsimp only
    split
    · next he =>
      have hwritten := gives_ok (gives_devWrite hnext _ _ _) he
      exact hwritten
    · exact canonical_logFate hnext _ _ _ _ _ _

theorem canonical_writeStats (h : s.Canonical) (g : Grid) : (s.writeStats g).Canonical := by
  have hnext : State.Canonical { s with nextAgent := s.nextAgent + 1 } := h
  unfold State.writeStats
  dsimp only
  split
  · next he =>
    have hwritten := gives_ok (gives_devWrite hnext _ _ _) he
    exact hwritten
  · exact canonical_logFate hnext _ _ _ _ _ _

theorem canonical_rejectRecord (h : s.Canonical) (ctx : Nat) (bs : List Byte) (n : Nat) : (s.rejectRecord ctx bs n).Canonical :=
  canonical_logFate (canonical_ite (canonical_writeComp h _ _ _ _ _) h) _ _ _ _ _ _

theorem canonical_acceptGrid (h : s.Canonical) (c : Context) (r : LRec) (src : LSource) (die : Nat) (clock : Clock) (x : Option (Word × Word)) :
    (s.acceptGrid c r src die clock x).1.Canonical := h

theorem canonical_fire (h : s.Canonical) (e : ArmEnt) (len : Nat) (c : Clock) : (s.fire e len c).Canonical := by
  have harmed : ∀ l, State.Canonical { s with armed := l } := fun _ => h
  unfold State.fire
  dsimp only
  split
  · exact h
  · split
    · exact canonical_logFate (harmed _) _ _ _ _ _ _
    · split
      · exact canonical_rejectRecord (harmed _) _ _ _
      · exact h

theorem canonical_fireSome (h : s.Canonical) (n : Nat) : (s.fireSome n).Canonical := by
  induction n generalizing s with
  | zero => exact h
  | succ n ih =>
    unfold State.fireSome
    split
    · exact h
    · split
      · exact ih (canonical_fire h _ _ _)
      · exact h

theorem canonical_fireHeld (h : s.Canonical) : s.fireHeld.Canonical := canonical_fireSome h _

/-! ## Starts (R317-R332) -/

theorem canonical_refilled (h : s.Canonical) : s.refilled.Canonical := by
  obtain ⟨l, hl⟩ := Starts.refilled_eq s
  rw [hl]
  exact h

theorem canonical_spend (h : s.Canonical) (ctx n : Nat) : (s.spend ctx n).Canonical := h

theorem canonical_added (h : s.Canonical) (b : Block) (hb : StoresOk [b]) : State.Canonical { s with blocks := s.blocks ++ [b] } :=
  canonical_with h (storesOk_append (canonical_blocks h) hb)

theorem canonical_startBlock (h : s.Canonical) (g : Grid) (lin cluster span idx : Nat) : (s.startBlock g lin cluster span idx).Canonical :=
  canonical_added h _ fun b hb => by
    obtain rfl := List.mem_singleton.1 hb
    exact ⟨rfl, rfl, rfl, rfl⟩

theorem canonical_takeArgs (h : s.Canonical) (id : Nat) (r : LRec) (x : Option (Word × Word)) : (s.takeArgs id r x).Canonical := by
  unfold State.takeArgs
  split
  · exact h
  · refine canonical_foldl h (fun t i ht => ?_) _
    split
    · split
      · exact ht
      · split
        · exact canonical_modGroup ht _ _
        · exact canonical_abortBlock (canonical_modGroup ht _ _) _ _ _ _
    · exact ht

theorem canonical_startSpan (h : s.Canonical) (g : Grid) (lin : Nat) (clusters : List Nat) : (s.startSpan g lin clusters).Canonical := by
  have hspan : ∀ n l, State.Canonical { s with nextId := n, spans := l } := fun _ _ => h
  exact canonical_foldl (canonical_spend (canonical_modGrid (canonical_foldl (hspan _ _) (fun _ _ ht => canonical_startBlock ht g _ _ _ _) _) _ _) _ _)
    (fun _ _ ht => canonical_takeArgs ht _ _ _) _

theorem canonical_startHandler (h : s.Canonical) (x : PendH) : (s.startHandler x).Canonical :=
  canonical_added h _ fun b hb => by
    obtain rfl := List.mem_singleton.1 hb
    exact ⟨wf_setMany (by rfl) _ _, rfl, rfl, rfl⟩

theorem keeps_blockStart (h : s.Canonical) (cluster : Nat) : Keeps (execBlockStart cluster s) := by
  have hfill := canonical_refilled h
  unfold execBlockStart
  dsimp only
  split
  · exact h
  · split
    · split
      · exact keeps_next (canonical_startSpan hfill _ _ _)
      · exact h
    · exact h

theorem keeps_handlerStart (h : s.Canonical) (k : Nat) : Keeps (execHandlerStart k s) := by
  have hfill := canonical_refilled h
  have htaken : ∀ l, State.Canonical { s.refilled with pendH := l } := fun _ => hfill
  unfold execHandlerStart
  dsimp only
  split
  · split
    · exact keeps_next (canonical_fireHeld (canonical_spend (canonical_startHandler (htaken _) _) _ _))
    · exact h
  · exact h

theorem keeps_restoration (h : s.Canonical) (blk cluster : Nat) : Keeps (execRestoration blk cluster s) := by
  have hfill := canonical_refilled h
  unfold execRestoration
  dsimp only
  split
  · exact h
  · split
    · split
      · exact h
      · split
        · exact h
        · exact keeps_next (canonical_spend (canonical_foldl hfill (fun _ _ ht => canonical_modBlock ht _ fun _ => by rfl) _) _ _)
    · exact h

/-! ## Stops (R324-R332, R399-R403) -/

theorem stores_stopAtPoints (b : Block) : blockStores b.stopAtPoints = blockStores b := by
  unfold Block.stopAtPoints
  exact stores_foldl (fun (b : Block) (o : EngOp) => (stores_foldl (fun _ _ => by rfl) o.arrived (b.modOp 1 o.num _)).trans (by rfl)) _ b

theorem canonical_saveBlock (h : s.Canonical) (id why : Nat) : (s.saveBlock id why).Canonical := by
  have hjobs : ∀ l, State.Canonical { s with binJobs := l } := fun _ => h
  have hsaved := fun f hf => canonical_modBlock (hjobs (s.binJobs.filter fun j => j.blk != id)) id (f := f) hf
  exact hsaved _ fun b => stores_stopAtPoints b

theorem canonical_saveIf (h : s.Canonical) (id : Nat) : (s.saveIf id).Canonical := by
  unfold State.saveIf
  split
  · exact canonical_ite (canonical_saveBlock h _ _) h
  · exact h

theorem canonical_flush (h : s.Canonical) (b : Block) : (s.flush b).Canonical := canonical_modGrid (canonical_dropBlock h b.id) b.grid _

theorem canonical_displace (h : s.Canonical) (b : Block) : (s.displace b).Canonical :=
  canonical_ite (canonical_foldl h (fun _ _ ht => canonical_flush ht _) _) (canonical_foldl h (fun _ _ ht => canonical_modBlock ht _ fun _ => by rfl) _)

theorem keeps_preemption (h : s.Canonical) (blk : Nat) : Keeps (execPreemption blk s) := by
  unfold execPreemption
  split
  · exact h
  · split
    · exact h
    · exact keeps_next (canonical_saveIf (canonical_modBlock h _ fun _ => by rfl) _)

theorem keeps_forcedPreemption (h : s.Canonical) (blk : Nat) : Keeps (execForcedPreemption blk s) := by
  unfold execForcedPreemption
  split
  · exact h
  · split
    · exact h
    · split
      · exact h
      · exact keeps_next (canonical_saveIf (canonical_modBlock h _ fun _ => by rfl) _)

theorem keeps_eviction (h : s.Canonical) (blk : Nat) : Keeps (execEviction blk s) := by
  unfold execEviction
  split
  · exact h
  · dsimp only
    split
    · exact keeps_next (canonical_foldl h (fun _ _ ht => canonical_saveBlock ht _ _) _)
    · exact h

theorem keeps_suspension (h : s.Canonical) (ctx : Nat) : Keeps (execSuspension ctx s) :=
  keeps_next (canonical_foldl (canonical_modCtx h ctx _) (fun _ _ ht => canonical_ite (canonical_displace ht _) ht) _)

theorem keeps_driverKill (h : s.Canonical) (gid : Nat) : Keeps (execDriverKill gid s) := by
  unfold execDriverKill
  split
  · exact h
  · split
    · exact h
    · split
      · exact keeps_next (canonical_abortBlock h _ _ _ _)
      · exact keeps_next (canonical_logFate (canonical_modGrid h gid _) _ _ _ _ _ _)

theorem canonical_freeHandles (h : s.Canonical) (ctx : Nat) : (s.freeHandles ctx).Canonical := h

theorem keeps_contextDestroy (h : s.Canonical) (ctx : Nat) : Keeps (execContextDestroy ctx s) := by
  have hdropped : ((s.dropBlocks fun b => b.ctx == ctx).freeHandles ctx).Canonical := canonical_freeHandles (canonical_dropBlocks h _) ctx
  exact keeps_next (canonical_fireHeld (canonical_with hdropped (canonical_blocks hdropped)))

theorem keeps_candidateHold (h : s.Canonical) : Keeps (execCandidateHold s) := by
  have hheld : ∀ (u : State) l, u.Canonical → State.Canonical { u with saveHeld := l } := fun _ _ hu => hu
  have hlogged : ∀ t (c : Cand), State.Canonical t → State.Canonical { t.logFate c.ctx 0 (s.candLid c) c.lin 0 0 with saveHeld := c.entry :: t.saveHeld } :=
    fun t c ht => hheld (t.logFate c.ctx 0 (s.candLid c) c.lin 0 0) (c.entry :: t.saveHeld) (canonical_logFate ht _ _ _ _ _ _)
  exact canonical_foldl h hlogged s.saveDue

theorem keeps_pri0Displacement (h : s.Canonical) : Keeps (execPri0Displacement s) := by
  have hreserved : ∀ l, State.Canonical { s with reserved := l } := fun _ => h
  unfold execPri0Displacement
  split
  · exact h
  · exact keeps_next (canonical_foldl (hreserved _) (fun _ _ ht => canonical_ite (canonical_displace ht _) ht) _)

/-! ## Ends (R333-R341) -/

theorem keeps_completionWrite (h : s.Canonical) (gid : Nat) : Keeps (execCompletionWrite gid s) := by
  unfold execCompletionWrite
  split
  · exact h
  · next g _ =>
    split
    · exact h
    · have hstats : ∀ (c : Prop) [Decidable c], (if c then s.writeStats g else s).Canonical := fun c _ => canonical_ite (canonical_writeStats h g) h
      have hcomp := fun c [Decidable c] status cl => canonical_writeComp (hstats c) g.ctx g.lrec.comp status g.lid cl
      exact keeps_next (canonical_fireHeld (canonical_with (hcomp _ _ _) (canonical_blocks (hcomp _ _ _))))

theorem keeps_atomoApplication (h : s.Canonical) (gid : Nat) : Keeps (execAtomoApplication gid s) := by
  unfold execAtomoApplication
  split
  · exact h
  · split
    · exact h
    · split
      · exact h
      · exact keeps_next (canonical_unpin (canonical_perform (canonical_modGrid h gid _) _ _ _) _)

end

end Sys2Proof.Proofs.Canon
end

section
/-! SUPPORT. What keeps the stores canonical (log entry 1): queues, connections, errors, resets, and the end of a step. -/

namespace Sys2Proof.Proofs.Canon

open Sys2Proof Sys2Proof.Machine Sys2Proof.Laws Sys2Proof.Proofs.Queues

section
variable {s t : State}

/-! ## Control blocks and the host's writes (R333-R338, R372) -/

theorem canonical_logged (h : s.Canonical) (hl : Logged s t) : t.Canonical := by
  obtain ⟨_, _, _, -, rfl⟩ := hl
  exact h

theorem canonical_setCbField (h : s.Canonical) (r : Ring) (o k v : Nat) : (s.setCbField r o k v).Canonical :=
  canonical_setBytes (canonical_logged h (logged_logAll s _ _)) _ _

theorem canonical_interrupt (h : s.Canonical) : s.interrupt.Canonical := h

theorem canonical_lap (h : s.Canonical) (r : Ring) (n : Nat) : (s.lap r n).Canonical :=
  canonical_interrupt (canonical_log (canonical_setCbField (canonical_setCbField (canonical_setCbField h r _ _ _) r _ _ _) r _ _ _) _ _ _)

theorem canonical_hostWrite (h : s.Canonical) (pa : Nat) (bs : List Byte) : (s.hostWrite pa bs).Canonical :=
  canonical_unpin (canonical_perform (canonical_logged h (logged_logAll s _ _)) _ _ _) _

theorem keeps_hostQueueRecord (h : s.Canonical) (q : Nat) : Keeps (execHostQueueRecord q s) := by
  unfold execHostQueueRecord
  split
  · exact h
  · next r _ =>
    split
    · exact h
    · split
      · exact h
      · split
        · exact keeps_next (canonical_lap h _ _)
        · dsimp only
          split
          · exact keeps_next (canonical_rejectRecord (canonical_setCbField h r 16 4 _) _ _ _)
          · split
            · exact keeps_next (canonical_interrupt (canonical_setCbField h r 31 1 _))
            · exact keeps_next (canonical_acceptGrid (canonical_setCbField h r 16 4 _) _ _ _ _ _ _)

theorem keeps_queueResume (h : s.Canonical) (ring : Bool) (q : Nat) : Keeps (execQueueResume ring q s) := by
  unfold execQueueResume
  split
  · exact h
  · exact keeps_next (canonical_hostWrite h _ _)

theorem keeps_queueBinding (h : s.Canonical) (ring : Bool) (q ctx cb : Nat) : Keeps (execQueueBinding ring q ctx cb s) := by
  unfold execQueueBinding
  split
  · exact h
  · dsimp only
    split
    · split
      · exact h
      · exact h
    · split
      · exact h
      · exact h

theorem keeps_hostAccess (h : s.Canonical) (write : Bool) (pa : Nat) (bytes : List (BitVec 8)) : Keeps (execHostAccess write pa bytes s) := by
  unfold execHostAccess
  split
  · exact h
  · split
    · exact h
    · exact keeps_next (canonical_hostWrite h _ _)

/-! ## Tagged messages and frames (R339-R341, R369-R371) -/

theorem canonical_piece (ctx : Nat) (who : Who) (payload : List Byte) (r : State × Bool) (x : (Word × Nat) × Nat) (h : r.1.Canonical) :
    (Links.writePiece ctx who payload r x).1.Canonical := by
  have hwrite := gives_devWrite h who x.1.1 ((payload.drop (8 * x.2)).take x.1.2)
  unfold Links.writePiece
  split
  · next he =>
    have hwritten := gives_ok hwrite he
    exact hwritten
  · exact canonical_ite h (canonical_logFate h _ _ _ _ _ _)

theorem canonical_paid (h : s.Canonical) (ctx : Nat) (e : ArmEnt) (data : List Byte) : (Links.paid s ctx e data).Canonical := by
  have hnext : State.Canonical { s with nextAgent := s.nextAgent + 1 } := h
  exact canonical_foldl_fst (f := Links.writePiece ctx _ data) hnext (fun r x hr => canonical_piece ctx _ data r x hr) _ false

theorem canonical_takes (h : s.Canonical) (e : ArmEnt) (len : Nat) (c : Clock) : (Links.takes e len c s).1.Canonical := by
  have harmed : ∀ l, State.Canonical { s with armed := l } := fun _ => h
  unfold Links.takes
  by_cases hc : s.storeFull e.die = true
  · rw [if_pos hc]
    exact harmed _
  · rw [if_neg hc]
    exact canonical_fire h e len c

theorem canonical_taggedArrives (h : s.Canonical) (pkg ctx tag : Nat) (data : List Byte) : (s.taggedArrives pkg ctx tag data).1.Canonical := by
  cases hm : s.matchArm ctx tag data.length with
  | none =>
    unfold State.taggedArrives
    simp only [hm]
    exact canonical_log h _ _ _
  | some e =>
    have hpaid := canonical_paid h ctx e data
    rw [Links.arrives_eq hm]
    exact canonical_takes hpaid e _ _

theorem keeps_taggedMessage (h : s.Canonical) (pkg ctx : Nat) (tag : BitVec 32) (payload : List (BitVec 8)) : Keeps (execTaggedMessage pkg ctx tag payload s) := by
  unfold execTaggedMessage
  split
  · exact h
  · exact keeps_next (canonical_taggedArrives h _ _ _ _)

theorem canonical_setConn (h : s.Canonical) (c : Conn) : (s.setConn c).Canonical := h

theorem canonical_emit (h : s.Canonical) (f : Frame) : (s.emit f).Canonical := canonical_ite h h

theorem canonical_sendFrame (h : s.Canonical) (p : Nat) (ty cls : BitVec 8) (ctx : Nat) (bs : List Byte) : (s.sendFrame p ty cls ctx bs).1.Canonical :=
  canonical_emit (canonical_setConn h _) _

theorem canonical_sendChunks (h : s.Canonical) (p ctx n : Nat) (bs : List Byte) : (s.sendChunks p ctx n bs).1.Canonical := by
  obtain ⟨_, _, he⟩ := (sendChunks_sends p ctx n bs s).1
  rw [he]
  exact h

theorem canonical_sendDone (h : s.Canonical) (comp rptr status : Nat) : (s.sendDone comp rptr status).Canonical := by
  have hnext : State.Canonical { s with nextAgent := s.nextAgent + 1 } := h
  unfold State.sendDone
  split
  · exact h
  · exact canonical_unpin (canonical_perform (canonical_logged hnext (logged_logAll _ _ _)) _ _ _) _

theorem canonical_sendAck (h : s.Canonical) (p n : Nat) : (s.sendAck p n).Canonical := canonical_emit h _

theorem canonical_unreachable (h : s.Canonical) (m : Msg) : (s.unreachable m).Canonical := by
  have hbreak := fun hs o n c => canonical_breakAll h m.src hs o n c
  unfold State.unreachable
  split
  · exact hbreak _ _ _ _
  · dsimp only
    split
    · exact canonical_send (hbreak _ _ _ _) _ _ _
    · exact hbreak _ _ _ _
  · exact h
  · exact hbreak _ _ _ _
  all_goals exact h

theorem canonical_noteToward (h : s.Canonical) (p : Nat) (own hd : Word) : (s.noteToward p own hd).Canonical := canonical_ite h h

theorem canonical_sendFar (h : s.Canonical) (m : Msg) : (s.sendFar m).Canonical := by
  have htoward : (match m.body with
      | .place i _ => s.noteToward (m.dst / 128) i.own 0
      | .toHandle h i _ _ => s.noteToward (m.dst / 128) i.own h
      | _ => s).Canonical := by
    split
    · exact canonical_noteToward h _ _ _
    · exact canonical_noteToward h _ _ _
    · exact h
  unfold State.sendFar
  dsimp only
  split
  · refine canonical_sendFrame ?_ _ _ _ _ _
    split
    · exact canonical_ite htoward (canonical_setConn htoward _)
    · exact htoward
  · exact canonical_unreachable h m

theorem canonical_ask (h : s.Canonical) (p : Nat) (r : FarReq) : (s.ask p r).Canonical := by
  have hframe := canonical_sendFrame h p 0 reqClass 0 (Config.requestPayload r)
  exact canonical_ite (canonical_setConn hframe _) h

theorem canonical_flushFar (h : s.Canonical) : s.flushFar.Canonical := by
  have hmsgs : ∀ l, State.Canonical { s with msgs := l } := fun _ => h
  have hreqs : ∀ {t : State} l, t.Canonical → State.Canonical { t with reqs := l } := fun _ ht => ht
  exact canonical_foldl (hreqs _ (canonical_foldl (hmsgs _) (fun _ _ ht => canonical_sendFar ht _) _)) (fun _ _ ht => canonical_ask ht _ _) _

theorem canonical_takeAck (h : s.Canonical) (p : Nat) (f : Frame) : (s.takeAck p f).Canonical := by
  have hsent : ∀ l, State.Canonical { s with sent := l } := fun _ => h
  exact canonical_setConn (canonical_foldl (hsent _) (fun _ _ ht => canonical_sendDone ht _ _ _) _) _

theorem canonical_farRead (h : s.Canonical) (p pa n : Nat) : (s.farRead p pa n).Canonical := h

theorem canonical_farWrite (h : s.Canonical) (p pa : Nat) (bs : List Byte) (atomic : Bool) : (s.farWrite p pa bs atomic).Canonical := by
  have hwho : (s.farWho p).1.Canonical := h
  exact canonical_unpin (canonical_perform (canonical_logged hwho (logged_logAll _ _ _)) _ _ _) _

theorem canonical_serve (h : s.Canonical) (p seq : Nat) (r : FarReq) : (s.serve p seq r).Canonical := by
  have hread := fun pa n => canonical_farRead h p pa n
  unfold State.serve
  dsimp only
  split
  · exact canonical_ite (canonical_sendFrame (hread _ _) _ _ _ _ _) h
  · exact canonical_ite (canonical_sendFrame (canonical_farWrite h _ _ _ _) _ _ _ _ _) h
  · exact canonical_ite (canonical_sendFrame (canonical_farWrite (hread _ _) _ _ _ _) _ _ _ _ _) h
  · exact canonical_ite (canonical_sendFrame (canonical_farWrite (hread _ _) _ _ _ _) _ _ _ _ _) h

theorem canonical_answered (h : s.Canonical) (p seq : Nat) (bs : List Byte) : (s.answered p seq bs).Canonical := by
  have hconn := fun c => canonical_setConn h c
  unfold State.answered
  dsimp only
  split
  · exact canonical_ite (canonical_setBytes (hconn _) _ _) (hconn _)
  · exact hconn _

theorem canonical_takeFrame (h : s.Canonical) (p : Nat) (f : Frame) : (s.takeFrame p f).Canonical := by
  have hconn := fun c => canonical_setConn h c
  unfold State.takeFrame
  dsimp only
  split
  · split
    · exact canonical_sendAck (hconn _) _ _
    · exact canonical_sendAck (canonical_setConn (canonical_taggedArrives (hconn _) _ _ _ _) _) _ _
  · refine canonical_sendAck ?_ _ _
    split
    · split
      · split
        · exact h
        · exact h
      · exact h
    · split
      · split
        · exact canonical_serve (hconn _) _ _ _
        · exact hconn _
      · split
        · split
          · exact canonical_answered (hconn _) _ _ _
          · exact hconn _
        · exact hconn _

theorem canonical_takeAhead (h : s.Canonical) (p n : Nat) : (s.takeAhead p n).Canonical := by
  induction n generalizing s with
  | zero => exact h
  | succ n ih =>
    unfold State.takeAhead
    dsimp only
    split
    · exact h
    · exact ih (canonical_takeFrame (canonical_setConn h _) _ _)

/-! ## Errors (R408-R416) -/

theorem canonical_putError (h : s.Canonical) (n : Nat) (r : ErrRec) : (s.putError n r).Canonical := canonical_setBytes h _ _

theorem canonical_newError (h : s.Canonical) (e : ErrorInfo) : (s.newError e).Canonical := by
  have herrors : ∀ l n, State.Canonical { s with errors := l, errNext := n } := fun _ _ => h
  have hlogged := fun l n k r c d => canonical_log (canonical_putError (herrors l n) k r) 1 c d
  unfold State.newError
  dsimp only
  split
  · exact hlogged _ _ _ _ _ _
  · exact canonical_interrupt (hlogged _ _ _ _ _ _)

theorem canonical_recordError (h : s.Canonical) (e : ErrorInfo) : (s.recordError e).Canonical := by
  have herrors : ∀ l, State.Canonical { s with errors := l } := fun _ => h
  unfold State.recordError
  split
  · split
    · exact canonical_putError (herrors _) _ _
    · exact canonical_newError h e
  · exact canonical_newError h e

theorem canonical_linkError (h : s.Canonical) (sev : BitVec 2) : (s.linkError sev).Canonical := canonical_recordError h _

theorem canonical_failConn (h : s.Canonical) (p : Nat) : (s.failConn p).Canonical := by
  have hfailed : ∀ {t : State} l k, t.Canonical → State.Canonical { t with failed := l, sent := k } := fun _ _ ht => ht
  have hlog := fun c => canonical_log (canonical_setConn h c) 6 0 [p, 0, 0]
  exact canonical_foldl (canonical_foldl (canonical_foldl (canonical_foldl (hfailed _ _ (hlog _)) (fun _ _ ht => canonical_sendDone ht _ _ _) _)
    (fun _ _ ht => canonical_deliver ht _ _ _) _) (fun _ _ ht => canonical_breakSlot ht _ _ _ _) _) (fun _ _ ht => canonical_unreachable ht _) _

theorem canonical_freeze (h : s.Canonical) (n : Nat) : (s.freeze n).Canonical := by
  obtain ⟨l, hl⟩ := Faults.freeze_eq s n
  rw [hl]
  exact h

theorem canonical_countResidue (h : s.Canonical) (e : ErrorInfo) : (s.countResidue e).Canonical := canonical_ite h h

theorem canonical_contain (h : s.Canonical) (e : ErrorInfo) : (s.contain e).Canonical := by
  unfold State.contain
  split
  · exact canonical_ite h h
  · split
    · split
      · exact h
      · exact canonical_failConn h _
    · exact canonical_ite h h

theorem canonical_stopEngine (h : s.Canonical) (e : ErrorInfo) : (s.stopEngine e).Canonical := by
  unfold State.stopEngine
  split
  · refine canonical_map h fun b => ?_
    split
    · split
      · exact stores_stopOp _ _ _
      · rfl
    · rfl
  · exact h

theorem canonical_quench (h : s.Canonical) (ctx : Nat) : (s.quench ctx).Canonical := canonical_map h fun _ => by exact stores_ite rfl rfl

theorem canonical_discard (h : s.Canonical) (ctx : Nat) : (s.discard ctx).Canonical := by
  have hstates := canonical_foldl (f := fun (s : State) r => s.setCbState r 3) (canonical_freeHandles (canonical_dropBlocks (canonical_quench h ctx) fun b => b.ctx == ctx) ctx)
    (fun _ r ht => canonical_setCbField ht r 31 1 3)
  exact hstates _

theorem canonical_rollback (h : s.Canonical) (e : ErrorInfo) (c : Context) : (s.rollback e c).Canonical := by
  have htotals : (s.restoreTotals c).Canonical := h
  have hlines : ∀ {t : State} l, t.Canonical → State.Canonical { t with rollbacks := l } := fun _ ht => ht
  exact hlines _ (canonical_modCtx (canonical_discard htotals c.num) c.num _)

theorem canonical_error (h : s.Canonical) (e : ErrorInfo) : (s.error e).Canonical := by
  unfold State.error
  split
  · exact canonical_countResidue (canonical_recordError h e) e
  · exact canonical_contain (canonical_recordError h e) e
  · have hstopped := canonical_stopEngine (canonical_countResidue h e) e
    exact canonical_ite (canonical_recordError hstopped e) (canonical_foldl hstopped (fun _ _ ht => canonical_rollback ht e _) _)
  · exact canonical_freeze (canonical_recordError h e) 0

theorem keeps_errorDetected (h : s.Canonical) (e : ErrorInfo) : Keeps (execErrorDetected e s) := by
  have hparity : ∀ l, State.Canonical { s with parity := l } := fun _ => h
  have herased : ∀ {t : State} l, t.Canonical → Keeps (.next { t with parity := l }) := fun _ ht => ht
  unfold execErrorDetected
  split
  · exact h
  · split
    · dsimp only
      split
      · split
        · exact herased _ (canonical_error h e)
        · exact h
      · split
        · exact herased _ (canonical_error (hparity _) e)
        · exact h
    · exact keeps_next (canonical_error h e)

theorem keeps_bridgeFailure (h : s.Canonical) (a b : Nat) : Keeps (execBridgeFailure a b s) := by
  unfold execBridgeFailure
  split
  · exact keeps_next (canonical_error h _)
  · exact h

theorem keeps_frameReceive (h : s.Canonical) (f : Frame) : Keeps (execFrameReceive f s) := by
  have hack := canonical_takeAck h f.srcPkg.toNat f
  unfold execFrameReceive
  dsimp only
  split
  · exact h
  · split
    · exact keeps_next (canonical_linkError h _)
    · split
      · exact h
      · split
        · exact hack
        · split
          · exact keeps_next (canonical_sendAck hack _ _)
          · split
            · exact keeps_next (canonical_takeAhead (canonical_takeFrame hack _ _) _ _)
            · split
              · exact hack
              · exact keeps_next (canonical_setConn hack _)

theorem keeps_retransmit (h : s.Canonical) (pkg : Nat) : Keeps (execRetransmit pkg s) := by
  unfold execRetransmit
  dsimp only
  split
  · exact h
  · split
    · exact h
    · exact keeps_next (canonical_emit (canonical_setConn h _) _)

theorem keeps_connectionFailure (h : s.Canonical) (pkg : Nat) : Keeps (execConnectionFailure pkg s) := by
  unfold execConnectionFailure
  dsimp only
  split
  · exact h
  · split
    · exact h
    · split
      · exact keeps_next (canonical_linkError (canonical_failConn h _) _)
      · exact h

theorem keeps_connectionReestablished (h : s.Canonical) (pkg : Nat) : Keeps (execConnectionReestablished pkg s) := by
  unfold execConnectionReestablished
  split
  · exact h
  · exact h

theorem keeps_sendRingDescriptor (h : s.Canonical) (r : Nat) : Keeps (execSendRingDescriptor r s) := by
  have hsent : ∀ {t : State} l, t.Canonical → Keeps (.next { t with sent := l }) := fun _ ht => ht
  cases hq : s.rings.find? fun x => x.q == r with
  | none =>
    unfold execSendRingDescriptor
    rw [hq]
    exact h
  | some x =>
    have hread := fun v => canonical_setCbField h x 16 4 v
    cases hr : s.ringRuns x with
    | false =>
      unfold execSendRingDescriptor
      simp only [hq, hr, Bool.not_false, if_true]
      exact h
    | true =>
      cases hl : s.lapped x with
      | true =>
        unfold execSendRingDescriptor
        simp only [hq, hr, hl, Bool.not_true, Bool.false_eq_true, if_false, if_true]
        exact keeps_next (canonical_lap h _ _)
      | false =>
        show Keeps (exec (.sendRingDescriptor r) s)
        cases hm : sendMalformed (descAt s x) with
        | true =>
          rw [sendRing_malformed hq hr hl hm]
          exact keeps_next (canonical_logFate (canonical_sendDone (hread _) _ _ _) _ _ _ _ _ _)
        | false =>
          by_cases hd : recNum (descAt s x) 16 2 = s.pkg
          · rw [sendRing_here hq hr hl hm hd]
            exact keeps_next (canonical_sendDone (canonical_taggedArrives (hread _) _ _ _ _) _ _ _)
          · cases hk : s.linked (recNum (descAt s x) 16 2) with
            | false =>
              rw [sendRing_unlinked hq hr hl hm hd hk]
              exact keeps_next (canonical_sendDone (hread _) _ _ _)
            | true =>
              obtain ⟨bs, he⟩ := sendRing_sends hq hr hl hm hd hk
              rw [he]
              exact hsent _ (canonical_sendChunks (hread _) _ _ _ _)

theorem keeps_linkTraining (h : s.Canonical) (port : Nat) : Keeps (execLinkTraining port s) := by
  unfold execLinkTraining
  split
  · exact h
  · exact h

/-! ## The driver (R319, R376, R407) -/

theorem keeps_capabilityTableWrite (h : s.Canonical) (stack index : Nat) (entry : BitVec 128) : Keeps (execCapabilityTableWrite stack index entry s) := by
  unfold execCapabilityTableWrite
  split
  · exact h
  · exact h

theorem keeps_contextCreation (h : s.Canonical) (ctx : Nat) (desc : List (BitVec 8)) : Keeps (execContextCreation ctx desc s) := by
  unfold execContextCreation
  split
  · exact h
  · exact h

/-! ## Freeze, temperature, checkpoints (R417-R430) -/

theorem canonical_thermalMove (h : s.Canonical) : s.thermalMove.Canonical := by
  obtain ⟨l, hl⟩ := Faults.thermalMove_facts s
  rw [hl]
  exact h

theorem keeps_thermalStep (h : s.Canonical) (r : Reading) (sensor : Nat) : Keeps (execThermalStep r sensor s) := by
  have hheat : ∀ r, State.Canonical { s with heat := r } := fun _ => h
  exact keeps_next (canonical_thermalMove (hheat _))

theorem keeps_attestationRequest (h : s.Canonical) (nonce : List (BitVec 8)) : Keeps (execAttestationRequest nonce s) := by
  unfold execAttestationRequest
  split
  · exact h
  · exact h

theorem canonical_commitTo (h : s.Canonical) (ctx e : Nat) : (s.commitTo ctx e).Canonical :=
  canonical_map (canonical_modCtx h ctx _) fun _ => by exact stores_ite rfl rfl

theorem keeps_checkpointCommit (h : s.Canonical) : Keeps (execCheckpointCommit s) := by
  unfold execCheckpointCommit
  split
  · exact h
  · exact keeps_next (canonical_commitTo h _ _)
  · exact keeps_next (canonical_commitTo h _ _)

theorem canonical_clearPoison (h : s.Canonical) (pa n : Nat) : (s.clearPoison pa n).Canonical := h

theorem canonical_restoreLine (h : s.Canonical) (u : Undo) : (s.restoreLine u).Canonical := by
  have hnotes : ∀ {t : State} w r, t.Canonical → State.Canonical { t with writers := w, rels := r } := fun _ _ ht => ht
  exact hnotes _ _ (canonical_clearPoison (canonical_setBytes h _ _) u.line 128)

theorem canonical_endRollback (h : s.Canonical) (r : Rollback) (rest : List Rollback) : (s.endRollback r rest).Canonical := by
  have hrest : ∀ (c : Prop) [Decidable c] f, (if c then State.modCtx { s with rollbacks := rest } r.ctx f else { s with rollbacks := rest }).Canonical := fun c _ f =>
    canonical_ite (canonical_modCtx (s := { s with rollbacks := rest }) h r.ctx f) h
  exact canonical_fireHeld (canonical_log (canonical_foldl (hrest _ _) (fun _ _ ht => canonical_recordError ht _) _) _ _ _)

theorem canonical_recover (h : s.Canonical) : s.recover.Canonical := by
  have hlines : ∀ {t : State} l, t.Canonical → State.Canonical { t with rollbacks := l } := fun _ ht => ht
  unfold State.recover
  split
  · exact canonical_modCtx h _ _
  · split
    · exact h
    · split
      · exact hlines _ (canonical_restoreLine h _)
      · exact hlines _ (canonical_writeComp h _ _ _ _ _)
      · exact canonical_endRollback h _ _

/-! ## Resets (R431-R436) -/

theorem wf_kept {m : List Host.Cell} (h : Memory.wf m = true) (p : Nat × Byte → Bool) : Memory.wf (m.filter p) = true := wfFrom_filter h p

theorem canonical_cleared (h : s.Canonical) : s.cleared.Canonical := by
  obtain ⟨hm, hf, -⟩ := h
  exact ⟨wf_kept hm _, hf, fun b hb => absurd hb (List.not_mem_nil)⟩

theorem canonical_bringUp (h : s.Canonical) : s.bringUp.Canonical := canonical_cleared h

theorem keeps_warmReset (h : s.Canonical) : Keeps (execWarmReset s) := by
  unfold execWarmReset
  split
  · exact h
  · exact canonical_bringUp h

/-! ## The end of a step, and the fetch (R30, R31) -/

theorem canonical_passTime (h : s.Canonical) : s.passTime.Canonical := canonical_ite h h

theorem canonical_noteReady (h : s.Canonical) : s.noteReady.Canonical := canonical_map h fun _ => by rfl

theorem canonical_noteFirst (h : s.Canonical) : s.noteFirst.Canonical := canonical_ite h h

theorem canonical_after (h : s.Canonical) : s.after.Canonical := by
  have hcur : State.Canonical { s with cur := none } := h
  exact canonical_ite (canonical_passTime hcur) (canonical_noteFirst (canonical_noteReady (canonical_passTime (canonical_dropBlocks (canonical_flushFar hcur) _))))

theorem keeps_afterwards {o : Host.Outcome State Fault Refusal} (h : Keeps o) : Keeps (afterwards o) := by
  cases o with
  | next t => exact canonical_after h
  | fault f | refused r => trivial

theorem canonical_issueCore (h : s.Canonical) (id : Nat) (gr : GRef) (slotB : Bool) : (s.issueCore id gr slotB).Canonical := by
  unfold State.issueCore
  refine canonical_modCore ?_ _ _
  split
  · split
    · exact h
    · exact canonical_modGroup h _ _
  · exact h

/-- What a fetch leaves is canonical. -/
def FetchedOk : Fetched → Prop
  | .trapped t | .run _ t => t.Canonical

theorem fetchedOk_fetch (h : s.Canonical) (gr : GRef) (slotB : Bool) : FetchedOk (s.fetch gr slotB) := by
  have hcore := fun id => canonical_issueCore h id gr slotB
  unfold State.fetch
  split
  · dsimp only
    split
    · exact canonical_raise (hcore _) gr slotB false _ _ _
    · split
      · exact canonical_raise (hcore _) gr slotB false _ _ _
      · exact hcore _
  · exact h

end

end Sys2Proof.Proofs.Canon
end

section
/-! SUPPORT. Every instruction and every event keeps the stores canonical, and so does a step. -/

namespace Sys2Proof.Proofs.Canon

open Sys2Proof Sys2Proof.Machine Sys2Proof.Laws

section
variable {i : Iss} {s : State}

theorem ok_afterModex {r : Res} (h : ResOk r) : ResOk (i.afterModex r) := ok_ite trivial h

theorem ok_cbOrStall {f : Unit → Res} (h : ResOk (f ())) : ResOk (cbOrStall i f) := ok_ite trivial h

theorem keeps_bara (h : s.Canonical) (a : Src) (n : BitVec 4) : Keeps (execBara a n s) :=
  keeps_run h fun i hi => ok_orTrap (ok_ite (ok_stall hi) (canonical_modBlock hi.state i.gr.blk fun b => stores_arrive b _ _ _))

theorem keeps_tladv (h : s.Canonical) (a : Src) (n : BitVec 4) : Keeps (execTladv a n s) :=
  keeps_run h fun i hi => ok_orTrap (ok_ite (ok_stall hi) (canonical_modBlock hi.state i.gr.blk fun b => by rfl))

theorem keeps_mdrn (h : s.Canonical) (a b : Src) : Keeps (execMdrn a b s) :=
  keeps_run h fun _ hi => ok_orTrap (ok_cbOrStall (ok_ite trivial (ok_ite trivial (ok_ite trivial (ok_ite (ok_stall hi) (canonical_issueOp hi _ _ _ _))))))

theorem keeps_mzero (h : s.Canonical) : Keeps (execMzero s) :=
  keeps_run h fun _ hi => ok_cbOrStall (ok_ite (ok_stall hi) (canonical_claimCb (canonical_issueOp hi _ _ _ _) _ _ _ _ _))

theorem keeps_disarm (h : s.Canonical) (d : BitVec 6) (a : Src) : Keeps (execDisarm d a s) := by
  refine keeps_run h fun i hi => ok_orTrap (ok_suppressed hi _ (ok_ite (ok_stall hi) ?_))
  have harmed : ∀ l, State.Canonical { i.s with armed := l } := fun _ => hi.state
  exact ok_outside (harmed _) i _ _ _

/-- The case analysis of `exec`: each instruction by its shape, each event by its lemma. -/
theorem keeps_exec (h : s.Canonical) (i : Instr) : Keeps (exec i s) := by
  cases i with
  | ill _ _ | trap _ | bkpt _ | undef _ | rsvop _ => exact keeps_run h fun i hi => trivial
  | vadd _ _ _ | vsub _ _ _ | vmul _ _ _ | vmad _ _ _ | vmadn _ _ _ | vmin _ _ _ | vmax _ _ _ | vclmp _ _ _ | vshl _ _ _ | vshr _ _ _ _
  | vrot _ _ _ | vmulh _ _ _ | vabd _ _ _ | vcpys _ _ _ | vdiv _ _ _ => exact keeps_run h fun i hi => ok_elementwise hi _ _ _ _ _
  | vabs _ _ | vneg _ _ | vpopc _ _ | vclz _ _ | vrint _ _ _ => exact keeps_run h fun i hi => ok_unary hi _ _ _ _
  | vand _ _ _ | vor _ _ _ | vxor _ _ _ | vnot _ _ | vmov _ _ | vpack _ _ _ _ | vunpk _ _ _ _ | vfcls _ _ =>
    exact keeps_run h fun i hi => ok_bitwise hi _ _ _ _ _
  | vcmp _ _ _ _ | vsel _ _ _ | vdot _ _ _ | vhsum _ _ | vperm _ _ _ | vbal _ _ _ => exact keeps_run h fun i hi => ok_vector hi _ _ _ _ _
  | vaddi _ _ _ => exact keeps_run h fun i hi => ok_imm10 _ fun y => ok_unary hi _ _ _ _
  | vmovi _ _ => exact keeps_run h fun i hi => ok_imm10 _ fun y => ok_vector hi _ _ _ _ _
  | vcvt _ _ _ _ => exact keeps_run h fun i hi => ok_convert hi _ _ _ _ _
  | vrcp _ _ | vrsq _ _ | vsqrt _ _ | vex2 _ _ | vlg2 _ _ | vsinp _ _ | vcosp _ _ | vtanh _ _ => exact keeps_run h fun i hi => ok_function hi _ _ _ _
  | vbcst _ _ _ | vslid _ _ _ _ | vred _ _ _ _ | vscan _ _ _ _ _ => exact keeps_run h fun i hi => ok_withUniform hi _ _ _ _ _ _
  | sadd _ _ _ | ssub _ _ _ | smul _ _ _ | smulh _ _ _ _ | smad _ _ _ | sdiv _ _ _ _ | srem _ _ _ _ | sand _ _ _ | sor _ _ _ | sxor _ _ _
  | sshl _ _ _ | sshr _ _ _ _ | srot _ _ _ | smin _ _ _ _ | smax _ _ _ _ | scmp _ _ _ _ | ssel _ _ _ | slea _ _ _ _ | sbfx _ _ _ _
  | sbfi _ _ _ => exact keeps_run h fun i hi => ok_sca2 hi _ _ _ _
  | snot _ _ | spopc _ _ | sclz _ _ | smov _ _ | saddi _ _ _ | sext _ _ _ => exact keeps_run h fun i hi => ok_sca1 hi _ _ _
  | smovi _ _ | sshi _ _ => exact keeps_run h fun i hi => ok_scalar hi _ _ _
  | bra _ => exact keeps_run h fun i hi => ok_jump hi.state _ _
  | brs _ _ _ => exact keeps_run h fun i hi => ok_branch hi.state _ _
  | brp c n t o => exact keeps_brp h c n t o
  | brk c n t o => exact keeps_brk h c n t o
  | join t => exact keeps_join h t
  | call _ _ => exact keeps_run h fun i hi => ok_callTo hi _ _
  | calli _ _ => exact keeps_run h fun i hi => ok_orTrap (ok_callTo hi _ _)
  | ret k => exact keeps_ret h k
  | jmpi a => exact keeps_jmpi h a
  | dbnz _ _ _ => exact keeps_run h fun i hi => ok_ite (ok_stall hi) (ok_branch (canonical_modGroup hi.state i.gr _) _ _)
  | pand _ _ _ _ | por _ _ _ _ | pxor _ _ _ _ | pnot _ _ | pmov _ _ => exact keeps_run h fun i hi => ok_putP hi _ _
  | psetm _ _ => exact keeps_run h fun i hi => ok_orTrap (ok_group hi _)
  | pgetm _ _ _ | pany _ _ | pall _ _ | pcnt _ _ => exact keeps_run h fun i hi => ok_putPlain hi _ _
  | vld _ _ _ _ | vst _ _ _ _ | vlde _ _ _ _ | vste _ _ _ _ | vldd _ _ _ | ldds _ _ _ | stds _ _ _ => exact keeps_run h fun i hi => ok_laneAccess hi _ _ _ _
  | sld _ _ _ _ => exact keeps_run h fun i hi => ok_scalarAccess hi _ _ _ _
  | sst _ _ _ _ => exact keeps_run h fun i hi => ok_orTrap (ok_unlessHelpers hi (ok_scalarAccess hi _ _ _ _))
  | vldb _ _ _ _ | vstb _ _ _ _ => exact keeps_run h fun i hi => ok_rowAccess hi _ _ _ _
  | vgath _ _ _ _ => exact keeps_run h fun i hi => ok_ite trivial (ok_ite trivial (ok_orTrap (ok_queue hi _)))
  | atom _ _ _ _ | atoms _ _ _ _ | atomf _ _ _ _ => exact keeps_run h fun i hi => ok_atomicOp hi _ _ _ _ _
  | atomo a b => exact keeps_atomo h a b
  | waitc _ => exact keeps_run h fun i hi => ok_ite hi.state (ok_wait hi.state _)
  | waitv d a => exact keeps_waitv h d a
  | fence sc => exact keeps_fence h sc
  | tfence sc => exact keeps_tfence h sc
  | pref _ _ => exact keeps_run h fun i hi => ok_orTrap hi.state
  | samp _ _ _ _ | sampg _ _ _ _ => exact keeps_run h fun i hi => ok_sample hi _ _ _ _
  | cpa _ _ _ _ => exact keeps_run h fun i hi => ok_orTrap (ok_ite (ok_stall hi) (ok_queue hi _))
  | cpwt _ _ => exact keeps_run h fun i hi => ok_ite (canonical_modGroup hi.state i.gr _) (ok_wait hi.state _)
  | cpb a => exact keeps_cpb h a
  | cpt a b => exact keeps_cpt h a b
  | syncw a b => exact keeps_syncw h a b
  | bar a n => exact keeps_bar h a n
  | bara a n => exact keeps_bara h a n
  | barw _ _ => exact keeps_run h fun i hi => ok_orTrap (ok_awaitBar hi hi.state _ _ _)
  | tlwait a n => exact keeps_tlwait h a n
  | tladv a n => exact keeps_tladv h a n
  | tlget _ _ _ | getc _ _ | timer _ _ => exact keeps_run h fun i hi => ok_putD hi _ _
  | gangset a => exact keeps_gangset h a
  | mma _ _ _ | mmal _ _ _ | mconv _ _ _ | mconvl _ _ _ => exact keeps_run h fun i hi => ok_array hi _ _
  | mdrn a b => exact keeps_mdrn h a b
  | mdst _ _ _ _ | mlda _ _ _ _ => exact keeps_run h fun i hi => ok_drainOp hi _ _ _ _ _ _
  | mqry _ _ => exact keeps_run h fun i hi => ok_cbOrStall (ok_putD hi _ _)
  | plwin _ | pltile _ _ => exact keeps_run h fun i hi => ok_orTrap (ok_planeOp hi _ _ _ _)
  | pleval _ _ | plexp _ _ | pllin _ _ | plfma _ _ _ | pladd _ _ _ | plmul _ _ _ | plmin _ _ _ | plmax _ _ _ | plcmp _ _ _ | plsfn _ _ _ =>
    exact keeps_run h fun i hi => ok_planeArith hi _ _
  | plmov _ _ | plsel _ _ _ | plshf _ _ _ _ | plclr _ | plfree | plif | plelse | plend => exact keeps_run h fun i hi => ok_planeOp hi _ _ _ _
  | plld _ _ _ _ | plst _ _ _ _ => exact keeps_run h fun i hi => ok_planeMem hi _ _ _ _ _
  | plred d a b p => exact keeps_plred h d a b p
  | plexc d a clr => exact keeps_plexc h d a clr
  | plvis _ _ _ | plbld _ _ _ => exact keeps_run h fun i hi => ok_ite (ok_planeOp hi _ _ _ _) trivial
  | plflg d clr => exact keeps_plflg h d clr
  | plbin _ => exact keeps_run h fun i hi => ok_orTrap (ok_ite trivial (ok_ite trivial (ok_planeOp hi _ _ _ _)))
  | launch d a => exact keeps_launch h d a
  | arm d a => exact keeps_arm h d a
  | disarm d a => exact keeps_disarm h d a
  | invoke d a b => exact keeps_invoke h d a b
  | invh d a b => exact keeps_invh h d a b
  | hwait d a => exact keeps_hwait h d a
  | hres a fwd => exact keeps_hres h a fwd
  | hbrk a => exact keeps_hbrk h a
  | hqry d a => exact keeps_hqry h d a
  | hfree a => exact keeps_hfree h a
  | vgcmd d a b => exact keeps_vgcmd h d a b
  | vgqry _ _ _ => exact keeps_run h fun i hi => ok_orTrap (ok_putD hi _ _)
  | mode _ => exact keeps_run h fun i hi => ok_afterModex (ok_group hi _)
  | modex _ => exact keeps_run h fun i hi => ok_afterModex (canonical_modGroup hi.state i.gr _)
  | setc _ _ => exact keeps_run h fun i hi => ok_ite trivial (ok_ite trivial (ok_orTrap (ok_ite trivial (ok_group hi _))))
  | ckpt d a q => exact keeps_ckpt h d a q
  | quantumSwitch core => exact keeps_quantumSwitch h core
  | loadComplete g => exact keeps_loadComplete h g
  | accessPerform g k lanes => exact keeps_accessPerform h g k lanes
  | pageTableWalk ctx agent va => exact keeps_pageTableWalk h ctx agent va
  | trapEntry g => exact keeps_trapEntry h g
  | groupRetire g => exact keeps_groupRetire h g
  | completionWrite gid => exact keeps_completionWrite h gid
  | atomoApplication gid => exact keeps_atomoApplication h gid
  | blockStart cluster => exact keeps_blockStart h cluster
  | preemption blk => exact keeps_preemption h blk
  | forcedPreemption blk => exact keeps_forcedPreemption h blk
  | restoration blk cluster => exact keeps_restoration h blk cluster
  | eviction blk => exact keeps_eviction h blk
  | suspension ctx => exact keeps_suspension h ctx
  | driverKill gid => exact keeps_driverKill h gid
  | contextDestroy ctx => exact keeps_contextDestroy h ctx
  | matrixOpStart blk op => exact keeps_matrixOpStart h blk op
  | matrixStep blk => exact keeps_matrixStep h blk
  | engineOpComplete blk op => exact keeps_engineOpComplete h blk op
  | planeOp blk => exact keeps_planeOp h blk
  | binningJob blk => exact keeps_binningJob h blk
  | cpaTransferComplete _ _ => exact canonical_moveCpa h _ _ _
  | copyRow blk op slice => exact keeps_copyRow h blk op slice
  | vgcmdStart blk op => exact keeps_vgcmdStart h blk op
  | virgaWave blk op chan => exact keeps_virgaWave h blk op chan
  | virgaWindowEnd chan => exact keeps_virgaWindowEnd h chan
  | bankServiceEnd chan => exact keeps_bankServiceEnd h chan
  | virgaMerge blk op => exact keeps_virgaMerge h blk op
  | handlerStart k => exact keeps_handlerStart h k
  | invocationArrival k => exact keeps_invocationArrival h k
  | hwaitRegistration k => exact keeps_hwaitRegistration h k
  | hwaitAnswer k => exact keeps_hwaitAnswer h k
  | resolutionArrival k => exact keeps_resolutionArrival h k
  | forwardArrival k => exact keeps_forwardArrival h k
  | forwardProbe k => exact keeps_forwardProbe h k
  | breakArrival k => exact keeps_breakArrival h k
  | homeAnswer k => exact keeps_homeAnswer h k
  | hostQueueRecord q => exact keeps_hostQueueRecord h q
  | queueResume ring q => exact keeps_queueResume h ring q
  | taggedMessage pkg ctx tag payload => exact keeps_taggedMessage h pkg ctx tag payload
  | frameReceive f => exact keeps_frameReceive h f
  | retransmit pkg => exact keeps_retransmit h pkg
  | connectionFailure pkg => exact keeps_connectionFailure h pkg
  | sendRingDescriptor r => exact keeps_sendRingDescriptor h r
  | bridgeFailure a b => exact keeps_bridgeFailure h a b
  | hostAccess write pa bytes => exact keeps_hostAccess h write pa bytes
  | contextDescriptorWrite _ _ => exact canonical_modCtx h _ _
  | capabilityTableWrite stack index entry => exact keeps_capabilityTableWrite h stack index entry
  | shootdown _ | testPortReadout => exact h
  | errorDetected e => exact keeps_errorDetected h e
  | freeze _ | tapFreeze => exact canonical_freeze h _
  | thermalStep r sensor => exact keeps_thermalStep h r sensor
  | attestationRequest nonce => exact keeps_attestationRequest h nonce
  | hfreeArrival k => exact keeps_hfreeArrival h k
  | linkTraining port => exact keeps_linkTraining h port
  | connectionReestablished pkg => exact keeps_connectionReestablished h pkg
  | queueBinding ring q ctx cb => exact keeps_queueBinding h ring q ctx cb
  | contextCreation ctx desc => exact keeps_contextCreation h ctx desc
  | nop | yield => exact keeps_run h fun i hi => hi.state
  | exit => exact keeps_exit h
  | rft => exact keeps_rft h
  | ordcl => exact keeps_run h fun i hi => ok_group hi _
  | sbar => exact keeps_sbar h
  | mzero => exact keeps_mzero h
  | plbind => exact keeps_plbind h
  | flagchk => exact keeps_flagchk h
  | candidateHold => exact keeps_candidateHold h
  | pri0Displacement => exact keeps_pri0Displacement h
  | checkpointCommit => exact keeps_checkpointCommit h
  | coldReset => exact canonical_bringUp h
  | warmReset => exact keeps_warmReset h
  | powerOff => exact canonical_cleared h

theorem keeps_stepIssue (h : s.Canonical) (core : Nat) : Keeps (s.stepIssue core) := by
  unfold State.stepIssue
  split
  · exact h
  · next gr sb _ =>
    have hfetch := fetchedOk_fetch h gr sb
    split
    · next t he =>
      rw [he] at hfetch
      exact hfetch
    · next x t he =>
      rw [he] at hfetch
      exact keeps_exec hfetch x

theorem keeps_step (h : s.Canonical) : Keeps (step s) := by
  unfold step
  split
  · exact keeps_afterwards h
  · next x _ =>
    have htail : State.Canonical { s with inputs := s.inputs.tail } := h
    refine keeps_afterwards ?_
    split
    · exact keeps_exec htail x
    · exact htail
  · exact keeps_afterwards (keeps_exec h _)
  · exact keeps_afterwards (keeps_stepIssue h _)
  · exact keeps_afterwards (canonical_recover h)

end

/-- Settles O59: `exec` keeps the stores canonical, by its cases, and so do the fetch, a move of recovery, and what every step does at its end. -/
theorem storesStayCanonical : Obligations.StoresStayCanonical := by
  unfold Obligations.StoresStayCanonical
  intro s t h hstep
  have hkeeps := keeps_step h
  rw [hstep] at hkeeps
  exact hkeeps

end Sys2Proof.Proofs.Canon
end

section
/-! SUPPORT. The checks of one access (R126-R128, R391), and O14. -/

namespace Sys2Proof.Proofs.Checks

open Sys2Proof Sys2Proof.Machine Sys2Proof.Laws

section
variable {s : State} {who : Who} {b : Block} {core : Option Nat} {q : Req} {race : Bool}

/-! ## Races (R265, R268) -/

theorem foldl_lowest_none {α : Type} (f : Option α → α → Option α) (hf : ∀ m x, (f m x).isSome = true) :
    ∀ (l : List α) (m : Option α), l.foldl f m = none ↔ m = none ∧ l = []
  | [], m => by simp
  | x :: l, m => by
    have hne : f m x ≠ none := fun h => by simpa [h] using hf m x
    rw [List.foldl_cons, foldl_lowest_none f hf l]
    simp [hne]

theorem race?_none_iff (l : Loc) (n : Nat) (w : Bool) : s.race? who l n w = none ↔ s.races who l n w = [] := by
  unfold State.race? State.raceAt?
  rw [Option.map_eq_none_iff, foldl_lowest_none]
  · simp
  · intro m x
    cases m with
    | none => rfl
    | some y =>
      dsimp only
      split <;> rfl

/-- Two atomics lie in each other's scopes. -/
theorem atomics_iff (w : Writer) : (match w.atomic, who.atomic with
      | some a, some b => inScope a w.pos who.pos && inScope b who.pos w.pos
      | _, _ => false) = true ↔
    ∃ y z, w.atomic = some y ∧ who.atomic = some z ∧ inScope y w.pos who.pos = true ∧ inScope z who.pos w.pos = true := by
  cases w.atomic <;> cases who.atomic <;> simp

/-- When the write of a granule does not conflict with an access. -/
theorem raceWith_false_iff (w : Writer) (write : Bool) : raceWith w who write = false ↔ w.agent = who.agent ∨ w.time ≤ clockGet who.clock w.agent ∨
    (∃ y z, w.atomic = some y ∧ who.atomic = some z ∧ inScope y w.pos who.pos = true ∧ inScope z who.pos w.pos = true) ∨
    (w.oadd = true ∧ write = false ∧ who.atomic = none) := by
  unfold raceWith
  rw [Bool.and_eq_false_iff, Bool.and_eq_false_iff, Bool.and_eq_false_iff, Bool.not_eq_false', Bool.not_eq_false', bne_eq_false_iff_eq,
    decide_eq_false_iff_not, Nat.not_lt, or_assoc, or_assoc]
  refine or_congr_right (or_congr_right (or_congr (atomics_iff w) ?_))
  simp only [Bool.and_eq_true, Bool.not_eq_true', Option.isNone_iff_eq_none, and_assoc]

theorem race?_none_writers (l : Loc) (n : Nat) (w : Bool) : s.race? who l n w = none ↔ ∀ x ∈ s.writers, x.1.store = l.store →
    l.ofs / 32 * 32 ≤ x.1.ofs → x.1.ofs ≤ (l.ofs + n - 1) / 32 * 32 → raceWith x.2 who w = false := by
  rw [race?_none_iff]
  unfold State.races touchesGranule
  simp only [List.filter_eq_nil_iff, Bool.and_eq_true, beq_iff_eq, decide_eq_true_eq, not_and, Bool.not_eq_true]
  exact forall₂_congr fun x _ => ⟨fun h a b c => h ⟨⟨a, b⟩, c⟩, fun h ⟨⟨a, b⟩, c⟩ => h a b c⟩

/-! ## What comes last (R391, R415) -/

/-- The write that an access meets at a watched place. -/
def met (s : State) (who : Who) (q : Req) (race : Bool) (l : Loc) : Option Writer := if race then s.race? who l q.n q.w else none

theorem late_hit {a : Acc} (hw : a.watch = true) : (if race && a.watch then s.race? who a.loc q.n q.w else none) = met s who q race a.loc := by
  unfold met
  rw [hw, Bool.and_true]

/-- A place of a block's stores is watched, and neither poisoned nor out of reach. -/
theorem late_store {a : Acc} (hw : a.watch = true) (hp : a.loc.store ≠ .pkg) (hf : ∀ p, a.loc.store ≠ .far p) : s.lateChecks who q a race =
    match met s who q race a.loc with
    | some w => .error ⟨.mmx, if q.w then 1 else 2, q.addr, 0, w.detail⟩
    | none => .ok a := by
  have hpb : (a.loc.store == Store.pkg) = false := beq_eq_false_iff_ne.2 hp
  unfold State.lateChecks
  dsimp only
  rw [late_hit hw, hpb, Bool.and_false, Bool.false_and, if_neg Bool.false_ne_true]
  cases met s who q race a.loc with
  | some w => rfl
  | none =>
    dsimp only
    split
    · next p hp => exact absurd hp (hf p)
    · rfl

theorem late_far {p ofs : Nat} {d : Bool} : s.lateChecks who q ⟨⟨.far p, ofs⟩, false, false, d⟩ race =
    if p ∈ s.failed then .error (memTrap .page 4 q.addr) else .ok ⟨⟨.far p, ofs⟩, false, false, d⟩ := by
  have hpkg : (Store.far p == Store.pkg) = false := rfl
  unfold State.lateChecks
  simp only [Bool.and_false, Bool.false_eq_true, if_false, hpkg, Bool.false_and, List.contains_iff_mem]

/-- A byte of a range is poisoned where one of its lines is. -/
theorem any_poisoned (pa : Nat) {n : Nat} (hn : 0 < n) : ((List.range ((pa + n - 1) / 64 + 1 - pa / 64)).any fun i => s.isPoisoned (pa + 64 * i)) =
    (List.range n).any fun k => s.isPoisoned (pa + k) := by
  have hline : ∀ i, s.isPoisoned (pa + 64 * i) = SMap.get false s.poison (pa / 64 + i) := fun i => by
    unfold State.isPoisoned
    rw [Nat.add_mul_div_left _ _ (by decide)]
  rw [Bool.eq_iff_iff, List.any_eq_true, List.any_eq_true]
  simp only [List.mem_range, hline]
  constructor
  · rintro ⟨i, hi, hx⟩
    refine ⟨if i = 0 then 0 else 64 * (pa / 64 + i) - pa, by split <;> omega, ?_⟩
    unfold State.isPoisoned
    have hdiv : (pa + if i = 0 then 0 else 64 * (pa / 64 + i) - pa) / 64 = pa / 64 + i := by split <;> omega
    rw [hdiv]
    exact hx
  · rintro ⟨k, hk, hx⟩
    refine ⟨(pa + k) / 64 - pa / 64, by omega, ?_⟩
    unfold State.isPoisoned at hx
    have hdiv : pa / 64 + ((pa + k) / 64 - pa / 64) = (pa + k) / 64 := by omega
    rw [hdiv]
    exact hx

theorem late_pkg {pa : Nat} {w c d : Bool} (hn : 0 < q.n) : s.lateChecks who q ⟨⟨.pkg, pa⟩, w, c, d⟩ race =
    match (if w then met s who q race ⟨.pkg, pa⟩ else none) with
    | some x => .error ⟨.mmx, if q.w then 1 else 2, q.addr, 0, x.detail⟩
    | none => if q.r = true ∧ (List.range q.n).any (fun k => s.isPoisoned (pa + k)) = true then .error (memTrap .ecc 1 q.addr) else .ok ⟨⟨.pkg, pa⟩, w, c, d⟩ := by
  have hhit : (if race && w then s.race? who ⟨.pkg, pa⟩ q.n q.w else none) = if w then met s who q race ⟨.pkg, pa⟩ else none := by
    unfold met
    cases race <;> cases w <;> rfl
  have hpkg : (Store.pkg == Store.pkg) = true := rfl
  unfold State.lateChecks
  simp only [hpkg, Bool.and_true, any_poisoned pa hn]
  rw [hhit]
  cases (if w then met s who q race ⟨.pkg, pa⟩ else none) with
  | some x => rfl
  | none => simp only [Bool.and_eq_true]

/-! ## The three kinds of spaces -/

theorem canonicalVa_iff (a : Nat) : canonicalVa a = true ↔ a / 2 ^ 56 = 0 ∨ a / 2 ^ 56 = 255 := by
  simp [canonicalVa]

theorem inHole_iff (pa : Nat) : inHole pa = true ↔ 2 ^ 39 ≤ pa ∧ pa < 2 ^ 51 := by
  simp only [inHole, Bool.and_eq_true, decide_eq_true_eq]

theorem spAdmits_iff (x : Block) (slice ofs n : Nat) : spAdmits x slice ofs n = true ↔
    ofs + n ≤ x.spr ∨ (x.handler.isSome = true ∧ slice = 0 ∧ 0x3FC00 ≤ ofs ∧ ofs + n ≤ 0x40000) := by
  simp only [spAdmits, Bool.or_eq_true, Bool.and_eq_true, decide_eq_true_eq, beq_iff_eq, and_assoc]

theorem coreLive_iff (x : Block) (slice : Nat) : coreLive x slice = true ↔
    ∃ i, i < x.groups.length ∧ i % 6 = slice ∧ (x.groups[i]?).map (·.retired) = some false := by
  simp only [coreLive, List.any_eq_true, List.mem_range, Bool.and_eq_true, beq_iff_eq]
  refine exists_congr fun i => and_congr_right fun _ => and_congr_right fun _ => ?_
  cases x.groups[i]? with
  | none => simp
  | some g => simp

theorem checkGlobal_eq (hn : 0 < q.n) : s.checkGlobal who q race =
    if ¬ (q.addr.toNat / 2 ^ 56 = 0 ∨ q.addr.toNat / 2 ^ 56 = 255) then .error (memTrap .page 1 q.addr)
    else if q.aligned = false then .error (memTrap .align 1 q.addr)
    else match s.translate who.ctx who.tlb (q.addr.toNat % 2 ^ 57) with
      | .error n => .error (memTrap .page n q.addr)
      | .ok t =>
        let pa := t.pa + (q.addr.toNat % 2 ^ 57 - t.base)
        if 2 ^ 39 ≤ pa ∧ pa < 2 ^ 51 then .error (memTrap .prot 3 q.addr)
        else if (q.r = true ∧ t.r = false) ∨ (q.w = true ∧ t.w = false) then .error (memTrap .prot 1 q.addr)
        else if q.descr = true ∧ (t.descr = false ∨ (t.remote = none ∧ 2 ^ 39 ≤ pa)) then .error (memTrap .prot 4 q.addr)
        else match t.remote with
          | some p =>
            if q.far = false ∨ q.descr = true then .error (memTrap .prot 6 q.addr)
            else if p ∈ s.failed then .error (memTrap .page 4 q.addr)
            else .ok ⟨⟨.far p, pa⟩, false, false, t.descr⟩
          | none =>
            match (if t.watch then met s who q race ⟨.pkg, pa⟩ else none) with
            | some w => .error ⟨.mmx, if q.w then 1 else 2, q.addr, 0, w.detail⟩
            | none =>
              if q.r = true ∧ (List.range q.n).any (fun k => s.isPoisoned (pa + k)) = true then .error (memTrap .ecc 1 q.addr)
              else .ok ⟨⟨.pkg, pa⟩, t.watch, t.ckpt && decide (pa < 2 ^ 39), t.descr⟩ := by
  unfold State.checkGlobal
  dsimp only
  refine ite_congr (by rw [← canonicalVa_iff, Bool.not_eq_true', Bool.not_eq_true]) (fun _ => rfl) fun _ => ite_congr (by simp) (fun _ => rfl) fun _ => ?_
  unfold va57
  cases s.translate who.ctx who.tlb (q.addr.toNat % 2 ^ 57) with
  | error n => rfl
  | ok t =>
    dsimp only
    refine ite_congr (propext (inHole_iff _)) (fun _ => rfl) fun _ => ite_congr (by simp) (fun _ => rfl) fun _ => ?_
    refine ite_congr (by simp [inHbm]) (fun _ => rfl) fun _ => ?_
    cases t.remote with
    | some p =>
      dsimp only
      exact ite_congr (by simp) (fun _ => rfl) fun _ => late_far
    | none => exact late_pkg hn

theorem checkBuf_eq {lim size : Nat} {st : Store} (h : (q.space, lim, size, st) ∈ [(Space.wb, 2 ^ 19, 393216, Store.wb b.id), (.ab, 2 ^ 19, 393216, .ab b.id),
      (.cb, 2 ^ 18, 262144, .cb b.id)]) : s.check who b core q race =
    if lim ≤ q.addr.toNat then .error (memTrap .prot 2 q.addr)
    else if q.aligned = false then .error (memTrap .align 1 q.addr)
    else if q.descr = true then .error (memTrap .prot 4 q.addr)
    else if b.matrix = false ∨ size < q.addr.toNat + q.n then .error (memTrap .prot 5 q.addr)
    else if q.port = false then .error (memTrap .prot 9 q.addr)
    else match met s who q race ⟨st, core.getD 0 * 2 ^ 19 + q.addr.toNat⟩ with
      | some w => .error ⟨.mmx, if q.w then 1 else 2, q.addr, 0, w.detail⟩
      | none => .ok ⟨⟨st, core.getD 0 * 2 ^ 19 + q.addr.toNat⟩, true, false, false⟩ := by
  have hcheck : q.space ≠ .gl → q.space ≠ .sp → s.check who b core q race = s.checkBuf who b (core.getD 0) q race := fun hg hs => by
    unfold State.check
    split
    · next h => exact absurd h hg
    · next h => exact absurd h hs
    · rfl
  have hlate : ∀ l : Loc, l.store ≠ .pkg → (∀ p, l.store ≠ .far p) → s.lateChecks who q ⟨l, true, false, false⟩ race = match met s who q race l with
      | some w => .error ⟨.mmx, if q.w then 1 else 2, q.addr, 0, w.detail⟩
      | none => .ok ⟨l, true, false, false⟩ := fun l hp hf => late_store rfl hp hf
  simp only [List.mem_cons, Prod.mk.injEq, List.not_mem_nil, or_false] at h
  rcases h with ⟨hq, rfl, rfl, rfl⟩ | ⟨hq, rfl, rfl, rfl⟩ | ⟨hq, rfl, rfl, rfl⟩
  all_goals
    rw [hcheck (by simp [hq]) (by simp [hq])]
    unfold State.checkBuf
    simp only [hq, reduceCtorEq, if_false, if_true, Bool.not_eq_true', Bool.or_eq_true, decide_eq_true_eq]
    refine ite_congr rfl (fun _ => rfl) fun _ => ite_congr rfl (fun _ => rfl) fun _ => ite_congr rfl (fun _ => rfl) fun _ => ite_congr rfl (fun _ => rfl) fun _ =>
      ite_congr rfl (fun _ => rfl) fun _ => ?_
    exact hlate _ (by simp) (by simp)

/-- The place in the scratchpad of a block that an access may use. -/
def placeIn (s : State) (who : Who) (q : Req) (race : Bool) (x : Block) (ofs : Nat) : Except Trap Acc :=
  match met s who q race ⟨.sp x.id, ofs⟩ with
  | some w => .error ⟨.mmx, if q.w then 1 else 2, q.addr, 0, w.detail⟩
  | none => .ok ⟨⟨.sp x.id, ofs⟩, true, false, false⟩

theorem late_sp (x : Block) (ofs : Nat) : s.lateChecks who q ⟨⟨.sp x.id, ofs⟩, true, false, false⟩ race = placeIn s who q race x ofs :=
  late_store rfl (by simp) (by simp)

/-- An access to a block's own scratchpad, or to a span peer's, once its address is well formed. -/
def spRest (s : State) (who : Who) (b : Block) (core : Option Nat) (q : Req) (race : Bool) : Except Trap Acc :=
  let slice := q.addr.toNat / 2 ^ 18 % 8
  let memb := q.addr.toNat / 2 ^ 21 % 8
  let ofs := q.addr.toNat % 2 ^ 18
  if q.addr.toNat / 2 ^ 24 % 2 = 1 ∧ memb ≠ b.spanIdx then
    match s.blocks.find? fun x => x.span == b.span && x.spanIdx == memb && !x.aborted with
    | none => if spAdmits b slice ofs q.n then .error (memTrap .peerx 2 q.addr) else .error (memTrap .prot 5 q.addr)
    | some x =>
      if ¬ spAdmits x slice ofs q.n then .error (memTrap .prot 5 q.addr)
      else if q.port = false then .error (memTrap .prot 9 q.addr)
      else if ¬ coreLive x slice then .error (memTrap .peerx 2 q.addr)
      else placeIn s who q race x (slice * 2 ^ 18 + ofs)
  else if ¬ spAdmits b slice ofs q.n then .error (memTrap .prot 5 q.addr)
  else if q.port = false then .error (memTrap .prot 9 q.addr)
  else if (∃ c, core = some c ∧ c ≠ slice) ∧ ¬ coreLive b slice then .error (memTrap .peerx 1 q.addr)
  else placeIn s who q race b (slice * 2 ^ 18 + ofs)

theorem checkSp_eq (hs : q.space = .sp) : s.check who b core q race =
    let a := q.addr.toNat
    let slice := a / 2 ^ 18 % 8
    let memb := a / 2 ^ 21 % 8
    let span : Bool := a / 2 ^ 24 % 2 = 1
    if 2 ^ 25 ≤ a ∨ 5 < slice ∨ (span = false ∧ memb ≠ 0) ∨ (span = true ∧ core.isSome = true ∧ b.spanSize ≤ memb) then .error (memTrap .prot 2 q.addr)
    else if span = true ∧ core = none then .error (memTrap .prot 7 q.addr)
    else if q.aligned = false then .error (memTrap .align 1 q.addr)
    else if q.descr = true then .error (memTrap .prot 4 q.addr)
    else spRest s who b core q race := by
  have hcheck : s.check who b core q race = s.checkSp who b core q race := by
    unfold State.check
    rw [hs]
  rw [hcheck]
  have h18 : bits q.addr.toNat 18 3 = q.addr.toNat / 2 ^ 18 % 8 := rfl
  have h21 : bits q.addr.toNat 21 3 = q.addr.toNat / 2 ^ 21 % 8 := rfl
  have h0 : bits q.addr.toNat 0 18 = q.addr.toNat % 2 ^ 18 := by
    unfold bits
    rw [Nat.pow_zero, Nat.div_one]
  unfold State.checkSp bit
  dsimp only
  rw [h18, h21, h0]
  refine ite_congr (by simp [and_assoc]) (fun _ => rfl) fun _ => ite_congr (by simp) (fun _ => rfl) fun _ => ite_congr (by simp) (fun _ => rfl) fun _ =>
    ite_congr rfl (fun _ => rfl) fun _ => ?_
  unfold spRest
  dsimp only
  by_cases hpeer : q.addr.toNat / 2 ^ 24 % 2 = 1 ∧ q.addr.toNat / 2 ^ 21 % 8 ≠ b.spanIdx
  · have hp : (q.addr.toNat / 2 ^ 24 % 2 == 1 && q.addr.toNat / 2 ^ 21 % 8 != b.spanIdx) = true := by simpa using hpeer
    rw [if_pos hpeer, if_pos hp]
    cases s.blocks.find? fun x => x.span == b.span && x.spanIdx == q.addr.toNat / 2 ^ 21 % 8 && !x.aborted with
    | none => rfl
    | some x =>
      simp only [hp, Bool.not_eq_true', Bool.not_eq_true, Bool.true_and, Bool.not_true, Bool.false_and, Bool.false_eq_true, if_false, late_sp]
  · have hp : (q.addr.toNat / 2 ^ 24 % 2 == 1 && q.addr.toNat / 2 ^ 21 % 8 != b.spanIdx) = false := by
      rw [← Bool.not_eq_true]
      simpa using hpeer
    rw [if_neg hpeer, if_neg (by rw [hp]; exact Bool.false_ne_true)]
    simp only [hp, Bool.not_eq_true', Bool.not_eq_true, Bool.false_and, Bool.not_false, Bool.true_and, Bool.false_eq_true, if_false, late_sp]
    refine ite_congr rfl (fun _ => rfl) fun _ => ite_congr rfl (fun _ => rfl) fun _ => ite_congr ?_ (fun _ => rfl) fun _ => rfl
    cases core with
    | none => simp
    | some c => simp

end

/-- Settles O14: each space's checks by its own equation, and a race by what makes a write conflict. -/
theorem checks : Obligations.Checks := by
  unfold Obligations.Checks
  intro s who b core q race hn
  refine ⟨fun hs => ?_, fun hs => ?_, fun lim size st h => ?_, fun l => ?_⟩
  · have hcheck : s.check who b core q race = s.checkGlobal who q race := by
      unfold State.check
      rw [hs]
    rw [hcheck, checkGlobal_eq hn]
    rfl
  · rw [checkSp_eq hs]
    have hadmits := fun x => propext (spAdmits_iff x (q.addr.toNat / 2 ^ 18 % 8) (q.addr.toNat % 2 ^ 18) q.n)
    have hlive := fun x => propext (coreLive_iff x (q.addr.toNat / 2 ^ 18 % 8))
    refine ite_congr rfl (fun _ => rfl) fun _ => ite_congr rfl (fun _ => rfl) fun _ => ite_congr rfl (fun _ => rfl) fun _ => ite_congr rfl (fun _ => rfl) fun _ => ?_
    unfold spRest
    refine ite_congr (by simp) (fun _ => ?_) fun _ => ?_
    · cases s.blocks.find? fun x => x.span == b.span && x.spanIdx == q.addr.toNat / 2 ^ 21 % 8 && !x.aborted with
      | none => exact ite_congr (hadmits b) (fun _ => rfl) fun _ => rfl
      | some x => exact ite_congr (congrArg Not (hadmits x)) (fun _ => rfl) fun _ => ite_congr rfl (fun _ => rfl) fun _ =>
          ite_congr (congrArg Not (hlive x)) (fun _ => rfl) fun _ => rfl
    · exact ite_congr (congrArg Not (hadmits b)) (fun _ => rfl) fun _ => ite_congr rfl (fun _ => rfl) fun _ =>
        ite_congr (congrArg (And _) (congrArg Not (hlive b))) (fun _ => rfl) fun _ => rfl
  · rw [checkBuf_eq h]
    rfl
  · rw [race?_none_writers]
    exact forall₂_congr fun x _ => forall₃_congr fun _ _ _ => raceWith_false_iff x.2 q.w

end Sys2Proof.Proofs.Checks
end

section
/-! SUPPORT. Plane-synchronising reads (R198, R199, R289): O34. -/

namespace Sys2Proof.Proofs.PlaneReads

open Sys2Proof Sys2Proof.Machine Sys2Proof.Laws Sys2Proof.Proofs.IssuingBlock Sys2Proof.Proofs.Frames Sys2Proof.Proofs.Virga Sys2Proof.Proofs.Waits
  Sys2Proof.Proofs.Issues Sys2Proof.Proofs.PlaneIssues Sys2Proof.Proofs.Barriers Sys2Proof.Proofs.SyncWords Sys2Proof.Proofs.Checks

/-! ## The machine while a read of the plane runs -/

/-- The issuing block now is b1 and the issuing group g1; every other group stands. -/
structure Reached (i : Iss) (u : State) (b1 : Block) (g1 : Group) : Prop where
  block : u.block? i.gr.blk = some b1
  group : b1.groups[i.gr.grp]? = some g1
  others : ∀ gr, gr ≠ i.gr → u.group? gr = i.s.group? gr
  cycle : u.cycle = i.s.cycle

section
variable {i : Iss} {u : State} {b1 : Block} {g1 : Group}

theorem Reached.group? (h : Reached i u b1 g1) : u.group? i.gr = some g1 := by
  unfold State.group?
  rw [h.block]
  exact h.group

/-- A change of the block that leaves every group but the issuing one. -/
theorem Reached.change (h : Reached i u b1 g1) {f : Block → Block} (hid : ∀ b, (f b).id = b.id) {g2 : Group} (hg : (f b1).groups[i.gr.grp]? = some g2)
    (hs : ∀ b k, k ≠ i.gr.grp → (f b).groups[k]? = b.groups[k]?) : Reached i (u.modBlock i.gr.blk f) (f b1) g2 where
  block := by rw [block?_modBlock _ _ _ _ hid, if_pos rfl, h.block]; rfl
  group := hg
  others gr hne := by
    refine Eq.trans ?_ (h.others gr hne)
    unfold State.group?
    rw [block?_modBlock _ _ _ _ hid]
    by_cases hn : gr.blk = i.gr.blk
    · have hk : gr.grp ≠ i.gr.grp := fun hk => hne (by cases gr; simp_all)
      rw [if_pos hn]
      cases u.block? gr.blk with
      | none => rfl
      | some b => exact hs b _ hk
    · rw [if_neg hn]
  cycle := h.cycle

theorem Reached.modGroup (h : Reached i u b1 g1) (f : Group → Group) : Reached i (u.modGroup i.gr f) (b1.modGroup i.gr.grp f) (f g1) :=
  h.change (f := fun b => b.modGroup i.gr.grp f) (fun _ => rfl) (groups_modGroup_self f h.group) fun b _ hk => groups_modGroup_ne b f hk

/-- A change of what the block holds beside its groups. -/
theorem Reached.beside (h : Reached i u b1 g1) {f : Block → Block} (hid : ∀ b, (f b).id = b.id) (hg : ∀ b, (f b).groups = b.groups) :
    Reached i (u.modBlock i.gr.blk f) (f b1) g1 :=
  h.change hid ((congrArg (·[i.gr.grp]?) (hg b1)).trans h.group) fun b k _ => congrArg (·[k]?) (hg b)

/-- A write leaves operations and plane of the block. -/
theorem Reached.perform (h : Reached i u b1 g1) (who : Who) (a : Acc) (vs : List Byte) :
    ∃ b2, Reached i (u.perform who a vs) b2 g1 ∧ b2.ops = b1.ops ∧ b2.planeSt = b1.planeSt := by
  have hshape := shape_perform u who a vs
  have hgroup : (u.perform who a vs).group? i.gr = some g1 := (group?_perform u who a vs _).trans h.group?
  have hblk : ((u.perform who a vs).block? i.gr.blk).map blockShape = some (blockShape b1) := by
    rw [block?_map_blockShape, show (u.perform who a vs).blocks.map blockShape = u.blocks.map blockShape from (congrArg State.blocks hshape :), ← block?_map_blockShape, h.block]
    rfl
  obtain ⟨b2, hb2, hs⟩ := Option.map_eq_some_iff.1 hblk
  have hg2 : b2.groups[i.gr.grp]? = some g1 := by
    unfold State.group? at hgroup
    rwa [hb2] at hgroup
  exact ⟨b2, ⟨hb2, hg2, fun gr hne => (group?_perform u who a vs gr).trans (h.others gr hne), (congrArg State.cycle hshape :).trans h.cycle⟩,
    (congrArg Block.ops hs :), (congrArg Block.planeSt hs :)⟩

/-- The instruction ends at the next word, as a switch point. -/
theorem Reached.ends (h : Reached i u b1 g1) : Reached i (i.conclude (.done u true)) (b1.modGroup i.gr.grp (finished i true)) (finished i true g1) := by
  have hm := h.modGroup (finished i true)
  rw [conclude_done i h.cycle, if_pos rfl]
  exact ⟨hm.block, hm.group, hm.others, hm.cycle⟩

end

theorem byte_ends (i : Iss) {u : State} (hc : u.cycle = i.s.cycle) (l : Loc) : (i.conclude (.done u true)).byte l = u.byte l := by
  rw [conclude_done i hc, if_pos rfl, byte_setCore, byte_modGroup]

/-! ## Operations of the block -/

/-- The first operation of a number stands where it stood when all of that number become one. -/
theorem op?_modOp_same {b : Block} {tl num : Nat} {o o' : EngOp} (h : b.op? tl num = some o) (hs : o'.is tl num = o.is tl num) :
    (b.modOp tl num fun _ => o').op? tl num = some o' := by
  have ho : o.is tl num = true := by
    unfold Block.op? at h
    exact List.find?_some (p := fun o : EngOp => o.is tl num) h
  unfold Block.op? Block.modOp at *
  simp only [List.find?_map]
  have hcongr : ((fun o : EngOp => o.is tl num) ∘ fun o => if o.is tl num = true then o' else o) = fun o => o.is tl num := by
    funext x
    simp only [Function.comp]
    split
    · next hx => rw [hs, ho, hx]
    · rfl
  rw [hcongr, h, Option.map_some, if_pos ho]

theorem op?_of_ops {b c : Block} (h : b.ops = c.ops) (tl num : Nat) : b.op? tl num = c.op? tl num := by
  unfold Block.op?
  rw [h]

theorem op?_added_isSome (b : Block) {o : EngOp} {tl num : Nat} (h : o.is tl num = true) : ((b.addOp o).op? tl num).isSome = true := by
  unfold Block.op?
  rw [List.find?_isSome]
  exact ⟨o, by simp [Block.addOp], h⟩

theorem op?_acquire_isSome (b : Block) (grp : Nat) (sel : EngOp → Bool) {tl num : Nat} (h : (b.op? tl num).isSome = true) :
    ((b.acquire grp sel).op? tl num).isSome = true := by
  unfold Block.op? at *
  rw [List.find?_isSome] at *
  obtain ⟨o, ho, his⟩ := h
  refine ⟨_, List.mem_map_of_mem ho, ?_⟩
  split
  · exact his
  · exact his

/-! ## The end of a read -/

/-- The selection of earlier t2 operations. -/
def before (n : Nat) (o : EngOp) : Bool := o.tl == 2 && decide (o.num < n)

/-- An earlier t2 operation of the block has not completed. -/
def early (b : Block) (n : Nat) : Bool := b.ops.any fun o => o.tl == 2 && decide (o.num < n) && !o.isDone

/-- The group once it has acquired the earlier operations. -/
def readKnown (b : Block) (grp n : Nat) (g : Group) : Group :=
  let os := b.ops.filter fun o => o.isDone && before n o
  { g.acquire (os.foldl (fun c o => clockJoin c o.rel) []) with flags := g.flags ||| os.foldl (fun f o => if o.owes grp then f ||| o.flags else f) (0 : Flags) }

/-- The read's operation as its accesses know it. -/
def readOp (b : Block) (grp n : Nat) (g : Group) (o : EngOp) : EngOp := { o with clock := (readKnown b grp n g).known }

/-- The read's operation once it has completed. -/
def readDone (i : Iss) (o : EngOp) : EngOp := { o with state := .done, acquired := [i.gr.grp], rel := o.release }

theorem is_readDone (i : Iss) (b : Block) (grp k : Nat) (g : Group) (o : EngOp) (tl num : Nat) :
    (readDone i (readOp b grp k g o)).is tl num = o.is tl num := by
  unfold readDone readOp EngOp.is
  rfl

/-- The block of a completed read. -/
def readBlock (i : Iss) (n : Nat) (o : EngOp) (b : Block) : Block :=
  setPlane ((b.modOp 2 n fun _ => readDone i o).addStat 4 1) fun p => { p with last := n }

section
variable {i : Iss} {u : State} {b1 : Block} {g1 : Group} {n : Nat}

theorem Reached.acquired (h : Reached i u b1 g1) (n : Nat) :
    Reached i (u.modBlock i.gr.blk fun b => b.acquire i.gr.grp (before n)) (b1.acquire i.gr.grp (before n)) (readKnown b1 i.gr.grp n g1) :=
  h.change (f := fun b => b.acquire i.gr.grp (before n)) (fun _ => rfl)
    (groups_modGroup_self (b := { b1 with ops := _ }) _ h.group) fun b _ hk => groups_modGroup_ne { b with ops := _ } _ hk

/-- What a read finds when every earlier operation has completed, and what it leaves. -/
theorem planeRead_eq {α : Type} (h : Reached i u b1 g1) (hop : (b1.op? 2 n).isSome = true) :
    ∃ o o0, (b1.acquire i.gr.grp (before n)).op? 2 n = some o0 ∧ o = readOp b1 i.gr.grp n g1 o0 ∧
      ∀ (trap : State) (mem : State → EngOp → Except Trap α) (read : α → EngOp → State → State) (x : α),
        mem (u.modBlock i.gr.blk fun b => b.acquire i.gr.grp (before n)) o = .ok x →
        i.planeRead u trap n mem read = match i.pendingPlx with
          | some t => .trapIn trap t
          | none => .done ((read x o ((u.modBlock i.gr.blk fun b => b.acquire i.gr.grp (before n)).modBlock i.gr.blk (readBlock i n o))).modGroup i.gr
              fun g => g.acquire o.release) true := by
  have ha := h.acquired n
  obtain ⟨o, ho⟩ := Option.isSome_iff_exists.1 (op?_acquire_isSome b1 i.gr.grp (before n) hop)
  refine ⟨_, o, ho, rfl, fun trap mem read x hx => ?_⟩
  unfold Iss.planeRead
  have hb := ha.block
  have hg := ha.group?
  unfold before at hb hg hx ho
  unfold readOp at hx
  simp only [hb, hg, Option.bind_some, ho, hx]
  cases i.pendingPlx <;> rfl

end

/-- The machine when the read of number k may begin: the operation stands in the block; registers, slots, the plane and every byte stand. -/
structure Ready (i : Iss) (k : Nat) (u : State) (b1 : Block) (g1 : Group) : Prop where
  reached : Reached i u b1 g1
  bytes : ∀ l, u.byte l = i.s.byte l
  writers : u.writers = i.s.writers
  op : (b1.op? 2 k).isSome = true
  plane : b1.planeSt = i.b.planeSt
  unread : i.Unread g1
  slots : ∀ sb, g1.slot sb = i.g.slot sb

/-- What a read does to the plane and to memory, P of the bytes and the plane it leaves, with v in S[d] and fl in FLAGS. -/
def Effect {α : Type} (i : Iss) (k : Nat) (p : Plane) (d : BitVec 6) (v : Word) (fl : Flags) (P : (Loc → Byte) → Option Plane → Prop) (x : α)
    (read : α → EngOp → State → State) : Prop :=
  ∀ o u b g, Reached i u b g → b.planeSt = some { p with last := k } → (∀ l, u.byte l = i.s.byte l) →
    ∃ b', Reached i (read x o u) b' ((g.wrS i.sl.wb d.toNat v).orFlags fl) ∧ b'.ops = b.ops ∧ P (read x o u).byte b'.planeSt

/-- What stands once a read has ended with v in S[d] and fl in FLAGS. -/
structure Ended (i : Iss) (k : Nat) (d : BitVec 6) (v : Word) (fl : Flags) (P : (Loc → Byte) → Option Plane → Prop) (q : Word) (t : State) (b' : Block) (g' : Group) : Prop where
  reached : Reached i t b' g'
  at_next : i.At (i.pc + 4) i.active i.sl.wb 0 g'
  plseq : g'.plseq = q
  op : (b'.op? 2 k).map (·.state) = some .done
  regs : g'.v = i.g.v ∧ g'.p = i.g.p
  keep : ∀ wb m, (wb + m) % 256 ≠ (i.sl.wb + d.toNat) % 256 → g'.rdS wb m = i.g.rdS wb m
  result : g'.rdS i.sl.wb d.toNat = v
  flags : ∀ n, fl.getLsbD n = true → g'.flags.getLsbD n = true
  effect : P t.byte b'.planeSt

theorem ended_of {i : Iss} {k : Nat} {u : State} {b1 : Block} {g1 : Group} (h : Reached i u b1 g1) {d : BitVec 6} {v : Word} {fl : Flags}
    {P : (Loc → Byte) → Option Plane → Prop} (hslots : ∀ sb, g1.slot sb = i.g.slot sb) (hop : (b1.op? 2 k).map (·.state) = some .done)
    (hregs : g1.v = i.g.v ∧ g1.p = i.g.p) (hkeep : ∀ wb m, (wb + m) % 256 ≠ (i.sl.wb + d.toNat) % 256 → g1.rdS wb m = i.g.rdS wb m)
    (hresult : g1.rdS i.sl.wb d.toNat = v) (hflags : ∀ n, fl.getLsbD n = true → g1.flags.getLsbD n = true) (hP : P u.byte b1.planeSt) :
    Ended i k d v fl P g1.plseq (i.conclude (.done u true)) (b1.modGroup i.gr.grp (finished i true)) (finished i true g1) := by
  have hstill := still_finished i true g1
  have hflag : (finished i true g1).flags = g1.flags := (congrArg Group.flags hstill :)
  refine ⟨h.ends, at_finished true (hslots _) (hslots _), (congrArg Group.plseq hstill :), hop, ⟨(congrArg Group.v hstill :).trans hregs.1,
    (congrArg Group.p hstill :).trans hregs.2⟩, fun wb m hne => (rdS_finished ..).trans (hkeep wb m hne), (rdS_finished ..).trans hresult,
    fun n hn => hflag ▸ hflags n hn, ?_⟩
  rw [show (i.conclude (.done u true)).byte = u.byte from funext (byte_ends i h.cycle)]
  exact hP

theorem read_ends {α : Type} {i : Iss} {k : Nat} {u : State} {b1 : Block} {g1 : Group} (hr : Ready i k u b1 g1) {p : Plane} (hp : i.b.planeSt = some p)
    {d : BitVec 6} {v : Word} {fl : Flags} {P : (Loc → Byte) → Option Plane → Prop} {mem : State → EngOp → Except Trap α} {read : α → EngOp → State → State} {x : α}
    (hmem : ∀ u b g o, Reached i u b g → u.writers = i.s.writers → mem u o = .ok x) (hread : Effect i k p d v fl P x read) (hno : i.pendingPlx = none) (trap : State) :
    ∃ b' g', Ended i k d v fl P g1.plseq (i.conclude (i.planeRead u trap k mem read)) b' g' := by
  have ha := hr.reached.acquired k
  obtain ⟨o, o0, ho, rfl, heq⟩ := planeRead_eq hr.reached hr.op (α := α)
  rw [heq trap mem read x (hmem _ _ _ _ ha hr.writers), hno]
  have hdone := ha.beside (f := readBlock i k (readOp b1 i.gr.grp k g1 o0)) (fun _ => rfl) fun _ => rfl
  have hplane : (readBlock i k (readOp b1 i.gr.grp k g1 o0) (b1.acquire i.gr.grp (before k))).planeSt = some { p with last := k } := by
    show Option.map _ b1.planeSt = _
    rw [hr.plane, hp]
    rfl
  obtain ⟨b', hb', hops, hP⟩ := hread (readOp b1 i.gr.grp k g1 o0) _ _ _ hdone hplane fun l =>
    ((byte_modBlock _ i.gr.blk (readBlock i k _) l (fun _ => rfl) fun _ => ⟨rfl, rfl, rfl, rfl⟩).trans
      (byte_modBlock _ i.gr.blk (fun b => b.acquire i.gr.grp (before k)) l (fun _ => rfl) fun _ => ⟨rfl, rfl, rfl, rfl⟩)).trans (hr.bytes l)
  have hm := hb'.modGroup fun g => g.acquire (EngOp.release (readOp b1 i.gr.grp k g1 o0))
  have hop := op?_modOp_same (o' := readDone i (readOp b1 i.gr.grp k g1 o0)) ho (is_readDone ..)
  have hsame : b'.op? 2 k = ((b1.acquire i.gr.grp (before k)).modOp 2 k fun _ => readDone i (readOp b1 i.gr.grp k g1 o0)).op? 2 k := op?_of_ops hops 2 k
  refine ⟨_, _, ended_of hm hr.slots (congrArg (Option.map EngOp.state) (hsame.trans hop)) ⟨hr.unread.v, hr.unread.p⟩ (fun wb m hne => ?_)
    (rdS_wrS _ _ _ _) (fun n hn => ?_) ?_⟩
  · exact (rdS_wrS_ne _ _ _ _ _ _ hne).trans (congrArg (fun s => SMap.get 0 s ((wb + m) % 256)) hr.unread.s)
  · show ((readKnown b1 i.gr.grp k g1).flags ||| fl).getLsbD n = true
    rw [BitVec.getLsbD_or, hn, Bool.or_true]
  · rw [show (State.modGroup _ i.gr fun g => g.acquire _).byte = _ from funext fun l => byte_modGroup _ _ _ l]
    exact hP

/-! ## How a read begins -/

section
variable {i : Iss}

theorem ready_resumed (hb : i.s.block? i.gr.blk = some i.b) (hg : i.b.groups[i.gr.grp]? = some i.g) {k : Nat} (hop : (i.b.op? 2 k).isSome = true) :
    Ready i k i.s i.b i.g :=
  ⟨⟨hb, hg, fun _ _ => rfl, rfl⟩, fun _ => rfl, rfl, hop, rfl, unread_self i, fun _ => rfl⟩

/-- What the issue of a read makes of its operation at once. -/
def running (i : Iss) (o : EngOp) : EngOp := { o with state := .running, data := [BitVec.ofNat 64 (i.g.mine.getD 2 0)] }

/-- The machine after the issue of a read. -/
def issuedRead (i : Iss) (instr : Instr) (v : List Word) : State :=
  (i.planeIssue instr v fun b => b).2.modOp i.gr.blk 2 (planeEng i instr v).num (running i)

theorem num_planeEng (i : Iss) (instr : Instr) (v : List Word) : (planeEng i instr v).num = (i.b.tline 2).issued + 1 := rfl

theorem became_issuedRead (hb : i.s.block? i.gr.blk = some i.b) (instr : Instr) (v : List Word) :
    Became i (issuedRead i instr v) ((planeBlock i instr v).modOp 2 (planeEng i instr v).num (running i)) :=
  (became_planeIssue hb instr v onPlane_id).change ⟨fun _ => rfl, fun _ => rfl, fun _ => ⟨rfl, rfl, rfl, rfl⟩⟩

theorem group_issuedRead (hg : i.b.groups[i.gr.grp]? = some i.g) (instr : Instr) (v : List Word) :
    ((planeBlock i instr v).modOp 2 (planeEng i instr v).num (running i)).groups[i.gr.grp]? =
      some { i.g.issuedOp 2 (planeEng i instr v).num with plseq := BitVec.ofNat 64 (planeEng i instr v).num } :=
  groups_modGroup_self (fun g => { g with plseq := BitVec.ofNat 64 (planeEng i instr v).num }) (group_issuedBlock hg (planeEng i instr v))

theorem siblings_issuedRead (instr : Instr) (v : List Word) (k : Nat) (hk : k ≠ i.gr.grp) :
    ((planeBlock i instr v).modOp 2 (planeEng i instr v).num (running i)).groups[k]? = i.b.groups[k]? :=
  (groups_modGroup_ne _ _ hk).trans (siblings_issuedBlock i _ hk)

theorem writers_issuedRead (instr : Instr) (v : List Word) : (issuedRead i instr v).writers = i.s.writers := rfl

theorem cycle_issuedRead (instr : Instr) (v : List Word) : (issuedRead i instr v).cycle = i.s.cycle := rfl

theorem plane_issuedRead (instr : Instr) (v : List Word) :
    ((planeBlock i instr v).modOp 2 (planeEng i instr v).num (running i)).planeSt = i.b.planeSt := by
  unfold planeBlock issuedBlock
  generalize planeEng i instr v = o
  rfl

/-- The issued read among the block's operations. -/
theorem mem_issuedRead (instr : Instr) (v : List Word) :
    running i (planeEng i instr v) ∈ ((planeBlock i instr v).modOp 2 (planeEng i instr v).num (running i)).ops := by
  refine List.mem_map.2 ⟨planeEng i instr v, List.mem_append_right _ (List.mem_singleton_self _), if_pos ?_⟩
  show ((2 : Nat) == 2 && (planeEng i instr v).num == (planeEng i instr v).num) = true
  simp

theorem ready_issued (hb : i.s.block? i.gr.blk = some i.b) (hg : i.b.groups[i.gr.grp]? = some i.g) (instr : Instr) (v : List Word) :
    Ready i (planeEng i instr v).num (issuedRead i instr v) ((planeBlock i instr v).modOp 2 (planeEng i instr v).num (running i))
      { i.g.issuedOp 2 (planeEng i instr v).num with plseq := BitVec.ofNat 64 (planeEng i instr v).num } := by
  have hu := became_issuedRead hb instr v
  refine ⟨⟨hu.block, group_issuedRead hg instr v, fun gr hne => hu.others_group hb (siblings_issuedRead instr v) gr hne, cycle_issuedRead instr v⟩,
    hu.bytes, writers_issuedRead instr v, ?_, plane_issuedRead instr v, ⟨rfl, rfl, rfl, rfl, rfl, rfl⟩, fun _ => rfl⟩
  unfold Block.op?
  rw [List.find?_isSome]
  exact ⟨_, mem_issuedRead instr v, by show ((2 : Nat) == 2 && (planeEng i instr v).num == (planeEng i instr v).num) = true; simp⟩

theorem pendingPlx_some {q : Plane} {n : Nat} (hq : i.b.planeSt = some q) (hn : q.plx = some (i.gr.grp, n)) :
    i.pendingPlx = some { plainTrap .plx 1 with addr := BitVec.ofNat 64 n } := by
  unfold Iss.pendingPlx
  simp [hq, hn, Option.filter]

theorem pendingPlx_none (h : ∀ n, ¬ ∃ q, i.b.planeSt = some q ∧ q.plx = some (i.gr.grp, n)) : i.pendingPlx = none := by
  unfold Iss.pendingPlx
  cases hq : i.b.planeSt with
  | none => rfl
  | some q =>
    cases hx : q.plx with
    | none => simp [hx]
    | some y =>
      have hne : y.1 ≠ i.gr.grp := fun he => h y.2 ⟨q, hq, by rw [hx, ← he]⟩
      simp [hx, Option.filter, hne]

theorem isBound_iff : i.isBound = true ↔ ∃ q, i.b.planeSt = some q ∧ q.bound = some i.gr.grp := by
  unfold Iss.isBound
  cases i.b.planeSt with
  | none => simp
  | some q => simp

end

/-! ## The cases of a read -/

/-- A read, instr, of number k settles as the statement says, with q what it leaves at its end. -/
def Settles (s : State) (i : Iss) (p : Plane) (d : BitVec 6) (k : Nat) (instr : Instr) (q : State → Block → Group → Prop) : Prop :=
  let issues := i.sl.wait = none ∧ i.planeBusy = false ∧ k = (i.b.tline 2).issued + 1
  let bound := i.b.planeSt = some p ∧ p.bound = some i.gr.grp
  let resumes := i.sl.wait = some (.plane k) ∧ (i.b.op? 2 k).isSome = true ∧ i.b.planeSt = some p
  let lost := i.sl.wait = some (.unbound k) ∨ (issues ∧ ∀ q, i.b.planeSt = some q → q.bound ≠ some i.gr.grp)
  let early := early i.b k
  let pending (n : Nat) : Prop := ∃ q, i.b.planeSt = some q ∧ q.plx = some (i.gr.grp, n)
  let plx1 (n : Nat) : Trap := { plainTrap .plx 1 with addr := BitVec.ofNat 64 n }
  (lost →
    (early = true → ∃ t b' g', exec instr s = .next t ∧ i.InBlock t b' g' ∧ i.Waiting (.unbound k) g' ∧ i.Unread g' ∧ b'.ops = i.b.ops ∧ b'.planeSt = i.b.planeSt) ∧
    (early = false → (∀ n, pending n → exec instr s = .next (i.conclude (.trap (plx1 n)))) ∧
      ((∀ n, ¬ pending n) → exec instr s = .next (i.conclude (.trap (plainTrap .plx 4)))))) ∧
  ((issues ∧ bound) ∨ resumes →
    (early = true ∨ s.parityMet i.b instr = true → ∃ t b' g', exec instr s = .next t ∧ i.InBlock t b' g' ∧ i.Waiting (.plane k) g' ∧ i.Unread g' ∧
      b'.planeSt = some p ∧ (issues → g'.plseq = BitVec.ofNat 64 k ∧ ∃ o ∈ b'.ops, o.tl = 2 ∧ o.num = k ∧ o.instr = instr ∧ o.state = .running)) ∧
    (early = false → s.parityMet i.b instr = false →
      (∀ n, pending n → exec instr s = .next (i.conclude (.trap (plx1 n)))) ∧
      ((∀ n, ¬ pending n) → ∃ t b' g', exec instr s = .next t ∧ t.block? i.gr.blk = some b' ∧ b'.groups[i.gr.grp]? = some g' ∧
        (∀ gr, gr ≠ i.gr → t.group? gr = s.group? gr) ∧ i.At (i.pc + 4) i.active i.sl.wb 0 g' ∧ (issues → g'.plseq = BitVec.ofNat 64 k) ∧
        (b'.op? 2 k).map (·.state) = some .done ∧ g'.v = i.g.v ∧ g'.p = i.g.p ∧
        (∀ wb m, (wb + m) % 256 ≠ (i.sl.wb + d.toNat) % 256 → g'.rdS wb m = i.g.rdS wb m) ∧ q t b' g')))

section
variable {α : Type} {i : Iss} {instr : Instr} {v : List Word} {mem : State → EngOp → Except Trap α}
  {read : α → EngOp → State → State} {k : Nat}

/-- A group that is not bound when its read issues, and one that has waited unbound. -/
theorem planeSync_lost (hl : i.sl.wait = some (.unbound k) ∨ ((i.sl.wait = none ∧ i.planeBusy = false ∧ k = (i.b.tline 2).issued + 1) ∧
      ∀ q, i.b.planeSt = some q → q.bound ≠ some i.gr.grp)) :
    i.planeSync instr v mem read = if early i.b k then i.wait (.unbound k) i.s
      else .trap (match i.pendingPlx with | some t => t | none => plainTrap .plx 4) := by
  unfold Iss.planeSync
  rcases hl with hw | ⟨⟨hw, hbusy, rfl⟩, hno⟩
  · simp only [hw]
    rfl
  · have hb : i.isBound = false := Bool.eq_false_iff.2 fun hb => by
      obtain ⟨q, hq, hqb⟩ := isBound_iff.1 hb
      exact hno q hq hqb
    simp only [hw, hbusy, hb, Bool.not_false, Bool.false_eq_true, if_false, if_true]
    rfl

theorem planeSync_resumes (hw : i.sl.wait = some (.plane k)) : i.planeSync instr v mem read =
    if early i.b k || i.s.parityMet i.b instr then i.wait (.plane k) i.s else i.planeRead i.s i.s k mem read := by
  unfold Iss.planeSync
  simp only [hw]
  rfl

theorem planeSync_issues (hw : i.sl.wait = none) (hbusy : i.planeBusy = false) (hb : i.isBound = true) : i.planeSync instr v mem read =
    if early i.b (planeEng i instr v).num || i.s.parityMet i.b instr then i.wait (.plane (planeEng i instr v).num) (issuedRead i instr v)
      else i.planeRead (issuedRead i instr v) i.s (planeEng i instr v).num mem read := by
  unfold Iss.planeSync
  simp only [hw, hbusy, hb, Bool.not_true, Bool.false_eq_true, if_false]
  rfl

/-- A pending PLX is the trap of a read that may begin. -/
theorem read_traps {u : State} {b1 : Block} {g1 : Group} (hr : Ready i k u b1 g1) {x : α} (hmem : ∀ u b g o, Reached i u b g → u.writers = i.s.writers → mem u o = .ok x) {t : Trap}
    (ht : i.pendingPlx = some t) (trap : State) : i.planeRead u trap k mem read = .trapIn trap t := by
  obtain ⟨o, o0, -, rfl, heq⟩ := planeRead_eq hr.reached hr.op (α := α)
  rw [heq trap mem read x (hmem _ _ _ _ (hr.reached.acquired k) hr.writers), ht]

/-- A read settles by what it finds, x, and by what it then does. -/
theorem settles {s : State} (h : s.issue? = some i) (hrun : exec instr s = .next (i.conclude (i.planeSync instr v mem read))) {x : α}
    (hmem : ∀ u b g o, Reached i u b g → u.writers = i.s.writers → mem u o = .ok x) {p : Plane} {d : BitVec 6} {r : Word} {fl : Flags} {P : (Loc → Byte) → Option Plane → Prop}
    (hread : i.b.planeSt = some p → Effect i k p d r fl P x read) {q : State → Block → Group → Prop}
    (hq : i.b.planeSt = some p → ∀ {t b' g' n}, Ended i k d r fl P n t b' g' → q t b' g') : Settles s i p d k instr q := by
  obtain ⟨rfl, hb, -⟩ := issue_facts h
  have hg := issue_group h
  refine ⟨fun hl => ?_, fun hstart => ?_⟩
  · rw [hrun, planeSync_lost hl]
    refine ⟨fun he => ?_, fun he => ⟨fun n => ?_, fun hno => ?_⟩⟩
    · rw [if_pos he]
      exact ⟨_, _, _, rfl, inBlock_wait hb hg _, waiting_waited i _, unread_waited (unread_self i) _, rfl, rfl⟩
    · rintro ⟨y, hy, hn⟩
      rw [if_neg (by rw [he]; exact Bool.false_ne_true), pendingPlx_some hy hn]
    · rw [if_neg (by rw [he]; exact Bool.false_ne_true), pendingPlx_none hno]
  · rcases hstart with ⟨⟨hw, hbusy, rfl⟩, hp, hbound⟩ | ⟨hw, hop, hp⟩
    · rw [hrun, planeSync_issues hw hbusy (isBound_iff.2 ⟨p, hp, hbound⟩)]
      have hr := ready_issued hb hg instr v
      refine ⟨fun he => ?_, fun he hpar => ⟨fun n => ?_, fun hno => ?_⟩⟩
      · have hu := became_issuedRead hb instr v
        rw [if_pos (by rw [Bool.or_eq_true]; exact he)]
        exact ⟨_, _, _, rfl, inBlock_waits hu (cycle_issuedRead instr v) (group_issuedRead hg instr v) (siblings_issuedRead instr v) _,
          waiting_of_slots _ (hr.slots _) (hr.slots _), unread_waited hr.unread _, (plane_issuedRead instr v).trans hp,
          fun _ => ⟨(congrArg Group.plseq (still_waited i _ _) :), _, mem_issuedRead instr v, rfl, rfl, rfl, rfl⟩⟩
      · rintro ⟨y, hy, hn⟩
        rw [if_neg (by rw [hpar, show early i.b (planeEng i instr v).num = false from he]; exact Bool.false_ne_true), read_traps hr hmem (pendingPlx_some hy hn)]
        rfl
      · rw [if_neg (by rw [hpar, show early i.b (planeEng i instr v).num = false from he]; exact Bool.false_ne_true)]
        obtain ⟨b', g', he⟩ := read_ends hr hp hmem (hread hp) (pendingPlx_none hno) i.s
        exact ⟨_, b', g', rfl, he.reached.block, he.reached.group, he.reached.others, he.at_next, fun _ => he.plseq, he.op, he.regs.1, he.regs.2, he.keep, hq hp he⟩
    · rw [hrun, planeSync_resumes hw]
      have hr := ready_resumed hb hg hop
      have hnot : ∀ {c : Prop}, i.sl.wait = none ∧ i.planeBusy = false ∧ k = (i.b.tline 2).issued + 1 → c := fun hn => nomatch hw.symm.trans hn.1
      refine ⟨fun he => ?_, fun he hpar => ⟨fun n => ?_, fun hno => ?_⟩⟩
      · rw [if_pos (by simpa using he)]
        exact ⟨_, _, _, rfl, inBlock_wait hb hg _, waiting_waited i _, unread_waited (unread_self i) _, hp, hnot⟩
      · rintro ⟨y, hy, hn⟩
        rw [if_neg (by rw [hpar, show early i.b k = false from he]; exact Bool.false_ne_true), read_traps hr hmem (pendingPlx_some hy hn)]
        rfl
      · rw [if_neg (by rw [hpar, show early i.b k = false from he]; exact Bool.false_ne_true)]
        obtain ⟨b', g', he⟩ := read_ends hr hp hmem (hread hp) (pendingPlx_none hno) i.s
        exact ⟨_, b', g', rfl, he.reached.block, he.reached.group, he.reached.others, he.at_next, hnot, he.op, he.regs.1, he.regs.2, he.keep, hq hp he⟩

end

/-! ## PLRED, PLEXC, PLFLG -/

section
variable {i : Iss} {k : Nat} {p : Plane} {d : BitVec 6}

/-- A read that changes the plane by f, and no byte. -/
theorem effect_plane {α : Type} (f : Plane → Plane) (c : Bool) (r : Nat) (fl : Flags) (x : α) : Effect i k p d (BitVec.ofNat 64 r) fl
    (fun bytes q => q = some (if c then f { p with last := k } else { p with last := k }) ∧ ∀ l, bytes l = i.s.byte l) x
    fun _ _ s => i.readTo (if c then s.modBlock i.gr.blk fun b => setPlane b f else s) d r fl := by
  intro o u b g hu hp hbytes
  have hset := hu.beside (f := fun b => setPlane b f) (fun _ => rfl) fun _ => rfl
  cases c with
  | false => exact ⟨_, hu.modGroup _, rfl, hp, fun l => (byte_modGroup _ _ _ l).trans (hbytes l)⟩
  | true => exact ⟨_, hset.modGroup _, rfl, congrArg (Option.map f) hp, fun l => (byte_modGroup _ _ _ l).trans
      ((byte_modBlock u i.gr.blk (fun b => setPlane b f) l (fun _ => rfl) fun _ => ⟨rfl, rfl, rfl, rfl⟩).trans (hbytes l))⟩

/-- An access of the plane to the scratchpad that passes its checks but for races passes them where no write touches its place. -/
theorem check_without_race {s u : State} {who who' : Who} {b : Block} {q : Req} {x : Acc} (hs : q.space = .sp) (hx : s.check who b none q false = .ok x)
    (hw : ∀ y ∈ u.writers, touchesGranule x.loc q.n y.1 = false) : x.loc.store = .sp b.id ∧ u.check who' b none q true = .ok x := by
  rw [checkSp_eq hs] at hx ⊢
  dsimp only at hx ⊢
  obtain ⟨h1, hx⟩ := ok_of_ite hx
  obtain ⟨h2, hx⟩ := ok_of_ite hx
  obtain ⟨h3, hx⟩ := ok_of_ite hx
  obtain ⟨h4, hx⟩ := ok_of_ite hx
  rw [if_neg h1, if_neg h2, if_neg h3, if_neg h4]
  have hown : ¬ (q.addr.toNat / 2 ^ 24 % 2 = 1 ∧ q.addr.toNat / 2 ^ 21 % 8 ≠ b.spanIdx) := fun hp => h2 ⟨decide_eq_true hp.1, rfl⟩
  unfold spRest at hx ⊢
  dsimp only at hx ⊢
  rw [if_neg hown] at hx ⊢
  obtain ⟨h5, hx⟩ := ok_of_ite hx
  obtain ⟨h6, hx⟩ := ok_of_ite hx
  obtain ⟨h7, hx⟩ := ok_of_ite hx
  rw [if_neg h5, if_neg h6, if_neg h7]
  obtain rfl : _ = x := Except.ok.inj hx
  refine ⟨rfl, ?_⟩
  have hnone : met u who' q true ⟨.sp b.id, q.addr.toNat / 2 ^ 18 % 8 * 2 ^ 18 + q.addr.toNat % 2 ^ 18⟩ = none := by
    unfold met
    rw [if_pos rfl, race?_none_iff]
    unfold State.races
    exact List.filter_eq_nil_iff.2 fun y hy => by rw [hw y hy]; simp
  unfold placeIn
  rw [hnone]

/-- PLEXC writes the bitmap, and clears it with .clr. -/
theorem effect_plexc {x : Acc} (hb : i.b.id = i.gr.blk) (hx : x.loc.store = .sp i.b.id) (clr : Bool) (bs : List Byte) (r : Nat) (fl : Flags) :
    Effect i k p d (BitVec.ofNat 64 r) fl (fun bytes q => q = some { p with last := k, exc := if clr then [] else p.exc } ∧
        (∀ n, n < bs.length → bytes (x.loc.add n) = bs.getD n 0) ∧ ∀ l, l.within x.loc bs.length = false → bytes l = i.s.byte l) x
      fun acc o s =>
        let s := s.perform (o.who i.b) acc bs
        let s := if clr then s.modBlock i.gr.blk fun b => setPlane b fun p => { p with exc := [] } else s
        i.readTo s d r fl := by
  intro o u b g hu hp hbytes
  have hholds : u.holds x.loc.store = true := by
    rw [hx, hb]
    unfold State.holds
    simp only [hu.block]
    rfl
  obtain ⟨hwritten, hkept⟩ := stored_perform u (o.who i.b) x bs hholds
  obtain ⟨b2, hu2, hops, hplane⟩ := hu.perform (o.who i.b) x bs
  have hset := hu2.beside (f := fun b => setPlane b fun p => { p with exc := [] }) (fun _ => rfl) fun _ => rfl
  have hbyte : ∀ l, (i.readTo (if clr then (u.perform (o.who i.b) x bs).modBlock i.gr.blk fun b => setPlane b fun p => { p with exc := [] }
      else u.perform (o.who i.b) x bs) d r fl).byte l = (u.perform (o.who i.b) x bs).byte l := fun l => by
    refine (byte_modGroup _ _ _ l).trans ?_
    cases clr with
    | false => rfl
    | true => exact byte_modBlock _ i.gr.blk (fun b => setPlane b fun p => { p with exc := [] }) l (fun _ => rfl) fun _ => ⟨rfl, rfl, rfl, rfl⟩
  have hmem := And.intro (fun n hn => (hbyte (x.loc.add n)).trans (hwritten n hn)) fun l hl => ((hbyte l).trans (hkept l hl)).trans (hbytes l)
  cases clr with
  | false => exact ⟨_, hu2.modGroup _, hops, hplane.trans hp, hmem⟩
  | true => exact ⟨_, hset.modGroup _, hops, by show Option.map _ b2.planeSt = _; rw [hplane, hp]; rfl, hmem⟩

theorem getLsbD_foldl_or {w : Nat} (l : List (BitVec w)) (f : BitVec w) (n : Nat) :
    (l.foldl (fun f x => f ||| x) f).getLsbD n = (f.getLsbD n || l.any fun x => x.getLsbD n) := by
  induction l generalizing f with
  | nil => simp
  | cons x r ih => simp [ih, Bool.or_assoc]

/-- The union of the cells' flags. -/
def union (l : List (List Flags)) : Flags := l.foldl (fun f r => r.foldl (fun f x => f ||| x) f) 0

theorem getLsbD_union (l : List (List Flags)) (n : Nat) : (union l).getLsbD n = l.any fun r => r.any fun f => f.getLsbD n := by
  have hgen : ∀ (l : List (List Flags)) (f : Flags), (l.foldl (fun f r => r.foldl (fun f x => f ||| x) f) f).getLsbD n =
      (f.getLsbD n || l.any fun r => r.any fun f => f.getLsbD n) := fun l => by
    induction l with
    | nil => simp
    | cons x r ih => intro f; simp [ih, getLsbD_foldl_or, Bool.or_assoc]
  simpa [union] using hgen l 0

/-- Six flags and PLX beside them. -/
theorem getLsbD_flags (f : Flags) (c : Prop) [Decidable c] (n : Nat) :
    (BitVec.ofNat 64 ((f &&& 0x3F).toNat + if c then 0 else 64)).getLsbD n = if n < 6 then f.getLsbD n else decide (n = 6) && decide (¬ c) := by
  have hlow : (0x3F : Flags).getLsbD n = decide (n < 6) := Nat.testBit_two_pow_sub_one 6 n
  have hhigh : (64#64).getLsbD n = decide (6 = n) := Nat.testBit_two_pow (n := 6) (m := n)
  have hsum : ∀ f : Flags, BitVec.ofNat 64 ((f &&& 0x3F).toNat + 64) = (f &&& 0x3F).setWidth 64 ||| 64#64 := by decide
  have hnone : ∀ f : Flags, BitVec.ofNat 64 (f &&& 0x3F).toNat = (f &&& 0x3F).setWidth 64 := by decide
  by_cases hc : c
  · simp only [hc, if_true, Nat.add_zero, hnone, BitVec.getLsbD_setWidth, BitVec.getLsbD_and, hlow]
    by_cases hn : n < 6
    · simp [hn, show n < 64 by omega]
    · simp [hn]
  · simp only [hc, if_false, hsum, BitVec.getLsbD_or, BitVec.getLsbD_setWidth, BitVec.getLsbD_and, hlow, hhigh]
    by_cases hn : n < 6
    · simp [hn, show n < 64 by omega, show 6 ≠ n by omega]
    · simp [hn, eq_comm]

end

/-- The value that PLRED gives. -/
def reduced (i : Iss) (p : Plane) (a : CellSrc) (b : Src) (op : AmmOp) : Nat × Flags := redValue (redOfAmm op) .f32 false (i.uniF32 b).1 (p.terms a)

theorem exec_plred {s : State} {i : Iss} (h : s.issue? = some i) (d : BitVec 6) (a : CellSrc) (b : Src) (op : AmmOp) (hc : i.checkSca .f32 [b] = .ok ()) :
    exec (.plred d a b op) s = .next (i.conclude (i.planeSync (.plred d a b op) [BitVec.ofNat 64 (i.uniF32 b).1] (fun _ _ => .ok ()) fun _ _ s =>
      i.readTo s d (canonical .f32 (reduced i (i.b.planeSt.getD Plane.fresh) a b op).1) ((reduced i (i.b.planeSt.getD Plane.fresh) a b op).2 ||| (i.uniF32 b).2))) := by
  refine (run_issue h _).trans ?_
  rw [hc]
  rfl

/-- The access of PLEXC. -/
def bitmapReq (x : Word) : Req := ⟨.sp, x, 2048, decide (x.toNat % 256 = 0), false, true, false, false, true⟩

theorem exec_plexc {s : State} {i : Iss} (h : s.issue? = some i) (d : BitVec 6) (b : Src) (clr : Bool) (hc : i.checkSca .i64 [b] = .ok ()) :
    exec (.plexc d b clr) s = .next (i.conclude (i.planeSync (.plexc d b clr) [i.uni b] (fun s o => s.check (o.who i.b) i.b none (bitmapReq (i.uni b)) true)
      fun acc o s =>
        let s := s.perform (o.who i.b) acc (excBytes (i.b.planeSt.getD Plane.fresh).exc)
        let s := if clr then s.modBlock i.gr.blk fun b => setPlane b fun p => { p with exc := [] } else s
        i.readTo s d (cellCount (i.b.planeSt.getD Plane.fresh).exc) 0)) := by
  refine (run_issue h _).trans ?_
  rw [hc]
  rfl

theorem exec_plflg {s : State} {i : Iss} (h : s.issue? = some i) (d : BitVec 6) (clr : Bool) :
    exec (.plflg d clr) s = .next (i.conclude (i.planeSync (.plflg d clr) [] (fun _ _ => .ok ()) fun _ _ s =>
      i.readTo (if clr then s.modBlock i.gr.blk fun b => setPlane b fun p => { p with flags := [] } else s) d
        (((union (i.b.planeSt.getD Plane.fresh).flags) &&& 0x3F).toNat + if cellCount (i.b.planeSt.getD Plane.fresh).exc = 0 then 0 else 64) 0)) :=
  run_issue h _

theorem length_excBytes (x : CellBits) : (excBytes x).length = 2048 := by
  unfold excBytes
  rw [List.length_flatMap]
  simp [length_leBytes]

theorem block_id {s : State} {n : Nat} {b : Block} (h : s.block? n = some b) : b.id = n := by
  have := List.find?_some (p := fun b : Block => b.id == n) h
  simpa using this

/-- Settles O34: each read by `settles`, with what it finds and what it does. -/
theorem planeReads : Obligations.PlaneReads := by
  unfold Obligations.PlaneReads
  intro s i p d a b op clr x k h
  obtain ⟨rfl, hb, -⟩ := issue_facts h
  refine ⟨fun hc => ?_, fun hc hx hw hs => ?_, ?_⟩
  · show Settles i.s i p d k (.plred d a b op) _
    refine settles h (exec_plred h d a b op hc) (x := ()) (fun _ _ _ _ _ _ => rfl) (fun _ => effect_plane id false _ _ ()) fun hp {_ _ _ _} he => ?_
    obtain ⟨hplane, hbytes⟩ := he.effect
    have hresult := he.result
    have hflags := he.flags
    rw [hp] at hresult hflags
    exact ⟨hresult, hflags, hplane, hbytes⟩
  · show Settles i.s i p d k (.plexc d b clr) _
    have hcheck := fun u who hu => check_without_race (u := u) (who' := who) rfl hx hu
    refine settles h (exec_plexc h d b clr hc) (x := x) (fun u b g o hu hwr => (hcheck u _ (hwr ▸ hw)).2)
      (fun hp => effect_plexc (block_id hb) (hcheck i.s i.who hw).1 clr _ _ _) fun hp {_ _ _ _} he => ?_
    obtain ⟨hplane, hwritten, hkept⟩ := he.effect
    have hresult := he.result
    rw [hp] at hresult hwritten hkept
    exact ⟨hresult, hplane, hwritten, hkept⟩
  · show Settles i.s i p d k (.plflg d clr) _
    refine settles h (exec_plflg h d clr) (x := ()) (fun _ _ _ _ _ _ => rfl) (fun _ => effect_plane (fun p => { p with flags := [] }) clr _ _ ())
      fun hp {_ _ _ _} he => ?_
    obtain ⟨hplane, hbytes⟩ := he.effect
    refine ⟨hplane.trans ?_, hbytes, fun n => ?_⟩
    · cases clr <;> rfl
    · rw [he.result, hp, getLsbD_flags, Option.getD_some, getLsbD_union]

end Sys2Proof.Proofs.PlaneReads
end

section
/-! SUPPORT. An atomic that pins two lines where the statement's room counts one (R249, R136): O16. -/

namespace Sys2Proof.Proofs.PinnedAtomics

open Sys2Proof Sys2Proof.Machine Sys2Proof.Laws Sys2Proof.Proofs.IssuingBlock Sys2Proof.Proofs.PlaneIssues Sys2Proof.Proofs.TrapEntry Sys2Proof.Proofs.SyncWords

/-! ## Lines that a slice pins -/

/-- A slice with more pinned lines than it has room for. -/
theorem overPinned_of_lines {s : State} {ls : List Nat} {n : Nat} (h : ∀ x ∈ ls, x ∈ s.pins.map (·.1)) (hn : ls.Nodup) (hlen : 8192 < ls.length)
    (hslice : ∀ x ∈ ls, sliceOf x = n) : s.overPinned = true := by
  have hfull : ls.length ≤ (s.pins.map (·.1)).length := (hn.subperm h).length_le
  obtain ⟨x, hx⟩ : ∃ x, x ∈ ls := List.exists_mem_of_length_pos (by omega)
  have hroom : ls.length ≤ ((s.pins.map (·.1) ++ s.pins.map (·.1)).filter fun y => sliceOf y == sliceOf x).dedup.length := by
    refine (hn.subperm fun y hy => List.mem_dedup.2 (List.mem_filter.2 ⟨List.mem_append_left _ (h y hy), ?_⟩)).length_le
    rw [hslice x hx, hslice y hy]
    exact beq_self_eq_true n
  unfold State.overPinned State.pinRoom
  rw [Bool.and_eq_true, decide_eq_true_eq, Bool.not_eq_true', List.all_eq_false]
  refine ⟨by rw [← List.length_map (f := (·.1)) (as := s.pins)]; omega, x, h x hx, ?_⟩
  rw [decide_eq_true_eq]
  omega

/-- One line less than a slice pins, of an agent that is no group: at multiples of 2^23, in slice 0. -/
def brink : List (Nat × Nat) := (List.range 8191).map fun k => (2 ^ 23 * (k + 1), 2 ^ 20)

theorem brink_foreign {x : Nat × Nat} (h : x.2 ≠ 2 ^ 20) : brink.contains x = false := by
  rw [Bool.eq_false_iff]
  intro hx
  obtain ⟨k, -, rfl⟩ := List.mem_map.1 (List.contains_iff_mem.1 hx)
  exact h rfl

/-- Two lines of the first 2 KiB more, and the slice has no room. -/
theorem overPinned_brink {s : State} {n : Nat} (h : s.pins = (128, n) :: (0, n) :: brink) : s.overPinned = true := by
  have hlines : s.pins.map (·.1) = 128 :: 0 :: (List.range 8191).map fun k => 2 ^ 23 * (k + 1) := by
    rw [h, brink, List.map_cons, List.map_cons, List.map_map]
    rfl
  refine overPinned_of_lines (n := 0) (fun x hx => hx) ?_ ?_ ?_
  · rw [hlines, List.nodup_cons, List.nodup_cons]
    refine ⟨fun hm => ?_, fun hm => ?_, List.nodup_range.map fun a b hab => ?_⟩
    · rcases List.mem_cons.1 hm with hm | hm
      · exact absurd hm (by decide)
      · obtain ⟨k, -, hk⟩ := List.mem_map.1 hm
        omega
    · obtain ⟨k, -, hk⟩ := List.mem_map.1 hm
      omega
    · exact Nat.succ.inj (Nat.eq_of_mul_eq_mul_left (by decide : 0 < 2 ^ 23) hab)
  · rw [hlines, List.length_cons, List.length_cons, List.length_map, List.length_range]
    decide
  · rw [hlines]
    intro x hx
    rcases List.mem_cons.1 hx with rfl | hx
    · rfl
    · rcases List.mem_cons.1 hx with rfl | hx
      · rfl
      · obtain ⟨k, -, rfl⟩ := List.mem_map.1 hx
        exact sliceOf_crowd _

/-! ## A write that crosses a line -/

theorem pin_fresh {s : State} {who : Who} {pa : Nat} (hc : s.pins.contains (pa / 128 * 128, who.agent) = false) (ht : who.tlb < 768) :
    (s.pin who pa).pins = (pa / 128 * 128, who.agent) :: s.pins := by
  unfold State.pin
  simp only [hc, Nat.not_le.2 ht, decide_false, Bool.false_and, Bool.or_self, Bool.false_eq_true, if_false]

theorem pins_perform_crossing {s : State} {who : Who} {d : Bool} {vs : List Byte} (hn : vs.length = 8) (ht : who.tlb < 768)
    (hc : ∀ n, s.pins.contains (n, who.agent) = false) :
    (s.perform who ⟨⟨.pkg, 124⟩, true, false, d⟩ vs).pins = (128, who.agent) :: (0, who.agent) :: s.pins := by
  have hlow : ∀ {u : State}, u.pins = s.pins → (u.pin who 124).pins = (0, who.agent) :: s.pins := fun hu => by
    rw [pin_fresh (by rw [hu]; exact hc _) ht, hu]
  have hhigh : ∀ {u : State}, u.pins = (0, who.agent) :: s.pins → (u.pin who 252).pins = (128, who.agent) :: (0, who.agent) :: s.pins := fun hu => by
    rw [pin_fresh (by rw [hu, List.contains_cons, hc]; simp) ht, hu]
  have hrange : ∀ u : State, u.pinRange who 124 8 = (u.pin who 124).pin who 252 := fun u => by
    unfold State.pinRange
    rw [show List.range ((124 + 8 - 1) / 128 + 1 - 124 / 128) = [0, 1] from rfl]
    rfl
  unfold State.perform
  simp only [hn, Bool.false_eq_true, if_false, if_true, BEq.rfl, Bool.and_self, hrange]
  exact hhigh (hlow rfl)

/-- The placed program's group with one lane, at an instruction, where the first page of memory lies 124 bytes up and a slice can pin one line more. -/
def crossing : State :=
  { State.reset.bootTables.bootBlock.modGroup ⟨1, 0⟩ (fun g => g.modSlot false fun x => { x with mask := 1 }) with
    cur := some ⟨⟨1, 0⟩, false, 0⟩
    tlbs := [⟨0, 0, ⟨0, 4096, 124, true, true, false, true, false, false, none⟩⟩]
    pins := brink }

theorem pins_crossing : crossing.pins = brink := by
  unfold crossing
  generalize brink = c
  rfl

/-- The atomic that crosses. -/
def crossOp (i : Iss) : MemOp :=
  i.mem (.atom .none (.reg 0) (.reg 0) .add) i.counted i.helpers (perLane (i.laneWord (.reg 0))) (perLane (i.vec i.ty (fun _ => 0) (.reg 0)) ++ i.comparand .add .none)

/-- The one place of the atomic. -/
def crossAcc : Acc := ⟨⟨.pkg, 124⟩, true, false, false⟩

/-- What the atomic finds. -/
structure Crosses (i : Iss) : Prop where
  issue : crossing.issue? = some i
  quiet : i.g.quiet = true
  empty : i.g.memq = []
  type : i.ty = .i64
  lanes : lanesOf i.counted = [0]
  helpers : lanesOf i.helpers = []
  tlb : i.who.tlb = 0
  agent : i.who.agent = 4096
  pc : i.pc = BitVec.ofNat 64 bootPc
  place : i.s.check { i.who with atomic := some .device } i.b (coreIdx i.gr.grp) ((crossOp i).atomReq 0) true = .ok crossAcc

theorem issue_crossing : ∃ i, Crosses i :=
  ⟨_, rfl, rfl, rfl, rfl, by decide +kernel, by decide +kernel, rfl, rfl, rfl, by decide +kernel⟩

/-- The one lane's write has pinned two lines. -/
theorem atomAll_crossing {i : Iss} (h : Crosses i) : ∃ t, i.s.atomAll i.gr i.b i.g (crossOp i) = .ok t ∧ t.overPinned = true := by
  have hs : i.s.pins = brink := by rw [(issue_facts h.issue).1, pins_crossing]
  have hc : i.s.check { i.s.memWho i.b i.g i.gr.grp (crossOp i) with atomic := some (atomScope (crossOp i).instr i.b ((crossOp i).atomReq 0).addr) }
      i.b (coreIdx i.gr.grp) ((crossOp i).atomReq 0) true = .ok crossAcc := h.place
  have hpins : (i.s.atomLane i.gr i.b i.g (crossOp i) 0 crossAcc).pins = (128, 4096) :: (0, 4096) :: brink := by
    refine (pins_perform_crossing ?_ ?_ ?_).trans ?_
    · rw [length_leBytes]
      show width i.ty / 8 = 8
      rw [h.type]
      rfl
    · show i.who.tlb < 768
      rw [h.tlb]
      decide
    · intro n
      show i.s.pins.contains (n, i.who.agent) = false
      rw [hs, h.agent]
      exact brink_foreign (show (4096 : Nat) ≠ 2 ^ 20 by decide)
    · show (128, i.who.agent) :: (0, i.who.agent) :: i.s.pins = _
      rw [h.agent, hs]
  refine ⟨_, ?_, overPinned_brink (n := 4096) (s := (i.s.atomLane i.gr i.b i.g (crossOp i) 0 crossAcc).modGroup i.gr Group.release) hpins⟩
  unfold State.atomAll
  rw [show lanesOf (crossOp i).lanes = [0] from h.lanes, show lanesOf (crossOp i).help = [] from h.helpers]
  simp only [List.foldlM_cons, List.foldlM_nil, hc, bind, Except.bind, pure, Except.pure, List.nil_append, List.foldl_cons, List.foldl_nil]
  exact congrArg Except.ok (if_neg Bool.false_ne_true)

theorem exec_atom {s : State} {i : Iss} (h : s.issue? = some i) (d : Dst) (a b : Src) (op : AtomOp) :
    exec (.atom d a b op) s = .next (i.conclude (i.atomicOp (.atom d a b op) tsAtom (i.comparand op d) a b)) := run_issue h _

theorem atomic_stalls {i : Iss} (h : Crosses i) : exec (.atom .none (.reg 0) (.reg 0) .add) crossing = .next (i.conclude i.pinStall) := by
  obtain ⟨t, hall, hover⟩ := atomAll_crossing h
  have hatomic : i.atomic (crossOp i) = i.pinStall := by
    unfold Iss.atomic
    rw [h.quiet, hall]
    simp only [hover, Bool.not_true, Bool.false_eq_true, if_false, if_true]
  rw [exec_atom h.issue]
  refine congrArg (fun r => Host.Outcome.next (i.conclude r)) ?_
  unfold Iss.atomicOp
  rw [show tsAtom i.ty = true by rw [h.type]; rfl, show constBad i.ty (.reg 0) = false from rfl]
  simp only [Bool.not_true, Bool.false_eq_true, if_false, Bool.or_false]
  rw [show constBad .i64 (.reg 0) = false from rfl, if_neg Bool.false_ne_true, show i.mem _ _ _ _ _ = crossOp i from rfl, hatomic]
  rfl

/-- The stalled slot stands at its word. -/
theorem slot_stalled {i : Iss} (h : Crosses i) : ((i.conclude i.pinStall).group? i.gr).map (fun g => (g.slot i.slotB).pc) = some i.pc := by
  obtain ⟨hs, hb, hg⟩ := issue_facts h.issue
  have hrel : (i.s.pinRelease i.gr).group? i.gr = some i.g.release := by
    unfold State.group?
    rw [hs, block?_pinRelease hb hg h.empty]
    exact groups_modGroup_self _ (issue_group h.issue)
  show (((i.s.pinRelease i.gr).modGroup i.gr fun g => g.stand i.slotB).group? i.gr).map _ = _
  rw [group?_modGroup_self _ hrel]
  refine congrArg some ?_
  unfold Iss.pc Iss.sl Group.stand
  cases i.slotB <;> rfl

/-- Refutes O16, in its clause about what an atomic does once its lanes have passed their checks: a page that does not lie on a line's boundary puts
one lane's 8 bytes on two lines, and where the slice has room for one only, the group releases and stands in place of the atomic. -/
theorem not_atomics : ¬ Obligations.Atomics := by
  unfold Obligations.Atomics
  intro h
  obtain ⟨i, hi⟩ := issue_crossing
  have hstalls := atomic_stalls hi
  obtain ⟨hops, -⟩ := h crossing i .none (.reg 0) (.reg 0) hi.issue hi.quiet rfl rfl
  obtain ⟨⟨hgoes, -⟩, -⟩ := hops .add (by rw [hi.type]; decide)
  have hroom : crossing.PinRoom (lanesOf i.counted).length := by
    unfold State.PinRoom
    rw [hi.lanes, pins_crossing, brink, List.length_map, List.length_range]
    decide
  obtain ⟨t, g', hrun, hres, -⟩ := hgoes (fun _ => crossAcc) hroom (fun l hl => ⟨by
    rw [hi.lanes] at hl
    rw [List.mem_singleton.1 hl]
    exact hi.place, rfl⟩) fun _ _ _ _ => .inl rfl
  have hstands := slot_stalled hi
  rw [hstalls] at hrun
  cases hrun
  rw [hres.group, Option.map_some, hres.onward.pc] at hstands
  exact absurd (Option.some.inj hstands) (by rw [hi.pc]; decide)

end Sys2Proof.Proofs.PinnedAtomics
end

section
/-! SUPPORT. Array operations of the matrix engine (R184, R299): one step, and the start of a t1 operation: O32. -/

namespace Sys2Proof.Proofs.MatrixRuns

open Sys2Proof Sys2Proof.Machine Sys2Proof.Laws Sys2Proof.Proofs.Frames Sys2Proof.Proofs.SyncWords Sys2Proof.Proofs.Virga Sys2Proof.Proofs.Queues Sys2Proof.Proofs.PlaneReads

/-! ## The block of accumulators that a step works on -/

/-- The accumulator of row r and column n of the step's block. -/
def cell (b : Block) (o : EngOp) (x : StepCtx) (r n : Nat) : Loc :=
  cbLoc b.id (o.members.getD ((x.col + n) / 128) 0 % 6) (x.row + r) ((x.col + n) % 128)

/-- A step works on a whole block of 64 rows of the 512. -/
theorem row_stepCtx (o : EngOp) : o.stepCtx.row + 64 ≤ 512 := by
  have hm : (cfgOf (cfgWord o.opa)).m / 64 ≤ 8 := by
    show 64 * (bits (cfgWord o.opa).toNat 0 3 + 1) / 64 ≤ 8
    unfold bits
    omega
  have hblocks : 0 < (cfgOf (cfgWord o.opa)).blocks := by
    refine Nat.mul_pos ?_ ?_
    · show 0 < 64 * (bits (cfgWord o.opa).toNat 0 3 + 1) / 64
      omega
    · show 0 < (64 * (bits (cfgWord o.opa).toNat 4 4 + 1) + 191) / 192
      omega
  have hrow : o.pix % (cfgOf (cfgWord o.opa)).blocks / (cfgOf (cfgWord o.opa)).colBlocks < (cfgOf (cfgWord o.opa)).m / 64 :=
    Nat.div_lt_of_lt_mul (by rw [Nat.mul_comm]; exact Nat.mod_lt _ hblocks)
  show 64 * (o.pix % (cfgOf (cfgWord o.opa)).blocks / (cfgOf (cfgWord o.opa)).colBlocks) + 64 ≤ 512
  omega

section
variable {b : Block} {o : EngOp} {x : StepCtx} {cols : Nat}

/-- What keeps the accumulators of a step apart: rows of one CB, columns of members on different cores. -/
structure Fits (o : EngOp) (x : StepCtx) (cols : Nat) : Prop where
  row : x.row + 64 ≤ 512
  cores : (o.members.map (· % 6)).Nodup
  col : ∀ n, n < cols → x.col + n < 128 * o.members.length

/-- Distinct accumulators of a step lie apart. -/
theorem cell_apart (b : Block) (h : Fits o x cols) {r n r' n' : Nat}
    (hr : r < 64) (hr' : r' < 64) (hn1 : n < cols) (hn2 : n' < cols) (hne : ¬ (r = r' ∧ n = n')) (j : Nat) (hj : j < 4) :
    ((cell b o x r n).add j).within (cell b o x r' n') 4 = false := by
  have hget : ∀ k, k < o.members.length → o.members.getD k 0 % 6 = (o.members.map (· % 6)).getD k 0 := fun k hk => by
    rw [List.getD_eq_getElem _ _ hk, List.getD_eq_getElem _ _ (by rwa [List.length_map]), List.getElem_map]
  have hrow := h.row
  have h1 : (x.col + n) / 128 < o.members.length := Nat.div_lt_of_lt_mul (h.col n hn1)
  have h2 : (x.col + n') / 128 < o.members.length := Nat.div_lt_of_lt_mul (h.col n' hn2)
  have hinj : o.members.getD ((x.col + n) / 128) 0 % 6 = o.members.getD ((x.col + n') / 128) 0 % 6 → (x.col + n) / 128 = (x.col + n') / 128 := fun he => by
    rw [hget _ h1, hget _ h2, List.getD_eq_getElem _ _ (by rwa [List.length_map]), List.getD_eq_getElem _ _ (by rwa [List.length_map])] at he
    exact (h.cores.getElem_inj_iff).1 he
  unfold Loc.within
  rw [Bool.and_eq_false_iff, Bool.and_eq_false_iff]
  simp only [decide_eq_false_iff_not]
  unfold cell cbLoc Loc.add Loc.key
  generalize o.members.getD ((x.col + n) / 128) 0 % 6 = c at *
  generalize o.members.getD ((x.col + n') / 128) 0 % 6 = c' at *
  dsimp only
  by_contra hcon
  have hcc : c = c' := by omega
  have := hinj hcc
  omega

/-- The accumulators that P names have their new values, val, and no other byte of s has changed. -/
structure Filled (s : State) (b : Block) (o : EngOp) (x : StepCtx) (val : Nat → Nat → Nat) (P : Nat → Nat → Prop) (t : State) : Prop where
  done : ∀ r n, P r n → t.num (cell b o x r n) 4 = val r n % 2 ^ 32
  kept : ∀ y, (∀ r n, P r n → y.within (cell b o x r n) 4 = false) → t.byte y = s.byte y
  shape : shape t = shape s

/-- A cell reads as its bytes read. -/
theorem num_cell {s t : State} {l : Loc} (h : ∀ j, j < 4 → t.byte (l.add j) = s.byte (l.add j)) : t.num l 4 = s.num l 4 := by
  unfold State.num State.bytes
  exact congrArg leNat (List.map_congr_left fun j hj => h j (List.mem_range.1 hj))

variable {s t u : State} {val : Nat → Nat → Nat} {P : Nat → Nat → Prop}

/-- An accumulator that P does not name still has its old value. -/
theorem Filled.old (h : Filled s b o x val P t) (hf : Fits o x cols) (hP : ∀ r n, P r n → r < 64 ∧ n < cols) {r n : Nat} (hr : r < 64) (hn : n < cols)
    (hno : ¬ P r n) : t.num (cell b o x r n) 4 = s.num (cell b o x r n) 4 :=
  num_cell fun j hj => h.kept _ fun r' n' hp => cell_apart b hf hr (hP r' n' hp).1 hn (hP r' n' hp).2 (fun he => hno (he.1 ▸ he.2 ▸ hp)) j hj

/-- One accumulator more. -/
theorem Filled.store (h : Filled s b o x val P t) (hf : Fits o x cols) (hP : ∀ r n, P r n → r < 64 ∧ n < cols) {r n : Nat} (hr : r < 64) (hn : n < cols)
    (hno : ¬ P r n) (hs : t.Stored u (cell b o x r n) (leBytes 4 (val r n))) (hu : Frames.shape u = Frames.shape t) :
    Filled s b o x val (fun r' n' => P r' n' ∨ (r' = r ∧ n' = n)) u where
  done r' n' hp := by
    rcases hp with hp | ⟨rfl, rfl⟩
    · refine (num_cell fun j hj => hs.kept _ ?_).trans (h.done r' n' hp)
      rw [length_leBytes]
      exact cell_apart b hf (hP r' n' hp).1 hr (hP r' n' hp).2 hn (fun he => hno (he.1 ▸ he.2 ▸ hp)) j hj
    · exact num_written hs
  kept y hy := by
    refine (hs.kept y ?_).trans (h.kept y fun r' n' hp => hy r' n' (.inl hp))
    rw [length_leBytes]
    exact hy r n (.inr ⟨rfl, rfl⟩)
  shape := hu.trans h.shape

theorem Filled.congr {Q : Nat → Nat → Prop} (h : Filled s b o x val P t) (hq : ∀ r n, Q r n ↔ P r n) : Filled s b o x val Q t where
  done r n hp := h.done r n ((hq r n).1 hp)
  kept y hy := h.kept y fun r n hp => hy r n ((hq r n).2 hp)
  shape := h.shape

theorem holds_of_shape (h : Frames.shape t = Frames.shape s) (st : Store) : t.holds st = s.holds st := by
  have hblocks : t.blocks.map blockShape = s.blocks.map blockShape := (congrArg State.blocks h :)
  have hsome : ∀ n, (t.block? n).isSome = (s.block? n).isSome := fun n => by
    have hfind : (t.block? n).map blockShape = (s.block? n).map blockShape := by rw [block?_map_blockShape, block?_map_blockShape, hblocks]
    simpa using congrArg Option.isSome hfind
  cases st <;> first | rfl | exact hsome _

theorem stored_performOp {a : Acc} (h : s.holds a.loc.store = true) (who : Who) (vs : List Byte) : s.Stored (s.performOp b o who a vs) a.loc vs := by
  refine stored_of_bytes (stored_perform s who a vs h) fun l => ?_
  unfold State.performOp
  exact (SameBytes.foldl (fun (s : State) (x : Loc × Writer) => s.setWriter x.1 x.2) (fun _ _ => ⟨rfl, rfl, rfl, rfl⟩) _ _).byte l

end

/-! ## One step -/

section
variable {s t : State} {b : Block} {o : EngOp} {x : StepCtx} {cols : Nat} {ra rb : Nat → Nat → Option Nat}

/-- What the accumulator of row r and column n becomes. -/
def sumOf (s : State) (b : Block) (o : EngOp) (x : StepCtx) (ra rb : Nat → Nat → Option Nat) (r n : Nat) : Nat :=
  (x.apply (if x.t = 0 ∧ x.chunk = 0 ∧ x.c.acc = false then 0 else s.num (cell b o x r n) 4) ((List.range 32).map (ra r)) ((List.range 32).map (rb n))).1

/-- The columns of a step. -/
def columns (x : StepCtx) (rb : Nat → Nat → Option Nat) (cols : Nat) : List (Nat × List (Option Nat)) :=
  (List.range cols).map fun n => (x.col + n, (List.range 32).map (rb n))

theorem columns_succ (x : StepCtx) (rb : Nat → Nat → Option Nat) (m : Nat) : columns x rb (m + 1) = columns x rb m ++ [(x.col + m, (List.range 32).map (rb m))] := by
  unfold columns
  rw [List.range_succ (n := m), List.map_append, List.map_singleton]

/-- The value of one column of a row. -/
def columnValue (t : State) (b : Block) (o : EngOp) (x : StepCtx) (i : Nat) (a : List (Option Nat)) (y : Nat × List (Option Nat)) : Nat :=
  (x.apply (if (x.t == 0 && x.chunk == 0 && !x.c.acc) = true then 0 else t.num (cbLoc b.id (o.members.getD (y.1 / 128) 0 % 6) i (y.1 % 128)) 4) a y.2).1

theorem stepRow_append (t : State) (b : Block) (o : EngOp) (x : StepCtx) (i : Nat) (a : List (Option Nat)) (l : List (Nat × List (Option Nat)))
    (y : Nat × List (Option Nat)) : (t.stepRow b o x i a (l ++ [y])).1 = (t.stepRow b o x i a l).1.performOp b o (o.who b)
      ⟨cbLoc b.id (o.members.getD (y.1 / 128) 0 % 6) i (y.1 % 128), true, false, false⟩ (leBytes 4 (columnValue t b o x i a y)) := by
  unfold State.stepRow
  dsimp only
  rw [List.foldl_append]
  rfl

theorem stepRow_fills (hf : Fits o x cols) (hh : s.holds (.cb b.id) = true) {r : Nat} (hr : r < 64)
    (h : Filled s b o x (sumOf s b o x ra rb) (fun r' n' => r' < r ∧ n' < cols) t) :
    Filled s b o x (sumOf s b o x ra rb) (fun r' n' => r' < r + 1 ∧ n' < cols) (t.stepRow b o x (x.row + r) ((List.range 32).map (ra r)) (columns x rb cols)).1 := by
  have hstep : ∀ m, m ≤ cols → Filled s b o x (sumOf s b o x ra rb) (fun r' n' => (r' < r ∧ n' < cols) ∨ (r' = r ∧ n' < m))
      (t.stepRow b o x (x.row + r) ((List.range 32).map (ra r)) (columns x rb m)).1 := fun m hm => by
    induction m with
    | zero => exact h.congr fun r' n' => by simp
    | succ m ih =>
      have hbelow := ih (by omega)
      have hold := h.old hf (fun r' n' hp => ⟨by omega, hp.2⟩) hr (show m < cols by omega) (fun hp => absurd hp.1 (Nat.lt_irrefl r))
      rw [columns_succ, stepRow_append]
      have hvalue : columnValue t b o x (x.row + r) ((List.range 32).map (ra r)) (x.col + m, (List.range 32).map (rb m)) = sumOf s b o x ra rb r m := by
        unfold columnValue sumOf
        rw [← hold]
        simp only [Bool.and_eq_true, beq_iff_eq, Bool.not_eq_true', and_assoc]
        rfl
      rw [hvalue]
      refine (hbelow.store hf (fun r' n' hp => ?_) hr (show m < cols by omega) ?_
        (stored_performOp (a := ⟨cell b o x r m, true, false, false⟩) ((holds_of_shape hbelow.shape _).trans hh) _ _) (shape_performOp _ _ _ _ _ _)).congr fun r' n' => ?_
      · omega
      · omega
      · omega
  exact (hstep cols (Nat.le_refl _)).congr fun r' n' => by omega

/-- The rows of a step, one after the other. -/
def rows (s : State) (b : Block) (o : EngOp) (x : StepCtx) (bs : List (Nat × List (Option Nat))) (as : List (List (Option Nat) × Nat)) : State × Flags :=
  as.foldl (fun (acc : State × Flags) y =>
    let r := acc.1.stepRow b o x (x.row + y.2) y.1 bs
    (r.1, acc.2 ||| r.2)) (s, 0)

theorem rows_fill (hf : Fits o x cols) (hh : s.holds (.cb b.id) = true) (m : Nat) (hm : m ≤ 64) :
    Filled s b o x (sumOf s b o x ra rb) (fun r n => r < m ∧ n < cols)
      (rows s b o x (columns x rb cols) ((List.range m).map fun r => ((List.range 32).map (ra r), r))).1 := by
  induction m with
  | zero => exact ⟨fun r n hp => absurd hp.1 (Nat.not_lt_zero r), fun _ _ => rfl, rfl⟩
  | succ m ih =>
    have hrow := stepRow_fills hf hh (show m < 64 by omega) (ih (by omega))
    unfold rows at hrow ⊢
    rw [List.range_succ (n := m), List.map_append, List.foldl_append]
    exact hrow

theorem mapM_ok {α β γ : Type} {f : β → Except Trap γ} {e : α → β} {g : α → γ} {l : List α} (h : ∀ a ∈ l, f (e a) = .ok (g a)) :
    (l.map e).mapM f = .ok (l.map g) := by
  induction l with
  | nil => rfl
  | cons a l ih =>
    rw [List.map_cons, List.mapM_cons, h a List.mem_cons_self, ih fun a ha => h a (List.mem_cons_of_mem _ ha)]
    rfl

/-- A step whose operands can be read and that races with nobody. -/
theorem matStep_ok (ha : ∀ r, r < 64 → ∀ k, k < 32 → s.elemA b o o.stepCtx (o.stepCtx.row + r) (o.stepCtx.k + k) = .ok (ra r k))
    (hb : ∀ n, n < cols → ∀ k, k < 32 → s.elemB b o o.stepCtx (o.stepCtx.k + k) (o.stepCtx.col + n) = .ok (rb n k))
    (hcols : cols = min 192 (o.stepCtx.c.n - o.stepCtx.col)) (hrace : s.stepRace b o o.stepCtx cols = none) :
    s.matStep b o = .ok (rows s b o o.stepCtx (columns o.stepCtx rb cols) ((List.range 64).map fun r => ((List.range 32).map (ra r), r))) := by
  have has : (List.range 64).mapM (fun r => ((List.range 32).map (o.stepCtx.k + ·)).mapM fun k => s.elemA b o o.stepCtx (o.stepCtx.row + r) k) =
      .ok ((List.range 64).map fun r => (List.range 32).map (ra r)) := by
    have := mapM_ok (e := id) (l := List.range 64) (f := fun r => ((List.range 32).map (o.stepCtx.k + ·)).mapM fun k => s.elemA b o o.stepCtx (o.stepCtx.row + r) k)
      (g := fun r => (List.range 32).map (ra r)) fun r hr => mapM_ok fun k hk => ha r (List.mem_range.1 hr) k (List.mem_range.1 hk)
    rwa [List.map_id] at this
  have hbs : (List.range cols).mapM (fun n => do
      let v ← ((List.range 32).map (o.stepCtx.k + ·)).mapM fun k => s.elemB b o o.stepCtx k (o.stepCtx.col + n)
      .ok (o.stepCtx.col + n, v)) = Except.ok (columns o.stepCtx rb cols) := by
    have := mapM_ok (e := id) (l := List.range cols) (f := fun n => do
        let v ← ((List.range 32).map (o.stepCtx.k + ·)).mapM fun k => s.elemB b o o.stepCtx k (o.stepCtx.col + n)
        .ok (o.stepCtx.col + n, v)) (g := fun n => (o.stepCtx.col + n, (List.range 32).map (rb n))) fun n hn => by
      have hv := mapM_ok (e := (o.stepCtx.k + ·)) (l := List.range 32) (f := fun k => s.elemB b o o.stepCtx k (o.stepCtx.col + n)) (g := rb n)
        fun k hk => hb n (List.mem_range.1 hn) k (List.mem_range.1 hk)
      show (do
        let v ← ((List.range 32).map (o.stepCtx.k + ·)).mapM fun k => s.elemB b o o.stepCtx k (o.stepCtx.col + n)
        Except.ok (o.stepCtx.col + n, v)) = _
      rw [hv]
      rfl
    rwa [List.map_id] at this
  have hzip : ((List.range 64).map fun r => (List.range 32).map (ra r)).zipIdx = (List.range 64).map fun r => ((List.range 32).map (ra r), r) :=
    List.ext_getElem (by simp) fun m h1 h2 => by simp
  unfold State.matStep
  dsimp only
  rw [has]
  rw [← hcols]
  show ((List.mapM _ _ : Except Trap (List (Nat × List (Option Nat)))) >>= _) = _
  rw [hbs]
  show (match s.stepRace b o o.stepCtx cols with | some t => _ | none => _) = _
  rw [hrace, hzip]
  rfl

end

/-! ## Changes of the block's operations -/

section
variable {b : Block} {tl num : Nat}

/-- The operations of a number after a change of those of that number. -/
theorem modOp_at {f : EngOp → EngOp} (hf : ∀ o, (f o).tl = o.tl ∧ (f o).num = o.num) {q : EngOp} (hq : q ∈ (b.modOp tl num f).ops) (htl : q.tl = tl)
    (hnum : q.num = num) : ∃ p ∈ b.ops, p.tl = tl ∧ p.num = num ∧ q = f p := by
  obtain ⟨p, hp, rfl⟩ := List.mem_map.1 hq
  by_cases his : p.is tl num = true
  · rw [if_pos his] at htl hnum ⊢
    exact ⟨p, hp, (hf p).1.symm.trans htl, (hf p).2.symm.trans hnum, rfl⟩
  · rw [if_neg his] at htl hnum
    refine absurd ?_ his
    unfold EngOp.is
    rw [htl, hnum]
    simp

theorem ops_groups {α : Type} (c : α → Prop) [DecidablePred c] (f : α → Nat) (h : Group → Group) (l : List α) (b : Block) :
    (l.foldl (fun b p => if c p then b else b.modGroup (f p) h) b).ops = b.ops := by
  induction l generalizing b with
  | nil => rfl
  | cons x r ih =>
    rw [List.foldl_cons, ih]
    split <;> rfl

/-- What the end of an iteration does to the operation's parts. -/
def cleared (o : EngOp) : EngOp := { o with parts := o.parts.map fun (p : Part) => { p with pix := 0 } }

theorem ops_clearPix (b : Block) (o : EngOp) : (b.clearPix o).ops = (b.modOp o.tl o.num cleared).ops := by
  unfold Block.clearPix Block.modOp
  dsimp only
  rw [ops_groups]
  rfl

theorem stays_clearPix (o : EngOp) : IssuingBlock.Stays fun b => b.clearPix o := by
  have hfold : IssuingBlock.Stays fun b : Block => o.parts.foldl (fun b p => if p.pix = 0 then b else b.modGroup p.grp fun g => { g with pix := 0 }) b :=
    IssuingBlock.Stays.foldl (f := fun (b : Block) (p : Part) => if p.pix = 0 then b else b.modGroup p.grp fun g => { g with pix := 0 }) (fun p => by
      split
      · exact ⟨fun _ => rfl, fun _ => rfl, fun _ => ⟨rfl, rfl, rfl, rfl⟩⟩
      · exact IssuingBlock.stays_modGroup _ _) o.parts
  exact IssuingBlock.Stays.comp (h := fun b : Block => b.modOp o.tl o.num cleared) ⟨fun _ => rfl, fun _ => rfl, fun _ => ⟨rfl, rfl, rfl, rfl⟩⟩ hfold

end

/-! ## The operation after a step -/

section
variable {s : State} {blk : Nat} {b : Block} {o : EngOp}

/-- What the operation is once a step has been taken (R299). -/
def Stepped (o q : EngOp) : Prop :=
  if o.pix + 1 < (cfgOf (cfgWord o.opa)).steps then q.pix = o.pix + 1 ∧ q.state = .running
  else if iterNumber o.levels o.ivec + 1 < levelsTotal o.levels then q.pix = 0 ∧ q.ivec = iterVector o.levels (iterNumber o.levels o.ivec + 1)
  else q.state = .worked

/-- The step's end changes the block alone, and there the operation. -/
theorem stepDone_facts (hb : s.block? blk = some b) (htl : o.tl = 1) (hrun : ∀ q ∈ b.ops, q.tl = 1 → q.num = o.num → q.state = .running) :
    (∀ l, (s.stepDone blk o).byte l = s.byte l) ∧ ∃ b', (s.stepDone blk o).block? blk = some b' ∧ ∀ q ∈ b'.ops, q.tl = 1 → q.num = o.num → Stepped o q := by
  have hclear := block?_modBlock s blk blk (fun b => b.clearPix o) (stays_clearPix o).id
  rw [if_pos rfl, hb] at hclear
  have hbytes : ∀ l, (s.modBlock blk fun b => b.clearPix o).byte l = s.byte l := fun l =>
    byte_modBlock s blk _ l (stays_clearPix o).id (stays_clearPix o).stores
  have hops : ∀ (f : EngOp → EngOp) (u : State) (l : Loc), (u.modOp blk 1 o.num f).byte l = u.byte l := fun f u l =>
    byte_modBlock u blk (fun b => b.modOp 1 o.num f) l (fun _ => rfl) fun _ => ⟨rfl, rfl, rfl, rfl⟩
  unfold State.stepDone Stepped
  dsimp only
  split
  · refine ⟨hops _ s, _, by rw [block?_modOp, if_pos rfl, hb]; rfl, fun q hq h1 hn => ?_⟩
    obtain ⟨p, hp, hp1, hpn, rfl⟩ := modOp_at (fun _ => by exact ⟨rfl, rfl⟩) hq h1 hn
    exact ⟨rfl, hrun p hp hp1 hpn⟩
  · split
    · refine ⟨fun l => (hops _ _ l).trans (hbytes l), _, by rw [block?_modOp, if_pos rfl, hclear]; rfl, fun q hq h1 hn => ?_⟩
      obtain ⟨p, -, -, -, rfl⟩ := modOp_at (fun _ => by exact ⟨rfl, rfl⟩) hq h1 hn
      exact ⟨rfl, rfl⟩
    · unfold State.workedOp
      rw [htl]
      refine ⟨fun l => (hops _ _ l).trans (hbytes l), _, by rw [block?_modOp, if_pos rfl, hclear]; rfl, fun q hq h1 hn => ?_⟩
      obtain ⟨p, -, -, -, rfl⟩ := modOp_at (fun _ => by exact ⟨rfl, rfl⟩) hq h1 hn
      rfl

theorem exec_matrixStep (hb : s.block? blk = some b) (hp : b.place.isSome = true) (hst : b.stepping[Config.pick s.tick % b.stepping.length]? = some o)
    (ha : isArray o.instr = true) : exec (.matrixStep blk) s = match s.matStep b o with
      | .error t => .next (s.modBlock blk fun b => b.stopOp o t)
      | .ok r => .next ((r.1.modOp blk 1 o.num fun x => { x with flags := x.flags ||| r.2 }).stepDone blk o) := by
  obtain ⟨c, hc⟩ := Option.isSome_iff_exists.1 hp
  show execMatrixStep blk s = _
  unfold execMatrixStep
  simp only [hb, hc, hst]
  generalize s.matStep b o = r
  split
  · next hi =>
    rw [hi] at ha
    cases ha
  · next hi =>
    rw [hi] at ha
    cases ha
  · rfl

end

/-! ## The start of a t1 operation -/

section
variable {s : State} {blk n : Nat} {b : Block} {o : EngOp}

/-- The operation as it begins. -/
def begins (b : Block) (o : EngOp) : EngOp := { b.starting o with begun := true }

/-- The machine with the operation running. -/
def startedOp (s : State) (blk n : Nat) (b : Block) (o : EngOp) : State := s.modOp blk 1 n fun _ => { begins b o with state := .running }

/-- What the start does with the operation, once it runs. -/
def startRest (s : State) (blk n : Nat) (b : Block) (o : EngOp) (t : State) : Host.Outcome State Fault Refusal :=
  match o.instr with
  | .mzero =>
    match t.cbRace (o.who b) (cbLoc blk (o.grp % 6) 0 0) 262144 true with
    | some e => .next (t.modBlock blk fun b => b.stopOp o e)
    | none => .next ((t.performOp b o (o.who b) ⟨cbLoc blk (o.grp % 6) 0 0, true, false, false⟩ (List.replicate 262144 0)).endOp blk o)
  | .mdrn .. => .next t
  | .mdst _ _ _ x => .next (match o.drainBad true x.toNat with | some e => t.modBlock blk fun b => b.stopOp o e | none => t)
  | .mlda _ _ _ x => .next (match o.drainBad false x.toNat with | some e => t.modBlock blk fun b => b.stopOp o e | none => t)
  | _ =>
    match s.startArray b o with
    | .ok o => .next (t.modOp blk 1 n fun _ => o)
    | .error e => .next (t.modBlock blk fun b => b.stopOp o e)

theorem exec_matrixOpStart (hb : s.block? blk = some b) (ho : b.op? 1 n = some o) (hm : b.mayStart1 o = true) :
    exec (.matrixOpStart blk n) s = startRest (startedOp s blk n b o) blk n b (begins b o) (startedOp s blk n b o) := by
  show execMatrixOpStart blk n s = _
  unfold execMatrixOpStart startRest
  simp only [hb, ho, hm, Bool.not_true, Bool.false_eq_true, if_false]
  rfl

theorem is_of_op? {tl : Nat} (ho : b.op? tl n = some o) : o.tl = tl ∧ o.num = n := by
  have := List.find?_some (p := fun o : EngOp => o.is tl n) ho
  simpa [EngOp.is] using this

theorem is_begins (ho : b.op? 1 n = some o) : (begins b o).tl = 1 ∧ (begins b o).num = n := by
  obtain ⟨htl, hnum⟩ := is_of_op? ho
  exact ⟨htl, hnum⟩

/-- The block, its operation and the bytes once the operation runs. -/
theorem startedOp_facts (hb : s.block? blk = some b) (ho : b.op? 1 n = some o) : ∃ b1, (startedOp s blk n b o).block? blk = some b1 ∧
    b1.op? 1 n = some { begins b o with state := .running } ∧ ∀ l, (startedOp s blk n b o).byte l = s.byte l :=
  ⟨_, by rw [startedOp, block?_modOp, if_pos rfl, hb]; rfl, op?_modOp_same ho rfl, fun l =>
    byte_modBlock s blk (fun b' => b'.modOp 1 n fun _ => { begins b o with state := .running }) l (fun _ => rfl) fun _ => ⟨rfl, rfl, rfl, rfl⟩⟩

theorem op?_stopOp {b1 : Block} {o o1 : EngOp} {tl : Nat} (h : b1.op? tl n = some o1) (ho : o.tl = tl ∧ o.num = n) (e : Trap) :
    ((b1.stopOp o e).op? tl n).map (·.state) = some (.stopped e) := by
  obtain ⟨h1, hn⟩ := is_of_op? h
  have hops : (b1.stopOp o e).ops = (b1.modOp tl n fun _ => { o with
      state := .stopped e, parts := o.parts.map fun p => { p with back := false, pix := o.pix, ivec := o.ivec, units := [] } }).ops := by
    unfold Block.stopOp
    dsimp only
    rw [ho.1, ho.2]
    generalize o.arrived = l
    generalize Block.modOp b1 tl n _ = c
    induction l generalizing c with
    | nil => rfl
    | cons x r ih => exact ih _
  rw [op?_of_ops hops, op?_modOp_same h]
  · rfl
  · unfold EngOp.is
    rw [ho.1, ho.2, h1, hn]

/-- An operation that stops as it begins. -/
theorem stops {t : State} {b1 : Block} {o o1 : EngOp} {tl : Nat} (ht : t.block? blk = some b1) (h : b1.op? tl n = some o1) (ho : o.tl = tl ∧ o.num = n) (e : Trap)
    (hbytes : ∀ l, t.byte l = s.byte l) : ∃ u b', Host.Outcome.next (t.modBlock blk fun b => b.stopOp o e) = (.next u : Host.Outcome State Fault Refusal) ∧
      u.block? blk = some b' ∧ (∀ y, u.byte y = s.byte y) ∧ (b'.op? tl n).map (·.state) = some (.stopped e) :=
  ⟨_, _, rfl, by rw [block?_modBlock _ _ _ _ (Timelines.stays_stopOp o e).id, if_pos rfl, ht]; rfl,
    fun y => (byte_modBlock _ _ _ y (Timelines.stays_stopOp o e).id (Timelines.stays_stopOp o e).stores).trans (hbytes y), op?_stopOp h ho e⟩

theorem op?_worked {b1 : Block} {o o1 : EngOp} {tl : Nat} (h : b1.op? tl n = some o1) (ho : o.tl = tl ∧ o.num = n) :
    (((b1.clearPix o).modOp o.tl o.num fun x => { x with state := .worked }).op? tl n).map (·.state) = some .worked := by
  have hclear : (b1.clearPix o).op? tl n = some (cleared o1) := by
    rw [op?_of_ops (ops_clearPix b1 o), ho.1, ho.2]
    exact op?_modOp h fun _ => ⟨rfl, rfl⟩
  rw [ho.1, ho.2, op?_modOp hclear (fun _ => by exact ⟨rfl, rfl⟩)]
  rfl

variable (hb : s.block? blk = some b) (ho : b.op? 1 n = some o) (hm : b.mayStart1 o = true)

/-- The end of an operation's work: the bytes stand, and the operation has worked. -/
theorem endOp_facts {t : State} {b2 : Block} {o o1 : EngOp} {tl : Nat} (ht : t.block? blk = some b2) (h : b2.op? tl n = some o1) (ho : o.tl = tl ∧ o.num = n) :
    (∀ l, (t.endOp blk o).byte l = t.byte l) ∧ ∃ b', (t.endOp blk o).block? blk = some b' ∧ (b'.op? tl n).map (·.state) = some .worked := by
  have hclear := block?_modBlock t blk blk (fun b => b.clearPix o) (stays_clearPix o).id
  rw [if_pos rfl, ht] at hclear
  refine ⟨fun l => ?_, _, ?_, op?_worked h ho⟩
  · exact (byte_modBlock _ blk (fun b => b.modOp o.tl o.num fun x => { x with state := .worked }) l (fun _ => rfl) fun _ => ⟨rfl, rfl, rfl, rfl⟩).trans
      (byte_modBlock t blk _ l (stays_clearPix o).id (stays_clearPix o).stores)
  · show ((t.modBlock blk fun b => b.clearPix o).modOp blk o.tl o.num fun x => { x with state := .worked }).block? blk = _
    rw [block?_modOp, if_pos rfl, hclear]
    rfl

include hb ho hm

/-- MZERO has cleared its CB and has done its work. -/
theorem mzero_clears (hi : o.instr = .mzero) (hrace : s.cbRace ((b.starting o).who b) (cbLoc blk (o.grp % 6) 0 0) 262144 true = none) :
    ∃ t b', exec (.matrixOpStart blk n) s = .next t ∧ t.block? blk = some b' ∧ s.Stored t (cbLoc blk (o.grp % 6) 0 0) (List.replicate 262144 0) ∧
      (b'.op? 1 n).map (·.state) = some .worked := by
  obtain ⟨b1, hb1, ho1, hbytes⟩ := startedOp_facts hb ho
  have hz : ∃ z : List Byte, z = List.replicate 262144 0 := ⟨_, rfl⟩
  obtain ⟨z, hz⟩ := hz
  have hrest : exec (.matrixOpStart blk n) s = .next (((startedOp s blk n b o).performOp b (begins b o) ((begins b o).who b)
      ⟨cbLoc blk (o.grp % 6) 0 0, true, false, false⟩ z).endOp blk (begins b o)) := by
    rw [exec_matrixOpStart hb ho hm, hz]
    unfold startRest
    rw [show (begins b o).instr = .mzero from hi]
    dsimp only
    rw [show (startedOp s blk n b o).cbRace ((begins b o).who b) (cbLoc blk ((begins b o).grp % 6) 0 0) 262144 true = none from hrace]
    rfl
  have hholds : (startedOp s blk n b o).holds (cbLoc blk (o.grp % 6) 0 0).store = true := by
    show ((startedOp s blk n b o).block? blk).isSome = true
    rw [hb1]
    rfl
  have hstored := stored_performOp (b := b) (o := begins b o) (a := ⟨cbLoc blk (o.grp % 6) 0 0, true, false, false⟩) hholds ((begins b o).who b) z
  obtain ⟨b2, hb2, hops⟩ := ops_of_shape (vgShape_of_shape (shape_performOp (startedOp s blk n b o) b (begins b o) ((begins b o).who b)
    ⟨cbLoc blk (o.grp % 6) 0 0, true, false, false⟩ z)) hb1
  obtain ⟨hend, b', hb', hstate⟩ := endOp_facts (o := begins b o) hb2 ((op?_of_ops hops 1 n).trans ho1) (is_begins ho)
  refine ⟨_, b', hrest, hb', hz ▸ ⟨fun k hk => (hend _).trans (hstored.written k hk), fun x hx => ?_⟩, hstate⟩
  exact ((hend x).trans (hstored.kept x hx)).trans (hbytes x)

theorem mzero_stops (hi : o.instr = .mzero) {e : Trap} (hrace : s.cbRace ((b.starting o).who b) (cbLoc blk (o.grp % 6) 0 0) 262144 true = some e) :
    ∃ t b', exec (.matrixOpStart blk n) s = .next t ∧ t.block? blk = some b' ∧ (∀ y, t.byte y = s.byte y) ∧ (b'.op? 1 n).map (·.state) = some (.stopped e) := by
  obtain ⟨b1, hb1, ho1, hbytes⟩ := startedOp_facts hb ho
  obtain ⟨u, b', hu, hb', hbyte, hstate⟩ := stops (o := begins b o) hb1 ho1 (is_begins ho) e hbytes
  refine ⟨u, b', ?_, hb', hbyte, hstate⟩
  rw [exec_matrixOpStart hb ho hm, ← hu]
  unfold startRest
  rw [show (begins b o).instr = .mzero from hi]
  dsimp only
  rw [show (startedOp s blk n b o).cbRace ((begins b o).who b) (cbLoc blk ((begins b o).grp % 6) 0 0) 262144 true = some e from hrace]

theorem mdrn_runs (hi : isMdrn o.instr = true) : ∃ t b', exec (.matrixOpStart blk n) s = .next t ∧ t.block? blk = some b' ∧ (∀ y, t.byte y = s.byte y) ∧
    (b'.op? 1 n).map (·.state) = some .running := by
  obtain ⟨b1, hb1, ho1, hbytes⟩ := startedOp_facts hb ho
  refine ⟨_, b1, ?_, hb1, hbytes, by rw [ho1]; rfl⟩
  have hi' : isMdrn (begins b o).instr = true := hi
  rw [exec_matrixOpStart hb ho hm]
  unfold startRest
  unfold isMdrn at hi'
  split at hi'
  · next hd => rw [hd]
  · cases hi'

theorem array_rest (hi : isArray o.instr = true) : exec (.matrixOpStart blk n) s = match (startedOp s blk n b o).startArray b (begins b o) with
    | .ok o' => .next ((startedOp s blk n b o).modOp blk 1 n fun _ => o')
    | .error e => .next ((startedOp s blk n b o).modBlock blk fun b' => b'.stopOp (begins b o) e) := by
  have hi' : isArray (begins b o).instr = true := hi
  rw [exec_matrixOpStart hb ho hm]
  unfold startRest
  split
  · next hd =>
    rw [hd] at hi'
    cases hi'
  · next hd =>
    rw [hd] at hi'
    cases hi'
  · next hd =>
    rw [hd] at hi'
    cases hi'
  · next hd =>
    rw [hd] at hi'
    cases hi'
  · rfl

/-- The operation of an array instruction without records as it runs. -/
def recordless (b : Block) (o : EngOp) : EngOp := { (begins b o).withRecords [] with state := .running }

omit hb ho hm in
theorem is_recordless (b : Block) (o : EngOp) (tl num : Nat) : (recordless b o).is tl num = EngOp.is { begins b o with state := .running } tl num := rfl

theorem array_stops (hi : isArray o.instr = true) {x : Word} (hx : arrayMalformed o.instr o.opa = some x) :
    ∃ t b', exec (.matrixOpStart blk n) s = .next t ∧ t.block? blk = some b' ∧ (∀ y, t.byte y = s.byte y) ∧
      (b'.op? 1 n).map (·.state) = some (.stopped { plainTrap .prot 7 with addr := x }) := by
  obtain ⟨b1, hb1, ho1, hbytes⟩ := startedOp_facts hb ho
  obtain ⟨u, b', hu, hb', hbyte, hstate⟩ := stops (o := begins b o) hb1 ho1 (is_begins ho) { plainTrap .prot 7 with addr := x } hbytes
  refine ⟨u, b', ?_, hb', hbyte, hstate⟩
  have hstart : (startedOp s blk n b o).startArray b (begins b o) = .error { plainTrap .prot 7 with addr := x } := by
    unfold State.startArray
    rw [show arrayMalformed (begins b o).instr (begins b o).opa = some x from hx]
  rw [array_rest hb ho hm hi, hstart, ← hu]

theorem array_runs (hi : isArray o.instr = true) (hx : arrayMalformed o.instr o.opa = none) (hn : (cfgOf (cfgWord o.opa)).n ≤ 128 * o.members.length)
    (hrec : recordCount o.instr = 0) (hpix : o.pix < (cfgOf (cfgWord o.opa)).steps) (hiv : o.ivec = [0, 0, 0, 0, 0]) :
    ∃ t b', exec (.matrixOpStart blk n) s = .next t ∧ t.block? blk = some b' ∧ (∀ y, t.byte y = s.byte y) ∧ (b'.op? 1 n).map (·.state) = some .running := by
  obtain ⟨b1, hb1, ho1, hbytes⟩ := startedOp_facts hb ho
  have hloop : isLooped o.instr = false := by
    unfold recordCount at hrec
    cases hl : isLooped o.instr with
    | false => rfl
    | true =>
      rw [hl] at hrec
      simp at hrec
  have hstart : (startedOp s blk n b o).startArray b (begins b o) = .ok (recordless b o) := by
    unfold State.startArray State.readRecords
    rw [show arrayMalformed (begins b o).instr (begins b o).opa = none from hx, show recordCount (begins b o).instr = 0 from hrec]
    dsimp only
    rw [if_neg (show ¬ 128 * (begins b o).members.length < (cfgOf (cfgWord (begins b o).opa)).n from Nat.not_lt.2 hn)]
    have hlevels : (recordless b o).levels = [] := if_neg (by
      show ¬ isLooped o.instr = true
      rw [hloop]
      exact Bool.false_ne_true)
    have hinside : insideSpace ((recordless b o).levels) (cfgOf (cfgWord (begins b o).opa)).steps
        ((begins b o).withRecords []).pix ((begins b o).withRecords []).ivec = true := by
      rw [hlevels]
      show insideSpace [] (cfgOf (cfgWord o.opa)).steps o.pix o.ivec = true
      unfold insideSpace
      rw [hiv, decide_eq_true hpix]
      decide
    exact if_pos hinside
  refine ⟨_, _, by rw [array_rest hb ho hm hi, hstart], by rw [block?_modOp, if_pos rfl, hb1]; rfl, fun y => ?_, ?_⟩
  · exact (byte_modBlock (startedOp s blk n b o) blk (fun b' => b'.modOp 1 n fun _ => (recordless b o)) y (fun _ => rfl)
      fun _ => ⟨rfl, rfl, rfl, rfl⟩).trans (hbytes y)
  · exact congrArg (Option.map (·.state)) (op?_modOp_same ho1 (is_recordless b o 1 n))

end

/-- Settles O32: a step by `rows_fill` and `stepDone_facts`, the starts by what each kind of operation does once it runs. -/
theorem matrixRuns : Obligations.MatrixRuns := by
  unfold Obligations.MatrixRuns
  refine ⟨fun s blk b o ra rb hb hp hst hi => ?_, fun s blk n b o hb ho hm => ⟨fun hz hr => ?_, fun hz e hr => mzero_stops hb ho hm hz hr, mdrn_runs hb ho hm,
    fun hi hx hn hrec hpix hiv => array_runs hb ho hm hi hx hn hrec hpix hiv, fun hi x hx => array_stops hb ho hm hi hx⟩⟩
  · intro x cols ha hbn hrace hcores hn htl honly
    have hid : b.id = blk := block_id hb
    have hfits : Fits o x cols := ⟨row_stepCtx o, hcores, fun n hn => by
      have : n < x.c.n - x.col := by omega
      omega⟩
    have hholds : s.holds (.cb b.id) = true := by
      show (s.block? b.id).isSome = true
      rw [hid, hb]
      rfl
    have hfill := rows_fill (ra := ra) (rb := rb) hfits hholds 64 (Nat.le_refl _)
    have hstep := matStep_ok ha hbn rfl hrace
    generalize hrows : rows s b o x (columns x rb cols) ((List.range 64).map fun r => ((List.range 32).map (ra r), r)) = out at hfill hstep
    obtain ⟨b1, hb1, hops⟩ := ops_of_shape (vgShape_of_shape hfill.shape) hb
    have hflags : (out.1.modOp blk 1 o.num fun q => { q with flags := q.flags ||| out.2 }).block? blk =
        some (b1.modOp 1 o.num fun q => { q with flags := q.flags ||| out.2 }) := by
      rw [block?_modOp, if_pos rfl, hb1]
      rfl
    have hrunning : o.state = .running := by
      have hmem := (List.mem_filter.1 (List.mem_of_getElem? hst)).2
      simp only [Bool.and_eq_true, beq_iff_eq] at hmem
      exact hmem.1
    obtain ⟨hbytes, b', hb', hq⟩ := stepDone_facts hflags htl fun q hq h1 hnum => by
      obtain ⟨p, hp, hp1, hpn, rfl⟩ := modOp_at (fun _ => by exact ⟨rfl, rfl⟩) hq h1 hnum
      show p.state = .running
      rw [honly p (hops ▸ hp) hp1 hpn, hrunning]
    have hbyte : ∀ l, _ = out.1.byte l := fun l => (hbytes l).trans (byte_modBlock out.1 blk (fun b' => b'.modOp 1 o.num fun q => { q with flags := q.flags ||| out.2 }) l
      (fun _ => rfl) fun _ => ⟨rfl, rfl, rfl, rfl⟩)
    refine ⟨_, by rw [exec_matrixStep hb hp hst hi, hstep], fun r hr n hn => ?_, fun y hy => ?_, b', hb', hq⟩
    · exact (num_cell fun j _ => hbyte _).trans (hfill.done r n ⟨hr, hn⟩)
    · exact (hbyte y).trans (hfill.kept y fun r n hrn => hy r hrn.1 n hrn.2)
  · obtain ⟨t, b', hrun, hb', ⟨hw, hk⟩, hstate⟩ := mzero_clears hb ho hm hz hr
    refine ⟨t, b', hrun, hb', fun k hk => ?_, fun y hy => hk y ?_, hstate⟩
    · have hw' := hw k (by rw [List.length_replicate]; exact hk)
      rwa [List.getD_replicate _ hk] at hw'
    · rw [List.length_replicate]
      exact hy

end Sys2Proof.Proofs.MatrixRuns
end

section
/-! SUPPORT. The cells of the plane (R279, R281): sets of cells, cell registers, and the values that a rounded result can have. -/

namespace Sys2Proof.Proofs.Cells

open Sys2Proof Sys2Proof.Machine Sys2Proof.Laws Sys2Proof.Proofs.Timelines

/-! ## Rounded f32 values fit in a cell -/

theorem roundAt_le (rnd : Rnd) (neg : Bool) (m : Nat) (e : Int) (st : Bool) {q : Int} {f : Nat} (hq : (Nat.log2 m : Int) + e - f ≤ q) :
    (roundAt rnd neg m e st q).1 ≤ 2 ^ (f + 1) := by
  have hm : m < 2 ^ (Nat.log2 m + 1) := Nat.lt_log2_self
  unfold roundAt
  split
  next h =>
    have hk : m <<< (e - q).toNat < 2 ^ (f + 1) := by
      rw [Nat.shiftLeft_eq]
      calc m * 2 ^ (e - q).toNat < 2 ^ (Nat.log2 m + 1) * 2 ^ (e - q).toNat := Nat.mul_lt_mul_of_pos_right hm (Nat.two_pow_pos _)
        _ = 2 ^ (Nat.log2 m + 1 + (e - q).toNat) := (Nat.pow_add ..).symm
        _ ≤ 2 ^ (f + 1) := Nat.pow_le_pow_right (by decide) (by omega)
    dsimp only
    split <;> omega
  next h =>
    have hk : m >>> (q - e).toNat < 2 ^ (f + 1) := by
      rw [Nat.shiftRight_eq_div_pow, Nat.div_lt_iff_lt_mul (Nat.two_pow_pos _), ← Nat.pow_add]
      exact Nat.lt_of_lt_of_le hm (Nat.pow_le_pow_right (by decide) (by omega))
    dsimp only
    split <;> omega

theorem signBit_f32_lt (neg : Bool) : signBit .f32 neg < 2 ^ 32 := by cases neg <;> decide

theorem overflowTo_f32_lt (rnd : Rnd) (sat neg : Bool) : (overflowTo .f32 rnd sat neg).1 < 2 ^ 32 := by
  cases rnd <;> cases sat <;> cases neg <;> decide

/-- The pattern of a rounded significand at its exponent. -/
theorem packed_lt (rnd : Rnd) (sat neg : Bool) {k : Nat} (hk : k < 2 ^ 24) (q : Int) (fl : Flags) :
    (if ((127 : Nat) : Int) - (23 : Nat) < q ∨ ((127 : Nat) : Int) - (23 : Nat) = q ∧ 2 ^ (23 + 1) - 1 < k then overflowTo .f32 rnd sat neg
      else (signBit .f32 neg ||| if k < 2 ^ 23 then k else (if k < 2 ^ 23 then 0 else (q + (23 : Nat) + (127 : Nat)).toNat) <<< 23 + (k - 2 ^ 23), fl)).1 < 2 ^ 32 := by
  split
  · exact overflowTo_f32_lt rnd sat neg
  · next hin =>
    refine Nat.or_lt_two_pow (signBit_f32_lt neg) ?_
    rw [Nat.shiftLeft_eq]
    by_cases h : k < 2 ^ 23
    · rw [if_pos h]
      omega
    · rw [if_neg h, if_neg h]
      omega

theorem roundFloat_f32_lt (rnd : Rnd) (sat neg : Bool) (m : Nat) (e : Int) (st : Bool) : (roundFloat .f32 rnd sat neg m e st).1 < 2 ^ 32 := by
  unfold roundFloat
  split
  · exact signBit_f32_lt neg
  · have hf : fracBits .f32 = 23 := rfl
    have hb : bias .f32 = 127 := rfl
    have ht : ¬ ElemType.f32 = .e4m3 := by decide
    have hr := roundAt_le rnd neg m e st (q := max ((Nat.log2 m : Int) + e - (23 : Nat)) (1 - (127 : Nat) - (23 : Nat))) (f := 23) (le_max_left _ _)
    dsimp only
    rw [hf, hb, if_neg ht, if_neg ht]
    by_cases hc : 2 ^ (23 + 1) ≤ (roundAt rnd neg m e st (max ((Nat.log2 m : Int) + e - (23 : Nat)) (1 - (127 : Nat) - (23 : Nat)))).1
    · simp only [if_pos hc]
      exact packed_lt rnd sat neg (by omega) _ _
    · simp only [if_neg hc]
      exact packed_lt rnd sat neg (by omega) _ _

theorem finish_f32_lt (rnd : Rnd) (sat : Bool) (v : Val × Flags) : (finish .f32 rnd sat v).1 < 2 ^ 32 := by
  show (roundTo .f32 rnd sat v.1).1 < 2 ^ 32
  unfold roundTo
  rw [show isFloat .f32 = true from rfl, if_pos rfl]
  cases v.1 with
  | nan _ =>
    show (0x7FC00000 : Nat) < 2 ^ 32
    decide
  | inf neg =>
    show signBit .f32 neg ||| infBits .f32 < 2 ^ 32
    exact Nat.or_lt_two_pow (signBit_f32_lt neg) (by decide)
  | fin neg m e st => exact roundFloat_f32_lt rnd sat neg m e st

/-! ## Sets of cells -/

theorem getLsbD_rowBits (f : Nat → Bool) {i : Nat} (hi : i < 128) : (rowBits f).getLsbD i = f i := by
  have hgen : ∀ n, ((List.range n).foldl (fun m i => if f i then m ||| BitVec.ofNat 128 (2 ^ i) else m) (0 : BitVec 128)).getLsbD i = (decide (i < n) && f i) := fun n => by
    induction n with
    | zero => simp
    | succ n ih =>
      rw [List.range_succ, List.foldl_append, List.foldl_cons, List.foldl_nil]
      have hbit : (BitVec.ofNat 128 (2 ^ n)).getLsbD i = decide (n = i) := by
        rw [BitVec.getLsbD_ofNat, Nat.testBit_two_pow]
        simp [hi]
      by_cases hf : f n = true
      · rw [if_pos hf, BitVec.getLsbD_or, ih, hbit]
        by_cases hn : n = i
        · subst hn
          simp [hf]
        · simp [hn, show (i < n + 1) = (i < n) from propext (by omega)]
      · rw [if_neg hf, ih]
        by_cases hn : n = i
        · subst hn
          simp [hf]
        · simp [show (i < n + 1) = (i < n) from propext (by omega)]
  rw [rowBits, hgen 128]
  simp [hi]

theorem cbit_cellBits (f : Nat → Nat → Bool) {i j : Nat} (hi : i < 128) (hj : j < 128) : cbit (cellBits f) i j = f i j := by
  unfold cbit cellBits
  rw [List.getD_eq_getElem _ _ (by simpa using hj), List.getElem_map, List.getElem_range]
  exact getLsbD_rowBits _ hi

theorem cbit_allCells {i j : Nat} (hi : i < 128) (hj : j < 128) : cbit allCells i j = true := by
  unfold cbit allCells
  rw [List.getD_replicate _ hj, BitVec.getLsbD_allOnes]
  exact decide_eq_true hi

theorem cbit_nil (i j : Nat) : cbit [] i j = false := by
  simp [cbit]

theorem grid_get {α : Type} (f : Nat → Nat → α) {i j : Nat} (hi : i < 128) (hj : j < 128) (d : α) : ((grid f).getD j []).getD i d = f i j := by
  unfold grid
  have hrow : ((List.range 128).map fun j => (List.range 128).map fun i => f i j).getD j [] = (List.range 128).map fun i => f i j := by
    rw [List.getD_eq_getElem _ _ (by simpa using hj), List.getElem_map, List.getElem_range]
  rw [hrow, List.getD_eq_getElem _ _ (by simpa using hi), List.getElem_map, List.getElem_range]

/-! ## Cell registers -/

theorem getD_padded {α : Type} (l : List (List α)) (k r : Nat) : (l ++ List.replicate k []).getD r [] = l.getD r [] := by
  simp only [List.getD_eq_getElem?_getD]
  by_cases h : r < l.length
  · rw [List.getElem?_append_left h]
  · rw [List.getElem?_append_right (by omega), List.getElem?_eq_none (l := l) (by omega), List.getElem?_replicate]
    split <;> rfl

theorem cell_setReg (p : Plane) (r : Nat) (f : Nat → Nat → Word32) {k i j : Nat} (hk : k < 32) (hi : i < 128) (hj : j < 128) :
    (p.setReg r f).cell k i j = if k = r then f i j else p.cell k i j := by
  unfold Plane.cell Plane.setReg
  dsimp only
  rw [getD_setAt]
  by_cases hr : k = r
  · rw [if_pos hr, if_pos ⟨hr, by rw [List.length_append, List.length_replicate]; omega⟩, grid_get _ hi hj]
  · rw [if_neg hr, if_neg fun h => hr h.1, getD_padded]

theorem cell_setRegs (g : Nat → Nat → Nat → Word32) (l : List Nat) (p : Plane) {k i j : Nat} (hk : k < 32) (hi : i < 128) (hj : j < 128) :
    (l.foldl (fun (q : Plane) r => q.setReg r (g r)) p).cell k i j = if k ∈ l then g k i j else p.cell k i j := by
  induction l generalizing p with
  | nil => rfl
  | cons r l ih =>
    rw [List.foldl_cons, ih, cell_setReg _ _ _ hk hi hj]
    by_cases hl : k ∈ l
    · rw [if_pos hl, if_pos (List.mem_cons_of_mem _ hl)]
    · rw [if_neg hl]
      by_cases hr : k = r
      · rw [if_pos hr, if_pos (hr ▸ List.mem_cons_self), hr]
      · rw [if_neg hr, if_neg (by simp [hr, hl])]

theorem setRegs_fields (g : Nat → Nat → Nat → Word32) (l : List Nat) (p : Plane) :
    ∃ rs, l.foldl (fun (q : Plane) r => q.setReg r (g r)) p = { p with regs := rs } := by
  induction l generalizing p with
  | nil => exact ⟨p.regs, rfl⟩
  | cons r l ih =>
    obtain ⟨rs, h⟩ := ih (p.setReg r (g r))
    exact ⟨rs, h⟩

/-- A row of a register replaced where a value is given. -/
theorem cell_setRow (p : Plane) (d j : Nat) (vs : List (Nat × Word32)) {r i k : Nat} (hr : r < 32) (hi : i < 128) (hj : j < 128) (hk : k < 128) :
    (p.setRow d j vs).cell r i k = if r = d ∧ k = j then ((vs.find? fun x => x.1 == i).map (·.2)).getD (p.cell r i k) else p.cell r i k := by
  unfold Plane.setRow Plane.cell
  dsimp only
  rw [getD_setAt]
  by_cases hd : r = d
  · subst hd
    rw [if_pos ⟨rfl, by rw [List.length_append, List.length_replicate]; omega⟩, getD_setAt, getD_padded, getD_padded]
    by_cases hkj : k = j
    · subst hkj
      rw [if_pos ⟨rfl, by rw [List.length_append, List.length_replicate]; omega⟩, if_pos ⟨rfl, rfl⟩, List.getD_eq_getElem _ _ (by simpa using hi),
        List.getElem_map, List.getElem_range]
      cases vs.find? fun x => x.1 == i <;> rfl
    · rw [if_neg fun h => hkj h.1, if_neg fun h => hkj h.2]
  · rw [if_neg fun h => hd h.1, if_neg fun h => hd h.1, getD_padded]

theorem setRow_fields (p : Plane) (d j : Nat) (vs : List (Nat × Word32)) : ∃ rs, p.setRow d j vs = { p with regs := rs } := ⟨_, rfl⟩

/-! ## Element-wise operations (R192, R198) -/

/-- A fold that grows a value from 0 meets no part that grows it, where it ends at 0. -/
theorem foldl_zero {α : Type} {P : α → Prop} {step : Flags → α → Flags} (h : ∀ f x, step f x = 0 → f = 0 ∧ P x) (l : List α) {f : Flags}
    (h0 : l.foldl step f = 0) : f = 0 ∧ ∀ x ∈ l, P x := by
  induction l generalizing f with
  | nil => exact ⟨h0, fun _ hx => nomatch hx⟩
  | cons x l ih =>
    obtain ⟨hx, hl⟩ := ih h0
    obtain ⟨hf, hp⟩ := h f x hx
    exact ⟨hf, List.forall_mem_cons.2 ⟨hp, hl⟩⟩

section
variable (p : Plane) (o : EngOp)

/-- What a cell does, where it is enabled. -/
def outcome (i j : Nat) : Option CellOut := if p.en i j then some (cellEffect o p i j) else none

/-- What becomes of register r of a cell. -/
def written (r i j : Nat) : Word32 :=
  match (((grid (outcome p o)).getD j []).getD i none).bind fun c => c.vals.find? fun x => x.1 == r with
  | some x => x.2
  | none => p.cell r i j

/-- Flags with those of one cell. -/
def joinFlags (f : Flags) (c : Option CellOut) : Flags := match c with | some c => f ||| c.fl | none => f

theorem joinFlags_zero {f : Flags} {c : Option CellOut} (h : joinFlags f c = 0) : f = 0 ∧ ∀ x, c = some x → x.fl = 0 := by
  cases c with
  | none => exact ⟨h, fun _ hx => nomatch hx⟩
  | some x =>
    obtain ⟨hf, hx⟩ := BitVec.or_eq_zero_iff.1 h
    exact ⟨hf, fun y hy => Option.some.inj hy ▸ hx⟩

theorem joined_zero {out : List (List (Option CellOut))} (h : out.foldl (fun f row => row.foldl joinFlags f) 0 = 0) :
    ∀ row ∈ out, ∀ c ∈ row, ∀ x, c = some x → x.fl = 0 :=
  have hrow : ∀ (f : Flags) (row : List (Option CellOut)), row.foldl joinFlags f = 0 → f = 0 ∧ ∀ c ∈ row, ∀ x, c = some x → x.fl = 0 := fun _ row hf =>
    foldl_zero (step := joinFlags) (P := fun c => ∀ x, c = some x → x.fl = 0) (fun _ _ => joinFlags_zero) row hf
  (foldl_zero (step := fun f row => row.foldl joinFlags f) (P := fun row => ∀ c ∈ row, ∀ x, c = some x → x.fl = 0) hrow out h).2

/-- The flags of all enabled cells together. -/
def totalFlags : Flags := (grid (outcome p o)).foldl (fun f row => row.foldl joinFlags f) 0

/-- The flags of a cell, where it is enabled. -/
def flagsOf (i j : Nat) : Flags := match ((grid (outcome p o)).getD j []).getD i none with | some c => c.fl | none => 0

/-- The T bit of a cell. -/
def condition (i j : Nat) : Bool := match (((grid (outcome p o)).getD j []).getD i none).bind (·.t) with | some t => t | none => cbit p.t i j

theorem elementwise_eq : (p.elementwise o).1 = { (cellDests o.instr).foldl (fun (q : Plane) r => q.setReg r (written p o r)) p with
    t := cellBits (condition p o)
    flags := if totalFlags p o = 0 then p.flags else grid fun i j => p.cellFlags i j ||| flagsOf p o i j } := rfl

variable {p o} {i j : Nat} (hi : i < 128) (hj : j < 128)
include hi hj

theorem cell_elementwise {r : Nat} (hr : r < 32) : (p.elementwise o).1.cell r i j =
    if r ∈ cellDests o.instr ∧ p.en i j = true then ((cellEffect o p i j).vals.find? fun x => x.1 == r).map (·.2) |>.getD (p.cell r i j) else p.cell r i j := by
  rw [elementwise_eq]
  refine (cell_setRegs (written p o) (cellDests o.instr) p hr hi hj).trans ?_
  unfold written
  rw [grid_get _ hi hj]
  unfold outcome
  by_cases hd : r ∈ cellDests o.instr
  · rw [if_pos hd]
    cases p.en i j with
    | false => simp [hd]
    | true =>
      simp only [hd, if_true, Option.bind_some, and_self]
      cases (cellEffect o p i j).vals.find? fun x => x.1 == r <;> rfl
  · rw [if_neg hd, if_neg fun h => hd h.1]

theorem cbit_elementwise : cbit (p.elementwise o).1.t i j = (((if p.en i j then some (cellEffect o p i j) else none).bind (·.t)).getD (cbit p.t i j)) := by
  have ht : (p.elementwise o).1.t = cellBits (condition p o) := by rw [elementwise_eq]
  rw [ht, cbit_cellBits _ hi hj]
  unfold condition
  rw [grid_get _ hi hj]
  unfold outcome
  cases (if p.en i j then some (cellEffect o p i j) else none).bind (·.t) <;> rfl

theorem cellFlags_elementwise : (p.elementwise o).1.cellFlags i j = p.cellFlags i j ||| if p.en i j then (cellEffect o p i j).fl else 0 := by
  have hfl : flagsOf p o i j = if p.en i j then (cellEffect o p i j).fl else 0 := by
    unfold flagsOf
    rw [grid_get _ hi hj]
    unfold outcome
    cases p.en i j <;> rfl
  rw [elementwise_eq, ← hfl]
  show ((if totalFlags p o = 0 then p.flags else grid fun i j => p.cellFlags i j ||| flagsOf p o i j).getD j []).getD i 0 = _
  split
  · next hz =>
    have hcell : flagsOf p o i j = 0 := by
      rw [hfl]
      split
      · next hen =>
        have hrow : (List.range 128).map (fun i => outcome p o i j) ∈ grid (outcome p o) := List.mem_map.2 ⟨j, List.mem_range.2 hj, rfl⟩
        refine joined_zero hz _ hrow (outcome p o i j) (List.mem_map.2 ⟨i, List.mem_range.2 hi, rfl⟩) _ ?_
        unfold outcome
        rw [if_pos hen]
      · rfl
    rw [hcell]
    simp [Plane.cellFlags]
  · exact grid_get _ hi hj _

omit hi hj in
theorem elementwise_fields : ∃ rs t fs, (p.elementwise o).1 = { p with regs := rs, t := t, flags := fs } := by
  obtain ⟨rs, h⟩ := setRegs_fields (written p o) (cellDests o.instr) p
  exact ⟨rs, _, _, by rw [elementwise_eq, h]⟩

end

end Sys2Proof.Proofs.Cells
end

section
/-! SUPPORT. The operations of t2 as they run (R282, R284): what those that change the plane alone leave of their block and of the plane: O35. -/

namespace Sys2Proof.Proofs.PlaneOps

open Sys2Proof Sys2Proof.Machine Sys2Proof.Laws Sys2Proof.Proofs.IssuingBlock Sys2Proof.Proofs.Frames Sys2Proof.Proofs.SyncWords Sys2Proof.Proofs.Virga
  Sys2Proof.Proofs.Queues Sys2Proof.Proofs.PlaneReads Sys2Proof.Proofs.MatrixRuns Sys2Proof.Proofs.Cells

/-! ## A change of one block -/

/-- The block now is b1, and no byte has changed. -/
structure Now (s : State) (blk : Nat) (t : State) (b1 : Block) : Prop where
  block : t.block? blk = some b1
  bytes : ∀ l, t.byte l = s.byte l

section
variable {s t : State} {blk : Nat} {b1 : Block}

theorem Now.mod (h : Now s blk t b1) {f : Block → Block} (hf : Stays f) : Now s blk (t.modBlock blk f) (f b1) where
  block := by rw [block?_modBlock _ _ _ _ hf.id, if_pos rfl, h.block]; rfl
  bytes l := (byte_modBlock _ _ _ l hf.id hf.stores).trans (h.bytes l)

theorem stays_modOp (tl num : Nat) (f : EngOp → EngOp) : Stays fun b => b.modOp tl num f := ⟨fun _ => rfl, fun _ => rfl, fun _ => ⟨rfl, rfl, rfl, rfl⟩⟩

theorem stays_plane (f : Block → Option Plane) : Stays fun b => { b with planeSt := f b } := ⟨fun _ => rfl, fun _ => rfl, fun _ => ⟨rfl, rfl, rfl, rfl⟩⟩

theorem Now.modOp (h : Now s blk t b1) (tl num : Nat) (f : EngOp → EngOp) : Now s blk (t.modOp blk tl num f) (b1.modOp tl num f) := h.mod (stays_modOp tl num f)

theorem Now.put (h : Now s blk t b1) (p : Plane) : Now s blk (t.modBlock blk fun b => { b with planeSt := some p }) { b1 with planeSt := some p } :=
  h.mod (stays_plane fun _ => some p)

/-- What is left of the block once operation o has done its work. -/
def ended (o : EngOp) (b : Block) : Block := (b.clearPix o).modOp o.tl o.num fun x => { x with state := .worked }

theorem Now.endOp (h : Now s blk t b1) (o : EngOp) : Now s blk (t.endOp blk o) (ended o b1) := (h.mod (stays_clearPix o)).modOp o.tl o.num fun x => { x with state := .worked }

theorem Now.stop (h : Now s blk t b1) (o : EngOp) (e : Trap) : Now s blk (t.modBlock blk fun b => b.stopOp o e) (b1.stopOp o e) := h.mod (Timelines.stays_stopOp o e)

end

/-- Groups stand but for PIX. -/
def SameGroups (b b' : Block) : Prop :=
  ∀ k : Nat, (b'.groups[k]?).map (fun (g : Group) => { g with pix := 0 }) = (b.groups[k]?).map fun (g : Group) => { g with pix := 0 }

theorem SameGroups.of_eq {b b' : Block} (h : b'.groups = b.groups) : SameGroups b b' := fun k => by rw [h]

theorem SameGroups.trans {b c d : Block} (h : SameGroups b c) (k : SameGroups c d) : SameGroups b d := fun n => (k n).trans (h n)

theorem sameGroups_pix (b : Block) (n : Nat) : SameGroups b (b.modGroup n fun g => { g with pix := 0 }) := fun k => by
  unfold Block.modGroup
  rw [get_modAt]
  split
  · cases b.groups[k]? <;> rfl
  · rfl

theorem clearPix_block (o : EngOp) (b : Block) : SameGroups b (b.clearPix o) ∧ (b.clearPix o).planeSt = b.planeSt := by
  have hfold : ∀ (l : List Part) (b : Block), SameGroups b (l.foldl (fun b p => if p.pix = 0 then b else b.modGroup p.grp fun g => { g with pix := 0 }) b) ∧
      (l.foldl (fun b p => if p.pix = 0 then b else b.modGroup p.grp fun g => { g with pix := 0 }) b).planeSt = b.planeSt := fun l => by
    induction l with
    | nil => exact fun b => ⟨.of_eq rfl, rfl⟩
    | cons x l ih =>
      intro b
      obtain ⟨hg, hp⟩ := ih (if x.pix = 0 then b else b.modGroup x.grp fun g => { g with pix := 0 })
      refine ⟨SameGroups.trans ?_ hg, hp.trans ?_⟩
      · split
        · exact .of_eq rfl
        · exact sameGroups_pix b x.grp
      · split <;> rfl
  exact ⟨(hfold o.parts b).1, (hfold o.parts b).2⟩

theorem sameGroups_ended (o : EngOp) (b : Block) : SameGroups b (ended o b) := (clearPix_block o b).1

theorem planeSt_ended (o : EngOp) (b : Block) : (ended o b).planeSt = b.planeSt := (clearPix_block o b).2

/-! ## The operation that is next -/

/-- The operation as it runs: it knows what the earlier ones of t2 have released. -/
def running (b : Block) (o : EngOp) : EngOp :=
  { o with clock := (b.ops.filter fun q => q.tl == 2 && decide (q.num < o.num)).foldl (fun c (q : EngOp) => clockJoin c q.rel) o.clock, state := .running }

/-- An operation of a placed block's plane that may run. -/
structure Next (s : State) (blk : Nat) (b : Block) (o : EngOp) (p : Plane) : Prop where
  block : s.block? blk = some b
  place : b.place.isSome = true
  next : b.nextPlane = some o
  plane : b.planeSt = some p
  tl : o.tl = 2
  parity : s.parityMet b o.instr = false
  only : ∀ q ∈ b.ops, q.tl = 2 → q.num = o.num → q = o

section
variable {s : State} {blk : Nat} {b : Block} {o : EngOp} {p : Plane} (h : Next s blk b o p)
include h

theorem Next.op : b.op? 2 o.num = some o := by
  have hmem : o ∈ b.ops := by
    have hn := h.next
    unfold Block.nextPlane at hn
    split at hn
    · next q hq =>
      split at hn
      · exact Option.some.inj hn ▸ List.mem_of_find?_eq_some hq
      · cases hn
    · cases hn
  have hsome : (b.op? 2 o.num).isSome = true := by
    unfold Block.op?
    rw [List.find?_isSome]
    exact ⟨o, hmem, by simp [EngOp.is, h.tl]⟩
  obtain ⟨q, hq⟩ := Option.isSome_iff_exists.1 hsome
  obtain ⟨htl, hnum⟩ := is_of_op? hq
  rw [hq, h.only q (List.mem_of_find?_eq_some hq) htl hnum]

/-- The block with the operation running. -/
def begun (b : Block) (o : EngOp) : Block := b.modOp 2 o.num fun _ => running b o

theorem Next.begins : Now s blk (s.modOp blk 2 o.num fun _ => running b o) (begun b o) := Now.modOp ⟨h.block, fun _ => rfl⟩ 2 o.num _

theorem Next.running_op : (begun b o).op? 2 o.num = some (running b o) := op?_modOp_same h.op rfl

/-- What the operation does, by its instruction, in the machine t where it runs. -/
def planeRest (blk : Nat) (b : Block) (o : EngOp) (p : Plane) (queued : Bool) (s : State) : Host.Outcome State Fault Refusal :=
  match o.instr with
  | .plld d _ _ sp => .next (s.stepRow2 b o p d sp false)
  | .plst d _ _ sp => .next (s.stepRow2 b o p d sp true)
  | .pltile .. => .next (s.stepTile b o p queued)
  | .plbin _ => .next { s with binJobs := s.binJobs ++ [⟨dieOf (b.place.getD 0), blk, o.num⟩] }
  | _ => .next ((((s.modBlock blk fun b => { b with planeSt := some (p.simple o).1 }).modOp blk 2 o.num fun q => q.addFlags (p.simple o).2.1 (p.simple o).2.2).modBlock
      blk fun b => b.recordCells o (p.simple o).2.2).endOp blk o)

theorem Next.exec_eq : exec (.planeOp blk) s = planeRest blk b (running b o) p (o.state == .queued) (s.modOp blk 2 o.num fun _ => running b o) := by
  obtain ⟨c, hc⟩ := Option.isSome_iff_exists.1 h.place
  show execPlaneOp blk s = _
  unfold execPlaneOp
  simp only [h.block, hc, h.next, h.plane, h.parity, Bool.false_eq_true, if_false]
  unfold planeRest
  rw [hc]
  rfl

end

section
variable {s : State} {blk : Nat} {b : Block} {o : EngOp} {p : Plane}

/-- The operation runs: its block's groups stand but for PIX, no byte changes, it has done its work, and the plane is as f says. -/
def Runs (s : State) (blk : Nat) (b : Block) (o : EngOp) (f : Plane → Prop) : Prop :=
  ∃ t b' p', exec (.planeOp blk) s = .next t ∧ t.block? blk = some b' ∧ b'.planeSt = some p' ∧
    (b'.op? 2 o.num).map (·.state) = some .worked ∧ (∀ l, t.byte l = s.byte l) ∧ SameGroups b b' ∧ f p'

theorem Runs.mono {f g : Plane → Prop} (h : Runs s blk b o f) (hfg : ∀ p', f p' → g p') : Runs s blk b o g := by
  obtain ⟨t, b', p', he, hb, hp, ho, hl, hg, hf⟩ := h
  exact ⟨t, b', p', he, hb, hp, ho, hl, hg, hfg p' hf⟩

/-! ## Operations that change the plane alone -/

/-- The plane once cells have been recorded. -/
def withCells (o : EngOp) (cells : CellBits) (p : Plane) : Plane :=
  { p with exc := cellBits fun i j => cbit p.exc i j || cbit cells i j, plx := p.plx.orElse fun _ => some (o.grp, o.num) }

/-- What the recording of cells leaves: the exception bitmap and the pending PLX alone may change. -/
theorem recordCells_facts (b : Block) (o : EngOp) (cells : CellBits) {p : Plane} (hp : b.planeSt = some p) :
    (b.recordCells o cells).groups = b.groups ∧ (b.recordCells o cells).ops = b.ops ∧
    ∃ exc plx, (b.recordCells o cells).planeSt = some { p with exc := exc, plx := plx } ∧ (cells = [] → exc = p.exc ∧ plx = p.plx) := by
  unfold Block.recordCells
  split
  · exact ⟨rfl, rfl, p.exc, p.plx, hp, fun _ => ⟨rfl, rfl⟩⟩
  · next hc =>
    exact ⟨rfl, rfl, _, _, (congrArg (Option.map (withCells o cells)) hp :), fun h => absurd (h ▸ rfl) hc⟩

theorem stays_recordCells (o : EngOp) (cells : CellBits) : Stays fun b => b.recordCells o cells := by
  unfold Block.recordCells
  split
  · exact ⟨fun _ => rfl, fun _ => rfl, fun _ => ⟨rfl, rfl, rfl, rfl⟩⟩
  · exact ⟨fun _ => rfl, fun _ => rfl, fun _ => ⟨rfl, rfl, rfl, rfl⟩⟩

/-- Operations that do more than to change the plane. -/
def reaches : Instr → Bool
  | .plld .. | .plst .. | .pltile .. | .plbin _ => true
  | _ => false

theorem planeRest_simple (hr : reaches o.instr = false) (q : Bool) (t : State) : planeRest blk b o p q t =
    .next ((((t.modBlock blk fun b => { b with planeSt := some (p.simple o).1 }).modOp blk 2 o.num fun q => q.addFlags (p.simple o).2.1 (p.simple o).2.2).modBlock
      blk fun b => b.recordCells o (p.simple o).2.2).endOp blk o) := by
  unfold planeRest
  split
  · next hi => rw [hi] at hr; cases hr
  · next hi => rw [hi] at hr; cases hr
  · next hi => rw [hi] at hr; cases hr
  · next hi => rw [hi] at hr; cases hr
  · rfl

/-- The machine once the operation has changed the plane: its new state, its flags and the cells recorded. -/
def changed (s : State) (blk : Nat) (b : Block) (o : EngOp) (r : Plane × Flags × CellBits) : State :=
  (((s.modOp blk 2 o.num fun _ => running b o).modBlock blk fun b => { b with planeSt := some r.1 }).modOp blk 2 o.num fun q => q.addFlags r.2.1 r.2.2).modBlock
    blk fun b => b.recordCells (running b o) r.2.2

variable (h : Next s blk b o p)
include h

theorem Next.changed (r : Plane × Flags × CellBits) : ∃ b1 exc plx, Now s blk (changed s blk b o r) b1 ∧ b1.groups = b.groups ∧
    (∃ q, b1.op? 2 o.num = some q) ∧ b1.planeSt = some { r.1 with exc := exc, plx := plx } ∧ (r.2.2 = [] → exc = r.1.exc ∧ plx = r.1.plx) := by
  have hop := op?_modOp (f := fun q => q.addFlags r.2.1 r.2.2) (b := { begun b o with planeSt := some r.1 }) h.running_op fun _ => ⟨rfl, rfl⟩
  obtain ⟨hgroups, hops, exc, plx, hplane, hnone⟩ := recordCells_facts
    (({ begun b o with planeSt := some r.1 } : Block).modOp 2 o.num fun q => q.addFlags r.2.1 r.2.2) (running b o) r.2.2 rfl
  exact ⟨_, exc, plx, ((h.begins.put r.1).modOp 2 o.num fun q => q.addFlags r.2.1 r.2.2).mod (stays_recordCells (running b o) r.2.2), hgroups,
    ⟨_, (op?_of_ops hops 2 o.num).trans hop⟩, hplane, hnone⟩

/-- An operation that changes the plane alone. -/
theorem Next.simple (hr : reaches o.instr = false) {r : Plane × Flags × CellBits} (hs : p.simple (running b o) = r) : Runs s blk b o fun p' =>
    ∃ exc plx, p' = { r.1 with exc := exc, plx := plx } ∧ (r.2.2 = [] → exc = r.1.exc ∧ plx = r.1.plx) := by
  obtain ⟨b1, exc, plx, hnow, hgroups, ⟨q, hq⟩, hplane, hnone⟩ := h.changed r
  have hend := hnow.endOp (running b o)
  have hrest : planeRest blk b (running b o) p (o.state == .queued) (s.modOp blk 2 o.num fun _ => running b o) = .next ((PlaneOps.changed s blk b o r).endOp blk (running b o)) := by
    rw [planeRest_simple (o := running b o) hr, hs]
    rfl
  exact ⟨_, _, _, h.exec_eq.trans hrest, hend.block, (planeSt_ended _ _).trans hplane, op?_worked hq ⟨h.tl, rfl⟩, hend.bytes,
    (SameGroups.of_eq hgroups).trans (sameGroups_ended _ _), exc, plx, rfl, hnone⟩

theorem Next.elementwise (hd : cellDests o.instr ≠ []) : Runs s blk b o fun p' => ∀ i j, i < 128 → j < 128 →
    (∀ r, r < 32 → p'.cell r i j =
      if r ∈ cellDests o.instr ∧ p.en i j = true then ((cellEffect o p i j).vals.find? fun x => x.1 == r).map (·.2) |>.getD (p.cell r i j) else p.cell r i j) ∧
    p'.wn = p.wn ∧ p'.e = p.e ∧ p'.stack = p.stack ∧
    p'.cellFlags i j = p.cellFlags i j ||| if p.en i j then (cellEffect o p i j).fl else 0 := by
  have hs : p.simple (running b o) = p.elementwise (running b o) := by
    unfold Plane.simple
    split
    all_goals first | rfl | exact absurd (congrArg cellDests (by assumption)) hd
  have hr : reaches o.instr = false := by
    unfold reaches
    split
    all_goals first | rfl | exact absurd (congrArg cellDests (by assumption)) hd
  refine (h.simple hr hs).mono ?_
  rintro p' ⟨exc, plx, rfl, -⟩ i j hi hj
  obtain ⟨rs, t, fs, hf⟩ := elementwise_fields (p := p) (o := running b o)
  exact ⟨fun r hr => cell_elementwise hi hj hr, (congrArg Plane.wn hf :), (congrArg Plane.e hf :), (congrArg Plane.stack hf :), cellFlags_elementwise hi hj⟩

theorem Next.plvis {a : CellSrc} {r : BitVec 6} {le : Bool} (hi : o.instr = .plvis a r le) : Runs s blk b o fun p' => ∀ i j, i < 128 → j < 128 →
    let x := p.src false a i j
    let passes := p.en i j && condVal (if le then .le else .lt) (decodeElem .f32 x.toNat) (decodeElem .f32 (p.cell 31 i j).toNat)
    p'.cell 31 i j = (if passes then x else p.cell 31 i j) ∧ p'.cell 30 i j = (if passes then (o.opa.getD 0 0).setWidth 32 else p.cell 30 i j) ∧
    ∀ n, n < 30 → p'.cell n i j = p.cell n i j := by
  refine (h.elementwise (by rw [hi]; exact List.cons_ne_nil _ _)).mono fun p' hp i j h1 h2 => ?_
  obtain ⟨hcell, -⟩ := hp i j h1 h2
  have hvals : (cellEffect o p i j).vals = if condVal (if le then .le else .lt) (decodeElem .f32 (p.src false a i j).toNat) (decodeElem .f32 (p.cell 31 i j).toNat)
      then [(31, p.src false a i j), (30, (o.opa.getD 0 0).setWidth 32)] else [] := by
    unfold cellEffect
    rw [hi]
    rfl
  rw [hi, hvals] at hcell
  dsimp only
  generalize condVal _ _ _ = c at *
  refine ⟨?_, ?_, fun n hn => ?_⟩
  · rw [hcell 31 (by decide)]
    cases p.en i j <;> cases c <;> rfl
  · rw [hcell 30 (by decide)]
    cases p.en i j <;> cases c <;> rfl
  · rw [hcell n (by omega), if_neg]
    rintro ⟨hm, -⟩
    have : n = 30 ∨ n = 31 := by simpa [cellDests] using hm
    omega

end

/-! ## PLBLD (R200) -/

/-- A rounded f32 value in a cell. -/
theorem toNat_rounded (v : Val × Flags) : (cellRound false v).1.toNat = (finish .f32 .rne false v).1 := by
  show (BitVec.ofNat 32 _).toNat = _
  rw [BitVec.toNat_ofNat, Nat.mod_eq_of_lt (finish_f32_lt .rne false v)]

/-- Channel c of the colour in the scalars. -/
def colour (opa : List Word) (c : Nat) : Val := decodeElem .f32 ((opa.getD (c / 2) 0).toNat / 2 ^ (32 * (c % 2)) % 2 ^ 32)

theorem colour_even (opa : List Word) (c : Nat) : colour opa (2 * c) = scalarF32 (opa.getD c 0) := by
  unfold colour scalarF32
  rw [Nat.mul_div_cancel_left _ (by decide), Nat.mul_mod_right, Nat.mul_zero, Nat.pow_zero, Nat.div_one]

theorem colour_odd (opa : List Word) : colour opa 1 = decodeElem .f32 ((opa.getD 0 0).toNat / 2 ^ 32) := by
  unfold colour
  exact congrArg (decodeElem .f32) (Nat.mod_eq_of_lt (Nat.div_lt_of_lt_mul (opa.getD 0 0).isLt))

/-- What the blend makes of a channel. -/
def channel (p : Plane) (d : Nat) (al : Val) (opa : List Word) (i j c : Nat) : Val × Flags :=
  addVal .rne (cellVal false (p.cell (d + c) i j)) (r32 (mulVal (r32 (mulVal al (cellVal false (p.cell (d + 3) i j)))).1 (colour opa c))).1

theorem blend_vals (p : Plane) (d : Nat) (al : Val) (opa : List Word) (i j : Nat) : (blend p d al opa i j).vals =
    [(d, (cellRound false (channel p d al opa i j 0)).1), (d + 1, (cellRound false (channel p d al opa i j 1)).1),
      (d + 2, (cellRound false (channel p d al opa i j 2)).1),
      (d + 3, (cellRound false (mulVal (cellVal false (p.cell (d + 3) i j)) (r32 (subVal .rne one32 al)).1)).1)] := by
  have h0 := colour_even opa 0
  have h2 := colour_even opa 1
  unfold blend channel
  rw [h0, h2, colour_odd]
  rfl

/-- What stands at the place c of four in a row. -/
theorem find_fourth (d : Nat) (w : Nat → Word32) {c : Nat} (hc : c < 4) :
    ([(d, w 0), (d + 1, w 1), (d + 2, w 2), (d + 3, w 3)].find? fun x => x.1 == d + c).map (·.2) = some (w c) := by
  have : c = 0 ∨ c = 1 ∨ c = 2 ∨ c = 3 := by omega
  rcases this with rfl | rfl | rfl | rfl <;> simp

/-- The four registers after the blend. -/
def blended (p : Plane) (d : Nat) (al : Val) (opa : List Word) (i j : Nat) : Nat → Word32
  | 3 => (cellRound false (mulVal (cellVal false (p.cell (d + 3) i j)) (r32 (subVal .rne one32 al)).1)).1
  | c => (cellRound false (channel p d al opa i j c)).1

theorem toNat_blended (p : Plane) (d : Nat) (al : Val) (opa : List Word) (i j : Nat) {c : Nat} (hc : c < 3) :
    (blended p d al opa i j c).toNat = (finish .f32 .rne false (channel p d al opa i j c)).1 := by
  rw [← toNat_rounded]
  have : c = 0 ∨ c = 1 ∨ c = 2 := by omega
  rcases this with rfl | rfl | rfl <;> rfl

section
variable {s : State} {blk : Nat} {b : Block} {o : EngOp} {p : Plane} (h : Next s blk b o p)
include h

theorem Next.plbld {d : BitVec 5} {a : CellSrc} {r : BitVec 6} (hi : o.instr = .plbld d a r) (hd : d.toNat ≤ 28) : Runs s blk b o fun p' =>
    ∀ i j, i < 128 → j < 128 → p.en i j = true →
      let f32 (v : Val × Flags) : Val := decodeElem .f32 (finish .f32 .rne false v).1
      let val (r i j : Nat) : Val := decodeElem .f32 (p.cell r i j).toNat
      let al := decodeElem .f32 (p.src false a i j).toNat
      let colour (c : Nat) : Val := decodeElem .f32 ((o.opa.getD (c / 2) 0).toNat / 2 ^ (32 * (c % 2)) % 2 ^ 32)
      let w := f32 (mulVal al (val (d.toNat + 3) i j))
      (∀ c, c < 3 → (p'.cell (d.toNat + c) i j).toNat = (finish .f32 .rne false (addVal .rne (val (d.toNat + c) i j) (f32 (mulVal w (colour c))))).1) ∧
      (p'.cell (d.toNat + 3) i j).toNat = (finish .f32 .rne false (mulVal (val (d.toNat + 3) i j) (f32 (subVal .rne (Val.ofInt 1) al)))).1 := by
  refine (h.elementwise (by rw [hi]; exact List.cons_ne_nil _ _)).mono fun p' hp i j h1 h2 hen => ?_
  obtain ⟨hcell, -⟩ := hp i j h1 h2
  have heff : cellEffect o p i j = blend p d.toNat (decodeElem .f32 (p.src false a i j).toNat) o.opa i j := by
    unfold cellEffect
    rw [hi]
    rfl
  have hdest : cellDests o.instr = [d.toNat, d.toNat + 1, d.toNat + 2, d.toNat + 3] := by
    rw [hi]
    rfl
  have hnew : ∀ c, c < 4 → p'.cell (d.toNat + c) i j = blended p d.toNat (decodeElem .f32 (p.src false a i j).toNat) o.opa i j c := fun c hc => by
    rw [hcell _ (by omega), hdest, if_pos ⟨by simp; omega, hen⟩, heff, blend_vals]
    exact congrArg (Option.getD · _) (find_fourth d.toNat (blended p d.toNat (decodeElem .f32 (p.src false a i j).toNat) o.opa i j) hc)
  refine ⟨fun c hc => ?_, ?_⟩
  · rw [hnew c (by omega), toNat_blended _ _ _ _ _ _ hc]
    rfl
  · rw [hnew 3 (by decide)]
    exact toNat_rounded _

/-! ## The plane's own state (R190, R194, R195, R203) -/

theorem Next.plcmp {a c : CellSrc} {k : VCond} (hi : o.instr = .plcmp a c k) : Runs s blk b o fun p' => ∀ i j, i < 128 → j < 128 →
    cbit p'.t i j = (if p.en i j then condVal k (cellVal o.bf (p.src o.bf a i j)) (cellVal o.bf (p.src o.bf c i j)) else cbit p.t i j) ∧
    ∀ r, p'.cell r i j = p.cell r i j := by
  have hi' : (running b o).instr = .plcmp a c k := hi
  have hs : p.simple (running b o) = p.elementwise (running b o) := by
    unfold Plane.simple
    rw [hi']
  refine (h.simple (by rw [hi]; rfl) hs).mono ?_
  rintro p' ⟨exc, plx, rfl, -⟩ i j h1 h2
  refine ⟨(cbit_elementwise h1 h2).trans ?_, fun r => ?_⟩
  · have ht : (cellEffect (running b o) p i j).t = some (condVal k (cellVal o.bf (p.src o.bf a i j)) (cellVal o.bf (p.src o.bf c i j))) := by
      unfold cellEffect
      rw [hi']
      rfl
    cases p.en i j
    · rfl
    · simp only [if_true, Option.bind_some, ht, Option.getD_some]
  · show ((p.elementwise (running b o)).1).cell r i j = _
    rw [elementwise_eq, hi']
    rfl

theorem Next.plif (hi : o.instr = .plif) : Runs s blk b o fun p' => ∀ i j, i < 128 → j < 128 → cbit p'.e i j = (p.en i j && cbit p.t i j) ∧
    ∃ q, p'.stack = q :: p.stack ∧ q.1 = p.e ∧ cbit q.2 i j = (p.en i j && !cbit p.t i j) := by
  have hi' : (running b o).instr = .plif := hi
  have hs : p.simple (running b o) = (p.pushIf, 0, []) := by
    unfold Plane.simple
    rw [hi']
  refine (h.simple (by rw [hi]; rfl) hs).mono ?_
  rintro p' ⟨exc, plx, rfl, -⟩ i j h1 h2
  have he := cbit_cellBits (fun i j => cbit p.wn i j && cbit p.e i j && cbit p.t i j) h1 h2
  have hq := cbit_cellBits (fun i j => cbit p.wn i j && cbit p.e i j && !cbit p.t i j) h1 h2
  exact ⟨he, _, rfl, rfl, hq⟩

theorem Next.plelse (hi : o.instr = .plelse) {x y : CellBits} {r : List (CellBits × CellBits)} (hst : p.stack = (x, y) :: r) :
    Runs s blk b o fun p' => p' = { p with e := y, stack := (x, []) :: r, exc := p'.exc, plx := p'.plx } := by
  have hi' : (running b o).instr = .plelse := hi
  have hs : p.simple (running b o) = ({ p with e := y, stack := (x, []) :: r }, 0, []) := by
    unfold Plane.simple Plane.takeElse
    rw [hi', hst]
  refine (h.simple (by rw [hi]; rfl) hs).mono ?_
  rintro p' ⟨exc, plx, rfl, -⟩
  rfl

theorem Next.plend (hi : o.instr = .plend) {x y : CellBits} {r : List (CellBits × CellBits)} (hst : p.stack = (x, y) :: r) :
    Runs s blk b o fun p' => p' = { p with e := x, stack := r, exc := p'.exc, plx := p'.plx } := by
  have hi' : (running b o).instr = .plend := hi
  have hs : p.simple (running b o) = ({ p with e := x, stack := r }, 0, []) := by
    unfold Plane.simple Plane.popEnd
    rw [hi', hst]
  refine (h.simple (by rw [hi]; rfl) hs).mono ?_
  rintro p' ⟨exc, plx, rfl, -⟩
  rfl

theorem Next.plwin {a : Src} (hi : o.instr = .plwin a) : Runs s blk b o fun p' => ∀ i j, i < 128 → j < 128 → cbit p'.wn i j =
    let v := (o.opa.getD 0 0).toNat
    decide (v % 128 ≤ i ∧ i ≤ v / 2 ^ 16 % 128 ∧ v / 2 ^ 8 % 128 ≤ j ∧ j ≤ v / 2 ^ 24 % 128) := by
  have hi' : (running b o).instr = .plwin a := hi
  have hs : p.simple (running b o) = ({ p with wn := windowOf (o.opa.getD 0 0) }, 0, []) := by
    unfold Plane.simple
    rw [hi']
    rfl
  refine (h.simple (by rw [hi]; rfl) hs).mono ?_
  rintro p' ⟨exc, plx, rfl, -⟩ i j h1 h2
  show cbit (windowOf (o.opa.getD 0 0)) i j = _
  unfold windowOf
  rw [cbit_cellBits _ h1 h2]
  unfold bits
  simp [Bool.and_assoc]

theorem Next.plbin {a : Src} (hi : o.instr = .plbin a) :
    ∃ t, exec (.planeOp blk) s = .next t ∧ t.binJobs = s.binJobs ++ [⟨dieOf (b.place.getD 0), blk, o.num⟩] ∧ ∀ l, t.byte l = s.byte l := by
  have hi' : (running b o).instr = .plbin a := hi
  refine ⟨{ (s.modOp blk 2 o.num fun _ => running b o) with binJobs := s.binJobs ++ [⟨dieOf (b.place.getD 0), blk, o.num⟩] }, ?_, rfl, h.begins.bytes⟩
  rw [h.exec_eq]
  unfold planeRest
  rw [hi']
  rfl

end

/-- The plane's registers 0 to 29 put back. -/
theorem cell_zeroed (p : Plane) (i j r : Nat) : ({ p with regs := List.replicate 30 [] ++ p.regs.drop 30 } : Plane).cell r i j =
    if r < 30 then 0 else p.cell r i j := by
  unfold Plane.cell
  dsimp only
  rw [List.getD_eq_getElem?_getD (l := List.replicate 30 [] ++ p.regs.drop 30)]
  split
  next hr =>
    rw [List.getElem?_append_left (by simpa using hr), List.getElem?_replicate, if_pos hr]
    unfold cellInit
    rw [if_neg (by omega), if_neg (by omega)]
    rfl
  next hr =>
    rw [List.getElem?_append_right (by simp; omega), List.length_replicate, List.getElem?_drop, List.getD_eq_getElem?_getD (l := p.regs)]
    rw [show 30 + (r - 30) = r by omega]

/-- What PLCLR clears, bit by bit. -/
theorem clear_facts (p : Plane) (m : BitVec 5) : (p.clear m).bound = p.bound ∧ (p.clear m).wn = p.wn ∧ (p.clear m).flags = (if m.getLsbD 0 then [] else p.flags) ∧
    (p.clear m).exc = (if m.getLsbD 1 then [] else p.exc) ∧ (p.clear m).plx = (if m.getLsbD 1 then none else p.plx) ∧
    (p.clear m).stack = (if m.getLsbD 2 then [] else p.stack) ∧ (p.clear m).e = (if m.getLsbD 2 then allCells else p.e) ∧
    (p.clear m).t = (if m.getLsbD 2 then [] else p.t) := by
  unfold Plane.clear Plane.setReg
  refine ⟨?_, ?_, ?_, ?_, ?_, ?_, ?_, ?_⟩
  · simp only [apply_ite Plane.bound, ite_self]
  · simp only [apply_ite Plane.wn, ite_self]
  · simp only [apply_ite Plane.flags, ite_self]
  · simp only [apply_ite Plane.exc, ite_self]
  · simp only [apply_ite Plane.plx, ite_self]
  · simp only [apply_ite Plane.stack, ite_self]
  · simp only [apply_ite Plane.e, ite_self]
  · simp only [apply_ite Plane.t, ite_self]

theorem cell_clear (p : Plane) (m : BitVec 5) {r i j : Nat} (hr : r < 32) (hi : i < 128) (hj : j < 128) : (p.clear m).cell r i j =
    if r < 30 then (if m.getLsbD 4 then 0 else p.cell r i j) else if m.getLsbD 3 then cellInit r else p.cell r i j := by
  have hregs : (p.clear m).cell r i j = (if m.getLsbD 4 then { (if m.getLsbD 3 then (p.setReg 30 fun _ _ => cellInit 30).setReg 31 fun _ _ => cellInit 31 else p) with
      regs := List.replicate 30 [] ++ (if m.getLsbD 3 then (p.setReg 30 fun _ _ => cellInit 30).setReg 31 fun _ _ => cellInit 31 else p).regs.drop 30 }
      else if m.getLsbD 3 then (p.setReg 30 fun _ _ => cellInit 30).setReg 31 fun _ _ => cellInit 31 else p : Plane).cell r i j := by
    unfold Plane.clear
    dsimp only
    cases m.getLsbD 0 <;> cases m.getLsbD 1 <;> cases m.getLsbD 2 <;> cases m.getLsbD 3 <;> cases m.getLsbD 4 <;> rfl
  have hinit : ((p.setReg 30 fun _ _ => cellInit 30).setReg 31 fun _ _ => cellInit 31).cell r i j = if r < 30 then p.cell r i j else cellInit r := by
    rw [cell_setReg _ _ _ hr hi hj, cell_setReg _ _ _ hr hi hj]
    by_cases h31 : r = 31
    · subst h31
      rfl
    · by_cases h30 : r = 30
      · subst h30
        rfl
      · rw [if_neg h31, if_neg h30, if_pos (by omega)]
  rw [hregs]
  by_cases h4 : m.getLsbD 4 = true
  · rw [if_pos h4, cell_zeroed]
    by_cases hr30 : r < 30
    · rw [if_pos hr30, if_pos hr30, if_pos h4]
    · rw [if_neg hr30, if_neg hr30]
      split
      · rw [hinit, if_neg hr30]
      · rfl
  · rw [if_neg h4, if_neg h4]
    by_cases h3 : m.getLsbD 3 = true
    · rw [if_pos h3, if_pos h3, hinit]
    · rw [if_neg h3, if_neg h3, ite_self]

theorem Next.plclr {s : State} {blk : Nat} {b : Block} {o : EngOp} {p : Plane} (h : Next s blk b o p) {m : BitVec 5} (hi : o.instr = .plclr m) :
    Runs s blk b o fun p' => p'.bound = p.bound ∧ p'.wn = p.wn ∧ ∀ i j, i < 128 → j < 128 →
      p'.cellFlags i j = (if m.getLsbD 0 then 0 else p.cellFlags i j) ∧ cbit p'.exc i j = (cbit p.exc i j && !m.getLsbD 1) ∧
      p'.plx = (if m.getLsbD 1 then none else p.plx) ∧ p'.stack = (if m.getLsbD 2 then [] else p.stack) ∧ cbit p'.e i j = (cbit p.e i j || m.getLsbD 2) ∧
      cbit p'.t i j = (cbit p.t i j && !m.getLsbD 2) ∧ p'.cell 30 i j = (if m.getLsbD 3 then 0xFFFFFFFF else p.cell 30 i j) ∧
      p'.cell 31 i j = (if m.getLsbD 3 then 0x7F800000 else p.cell 31 i j) ∧ ∀ r, r < 30 → p'.cell r i j = if m.getLsbD 4 then 0 else p.cell r i j := by
  have hi' : (running b o).instr = .plclr m := hi
  have hs : p.simple (running b o) = (p.clear m, 0, []) := by
    unfold Plane.simple
    rw [hi']
  refine (h.simple (by rw [hi]; rfl) hs).mono ?_
  rintro p' ⟨exc, plx, rfl, hkept⟩
  obtain ⟨rfl, rfl⟩ := hkept rfl
  obtain ⟨hbound, hwn, hflags, hexc, hplx, hstack, he, ht⟩ := clear_facts p m
  refine ⟨hbound, hwn, fun i j h1 h2 => ⟨?_, ?_, hplx, hstack, ?_, ?_, ?_, ?_, fun r hr => ?_⟩⟩
  · show ((p.clear m).flags.getD j []).getD i 0 = _
    rw [hflags]
    cases m.getLsbD 0 <;> rfl
  · show cbit (p.clear m).exc i j = _
    rw [hexc]
    cases m.getLsbD 1
    · simp
    · simp [cbit_nil]
  · show cbit (p.clear m).e i j = _
    rw [he]
    cases m.getLsbD 2
    · simp
    · simp [cbit_allCells h1 h2]
  · show cbit (p.clear m).t i j = _
    rw [ht]
    cases m.getLsbD 2
    · simp
    · simp [cbit_nil]
  · exact (cell_clear p m (by decide) h1 h2).trans rfl
  · exact (cell_clear p m (by decide) h1 h2).trans rfl
  · exact (cell_clear p m (by omega) h1 h2).trans (if_pos hr)

end Sys2Proof.Proofs.PlaneOps
end

section
/-! SUPPORT. PLLD and PLST row by row (R197, R253): the places of a cell row, the cells that move, and how the operation goes on: O35. -/

namespace Sys2Proof.Proofs.PlaneRows

open Sys2Proof Sys2Proof.Machine Sys2Proof.Laws Sys2Proof.Proofs.IssuingBlock Sys2Proof.Proofs.Frames Sys2Proof.Proofs.SyncWords Sys2Proof.Proofs.Virga
  Sys2Proof.Proofs.Queues Sys2Proof.Proofs.PlaneReads Sys2Proof.Proofs.MatrixRuns Sys2Proof.Proofs.Cells Sys2Proof.Proofs.PlaneOps

/-! ## Checks that do not look at blocks -/

/-- An engine's access is checked without a look at the blocks: a span peer's address is malformed (R241). -/
theorem copyCheck_modBlock (s : State) (n : Nat) (f : Block → Block) (who : Who) (b : Block) (grp : Nat) (sp : Bool) (a : Word) (k : Nat) (w race : Bool) :
    (s.modBlock n f).copyCheck who b grp (if sp then 1 else 0) a k w race = s.copyCheck who b grp (if sp then 1 else 0) a k w race := by
  cases sp with
  | false => rfl
  | true =>
    show (s.modBlock n f).checkSp who b none _ race = s.checkSp who b none _ race
    unfold State.checkSp
    dsimp only
    refine ite_congr rfl (fun _ => rfl) fun _ => ite_congr rfl (fun _ => rfl) fun hspan => ite_congr rfl (fun _ => rfl) fun _ => ite_congr rfl (fun _ => rfl) fun _ => ?_
    have hbit : bit a.toNat 24 = false := by simpa using hspan
    rw [hbit]
    rfl

/-! ## A row's places -/

section
variable {s : State} {b : Block} {o : EngOp} {p : Plane} {sp st : Bool}

/-- The check of the cell i of the row at the progress index. -/
def cellCheck (s : State) (b : Block) (o : EngOp) (sp st : Bool) (i : Nat) : Except Trap Acc :=
  s.copyCheck (o.who b) b o.grp (if sp then 1 else 0) (cellAddr (o.opa.getD 0 0 + o.opa.getD 1 0) i o.pix) 4 st true

/-- The enabled cells of a row. -/
def enabled (p : Plane) (j : Nat) : List Nat := (List.range 128).filter fun i => p.en i j

theorem mem_enabled {j i : Nat} : i ∈ enabled p j ↔ i < 128 ∧ p.en i j = true := by
  unfold enabled
  rw [List.mem_filter, List.mem_range]

theorem foldlM_places {check : Nat → Except Trap Acc} {f : Nat → Acc} (l : List Nat) (hf : ∀ i ∈ l, check i = .ok (f i)) (acc : List (Nat × Acc)) :
    l.foldlM (fun acc i => match check i with | .ok x => Except.ok (acc ++ [(i, x)]) | .error t => .error t) acc = .ok (acc ++ l.map fun i => (i, f i)) := by
  induction l generalizing acc with
  | nil => exact congrArg Except.ok (List.append_nil acc).symm
  | cons i l ih =>
    rw [List.foldlM_cons, hf i List.mem_cons_self]
    show List.foldlM _ (acc ++ [(i, f i)]) l = _
    rw [ih fun k hk => hf k (List.mem_cons_of_mem _ hk), List.map_cons, List.append_assoc]
    rfl

theorem foldlM_stops {check : Nat → Except Trap Acc} {e : Trap} {i : Nat} (l : List Nat) (hl : l.Pairwise (· < ·)) (hi : i ∈ l) (he : check i = .error e)
    (hok : ∀ k ∈ l, k < i → ∃ y, check k = .ok y) (acc : List (Nat × Acc)) :
    l.foldlM (fun acc i => match check i with | .ok x => Except.ok (acc ++ [(i, x)]) | .error t => .error t) acc = .error e := by
  induction l generalizing acc with
  | nil => cases hi
  | cons k l ih =>
    rw [List.foldlM_cons]
    rcases List.mem_cons.1 hi with rfl | hi
    · rw [he]
      rfl
    · obtain ⟨y, hy⟩ := hok k List.mem_cons_self ((List.pairwise_cons.1 hl).1 i hi)
      rw [hy]
      exact ih (List.pairwise_cons.1 hl).2 hi (fun n hn => hok n (List.mem_cons_of_mem _ hn)) _

theorem cellRow_ok {f : Nat → Acc} (hf : ∀ i, i < 128 → p.en i o.pix = true → cellCheck s b o sp st i = .ok (f i)) :
    s.cellRow b o p sp st (o.opa.getD 0 0 + o.opa.getD 1 0) o.pix = .ok ((enabled p o.pix).map fun i => (i, f i)) :=
  foldlM_places (check := cellCheck s b o sp st) (enabled p o.pix) (fun i hi => hf i (mem_enabled.1 hi).1 (mem_enabled.1 hi).2) []

theorem cellRow_error {i : Nat} {e : Trap} (hi : i < 128) (hen : p.en i o.pix = true) (he : cellCheck s b o sp st i = .error e)
    (hok : ∀ k, k < i → p.en k o.pix = true → ∃ y, cellCheck s b o sp st k = .ok y) :
    s.cellRow b o p sp st (o.opa.getD 0 0 + o.opa.getD 1 0) o.pix = .error e :=
  foldlM_stops (check := cellCheck s b o sp st) (enabled p o.pix) (List.pairwise_lt_range.filter _) (mem_enabled.2 ⟨hi, hen⟩) he
    (fun k hk hlt => hok k hlt (mem_enabled.1 hk).2) []

/-! ## The cells that move -/

/-- The cells that move in this step. -/
def moving (s : State) (o : EngOp) (p : Plane) : List Nat := (enabled p o.pix).filter fun i => !o.units.contains i && Config.units s.tick i

/-- Every cell of the row has moved. -/
def rowDone (s : State) (o : EngOp) (p : Plane) : Bool := (enabled p o.pix).all fun i => (o.units ++ moving s o p).contains i

theorem mem_moving {i : Nat} : i ∈ moving s o p ↔ i < 128 ∧ (p.en i o.pix && !o.units.contains i && Config.units s.tick i) = true := by
  unfold moving
  rw [List.mem_filter, mem_enabled, Bool.and_eq_true, Bool.and_eq_true, Bool.and_eq_true]
  exact ⟨fun ⟨⟨a, b⟩, c, d⟩ => ⟨a, ⟨b, c⟩, d⟩, fun ⟨a, ⟨b, c⟩, d⟩ => ⟨⟨a, b⟩, c, d⟩⟩

theorem nodup_moving : (moving s o p).Nodup := (List.nodup_range.filter _).filter _

theorem rowDone_iff : rowDone s o p = true ↔
    ∀ i, i < 128 → p.en i o.pix = true → i ∈ o.units ∨ (p.en i o.pix && !o.units.contains i && Config.units s.tick i) = true := by
  unfold rowDone
  rw [List.all_eq_true]
  refine ⟨fun h i hi hen => ?_, fun h i hi => ?_⟩
  · rcases List.mem_append.1 (List.contains_iff_mem.1 (h i (mem_enabled.2 ⟨hi, hen⟩))) with hm | hm
    · exact .inl hm
    · exact .inr (mem_moving.1 hm).2
  · obtain ⟨hi, hen⟩ := mem_enabled.1 hi
    refine List.contains_iff_mem.2 (List.mem_append.2 ?_)
    rcases h i hi hen with hm | hm
    · exact .inl hm
    · exact .inr (mem_moving.2 ⟨hi, hm⟩)

/-- The stores of the moving cells. -/
def storeCells (s : State) (b : Block) (o : EngOp) (p : Plane) (d : Nat) (f : Nat → Acc) (l : List Nat) : State :=
  l.foldl (fun s i => s.performOp b o (o.who b) (f i) (leBytes 4 (p.cell d i o.pix).toNat)) s

/-- What a row's step leaves of memory, of the plane and of the operation's units. -/
def movedRow (s : State) (b : Block) (o : EngOp) (p : Plane) (d : Nat) (st : Bool) (f : Nat → Acc) : State × Plane :=
  if st then
    (if rowDone s o p then (storeCells s b o p d f (moving s o p)).clearCovered ((enabled p o.pix).map fun i => ((f i).loc, 4))
      else storeCells s b o p d f (moving s o p), p)
  else (s, p.setRow d o.pix ((moving s o p).map fun i => (i, BitVec.ofNat 32 (s.num (f i).loc 4))))

theorem moveRow_ok {d : Nat} {f : Nat → Acc} (hf : ∀ i, i < 128 → p.en i o.pix = true → cellCheck s b o sp st i = .ok (f i)) :
    s.moveRow b o p d sp st = .ok ((movedRow s b o p d st f).1, (movedRow s b o p d st f).2, o.units ++ moving s o p, rowDone s o p) := by
  have hys : ((enabled p o.pix).map fun i => (i, f i)).filter (fun x => !o.units.contains x.1 && Config.units s.tick x.1) = (moving s o p).map fun i => (i, f i) := by
    rw [List.filter_map]
    rfl
  unfold State.moveRow
  rw [cellRow_ok hf]
  dsimp only
  rw [hys]
  have hus : ((moving s o p).map fun i => (i, f i)).map (·.1) = moving s o p := by
    rw [List.map_map]
    exact List.map_id _
  have hall : (((enabled p o.pix).map fun i => (i, f i)).all fun x => (o.units ++ moving s o p).contains x.1) = rowDone s o p := by
    rw [List.all_map]
    rfl
  rw [hus, hall]
  unfold movedRow
  cases st with
  | true =>
    simp only [if_true, List.foldl_map, List.map_map]
    rfl
  | false =>
    simp only [Bool.false_eq_true, if_false, List.map_map]
    rfl

end

/-! ## The bytes of a row's stores -/

section
variable {s t : State} {b : Block} {o : EngOp} {p : Plane} {d : Nat} {f : Nat → Acc}

/-- The stores of the cells of l have been made, and nothing else has been written. -/
structure RowStored (s : State) (p : Plane) (o : EngOp) (d : Nat) (f : Nat → Acc) (l : List Nat) (t : State) : Prop where
  done : ∀ i ∈ l, t.num (f i).loc 4 = (p.cell d i o.pix).toNat
  kept : ∀ y, (∀ i ∈ l, y.within (f i).loc 4 = false) → t.byte y = s.byte y
  shape : shape t = shape s
  groups : ∀ gr, t.group? gr = s.group? gr

theorem group?_performOp (who : Who) (a : Acc) (vs : List Byte) (gr : GRef) : (s.performOp b o who a vs).group? gr = s.group? gr := by
  refine Eq.trans ?_ (group?_perform s who a vs gr)
  unfold State.performOp
  exact (SameBytes.foldl (fun (s : State) (x : Loc × Writer) => s.setWriter x.1 x.2) (fun _ _ => ⟨rfl, rfl, rfl, rfl⟩) _ _).group? gr

theorem storeCells_stores {l : List Nat} (hl : l.Nodup) (hh : ∀ i ∈ l, s.holds (f i).loc.store = true)
    (hapart : ∀ i ∈ l, ∀ k ∈ l, i ≠ k → ∀ x, x < 4 → ((f i).loc.add x).within (f k).loc 4 = false) :
    RowStored s p o d f l (storeCells s b o p d f l) := by
  induction l using List.reverseRecOn with
  | nil => exact ⟨fun _ h => absurd h List.not_mem_nil, fun _ _ => rfl, rfl, fun _ => rfl⟩
  | append_singleton l i ih =>
    obtain ⟨hln, -, hdisj⟩ := List.nodup_append.1 hl
    have hne : ∀ k ∈ l, k ≠ i := fun k hk => hdisj k hk i (List.mem_singleton.2 rfl)
    have hin : ∀ k ∈ l, k ∈ l ++ [i] := fun k hk => List.mem_append_left _ hk
    have hii : i ∈ l ++ [i] := List.mem_append_right _ (List.mem_singleton.2 rfl)
    have h := ih hln (fun k hk => hh k (hin k hk)) fun k hk n hn => hapart k (hin k hk) n (hin n hn)
    have hs : storeCells s b o p d f (l ++ [i]) = (storeCells s b o p d f l).performOp b o (o.who b) (f i) (leBytes 4 (p.cell d i o.pix).toNat) :=
      List.foldl_append ..
    have hstored := stored_performOp (b := b) (o := o) ((holds_of_shape h.shape (f i).loc.store).trans (hh i hii)) (o.who b) (leBytes 4 (p.cell d i o.pix).toNat)
    rw [hs]
    refine ⟨fun k hk => ?_, fun y hy => ?_, (shape_performOp _ _ _ _ _ _).trans h.shape, fun gr => (group?_performOp _ _ _ gr).trans (h.groups gr)⟩
    · rcases List.mem_append.1 hk with hk | hk
      · refine (num_cell fun x hx => hstored.kept _ ?_).trans (h.done k hk)
        rw [length_leBytes]
        exact hapart k (hin k hk) i hii (hne k hk) x hx
      · rw [List.mem_singleton.1 hk, num_written hstored]
        exact Nat.mod_eq_of_lt (p.cell d i o.pix).isLt
    · refine (hstored.kept y ?_).trans (h.kept y fun k hk => hy k (hin k hk))
      rw [length_leBytes]
      exact hy i hii

theorem RowStored.covered {l : List Nat} (h : RowStored s p o d f l t) (ps : List (Loc × Nat)) :
    RowStored s p o d f l (t.clearCovered ps) where
  done i hi := (num_cell fun _ _ => (same_clearCovered t ps).byte _).trans (h.done i hi)
  kept y hy := ((same_clearCovered t ps).byte y).trans (h.kept y hy)
  shape := (shape_clearCovered t ps).trans h.shape
  groups gr := ((same_clearCovered t ps).group? gr).trans (h.groups gr)

/-- The block after the stores: its bytes alone may differ. -/
theorem RowStored.block {l : List Nat} (h : RowStored s p o d f l t) {blk : Nat} {b1 : Block} (hb : s.block? blk = some b1) :
    ∃ b2, t.block? blk = some b2 ∧ b2.ops = b1.ops ∧ b2.planeSt = b1.planeSt ∧ b2.groups = b1.groups := by
  have hblocks : t.blocks.map blockShape = s.blocks.map blockShape := (congrArg State.blocks h.shape :)
  have hfind : (t.block? blk).map blockShape = (s.block? blk).map blockShape := by rw [block?_map_blockShape, block?_map_blockShape, hblocks]
  rw [hb, Option.map_some] at hfind
  obtain ⟨b2, hb2, hs⟩ := Option.map_eq_some_iff.1 hfind
  refine ⟨b2, hb2, (congrArg Block.ops hs :), (congrArg Block.planeSt hs :), List.ext_getElem? fun k => ?_⟩
  have hg := h.groups ⟨blk, k⟩
  unfold State.group? at hg
  rw [hb2, hb] at hg
  exact hg

end

/-! ## How the operation goes on -/

/-- The end of a row's step: the units of the row, or the next row, or the end of the operation's work. -/
def rowEnd (s : State) (blk : Nat) (o : EngOp) (us : List Nat) (all : Bool) : State :=
  if all then
    if o.pix = 127 then (s.modOp blk 2 o.num fun x => x.setUnits []).endOp blk o
    else (s.modOp blk 2 o.num fun x => x.setUnits []).modOp blk 2 o.num fun x => { x with pix := o.pix + 1 }
  else s.modOp blk 2 o.num fun x => x.setUnits us

theorem stepRow2_ok {s u : State} {b : Block} {o : EngOp} {p p' : Plane} {d : BitVec 5} {sp st all : Bool} {us : List Nat} (hpix : o.pix < 128)
    (hm : s.moveRow b o p d.toNat sp st = .ok (u, p', us, all)) :
    s.stepRow2 b o p d sp st = rowEnd (u.modBlock b.id fun b => { b with planeSt := some p' }) b.id o us all := by
  unfold State.stepRow2 rowEnd
  rw [if_neg (by omega), hm]
  cases all <;> rfl

theorem stepRow2_error {s : State} {b : Block} {o : EngOp} {p : Plane} {d : BitVec 5} {sp st : Bool} {e : Trap} (hpix : o.pix < 128)
    (hm : s.moveRow b o p d.toNat sp st = .error e) : s.stepRow2 b o p d sp st = s.modBlock b.id fun b => b.stopOp o e := by
  unfold State.stepRow2
  rw [if_neg (by omega), hm]

theorem units_setUnits (o : EngOp) (us : List Nat) : ∀ k ∈ (o.setUnits us).parts.head?, k.units = us := fun k hk => by
  unfold EngOp.setUnits at hk
  rw [List.head?_map] at hk
  obtain ⟨x, -, rfl⟩ := Option.map_eq_some_iff.1 hk
  rfl

theorem units_none (o : EngOp) : (o.setUnits []).units = [] := by
  unfold EngOp.units EngOp.setUnits
  rw [List.head?_map]
  cases o.parts.head? <;> rfl

/-- What the operation of a row is after a step. -/
def Onto (o : EngOp) (us : List Nat) (all : Bool) (q : EngOp) : Prop :=
  (all = true → if o.pix = 127 then q.state = .worked else q.pix = o.pix + 1 ∧ q.state = o.state ∧ q.units = []) ∧
  (all = false → q.pix = o.pix ∧ q.state = o.state ∧ ∀ k ∈ q.parts.head?, k.units = us)

theorem rowEnd_facts {s t : State} {blk : Nat} {b1 : Block} {o : EngOp} (h : Now s blk t b1) (hop : b1.op? 2 o.num = some o) (us : List Nat) (all : Bool) :
    ∃ b2, Now s blk (rowEnd t blk o us all) b2 ∧ SameGroups b1 b2 ∧ b2.planeSt = b1.planeSt ∧ ∃ q, b2.op? 2 o.num = some q ∧ Onto o us all q := by
  have hset : ∀ vs, (b1.modOp 2 o.num fun x => x.setUnits vs).op? 2 o.num = some (o.setUnits vs) := fun vs => op?_modOp hop fun _ => ⟨rfl, rfl⟩
  have his := is_of_op? hop
  unfold rowEnd
  cases all with
  | false => exact ⟨_, h.modOp 2 o.num _, .of_eq rfl, rfl, _, hset us, (absurd · Bool.false_ne_true), fun _ => ⟨rfl, rfl, units_setUnits o us⟩⟩
  | true =>
    rw [if_pos rfl]
    by_cases hlast : o.pix = 127
    · have hw := op?_worked (o := o) (hset []) his
      obtain ⟨q, hq, hst⟩ := Option.map_eq_some_iff.1 hw
      rw [if_pos hlast]
      exact ⟨_, (h.modOp 2 o.num fun x => x.setUnits []).endOp o, sameGroups_ended o _, planeSt_ended o _, q, hq,
        fun _ => by rw [if_pos hlast]; exact hst, fun h => absurd h.symm Bool.false_ne_true⟩
    · rw [if_neg hlast]
      exact ⟨_, (h.modOp 2 o.num fun x => x.setUnits []).modOp 2 o.num fun x => { x with pix := o.pix + 1 }, .of_eq rfl, rfl, _,
        op?_modOp (hset []) fun _ => ⟨rfl, rfl⟩, fun _ => by rw [if_neg hlast]; exact ⟨rfl, rfl, units_none o⟩, fun h => absurd h.symm Bool.false_ne_true⟩

/-! ## PLLD and PLST -/

theorem planeSt_stopOp (b : Block) (o : EngOp) (e : Trap) : (b.stopOp o e).planeSt = b.planeSt := by
  have hfold : ∀ (f : Group → Group) (l : List Nat) (c : Block), (l.foldl (fun b g => b.modGroup g f) c).planeSt = c.planeSt := fun f l => by
    induction l with
    | nil => exact fun _ => rfl
    | cons x r ih => exact fun c => ih (c.modGroup x f)
  exact hfold _ o.arrived _

/-- The machine with the operation running. -/
def runningIn (s : State) (blk : Nat) (b : Block) (o : EngOp) : State := s.modOp blk 2 o.num fun _ => running b o

theorem cellCheck_runningIn (s : State) (blk : Nat) (b : Block) (o : EngOp) (sp st : Bool) (i : Nat) :
    cellCheck (runningIn s blk b o) b (running b o) sp st i = cellCheck s b (running b o) sp st i :=
  copyCheck_modBlock s blk _ _ b _ sp _ 4 st true

theorem holds_modBlock (s : State) (n : Nat) {f : Block → Block} (hf : ∀ b, (f b).id = b.id) (st : Store) : (s.modBlock n f).holds st = s.holds st := by
  have hsome : ∀ k, ((s.modBlock n f).block? k).isSome = (s.block? k).isSome := fun k => by
    rw [block?_modBlock _ _ _ _ hf]
    split
    · exact Option.isSome_map
    · rfl
  cases st with
  | pkg | far _ => rfl
  | sp k | wb k | ab k | cb k => exact hsome k

section
variable {s : State} {blk : Nat} {b : Block} {o : EngOp} {p : Plane} (h : Next s blk b o p)
include h

theorem begun_op : (begun b o).op? 2 (running b o).num = some (running b o) := h.running_op

theorem exec_row {d : BitVec 5} {u w : Src} {sp st : Bool} (hi : o.instr = if st then Instr.plst d u w sp else .plld d u w sp) :
    exec (.planeOp blk) s = .next ((runningIn s blk b o).stepRow2 b (running b o) p d sp st) := by
  have hi' : (running b o).instr = if st then Instr.plst d u w sp else .plld d u w sp := hi
  rw [h.exec_eq]
  unfold planeRest
  cases st with
  | true =>
    rw [if_pos rfl] at hi'
    rw [hi']
    rfl
  | false =>
    rw [if_neg Bool.false_ne_true] at hi'
    rw [hi']
    rfl

/-- A cell's place fails its check, and none before it does. -/
theorem row_stops {d : BitVec 5} {u w : Src} {sp st : Bool} (hi : o.instr = if st then Instr.plst d u w sp else .plld d u w sp) (hpix : o.pix < 128)
    {i : Nat} {e : Trap} (h1 : i < 128) (hen : p.en i o.pix = true) (he : cellCheck s b (running b o) sp st i = .error e)
    (hok : ∀ k, k < i → p.en k o.pix = true → ∃ y, cellCheck s b (running b o) sp st k = .ok y) :
    ∃ t b', exec (.planeOp blk) s = .next t ∧ t.block? blk = some b' ∧ b'.planeSt = some p ∧
      (b'.op? 2 o.num).map (·.state) = some (.stopped e) ∧ ∀ l, t.byte l = s.byte l := by
  have hid := block?_id h.block
  have hrow := cellRow_error (s := runningIn s blk b o) (o := running b o) (p := p) h1 hen ((cellCheck_runningIn s blk b o sp st i).trans he) fun k hk hp => by
    rw [cellCheck_runningIn]
    exact hok k hk hp
  have hm : (runningIn s blk b o).moveRow b (running b o) p d.toNat sp st = .error e := by
    unfold State.moveRow
    rw [hrow]
  have hnow := h.begins.stop (running b o) e
  refine ⟨_, (begun b o).stopOp (running b o) e, (exec_row h hi).trans (congrArg Host.Outcome.next (stepRow2_error hpix hm)), ?_, (planeSt_stopOp _ _ _).trans h.plane,
    op?_stopOp (o := running b o) (begun_op h) ⟨h.tl, rfl⟩ e, fun l => ?_⟩
  · rw [hid]
    exact hnow.block
  · rw [hid]
    exact hnow.bytes l

/-- The row's cells have their places, and those that move are moved. -/
theorem row_moves {d : BitVec 5} {u w : Src} {sp st : Bool} (hi : o.instr = if st then Instr.plst d u w sp else .plld d u w sp) (hpix : o.pix < 128)
    {f : Nat → Acc} (hf : ∀ i, i < 128 → p.en i o.pix = true → cellCheck s b (running b o) sp st i = .ok (f i) ∧ s.holds (f i).loc.store = true)
    (hapart : ∀ i k, i < 128 → k < 128 → i ≠ k → ∀ x, x < 4 → ((f i).loc.add x).within (f k).loc 4 = false) :
    ∃ t b' p' q, exec (.planeOp blk) s = .next t ∧ t.block? blk = some b' ∧ b'.planeSt = some p' ∧ b'.op? 2 o.num = some q ∧
      Onto (running b o) (o.units ++ moving s o p) (rowDone s o p) q ∧ SameGroups b b' ∧
      (st = true → p' = p ∧ (∀ i ∈ moving s o p, t.num (f i).loc 4 = (p.cell d.toNat i o.pix).toNat) ∧
        ∀ y, (∀ i ∈ moving s o p, y.within (f i).loc 4 = false) → t.byte y = s.byte y) ∧
      (st = false → (∀ y, t.byte y = s.byte y) ∧ p' = p.setRow d.toNat o.pix ((moving s o p).map fun i => (i, BitVec.ofNat 32 (s.num (f i).loc 4)))) := by
  have hm := moveRow_ok (s := runningIn s blk b o) (b := b) (o := running b o) (p := p) (sp := sp) (st := st) (d := d.toNat) (f := f) fun i h1 hen =>
    (cellCheck_runningIn s blk b o sp st i).trans (hf i h1 hen).1
  have hexec := (exec_row h hi).trans (congrArg Host.Outcome.next (stepRow2_ok hpix hm))
  rw [block?_id h.block] at hexec
  have hbytes : ∀ l, (runningIn s blk b o).byte l = s.byte l := h.begins.bytes
  cases st with
  | true =>
    have hmoved : ∀ i ∈ moving s o p, i < 128 ∧ p.en i o.pix = true := fun i hi => by
      obtain ⟨h1, h2⟩ := mem_moving.1 hi
      rw [Bool.and_eq_true, Bool.and_eq_true] at h2
      exact ⟨h1, h2.1.1⟩
    have hholds : ∀ i ∈ moving s o p, (runningIn s blk b o).holds (f i).loc.store = true := fun i hi =>
      (holds_modBlock s blk (f := fun b' => b'.modOp 2 o.num fun _ => running b o) (fun _ => rfl) _).trans (hf i (hmoved i hi).1 (hmoved i hi).2).2
    have hst := storeCells_stores (s := runningIn s blk b o) (b := b) (o := running b o) (p := p) (d := d.toNat) (f := f) (nodup_moving (s := s) (o := o) (p := p)) hholds
      fun i hi k hk => hapart i k (hmoved i hi).1 (hmoved k hk).1
    have hrow : RowStored (runningIn s blk b o) p (running b o) d.toNat f (moving s o p) (movedRow (runningIn s blk b o) b (running b o) p d.toNat true f).1 := by
      unfold movedRow
      rw [if_pos rfl]
      dsimp only
      split
      · exact hst.covered _
      · exact hst
    generalize (movedRow (runningIn s blk b o) b (running b o) p d.toNat true f).1 = u at hexec hrow
    obtain ⟨b2, hb2, hops, hplane, hgroups⟩ := hrow.block h.begins.block
    obtain ⟨b3, hnow, hsame, hp3, q, hq, honto⟩ := rowEnd_facts (o := running b o) ((Now.mk hb2 fun _ => rfl : Now u blk u b2).put p) ((op?_of_ops hops 2 o.num).trans (begun_op h))
      (o.units ++ moving s o p) (rowDone s o p)
    refine ⟨_, b3, p, q, hexec, hnow.block, hp3, hq, honto, (SameGroups.of_eq hgroups).trans hsame, fun _ => ⟨rfl, fun i hi => ?_, fun y hy => ?_⟩,
      fun h => absurd h.symm Bool.false_ne_true⟩
    · exact (num_cell fun _ _ => hnow.bytes _).trans (hrow.done i hi)
    · exact ((hnow.bytes y).trans (hrow.kept y hy)).trans (hbytes y)
  | false =>
    obtain ⟨b3, hnow, hsame, hp3, q, hq, honto⟩ := rowEnd_facts (o := running b o)
      (h.begins.put (p.setRow d.toNat o.pix ((moving s o p).map fun i => (i, BitVec.ofNat 32 ((runningIn s blk b o).num (f i).loc 4))))) (begun_op h)
      (o.units ++ moving s o p) (rowDone s o p)
    refine ⟨_, b3, _, q, hexec, hnow.block, hp3, hq, honto, (SameGroups.of_eq rfl).trans hsame, fun h => absurd h Bool.false_ne_true, fun _ => ⟨hnow.bytes, ?_⟩⟩
    have hnum : ∀ l, (runningIn s blk b o).num l 4 = s.num l 4 := fun l => num_cell fun _ _ => hbytes _
    simp only [hnum]

end

end Sys2Proof.Proofs.PlaneRows
end

section
/-! SUPPORT. PLTILE by one primitive of its list at a time (R202), and O35: every operation of the plane, by its instruction. -/

namespace Sys2Proof.Proofs.PlaneTiles

open Sys2Proof Sys2Proof.Machine Sys2Proof.Laws Sys2Proof.Proofs.IssuingBlock Sys2Proof.Proofs.Frames Sys2Proof.Proofs.SyncWords Sys2Proof.Proofs.Virga
  Sys2Proof.Proofs.Queues Sys2Proof.Proofs.PlaneReads Sys2Proof.Proofs.MatrixRuns Sys2Proof.Proofs.Cells Sys2Proof.Proofs.PlaneOps Sys2Proof.Proofs.PlaneRows

/-! ## The header -/

theorem leBytes_leNat : ∀ bs : List Byte, leBytes bs.length (leNat bs) = bs
  | [] => rfl
  | b :: r => by
    have hb := b.isLt
    show BitVec.ofNat 8 (b.toNat + 256 * leNat r) :: leBytes r.length ((b.toNat + 256 * leNat r) / 256) = b :: r
    have hdiv : (b.toNat + 256 * leNat r) / 256 = leNat r := by omega
    rw [hdiv, leBytes_leNat r]
    refine congrArg (· :: r) (BitVec.eq_of_toNat_eq ?_)
    rw [BitVec.toNat_ofNat]
    omega

/-- Eight bytes kept as a word. -/
theorem leBytes_word {bs : List Byte} (h : bs.length = 8) : leBytes 8 (BitVec.ofNat 64 (leNat bs)).toNat = bs := by
  have hlt := leNat_lt bs
  rw [h] at hlt
  rw [BitVec.toNat_ofNat, Nat.mod_eq_of_lt (show leNat bs < 2 ^ 64 from hlt)]
  exact h ▸ leBytes_leNat bs

/-- The operation that has read its header. -/
def headed (o : EngOp) (hd : List Byte) : EngOp :=
  { o with data := o.data.take 1 ++ [BitVec.ofNat 64 (recNum hd 0 8), BitVec.ofNat 64 (recNum hd 8 8)] ++ o.data.drop 3 }

theorem header_headed {o : EngOp} {hd : List Byte} (ho : o.data.length = 3) (hh : hd.length = 16) : (headed o hd).header = hd := by
  have hdata : (headed o hd).data = o.data.take 1 ++ ([BitVec.ofNat 64 (recNum hd 0 8), BitVec.ofNat 64 (recNum hd 8 8)] ++ o.data.drop 3) := List.append_assoc ..
  have hlen : (o.data.take 1).length = 1 := by rw [List.length_take, ho]; rfl
  unfold EngOp.header
  rw [hdata, List.drop_left' hlen]
  show leBytes 8 (BitVec.ofNat 64 (leNat ((hd.drop 0).take 8))).toNat ++ (leBytes 8 (BitVec.ofNat 64 (leNat ((hd.drop 8).take 8))).toNat ++ []) = hd
  have hlast : (hd.drop 8).take 8 = hd.drop 8 := List.take_of_length_le (by simp [hh])
  rw [leBytes_word (by simp [hh]), leBytes_word (by simp [hh]), List.append_nil, List.drop_zero, hlast, List.take_append_drop]

/-- What an operation of t2 has read does not change who it is. -/
theorem who_headed {o : EngOp} (ho : o.tl = 2) (hd : List Byte) (b : Block) : (headed o hd).who b = o.who b := by
  have hkin : (headed o hd).kin = o.kin := by
    funext q
    unfold EngOp.kin
    rw [show (headed o hd).tl = o.tl from rfl, ho]
    rfl
  unfold EngOp.who Block.kinClock
  rw [hkin]
  rfl

/-! ## A primitive on the plane -/

section
variable (p : Plane) (bs : List Byte) (x y : Nat)

/-- The depth that a primitive has at a cell. -/
def depthAt (bs : List Byte) (x y i j : Nat) : Val :=
  (linVal ((List.range 3).map fun n => primF32 bs (40 + 4 * n)) (centre (128 * x + i)) (centre (128 * y + j))).1

/-- An enabled cell that the primitive covers takes it where it is nearer. -/
def covers (p : Plane) (bs : List Byte) (x y i j : Nat) : Bool :=
  p.en i j && condVal .ge (polyVal ((List.range 6).map fun n => primF32 bs (4 * n)) (centre (128 * x + i)) (centre (128 * y + j))).1 (Val.ofInt 0) &&
    condVal .lt (depthAt bs x y i j) (decodeElem .f32 (p.cell 31 i j).toNat)

theorem takes_eq (i j : Nat) : p.takes bs x y i j = if covers p bs x y i j then some (cellRound false (depthAt bs x y i j, 0)).1 else none := by
  unfold Plane.takes covers depthAt
  cases p.en i j
  · rfl
  · simp only [Bool.not_true, Bool.false_eq_true, if_false, Bool.true_and]
    rfl

variable {p bs x y} (taken : CellBits) {i j : Nat} (hi : i < 128) (hj : j < 128)
include hi hj

theorem cell_primitive : ((p.primitive bs x y taken).1.cell 31 i j).toNat =
      (if covers p bs x y i j then (finish .f32 .rne false (depthAt bs x y i j, 0)).1 else (p.cell 31 i j).toNat) ∧
    (p.primitive bs x y taken).1.cell 30 i j = (if covers p bs x y i j then BitVec.ofNat 32 (recNum bs 52 4) else p.cell 30 i j) ∧
    ∀ r, r < 30 → (p.primitive bs x y taken).1.cell r i j = p.cell r i j := by
  have hat : ((grid fun i j => p.takes bs x y i j).getD j []).getD i none = if covers p bs x y i j then some (cellRound false (depthAt bs x y i j, 0)).1 else none :=
    (grid_get _ hi hj none).trans (takes_eq p bs x y i j)
  unfold Plane.primitive
  refine ⟨?_, ?_, fun r hr => ?_⟩
  · rw [cell_setReg _ _ _ (by decide) hi hj, if_neg (by decide), cell_setReg _ _ _ (by decide) hi hj, if_pos rfl]
    dsimp only
    rw [hat]
    split
    · exact toNat_rounded _
    · rfl
  · rw [cell_setReg _ _ _ (by decide) hi hj, if_pos rfl]
    simp only [hat]
    split
    · rfl
    · rfl
  · rw [cell_setReg _ _ _ (by omega) hi hj, if_neg (by omega), cell_setReg _ _ _ (by omega) hi hj, if_neg (by omega)]

end

/-! ## One step -/

section
variable {s t : State} {blk : Nat} {b b1 : Block} {o : EngOp} {p : Plane}

/-- An engine's read of global memory does not look at blocks. -/
theorem engRead_now (hn : Now s blk t b1) (ht : ∃ B, t = { s with blocks := B }) (who : Who) (c : Block) (a : Word) (n al : Nat) :
    t.engRead who c false a n al = s.engRead who c false a n al := by
  have hbytes : ∀ l, t.bytes l n = s.bytes l n := fun l => List.map_congr_left fun _ _ => hn.bytes _
  have hcheck : ∀ q : Req, q.space = .gl → t.check who c none q true = s.check who c none q true := fun q hq => by
    obtain ⟨B, rfl⟩ := ht
    unfold State.check
    rw [hq]
    rfl
  unfold State.engRead
  rw [hcheck _ rfl]
  split
  · rfl
  · rw [hbytes]

/-- The end of a tile. -/
def tileEnd (s : State) (blk : Nat) (o : EngOp) (x : CellBits) : State := (s.modBlock blk fun b => b.addStat 3 (cellCount x)).endOp blk o

/-- An operation whose work has been done. -/
theorem op?_ended {n : Nat} {q : EngOp} (hop : b1.op? 2 n = some o) (htl : q.tl = 2) (hnum : q.num = n) :
    ∃ x, (ended q b1).op? 2 n = some x ∧ x.pix = o.pix ∧ x.state = .worked := by
  have hclear : (b1.clearPix q).op? 2 n = some (cleared o) := by
    rw [op?_of_ops (ops_clearPix b1 q), htl, hnum]
    exact op?_modOp hop fun _ => ⟨rfl, rfl⟩
  unfold ended
  rw [htl, hnum]
  exact ⟨_, op?_modOp hclear fun _ => ⟨rfl, rfl⟩, rfl, rfl⟩

theorem tileEnd_facts {n : Nat} (h : Now s blk t b1) (hop : b1.op? 2 n = some o) (x : CellBits) {q : EngOp} (htl : q.tl = 2) (hnum : q.num = n) :
    ∃ b2, Now s blk (tileEnd t blk q x) b2 ∧ SameGroups b1 b2 ∧ b2.planeSt = b1.planeSt ∧ ∃ y, b2.op? 2 n = some y ∧ y.pix = o.pix ∧ y.state = .worked :=
  ⟨_, (h.mod (f := fun b => b.addStat 3 (cellCount x)) ⟨fun _ => rfl, fun _ => rfl, fun _ => ⟨rfl, rfl, rfl, rfl⟩⟩).endOp q, sameGroups_ended q (b1.addStat 3 (cellCount x)),
    planeSt_ended q _, op?_ended (b1 := b1.addStat 3 (cellCount x)) hop htl hnum⟩

/-- The machine with the operation that has read its header. -/
def headedIn (s : State) (blk : Nat) (b : Block) (o : EngOp) (hd : List Byte) : State := (runningIn s blk b o).modOp blk 2 o.num fun _ => headed (running b o) hd

/-- A PLTILE that starts: it reads its header, and ends, or takes the primitive at its progress index. -/
def tileRest (blk : Nat) (b : Block) (o : EngOp) (p : Plane) (t : State) : State :=
  if recNum o.header 0 4 ≤ o.pix then tileEnd t blk o o.taken
  else match t.tilePrim b o p with
    | .error e => t.modBlock blk fun b => b.stopOp o e
    | .ok r =>
      let u := (t.modBlock blk fun b => { b with planeSt := some r.1 }).modOp blk 2 o.num fun x => { x with data := o.data.take 3 ++ cellWords r.2, pix := o.pix + 1 }
      if o.pix + 1 = recNum o.header 0 4 then tileEnd u blk o r.2 else u

variable (h : Next s blk b o p)
include h

theorem exec_tile {u w : Src} (hi : o.instr = .pltile u w) (hq : o.state = .queued) {hd : List Byte}
    (hh : s.engRead ((running b o).who b) b false (o.opa.getD 0 0) 16 16 = .ok hd) :
    exec (.planeOp blk) s = .next (tileRest blk b (headed (running b o) hd) p (headedIn s blk b o hd)) := by
  have hi' : (running b o).instr = .pltile u w := hi
  have hread : (runningIn s blk b o).startTile b (running b o) = .ok (headed (running b o) hd) := by
    unfold State.startTile
    have hread : (runningIn s blk b o).engRead ((running b o).who b) b false ((running b o).opa.getD 0 0) 16 16 = .ok hd :=
      (engRead_now h.begins ⟨_, rfl⟩ _ _ _ _ _).trans hh
    rw [hread]
    rfl
  have hstate : (o.state == .queued) = true := by rw [hq]; rfl
  rw [h.exec_eq, hstate]
  unfold planeRest
  rw [hi']
  show Host.Outcome.next ((runningIn s blk b o).stepTile b (running b o) p true) = _
  unfold State.stepTile
  rw [if_pos rfl, hread, block?_id h.block]
  rfl

theorem headed_now (hd : List Byte) : Now s blk (headedIn s blk b o hd) ((begun b o).modOp 2 o.num fun _ => headed (running b o) hd) :=
  h.begins.modOp 2 o.num fun _ => headed (running b o) hd

theorem headed_op (hd : List Byte) : ((begun b o).modOp 2 o.num fun _ => headed (running b o) hd).op? 2 o.num = some (headed (running b o) hd) :=
  op?_modOp_same h.running_op rfl

variable {u w : Src} (hi : o.instr = .pltile u w) (hq : o.state = .queued) (hlen : o.data.length = 3) {hd : List Byte}
  (hh : s.engRead ((running b o).who b) b false (o.opa.getD 0 0) 16 16 = .ok hd) (hl : hd.length = 16)
include hi hq hlen hh hl

theorem tile_ends (hc : leNat (hd.take 4) ≤ o.pix) : Runs s blk b o fun p' => p' = p := by
  have hhead : (headed (running b o) hd).header = hd := header_headed (o := running b o) hlen hl
  have hrest : tileRest blk b (headed (running b o) hd) p (headedIn s blk b o hd) =
      tileEnd (headedIn s blk b o hd) blk (headed (running b o) hd) (headed (running b o) hd).taken := by
    unfold tileRest
    rw [hhead]
    exact if_pos hc
  obtain ⟨b2, hnow, hsame, hp, q, hop, -, hst⟩ := tileEnd_facts (headed_now h hd) (headed_op h hd) (headed (running b o) hd).taken (q := headed (running b o) hd) h.tl rfl
  exact ⟨_, b2, p, (exec_tile h hi hq hh).trans (congrArg Host.Outcome.next hrest), hnow.block, hp.trans h.plane,
    by rw [hop, Option.map_some, hst], hnow.bytes, hsame, rfl⟩

omit hi hq hh in
/-- The primitive at the progress index is read through the list. -/
theorem tilePrim_ok {ix bs : List Byte}
    (hix : s.engRead ((running b o).who b) b false (binStoreOf b (o.opa.getD 0 0) + BitVec.ofNat 64 (leNat (hd.drop 8)) + BitVec.ofNat 64 (4 * o.pix)) 4 4 = .ok ix)
    (hbs : s.engRead ((running b o).who b) b false (o.opa.getD 1 0 + BitVec.ofNat 64 (64 * leNat ix)) 64 64 = .ok bs) :
    (headedIn s blk b o hd).tilePrim b (headed (running b o) hd) p =
      .ok (p.primitive bs (leNat ((hd.drop 4).take 2)) (leNat ((hd.drop 6).take 2)) (headed (running b o) hd).taken) := by
  have hhead : (headed (running b o) hd).header = hd := header_headed (o := running b o) hlen hl
  have hofs : recNum hd 8 8 = leNat (hd.drop 8) := congrArg leNat (List.take_of_length_le (by simp [hl]))
  have hread1 : (headedIn s blk b o hd).engRead ((headed (running b o) hd).who b) b false (binStoreOf b ((headed (running b o) hd).opa.getD 0 0) +
      BitVec.ofNat 64 (leNat (hd.drop 8)) + BitVec.ofNat 64 (4 * (headed (running b o) hd).pix)) 4 4 = .ok ix :=
    by
    rw [engRead_now (headed_now h hd) ⟨_, rfl⟩, who_headed (o := running b o) h.tl]
    exact hix
  have hread2 : (headedIn s blk b o hd).engRead ((headed (running b o) hd).who b) b false ((headed (running b o) hd).opa.getD 1 0 +
      BitVec.ofNat 64 (64 * leNat ix)) 64 64 = .ok bs :=
    by
    rw [engRead_now (headed_now h hd) ⟨_, rfl⟩, who_headed (o := running b o) h.tl]
    exact hbs
  unfold State.tilePrim
  dsimp only
  rw [hhead, hofs, hread1]
  show ((headedIn s blk b o hd).engRead ((headed (running b o) hd).who b) b false ((headed (running b o) hd).opa.getD 1 0 + BitVec.ofNat 64 (64 * leNat ix)) 64 64 >>= _) = _
  rw [hread2]
  rfl

theorem tile_takes {ix bs : List Byte} (hc : o.pix < leNat (hd.take 4))
    (hix : s.engRead ((running b o).who b) b false (binStoreOf b (o.opa.getD 0 0) + BitVec.ofNat 64 (leNat (hd.drop 8)) + BitVec.ofNat 64 (4 * o.pix)) 4 4 = .ok ix)
    (hbs : s.engRead ((running b o).who b) b false (o.opa.getD 1 0 + BitVec.ofNat 64 (64 * leNat ix)) 64 64 = .ok bs) :
    ∃ t b' q, exec (.planeOp blk) s = .next t ∧ t.block? blk = some b' ∧
      b'.planeSt = some (p.primitive bs (leNat ((hd.drop 4).take 2)) (leNat ((hd.drop 6).take 2)) (headed (running b o) hd).taken).1 ∧ b'.op? 2 o.num = some q ∧
      (∀ l, t.byte l = s.byte l) ∧ SameGroups b b' ∧ q.pix = o.pix + 1 ∧ q.state = (if o.pix + 1 = leNat (hd.take 4) then .worked else .running) := by
  have hhead : (headed (running b o) hd).header = hd := header_headed (o := running b o) hlen hl
  have hprim := tilePrim_ok h hlen hl hix hbs
  generalize p.primitive bs _ _ _ = r at hprim
  have hnow := ((headed_now h hd).put r.1).modOp 2 o.num fun x => { x with data := (headed (running b o) hd).data.take 3 ++ cellWords r.2, pix := o.pix + 1 }
  have hop := op?_modOp (f := fun x => { x with data := (headed (running b o) hd).data.take 3 ++ cellWords r.2, pix := o.pix + 1 })
    (b := { (begun b o).modOp 2 o.num fun _ => headed (running b o) hd with planeSt := some r.1 }) (headed_op h hd) fun _ => ⟨rfl, rfl⟩
  have hexec := exec_tile h hi hq hh
  unfold tileRest at hexec
  rw [hhead, if_neg (show ¬ recNum hd 0 4 ≤ (headed (running b o) hd).pix from Nat.not_le.2 hc), hprim] at hexec
  by_cases hlast : o.pix + 1 = leNat (hd.take 4)
  · obtain ⟨b2, hend, hsame, hp, q, hq, hpix, hst⟩ := tileEnd_facts hnow hop r.2 (q := headed (running b o) hd) h.tl rfl
    exact ⟨_, b2, q, hexec.trans (congrArg Host.Outcome.next (if_pos hlast)), hend.block, hp, hq, hend.bytes, hsame, hpix, by rw [if_pos hlast]; exact hst⟩
  · exact ⟨_, _, _, hexec.trans (congrArg Host.Outcome.next (if_neg hlast)), hnow.block, rfl, hop, hnow.bytes, .of_eq rfl, rfl, by rw [if_neg hlast]; rfl⟩

end

/-! ## O35 -/

/-- What the operation of a row is after a step, by its cells. -/
theorem row_after {s : State} {b : Block} {o q : EngOp} {p : Plane} (hq : Onto (running b o) (o.units ++ moving s o p) (rowDone s o p) q) :
    let moves (i : Nat) : Bool := p.en i o.pix && !o.units.contains i && Config.units s.tick i
    let all : Prop := ∀ i, i < 128 → p.en i o.pix = true → i ∈ o.units ∨ moves i = true
    (all → if o.pix = 127 then q.state = .worked else q.pix = o.pix + 1 ∧ q.state = .running ∧ q.units = []) ∧
    (¬ all → q.pix = o.pix ∧ q.state = .running ∧ ∀ k ∈ q.parts.head?, ∀ i, i ∈ k.units ↔ i ∈ o.units ∨ i < 128 ∧ moves i = true) := by
  obtain ⟨hdone, hgoes⟩ := hq
  refine ⟨fun hall => hdone (rowDone_iff.2 hall), fun hnot => ?_⟩
  obtain ⟨hpix, hst, hunits⟩ := hgoes (Bool.not_eq_true _ ▸ fun h => hnot (rowDone_iff.1 h))
  refine ⟨hpix, hst, fun k hk i => ?_⟩
  rw [hunits k hk, List.mem_append, mem_moving]

/-- A row of a register after a load. -/
theorem cell_loaded {s : State} {o : EngOp} {p : Plane} {d : BitVec 5} (hpix : o.pix < 128) (v : Nat → Word32) {r i k : Nat} (hr : r < 32) (hi : i < 128) (hk : k < 128) :
    (p.setRow d.toNat o.pix ((moving s o p).map fun i => (i, v i))).cell r i k =
      if r = d.toNat ∧ k = o.pix ∧ (p.en i o.pix && !o.units.contains i && Config.units s.tick i) = true then v i else p.cell r i k := by
  have hfind : ((((moving s o p).map fun i => (i, v i)).find? fun x => x.1 == i).map (·.2)) = if i ∈ moving s o p then some (v i) else none := by
    generalize moving s o p = l
    induction l with
    | nil => rfl
    | cons a l ih =>
      rw [List.map_cons, List.find?_cons]
      by_cases ha : a = i
      · subst ha
        simp
      · have hne : (a == i) = false := beq_eq_false_iff_ne.2 ha
        simp only [hne, ih, List.mem_cons, Ne.symm ha, false_or]
  rw [cell_setRow _ _ _ _ hr hi hpix hk, hfind]
  by_cases hd : r = d.toNat ∧ k = o.pix
  · rw [if_pos hd]
    by_cases hm : i ∈ moving s o p
    · rw [if_pos hm, if_pos ⟨hd.1, hd.2, (mem_moving.1 hm).2⟩]
      rfl
    · rw [if_neg hm, if_neg fun h => hm (mem_moving.2 ⟨hi, h.2.2⟩)]
      rfl
  · rw [if_neg hd, if_neg fun h => hd ⟨h.1, h.2.1⟩]

/-- Settles O35: each operation that is next, by its instruction; the values that it rounds fit in their cells. -/
theorem planeOperations : Obligations.PlaneOperations := by
  unfold Obligations.PlaneOperations
  intro s blk b o p hb hplace hnext hplane htl hparity honly
  have h : Next s blk b o p := ⟨hb, hplace, hnext, hplane, htl, hparity, honly⟩
  refine ⟨h.elementwise, fun a r le hi => h.plvis hi, fun d a r hi hd => h.plbld hi hd, fun a c k hi => h.plcmp hi, h.plif,
    fun x y r hi hst => h.plelse hi hst, fun x y r hi hst => h.plend hi hst, fun a hi => h.plwin hi, fun m hi => h.plclr hi, fun a hi => h.plbin hi, ?_, ?_⟩
  · intro d u w sp st hi hpix
    refine ⟨fun i e h1 hen he hok => row_stops h hi hpix h1 hen he hok, fun f hf hapart => ?_⟩
    obtain ⟨t, b', p', q, hexec, hb', hp', hq, honto, hsame, hst, hld⟩ := row_moves h hi hpix hf hapart
    refine ⟨t, b', p', hexec, hb', hp', ⟨q, hq, row_after honto⟩, hsame, fun hs => ?_, fun hs => ?_⟩
    · obtain ⟨hp, hdone, hkept⟩ := hst hs
      exact ⟨hp, fun i h1 hm => hdone i (mem_moving.2 ⟨h1, hm⟩), fun y hy => hkept y fun i hi => hy i (mem_moving.1 hi).1 (mem_moving.1 hi).2⟩
    · obtain ⟨hbytes, rfl⟩ := hld hs
      exact ⟨hbytes, fun r i k hr h1 h2 => cell_loaded hpix _ hr h1 h2⟩
  · intro u w hd hi hq hlen hh hl
    refine ⟨fun hc => tile_ends h hi hq hlen hh hl hc, fun ix bs hc hix hbs => ?_⟩
    obtain ⟨t, b', q, hexec, hb', hp', hop, hbytes, hsame, hpix, hst⟩ := tile_takes h hi hq hlen hh hl hc hix hbs
    exact ⟨t, b', _, q, hexec, hb', hp', hop, hbytes, hsame, hpix, hst, fun i j h1 h2 => cell_primitive _ h1 h2⟩

end Sys2Proof.Proofs.PlaneTiles
end

section
/-! SUPPORT. Stores one after the other: the last that reaches a byte gives it its value. -/

namespace Sys2Proof.Proofs.StoreRuns

open Sys2Proof Sys2Proof.Machine Sys2Proof.Laws Sys2Proof.Proofs.Frames Sys2Proof.Proofs.SyncWords

section
variable {α : Type} {s : State} {step : State → α → State} {place : α → Loc} {val : α → List Byte} {l : List α}

/-- Each step of a run stores its bytes at its place, and otherwise leaves what the machine notes of its accesses. -/
def Stores (s : State) (step : State → α → State) (place : α → Loc) (val : α → List Byte) (l : List α) : Prop :=
  ∀ u, shape u = shape s → ∀ a ∈ l, u.Stored (step u a) (place a) (val a) ∧ shape (step u a) = shape u

theorem Stores.shape (h : Stores s step place val l) {u : State} (hu : shape u = Frames.shape s) : Frames.shape (l.foldl step u) = Frames.shape s := by
  induction l generalizing u with
  | nil => exact hu
  | cons a l ih => exact ih (fun v hv c hc => h v hv c (List.mem_cons_of_mem _ hc)) ((h u hu a List.mem_cons_self).2.trans hu)

/-- A byte that no store of the run reaches stands. -/
theorem Stores.kept (h : Stores s step place val l) {u : State} (hu : Frames.shape u = Frames.shape s) {y : Loc}
    (hy : ∀ a ∈ l, y.within (place a) (val a).length = false) : (l.foldl step u).byte y = u.byte y := by
  induction l generalizing u with
  | nil => rfl
  | cons a l ih =>
    obtain ⟨hst, hsh⟩ := h u hu a List.mem_cons_self
    exact (ih (fun v hv c hc => h v hv c (List.mem_cons_of_mem _ hc)) (hsh.trans hu) fun c hc => hy c (List.mem_cons_of_mem _ hc)).trans
      (hst.kept y (hy a List.mem_cons_self))

/-- A byte holds what the last store that reaches it has put there. -/
theorem Stores.last {l1 l2 : List α} {a : α} (h : Stores s step place val (l1 ++ a :: l2)) {k : Nat} (hk : k < (val a).length)
    (hlast : ∀ c ∈ l2, ((place a).add k).within (place c) (val c).length = false) :
    ((l1 ++ a :: l2).foldl step s).byte ((place a).add k) = (val a).getD k 0 := by
  have h1 : Stores s step place val l1 := fun v hv c hc => h v hv c (List.mem_append_left _ hc)
  have h2 : Stores s step place val l2 := fun v hv c hc => h v hv c (List.mem_append_right _ (List.mem_cons_of_mem _ hc))
  obtain ⟨hst, hsh⟩ := h (l1.foldl step s) (h1.shape rfl) a (List.mem_append_right _ List.mem_cons_self)
  rw [List.foldl_append, List.foldl_cons, h2.kept (hsh.trans (h1.shape rfl)) hlast]
  exact hst.written k hk

/-- Where no two stores of a run meet, every one of them stands. -/
theorem Stores.done (h : Stores s step place val l) (hl : l.Nodup) {a : α} (ha : a ∈ l) {k : Nat} (hk : k < (val a).length)
    (hapart : ∀ c ∈ l, c ≠ a → ((place a).add k).within (place c) (val c).length = false) : (l.foldl step s).byte ((place a).add k) = (val a).getD k 0 := by
  obtain ⟨l1, l2, rfl⟩ := List.append_of_mem ha
  have hn := (List.nodup_cons.1 (List.nodup_append.1 hl).2.1).1
  exact h.last hk fun c hc => hapart c (List.mem_append_right _ (List.mem_cons_of_mem _ hc)) fun e => hn (e ▸ hc)

end

/-! ## Lists that a chain of checks collects -/

section
variable {α β : Type} {step : List β → α → Except Trap (List β)} {l : List α}

theorem collect_ok {v : α → β} (h : ∀ a ∈ l, ∀ acc, step acc a = .ok (acc ++ [v a])) (acc : List β) : l.foldlM step acc = .ok (acc ++ l.map v) := by
  induction l generalizing acc with
  | nil => exact congrArg Except.ok (List.append_nil acc).symm
  | cons a l ih =>
    rw [List.foldlM_cons, h a List.mem_cons_self]
    show l.foldlM step (acc ++ [v a]) = _
    rw [ih fun c hc => h c (List.mem_cons_of_mem _ hc), List.map_cons, List.append_assoc]
    rfl

/-- The first check that fails ends the chain. -/
theorem collect_error {e : Trap} {i : α} {lt : α → α → Prop} (hl : l.Pairwise lt) (hi : i ∈ l) (he : ∀ acc, step acc i = .error e)
    (hok : ∀ a ∈ l, lt a i → ∃ v, ∀ acc, step acc a = .ok (acc ++ [v])) (acc : List β) : l.foldlM step acc = .error e := by
  induction l generalizing acc with
  | nil => cases hi
  | cons a l ih =>
    rw [List.foldlM_cons]
    rcases List.mem_cons.1 hi with rfl | hi
    · rw [he]
      rfl
    · obtain ⟨v, hv⟩ := hok a List.mem_cons_self ((List.pairwise_cons.1 hl).1 i hi)
      rw [hv]
      exact ih (List.pairwise_cons.1 hl).2 hi (fun c hc => hok c (List.mem_cons_of_mem _ hc)) _

end

end Sys2Proof.Proofs.StoreRuns
end

section
/-! SUPPORT. The rows of a collective copy (R253, R310, R311, R314) as they move. O37. -/

namespace Sys2Proof.Proofs.CopyRows

open Sys2Proof Sys2Proof.Machine Sys2Proof.Laws Sys2Proof.Proofs.Frames Sys2Proof.Proofs.SyncWords Sys2Proof.Proofs.Virga Sys2Proof.Proofs.Queues
  Sys2Proof.Proofs.Checks Sys2Proof.Proofs.PlaneReads Sys2Proof.Proofs.MatrixRuns Sys2Proof.Proofs.StoreRuns

/-! ## A write of a copy -/

section
variable {s : State} {b : Block} {o : EngOp}

theorem stored_performCopy {a : Acc} (h : s.holds a.loc.store = true) (who : Who) (vs : List Byte) : s.Stored (s.performCopy b o who a vs) a.loc vs := by
  refine stored_of_bytes (stored_perform s who a vs h) fun l => ?_
  unfold State.performCopy
  exact (SameBytes.foldl (fun (s : State) (x : Loc × Writer) => s.setWriter x.1 x.2) (fun _ _ => ⟨rfl, rfl, rfl, rfl⟩) _ _).byte l

theorem shape_performCopy (who : Who) (a : Acc) (vs : List Byte) : shape (s.performCopy b o who a vs) = shape s := by
  unfold State.performCopy
  exact (shape_foldl (f := fun (s : State) (x : Loc × Writer) => s.setWriter x.1 x.2) (fun _ _ => rfl) _ _).trans (shape_perform s who a vs)

end

/-! ## The descriptor, in the block's own scratchpad -/

theorem within_sp {x l : Loc} {n : Nat} (hl : l.store = .sp n) (hx : x ≠ l) : x.within l 1 = false := by
  obtain ⟨ls, lo⟩ := l
  obtain rfl : ls = .sp n := hl
  rw [Bool.eq_false_iff]
  intro hw
  unfold Loc.within at hw
  rw [Bool.and_eq_true, Bool.and_eq_true, decide_eq_true_eq, decide_eq_true_eq] at hw
  obtain ⟨⟨hsame, hle⟩, hlt⟩ := hw
  obtain ⟨xs, xo⟩ := x
  have hs : xs = .sp n := by
    cases xs with
    | far p => cases hsame
    | _ => exact beq_iff_eq.1 hsame
  subst hs
  have ho : xo = lo := by
    have h1 : lo ≤ xo := hle
    have h2 : xo < lo + 1 := hlt
    omega
  exact hx (ho ▸ rfl)

/-- A place of the block's own scratchpad that is checked without a look at races: what the checks find there is no matter of the state. -/
theorem copyCheck_unraced {s : State} {who : Who} {b : Block} {grp n : Nat} {a : Word} {x : Acc} (hx : s.copyCheck who b grp 1 a n true false = .ok x) :
    x.loc.store = .sp b.id ∧ ∀ u : State, u.copyCheck who b grp 1 a n true false = .ok x := by
  have hcheck : ∀ u : State, u.copyCheck who b grp 1 a n true false = u.check who b none ⟨.sp, a, n, decide (a.toNat % n = 0), !true, true, false, false, true⟩ false :=
    fun _ => rfl
  generalize hq : (⟨.sp, a, n, decide (a.toNat % n = 0), !true, true, false, false, true⟩ : Req) = q at hcheck
  have hs : q.space = .sp := hq ▸ rfl
  simp only [hcheck, checkSp_eq hs] at hx ⊢
  obtain ⟨h1, hx⟩ := ok_of_ite hx
  obtain ⟨h2, hx⟩ := ok_of_ite hx
  obtain ⟨h3, hx⟩ := ok_of_ite hx
  obtain ⟨h4, hx⟩ := ok_of_ite hx
  have hown : ¬ (q.addr.toNat / 2 ^ 24 % 2 = 1 ∧ q.addr.toNat / 2 ^ 21 % 8 ≠ b.spanIdx) := fun hp => h2 ⟨decide_eq_true hp.1, trivial⟩
  simp only [if_neg h1, if_neg h2, if_neg h3, if_neg h4]
  unfold spRest at hx ⊢
  dsimp only at hx ⊢
  simp only [if_neg hown] at hx ⊢
  obtain ⟨h5, hx⟩ := ok_of_ite hx
  obtain ⟨h6, hx⟩ := ok_of_ite hx
  obtain ⟨h7, hx⟩ := ok_of_ite hx
  simp only [if_neg h5, if_neg h6, if_neg h7]
  cases hx
  exact ⟨rfl, fun _ => rfl⟩

/-! ## The part after a step -/

/-- How the operation goes on: the part's progress and the units of its row, and whether all parts have ended. -/
def partNext (t : State) (blk num grp pix : Nat) (us : List Nat) : State :=
  (t.modOp blk 0 num fun o => { o with parts := o.parts.map fun (q : Part) => if q.grp = grp then { q with pix := pix, units := us } else q }).modOp blk 0 num fun o =>
    { o with state := if o.copied then .worked else .running }

theorem partNext_facts {s t : State} {blk num grp : Nat} {b : Block} {o : EngOp} (hb : s.block? blk = some b) (ho : b.op? 0 num = some o) (hs : shape t = shape s)
    (pix : Nat) (us : List Nat) : (∀ l, (partNext t blk num grp pix us).byte l = t.byte l) ∧
      ∃ b' q, (partNext t blk num grp pix us).block? blk = some b' ∧ b'.op? 0 num = some q ∧ ∀ x ∈ q.parts, x.grp = grp → x.pix = pix ∧ x.units = us := by
  obtain ⟨b1, hb1, hops⟩ := ops_of_shape (vgShape_of_shape hs) hb
  have hop := op?_modOp ((op?_of_ops hops 0 num).trans ho)
    (f := fun o => { o with parts := o.parts.map fun (q : Part) => if q.grp = grp then { q with pix := pix, units := us } else q }) fun _ => ⟨rfl, rfl⟩
  have hop2 := op?_modOp hop (f := fun o => { o with state := if o.copied then .worked else .running }) fun _ => ⟨rfl, rfl⟩
  have hbyte : ∀ (u : State) (f : EngOp → EngOp) (l : Loc), (u.modOp blk 0 num f).byte l = u.byte l := fun u f l =>
    byte_modBlock u blk (fun b => b.modOp 0 num f) l (fun _ => rfl) fun _ => ⟨rfl, rfl, rfl, rfl⟩
  refine ⟨fun l => (hbyte _ _ l).trans (hbyte _ _ l), _, _, ?_, hop2, fun x hx hg => ?_⟩
  · unfold partNext
    rw [block?_modOp, if_pos rfl, block?_modOp, if_pos rfl, hb1]
    rfl
  · obtain ⟨y, -, rfl⟩ := List.mem_map.1 hx
    by_cases hy : y.grp = grp
    · rw [if_pos hy]
      exact ⟨rfl, rfl⟩
    · rw [if_neg hy] at hg
      exact absurd hg hy

/-! ## A row -/

/-- A row of a slice that has its turn. -/
structure Row (s : State) (blk num slice : Nat) (b : Block) (o : EngOp) (p : Part) : Prop where
  block : s.block? blk = some b
  op : b.op? 0 num = some o
  cpb : isCpb o.instr = true
  running : o.state = .running
  part : o.parts.find? (fun p => p.grp == slice) = some p
  regs : p.regs ≠ []
  turn : o.turn p = true
  open_ : p.ended o.instr = false
  nonempty : (sliceOfWords p.regs).empty = false
  wellformed : (sliceOfWords p.regs).malformed b = false
  unsynced : bit (sliceOfWords p.regs).sync 31 = false
  rows : p.pix < (sliceOfWords p.regs).rows

section
variable {s : State} {blk num slice : Nat} {b : Block} {o : EngOp} {p : Part} (h : Row s blk num slice b o p)

/-- The units of the row that perform now. -/
def nowUnits (s : State) (p : Part) : List Nat := s.unitsNow p.units ((sliceOfWords p.regs).rowlen / 8)

/-- Every unit of the row has performed. -/
def rowFull (s : State) (p : Part) : Bool := unitsAll (p.units ++ nowUnits s p) ((sliceOfWords p.regs).rowlen / 8)

theorem mem_nowUnits {k : Nat} :
    k ∈ nowUnits s p ↔ (decide (k < (sliceOfWords p.regs).rowlen / 8) && !p.units.contains k && Config.units s.tick k) = true := by
  unfold nowUnits State.unitsNow
  simp only [List.mem_filter, List.mem_range, Bool.and_eq_true, decide_eq_true_eq, and_assoc]

theorem nowUnits_pairwise (s : State) (p : Part) : (nowUnits s p).Pairwise (· < ·) := List.pairwise_lt_range.filter _

theorem rowFull_iff : rowFull s p = true ↔ ∀ k, k < (sliceOfWords p.regs).rowlen / 8 → k ∈ p.units ∨ k ∈ nowUnits s p := by
  unfold rowFull unitsAll
  rw [List.all_eq_true]
  exact forall_congr' fun k => by rw [List.mem_range, List.contains_iff_mem, List.mem_append]

/-- Source unit k of the row, and destination unit k. -/
def srcUnit (p : Part) (k : Nat) : Word := (sliceOfWords p.regs).src + BitVec.ofNat 64 (p.pix * (sliceOfWords p.regs).spitch + 8 * k)
def dstUnit (p : Part) (k : Nat) : Word := (sliceOfWords p.regs).dst + BitVec.ofNat 64 (p.pix * (sliceOfWords p.regs).dpitch + 8 * k)

include h

theorem Row.exec_eq : exec (.copyRow blk num slice) s = .next (partNext (s.sliceRow b o p).1 blk num p.grp (s.sliceRow b o p).2.1 (s.sliceRow b o p).2.2) := by
  have hgo : (o.state == .running || (o.state == .queued && b.copyReady o)) = true := by
    rw [h.running]
    rfl
  have hfind : (o.parts.find? fun p => !isCpb o.instr || p.grp == slice) = some p := by
    rw [h.cpb]
    exact h.part
  show execCopyRow blk num slice s = _
  unfold execCopyRow
  simp only [h.block, h.op, hgo, Bool.not_true, Bool.false_eq_true, if_false]
  rw [hfind]
  simp only [h.open_, h.turn, h.cpb, Bool.not_true, Bool.and_false, Bool.or_false, Bool.false_eq_true, if_false, if_true]
  rfl

theorem Row.grp : p.grp = slice := by
  have := List.find?_some (p := fun p : Part => p.grp == slice) h.part
  exact beq_iff_eq.1 this

omit h in
/-- The units that perform now, all of them read before any is written. -/
def copiedUnits (s : State) (b : Block) (o : EngOp) (p : Part) (fa fb : Nat → Acc) : State :=
  (nowUnits s p).foldl (fun u k => u.performCopy b o (o.sliceWho b p.grp (p.pix + 1)) (fb k) (s.bytes (fa k).loc 8)) s

omit h in
theorem copyUnits_ok {fa fb : Nat → Acc} (hok : ∀ k ∈ nowUnits s p,
      s.copyCheck (o.sliceWho b p.grp (p.pix + 1)) b p.grp (sliceOfWords p.regs).sspc (srcUnit p k) 8 false true = .ok (fa k) ∧
      s.copyCheck (o.sliceWho b p.grp (p.pix + 1)) b p.grp (sliceOfWords p.regs).dspc (dstUnit p k) 8 true true = .ok (fb k)) :
    s.copyUnits (o.sliceWho b p.grp (p.pix + 1)) b o p.grp (sliceOfWords p.regs).sspc (sliceOfWords p.regs).dspc ((nowUnits s p).map (srcUnit p))
      ((nowUnits s p).map (dstUnit p)) = .ok (copiedUnits s b o p fa fb) := by
  have hzip : ((nowUnits s p).map fb).zip ((nowUnits s p).map fun k => s.bytes (fa k).loc 8) = (nowUnits s p).map fun k => (fb k, s.bytes (fa k).loc 8) :=
    List.zip_map' ..
  unfold State.copyUnits copiedUnits
  rw [List.foldlM_map, collect_ok (v := fun k => s.bytes (fa k).loc 8), List.foldlM_map, collect_ok (v := fb)]
  · show Except.ok (List.foldl _ s _) = _
    rw [List.nil_append, List.nil_append, hzip, List.foldl_map]
  · exact fun k hk acc => by rw [(hok k hk).2]
  · exact fun k hk acc => by rw [(hok k hk).1]

omit h in
/-- A source that fails its check, and none before it does. -/
theorem copyUnits_error {i : Nat} {e : Trap} (hi : i ∈ nowUnits s p)
    (he : s.copyCheck (o.sliceWho b p.grp (p.pix + 1)) b p.grp (sliceOfWords p.regs).sspc (srcUnit p i) 8 false true = .error e)
    (hok : ∀ k ∈ nowUnits s p, k < i → ∃ x, s.copyCheck (o.sliceWho b p.grp (p.pix + 1)) b p.grp (sliceOfWords p.regs).sspc (srcUnit p k) 8 false true = .ok x) :
    s.copyUnits (o.sliceWho b p.grp (p.pix + 1)) b o p.grp (sliceOfWords p.regs).sspc (sliceOfWords p.regs).dspc ((nowUnits s p).map (srcUnit p))
      ((nowUnits s p).map (dstUnit p)) = .error { e with addr := srcUnit p i } := by
  unfold State.copyUnits
  rw [List.foldlM_map, collect_error (lt := (· < ·)) (e := { e with addr := srcUnit p i }) (nowUnits_pairwise s p) hi]
  · rfl
  · exact fun acc => by rw [he]
  · intro k hk hlt
    obtain ⟨x, hx⟩ := hok k hk hlt
    exact ⟨_, fun acc => by rw [hx]⟩

omit h in
/-- A row that has been copied: the blocks that it covers whole lose their poison. -/
def clearedRow (t : State) (b : Block) (o : EngOp) (p : Part) : State :=
  t.rowCleared (o.sliceWho b p.grp (p.pix + 1)) b p.grp (sliceOfWords p.regs).dspc 8 ((List.range ((sliceOfWords p.regs).rowlen / 8)).map (dstUnit p))

omit h in
theorem clearedRow_facts (t : State) (b : Block) (o : EngOp) (p : Part) : (∀ l, (clearedRow t b o p).byte l = t.byte l) ∧ shape (clearedRow t b o p) = shape t :=
  ⟨(same_clearCovered _ _).byte, shape_clearCovered _ _⟩

/-- What STAT, and with a fault the failing address over SRC, are written by. -/
def statIn (t : State) (b : Block) (o : EngOp) (p : Part) (code : Nat) (fail : Option Word) : State :=
  t.writeStat (o.sliceWho b p.grp claimTime) b o p.grp 1 (p.opa.getD 0 0) 27 code fail

theorem Row.counts (u : State) (who : Who) (n : Nat) (c : Clock) : u.count who b (sliceOfWords p.regs).sync n c = (u, none) := by
  unfold State.count
  rw [h.unsynced]
  rfl

/-- What the step does with the row once its units have been copied. -/
theorem Row.copies {t : State} (hc : s.copyUnits (o.sliceWho b p.grp (p.pix + 1)) b o p.grp (sliceOfWords p.regs).sspc (sliceOfWords p.regs).dspc
      ((nowUnits s p).map (srcUnit p)) ((nowUnits s p).map (dstUnit p)) = .ok t) :
    s.sliceRow b o p = if rowFull s p then
      if p.pix + 1 = (sliceOfWords p.regs).rows then (statIn (clearedRow t b o p) b o p 0 none, (sliceOfWords p.regs).rows + 1, [])
      else (clearedRow t b o p, p.pix + 1, [])
      else (t, p.pix, p.units ++ nowUnits s p) := by
  have hregs : p.regs.isEmpty = false := by simp [h.regs]
  unfold State.sliceRow
  simp only [hregs, h.nonempty, h.wellformed, Bool.false_eq_true, if_false]
  unfold srcUnit dstUnit nowUnits at hc
  rw [hc]
  simp only [h.counts]
  show (if (!rowFull s p) = true then _ else _) = _
  by_cases hlast : p.pix + 1 = (sliceOfWords p.regs).rows
  · cases rowFull s p
    · rfl
    · simp only [hlast, BEq.rfl, Bool.not_true, Bool.false_eq_true, if_false, if_true]
      rfl
  · cases rowFull s p
    · rfl
    · simp only [hlast, beq_eq_false_iff_ne.2 hlast, Bool.not_true, Bool.false_eq_true, if_false, if_true]
      rfl

/-- What the step does with a row whose source fails. -/
theorem Row.fails {e : Trap} (hc : s.copyUnits (o.sliceWho b p.grp (p.pix + 1)) b o p.grp (sliceOfWords p.regs).sspc (sliceOfWords p.regs).dspc
      ((nowUnits s p).map (srcUnit p)) ((nowUnits s p).map (dstUnit p)) = .error e) :
    s.sliceRow b o p = (statIn s b o p (1 + 16 * statCause e) (some e.addr), (sliceOfWords p.regs).rows + 1, []) := by
  have hregs : p.regs.isEmpty = false := by simp [h.regs]
  unfold State.sliceRow
  simp only [hregs, h.nonempty, h.wellformed, Bool.false_eq_true, if_false]
  unfold srcUnit dstUnit nowUnits at hc
  rw [hc]
  simp only [h.counts]
  rfl

omit h in
theorem statIn_ok {u t : State} {y : Acc} (hy : u.copyCheck (o.sliceWho b p.grp claimTime) b p.grp 1 (p.opa.getD 0 0 + BitVec.ofNat 64 27) 1 true false = .ok y)
    (code : Nat) : statIn t b o p code none = t.performCopy b o (o.sliceWho b p.grp claimTime) y (leBytes 1 code) := by
  unfold statIn State.writeStat
  simp only [length_leBytes, (copyCheck_unraced hy).2]

omit h in
theorem statIn_fault {u t : State} {y z : Acc} (hy : u.copyCheck (o.sliceWho b p.grp claimTime) b p.grp 1 (p.opa.getD 0 0) 8 true false = .ok y)
    (hz : u.copyCheck (o.sliceWho b p.grp claimTime) b p.grp 1 (p.opa.getD 0 0 + BitVec.ofNat 64 27) 1 true false = .ok z) (code : Nat) (x : Word) :
    statIn t b o p code (some x) = (t.performCopy b o (o.sliceWho b p.grp claimTime) y (leBytes 8 x.toNat)).performCopy b o (o.sliceWho b p.grp claimTime) z
      (leBytes 1 code) := by
  unfold statIn State.writeStat
  simp only [length_leBytes, (copyCheck_unraced hy).2, (copyCheck_unraced hz).2]

/-! ## What the units leave -/

omit h in
/-- The units that perform now have been copied, as to every byte but some. -/
def Copied (s : State) (p : Part) (fa fb : Nat → Acc) (t : State) (but : Loc → Prop) : Prop :=
  (∀ k j, k ∈ nowUnits s p → j < 8 → ¬ but ((fb k).loc.add j) → t.byte ((fb k).loc.add j) = s.byte ((fa k).loc.add j)) ∧
  ∀ x, ¬ but x → (∀ k, k ∈ nowUnits s p → x.within (fb k).loc 8 = false) → t.byte x = s.byte x

omit h in
theorem getD_bytes (s : State) (l : Loc) {n j : Nat} (hj : j < n) : (s.bytes l n).getD j 0 = s.byte (l.add j) := by
  unfold State.bytes
  rw [List.getD_eq_getElem _ _ (by simpa using hj), List.getElem_map, List.getElem_range]

omit h in
theorem length_bytes (s : State) (l : Loc) (n : Nat) : (s.bytes l n).length = n := by
  unfold State.bytes
  rw [List.length_map, List.length_range]

omit h in
theorem Copied.of_bytes {fa fb : Nat → Acc} {t u : State} (hc : Copied s p fa fb t fun _ => False) {but : Loc → Prop} (hu : ∀ x, ¬ but x → u.byte x = t.byte x) :
    Copied s p fa fb u but :=
  ⟨fun k j hk hj hb => (hu _ hb).trans (hc.1 k j hk hj id), fun x hb hx => (hu x hb).trans (hc.2 x id hx)⟩

omit h in
theorem copiedUnits_facts {fa fb : Nat → Acc} (hh : ∀ k ∈ nowUnits s p, s.holds (fb k).loc.store = true)
    (hapart : ∀ k m j, k ∈ nowUnits s p → m ∈ nowUnits s p → j < 8 → k ≠ m → ((fb k).loc.add j).within (fb m).loc 8 = false) :
    Copied s p fa fb (copiedUnits s b o p fa fb) (fun _ => False) ∧ shape (copiedUnits s b o p fa fb) = shape s := by
  have hrun : Stores s (fun u k => u.performCopy b o (o.sliceWho b p.grp (p.pix + 1)) (fb k) (s.bytes (fa k).loc 8)) (fun k => (fb k).loc)
      (fun k => s.bytes (fa k).loc 8) (nowUnits s p) := fun u hu k hk =>
    ⟨stored_performCopy ((holds_of_shape hu _).trans (hh k hk)) _ _, shape_performCopy _ _ _⟩
  refine ⟨⟨fun k j hk hj _ => ?_, fun x _ hx => hrun.kept rfl fun k hk => ?_⟩, hrun.shape rfl⟩
  · refine (hrun.done (nowUnits_pairwise s p).nodup hk (by rw [length_bytes]; exact hj) fun m hm hne => ?_).trans (getD_bytes s _ hj)
    rw [length_bytes]
    exact hapart k m j hk hm hj hne.symm
  · rw [length_bytes]
    exact hx k hk

/-! ## The three ends of a row's step -/

section
variable {fa fb : Nat → Acc} (hok : ∀ k ∈ nowUnits s p, s.copyCheck (o.sliceWho b p.grp (p.pix + 1)) b p.grp (sliceOfWords p.regs).sspc (srcUnit p k) 8 false true = .ok (fa k) ∧
      s.holds (fb k).loc.store = true ∧ s.copyCheck (o.sliceWho b p.grp (p.pix + 1)) b p.grp (sliceOfWords p.regs).dspc (dstUnit p k) 8 true true = .ok (fb k))
  (hapart : ∀ k m j, k ∈ nowUnits s p → m ∈ nowUnits s p → j < 8 → k ≠ m → ((fb k).loc.add j).within (fb m).loc 8 = false)

omit h in
/-- The part of the slice has the progress pix, and the units us of its row have performed. -/
def PartIs (t : State) (blk num slice pix : Nat) (us : Nat → Prop) : Prop := ∃ b' q, t.block? blk = some b' ∧ b'.op? 0 num = some q ∧
  ∀ x ∈ q.parts, x.grp = slice → x.pix = pix ∧ ∀ k, k ∈ x.units ↔ us k

/-- The step from what it leaves of the row. -/
theorem Row.next {t : State} {pix : Nat} {us : List Nat} (hs : s.sliceRow b o p = (t, pix, us)) (hsh : shape t = shape s) :
    ∃ u, exec (.copyRow blk num slice) s = .next u ∧ (∀ x, u.byte x = t.byte x) ∧ PartIs u blk num slice pix fun k => k ∈ us := by
  obtain ⟨hbytes, b', q, hb', hq, hparts⟩ := partNext_facts h.block h.op hsh (grp := p.grp) pix us
  refine ⟨_, by rw [h.exec_eq, hs], hbytes, b', q, hb', hq, fun x hx hg => ?_⟩
  obtain ⟨hpix, hus⟩ := hparts x hx (hg.trans h.grp.symm)
  exact ⟨hpix, fun k => by rw [hus]⟩

include hok hapart

theorem Row.row_open (hopen : rowFull s p = false) : ∃ t, exec (.copyRow blk num slice) s = .next t ∧ Copied s p fa fb t (fun _ => False) ∧
    PartIs t blk num slice p.pix fun k => k ∈ p.units ∨ k ∈ nowUnits s p := by
  obtain ⟨hcopied, hshape⟩ := copiedUnits_facts (b := b) (o := o) (fun k hk => (hok k hk).2.1) hapart
  have hrow := h.copies (copyUnits_ok fun k hk => ⟨(hok k hk).1, (hok k hk).2.2⟩)
  rw [hopen, if_neg Bool.false_ne_true] at hrow
  obtain ⟨u, hexec, hbytes, b', q, hb', hq, hparts⟩ := h.next hrow hshape
  exact ⟨u, hexec, hcopied.of_bytes fun x _ => hbytes x, b', q, hb', hq, fun x hx hg => ⟨(hparts x hx hg).1, fun k => ((hparts x hx hg).2 k).trans List.mem_append⟩⟩

theorem Row.row_next (hfull : rowFull s p = true) (hlast : p.pix + 1 < (sliceOfWords p.regs).rows) : ∃ t, exec (.copyRow blk num slice) s = .next t ∧
    Copied s p fa fb t (fun _ => False) ∧ PartIs t blk num slice (p.pix + 1) fun _ => False := by
  obtain ⟨hcopied, hshape⟩ := copiedUnits_facts (b := b) (o := o) (fun k hk => (hok k hk).2.1) hapart
  have hrow := h.copies (copyUnits_ok fun k hk => ⟨(hok k hk).1, (hok k hk).2.2⟩)
  rw [hfull, if_pos rfl, if_neg (by omega)] at hrow
  obtain ⟨hcleared, hcshape⟩ := clearedRow_facts (copiedUnits s b o p fa fb) b o p
  obtain ⟨u, hexec, hbytes, b', q, hb', hq, hparts⟩ := h.next hrow (hcshape.trans hshape)
  exact ⟨u, hexec, hcopied.of_bytes fun x _ => (hbytes x).trans (hcleared x), b', q, hb', hq, fun x hx hg => ⟨(hparts x hx hg).1, fun k => by
    rw [(hparts x hx hg).2 k]; exact ⟨fun hk => absurd hk List.not_mem_nil, False.elim⟩⟩⟩

theorem Row.row_last (hfull : rowFull s p = true) (hlast : p.pix + 1 = (sliceOfWords p.regs).rows) {y : Acc}
    (hy : s.copyCheck (o.sliceWho b p.grp claimTime) b p.grp 1 (p.opa.getD 0 0 + BitVec.ofNat 64 27) 1 true false = .ok y) (hyh : s.holds y.loc.store = true) :
    ∃ t, exec (.copyRow blk num slice) s = .next t ∧ Copied s p fa fb t (fun x => x = y.loc) ∧ t.byte y.loc = 0 ∧
      PartIs t blk num slice ((sliceOfWords p.regs).rows + 1) fun _ => False := by
  obtain ⟨hcopied, hshape⟩ := copiedUnits_facts (b := b) (o := o) (fun k hk => (hok k hk).2.1) hapart
  have hrow := h.copies (copyUnits_ok fun k hk => ⟨(hok k hk).1, (hok k hk).2.2⟩)
  obtain ⟨hcleared, hcshape⟩ := clearedRow_facts (copiedUnits s b o p fa fb) b o p
  rw [hfull, if_pos rfl, if_pos hlast, statIn_ok hy] at hrow
  have hst := stored_performCopy (s := clearedRow (copiedUnits s b o p fa fb) b o p) (b := b) (o := o) (a := y)
    ((holds_of_shape (hcshape.trans hshape) _).trans hyh) (o.sliceWho b p.grp claimTime) (leBytes 1 0)
  obtain ⟨u, hexec, hbytes, b', q, hb', hq, hparts⟩ := h.next hrow ((shape_performCopy _ _ _).trans (hcshape.trans hshape))
  refine ⟨u, hexec, hcopied.of_bytes fun x hx => (hbytes x).trans ((hst.kept x (within_sp (copyCheck_unraced hy).1 hx)).trans (hcleared x)),
    (hbytes _).trans (hst.written 0 Nat.one_pos), b', q, hb', hq, fun x hx hg => ⟨(hparts x hx hg).1, fun k => ?_⟩⟩
  rw [(hparts x hx hg).2 k]
  exact ⟨fun hk => absurd hk List.not_mem_nil, False.elim⟩

end

theorem Row.row_fails {k : Nat} {e : Trap} {y z : Acc} (hk : k ∈ nowUnits s p)
    (he : s.copyCheck (o.sliceWho b p.grp (p.pix + 1)) b p.grp (sliceOfWords p.regs).sspc (srcUnit p k) 8 false true = .error e)
    (hok : ∀ m ∈ nowUnits s p, m < k → ∃ x, s.copyCheck (o.sliceWho b p.grp (p.pix + 1)) b p.grp (sliceOfWords p.regs).sspc (srcUnit p m) 8 false true = .ok x)
    (hy : s.copyCheck (o.sliceWho b p.grp claimTime) b p.grp 1 (p.opa.getD 0 0) 8 true false = .ok y)
    (hz : s.copyCheck (o.sliceWho b p.grp claimTime) b p.grp 1 (p.opa.getD 0 0 + BitVec.ofNat 64 27) 1 true false = .ok z) (hyh : s.holds y.loc.store = true)
    (hyz : z.loc = y.loc.add 27) : ∃ t, exec (.copyRow blk num slice) s = .next t ∧ t.num y.loc 8 = (srcUnit p k).toNat ∧
      t.byte z.loc = BitVec.ofNat 8 (1 + 16 * statCause e) ∧ (∀ x, x.within y.loc 8 = false → x ≠ z.loc → t.byte x = s.byte x) ∧
      PartIs t blk num slice ((sliceOfWords p.regs).rows + 1) fun _ => False := by
  have hrow := h.fails (copyUnits_error hk he hok)
  rw [statIn_fault hy hz] at hrow
  have hst1 := stored_performCopy (s := s) (b := b) (o := o) (a := y) hyh (o.sliceWho b p.grp claimTime) (leBytes 8 (srcUnit p k).toNat)
  have hzh : s.holds z.loc.store = true := by rw [hyz]; exact hyh
  have hst2 := stored_performCopy (b := b) (o := o) (a := z) ((holds_of_shape (shape_performCopy (s := s) (b := b) (o := o) (o.sliceWho b p.grp claimTime) y
    (leBytes 8 (srcUnit p k).toNat)) z.loc.store).trans hzh) (o.sliceWho b p.grp claimTime) (leBytes 1 (1 + 16 * statCause e))
  obtain ⟨u, hexec, hbytes, b', q, hb', hq, hparts⟩ := h.next hrow ((shape_performCopy _ _ _).trans (shape_performCopy _ _ _))
  have hkept : ∀ x, x ≠ z.loc → u.byte x = (s.performCopy b o (o.sliceWho b p.grp claimTime) y (leBytes 8 (srcUnit p k).toNat)).byte x := fun x hx =>
    (hbytes x).trans (hst2.kept x (within_sp (copyCheck_unraced hz).1 hx))
  refine ⟨u, hexec, ?_, (hbytes _).trans (hst2.written 0 Nat.one_pos), fun x hx hne => (hkept x hne).trans (hst1.kept x (by rw [length_leBytes]; exact hx)),
    b', q, hb', hq, fun x hx hg => ⟨(hparts x hx hg).1, fun k => ?_⟩⟩
  · have hnum : u.num y.loc 8 = (s.performCopy b o (o.sliceWho b p.grp claimTime) y (leBytes 8 (srcUnit p k).toNat)).num y.loc 8 := by
      unfold State.num State.bytes
      refine congrArg leNat (List.map_congr_left fun j hj => hkept _ fun he => ?_)
      have hofs : y.loc.ofs + j = y.loc.ofs + 27 := congrArg Loc.ofs (he.trans hyz)
      have := List.mem_range.1 hj
      omega
    rw [hnum, num_written hst1]
    exact Nat.mod_eq_of_lt (srcUnit p k).isLt
  · rw [(hparts x hx hg).2 k]
    exact ⟨fun hk => absurd hk List.not_mem_nil, False.elim⟩

end

end Sys2Proof.Proofs.CopyRows
end

section
/-! SUPPORT. The 8-byte writes of a CPA transfer (R148, R253, R322), and O37. -/

namespace Sys2Proof.Proofs.CpaWrites

open Sys2Proof Sys2Proof.Machine Sys2Proof.Laws Sys2Proof.Proofs.Frames Sys2Proof.Proofs.MatrixRuns Sys2Proof.Proofs.StoreRuns Sys2Proof.Proofs.CopyRows

/-! ## Places within a place -/

theorem key_add (l : Loc) (n : Nat) : (l.add n).key = l.key + n := by
  obtain ⟨st, o⟩ := l
  cases st with
  | far p => exact (Nat.add_assoc ..).symm
  | _ => rfl

/-- Bytes of one place that lie apart. -/
theorem within_same (l : Loc) {j a n : Nat} (h : ¬ (a ≤ j ∧ j < a + n)) : (l.add j).within (l.add a) n = false := by
  rw [Bool.eq_false_iff]
  intro hw
  unfold Loc.within at hw
  rw [Bool.and_eq_true, Bool.and_eq_true, decide_eq_true_eq, decide_eq_true_eq, key_add, key_add] at hw
  omega

/-- A byte that is none of a place's is none of those of a part of it. -/
theorem within_part {x l : Loc} {a m n : Nat} (h : x.within l n = false) (ha : a + m ≤ n) : x.within (l.add a) m = false := by
  rw [Bool.eq_false_iff] at h ⊢
  intro hw
  refine h ?_
  unfold Loc.within at hw ⊢
  rw [Bool.and_eq_true, Bool.and_eq_true, decide_eq_true_eq, decide_eq_true_eq, key_add] at hw
  obtain ⟨⟨hs, h1⟩, h2⟩ := hw
  rw [Bool.and_eq_true, Bool.and_eq_true, decide_eq_true_eq, decide_eq_true_eq]
  exact ⟨⟨hs, by omega⟩, by omega⟩

/-! ## The writes that perform now -/

section
variable {s : State} {c : CpaOp}

/-- A write of the transfer performs now (R322). -/
def CpaNow (s : State) (c : CpaOp) (u : Nat) : Prop := u < 4 * c.lanes.length ∧ u ∉ c.units ∧ Config.units s.tick u = true ∧
  ∀ (m : Nat) (x y : Nat × List Byte × Loc), m < u / 4 → c.lanes[m]? = some x → c.lanes[u / 4]? = some y → x.2.2 = y.2.2 →
    4 * m + u % 4 ∈ c.units ∨ Config.units s.tick (4 * m + u % 4) = true

/-- The writes that perform now, in their order. -/
def cpaUnits (s : State) (c : CpaOp) : List Nat :=
  (List.range (4 * c.lanes.length)).filter fun u => !c.units.contains u && Config.units s.tick u && c.turn (Config.units s.tick) u

theorem turn_iff {u : Nat} (hu : u < 4 * c.lanes.length) : c.turn (Config.units s.tick) u = true ↔
    ∀ (m : Nat) (x y : Nat × List Byte × Loc), m < u / 4 → c.lanes[m]? = some x → c.lanes[u / 4]? = some y → x.2.2 = y.2.2 →
      4 * m + u % 4 ∈ c.units ∨ Config.units s.tick (4 * m + u % 4) = true := by
  unfold CpaOp.turn
  rw [List.all_eq_true]
  refine ⟨fun h m x y hm hx hy he => ?_, fun h m hm => ?_⟩
  · have := h m (List.mem_range.2 hm)
    rw [hx, hy] at this
    simpa [he] using this
  · have hm := List.mem_range.1 hm
    have hx : c.lanes[m]? = some c.lanes[m] := List.getElem?_eq_getElem (by omega)
    have hy : c.lanes[u / 4]? = some c.lanes[u / 4] := List.getElem?_eq_getElem (by omega)
    have := h m _ _ hm hx hy
    rw [hx, hy]
    by_cases he : c.lanes[m].2.2 = c.lanes[u / 4].2.2
    · simpa [he] using this he
    · simp [he]

theorem mem_cpaUnits {u : Nat} : u ∈ cpaUnits s c ↔ CpaNow s c u := by
  unfold cpaUnits CpaNow
  rw [List.mem_filter, List.mem_range]
  refine and_congr_right fun hu => ?_
  rw [Bool.and_eq_true, Bool.and_eq_true, turn_iff hu]
  simp [and_assoc]

theorem cpaUnits_pairwise (s : State) (c : CpaOp) : (cpaUnits s c).Pairwise (· < ·) := List.pairwise_lt_range.filter _

/-- The lane of a write. -/
def laneOf (c : CpaOp) (u : Nat) : Nat × List Byte × Loc := c.lanes.getD (u / 4) (0, [], ⟨.pkg, 0⟩)

theorem laneOf_eq {u : Nat} (hu : u < 4 * c.lanes.length) : c.lanes[u / 4]? = some (laneOf c u) := by
  unfold laneOf
  rw [List.getD_eq_getElem?_getD, List.getElem?_eq_getElem (by omega)]
  rfl

/-- The place and the bytes of a write. -/
def unitAt (c : CpaOp) (u : Nat) : Loc := (laneOf c u).2.2.add (8 * (u % 4))
def unitBytes (c : CpaOp) (u : Nat) : List Byte := ((cpaBytes (laneOf c u).2.1).drop (8 * (u % 4))).take 8

/-- The writes, performed. -/
def cpaWrite (who : Who) (c : CpaOp) (s : State) (u : Nat) : State :=
  match c.lanes[u / 4]? with
  | some l => s.perform who ⟨l.2.2.add (8 * (u % 4)), true, false, false⟩ (((cpaBytes l.2.1).drop (8 * (u % 4))).take 8)
  | none => s

theorem cpaWrite_eq (who : Who) {u : Nat} (hu : u < 4 * c.lanes.length) (t : State) :
    cpaWrite who c t u = t.perform who ⟨unitAt c u, true, false, false⟩ (unitBytes c u) := by
  unfold cpaWrite
  rw [laneOf_eq hu]
  rfl

variable (hl : ∀ x ∈ c.lanes, x.2.1.length ≤ 32 ∧ s.holds x.2.2.store = true)
include hl

theorem laneOf_mem {u : Nat} (hu : u < 4 * c.lanes.length) : (laneOf c u).2.1.length ≤ 32 ∧ s.holds (laneOf c u).2.2.store = true :=
  hl _ (List.mem_of_getElem? (laneOf_eq hu))

theorem length_unitBytes {u : Nat} (hu : u < 4 * c.lanes.length) : (unitBytes c u).length = 8 := by
  have := (laneOf_mem hl hu).1
  unfold unitBytes cpaBytes
  rw [List.length_take, List.length_drop, List.length_append, List.length_replicate]
  omega

theorem cpaStores (who : Who) : Stores s (cpaWrite who c) (unitAt c) (unitBytes c) (cpaUnits s c) := fun u hu k hk => by
  have hk := (mem_cpaUnits.1 hk).1
  rw [cpaWrite_eq who hk]
  exact ⟨stored_perform u who _ _ ((holds_of_shape hu _).trans (laneOf_mem hl hk).2), shape_perform u who _ _⟩

/-- A byte of a lane that performs now, and that no higher lane writes over. -/
theorem cpa_written (who : Who) (hapart : ∀ (i m : Nat) (x y : Nat × List Byte × Loc), c.lanes[i]? = some x → c.lanes[m]? = some y → i ≠ m →
      x.2.2 = y.2.2 ∨ ∀ j, j < 32 → (x.2.2.add j).within y.2.2 32 = false) {i j : Nat} {x : Nat × List Byte × Loc} (hx : c.lanes[i]? = some x) (hj : j < 32)
    (hnow : CpaNow s c (4 * i + j / 8))
    (hlast : ∀ (m : Nat) (y : Nat × List Byte × Loc), i < m → c.lanes[m]? = some y → x.2.2 = y.2.2 → ¬ CpaNow s c (4 * m + j / 8)) :
    ((cpaUnits s c).foldl (cpaWrite who c) s).byte (x.2.2.add j) = (cpaBytes x.2.1).getD j 0 := by
  obtain ⟨l1, l2, hsplit⟩ := List.append_of_mem (mem_cpaUnits.2 hnow)
  have hlane : laneOf c (4 * i + j / 8) = x := by
    have h4 : (4 * i + j / 8) / 4 = i := by omega
    unfold laneOf
    rw [h4, List.getD_eq_getElem?_getD, hx]
    rfl
  have hmod : (4 * i + j / 8) % 4 = j / 8 := by omega
  have hplace : x.2.2.add j = (unitAt c (4 * i + j / 8)).add (j % 8) := by
    unfold unitAt
    rw [hlane, hmod, SyncWords.add_add, Nat.div_add_mod]
  have hlen := length_unitBytes hl hnow.1
  have hpair := cpaUnits_pairwise s c
  have hrun := cpaStores hl who
  have hin : ∀ u, u ∈ cpaUnits s c ↔ CpaNow s c u := fun _ => mem_cpaUnits
  rw [hsplit] at hpair hrun hin ⊢
  rw [hplace, hrun.last (by omega) fun u hu => ?_]
  · unfold unitBytes
    rw [hlane, hmod, List.getD_eq_getElem?_getD, List.getElem?_take_of_lt (by omega), List.getElem?_drop, Nat.div_add_mod, List.getD_eq_getElem?_getD]
  · have hlt : 4 * i + j / 8 < u := (List.pairwise_cons.1 (List.pairwise_append.1 hpair).2.1).1 u hu
    have hunow := (hin u).1 (List.mem_append_right _ (List.mem_cons_of_mem _ hu))
    have hulane := laneOf_eq hunow.1
    rw [length_unitBytes hl hunow.1, ← hplace]
    unfold unitAt
    by_cases hsame : x.2.2 = (laneOf c u).2.2
    · rw [← hsame]
      refine within_same _ fun hwithin => ?_
      have hchunk : u % 4 = j / 8 := by omega
      have hm : u = 4 * (u / 4) + j / 8 := by omega
      rw [hm] at hunow
      exact hlast (u / 4) _ (by omega) hulane hsame hunow
    · have hne : i ≠ u / 4 := fun he => hsame (by rw [← he, hx] at hulane; rw [Option.some.inj hulane])
      exact within_part ((hapart i (u / 4) x _ hx hulane hne).resolve_left hsame j hj) (by omega)

theorem cpa_kept (who : Who) {l : Loc} (h : ∀ (i u : Nat) (x : Nat × List Byte × Loc), c.lanes[i]? = some x → u < 4 → CpaNow s c (4 * i + u) →
    l.within (x.2.2.add (8 * u)) 8 = false) : ((cpaUnits s c).foldl (cpaWrite who c) s).byte l = s.byte l := by
  refine (cpaStores hl who).kept rfl fun u hu => ?_
  have hnow := mem_cpaUnits.1 hu
  rw [length_unitBytes hl hnow.1]
  refine h (u / 4) (u % 4) (laneOf c u) (laneOf_eq hnow.1) (by omega) ?_
  rw [Nat.div_add_mod]
  exact hnow

end

/-! ## The transfer -/

section
variable {s : State} {gr : GRef} {k : Nat} {b : Block} {g : Group} {c : CpaOp}

theorem group?_cpaWrite (who : Who) (c : CpaOp) (s : State) (u : Nat) (o : GRef) : (cpaWrite who c s u).group? o = s.group? o := by
  unfold cpaWrite
  split
  · exact group?_perform s who _ _ o
  · rfl

theorem group?_cpaWrites (who : Who) (c : CpaOp) (l : List Nat) (s : State) (o : GRef) : (l.foldl (cpaWrite who c) s).group? o = s.group? o := by
  induction l generalizing s with
  | nil => rfl
  | cons u l ih => exact (ih _).trans (group?_cpaWrite who c s u o)

/-- Every write of the transfer has performed. -/
def cpaFull (s : State) (c : CpaOp) : Bool := unitsAll (c.units ++ cpaUnits s c) (4 * c.lanes.length)

theorem cpaFull_iff : cpaFull s c = true ↔ ∀ u, u < 4 * c.lanes.length → u ∈ c.units ∨ CpaNow s c u := by
  unfold cpaFull unitsAll
  rw [List.all_eq_true]
  exact forall_congr' fun u => by rw [List.mem_range, List.contains_iff_mem, List.mem_append, mem_cpaUnits]

/-- The group with the transfer done, and its tag's count lower. -/
def cpaDone (k : Nat) (tag : Nat) (x : Group) : Group :=
  { x with cpas := modAt x.cpas k fun c => { c with done := true, todo := 0 }, tagc := modAt x.tagc tag (· - 1) }

/-- The group with some more writes performed. -/
def cpaGoes (k : Nat) (us : List Nat) (x : Group) : Group := { x with cpas := modAt x.cpas k fun c => { c with units := c.units ++ us } }

theorem moveCpa_eq (hb : s.block? gr.blk = some b) (hg : s.group? gr = some g) (hc : g.cpas[k]? = some c) (hdone : c.done = false)
    (hold : ∀ y ∈ g.cpas.take k, y.tag = c.tag → y.done = true) : ∃ who, s.moveCpa gr k (Config.units s.tick) =
      ((cpaUnits s c).foldl (cpaWrite who c) s).modGroup gr (if cpaFull s c then cpaDone k c.tag else cpaGoes k (cpaUnits s c)) := by
  have hskip : (c.done || (g.cpas.take k).any fun y => y.tag == c.tag && !y.done) = false := by
    rw [hdone, Bool.false_or, List.any_eq_false]
    intro y hy
    by_cases ht : y.tag = c.tag
    · simp [hold y hy ht]
    · simp [ht]
  refine ⟨{ s.groupWho b g gr.grp with
    tlb := 768 + b.place.getD 0, agent := c.agent, time := 1, clock := c.clock, detail := detailWord 0 1 (b.place.getD 0) c.tag gr.grp b.ctx 0, pub := [] }, ?_⟩
  unfold State.moveCpa
  simp only [hb, hg, hc, hskip, Bool.false_eq_true, if_false]
  show (if cpaFull s c = true then _ else _) = _
  cases cpaFull s c <;> rfl

end

/-- Settles O37: a row of a slice by its three ends and its fault, a transfer by its writes in lane order. -/
theorem copiesRun : Obligations.CopiesRun := by
  unfold Obligations.CopiesRun
  refine ⟨?_, ?_⟩
  · intro s blk num slice b o p fa fb hb ho hcpb hrun hpart hregs hturn hend honly d hempty hmal hsync hrows
    have h : Row s blk num slice b o p := ⟨hb, ho, hcpb, hrun, hpart, hregs, hturn, hend, hempty, hmal, hsync, hrows⟩
    have hmem := fun k => mem_nowUnits (s := s) (p := p) (k := k)
    intro who n now all src reads record part
    have hpartIs : ∀ {t pix us us'}, (∀ k, us k ↔ us' k) → PartIs t blk num slice pix us → part t pix us' := fun hus hp => by
      obtain ⟨b', q, hb', hq, hx⟩ := hp
      exact ⟨b', q, hb', hq, fun x hxm hg => ⟨(hx x hxm hg).1, fun k => ((hx x hxm hg).2 k).trans (hus k)⟩⟩
    have hall : rowFull s p = true ↔ all := rowFull_iff.trans (forall_congr' fun k => imp_congr_right fun _ => or_congr_right (hmem k))
    refine ⟨fun hok hapart => ?_, fun k e y z hk he hbefore hy hz hyh hyz => ?_⟩
    · have hok' := fun k hk => hok k ((hmem k).1 hk)
      have hapart' := fun k m j hk hm => hapart k m j ((hmem k).1 hk) ((hmem m).1 hm)
      intro copied
      have hcopied : ∀ {t but}, Copied s p fa fb t but → copied t but := fun hc =>
        ⟨fun k j hk => hc.1 k j ((hmem k).2 hk), fun x hb hx => hc.2 x hb fun k hk => hx k ((hmem k).1 hk)⟩
      refine ⟨fun hnot => ?_, fun hfull hlast => ?_, fun hfull hlast y hy hyh => ?_⟩
      · obtain ⟨t, hexec, hc, hp⟩ := h.row_open hok' hapart' (Bool.eq_false_iff.2 fun hf => hnot (hall.1 hf))
        exact ⟨t, hexec, hcopied hc, hpartIs (fun k => or_congr_right (hmem k)) hp⟩
      · obtain ⟨t, hexec, hc, hp⟩ := h.row_next hok' hapart' (hall.2 hfull) hlast
        exact ⟨t, hexec, hcopied hc, hpartIs (fun _ => Iff.rfl) hp⟩
      · obtain ⟨t, hexec, hc, h0, hp⟩ := h.row_last hok' hapart' (hall.2 hfull) hlast hy hyh
        exact ⟨t, hexec, hcopied hc, h0, hpartIs (fun _ => Iff.rfl) hp⟩
    · have hat : p.opa.getD 0 0 + BitVec.ofNat 64 0 = p.opa.getD 0 0 := BitVec.add_zero _
      obtain ⟨t, hexec, hnum, hstat, hkept, hp⟩ := h.row_fails ((hmem k).2 hk) he (fun m hm hlt => hbefore m hlt ((hmem m).1 hm)) (hat ▸ hy) hz hyh hyz
      exact ⟨t, hexec, hnum, hstat, hkept, hpartIs (fun _ => Iff.rfl) hp⟩
  · intro s gr k b g c hb hg hc hdone hold hl hapart n now all
    obtain ⟨who, hmove⟩ := moveCpa_eq hb hg hc hdone hold
    have hgroup : ((cpaUnits s c).foldl (cpaWrite who c) s).group? gr = some g := (group?_cpaWrites who c _ s gr).trans hg
    have hself := group?_modGroup_self (if cpaFull s c then cpaDone k c.tag else cpaGoes k (cpaUnits s c)) hgroup
    have hcpa : ∀ f : CpaOp → CpaOp, (modAt g.cpas k f)[k]? = some (f c) := fun f => by rw [get_modAt, if_pos rfl, hc]; rfl
    have hrest := fun o (ho : o ≠ gr) =>
      (group?_modGroup_ne (if cpaFull s c then cpaDone k c.tag else cpaGoes k (cpaUnits s c)) ho).trans (group?_cpaWrites who c (cpaUnits s c) s o)
    have hfull : cpaFull s c = true ↔ all := cpaFull_iff
    have hbytes := fun l => byte_modGroup ((cpaUnits s c).foldl (cpaWrite who c) s) gr (if cpaFull s c then cpaDone k c.tag else cpaGoes k (cpaUnits s c)) l
    refine ⟨_, _, if cpaFull s c then { c with done := true, todo := 0 } else { c with units := c.units ++ cpaUnits s c }, congrArg Host.Outcome.next hmove, hself, ?_,
      fun i j x hx hj hnow hlast => (hbytes _).trans (cpa_written hl who hapart hx hj hnow hlast), fun l hkept => (hbytes l).trans (cpa_kept hl who hkept), ?_⟩
    · cases cpaFull s c
      · exact hcpa _
      · exact hcpa _
    · generalize hf : cpaFull s c = full at hrest hfull ⊢
      cases full with
      | true => exact ⟨fun _ => ⟨rfl, rfl⟩, fun hnot => absurd (hfull.1 rfl) hnot, rfl, rfl, hrest⟩
      | false =>
        refine ⟨fun ha => absurd (hfull.2 ha) Bool.false_ne_true, fun _ => ⟨hdone, rfl, fun u => ?_⟩, rfl, rfl, hrest⟩
        exact List.mem_append.trans (or_congr_right mem_cpaUnits)

end Sys2Proof.Proofs.CpaWrites
end

section
/-! SUPPORT. A call at a word that does not lie at a multiple of 4 (R32, R162): O20. -/

namespace Sys2Proof.Proofs.CallTargets

open Sys2Proof Sys2Proof.Machine

/-- The placed program's group with one lane, whose slot stands between two words. -/
def askew : State :=
  { State.reset.bootTables.bootBlock.modGroup ⟨1, 0⟩ (fun g => g.modSlot false fun x => { x with mask := 1, pc := 2 }) with cur := some ⟨⟨1, 0⟩, false, 0⟩ }

/-- The lanes of the group's slot A. -/
def lanesA (s : State) : Option Lanes := (s.group? ⟨1, 0⟩).map fun g => g.slotA.mask

/-- What the call finds: its window fits. -/
structure Calls (i : Iss) : Prop where
  issue : askew.issue? = some i
  ref : i.gr = ⟨1, 0⟩
  slot : i.slotB = false
  bound : i.g.bound = true
  active : i.active = 1
  fits : i.Fits (i.sl.wb + 8 * (0 : BitVec 4).toNat)

theorem issue_askew : ∃ i, Calls i :=
  ⟨_, rfl, rfl, rfl, rfl, rfl, by decide, by decide +kernel, by decide +kernel, fun h => absurd h (by decide +kernel)⟩

/-- The target is no multiple of 4, and with no handler the trap ends the block's lanes. -/
theorem call_aborts : (match exec (.call 0 0) askew with | .next t => lanesA t | _ => none) = some 0 := by decide +kernel

/-- Refutes O20, in its clause about CALL: at a word that is no multiple of 4 the target is none either, and the call traps with ALIGN 2 in place of going
on there. -/
theorem not_branchesAndCalls : ¬ Obligations.BranchesAndCalls := by
  unfold Obligations.BranchesAndCalls
  intro h
  obtain ⟨i, hi⟩ := issue_askew
  obtain ⟨t, g', hrun, hswitched, hat, -⟩ := (h.2.1 askew i 0 0 (.reg 0) hi.issue hi.bound).1 hi.fits
  have hlanes := call_aborts
  have hgroup := hswitched.group
  have hmask := hat.mask
  rw [hi.ref] at hgroup
  rw [hi.slot, hi.active] at hmask
  rw [hrun] at hlanes
  dsimp only at hlanes
  unfold lanesA at hlanes
  rw [hgroup] at hlanes
  exact absurd (hmask.symm.trans (Option.some.inj hlanes)) (by decide)

end Sys2Proof.Proofs.CallTargets
end

section
/-! SUPPORT. A push that pins two lines where the statement's room counts one (R156, R249): O21. -/

namespace Sys2Proof.Proofs.PinnedPush

open Sys2Proof Sys2Proof.Machine Sys2Proof.Laws Sys2Proof.Proofs.IssuingBlock Sys2Proof.Proofs.TrapEntry Sys2Proof.Proofs.SyncWords Sys2Proof.Proofs.PinnedAtomics

/-- The placed program's group with both slots in use, at a branch that parts its lanes, where the first page of memory lies 124 bytes up and a slice
can pin one line more. -/
def parting : State :=
  { State.reset.bootTables.bootBlock.modGroup ⟨1, 0⟩ (fun g => { g.wrP 0 1 with
      slotA := { g.slotA with mask := 3 }, slotB := { g.slotA with mask := 4 }, stkBase := 0, dstkp := 16 }) with
    cur := some ⟨⟨1, 0⟩, false, 0⟩
    tlbs := [⟨0, 0, ⟨0, 4096, 124, true, true, false, true, false, false, none⟩⟩]
    pins := brink }

theorem pins_parting : parting.pins = brink := by
  unfold parting
  generalize brink = c
  rfl

/-- The machine as the push finds it. -/
def parted (i : Iss) : State := i.setMask (i.setTok i.s 0 fun k => { k with exp := k.exp ||| i.active }) (i.active &&& ~~~ i.takers 0 false)

/-- What the branch finds. -/
structure Parts (i : Iss) (b : Block) (g : Group) : Prop where
  issue : parting.issue? = some i
  tokens : i.g.tokens.length = 16
  quiet : i.g.quiet = true
  empty : i.g.memq = []
  takes : i.takers 0 false = 1
  stays : i.active &&& ~~~ i.takers 0 false = 2
  other : (i.g.slot (!i.slotB)).isFree = false
  pointer : i.g.dstkp = 16 ∧ i.g.stkBase = 0
  agent : i.g.agent = 4096
  block : (parted i).block? i.gr.blk = some b
  group : (parted i).group? i.gr = some g
  busy : g.slotA.isFree = false ∧ g.slotB.isFree = false
  stack : g.dstkp = 16 ∧ g.stkBase = 0
  who : ((parted i).groupWho b g i.gr.grp).agent = 4096 ∧ ((parted i).groupWho b g i.gr.grp).tlb = 0
  place : (parted i).check ((parted i).groupWho b g i.gr.grp) b (coreIdx i.gr.grp) (rangeReq 0 16 true) true = .ok crossAcc
  before : parting.check i.who i.b (coreIdx i.gr.grp) (rangeReq 0 16 true) true = .ok crossAcc

theorem issue_parting : ∃ i b g, Parts i b g :=
  ⟨_, _, _, rfl, rfl, rfl, rfl, by decide +kernel, by decide +kernel, by decide +kernel, ⟨rfl, rfl⟩, rfl, rfl, rfl, ⟨by decide +kernel, by decide +kernel⟩, ⟨rfl, rfl⟩, ⟨rfl, rfl⟩,
    by decide +kernel, by decide +kernel⟩

theorem pins_perform_push {s : State} {who : Who} {d : Bool} {vs : List Byte} (hn : vs.length = 16) (ht : who.tlb < 768)
    (hc : ∀ n, s.pins.contains (n, who.agent) = false) :
    (s.perform who ⟨⟨.pkg, 124⟩, true, false, d⟩ vs).pins = (128, who.agent) :: (0, who.agent) :: s.pins := by
  have hlow : ∀ {u : State}, u.pins = s.pins → (u.pin who 124).pins = (0, who.agent) :: s.pins := fun hu => by
    rw [pin_fresh (by rw [hu]; exact hc _) ht, hu]
  have hhigh : ∀ {u : State}, u.pins = (0, who.agent) :: s.pins → (u.pin who 252).pins = (128, who.agent) :: (0, who.agent) :: s.pins := fun hu => by
    rw [pin_fresh (by rw [hu, List.contains_cons, hc]; simp) ht, hu]
  have hrange : ∀ u : State, u.pinRange who 124 16 = (u.pin who 124).pin who 252 := fun u => by
    unfold State.pinRange
    rw [show List.range ((124 + 16 - 1) / 128 + 1 - 124 / 128) = [0, 1] from rfl]
    rfl
  unfold State.perform
  simp only [hn, Bool.false_eq_true, if_false, if_true, BEq.rfl, Bool.and_self, hrange]
  exact hhigh (hlow rfl)

/-- A store of 16 bytes within a page. -/
theorem storeRange_16 {s : State} {gr : GRef} {b : Block} {g : Group} {vs : List Byte} {x : Acc} (hb : s.block? gr.blk = some b) (hg : s.group? gr = some g)
    (hn : vs.length = 16) (hp : x.loc.store = .pkg) (hx : s.check (s.groupWho b g gr.grp) b (coreIdx gr.grp) (rangeReq 0 16 true) true = .ok x) :
    s.storeRange gr 0 vs 0 = .ok (s.perform (s.groupWho b g gr.grp) x vs) := by
  have hcuts : pageCuts 0 (16 / 4096 + 2) 16 = [(0, 0, 16)] := by decide
  have hreq : s.request x.loc (.write x.loc.ofs vs) = s := by
    unfold State.request
    rw [hp]
  unfold State.storeRange
  simp only [hb, hg, hn, hcuts, List.foldlM_cons, List.foldlM_nil, hx, bind, Except.bind, pure, Except.pure, List.nil_append, List.foldl_cons, List.foldl_nil,
    List.drop_zero, List.take_of_length_le hn.le, hreq]

/-- The push stores, and the group's slice has no room for what it has pinned. -/
theorem place_parting {i : Iss} {b : Block} {g : Group} (h : Parts i b g) (pc : Word) (wb : Nat) :
    ∃ t g', (parted i).place i.gr (i.takers 0 false) pc wb 0 = .ok t ∧ t.group? i.gr = some g' ∧ g'.dstkp = 0 ∧ t.overPinned = true := by
  have hlen : (stackEntry (i.takers 0 false) pc 0 wb).length = 16 := by
    unfold stackEntry
    simp only [List.length_append, length_leBytes]
  have hpins : (parted i).pins = brink := by
    show i.s.pins = brink
    rw [(issue_facts h.issue).1, pins_parting]
  have hstored := storeRange_16 h.block h.group hlen rfl h.place
  have hover := pins_perform_push (s := parted i) (who := (parted i).groupWho b g i.gr.grp) (d := false) hlen (by rw [h.who.2]; decide) fun n => by
    rw [hpins, h.who.1]
    exact brink_foreign (show (4096 : Nat) ≠ 2 ^ 20 by decide)
  rw [h.who.1, hpins] at hover
  have hgroup : ((parted i).perform ((parted i).groupWho b g i.gr.grp) crossAcc (stackEntry (i.takers 0 false) pc 0 wb)).group? i.gr = some g :=
    (group?_perform _ _ _ _ _).trans h.group
  refine ⟨((parted i).perform ((parted i).groupWho b g i.gr.grp) crossAcc (stackEntry (i.takers 0 false) pc 0 wb)).modGroup i.gr fun x =>
    { x with dstkp := 0, stackCopy := (stackEntry (i.takers 0 false) pc 0 wb :: x.stackCopy).take 2 }, _, ?_, group?_modGroup_self _ hgroup, rfl, overPinned_brink hover⟩
  unfold State.place State.push
  simp only [h.group, h.busy.1, h.busy.2, h.stack.1, h.stack.2, Bool.false_eq_true, if_false]
  rw [show (16 : Word) - 16 = 0 from rfl, hstored]
  rfl

/-- A branch that parts the lanes places those that take it. -/
theorem exec_brp {s : State} {i : Iss} (h : s.issue? = some i) {c : BitVec 5} {n : Bool} {t : BitVec 4} {o : BitVec 12} (htake : i.takers c n ≠ 0)
    (hstay : i.active &&& ~~~ i.takers c n ≠ 0) :
    exec (.brp c n t o) s = .next (i.conclude (resOf (((i.setMask (i.setTok i.s t.toNat fun k => { k with exp := k.exp ||| i.active })
      (i.active &&& ~~~ i.takers c n)).place i.gr (i.takers c n) (i.target o) i.sl.wb t.toNat).map fun s => i.ordered s (.done s false)))) := by
  refine (run_issue h _).trans ?_
  rw [if_neg htake, if_neg hstay]

theorem brp_stalls {i : Iss} {b : Block} {g : Group} (h : Parts i b g) : exec (.brp 0 false 0 0) parting = .next (i.conclude i.pinStall) := by
  obtain ⟨t, g', hplace, hgroup, hdown, hover⟩ := place_parting h (i.target (0 : BitVec 12)) i.sl.wb
  have hordered : i.ordered t (.done t false) = i.pinStall := by
    have htouched : i.touched t = true := by
      unfold Iss.touched
      rw [hgroup]
      dsimp only
      rw [hdown, h.pointer.1]
      simp
    unfold Iss.ordered
    simp only [htouched, h.quiet, hover, Bool.not_true, Bool.false_eq_true, if_false, if_true]
  rw [exec_brp h.issue (by rw [h.takes]; decide) (by rw [h.stays]; decide)]
  refine congrArg (fun r => Host.Outcome.next (i.conclude r)) ?_
  have hplaced : (i.setMask (i.setTok i.s (0 : BitVec 4).toNat fun k => { k with exp := k.exp ||| i.active }) (i.active &&& ~~~ i.takers 0 false)).place i.gr
      (i.takers 0 false) (i.target (0 : BitVec 12)) i.sl.wb (0 : BitVec 4).toNat = .ok t := hplace
  rw [hplaced]
  exact hordered

/-- A slot whose instruction finds no room for its pins stands at its word. -/
theorem slot_pinStall {s : State} {i : Iss} (h : s.issue? = some i) (hempty : i.g.memq = []) :
    ((i.conclude i.pinStall).group? i.gr).map (fun g => (g.slot i.slotB).pc) = some i.pc := by
  obtain ⟨hs, hb, hg⟩ := issue_facts h
  have hrel : (i.s.pinRelease i.gr).group? i.gr = some i.g.release := by
    unfold State.group?
    rw [hs, block?_pinRelease hb hg hempty]
    exact groups_modGroup_self _ (issue_group h)
  show (((i.s.pinRelease i.gr).modGroup i.gr fun g => g.stand i.slotB).group? i.gr).map _ = _
  rw [group?_modGroup_self _ hrel]
  refine congrArg some ?_
  unfold Iss.pc Iss.sl Group.stand
  cases i.slotB <;> rfl

/-- Refutes O21, in its clause about the push: a page that does not lie on a line's boundary puts the entry's 16 bytes on two lines, and where the slice
has room for one only, the group releases and stands in place of the branch. -/
theorem not_divergentBranch : ¬ Obligations.DivergentBranch := by
  unfold Obligations.DivergentBranch
  intro h
  obtain ⟨i, b, g, hi⟩ := issue_parting
  obtain ⟨-, -, hpush⟩ := h parting i 0 false 0 0 crossAcc hi.issue hi.tokens
  have htake : i.active &&& (if false = true then ~~~ i.g.rdP (0 : BitVec 5).toNat else i.g.rdP (0 : BitVec 5).toNat) = 1 := hi.takes
  have hstay : i.active &&& ~~~ (i.active &&& (if false = true then ~~~ i.g.rdP (0 : BitVec 5).toNat else i.g.rdP (0 : BitVec 5).toNat)) = 2 := hi.stays
  have hgoes := hpush (by rw [htake]; decide) (by rw [hstay]; decide) hi.other
  rw [if_neg (by rw [hi.pointer.1, hi.pointer.2]; decide)] at hgoes
  have hroom : parting.PinRoom 1 := by
    unfold State.PinRoom
    rw [pins_parting, brink, List.length_map, List.length_range]
  obtain ⟨t, g', hrun, hgroup, hat, -⟩ := hgoes (by rw [hi.pointer.1]; decide) hi.quiet hroom (by
    rw [hi.pointer.1, (issue_facts hi.issue).1]
    exact hi.before)
  have hstands := slot_pinStall hi.issue hi.empty
  rw [brp_stalls hi] at hrun
  cases hrun
  rw [hgroup, Option.map_some, hat.pc] at hstands
  have hpc : ∀ x : Word, x + 4 ≠ x := fun x hx => absurd (BitVec.add_right_eq_self.1 hx) (by decide)
  exact hpc _ (Option.some.inj hstands)

end Sys2Proof.Proofs.PinnedPush
end

section
/-! SUPPORT. What moves one group alone: its windows and its divergence stack, and the loads of many bytes (R155, R156, R219-R223): O22, O23, O26. -/

namespace Sys2Proof.Proofs.Paths

open Sys2Proof Sys2Proof.Machine Sys2Proof.Laws

/-! ## A change of one group -/

/-- t is s with one group changed, and g' is that group. -/
structure Moved (gr : GRef) (s t : State) (g' : Group) : Prop where
  group : t.group? gr = some g'
  form : ∃ f, t = s.modGroup gr f

section
variable {gr : GRef} {s t u : State} {g g' g'' : Group}

theorem moved_modGroup (h : s.group? gr = some g) (f : Group → Group) : Moved gr s (s.modGroup gr f) (f g) := ⟨group?_modGroup_self f h, f, rfl⟩

theorem moved_trans (h : Moved gr s t g') (hu : Moved gr t u g'') : Moved gr s u g'' := by
  obtain ⟨f, rfl⟩ := h.form
  obtain ⟨k, rfl⟩ := hu.form
  exact ⟨hu.group, k ∘ f, modGroup_modGroup s gr f k⟩

theorem moved_refl (h : s.group? gr = some g) : Moved gr s s g := ⟨h, fun g => g, (modGroup_same s gr).symm⟩

theorem moved_others (h : Moved gr s t g') {x : GRef} (hx : x ≠ gr) : t.group? x = s.group? x := by
  obtain ⟨f, rfl⟩ := h.form
  exact group?_modGroup_ne f hx

theorem moved_byte (h : Moved gr s t g') (l : Loc) : t.byte l = s.byte l := by
  obtain ⟨f, rfl⟩ := h.form
  exact byte_modGroup s gr f l

theorem moved_pins (h : Moved gr s t g') : t.pins = s.pins := by
  obtain ⟨f, rfl⟩ := h.form
  rfl

theorem moved_refillEnd (h : Moved gr s t g') : t.refillEnd = s.refillEnd := by
  obtain ⟨f, rfl⟩ := h.form
  rfl

theorem moved_coreIdOf (h : Moved gr s t g') (x : GRef) : t.coreIdOf x = s.coreIdOf x := by
  obtain ⟨f, rfl⟩ := h.form
  exact coreIdOf_modGroup s gr x f

theorem overPinned_congr (h : t.pins = s.pins) : t.overPinned = s.overPinned := by
  have hroom : ∀ l, t.pinRoom l = s.pinRoom l := fun l => by
    unfold State.pinRoom
    rw [h]
  unfold State.overPinned
  rw [hroom, h]

end

/-! ## The loads of many bytes -/

/-- A load of many bytes asks the blocks only for who makes it. -/
theorem loadRange_blocks {s : State} {bs : List Block} {gr : GRef} {b b' : Block} {g g' : Group} (hb : s.block? gr.blk = some b) (hg : s.group? gr = some g)
    (hb' : State.block? { s with blocks := bs } gr.blk = some b') (hg' : State.group? { s with blocks := bs } gr = some g')
    (hbyte : ∀ l, State.byte { s with blocks := bs } l = s.byte l)
    (hwho : s.groupWho b' g' gr.grp = s.groupWho b g gr.grp) (a : Word) (n : Nat) (rep : Word) :
    State.loadRange { s with blocks := bs } gr a n rep = s.loadRange gr a n rep := by
  have hbytes : ∀ l k, State.bytes { s with blocks := bs } l k = s.bytes l k := fun l k => List.map_congr_left fun j _ => hbyte _
  have hcheck : ∀ c k, State.check { s with blocks := bs } (s.groupWho b g gr.grp) b' (coreIdx gr.grp) (rangeReq c k false) true =
      s.check (s.groupWho b g gr.grp) b (coreIdx gr.grp) (rangeReq c k false) true := fun _ _ => rfl
  unfold State.loadRange
  simp only [hb, hg, hb', hg']
  rw [show State.groupWho { s with blocks := bs } b' g' gr.grp = s.groupWho b g gr.grp from hwho]
  refine congrArg (fun f => List.foldlM f [] _) (funext fun acc => funext fun c => ?_)
  rw [hcheck]
  cases s.check (s.groupWho b g gr.grp) b (coreIdx gr.grp) (rangeReq c.1 c.2.2 false) true with
  | error t => rfl
  | ok x => exact congrArg (fun l => Except.ok (acc ++ l)) (hbytes x.loc c.2.2)

/-- The requests of such a load are all that it leaves. -/
theorem askRange_reqs (s : State) (gr : GRef) (a : Word) (n : Nat) : ∃ qs, s.askRange gr a n = { s with reqs := qs } := by
  unfold State.askRange
  split
  · generalize pageCuts a (n / 4096 + 2) n = cs
    suffices h : ∀ t : State, (∃ qs, t = { s with reqs := qs }) → ∃ qs, cs.foldl _ t = { s with reqs := qs } from h s ⟨s.reqs, rfl⟩
    induction cs with
    | nil => exact fun t ht => ht
    | cons c cs ih =>
      rintro t ⟨qs, rfl⟩
      refine ih _ ?_
      dsimp only
      split
      · unfold State.request
        split
        · exact ⟨_, rfl⟩
        · exact ⟨_, rfl⟩
      · exact ⟨_, rfl⟩
  · exact ⟨s.reqs, rfl⟩

theorem group?_reqs (s : State) (qs : List (Nat × FarReq)) (gr : GRef) : State.group? { s with reqs := qs } gr = s.group? gr := rfl

theorem block?_reqs (s : State) (qs : List (Nat × FarReq)) (n : Nat) : State.block? { s with reqs := qs } n = s.block? n := rfl

theorem byte_reqs (s : State) (qs : List (Nat × FarReq)) (l : Loc) : State.byte { s with reqs := qs } l = s.byte l := by
  cases l with | mk st o => cases st <;> rfl

/-! ## Register windows -/

/-- The windows of the busy slots lie in the resident range. -/
def Resident (g : Group) : Prop := ∀ sb, (g.slot sb).isFree = false → g.lo ≤ (g.slot sb).wb ∧ (g.slot sb).wb + 64 ≤ g.lo + g.span

theorem bases_range {g : Group} (h : Resident g) :
    ∀ wb ∈ g.bases, g.lo ≤ wb ∧ wb + 64 ≤ g.lo + g.span := by
  have hA : g.slotA.isFree = false → _ := h false
  have hB : g.slotB.isFree = false → _ := h true
  unfold Group.bases
  intro wb hwb
  rcases List.mem_append.1 hwb with hm | hm
  · cases hf : g.slotA.isFree with
    | true => simp [hf] at hm
    | false =>
      rw [hf, if_neg Bool.false_ne_true, List.mem_singleton] at hm
      exact hm ▸ hA hf
  · cases hf : g.slotB.isFree with
    | true => simp [hf] at hm
    | false =>
      rw [hf, if_neg Bool.false_ne_true, List.mem_singleton] at hm
      exact hm ▸ hB hf

/-- The group with the top of its resident range at top. -/
def topped (g : Group) (top : Nat) : Group := { g with hi := top }

theorem foldl_max_le {l : List Nat} {d n : Nat} (hd : d ≤ n) (h : ∀ x ∈ l, x ≤ n) : l.foldl max d ≤ n := by
  induction l generalizing d with
  | nil => exact hd
  | cons x r ih => exact ih (max_le hd (h x (List.mem_cons_self ..))) fun y hy => h y (List.mem_cons_of_mem _ hy)

theorem le_foldl_min {l : List Nat} {d n : Nat} (hd : n ≤ d) (h : ∀ x ∈ l, n ≤ x) : n ≤ l.foldl min d := by
  induction l generalizing d with
  | nil => exact hd
  | cons x r ih => exact ih (le_min hd (h x (List.mem_cons_self ..))) fun y hy => h y (List.mem_cons_of_mem _ hy)

/-- Resident windows need no refill: only the top of the range moves (R222). -/
theorem fitWindows_resident {s : State} {gr : GRef} {g : Group} (hg : s.group? gr = some g) (h : Resident g) :
    ∃ t top, s.fitWindows gr = .ok t ∧ Moved gr s t (topped g top) := by
  have hrange := bases_range h
  unfold State.fitWindows
  simp only [hg]
  cases hbases : g.bases with
  | nil => exact ⟨s, g.hi, by rw [List.isEmpty_nil, if_pos rfl], moved_refl hg⟩
  | cons wb rest =>
    rw [hbases] at hrange
    have hmin : g.lo ≤ listMin (wb :: rest) 0 := le_foldl_min (hrange wb (List.mem_cons_self ..)).1 fun x hx => (hrange x hx).1
    have hfirst := hrange wb (List.mem_cons_self ..)
    have hmax : listMax (wb :: rest) ≤ g.lo + g.span - 64 := foldl_max_le (Nat.zero_le _) fun x hx => Nat.le_sub_of_add_le (hrange x hx).2
    have hlate : ∀ sb e, (if !(g.slot sb).isFree && decide ((g.slot sb).wb < g.lo) then { g.slot sb with notBefore := e } else g.slot sb) = g.slot sb := by
      intro sb e
      refine if_neg fun hlow => ?_
      obtain ⟨hbusy, hlow⟩ := Bool.and_eq_true_iff.1 hlow
      have := (h sb (by simpa using hbusy)).1
      exact absurd (of_decide_eq_true hlow) (by omega)
    rw [List.isEmpty_cons, if_neg Bool.false_ne_true, if_neg (by omega), Nat.min_eq_left hmin, Nat.sub_self]
    refine ⟨_, listMax (wb :: rest) + 64, rfl, group?_modGroup_self _ hg |>.trans ?_, _, rfl⟩
    refine congrArg some ?_
    have hA := hlate false
    have hB := hlate true
    simp only [Group.slot, if_true, Bool.false_eq_true, if_false] at hA hB
    rw [hA, hB]
    rfl

/-! ## The divergence stack -/

/-- The slot that a place or a pop fills (R155). -/
def takes (g : Group) : Bool := !g.slotA.isFree

theorem place_free {s : State} {gr : GRef} {g : Group} (hg : s.group? gr = some g) {m : Lanes} {pc : Word} {wb : Nat} (tok : Nat)
    (hfree : (g.slot (takes g)).isFree = true) (h : Resident (g.setSlot (takes g) (pathSlot m pc wb))) :
    ∃ t top, s.place gr m pc wb tok = .ok t ∧ Moved gr s t (topped (g.setSlot (takes g) (pathSlot m pc wb)) top) := by
  unfold State.place
  simp only [hg]
  cases hA : g.slotA.isFree with
  | true =>
    have ht : takes g = false := by rw [takes, hA]; rfl
    rw [ht] at h ⊢
    obtain ⟨t, top, hfit, hmove⟩ := fitWindows_resident (group?_modGroup_self (fun g => { g with slotA := pathSlot m pc wb }) hg) h
    exact ⟨t, top, by rw [if_pos rfl, hfit], moved_trans (moved_modGroup hg _) hmove⟩
  | false =>
    have ht : takes g = true := by rw [takes, hA]; rfl
    rw [ht] at h hfree ⊢
    have hB : g.slotB.isFree = true := hfree
    obtain ⟨t, top, hfit, hmove⟩ := fitWindows_resident (group?_modGroup_self (fun g => { g with slotB := pathSlot m pc wb }) hg) h
    exact ⟨t, top, by rw [if_neg Bool.false_ne_true, if_pos hB, hfit], moved_trans (moved_modGroup hg _) hmove⟩

theorem refill_none {s : State} {gr : GRef} {g : Group} (hg : s.group? gr = some g) (h : g.stackEmpty = true ∨ (g.slotA.isFree = false ∧ g.slotB.isFree = false))
    (n : Nat) : s.refill gr n = .ok s := by
  cases n with
  | zero => rfl
  | succ n =>
    unfold State.refill
    simp only [hg]
    obtain h | ⟨hA, hB⟩ := h
    · rw [if_pos h]
    · rw [hA, hB, if_neg Bool.false_ne_true, if_neg Bool.false_ne_true, ite_self]

/-- A group with a busy slot, and no entry that a free slot could take, is settled. -/
theorem settle_none {s : State} {gr : GRef} {g : Group} (hg : s.group? gr = some g) (h : g.stackEmpty = true ∨ (g.slotA.isFree = false ∧ g.slotB.isFree = false))
    (hbusy : (g.slotA.isFree && g.slotB.isFree) = false) (n : Nat) : s.settle gr (n + 1) = .ok s := by
  unfold State.settle
  simp only [hg, refill_none hg h, bind, Except.bind, hbusy, Bool.false_eq_true, if_false]

/-- The top entry of a group's stack, from the core's copy or by a load (R156). -/
def TopEntryOf (s : State) (gr : GRef) (g : Group) (bs : List Byte) (loaded : Bool) : Prop :=
  match g.stackCopy with
  | e :: _ => bs = e ∧ loaded = false
  | [] => loaded = true ∧ s.loadRange gr g.dstkp 16 g.dstkp = .ok bs

/-- The slot that an entry gives. -/
def popped (s : State) (live : Lanes) (bs : List Byte) (loaded : Bool) : Slot :=
  { pathSlot (BitVec.ofNat 32 (leNat ((bs.drop 8).take 4)) &&& live) (BitVec.ofNat 64 (leNat (bs.take 8)) &&& ~~~ 3) (leNat (bs.drop 12) / 256 * 8) with
    notBefore := if loaded then s.refillEnd else 0 }

/-- The group after a pop into slot sb. -/
def took (g : Group) (sb : Bool) (x : Slot) : Group := { g.setSlot sb x with dstkp := g.dstkp + 16, stackCopy := g.stackCopy.tail }

theorem pop_entry {s : State} {gr : GRef} {g : Group} (hg : s.group? gr = some g) {bs : List Byte} {loaded : Bool} (h : TopEntryOf s gr g bs loaded) (sb : Bool) :
    ∃ t qs, s.pop gr sb = .ok t ∧ Moved gr { s with reqs := qs } t (took g sb (popped s g.live bs loaded)) := by
  unfold TopEntryOf at h
  unfold State.pop
  simp only [hg]
  cases hcopy : g.stackCopy with
  | cons e rest =>
    rw [hcopy] at h
    obtain ⟨rfl, rfl⟩ := h
    refine ⟨_, s.reqs, rfl, (group?_modGroup_self _ hg).trans ?_, _, rfl⟩
    refine congrArg (fun x => some ({ g.setSlot sb x with dstkp := g.dstkp + 16, stackCopy := g.stackCopy.tail } : Group)) ?_
    rw [hcopy]
    rfl
  | nil =>
    rw [hcopy] at h
    obtain ⟨rfl, hload⟩ := h
    obtain ⟨qs, hask⟩ := askRange_reqs s gr g.dstkp 16
    have hg' : (s.askRange gr g.dstkp 16).group? gr = some g := by
      rw [hask]
      exact hg
    rw [hload]
    refine ⟨_, qs, rfl, ?_⟩
    rw [← hask, List.isEmpty_nil, if_pos rfl]
    refine ⟨?_, _, rfl⟩
    refine (group?_modGroup_self _ hg').trans ?_
    refine congrArg (fun x => some ({ g.setSlot sb x with dstkp := g.dstkp + 16, stackCopy := g.stackCopy.tail } : Group)) ?_
    rw [hcopy]
    rfl

theorem stackEmpty_took {g : Group} (hend : g.dstkp.toNat + 16 < 2 ^ 64) (h : g.stackTop.toNat ≤ g.dstkp.toNat + 16) (sb : Bool) (x : Slot) (top : Nat) :
    (topped (took g sb x) top).stackEmpty = true := by
  have htop : (topped (took g sb x) top).stackTop = g.stackTop := by
    cases sb <;> rfl
  have hadd : (g.dstkp + 16).toNat = g.dstkp.toNat + 16 := by
    rw [BitVec.toNat_add]
    exact Nat.mod_eq_of_lt hend
  unfold Group.stackEmpty
  rw [htop]
  show decide (g.stackTop.toNat ≤ (g.dstkp + 16).toNat) = true
  rw [hadd]
  exact decide_eq_true h

/-- A group that has lanes for no slot but those of its top entry takes that entry, and is settled. -/
theorem settle_entry {s : State} {gr : GRef} {g : Group} (hg : s.group? gr = some g) {bs : List Byte} {loaded : Bool} (h : TopEntryOf s gr g bs loaded)
    (hstack : g.stackEmpty = false) (hfree : (g.slot (takes g)).isFree = true) (hx : (popped s g.live bs loaded).mask ≠ 0)
    (hfit : Resident (g.setSlot (takes g) (popped s g.live bs loaded))) (hend : g.dstkp.toNat + 16 < 2 ^ 64)
    (hlast : (g.slot (!takes g)).isFree = true → g.stackTop.toNat ≤ g.dstkp.toNat + 16) (n : Nat) :
    ∃ t top qs, s.settle gr (n + 1) = .ok t ∧ Moved gr { s with reqs := qs } t (topped (took g (takes g) (popped s g.live bs loaded)) top) := by
  obtain ⟨u, qs, hpop, hmove⟩ := pop_entry hg h (takes g)
  have hres : Resident (took g (takes g) (popped s g.live bs loaded)) := fun sb => by
    have := hfit sb
    revert this
    unfold took
    cases takes g <;> cases sb <;> exact id
  obtain ⟨t, top, hwin, hmove'⟩ := fitWindows_resident hmove.group hres
  have hall := moved_trans hmove hmove'
  refine ⟨t, top, qs, ?_, hall⟩
  have hbusy : (popped s g.live bs loaded).isFree = false := by
    unfold Slot.isFree
    simpa using hx
  have hdone : (topped (took g (takes g) (popped s g.live bs loaded)) top).stackEmpty = true ∨
      ((took g (takes g) (popped s g.live bs loaded)).slotA.isFree = false ∧ (took g (takes g) (popped s g.live bs loaded)).slotB.isFree = false) := by
    cases hother : (g.slot (!takes g)).isFree with
    | true => exact .inl (stackEmpty_took hend (hlast hother) _ _ _)
    | false =>
      refine .inr ?_
      revert hother
      unfold took
      cases takes g
      · exact fun hother => ⟨hbusy, hother⟩
      · exact fun hother => ⟨hother, hbusy⟩
  have htwo : ((took g (takes g) (popped s g.live bs loaded)).slotA.isFree && (took g (takes g) (popped s g.live bs loaded)).slotB.isFree) = false := by
    unfold took
    cases takes g
    · exact Bool.and_eq_false_imp.2 fun hA => absurd (hbusy.symm.trans hA) Bool.false_ne_true
    · rw [Bool.and_comm]
      exact Bool.and_eq_false_imp.2 fun hA => absurd (hbusy.symm.trans hA) Bool.false_ne_true
  have hrefill : ∀ k, s.refill gr (k + 1) = .ok t := fun k => by
    unfold State.refill
    simp only [hg, hstack, Bool.false_eq_true, if_false]
    cases hA : g.slotA.isFree with
    | true =>
      have ht : takes g = false := by rw [takes, hA]; rfl
      rw [ht] at hpop
      rw [if_pos rfl, hpop]
      show (u.fitWindows gr).bind _ = _
      rw [hwin]
      exact refill_none hall.group hdone k
    | false =>
      have ht : takes g = true := by rw [takes, hA]; rfl
      rw [ht] at hpop hfree
      have hB : g.slotB.isFree = true := hfree
      rw [if_neg Bool.false_ne_true, if_pos hB, hpop]
      show (u.fitWindows gr).bind _ = _
      rw [hwin]
      exact refill_none hall.group hdone k
  unfold State.settle
  have hfuel : ((s.group? gr).map Group.popFuel).getD 0 = (g.stackTop.toNat - g.dstkp.toNat) / 16 + 1 + 1 := by
    rw [hg]
    rfl
  rw [hfuel, hrefill]
  show (match t.group? gr with | none => Except.ok t | some g => _) = _
  simp only [hall.group]
  exact if_neg (htwo ▸ Bool.false_ne_true)

end Sys2Proof.Proofs.Paths
end

section
/-! SUPPORT. The return from a trap whose frame has no queue entry (R398): O26. -/

namespace Sys2Proof.Proofs.TrapReturns

open Sys2Proof Sys2Proof.Machine Sys2Proof.Laws Sys2Proof.Proofs.Paths

/-! ## What a frame restores -/

/-- The windows of a frame that lie in the resident range are resident after its return. -/
theorem resident_restored {g : Group} {f : FrameData} (h : TrapHold) (rest : List TrapHold) (cycle : Nat) (hlow : g.lo ≤ min (f.num 24 4) (f.num 28 4))
    (hhigh : max (f.num 24 4) (f.num 28 4) + 64 ≤ g.lo + g.span) : Resident (g.restoreFrame f h rest cycle) := fun sb _ => by
  cases sb with
  | false =>
    show g.lo ≤ f.num 24 4 ∧ f.num 24 4 + 64 ≤ g.lo + g.span
    omega
  | true =>
    show g.lo ≤ f.num 28 4 ∧ f.num 28 4 + 64 ≤ g.lo + g.span
    omega

/-- A frame that passes its checks holds a MODE of 14 bits, and FLAGS and FLAGEN of 7. -/
theorem widths_of_check {f : FrameData} {live : Lanes} (h : f.check live = .ok ()) : f.num 32 8 < 2 ^ 14 ∧ f.num 40 8 < 2 ^ 7 ∧ f.num 48 8 < 2 ^ 7 := by
  unfold FrameData.check at h
  dsimp only at h
  split at h
  · cases h
  split at h
  · cases h
  next hreserved hmode =>
  simp only [FrameData.reservedOk, modeValueOk, Bool.not_eq_true', Bool.not_eq_false, Bool.and_eq_true, decide_eq_true_eq] at hreserved hmode
  obtain ⟨⟨⟨⟨-, hflags⟩, hflagen⟩, -⟩, -⟩ := hreserved
  exact ⟨hmode.1, hflags, hflagen⟩

theorem hasRoom_nil {g : Group} (hq : g.quiet = true) (hload : g.ldcnt ≤ 64) : g.hasRoom [] = true := by
  have hwaiting : g.memq.filter (fun x => !x.accepted) = [] := List.filter_eq_nil_iff.2 fun m hm => by
    obtain ⟨haccepted, -⟩ := Bool.and_eq_true_iff.1 (List.all_eq_true.1 hq m hm)
    simpa using haccepted
  unfold Group.hasRoom
  simp only [List.filterMap_nil, List.filter_nil, List.length_nil, hwaiting, List.all_nil, Bool.and_true, Nat.add_zero, Nat.zero_le, decide_true, Bool.true_and]
  exact decide_eq_true hload

/-- The whole return where no window needs a refill and no entry issues again. -/
theorem returnFromTrap_bare {s : State} {gr : GRef} {g : Group} (hg : s.group? gr = some g) (h : TrapHold) (rest : List TrapHold) {bs : List Byte}
    (hload : s.loadRange gr g.dstkp 11008 g.dstkp = .ok bs) (hcheck : FrameData.check ⟨bs⟩ g.live = .ok ()) (hnone : FrameData.num ⟨bs⟩ 88 1 = 0)
    (hroom : g.hasRoom [] = true) (hres : Resident (g.restoreFrame ⟨bs⟩ h rest s.cycle)) (hpins : s.overPinned = false) :
    ∃ t top qs, s.returnFromTrap gr g h rest = .ok (some { t with reqs := qs }) ∧ Moved gr s t (topped (g.restoreFrame ⟨bs⟩ h rest s.cycle) top) := by
  obtain ⟨t, top, hfit, hmove⟩ := fitWindows_resident (group?_modGroup_self (fun g => g.restoreFrame ⟨bs⟩ h rest s.cycle) hg) hres
  have hall := moved_trans (moved_modGroup hg _) hmove
  obtain ⟨qs, hask⟩ := askRange_reqs t gr g.dstkp 11008
  have hentries : FrameData.entries ⟨bs⟩ = [] := by
    unfold FrameData.entries
    rw [hnone]
    rfl
  have hover : State.overPinned { t with reqs := qs } = false := (overPinned_congr (show State.pins { t with reqs := qs } = s.pins from (moved_pins hall : t.pins = s.pins))).trans hpins
  refine ⟨t, top, qs, ?_, hall⟩
  unfold State.returnFromTrap
  rw [show frameSize = 11008 from rfl, hload]
  show (FrameData.check ⟨bs⟩ g.live).bind _ = _
  rw [hcheck]
  show (if (!g.hasRoom (FrameData.entries ⟨bs⟩)) = true then _ else _) = _
  rw [hentries, hroom, if_neg (by decide)]
  show ((s.modGroup gr fun g => g.restoreFrame ⟨bs⟩ h rest s.cycle).fitWindows gr).bind _ = _
  rw [hfit]
  show Except.ok (if (t.askRange gr g.dstkp 11008).overPinned = true then none else some (t.askRange gr g.dstkp 11008)) = _
  rw [hask, hover, if_neg Bool.false_ne_true]

/-- Settles O26: the frame is read and checked, the group is what it restores, the windows are resident, and no entry issues again. -/
theorem trapReturn : Obligations.TrapReturn := by
  unfold Obligations.TrapReturn
  intro s i h rest bs hi
  obtain ⟨hs, hblock, hg⟩ := issue_facts hi
  refine ⟨fun hno => ?_, fun htraps hq hload hpins hframe => ?_⟩
  · refine (run_issue hi _).trans ?_
    rw [hno]
  have hrun : ∀ r, (match s.returnFromTrap i.gr i.g h rest with
      | .error t => Res.trap t | .ok none => i.pinStall | .ok (some s) => .whole (s.switchPoint i.gr)) = r → exec .rft s = .next (i.conclude r) := fun r hr => by
    refine (run_issue hi _).trans ?_
    rw [htraps]
    dsimp only
    rw [hq, if_neg (by decide), hs]
    exact congrArg (fun r => Host.Outcome.next (i.conclude r)) hr
  refine ⟨fun e he => hrun _ ?_, fun hcheck hnone hlow hhigh => ?_⟩
  · have hret : s.returnFromTrap i.gr i.g h rest = .error e := by
      unfold State.returnFromTrap
      rw [show frameSize = 11008 from rfl, hframe]
      show (FrameData.check ⟨bs⟩ i.g.live).bind _ = _
      rw [he]
      rfl
    rw [hret]
  · obtain ⟨t, top, qs, hret, hmove⟩ := returnFromTrap_bare hg h rest hframe hcheck hnone (hasRoom_nil hq hload)
      (resident_restored h rest s.cycle hlow hhigh) hpins
    obtain ⟨hmode, hflags, hflagen⟩ := widths_of_check hcheck
    refine ⟨_, _, hrun (.whole (State.switchPoint { t with reqs := qs } i.gr)) (by rw [hret]), group?_modGroup_self _ (show State.group? { t with reqs := qs } i.gr = _ from hmove.group), fun gr hgr => ?_, fun l => ?_, ?_⟩
    · exact (group?_modGroup_ne _ hgr).trans (moved_others hmove hgr)
    · refine (byte_modGroup _ _ _ l).trans ((byte_setCore _ _ _ l).trans ?_)
      exact moved_byte hmove l
    · exact ⟨rfl, rfl, rfl, rfl, rfl, rfl, rfl, rfl, rfl, rfl, Nat.mod_eq_of_lt hmode, Nat.mod_eq_of_lt hflags, Nat.mod_eq_of_lt hflagen, rfl, rfl, rfl, rfl, rfl, rfl, rfl, rfl, rfl, rfl, rfl⟩

end Sys2Proof.Proofs.TrapReturns
end

section
/-! SUPPORT. A slot that its lanes have left, and what takes it (R155, R156): O22, O23. -/

namespace Sys2Proof.Proofs.Leaving

open Sys2Proof Sys2Proof.Machine Sys2Proof.Laws Sys2Proof.Proofs.Paths

/-! ## The group after its slot's lanes have left -/

/-- No lane is left in the issuing slot; the other slot and what no transfer of control moves stand. -/
structure Emptied (i : Iss) (tokens : List Token) (exited : Lanes) (g : Group) : Prop where
  free : (g.slot i.slotB).isFree = true
  other : g.slot (!i.slotB) = i.g.slot (!i.slotB)
  tokens : g.tokens = tokens
  exited : g.exited = exited
  still : { g.still with exited := i.g.exited } = i.g.still

section
variable {i : Iss} {tokens : List Token} {exited : Lanes} {g : Group}

theorem range_emptied (h : Emptied i tokens exited g) : g.lo = i.g.lo ∧ g.span = i.g.span :=
  ⟨(congrArg Group.lo h.still :), congrArg (fun n => min n 256) (congrArg Group.av h.still :)⟩

theorem stack_emptied (h : Emptied i tokens exited g) :
    g.dstkp = i.g.dstkp ∧ g.stackCopy = i.g.stackCopy ∧ g.stackTop = i.g.stackTop ∧ g.stackEmpty = i.g.stackEmpty := by
  have hat : g.dstkp = i.g.dstkp := (congrArg Group.dstkp h.still :)
  have htop : g.stackTop = i.g.stackTop := (congrArg Group.stackTop h.still :)
  refine ⟨hat, (congrArg Group.stackCopy h.still :), htop, ?_⟩
  unfold Group.stackEmpty
  rw [hat, htop]

theorem live_emptied (h : Emptied i tokens exited g) : g.live = i.g.launched &&& ~~~ exited := by
  have hlaunched : g.launched = i.g.launched := (congrArg Group.launched h.still :)
  unfold Group.live
  rw [hlaunched, h.exited]

theorem groupWho_emptied (h : Emptied i tokens exited g) (s : State) (b : Block) (n : Nat) : s.groupWho b g n = s.groupWho b i.g n :=
  (congrArg (fun x => s.groupWho b x n) h.still :)

theorem takes_emptied (h : Emptied i tokens exited g) : takes g = (i.slotB && !(i.g.slot (!i.slotB)).isFree) := by
  have hfree := h.free
  have hother := h.other
  unfold takes
  cases hb : i.slotB with
  | false =>
    rw [hb] at hfree
    rw [show g.slotA.isFree = true from hfree]
    rfl
  | true =>
    rw [hb] at hother
    rw [show g.slotA = i.g.slot (!true) from hother]
    rfl

theorem free_takes (h : Emptied i tokens exited g) : (g.slot (takes g)).isFree = true := by
  rw [takes_emptied h]
  cases hother : (i.g.slot (!i.slotB)).isFree with
  | false =>
    rw [Bool.not_false, Bool.and_true]
    exact h.free
  | true =>
    rw [Bool.not_true, Bool.and_false]
    have hfree := h.free
    have hsame := h.other
    cases hb : i.slotB with
    | false =>
      rw [hb] at hfree
      exact hfree
    | true =>
      rw [hb] at hother hsame
      exact (congrArg Slot.isFree hsame).trans hother

/-- The slot that the emptied group does not fill: the other one where its lanes stand, else a free one. -/
theorem slot_spared (h : Emptied i tokens exited g) : (takes g = i.slotB ∧ g.slot (!takes g) = i.g.slot (!i.slotB)) ∨
    ((i.g.slot (!i.slotB)).isFree = true ∧ takes g ≠ i.slotB ∧ (g.slot (!takes g)).isFree = true) := by
  have hfree := h.free
  have hother := h.other
  have htakes := takes_emptied h
  cases hbusy : (i.g.slot (!i.slotB)).isFree with
  | false =>
    rw [hbusy, Bool.not_false, Bool.and_true] at htakes
    exact .inl ⟨htakes, htakes ▸ hother⟩
  | true =>
    rw [hbusy, Bool.not_true, Bool.and_false] at htakes
    cases hb : i.slotB with
    | false =>
      rw [hb] at hother
      exact .inl ⟨htakes, by rw [htakes]; exact hother⟩
    | true =>
      rw [hb] at hfree
      exact .inr ⟨rfl, by rw [htakes]; decide, by rw [htakes]; exact hfree⟩

theorem resident_takes (h : Emptied i tokens exited g) {x : Slot} (hfit : i.FitsBeside x.wb) : Resident (g.setSlot (takes g) x) := by
  obtain ⟨hlow, hhigh, hbeside⟩ := hfit
  obtain ⟨hlo, hspan⟩ := range_emptied h
  have hlo' : (g.setSlot (takes g) x).lo = g.lo := by
    cases takes g <;> rfl
  have hspan' : (g.setSlot (takes g) x).span = g.span := by
    cases takes g <;> rfl
  intro sb hbusy
  rw [hlo', hspan', hlo, hspan]
  by_cases hsb : sb = takes g
  · subst hsb
    have hslot : (g.setSlot (takes g) x).slot (takes g) = x := by
      cases takes g <;> rfl
    rw [hslot]
    exact ⟨hlow, hhigh⟩
  · have hsb' : sb = !takes g := by
      revert hsb
      cases sb <;> cases takes g <;> decide
    have hslot : (g.setSlot (takes g) x).slot sb = g.slot (!takes g) := by
      rw [hsb']
      cases takes g <;> rfl
    rw [hslot] at hbusy ⊢
    rcases slot_spared h with ⟨-, hsame⟩ | ⟨-, -, hfree⟩
    · rw [hsame] at hbusy ⊢
      exact hbeside hbusy
    · exact absurd (hfree.symm.trans hbusy) (by decide)

/-! ## The top entry, and the order of its load -/

/-- The entry on top of the stack is what it was before the lanes left. -/
theorem entry_emptied (h : Emptied i tokens exited g) {t : State} {bl : List Block} {b' : Block} {bs : List Byte} {loaded : Bool}
    (hb : i.s.block? i.gr.blk = some i.b) (hg : i.s.group? i.gr = some i.g) (ht : t = { i.s with blocks := bl }) (hb' : t.block? i.gr.blk = some b')
    (hg' : t.group? i.gr = some g) (hbyte : ∀ l, t.byte l = i.s.byte l) (hwho : i.s.groupWho b' i.g i.gr.grp = i.s.groupWho i.b i.g i.gr.grp)
    (htop : i.TopEntry bs loaded) : TopEntryOf t i.gr g bs loaded := by
  subst ht
  obtain ⟨hat, hcopy, -, -⟩ := stack_emptied h
  obtain ⟨-, htop⟩ := htop
  unfold TopEntryOf
  rw [hcopy]
  cases hold : i.g.stackCopy with
  | cons e rest =>
    rw [hold] at htop
    exact htop
  | nil =>
    rw [hold] at htop
    obtain ⟨hloaded, -, -, hload⟩ := htop
    refine ⟨hloaded, ?_⟩
    rw [hat, loadRange_blocks hb hg hb' hg' hbyte ((groupWho_emptied h _ _ _).trans hwho), hload]

theorem ordered_in_place {t : State} {g' : Group} (hg : t.group? i.gr = some g') (hlo : g'.lo = i.g.lo) (hat : g'.dstkp = i.g.dstkp) (r : Res) :
    i.ordered t r = r := by
  have htouched : i.touched t = false := by
    unfold Iss.touched
    rw [hg]
    simp [hlo, hat]
  unfold Iss.ordered
  rw [htouched]
  rfl

/-- A pop from the core's copy moves no byte; a load of the entry stands in the order of the group's accesses. -/
theorem ordered_popped {t : State} {g' : Group} {bs : List Byte} {loaded : Bool} (hg : t.group? i.gr = some g') (hlo : g'.lo = i.g.lo)
    (hat : g'.dstkp = i.g.dstkp + 16) (htop : i.TopEntry bs loaded) (hpins : t.pins = i.s.pins) (r : Res) : i.ordered t r = r := by
  obtain ⟨hend, htop⟩ := htop
  have hadd : g'.dstkp.toNat = i.g.dstkp.toNat + 16 := by
    rw [hat, BitVec.toNat_add]
    exact Nat.mod_eq_of_lt hend
  unfold Iss.ordered
  cases hcopy : i.g.stackCopy with
  | cons e rest =>
    have htouched : i.touched t = false := by
      unfold Iss.touched
      rw [hg]
      simp only [hlo, hadd, hcopy, bne_self_eq_false, List.length_cons, Bool.false_or]
      refine Bool.or_eq_false_iff.2 ⟨decide_eq_false (by omega), decide_eq_false (by omega)⟩
    rw [htouched]
    rfl
  | nil =>
    rw [hcopy] at htop
    obtain ⟨-, hquiet, hpinned, -⟩ := htop
    rw [hquiet, overPinned_congr hpins, hpinned]
    simp

/-! ## The group with the entry in its slot -/

/-- The group with the slot that issued last, and the cycle that its wait counts from. -/
def marked (i : Iss) (since : Nat) (g : Group) : Group := { g with lastB := i.slotB, since := since }

/-- What `Popped` says of the group, whichever way the instruction ends. -/
theorem popped_emptied (h : Emptied i tokens exited g) {sb : Bool} {x : Slot} {t : State} {g' : Group} {top since : Nat} (hg' : t.group? i.gr = some g')
    (heq : g' = marked i since (topped (took g sb x) top)) (hothers : ∀ gr, gr ≠ i.gr → t.group? gr = i.s.group? gr)
    (hbyte : ∀ l, t.byte l = i.s.byte l) :
    i.Popped sb x t g' ∧ g'.exited = exited ∧ g'.tokens = tokens ∧ g'.slot (!sb) = g.slot (!sb) := by
  obtain ⟨hat, hcopy, -, -⟩ := stack_emptied h
  have hrest := congrArg (fun y : Group => { y with dstkp := i.g.dstkp, stackCopy := i.g.stackCopy }) h.still
  have htokens := h.tokens
  have hexited := h.exited
  subst heq
  refine ⟨⟨hg', hothers, hbyte, ?_, ⟨?_, ?_⟩, ?_⟩, ?_, ?_, ?_⟩
  · cases sb <;> rfl
  · exact congrArg (· + 16) hat
  · exact congrArg List.tail hcopy
  · revert hrest
    cases sb <;> exact id
  · revert hexited
    cases sb <;> exact id
  · revert htokens
    cases sb <;> exact id
  · cases sb <;> rfl

end

end Sys2Proof.Proofs.Leaving
end

section
/-! SUPPORT. BRK and JOIN (R155, R159, R160): O22. -/

namespace Sys2Proof.Proofs.Joining

open Sys2Proof Sys2Proof.Machine Sys2Proof.Laws Sys2Proof.Proofs.IssuingBlock Sys2Proof.Proofs.Timelines Sys2Proof.Proofs.Units Sys2Proof.Proofs.Paths Sys2Proof.Proofs.Leaving

/-- The group with no lane in the issuing slot. -/
def vacated (i : Iss) (g : Group) : Group := g.modSlot i.slotB fun x => { x.advance true with pc := x.pc, mask := 0 }

/-- The lanes of the issuing slot have arrived at token tk, which holds k now. -/
structure Arrived (i : Iss) (tk : BitVec 4) (k : Token) (t : State) (g : Group) : Prop where
  moved : Moved i.gr i.s t g
  emptied : Emptied i (setAt i.g.tokens tk.toNat k) i.g.exited (vacated i g)

section
variable {i : Iss} {tk : BitVec 4} {k : Token} {t : State} {g : Group}

theorem moved_vacate (h : Arrived i tk k t g) : Moved i.gr i.s (i.vacate t) (vacated i g) := moved_trans h.moved (moved_modGroup h.moved.group _)

theorem token_vacated (h : Arrived i tk k t g) (hlen : i.g.tokens.length = 16) : (vacated i g).token tk.toNat = k := by
  unfold Group.token
  rw [h.emptied.tokens, getD_setAt, if_pos ⟨rfl, by rw [hlen]; exact tk.isLt⟩]

theorem covered_vacated (h : Arrived i tk k t g) (hlen : i.g.tokens.length = 16) :
    (vacated i g).covered tk.toNat = (k.exp &&& ~~~ i.g.exited &&& ~~~ k.arr == 0) := by
  unfold Group.covered
  rw [token_vacated h hlen, h.emptied.exited]

/-- A token that does not cover its lanes leaves the slot to the stack. -/
theorem leave_waiting (h : Arrived i tk k t g) (hlen : i.g.tokens.length = 16) (hopen : k.exp &&& ~~~ i.g.exited &&& ~~~ k.arr ≠ 0) :
    i.leave t tk.toNat = (i.vacate t).settle i.gr settleFuel := by
  unfold Iss.leave
  simp only [(moved_vacate h).group]
  rw [covered_vacated h hlen, beq_eq_false_iff_ne.2 hopen]
  rfl

/-- A token that covers its lanes completes. -/
theorem leave_completing (h : Arrived i tk k t g) (hlen : i.g.tokens.length = 16) (hall : k.exp &&& ~~~ i.g.exited &&& ~~~ k.arr = 0)
    (hdue : k.exp &&& ~~~ i.g.exited ≠ 0) :
    i.leave t tk.toNat = (((i.vacate t).modGroup i.gr fun g => g.setToken tk.toNat { k with exp := 0, arr := 0 }).place i.gr (k.exp &&& ~~~ i.g.exited) (k.jpc + 4) k.jwb
      tk.toNat).bind fun u => u.settle i.gr settleFuel := by
  unfold Iss.leave State.complete
  simp only [(moved_vacate h).group]
  rw [covered_vacated h hlen, beq_iff_eq.2 hall, if_pos rfl, token_vacated h hlen, h.emptied.exited, if_neg hdue]
  rfl

/-! ## The end of the instruction -/

theorem conclude_left {u : State} {g' : Group} (hg : u.group? i.gr = some g') :
    (i.conclude (.left u)).group? i.gr = some { g' with lastB := i.slotB } ∧ (∀ gr, gr ≠ i.gr → (i.conclude (.left u)).group? gr = u.group? gr) ∧
      (∀ l, (i.conclude (.left u)).byte l = u.byte l) ∧ ((i.conclude (.left u)).core (i.s.coreIdOf i.gr)).turn = true := by
  refine ⟨group?_modGroup_self _ hg, fun gr hgr => group?_modGroup_ne _ hgr, fun l => byte_modGroup u i.gr _ l, ?_⟩
  exact congrArg Core.turn (core_modCore (u.modGroup i.gr fun g => { g with lastB := i.slotB }) (i.s.coreIdOf i.gr) (fun c => { c with turn := true }) fun _ => rfl)

theorem left_of_moved {u : State} {g' : Group} (h : Moved i.gr i.s u g') : i.Left (i.conclude (.left u)) { g' with lastB := i.slotB } := by
  obtain ⟨hgroup, hothers, hbytes, -⟩ := conclude_left h.group
  refine ⟨hgroup, fun gr hgr => (hothers gr hgr).trans (moved_others h hgr), fun l => (hbytes l).trans (moved_byte h l), ?_⟩
  obtain ⟨f, rfl⟩ := h.form
  exact ⟨_, congrArg (fun u => u.modCore (i.s.coreIdOf i.gr) fun c => { c with turn := true })
    (modGroup_modGroup i.s i.gr f fun g => { g with lastB := i.slotB })⟩

theorem still_emptied {tokens : List Token} (h : Emptied i tokens i.g.exited g) : g.still = i.g.still := by
  have hstill := h.still
  rw [← h.exited] at hstill
  exact hstill

/-- What a BRK or a JOIN makes of the state after its lanes have arrived. -/
def left (i : Iss) (t : State) (tk : BitVec 4) : State := i.conclude (resOf ((i.leave t tk.toNat).map fun u => i.ordered u (.left u)))

theorem left_waiting (h : Arrived i tk k t g) (hlen : i.g.tokens.length = 16) (hopen : k.exp &&& ~~~ i.g.exited &&& ~~~ k.arr ≠ 0)
    (hempty : i.g.stackEmpty = true) (hbusy : (i.g.slot (!i.slotB)).isFree = false) :
    ∃ g', i.Left (left i t tk) g' ∧ (g'.slot i.slotB).isFree = true ∧ g'.slot (!i.slotB) = i.g.slot (!i.slotB) ∧
      g'.tokens = setAt i.g.tokens tk.toNat k ∧ g'.still = i.g.still := by
  have hmoved := moved_vacate h
  obtain ⟨hat, -, -, hstack⟩ := stack_emptied h.emptied
  have htwo : ((vacated i g).slotA.isFree && (vacated i g).slotB.isFree) = false := by
    have hother := (congrArg Slot.isFree h.emptied.other).trans hbusy
    revert hother
    cases i.slotB
    · intro hother
      rw [show (vacated i g).slotB.isFree = false from hother, Bool.and_false]
    · intro hother
      rw [show (vacated i g).slotA.isFree = false from hother, Bool.false_and]
  have hleave : left i t tk = i.conclude (.left (i.vacate t)) := by
    have hsettle : (i.vacate t).settle i.gr settleFuel = .ok (i.vacate t) := settle_none hmoved.group (.inl (hstack.trans hempty)) htwo 39
    unfold left
    rw [leave_waiting h hlen hopen, hsettle]
    exact congrArg i.conclude (ordered_in_place hmoved.group (range_emptied h.emptied).1 hat _)
  rw [hleave]
  exact ⟨_, left_of_moved hmoved, h.emptied.free, h.emptied.other, h.emptied.tokens, (still_emptied h.emptied :)⟩

theorem left_popping (hi : i.s.block? i.gr.blk = some i.b ∧ i.s.group? i.gr = some i.g) (h : Arrived i tk k t g) (hlen : i.g.tokens.length = 16)
    (hopen : k.exp &&& ~~~ i.g.exited &&& ~~~ k.arr ≠ 0) (hstack : i.g.stackEmpty = false) {bs : List Byte} {loaded : Bool} (htop : i.TopEntry bs loaded)
    (hx : (i.entrySlot i.g.live bs loaded).mask ≠ 0) (hfit : i.FitsBeside (i.entrySlot i.g.live bs loaded).wb)
    (hlast : (i.g.slot (!i.slotB)).isFree = true → i.g.stackTop.toNat ≤ i.g.dstkp.toNat + 16) :
    let sb := i.slotB && !(i.g.slot (!i.slotB)).isFree
    ∃ g', i.Popped sb (i.entrySlot i.g.live bs loaded) (left i t tk) g' ∧ ((left i t tk).core (i.s.coreIdOf i.gr)).turn = true ∧ g'.exited = i.g.exited ∧
      (if (i.g.slot (!i.slotB)).isFree then (g'.slot (!sb)).isFree = true else g'.slot (!sb) = i.g.slot (!i.slotB)) ∧
      g'.tokens = setAt i.g.tokens tk.toNat k := by
  have hmoved := moved_vacate h
  obtain ⟨hat, -, hend, hempty⟩ := stack_emptied h.emptied
  have hslot : popped (i.vacate t) (vacated i g).live bs loaded = i.entrySlot i.g.live bs loaded := by
    unfold popped Iss.entrySlot
    rw [moved_refillEnd hmoved, live_emptied h.emptied]
    rfl
  have hentry : TopEntryOf (i.vacate t) i.gr (vacated i g) bs loaded := by
    obtain ⟨f, hf⟩ := hmoved.form
    refine entry_emptied h.emptied hi.1 hi.2 (b' := i.b.modGroup i.gr.grp f) (hf.trans rfl) ?_ hmoved.group (moved_byte hmoved) rfl htop
    rw [hf]
    exact block?_modGroup_self f hi.1
  have hfree := slot_spared h.emptied
  obtain ⟨u, top, qs, hsettle, hpop⟩ := settle_entry hmoved.group hentry (hempty.trans hstack) (free_takes h.emptied) (by rw [hslot]; exact hx)
    (by rw [hslot]; exact resident_takes h.emptied hfit) (by rw [hat]; exact htop.1) (fun hspare => by
      rw [hend, hat]
      rcases hfree with ⟨-, hsame⟩ | ⟨hother, -, -⟩
      · exact hlast ((congrArg Slot.isFree hsame).symm.trans hspare)
      · exact hlast hother) 39
  rw [hslot] at hpop
  have hleave : left i t tk = i.conclude (.left u) := by
    unfold left
    rw [leave_waiting h hlen hopen, show (i.vacate t).settle i.gr settleFuel = .ok u from hsettle]
    refine congrArg i.conclude (ordered_popped hpop.group ?_ ?_ htop ?_ _)
    · refine Eq.trans ?_ (range_emptied h.emptied).1
      cases takes (vacated i g) <;> rfl
    · refine Eq.trans ?_ (congrArg (· + 16) hat)
      cases takes (vacated i g) <;> rfl
    · exact (moved_pins hpop).trans (moved_pins hmoved : (i.vacate t).pins = i.s.pins)
  obtain ⟨hgroup, hothers, hbytes, hturn⟩ := conclude_left hpop.group
  rw [← hleave] at hgroup hothers hbytes hturn
  obtain ⟨hpopped, hexited, htokens, hspare⟩ := popped_emptied h.emptied hgroup rfl
    (fun gr hgr => (hothers gr hgr).trans ((moved_others hpop hgr).trans ((group?_reqs _ _ _).trans (moved_others hmoved hgr))))
    fun l => (hbytes l).trans ((moved_byte hpop l).trans ((byte_reqs _ _ _).trans (moved_byte hmoved l)))
  rw [← takes_emptied h.emptied]
  refine ⟨_, hpopped, hturn, hexited, ?_, htokens⟩
  rw [hspare]
  rcases hfree with ⟨-, hsame⟩ | ⟨hother, -, hnone⟩
  · rw [hsame]
    split <;> trivial
  · rw [if_pos hother]
    exact hnone

/-- A completed token is idle (R155). -/
theorem emptied_idle (h : Arrived i tk k t g) (x : Token) :
    Emptied i (setAt i.g.tokens tk.toNat x) i.g.exited ((vacated i g).setToken tk.toNat x) where
  free := h.emptied.free
  other := h.emptied.other
  tokens := (congrArg (setAt · tk.toNat x) h.emptied.tokens).trans (modAt_modAt i.g.tokens tk.toNat (fun _ => k) fun _ => x)
  exited := h.emptied.exited
  still := h.emptied.still

/-- A group that has placed its lanes is settled where no entry waits for a slot. -/
theorem settle_placed {tokens : List Token} {x : Slot} {u : State} {top : Nat} (h : Emptied i tokens i.g.exited g) (hx : x.isFree = false)
    (hu : u.group? i.gr = some (topped (g.setSlot (takes g) x) top)) (hstack : i.g.stackEmpty = true ∨ (i.g.slot (!i.slotB)).isFree = false) (n : Nat) :
    u.settle i.gr (n + 1) = .ok u := by
  have hspare := slot_spared h
  refine settle_none hu ?_ ?_ n
  · rcases hstack with hempty | hbusy
    · refine .inl (Eq.trans ?_ ((stack_emptied h).2.2.2.trans hempty))
      cases takes g <;> rfl
    · refine .inr ?_
      rcases hspare with ⟨-, hsame⟩ | ⟨hother, -⟩
      · have hsame := (congrArg Slot.isFree hsame).trans hbusy
        revert hsame
        cases takes g
        · exact fun hsame => ⟨hx, hsame⟩
        · exact fun hsame => ⟨hsame, hx⟩
      · exact absurd (hother.symm.trans hbusy) (by decide)
  · cases takes g
    · exact (congrArg (· && g.slotB.isFree) hx :)
    · exact (congrArg (g.slotA.isFree && ·) hx).trans (Bool.and_false _)

theorem left_completing (h : Arrived i tk k t g) (hlen : i.g.tokens.length = 16) (hall : k.exp &&& ~~~ i.g.exited &&& ~~~ k.arr = 0)
    (hdue : k.exp &&& ~~~ i.g.exited ≠ 0) (hstack : i.g.stackEmpty = true ∨ (i.g.slot (!i.slotB)).isFree = false) (hfit : i.FitsBeside k.jwb) :
    let sb := i.slotB && !i.g.slotA.isFree
    ∃ g', i.Left (left i t tk) g' ∧ g'.slot sb = pathSlot (k.exp &&& ~~~ i.g.exited) (k.jpc + 4) k.jwb ∧
      (if sb = i.slotB then g'.slot (!sb) = i.g.slot (!sb) else (g'.slot (!sb)).isFree = true) ∧
      g'.tokens = setAt i.g.tokens tk.toNat { k with exp := 0, arr := 0 } ∧ g'.still = i.g.still := by
  have hidle := emptied_idle h { k with exp := 0, arr := 0 }
  have hmoved : Moved i.gr i.s ((i.vacate t).modGroup i.gr fun g => g.setToken tk.toNat { k with exp := 0, arr := 0 })
      ((vacated i g).setToken tk.toNat { k with exp := 0, arr := 0 }) := moved_trans (moved_vacate h) (moved_modGroup (moved_vacate h).group _)
  have hfree := slot_spared hidle
  obtain ⟨u, top, hplace, hfill⟩ := place_free (m := k.exp &&& ~~~ i.g.exited) (pc := k.jpc + 4) (wb := k.jwb) hmoved.group tk.toNat (free_takes hidle) (resident_takes hidle hfit)
  have hsettle : u.settle i.gr settleFuel = .ok u := settle_placed hidle (beq_eq_false_iff_ne.2 hdue) hfill.group hstack 39
  have hleave : left i t tk = i.conclude (.left u) := by
    unfold left
    rw [leave_completing h hlen hall hdue, hplace]
    show i.conclude (resOf ((u.settle i.gr settleFuel).map fun u => i.ordered u (.left u))) = _
    rw [hsettle]
    refine congrArg i.conclude (ordered_in_place hfill.group ?_ ?_ _)
    · refine Eq.trans ?_ (range_emptied hidle).1
      cases takes ((vacated i g).setToken tk.toNat { k with exp := 0, arr := 0 }) <;> rfl
    · refine Eq.trans ?_ (stack_emptied hidle).1
      cases takes ((vacated i g).setToken tk.toNat { k with exp := 0, arr := 0 }) <;> rfl
  have hsb : (i.slotB && !i.g.slotA.isFree) = takes ((vacated i g).setToken tk.toNat { k with exp := 0, arr := 0 }) := by
    rw [takes_emptied hidle]
    cases i.slotB <;> rfl
  rw [hleave, hsb]
  have hrest := still_emptied hidle
  have htokens := hidle.tokens
  revert hfill hfree hrest htokens
  generalize (vacated i g).setToken tk.toNat { k with exp := 0, arr := 0 } = idle
  intro hfree hfill hrest htokens
  have hspare : (idle.setSlot (takes idle) (pathSlot (k.exp &&& ~~~ i.g.exited) (k.jpc + 4) k.jwb)).slot (!takes idle) = idle.slot (!takes idle) := by
    cases takes idle <;> rfl
  refine ⟨_, left_of_moved (moved_trans hmoved hfill), ?_, ?_, ?_, ?_⟩
  · cases takes idle <;> rfl
  · refine (congrArg (fun x : Slot => if takes idle = i.slotB then x = i.g.slot (!takes idle) else x.isFree = true) hspare :).mpr ?_
    rcases hfree with ⟨hown, hsame⟩ | ⟨-, hne, hnone⟩
    · rw [if_pos hown, hsame, hown]
    · rw [if_neg hne]
      exact hnone
  · revert htokens
    cases takes idle <;> exact id
  · revert hrest
    cases takes idle <;> exact id

end

/-! ## The instructions -/

/-- What a BRK of lanes m makes of its token. -/
def arrives (i : Iss) (m : Lanes) (pc : Word) (k : Token) : Token :=
  if m = 0 then { k with exp := k.exp ||| i.active } else Token.arrive { k with exp := k.exp ||| i.active } m pc i.sl.wb

/-- What a JOIN makes of its token. -/
def joins (i : Iss) (k : Token) : Token := { k.arrive i.active i.pc i.sl.wb with exp := (k.arrive i.active i.pc i.sl.wb).exp ||| i.active }

theorem arrives_token (i : Iss) (t : Nat) (m : Lanes) (pc : Word) : arrives i m pc (i.g.token t) = i.arrival t m pc := by
  unfold arrives Iss.arrival Token.arrive
  split
  · rfl
  · dsimp only
    split
    next hidle => simp [hidle]
    · rfl

theorem joins_token (i : Iss) (t : Nat) (h : i.active ≠ 0) : joins i (i.g.token t) = i.arrival t i.active i.pc := by
  rw [← arrives_token]
  unfold joins arrives Token.arrive
  rw [if_neg h]
  dsimp only
  split <;> rfl

/-- The group after a BRK that leaves it some of its lanes. -/
def masked (i : Iss) (tk : BitVec 4) (m : Lanes) (pc : Word) (g : Group) : Group :=
  (g.setToken tk.toNat (arrives i m pc (g.token tk.toNat))).modSlot i.slotB fun x => { x with mask := i.active &&& ~~~ m }

theorem still_modSlot (g : Group) (sb : Bool) (f : Slot → Slot) : (g.modSlot sb f).still = g.still := by
  cases sb <;> rfl

/-- A token's arrival leaves the rest of the group, and the lanes of the issuing slot go with it. -/
theorem arrived_setTok {i : Iss} {t : State} {g : Group} (hmoved : Moved i.gr i.s t g) (hother : g.slot (!i.slotB) = i.g.slot (!i.slotB))
    (htokens : g.tokens = i.g.tokens) (hstill : g.still = i.g.still) (tk : BitVec 4) (f : Token → Token) :
    Arrived i tk (f (i.g.token tk.toNat)) (i.setTok t tk.toNat f) (g.setToken tk.toNat (f (g.token tk.toNat))) := by
  have hmove : Moved i.gr i.s (i.setTok t tk.toNat f) _ := moved_trans hmoved (moved_modGroup hmoved.group fun g => g.setToken tk.toNat (f (g.token tk.toNat)))
  have htoken : g.token tk.toNat = i.g.token tk.toNat := congrArg (fun l : List Token => l.getD tk.toNat Token.idle) htokens
  have hkept : (g.setToken tk.toNat (f (g.token tk.toNat))).still = i.g.still := hstill
  refine ⟨hmove, ?_, ?_, ?_, ?_, ?_⟩
  · unfold vacated
    rw [slot_modSlot]
    rfl
  · exact (slot_modSlot_not _ _ _).trans hother
  · refine Eq.trans ?_ (congrArg (fun l => setAt l tk.toNat (f (i.g.token tk.toNat))) htokens)
    rw [← htoken]
    unfold vacated
    cases i.slotB <;> rfl
  · refine Eq.trans ?_ (congrArg Group.exited hstill :)
    unfold vacated
    cases i.slotB <;> rfl
  · unfold vacated
    rw [still_modSlot, hkept]
    rfl

/-- O22's clauses of a slot that all lanes leave. -/
theorem leaves_of_arrived {i : Iss} (hi : i.s.block? i.gr.blk = some i.b ∧ i.s.group? i.gr = some i.g) {instr : Instr} {s : State} {tk : BitVec 4} {k : Token} {t : State} {g : Group}
    (h : Arrived i tk k t g) (hlen : i.g.tokens.length = 16) (hexec : exec instr s = .next (left i t tk)) :
    let due := k.exp &&& ~~~ i.g.exited
    let other := i.g.slot (!i.slotB)
    i.active ≠ 0 →
    (due &&& ~~~ k.arr ≠ 0 → i.g.stackEmpty = true → other.isFree = false →
      ∃ t g', exec instr s = .next t ∧ i.Left t g' ∧ (g'.slot i.slotB).isFree = true ∧ g'.slot (!i.slotB) = i.g.slot (!i.slotB) ∧
        g'.tokens = setAt i.g.tokens tk.toNat k ∧ g'.still = i.g.still) ∧
    (∀ bs loaded, due &&& ~~~ k.arr ≠ 0 → i.g.stackEmpty = false → i.TopEntry bs loaded →
      let x := i.entrySlot i.g.live bs loaded
      let sb := i.slotB && !other.isFree
      x.mask ≠ 0 → i.FitsBeside x.wb → (other.isFree = true → i.g.stackTop.toNat ≤ i.g.dstkp.toNat + 16) →
      ∃ t g', exec instr s = .next t ∧ i.Popped sb x t g' ∧ (t.core (i.s.coreIdOf i.gr)).turn = true ∧ g'.exited = i.g.exited ∧
        (if other.isFree then (g'.slot (!sb)).isFree = true else g'.slot (!sb) = other) ∧ g'.tokens = setAt i.g.tokens tk.toNat k) ∧
    (due &&& ~~~ k.arr = 0 → due ≠ 0 → i.g.stackEmpty = true ∨ other.isFree = false → i.g.lo ≤ k.jwb → k.jwb + 64 ≤ i.g.lo + i.g.span → i.Fits i.sl.wb →
      let sb := i.slotB && !i.g.slotA.isFree
      ∃ t g', exec instr s = .next t ∧ i.Left t g' ∧ g'.slot sb = pathSlot due (k.jpc + 4) k.jwb ∧
        (if sb = i.slotB then g'.slot (!sb) = i.g.slot (!sb) else (g'.slot (!sb)).isFree = true) ∧
        g'.tokens = setAt i.g.tokens tk.toNat { k with exp := 0, arr := 0 } ∧ g'.still = i.g.still) := by
  refine fun _ => ⟨fun hopen hempty hbusy => ?_, fun bs loaded hopen hstack htop hx hfit hlast => ?_, fun hall hdue hstack hlow hhigh hfits => ?_⟩
  · obtain ⟨g', hg'⟩ := left_waiting h hlen hopen hempty hbusy
    exact ⟨_, g', hexec, hg'⟩
  · obtain ⟨g', hg'⟩ := left_popping hi h hlen hopen hstack htop hx hfit hlast
    exact ⟨_, g', hexec, hg'⟩
  · obtain ⟨g', hg'⟩ := left_completing h hlen hall hdue hstack ⟨hlow, hhigh, hfits.2.2.2⟩
    exact ⟨_, g', hexec, hg'⟩

/-- A BRK that takes some of the lanes goes on with the others. -/
theorem brk_stays {s : State} {i : Iss} (hi : s.issue? = some i) (hgroup : i.s.group? i.gr = some i.g) (c : BitVec 5) (n : Bool) (tk : BitVec 4) (o : BitVec 12)
    (hrest : i.active &&& ~~~ i.takers c n ≠ 0) :
    ∃ t g', exec (.brk c n tk o) s = .next t ∧ i.Alone t g' ∧ i.At (i.pc + 4) (i.active &&& ~~~ i.takers c n) i.sl.wb i.sl.k g' ∧
      g'.tokens = setAt i.g.tokens tk.toNat (i.arrival tk.toNat (i.takers c n) (i.target o)) ∧ g'.still = i.g.still := by
  have hmerge : i.setMask (i.setTok i.s tk.toNat (arrives i (i.takers c n) (i.target o))) (i.active &&& ~~~ i.takers c n) =
      i.s.modGroup i.gr (masked i tk (i.takers c n) (i.target o)) := modGroup_modGroup _ _ _ _
  refine ⟨_, finished i false (masked i tk (i.takers c n) (i.target o) i.g), (run_issue hi _).trans (congrArg (fun r => Host.Outcome.next (i.conclude r)) ?_),
    alone_done hgroup _, ?_, ?_, ?_⟩
  · rw [if_pos hrest]
    exact congrArg (Res.done · false) hmerge
  · have hslot : (finished i false (masked i tk (i.takers c n) (i.target o) i.g)).slot i.slotB =
        Slot.advance { i.sl with mask := i.active &&& ~~~ i.takers c n } false := by
      rw [slot_finished]
      unfold masked
      rw [slot_modSlot]
      rfl
    refine ⟨?_, ?_, ?_, ?_, ?_, ?_⟩
    · rw [hslot]
      rfl
    · rw [hslot]
      rfl
    · rw [hslot]
      rfl
    · rw [hslot]
      rfl
    · rw [hslot]
      rfl
    · rw [slot_finished_not]
      exact slot_modSlot_not _ _ _
  · rw [tokens_finished]
    refine Eq.trans ?_ (congrArg (setAt i.g.tokens tk.toNat) (arrives_token i tk.toNat (i.takers c n) (i.target o)))
    unfold masked
    cases i.slotB <;> rfl
  · rw [still_finished]
    exact still_modSlot _ _ _

/-- A BRK that takes every lane leaves the slot. -/
theorem brk_leaves {s : State} {i : Iss} (hi : s.issue? = some i) (hgroup : i.s.group? i.gr = some i.g) (c : BitVec 5) (n : Bool) (tk : BitVec 4) (o : BitVec 12)
    (hnone : i.active &&& ~~~ i.takers c n = 0) :
    ∃ t g, exec (.brk c n tk o) s = .next (left i t tk) ∧ Arrived i tk (i.arrival tk.toNat i.active (i.target o)) t g := by
  have hall : i.takers c n = i.active := by
    have hsub : i.active = i.active &&& i.takers c n := by
      have hsplit : i.active = (i.active &&& i.takers c n) ||| (i.active &&& ~~~ i.takers c n) := by
        ext k
        simp only [BitVec.getElem_or, BitVec.getElem_and, BitVec.getElem_not]
        cases i.active[k] <;> cases (i.takers c n)[k] <;> rfl
      rw [hnone] at hsplit
      exact hsplit.trans BitVec.or_zero
    rw [hsub]
    unfold Iss.takers
    rw [← BitVec.and_assoc, BitVec.and_self]
  have harrived := arrived_setTok (moved_refl hgroup) rfl rfl rfl tk (arrives i (i.takers c n) (i.target o))
  have htoken : i.arrival tk.toNat (i.takers c n) (i.target o) = i.arrival tk.toNat i.active (i.target o) := by
    rw [hall]
  rw [arrives_token, htoken] at harrived
  exact ⟨_, _, (run_issue hi _).trans (congrArg (fun r => Host.Outcome.next (i.conclude r)) (if_neg (not_not.2 hnone))), harrived⟩

/-- The issuing group with its latch reset. -/
def relatched (i : Iss) (g : Group) : Group := (g.modSlot i.slotB Slot.resetLatch).noteReset i.slotB i.s.cycle

theorem still_relatched (i : Iss) (g : Group) : (relatched i g).still = g.still := by
  unfold relatched
  cases i.slotB <;> rfl

theorem slot_relatched (i : Iss) (g : Group) : (relatched i g).slot i.slotB = (g.slot i.slotB).resetLatch ∧ (relatched i g).slot (!i.slotB) = g.slot (!i.slotB) := by
  unfold relatched
  cases i.slotB <;> exact ⟨rfl, rfl⟩

theorem tokens_relatched (i : Iss) (g : Group) : (relatched i g).tokens = g.tokens := by
  unfold relatched
  cases i.slotB <;> rfl

/-- A JOIN at an idle token is a switch of its latch alone. -/
theorem join_stays {s : State} {i : Iss} (hi : s.issue? = some i) (hgroup : i.s.group? i.gr = some i.g) (tk : BitVec 4) (hidle : (i.g.token tk.toNat).exp = 0) :
    ∃ t g', exec (.join tk) s = .next t ∧ i.Alone t g' ∧ i.At (i.pc + 4) i.active i.sl.wb 0 g' ∧ g'.tokens = i.g.tokens ∧ g'.still = i.g.still := by
  obtain ⟨hslot, hother⟩ := slot_relatched i i.g
  refine ⟨_, finished i false (relatched i i.g), (run_issue hi _).trans (congrArg (fun r => Host.Outcome.next (i.conclude r)) (if_pos hidle)),
    alone_done hgroup _, ⟨?_, ?_, ?_, ?_, ?_, (slot_finished_not _ _ _).trans hother⟩, (tokens_finished _ _ _).trans (tokens_relatched _ _),
    (still_finished _ _ _).trans (still_relatched _ _)⟩ <;> rw [slot_finished, hslot] <;> rfl

/-- A JOIN at a token in use leaves the slot. -/
theorem join_leaves {s : State} {i : Iss} (hi : s.issue? = some i) (hgroup : i.s.group? i.gr = some i.g) (tk : BitVec 4) (hbusy : (i.g.token tk.toNat).exp ≠ 0) (hactive : i.active ≠ 0) :
    ∃ t g, exec (.join tk) s = .next (left i t tk) ∧ Arrived i tk (i.arrival tk.toNat i.active i.pc) t g := by
  have harrived := arrived_setTok (moved_modGroup hgroup (relatched i)) (slot_relatched i i.g).2 (tokens_relatched i i.g) (still_relatched i i.g) tk (joins i)
  rw [joins_token i _ hactive] at harrived
  exact ⟨_, _, (run_issue hi _).trans (congrArg (fun r => Host.Outcome.next (i.conclude r)) (if_neg hbusy)), harrived⟩

/-- Settles O22: the lanes arrive at the token, and their slot is what the token's completion or the stack gives it. -/
theorem breaksAndJoins : Obligations.BreaksAndJoins := by
  unfold Obligations.BreaksAndJoins
  intro s i c n tk o hi hlen
  obtain ⟨hs, hblock, hgroup⟩ := issue_facts hi
  rw [← hs] at hblock hgroup
  refine ⟨brk_stays hi hgroup c n tk o, fun hnone => ?_, ?_⟩
  · obtain ⟨t, g, hexec, harrived⟩ := brk_leaves hi hgroup c n tk o hnone
    exact leaves_of_arrived ⟨hblock, hgroup⟩ harrived hlen hexec
  · split
    next hidle => exact join_stays hi hgroup tk hidle
    next hbusy =>
      intro hactive
      obtain ⟨t, g, hexec, harrived⟩ := join_leaves hi hgroup tk hbusy hactive
      exact leaves_of_arrived ⟨hblock, hgroup⟩ harrived hlen hexec hactive

end Sys2Proof.Proofs.Joining
end

section
/-! SUPPORT. EXIT (R82, R163): O23. -/

namespace Sys2Proof.Proofs.Exiting

open Sys2Proof Sys2Proof.Machine Sys2Proof.Laws Sys2Proof.Proofs.IssuingBlock Sys2Proof.Proofs.Timelines Sys2Proof.Proofs.Paths Sys2Proof.Proofs.Leaving
open Sys2Proof.Proofs.Joining

/-! ## What EXIT does to the block's operations -/

/-- t is the machine at issue but for the block's operations. -/
structure Kept (i : Iss) (t : State) (b : Block) : Prop where
  form : ∃ bl, t = { i.s with blocks := bl }
  block : t.block? i.gr.blk = some b
  groups : b.groups = i.b.groups
  who : b.ctx = i.b.ctx ∧ b.place = i.b.place ∧ b.pos = i.b.pos
  others : ∀ n, n ≠ i.gr.blk → t.block? n = i.s.block? n
  bytes : ∀ l, t.byte l = i.s.byte l

section
variable {i : Iss} {t : State} {b : Block}

theorem kept_self (hb : i.s.block? i.gr.blk = some i.b) : Kept i i.s i.b := ⟨⟨_, rfl⟩, hb, rfl, ⟨rfl, rfl, rfl⟩, fun _ _ => rfl, fun _ => rfl⟩

theorem kept_modBlock (h : Kept i t b) {f : Block → Block} (hf : Stays f) (hgroups : (f b).groups = b.groups)
    (hwho : (f b).ctx = b.ctx ∧ (f b).place = b.place ∧ (f b).pos = b.pos) : Kept i (t.modBlock i.gr.blk f) (f b) where
  form := by
    obtain ⟨bl, rfl⟩ := h.form
    exact ⟨_, rfl⟩
  block := by rw [block?_modBlock _ _ _ _ hf.id, if_pos rfl, h.block]; rfl
  groups := hgroups.trans h.groups
  who := ⟨hwho.1.trans h.who.1, hwho.2.1.trans h.who.2.1, hwho.2.2.trans h.who.2.2⟩
  others n hn := by rw [block?_modBlock _ _ _ _ hf.id, if_neg hn, h.others n hn]
  bytes l := (byte_modBlock t i.gr.blk f l hf.id hf.stores).trans (h.bytes l)

theorem group?_kept (h : Kept i t b) (hb : i.s.block? i.gr.blk = some i.b) (gr : GRef) : t.group? gr = i.s.group? gr := by
  unfold State.group?
  by_cases hn : gr.blk = i.gr.blk
  · rw [hn, h.block, hb]
    exact congrArg (fun l : List Group => l[gr.grp]?) h.groups
  · rw [h.others _ hn]

/-- The machine with the drain rows of a group's last EXIT discarded. -/
def drained (i : Iss) : State := if i.lastExit then i.s.modBlock i.gr.blk fun b => b.discardDrains i.gr.grp else i.s

def drainedBlock (i : Iss) : Block := if i.lastExit then i.b.discardDrains i.gr.grp else i.b

theorem kept_drained (hb : i.s.block? i.gr.blk = some i.b) : Kept i (drained i) (drainedBlock i) := by
  unfold drained drainedBlock
  split
  · exact kept_modBlock (kept_self hb) ⟨fun _ => rfl, fun _ => rfl, fun _ => ⟨rfl, rfl, rfl, rfl⟩⟩ rfl ⟨rfl, rfl, rfl⟩
  · exact kept_self hb

theorem ops_drained (hops : i.b.ops = []) : (drainedBlock i).ops = [] := by
  unfold drainedBlock Block.discardDrains
  split
  · rw [hops]
    rfl
  · exact hops

/-- A group that owes no operation acquires nothing. -/
theorem groups_acquire (hops : b.ops = []) (grp : Nat) (sel : EngOp → Bool) : (b.acquire grp sel).groups = b.groups := by
  have hsame : (fun g : Group => { g.acquire [] with flags := g.flags ||| 0 }) = fun g => g := funext fun g =>
    congrArg (fun f : Flags => ({ g with flags := f } : Group)) BitVec.or_zero
  unfold Block.acquire
  rw [hops]
  exact (congrArg (modAt b.groups grp) hsame).trans (modAt_id _ _)

/-- The machine with the group's operations acquired. -/
def acquired (i : Iss) : State := (drained i).modBlock i.gr.blk fun b => b.acquire i.gr.grp (exitOwes i.gr.grp i.lastExit)

theorem kept_acquired (hb : i.s.block? i.gr.blk = some i.b) (hops : i.b.ops = []) :
    Kept i (acquired i) ((drainedBlock i).acquire i.gr.grp (exitOwes i.gr.grp i.lastExit)) :=
  kept_modBlock (kept_drained hb) (stays_acquire _ _) (groups_acquire (ops_drained hops) _ _) ⟨rfl, rfl, rfl⟩

theorem ops_acquired (hops : i.b.ops = []) : ((drainedBlock i).acquire i.gr.grp (exitOwes i.gr.grp i.lastExit)).ops = [] := by
  unfold Block.acquire
  rw [ops_drained hops]
  rfl

/-! ## The instruction's ways -/

/-- EXIT as far as its wait for operations. -/
theorem exec_exit {s : State} (hi : s.issue? = some i) (hb : i.s.block? i.gr.blk = some i.b) :
    exec .exit s = .next (i.conclude (if (drainedBlock i).ops.any fun o => exitOwes i.gr.grp i.lastExit o && !o.isDone then i.wait .exit (drained i)
      else match ((acquired i).group? i.gr).bind Group.flagTrap with
        | some t => .trapIn (acquired i) t
        | none => match ((i.vacate ((acquired i).modGroup i.gr fun g => g.exitLanes i.active)).completeCovered i.gr).bind fun s => s.settle i.gr settleFuel with
          | .error t => .trap t
          | .ok u => i.ordered u (.jump (if i.lastExit then u.modBlock i.gr.blk fun b => b.gangLost i.gr.grp else u) true))) := by
  have hblock : (if i.lastExit then i.s.modBlock i.gr.blk fun b => b.discardDrains i.gr.grp else i.s).block? i.gr.blk = some (drainedBlock i) := (kept_drained hb).block
  refine (run_issue hi _).trans (congrArg (fun r => Host.Outcome.next (i.conclude r)) ?_)
  dsimp only
  rw [hblock]
  rfl

/-- EXIT waits for an operation that the group owes. -/
theorem exit_waits {s : State} (hi : s.issue? = some i) (hb : i.s.block? i.gr.blk = some i.b) (hg : i.s.group? i.gr = some i.g) {o : EngOp} (ho : o ∈ i.b.ops)
    (harrived : o.arrived.contains i.gr.grp = true) (hopen : o.acquired.contains i.gr.grp = false) (hnot : o.isDone = false) (hdrain : isMdrn o.instr = false) :
    ∃ t, exec .exit s = .next t ∧ t.group? i.gr = some (waited i i.g .exit) := by
  have hmem : o ∈ (drainedBlock i).ops := by
    unfold drainedBlock
    split
    · exact List.mem_map.2 ⟨o, ho, by rw [hdrain]; rfl⟩
    · exact ho
  have howed : ((drainedBlock i).ops.any fun o => exitOwes i.gr.grp i.lastExit o && !o.isDone) = true := by
    refine List.any_eq_true.2 ⟨o, hmem, ?_⟩
    unfold exitOwes EngOp.owes
    rw [harrived, hopen, hnot, hdrain]
    cases i.lastExit <;> rfl
  refine ⟨_, (exec_exit hi hb).trans (congrArg (fun r => Host.Outcome.next (i.conclude r)) (if_pos howed)), ?_⟩
  obtain ⟨bl, hform⟩ := (kept_drained hb).form
  have hcycle : (drained i).cycle = i.s.cycle := by
    rw [hform]
  have hstart := (group?_kept (kept_drained hb) hb i.gr).trans hg
  have hstand := group?_modGroup_self (fun g => { (g.modSlot i.slotB Slot.resetLatch).noteReset i.slotB i.s.cycle with lastB := i.slotB })
    (group?_modGroup_self (fun g => g.modSlot i.slotB fun x => { x with wait := some .exit }) hstart)
  refine (group?_modGroup_self _ hstand).trans ?_
  unfold waited
  exact congrArg (fun c => some { ((i.g.modSlot i.slotB fun x => { x with wait := some Wait.exit }).modSlot i.slotB Slot.resetLatch).noteReset i.slotB i.s.cycle with
    lastB := i.slotB, since := c }) hcycle

/-- With no operation owed, a flag that is armed is EXIT's trap. -/
theorem exit_traps {s : State} (hi : s.issue? = some i) (hb : i.s.block? i.gr.blk = some i.b) (hg : i.s.group? i.gr = some i.g) (hops : i.b.ops = [])
    (hflag : i.g.flags &&& i.g.flagen ≠ 0) :
    exec .exit s = .next ((acquired i).raise i.gr i.slotB false i.reported (plainTrap .flag (i.g.flags &&& i.g.flagen).toNat) []) := by
  have htrap : ((acquired i).group? i.gr).bind Group.flagTrap = some (plainTrap .flag (i.g.flags &&& i.g.flagen).toNat) := by
    rw [group?_kept (kept_acquired hb hops) hb, hg]
    exact if_neg hflag
  refine (exec_exit hi hb).trans (congrArg Host.Outcome.next ?_)
  rw [ops_drained hops, htrap]
  rfl

/-! ## The lanes leave -/

/-- The group with its slot's lanes exited. -/
def exitedGroup (i : Iss) : Group := vacated i (i.g.exitLanes i.active)

/-- The machine with the slot's lanes exited. -/
def exitedState (i : Iss) : State := i.vacate ((acquired i).modGroup i.gr fun g => g.exitLanes i.active)

def exitedTokens (i : Iss) : List Token := i.g.tokens.map fun k => { k with exp := k.exp &&& ~~~ i.active, arr := k.arr &&& ~~~ i.active }

theorem emptied_exited (i : Iss) : Emptied i (exitedTokens i) (i.g.exited ||| i.active) (exitedGroup i) := by
  unfold exitedGroup vacated
  refine ⟨?_, slot_modSlot_not _ _ _, ?_, ?_, ?_⟩
  · rw [slot_modSlot]
    rfl
  · cases i.slotB <;> rfl
  · cases i.slotB <;> rfl
  · rw [still_modSlot]
    rfl

theorem moved_exited (hb : i.s.block? i.gr.blk = some i.b) (hg : i.s.group? i.gr = some i.g) (hops : i.b.ops = []) :
    Moved i.gr (acquired i) (exitedState i) (exitedGroup i) := by
  have hstart : (acquired i).group? i.gr = some i.g := (group?_kept (kept_acquired hb hops) hb _).trans hg
  have hmoved := moved_modGroup hstart fun g => g.exitLanes i.active
  exact moved_trans hmoved (moved_modGroup hmoved.group (vacated i))

theorem masks_exited (e a x r : Lanes) : e &&& ~~~ a &&& ~~~ (x ||| a) &&& ~~~ (r &&& ~~~ a) = e &&& ~~~ a &&& ~~~ x &&& ~~~ r := by
  ext n
  simp only [BitVec.getElem_and, BitVec.getElem_or, BitVec.getElem_not]
  cases a[n]
  · simp
  · simp

/-- What stands of a token still waits for lanes, or no lane stands for it. -/
theorem token_uncovered (hlen : i.g.tokens.length = 16)
    (htokens : ∀ k ∈ i.g.tokens, k.exp &&& ~~~ i.active = 0 ∨ k.exp &&& ~~~ i.active &&& ~~~ i.g.exited &&& ~~~ k.arr ≠ 0) {n : Nat} (hn : n < 16) :
    (((exitedGroup i).token n).exp != 0 && (exitedGroup i).covered n) = false := by
  have hin : n < i.g.tokens.length := hlen ▸ hn
  have htoken : (exitedGroup i).token n = { i.g.tokens[n] with exp := i.g.tokens[n].exp &&& ~~~ i.active, arr := i.g.tokens[n].arr &&& ~~~ i.active } := by
    unfold Group.token
    rw [(emptied_exited i).tokens]
    unfold exitedTokens
    rw [List.getD_eq_getElem?_getD, List.getElem?_map, List.getElem?_eq_getElem hin]
    rfl
  unfold Group.covered
  rw [htoken, (emptied_exited i).exited]
  dsimp only
  rw [masks_exited]
  rcases htokens _ (List.getElem_mem hin) with hzero | hopen
  · rw [hzero]
    rfl
  · rw [beq_eq_false_iff_ne.2 hopen, Bool.and_false]

theorem foldlM_same {α : Type} {f : State → α → Except Trap State} {u : State} {l : List α} (h : ∀ x ∈ l, f u x = .ok u) : l.foldlM f u = .ok u := by
  induction l with
  | nil => rfl
  | cons x l ih =>
    rw [List.foldlM_cons, h x (List.mem_cons_self ..)]
    exact ih fun y hy => h y (List.mem_cons_of_mem _ hy)

/-- No token completes. -/
theorem completeCovered_none {u : State} {g : Group} (hu : u.group? i.gr = some g) (h : ∀ n, n < 16 → ((g.token n).exp != 0 && g.covered n) = false) :
    u.completeCovered i.gr = .ok u := by
  refine foldlM_same fun n hn => ?_
  simp only [hu]
  rw [h n (List.mem_range.1 hn), if_neg Bool.false_ne_true]

/-- The lanes' exit as far as the stack's turn. -/
theorem exec_exit_left {s : State} (hi : s.issue? = some i) (hb : i.s.block? i.gr.blk = some i.b) (hg : i.s.group? i.gr = some i.g) (hops : i.b.ops = [])
    (hflag : i.g.flags &&& i.g.flagen = 0) (hlen : i.g.tokens.length = 16)
    (htokens : ∀ k ∈ i.g.tokens, k.exp &&& ~~~ i.active = 0 ∨ k.exp &&& ~~~ i.active &&& ~~~ i.g.exited &&& ~~~ k.arr ≠ 0) {u : State}
    (hsettle : (exitedState i).settle i.gr settleFuel = .ok u) (hordered : ∀ r, i.ordered u r = r) :
    exec .exit s = .next (i.conclude (.jump (if i.lastExit then u.modBlock i.gr.blk fun b => b.gangLost i.gr.grp else u) true)) := by
  have hnone : ((acquired i).group? i.gr).bind Group.flagTrap = none := by
    rw [group?_kept (kept_acquired hb hops) hb, hg]
    exact if_pos hflag
  have hcovered := completeCovered_none (moved_exited hb hg hops).group fun n hn => token_uncovered hlen htokens hn
  refine (exec_exit hi hb).trans (congrArg (fun r => Host.Outcome.next (i.conclude r)) ?_)
  rw [ops_drained hops, hnone]
  show (match ((exitedState i).completeCovered i.gr).bind fun s => s.settle i.gr settleFuel with
    | .error t => Res.trap t
    | .ok u => i.ordered u (.jump (if i.lastExit then u.modBlock i.gr.blk fun b => b.gangLost i.gr.grp else u) true)) = _
  rw [hcovered]
  show (match (exitedState i).settle i.gr settleFuel with
    | .error t => Res.trap t
    | .ok u => i.ordered u (.jump (if i.lastExit then u.modBlock i.gr.blk fun b => b.gangLost i.gr.grp else u) true)) = _
  rw [hsettle]
  exact hordered _

/-- Where the group loses its last lanes and owes nothing, no gang loses it. -/
theorem lost_none {u : State} {b : Block} (hu : u.block? i.gr.blk = some b) (hops : b.ops = []) :
    (∀ gr, State.group? (if i.lastExit then u.modBlock i.gr.blk fun b => b.gangLost i.gr.grp else u) gr = u.group? gr) ∧
      ∀ l, State.byte (if i.lastExit then u.modBlock i.gr.blk fun b => b.gangLost i.gr.grp else u) l = u.byte l := by
  split
  · have hstays : Stays fun b => b.gangLost i.gr.grp := stays_gangLost _
    have hsame : b.gangLost i.gr.grp = b := gangLost_of_none fun o ho => by
      rw [hops] at ho
      exact absurd ho List.not_mem_nil
    refine ⟨fun gr => ?_, fun l => byte_modBlock u _ _ l hstays.id hstays.stores⟩
    unfold State.group?
    rw [block?_modBlock _ _ _ _ hstays.id]
    split
    next hn => rw [hn, hu, Option.map_some, hsame]
    · rfl
  · exact ⟨fun _ => rfl, fun _ => rfl⟩

/-- The end of an EXIT that leaves its group as g'. -/
theorem conclude_exit {u : State} {b : Block} {g' : Group} (hu : u.block? i.gr.blk = some b) (hops : b.ops = []) (hg : u.group? i.gr = some g') :
    let t := i.conclude (.jump (if i.lastExit then u.modBlock i.gr.blk fun b => b.gangLost i.gr.grp else u) true)
    (∃ since, t.group? i.gr = some (marked i since g')) ∧ (∀ gr, gr ≠ i.gr → t.group? gr = u.group? gr) ∧ ∀ l, t.byte l = u.byte l := by
  obtain ⟨hgroups, hbytes⟩ := lost_none hu hops
  generalize (if i.lastExit then u.modBlock i.gr.blk fun b => b.gangLost i.gr.grp else u) = lost at hgroups hbytes ⊢
  refine ⟨⟨_, (group?_modGroup_self _ (group?_modGroup_self (fun g => { g with lastB := i.slotB }) ((hgroups i.gr).trans hg)))⟩, fun gr hgr => ?_, fun l => ?_⟩
  · exact (group?_modGroup_ne _ hgr).trans ((group?_modGroup_ne _ hgr).trans (hgroups gr))
  · exact (byte_modGroup _ _ _ l).trans ((byte_setCore _ _ _ l).trans ((byte_modGroup _ _ _ l).trans (hbytes l)))

/-- With an empty stack a group is settled that has lanes, or that no lane has arrived for. -/
theorem settle_rest {u : State} {gr : GRef} {g : Group} (hg : u.group? gr = some g) (hempty : g.stackEmpty = true)
    (h : (g.slotA.isFree && g.slotB.isFree) = true → ∀ n, n < 16 → (g.token n).arr = 0) (n : Nat) : u.settle gr (n + 1) = .ok u := by
  cases hfree : g.slotA.isFree && g.slotB.isFree with
  | false => exact settle_none hg (.inl hempty) hfree n
  | true =>
    have hnone : (List.range 16).find? (fun t => (g.token t).arr != 0) = none := List.find?_eq_none.2 fun t ht => by
      rw [h hfree t (List.mem_range.1 ht)]
      decide
    unfold State.settle
    simp only [hg, refill_none hg (.inl hempty), bind, Except.bind, hfree, if_true, hnone]

/-- The group's last lanes leave no lane at a token. -/
theorem settle_exited (hb : i.s.block? i.gr.blk = some i.b) (hg : i.s.group? i.gr = some i.g) (hops : i.b.ops = []) (hempty : i.g.stackEmpty = true)
    (hlast : (i.g.slot (!i.slotB)).isFree = true → i.g.tokens = List.replicate 16 Token.idle) : (exitedState i).settle i.gr settleFuel = .ok (exitedState i) := by
  have hemptied := emptied_exited i
  refine settle_rest (moved_exited hb hg hops).group ((stack_emptied hemptied).2.2.2.trans hempty) (fun hfree n hn => ?_) 39
  have hother : (i.g.slot (!i.slotB)).isFree = true := by
    rw [← hemptied.other]
    obtain ⟨hA, hB⟩ := Bool.and_eq_true_iff.1 hfree
    cases i.slotB
    · exact hB
    · exact hA
  unfold Group.token
  rw [hemptied.tokens]
  unfold exitedTokens
  rw [hlast hother, List.map_replicate, List.getD_eq_getElem?_getD, List.getElem?_replicate, if_pos hn]
  exact BitVec.zero_and

theorem live_exited (i : Iss) : i.g.launched &&& ~~~ (i.g.exited ||| i.active) = i.g.live &&& ~~~ i.active := by
  unfold Group.live
  ext n
  simp only [BitVec.getElem_and, BitVec.getElem_or, BitVec.getElem_not, Bool.not_or, Bool.and_assoc]

end

/-- The slot that the exited lanes have left takes the youngest entry. -/
theorem settle_popping {i : Iss} (hb : i.s.block? i.gr.blk = some i.b) (hg : i.s.group? i.gr = some i.g) (hops : i.b.ops = [])
    (hbusy : (i.g.slot (!i.slotB)).isFree = false) (hstack : i.g.stackEmpty = false) {bs : List Byte} {loaded : Bool} (htop : i.TopEntry bs loaded)
    (hx : (i.entrySlot (i.g.live &&& ~~~ i.active) bs loaded).mask ≠ 0) (hfit : i.FitsBeside (i.entrySlot (i.g.live &&& ~~~ i.active) bs loaded).wb) :
    ∃ u top qs, (exitedState i).settle i.gr settleFuel = .ok u ∧ Moved i.gr { exitedState i with reqs := qs } u
      (topped (took (exitedGroup i) i.slotB (i.entrySlot (i.g.live &&& ~~~ i.active) bs loaded)) top) := by
  have hemptied := emptied_exited i
  have hkept := kept_acquired hb hops
  have hmoved := moved_exited hb hg hops
  obtain ⟨hat, -, hend, hempty⟩ := stack_emptied hemptied
  obtain ⟨f, hf⟩ := hmoved.form
  obtain ⟨bl, hbl⟩ := hkept.form
  have hform : exitedState i = { i.s with blocks := (exitedState i).blocks } := by
    rw [hf, hbl]
    rfl
  have hblock : (exitedState i).block? i.gr.blk = some (((drainedBlock i).acquire i.gr.grp (exitOwes i.gr.grp i.lastExit)).modGroup i.gr.grp f) := by
    rw [hf]
    exact block?_modGroup_self f hkept.block
  have hslot : popped (exitedState i) (exitedGroup i).live bs loaded = i.entrySlot (i.g.live &&& ~~~ i.active) bs loaded := by
    unfold popped Iss.entrySlot
    rw [live_emptied hemptied, live_exited, hform]
    rfl
  have htakes : takes (exitedGroup i) = i.slotB := by
    rw [takes_emptied hemptied, hbusy, Bool.not_false, Bool.and_true]
  have hwho : i.s.groupWho (((drainedBlock i).acquire i.gr.grp (exitOwes i.gr.grp i.lastExit)).modGroup i.gr.grp f) i.g i.gr.grp = i.s.groupWho i.b i.g i.gr.grp := by
    obtain ⟨hctx, hplace, hpos⟩ := hkept.who
    have hblockOf : ∀ c : Block, c.ctx = i.b.ctx → c.place = i.b.place → c.pos = i.b.pos → i.s.groupWho c i.g i.gr.grp = i.s.groupWho i.b i.g i.gr.grp :=
      fun c hctx hplace hpos => by
        unfold State.groupWho
        rw [hctx, hplace, hpos]
    exact hblockOf _ hctx hplace hpos
  have hentry : TopEntryOf (exitedState i) i.gr (exitedGroup i) bs loaded :=
    entry_emptied hemptied hb hg hform hblock hmoved.group (fun l => (moved_byte hmoved l).trans (hkept.bytes l)) hwho htop
  obtain ⟨u, top, qs, hsettle, hpop⟩ := settle_entry hmoved.group hentry (hempty.trans hstack) (free_takes hemptied) (by rw [hslot]; exact hx)
    (by rw [hslot]; exact resident_takes hemptied hfit) (by rw [hat]; exact htop.1) (fun hspare => by
      rw [htakes, hemptied.other] at hspare
      exact absurd (hspare.symm.trans hbusy) (by decide)) 39
  rw [hslot, htakes] at hpop
  exact ⟨u, top, qs, hsettle, hpop⟩

/-- EXIT's end where another slot's lanes stand and the stack has an entry. -/
theorem exit_pops {s : State} {i : Iss} (hi : s.issue? = some i) (hb : i.s.block? i.gr.blk = some i.b) (hg : i.s.group? i.gr = some i.g) (hops : i.b.ops = [])
    (hflag : i.g.flags &&& i.g.flagen = 0) (hlen : i.g.tokens.length = 16) (hbusy : (i.g.slot (!i.slotB)).isFree = false)
    (htokens : ∀ k ∈ i.g.tokens, k.exp &&& ~~~ i.active = 0 ∨ k.exp &&& ~~~ i.active &&& ~~~ i.g.exited &&& ~~~ k.arr ≠ 0) (hstack : i.g.stackEmpty = false)
    {bs : List Byte} {loaded : Bool} (htop : i.TopEntry bs loaded) (hx : (i.entrySlot (i.g.live &&& ~~~ i.active) bs loaded).mask ≠ 0)
    (hfit : i.FitsBeside (i.entrySlot (i.g.live &&& ~~~ i.active) bs loaded).wb) :
    ∃ t g', exec .exit s = .next t ∧ i.Popped i.slotB (i.entrySlot (i.g.live &&& ~~~ i.active) bs loaded) t g' ∧ g'.slot (!i.slotB) = i.g.slot (!i.slotB) ∧
      g'.exited = i.g.exited ||| i.active ∧ g'.tokens = exitedTokens i := by
  obtain ⟨u, top, qs, hsettle, hpop⟩ := settle_popping hb hg hops hbusy hstack htop hx hfit
  have hemptied := emptied_exited i
  have hkept := kept_acquired hb hops
  have hmoved := moved_exited hb hg hops
  obtain ⟨bl, hbl⟩ := hkept.form
  have hpins : u.pins = i.s.pins := by
    refine (moved_pins hpop).trans ((moved_pins hmoved : (exitedState i).pins = _).trans ?_)
    rw [hbl]
  have hexec := exec_exit_left hi hb hg hops hflag hlen htokens hsettle (ordered_popped hpop.group (by
    refine Eq.trans ?_ (range_emptied hemptied).1
    cases i.slotB <;> rfl) (by
    refine Eq.trans ?_ (congrArg (· + 16) (stack_emptied hemptied).1)
    cases i.slotB <;> rfl) htop hpins)
  obtain ⟨f, hf⟩ := hmoved.form
  obtain ⟨f', hf'⟩ := hpop.form
  have hblock : u.block? i.gr.blk =
      some ((((drainedBlock i).acquire i.gr.grp (exitOwes i.gr.grp i.lastExit)).modGroup i.gr.grp f).modGroup i.gr.grp f') := by
    rw [hf']
    refine block?_modGroup_self f' ((block?_reqs _ _ _).trans ?_)
    rw [hf]
    exact block?_modGroup_self f hkept.block
  obtain ⟨⟨since, hgroup⟩, hothers, hbytes⟩ := conclude_exit hblock (ops_acquired hops) hpop.group
  obtain ⟨hpopped, hexited, htok, hspare⟩ := popped_emptied (since := since) hemptied hgroup rfl
    (fun gr hgr => (hothers gr hgr).trans ((moved_others hpop hgr).trans ((group?_reqs _ _ _).trans ((moved_others hmoved hgr).trans (group?_kept hkept hb gr)))))
    fun l => (hbytes l).trans ((moved_byte hpop l).trans ((byte_reqs _ _ _).trans ((moved_byte hmoved l).trans (hkept.bytes l))))
  exact ⟨_, _, hexec, hpopped, hspare.trans hemptied.other, hexited, htok⟩

/-- Settles O23: EXIT waits, traps, or ends its lanes; the slot takes the youngest stack entry. -/
theorem exits : Obligations.Exits := by
  unfold Obligations.Exits
  intro s i hi
  obtain ⟨hs, hb, hg⟩ := issue_facts hi
  rw [← hs] at hb hg
  refine ⟨fun o ho harrived hopen hnot hdrain => ?_, fun hops hflag => ?_, fun hops hflag hactive hempty hlen hlast htokens => ?_,
    fun bs loaded hops hflag hactive hlen hbusy htokens hstack htop hx hfit => ?_⟩
  · obtain ⟨t, hexec, hgroup⟩ := exit_waits hi hb hg ho harrived hopen hnot hdrain
    have hslot := slot_waited i .exit i.g
    have hstill := still_waited i .exit i.g
    refine ⟨t, _, hexec, hgroup, ?_, ?_, ?_, (congrArg Group.exited hstill :), ?_, (congrArg Group.v hstill :), (congrArg Group.s hstill :), (congrArg Group.flags hstill :)⟩
    · rw [hslot]
      rfl
    · rw [hslot]
      rfl
    · rw [hslot]
      rfl
    · unfold waited
      cases i.slotB <;> rfl
  · exact ⟨acquired i, exit_traps hi hb hg hops hflag, fun gr => (group?_kept (kept_acquired hb hops) hb gr).trans (by rw [hs]),
      fun l => ((kept_acquired hb hops).bytes l).trans (by rw [hs])⟩
  · have hemptied := emptied_exited i
    have hkept := kept_acquired hb hops
    have hmoved := moved_exited hb hg hops
    have hexec := exec_exit_left hi hb hg hops hflag hlen htokens (settle_exited hb hg hops hempty fun hother => (hlast hother).2)
      (ordered_in_place hmoved.group (range_emptied hemptied).1 (stack_emptied hemptied).1)
    obtain ⟨f, hf⟩ := hmoved.form
    have hblock : (exitedState i).block? i.gr.blk = some (((drainedBlock i).acquire i.gr.grp (exitOwes i.gr.grp i.lastExit)).modGroup i.gr.grp f) := by
      rw [hf]
      exact block?_modGroup_self f hkept.block
    obtain ⟨⟨since, hgroup⟩, hothers, hbytes⟩ := conclude_exit hblock (ops_acquired hops) hmoved.group
    refine ⟨_, _, hexec, hgroup, fun gr hgr => ?_, fun l => ?_, hemptied.free, hemptied.other, hemptied.exited, (live_emptied hemptied).trans (live_exited i), hemptied.tokens, hemptied.still⟩
    · exact (hothers gr hgr).trans ((moved_others hmoved hgr).trans ((group?_kept hkept hb gr).trans (by rw [hs])))
    · exact (hbytes l).trans ((moved_byte hmoved l).trans ((hkept.bytes l).trans (by rw [hs])))
  · exact exit_pops hi hb hg hops hflag hlen hbusy htokens hstack htop hx hfit

end Sys2Proof.Proofs.Exiting
end

section
/-! SUPPORT. The checks of an instruction's accesses, and its acceptance (R128, R148, R254, R391): O13. -/

namespace Sys2Proof.Proofs.Accepting

open Sys2Proof Sys2Proof.Machine Sys2Proof.Laws Sys2Proof.Proofs.Checks

/-! ## The lowest failing lane -/

section
variable (s : State) (who : Who) (b : Block) (core : Option Nat)

/-- The traps of the accesses that fail, in their order. -/
def failures (reqs : List (Nat × Req)) (rep : Nat → Word → Word) : List Trap :=
  (reqs.map fun x => (x.1, s.check who b core x.2 true)).filterMap fun x => match x.2 with
    | .error t => some { t with lane := x.1 % 100, addr := rep x.1 t.addr }
    | .ok _ => none

/-- The places of the accesses that pass. -/
def places (reqs : List (Nat × Req)) : List (Nat × Loc × Bool × Bool) :=
  (reqs.map fun x => (x.1, s.check who b core x.2 true)).filterMap fun x => match x.2 with
    | .ok a => some (x.1, a.loc, a.watch, a.ckpt)
    | .error _ => none

/-- The answer to a list of accesses, by the traps of those that fail. -/
def verdict (ps : List (Nat × Loc × Bool × Bool)) : List Trap → Except Trap (List (Nat × Loc × Bool × Bool))
  | [] => .ok ps
  | t :: ts => .error ((ts.filter fun u => u.lane == t.lane).foldl Trap.first t)

theorem checkLanes_eq (reqs : List (Nat × Req)) (rep : Nat → Word → Word) :
    s.checkLanes who b core reqs rep = verdict (places s who b core reqs) (failures s who b core reqs rep) := rfl

/-- What an access is granted; that of one that fails counts for nothing. -/
def granted (q : Req) : Acc :=
  match s.check who b core q true with
  | .ok a => a
  | .error _ => ⟨⟨.pkg, 0⟩, false, false, false⟩

end

section
variable {s : State} {who : Who} {b : Block} {core : Option Nat} {reqs : List (Nat × Req)} {rep : Nat → Word → Word}

theorem granted_of_ok {q : Req} {a : Acc} (h : s.check who b core q true = .ok a) : granted s who b core q = a := by
  unfold granted
  rw [h]

theorem mem_failures {t : Trap} : t ∈ failures s who b core reqs rep ↔
    ∃ x ∈ reqs, ∃ f, s.check who b core x.2 true = .error f ∧ t = { f with lane := x.1 % 100, addr := rep x.1 f.addr } := by
  unfold failures
  rw [List.filterMap_map, List.mem_filterMap]
  refine exists_congr fun x => and_congr_right fun _ => ?_
  dsimp only [Function.comp]
  cases s.check who b core x.2 true with
  | error f => exact ⟨fun h => ⟨f, rfl, (Option.some.inj h).symm⟩, fun ⟨f', hf, ht⟩ => by cases hf; rw [ht]⟩
  | ok a => exact ⟨fun h => (nomatch h), fun ⟨f', hf, _⟩ => (nomatch hf)⟩

theorem failures_eq_nil : failures s who b core reqs rep = [] ↔ ∀ x ∈ reqs, ∃ a, s.check who b core x.2 true = .ok a := by
  rw [List.eq_nil_iff_forall_not_mem]
  refine ⟨fun h x hx => ?_, fun h t ht => ?_⟩
  · cases hc : s.check who b core x.2 true with
    | ok a => exact ⟨a, rfl⟩
    | error f => exact absurd (mem_failures.2 ⟨x, hx, f, hc, rfl⟩) (h _)
  · obtain ⟨x, hx, f, hf, -⟩ := mem_failures.1 ht
    obtain ⟨a, ha⟩ := h x hx
    exact nomatch hf.symm.trans ha

theorem checkLanes_of_ok {f : Nat × Req → Acc} (h : ∀ x ∈ reqs, s.check who b core x.2 true = .ok (f x)) :
    s.checkLanes who b core reqs rep = .ok (reqs.map fun x => (x.1, (f x).loc, (f x).watch, (f x).ckpt)) := by
  rw [checkLanes_eq, failures_eq_nil.2 fun x hx => ⟨f x, h x hx⟩]
  refine congrArg Except.ok ?_
  unfold places
  rw [List.filterMap_map, ← List.filterMap_eq_map]
  refine List.filterMap_congr fun x hx => ?_
  dsimp only [Function.comp]
  rw [h x hx]

theorem checks_of_checkLanes {accs : List (Nat × Loc × Bool × Bool)} (h : s.checkLanes who b core reqs rep = .ok accs) :
    ∀ x ∈ reqs, ∃ a, s.check who b core x.2 true = .ok a := by
  rw [checkLanes_eq] at h
  refine (failures_eq_nil (rep := rep)).1 ?_
  revert h
  cases failures s who b core reqs rep with
  | nil => exact fun _ => rfl
  | cons t ts => exact fun h => nomatch h

theorem foldl_first (ts : List Trap) (t : Trap) :
    (ts.foldl Trap.first t = t ∨ ts.foldl Trap.first t ∈ ts) ∧ (ts.foldl Trap.first t).memRank ≤ t.memRank ∧ ∀ u ∈ ts, (ts.foldl Trap.first t).memRank ≤ u.memRank := by
  induction ts generalizing t with
  | nil => exact ⟨.inl rfl, le_rfl, fun u hu => absurd hu List.not_mem_nil⟩
  | cons v ts ih =>
    obtain ⟨hmem, hle, hall⟩ := ih (t.first v)
    have hfirst : (t.first v = t ∨ t.first v = v) ∧ (t.first v).memRank ≤ t.memRank ∧ (t.first v).memRank ≤ v.memRank := by
      unfold Trap.first
      split
      · exact ⟨.inr rfl, by omega, le_rfl⟩
      · exact ⟨.inl rfl, le_rfl, by omega⟩
    refine ⟨?_, hle.trans hfirst.2.1, fun u hu => ?_⟩
    · rcases hmem with heq | hin
      · rcases hfirst.1 with hold | hnew
        · exact .inl (heq.trans hold)
        · exact .inr (List.mem_cons.2 (.inl (heq.trans hnew)))
      · exact .inr (List.mem_cons_of_mem _ hin)
    · rcases List.mem_cons.1 hu with rfl | hu
      · exact hle.trans hfirst.2.2
      · exact hall u hu

/-- A failing list of accesses gives the trap that ranks first of those of the lowest lane that fails. -/
theorem checkLanes_error (hsorted : reqs.Pairwise fun x y => x.1 % 100 ≤ y.1 % 100) {e : Trap} (h : s.checkLanes who b core reqs rep = .error e) :
    e ∈ failures s who b core reqs rep ∧ ∀ t ∈ failures s who b core reqs rep, e.lane ≤ t.lane ∧ (e.lane = t.lane → e.memRank ≤ t.memRank) := by
  rw [checkLanes_eq] at h
  have hlanes : (failures s who b core reqs rep).Pairwise fun t u => t.lane ≤ u.lane := by
    unfold failures
    rw [List.filterMap_map, List.pairwise_filterMap]
    refine hsorted.imp fun {x y} hxy t ht u hu => ?_
    dsimp only [Function.comp] at ht hu
    cases hx : s.check who b core x.2 true with
    | ok a =>
      rw [hx] at ht
      cases ht
    | error f =>
      cases hy : s.check who b core y.2 true with
      | ok a =>
        rw [hy] at hu
        cases hu
      | error f' =>
        rw [hx] at ht
        rw [hy] at hu
        cases ht
        cases hu
        exact hxy
  revert h hlanes
  cases failures s who b core reqs rep with
  | nil => exact fun h _ => nomatch h
  | cons t ts =>
    intro h hlanes
    obtain rfl : (ts.filter fun u => u.lane == t.lane).foldl Trap.first t = e := Except.error.inj h
    obtain ⟨hmem, hle, hall⟩ := foldl_first (ts.filter fun u => u.lane == t.lane) t
    obtain ⟨hhead, -⟩ := List.pairwise_cons.1 hlanes
    have hlane : ((ts.filter fun u => u.lane == t.lane).foldl Trap.first t).lane = t.lane := by
      rcases hmem with heq | hin
      · rw [heq]
      · exact beq_iff_eq.1 (List.mem_filter.1 hin).2
    refine ⟨?_, fun u hu => ?_⟩
    · rcases hmem with heq | hin
      · exact List.mem_cons.2 (.inl heq)
      · exact List.mem_cons_of_mem _ (List.mem_filter.1 hin).1
    · rw [hlane]
      rcases List.mem_cons.1 hu with rfl | hu
      · exact ⟨le_rfl, fun _ => hle⟩
      · exact ⟨hhead u hu, fun heq => hall u (List.mem_filter.2 ⟨hu, beq_iff_eq.2 heq.symm⟩)⟩

end

theorem lanesOf_sorted (m : Lanes) : (lanesOf m).Pairwise (· < ·) := List.pairwise_lt_range.filter _

/-- The lists of accesses of O13: their lanes rise, and each names its own. -/
theorem checkLanes_plain {s : State} {who : Who} {b : Block} {core : Option Nat} {reqs : List (Nat × Req)} (hlanes : ∀ x ∈ reqs, x.1 < 32)
    (hsorted : reqs.Pairwise fun x y => x.1 ≤ y.1) :
    (∀ accs, s.checkLanes who b core reqs = .ok accs ↔ ∃ f : Nat × Req → Acc, (∀ x ∈ reqs, s.check who b core x.2 true = .ok (f x)) ∧
      accs = reqs.map fun x => (x.1, (f x).loc, (f x).watch, (f x).ckpt)) ∧
    ∀ e, s.checkLanes who b core reqs = .error e → (∃ x ∈ reqs, ∃ f, s.check who b core x.2 true = .error f ∧ e = { f with lane := x.1 }) ∧
      ∀ x ∈ reqs, ∀ f, s.check who b core x.2 true = .error f → e.lane ≤ x.1 ∧ (e.lane = x.1 → e.memRank ≤ f.memRank) := by
  refine ⟨fun accs => ⟨fun h => ?_, fun ⟨f, hf, haccs⟩ => haccs ▸ checkLanes_of_ok hf⟩, fun e he => ?_⟩
  · have hgranted : ∀ x ∈ reqs, s.check who b core x.2 true = .ok (granted s who b core x.2) := fun x hx => by
      obtain ⟨a, ha⟩ := checks_of_checkLanes h x hx
      rw [granted_of_ok ha, ha]
    exact ⟨fun x => granted s who b core x.2, hgranted, Except.ok.inj (h.symm.trans (checkLanes_of_ok (f := fun x => granted s who b core x.2) hgranted))⟩
  · have hmod : ∀ x ∈ reqs, x.1 % 100 = x.1 := fun x hx => Nat.mod_eq_of_lt ((hlanes x hx).trans (by decide))
    obtain ⟨hmem, hmin⟩ := checkLanes_error (hsorted.imp_of_mem fun {x y} hx hy hxy => by rw [hmod x hx, hmod y hy]; exact hxy) he
    refine ⟨?_, fun x hx f hf => ?_⟩
    · obtain ⟨x, hx, f, hf, rfl⟩ := mem_failures.1 hmem
      exact ⟨x, hx, f, hf, by rw [hmod x hx]⟩
    · have := hmin _ (mem_failures.2 ⟨x, hx, f, hf, rfl⟩)
      rw [← hmod x hx]
      exact this

/-! ## The instruction that is next -/

/-- ACCESS_PERFORM of an instruction that is next to be accepted: b is its block, g its group. -/
structure NextIn (s : State) (gr : GRef) (b : Block) (g : Group) (k : Nat) (m : MemOp) : Prop where
  block : s.block? gr.blk = some b
  group : s.group? gr = some g
  placed : b.place.isSome
  going : b.aborted = false
  home : g.awaitsHome = false
  at_ : g.memq[k]? = some m
  waiting : m.accepted = false
  before : ∀ n ∈ g.memq.take k, n.accepted = true

section
variable {s : State} {gr : GRef} {b : Block} {g : Group} {k : Nat} {m : MemOp} (h : NextIn s gr b g k m)
include h

theorem find?_waiting : g.memq.find? (fun n => !n.accepted) = some m := by
  have hlt : k < g.memq.length := (List.getElem?_eq_some_iff.1 h.at_).1
  have hget : g.memq[k] = m := (List.getElem?_eq_some_iff.1 h.at_).2
  rw [List.find?_eq_some_iff_append]
  refine ⟨by rw [h.waiting]; rfl, g.memq.take k, g.memq.drop (k + 1), ?_, fun n hn => ?_⟩
  · rw [← hget, List.getElem_cons_drop, List.take_append_drop]
  · rw [h.before n hn]
    rfl

/-- What ACCESS_PERFORM makes of an acceptance. -/
def accessed (gr : GRef) (r : State × Option (Nat × Trap)) : State :=
  match r.2 with
  | some t => r.1.ifPinned gr (r.1.memoryTrap gr t.1 t.2)
  | none => r.1

theorem exec_next (lanes : BitVec 32) : exec (.accessPerform gr k lanes) s = .next (accessed gr (s.acceptNext gr 1)) := by
  show execAccessPerform gr k lanes s = _
  have hall : (g.memq.take k).all (·.accepted) = true := List.all_eq_true.2 h.before
  have hplaced : b.place.isNone = false := by
    rw [← Option.not_isSome, h.placed]
    rfl
  unfold execAccessPerform
  simp only [h.block, h.group, h.at_, h.waiting, hplaced, h.going, h.home, hall, Bool.false_eq_true, if_false, Bool.not_true, Bool.or_false]
  unfold accessed
  rcases s.acceptNext gr 1 with ⟨u, t⟩
  cases t <;> rfl

end

/-! ## The entry of an accepted instruction into the group's order -/

/-- The instruction x has been accepted in place of m. -/
def entered (gr : GRef) (b : Block) (g : Group) (m : MemOp) (u : State) (x : MemOp) : State :=
  (u.claimStore (u.memWho b g gr.grp m) x).modGroup gr fun g => { g with memq := g.memq.map fun n => if n.id = m.id then { x with got := u.holdings x } else n }

/-- The instruction x, which has passed its checks, is accepted where its pins find room (R249, R252). -/
def admitted (gr : GRef) (b : Block) (g : Group) (m : MemOp) (s : State) (x : MemOp) : State :=
  let u := if s.pinRoom (s.newPins g.agent x) then s else s.pinRelease gr
  if u.pinRoom (u.newPins g.agent x) = false then u
  else if x.accs.any (fun y => isFarStore y.2.1.store) then ((entered gr b g m u x).requestAll x).performAccepted gr else entered gr b g m u x

/-- An instruction that is neither VGATH nor CPA. -/
structure Queued (i : Instr) : Prop where
  noGather : ∀ d r c x, i ≠ .vgath d r c x
  noCopy : ∀ d x c t, i ≠ .cpa d x c t

section
variable {s : State} {gr : GRef} {b : Block} {g : Group} {k : Nat} {m : MemOp} (h : NextIn s gr b g k m) (hq : Queued m.instr)
include h hq

theorem acceptNext_error {t : Trap} (ht : s.accept b g gr.grp m = .error t) (n : Nat) : s.acceptNext gr n = (s, some (m.id, t)) := by
  unfold State.acceptNext
  simp only [h.block, h.group, find?_waiting h]
  split
  next hi => exact absurd hi (hq.noGather _ _ _ _)
  next hi => exact absurd hi (hq.noCopy _ _ _ _)
  · rw [ht]

theorem acceptNext_later {x : MemOp} (hx : s.accept b g gr.grp m = .ok x) (hwait : x.accepted = false) (n : Nat) : s.acceptNext gr n = (s, none) := by
  unfold State.acceptNext
  simp only [h.block, h.group, find?_waiting h]
  split
  next hi => exact absurd hi (hq.noGather _ _ _ _)
  next hi => exact absurd hi (hq.noCopy _ _ _ _)
  · rw [hx]
    exact if_pos (by rw [hwait]; rfl)

theorem acceptNext_ok {x : MemOp} (hx : s.accept b g gr.grp m = .ok x) (hdone : x.accepted = true) (n : Nat) :
    s.acceptNext gr n = (admitted gr b g m s x, none) := by
  unfold State.acceptNext
  simp only [h.block, h.group, find?_waiting h]
  split
  next hi => exact absurd hi (hq.noGather _ _ _ _)
  next hi => exact absurd hi (hq.noCopy _ _ _ _)
  · rw [hx]
    dsimp only
    rw [if_neg (by rw [hdone]; decide)]
    unfold admitted
    dsimp only
    generalize (if s.pinRoom (s.newPins g.agent x) = true then s else s.pinRelease gr) = u
    cases u.pinRoom (u.newPins g.agent x) with
    | false => rfl
    | true =>
      simp only [if_true, Bool.true_eq_false, if_false]
      split <;> rfl

end

/-! ## The conflict with a write of a watched granule -/

/-- A check that stops, or comes to the race, the poison and the link of one place. -/
def Ends (s : State) (who : Who) (q : Req) (f : Bool → Except Trap Acc) : Prop :=
  (∃ t, ∀ r, f r = .error t) ∨ ∃ a, ∀ r, f r = s.lateChecks who q a r

section
variable {s : State} {who : Who} {q : Req}

theorem ends_error (t : Trap) : Ends s who q fun _ => .error t := .inl ⟨t, fun _ => rfl⟩

theorem ends_late (a : Acc) : Ends s who q fun r => s.lateChecks who q a r := .inr ⟨a, fun _ => rfl⟩

theorem ends_ite {c : Prop} [Decidable c] {t : Trap} {f : Bool → Except Trap Acc} (h : Ends s who q f) : Ends s who q fun r => if c then .error t else f r := by
  by_cases hc : c
  · simp only [if_pos hc]
    exact ends_error t
  · simp only [if_neg hc]
    exact h

theorem ends_global : Ends s who q fun r => s.checkGlobal who q r := by
  unfold State.checkGlobal
  refine ends_ite (ends_ite ?_)
  cases s.translate who.ctx who.tlb (va57 q.addr.toNat) with
  | error n => exact ends_error _
  | ok t =>
    refine ends_ite (ends_ite (ends_ite ?_))
    cases t.remote with
    | some p => exact ends_ite (ends_late _)
    | none => exact ends_late _

theorem ends_sp (b : Block) (core : Option Nat) : Ends s who q fun r => s.checkSp who b core q r := by
  unfold State.checkSp
  refine ends_ite (ends_ite (ends_ite (ends_ite ?_)))
  dsimp only
  generalize (if (bit q.addr.toNat 24 && bits q.addr.toNat 21 3 != b.spanIdx) = true
    then s.blocks.find? fun x => x.span == b.span && x.spanIdx == bits q.addr.toNat 21 3 && !x.aborted else some b) = target
  cases target with
  | none =>
    dsimp only
    split
    · exact ends_error _
    · exact ends_error _
  | some t => exact ends_ite (ends_ite (ends_ite (ends_ite (ends_late _))))

theorem ends_check (b : Block) (core : Option Nat) : Ends s who q fun r => s.check who b core q r := by
  unfold State.check
  cases q.space with
  | gl => exact ends_global
  | sp => exact ends_sp b core
  | wb | ab | cb => exact ends_ite (ends_ite (ends_ite (ends_ite (ends_ite (ends_late _)))))

/-- An access that passes but for a conflict is an MMX (R265, R268). -/
theorem check_raced {b : Block} {core : Option Nat} {a : Acc} {w : Writer} (hok : s.check who b core q false = .ok a) (hwatch : a.watch = true)
    (hrace : s.race? who a.loc q.n q.w = some w) : s.check who b core q true = .error ⟨.mmx, if q.w then 1 else 2, q.addr, 0, w.detail⟩ := by
  rcases ends_check (s := s) (who := who) (q := q) b core with ⟨t, ht⟩ | ⟨x, hx⟩
  · exact nomatch (ht false).symm.trans hok
  · obtain rfl := SyncWords.lateChecks_ok ((hx false).symm.trans hok)
    refine (hx true).trans ?_
    unfold State.lateChecks
    rw [hwatch, Bool.and_self, if_pos rfl, hrace]

end

end Sys2Proof.Proofs.Accepting
end

section
/-! SUPPORT. The acceptance of loads, stores, samples and copies (R128, R147, R148): O13. -/

namespace Sys2Proof.Proofs.Granting

open Sys2Proof Sys2Proof.Machine Sys2Proof.Laws Sys2Proof.Proofs.Accepting

/-! ## Loads and stores -/

/-- A load or store of one access in each lane. -/
structure Plain (i : Instr) : Prop where
  access : (isLoad i || isStore i) = true
  noGather : ∀ d r c x, i ≠ .vgath d r c x
  noSample : ∀ d a c hi, i ≠ .samp d a c hi ∧ i ≠ .sampg d a c hi

theorem queued_of_plain {i : Instr} (h : Plain i) : Queued i where
  noGather := h.noGather
  noCopy d x c t he := by
    have := h.access
    rw [he] at this
    exact Bool.false_ne_true this

section
variable {s : State} {gr : GRef} {b : Block} {g : Group} {k : Nat} {m : MemOp}

/-- The places of the helper lanes of a load. -/
def helpPlaces (s : State) (b : Block) (g : Group) (n : Nat) (m : MemOp) : List (Nat × Loc × Bool × Bool) :=
  if isLoad m.instr then s.helperLanes (s.memWho b g n m) b (coreIdx n) ((lanesOf m.help).map fun l => (l, m.req l)) else []

/-- The accesses of an instruction of one access in each lane. -/
def laneReqs (m : MemOp) : List (Nat × Req) := (lanesOf m.lanes).map fun l => (l, m.req l)

theorem accept_plain (hp : Plain m.instr) (n : Nat) : s.accept b g n m =
    (s.checkLanes (s.memWho b g n m) b (coreIdx n) (laneReqs m)).bind fun accs => .ok { m with accs := accs ++ helpPlaces s b g n m, accepted := true } := by
  unfold State.accept
  dsimp only
  split
  next he => exact absurd he ((queued_of_plain hp).noCopy _ _ _ _)
  next he => exact absurd he (hp.noSample _ _ _ _).1
  next he => exact absurd he (hp.noSample _ _ _ _).2
  · rfl

theorem mem_laneReqs {x : Nat × Req} : x ∈ laneReqs m ↔ ∃ l ∈ lanesOf m.lanes, x = (l, m.req l) := by
  unfold laneReqs
  rw [List.mem_map]
  exact exists_congr fun l => and_congr_right fun _ => eq_comm

theorem laneReqs_lt {x : Nat × Req} (hx : x ∈ laneReqs m) : x.1 < 32 := by
  obtain ⟨l, hl, rfl⟩ := mem_laneReqs.1 hx
  exact lanesOf_lt hl

theorem laneReqs_sorted (m : MemOp) : (laneReqs m).Pairwise fun x y => x.1 ≤ y.1 := by
  unfold laneReqs
  rw [List.pairwise_map]
  exact (lanesOf_sorted m.lanes).imp fun h => h.le

/-- What is left of a trap that the instruction takes. -/
def trapped (gr : GRef) (m : MemOp) (u : State) (e : Trap) : State :=
  if (u.memoryTrap gr m.id e).overPinned then u.pinRelease gr else u.memoryTrap gr m.id e

variable (h : NextIn s gr b g k m) (hp : Plain m.instr) (lanes : BitVec 32)
include h hp

theorem plain_accepted {f : Nat → Acc} (hf : ∀ l ∈ lanesOf m.lanes, s.check (s.memWho b g gr.grp m) b (coreIdx gr.grp) (m.req l) true = .ok (f l)) :
    exec (.accessPerform gr k lanes) s = .next (admitted gr b g m s
      { m with accs := ((lanesOf m.lanes).map fun l => (l, (f l).loc, (f l).watch, (f l).ckpt)) ++ helpPlaces s b g gr.grp m, accepted := true }) := by
  have hcheck : s.checkLanes (s.memWho b g gr.grp m) b (coreIdx gr.grp) (laneReqs m) =
      .ok ((lanesOf m.lanes).map fun l => (l, (f l).loc, (f l).watch, (f l).ckpt)) := by
    refine (checkLanes_of_ok (f := fun x => f x.1) fun x hx => ?_).trans (congrArg Except.ok (List.map_map ..))
    obtain ⟨l, hl, rfl⟩ := mem_laneReqs.1 hx
    exact hf l hl
  have haccept := accept_plain (s := s) (b := b) (g := g) hp gr.grp
  rw [hcheck] at haccept
  rw [exec_next h, acceptNext_ok h (queued_of_plain hp) haccept rfl]
  rfl

theorem plain_trapped {l : Nat} (hl : l ∈ lanesOf m.lanes) {e : Trap} (he : s.check (s.memWho b g gr.grp m) b (coreIdx gr.grp) (m.req l) true = .error e)
    (hlow : ∀ n ∈ lanesOf m.lanes, n < l → ∃ a, s.check (s.memWho b g gr.grp m) b (coreIdx gr.grp) (m.req n) true = .ok a) :
    exec (.accessPerform gr k lanes) s = .next (trapped gr m s { e with lane := l }) := by
  have hfail : s.checkLanes (s.memWho b g gr.grp m) b (coreIdx gr.grp) (laneReqs m) = .error { e with lane := l } := by
    obtain ⟨-, herror⟩ := checkLanes_plain (s := s) (who := s.memWho b g gr.grp m) (b := b) (core := coreIdx gr.grp) (fun x hx => laneReqs_lt hx) (laneReqs_sorted m)
    cases hc : s.checkLanes (s.memWho b g gr.grp m) b (coreIdx gr.grp) (laneReqs m) with
    | ok accs =>
      obtain ⟨a, ha⟩ := checks_of_checkLanes hc _ (mem_laneReqs.2 ⟨l, hl, rfl⟩)
      exact nomatch he.symm.trans ha
    | error t =>
      obtain ⟨⟨x, hx, f, hf, rfl⟩, hmin⟩ := herror t hc
      obtain ⟨n, hn, rfl⟩ := mem_laneReqs.1 hx
      have hle : n ≤ l := (hmin _ (mem_laneReqs.2 ⟨l, hl, rfl⟩) e he).1
      rcases Nat.lt_or_eq_of_le hle with hlt | rfl
      · obtain ⟨a, ha⟩ := hlow n hn hlt
        exact nomatch hf.symm.trans ha
      · rw [Except.error.inj (hf.symm.trans he)]
  have haccept := accept_plain (s := s) (b := b) (g := g) hp gr.grp
  rw [hfail] at haccept
  rw [exec_next h, acceptNext_error h (queued_of_plain hp) haccept]
  rfl

end

/-! ## Samples -/

section
variable {s : State} {gr : GRef} {b : Block} {g : Group} {k : Nat} {m : MemOp}

/-- A texture sample. -/
def Sample (i : Instr) : Prop := ∃ d x c hi, i = .samp d x c hi ∨ i = .sampg d x c hi

theorem queued_of_sample {i : Instr} (h : Sample i) : Queued i := by
  obtain ⟨d, x, c, hi, rfl | rfl⟩ := h
  · exact ⟨(fun _ _ _ _ h => nomatch h), (fun _ _ _ _ h => nomatch h)⟩
  · exact ⟨(fun _ _ _ _ h => nomatch h), (fun _ _ _ _ h => nomatch h)⟩

/-- The sample with the descriptor at a place in its OPB (R147). -/
def described (s : State) (m : MemOp) (a : Acc) : MemOp := { m with opb := m.opb ++ (List.range 8).map fun j => BitVec.ofNat 64 (s.num (a.loc.add (8 * j)) 8) }

/-- The sample as it is accepted with its texels. -/
def sampled (s : State) (m : MemOp) (a : Acc) (accs : List (Nat × Loc × Bool × Bool)) : MemOp :=
  { described s m a with accs := accs, accepted := true, met := s.relsAt a.loc 64 }

/-- The accesses of a sample that has its descriptor. -/
def texels (s : State) (m : MemOp) (a : Acc) : List (Nat × Req) := (lanesOf m.lanes).flatMap ((described s m a).texReqs (described s m a).tex)

/-- The places of the helper lanes' texels, and a mark for each lane that has them all (R217). -/
def helpTexels (s : State) (b : Block) (g : Group) (n : Nat) (m : MemOp) (a : Acc) : List (Nat × Loc × Bool × Bool) :=
  (lanesOf m.help).flatMap fun l =>
    let rs := (described s m a).texReqs (described s m a).tex l
    let hs := s.helperLanes (s.memWho b g n m) b (coreIdx n) rs
    if hs.length = rs.length then hs ++ [(200 + l, a.loc, false, false)] else []

theorem first_lane {l0 : Nat} (h : (lanesOf m.lanes).head? = some l0) : (∃ l1 rest, lanesOf (m.lanes ||| m.help) = l1 :: rest) ∧ (m.lanes == 0) = false := by
  have hmem : l0 ∈ lanesOf m.lanes := List.mem_of_mem_head? h
  have hlt := lanesOf_lt hmem
  refine ⟨?_, ?_⟩
  · have hboth : l0 ∈ lanesOf (m.lanes ||| m.help) := by
      rw [mem_lanesOf hlt] at hmem ⊢
      unfold laneIn at hmem ⊢
      rw [BitVec.getLsbD_or, hmem, Bool.true_or]
    cases hl : lanesOf (m.lanes ||| m.help) with
    | nil => rw [hl] at hboth; exact absurd hboth List.not_mem_nil
    | cons l1 rest => exact ⟨l1, rest, rfl⟩
  · refine beq_eq_false_iff_ne.2 fun hzero => ?_
    rw [hzero, SyncWords.lanesOf_zero] at hmem
    exact absurd hmem List.not_mem_nil

/-- The acceptance of a sample with lanes of its own. -/
theorem accept_sample (hs : Sample m.instr) {l0 : Nat} (h0 : (lanesOf m.lanes).head? = some l0) (n : Nat) :
    (∀ e, s.check (s.memWho b g n m) b (coreIdx n) (texReq (m.opa.getD 0 0)) true = .error e → s.accept b g n m = .error { e with lane := l0 }) ∧
    ∀ a, s.check (s.memWho b g n m) b (coreIdx n) (texReq (m.opa.getD 0 0)) true = .ok a →
      (g.clearFor m.id a.loc 64 = false → s.accept b g n m = .ok m) ∧
      (g.clearFor m.id a.loc 64 = true → m.help = 0 → s.accept b g n m =
        (s.checkLanes (s.memWho b g n m) b (coreIdx n) (texels s m a)).bind fun accs =>
          .ok (sampled s m a accs)) ∧
      ∀ e, g.clearFor m.id a.loc 64 = true → s.checkLanes (s.memWho b g n m) b (coreIdx n) (texels s m a) = .error e → s.accept b g n m = .error e := by
  obtain ⟨⟨l1, rest, hlanes⟩, hown⟩ := first_lane h0
  have hbody : s.accept b g n m = match s.check (s.memWho b g n m) b (coreIdx n) (texReq (m.opa.getD 0 0)) true with
      | .error t => .error { t with lane := l0 }
      | .ok a => if !g.clearFor m.id a.loc 64 then .ok m
        else (s.checkLanes (s.memWho b g n m) b (coreIdx n) (texels s m a)).bind fun accs =>
          .ok (sampled s m a (accs ++ helpTexels s b g n m a)) := by
    have hq := queued_of_sample hs
    unfold State.accept
    dsimp only
    split
    next he => exact absurd he (hq.noCopy _ _ _ _)
    · rw [hlanes]
      dsimp only
      rw [hown, h0] <;> rfl
    · rw [hlanes]
      dsimp only
      rw [hown, h0] <;> rfl
    next hno hno' =>
      obtain ⟨d, x, c, hi, he | he⟩ := hs
      · exact absurd he (hno _ _ _ _)
      · exact absurd he (hno' _ _ _ _)
  rw [hbody]
  refine ⟨fun e he => by rw [he], fun a ha => ?_⟩
  rw [ha]
  refine ⟨fun hclear => if_pos (by rw [hclear]; rfl), fun hclear hhelp => ?_, fun e hclear he => ?_⟩
  · have hnone : helpTexels s b g n m a = [] := by
      unfold helpTexels
      rw [hhelp, SyncWords.lanesOf_zero]
      rfl
    dsimp only
    rw [hclear, if_neg (by decide), hnone]
    simp only [List.append_nil]
  · dsimp only
    rw [hclear, if_neg (by decide), he]
    rfl

theorem newPins_load (u : State) (agent : Nat) {x : MemOp} (hx : isStore x.instr = false) : u.newPins agent x = [] := by
  unfold State.newPins
  rw [hx]
  rfl

/-- What is no store needs no pin. -/
theorem admitted_load {x : MemOp} (hx : isStore x.instr = false) (hnear : ∀ y ∈ x.accs, isFarStore y.2.1.store = false) : admitted gr b g m s x = entered gr b g m s x := by
  have hfar : x.accs.any (fun y => isFarStore y.2.1.store) = false := List.any_eq_false.2 fun y hy => by
    rw [hnear y hy]
    decide
  unfold admitted
  rw [newPins_load _ _ hx]
  dsimp only
  rw [show s.pinRoom [] = true from rfl, if_pos rfl, newPins_load _ _ hx, show s.pinRoom [] = true from rfl, if_neg Bool.noConfusion, hfar, if_neg Bool.false_ne_true]

theorem isStore_sample {i : Instr} (h : Sample i) : isStore i = false := by
  obtain ⟨d, x, c, hi, rfl | rfl⟩ := h <;> rfl

variable (h : NextIn s gr b g k m) (hs : Sample m.instr) {l0 : Nat} (h0 : (lanesOf m.lanes).head? = some l0) (lanes : BitVec 32)
include h hs h0

theorem sample_trapped {e : Trap} (he : s.check (s.memWho b g gr.grp m) b (coreIdx gr.grp) (texReq (m.opa.getD 0 0)) true = .error e) :
    exec (.accessPerform gr k lanes) s = .next (trapped gr m s { e with lane := l0 }) := by
  rw [exec_next h, acceptNext_error h (queued_of_sample hs) ((accept_sample hs h0 gr.grp).1 e he)]
  rfl

variable {a : Acc} (ha : s.check (s.memWho b g gr.grp m) b (coreIdx gr.grp) (texReq (m.opa.getD 0 0)) true = .ok a)
include ha

theorem sample_waits (hclear : g.clearFor m.id a.loc 64 = false) : exec (.accessPerform gr k lanes) s = .next s := by
  obtain ⟨hwait, -, -⟩ := (accept_sample (s := s) (b := b) (g := g) hs h0 gr.grp).2 a ha
  rw [exec_next h, acceptNext_later h (queued_of_sample hs) (hwait hclear) h.waiting]
  rfl

theorem texel_trapped (hclear : g.clearFor m.id a.loc 64 = true) {e : Trap}
    (he : s.checkLanes (s.memWho b g gr.grp m) b (coreIdx gr.grp) (texels s m a) = .error e) : exec (.accessPerform gr k lanes) s = .next (trapped gr m s e) := by
  obtain ⟨-, -, hfail⟩ := (accept_sample (s := s) (b := b) (g := g) hs h0 gr.grp).2 a ha
  rw [exec_next h, acceptNext_error h (queued_of_sample hs) (hfail e hclear he)]
  rfl

theorem sample_accepted (hclear : g.clearFor m.id a.loc 64 = true) {accs : List (Nat × Loc × Bool × Bool)}
    (hok : s.checkLanes (s.memWho b g gr.grp m) b (coreIdx gr.grp) (texels s m a) = .ok accs) (hhelp : m.help = 0)
    (hnear : ∀ y ∈ accs, isFarStore y.2.1.store = false) :
    exec (.accessPerform gr k lanes) s = .next (entered gr b g m s (sampled s m a accs)) := by
  obtain ⟨-, hgrant, -⟩ := (accept_sample (s := s) (b := b) (g := g) hs h0 gr.grp).2 a ha
  have haccept := hgrant hclear hhelp
  rw [hok] at haccept
  rw [exec_next h, acceptNext_ok h (queued_of_sample hs) haccept rfl]
  exact congrArg Host.Outcome.next (admitted_load (x := sampled s m a accs) (isStore_sample hs) hnear)

end

end Sys2Proof.Proofs.Granting
end

section
/-! SUPPORT. The acceptance of CPA (R148, R307): O13. -/

namespace Sys2Proof.Proofs.Copying

open Sys2Proof Sys2Proof.Machine Sys2Proof.Laws Sys2Proof.Proofs.Accepting Sys2Proof.Proofs.Granting

/-! ## The accesses of a CPA -/

/-- How many bytes lane l copies. -/
def count (m : MemOp) (l : Nat) : Nat := min 32 (m.opb.getD l 0).toNat

/-- The read of piece j of a lane's source. -/
def readReq (m : MemOp) (l j : Nat) : Req :=
  ⟨.gl, m.opa.getD l 0 + BitVec.ofNat 64 (8 * j), min 8 (count m l - 8 * j), decide ((m.opa.getD l 0).toNat % 8 = 0), true, false, false, false, true⟩

/-- The write of a lane's destination. -/
def writeReq (m : MemOp) (l : Nat) : Req :=
  ⟨.sp, m.opb.getD (32 + l) 0, 32, decide ((m.opb.getD (32 + l) 0).toNat % 32 = 0), false, true, false, true, true⟩

/-- The reads of a lane. -/
def laneReads (m : MemOp) (l : Nat) : List (Nat × Req) := (List.range ((count m l + 7) / 8)).map fun j => (l, readReq m l j)

theorem cpaReqs_eq (m : MemOp) (l : Nat) : m.cpaReqs l = laneReads m l ++ [(100 + l, writeReq m l)] := by
  unfold MemOp.cpaReqs pieces laneReads
  dsimp only
  rw [List.map_map]
  rfl

/-- The accesses of all lanes. -/
def copyReqs (m : MemOp) : List (Nat × Req) := (lanesOf m.lanes).flatMap m.cpaReqs

theorem mem_cpaReqs {m : MemOp} {l : Nat} {x : Nat × Req} :
    x ∈ m.cpaReqs l ↔ (∃ j, j < (count m l + 7) / 8 ∧ x = (l, readReq m l j)) ∨ x = (100 + l, writeReq m l) := by
  rw [cpaReqs_eq, List.mem_append, List.mem_singleton]
  refine or_congr_left ?_
  unfold laneReads
  rw [List.mem_map]
  exact exists_congr fun j => and_congr List.mem_range eq_comm

theorem mod_cpaReqs {m : MemOp} {l : Nat} (hl : l < 32) {x : Nat × Req} (hx : x ∈ m.cpaReqs l) : x.1 % 100 = l := by
  rcases mem_cpaReqs.1 hx with ⟨j, -, rfl⟩ | rfl
  · exact Nat.mod_eq_of_lt (hl.trans (by decide))
  · show (100 + l) % 100 = l
    omega

theorem copyReqs_sorted (m : MemOp) : (copyReqs m).Pairwise fun x y => x.1 % 100 ≤ y.1 % 100 := by
  unfold copyReqs
  rw [List.pairwise_flatMap]
  refine ⟨fun l hl => ?_, (lanesOf_sorted m.lanes).imp_of_mem fun {l n} hl hn hlt x hx y hy => ?_⟩
  · refine List.pairwise_of_forall_mem_list fun x hx y hy => ?_
    rw [mod_cpaReqs (lanesOf_lt hl) hx, mod_cpaReqs (lanesOf_lt hl) hy]
  · rw [mod_cpaReqs (lanesOf_lt hl) hx, mod_cpaReqs (lanesOf_lt hn) hy]
    exact hlt.le

/-! ## One lane's part of what they are granted -/

theorem flatMap_single {α β : Type} {L : List α} (hn : L.Nodup) {l : α} (hl : l ∈ L) {f : α → List β} (h : ∀ x ∈ L, x ≠ l → f x = []) : L.flatMap f = f l := by
  induction L with
  | nil => exact absurd hl List.not_mem_nil
  | cons y r ih =>
    obtain ⟨hy, hr⟩ := List.nodup_cons.1 hn
    rw [List.flatMap_cons]
    rcases List.mem_cons.1 hl with rfl | hl
    · rw [List.flatMap_eq_nil_iff.2 fun x hx => h x (List.mem_cons_of_mem _ hx) fun e => hy (e ▸ hx), List.append_nil]
    · rw [h y (List.mem_cons_self ..) fun e => hy (e ▸ hl), List.nil_append, ih hr hl fun x hx => h x (List.mem_cons_of_mem _ hx)]

section
variable {m : MemOp} {l : Nat} (hl : l ∈ lanesOf m.lanes)
include hl

theorem filter_reads : (copyReqs m).filter (fun x => x.1 == l) = laneReads m l := by
  have hlt := lanesOf_lt hl
  unfold copyReqs
  rw [List.filter_flatMap, flatMap_single ((lanesOf_sorted m.lanes).imp fun h => h.ne) hl fun n hn hne => ?_]
  · rw [cpaReqs_eq, List.filter_append, List.filter_eq_self.2 fun x hx => ?_, List.filter_eq_nil_iff.2 fun x hx => ?_, List.append_nil]
    · rw [List.mem_singleton.1 hx]
      simp only [beq_iff_eq]
      omega
    · obtain ⟨j, -, rfl⟩ := List.mem_map.1 hx
      exact beq_self_eq_true _
  · refine List.filter_eq_nil_iff.2 fun x hx he => ?_
    have := mod_cpaReqs (lanesOf_lt hn) hx
    rw [beq_iff_eq.1 he] at this
    omega

theorem filter_write : (copyReqs m).filter (fun x => x.1 == 100 + l) = [(100 + l, writeReq m l)] := by
  have hlt := lanesOf_lt hl
  unfold copyReqs
  rw [List.filter_flatMap, flatMap_single ((lanesOf_sorted m.lanes).imp fun h => h.ne) hl fun n hn hne => ?_]
  · rw [cpaReqs_eq, List.filter_append, List.filter_eq_nil_iff.2 fun x hx => ?_, List.nil_append]
    · exact List.filter_cons_of_pos (beq_self_eq_true _)
    · obtain ⟨j, -, rfl⟩ := List.mem_map.1 hx
      simp only [beq_iff_eq]
      omega
  · refine List.filter_eq_nil_iff.2 fun x hx he => ?_
    have hlane := mod_cpaReqs (lanesOf_lt hn) hx
    rw [beq_iff_eq.1 he] at hlane
    omega

end

/-! ## The transfer -/

/-- The agent of a transfer that starts in u. -/
def engine (u : State) (b : Block) (g : Group) (n : Nat) (m : MemOp) : Who := { u.memWho b g n m with agent := u.nextAgent }

section
variable (u : State) (b : Block) (g : Group) (n : Nat) (m : MemOp)

/-- What an access of a CPA is granted. -/
def grant (q : Req) : Acc := granted u (engine u b g n m) b (coreIdx n) q

/-- The granted accesses of all lanes. -/
def copyAccs : List (Nat × Loc × Bool × Bool) :=
  (copyReqs m).map fun x => (x.1, (grant u b g n m x.2).loc, (grant u b g n m x.2).watch, (grant u b g n m x.2).ckpt)

/-- The places that a lane reads, with the numbers of bytes. -/
def sources (l : Nat) : List (Loc × Nat) :=
  (List.range ((count m l + 7) / 8)).map fun j => ((grant u b g n m (readReq m l j)).loc, min 8 (count m l - 8 * j))

/-- The lanes of a transfer, with what each reads and where it writes. -/
def transferLanes : List (Nat × List (Loc × Nat) × Loc) :=
  (lanesOf m.lanes).map fun l => (l, sources u b g n m l, (grant u b g n m (writeReq m l)).loc)

theorem accept_cpa {d : BitVec 6} {x c : Src} {tag : BitVec 3} (hi : m.instr = .cpa d x c tag) : u.accept b g n m =
    (u.checkLanes (engine u b g n m) b (coreIdx n) (copyReqs m) m.cpaRep).bind fun accs => .ok { m with accs := accs, accepted := true } := by
  unfold State.accept
  dsimp only
  split
  · rfl
  next he => exact nomatch hi.symm.trans he
  next he => exact nomatch hi.symm.trans he
  next hno _ _ => exact absurd hi (hno _ _ _ _)

/-- The CPA as it is accepted. -/
def granting : MemOp := { m with accs := copyAccs u b g n m, accepted := true }

variable {u b g n m}

theorem find?_write {l : Nat} (hl : l ∈ lanesOf m.lanes) : ∃ w, (copyAccs u b g n m).find? (fun x => x.1 == 100 + l) = some (100 + l, (grant u b g n m (writeReq m l)).loc, w) := by
  have hfilter : (copyAccs u b g n m).filter (fun x => x.1 == 100 + l) =
      [(100 + l, (grant u b g n m (writeReq m l)).loc, (grant u b g n m (writeReq m l)).watch, (grant u b g n m (writeReq m l)).ckpt)] := by
    unfold copyAccs
    rw [List.filter_map]
    exact congrArg (List.map _) (filter_write hl)
  rw [← List.head?_filter, hfilter]
  exact ⟨_, rfl⟩

theorem filter_sources {l : Nat} (hl : l ∈ lanesOf m.lanes) : ((copyAccs u b g n m).filter fun x => x.1 == l).map (·.2.1) =
    (List.range ((count m l + 7) / 8)).map fun j => (grant u b g n m (readReq m l j)).loc := by
  unfold copyAccs
  rw [List.filter_map, List.map_map]
  refine (congrArg (List.map _) (filter_reads hl)).trans ?_
  unfold laneReads
  rw [List.map_map]
  rfl

/-- The lanes that a transfer finds in its instruction's accesses. -/
def found (x : MemOp) : List (Nat × List (Loc × Nat) × Loc) :=
  (lanesOf x.lanes).filterMap fun l => match x.accs.find? fun y => y.1 == 100 + l with
    | none => none
    | some d => some (l, ((x.accs.filter fun y => y.1 == l).map (·.2.1)).zip ((pieces 0 (min 32 (x.opb.getD l 0).toNat)).map (·.2)), d.2.1)

theorem found_granting : found (granting u b g n m) = transferLanes u b g n m := by
  unfold transferLanes found
  refine Eq.trans (List.filterMap_congr (g := some ∘ fun l => (l, sources u b g n m l, (grant u b g n m (writeReq m l)).loc)) fun l hl => ?_)
    (congrFun List.filterMap_eq_map _)
  have hl : l ∈ lanesOf m.lanes := hl
  obtain ⟨w, hw⟩ := find?_write (u := u) (b := b) (g := g) (n := n) hl
  dsimp only [granting, Function.comp]
  rw [hw, filter_sources hl]
  unfold pieces sources
  rw [List.map_map]
  exact congrArg (fun z => some (l, z, (grant u b g n m (writeReq m l)).loc)) List.zip_map'

/-- The granules of the lanes' destinations, claimed for the transfer. -/
def claimed (v : State) (who : Who) (lanes : List (Nat × List (Loc × Nat) × Loc)) : State := lanes.foldl (fun s x => s.claim who x.2.2 32) v

/-- The machine with a transfer of these lanes. -/
def started (u : State) (gr : GRef) (b : Block) (g : Group) (m : MemOp) (tag : Nat) (lanes : List (Nat × List (Loc × Nat) × Loc)) : State :=
  let v := claimed { u with nextAgent := u.nextAgent + 1 }
    { u.memWho b g gr.grp m with agent := u.nextAgent, time := 1, detail := detailWord 0 1 (b.place.getD 0) tag gr.grp b.ctx 0 } lanes
  let met := lanes.flatMap fun x => x.2.1.flatMap fun y => u.relsAt y.1 y.2
  v.modGroup gr fun g =>
    { g with memq := g.memq.filter (fun x => x.id != m.id)
             cpas := g.cpas ++ [⟨m.first, tag, u.nextAgent, lanes.map fun x => (x.1, x.2.1.flatMap fun y => v.bytes y.1 y.2, x.2.2), m.lanes, m.clock, false, []⟩]
             reads := g.reads ++ met.filter fun x => !g.reads.contains x }

theorem startCpa_eq (u : State) (gr : GRef) (b : Block) (g : Group) (m : MemOp) (tag : Nat) : u.startCpa gr b g m tag = started u gr b g m tag (found m) := rfl

theorem claimed_writers (v : State) (who : Who) (lanes : List (Nat × List (Loc × Nat) × Loc)) : ∃ ws, claimed v who lanes = { v with writers := ws } := by
  unfold claimed
  induction lanes generalizing v with
  | nil => exact ⟨v.writers, rfl⟩
  | cons x r ih =>
    obtain ⟨ws, hws⟩ := ih (v.claim who x.2.2 32)
    exact ⟨ws, hws⟩

end

/-! ## The instruction -/

section
variable {s : State} {gr : GRef} {b : Block} {g g1 : Group} {k : Nat} {m : MemOp} {d : BitVec 6} {x c : Src} {tag : BitVec 3}
variable (h : NextIn s gr b g k m) (hi : m.instr = .cpa d x c tag) (hg1 : (s.performAccepted gr).group? gr = some g1)
include h hi hg1

theorem acceptNext_copy_error {t : Trap} (ht : (s.performAccepted gr).accept b g1 gr.grp m = .error t) (n : Nat) :
    s.acceptNext gr n = (s.performAccepted gr, some (m.id, t)) := by
  unfold State.acceptNext
  simp only [h.block, h.group, find?_waiting h]
  split
  next he => exact nomatch hi.symm.trans he
  next he =>
    cases hi.symm.trans he
    simp only [hg1, Option.getD_some, ht]
  next _ hno => exact absurd hi (hno _ _ _ _)

theorem acceptNext_copy_ok {y : MemOp} (hy : (s.performAccepted gr).accept b g1 gr.grp m = .ok y) (n : Nat) :
    s.acceptNext gr n = ((s.performAccepted gr).startCpa gr b g1 y tag.toNat, none) := by
  unfold State.acceptNext
  simp only [h.block, h.group, find?_waiting h]
  split
  next he => exact nomatch hi.symm.trans he
  next he =>
    cases hi.symm.trans he
    simp only [hg1, Option.getD_some, hy]
  next _ hno => exact absurd hi (hno _ _ _ _)

theorem copy_starts (lanes : BitVec 32)
    (hok : ∀ q ∈ copyReqs m, ∃ a, (s.performAccepted gr).check (engine (s.performAccepted gr) b g1 gr.grp m) b (coreIdx gr.grp) q.2 true = .ok a) :
    exec (.accessPerform gr k lanes) s = .next (started (s.performAccepted gr) gr b g1 m tag.toNat (transferLanes (s.performAccepted gr) b g1 gr.grp m)) := by
  have hcheck := checkLanes_of_ok (rep := m.cpaRep) (f := fun q => grant (s.performAccepted gr) b g1 gr.grp m q.2) fun q hq => by
    obtain ⟨a, ha⟩ := hok q hq
    exact ha.trans (congrArg Except.ok (granted_of_ok ha).symm)
  have haccept := accept_cpa (s.performAccepted gr) b g1 gr.grp m hi
  rw [hcheck] at haccept
  rw [exec_next h, acceptNext_copy_ok h hi hg1 haccept]
  show Host.Outcome.next ((s.performAccepted gr).startCpa gr b g1 (granting (s.performAccepted gr) b g1 gr.grp m) tag.toNat) = _
  rw [startCpa_eq, found_granting]
  rfl

theorem copy_traps (lanes : BitVec 32) {l : Nat} (hl : l ∈ lanesOf m.lanes)
    (hbad : ¬ ∀ q ∈ m.cpaReqs l, ∃ a, (s.performAccepted gr).check (engine (s.performAccepted gr) b g1 gr.grp m) b (coreIdx gr.grp) q.2 true = .ok a)
    (hlow : ∀ n ∈ lanesOf m.lanes, n < l → ∀ q ∈ m.cpaReqs n,
      ∃ a, (s.performAccepted gr).check (engine (s.performAccepted gr) b g1 gr.grp m) b (coreIdx gr.grp) q.2 true = .ok a) :
    ∃ e, exec (.accessPerform gr k lanes) s = .next (trapped gr m (s.performAccepted gr) e) ∧ e.lane = l ∧
      (∃ q ∈ m.cpaReqs l, ∃ f, (s.performAccepted gr).check (engine (s.performAccepted gr) b g1 gr.grp m) b (coreIdx gr.grp) q.2 true = .error f ∧
        e = { f with lane := l, addr := m.cpaRep q.1 f.addr }) ∧
      ∀ q ∈ m.cpaReqs l, ∀ f, (s.performAccepted gr).check (engine (s.performAccepted gr) b g1 gr.grp m) b (coreIdx gr.grp) q.2 true = .error f → e.memRank ≤ f.memRank := by
  have haccept := accept_cpa (s.performAccepted gr) b g1 gr.grp m hi
  have hmem : ∀ n ∈ lanesOf m.lanes, ∀ q ∈ m.cpaReqs n, q ∈ copyReqs m := fun n hn q hq => List.mem_flatMap.2 ⟨n, hn, hq⟩
  cases hc : (s.performAccepted gr).checkLanes (engine (s.performAccepted gr) b g1 gr.grp m) b (coreIdx gr.grp) (copyReqs m) m.cpaRep with
  | ok accs => exact absurd (fun q hq => checks_of_checkLanes hc q (hmem l hl q hq)) hbad
  | error e =>
    rw [hc] at haccept
    obtain ⟨he, hmin⟩ := checkLanes_error (copyReqs_sorted m) hc
    have hrank : ∀ q ∈ m.cpaReqs l, ∀ f, (s.performAccepted gr).check (engine (s.performAccepted gr) b g1 gr.grp m) b (coreIdx gr.grp) q.2 true = .error f →
        e.lane ≤ l ∧ (e.lane = l → e.memRank ≤ f.memRank) := fun q hq f hf => by
      have hlow := hmin _ (mem_failures.2 ⟨q, hmem l hl q hq, f, hf, rfl⟩)
      rw [mod_cpaReqs (lanesOf_lt hl) hq] at hlow
      exact hlow
    have hle : e.lane ≤ l := by
      by_contra hgt
      refine hbad fun q hq => ?_
      cases hf : (s.performAccepted gr).check (engine (s.performAccepted gr) b g1 gr.grp m) b (coreIdx gr.grp) q.2 true with
      | ok a => exact ⟨a, rfl⟩
      | error f => exact absurd (hrank q hq f hf).1 hgt
    obtain ⟨q, hq, f, hf, rfl⟩ := mem_failures.1 he
    obtain ⟨n, hn, hq⟩ := List.mem_flatMap.1 hq
    rw [mod_cpaReqs (lanesOf_lt hn) hq] at hle
    obtain rfl : n = l := by
      rcases Nat.lt_or_eq_of_le hle with hlt | heq
      · obtain ⟨a, ha⟩ := hlow n hn hlt q hq
        exact nomatch hf.symm.trans ha
      · exact heq
    refine ⟨_, ?_, mod_cpaReqs (lanesOf_lt hn) hq, ⟨q, hq, f, hf, ?_⟩, fun q' hq' f' hf' => (hrank q' hq' f' hf').2 (mod_cpaReqs (lanesOf_lt hn) hq)⟩
    · rw [exec_next h, acceptNext_copy_error h hi hg1 haccept]
      rfl
    · rw [mod_cpaReqs (lanesOf_lt hn) hq]

end

/-- What a transfer that has started leaves of the machine. -/
theorem started_facts {u : State} {gr : GRef} {b : Block} {g1 : Group} (hg1 : u.group? gr = some g1) (m : MemOp) (tag : Nat) (lanes : List (Nat × List (Loc × Nat) × Loc)) :
    ∃ g' y, (started u gr b g1 m tag lanes).group? gr = some g' ∧ (∀ l, (started u gr b g1 m tag lanes).byte l = u.byte l) ∧
      g'.memq = g1.memq.filter (fun n => n.id != m.id) ∧ g'.cpas = g1.cpas ++ [y] ∧ y.tag = tag ∧ y.done = false ∧ y.units = [] ∧ y.agent = u.nextAgent ∧
      (started u gr b g1 m tag lanes).nextAgent = u.nextAgent + 1 ∧ y.lanes = lanes.map fun x => (x.1, x.2.1.flatMap fun y => u.bytes y.1 y.2, x.2.2) := by
  have hbyte : ∀ ws l, State.byte { u with nextAgent := u.nextAgent + 1, writers := ws } l = u.byte l := fun ws l => by
    cases l with | mk st o => cases st <;> rfl
  have hbytes : ∀ ws l n, State.bytes { u with nextAgent := u.nextAgent + 1, writers := ws } l n = u.bytes l n :=
    fun ws l n => List.map_congr_left fun i _ => hbyte ws _
  obtain ⟨ws, hws⟩ := claimed_writers { u with nextAgent := u.nextAgent + 1 }
    { u.memWho b g1 gr.grp m with agent := u.nextAgent, time := 1, detail := detailWord 0 1 (b.place.getD 0) tag gr.grp b.ctx 0 } lanes
  have hgroup : State.group? { u with nextAgent := u.nextAgent + 1, writers := ws } gr = some g1 := hg1
  unfold started
  dsimp only
  rw [hws]
  refine ⟨_, _, group?_modGroup_self _ hgroup, fun l => (byte_modGroup _ _ _ l).trans (hbyte ws l), rfl, rfl, rfl, rfl, rfl, rfl, rfl, ?_⟩
  exact List.map_congr_left fun x _ => congrArg (fun v => (x.1, v, x.2.2)) (congrArg (fun f => List.flatMap f x.2.1) (funext fun y => hbytes ws y.1 y.2))

/-- O13's clause about a CPA that passes its checks. -/
theorem copy_accepted {s : State} {gr : GRef} {b : Block} {g g1 : Group} {k : Nat} {m : MemOp} {d : BitVec 6} {x c : Src} {tag : BitVec 3} (h : NextIn s gr b g k m)
    (hi : m.instr = .cpa d x c tag) (hg1 : (s.performAccepted gr).group? gr = some g1) (lanes : BitVec 32) {fa : Nat → Nat → Acc} {fd : Nat → Acc}
    (hok : ∀ l ∈ lanesOf m.lanes, (∀ j, j < (count m l + 7) / 8 →
        (s.performAccepted gr).check (engine (s.performAccepted gr) b g1 gr.grp m) b (coreIdx gr.grp) (readReq m l j) true = .ok (fa l j)) ∧
      (s.performAccepted gr).check (engine (s.performAccepted gr) b g1 gr.grp m) b (coreIdx gr.grp) (writeReq m l) true = .ok (fd l)) :
    ∃ t g' y, exec (.accessPerform gr k lanes) s = .next t ∧ t.group? gr = some g' ∧ (∀ l, t.byte l = (s.performAccepted gr).byte l) ∧
      g'.memq = g1.memq.filter (fun n => n.id != m.id) ∧ g'.cpas = g1.cpas ++ [y] ∧ y.tag = tag.toNat ∧ y.done = false ∧ y.units = [] ∧
      y.agent = (s.performAccepted gr).nextAgent ∧ t.nextAgent = (s.performAccepted gr).nextAgent + 1 ∧
      y.lanes = (lanesOf m.lanes).map fun l =>
        (l, (List.range ((count m l + 7) / 8)).flatMap (fun j => (s.performAccepted gr).bytes (fa l j).loc (min 8 (count m l - 8 * j))), (fd l).loc) := by
  have hexec := copy_starts h hi hg1 lanes fun q hq => by
    obtain ⟨l, hl, hq⟩ := List.mem_flatMap.1 hq
    rcases mem_cpaReqs.1 hq with ⟨j, hj, rfl⟩ | rfl
    · exact ⟨_, (hok l hl).1 j hj⟩
    · exact ⟨_, (hok l hl).2⟩
  obtain ⟨g', y, hgroup, hbyte, hmemq, hcpas, htag, hdone, hunits, hagent, hnext, hlanes⟩ := started_facts (b := b) hg1 m tag.toNat
    (transferLanes (s.performAccepted gr) b g1 gr.grp m)
  refine ⟨_, g', y, hexec, hgroup, hbyte, hmemq, hcpas, htag, hdone, hunits, hagent, hnext, hlanes.trans ?_⟩
  unfold transferLanes sources
  rw [List.map_map]
  refine List.map_congr_left fun l hl => ?_
  dsimp only [Function.comp]
  rw [List.flatMap_map]
  unfold grant
  rw [granted_of_ok (hok l hl).2]
  refine congrArg (fun v => (l, v, (fd l).loc)) (List.flatMap_congr fun j hj => ?_)
  rw [granted_of_ok ((hok l hl).1 j (List.mem_range.1 hj))]

/-- Settles O13: the group's oldest waiting instruction is accepted where every lane passes its checks, and takes the trap of the lowest lane that fails where
one does not. -/
theorem accessesAreChecked : Obligations.AccessesAreChecked := by
  unfold Obligations.AccessesAreChecked
  refine ⟨fun s gr b g m k lanes hb hg hplaced hgoing hhome hat hwait hbefore => ?_, fun s who b core reqs hl hsorted => checkLanes_plain hl hsorted⟩
  have h : NextIn s gr b g k m := ⟨hb, hg, hplaced, hgoing, hhome, hat, hwait, hbefore⟩
  refine ⟨fun hacc hng hns => ?_, fun l0 a hs h0 => ?_, fun d x c tag g1 hi hg1 => ?_⟩
  · have hp : Plain m.instr := ⟨hacc, hng, hns⟩
    exact ⟨fun f hf => plain_accepted h hp lanes hf, fun l hl e he hlow => plain_trapped h hp lanes hl he hlow, fun l a w hok hw hrace => check_raced hok hw hrace⟩
  · exact ⟨fun e he => sample_trapped h hs h0 lanes he, fun ha => ⟨sample_waits h hs h0 lanes ha, fun hclear =>
      ⟨fun e he => texel_trapped h hs h0 lanes ha hclear he, fun accs hok hhelp hnear => sample_accepted h hs h0 lanes ha hclear hok hhelp hnear⟩⟩⟩
  · refine ⟨fun fa fd hok => copy_accepted h hi hg1 lanes hok, fun l hl hbad hlow => ?_⟩
    obtain ⟨e, hexec, hlane, ⟨q, hq, f, hf, he⟩, hrank⟩ := copy_traps h hi hg1 lanes hl (fun hall => hbad ⟨fun j hj => hall _ (mem_cpaReqs.2 (.inl ⟨j, hj, rfl⟩)),
      hall _ (mem_cpaReqs.2 (.inr rfl))⟩) fun n hn hlt q hq => by
        obtain ⟨hreads, hwrite⟩ := hlow n hn hlt
        rcases mem_cpaReqs.1 hq with ⟨j, hj, rfl⟩ | rfl
        · exact hreads j hj
        · exact hwrite
    refine ⟨e, hexec, hlane, ?_, fun j f' hj hf' => hrank _ (mem_cpaReqs.2 (.inl ⟨j, hj, rfl⟩)) f' hf', fun f' hf' => hrank _ (mem_cpaReqs.2 (.inr rfl)) f' hf'⟩
    have hlt := lanesOf_lt hl
    rcases mem_cpaReqs.1 hq with ⟨j, hj, rfl⟩ | rfl
    · refine .inl ⟨j, f, hj, hf, he.trans ?_⟩
      unfold MemOp.cpaRep
      rw [if_pos (show l < 100 by omega)]
    · refine .inr ⟨f, hf, he.trans ?_⟩
      unfold MemOp.cpaRep
      rw [if_neg (show ¬ 100 + l < 100 by omega)]

end Sys2Proof.Proofs.Copying
end

section
/-! SUPPORT. What a lane of a load receives and a lane of a store writes (R66-R69, R132-R134): O15. -/

namespace Sys2Proof.Proofs.LaneValues

open Sys2Proof Sys2Proof.Machine Sys2Proof.Laws Sys2Proof.Proofs.Lanes

/-! ## Described elements -/

/-- The elements of a block under descriptor d are values of the format f (R66-R68). -/
def Usable (d : Nat) (f : ElemType) : Prop :=
  (d / 4096 % 16, f) ∈ [(10, ElemType.i8), (11, .n8), (12, .e4m3), (13, .e5m2), (14, .dya8)] ∧ d % 16 = 0 ∧ d / 16 % 256 ≠ 255

theorem descFmt_eq_some (d : Nat) (f : ElemType) : descFmt d = some f ↔ (d / 4096 % 16, f) ∈ [(10, ElemType.i8), (11, .n8), (12, .e4m3), (13, .e5m2), (14, .dya8)] := by
  unfold descFmt
  generalize d / 4096 % 16 = n
  split
  all_goals cases f <;> simp_all

theorem usable_iff (d : Nat) (f : ElemType) : Usable d f ↔ descFmt d = some f ∧ descUsable d = true := by
  unfold Usable descUsable descScale
  rw [← descFmt_eq_some]
  refine and_congr_right fun hf => ?_
  rw [hf]
  simp

theorem describedTo_usable {d : Nat} {f : ElemType} (h : Usable d f) (u : ElemType) (rnd : Rnd) (sat : Bool) (x : Nat) :
    describedTo u rnd sat d x = convertVal u rnd sat (scaleVal ((d / 16 % 256 : Nat) - 127) (decodeElem f x)) := by
  obtain ⟨hf, hu⟩ := (usable_iff d f).1 h
  unfold describedTo describedVal
  rw [hu, if_pos rfl, hf]
  exact Prod.ext rfl BitVec.zero_or

theorem describedTo_unusable {d : Nat} (h : ∀ f, ¬ Usable d f) {u : ElemType} (hu : isFloat u = true) (rnd : Rnd) (sat : Bool) (x : Nat) :
    describedTo u rnd sat d x = (canonNaN u, flINV) := by
  have hval : describedVal d x = (.nan false, flINV) := by
    unfold describedVal
    split
    next hd =>
      cases hf : descFmt d with
      | none => rfl
      | some f => exact absurd ((usable_iff d f).2 ⟨hf, hd⟩) (h f)
    · rfl
  have hconv : convertVal u rnd sat (.nan false) = (canonNaN u, 0) := by
    have hint : isInt u = false := by
      revert hu
      cases u <;> decide
    unfold convertVal roundTo
    rw [hint, hu, if_neg Bool.false_ne_true]
    exact Prod.ext rfl BitVec.zero_or
  unfold describedTo
  rw [hval]
  dsimp only
  rw [hconv]
  exact Prod.ext rfl BitVec.or_zero

theorem describedStore_usable {d : Nat} {f : ElemType} (h : Usable d f) (rnd : Rnd) (sat : Bool) (v : Val) :
    describedStore rnd sat d v = convertVal f rnd sat (scaleVal (-((d / 16 % 256 : Nat) - 127)) v) := by
  obtain ⟨hf, hu⟩ := (usable_iff d f).1 h
  unfold describedStore descScale
  rw [hf]
  dsimp only
  rw [hu, if_pos rfl, neg_sub]

theorem describedStore_unusable {d : Nat} (h : ∀ f, ¬ Usable d f) (rnd : Rnd) (sat : Bool) (v : Val) : (describedStore rnd sat d v).2 = flINV := by
  unfold describedStore
  cases hf : descFmt d with
  | none => rfl
  | some f =>
    dsimp only
    split
    next hd => exact absurd ((usable_iff d f).2 ⟨hf, hd⟩) (h f)
    · rfl

/-- What a described element is in T (R67, R68). -/
def Element (m : MemOp) (d : Nat) (u : ElemType) (x : Nat) (r : Nat × Flags) : Prop :=
  (∀ f, Usable d f → r = convertVal u (modeRnd m.mode) (modeSat m.mode) (scaleVal ((d / 16 % 256 : Nat) - 127) (decodeElem f x))) ∧
    ((∀ f, ¬ Usable d f) → r = (canonNaN u, flINV))

theorem element_describedTo (m : MemOp) (d : Nat) {u : ElemType} (hu : isFloat u = true) (x : Nat) : Element m d u x (describedTo u (modeRnd m.mode) (modeSat m.mode) d x) :=
  ⟨fun _ h => describedTo_usable h u _ _ x, fun h => describedTo_unusable h hu _ _ x⟩

/-! ## Loads -/

section
variable (s : State) (m : MemOp) (l : Nat) (p : Loc)

theorem loadValue_word (h : (∃ d a c x, m.instr = .vld d a c x ∨ m.instr = .vldb d a c x) ∨ ∃ d a c sp, m.instr = .sld d a c sp) :
    s.loadValue m p = (BitVec.ofNat 64 (s.num p 8), 0, 0) := by
  unfold State.loadValue
  obtain ⟨d, a, c, x, h | h⟩ | ⟨d, a, c, sp, h⟩ := h <;> rw [h]

theorem loadValue_element {d : Dst} {a c : Src} {x : Space} (h : m.instr = .vlde d a c x) :
    (modeType m.mode ≠ .d → s.loadValue m p = (if isSigned (modeType m.mode) then BitVec.ofInt 64 (intOf (modeType m.mode) (s.num p (width (modeType m.mode) / 8)))
      else BitVec.ofNat 64 (s.num p (width (modeType m.mode) / 8)), 0, 0)) ∧
    (modeType m.mode = .d → ∃ r, Element m (s.desc p.ofs) .f32 (s.num p 1) r ∧ s.loadValue m p = (BitVec.ofNat 64 r.1, 0, r.2)) := by
  unfold State.loadValue
  rw [h]
  exact ⟨fun ht => if_neg ht, fun ht => ⟨_, element_describedTo m (s.desc p.ofs) rfl _, if_pos ht⟩⟩

/-- The elements of a block of eight, under its descriptor. -/
def blockElem (e : Nat) : Nat × Flags := describedTo .bf16 (modeRnd m.mode) (modeSat m.mode) (s.desc p.ofs) (s.num (p.add e) 1)

theorem blockElem_eq : blockElem s m p = fun e => describedTo .bf16 (modeRnd m.mode) (modeSat m.mode) (s.desc p.ofs) (s.num (p.add e) 1) := rfl

theorem loadValue_block_eq {d : BitVec 5} {a c : Src} (h : m.instr = .vldd d a c) :
    s.loadValue m p = (packSubs .bf16 ((List.range 4).map fun e => (blockElem s m p e).1), packSubs .bf16 ((List.range 4).map fun e => (blockElem s m p (4 + e)).1),
      (List.range 8).foldl (fun f e => f ||| (blockElem s m p e).2) 0) := by
  unfold State.loadValue
  rw [h]
  dsimp only
  rw [← blockElem_eq]
  rfl

theorem loadValue_block {d : BitVec 5} {a c : Src} (h : m.instr = .vldd d a c) :
    (∀ e, e < 8 → Element m (s.desc p.ofs) .bf16 (s.num (p.add e) 1) (blockElem s m p e)) ∧
    (∀ e, e < 4 → sub (s.loadValue m p).1 e .bf16 = (blockElem s m p e).1 % 2 ^ 16 ∧ sub (s.loadValue m p).2.1 e .bf16 = (blockElem s m p (4 + e)).1 % 2 ^ 16) ∧
    ∀ n, (s.loadValue m p).2.2.getLsbD n = (List.range 8).any fun e => (blockElem s m p e).2.getLsbD n := by
  refine ⟨fun e _ => element_describedTo m _ rfl _, ?_⟩
  rw [loadValue_block_eq s m p h]
  refine ⟨fun e he => ⟨sub_packSubs_map .bf16 _ he, sub_packSubs_map .bf16 (fun e => (blockElem s m p (4 + e)).1) he⟩, fun n => ?_⟩
  rw [getLsbD_foldl_or, show BitVec.getLsbD (0 : Flags) n = false from BitVec.getLsbD_zero, Bool.false_or]

theorem loadValue_descs {d : Dst} {a c : Src} (h : m.instr = .ldds d a c) :
    (∀ j, j < 4 → sub (s.loadValue m p).1 j .n16 = s.desc (p.ofs + 64 * j) % 2 ^ 16) ∧ (s.loadValue m p).2.2 = 0 := by
  unfold State.loadValue
  rw [h]
  exact ⟨fun j hj => sub_packSubs_map .n16 (fun j => s.desc (p.ofs + 64 * j)) hj, rfl⟩

/-! ## Stores -/

theorem storeBytes_word (h : ∃ d a c x, m.instr = .vst d a c x ∨ m.instr = .vstb d a c x) : s.storeBytes m l p = (leBytes 8 (m.opb.getD l 0).toNat, 0) := by
  unfold State.storeBytes
  obtain ⟨d, a, c, x, h | h⟩ := h <;> rw [h]

theorem storeBytes_scalar {d : BitVec 6} {a c : Src} {sp : Bool} (h : m.instr = .sst d a c sp) : s.storeBytes m l p = (leBytes 8 (m.opa.getD 0 0).toNat, 0) := by
  unfold State.storeBytes
  rw [h]

theorem storeBytes_element {d : BitVec 6} {a c : Src} {x : Space} (h : m.instr = .vste d a c x) :
    (modeType m.mode ≠ .d → s.storeBytes m l p = (leBytes (width (modeType m.mode) / 8) (m.opb.getD l 0).toNat, 0)) ∧
    (modeType m.mode = .d →
      (∀ f, Usable (s.desc p.ofs) f → s.storeBytes m l p =
        (leBytes 1 (convertVal f (modeRnd m.mode) (modeSat m.mode) (scaleVal (-((s.desc p.ofs / 16 % 256 : Nat) - 127)) (decodeElem .f32 (sub (m.opb.getD l 0) 0 .f32)))).1,
          (convertVal f (modeRnd m.mode) (modeSat m.mode) (scaleVal (-((s.desc p.ofs / 16 % 256 : Nat) - 127)) (decodeElem .f32 (sub (m.opb.getD l 0) 0 .f32)))).2)) ∧
      ((∀ f, ¬ Usable (s.desc p.ofs) f) → (s.storeBytes m l p).2 = flINV)) := by
  unfold State.storeBytes
  rw [h]
  refine ⟨fun ht => if_neg ht, fun ht => ⟨fun f hf => ?_, fun hno => ?_⟩⟩
  · dsimp only
    rw [if_pos ht, describedStore_usable hf]
  · dsimp only
    rw [if_pos ht]
    exact describedStore_unusable hno _ _ _

end

end Sys2Proof.Proofs.LaneValues
end

section
/-! SUPPORT. One lane of an accepted load, store or sample performs (R132-R134, R147, R254): O15. -/

namespace Sys2Proof.Proofs.LanePerforms

open Sys2Proof Sys2Proof.Machine Sys2Proof.Laws Sys2Proof.Proofs.Lanes Sys2Proof.Proofs.Frames

/-! ## ACCESS_PERFORM of one lane -/

theorem lanesOf_laneBit : ∀ l, l < 32 → lanesOf (laneBit l) = [l] := by decide

/-- Lane l of an operation has performed. -/
def struck (l : Nat) (m : MemOp) : MemOp := { m with todo := m.todo &&& ~~~ laneBit l }

/-- Lane l of operation id has performed, in the group's queue. -/
def strike (id l : Nat) (g : Group) : Group := { g with memq := g.memq.map fun x => if x.id = id then struck l x else x }

theorem find?_strike {q : List MemOp} {id l : Nat} {m : MemOp} (h : q.find? (fun x => x.id == id) = some m) :
    (q.map fun x => if x.id = id then struck l x else x).find? (fun x => x.id == id) = some (struck l m) := by
  rw [List.find?_map]
  have hid : (fun x : MemOp => x.id == id) ∘ (fun x => if x.id = id then struck l x else x) = fun x => x.id == id := by
    funext x
    dsimp only [Function.comp]
    split <;> rfl
  rw [hid, h, Option.map_some, if_pos (beq_iff_eq.1 (List.find?_some (p := fun x : MemOp => x.id == id) h))]

section
variable {s : State} {gr : GRef} {k l : Nat} {b : Block} {g : Group} {m : MemOp} (h : s.MayAccess gr k l b g m)
include h

theorem performEach_lane : s.performEach gr m.id (laneBit l) = (s.performLane gr b g m l).modGroup gr (strike m.id l) := by
  unfold State.performEach
  rw [lanesOf_laneBit l h.lane, List.foldl_cons, List.foldl_nil, h.block, h.group]
  dsimp only
  rw [h.first]
  exact if_pos (by rw [h.accepted, h.todo, h.order]; rfl)

/-- What is left of a group whose lane has performed. -/
def laneDone (m : MemOp) (l : Nat) (g : Group) : Group := (strike m.id l g).dropStores

/-- A lane's access performs; beyond it, the operation notes the lane as performed. -/
theorem exec_lane {g1 : Group} (hg : (s.performLane gr b g m l).group? gr = some g1) (hq : g1.memq = g.memq) :
    ∃ t, exec (.accessPerform gr k (laneBit l)) s = .next t ∧ t.group? gr = some (laneDone m l g1) ∧ (∀ x, t.byte x = (s.performLane gr b g m l).byte x) ∧
      (∀ pa, t.desc pa = (s.performLane gr b g m l).desc pa) ∧ ∀ o, o ≠ gr → t.group? o = s.group? o := by
  have hstruck : ((s.performLane gr b g m l).modGroup gr (strike m.id l)).group? gr = some (strike m.id l g1) := group?_modGroup_self _ hg
  have hlanes : s.performLanes gr m.id (laneBit l) = ((s.performLane gr b g m l).modGroup gr (strike m.id l)).rowPoison (struck l m) := by
    unfold State.performLanes
    dsimp only
    rw [performEach_lane h, hstruck]
    have hfind : (strike m.id l g1).memq.find? (fun x => x.id == m.id) = some (struck l m) := find?_strike (hq ▸ h.first)
    rw [Option.bind_some, hfind]
  have hsame : SameBytes ((s.performLane gr b g m l).modGroup gr (strike m.id l)) (s.performLanes gr m.id (laneBit l)) := by
    rw [hlanes]
    unfold State.rowPoison
    split
    · exact same_clearCovered _ _
    · exact .refl _
  refine ⟨(s.performLanes gr m.id (laneBit l)).modGroup gr Group.dropStores, ?_, group?_modGroup_self _ ((hsame.group? gr).trans hstruck), fun x => ?_, fun pa => ?_,
    fun o ho => ?_⟩
  · show execAccessPerform gr k (laneBit l) s = _
    unfold execAccessPerform
    rw [h.block, h.group]
    dsimp only
    rw [h.place]
    exact if_pos h.accepted
  · exact (byte_modGroup _ _ _ x).trans ((hsame.byte x).trans (byte_modGroup _ _ _ x))
  · unfold State.desc
    rw [modGroup_descs, hsame.descs, modGroup_descs]
  · exact (group?_modGroup_ne _ ho).trans (others_performLanes s gr m.id _ o ho)

end

theorem kept_laneDone {g g1 : Group} (h : g.Kept g1) (m : MemOp) (l : Nat) : g.Kept (laneDone m l g1) := h

theorem performed_laneDone {g g1 : Group} (hq : g1.memq = g.memq) (m : MemOp) (l : Nat) : g.Performed (laneDone m l g1) m.id l := by
  intro x hx hid
  obtain ⟨y, hy, rfl⟩ := List.mem_map.1 (List.mem_filter.1 hx).1
  by_cases hyid : y.id = m.id
  · rw [if_pos hyid] at hid ⊢
    exact ⟨y, hq ▸ hy, hyid, rfl⟩
  · rw [if_neg hyid] at hid
    exact absurd hid hyid

/-! ## The registers of a load's lane -/

theorem rdV_wrV_lane (g : Group) (wb d l : Nat) (x : Word) (n : Nat) {k : Nat} (hk : k < 32) (hl : l < 32) :
    (g.wrV wb d l x).rdV wb n k = if k = l ∧ (wb + n) % g.av = (wb + d) % g.av then x else g.rdV wb n k := by
  split
  next h =>
    obtain ⟨rfl, hkey⟩ := h
    have : g.vkey wb n k = g.vkey wb d k := by
      unfold Group.vkey
      rw [hkey]
    unfold Group.rdV Group.wrV
    rw [show Group.vkey { g with v := SMap.set 0 g.v (g.vkey wb d k) x } wb n k = g.vkey wb n k from rfl, this]
    exact get_set_self _ _ _
  next h => exact rdV_wrV_ne g wb d l wb n k x fun heq => h ⟨(vkey_inj hk hl heq).2, (vkey_inj hk hl heq).1⟩

/-- A load's lane has received q: the destination, the group's reads and its flags. -/
def loaded (m : MemOp) (l : Nat) (q : (Word × Word × Flags) × List Rel) (g : Group) : Group :=
  let g := g.writeLoad m l q.1.1 q.1.2.1
  let g := { g with reads := g.reads ++ (if laneIn m.help l then [] else q.2).filter fun x => !g.reads.contains x }
  if laneIn m.help l then g else { g with flags := g.flags ||| q.1.2.2 }

section
variable (g : Group) (m : MemOp) (l : Nat) (x y : Word)

theorem writeLoad_scalar {d : Nat} (h : loadDestS m.instr = some d) : g.writeLoad m l x y = g.wrS m.wb d x := by
  unfold Group.writeLoad
  rw [h]

theorem writeLoad_one {d : Nat} (hs : loadDestS m.instr = none) (h : loadDest m.instr = [d]) : g.writeLoad m l x y = g.wrV m.wb d l x := by
  unfold Group.writeLoad
  rw [hs, h]

theorem writeLoad_two {d e : Nat} (hs : loadDestS m.instr = none) (h : loadDest m.instr = [d, e]) :
    g.writeLoad m l x y = (g.wrV m.wb d l x).wrV m.wb e l y := by
  unfold Group.writeLoad
  rw [hs, h]

theorem writeLoad_keeps : ∃ v r, g.writeLoad m l x y = { g with v := v, s := r } := by
  unfold Group.writeLoad
  split
  · exact ⟨_, _, rfl⟩
  · split <;> exact ⟨_, _, rfl⟩

end

section
variable (m : MemOp) (l : Nat) (q : (Word × Word × Flags) × List Rel) (g : Group)

theorem loaded_v : (loaded m l q g).v = (g.writeLoad m l q.1.1 q.1.2.1).v := by
  unfold loaded
  dsimp only
  split <;> rfl

theorem loaded_s : (loaded m l q g).s = (g.writeLoad m l q.1.1 q.1.2.1).s := by
  unfold loaded
  dsimp only
  split <;> rfl

theorem loaded_flags : (loaded m l q g).flags = g.flags ||| if laneIn m.help l then 0 else q.1.2.2 := by
  obtain ⟨v, r, hw⟩ := writeLoad_keeps g m l q.1.1 q.1.2.1
  unfold loaded
  dsimp only
  rw [hw]
  cases laneIn m.help l with
  | true => exact BitVec.or_zero.symm
  | false => rfl

theorem loaded_memq : (loaded m l q g).memq = g.memq := by
  obtain ⟨v, r, hw⟩ := writeLoad_keeps g m l q.1.1 q.1.2.1
  unfold loaded
  dsimp only
  rw [hw]
  split <;> rfl

theorem kept_loaded : g.Kept (loaded m l q g) := by
  obtain ⟨v, r, hw⟩ := writeLoad_keeps g m l q.1.1 q.1.2.1
  unfold Group.Kept loaded
  dsimp only
  rw [hw]
  split <;> rfl

theorem loaded_av : (loaded m l q g).av = g.av := by
  have hav := congrArg Group.av (kept_loaded m l q g)
  exact hav

theorem rdV_loaded (n k : Nat) : (loaded m l q g).rdV m.wb n k = (g.writeLoad m l q.1.1 q.1.2.1).rdV m.wb n k := by
  obtain ⟨v, r, hw⟩ := writeLoad_keeps g m l q.1.1 q.1.2.1
  unfold Group.rdV Group.vkey
  rw [loaded_v, loaded_av, hw]

end

/-- What lane l of a load leaves of its group, by the registers it writes (R132, R133). -/
theorem loaded_registers (m : MemOp) {l : Nat} (hl : l < 32) (q : (Word × Word × Flags) × List Rel) (g : Group) :
    (∀ d, loadDestS m.instr = some d → (loaded m l q g).v = g.v ∧
      ∀ n, (loaded m l q g).rdS m.wb n = if (m.wb + n) % 256 = (m.wb + d) % 256 then q.1.1 else g.rdS m.wb n) ∧
    (∀ d, loadDestS m.instr = none → loadDest m.instr = [d] → (loaded m l q g).s = g.s ∧ ∀ n x, x < 32 →
      (loaded m l q g).rdV m.wb n x = if x = l ∧ (m.wb + n) % g.av = (m.wb + d) % g.av then q.1.1 else g.rdV m.wb n x) ∧
    ∀ d e, loadDestS m.instr = none → loadDest m.instr = [d, e] → (loaded m l q g).s = g.s ∧ ∀ n x, x < 32 →
      (loaded m l q g).rdV m.wb n x = if x = l ∧ (m.wb + n) % g.av = (m.wb + e) % g.av then q.1.2.1
        else if x = l ∧ (m.wb + n) % g.av = (m.wb + d) % g.av then q.1.1 else g.rdV m.wb n x := by
  refine ⟨fun d hd => ?_, fun d hs hd => ?_, fun d e hs hd => ?_⟩
  · rw [loaded_v, writeLoad_scalar _ _ _ _ _ hd]
    refine ⟨rfl, fun n => ?_⟩
    unfold Group.rdS
    rw [loaded_s, writeLoad_scalar _ _ _ _ _ hd]
    exact get_set _ _ _ _
  · rw [loaded_s, writeLoad_one _ _ _ _ _ hs hd]
    refine ⟨rfl, fun n x hx => ?_⟩
    rw [rdV_loaded, writeLoad_one _ _ _ _ _ hs hd, rdV_wrV_lane _ _ _ _ _ _ hx hl]
  · rw [loaded_s, writeLoad_two _ _ _ _ _ hs hd]
    refine ⟨rfl, fun n x hx => ?_⟩
    rw [rdV_loaded, writeLoad_two _ _ _ _ _ hs hd, rdV_wrV_lane _ _ _ _ _ _ hx hl, rdV_wrV_lane _ _ _ _ _ _ hx hl]
    rfl

/-! ## What each instruction's lane does -/

/-- A load that reads one place. -/
structure PlainLoad (i : Instr) : Prop where
  load : isLoad i = true
  noGather : ∀ d r c x, i ≠ .vgath d r c x
  noSample : ∀ d a c hi, i ≠ .samp d a c hi ∧ i ≠ .sampg d a c hi

/-- A sample. -/
def Samples (i : Instr) (hi : Bool) : Prop := ∃ d a c, i = .samp d a c hi ∨ i = .sampg d a c hi

/-- A store that writes the bytes of one place. -/
def PlainStore (i : Instr) : Prop := (∃ d a c x, i = .vst d a c x ∨ i = .vste d a c x ∨ i = .vstb d a c x) ∨ ∃ d a c sp, i = .sst d a c sp

/-- A descriptor that the hardware does not sample (R147). -/
theorem sampleValue_none (s : State) {m : MemOp} (h : m.tex = none) (l : Nat) (hi : Bool) : s.sampleValue m l hi = (0x7FC000007FC00000, flINV) := by
  unfold State.sampleValue
  rw [h]
  show (packSubs .f32 [canonNaN .f32, canonNaN .f32], flINV) = _
  decide

/-- What a lane receives: what it held at its acceptance, where a racing write has come between (R268, R270). -/
def held {α : Type} (s : State) (who : Who) (m : MemOp) (l : Nat) (before : (Word × Word × Flags) × List Rel → α) (now : α) : α :=
  match m.got.find? (fun x => x.1 == l) with
  | some x => if s.overtaken who m l then before x.2 else now
  | none => now

section
variable (s : State) (who : Who) (m : MemOp) (l : Nat)

theorem laneRead_plain (h : PlainLoad m.instr) (p : Loc) : (s.laneRead who m l p).1 = held s who m l (·.1) (s.loadValue m p) := by
  have hnow : (s.laneNow m l p).1 = s.loadValue m p := by
    unfold State.laneNow
    split
    next hi => exact absurd hi (h.noSample _ _ _ _).1
    next hi => exact absurd hi (h.noSample _ _ _ _).2
    · rfl
  unfold State.laneRead held
  cases m.got.find? (fun x => x.1 == l) with
  | none => exact hnow
  | some x =>
    dsimp only
    split
    · rfl
    · exact hnow

theorem laneRead_sample {hi : Bool} (h : Samples m.instr hi) (p : Loc) :
    ((s.laneRead who m l p).1.1, (s.laneRead who m l p).1.2.2) = held s who m l (fun x => (x.1.1, x.1.2.2)) (s.sampleValue m l hi) := by
  have hnow : ((s.laneNow m l p).1.1, (s.laneNow m l p).1.2.2) = s.sampleValue m l hi := by
    obtain ⟨d, a, c, h | h⟩ := h <;> unfold State.laneNow <;> rw [h]
  unfold State.laneRead held
  cases m.got.find? (fun x => x.1 == l) with
  | none => exact hnow
  | some x =>
    dsimp only
    split
    · rfl
    · exact hnow

end

section
variable {s : State} {gr : GRef} {b : Block} {g : Group} {m : MemOp} {l : Nat} {p : Loc} {w c : Bool} (hplace : m.accs.find? (fun x => x.1 == l) = some (l, p, w, c))

theorem performLane_sample {hi : Bool} (h : Samples m.instr hi) (hhelp : laneIn m.help l = false) :
    s.performLane gr b g m l = s.modGroup gr fun g' => loaded m l
      (((s.laneRead (s.memWho b g gr.grp m) m l ⟨.pkg, 0⟩).1.1, 0, (s.laneRead (s.memWho b g gr.grp m) m l ⟨.pkg, 0⟩).1.2.2),
        (s.laneRead (s.memWho b g gr.grp m) m l ⟨.pkg, 0⟩).2) g' := by
  unfold State.performLane loaded
  obtain ⟨d, a, c, h | h⟩ := h <;> rw [h] <;> simp only [hhelp, Bool.false_and, Bool.false_eq_true, if_false]

include hplace

theorem performLane_load (h : PlainLoad m.instr) :
    s.performLane gr b g m l = s.modGroup gr (loaded m l (s.laneRead (s.memWho b g gr.grp m) m l p)) := by
  unfold State.performLane
  split
  next hi => exact absurd hi (h.noSample _ _ _ _).1
  next hi => exact absurd hi (h.noSample _ _ _ _).2
  next hi => exact nomatch (congrArg isLoad hi).symm.trans h.load
  next hi => exact nomatch (congrArg isLoad hi).symm.trans h.load
  · rw [hplace, if_pos h.load]
    rfl

/-- The bytes of a store's lane are at its place. -/
def written (s : State) (gr : GRef) (b : Block) (g : Group) (m : MemOp) (l : Nat) (p : Loc) (w c : Bool) : State :=
  s.perform (s.memWho b g gr.grp m) ⟨p, w, c, false⟩ (s.storeBytes m l p).1

theorem performLane_store (h : PlainStore m.instr) :
    s.performLane gr b g m l = (written s gr b g m l p w c).modGroup gr fun g => { g with flags := g.flags ||| (s.storeBytes m l p).2 } := by
  unfold State.performLane
  rw [hplace]
  obtain ⟨d, a, c, x, h | h | h⟩ | ⟨d, a, c, sp, h⟩ := h <;> rw [h] <;> rfl

theorem performLane_stds {d : BitVec 6} {a e : Src} (h : m.instr = .stds d a e) :
    s.performLane gr b g m l = s.performStds (s.memWho b g gr.grp m) p w c (m.opb.getD l 0) := by
  unfold State.performLane
  rw [hplace, h]
  rfl

end

/-! ## Descriptors -/

theorem desc_setDescs (s : State) (a x : Nat) (v : Nat → Nat) (n : Nat) :
    ((List.range n).foldl (fun s j => s.setDesc (a + 64 * j) (v j)) s).desc (64 * x) = if a / 64 ≤ x ∧ x < a / 64 + n then v (x - a / 64) else s.desc (64 * x) := by
  induction n with
  | zero => exact (if_neg (by omega)).symm
  | succ n ih =>
    rw [List.range_succ, List.foldl_append, List.foldl_cons, List.foldl_nil]
    unfold State.desc at ih ⊢
    refine (get_set _ _ _ _).trans ?_
    rw [ih]
    by_cases hx : 64 * x / 64 = (a + 64 * n) / 64
    · rw [if_pos hx, if_pos (by omega), show x - a / 64 = n by omega]
    · rw [if_neg hx]
      exact if_congr (by omega) rfl rfl

theorem bare_setDescs (s : State) (a : Nat) (v : Nat → Nat) (l : List Nat) :
    ∃ ds, l.foldl (fun s j => s.setDesc (a + 64 * j) (v j)) s = { s with descs := ds } := by
  induction l generalizing s with
  | nil => exact ⟨_, rfl⟩
  | cons j l ih =>
    obtain ⟨ds, hds⟩ := ih (s.setDesc (a + 64 * j) (v j))
    exact ⟨ds, hds⟩

theorem performStds_facts (s : State) (who : Who) (p : Loc) (w c : Bool) (x : Word) :
    (∀ y, (s.performStds who p w c x).byte y = s.byte y) ∧ (∀ gr, (s.performStds who p w c x).group? gr = s.group? gr) ∧
      ∀ j, (s.performStds who p w c x).desc (64 * j) = if p.ofs / 64 ≤ j ∧ j < p.ofs / 64 + 4 then sub x (j - p.ofs / 64) .n16 else s.desc (64 * j) := by
  have hlog : SameBytes s (if c then s.undoLog who p.ofs 256 else s) := same_ite _ (same_undoLog s who p.ofs 256)
  unfold State.performStds
  dsimp only
  generalize (if c then s.undoLog who p.ofs 256 else s) = s1 at hlog ⊢
  obtain ⟨ds, hds⟩ := bare_setDescs s1 p.ofs (fun j => sub x j .n16) (List.range 4)
  have hdesc := desc_setDescs s1 p.ofs (v := fun j => sub x j .n16) (n := 4)
  generalize (List.range 4).foldl (fun s j => s.setDesc (p.ofs + 64 * j) (sub x j .n16)) s1 = s2 at hds hdesc ⊢
  have hend : SameBytes s2 (State.publish (if p.store = .pkg then (if w then (s2.claim who p 256).pinRange who p.ofs 256 else s2).clearPoison p.ofs 256
      else (if w then (s2.claim who p 256).pinRange who p.ofs 256 else s2)) who p 256) :=
    ((same_ite _ ((same_claim s2 who p 256).trans (same_pinRange _ who p.ofs 256))).trans (same_ite _ (same_clearPoison _ p.ofs 256))).trans (same_publish _ who p 256)
  refine ⟨fun y => (hend.byte y).trans ?_, fun gr => (hend.group? gr).trans ?_, fun j => ?_⟩
  · rw [← hlog.byte y, hds]
    exact SameBytes.byte ⟨rfl, rfl, rfl, rfl⟩ y
  · rw [← hlog.group? gr, hds]
    rfl
  · have hafter : ∀ y, State.desc (State.publish (if p.store = .pkg then (if w then (s2.claim who p 256).pinRange who p.ofs 256 else s2).clearPoison p.ofs 256
      else (if w then (s2.claim who p 256).pinRange who p.ofs 256 else s2)) who p 256) y = s2.desc y := fun y => by
      unfold State.desc
      rw [hend.descs]
    rw [hafter, hdesc]
    refine if_congr Iff.rfl rfl ?_
    unfold State.desc
    rw [hlog.descs]

/-! ## A lane performs -/

section
variable {s : State} {gr : GRef} {k l : Nat} {b : Block} {g : Group} {m : MemOp} {p : Loc} {w c : Bool} (h : s.MayAccess gr k l b g m)
  (hplace : m.accs.find? (fun x => x.1 == l) = some (l, p, w, c))
include h

theorem lane_samples {hi : Bool} (hs : Samples m.instr hi) (hhelp : laneIn m.help l = false) {d : Nat} (hd : loadDest m.instr = [d]) (hno : loadDestS m.instr = none)
    {r : Word × Flags} (hr : r = held s (s.memWho b g gr.grp m) m l (fun x => (x.1.1, x.1.2.2)) (s.sampleValue m l hi)) :
    ∃ t g', exec (.accessPerform gr k (laneBit l)) s = .next t ∧ t.group? gr = some g' ∧ g.Kept g' ∧ g.Performed g' m.id l ∧ (∀ x, t.byte x = s.byte x) ∧
      g'.s = g.s ∧ (∀ n x, x < 32 → g'.rdV m.wb n x = if x = l ∧ (m.wb + n) % g.av = (m.wb + d) % g.av then r.1 else g.rdV m.wb n x) ∧ g'.flags = g.flags ||| r.2 := by
  obtain rfl := hr.trans (laneRead_sample s _ m l hs ⟨.pkg, 0⟩).symm
  have hlane := performLane_sample (s := s) (gr := gr) (b := b) (g := g) hs hhelp
  obtain ⟨t, hexec, hg, hbyte, -, -⟩ := exec_lane h (hlane ▸ group?_modGroup_self _ h.group) (loaded_memq _ _ _ _)
  obtain ⟨-, hone, -⟩ := loaded_registers m h.lane (((s.laneRead (s.memWho b g gr.grp m) m l ⟨.pkg, 0⟩).1.1, 0, (s.laneRead (s.memWho b g gr.grp m) m l ⟨.pkg, 0⟩).1.2.2),
    (s.laneRead (s.memWho b g gr.grp m) m l ⟨.pkg, 0⟩).2) g
  obtain ⟨hscalar, hvec⟩ := hone d hno hd
  refine ⟨t, _, hexec, hg, kept_laneDone (kept_loaded m l _ g) m l, performed_laneDone (loaded_memq _ _ _ _) m l, fun x => ?_, hscalar, hvec, ?_⟩
  · rw [hbyte, hlane, byte_modGroup]
  · refine (loaded_flags m l _ g).trans ?_
    rw [hhelp]
    rfl

include hplace

theorem lane_loads (hp : PlainLoad m.instr) {r : Word × Word × Flags} (hr : r = held s (s.memWho b g gr.grp m) m l (·.1) (s.loadValue m p)) :
    ∃ t g', exec (.accessPerform gr k (laneBit l)) s = .next t ∧ t.group? gr = some g' ∧ g.Kept g' ∧ g.Performed g' m.id l ∧
      (∀ x, t.byte x = s.byte x) ∧ (∀ o, o ≠ gr → t.group? o = s.group? o) ∧
      (∀ d, loadDestS m.instr = some d → g'.v = g.v ∧ ∀ n, g'.rdS m.wb n = if (m.wb + n) % 256 = (m.wb + d) % 256 then r.1 else g.rdS m.wb n) ∧
      (∀ d, loadDestS m.instr = none → loadDest m.instr = [d] → g'.s = g.s ∧ ∀ n x, x < 32 →
        g'.rdV m.wb n x = if x = l ∧ (m.wb + n) % g.av = (m.wb + d) % g.av then r.1 else g.rdV m.wb n x) ∧
      (∀ d e, loadDestS m.instr = none → loadDest m.instr = [d, e] → g'.s = g.s ∧ ∀ n x, x < 32 →
        g'.rdV m.wb n x = if x = l ∧ (m.wb + n) % g.av = (m.wb + e) % g.av then r.2.1
          else if x = l ∧ (m.wb + n) % g.av = (m.wb + d) % g.av then r.1 else g.rdV m.wb n x) ∧
      g'.flags = g.flags ||| if laneIn m.help l then 0 else r.2.2 := by
  obtain rfl := hr.trans (laneRead_plain s _ m l hp p).symm
  have hlane := performLane_load (s := s) (gr := gr) (b := b) (g := g) hplace hp
  obtain ⟨t, hexec, hg, hbyte, -, hothers⟩ := exec_lane h (hlane ▸ group?_modGroup_self _ h.group) (loaded_memq _ _ _ _)
  obtain ⟨hscalar, hone, htwo⟩ := loaded_registers m h.lane (s.laneRead (s.memWho b g gr.grp m) m l p) g
  have hkept := kept_loaded m l (s.laneRead (s.memWho b g gr.grp m) m l p) g
  have hmemq := loaded_memq m l (s.laneRead (s.memWho b g gr.grp m) m l p) g
  have hflags := loaded_flags m l (s.laneRead (s.memWho b g gr.grp m) m l p) g
  generalize loaded m l (s.laneRead (s.memWho b g gr.grp m) m l p) g = g1 at hg hscalar hone htwo hkept hmemq hflags
  refine ⟨t, _, hexec, hg, kept_laneDone hkept m l, performed_laneDone hmemq m l, fun x => ?_, hothers, hscalar, hone, htwo, hflags⟩
  rw [hbyte, hlane, byte_modGroup]

theorem lane_stores (hholds : s.holds p.store = true) (hp : PlainStore m.instr) :
    ∃ t g', exec (.accessPerform gr k (laneBit l)) s = .next t ∧ t.group? gr = some g' ∧ g.Kept g' ∧ g.Performed g' m.id l ∧
      g'.v = g.v ∧ g'.s = g.s ∧ g'.flags = g.flags ||| (s.storeBytes m l p).2 ∧ s.Stored t p (s.storeBytes m l p).1 ∧ ∀ o, o ≠ gr → t.group? o = s.group? o := by
  have hlane := performLane_store (s := s) (gr := gr) (b := b) (g := g) hplace hp
  have hgroup : (written s gr b g m l p w c).group? gr = some g := (group?_perform _ _ _ _ _).trans h.group
  obtain ⟨t, hexec, hg, hbyte, -, hothers⟩ := exec_lane (g1 := { g with flags := g.flags ||| (s.storeBytes m l p).2 }) h (hlane ▸ group?_modGroup_self _ hgroup) rfl
  obtain ⟨hw, hk⟩ := stored_perform s (s.memWho b g gr.grp m) ⟨p, w, c, false⟩ (s.storeBytes m l p).1 hholds
  have hsame : ∀ x, t.byte x = (written s gr b g m l p w c).byte x := fun x => by rw [hbyte, hlane, byte_modGroup]
  exact ⟨t, _, hexec, hg, rfl, performed_laneDone (g1 := { g with flags := g.flags ||| (s.storeBytes m l p).2 }) rfl m l, rfl, rfl, rfl,
    ⟨fun j hj => (hsame _).trans (hw j hj), fun x hx => (hsame x).trans (hk x hx)⟩, hothers⟩

theorem lane_stds {d : BitVec 6} {a e : Src} (hi : m.instr = .stds d a e) :
    ∃ t g', exec (.accessPerform gr k (laneBit l)) s = .next t ∧ t.group? gr = some g' ∧ g.Kept g' ∧ g.Performed g' m.id l ∧
      g'.v = g.v ∧ g'.s = g.s ∧ (∀ x, t.byte x = s.byte x) ∧
      ∀ j, t.desc (64 * j) = if p.ofs / 64 ≤ j ∧ j < p.ofs / 64 + 4 then sub (m.opb.getD l 0) (j - p.ofs / 64) .n16 else s.desc (64 * j) := by
  have hlane := performLane_stds (s := s) (gr := gr) (b := b) (g := g) hplace hi
  obtain ⟨hbytes, hgroups, hdescs⟩ := performStds_facts s (s.memWho b g gr.grp m) p w c (m.opb.getD l 0)
  obtain ⟨t, hexec, hg, hbyte, hdesc, -⟩ := exec_lane (g1 := g) h (hlane ▸ (hgroups gr).trans h.group) rfl
  refine ⟨t, _, hexec, hg, rfl, performed_laneDone rfl m l, rfl, rfl, fun x => (hbyte x).trans ?_, fun j => (hdesc _).trans ?_⟩
  · rw [hlane]
    exact hbytes x
  · rw [hlane]
    exact hdescs j

end

end Sys2Proof.Proofs.LanePerforms
end

section
/-! SUPPORT. VGATH, one element at a time (R135): O15. -/

namespace Sys2Proof.Proofs.Gathering

open Sys2Proof Sys2Proof.Machine Sys2Proof.Laws Sys2Proof.Proofs.Lanes Sys2Proof.Proofs.Accepting Sys2Proof.Proofs.LanePerforms Sys2Proof.Proofs.Ends

/-! ## One element -/

/-- The lane of the element that is next, its sub-element there, and its request. -/
def gathLane (m : MemOp) : Nat := m.pix / nsub (modeType m.mode)

def gathSub (m : MemOp) : Nat := m.pix % nsub (modeType m.mode)

def gathReq (m : MemOp) : Req :=
  ⟨Machine.spaceOf m.instr, m.gathAddr m.pix, width (modeType m.mode) / 8, decide ((m.gathAddr m.pix).toNat % (width (modeType m.mode) / 8) = 0), true, false, false, true,
    Machine.spaceOf m.instr == .gl || Machine.spaceOf m.instr == .sp⟩

/-- The check of the element that is next. -/
def gathCheck (s : State) (gr : GRef) (b : Block) (g : Group) (m : MemOp) (race : Bool) : Except Trap Acc :=
  s.check (s.memWho b g gr.grp m) b (coreIdx gr.grp) (gathReq m) race

/-- The element has the value v in its lane's register. -/
def putElem (m : MemOp) (d v : Nat) (g : Group) : Group :=
  g.wrV m.wb d (gathLane m) (packSubs (modeType m.mode) ((List.range (nsub (modeType m.mode))).map fun k =>
    if k = gathSub m then v else sub (g.rdV m.wb d (gathLane m)) k (modeType m.mode)))

/-- The group has met the releases. -/
def meets (met : List Rel) (g : Group) : Group := { g with reads := g.reads ++ met.filter fun r => !g.reads.contains r }

/-- A guarded element has been read. -/
def elemRead (s : State) (gr : GRef) (m : MemOp) (d : Nat) (p : Loc) : State :=
  ((s.request p (.read p.ofs (gathReq m).n)).modGroup gr (putElem m d (s.num p (gathReq m).n))).modGroup gr (meets (s.relsAt p (gathReq m).n))

section
variable {s : State} {gr : GRef} {b : Block} {g : Group} {m : MemOp} {d : BitVec 6} {r : BitVec 6} {c : Src} {x : Space} (hi : m.instr = .vgath (.reg d) r c x)

theorem gathElem_error (hl : laneIn m.lanes (gathLane m) = true) {f : Trap} (hf : gathCheck s gr b g m true = .error f) :
    s.gathElem gr b g m m.pix = .error { f with lane := gathLane m } := by
  unfold gathCheck gathReq at hf
  unfold gathLane at hl ⊢
  unfold State.gathElem
  simp only [hl, hf, if_true]

theorem gathElem_waits (hl : laneIn m.lanes (gathLane m) = true) {a : Acc} (ha : gathCheck s gr b g m true = .ok a) (hc : g.clearFor m.id a.loc (gathReq m).n = false) :
    s.gathElem gr b g m m.pix = .ok none := by
  unfold gathCheck gathReq at ha
  unfold gathReq at hc
  unfold gathLane at hl
  unfold State.gathElem
  simp only [hl, ha, hc, if_true, Bool.not_false]

theorem gathElem_none (hl : laneIn m.lanes (gathLane m) = false) (hh : laneIn m.help (gathLane m) = false) : s.gathElem gr b g m m.pix = .ok (some s) := by
  unfold gathLane at hl hh
  unfold State.gathElem
  simp only [hl, hh, Bool.false_eq_true, if_false]

include hi

theorem gathElem_reads (hl : laneIn m.lanes (gathLane m) = true) {a : Acc} (ha : gathCheck s gr b g m true = .ok a) (hc : g.clearFor m.id a.loc (gathReq m).n = true) :
    s.gathElem gr b g m m.pix = .ok (some (elemRead s gr m d.toNat a.loc)) := by
  have hdest : loadDest m.instr = [d.toNat] := by rw [hi]; rfl
  unfold gathCheck gathReq at ha
  unfold gathReq at hc
  unfold gathLane at hl
  unfold State.gathElem
  simp only [hl, ha, hc, hdest, if_true, Bool.not_true, Bool.false_eq_true, if_false]
  rfl

theorem gathElem_zero (hl : laneIn m.lanes (gathLane m) = false) (hh : laneIn m.help (gathLane m) = true) {f : Trap} (hf : gathCheck s gr b g m false = .error f) :
    s.gathElem gr b g m m.pix = .ok (some (s.modGroup gr (putElem m d.toNat 0))) := by
  have hdest : loadDest m.instr = [d.toNat] := by rw [hi]; rfl
  unfold gathCheck gathReq at hf
  unfold gathLane at hl hh
  unfold State.gathElem
  simp only [hl, hh, hf, hdest, if_true, Bool.false_eq_true, if_false]
  rfl

theorem gathElem_helps (hl : laneIn m.lanes (gathLane m) = false) (hh : laneIn m.help (gathLane m) = true) {a : Acc} (ha : gathCheck s gr b g m false = .ok a)
    (hc : g.clearFor m.id a.loc (gathReq m).n = true) :
    s.gathElem gr b g m m.pix = .ok (some (s.modGroup gr (putElem m d.toNat (s.num a.loc (gathReq m).n)))) := by
  have hdest : loadDest m.instr = [d.toNat] := by rw [hi]; rfl
  unfold gathCheck gathReq at ha
  unfold gathReq at hc
  unfold gathLane at hl hh
  unfold State.gathElem
  simp only [hl, hh, ha, hc, hdest, if_true, Bool.not_true, Bool.false_eq_true, if_false]
  rfl

end

/-! ## What an element changes of the group -/

/-- Element e of operation m has been read: v is its value, none where its lane takes no part. -/
structure Gathered (g g' : Group) (m : MemOp) (d : Nat) (v : Option Nat) : Prop where
  pix : g'.pix = g.pix
  scalars : g'.s = g.s
  flags : g'.flags = g.flags
  memq : g'.memq = g.memq.map fun y => if y.id = m.id then { y with pix := m.pix + 1 } else y
  registers : ∀ w l, l < 32 → (∀ i, i < nsub (modeType m.mode) → ¬ ((m.wb + w) % g.av = (m.wb + d) % g.av ∧ l = gathLane m ∧ i = gathSub m) →
      sub (g'.rdV m.wb w l) i (modeType m.mode) = sub (g.rdV m.wb w l) i (modeType m.mode)) ∧
    ∀ z, v = some z → (m.wb + w) % g.av = (m.wb + d) % g.av → l = gathLane m → sub (g'.rdV m.wb w l) (gathSub m) (modeType m.mode) = z % 2 ^ width (modeType m.mode)

/-- What a reading of an element states of the group. -/
theorem Gathered.states {g g' : Group} {m : MemOp} {d : Nat} {v : Option Nat} (h : Gathered g g' m d v) :
    g'.pix = g.pix ∧ g'.s = g.s ∧ g'.flags = g.flags ∧ g'.memq = g.memq.map (fun y => if y.id = m.id then { y with pix := m.pix + 1 } else y) ∧
      ∀ w l, l < 32 → (∀ i, i < nsub (modeType m.mode) → ¬ ((m.wb + w) % g.av = (m.wb + d) % g.av ∧ l = gathLane m ∧ i = gathSub m) →
          sub (g'.rdV m.wb w l) i (modeType m.mode) = sub (g.rdV m.wb w l) i (modeType m.mode)) ∧
        ∀ z, v = some z → (m.wb + w) % g.av = (m.wb + d) % g.av → l = gathLane m → sub (g'.rdV m.wb w l) (gathSub m) (modeType m.mode) = z % 2 ^ width (modeType m.mode) :=
  ⟨h.pix, h.scalars, h.flags, h.memq, h.registers⟩

/-- The operation stands at its next element. -/
def advance (m : MemOp) (g : Group) : Group := { g with memq := g.memq.map fun y => if y.id = m.id then { y with pix := m.pix + 1 } else y }

theorem gathLane_lt {m : MemOp} (h : m.pix < 32 * nsub (modeType m.mode)) : gathLane m < 32 := Nat.div_lt_of_lt_mul (by rwa [Nat.mul_comm] at h)

theorem sub_putElem (m : MemOp) (d v : Nat) (g : Group) (hlt : gathLane m < 32) {w l i : Nat} (hl : l < 32) (hi : i < nsub (modeType m.mode)) :
    sub ((putElem m d v g).rdV m.wb w l) i (modeType m.mode) =
      if (m.wb + w) % g.av = (m.wb + d) % g.av ∧ l = gathLane m ∧ i = gathSub m then v % 2 ^ width (modeType m.mode) else sub (g.rdV m.wb w l) i (modeType m.mode) := by
  unfold putElem
  rw [rdV_wrV_lane _ _ _ _ _ _ hl hlt]
  by_cases hreg : l = gathLane m ∧ (m.wb + w) % g.av = (m.wb + d) % g.av
  · obtain ⟨rfl, hkey⟩ := hreg
    rw [if_pos ⟨rfl, hkey⟩, sub_packSubs_map _ _ hi]
    by_cases hsub : i = gathSub m
    · rw [if_pos hsub, if_pos ⟨hkey, rfl, hsub⟩]
    · have hsame : g.rdV m.wb w (gathLane m) = g.rdV m.wb d (gathLane m) := by
        unfold Group.rdV Group.vkey
        rw [hkey]
      rw [if_neg hsub, if_neg fun h => hsub h.2.2, hsame, Nat.mod_eq_of_lt (sub_lt _ _ _)]
  · rw [if_neg hreg, if_neg fun h => hreg ⟨h.2.1, h.1⟩]

theorem gathered_put (g : Group) {m : MemOp} (d z : Nat) (met : List Rel) (h : m.pix < 32 * nsub (modeType m.mode)) :
    Gathered g (advance m (meets met (putElem m d z g))) m d (some z) where
  pix := rfl
  scalars := rfl
  flags := rfl
  memq := rfl
  registers w l hl := by
    refine ⟨fun i hi hne => (sub_putElem m d z g (gathLane_lt h) hl hi).trans (if_neg hne), fun z' hz hkey hlane => ?_⟩
    obtain rfl := Option.some.inj hz
    exact (sub_putElem m d z g (gathLane_lt h) hl (Nat.mod_lt _ (nsub_pos _))).trans (if_pos ⟨hkey, hlane, rfl⟩)

theorem gathered_none (g : Group) (m : MemOp) (d : Nat) : Gathered g (advance m g) m d none :=
  ⟨rfl, rfl, rfl, rfl, fun _ _ _ => ⟨fun _ _ _ => rfl, fun _ hz => nomatch hz⟩⟩

/-! ## The run of one element -/

/-- The operation has read every element. -/
def gathEnd (id : Nat) (g : Group) : Group := { g with pix := 0, memq := g.memq.map fun y => if y.id = id then { y with accepted := true, todo := 0 } else y }

section
variable {s : State} {gr : GRef} {b : Block} {g : Group} {k : Nat} {m : MemOp} {d : BitVec 6} {r : BitVec 6} {c : Src} {x : Space} (h : NextIn s gr b g k m)
  (hfirst : g.memq.find? (fun n => n.id == m.id) = some m) (hi : m.instr = .vgath (.reg d) r c x) (lanes : BitVec 32)
include h

theorem acceptNext_gather {y : Dst} (hi : m.instr = .vgath y r c x) (n : Nat) : s.acceptNext gr n = ((s.gathRun gr m.id n).1, (s.gathRun gr m.id n).2.map fun t => (m.id, t)) := by
  unfold State.acceptNext
  simp only [h.block, h.group, find?_waiting h, hi]

include hfirst

theorem gathRun_end (hend : 32 * nsub (modeType m.mode) ≤ m.pix) (n : Nat) : s.gathRun gr m.id (n + 1) = (s.modGroup gr (gathEnd m.id), none) := by
  unfold State.gathRun
  rw [h.block, h.group]
  dsimp only
  rw [hfirst]
  exact if_pos hend

/-- One element, by what its read gives. -/
theorem gathRun_one (hlt : m.pix < 32 * nsub (modeType m.mode)) :
    (∀ t, s.gathElem gr b g m m.pix = .error t → s.gathRun gr m.id 1 = (s.modGroup gr fun g => { g with pix := BitVec.ofNat 64 m.pix }, some t)) ∧
    (s.gathElem gr b g m m.pix = .ok none → s.gathRun gr m.id 1 = (s, none)) ∧
    ∀ u, s.gathElem gr b g m m.pix = .ok (some u) → s.gathRun gr m.id 1 = (u.modGroup gr (advance m), none) := by
  have hrun : ∀ q, s.gathElem gr b g m m.pix = q → s.gathRun gr m.id 1 = match q with
      | .error t => (s.modGroup gr fun g => { g with pix := BitVec.ofNat 64 m.pix }, some t)
      | .ok none => (s, none)
      | .ok (some u) => (u.modGroup gr (advance m), none) := fun q hq => by
    unfold State.gathRun
    rw [h.block, h.group]
    dsimp only
    rw [hfirst]
    refine (if_neg (Nat.not_le.2 hlt)).trans ?_
    rw [hq]
    rcases q with t | (_ | u) <;> rfl
  exact ⟨fun t ht => hrun _ ht, fun ht => hrun _ ht, fun u hu => hrun _ hu⟩

include hi

theorem gather_ends (hend : 32 * nsub (modeType m.mode) ≤ m.pix) :
    exec (.accessPerform gr k lanes) s = .next (s.modGroup gr (gathEnd m.id)) := by
  rw [exec_next h, acceptNext_gather h hi, gathRun_end h hfirst hend]
  rfl

theorem gather_traps (hlt : m.pix < 32 * nsub (modeType m.mode)) {t : Trap} (ht : s.gathElem gr b g m m.pix = .error t) :
    exec (.accessPerform gr k lanes) s = .next (
      let u := s.modGroup gr fun g => { g with pix := BitVec.ofNat 64 m.pix }
      let v := u.memoryTrap gr m.id t
      if v.overPinned then u.pinRelease gr else v) := by
  obtain ⟨hrun, -, -⟩ := gathRun_one h hfirst hlt
  rw [exec_next h, acceptNext_gather h hi, hrun t ht]
  rfl

theorem gather_waits (hlt : m.pix < 32 * nsub (modeType m.mode)) (ht : s.gathElem gr b g m m.pix = .ok none) :
    exec (.accessPerform gr k lanes) s = .next s := by
  obtain ⟨-, hrun, -⟩ := gathRun_one h hfirst hlt
  rw [exec_next h, acceptNext_gather h hi, hrun ht]
  rfl

theorem gather_goes (hlt : m.pix < 32 * nsub (modeType m.mode)) {u : State} (hu : s.gathElem gr b g m m.pix = .ok (some u)) {g1 : Group} (hg : u.group? gr = some g1)
    (hbyte : ∀ y, u.byte y = s.byte y) {v : Option Nat} (hv : Gathered g (advance m g1) m d.toNat v) :
    ∃ t g', exec (.accessPerform gr k lanes) s = .next t ∧ t.group? gr = some g' ∧ (∀ y, t.byte y = s.byte y) ∧ Gathered g g' m d.toNat v := by
  obtain ⟨-, -, hrun⟩ := gathRun_one h hfirst hlt
  refine ⟨u.modGroup gr (advance m), advance m g1, ?_, group?_modGroup_self _ hg, fun y => (byte_modGroup _ _ _ y).trans (hbyte y), hv⟩
  rw [exec_next h, acceptNext_gather h hi, hrun u hu]
  rfl

theorem gather_reads (hlt : m.pix < 32 * nsub (modeType m.mode)) (hl : laneIn m.lanes (gathLane m) = true) {a : Acc} (ha : gathCheck s gr b g m true = .ok a)
    (hc : g.clearFor m.id a.loc (gathReq m).n = true) :
    ∃ t g', exec (.accessPerform gr k lanes) s = .next t ∧ t.group? gr = some g' ∧ (∀ y, t.byte y = s.byte y) ∧ Gathered g g' m d.toNat (some (s.num a.loc (gathReq m).n)) := by
  have hr := same_request s a.loc (.read a.loc.ofs (gathReq m).n)
  refine gather_goes h hfirst hi lanes hlt (gathElem_reads hi hl ha hc) (group?_modGroup_self _ (group?_modGroup_self _ ((hr.group? gr).trans h.group))) (fun y => ?_)
    (gathered_put g d.toNat _ _ hlt)
  unfold elemRead
  rw [byte_modGroup, byte_modGroup, hr.byte]

/-- An element of a helper lane. -/
theorem gather_helps (hlt : m.pix < 32 * nsub (modeType m.mode)) {z : Nat} (hu : s.gathElem gr b g m m.pix = .ok (some (s.modGroup gr (putElem m d.toNat z)))) :
    ∃ t g', exec (.accessPerform gr k lanes) s = .next t ∧ t.group? gr = some g' ∧ (∀ y, t.byte y = s.byte y) ∧ Gathered g g' m d.toNat (some z) := by
  refine gather_goes h hfirst hi lanes hlt hu (group?_modGroup_self _ h.group) (fun y => byte_modGroup _ _ _ y) ?_
  have hv := gathered_put g d.toNat z [] hlt
  have hnone : meets [] (putElem m d.toNat z g) = putElem m d.toNat z g := by
    unfold meets
    rw [List.filter_nil, List.append_nil]
  rwa [hnone] at hv

theorem gather_passes (hlt : m.pix < 32 * nsub (modeType m.mode)) (hl : laneIn m.lanes (gathLane m) = false) (hh : laneIn m.help (gathLane m) = false) :
    ∃ t g', exec (.accessPerform gr k lanes) s = .next t ∧ t.group? gr = some g' ∧ (∀ y, t.byte y = s.byte y) ∧ Gathered g g' m d.toNat none :=
  gather_goes h hfirst hi lanes hlt (gathElem_none hl hh) h.group (fun _ => rfl) (gathered_none g m d.toNat)

end

end Sys2Proof.Proofs.Gathering
end

section
/-! SUPPORT. The group's own loads and stores of many bytes, page by page (R219, R394): O15. -/

namespace Sys2Proof.Proofs.RangeAccesses

open Sys2Proof Sys2Proof.Machine Sys2Proof.Laws Sys2Proof.Proofs.Frames Sys2Proof.Proofs.StoreRuns Sys2Proof.Proofs.Ends Sys2Proof.Proofs.SyncWords

/-! ## The pages of a range -/

/-- Where the part of page j begins in a range from a on. -/
def partFrom (a : Word) (j : Nat) : Nat := if j = 0 then 0 else 4096 * j - a.toNat % 4096

/-- The bytes of page j in a range of n from a on. -/
def partLen (a : Word) (n j : Nat) : Nat := min (partFrom a (j + 1)) n - partFrom a j

/-- The pages that n bytes from a on touch. -/
def pageCount (a : Word) (n : Nat) : Nat := if n = 0 then 0 else (a.toNat % 4096 + n - 1) / 4096 + 1

def part (a : Word) (n j : Nat) : Word × Nat × Nat := (a + BitVec.ofNat 64 (partFrom a j), partFrom a j, partLen a n j)

theorem lt_pageCount {a : Word} {n j : Nat} : j < pageCount a n ↔ partFrom a j < n := by
  unfold pageCount partFrom
  have := Nat.mod_lt a.toNat (show 0 < 4096 by decide)
  split <;> split <;> omega

theorem pageCount_le (a : Word) (n : Nat) : pageCount a n ≤ n / 4096 + 2 := by
  unfold pageCount
  have := Nat.mod_lt a.toNat (show 0 < 4096 by decide)
  split <;> omega

theorem partFrom_mono (a : Word) {i j : Nat} (h : i ≤ j) : partFrom a i ≤ partFrom a j := by
  unfold partFrom
  split <;> split <;> omega

/-- The address at which the second page of a range begins. -/
theorem toNat_nextPage (a : Word) : (a + BitVec.ofNat 64 (4096 - a.toNat % 4096)).toNat % 4096 = 0 := by
  rw [BitVec.toNat_add, BitVec.toNat_ofNat]
  omega

theorem partFrom_succ (a : Word) (j : Nat) : partFrom a (j + 1) = 4096 - a.toNat % 4096 + partFrom (a + BitVec.ofNat 64 (4096 - a.toNat % 4096)) j := by
  have hlt := Nat.mod_lt a.toNat (show 0 < 4096 by decide)
  unfold partFrom
  rw [toNat_nextPage, if_neg (Nat.succ_ne_zero j)]
  split <;> omega

theorem pageCount_succ {a : Word} {n : Nat} (h : 4096 - a.toNat % 4096 < n) :
    pageCount a n = pageCount (a + BitVec.ofNat 64 (4096 - a.toNat % 4096)) (n - (4096 - a.toNat % 4096)) + 1 := by
  have hlt := Nat.mod_lt a.toNat (show 0 < 4096 by decide)
  unfold pageCount
  rw [toNat_nextPage, if_neg (by omega), if_neg (by omega)]
  omega

theorem part_zero (a : Word) {n : Nat} : part a n 0 = (a, 0, min (4096 - a.toNat % 4096) n) := by
  unfold part partLen partFrom
  simp

theorem part_succ {a : Word} {n : Nat} (j : Nat) :
    part a n (j + 1) = ((part (a + BitVec.ofNat 64 (4096 - a.toNat % 4096)) (n - (4096 - a.toNat % 4096)) j).1,
      (part (a + BitVec.ofNat 64 (4096 - a.toNat % 4096)) (n - (4096 - a.toNat % 4096)) j).2.1 + (4096 - a.toNat % 4096),
      (part (a + BitVec.ofNat 64 (4096 - a.toNat % 4096)) (n - (4096 - a.toNat % 4096)) j).2.2) := by
  unfold part partLen
  rw [partFrom_succ a j, partFrom_succ a (j + 1)]
  refine Prod.ext ?_ (Prod.ext ?_ ?_)
  · dsimp only
    rw [BitVec.ofNat_add, BitVec.add_assoc]
  · exact Nat.add_comm _ _
  · dsimp only
    omega

theorem pageCuts_eq (fuel : Nat) (a : Word) (n : Nat) : pageCuts a fuel n = (List.range (min fuel (pageCount a n))).map (part a n) := by
  induction fuel generalizing a n with
  | zero => rw [Nat.zero_min]; rfl
  | succ fuel ih =>
    cases n with
    | zero => rfl
    | succ n =>
      show (a, 0, min (4096 - a.toNat % 4096) (n + 1)) :: (pageCuts (a + BitVec.ofNat 64 (min (4096 - a.toNat % 4096) (n + 1))) fuel
        (n + 1 - min (4096 - a.toNat % 4096) (n + 1))).map (fun x => (x.1, x.2.1 + min (4096 - a.toNat % 4096) (n + 1), x.2.2)) = _
      by_cases hlast : n + 1 ≤ 4096 - a.toNat % 4096
      · have hnone : ∀ c, pageCuts c fuel 0 = [] := fun c => by cases fuel <;> rfl
        have hone : pageCount a (n + 1) = 1 := by
          unfold pageCount
          rw [if_neg (Nat.succ_ne_zero n)]
          omega
        rw [Nat.min_eq_right hlast, Nat.sub_self, hnone, hone, Nat.min_eq_right (Nat.succ_pos fuel)]
        exact congrArg (fun x => [x]) ((part_zero a).trans (by rw [Nat.min_eq_right hlast])).symm
      · have hroom : 4096 - a.toNat % 4096 < n + 1 := by omega
        rw [Nat.min_eq_left hroom.le, ih, pageCount_succ hroom, Nat.succ_min_succ, List.range_succ_eq_map, List.map_cons, List.map_map, List.map_map, part_zero,
          Nat.min_eq_left hroom.le]
        exact congrArg (List.cons _) (List.map_congr_left fun j _ => (part_succ j).symm)

theorem pageCuts_range (a : Word) (n : Nat) : pageCuts a (n / 4096 + 2) n = (List.range (pageCount a n)).map (part a n) := by
  rw [pageCuts_eq, Nat.min_eq_right (pageCount_le a n)]

/-! ## Chains of checks -/

section
variable {α β : Type} {step : β → α → Except Trap β} {l : List α}

theorem chain_error {e : Trap} {i : α} {lt : α → α → Prop} (hl : l.Pairwise lt) (hi : i ∈ l) (he : ∀ acc, step acc i = .error e)
    (hok : ∀ a ∈ l, lt a i → ∀ acc, ∃ v, step acc a = .ok v) (acc : β) : l.foldlM step acc = .error e := by
  induction l generalizing acc with
  | nil => cases hi
  | cons a l ih =>
    rw [List.foldlM_cons]
    rcases List.mem_cons.1 hi with rfl | hi
    · rw [he]
      rfl
    · obtain ⟨v, hv⟩ := hok a List.mem_cons_self ((List.pairwise_cons.1 hl).1 i hi) acc
      rw [hv]
      exact ih (List.pairwise_cons.1 hl).2 hi (fun c hc => hok c (List.mem_cons_of_mem _ hc)) v

end

theorem chain_append {α β : Type} {step : List β → α → Except Trap (List β)} {l : List α} {v : α → List β} (h : ∀ a ∈ l, ∀ acc, step acc a = .ok (acc ++ v a)) (acc : List β) :
    l.foldlM step acc = .ok (acc ++ l.flatMap v) := by
  induction l generalizing acc with
  | nil => exact congrArg Except.ok (List.append_nil acc).symm
  | cons a l ih =>
    rw [List.foldlM_cons, h a List.mem_cons_self]
    show l.foldlM step (acc ++ v a) = _
    rw [ih fun c hc => h c (List.mem_cons_of_mem _ hc), List.flatMap_cons, List.append_assoc]

/-! ## The bytes of the parts, joined -/

section
variable {a : Word} {n : Nat} {v : Nat → List Byte} (hv : ∀ j, (v j).length = partLen a n j)
include hv

theorem length_parts {J : Nat} (hJ : J ≤ pageCount a n) : ((List.range J).flatMap v).length = min (partFrom a J) n := by
  induction J with
  | zero => exact (Nat.zero_min n).symm
  | succ J ih =>
    have := lt_pageCount.1 (Nat.lt_of_succ_le hJ)
    have := partFrom_mono a (show J ≤ J + 1 by omega)
    rw [List.range_succ, List.flatMap_append, List.length_append, ih (Nat.le_of_succ_le hJ), List.flatMap_singleton, hv]
    unfold partLen
    omega

theorem length_range : ((List.range (pageCount a n)).flatMap v).length = n := by
  rw [length_parts hv le_rfl, Nat.min_eq_right]
  exact Nat.le_of_not_lt fun h => lt_irrefl _ (lt_pageCount.2 h)

theorem getD_parts {J : Nat} (hJ : J ≤ pageCount a n) {j x : Nat} (hj : j < J) (hx : x < partLen a n j) :
    ((List.range J).flatMap v).getD (partFrom a j + x) 0 = (v j).getD x 0 := by
  induction J with
  | zero => exact absurd hj (Nat.not_lt_zero j)
  | succ J ih =>
    have hlen := length_parts hv (Nat.le_of_succ_le hJ)
    rw [List.range_succ, List.flatMap_append, List.flatMap_singleton]
    rcases Nat.lt_succ_iff_lt_or_eq.1 hj with hj | rfl
    · have := partFrom_mono a (show j + 1 ≤ J from hj)
      rw [List.getD_append _ _ _ _ (by rw [hlen]; unfold partLen at hx; omega)]
      exact ih (Nat.le_of_succ_le hJ) hj
    · have := lt_pageCount.1 (Nat.lt_of_succ_le hJ)
      rw [List.getD_append_right _ _ _ _ (by omega), hlen, Nat.min_eq_left this.le, Nat.add_sub_cancel_left]

end

/-! ## Loads and stores -/

section
variable {s : State} {gr : GRef} {b : Block} {g : Group} (hb : s.block? gr.blk = some b) (hg : s.group? gr = some g) (a rep : Word)

/-- The check of part j of a load or store of n bytes. -/
def checkPart (s : State) (gr : GRef) (b : Block) (g : Group) (a : Word) (w : Bool) (n j : Nat) : Except Trap Acc :=
  s.check (s.groupWho b g gr.grp) b (coreIdx gr.grp) (rangeReq (a + BitVec.ofNat 64 (partFrom a j)) (partLen a n j) w) true

/-- An access of global memory goes to the package or to another. -/
theorem global_place {who : Who} {core : Option Nat} {q : Req} {r : Bool} {x : Acc} (hq : q.space = .gl) (h : s.check who b core q r = .ok x) :
    x.loc.store = .pkg ∨ ∃ p, x.loc.store = .far p := by
  unfold State.check at h
  rw [hq] at h
  unfold State.checkGlobal at h
  have h := (ok_of_ite (ok_of_ite h).2).2
  split at h
  · exact nomatch h
  next t _ =>
    have h := (ok_of_ite (ok_of_ite (ok_of_ite h).2).2).2
    split at h
    next p _ => exact .inr ⟨p, by rw [lateChecks_ok (ok_of_ite h).2]⟩
    · exact .inl (by rw [lateChecks_ok h]; rfl)

theorem checkPart_eq (w : Bool) (n j : Nat) :
    s.check (s.groupWho b g gr.grp) b (coreIdx gr.grp) (rangeReq (part a n j).1 (part a n j).2.2 w) true = checkPart s gr b g a w n j := rfl

include hb hg

theorem loadRange_ok {n : Nat} {f : Nat → Acc} (h : ∀ j, partFrom a j < n → checkPart s gr b g a false n j = .ok (f j)) :
    s.loadRange gr a n rep = .ok ((List.range (pageCount a n)).flatMap fun j => s.bytes (f j).loc (partLen a n j)) := by
  unfold State.loadRange
  rw [hb, hg]
  dsimp only
  rw [pageCuts_range, List.foldlM_map]
  refine (chain_append (v := fun j => s.bytes (f j).loc (partLen a n j)) (fun j hj acc => ?_) []).trans (by rw [List.nil_append])
  rw [checkPart_eq, h j (lt_pageCount.1 (List.mem_range.1 hj))]
  rfl

theorem loadRange_error {n j : Nat} {e : Trap} (hj : partFrom a j < n) (he : checkPart s gr b g a false n j = .error e)
    (hok : ∀ i, i < j → ∃ x, checkPart s gr b g a false n i = .ok x) : s.loadRange gr a n rep = .error { e with addr := rep } := by
  unfold State.loadRange
  rw [hb, hg]
  dsimp only
  rw [pageCuts_range, List.foldlM_map]
  refine chain_error List.pairwise_lt_range (List.mem_range.2 (lt_pageCount.2 hj)) (fun acc => by rw [checkPart_eq, he]) (fun i _ hi acc => ?_) []
  obtain ⟨x, hx⟩ := hok i hi
  exact ⟨_, by rw [checkPart_eq, hx]⟩

/-- The bytes of part j. -/
def partBytes (a : Word) (vs : List Byte) (j : Nat) : List Byte := (vs.drop (partFrom a j)).take (partLen a vs.length j)

omit hb hg in
theorem length_partBytes (vs : List Byte) (j : Nat) : (partBytes a vs j).length = partLen a vs.length j := by
  unfold partBytes partLen
  rw [List.length_take, List.length_drop]
  omega

omit hb hg in
theorem getD_partBytes (vs : List Byte) {j x : Nat} (hx : x < partLen a vs.length j) : (partBytes a vs j).getD x 0 = vs.getD (partFrom a j + x) 0 := by
  unfold partBytes
  rw [List.getD_eq_getElem?_getD, List.getD_eq_getElem?_getD, List.getElem?_take_of_lt hx, List.getElem?_drop]

/-- The store of part j. -/
def storePart (s : State) (gr : GRef) (b : Block) (g : Group) (a : Word) (vs : List Byte) (f : Nat → Acc) (u : State) (j : Nat) : State :=
  (u.request (f j).loc (.write (f j).loc.ofs (partBytes a vs j))).perform (s.groupWho b g gr.grp) (f j) (partBytes a vs j)

theorem storeRange_ok {vs : List Byte} {f : Nat → Acc} (h : ∀ j, partFrom a j < vs.length → checkPart s gr b g a true vs.length j = .ok (f j)) :
    s.storeRange gr a vs rep = .ok ((List.range (pageCount a vs.length)).foldl (storePart s gr b g a vs f) s) := by
  unfold State.storeRange
  rw [hb, hg]
  dsimp only
  rw [pageCuts_range, List.foldlM_map, collect_ok (v := fun j => (f j, partFrom a j, partLen a vs.length j)) (fun j hj acc => by
    rw [checkPart_eq, h j (lt_pageCount.1 (List.mem_range.1 hj))]
    rfl) []]
  show Except.ok _ = _
  rw [List.nil_append, List.foldl_map]
  rfl

theorem storeRange_error {vs : List Byte} {j : Nat} {e : Trap} (hj : partFrom a j < vs.length) (he : checkPart s gr b g a true vs.length j = .error e)
    (hok : ∀ i, i < j → ∃ x, checkPart s gr b g a true vs.length i = .ok x) : s.storeRange gr a vs rep = .error { e with addr := rep } := by
  unfold State.storeRange
  rw [hb, hg]
  dsimp only
  rw [pageCuts_range, List.foldlM_map, chain_error (lt := (· < ·)) (i := j) List.pairwise_lt_range (List.mem_range.2 (lt_pageCount.2 hj)) (fun acc => by rw [checkPart_eq, he])
    (fun i _ hi acc => by
      obtain ⟨x, hx⟩ := hok i hi
      exact ⟨_, by rw [checkPart_eq, hx]⟩) []]
  rfl

end

/-! ## What a store of many bytes leaves -/

section
variable {s : State} {gr : GRef} {b : Block} {g : Group} {a : Word} {vs : List Byte} {f : Nat → Acc}

theorem blocks_storePart {j : Nat} (h : (f j).loc.store = .pkg ∨ ∃ p, (f j).loc.store = .far p) (u : State) : (storePart s gr b g a vs f u j).blocks = u.blocks := by
  have hset : ∀ v : State, (v.setBytes (f j).loc (partBytes a vs j)).blocks = v.blocks := fun v => by
    unfold State.setBytes
    rcases h with h | ⟨p, h⟩ <;> rw [h] <;> rfl
  obtain ⟨v, hv, hend⟩ := perform_bytes (u.request (f j).loc (.write (f j).loc.ofs (partBytes a vs j))) (s.groupWho b g gr.grp) (f j) (partBytes a vs j)
  exact hend.blocks.trans ((hset v).trans (hv.blocks.trans (same_request _ _ _).blocks))

theorem stored_storePart {j : Nat} (h : (f j).loc.store = .pkg ∨ ∃ p, (f j).loc.store = .far p) (u : State) :
    u.Stored (storePart s gr b g a vs f u j) (f j).loc (partBytes a vs j) := by
  have hr := same_request u (f j).loc (.write (f j).loc.ofs (partBytes a vs j))
  have hholds : ∀ v : State, v.holds (f j).loc.store = true := fun v => by
    unfold State.holds
    rcases h with h | ⟨p, h⟩ <;> rw [h]
  obtain ⟨hw, hk⟩ := stored_perform _ (s.groupWho b g gr.grp) (f j) (partBytes a vs j) (hholds (u.request (f j).loc (.write (f j).loc.ofs (partBytes a vs j))))
  exact ⟨hw, fun l hl => (hk l hl).trans (hr.byte l)⟩

theorem stores_parts (h : ∀ j, partFrom a j < vs.length → (f j).loc.store = .pkg ∨ ∃ p, (f j).loc.store = .far p) :
    Stores s (storePart s gr b g a vs f) (fun j => (f j).loc) (partBytes a vs) (List.range (pageCount a vs.length)) := fun u _ j hj =>
  ⟨stored_storePart (h j (lt_pageCount.1 (List.mem_range.1 hj))) u, (shape_perform _ _ _ _).trans (shape_request _ _ _)⟩

theorem blocks_parts (l : List Nat) (h : ∀ j ∈ l, (f j).loc.store = .pkg ∨ ∃ p, (f j).loc.store = .far p) (u : State) :
    (l.foldl (storePart s gr b g a vs f) u).blocks = u.blocks := by
  induction l generalizing u with
  | nil => rfl
  | cons j l ih => exact (ih (fun i hi => h i (List.mem_cons_of_mem _ hi)) _).trans (blocks_storePart (h j List.mem_cons_self) u)

end

/-! ## Page by page -/

section
variable {s : State} {gr : GRef} {b : Block} {g : Group} (hb : s.block? gr.blk = some b) (hg : s.group? gr = some g) (a rep : Word)
include hb hg

theorem range_loads {n : Nat} {f : Nat → Acc} (h : ∀ j, partFrom a j < n → checkPart s gr b g a false n j = .ok (f j)) :
    ∃ bs, s.loadRange gr a n rep = .ok bs ∧ bs.length = n ∧ ∀ j x, partFrom a j < n → x < partLen a n j → bs.getD (partFrom a j + x) 0 = s.byte ((f j).loc.add x) := by
  have hlen : ∀ j, (s.bytes (f j).loc (partLen a n j)).length = partLen a n j := fun j => by
    unfold State.bytes
    rw [List.length_map, List.length_range]
  refine ⟨_, loadRange_ok hb hg a rep h, length_range hlen, fun j x hj hx => ?_⟩
  rw [getD_parts hlen le_rfl (lt_pageCount.2 hj) hx]
  unfold State.bytes
  rw [List.getD_eq_getElem?_getD, List.getElem?_map, List.getElem?_range hx]
  rfl

theorem range_stores {vs : List Byte} {f : Nat → Acc} (h : ∀ j, partFrom a j < vs.length → checkPart s gr b g a true vs.length j = .ok (f j))
    (hapart : ∀ i j, i ≠ j → partFrom a i < vs.length → partFrom a j < vs.length → ∀ x, x < partLen a vs.length i →
      ((f i).loc.add x).within (f j).loc (partLen a vs.length j) = false) :
    ∃ t, s.storeRange gr a vs rep = .ok t ∧ t.blocks = s.blocks ∧
      (∀ j x, partFrom a j < vs.length → x < partLen a vs.length j → t.byte ((f j).loc.add x) = vs.getD (partFrom a j + x) 0) ∧
      ∀ y, (∀ j, partFrom a j < vs.length → y.within (f j).loc (partLen a vs.length j) = false) → t.byte y = s.byte y := by
  have hplace : ∀ j, partFrom a j < vs.length → (f j).loc.store = .pkg ∨ ∃ p, (f j).loc.store = .far p := fun j hj => global_place rfl (h j hj)
  have hruns := stores_parts (s := s) (gr := gr) (b := b) (g := g) hplace
  have hpart : ∀ j ∈ List.range (pageCount a vs.length), partFrom a j < vs.length := fun j hj => lt_pageCount.1 (List.mem_range.1 hj)
  refine ⟨_, storeRange_ok hb hg a rep h, blocks_parts _ (fun j hj => hplace j (hpart j hj)) s, fun j x hj hx => ?_, fun y hy => ?_⟩
  · refine (hruns.done List.nodup_range (List.mem_range.2 (lt_pageCount.2 hj)) (by rw [length_partBytes]; exact hx) fun i hi hne => ?_).trans (getD_partBytes a vs hx)
    rw [length_partBytes]
    exact hapart j i (Ne.symm hne) hj (hpart i hi) x hx
  · exact hruns.kept rfl fun j hj => by
      rw [length_partBytes]
      exact hy j (hpart j hj)

end

end Sys2Proof.Proofs.RangeAccesses
end

section
/-! SUPPORT. An accepted access performs (R132-R135, R147, R254): O15. -/

namespace Sys2Proof.Proofs.Accesses

open Sys2Proof Sys2Proof.Machine Sys2Proof.Laws Sys2Proof.Proofs.Accepting Sys2Proof.Proofs.LaneValues Sys2Proof.Proofs.LanePerforms Sys2Proof.Proofs.Gathering
open Sys2Proof.Proofs.RangeAccesses

/-- Settles O15: lane by lane `lane_loads`, `lane_stores`, `lane_stds` and `lane_samples`; the values by `loadValue_…` and `storeBytes_…`; a gather by
`gather_…`; the group's own ranges by `range_loads` and `range_stores`. -/
theorem accessesPerform : Obligations.AccessesPerform := by
  unfold Obligations.AccessesPerform
  refine ⟨fun s gr k l b g m p w c h => ⟨fun hplace hholds => ⟨fun hload hgath hsamp => ?_, fun hstore => lane_stores h hplace hholds hstore,
    fun d a c hi => lane_stds h hplace hi⟩, fun d a c hi hs hhelp => ?_⟩, fun s m l p => ?_, fun s gr k lanes b g m d r c x hb hg hp hab hh hk hw hq hfirst _ hi _ => ?_,
    fun s gr b g a rep vs n f hb hg => ?_⟩
  · exact lane_loads h hplace ⟨hload, hgath, hsamp⟩ rfl
  · exact ⟨fun htex => sampleValue_none s htex l hi, lane_samples h ⟨_, _, _, hs⟩ hhelp (by rcases hs with hs | hs <;> rw [hs] <;> rfl) (by rcases hs with hs | hs <;> rw [hs] <;> rfl) rfl⟩
  · exact ⟨loadValue_word s m p, fun d a c x h => loadValue_element s m p h, fun d a c h => ⟨blockElem s m p, loadValue_block s m p h⟩, fun d a c h => loadValue_descs s m p h,
      storeBytes_word s m l p, fun d a c sp h => storeBytes_scalar s m l p h, fun d a c x h => storeBytes_element s m l p h⟩
  · have hnext : NextIn s gr b g k m := ⟨hb, hg, hp, hab, hh, hk, hw, hq⟩
    have hcheck : ∀ race, gathCheck s gr b g m race = s.check (s.memWho b g gr.grp m) b (coreIdx gr.grp)
        ⟨x, m.gathAddr m.pix, width (modeType m.mode) / 8, decide ((m.gathAddr m.pix).toNat % (width (modeType m.mode) / 8) = 0), true, false, false, true,
          x == .gl || x == .sp⟩ race := fun race => by
      unfold gathCheck gathReq
      rw [hi]
      rfl
    refine ⟨fun hend => ?_, fun hlt => ⟨fun hl => ⟨fun f hf => ?_, fun acc ha => ⟨fun hc => ?_, fun hc => ?_⟩⟩, fun hl hh => ⟨fun f hf => ?_, fun acc ha hc => ?_⟩,
      fun hl hh => ?_⟩⟩
    · exact ⟨_, _, gather_ends hnext hfirst hi lanes hend, group?_modGroup_self _ hg, fun y => byte_modGroup _ _ _ y, rfl, rfl, rfl⟩
    · exact gather_traps hnext hfirst hi lanes hlt (gathElem_error hl ((hcheck true).trans hf))
    · exact gather_waits hnext hfirst hi lanes hlt (gathElem_waits hl ((hcheck true).trans ha) hc)
    · obtain ⟨t, g', hexec, hg', hbyte, hv⟩ := gather_reads hnext hfirst hi lanes hlt hl ((hcheck true).trans ha) hc
      exact ⟨t, g', hexec, hg', hbyte, hv.states⟩
    · obtain ⟨t, g', hexec, hg', hbyte, hv⟩ := gather_helps hnext hfirst hi lanes hlt (gathElem_zero hi hl hh ((hcheck false).trans hf))
      exact ⟨t, g', hexec, hg', hbyte, hv.states⟩
    · obtain ⟨t, g', hexec, hg', hbyte, hv⟩ := gather_helps hnext hfirst hi lanes hlt (gathElem_helps hi hl hh ((hcheck false).trans ha) hc)
      exact ⟨t, g', hexec, hg', hbyte, hv.states⟩
    · obtain ⟨t, g', hexec, hg', hbyte, hv⟩ := gather_passes hnext hfirst hi lanes hlt hl hh
      exact ⟨t, g', hexec, hg', hbyte, hv.states⟩
  · refine ⟨fun w m j e hj he hok => ⟨fun hw hlen => ?_, fun hw => ?_⟩, fun h => range_loads hb hg a rep h, fun h hapart => range_stores hb hg a rep h hapart⟩
    · subst hw hlen
      exact storeRange_error hb hg a rep hj he hok
    · subst hw
      exact loadRange_error hb hg a rep hj he hok

end Sys2Proof.Proofs.Accesses
end
